-- ==== Sys2Proof/Word.lean ====
section
/-! DEFINITION. The word types of the K4 (00 R4): bit vectors of the widths the manual numbers, and the
plainest readings of them. -/

namespace Sys2Proof

abbrev W2 := BitVec 2
abbrev W3 := BitVec 3
abbrev W4 := BitVec 4
abbrev W8 := BitVec 8
/-- An operand field of an instruction word (03 R49). -/
abbrev W9 := BitVec 9
abbrev W16 := BitVec 16
abbrev W32 := BitVec 32
abbrev W64 := BitVec 64
/-- One byte of memory. -/
abbrev Byte := BitVec 8
/-- A set of the 32 lanes of a warp, bit l for lane l (01 R14). -/
abbrev Mask := BitVec 32

end Sys2Proof
end

