-- ==== Sys2Proof/Config.lean ====
section
/-! DEFINITION. What an implementation fixes and what the manual leaves open. An opaque constant here is a
free value: nothing in Lean can evaluate it, so a statement holds whatever it is (log entry 4). -/

namespace Sys2Proof.Config

/-- Cores of the package: 4 dies of 16 columns of 4 layers (00 R1, R3). -/
def numCores : Nat := 256
def warpSlots : Nat := 64
def coreBanks : Nat := 192
def bankBytes : Nat := 8192
def maxOps : Nat := 64
def mailboxSize : Nat := 256
def faultBufSize : Nat := 512
def eventCap : Nat := 4096
def inboundCap : Nat := 1024
def defaultWatchdogMs : Nat := 2000
def modulePowerW : Nat := 2400
def boostCapUJ : Nat := 4095000
/-- Sustained allowance of one column in mW (14 R250). -/
def columnAllowanceMW : Nat := 27500

/-- A free word: a value the manual leaves open, one for each value of the state's counter. -/
opaque freeWord : Nat → W32
/-- A free number: a choice the manual does not fix (order, placement, amount). -/
opaque freeNat : Nat → Nat
/-- The activity estimate the controller forms from its counters; its weights are not architectural (14 R236). -/
opaque estimate : Nat → Nat
/-- Power in mW of what is not a column of the module, which no rule gives (14 R251). -/
opaque restPower : Nat → Nat
/-- What a voltage sensor should read in mV at a current of its layer: its calibrated path resistance is not in the manual
(14 R256). -/
opaque expectedMv : Nat → Nat → Int
/-- Bytes of the certificate chain of the identity key (20 R310), which no rule gives. -/
opaque certificate : List Byte
/-- Bytes of an attestation signature over a digest (20 R310, R312): the key is not in the manual. -/
opaque signature : List Byte → List Byte
/-- Contents of M0, M1 and M2 at power-up: digests of ROMs and the calibration record (20 R311). -/
opaque measured : Nat → List Byte
/-- Bytes of the control record of a warp, whose layout no rule gives (13 R229). -/
opaque controlByte : Nat → Byte
/-- The fabric packet of a write to a peer: its bytes, whose form no rule gives (20 R302). -/
opaque fabricPacket : Nat → List Byte → List Byte
/-- The number of 32-byte fabric flits of a packet, which its first flit gives in a form that no rule gives (20 R302). -/
opaque packetFlits : List Byte → Nat
/-- The module at the other end of a link (20 R302). -/
opaque linkPeer : Nat → Nat
/-- The link a peer packet takes, a hash of its line address that no rule gives (20 R302). -/
opaque linkHash : Nat → Nat

end Sys2Proof.Config
end

