-- ==== Sys2Proof/Syntax.lean ====
section
/-! DEFINITION. The syntax of the K4: the operand forms and modifiers of 03 R52 to R62, and the one inductive of
the opcode table, one constructor per row. The first 138 rows are instruction words; the others are the whole
steps of the machine that 95_what_each_step_holds.md lists, each naming the agents it acts on. -/

namespace Sys2Proof

/-- Guard, lookahead and reuse hints of the common fields (03 R49). -/
structure Hdr where
  /-- guard predicate, 15 for pT -/
  gp : W4
  /-- negate the guard -/
  gn : Bool
  /-- lookahead distance -/
  la : W4
  /-- KEEPC, KEEPB, KEEPA in bits 2, 1, 0 -/
  keep : W3
deriving DecidableEq, Repr

/-- Operand B as a register or as IMM32 (03 R56). -/
inductive SrcB where
  | reg (n : W9)
  | imm (v : W32)
deriving DecidableEq, Repr

/-- Rounding mode (03 R62 RND). -/
inductive RM where
  | rne | rtz | rup | rdn
deriving DecidableEq, Repr

/-- M code RND without saturation. -/
structure Rnd where
  ftz : Bool
  rm : RM
deriving DecidableEq, Repr

/-- M code RND with saturation, for CVT, CVTN and CVTW. -/
structure RndS where
  sat : Bool
  ftz : Bool
  rm : RM
deriving DecidableEq, Repr

/-- M code INT: saturation and unsignedness. -/
structure IntM where
  sat : Bool
  u : Bool
deriving DecidableEq, Repr

/-- Access widths of M code MW. -/
inductive Width where
  | w8 | w16 | w32 | w64 | w128
deriving DecidableEq, Repr

/-- M code MW: sign extension and width. -/
structure MW where
  sx : Bool
  w : Width
deriving DecidableEq, Repr

inductive Cond where
  | eq | ne | lt | le | gt | ge
deriving DecidableEq, Repr

/-- M code ICND. -/
structure ICnd where
  u : Bool
  c : Cond
deriving DecidableEq, Repr

inductive FCond where
  | eq | ne | lt | le | gt | ge | num
deriving DecidableEq, Repr

/-- M code FCND. -/
structure FCnd where
  un : Bool
  c : FCond
deriving DecidableEq, Repr

/-- M code WOP. -/
inductive WOp where
  | add | minI | maxI | minN | maxN | and | or | xor | fadd | fmin | fmax
deriving DecidableEq, Repr

/-- M code AOP. -/
inductive AOp where
  | add32 | add64 | minI | maxI | minN | maxN | and | or | xor | exch32 | exch64 | inc | dec | fadd | fmin | fmax
deriving DecidableEq, Repr

inductive BarMode where
  | sync | arrive | wait
deriving DecidableEq, Repr

/-- M code MCONV. -/
inductive MConv where
  | raw | f16 | bf16 | slot (f : W3)
deriving DecidableEq, Repr

/-- Type codes of DTYPE and STYPE (03 R62). -/
inductive TypeCode where
  | i32 | n32 | i64 | n64 | i16 | n16 | i8 | n8 | f32 | f64 | f16 | bf16 | nar
deriving DecidableEq, Repr

inductive Order where
  | rlx | acq | rel | ar
deriving DecidableEq, Repr

/-- SCOPE of XMOD; dflt is the opcode's default scope (03 R54). -/
inductive Scope where
  | dflt | w | b | cl | d | k | s
deriving DecidableEq, Repr

/-- Source modifiers of XMOD (03 R54). -/
structure Mods where
  absC : Bool
  negC : Bool
  absB : Bool
  negB : Bool
  absA : Bool
  negA : Bool
deriving DecidableEq, Repr

/-- Memory modifiers of XMOD (03 R54, 07 R140). -/
structure MemX where
  colour : W3
  scope : Scope
  order : Order
deriving DecidableEq, Repr

/-- GV and GS of EXT64 (03 R55). -/
structure GField where
  gv : Bool
  gs : W4
deriving DecidableEq, Repr

inductive ShflMode where
  | idx | up | down | bfly
deriving DecidableEq, Repr

inductive VoteMode where
  | all | any | uni | ballot
deriving DecidableEq, Repr

inductive CctlMode where
  | inv | wb | wbinv
deriving DecidableEq, Repr

inductive WaitCond where
  | eq | ne | ge
deriving DecidableEq, Repr

/-- The special registers of 04 R82. -/
inductive SReg where
  | lane | warp | tid | bid | bidh | crank | core | column | layer | die | ctx
  | tsc | tsch | fstep | ratio | tband | boost | draw
  | mate (k : W2) | mrow (t : W3)
  | bconf | fflags | fen
  | caps (k : W2)
  | tcause | tpc | tpch | twin | tmask | taddr | taddrh | titer
  | split | gslots | qlen
  | shape (k : BitVec 5)
deriving DecidableEq, Repr

/-- The opcode table: one constructor per row. Register fields are the 9-bit field values of 03 R52. -/
inductive Instr where
  -- class CTRL
  | nop (h : Hdr)
  | bra (h : Hdr) (off : W32)
  | brx (h : Hdr) (a : W9)
  | call (h : Hdr) (off : W32)
  | callx (h : Hdr) (a : W9)
  | ret (h : Hdr)
  | exit (h : Hdr)
  | rep (cnt : W4) (sd sa sb sc : W3)
  | trap (h : Hdr) (k : W9)
  | bkpt (h : Hdr) (k : W9)
  | isync (h : Hdr)
  | nap (h : Hdr) (b : SrcB)
  | yield (h : Hdr)
  | resume (h : Hdr)
  | tret (h : Hdr)
  | srd (h : Hdr) (d : W9) (r : SReg)
  | swr (h : Hdr) (r : SReg) (a : W9)
  -- class INT
  | iadd (h : Hdr) (m : IntM) (d a : W9) (b : SrcB)
  | isub (h : Hdr) (m : IntM) (d a : W9) (b : SrcB)
  | iaddc (h : Hdr) (u : Bool) (d a : W9) (b : SrcB) (p : W4)
  | ineg (h : Hdr) (sat : Bool) (d a : W9)
  | iabs (h : Hdr) (sat : Bool) (d a : W9)
  | imul (h : Hdr) (m : IntM) (d a : W9) (b : SrcB)
  | imulh (h : Hdr) (u : Bool) (d a : W9) (b : SrcB)
  | imad (h : Hdr) (m : IntM) (d a : W9) (b : SrcB) (c : W9)
  | imadw (h : Hdr) (m : IntM) (d a : W9) (b : SrcB) (c : W9)
  | iadd64 (h : Hdr) (m : IntM) (d a : W9) (b : SrcB)
  | isub64 (h : Hdr) (m : IntM) (d a : W9) (b : SrcB)
  | imul64 (h : Hdr) (m : IntM) (d a b : W9)
  | imin (h : Hdr) (u : Bool) (d a : W9) (b : SrcB)
  | imax (h : Hdr) (u : Bool) (d a : W9) (b : SrcB)
  | isad (h : Hdr) (m : IntM) (d a : W9) (b : SrcB) (c : W9)
  | idot4 (h : Hdr) (m : IntM) (bn : Bool) (d a b c : W9)
  | idot2 (h : Hdr) (m : IntM) (bn : Bool) (d a b c : W9)
  | lea (h : Hdr) (sh : W2) (d a : W9) (b : SrcB)
  | lea64 (h : Hdr) (u : Bool) (sh : W2) (d a : W9) (b : SrcB)
  -- class BITS
  | lgate (h : Hdr) (d a b c : W9) (tab : W8)
  | shl (h : Hdr) (d a : W9) (b : SrcB)
  | shr (h : Hdr) (d a : W9) (b : SrcB)
  | sar (h : Hdr) (d a : W9) (b : SrcB)
  | rotl (h : Hdr) (d a : W9) (b : SrcB)
  | shf (h : Hdr) (right : Bool) (d a : W9) (b : SrcB) (c : W9)
  | popc (h : Hdr) (d a : W9)
  | clz (h : Hdr) (d a : W9)
  | ctz (h : Hdr) (d a : W9)
  | brev (h : Hdr) (d a : W9)
  | bfe (h : Hdr) (u : Bool) (d a : W9) (b : SrcB)
  | bfi (h : Hdr) (d a : W9) (b : SrcB) (c : W9)
  | prmt (h : Hdr) (d a : W9) (b : SrcB) (c : W9)
  | clmul (h : Hdr) (d a b : W9)
  | clmulh (h : Hdr) (d a b : W9)
  | clmulw (h : Hdr) (d a b : W9)
  -- class CMP
  | isetp (h : Hdr) (c : ICnd) (p : W4) (a : W9) (b : SrcB)
  | fsetp (h : Hdr) (c : FCnd) (p : W4) (a b : W9) (x : Option Mods)
  | dsetp (h : Hdr) (c : FCnd) (p : W4) (a b : W9) (x : Option Mods)
  | pgate (h : Hdr) (pd pa pb pc : W4) (tab : W8)
  | sel (h : Hdr) (d a : W9) (b : SrcB) (pc : W4)
  | p2v (h : Hdr) (d : W9)
  | v2p (h : Hdr) (a : W9) (b : SrcB)
  | mov (h : Hdr) (d a : W9)
  | movi (h : Hdr) (d : W9) (v : W32)
  | mov64i (h : Hdr) (d : W9) (v : W64)
  -- class FLT
  | fadd (h : Hdr) (r : Rnd) (d a : W9) (b : SrcB) (x : Option Mods)
  | fsub (h : Hdr) (r : Rnd) (d a : W9) (b : SrcB) (x : Option Mods)
  | fmul (h : Hdr) (r : Rnd) (d a : W9) (b : SrcB) (x : Option Mods)
  | ffma (h : Hdr) (r : Rnd) (d a : W9) (b : SrcB) (c : W9) (x : Option Mods)
  | fmin (h : Hdr) (d a : W9) (b : SrcB) (x : Option Mods)
  | fmax (h : Hdr) (d a : W9) (b : SrcB) (x : Option Mods)
  | frnd (h : Hdr) (r : Rnd) (d a : W9) (x : Option Mods)
  | fclass (h : Hdr) (d a : W9)
  | fexp (h : Hdr) (d a : W9)
  | fldexp (h : Hdr) (r : Rnd) (d a : W9) (b : SrcB) (x : Option Mods)
  | hadd2 (h : Hdr) (r : Rnd) (d a : W9) (b : SrcB) (x : Option Mods)
  | hmul2 (h : Hdr) (r : Rnd) (d a : W9) (b : SrcB) (x : Option Mods)
  | hfma2 (h : Hdr) (r : Rnd) (d a : W9) (b : SrcB) (c : W9) (x : Option Mods)
  | bfma2 (h : Hdr) (r : Rnd) (d a : W9) (b : SrcB) (c : W9) (x : Option Mods)
  -- class DBL
  | dadd (h : Hdr) (r : Rnd) (d a b : W9) (x : Option Mods)
  | dmul (h : Hdr) (r : Rnd) (d a b : W9) (x : Option Mods)
  | dfma (h : Hdr) (r : Rnd) (d a b c : W9) (x : Option Mods)
  | dmin (h : Hdr) (d a b : W9) (x : Option Mods)
  | dmax (h : Hdr) (d a b : W9) (x : Option Mods)
  | frcp (h : Hdr) (ftz : Bool) (d a : W9) (x : Option Mods)
  | frsq (h : Hdr) (ftz : Bool) (d a : W9) (x : Option Mods)
  | fsqrt (h : Hdr) (ftz : Bool) (d a : W9) (x : Option Mods)
  | fex2 (h : Hdr) (ftz : Bool) (d a : W9) (x : Option Mods)
  | flg2 (h : Hdr) (ftz : Bool) (d a : W9) (x : Option Mods)
  -- class CVT
  | cvt (h : Hdr) (r : RndS) (dt st : TypeCode) (na aa : Bool) (d a : W9)
  | cvtn (h : Hdr) (r : RndS) (st : TypeCode) (f : W3) (na aa : Bool) (d a : W9)
  | cvtw (h : Hdr) (r : RndS) (dt : TypeCode) (f : W3) (d a : W9)
  | pack4 (h : Hdr) (w4 : Bool) (d a : W9)
  | unpack4 (h : Hdr) (w4 : Bool) (d a : W9)
  -- class LANE
  | shfl (h : Hdr) (mode : ShflMode) (d a : W9) (b : SrcB)
  | vote (h : Hdr) (mode : VoteMode) (d : W9) (p : W4)
  | redw (h : Hdr) (op : WOp) (d a : W9)
  | scanw (h : Hdr) (op : WOp) (excl : Bool) (d a : W9)
  | matchv (h : Hdr) (all : Bool) (d a : W9)
  | active (h : Hdr) (d : W9)
  | wsync (h : Hdr) (b : SrcB)
  -- class MEM
  | ld (h : Hdr) (m : MW) (d a : W9) (off : Option W32) (x : Option MemX)
  | st (h : Hdr) (w : Width) (a b : W9) (cm : W8) (off : Option W32) (x : Option MemX)
  | lds (h : Hdr) (m : MW) (d a : W9) (off : Option W32)
  | sts (h : Hdr) (w : Width) (a b : W9) (off : Option W32)
  | stx (h : Hdr) (w : Width) (a b : W9) (off : Option W32) (x : Option MemX)
  | pref (h : Hdr) (a : W9) (off : Option W32)
  | cctl (h : Hdr) (mode : CctlMode) (a : W9) (off : Option W32)
  | icinv (h : Hdr) (a : W9) (off : Option W32)
  -- class SYNC
  | atom (h : Hdr) (op : AOp) (d a b : W9) (off : Option W32) (x : Option MemX)
  | atomc (h : Hdr) (dbl : Bool) (d a b c : W9) (off : Option W32) (x : Option MemX)
  | red (h : Hdr) (op : AOp) (a b : W9) (off : Option W32) (x : Option MemX)
  | fence (h : Hdr) (cm : W8) (x : Option Scope)
  | waita (h : Hdr) (c : WaitCond) (d a : W9) (b : SrcB)
  -- class BAR
  | bar (h : Hdr) (mode : BarMode) (swap : Bool) (n : W9)
  | barsv (h : Hdr) (d n : W9)
  | barld (h : Hdr) (n b : W9)
  | bpv (h : Hdr) (stale : W4) (d a : W9) (hd : W4) (c : W9)
  | bvm (h : Hdr) (vm : W3) (a : W9) (hd : W4)
  | brst (h : Hdr) (hd : W4)
  | vmpop (h : Hdr) (d : W9) (vm : W3)
  | vmtst (h : Hdr) (p : W4) (vm : W3) (b : SrcB)
  | vmnext (h : Hdr) (d : W9) (vm : W3) (b : SrcB)
  -- class MAT
  | mma (h : Hdr) (t : W3) (a b : W9) (k : W16) (fa fb : W3) (g : GField)
  | mmas (h : Hdr) (s48 : Bool) (t : W3) (a b c : W9) (k : W16) (fa fb : W3) (g : GField)
  | mmz (h : Hdr) (t : W3)
  | mmrd (h : Hdr) (cv : MConv) (d : W9) (t : W3) (b : SrcB)
  | mmwr (h : Hdr) (cv : MConv) (t : W3) (a : W9) (b : SrcB)
  | mmld (h : Hdr) (cv : MConv) (t : W3) (a : W9) (g : GField)
  | mmst (h : Hdr) (cv : MConv) (t : W3) (a : W9) (colour : W3) (g : GField)
  | mmwait (h : Hdr) (t : W3)
  | cmprs (h : Hdr) (s48 : Bool) (d a b : W9) (k : W16) (fa : W3) (colour : W3)
  -- class ENG
  | qpush (h : Hdr) (q : W2) (a : W9)
  | qpop (h : Hdr) (d : W9) (q : W2)
  | job (h : Hdr) (a : W9)
  | gset (h : Hdr) (g : W4) (p : W4)
  -- class PWR
  | draw (h : Hdr) (b : SrcB)
  | burn (h : Hdr) (b : SrcB)
  | shunt (h : Hdr) (p : W4) (b : SrcB)
  -- class WORK
  | spawn (h : Hdr) (b : SrcB)
  | sendw (h : Hdr) (a b : W9)
  -- steps of warps
  | takeTrap (core slot : Nat)
  | splitHang (core slot : Nat)
  | watchdog (core slot : Nat)
  | napWake (core slot : Nat)
  | loadComplete (core slot op : Nat)
  | loadServe (core slot op : Nat)
  -- steps of the memory system
  | writeArrival (msg : Nat)
  | heldWriteApply (msg : Nat)
  | writeNoticeArrival (msg : Nat)
  | atomicPerform (msg : Nat)
  | atomicComplete (core slot op : Nat)
  | dieStoreEviction (die line : Nat)
  | cctlWbAck (core slot : Nat)
  | icinvComplete (core slot : Nat)
  | stxDelivery (key : Nat)
  | swapComplete (key : Nat)
  | barrierArrivalSignal (key : Nat)
  | pageWalkComplete (core slot op : Nat) (malformed : Bool)
  | faultBufferSlotFree (die : Nat)
  | tlbShootdownComplete (ctx : Nat)
  -- steps of the engines
  | engineAdmit (core : Nat)
  | engineOpStart (blk op : Nat)
  | engineOpComplete (blk op : Nat)
  | engineFaultResume (blk op : Nat)
  | blockLimitRelease (core slot : Nat)
  | qpopWake (core slot op : Nat)
  | waitaSatisfy (core slot op : Nat)
  -- steps of the board engine
  | boardPostRequest (key : Nat)
  | boardViewRequest (key : Nat)
  | boardResetRequest (key : Nat)
  | boardViewDelivery (key : Nat)
  -- steps of placement and work
  | blockPlace (die : Nat)
  | coopPlace (grid : Nat)
  | stealRequest (victim : Nat)
  | stealReply (thief : Nat)
  | stealRetry (thief : Nat)
  | fabricStepChange (domain occ : Nat)
  | workPacketArrival (key : Nat)
  | dispatchPacket (die : Nat)
  | childRangeAccept (die : Nat)
  -- steps of pre-emption
  | preemptRaise (grid : Nat)
  | blockLeave (blk : Nat)
  | arrivalLogAppend (blk : Nat)
  | blockRestorePlace (blk : Nat)
  | gridComplete (grid : Nat)
  -- steps of power and heat
  | columnWindowBoundary (col : Nat)
  | estimateRescale (col feed : Nat)
  | throttleEngage (col bnd : Nat)
  | throttleStepChange (col layer : Nat)
  | stackMismatch (col bnd : Nat)
  | stepChange (col : Nat)
  | boostUpdate (col : Nat)
  | boostRise (col : Nat)
  | thermalCeilingTick (col : Nat)
  | sensorSample (col : Nat) (mv : List Int) (temp : List Int)
  | sensorStuck (col sensor : Nat)
  | sensorRevalidate (col sensor : Nat)
  | openBumpEvent (col sensor : Nat)
  | regulatorAdjust (die : Nat)
  | columnGate (col : Nat)
  | columnPowerStage (col : Nat)
  -- steps of travel mode
  | caravanArrival (key : Nat)
  | caravanPromotion (core merged : Nat)
  | travelReplicaGrant (grid : Nat)
  -- steps of the links and the host port
  | floidFlitReceive (link : Nat) (flit : List Byte)
  | floidNakReceive (link : Nat) (seq : W8)
  | floidLinkRetrain (link : Nat)
  | floidLinkFail (link : Nat)
  | inboundPostedWrite (fn off : Nat) (bytes : List Byte)
  | pieceAcknowledge (num line : Nat)
  | inboundRead (fn off n : Nat)
  | nonpostedRelease (fn : Nat)
  | sqtail (fn q : Nat) (v : W32)
  | cqhead (fn q : Nat) (v : W32)
  | queueRegisterWrite (fn off : Nat) (v : W64)
  | completionPost (fn q : Nat)
  -- commands, each the head of a queue pair
  | queryCapabilities (fn q : Nat)
  | queryCertificates (fn q : Nat)
  | queryFigures (fn q : Nat)
  | attest (fn q : Nat)
  | healthStatus (fn q : Nat)
  | healthEvents (fn q : Nat)
  | healthEnergy (fn q : Nat)
  | healthSetPowerCap (fn q : Nat)
  | healthRecalibrate (fn q : Nat)
  | healthCoreReset (fn q : Nat)
  | ctxOpen (fn q : Nat)
  | ctxClose (fn q : Nat)
  | map (fn q : Nat)
  | unmap (fn q : Nat)
  | faultReplyRetry (fn q : Nat)
  | faultReplyFail (fn q : Nat)
  | launch (fn q : Nat)
  | launchAccept (grid : Nat)
  | preempt (fn q : Nat)
  | restore (fn q : Nat)
  | boardMake (fn q : Nat)
  | debugAttach (fn q : Nat)
  | debugDetach (fn q : Nat)
  | debugHalt (fn q : Nat)
  | debugStep (fn q : Nat)
  | debugContinue (fn q : Nat)
  -- stages and resets
  | coreReset (die : Nat)
  | dieRecalibrate (die : Nat)
  | longLatencyCompletion (core slot op : Nat)
  | instructionFetchFill (core line : Nat)
  | floidLinkTrained (link : Nat)
  -- steps without an operand
  | frameBoundary
  | powerCapSample
  | powerCapRelax
  | powerGood
  | glazeTransition
  | powerLoss
deriving DecidableEq, Repr

end Sys2Proof
end

