-- ==== Sys2Proof/WellFormed.lean ====
section
/-! DEFINITION. Which instructions a word of the K4 can hold: the static limits of the operand kinds (03 R52), of
the primary modifier M (03 R62), of XMOD and EXT64 (03 R54, R55; 06 R97; 07 R140) and of IMM32 (03 R56). What a
launch decides (declared registers, tiles, features, ceilings) is no part of it. -/

namespace Sys2Proof

/-- Operand kind w: an even register (03 R52). -/
def isPair (n : W9) : Bool := n.toNat % 2 == 0

/-- Operand kind v4: a multiple of 4 (03 R52). -/
def isQuad (n : W9) : Bool := n.toNat % 4 == 0

/-- Operand kind vk: k registers that end at or below v511 (03 R52). -/
def isGroup (n : W9) (k : Nat) : Bool := n.toNat + k ≤ 512

/-- A predicate destination is p0 to p14 (03 R52). -/
def isDest (p : W4) : Bool := p.toNat < 15

/-- Registers of a memory operand of the width: single, pair or group of four (03 R61). -/
def Width.fits (w : Width) (n : W9) : Bool :=
  match w with
  | .w8 | .w16 | .w32 => true
  | .w64 => isPair n
  | .w128 => isQuad n

/-- M code MW: sign extension only with .8 and .16 (03 R62). -/
def MW.ok (m : MW) : Bool :=
  match m.w with
  | .w8 | .w16 => true
  | .w32 | .w64 | .w128 => !m.sx

def Mods.noA (x : Mods) : Bool := !x.absA && !x.negA
def Mods.noB (x : Mods) : Bool := !x.absB && !x.negB
def Mods.noC (x : Mods) : Bool := !x.absC && !x.negC

/-- Whether the source modifiers are among those the opcode allows on A, B and C (06 R97). -/
def modsOk (b c : Bool) (x : Option Mods) : Bool :=
  match x with
  | none => true
  | some x => (b || x.noB) && (c || x.noC)

/-- Operand B of a 64, X, W opcode: an immediate stands only in the W form, which has an XMOD, and takes no
source modifier (03 R57, 06 R97). -/
def floatBOk (b : SrcB) (x : Option Mods) : Bool :=
  match b, x with
  | .reg _, _ => true
  | .imm _, some x => x.noB
  | .imm _, none => false

/-- The form of a memory operand: 64 (neither), I (offset) or W (offset and XMOD) (03 R61). -/
def formOk (off : Option W32) (x : Option MemX) : Bool := off.isSome || x.isNone

/-- The memory modifiers allowed by the table of 07 R140. -/
def memXOk (orders : List Order) (scopes : List Scope) (colour : Bool) (x : Option MemX) : Bool :=
  match x with
  | none => true
  | some x => orders.contains x.order && scopes.contains x.scope && (colour || x.colour == 0)

def allScopes : List Scope := [.dflt, .w, .b, .cl, .d, .k, .s]

/-- Whether the operation is 64 bits wide (07 R146). -/
def AOp.is64 (o : AOp) : Bool := o == .add64 || o == .exch64

def TypeCode.isFloat : TypeCode → Bool
  | .f32 | .f64 | .f16 | .bf16 => true
  | .i32 | .n32 | .i64 | .n64 | .i16 | .n16 | .i8 | .n8 | .nar => false

/-- Types held in a register pair (06 R121). -/
def TypeCode.isPairType : TypeCode → Bool
  | .i64 | .n64 | .f64 => true
  | .i32 | .n32 | .i16 | .n16 | .i8 | .n8 | .f32 | .f16 | .bf16 | .nar => false

/-- The source or destination types of CVTN and CVTW (06 R122, R123). -/
def TypeCode.isShort : TypeCode → Bool
  | .f32 | .f16 | .bf16 => true
  | .i32 | .n32 | .i64 | .n64 | .i16 | .n16 | .i8 | .n8 | .f64 | .nar => false

/-- Metadata registers of a sparse group of K logical elements: K × b / 16 with b 2 or 3 (08 R173). -/
def metaRegs (s48 : Bool) (k : W16) : Nat := k.toNat * (if s48 then 3 else 2) / 16

/-- KCNT: nonzero and a multiple of 16, which a multiple of 48 is too (03 R55, 08 R172). -/
def kOk (k : W16) : Bool := k != 0 && k.toNat % 16 == 0

/-- DRAW, BURN: bits 15:4 of the immediate are zero (03 R56). -/
def powerImmOk (v : W32) : Bool := v.extractLsb' 4 12 == 0

/-- SWR writes %fflags and %fen only (04 R82). -/
def SReg.writable (r : SReg) : Bool := r == .fflags || r == .fen

/-- Whether the constructor is an instruction word; the others are steps of the machine (95). -/
def Instr.isWord : Instr → Bool
  | .nop .. | .bra .. | .brx .. | .call .. | .callx .. | .ret .. | .exit .. | .rep .. | .trap .. | .bkpt .. | .isync ..
  | .nap .. | .yield .. | .resume .. | .tret .. | .srd .. | .swr .. => true
  | .iadd .. | .isub .. | .iaddc .. | .ineg .. | .iabs .. | .imul .. | .imulh .. | .imad .. | .imadw .. | .iadd64 ..
  | .isub64 .. | .imul64 .. | .imin .. | .imax .. | .isad .. | .idot4 .. | .idot2 .. | .lea .. | .lea64 .. => true
  | .lgate .. | .shl .. | .shr .. | .sar .. | .rotl .. | .shf .. | .popc .. | .clz .. | .ctz .. | .brev .. | .bfe ..
  | .bfi .. | .prmt .. | .clmul .. | .clmulh .. | .clmulw .. => true
  | .isetp .. | .fsetp .. | .dsetp .. | .pgate .. | .sel .. | .p2v .. | .v2p .. | .mov .. | .movi .. | .mov64i .. => true
  | .fadd .. | .fsub .. | .fmul .. | .ffma .. | .fmin .. | .fmax .. | .frnd .. | .fclass .. | .fexp .. | .fldexp ..
  | .hadd2 .. | .hmul2 .. | .hfma2 .. | .bfma2 .. => true
  | .dadd .. | .dmul .. | .dfma .. | .dmin .. | .dmax .. | .frcp .. | .frsq .. | .fsqrt .. | .fex2 .. | .flg2 .. => true
  | .cvt .. | .cvtn .. | .cvtw .. | .pack4 .. | .unpack4 .. => true
  | .shfl .. | .vote .. | .redw .. | .scanw .. | .matchv .. | .active .. | .wsync .. => true
  | .ld .. | .st .. | .lds .. | .sts .. | .stx .. | .pref .. | .cctl .. | .icinv .. => true
  | .atom .. | .atomc .. | .red .. | .fence .. | .waita .. => true
  | .bar .. | .barsv .. | .barld .. | .bpv .. | .bvm .. | .brst .. | .vmpop .. | .vmtst .. | .vmnext .. => true
  | .mma .. | .mmas .. | .mmz .. | .mmrd .. | .mmwr .. | .mmld .. | .mmst .. | .mmwait .. | .cmprs .. => true
  | .qpush .. | .qpop .. | .job .. | .gset .. | .draw .. | .burn .. | .shunt .. | .spawn .. | .sendw .. => true
  | .takeTrap .. | .splitHang .. | .watchdog .. | .napWake .. | .loadComplete .. | .loadServe .. => false
  | .writeArrival .. | .heldWriteApply .. | .writeNoticeArrival .. | .atomicPerform .. | .atomicComplete .. => false
  | .dieStoreEviction .. | .cctlWbAck .. | .icinvComplete .. | .stxDelivery .. | .swapComplete .. => false
  | .barrierArrivalSignal .. | .pageWalkComplete .. | .faultBufferSlotFree .. | .tlbShootdownComplete .. => false
  | .engineAdmit .. | .engineOpStart .. | .engineOpComplete .. | .engineFaultResume .. | .blockLimitRelease .. => false
  | .qpopWake .. | .waitaSatisfy .. | .boardPostRequest .. | .boardViewRequest .. | .boardResetRequest .. => false
  | .boardViewDelivery .. | .blockPlace .. | .coopPlace .. | .stealRequest .. | .stealReply .. | .stealRetry .. => false
  | .frameBoundary | .fabricStepChange .. | .workPacketArrival .. | .dispatchPacket .. | .childRangeAccept .. => false
  | .preemptRaise .. | .blockLeave .. | .arrivalLogAppend .. | .blockRestorePlace .. | .gridComplete .. => false
  | .columnWindowBoundary .. | .estimateRescale .. | .throttleEngage .. | .throttleStepChange .. | .stackMismatch .. => false
  | .stepChange .. | .boostUpdate .. | .boostRise .. | .thermalCeilingTick .. | .powerCapSample | .powerCapRelax => false
  | .sensorSample .. | .sensorStuck .. | .sensorRevalidate .. | .openBumpEvent .. | .regulatorAdjust .. => false
  | .columnGate .. | .columnPowerStage .. | .caravanArrival .. | .caravanPromotion .. | .travelReplicaGrant .. => false
  | .floidFlitReceive .. | .floidNakReceive .. | .floidLinkRetrain .. | .floidLinkFail .. | .inboundPostedWrite .. => false
  | .pieceAcknowledge .. | .inboundRead .. | .nonpostedRelease .. | .sqtail .. | .cqhead .. | .queueRegisterWrite .. => false
  | .completionPost .. | .queryCapabilities .. | .queryCertificates .. | .queryFigures .. | .attest .. => false
  | .healthStatus .. | .healthEvents .. | .healthEnergy .. | .healthSetPowerCap .. | .healthRecalibrate .. => false
  | .healthCoreReset .. | .ctxOpen .. | .ctxClose .. | .map .. | .unmap .. | .faultReplyRetry .. | .faultReplyFail .. => false
  | .launch .. | .launchAccept .. | .preempt .. | .restore .. | .boardMake .. | .debugAttach .. | .debugDetach .. => false
  | .debugHalt .. | .debugStep .. | .debugContinue .. | .powerGood | .glazeTransition | .coreReset .. => false
  | .dieRecalibrate .. | .longLatencyCompletion .. | .instructionFetchFill .. | .powerLoss | .floidLinkTrained .. => false

/-- The static limits of the instruction's fields. -/
def Instr.wf (i : Instr) : Bool :=
  match i with
  | .bra _ off | .call _ off => off.extractLsb' 0 2 == 0
  | .brx _ a | .callx _ a => isPair a
  | .swr _ r _ => r.writable
  | .iaddc _ _ _ _ _ p => isDest p
  | .imadw _ _ d _ _ c => isPair d && isPair c
  | .iadd64 _ _ d a b | .isub64 _ _ d a b =>
      isPair d && isPair a && (match b with | .reg n => isPair n | .imm _ => true)
  | .imul64 _ _ d a b => isPair d && isPair a && isPair b
  | .lea64 _ _ _ d a _ => isPair d && isPair a
  | .clmulw _ d _ _ => isPair d
  | .isetp _ _ p _ _ => isDest p
  | .fsetp _ _ p _ _ x => isDest p && modsOk true false x
  | .dsetp _ _ p a b x => isDest p && isPair a && isPair b && modsOk true false x
  | .pgate _ pd _ _ _ _ => isDest pd
  | .mov64i _ d _ => isPair d
  | .fadd _ _ _ _ b x | .fsub _ _ _ _ b x | .fmul _ _ _ _ b x | .hadd2 _ _ _ _ b x | .hmul2 _ _ _ _ b x
  | .fmin _ _ _ b x | .fmax _ _ _ b x => floatBOk b x && modsOk true false x
  | .ffma _ _ _ _ b _ x | .hfma2 _ _ _ _ b _ x | .bfma2 _ _ _ _ b _ x => floatBOk b x && modsOk true true x
  | .fldexp _ _ _ _ b x => floatBOk b x && modsOk false false x
  | .frnd _ _ _ _ x => modsOk false false x
  | .dadd _ _ d a b x | .dmul _ _ d a b x | .dmin _ d a b x | .dmax _ d a b x =>
      isPair d && isPair a && isPair b && modsOk true false x
  | .dfma _ _ d a b c x => isPair d && isPair a && isPair b && isPair c && modsOk true true x
  | .frcp _ _ _ _ x | .frsq _ _ _ _ x | .fsqrt _ _ _ _ x | .fex2 _ _ _ _ x | .flg2 _ _ _ _ x => modsOk false false x
  | .cvt _ r dt sty na aa d a =>
      dt != .nar && sty != .nar && (!dt.isPairType || isPair d) && (!sty.isPairType || isPair a)
      && (sty.isFloat || (!na && !aa)) && (sty.isFloat || dt.isFloat || (r.rm == .rne && !r.ftz))
  | .cvtn _ _ sty _ _ _ _ _ => sty.isShort
  | .cvtw _ _ dt _ _ _ => dt.isShort
  | .pack4 _ _ _ a => isQuad a
  | .unpack4 _ _ d _ => isQuad d
  | .vote _ mode d _ => mode == .ballot || d.toNat < 15
  | .ld _ m d a off x => m.ok && m.w.fits d && isPair a && formOk off x && memXOk [.rlx, .acq] allScopes false x
  | .st _ w a b _ off x => w.fits b && isPair a && formOk off x && memXOk [.rlx, .rel] allScopes true x
  | .lds _ m d _ _ => m.ok && m.w.fits d
  | .sts _ w _ b _ => w.fits b
  | .stx _ w a b off x => w.fits b && isPair a && formOk off x && memXOk [.rlx] [.dflt, .cl, .k] false x
  | .pref _ a _ | .cctl _ _ a _ | .icinv _ a _ => isPair a
  | .atom _ op d a b off x =>
      isPair a && (!op.is64 || (isPair d && isPair b)) && formOk off x && memXOk [.rlx, .acq, .rel, .ar] allScopes true x
  | .atomc _ dbl d a b c off x =>
      isPair a && (!dbl || (isPair d && isPair b && isPair c)) && formOk off x
      && memXOk [.rlx, .acq, .rel, .ar] allScopes true x
  | .red _ op a b off x =>
      isPair a && (!op.is64 || isPair b) && op != .exch32 && op != .exch64 && formOk off x
      && memXOk [.rlx, .rel] allScopes true x
  | .bar _ mode swap _ => !(mode == .wait && swap)
  | .bpv _ _ _ a _ _ => isPair a
  | .vmtst _ p _ _ => isDest p
  | .mma _ _ a b k _ _ _ => isGroup a 8 && isGroup b 8 && kOk k
  | .mmas _ s48 _ a b c k _ _ _ => isGroup a 8 && isGroup b 8 && kOk k && isGroup c (metaRegs s48 k)
  | .mmld _ _ _ a _ | .mmst _ _ _ a _ _ => isGroup a 8
  | .cmprs _ s48 d a b k _ _ => isGroup a 8 && isGroup b 8 && kOk k && isGroup d (metaRegs s48 k)
  | .job _ a => isGroup a 32
  | .draw _ b | .burn _ b => (match b with | .reg _ => true | .imm v => powerImmOk v)
  | .shunt _ p b => isDest p && (match b with | .reg _ => true | .imm v => powerImmOk v && (v.extractLsb' 0 4).toNat ≤ 8)
  | .spawn _ b =>
      (match b with
       | .reg _ => true
       | .imm v => v.extractLsb' 21 11 == 0 && v.extractLsb' 16 5 != 0)
  | .sendw _ a _ => isGroup a 8
  | .nop .. | .ret .. | .exit .. | .rep .. | .trap .. | .bkpt .. | .isync .. | .nap .. | .yield .. | .resume ..
  | .tret .. | .srd .. | .iadd .. | .isub .. | .ineg .. | .iabs .. | .imul .. | .imulh .. | .imad .. | .imin ..
  | .imax .. | .isad .. | .idot4 .. | .idot2 .. | .lea .. | .lgate .. | .shl .. | .shr .. | .sar .. | .rotl ..
  | .shf .. | .popc .. | .clz .. | .ctz .. | .brev .. | .bfe .. | .bfi .. | .prmt .. | .clmul .. | .clmulh ..
  | .sel .. | .p2v .. | .v2p .. | .mov .. | .movi .. | .fclass .. | .fexp .. | .shfl .. | .redw .. | .scanw ..
  | .matchv .. | .active .. | .wsync .. | .fence .. | .waita .. | .barsv .. | .barld .. | .bvm .. | .brst ..
  | .vmpop .. | .vmnext .. | .mmz .. | .mmrd .. | .mmwr .. | .mmwait .. | .qpush .. | .qpop .. | .gset .. => true
  | .takeTrap .. | .splitHang .. | .watchdog .. | .napWake .. | .loadComplete .. | .loadServe .. | .writeArrival ..
  | .heldWriteApply .. | .writeNoticeArrival .. | .atomicPerform .. | .atomicComplete .. | .dieStoreEviction .. | .cctlWbAck .. | .icinvComplete ..
  | .stxDelivery .. | .swapComplete .. | .barrierArrivalSignal .. | .pageWalkComplete .. | .faultBufferSlotFree .. | .tlbShootdownComplete .. | .engineAdmit ..
  | .engineOpStart .. | .engineOpComplete .. | .engineFaultResume .. | .blockLimitRelease .. | .qpopWake .. | .waitaSatisfy .. | .boardPostRequest ..
  | .boardViewRequest .. | .boardResetRequest .. | .boardViewDelivery .. | .blockPlace .. | .coopPlace .. | .stealRequest .. | .stealReply ..
  | .stealRetry .. | .frameBoundary | .fabricStepChange .. | .workPacketArrival .. | .dispatchPacket .. | .childRangeAccept .. | .preemptRaise ..
  | .blockLeave .. | .arrivalLogAppend .. | .blockRestorePlace .. | .gridComplete .. | .columnWindowBoundary .. | .estimateRescale .. | .throttleEngage ..
  | .throttleStepChange .. | .stackMismatch .. | .stepChange .. | .boostUpdate .. | .boostRise .. | .thermalCeilingTick .. | .powerCapSample
  | .powerCapRelax | .sensorSample .. | .sensorStuck .. | .sensorRevalidate .. | .openBumpEvent .. | .regulatorAdjust .. | .columnGate ..
  | .columnPowerStage .. | .caravanArrival .. | .caravanPromotion .. | .travelReplicaGrant .. | .floidFlitReceive .. | .floidNakReceive .. | .floidLinkRetrain ..
  | .floidLinkFail .. | .inboundPostedWrite .. | .pieceAcknowledge .. | .inboundRead .. | .nonpostedRelease .. | .sqtail .. | .cqhead ..
  | .queueRegisterWrite .. | .completionPost .. | .queryCapabilities .. | .queryCertificates .. | .queryFigures .. | .attest .. | .healthStatus ..
  | .healthEvents .. | .healthEnergy .. | .healthSetPowerCap .. | .healthRecalibrate .. | .healthCoreReset .. | .ctxOpen .. | .ctxClose ..
  | .map .. | .unmap .. | .faultReplyRetry .. | .faultReplyFail .. | .launch .. | .launchAccept .. | .preempt ..
  | .restore .. | .boardMake .. | .debugAttach .. | .debugDetach .. | .debugHalt .. | .debugStep .. | .debugContinue ..
  | .powerGood | .glazeTransition | .coreReset .. | .dieRecalibrate .. | .longLatencyCompletion .. | .instructionFetchFill .. | .powerLoss
  | .floidLinkTrained .. => true

end Sys2Proof
end

