-- ==== Sys2Proof/Decode.lean ====
section
/-! DEFINITION. The decoder of instruction words, total on any bits and rejecting by cause (03 R47 to R64), and
after it the encoder, written from the same tables. The opcode map is 03 R58 to R61. -/

namespace Sys2Proof

/-- The decode causes that a word alone decides, in the order of 03 R63. -/
inductive DecodeCause where
  | badLength | fetchCross | unimplOp | badField | privileged
deriving DecidableEq, Repr

/-- The common fields (03 R49) and the bits above 63, zero where the format has none (03 R53). -/
structure Raw where
  m : W4
  c : W9
  b : W9
  a : W9
  d : W9
  keep : W3
  la : W4
  gn : BitVec 1
  gp : W4
  opc : BitVec 10
  len : W2
  ext : W64
deriving DecidableEq, Repr

/-- Bytes of an instruction of the length code, none for 0b11 (03 R47). -/
def lenBytes (len : W2) : Option Nat :=
  match len.toNat with
  | 0 => some 8
  | 1 => some 12
  | 2 => some 16
  | _ => none

/-- Bits above 63 that a length leaves in the instruction (03 R53). -/
def extOf (len : W2) (e : W64) : W64 :=
  match len.toNat with
  | 0 => 0
  | 1 => (e.extractLsb' 0 32).setWidth 64
  | _ => e

/-- Split a word into its fields. -/
def Raw.ofBits (w : BitVec 128) : Raw :=
  let len : W2 := w.extractLsb' 0 2
  ⟨w.extractLsb' 60 4, w.extractLsb' 51 9, w.extractLsb' 42 9, w.extractLsb' 33 9, w.extractLsb' 24 9,
   w.extractLsb' 21 3, w.extractLsb' 17 4, w.extractLsb' 16 1, w.extractLsb' 12 4, w.extractLsb' 2 10, len,
   extOf len (w.extractLsb' 64 64)⟩

/-- Join the fields to a word. -/
def Raw.bits (r : Raw) : BitVec 128 :=
  r.ext ++ r.m ++ r.c ++ r.b ++ r.a ++ r.d ++ r.keep ++ r.la ++ r.gn ++ r.gp ++ r.opc ++ r.len

def Raw.hdr (r : Raw) : Hdr := ⟨r.gp, r.gn == 1, r.la, r.keep⟩

/-- IMM32 of F96-I, and XMOD of F96-X and F128-W (03 R53). -/
def Raw.lo (r : Raw) : W32 := r.ext.extractLsb' 0 32
/-- IMM32 of F128-W (03 R53). -/
def Raw.hi (r : Raw) : W32 := r.ext.extractLsb' 32 32

/- The M codes and the small codes of XMOD (03 R54, R62). -/

def Bool.bit (b : Bool) : BitVec 1 := if b then 1 else 0

def RM.dec (v : W2) : RM :=
  match v.toNat with
  | 0 => .rne
  | 1 => .rtz
  | 2 => .rup
  | _ => .rdn

def RM.enc : RM → W2
  | .rne => 0
  | .rtz => 1
  | .rup => 2
  | .rdn => 3

def RndS.dec (m : W4) : RndS := ⟨m.getLsbD 3, m.getLsbD 2, RM.dec (m.extractLsb' 0 2)⟩
def RndS.enc (r : RndS) : W4 := Bool.bit r.sat ++ Bool.bit r.ftz ++ r.rm.enc

def Rnd.dec (m : W4) : Option Rnd :=
  if m.getLsbD 3 then none else some ⟨m.getLsbD 2, RM.dec (m.extractLsb' 0 2)⟩
def Rnd.enc (r : Rnd) : W4 := Bool.bit false ++ Bool.bit r.ftz ++ r.rm.enc

/-- RND with RM = 0 and SAT = 0 (03 R60). -/
def ftzDec (m : W4) : Option Bool := if m == 0 then some false else if m == 4 then some true else none
def ftzEnc (f : Bool) : W4 := if f then 4 else 0

def IntM.dec (m : W4) : Option IntM :=
  if m.extractLsb' 0 2 == 0 then some ⟨m.getLsbD 3, m.getLsbD 2⟩ else none
def IntM.enc (m : IntM) : W4 := Bool.bit m.sat ++ Bool.bit m.u ++ 0#2

/-- INT with SUB bit 1 for an unsigned B (06 R102). -/
def dotDec (m : W4) : Option (IntM × Bool) :=
  if m.getLsbD 0 then none else some (⟨m.getLsbD 3, m.getLsbD 2⟩, m.getLsbD 1)
def dotEnc (m : IntM) (bn : Bool) : W4 := Bool.bit m.sat ++ Bool.bit m.u ++ Bool.bit bn ++ 0#1

def Width.dec (v : W3) : Option Width :=
  match v.toNat with
  | 0 => some .w8
  | 1 => some .w16
  | 2 => some .w32
  | 3 => some .w64
  | 4 => some .w128
  | _ => none

def Width.enc : Width → W3
  | .w8 => 0
  | .w16 => 1
  | .w32 => 2
  | .w64 => 3
  | .w128 => 4

def MW.dec (m : W4) : Option MW := (Width.dec (m.extractLsb' 0 3)).map (⟨m.getLsbD 3, ·⟩)
def MW.enc (m : MW) : W4 := Bool.bit m.sx ++ m.w.enc

def Cond.dec (v : W3) : Option Cond :=
  match v.toNat with
  | 0 => some .eq
  | 1 => some .ne
  | 2 => some .lt
  | 3 => some .le
  | 4 => some .gt
  | 5 => some .ge
  | _ => none

def Cond.enc : Cond → W3
  | .eq => 0
  | .ne => 1
  | .lt => 2
  | .le => 3
  | .gt => 4
  | .ge => 5

def ICnd.dec (m : W4) : Option ICnd := (Cond.dec (m.extractLsb' 0 3)).map (⟨m.getLsbD 3, ·⟩)
def ICnd.enc (m : ICnd) : W4 := Bool.bit m.u ++ m.c.enc

def FCond.dec (v : W3) : Option FCond :=
  match v.toNat with
  | 0 => some .eq
  | 1 => some .ne
  | 2 => some .lt
  | 3 => some .le
  | 4 => some .gt
  | 5 => some .ge
  | 6 => some .num
  | _ => none

def FCond.enc : FCond → W3
  | .eq => 0
  | .ne => 1
  | .lt => 2
  | .le => 3
  | .gt => 4
  | .ge => 5
  | .num => 6

def FCnd.dec (m : W4) : Option FCnd := (FCond.dec (m.extractLsb' 0 3)).map (⟨m.getLsbD 3, ·⟩)
def FCnd.enc (m : FCnd) : W4 := Bool.bit m.un ++ m.c.enc

def WOp.dec (m : W4) : Option WOp :=
  match m.toNat with
  | 0 => some .add
  | 1 => some .minI
  | 2 => some .maxI
  | 3 => some .minN
  | 4 => some .maxN
  | 5 => some .and
  | 6 => some .or
  | 7 => some .xor
  | 8 => some .fadd
  | 9 => some .fmin
  | 10 => some .fmax
  | _ => none

def WOp.enc : WOp → W4
  | .add => 0
  | .minI => 1
  | .maxI => 2
  | .minN => 3
  | .maxN => 4
  | .and => 5
  | .or => 6
  | .xor => 7
  | .fadd => 8
  | .fmin => 9
  | .fmax => 10

def AOp.ofM (m : W4) : AOp :=
  match m.toNat with
  | 0 => .add32
  | 1 => .add64
  | 2 => .minI
  | 3 => .maxI
  | 4 => .minN
  | 5 => .maxN
  | 6 => .and
  | 7 => .or
  | 8 => .xor
  | 9 => .exch32
  | 10 => .exch64
  | 11 => .inc
  | 12 => .dec
  | 13 => .fadd
  | 14 => .fmin
  | _ => .fmax

def AOp.enc : AOp → W4
  | .add32 => 0
  | .add64 => 1
  | .minI => 2
  | .maxI => 3
  | .minN => 4
  | .maxN => 5
  | .and => 6
  | .or => 7
  | .xor => 8
  | .exch32 => 9
  | .exch64 => 10
  | .inc => 11
  | .dec => 12
  | .fadd => 13
  | .fmin => 14
  | .fmax => 15

def barDec (m : W4) : Option (BarMode × Bool) :=
  if m.getLsbD 3 then none
  else match (m.extractLsb' 0 2).toNat with
    | 0 => some (.sync, m.getLsbD 2)
    | 1 => some (.arrive, m.getLsbD 2)
    | 2 => some (.wait, m.getLsbD 2)
    | _ => none

def BarMode.enc : BarMode → W2
  | .sync => 0
  | .arrive => 1
  | .wait => 2

def barEnc (mode : BarMode) (swap : Bool) : W4 := 0#1 ++ Bool.bit swap ++ mode.enc

def MConv.dec (m : W4) : Option MConv :=
  if m.getLsbD 3 then some (.slot (m.extractLsb' 0 3))
  else match m.toNat with
    | 0 => some .raw
    | 1 => some .f16
    | 2 => some .bf16
    | _ => none

def MConv.enc : MConv → W4
  | .raw => 0
  | .f16 => 1
  | .bf16 => 2
  | .slot f => 1#1 ++ f

def TypeCode.dec (v : W4) : Option TypeCode :=
  match v.toNat with
  | 0 => some .i32
  | 1 => some .n32
  | 2 => some .i64
  | 3 => some .n64
  | 4 => some .i16
  | 5 => some .n16
  | 6 => some .i8
  | 7 => some .n8
  | 8 => some .f32
  | 9 => some .f64
  | 10 => some .f16
  | 11 => some .bf16
  | 12 => some .nar
  | _ => none

def TypeCode.enc : TypeCode → W4
  | .i32 => 0
  | .n32 => 1
  | .i64 => 2
  | .n64 => 3
  | .i16 => 4
  | .n16 => 5
  | .i8 => 6
  | .n8 => 7
  | .f32 => 8
  | .f64 => 9
  | .f16 => 10
  | .bf16 => 11
  | .nar => 12

def Order.dec (v : W2) : Order :=
  match v.toNat with
  | 0 => .rlx
  | 1 => .acq
  | 2 => .rel
  | _ => .ar

def Order.enc : Order → W2
  | .rlx => 0
  | .acq => 1
  | .rel => 2
  | .ar => 3

def Scope.dec (v : W3) : Option Scope :=
  match v.toNat with
  | 0 => some .dflt
  | 1 => some .w
  | 2 => some .b
  | 3 => some .cl
  | 4 => some .d
  | 5 => some .k
  | 6 => some .s
  | _ => none

def Scope.enc : Scope → W3
  | .dflt => 0
  | .w => 1
  | .b => 2
  | .cl => 3
  | .d => 4
  | .k => 5
  | .s => 6

def SReg.num : SReg → W9
  | .lane => 0x000
  | .warp => 0x001
  | .tid => 0x002
  | .bid => 0x003
  | .bidh => 0x004
  | .crank => 0x005
  | .core => 0x006
  | .column => 0x007
  | .layer => 0x008
  | .die => 0x009
  | .ctx => 0x00A
  | .tsc => 0x010
  | .tsch => 0x011
  | .fstep => 0x012
  | .ratio => 0x013
  | .tband => 0x018
  | .boost => 0x019
  | .draw => 0x01A
  | .mate k => 0b0000111#7 ++ k
  | .mrow t => 0b000100#6 ++ t
  | .bconf => 0x028
  | .fflags => 0x030
  | .fen => 0x031
  | .caps k => 0b0001110#7 ++ k
  | .tcause => 0x040
  | .tpc => 0x041
  | .tpch => 0x042
  | .twin => 0x043
  | .tmask => 0x044
  | .taddr => 0x045
  | .taddrh => 0x046
  | .titer => 0x047
  | .split => 0x050
  | .gslots => 0x051
  | .qlen => 0x052
  | .shape k => 0b0011#4 ++ k

/-- The special-register map (04 R82). -/
def SReg.ofNum (n : W9) : Option SReg :=
  match n.toNat with
  | 0x000 => some .lane
  | 0x001 => some .warp
  | 0x002 => some .tid
  | 0x003 => some .bid
  | 0x004 => some .bidh
  | 0x005 => some .crank
  | 0x006 => some .core
  | 0x007 => some .column
  | 0x008 => some .layer
  | 0x009 => some .die
  | 0x00A => some .ctx
  | 0x010 => some .tsc
  | 0x011 => some .tsch
  | 0x012 => some .fstep
  | 0x013 => some .ratio
  | 0x018 => some .tband
  | 0x019 => some .boost
  | 0x01A => some .draw
  | 0x028 => some .bconf
  | 0x030 => some .fflags
  | 0x031 => some .fen
  | 0x040 => some .tcause
  | 0x041 => some .tpc
  | 0x042 => some .tpch
  | 0x043 => some .twin
  | 0x044 => some .tmask
  | 0x045 => some .taddr
  | 0x046 => some .taddrh
  | 0x047 => some .titer
  | 0x050 => some .split
  | 0x051 => some .gslots
  | 0x052 => some .qlen
  | _ =>
    if n.extractLsb' 2 7 == 0b0000111#7 then some (.mate (n.extractLsb' 0 2))
    else if n.extractLsb' 3 6 == 0b000100#6 then some (.mrow (n.extractLsb' 0 3))
    else if n.extractLsb' 2 7 == 0b0001110#7 then some (.caps (n.extractLsb' 0 2))
    else if n.extractLsb' 5 4 == 0b0011#4 then some (.shape (n.extractLsb' 0 5))
    else none

/-- Special registers privileged to programs: 0x100 to 0x1FF (04 R82). -/
def isPrivileged (n : W9) : Bool := n.getLsbD 8

/- Operand fields (03 R52). -/

/-- A field of a kind with k-bit values: none when the field is larger. -/
def small (k : Nat) (n : W9) : Option (BitVec k) := if n.toNat < 2 ^ k then some (n.setWidth k) else none

/-- A kind-k field that holds 0 or 1. -/
def flag (n : W9) : Option Bool := if n == 0 then some false else if n == 1 then some true else none
def flagEnc (b : Bool) : W9 := if b then 1 else 0

/-- M values 0 and 1. -/
def mflag (m : W4) : Option Bool := if m == 0 then some false else if m == 1 then some true else none
def mflagEnc (b : Bool) : W4 := if b then 1 else 0

/-- Accept when the condition holds. -/
def opt {α : Type} (ok : Bool) (x : α) : Option α := if ok then some x else none

def Raw.is64 (r : Raw) : Bool := r.len == 0
def Raw.is96 (r : Raw) : Bool := r.len == 1
def Raw.is128 (r : Raw) : Bool := r.len == 2

/-- Operand B of an opcode with forms 64 and I (03 R56). -/
def Raw.srcI (r : Raw) : Option SrcB :=
  if r.is64 then some (.reg r.b)
  else if r.is96 then opt (r.b == 0) (.imm r.lo)
  else none

/-- Source modifiers in XMOD, every other field 0 (03 R54). -/
def Mods.dec (x : W32) : Option Mods :=
  opt (x.extractLsb' 30 2 == 0 && x.extractLsb' 0 24 == 0)
    ⟨x.getLsbD 29, x.getLsbD 28, x.getLsbD 27, x.getLsbD 26, x.getLsbD 25, x.getLsbD 24⟩

def Mods.enc (x : Mods) : W32 :=
  0#2 ++ Bool.bit x.absC ++ Bool.bit x.negC ++ Bool.bit x.absB ++ Bool.bit x.negB ++ Bool.bit x.absA ++ Bool.bit x.negA
  ++ 0#24

/-- ORDER, SCOPE and COLOUR in XMOD, every other field 0 (03 R54). -/
def MemX.dec (x : W32) : Option MemX :=
  match Scope.dec (x.extractLsb' 10 3) with
  | some sc =>
    opt (x.extractLsb' 16 16 == 0 && x.extractLsb' 0 8 == 0) ⟨x.extractLsb' 13 3, sc, Order.dec (x.extractLsb' 8 2)⟩
  | none => none

def MemX.enc (x : MemX) : W32 := 0#16 ++ x.colour ++ x.scope.enc ++ x.order.enc ++ 0#8

/-- Source modifiers of an opcode with forms 64 and X. -/
def Raw.modsX (r : Raw) : Option (Option Mods) :=
  if r.is64 then some none
  else if r.is96 then (Mods.dec r.lo).map some
  else none

/-- Operand B and source modifiers of an opcode with forms 64, X and W. -/
def Raw.srcXW (r : Raw) : Option (SrcB × Option Mods) :=
  if r.is64 then some (.reg r.b, none)
  else if r.is96 then (Mods.dec r.lo).map (fun x => (.reg r.b, some x))
  else if r.is128 then
    match Mods.dec r.lo with
    | some x => opt (r.b == 0) (.imm r.hi, some x)
    | none => none
  else none

/-- Byte offset of an opcode with forms 64 and I. -/
def Raw.offI (r : Raw) : Option (Option W32) :=
  if r.is64 then some none
  else if r.is96 then some (some r.lo)
  else none

/-- Byte offset and memory modifiers of an opcode with forms 64, I and W. -/
def Raw.offIW (r : Raw) : Option (Option W32 × Option MemX) :=
  if r.is64 then some (none, none)
  else if r.is96 then some (some r.lo, none)
  else if r.is128 then (MemX.dec r.lo).map (fun x => (some r.hi, some x))
  else none

/-- The fields of EXT64 (03 R55). -/
structure Ext where
  g : GField
  fb : W3
  fa : W3
  colour : W3
  k : W16
deriving DecidableEq, Repr

def Ext.dec (e : W64) : Option Ext :=
  opt (e.extractLsb' 40 24 == 0 && e.extractLsb' 16 10 == 0)
    ⟨⟨e.getLsbD 35, e.extractLsb' 36 4⟩, e.extractLsb' 32 3, e.extractLsb' 29 3, e.extractLsb' 26 3, e.extractLsb' 0 16⟩

def Ext.enc (x : Ext) : W64 :=
  0#24 ++ x.g.gs ++ Bool.bit x.g.gv ++ x.fb ++ x.fa ++ x.colour ++ 0#10 ++ x.k

def Raw.extM (r : Raw) : Option Ext := if r.is128 then Ext.dec r.ext else none

/-- The fields D, A, B, C that the row leaves unused are 0 (03 R52). -/
def Raw.only (r : Raw) (d a b c : Bool) : Bool :=
  (d || r.d == 0) && (a || r.a == 0) && (b || r.b == 0) && (c || r.c == 0)

/- One function for each shape of row in the tables 03 R59 to R61. -/

/-- D, A, B of forms 64 and I, M code INT. -/
def Raw.intI (r : Raw) (f : Hdr → IntM → W9 → W9 → SrcB → Instr) : Option Instr := do
  let m ← IntM.dec r.m
  let b ← r.srcI
  opt (r.c == 0) (f r.hdr m r.d r.a b)

/-- D, A, B, C of forms 64 and I, M code INT. -/
def Raw.intIC (r : Raw) (f : Hdr → IntM → W9 → W9 → SrcB → W9 → Instr) : Option Instr := do
  let m ← IntM.dec r.m
  let b ← r.srcI
  some (f r.hdr m r.d r.a b r.c)

/-- D, A, B of forms 64 and I, M code INT without saturation. -/
def Raw.intU (r : Raw) (f : Hdr → Bool → W9 → W9 → SrcB → Instr) : Option Instr := do
  let m ← IntM.dec r.m
  let b ← r.srcI
  opt (r.c == 0 && !m.sat) (f r.hdr m.u r.d r.a b)

/-- D, A, B of forms 64 and I, M = 0. -/
def Raw.plainI (r : Raw) (f : Hdr → W9 → W9 → SrcB → Instr) : Option Instr := do
  let b ← r.srcI
  opt (r.m == 0 && r.c == 0) (f r.hdr r.d r.a b)

/-- D, A, B, C of forms 64 and I, M = 0. -/
def Raw.plainIC (r : Raw) (f : Hdr → W9 → W9 → SrcB → W9 → Instr) : Option Instr := do
  let b ← r.srcI
  opt (r.m == 0) (f r.hdr r.d r.a b r.c)

/-- D, A of form 64, M = 0. -/
def Raw.plainDA (r : Raw) (f : Hdr → W9 → W9 → Instr) : Option Instr :=
  opt (r.is64 && r.m == 0 && r.only true true false false) (f r.hdr r.d r.a)

/-- D, A, B of form 64, M = 0. -/
def Raw.plainDAB (r : Raw) (f : Hdr → W9 → W9 → W9 → Instr) : Option Instr :=
  opt (r.is64 && r.m == 0 && r.only true true true false) (f r.hdr r.d r.a r.b)

/-- No operand, form 64, M = 0. -/
def Raw.bare (r : Raw) (f : Hdr → Instr) : Option Instr :=
  opt (r.is64 && r.m == 0 && r.only false false false false) (f r.hdr)

/-- D, A, B of forms 64, X, W, M code RND. -/
def Raw.rndXW (r : Raw) (f : Hdr → Rnd → W9 → W9 → SrcB → Option Mods → Instr) : Option Instr := do
  let m ← Rnd.dec r.m
  let b ← r.srcXW
  opt (r.c == 0) (f r.hdr m r.d r.a b.1 b.2)

/-- D, A, B, C of forms 64, X, W, M code RND. -/
def Raw.rndXWC (r : Raw) (f : Hdr → Rnd → W9 → W9 → SrcB → W9 → Option Mods → Instr) : Option Instr := do
  let m ← Rnd.dec r.m
  let b ← r.srcXW
  some (f r.hdr m r.d r.a b.1 r.c b.2)

/-- D, A, B of forms 64, X, W, M = 0. -/
def Raw.plainXW (r : Raw) (f : Hdr → W9 → W9 → SrcB → Option Mods → Instr) : Option Instr := do
  let b ← r.srcXW
  opt (r.m == 0 && r.c == 0) (f r.hdr r.d r.a b.1 b.2)

/-- D, A, B of forms 64 and X, M code RND. -/
def Raw.rndX (r : Raw) (f : Hdr → Rnd → W9 → W9 → W9 → Option Mods → Instr) : Option Instr := do
  let m ← Rnd.dec r.m
  let x ← r.modsX
  opt (r.c == 0) (f r.hdr m r.d r.a r.b x)

/-- D, A, B of forms 64 and X, M = 0. -/
def Raw.plainX (r : Raw) (f : Hdr → W9 → W9 → W9 → Option Mods → Instr) : Option Instr := do
  let x ← r.modsX
  opt (r.m == 0 && r.c == 0) (f r.hdr r.d r.a r.b x)

/-- D, A of forms 64 and X, M code RND with RM = 0. -/
def Raw.ftzX (r : Raw) (f : Hdr → Bool → W9 → W9 → Option Mods → Instr) : Option Instr := do
  let m ← ftzDec r.m
  let x ← r.modsX
  opt (r.only true true false false) (f r.hdr m r.d r.a x)

/-- Predicate D, A, B of forms 64 and X, M code FCND. -/
def Raw.cmpX (r : Raw) (f : Hdr → FCnd → W4 → W9 → W9 → Option Mods → Instr) : Option Instr := do
  let m ← FCnd.dec r.m
  let x ← r.modsX
  let p ← small 4 r.d
  opt (r.c == 0) (f r.hdr m p r.a r.b x)

/-- Saturation and A of INEG and IABS. -/
def Raw.intSat (r : Raw) (f : Hdr → Bool → W9 → W9 → Instr) : Option Instr := do
  let m ← IntM.dec r.m
  opt (r.is64 && !m.u && r.only true true false false) (f r.hdr m.sat r.d r.a)

def Raw.dot (r : Raw) (f : Hdr → IntM → Bool → W9 → W9 → W9 → W9 → Instr) : Option Instr := do
  let m ← dotDec r.m
  opt r.is64 (f r.hdr m.1 m.2 r.d r.a r.b r.c)

/-- A (a global address) and an offset, M = 0. -/
def Raw.lineI (r : Raw) (f : Hdr → W9 → Option W32 → Instr) : Option Instr := do
  let off ← r.offI
  opt (r.m == 0 && r.only false true false false) (f r.hdr r.a off)

/-- The row of the opcode, before the limits of WellFormed. -/
def Raw.row (r : Raw) : Option Instr :=
  match r.opc.toNat with
  -- CTRL
  | 0x000 => r.bare .nop
  | 0x001 => opt (r.is96 && r.m == 0 && r.only false false false false) (.bra r.hdr r.lo)
  | 0x002 => opt (r.is64 && r.m == 0 && r.only false true false false) (.brx r.hdr r.a)
  | 0x003 => opt (r.is96 && r.m == 0 && r.only false false false false) (.call r.hdr r.lo)
  | 0x004 => opt (r.is64 && r.m == 0 && r.only false true false false) (.callx r.hdr r.a)
  | 0x005 => r.bare .ret
  | 0x006 => r.bare .exit
  | 0x007 =>
    opt (r.is64 && r.m == 0 && r.c == 0 && r.b == 0 && r.a.extractLsb' 3 6 == 0 && r.keep == 0
         && !r.la.getLsbD 3 && r.gp == 15)
      (.rep (r.la.extractLsb' 0 3 ++ r.gn) (r.d.extractLsb' 0 3) (r.d.extractLsb' 3 3) (r.d.extractLsb' 6 3)
        (r.a.extractLsb' 0 3))
  | 0x008 => opt (r.is64 && r.m == 0 && r.only false false true false) (.trap r.hdr r.b)
  | 0x009 => opt (r.is64 && r.m == 0 && r.only false false true false) (.bkpt r.hdr r.b)
  | 0x00A => r.bare .isync
  | 0x00B => do
    let b ← r.srcI
    opt (r.m == 0 && r.only false false true false) (.nap r.hdr b)
  | 0x00C => r.bare .yield
  | 0x00D => r.bare .resume
  | 0x00E => r.bare .tret
  | 0x00F => do
    let s ← SReg.ofNum r.a
    opt (r.is64 && r.m == 0 && r.only true true false false) (.srd r.hdr r.d s)
  | 0x010 => do
    let s ← SReg.ofNum r.d
    opt (r.is64 && r.m == 0 && r.only true true false false) (.swr r.hdr s r.a)
  -- INT
  | 0x040 => r.intI .iadd
  | 0x041 => r.intI .isub
  | 0x042 => do
    let m ← IntM.dec r.m
    let b ← r.srcI
    let p ← small 4 r.c
    opt (!m.sat) (.iaddc r.hdr m.u r.d r.a b p)
  | 0x043 => r.intSat .ineg
  | 0x044 => r.intSat .iabs
  | 0x045 => r.intI .imul
  | 0x046 => r.intU .imulh
  | 0x047 => r.intIC .imad
  | 0x048 => r.intIC .imadw
  | 0x049 => r.intI .iadd64
  | 0x04A => r.intI .isub64
  | 0x04B => do
    let m ← IntM.dec r.m
    opt (r.is64 && r.c == 0) (.imul64 r.hdr m r.d r.a r.b)
  | 0x04C => r.intU .imin
  | 0x04D => r.intU .imax
  | 0x04E => r.intIC .isad
  | 0x04F => r.dot .idot4
  | 0x050 => r.dot .idot2
  | 0x051 => do
    let b ← r.srcI
    opt (r.m.extractLsb' 2 2 == 0 && r.c == 0) (.lea r.hdr (r.m.extractLsb' 0 2) r.d r.a b)
  | 0x052 => do
    let b ← r.srcI
    opt (!r.m.getLsbD 3 && r.c == 0) (.lea64 r.hdr (r.m.getLsbD 2) (r.m.extractLsb' 0 2) r.d r.a b)
  -- BITS
  | 0x080 => opt (r.is96 && r.m == 0 && r.lo.extractLsb' 8 24 == 0) (.lgate r.hdr r.d r.a r.b r.c (r.lo.extractLsb' 0 8))
  | 0x081 => r.plainI .shl
  | 0x082 => r.plainI .shr
  | 0x083 => r.plainI .sar
  | 0x084 => r.plainI .rotl
  | 0x085 => do
    let m ← mflag r.m
    let b ← r.srcI
    some (.shf r.hdr m r.d r.a b r.c)
  | 0x086 => r.plainDA .popc
  | 0x087 => r.plainDA .clz
  | 0x088 => r.plainDA .ctz
  | 0x089 => r.plainDA .brev
  | 0x08A => do
    let m ← ftzDec r.m
    let b ← r.srcI
    opt (r.c == 0) (.bfe r.hdr m r.d r.a b)
  | 0x08B => r.plainIC .bfi
  | 0x08C => r.plainIC .prmt
  | 0x08D => r.plainDAB .clmul
  | 0x08E => r.plainDAB .clmulh
  | 0x08F => r.plainDAB .clmulw
  -- CMP
  | 0x0C0 => do
    let m ← ICnd.dec r.m
    let b ← r.srcI
    let p ← small 4 r.d
    opt (r.c == 0) (.isetp r.hdr m p r.a b)
  | 0x0C1 => r.cmpX .fsetp
  | 0x0C2 => r.cmpX .dsetp
  | 0x0C3 => do
    let pd ← small 4 r.d
    let pa ← small 4 r.a
    let pb ← small 4 r.b
    let pc ← small 4 r.c
    opt (r.is96 && r.m == 0 && r.lo.extractLsb' 8 24 == 0) (.pgate r.hdr pd pa pb pc (r.lo.extractLsb' 0 8))
  | 0x0C4 => do
    let b ← r.srcI
    let p ← small 4 r.c
    opt (r.m == 0) (.sel r.hdr r.d r.a b p)
  | 0x0C5 => opt (r.is64 && r.m == 0 && r.only true false false false) (.p2v r.hdr r.d)
  | 0x0C6 => do
    let b ← r.srcI
    opt (r.m == 0 && r.only false true true false) (.v2p r.hdr r.a b)
  | 0x0C7 => r.plainDA .mov
  | 0x0C8 => opt (r.is96 && r.m == 0 && r.only true false false false) (.movi r.hdr r.d r.lo)
  | 0x0C9 => opt (r.is128 && r.m == 0 && r.only true false false false) (.mov64i r.hdr r.d r.ext)
  -- FLT
  | 0x100 => r.rndXW .fadd
  | 0x101 => r.rndXW .fsub
  | 0x102 => r.rndXW .fmul
  | 0x103 => r.rndXWC .ffma
  | 0x104 => r.plainXW .fmin
  | 0x105 => r.plainXW .fmax
  | 0x106 => do
    let m ← Rnd.dec r.m
    let x ← r.modsX
    opt (r.only true true false false) (.frnd r.hdr m r.d r.a x)
  | 0x107 => r.plainDA .fclass
  | 0x108 => r.plainDA .fexp
  | 0x109 => r.rndXW .fldexp
  | 0x10A => r.rndXW .hadd2
  | 0x10B => r.rndXW .hmul2
  | 0x10C => r.rndXWC .hfma2
  | 0x10D => r.rndXWC .bfma2
  -- DBL
  | 0x140 => r.rndX .dadd
  | 0x141 => r.rndX .dmul
  | 0x142 => do
    let m ← Rnd.dec r.m
    let x ← r.modsX
    some (.dfma r.hdr m r.d r.a r.b r.c x)
  | 0x143 => r.plainX .dmin
  | 0x144 => r.plainX .dmax
  | 0x145 => r.ftzX .frcp
  | 0x146 => r.ftzX .frsq
  | 0x147 => r.ftzX .fsqrt
  | 0x148 => r.ftzX .fex2
  | 0x149 => r.ftzX .flg2
  -- CVT
  | 0x180 => do
    let dt ← TypeCode.dec (r.lo.extractLsb' 20 4)
    let st ← TypeCode.dec (r.lo.extractLsb' 16 4)
    opt (r.is96 && r.only true true false false && r.lo.extractLsb' 26 6 == 0 && r.lo.extractLsb' 0 16 == 0)
      (.cvt r.hdr (RndS.dec r.m) dt st (r.lo.getLsbD 24) (r.lo.getLsbD 25) r.d r.a)
  | 0x181 => do
    let st ← TypeCode.dec (r.lo.extractLsb' 16 4)
    opt (r.is96 && r.only true true false false && r.lo.extractLsb' 26 6 == 0 && r.lo.extractLsb' 20 4 == 12
         && r.lo.extractLsb' 8 8 == 0 && r.lo.getLsbD 4 && r.lo.extractLsb' 0 4 == 0)
      (.cvtn r.hdr (RndS.dec r.m) st (r.lo.extractLsb' 5 3) (r.lo.getLsbD 24) (r.lo.getLsbD 25) r.d r.a)
  | 0x182 => do
    let dt ← TypeCode.dec (r.lo.extractLsb' 20 4)
    opt (r.is96 && r.only true true false false && r.lo.extractLsb' 24 8 == 0 && r.lo.extractLsb' 16 4 == 12
         && r.lo.extractLsb' 8 8 == 0 && r.lo.getLsbD 4 && r.lo.extractLsb' 0 4 == 0)
      (.cvtw r.hdr (RndS.dec r.m) dt (r.lo.extractLsb' 5 3) r.d r.a)
  | 0x183 => do
    let m ← mflag r.m
    opt (r.is64 && r.only true true false false) (.pack4 r.hdr m r.d r.a)
  | 0x184 => do
    let m ← mflag r.m
    opt (r.is64 && r.only true true false false) (.unpack4 r.hdr m r.d r.a)
  -- LANE
  | 0x1C0 => do
    let b ← r.srcI
    match r.m.toNat with
    | 0 => opt (r.c == 0) (.shfl r.hdr .idx r.d r.a b)
    | 1 => opt (r.c == 0) (.shfl r.hdr .up r.d r.a b)
    | 2 => opt (r.c == 0) (.shfl r.hdr .down r.d r.a b)
    | 3 => opt (r.c == 0) (.shfl r.hdr .bfly r.d r.a b)
    | _ => none
  | 0x1C1 => do
    let p ← small 4 r.a
    let ok := r.is64 && r.only true true false false
    match r.m.toNat with
    | 0 => opt ok (.vote r.hdr .all r.d p)
    | 1 => opt ok (.vote r.hdr .any r.d p)
    | 2 => opt ok (.vote r.hdr .uni r.d p)
    | 3 => opt ok (.vote r.hdr .ballot r.d p)
    | _ => none
  | 0x1C2 => do
    let op ← WOp.dec r.m
    opt (r.is64 && r.only true true false false) (.redw r.hdr op r.d r.a)
  | 0x1C3 => do
    let op ← WOp.dec r.m
    let ex ← flag r.c
    opt (r.is64 && r.b == 0) (.scanw r.hdr op ex r.d r.a)
  | 0x1C4 => do
    let m ← mflag r.m
    opt (r.is64 && r.only true true false false) (.matchv r.hdr m r.d r.a)
  | 0x1C5 => opt (r.is64 && r.m == 0 && r.only true false false false) (.active r.hdr r.d)
  | 0x1C6 => do
    let b ← r.srcI
    opt (r.m == 0 && r.only false false true false) (.wsync r.hdr b)
  -- MEM
  | 0x200 => do
    let m ← MW.dec r.m
    let o ← r.offIW
    opt (r.only true true false false) (.ld r.hdr m r.d r.a o.1 o.2)
  | 0x201 => do
    let m ← MW.dec r.m
    let o ← r.offIW
    let cm ← small 8 r.c
    opt (!m.sx && r.d == 0) (.st r.hdr m.w r.a r.b cm o.1 o.2)
  | 0x202 => do
    let m ← MW.dec r.m
    let o ← r.offI
    opt (r.only true true false false) (.lds r.hdr m r.d r.a o)
  | 0x203 => do
    let m ← MW.dec r.m
    let o ← r.offI
    opt (!m.sx && r.only false true true false) (.sts r.hdr m.w r.a r.b o)
  | 0x204 => do
    let m ← MW.dec r.m
    let o ← r.offIW
    opt (!m.sx && r.only false true true false) (.stx r.hdr m.w r.a r.b o.1 o.2)
  | 0x205 => r.lineI .pref
  | 0x206 => do
    let off ← r.offI
    match r.m.toNat with
    | 0 => opt (r.only false true false false) (.cctl r.hdr .inv r.a off)
    | 1 => opt (r.only false true false false) (.cctl r.hdr .wb r.a off)
    | 2 => opt (r.only false true false false) (.cctl r.hdr .wbinv r.a off)
    | _ => none
  | 0x207 => r.lineI .icinv
  -- SYNC
  | 0x240 => do
    let o ← r.offIW
    opt (r.c == 0) (.atom r.hdr (AOp.ofM r.m) r.d r.a r.b o.1 o.2)
  | 0x241 => do
    let o ← r.offIW
    if r.m == 2 then some (.atomc r.hdr false r.d r.a r.b r.c o.1 o.2)
    else if r.m == 3 then some (.atomc r.hdr true r.d r.a r.b r.c o.1 o.2)
    else none
  | 0x242 => do
    let o ← r.offIW
    opt (r.d == 0 && r.c == 0) (.red r.hdr (AOp.ofM r.m) r.a r.b o.1 o.2)
  | 0x243 => do
    let cm ← small 8 r.c
    if r.is64 then opt (r.m == 0 && r.only false false false true) (.fence r.hdr cm none)
    else do
      let x ← MemX.dec r.lo
      opt (r.is96 && r.m == 0 && r.only false false false true && x.order == .rlx && x.colour == 0)
        (.fence r.hdr cm (some x.scope))
  | 0x244 => do
    let b ← r.srcI
    match r.m.toNat with
    | 0 => opt (r.c == 0) (.waita r.hdr .eq r.d r.a b)
    | 1 => opt (r.c == 0) (.waita r.hdr .ne r.d r.a b)
    | 2 => opt (r.c == 0) (.waita r.hdr .ge r.d r.a b)
    | _ => none
  -- BAR
  | 0x280 => do
    let m ← barDec r.m
    opt (r.is64 && r.only false true false false) (.bar r.hdr m.1 m.2 r.a)
  | 0x281 => r.plainDA .barsv
  | 0x282 => opt (r.is64 && r.m == 0 && r.only false true true false) (.barld r.hdr r.a r.b)
  | 0x283 => do
    let hd ← small 4 r.b
    opt r.is64 (.bpv r.hdr r.m r.d r.a hd r.c)
  | 0x284 => do
    let vm ← small 3 r.d
    let hd ← small 4 r.b
    opt (r.is64 && r.m == 0 && r.c == 0) (.bvm r.hdr vm r.a hd)
  | 0x285 => do
    let hd ← small 4 r.b
    opt (r.is64 && r.m == 0 && r.only false false true false) (.brst r.hdr hd)
  | 0x286 => do
    let vm ← small 3 r.a
    opt (r.is64 && r.m == 0 && r.only true true false false) (.vmpop r.hdr r.d vm)
  | 0x287 => do
    let p ← small 4 r.d
    let vm ← small 3 r.a
    let b ← r.srcI
    opt (r.m == 0 && r.c == 0) (.vmtst r.hdr p vm b)
  | 0x288 => do
    let vm ← small 3 r.a
    let b ← r.srcI
    opt (r.m == 0 && r.c == 0) (.vmnext r.hdr r.d vm b)
  -- MAT
  | 0x2C0 => do
    let t ← small 3 r.d
    let e ← r.extM
    opt (r.m == 0 && r.c == 0 && e.colour == 0) (.mma r.hdr t r.a r.b e.k e.fa e.fb e.g)
  | 0x2C1 => do
    let t ← small 3 r.d
    let m ← mflag r.m
    let e ← r.extM
    opt (e.colour == 0) (.mmas r.hdr m t r.a r.b r.c e.k e.fa e.fb e.g)
  | 0x2C2 => do
    let t ← small 3 r.d
    opt (r.is64 && r.m == 0 && r.only true false false false) (.mmz r.hdr t)
  | 0x2C3 => do
    let cv ← MConv.dec r.m
    let t ← small 3 r.a
    let b ← r.srcI
    opt (r.c == 0) (.mmrd r.hdr cv r.d t b)
  | 0x2C4 => do
    let cv ← MConv.dec r.m
    let t ← small 3 r.d
    let b ← r.srcI
    opt (r.c == 0) (.mmwr r.hdr cv t r.a b)
  | 0x2C5 => do
    let cv ← MConv.dec r.m
    let t ← small 3 r.d
    let e ← r.extM
    opt (r.only true true false false && e.k == 0 && e.fa == 0 && e.fb == 0 && e.colour == 0) (.mmld r.hdr cv t r.a e.g)
  | 0x2C6 => do
    let cv ← MConv.dec r.m
    let t ← small 3 r.d
    let e ← r.extM
    opt (r.only true true false false && e.k == 0 && e.fa == 0 && e.fb == 0) (.mmst r.hdr cv t r.a e.colour e.g)
  | 0x2C7 => do
    let t ← small 3 r.d
    opt (r.is64 && r.m == 0 && r.only true false false false) (.mmwait r.hdr t)
  | 0x2C8 => do
    let m ← mflag r.m
    let e ← r.extM
    opt (r.c == 0 && e.fb == 0 && e.g == ⟨false, 0⟩) (.cmprs r.hdr m r.d r.a r.b e.k e.fa e.colour)
  -- ENG
  | 0x300 => do
    let q ← small 2 r.d
    opt (r.is64 && r.m == 0 && r.only true true false false) (.qpush r.hdr q r.a)
  | 0x301 => do
    let q ← small 2 r.a
    opt (r.is64 && r.m == 0 && r.only true true false false) (.qpop r.hdr r.d q)
  | 0x302 => opt (r.is64 && r.m == 0 && r.only false true false false) (.job r.hdr r.a)
  | 0x303 => do
    let g ← small 4 r.a
    let p ← small 4 r.b
    opt (r.is64 && r.m == 0 && r.only false true true false) (.gset r.hdr g p)
  -- PWR
  | 0x340 => do
    let b ← r.srcI
    opt (r.m == 0 && r.only false false true false) (.draw r.hdr b)
  | 0x341 => do
    let b ← r.srcI
    opt (r.m == 0 && r.only false false true false) (.burn r.hdr b)
  | 0x342 => do
    let p ← small 4 r.d
    let b ← r.srcI
    opt (r.m == 0 && r.only true false true false) (.shunt r.hdr p b)
  -- WORK
  | 0x380 => do
    let b ← r.srcI
    opt (r.m == 0 && r.only false false true false) (.spawn r.hdr b)
  | 0x381 => opt (r.is64 && r.m == 0 && r.only false true true false) (.sendw r.hdr r.a r.b)
  | _ => none

/-- Whether the opcode map assigns the index (03 R58). -/
def assigned (opc : BitVec 10) : Bool :=
  let i := (opc.extractLsb' 0 6).toNat
  match (opc.extractLsb' 6 4).toNat with
  | 0x0 => i ≤ 16
  | 0x1 => i ≤ 18
  | 0x2 => i ≤ 15
  | 0x3 => i ≤ 9
  | 0x4 => i ≤ 13
  | 0x5 => i ≤ 9
  | 0x6 => i ≤ 4
  | 0x7 => i ≤ 6
  | 0x8 => i ≤ 7
  | 0x9 => i ≤ 4
  | 0xA => i ≤ 8
  | 0xB => i ≤ 8
  | 0xC => i ≤ 3
  | 0xD => i ≤ 2
  | 0xE => i ≤ 1
  | _ => false

/-- An SRD or SWR whose only fault is a special register privileged to programs (04 R82). -/
def Raw.privSreg (r : Raw) : Bool :=
  r.is64 && r.m == 0 && r.only true true false false
  && ((r.opc == 0x00F && isPrivileged r.a) || (r.opc == 0x010 && isPrivileged r.d))

/-- The instruction of the fields, or the first cause of 03 R63 that the word alone decides. -/
def Raw.decode (r : Raw) : Except DecodeCause Instr :=
  if r.len == 3 then .error .badLength
  else if !assigned r.opc then .error .unimplOp
  else match r.row with
    | some i => if i.wf then .ok i else .error .badField
    | none => if r.privSreg then .error .privileged else .error .badField

/-- The decoder on bits: bits 127:0 of the instruction, those past its length ignored. -/
def decode (w : BitVec 128) : Except DecodeCause Instr := (Raw.ofBits w).decode

/-- Bytes of the instruction whose first 64 bits are w; 0 for BAD_LENGTH. -/
def wordBytes (w : BitVec 128) : Nat := (lenBytes (w.extractLsb' 0 2)).getD 0

/-- The decoder at a block offset: the fetch block rule of 03 R48 comes after BAD_LENGTH and before the opcode. -/
def decodeAt (off : Nat) (w : BitVec 128) : Except DecodeCause Instr :=
  match lenBytes (w.extractLsb' 0 2) with
  | none => .error .badLength
  | some n => if off + n > 32 then .error .fetchCross else decode w

/-- Little-endian bytes of an instruction as bits (03 R47). -/
def bitsOfBytes : List Byte → Nat
  | [] => 0
  | b :: bs => b.toNat + 256 * bitsOfBytes bs

/- The encoder, from the same tables. -/

def Raw.base (h : Hdr) (opc : Nat) (m : W4) (d a b c : W9) : Raw :=
  ⟨m, c, b, a, d, h.keep, h.la, Bool.bit h.gn, h.gp, BitVec.ofNat 10 opc, 0, 0⟩

/-- Form I with an immediate, or X with an XMOD. -/
def Raw.with96 (r : Raw) (v : W32) : Raw := { r with len := 1, ext := v.setWidth 64 }
/-- Form W. -/
def Raw.withW (r : Raw) (x v : W32) : Raw := { r with len := 2, ext := v ++ x }
/-- Form M, or MOV64I. -/
def Raw.with128 (r : Raw) (e : W64) : Raw := { r with len := 2, ext := e }

def Raw.putI (r : Raw) (b : SrcB) : Raw :=
  match b with
  | .reg n => { r with b := n }
  | .imm v => r.with96 v

def Raw.putX (r : Raw) (x : Option Mods) : Raw :=
  match x with
  | none => r
  | some x => r.with96 x.enc

def Raw.putXW (r : Raw) (b : SrcB) (x : Option Mods) : Raw :=
  match b, x with
  | .reg n, none => { r with b := n }
  | .reg n, some x => { r with b := n }.with96 x.enc
  | .imm v, some x => r.withW x.enc v
  | .imm v, none => r.withW 0 v

def Raw.putOff (r : Raw) (off : Option W32) : Raw :=
  match off with
  | none => r
  | some v => r.with96 v

def Raw.putOffW (r : Raw) (off : Option W32) (x : Option MemX) : Raw :=
  match off, x with
  | none, none => r
  | some v, none => r.with96 v
  | some v, some x => r.withW x.enc v
  | none, some x => r.withW x.enc 0

def w9 {k : Nat} (v : BitVec k) : W9 := v.setWidth 9

def ShflMode.enc : ShflMode → W4
  | .idx => 0
  | .up => 1
  | .down => 2
  | .bfly => 3

def VoteMode.enc : VoteMode → W4
  | .all => 0
  | .any => 1
  | .uni => 2
  | .ballot => 3

def CctlMode.enc : CctlMode → W4
  | .inv => 0
  | .wb => 1
  | .wbinv => 2

def WaitCond.enc : WaitCond → W4
  | .eq => 0
  | .ne => 1
  | .ge => 2

/-- ABSA, NEGA, DTYPE and STYPE in XMOD above the low half (03 R54). -/
def typesX (na aa : Bool) (dt st : W4) (low : W16) : W32 := 0#6 ++ Bool.bit aa ++ Bool.bit na ++ dt ++ st ++ low

/-- FSLOT and FSV in the low half of XMOD (03 R54). -/
def slotX (f : W3) : W16 := 0#8 ++ f ++ 1#1 ++ 0#4

def mwEnc (w : Width) : W4 := 0#1 ++ w.enc

/-- A step of the machine has no word: length 0b11, which decodes to BAD_LENGTH. -/
def Raw.noWord : Raw := ⟨0, 0, 0, 0, 0, 0, 0, 0, 0, 0, 3, 0⟩

/-- The fields of an instruction. -/
def Instr.raw (i : Instr) : Raw :=
  match i with
  | .nop h => .base h 0x000 0 0 0 0 0
  | .bra h off => (Raw.base h 0x001 0 0 0 0 0).with96 off
  | .brx h a => .base h 0x002 0 0 a 0 0
  | .call h off => (Raw.base h 0x003 0 0 0 0 0).with96 off
  | .callx h a => .base h 0x004 0 0 a 0 0
  | .ret h => .base h 0x005 0 0 0 0 0
  | .exit h => .base h 0x006 0 0 0 0 0
  | .rep cnt sd sa sb sc =>
    ⟨0, 0, 0, w9 sc, sb ++ sa ++ sd, 0, 0#1 ++ cnt.extractLsb' 1 3, cnt.extractLsb' 0 1, 15, 0x007, 0, 0⟩
  | .trap h k => .base h 0x008 0 0 0 k 0
  | .bkpt h k => .base h 0x009 0 0 0 k 0
  | .isync h => .base h 0x00A 0 0 0 0 0
  | .nap h b => (Raw.base h 0x00B 0 0 0 0 0).putI b
  | .yield h => .base h 0x00C 0 0 0 0 0
  | .resume h => .base h 0x00D 0 0 0 0 0
  | .tret h => .base h 0x00E 0 0 0 0 0
  | .srd h d s => .base h 0x00F 0 d s.num 0 0
  | .swr h s a => .base h 0x010 0 s.num a 0 0
  | .iadd h m d a b => (Raw.base h 0x040 m.enc d a 0 0).putI b
  | .isub h m d a b => (Raw.base h 0x041 m.enc d a 0 0).putI b
  | .iaddc h u d a b p => (Raw.base h 0x042 (IntM.enc ⟨false, u⟩) d a 0 (w9 p)).putI b
  | .ineg h s d a => .base h 0x043 (IntM.enc ⟨s, false⟩) d a 0 0
  | .iabs h s d a => .base h 0x044 (IntM.enc ⟨s, false⟩) d a 0 0
  | .imul h m d a b => (Raw.base h 0x045 m.enc d a 0 0).putI b
  | .imulh h u d a b => (Raw.base h 0x046 (IntM.enc ⟨false, u⟩) d a 0 0).putI b
  | .imad h m d a b c => (Raw.base h 0x047 m.enc d a 0 c).putI b
  | .imadw h m d a b c => (Raw.base h 0x048 m.enc d a 0 c).putI b
  | .iadd64 h m d a b => (Raw.base h 0x049 m.enc d a 0 0).putI b
  | .isub64 h m d a b => (Raw.base h 0x04A m.enc d a 0 0).putI b
  | .imul64 h m d a b => .base h 0x04B m.enc d a b 0
  | .imin h u d a b => (Raw.base h 0x04C (IntM.enc ⟨false, u⟩) d a 0 0).putI b
  | .imax h u d a b => (Raw.base h 0x04D (IntM.enc ⟨false, u⟩) d a 0 0).putI b
  | .isad h m d a b c => (Raw.base h 0x04E m.enc d a 0 c).putI b
  | .idot4 h m bn d a b c => .base h 0x04F (dotEnc m bn) d a b c
  | .idot2 h m bn d a b c => .base h 0x050 (dotEnc m bn) d a b c
  | .lea h sh d a b => (Raw.base h 0x051 (0#2 ++ sh) d a 0 0).putI b
  | .lea64 h u sh d a b => (Raw.base h 0x052 (0#1 ++ Bool.bit u ++ sh) d a 0 0).putI b
  | .lgate h d a b c t => (Raw.base h 0x080 0 d a b c).with96 (t.setWidth 32)
  | .shl h d a b => (Raw.base h 0x081 0 d a 0 0).putI b
  | .shr h d a b => (Raw.base h 0x082 0 d a 0 0).putI b
  | .sar h d a b => (Raw.base h 0x083 0 d a 0 0).putI b
  | .rotl h d a b => (Raw.base h 0x084 0 d a 0 0).putI b
  | .shf h r d a b c => (Raw.base h 0x085 (mflagEnc r) d a 0 c).putI b
  | .popc h d a => .base h 0x086 0 d a 0 0
  | .clz h d a => .base h 0x087 0 d a 0 0
  | .ctz h d a => .base h 0x088 0 d a 0 0
  | .brev h d a => .base h 0x089 0 d a 0 0
  | .bfe h u d a b => (Raw.base h 0x08A (ftzEnc u) d a 0 0).putI b
  | .bfi h d a b c => (Raw.base h 0x08B 0 d a 0 c).putI b
  | .prmt h d a b c => (Raw.base h 0x08C 0 d a 0 c).putI b
  | .clmul h d a b => .base h 0x08D 0 d a b 0
  | .clmulh h d a b => .base h 0x08E 0 d a b 0
  | .clmulw h d a b => .base h 0x08F 0 d a b 0
  | .isetp h c p a b => (Raw.base h 0x0C0 c.enc (w9 p) a 0 0).putI b
  | .fsetp h c p a b x => (Raw.base h 0x0C1 c.enc (w9 p) a b 0).putX x
  | .dsetp h c p a b x => (Raw.base h 0x0C2 c.enc (w9 p) a b 0).putX x
  | .pgate h pd pa pb pc t => (Raw.base h 0x0C3 0 (w9 pd) (w9 pa) (w9 pb) (w9 pc)).with96 (t.setWidth 32)
  | .sel h d a b p => (Raw.base h 0x0C4 0 d a 0 (w9 p)).putI b
  | .p2v h d => .base h 0x0C5 0 d 0 0 0
  | .v2p h a b => (Raw.base h 0x0C6 0 0 a 0 0).putI b
  | .mov h d a => .base h 0x0C7 0 d a 0 0
  | .movi h d v => (Raw.base h 0x0C8 0 d 0 0 0).with96 v
  | .mov64i h d v => (Raw.base h 0x0C9 0 d 0 0 0).with128 v
  | .fadd h r d a b x => (Raw.base h 0x100 r.enc d a 0 0).putXW b x
  | .fsub h r d a b x => (Raw.base h 0x101 r.enc d a 0 0).putXW b x
  | .fmul h r d a b x => (Raw.base h 0x102 r.enc d a 0 0).putXW b x
  | .ffma h r d a b c x => (Raw.base h 0x103 r.enc d a 0 c).putXW b x
  | .fmin h d a b x => (Raw.base h 0x104 0 d a 0 0).putXW b x
  | .fmax h d a b x => (Raw.base h 0x105 0 d a 0 0).putXW b x
  | .frnd h r d a x => (Raw.base h 0x106 r.enc d a 0 0).putX x
  | .fclass h d a => .base h 0x107 0 d a 0 0
  | .fexp h d a => .base h 0x108 0 d a 0 0
  | .fldexp h r d a b x => (Raw.base h 0x109 r.enc d a 0 0).putXW b x
  | .hadd2 h r d a b x => (Raw.base h 0x10A r.enc d a 0 0).putXW b x
  | .hmul2 h r d a b x => (Raw.base h 0x10B r.enc d a 0 0).putXW b x
  | .hfma2 h r d a b c x => (Raw.base h 0x10C r.enc d a 0 c).putXW b x
  | .bfma2 h r d a b c x => (Raw.base h 0x10D r.enc d a 0 c).putXW b x
  | .dadd h r d a b x => (Raw.base h 0x140 r.enc d a b 0).putX x
  | .dmul h r d a b x => (Raw.base h 0x141 r.enc d a b 0).putX x
  | .dfma h r d a b c x => (Raw.base h 0x142 r.enc d a b c).putX x
  | .dmin h d a b x => (Raw.base h 0x143 0 d a b 0).putX x
  | .dmax h d a b x => (Raw.base h 0x144 0 d a b 0).putX x
  | .frcp h f d a x => (Raw.base h 0x145 (ftzEnc f) d a 0 0).putX x
  | .frsq h f d a x => (Raw.base h 0x146 (ftzEnc f) d a 0 0).putX x
  | .fsqrt h f d a x => (Raw.base h 0x147 (ftzEnc f) d a 0 0).putX x
  | .fex2 h f d a x => (Raw.base h 0x148 (ftzEnc f) d a 0 0).putX x
  | .flg2 h f d a x => (Raw.base h 0x149 (ftzEnc f) d a 0 0).putX x
  | .cvt h r dt sty na aa d a =>
    (Raw.base h 0x180 r.enc d a 0 0).with96 (typesX na aa dt.enc sty.enc 0)
  | .cvtn h r sty f na aa d a =>
    (Raw.base h 0x181 r.enc d a 0 0).with96 (typesX na aa 12 sty.enc (slotX f))
  | .cvtw h r dt f d a =>
    (Raw.base h 0x182 r.enc d a 0 0).with96 (typesX false false dt.enc 12 (slotX f))
  | .pack4 h w d a => .base h 0x183 (mflagEnc w) d a 0 0
  | .unpack4 h w d a => .base h 0x184 (mflagEnc w) d a 0 0
  | .shfl h m d a b => (Raw.base h 0x1C0 m.enc d a 0 0).putI b
  | .vote h m d p => .base h 0x1C1 m.enc d (w9 p) 0 0
  | .redw h op d a => .base h 0x1C2 op.enc d a 0 0
  | .scanw h op ex d a => .base h 0x1C3 op.enc d a 0 (flagEnc ex)
  | .matchv h all d a => .base h 0x1C4 (mflagEnc all) d a 0 0
  | .active h d => .base h 0x1C5 0 d 0 0 0
  | .wsync h b => (Raw.base h 0x1C6 0 0 0 0 0).putI b
  | .ld h m d a off x => (Raw.base h 0x200 m.enc d a 0 0).putOffW off x
  | .st h w a b cm off x => (Raw.base h 0x201 (mwEnc w) 0 a b (w9 cm)).putOffW off x
  | .lds h m d a off => (Raw.base h 0x202 m.enc d a 0 0).putOff off
  | .sts h w a b off => (Raw.base h 0x203 (mwEnc w) 0 a b 0).putOff off
  | .stx h w a b off x => (Raw.base h 0x204 (mwEnc w) 0 a b 0).putOffW off x
  | .pref h a off => (Raw.base h 0x205 0 0 a 0 0).putOff off
  | .cctl h m a off => (Raw.base h 0x206 m.enc 0 a 0 0).putOff off
  | .icinv h a off => (Raw.base h 0x207 0 0 a 0 0).putOff off
  | .atom h op d a b off x => (Raw.base h 0x240 op.enc d a b 0).putOffW off x
  | .atomc h dbl d a b c off x => (Raw.base h 0x241 (if dbl then 3 else 2) d a b c).putOffW off x
  | .red h op a b off x => (Raw.base h 0x242 op.enc 0 a b 0).putOffW off x
  | .fence h cm x =>
    (match x with
     | none => Raw.base h 0x243 0 0 0 0 (w9 cm)
     | some sc => (Raw.base h 0x243 0 0 0 0 (w9 cm)).with96 (MemX.enc ⟨0, sc, .rlx⟩))
  | .waita h c d a b => (Raw.base h 0x244 c.enc d a 0 0).putI b
  | .bar h m sw n => .base h 0x280 (barEnc m sw) 0 n 0 0
  | .barsv h d n => .base h 0x281 0 d n 0 0
  | .barld h n b => .base h 0x282 0 0 n b 0
  | .bpv h stale d a hd c => .base h 0x283 stale d a (w9 hd) c
  | .bvm h vm a hd => .base h 0x284 0 (w9 vm) a (w9 hd) 0
  | .brst h hd => .base h 0x285 0 0 0 (w9 hd) 0
  | .vmpop h d vm => .base h 0x286 0 d (w9 vm) 0 0
  | .vmtst h p vm b => (Raw.base h 0x287 0 (w9 p) (w9 vm) 0 0).putI b
  | .vmnext h d vm b => (Raw.base h 0x288 0 d (w9 vm) 0 0).putI b
  | .mma h t a b k fa fb g => (Raw.base h 0x2C0 0 (w9 t) a b 0).with128 (Ext.enc ⟨g, fb, fa, 0, k⟩)
  | .mmas h s48 t a b c k fa fb g => (Raw.base h 0x2C1 (mflagEnc s48) (w9 t) a b c).with128 (Ext.enc ⟨g, fb, fa, 0, k⟩)
  | .mmz h t => .base h 0x2C2 0 (w9 t) 0 0 0
  | .mmrd h cv d t b => (Raw.base h 0x2C3 cv.enc d (w9 t) 0 0).putI b
  | .mmwr h cv t a b => (Raw.base h 0x2C4 cv.enc (w9 t) a 0 0).putI b
  | .mmld h cv t a g => (Raw.base h 0x2C5 cv.enc (w9 t) a 0 0).with128 (Ext.enc ⟨g, 0, 0, 0, 0⟩)
  | .mmst h cv t a col g => (Raw.base h 0x2C6 cv.enc (w9 t) a 0 0).with128 (Ext.enc ⟨g, 0, 0, col, 0⟩)
  | .mmwait h t => .base h 0x2C7 0 (w9 t) 0 0 0
  | .cmprs h s48 d a b k fa col => (Raw.base h 0x2C8 (mflagEnc s48) d a b 0).with128 (Ext.enc ⟨⟨false, 0⟩, 0, fa, col, k⟩)
  | .qpush h q a => .base h 0x300 0 (w9 q) a 0 0
  | .qpop h d q => .base h 0x301 0 d (w9 q) 0 0
  | .job h a => .base h 0x302 0 0 a 0 0
  | .gset h g p => .base h 0x303 0 0 (w9 g) (w9 p) 0
  | .draw h b => (Raw.base h 0x340 0 0 0 0 0).putI b
  | .burn h b => (Raw.base h 0x341 0 0 0 0 0).putI b
  | .shunt h p b => (Raw.base h 0x342 0 (w9 p) 0 0 0).putI b
  | .spawn h b => (Raw.base h 0x380 0 0 0 0 0).putI b
  | .sendw h a b => .base h 0x381 0 0 a b 0
  | .takeTrap .. | .splitHang .. | .watchdog .. | .napWake .. | .loadComplete .. | .loadServe .. | .writeArrival ..
  | .heldWriteApply .. | .writeNoticeArrival .. | .atomicPerform .. | .atomicComplete .. | .dieStoreEviction .. | .cctlWbAck .. | .icinvComplete ..
  | .stxDelivery .. | .swapComplete .. | .barrierArrivalSignal .. | .pageWalkComplete .. | .faultBufferSlotFree .. | .tlbShootdownComplete .. | .engineAdmit ..
  | .engineOpStart .. | .engineOpComplete .. | .engineFaultResume .. | .blockLimitRelease .. | .qpopWake .. | .waitaSatisfy .. | .boardPostRequest ..
  | .boardViewRequest .. | .boardResetRequest .. | .boardViewDelivery .. | .blockPlace .. | .coopPlace .. | .stealRequest .. | .stealReply ..
  | .stealRetry .. | .frameBoundary | .fabricStepChange .. | .workPacketArrival .. | .dispatchPacket .. | .childRangeAccept .. | .preemptRaise ..
  | .blockLeave .. | .arrivalLogAppend .. | .blockRestorePlace .. | .gridComplete .. | .columnWindowBoundary .. | .estimateRescale .. | .throttleEngage ..
  | .throttleStepChange .. | .stackMismatch .. | .stepChange .. | .boostUpdate .. | .boostRise .. | .thermalCeilingTick .. | .powerCapSample
  | .powerCapRelax | .sensorSample .. | .sensorStuck .. | .sensorRevalidate .. | .openBumpEvent .. | .regulatorAdjust .. | .columnGate ..
  | .columnPowerStage .. | .caravanArrival .. | .caravanPromotion .. | .travelReplicaGrant .. | .floidFlitReceive .. | .floidNakReceive .. | .floidLinkRetrain ..
  | .floidLinkFail .. | .inboundPostedWrite .. | .pieceAcknowledge .. | .inboundRead .. | .nonpostedRelease .. | .sqtail .. | .cqhead ..
  | .queueRegisterWrite .. | .completionPost .. | .queryCapabilities .. | .queryCertificates .. | .queryFigures .. | .attest .. | .healthStatus ..
  | .healthEvents .. | .healthEnergy .. | .healthSetPowerCap .. | .healthRecalibrate .. | .healthCoreReset .. | .ctxOpen .. | .ctxClose ..
  | .map .. | .unmap .. | .faultReplyRetry .. | .faultReplyFail .. | .launch .. | .launchAccept .. | .preempt ..
  | .restore .. | .boardMake .. | .debugAttach .. | .debugDetach .. | .debugHalt .. | .debugStep .. | .debugContinue ..
  | .powerGood | .glazeTransition | .coreReset .. | .dieRecalibrate .. | .longLatencyCompletion .. | .instructionFetchFill .. | .powerLoss
  | .floidLinkTrained .. => .noWord

/-- The words of an instruction: bits 127:0, those past its length 0. -/
def encode (i : Instr) : BitVec 128 := i.raw.bits

/-- The instruction the decoder reads from bits numbered as the opcode table numbers them: the first byte of the
instruction holds bits 7:0. The word lies at offset 0 of its fetch block. -/
def decodeTableWord (nbits w : Nat) : Option Instr :=
  match decodeAt 0 (BitVec.ofNat 128 (w % 2 ^ nbits)) with
  | .ok i => some i
  | .error _ => none

end Sys2Proof
end

