-- ==== Sys2Proof/Machine/State.lean ====
section
/-! DEFINITION. The state of the K4 as plain data: every piece of state the manual gives the machine, and the state
right after reset. Sparse tables hold what exists at a moment; INVENTORY.md names the rule of each field. -/

namespace Sys2Proof.Machine

/-- Why the machine stops with a fault. -/
inductive Fault where
  /-- Raised by exec of an opcode-table instruction whose issuing context names no resident warp: no warp can issue
  there, so the manual gives no effect. Safe: the machine stops where the hardware never is. -/
  | noWarp
deriving DecidableEq, Repr

/-- Why the model gives no meaning. -/
inductive Refusal where
  /-- Raised by the dispatcher for an instruction whose meaning is not written yet. Safe. -/
  | notModelled (mnemonic : String)
deriving DecidableEq, Repr

/-- A table by number: keys strictly rising, an unlisted key absent. -/
abbrev Tbl (α : Type) := List (Nat × α)

/-- Five counts, one for each of dies 0 to 4 (10 R205). -/
structure VC where
  d0 : Nat
  d1 : Nat
  d2 : Nat
  d3 : Nat
  d4 : Nat
deriving DecidableEq, Repr

def VC.zero : VC := ⟨0, 0, 0, 0, 0⟩

/-- The 64 causes (13 R223). -/
inductive Cause where
  | badLength | unimplOp | badField | fetchCross | repMisuse | shapeCeiling | regRange | badSlot | featureOff | privileged
  | exitOutstanding | trapInstr | breakpoint | singleStep | watchpoint | badPath | misaligned | pageAbsent | pageProtect
  | scratchRange | exchangeTarget | atomicPath | footprint | jobMalformed | layoutBad | memoryError | walkError
  | queueMisuse | accRange | sparseMeta | lookaheadRaw | barNumber | barMember | barOverarrive | boardSlot | boardRepost
  | boardRound | splitHang | wsyncMask | stackMismatch | mateSwapped | thermalLimit | burnDenied | shuntDenied | powerCap
  | sensorDegraded | boostEmpty | segmentMiss | carryOverflow | arrivalSpill | spillFull | travelMode | segmentMapBad
  | replicaStale | travelSync | preempt | contextKill | spawnEmpty | mailboxFull | fpException | doubleFault | watchdog
  | debugHalt
deriving DecidableEq, Repr

/-- Shape tags (04 R74). -/
inductive Tag where
  | u | a | g
deriving DecidableEq, Repr

/-- A vector register: tag and content (04 R74). -/
inductive Reg where
  | u (v : W32)
  | a (b s : W32)
  | g (vs : List W32)
deriving DecidableEq, Repr

/-- Where a lane's thread stands: on a split-table entry, held off it, finished-idle, or absent from the lane
(01 R17, R28; 16 R271). -/
inductive LaneSt where
  | on (entry : Nat)
  | held
  | idle
  | vacant
deriving DecidableEq, Repr

/-- What a single thread waits in (01 R19, 07 R137, R154, 08 R174). -/
inductive LWait where
  | none
  /-- BAR: until barrier n has completed more than ph phases; BAR.sync has arrived, BAR.wait only waits -/
  | bar (n ph : Nat) (sync : Bool)
  /-- WSYNC: arrived with the mask -/
  | wsync (m : Mask)
  /-- a completed WSYNC: the thread passes when its group issues the WSYNC again -/
  | passed
  /-- MMWAIT: until every operation submitted before seq that names tile t is complete -/
  | tile (t seq : Nat)
deriving DecidableEq, Repr

/-- What the whole warp waits in (01 R19; 07 R129, R144, R158, R159; 08 R168, R177; 10 R209). -/
inductive WWait where
  | none
  | nap (until_ : Nat)
  /-- a board request at the home; for a BPV the destination, the stale predicate and the lanes, for a BVM the mask -/
  | board (key : Nat)
  | cmprs (op : Nat)
  /-- CCTL.wb until the home has applied every write of the die to the lines; .wbinv then discards them -/
  | wb (lines : List Nat) (inv : Bool)
  | isync
  | blockLimit
  /-- parked on a page fault of the 4 KiB page: the instruction, its group and address, and its record, 0 when it has not
  been issued -/
  | parked (die ctx page : Nat) (pc : W64) (grp : Mask) (addr : W64) (op : Nat)
  /-- YIELD executed in a PREEMPT handler, or RESUME executed at restore -/
  | yielded
  | resumed
deriving DecidableEq, Repr

/-- One lane's access of a memory instruction: its address as issued, a scratchpad offset on path 0x8; and whether it is one of
LDS. -/
structure Access where
  lane : Nat
  va : W64
  bytes : Nat
  lds : Bool
deriving DecidableEq, Repr

/-- What a long-latency instruction still has to do (01 R24). -/
inductive OpKind where
  /-- arithmetic: results known, to be written at completion -/
  | value
  /-- a served load, whose response only has to arrive -/
  | loaded
  | load (acc : List Access) (m : MW) (x : MemX) (walked : Bool)
  | pref (acc : List Access)
  /-- an atomic and how many of its read-modify-writes are still to be performed -/
  | atomic (acc : List Access) (x : MemX) (left : Nat)
  | waita (c : WaitCond) (offs : List (Nat × Nat)) (cmp : List (Nat × W32))
  | qpop (q : Nat)
  | mmrd (eop : Nat)
deriving DecidableEq, Repr

/-- A REP in progress (03 R65, R66). -/
structure RepSt where
  base : W64
  pc : W64
  word : Nat
  cnt : Nat
  iter : Nat
  sd : Nat
  sa : Nat
  sb : Nat
  sc : Nat
  entry : Nat
  /-- the threads that repeat it -/
  grp : Mask
  act : Mask
deriving DecidableEq, Repr

/-- A long-latency instruction in its window (01 R24 to R27; 13 R222; 20 R296). -/
structure Op where
  id : Nat
  kind : OpKind
  pc : W64
  group : Mask
  act : Mask
  la : Nat
  /-- tick of issue -/
  since : Nat
  /-- each lane's executed count at this instruction -/
  at_ : List Nat
  /-- destination registers with the tag of the write -/
  dst : List (Nat × Tag)
  whole : Bool
  /-- result words by destination register, 32 lanes each -/
  res : List (List W32)
  /-- lanes of each register that a later write has overtaken (R27) -/
  sup : List (Nat × Mask)
  flags : BitVec 5
  gen : Nat
  done : Bool
  fault : Option (Cause × W64)
  /-- the tile whose failure mark the fault reports, and takes away with its trap (08 R171) -/
  mark : Option Nat
  /-- the REP the instruction ran under, at its iteration -/
  rep : Option RepSt
deriving DecidableEq, Repr

/-- One executed instruction of the warp since its oldest unfinished load (13 R222, R225). -/
structure Hist where
  pc : W64
  group : Mask
  next : List W64
  /-- the long-latency record, 0 for a short-latency instruction -/
  op : Nat
  writes : List (Nat × Mask)
  marked : Bool
  /-- an iteration of a REP before its last -/
  again : Bool
deriving DecidableEq, Repr

/-- The control state set aside at handler entry (13 R220). -/
structure Ctl where
  pcs : List W64
  lanes : List LaneSt
  cstack : List (List W64)
  lwait : List LWait
  wait : WWait
  rep : Option RepSt
  reps : List RepSt
  ops : List Op
  hist : List Hist
  replay : List Hist
  count : List Nat
deriving DecidableEq, Repr

/-- The trap record and the control state kept aside (13 R220, R222). -/
structure TrapRec where
  /-- %tsc at the trap, and the source number (20 R313) -/
  stamp : Nat
  source : Nat
  cause : Nat
  pc : W64
  win : W32
  mask : Mask
  addr : W64
  iter : Nat
  ctl : Ctl
deriving DecidableEq, Repr

/-- A cause that waits for the warp to drain (13 R219). -/
structure Pend where
  cause : Cause
  pc : W64
  group : Mask
  mask : Mask
  addr : W64
  iter : Nat
  /-- the cause counts the instruction as completed: the group goes on to this address first -/
  next : Option W64
  /-- a tile whose failure mark the trap takes away (08 R171) -/
  mark : Option Nat
deriving DecidableEq, Repr

/-- The clocks of one thread (10 R205): what every later access follows, the own stores that its fences put before its later
writes, what it has read, its stores by colour, and by byte what an access to that byte must follow (the own-location edge of
R199). A load meets its thread's stores of the byte in the last alone, so that no fence makes it wait for the others (11
R213). -/
structure Clk where
  base : VC
  own : VC
  rd : VC
  col : List VC
  seen : Tbl VC
  /-- views of boards: board, round, level (18 R287) -/
  views : List (Nat × W32 × Nat)
deriving DecidableEq, Repr

/-- A warp (01 R14, R15). -/
structure Warp where
  blk : Nat
  /-- %warp -/
  wid : Nat
  /-- a member of the named barriers (01 R31) -/
  launched : Bool
  regs : List Reg
  preds : List Mask
  pcs : List W64
  lanes : List LaneSt
  cstack : List (List W64)
  lwait : List LWait
  lwaitSince : List Nat
  wait : WWait
  waitSince : Nat
  count : List Nat
  ops : List Op
  hist : List Hist
  rep : Option RepSt
  /-- REPs whose threads have gone back to an iteration and wait for their turn (13 R222, R225) -/
  reps : List RepSt
  card : List W32
  /-- submission clock of the words of the card under assembly, and the threads that pushed them (12 R217) -/
  cardClk : VC
  cardWho : Mask
  fflags : BitVec 5
  fen : BitVec 5
  vms : List (BitVec 256)
  lastPost : Tbl W32
  tsch : List W32
  trap : Option TrapRec
  pend : Option Pend
  async : List (Cause × W64)
  replay : List Hist
  /-- prefetched words: address and byte; and whether the warp is in its partition's loop buffer (07 R319) -/
  pre : List (Nat × Byte)
  inLoop : Bool
  /-- the issue at which it executed ISYNC, until it has issued its next instruction (07 R129) -/
  isync : Option Nat
  clk : List Clk
  /-- stopped in the ROM debug monitor (13 R223) -/
  halted : Bool
  lastIssue : Nat
  missed : Nat
  /-- the entry whose group has made one half of a 16-byte scratchpad access, and whether it was the high half (10 R194) -/
  half : Option (Nat × Bool)
  /-- the column window, plus 1, in which the one-group condition began, 0 when it does not hold; and the entry that
  issues (01 R44) -/
  hang : Nat
  hangGroup : Nat
  /-- ICINVs under way: physical line, the stores they follow, and the threads (07 R144; 11 R216) -/
  icinvs : List (Nat × VC × Mask)
  /-- carried %tid and %bid by lane in travel mode (16 R271) -/
  ids : List (W32 × W64)
deriving DecidableEq, Repr

/-- An operand map (08 R163, R164). -/
structure Map where
  base : W64
  soff : Nat
  cbits : Nat
  /-- LAYOUT bits 7:4, reserved -/
  rsv : Nat
  span : Nat
  swz : Bool
  s0 : Int
  s1 : Int
  s2 : Int
  s3 : Int
  e0 : Nat
  e1 : Nat
  e2 : Nat
  e3 : Nat
deriving DecidableEq, Repr

/-- An engine operation's work (08 R168 to R179). -/
inductive EKind where
  /-- sparse: the kept logical positions by row, none for a dense A -/
  | mma (t : Nat) (ma mb : Map) (k : Nat) (fa fb : W32) (sparse : Option (Bool × List (Nat × List Nat)))
  | mmz (t : Nat)
  | mmrd (t : Nat) (cv : MConv) (sel : List (Nat × W32)) (core slot op : Nat)
  | mmwr (t : Nat) (cv : MConv) (sel : List (Nat × W32)) (vals : List (Nat × W32))
  | mmld (t : Nat) (cv : MConv) (m : Map)
  | mmst (t : Nat) (cv : MConv) (m : Map) (colour : Nat)
  | cmprs (s48 : Bool) (ma mb : Map) (k : Nat) (fa : W32) (colour core slot op : Nat)
  | job (card : List W32)
deriving DecidableEq, Repr

inductive EState where
  | queued | admitted | started
  /-- parked on a page fault at the address -/
  | parked (va : W64)
deriving DecidableEq, Repr

/-- An engine operation (08 R168). -/
structure EOp where
  id : Nat
  wid : Nat
  mask : Mask
  kind : EKind
  guard : Option Nat
  handler : Bool
  sub : VC
  state : EState
  /-- chunks, or rows, already performed (08 R171) -/
  progress : Nat
  /-- highest-numbered write of its own, for the acquires of 08 R170 -/
  wrote : VC
  /-- the instruction's words, the words of its maps or card, and its captured registers, for the operation record of
  13 R230 -/
  word : Nat
  raw : List W32
  cap : List (List W32)
deriving DecidableEq, Repr

/-- A ticket in q1 (08 R181) with the clock its payload gives (08 R170). -/
structure Ticket where
  word : W32
  clk : VC
deriving DecidableEq, Repr

/-- A named barrier's state (07 R154 to R156). -/
structure BarSt where
  phase : Nat
  /-- warps of this block that have arrived in the current phase; for a grid barrier, at the hub -/
  arrived : Mask
  /-- threads of a warp that have executed the BAR in the current phase, by %warp -/
  exec : Tbl Mask
  /-- arrivals that BARLD restored without naming their warps (07 R156) -/
  remote : Nat
  swap : Bool
  /-- STX stores that the arrived warps had in flight at their arrivals (07 R155) -/
  need : List Nat
  clk : VC
  /-- what the members of the last completed phase released -/
  doneClk : VC
  /-- arrivals counted from other blocks, or at the hub from every block: block key and %warp -/
  members : List (Nat × Nat)
  /-- the phase has met its count and waits for a swap (07 R155) -/
  swapping : Bool
deriving DecidableEq, Repr

/-- A power request of a block (08 R183): the live value and its remaining windows, and the request that replaces it at
the next window boundary. -/
structure PowReq where
  value : Nat
  windows : Nat
  next : Option (Nat × Nat)
deriving DecidableEq, Repr

/-- Span tags (08 R167). -/
inductive Span where
  | affine
  | swizzle (code : Nat)
deriving DecidableEq, Repr

/-- Where a block stands (13 R228 to R234). -/
inductive BlkSt where
  | running
  | preempting
  | out
  | restoring
  | ended
deriving DecidableEq, Repr

/-- A store held at its target by exchange parity (07 R143). -/
structure HeldStx where
  off : Nat
  bytes : List Byte
  parity : Bool
deriving DecidableEq, Repr

/-- A barrier arrival on its way to a block of the cluster, or to the hub (07 R154, 15 R260). -/
structure ArrMsg where
  key : Nat
  n : Nat
  src : Nat
  srcCore : Nat
  dst : Nat
  wid : Nat
  phase : Nat
  swap : Bool
  need : List Nat
  clk : VC
  stamp : Nat
deriving DecidableEq, Repr

/-- The threads that made a write, as far as scopes tell threads apart (10 R198): die, grid, cluster, block and %warp; of
travelling threads the core on which they stood, the slot, and %tid and %bid (16 R274). -/
structure Maker where
  die : Nat
  core : Nat
  grid : Nat
  cluster : Nat
  bid : Nat
  wid : Nat
  who : List (W32 × W64)
deriving DecidableEq, Repr

/-- What the scratchpad keeps for a byte that a release or a job wrote, and the %warp of the writer (08 R170; 10 R192, R204). -/
structure PadRec where
  clk : VC
  heads : List Nat
  wid : Nat
deriving DecidableEq, Repr

/-- A resident, or swapped-out, block (01 R30). -/
structure Block where
  grid : Nat
  bid : Nat
  crank : Nat
  core : Nat
  state : BlkSt
  poolw : W32
  bwarps : Nat
  pclass : Nat
  nextWid : Nat
  retired : Mask
  scratch : Tbl Byte
  shadow : Tbl Byte
  /-- clocks of scratchpad bytes written by a release or a job (08 R170, 10 R192), and of the shadow banks' -/
  sclk : Tbl PadRec
  shClk : Tbl PadRec
  /-- poisoned 8-byte words of the scratchpad, and of the shadow banks (10 R211) -/
  spoison : List Nat
  shPoison : List Nat
  parity : Bool
  heldStx : List HeldStx
  tiles : Tbl W32
  /-- memory writes of the MMSTs of each tile, and of every engine operation so far (08 R169, R170) -/
  tclk : List VC
  eclk : VC
  marks : Tbl (Cause × W64)
  gslots : List (Option Bool)
  /-- span tags of the scratchpad's lines, and of the shadow banks' (08 R167) -/
  spans : Tbl Span
  shSpans : Tbl Span
  vq : List EOp
  hq : List EOp
  adm : List EOp
  tickets : List Ticket
  bars : Tbl BarSt
  draw : PowReq
  burn : PowReq
  shunt : PowReq
  bconf : Nat
  frame : Nat
  mates : Nat
  /-- cluster-barrier arrivals that the column wires hold, or that the arrival log of an absent block holds (15 R260;
  13 R231) -/
  wires : List ArrMsg
  /-- entries of the arrival log: stamp, source, kind, argument, A, B -/
  log : List (Nat × Nat × Nat × Nat × Nat × Nat)
  startAt : Nat
  /-- WARPNO of the frame: the %warp numbers of its warp records (13 R229) -/
  warpno : List Nat
  /-- warps of a swapped-out block as YIELD set them aside, by %warp (13 R229) -/
  saved : Tbl Warp
  /-- its queued operations, guard slots and stamped tickets, from its departure until its restore is complete (13 R230, R234) -/
  away : List EOp
  awayGs : List (Option Bool)
  awayTickets : List (Nat × Ticket)
  /-- swaps of grid barriers that completed while it was out: its banks exchange when it is back (07 R155) -/
  owedSwaps : Nat
  /-- %warp numbers of the warps that have executed RESUME since the restore (13 R234) -/
  resumed : List Nat
  /-- slots of its core that its retired warps hold until the block retires (01 R28) -/
  slots : List Nat
  /-- work argument words of a child block (01 R43) -/
  args : List W32
  clk : VC
  err : Bool
deriving DecidableEq, Repr

/-- Ceilings (04 R74, R78) are tags. A launch record as read (01 R33). -/
structure Launch where
  entry : W64
  features : BitVec 128
  bwarps : Nat
  csize : Nat
  gblocks : Nat
  poolw : W32
  flags : W32
  ceilt : W64
  slots : List W32
  boards : List W32
  saveb : W64
  handler : W64
  pclass : Nat
  spawna : Nat
  arrcap : Nat
  prio : Nat
  bmaskt : W64
  spilla : W64
  spilln : Nat
  segmap : W64
  args : List W32
deriving DecidableEq, Repr

/-- A segment of a travel launch (16 R263) with its replica cores. -/
structure Segment where
  base : W64
  len : Nat
  reps : List Nat
  entries : List Nat
  nexit : Nat
  exitt : W64
  /-- address of the segment's entry in the map -/
  at_ : W64
deriving DecidableEq, Repr

/-- A caravan (16 R266). -/
structure Caravan where
  /-- its number while in flight, and the core it goes to (16 R267) -/
  key : Nat
  dst : Nat
  stamp : Nat
  source : Nat
  mask : Mask
  target : W64
  id : Nat
  seg : Nat
  clk : List Clk
  regs : List (Nat × Reg)
  preds : List Mask
  tid : List W32
  bid : List W64
  cstack : List (List W64)
  /-- the threads' ICINVs under way, by the lanes of the caravan (11 R216) -/
  icinvs : List (Nat × VC × Mask)
  /-- reserved or held spill-ring entry -/
  entry : Nat
  grid : Nat
  note : Option Nat
deriving DecidableEq, Repr

/-- An entry of a spill ring (16 R269; 17 R280): state 0 reserved, 1 held, 2 held for a swapped-out core; the caravan; and
the end of the home order as its record was written. -/
structure RingEnt where
  state : Nat
  car : Option Caravan
  since : Nat
deriving DecidableEq, Repr

inductive GridSt where
  /-- accepted checks pending: waits for named grids, the glaze stage, boards or cores -/
  | waiting
  | running
  | done
deriving DecidableEq, Repr

/-- A grid (01 R30). -/
structure Grid where
  ctx : Nat
  rec_ : Launch
  ceils : List Tag
  bmasks : List W32
  state : GridSt
  fn : Nat
  q : Nat
  cid : Nat
  order : Nat
  after : List Nat
  /-- LAUNCH_ACCEPT done -/
  accepted : Bool
  held : Bool
  childNext : Nat
  err : Bool
  killed : Bool
  bars : Tbl BarSt
  /-- allotted frames of the save region: block, virtual address, size -/
  frames : List (Nat × Nat × Nat)
  segs : List Segment
  /-- spill ring, by entry; the clock and the keys of the K4's own writes into it -/
  ring : Tbl RingEnt
  ringClk : VC
  ringKeys : List Nat
  /-- blocks asked out and not yet raised, the refused count, and the CID of the PREEMPT; blocks asked back, and the
  CID of the RESTORE -/
  pre : List Nat
  preRefused : Nat
  preCid : Option Nat
  res : List Nat
  resCid : Option Nat
  launchVec : VC
  /-- the home order as of the launch, for path-0x1 loads (10 R192) -/
  launchHs : Nat
  /-- every write of its ended warps and blocks -/
  clk : VC
deriving DecidableEq, Repr

/-- One mapping (10 R207): virtual and physical address, size in bytes, attribute word. -/
structure Mapping where
  va : Nat
  pa : Nat
  size : Nat
  attr : W32
deriving DecidableEq, Repr

/-- A context (20 R304). -/
structure Ctx where
  fn : Nat
  cls : Nat
  wdog : Nat
  saveBase : W64
  saveLen : Nat
  pasid : W32
  win : Bool
  wbase : W64
  opened : Nat
  maps : List Mapping
  /-- old mappings whose shootdown is under way, with the function, queue and CID of the command to complete -/
  shoot : List (Mapping × Nat × Nat × Nat)
  /-- 4 KiB pages whose table entry a walk has found malformed or unreadable (10 R207) -/
  torn : List Nat
  /-- charged energy in units of 1/16 A × 1 mV × 1 ns, 16,000,000 to the µJ -/
  energy : Nat
  m4 : List Byte
  dbg : Bool
  /-- grids that single-step -/
  stepping : List Nat
deriving DecidableEq, Repr

/-- A byte of a cached line (10 R196): its value, home-order number and write, and, while the byte shows an earlier write
of the home order, the later one that is to be applied again as a settle (10 R203). -/
structure CopyByte where
  val : Byte
  hs : Nat
  wk : Nat
  settle : Option (Byte × Nat × Nat)
deriving DecidableEq, Repr

/-- A cached line of a die store or core (10 R196), and the home-order number as of which it was copied. -/
structure Line where
  bytes : List CopyByte
  base : Nat
deriving DecidableEq, Repr

/-- A write (10 R205, R316): the vector of its predecessors; the scopes, by rank, of the releases in whose sequences each
of its bytes stands (R204); the thread that made it, none for the hub and the firmware (R198); its bytes; its home-order number by line,
once its home has applied it; and the stamp of an inbound write (20 R299). -/
structure WriteRec where
  vec : VC
  heads : Tbl (List Nat)
  maker : Option Maker
  addrs : List Nat
  placed : Tbl Nat
  stamp : Option Nat
deriving DecidableEq, Repr

/-- What one of a combined atomic's lanes does (07 R146 to R148). -/
structure AtomLane where
  lane : Nat
  b : W64
  c : W64
deriving DecidableEq, Repr

/-- A message in flight to a die store (10 R205, R316). -/
inductive MsgKind where
  | write
  /-- none is ATOMC -/
  | atomic (op : Option AOp) (bytes : Nat) (lanes : List AtomLane) (x : MemX) (core slot opid : Nat)
deriving DecidableEq, Repr

structure Msg where
  key : Nat
  origin : Nat
  num : Nat
  vec : VC
  dst : Nat
  addr : Nat
  bytes : List (Nat × Byte)
  hs : Nat
  held : Bool
  kind : MsgKind
  /-- a release at scope .s, which waits for the writes it orders (10 R206) -/
  sys : Bool
  /-- it is applied, and the settle that follows it is not (10 R203) -/
  settling : Bool
  /-- a path-0x0 write, which merges with others in the home's die store, and the ECC words that its instruction writes
  whole (10 R212) -/
  merge : Bool
  whole : List Nat
  /-- the context of the access, for the PASID of an outbound request (20 R297); 4,096 for none -/
  cx : Nat
  /-- the thread that made it (10 R198) -/
  maker : Option Maker
deriving DecidableEq, Repr

/-- An error-log or fault-buffer event awaiting HEALTH operation 1 (20 R314). -/
structure Event where
  arg : W64
  stamp : Nat
  ctx : Nat
  source : Nat
  kind : Nat
  code : Nat
  detail : Nat
deriving DecidableEq, Repr

/-- A fault-buffer entry (10 R210) and who waits on it: warps by core and slot, engine operations by block and id. -/
structure FaultEnt where
  va : W64
  stamp : Nat
  ctx : Nat
  core : Nat
  kind : Nat
  count : Nat
  slot : Nat
  warps : List Nat
  eops : List (Nat × Nat)
  reported : Bool
deriving DecidableEq, Repr

/-- A work packet (01 R41) with its grid and the sender's clock. -/
structure Packet where
  key : Nat
  /-- the die it goes to -/
  die : Nat
  words : List W32
  grid : Nat
  clk : VC
deriving DecidableEq, Repr

/-- A range of block numbers of a launch, or of child blocks (01 R36, R43). -/
structure Range where
  grid : Nat
  lo : Nat
  hi : Nat
  prio : Nat
  order : Nat
  child : Option (Nat × Nat × Nat × List W32)
  clk : VC
deriving DecidableEq, Repr

/-- The stealing state of a distributor (01 R38). -/
inductive Steal where
  | idle
  | reply (grid : Nat) (r : Option Range)
  | wait (until_ : Nat)
deriving DecidableEq, Repr

/-- A die, 0 to 4 (00 R2). -/
structure Die where
  vec : VC
  nextWrite : Nat
  copies : Tbl Line
  /-- poisoned 64-bit words of the die store (10 R211) -/
  bad : List Nat
  /-- bytes of an ECC word that path-0x0 writes have merged since the line last left the die store (10 R212) -/
  merged : Tbl W32
  tlb : List (Nat × Mapping)
  ranges : List Range
  /-- published counters: remaining blocks by grid, free warp slots and banks by core -/
  pubRemain : Tbl Nat
  pubFree : Tbl (Nat × Nat)
  mailbox : List Packet
  /-- the range the dispatcher is giving to the distributor -/
  giving : Option Range
  /-- the register into which the dispatcher warp pops q3 (01 R42; 08 R181) -/
  dreg : List W32
  gen : Nat
  stale : Nat
  malformed : Nat
  lost : Nat
  faults : List FaultEnt
  /-- parked warps that found the buffer full -/
  faultWait : List (Nat × FaultEnt)
  log : List Event
  bisque : Bool
  lastReset : Option Nat
  /-- a core reset has been asked for -/
  resetAsk : Bool
  /-- output of the stack regulator in mV, and the tick of its last move -/
  rail : Nat
  railAt : Nat
  fstep : Nat
  fhigh : Nat
  flow : Nat
  /-- the frame for which the fabric domain was last judged (14 R257) -/
  fjudged : Nat
  steal : Steal
deriving DecidableEq, Repr

/-- A sensor of a column (14 R253, R254). -/
structure Sensor where
  reading : Int
  /-- out of range or disagreeing, until 65,536 good samples have followed; and stuck, until its die is calibrated -/
  bad : Bool
  stuck : Bool
  good : Nat
  same : Nat
  /-- consecutive samples 45 mV or more low, up to 251; 252 once that episode is an open-bump event (14 R256) -/
  low : Nat
deriving DecidableEq, Repr

/-- A stack column (14 R235 to R257). -/
structure Column where
  step : Nat
  ratio : Nat
  est : List Nat
  hw : List Nat
  fc : List Nat
  /-- throttle step of each core, and the boundaries at whose rung 3 it was throttled (14 R240) -/
  throttle : List (Option Nat)
  throttleFor : List (List Nat)
  /-- since when each time condition of each boundary has held -/
  over6 : List (Option Nat)
  over9 : List (Option Nat)
  over2 : List (Option Nat)
  rung : List Nat
  fallback : Bool
  /-- a block has been placed on a core of the column, or has left one, since the fallback began (14 R241) -/
  fallMoved : Bool
  thermal : Option Nat
  powerCeil : Option Nat
  sensorFall : Bool
  bumpCap : Bool
  boost : Nat
  boostOn : Bool
  boostCeil : Nat
  tband : Nat
  sampled : Bool
  volts : List Sensor
  temps : List Sensor
  /-- windows so far, the tick of the last boundary, and whether the rescale of 64 windows is due -/
  window : Nat
  windowAt : Nat
  rescaleDue : Bool
  /-- boundaries at which rung 4 held at the last window boundary, and is to be acted on -/
  mism : List Bool
  /-- tick of the last sample, and the summed estimate at the last 4,096 samples, latest first -/
  sampleAt : Nat
  sums : List Nat
  gated : Bool
  /-- closed header-switch stages of 4, the order of its power-up request, and when its first stage closed, 0 when it
  has never been gated -/
  powerStage : Nat
  powerAsk : Nat
  powerAt : Nat
  emptySince : Nat
  bias : List Int
  stepAt : Nat
  thermAt : Nat
  boostAt : Nat
  boostTick : Nat
  throttleAt : List Nat
deriving DecidableEq, Repr

/-- The loop buffer of a partition (07 R319): the context, first address and bytes of the captured range, and whether an
ICINV of one of its lines has completed since. -/
structure LoopBuf where
  ctx : Nat
  lo : Nat
  bytes : List Byte
  stale : Bool
deriving DecidableEq, Repr

/-- A core's own parts (01 R10). -/
structure CoreSt where
  /-- instruction-store lines by line address: bytes; and those of the handler buffer (16 R276) -/
  istore : Tbl (List Byte)
  hbuf : Tbl (List Byte)
  /-- loop buffers of the four partitions (07 R319) -/
  loops : List (Option LoopBuf)
  lines : Tbl Line
  /-- TLBs of the core and of its four partitions (10 R208) -/
  tlb : List (Nat × Mapping)
  ptlbs : List (List (Nat × Mapping))
  rot : Nat
  departures : Nat
  arrivals : List Caravan
  replica : Option (Nat × Nat)
  fullPub : Bool
  /-- ICINVs under way of warps that have retired: line and the stores they follow (07 R144) -/
  icinvs : List (Nat × VC)
deriving DecidableEq, Repr

/-- One lane of a BPV: value, round, the slot its thread owns, and what it releases (07 R158). -/
structure BLane where
  lane : Nat
  value : W64
  round : W32
  slot : Option Nat
  clk : VC
deriving DecidableEq, Repr

inductive BReqKind where
  | bpv | bvm | brst
deriving DecidableEq, Repr

/-- A board request, from its issue until its answer has reached the warp (18 R288). -/
structure BReq where
  key : Nat
  board : Nat
  kind : BReqKind
  /-- the die that asks and its generation (20 R296) -/
  die : Nat
  gen : Nat
  handle : Nat
  blk : Nat
  wid : Nat
  pc : W64
  group : Mask
  act : Mask
  whole : Bool
  iter : Nat
  lanes : List BLane
  dst : Nat
  stale : Nat
  vm : Nat
  level : Nat
  round : W32
  /-- the home has taken the request; its answer: a cause, or levels and stale bits by lane, or a mask -/
  taken : Bool
  fault : Option Cause
  levels : List (Nat × Nat × Bool)
  mask : BitVec 256
  /-- what the view's posters released -/
  seen : VC
  /-- the answer is in the arrival log of a block that is out -/
  logged : Bool
deriving DecidableEq, Repr

/-- A post of a kept round: slot, value, and what its poster released (18 R285; 07 R158). -/
structure Post where
  slot : Nat
  value : W64
  clk : VC
deriving DecidableEq, Repr

/-- A notice board (18 R281 to R286): the current round, and the posts of the kept rounds in their order. The value cells
are read from them. -/
structure Board where
  slots : Nat
  strict : Bool
  owners : List W64
  rc : W32
  cur : List Post
  next : List Post
  filled : Option (W32 × List Post)
  /-- the dropped rounds since the board was made or last reset, latest first (18 R287) -/
  past : List (W32 × List Post)
deriving DecidableEq, Repr

/-- A command read from a submission queue (20 R303): its 16 words. -/
structure Cmd where
  words : List W32
deriving DecidableEq, Repr

/-- A completion: CID, status and three results. -/
structure Cpl where
  cid : Nat
  status : Nat
  r1 : W32
  r2 : W32
  r3 : W32
deriving DecidableEq, Repr

/-- A queue pair (20 R303). -/
structure QPair where
  sqbase : W64
  sqsize : W32
  sqtail : W32
  sqhead : Nat
  cqbase : W64
  cqsize : W32
  cqhead : W32
  cqtail : Nat
  phase : Bool
  /-- doorbells, SQTAIL or else CQHEAD, that wait for posted writes below a number (20 R300) -/
  bells : List (Bool × W32 × Nat)
  cmds : List Cmd
  /-- commands that have begun and wait for what they need, the one tried last at the end -/
  begun : List Cmd
  done : List Cpl
deriving DecidableEq, Repr

/-- An inbound posted write not yet retired, with the lines whose homes have not acknowledged (20 R299). -/
structure Inbound where
  fn : Nat
  num : Nat
  left : List Nat
  /-- %tsc at the ordering point -/
  stamp : Nat
deriving DecidableEq, Repr

/-- A request that the module has sent to the host, with the PASID of its context: a read, a write, or a page request
(20 R297). -/
inductive OutKind where
  | read | write | page
deriving DecidableEq, Repr

structure OutReq where
  pasid : W32
  kind : OutKind
  addr : Nat
deriving DecidableEq, Repr

/-- A read of the host that waits or has been answered (20 R300). -/
structure HRead where
  fn : Nat
  off : Nat
  n : Nat
  /-- it waits for the function's posted writes below this number -/
  after : Nat
  /-- none while it waits; completion bytes, or poisoned, or aborted -/
  answer : Option (Option (List Byte) × Bool)
deriving DecidableEq, Repr

/-- A Floid link (20 R302). -/
structure Link where
  up : Bool
  peer : Nat
  nextSeq : W8
  /-- flits not acknowledged, by SEQ, with the line address of their packet -/
  unacked : List (W8 × Nat × List Byte)
  expect : W8
  /-- payload bytes received on each virtual channel, and the 32-byte fabric flits rebuilt and passed up, latest last -/
  rx : Tbl (List Byte)
  got : List (List Byte)
  /-- payloads queued to go out, each with the line address of its packet, and the flits sent, latest last -/
  tx : List (Nat × List Byte)
  wire : List (List Byte)
  replays : Nat
  nakked : Bool
deriving DecidableEq, Repr

/-- An STX store in flight (07 R143). -/
structure StxMsg where
  key : Nat
  /-- the key of the first store of its STX -/
  group : Nat
  blk : Nat
  src : Nat
  /-- %warp of the sender -/
  wid : Nat
  off : Nat
  bytes : List Byte
  parity : Bool
deriving DecidableEq, Repr

/-- A completed swap phase that waits for its STX stores (07 R155). -/
structure SwapSt where
  key : Nat
  n : Nat
  /-- the block whose count completed, or the grid for barriers 112 to 127 -/
  owner : Nat
  /-- STX stores that were in flight at the arrivals -/
  need : List Nat
deriving DecidableEq, Repr

inductive Stage where
  | off | bisque | glaze
deriving DecidableEq, Repr

/-- An item of the agenda: which agent moves next, or what the outside world does. -/
inductive Turn where
  /-- a partition takes an issue opportunity (01 R19) -/
  | issue (core quarter : Nat)
  /-- a step of the opcode table -/
  | event (i : Instr)
  /-- time passes, in ticks -/
  | tick (n : Nat)
  /-- the host writes its own memory -/
  | hostMem (addr : Nat) (bytes : List Byte)
  /-- an uncorrectable, or a corrected, soft error in memory, and in a block's scratchpad (10 R211) -/
  | softError (addr : Nat) (uncorrectable : Bool)
  | poolError (blk off : Nat) (uncorrectable : Bool)
  /-- the same in the store of a die, at a line it holds -/
  | storeError (die addr : Nat) (uncorrectable : Bool)
  /-- the table entry of a context's page becomes malformed or unreadable (10 R207) -/
  | tornEntry (ctx page : Nat)
  /-- the host's own translation of a page of its memory goes, or comes (20 R297) -/
  | hostPage (page : Nat) (present : Bool)
  /-- a partition captures n instructions from an address for a warp, and a warp prefetches words (07 R319) -/
  | capture (core slot lo n : Nat)
  | prefetch (core slot : Nat)
  /-- the G7 devices and the calibration have finished training (20 R309) -/
  | trained
  /-- the devices that firmware finds behind the four CXL ports: their sizes (20 R301) -/
  | cxl (sizes : List (List Nat))
  /-- the host enables virtual functions (20 R297) -/
  | functions (n : Nat)
  /-- the firmware resets a die after an uncorrectable error of its core domain (20 R295) -/
  | coreError (die : Nat)
deriving DecidableEq, Repr

/-- The issuing context: which group of which warp the running instruction belongs to. -/
structure Cur where
  core : Nat
  slot : Nat
  entry : Nat
  pc : W64
  next : W64
  word : Nat
deriving DecidableEq, Repr

structure State where
  tsc : Nat
  /-- the last frame that has ended (20 R292) -/
  frame : Nat
  stage : Stage
  trained : Bool
  mem : List Host.Cell
  /-- the write a byte's home holds, absent for the initial contents -/
  last : Tbl Nat
  poison : List Nat
  /-- every write made, by its key (10 R316) -/
  writes : Tbl WriteRec
  msgs : List Msg
  hseq : Nat
  dies : List Die
  cols : List Column
  cores : List CoreSt
  warps : Tbl Warp
  blocks : Tbl Block
  grids : Tbl Grid
  ctxs : Tbl Ctx
  boards : Tbl Board
  breqs : List BReq
  stxs : List StxMsg
  arrs : List ArrMsg
  swaps : List SwapSt
  caravans : List Caravan
  /-- work packets on their way to a mailbox -/
  packets : List Packet
  /-- responses on their way to instructions that a core reset has ended: core, slot, 64 for an engine operation, and
  instruction (20 R296) -/
  orphans : List (Nat × Nat × Nat)
  queues : Tbl QPair
  inbound : List Inbound
  hreads : List HRead
  /-- requests sent to the host, latest last, and host pages of 4 KiB whose translation is absent (20 R297) -/
  outbound : List OutReq
  hostAbsent : List Nat
  links : List Link
  powerCap : Nat
  /-- tick of the last sample of the module's power; since when it has been at or below 95% of the cap -/
  capAt : Nat
  capTimer : Option Nat
  modPower : Nat
  meas : List (List Byte)
  /-- open-bump events by column, kept across resets and power cycles (14 R256) -/
  bumps : Tbl Nat
  g7 : Nat
  /-- CXL devices by port: base, within the port's range, and size, 0 for one that could not be placed (20 R301) -/
  cxl : List (List (Nat × Nat))
  cxlBad : Nat
  vfs : Nat
  hubLog : List Event
  hubLost : Nat
  /-- MSI-X messages sent: function and vector (20 R303) -/
  msix : List (Nat × Nat)
  launchCount : Nat
  issueCount : Nat
  nextKey : Nat
  agenda : List Turn
  fresh : Nat
  rr : Nat
  cur : Cur
deriving DecidableEq, Repr

/-- An unlisted byte of memory reads as this (log entry 2). -/
def memDefault : Byte := 0

def Die.init : Die :=
  { vec := .zero, nextWrite := 1, copies := [], bad := [], merged := [], tlb := [], ranges := [], pubRemain := [], pubFree := [], mailbox := [],
    giving := none, dreg := List.replicate 32 0, gen := 0, stale := 0, malformed := 0, lost := 0, faults := [], faultWait := [], log := [],
    bisque := false, lastReset := none, resetAsk := false, rail := 0, railAt := 0, fstep := 0, fhigh := 0, flow := 0, fjudged := 0, steal := .idle }

/-- A sensor before its first sample (14 R318). -/
def Sensor.init : Sensor :=
  { reading := 0, bad := false, stuck := false, good := 0, same := 0, low := 0 }

/-- A column at power-up (14 R318; 14 R241, 20 R309: bisque columns run at step 4 with ratio 1). -/
def Column.init : Column :=
  { step := 4, ratio := 1, est := [16, 16, 16, 16], hw := [0, 0, 0, 0], fc := [16, 16, 16, 16],
    throttle := [none, none, none, none], throttleFor := [[], [], [], []], over6 := [none, none, none], over9 := [none, none, none],
    over2 := [none, none, none], rung := [1, 1, 1], fallback := false, fallMoved := false, thermal := none,
    powerCeil := none, sensorFall := false, bumpCap := false, boost := 0, boostOn := false, boostCeil := 12, tband := 7,
    sampled := false, volts := List.replicate 16 Sensor.init, temps := List.replicate 4 Sensor.init, window := 0,
    windowAt := 0, rescaleDue := false, mism := [false, false, false], sampleAt := 0, sums := [],
    gated := false, powerStage := 4, powerAsk := 0, powerAt := 0, emptySince := 0, bias := [0, 0, 0, 0], stepAt := 0, thermAt := 0, boostAt := 0,
    boostTick := 0, throttleAt := [0, 0, 0, 0] }

def CoreSt.init : CoreSt :=
  { istore := [], hbuf := [], loops := [none, none, none, none], lines := [], tlb := [], ptlbs := [[], [], [], []], rot := 0, departures := 0, arrivals := [], replica := none, fullPub := false, icinvs := [] }

def Link.init : Link :=
  { up := false, peer := 0, nextSeq := 0, unacked := [], expect := 0, rx := [], got := [], tx := [], wire := [], replays := 0, nakked := false }

/-- The machine right after reset: power has not been good yet. -/
def State.reset : State :=
  { tsc := 0, frame := 0, stage := .off, trained := false, mem := [], last := [], poison := [], writes := [], msgs := [], hseq := 0,
    dies := List.replicate 5 Die.init, cols := List.replicate 64 Column.init, cores := List.replicate 256 CoreSt.init,
    warps := [], blocks := [], grids := [], ctxs := [], boards := [], breqs := [], stxs := [], arrs := [], swaps := [],
    caravans := [], packets := [], orphans := [], queues := [], inbound := [], hreads := [], outbound := [], hostAbsent := [], links := List.replicate 8 Link.init, powerCap := 2400,
    capAt := 0, capTimer := none, modPower := 0, meas := List.replicate 4 (List.replicate 48 0), bumps := [], g7 := 0,
    cxl := [[], [], [], []], cxlBad := 0, vfs := 0, hubLog := [], hubLost := 0, msix := [], launchCount := 0,
    issueCount := 0, nextKey := 1, agenda := [], fresh := 0, rr := 0, cur := ⟨0, 0, 0, 0, 0, 0⟩ }

end Sys2Proof.Machine
end

