-- ==== Sys2Proof/Machine/Base.lean ====
section
/-! DEFINITION. The plain operations under every other: tables, memory in canonical form, lane masks, vector clocks,
bytes and bit fields. -/

namespace Sys2Proof.Machine

abbrev Out := Host.Outcome State Fault Refusal

/- Tables (keys strictly rising). -/

def tget {α : Type} (t : Tbl α) (k : Nat) : Option α :=
  match t with
  | [] => none
  | (j, v) :: t => if j = k then some v else tget t k

def tput {α : Type} (t : Tbl α) (k : Nat) (v : α) : Tbl α :=
  match t with
  | [] => [(k, v)]
  | (j, w) :: t => if k < j then (k, v) :: (j, w) :: t else if k = j then (k, v) :: t else (j, w) :: tput t k v

def tdel {α : Type} (t : Tbl α) (k : Nat) : Tbl α :=
  match t with
  | [] => []
  | (j, w) :: t => if j = k then tdel t k else (j, w) :: tdel t k

def tmod {α : Type} (t : Tbl α) (k : Nat) (f : α → α) : Tbl α :=
  match t with
  | [] => []
  | (j, w) :: t => if j = k then (j, f w) :: t else (j, w) :: tmod t k f

/-- Keys strictly rising. -/
def tsorted {α : Type} (t : Tbl α) : Bool :=
  match t with
  | [] => true
  | [_] => true
  | (j, _) :: (k, v) :: t => j < k && tsorted ((k, v) :: t)

/-- Change one element of a list that reads as d past its end. -/
def lput {α : Type} (l : List α) (i : Nat) (d : α) (f : α → α) : List α :=
  match l, i with
  | [], 0 => [f d]
  | [], i + 1 => d :: lput [] i d f
  | x :: l, 0 => f x :: l
  | x :: l, i + 1 => x :: lput l i d f

/-- Whether a sensor counts (14 R254). -/
def Sensor.valid (x : Sensor) : Bool := !x.bad && !x.stuck

/- Memory: canonical pairs of address and byte (10 R191, R195). -/

/-- One byte of physical memory. -/
def memGet (m : List Host.Cell) (a : Nat) : Byte := (tget m a).getD memDefault

/-- Write one byte; a byte equal to the default is not listed. -/
def memPut (m : List Host.Cell) (a : Nat) (v : Byte) : List Host.Cell :=
  if v = memDefault then tdel m a else tput m a v

/-- The canonical form: addresses strictly rising and no entry equal to the default. -/
def Memory.wf (m : List Host.Cell) : Bool := tsorted m && m.all (fun c => c.2 != memDefault)

/-- The same tables hold scratchpad bytes, zero when unlisted (01 R11). -/
def padGet (m : Tbl Byte) (a : Nat) : Byte := (tget m a).getD 0
def padPut (m : Tbl Byte) (a : Nat) (v : Byte) : Tbl Byte := if v = 0 then tdel m a else tput m a v

def padRead (m : Tbl Byte) (a n : Nat) : List Byte := (List.range n).map (fun i => padGet m (a + i))

def padWrite (m : Tbl Byte) (a : Nat) (bs : List Byte) : Tbl Byte :=
  match bs with
  | [] => m
  | b :: bs => padWrite (padPut m a b) (a + 1) bs

/- Bytes, little-endian (00 R4). -/

def bytesOf (n v : Nat) : List Byte := (List.range n).map (fun i => BitVec.ofNat 8 (v >>> (8 * i)))

def ofBytes (bs : List Byte) : Nat :=
  match bs with
  | [] => 0
  | b :: bs => b.toNat + 256 * ofBytes bs

/-- Bits h:l of a number. -/
def field (v l n : Nat) : Nat := (v >>> l) % 2 ^ n

/-- Sign-extend the low n bits to 64. -/
def sext (n v : Nat) : W64 := BitVec.ofInt 64 (if v % 2 ^ n < 2 ^ (n - 1) then (v % 2 ^ n : Nat) else (v % 2 ^ n : Nat) - (2 ^ n : Nat))

def ceilDiv (a b : Nat) : Nat := (a + b - 1) / b

/- Lanes. -/

def allLanes : List Nat := List.range 32

def has (m : Mask) (l : Nat) : Bool := m.getLsbD l

def laneBit (l : Nat) : Mask := BitVec.ofNat 32 (2 ^ l)

def lanesOf (m : Mask) : List Nat := allLanes.filter (has m)

/-- The mask of the lanes that satisfy a condition. -/
def maskOf (f : Nat → Bool) : Mask :=
  BitVec.ofNat 32 (allLanes.foldl (fun a l => if f l then a + 2 ^ l else a) 0)

def lowest (m : Mask) : Option Nat := (lanesOf m).head?

def nth {α : Type} (l : List α) (i : Nat) (d : α) : α := (l[i]?).getD d

/- Vector clocks (10 R205). -/

def VC.join (a b : VC) : VC := ⟨max a.d0 b.d0, max a.d1 b.d1, max a.d2 b.d2, max a.d3 b.d3, max a.d4 b.d4⟩

/-- b covers a. -/
def VC.le (a b : VC) : Bool := a.d0 ≤ b.d0 && a.d1 ≤ b.d1 && a.d2 ≤ b.d2 && a.d3 ≤ b.d3 && a.d4 ≤ b.d4

def VC.get (a : VC) (d : Nat) : Nat :=
  match d with
  | 0 => a.d0
  | 1 => a.d1
  | 2 => a.d2
  | 3 => a.d3
  | _ => a.d4

def VC.raise (a : VC) (d n : Nat) : VC :=
  match d with
  | 0 => { a with d0 := max a.d0 n }
  | 1 => { a with d1 := max a.d1 n }
  | 2 => { a with d2 := max a.d2 n }
  | 3 => { a with d3 := max a.d3 n }
  | _ => { a with d4 := max a.d4 n }

def VC.joins (l : List VC) : VC := l.foldl VC.join .zero

def Clk.init (base : VC) : Clk := { base := base, own := .zero, rd := .zero, col := List.replicate 8 .zero, seen := [], views := [] }

/-- The key of write n of origin o. -/
def wkey (o n : Nat) : Nat := n * 5 + o

/- Cores and columns (00 R3). -/

def coreDie (c : Nat) : Nat := c / 64
def coreColumn (c : Nat) : Nat := c / 4
def coreLayer (c : Nat) : Nat := c % 4
def warpKey (core slot : Nat) : Nat := core * 64 + slot

/- Flags of a launch (01 R34). -/

def Launch.flag (r : Launch) (i : Nat) : Bool := r.flags.getLsbD i
def Launch.coop (r : Launch) : Bool := r.flag 0
def Launch.travel (r : Launch) : Bool := r.flag 1
def Launch.feature (r : Launch) (i : Nat) : Bool := r.features.getLsbD i

/- Reading and updating the parts of the state. -/

def State.die (s : State) (d : Nat) : Die := nth s.dies d Die.init
def State.modDie (s : State) (d : Nat) (f : Die → Die) : State := { s with dies := lput s.dies d Die.init f }
def State.col (s : State) (c : Nat) : Column := nth s.cols c Column.init
def State.modCol (s : State) (c : Nat) (f : Column → Column) : State := { s with cols := lput s.cols c Column.init f }
def State.core (s : State) (c : Nat) : CoreSt := nth s.cores c CoreSt.init
def State.modCore (s : State) (c : Nat) (f : CoreSt → CoreSt) : State := { s with cores := lput s.cores c CoreSt.init f }
def State.warp? (s : State) (core slot : Nat) : Option Warp := tget s.warps (warpKey core slot)
def State.modWarp (s : State) (k : Nat) (f : Warp → Warp) : State := { s with warps := tmod s.warps k f }
def State.modBlock (s : State) (k : Nat) (f : Block → Block) : State := { s with blocks := tmod s.blocks k f }
def State.modGrid (s : State) (k : Nat) (f : Grid → Grid) : State := { s with grids := tmod s.grids k f }
def State.modCtx (s : State) (k : Nat) (f : Ctx → Ctx) : State := { s with ctxs := tmod s.ctxs k f }

/-- A free value: the next value of the state's counter. -/
def State.tickFresh (s : State) : State := { s with fresh := s.fresh + 1 }

/-- Warps of a block, with their keys. -/
def State.warpsOf (s : State) (bk : Nat) : Tbl Warp := s.warps.filter (fun w => w.2.blk == bk)

/-- Resident blocks of a core. -/
def Block.resident (b : Block) : Bool :=
  match b.state with
  | .running | .preempting | .restoring => true
  | .out | .ended => false

def State.blocksOn (s : State) (core : Nat) : Tbl Block := s.blocks.filter (fun b => b.2.core == core && b.2.resident)

/-- Blocks of the block's cluster: ranks share it; a child block, and a replica core of a travel grid, is a cluster of its own
(01 R30, R43; 16 R274, R277). -/
def State.clusterOf (s : State) (b : Block) (r : Launch) : Tbl Block :=
  s.blocks.filter (fun x => x.2.grid == b.grid && x.2.state != .ended
    && (if r.gblocks ≤ b.bid then x.2.bid == b.bid
        else if r.travel then x.2.bid == b.bid && x.2.core == b.core
        else x.2.bid / r.csize == b.bid / r.csize))


/- Fields of the pool partition word (01 R12). -/

def poolRf (w : W32) : Nat := field w.toNat 0 8
def poolScr (w : W32) : Nat := field w.toNat 8 8
def poolShd (w : W32) : Nat := field w.toNat 16 8
def poolAcc (w : W32) : Nat := field w.toNat 24 8

/-- Bytes of the block's scratchpad (01 R13). -/
def Block.scratchBytes (b : Block) : Nat := poolScr b.poolw * 8192
def Block.shadowBytes (b : Block) : Nat := poolShd b.poolw * 8192

/-- Storage of a ceiling (04 R78). -/
def Tag.bytes : Tag → Nat
  | .u => 4
  | .a => 8
  | .g => 128

def Tag.code : Tag → Nat
  | .u => 0
  | .a => 1
  | .g => 2

/-- Codes of the causes (13 R223). -/
def Cause.code : Cause → Nat
  | .badLength => 1 | .unimplOp => 2 | .badField => 3 | .fetchCross => 4 | .repMisuse => 5 | .shapeCeiling => 6
  | .regRange => 7 | .badSlot => 8 | .featureOff => 9 | .privileged => 10 | .exitOutstanding => 11 | .trapInstr => 12
  | .breakpoint => 13 | .singleStep => 14 | .watchpoint => 15 | .badPath => 16 | .misaligned => 17 | .pageAbsent => 18
  | .pageProtect => 19 | .scratchRange => 20 | .exchangeTarget => 21 | .atomicPath => 22 | .footprint => 23
  | .jobMalformed => 24 | .layoutBad => 25 | .memoryError => 26 | .walkError => 27 | .queueMisuse => 28
  | .accRange => 29 | .sparseMeta => 30 | .lookaheadRaw => 31 | .barNumber => 32 | .barMember => 33
  | .barOverarrive => 34 | .boardSlot => 35 | .boardRepost => 36 | .boardRound => 37 | .splitHang => 38
  | .wsyncMask => 39 | .stackMismatch => 40 | .mateSwapped => 41 | .thermalLimit => 42 | .burnDenied => 43
  | .shuntDenied => 44 | .powerCap => 45 | .sensorDegraded => 46 | .boostEmpty => 47 | .segmentMiss => 48
  | .carryOverflow => 49 | .arrivalSpill => 50 | .spillFull => 51 | .travelMode => 52 | .segmentMapBad => 53
  | .replicaStale => 54 | .travelSync => 55 | .preempt => 56 | .contextKill => 57 | .spawnEmpty => 58
  | .mailboxFull => 59 | .fpException => 60 | .doubleFault => 61 | .watchdog => 62 | .debugHalt => 63

/-- The classes of 13 R219. -/
inductive CauseClass where
  | decode | sync | async | none
deriving DecidableEq, Repr

def Cause.cls : Cause → CauseClass
  | .badLength | .unimplOp | .badField | .fetchCross | .repMisuse | .shapeCeiling | .regRange | .badSlot | .featureOff
  | .privileged | .accRange | .barNumber | .travelMode => .decode
  | .singleStep | .splitHang | .stackMismatch | .mateSwapped | .thermalLimit | .powerCap | .sensorDegraded | .boostEmpty
  | .arrivalSpill | .preempt | .contextKill | .fpException | .watchdog | .debugHalt => .async
  | .doubleFault => .none
  | .exitOutstanding | .trapInstr | .breakpoint | .watchpoint | .badPath | .misaligned | .pageAbsent | .pageProtect
  | .scratchRange | .exchangeTarget | .atomicPath | .footprint | .jobMalformed | .layoutBad | .memoryError | .walkError
  | .queueMisuse | .sparseMeta | .lookaheadRaw | .barMember | .barOverarrive | .boardSlot | .boardRepost | .boardRound
  | .wsyncMask | .burnDenied | .shuntDenied | .segmentMiss | .carryOverflow | .spillFull | .segmentMapBad | .replicaStale
  | .travelSync | .spawnEmpty | .mailboxFull => .sync

end Sys2Proof.Machine
end

