-- ==== Sys2Proof/Machine/Flags.lean ====
section
/-! DEFINITION. Flag computations: the five floating-point flags (04 R83), and the carry, overflow and comparison
results of the integer instructions (06 R100, R101, R110). -/

namespace Sys2Proof.Machine

/-- NV, DZ, OF, UF, NX in bits 4 to 0 (04 R83). -/
abbrev FFlags := BitVec 5

def fNV : FFlags := 16
def fDZ : FFlags := 8
def fOF : FFlags := 4
def fUF : FFlags := 2
def fNX : FFlags := 1

def flagIf (c : Bool) (f : FFlags) : FFlags := if c then f else 0

/-- The bits of a word as a signed or unsigned integer (06, helper ival). -/
def ival {w : Nat} (u : Bool) (v : BitVec w) : Int := if u then (v.toNat : Int) else v.toInt

/-- Least and greatest value of a w-bit integer. -/
def intMin (u : Bool) (w : Nat) : Int := if u then 0 else -(2 ^ (w - 1) : Nat)
def intMax (u : Bool) (w : Nat) : Int := if u then (2 ^ w : Nat) - 1 else (2 ^ (w - 1) : Nat) - 1

def clampInt (lo hi x : Int) : Int := if x < lo then lo else if hi < x then hi else x

/-- Wrap, or saturate, an exact result to w bits (06 R100). -/
def narrowInt (sat u : Bool) (w : Nat) (x : Int) : BitVec w :=
  BitVec.ofInt w (if sat then clampInt (intMin u w) (intMax u w) x else x)

/-- Carry out, or signed overflow, of IADDC (06 R101). -/
def carryOut (u : Bool) (x : Int) : Bool := if u then decide ((2 ^ 32 : Int) ≤ x) else decide (x < -(2 ^ 31 : Int) ∨ (2 ^ 31 : Int) - 1 < x)

/-- The integer conditions (06 R110). -/
def condHolds (c : Cond) (a b : Int) : Bool :=
  match c with
  | .eq => decide (a = b)
  | .ne => decide (a ≠ b)
  | .lt => decide (a < b)
  | .le => decide (a ≤ b)
  | .gt => decide (b < a)
  | .ge => decide (b ≤ a)

end Sys2Proof.Machine
end

