-- ==== Sys2Proof/Machine/Float.lean ====
section
/-! DEFINITION. Floating point: the IEEE formats (04 R84, R85), one rounding of an exact value, the exact operations,
the functions of 06 R120, the narrow family (04 R86 to R89) and the conversions (06 R121 to R123). An operation
converts its operands to exact values, computes exactly and rounds once. -/

namespace Sys2Proof.Machine

/-- An IEEE format: exponent and mantissa field widths. -/
structure Fmt where
  eb : Nat
  mb : Nat
deriving DecidableEq, Repr

def f16 : Fmt := ⟨5, 10⟩
def bf16 : Fmt := ⟨8, 7⟩
def f32 : Fmt := ⟨8, 23⟩
def f64 : Fmt := ⟨11, 52⟩

def Fmt.bias (f : Fmt) : Int := (2 ^ (f.eb - 1) : Nat) - 1
/-- Exponent of the least significant bit of a subnormal. -/
def Fmt.lsb (f : Fmt) : Int := 1 - f.bias - f.mb
def Fmt.width (f : Fmt) : Nat := 1 + f.eb + f.mb
def Fmt.infBits (f : Fmt) : Nat := (2 ^ f.eb - 1) * 2 ^ f.mb
/-- The canonical quiet NaN (04 R85). -/
def Fmt.nanBits (f : Fmt) : Nat := f.infBits + 2 ^ (f.mb - 1)
def Fmt.signBit (f : Fmt) (s : Bool) : Nat := if s then 2 ^ (f.eb + f.mb) else 0

/-- A value: NaN (signalling or not), infinity, or (−1)^s × m × 2^e. -/
inductive FVal where
  | nan (sig : Bool)
  | inf (s : Bool)
  | fin (s : Bool) (m : Nat) (e : Int)
deriving DecidableEq, Repr

def FVal.isNan : FVal → Bool
  | .nan _ => true
  | .inf _ | .fin .. => false

def FVal.isSig : FVal → Bool
  | .nan s => s
  | .inf _ | .fin .. => false

def FVal.sign : FVal → Bool
  | .nan _ => false
  | .inf s => s
  | .fin s _ _ => s

def FVal.neg : FVal → FVal
  | .nan q => .nan q
  | .inf s => .inf (!s)
  | .fin s m e => .fin (!s) m e

def FVal.abs : FVal → FVal
  | .nan q => .nan q
  | .inf _ => .inf false
  | .fin _ m e => .fin false m e

/-- The value of a bit pattern. -/
def Fmt.unpack (f : Fmt) (v : Nat) : FVal :=
  let s := v.testBit (f.eb + f.mb)
  let e := (v >>> f.mb) % 2 ^ f.eb
  let m := v % 2 ^ f.mb
  if e = 2 ^ f.eb - 1 then (if m = 0 then .inf s else .nan (!m.testBit (f.mb - 1)))
  else if e = 0 then .fin s m f.lsb
  else .fin s (2 ^ f.mb + m) (f.lsb + e - 1)

/-- Whether a pattern is a nonzero subnormal. -/
def Fmt.isSub (f : Fmt) (v : Nat) : Bool := (v >>> f.mb) % 2 ^ f.eb == 0 && v % 2 ^ f.mb != 0

def bitLen (n : Nat) : Nat := if n = 0 then 0 else n.log2 + 1

/-- Whether rounding m, with remainder r of 2^k and a sticky part, goes up. -/
def roundUp (rm : RM) (s : Bool) (q r k : Nat) (sticky : Bool) : Bool :=
  let inexact := r != 0 || sticky
  match rm with
  | .rtz => false
  | .rup => inexact && !s
  | .rdn => inexact && s
  | .rne =>
    if k = 0 then false
    else
      let half := 2 ^ (k - 1)
      if r > half then true
      else if r = half then sticky || q % 2 = 1
      else false

/-- Round m × 2^e (with a sticky part below) to a multiple of 2^q: the quotient and whether it is inexact. -/
def roundAt (rm : RM) (s : Bool) (m : Nat) (e q : Int) (sticky : Bool) : Nat × Bool :=
  if q ≤ e then (m * 2 ^ (e - q).toNat, sticky)
  else
    let k := (q - e).toNat
    let d := m >>> k
    let r := m % 2 ^ k
    (if roundUp rm s d r k sticky then d + 1 else d, r != 0 || sticky)

/-- Largest finite pattern of a format. -/
def Fmt.maxBits (f : Fmt) : Nat := f.infBits - 1

/-- The overflow result of a rounding mode. -/
def Fmt.overflow (f : Fmt) (rm : RM) (s : Bool) : Nat :=
  let toInf := match rm with
    | .rne => true
    | .rtz => false
    | .rup => !s
    | .rdn => s
  f.signBit s + (if toInf then f.infBits else f.maxBits)

/-- The single rounding of an exact value into a format, tininess after rounding (04 R84, 06 R115). -/
def Fmt.round (f : Fmt) (rm : RM) (s : Bool) (m : Nat) (e : Int) (sticky : Bool) : Nat × FFlags :=
  if m = 0 && !sticky then (f.signBit s, 0)
  else
    let top : Int := e + bitLen m            -- value below 2^top
    let qu := top - (f.mb + 1)               -- unbounded exponent range
    let q := if qu < f.lsb then f.lsb else qu
    let (d, nx) := roundAt rm s m e q sticky
    let (du, _) := roundAt rm s m e qu sticky
    let tiny := decide ((if du = 2 ^ (f.mb + 1) then qu + f.mb + 1 else qu + f.mb) < 1 - f.bias)
    let (d, q) := if d = 2 ^ (f.mb + 1) then (2 ^ f.mb, q + 1) else (d, q)
    if q + f.mb > f.bias then (f.overflow rm s, fOF ||| fNX)
    else
      let bits :=
        if d < 2 ^ f.mb then d
        else (q - f.lsb + 1).toNat * 2 ^ f.mb + (d - 2 ^ f.mb)
      (f.signBit s + bits, flagIf nx fNX ||| flagIf (tiny && nx) fUF)

/-- Flush a subnormal result to zero of its sign, setting UF and NX (04 R84). -/
def Fmt.flush (f : Fmt) (ftz : Bool) (r : Nat × FFlags) : Nat × FFlags :=
  if ftz && f.isSub r.1 then (f.signBit (r.1.testBit (f.eb + f.mb)), r.2 ||| fUF ||| fNX) else r

/-- Read an input, flushed under .ftz (04 R84). -/
def Fmt.input (f : Fmt) (ftz : Bool) (v : Nat) : FVal :=
  if ftz && f.isSub v then .fin (v.testBit (f.eb + f.mb)) 0 f.lsb else f.unpack v

/-- Round a value into a format. -/
def Fmt.pack (f : Fmt) (rm : RM) (v : FVal) : Nat × FFlags :=
  match v with
  | .nan _ => (f.nanBits, 0)
  | .inf s => (f.signBit s + f.infBits, 0)
  | .fin s m e => f.round rm s m e false

/-- Exact sum of two finite values; the sign of an exact zero follows 06 R115, but of zeros of one sign the
sum keeps that sign under every rounding, as IEEE 754 has it: the model's choice (log entry 61). -/
def addFin (rm : RM) (s1 : Bool) (m1 : Nat) (e1 : Int) (s2 : Bool) (m2 : Nat) (e2 : Int) : FVal :=
  let e := if e1 < e2 then e1 else e2
  let a : Int := (m1 * 2 ^ (e1 - e).toNat : Nat)
  let b : Int := (m2 * 2 ^ (e2 - e).toNat : Nat)
  let x := (if s1 then -a else a) + (if s2 then -b else b)
  if x = 0 then .fin (if s1 = s2 then s1 else rm == .rdn) 0 e
  else .fin (decide (x < 0)) x.natAbs e

/-- a × b + c as an exact value with NV (06 R115). -/
def fmaVal (rm : RM) (a b c : FVal) : FVal × FFlags :=
  let sig := flagIf (a.isSig || b.isSig || c.isSig) fNV
  let prod : FVal × Bool := match a, b with
    | .nan _, _ => (.nan false, false)
    | _, .nan _ => (.nan false, false)
    | .inf s, .inf t => (.inf (s != t), false)
    | .inf s, .fin t m _ => if m = 0 then (.nan false, true) else (.inf (s != t), false)
    | .fin s m _, .inf t => if m = 0 then (.nan false, true) else (.inf (s != t), false)
    | .fin s m e, .fin t n g => (.fin (s != t) (m * n) (e + g), false)
  match prod with
  | (.nan _, inv) => (.nan false, sig ||| flagIf inv fNV)
  | (p, _) =>
    match p, c with
    | _, .nan _ => (.nan false, sig)
    | .nan _, _ => (.nan false, sig)
    | .inf s, .inf t => if s = t then (.inf s, sig) else (.nan false, sig ||| fNV)
    | .inf s, .fin .. => (.inf s, sig)
    | .fin .., .inf t => (.inf t, sig)
    | .fin s m e, .fin t n g => (addFin rm s m e t n g, sig)

/-- a + b as an exact value. -/
def addVal (rm : RM) (a b : FVal) : FVal × FFlags :=
  let sig := flagIf (a.isSig || b.isSig) fNV
  match a, b with
  | .nan _, _ => (.nan false, sig)
  | _, .nan _ => (.nan false, sig)
  | .inf s, .inf t => if s = t then (.inf s, sig) else (.nan false, sig ||| fNV)
  | .inf s, .fin .. => (.inf s, sig)
  | .fin .., .inf t => (.inf t, sig)
  | .fin s m e, .fin t n g => (addFin rm s m e t n g, sig)

/-- a × b as an exact value. -/
def mulVal (a b : FVal) : FVal × FFlags :=
  let sig := flagIf (a.isSig || b.isSig) fNV
  match a, b with
  | .nan _, _ => (.nan false, sig)
  | _, .nan _ => (.nan false, sig)
  | .inf s, .inf t => (.inf (s != t), sig)
  | .inf s, .fin t m _ => if m = 0 then (.nan false, sig ||| fNV) else (.inf (s != t), sig)
  | .fin s m _, .inf t => if m = 0 then (.nan false, sig ||| fNV) else (.inf (s != t), sig)
  | .fin s m e, .fin t n g => (.fin (s != t) (m * n) (e + g), sig)

/-- Round an exact result with its flags, and flush. -/
def Fmt.finish (f : Fmt) (ftz : Bool) (rm : RM) (x : FVal × FFlags) : Nat × FFlags :=
  let r := f.flush ftz (f.pack rm x.1)
  (r.1, r.2 ||| x.2)

/-- FADD, FMUL and FFMA on values already modified (06 R115). -/
def Fmt.add (f : Fmt) (ftz : Bool) (rm : RM) (a b : FVal) : Nat × FFlags := f.finish ftz rm (addVal rm a b)
def Fmt.mul (f : Fmt) (ftz : Bool) (rm : RM) (a b : FVal) : Nat × FFlags := f.finish ftz rm (mulVal a b)
def Fmt.fma (f : Fmt) (ftz : Bool) (rm : RM) (a b c : FVal) : Nat × FFlags := f.finish ftz rm (fmaVal rm a b c)

/-- Exact comparison of finite magnitudes with sign: the difference a − b as an integer at a common scale. -/
def diffFin (s1 : Bool) (m1 : Nat) (e1 : Int) (s2 : Bool) (m2 : Nat) (e2 : Int) : Int :=
  let e := if e1 < e2 then e1 else e2
  let a : Int := (m1 * 2 ^ (e1 - e).toNat : Nat)
  let b : Int := (m2 * 2 ^ (e2 - e).toNat : Nat)
  (if s1 then -a else a) - (if s2 then -b else b)

/-- Order of two non-NaN values: negative, zero or positive; −0 equals +0. -/
def cmpVal (a b : FVal) : Int :=
  match a, b with
  | .inf s, .inf t => if s = t then 0 else if s then -1 else 1
  | .inf s, .fin .. => if s then -1 else 1
  | .fin .., .inf t => if t then 1 else -1
  | .fin s m e, .fin t n g => diffFin s m e t n g
  | _, _ => 0

/-- Whether a stands below b with −0 < +0. -/
def numBelow (a b : FVal) : Bool :=
  let c := cmpVal a b
  if c = 0 then a.sign && !b.sign else decide (c < 0)

/-- minimumNumber and maximumNumber of two patterns, −0 < +0 (06 R116). -/
def Fmt.minNum (f : Fmt) (a b : Nat × FVal) : Nat × FFlags :=
  let fl := flagIf (a.2.isSig || b.2.isSig) fNV
  if a.2.isNan then (if b.2.isNan then f.nanBits else b.1, fl)
  else if b.2.isNan then (a.1, fl)
  else (if numBelow b.2 a.2 then b.1 else a.1, fl)

def Fmt.maxNum (f : Fmt) (a b : Nat × FVal) : Nat × FFlags :=
  let fl := flagIf (a.2.isSig || b.2.isSig) fNV
  if a.2.isNan then (if b.2.isNan then f.nanBits else b.1, fl)
  else if b.2.isNan then (a.1, fl)
  else (if numBelow a.2 b.2 then b.1 else a.1, fl)

/-- ABS then NEG on a pattern (03 R54). -/
def Fmt.modify (f : Fmt) (ab ng : Bool) (v : Nat) : Nat :=
  let w := if ab then v % 2 ^ (f.eb + f.mb) else v
  if ng then w ^^^ 2 ^ (f.eb + f.mb) else w

/-- The comparisons of FSETP and DSETP: result and flags (06 R111). -/
def fcmp (c : FCnd) (a b : FVal) : Bool × FFlags :=
  let un := a.isNan || b.isNan
  let sig := a.isSig || b.isSig
  let o := cmpVal a b
  let r := match c.c with
    | .eq => decide (o = 0)
    | .ne => decide (o ≠ 0)
    | .lt => decide (o < 0)
    | .le => decide (o ≤ 0)
    | .gt => decide (o > 0)
    | .ge => decide (o ≥ 0)
    | .num => true
  let ordered := match c.c with
    | .lt | .le | .gt | .ge => !c.un
    | .eq | .ne | .num => false
  let res := match c.c with
    | .num => if c.un then un else !un
    | _ => if un then c.un else r
  (res, flagIf (if ordered then un else sig) fNV)

/-- FCLASS (06 R117). -/
def fclassOf (v : Nat) : Nat :=
  match f32.unpack v with
  | .nan sig => if sig then 1 else 2
  | .inf s => if s then 4 else 512
  | .fin s m _ =>
    if m = 0 then (if s then 32 else 64)
    else if f32.isSub v then (if s then 16 else 128)
    else (if s then 8 else 256)

/-- FEXP (06 R117). -/
def fexpOf (v : Nat) : W32 × FFlags :=
  match f32.unpack v with
  | .nan sig => (0x80000000, flagIf sig fNV)
  | .inf _ => (0x7FFFFFFF, 0)
  | .fin _ m e => if m = 0 then (0x80000000, 0) else (BitVec.ofInt 32 (e + bitLen m - 1), 0)

/-- A finite value rounded to an integer (06 R117, R121): magnitude and inexactness. -/
def toIntegral (rm : RM) (s : Bool) (m : Nat) (e : Int) : Nat × Bool := roundAt rm s m e 0 false

/-- FRND (06 R117). -/
def frndOf (rm : RM) (v : FVal) : Nat × FFlags :=
  match v with
  | .nan sig => (f32.nanBits, flagIf sig fNV)
  | .inf s => (f32.signBit s + f32.infBits, 0)
  | .fin s m e =>
    let (d, _) := toIntegral rm s m e
    ((f32.round rm s d 0 false).1, 0)

/-- FLDEXP: the product by 2^n is exact before the single rounding (06 R117). -/
def fldexpOf (ftz : Bool) (rm : RM) (v : FVal) (n : Int) : Nat × FFlags :=
  match v with
  | .nan sig => (f32.nanBits, flagIf sig fNV)
  | .inf s => (f32.signBit s + f32.infBits, 0)
  | .fin s m e =>
    -- beyond ±1,000 the product is past every rounding boundary of the format
    let n := clampInt (-1000) 1000 n
    f32.flush ftz (f32.round rm s m (e + n) false)

/-- Integer square root of n below 2^(2k), bit by bit. -/
def isqrt (k n : Nat) : Nat :=
  match k with
  | 0 => 0
  | k + 1 => go k n 0
where
  go (i n r : Nat) : Nat :=
    let t := r + 2 ^ i
    let r := if t * t ≤ n then t else r
    match i with
    | 0 => r
    | i + 1 => go i n r

/-- FRCP on a positive magnitude: quotient of 2^k by m. -/
def frcpOf (ftz : Bool) (v : FVal) : Nat × FFlags :=
  match v with
  | .nan sig => (f32.nanBits, flagIf sig fNV)
  | .inf s => (f32.signBit s, 0)
  | .fin s m e =>
    if m = 0 then (f32.signBit s + f32.infBits, fDZ)
    else
      let q := 2 ^ 64 / m
      f32.flush ftz (f32.round .rne s q (-64 - e) (2 ^ 64 % m != 0))

/-- A magnitude m × 2^e with an even exponent. -/
def evenExp (m : Nat) (e : Int) : Nat × Int := if e % 2 = 0 then (m, e) else (2 * m, e - 1)

def fsqrtOf (ftz : Bool) (v : FVal) : Nat × FFlags :=
  match v with
  | .nan sig => (f32.nanBits, flagIf sig fNV)
  | .inf s => if s then (f32.nanBits, fNV) else (f32.infBits, 0)
  | .fin s m e =>
    if m = 0 then (f32.signBit s, 0)
    else if s then (f32.nanBits, fNV)
    else
      let (m, e) := evenExp m e
      let n := m * 2 ^ 64
      let r := isqrt 48 n
      f32.flush ftz (f32.round .rne false r (e / 2 - 32) (r * r != n))

def frsqOf (ftz : Bool) (v : FVal) : Nat × FFlags :=
  match v with
  | .nan sig => (f32.nanBits, flagIf sig fNV)
  | .inf s => if s then (f32.nanBits, fNV) else (0, 0)
  | .fin s m e =>
    if m = 0 then (f32.signBit s + f32.infBits, fDZ)
    else if s then (f32.nanBits, fNV)
    else
      let (m, e) := evenExp m e
      let n := 2 ^ 128
      let r := isqrt 66 (n / m)
      f32.flush ftz (f32.round .rne false r (-(e / 2) - 64) (r * r * m != n))

/-- ln 2 scaled by 2^256: the sum of 2^256 / (k 2^k). -/
def ln2Scaled : Nat := (List.range 256).foldl (fun a k => a + 2 ^ 256 / ((k + 1) * 2 ^ (k + 1))) 0

/-- e^y scaled by 2^256 for y scaled by 2^256, below 1: the exponential series. -/
def expScaled (n : Nat) (y : Nat) : Nat := go n 1 (2 ^ 256) (2 ^ 256) y
where
  go (n k term acc y : Nat) : Nat :=
    match n with
    | 0 => acc
    | n + 1 =>
      let t := term * y / 2 ^ 256 / k
      go n (k + 1) t (acc + t) y

/-- FEX2 (06 R120): 2^a for a finite nonzero a is n + f with 0 ≤ f < 1; 2^f comes from the series. -/
def fex2Of (ftz : Bool) (v : FVal) : Nat × FFlags :=
  match v with
  | .nan sig => (f32.nanBits, flagIf sig fNV)
  | .inf s => if s then (0, 0) else (f32.infBits, 0)
  | .fin s m e =>
    if m = 0 then (f32.round .rne false 1 0 false)
    else
      -- |a| of 512 or more lies past every boundary of the result
      if (e + bitLen m : Int) > 9 then
        (if s then f32.flush ftz (f32.round .rne false 1 (-300) true) else f32.round .rne false 1 300 true)
      else
        let x : Int := (m * 2 ^ (e + 256).toNat : Nat)      -- a × 2^256, exact for e ≥ −256
        let x := if s then -x else x
        let n := x / (2 ^ 256 : Int)
        let f := (x % (2 ^ 256 : Int)).toNat
        if f = 0 then f32.flush ftz (f32.round .rne false 1 n false)
        else f32.flush ftz (f32.round .rne false (expScaled 80 (f * ln2Scaled / 2 ^ 256)) (n - 256) true)

/-- The first k binary digits of log2 of y / 2^w, for y from 2^w below 2^(w + 1), by repeated squaring. -/
def log2Digits (k w y acc : Nat) : Nat :=
  match k with
  | 0 => acc
  | k + 1 =>
    let q := y * y / 2 ^ w
    if q ≥ 2 ^ (w + 1) then log2Digits k w (q / 2) (2 * acc + 1) else log2Digits k w q (2 * acc)

/-- FLG2 (06 R120). -/
def flg2Of (ftz : Bool) (v : FVal) : Nat × FFlags :=
  match v with
  | .nan sig => (f32.nanBits, flagIf sig fNV)
  | .inf s => if s then (f32.nanBits, fNV) else (f32.infBits, 0)
  | .fin s m e =>
    if m = 0 then (f32.signBit true + f32.infBits, fDZ)
    else if s then (f32.nanBits, fNV)
    else
      let l := bitLen m
      let ex : Int := e + l - 1
      if m = 2 ^ (l - 1) then
        f32.flush ftz (f32.round .rne (decide (ex < 0)) ex.natAbs 0 false)
      else
        let d := log2Digits 200 600 (m * 2 ^ (601 - l)) 0
        let x : Int := ex * 2 ^ 200 + d
        if x < 0 then f32.flush ftz (f32.round .rne true (x.natAbs - 1) (-200) true)
        else f32.flush ftz (f32.round .rne false x.toNat (-200) true)

/- Format slots and the narrow family (04 R86 to R89). -/

def slotKind (w : W32) : Nat := field w.toNat 30 2
def slotScaled (w : W32) : Bool := field w.toNat 9 2 == 1
def slotS (w : W32) : Nat := field w.toNat 8 1
def slotE (w : W32) : Nat := field w.toNat 4 4
def slotM (w : W32) : Nat := field w.toNat 0 4
def slotRtz (w : W32) : Bool := w.getLsbD 11
def slotSatNan (w : W32) : Bool := w.getLsbD 12
def slotWidth (w : W32) : Nat := slotS w + slotE w + slotM w

/-- The bias β: the slot's override, or the default of 04 R86. -/
def slotBias (w : W32) : Int :=
  if w.getLsbD 15 then (w.extractLsb' 16 8).toInt
  else if slotE w = 0 then 1 else (2 ^ (slotE w - 1) : Nat)

/-- Whether a slot word is valid (04 R89). -/
def slotValid (w : W32) : Bool :=
  match slotKind w with
  | 0 => true
  | 1 =>
    let e := slotE w
    let m := slotM w
    field w.toNat 24 6 == 0 && field w.toNat 13 2 == 0 && field w.toNat 9 2 ≤ 1 && e ≤ 8 && m ≤ 8
    && 2 ≤ slotWidth w && slotWidth w ≤ 8
    && decide ((2 ^ e : Nat) - 1 - slotBias w ≤ 127) && decide (1 - slotBias w - m ≥ -149)
    && (slotS w == 1 || !slotSatNan w)
  | _ => field w.toNat 0 30 == 0

/-- Container bits of a slot's elements (04 R87). -/
def slotContainer (w : W32) : Nat :=
  match slotKind w with
  | 1 => if slotWidth w ≤ 4 then 4 else 8
  | _ => 16

/-- The value of a narrow code (04 R86). -/
def narrowDecode (w : W32) (v : Nat) : FVal :=
  let e := slotE w
  let m := slotM w
  let v := v % 2 ^ slotWidth w
  let s := slotS w == 1 && v.testBit (e + m)
  let ef := (v >>> m) % 2 ^ e
  let mf := v % 2 ^ m
  if s && ef = 0 && mf = 0 then .nan false
  else if ef = 0 then .fin s mf (1 - slotBias w - m)
  else .fin s (2 ^ m + mf) (ef - slotBias w - m)

/-- The value of a slot element: a narrow code, or a 16-bit pattern (04 R88, R89). -/
def slotDecode (w : W32) (v : Nat) : FVal :=
  match slotKind w with
  | 1 => narrowDecode w v
  | 2 => f16.unpack (v % 65536)
  | _ => bf16.unpack (v % 65536)

/-- Conversion into a narrow format (04 R88): the code and the flags. -/
def narrowEncode (w : W32) (x : FVal) : Nat × FFlags :=
  let e := slotE w
  let m := slotM w
  let nanCode := 2 ^ (e + m)
  let signed := slotS w == 1
  let maxCode := 2 ^ (e + m) - 1
  let ovf (s : Bool) : Nat := if slotSatNan w then nanCode else (if s then nanCode else 0) + maxCode
  match x with
  | .nan _ => (if signed then nanCode else 0, fNV)
  | .inf s => if !signed && s then (0, fNV) else (ovf (s && signed), fNV)
  | .fin s mm ex =>
    if !signed && s && mm ≠ 0 then (0, fNV)
    else if mm = 0 then (0, 0)
    else
      let rm : RM := if slotRtz w then .rtz else .rne
      let lsb : Int := 1 - slotBias w - m
      let qu : Int := ex + bitLen mm - (m + 1)
      let q := if qu < lsb || e = 0 then lsb else qu
      let (d, nx) := roundAt rm false mm ex q false
      -- the code counts multiples of the least subnormal, exponent field by exponent field
      let (d, q) := if q > lsb && d = 2 ^ (m + 1) then (2 ^ m, q + 1) else (d, q)
      let code := if q = lsb then d else (q - lsb).toNat * 2 ^ m + d
      let tinyIn := decide (diffFin false mm ex false 1 (1 - slotBias w) < 0)
      if code > maxCode then (ovf s, fOF ||| fNX)
      else
        let fl := flagIf nx fNX ||| flagIf (tinyIn && nx) fUF
        if code = 0 then (0, fl) else ((if s then nanCode else 0) + code, fl)

/-- Round a value into a slot's format: 04 R88 for narrow, to nearest even otherwise. -/
def slotEncode (w : W32) (x : FVal) : Nat × FFlags :=
  match slotKind w with
  | 1 => narrowEncode w x
  | 2 => f16.pack .rne x
  | _ => bf16.pack .rne x

/- Conversions (06 R121 to R123). -/

def fmtOf : TypeCode → Fmt
  | .f64 => f64
  | .f16 => f16
  | .bf16 => bf16
  | _ => f32

/-- Width and unsignedness of an integer type. -/
def intOf : TypeCode → Nat × Bool
  | .i32 => (32, false)
  | .n32 => (32, true)
  | .i64 => (64, false)
  | .n64 => (64, true)
  | .i16 => (16, false)
  | .n16 => (16, true)
  | .i8 => (8, false)
  | .n8 => (8, true)
  | _ => (32, false)

/-- An integer result extended to 32 or 64 bits. -/
def extInt (w : Nat) (u : Bool) (x : Int) : W64 :=
  let v : Nat := (x % (2 ^ w : Nat)).toNat
  let ext : Int := if u || v < 2 ^ (w - 1) then (v : Int) else (v : Int) - (2 ^ w : Nat)
  if w = 64 then BitVec.ofNat 64 v else BitVec.ofInt 64 (ext % (2 ^ 32 : Nat))

/-- SAT with a floating-point destination: clamp to [+0, 1.0], NaN to +0 (06 R121). -/
def satUnit (f : Fmt) (v : Nat) : Nat :=
  match f.unpack v with
  | .nan _ => 0
  | .inf s => if s then 0 else (f.pack .rne (.fin false 1 0)).1
  | .fin s m e => if s || m = 0 then 0 else if diffFin false m e false 1 0 > 0 then (f.pack .rne (.fin false 1 0)).1 else v

/-- CVT of a source pattern: result in 64 bits and flags (06 R121). -/
def cvtOf (r : RndS) (dt st : TypeCode) (na aa : Bool) (v : Nat) : W64 × FFlags :=
  if st.isFloat then
    let sf := (fmtOf st)
    let x := sf.input r.ftz (sf.modify aa na (v % 2 ^ sf.width))
    if dt.isFloat then
      let df := (fmtOf dt)
      let nv := flagIf x.isSig fNV
      let p := df.flush r.ftz (df.pack r.rm x)
      (BitVec.ofNat 64 (if r.sat then satUnit df p.1 else p.1), p.2 ||| nv)
    else
      let (w, u) := intOf dt
      match x with
      | .nan _ => (0, fNV)
      | .inf s => (extInt w u (if s then intMin u w else intMax u w), fNV)
      | .fin s m e =>
        let (d, nx) := toIntegral r.rm s m e
        let i : Int := if s then -(d : Int) else d
        if i < intMin u w then (extInt w u (intMin u w), fNV)
        else if intMax u w < i then (extInt w u (intMax u w), fNV)
        else (extInt w u i, flagIf nx fNX)
  else
    let (sw, su) := intOf st
    let i : Int := ival su (BitVec.ofNat sw v)
    if dt.isFloat then
      let df := (fmtOf dt)
      let p := df.flush r.ftz (df.round r.rm (decide (i < 0)) i.natAbs 0 false)
      (BitVec.ofNat 64 (if r.sat then satUnit df p.1 else p.1), p.2)
    else
      let (w, u) := intOf dt
      (extInt w u (if r.sat then clampInt (intMin u w) (intMax u w) i else i), 0)

/-- SAT of CVTN into 16 bits and of CVTW: overflow to infinity becomes the largest finite value (06 R122, R123). -/
def satFinite (f : Fmt) (sat : Bool) (p : Nat × FFlags) : Nat × FFlags :=
  if sat && p.2 &&& fOF != 0 && p.1 % 2 ^ (f.eb + f.mb) == f.infBits then (p.1 - 1, p.2) else p

/-- CVTN (06 R122). -/
def cvtnOf (r : RndS) (st : TypeCode) (slot : W32) (na aa : Bool) (v : Nat) : W32 × FFlags :=
  let sf := (fmtOf st)
  let x := sf.input r.ftz (sf.modify aa na (v % 2 ^ sf.width))
  match slotKind slot with
  | 1 =>
    let p := narrowEncode slot x
    (BitVec.ofNat 32 p.1, p.2)
  | k =>
    let df := if k = 2 then f16 else bf16
    let p := satFinite df r.sat (df.flush r.ftz (df.pack r.rm x))
    (BitVec.ofNat 32 p.1, p.2 ||| flagIf x.isSig fNV)

/-- CVTW (06 R123): into binary32 the value is exact and only NV can be set; into 16 bits it rounds as CVT does. Under .ftz a
subnormal 16-bit source is flushed where the destination has 16 bits and not into binary32: the model's choice (log entry
61). -/
def cvtwOf (r : RndS) (dt : TypeCode) (slot : W32) (v : Nat) : W32 × FFlags :=
  let v := v % 2 ^ slotContainer slot
  let x := slotDecode slot v
  let nv := flagIf x.isSig fNV
  if dt = .f32 then (BitVec.ofNat 32 (f32.pack r.rm x).1, nv)
  else
    let x := if slotKind slot = 1 then x else (if slotKind slot = 2 then f16 else bf16).input r.ftz v
    let df := fmtOf dt
    let p := satFinite df r.sat (df.flush r.ftz (df.pack r.rm x))
    (BitVec.ofNat 32 p.1, p.2 ||| nv)

/- Binary32 sums of the warp-level and aggregated operations (04 R92). -/

def add32 (a b : W32) : W32 × FFlags :=
  let r := f32.add false .rne (f32.unpack a.toNat) (f32.unpack b.toNat)
  (BitVec.ofNat 32 r.1, r.2)

def min32 (a b : W32) : W32 × FFlags :=
  let r := f32.minNum (a.toNat, f32.unpack a.toNat) (b.toNat, f32.unpack b.toNat)
  (BitVec.ofNat 32 r.1, r.2)

def max32 (a b : W32) : W32 × FFlags :=
  let r := f32.maxNum (a.toNat, f32.unpack a.toNat) (b.toNat, f32.unpack b.toNat)
  (BitVec.ofNat 32 r.1, r.2)

end Sys2Proof.Machine
end

