-- ==== Sys2Proof/Machine/Operands.lean ====
section
/-! DEFINITION. Operand forms and destination writes: the value of a register in a lane, pairs and groups, operand B,
predicates and guards, source modifiers, and the shape tag of a write (03 R50, R52, R56; 04 R74 to R77). -/

namespace Sys2Proof.Machine

/-- The value lane l reads (04 R74). -/
def Reg.lane (r : Reg) (l : Nat) : W32 :=
  match r with
  | .u v => v
  | .a b s => b + BitVec.ofNat 32 l * s
  | .g vs => nth vs l 0

def Reg.tag (r : Reg) : Tag :=
  match r with
  | .u _ => .u
  | .a .. => .a
  | .g _ => .g

def Warp.reg (w : Warp) (n : Nat) : Reg := nth w.regs n (.u 0)

/-- Register n in lane l. -/
def Warp.rd (w : Warp) (n l : Nat) : W32 := (w.reg n).lane l

/-- The pair n:n+1 in lane l, low half first (04 R74). -/
def Warp.rd64 (w : Warp) (n l : Nat) : W64 := w.rd (n + 1) l ++ w.rd n l

/-- Operand B in lane l (03 R56). -/
def Warp.srcB (w : Warp) (b : SrcB) (l : Nat) : W32 :=
  match b with
  | .reg n => w.rd n.toNat l
  | .imm v => v

/-- Operand B as 64 bits: a pair, or the immediate extended (06 R100). -/
def Warp.srcB64 (w : Warp) (b : SrcB) (u : Bool) (l : Nat) : W64 :=
  match b with
  | .reg n => w.rd64 n.toNat l
  | .imm v => if u then v.setWidth 64 else v.signExtend 64

/-- Predicate p in lane l; 15 is pT (04 R80). -/
def Warp.pred (w : Warp) (p : W4) (l : Nat) : Bool := if p = 15 then true else has (nth w.preds p.toNat 0) l

def Warp.predMask (w : Warp) (p : W4) : Mask := if p = 15 then BitVec.allOnes 32 else nth w.preds p.toNat 0

/-- Lanes of the mask whose guard is true (03 R50). -/
def Warp.guarded (w : Warp) (h : Hdr) (m : Mask) : Mask :=
  m &&& (if h.gn then ~~~ w.predMask h.gp else w.predMask h.gp)

/-- Lanes of threads that are neither finished-idle nor vacant (01 R28, 16 R271). -/
def LaneSt.live (x : LaneSt) : Bool :=
  match x with
  | .on _ | .held => true
  | .idle | .vacant => false

def Warp.live (w : Warp) : Mask := maskOf (fun l => (nth w.lanes l .idle).live)

/-- Lanes on entry e of the split table (01 R17). -/
def Warp.groupOf (w : Warp) (e : Nat) : Mask := maskOf (fun l => nth w.lanes l .idle == .on e)

/-- Source modifiers of a binary32 source (03 R54). -/
def modA (x : Option Mods) : Bool × Bool := match x with | some m => (m.absA, m.negA) | none => (false, false)
def modB (x : Option Mods) : Bool × Bool := match x with | some m => (m.absB, m.negB) | none => (false, false)
def modC (x : Option Mods) : Bool × Bool := match x with | some m => (m.absC, m.negC) | none => (false, false)

def Fmt.src (f : Fmt) (md : Bool × Bool) (v : Nat) : Nat := f.modify md.1 md.2 v

/- Result tags (04 R76). -/

/-- How the row of 04 R76 decides the tag of a whole write. -/
inductive TagRule where
  /-- always G -/
  | g
  /-- always U -/
  | u
  /-- A with this base and stride -/
  | affine (b s : W32)
  /-- the source's tag and content -/
  | copy (r : Reg)
  /-- U when every one of the source registers has tag U, G otherwise -/
  | gen (srcs : List Nat)
deriving DecidableEq, Repr

def Warp.allU (w : Warp) (rs : List Nat) : Bool := rs.all (fun n => (w.reg n).tag == .u)

/-- The tag a whole write takes. -/
def Warp.ruleTag (w : Warp) (r : TagRule) : Tag :=
  match r with
  | .g => .g
  | .u => .u
  | .affine .. => .a
  | .copy x => x.tag
  | .gen srcs => if w.allU srcs then .u else .g

def Tag.le (a b : Tag) : Bool := a.code ≤ b.code

/-- Source registers of operand B. -/
def srcRegs (b : SrcB) : List Nat :=
  match b with
  | .reg n => [n.toNat]
  | .imm _ => []

def srcPairs (b : SrcB) : List Nat :=
  match b with
  | .reg n => [n.toNat, n.toNat + 1]
  | .imm _ => []

def pairOf (n : W9) : List Nat := [n.toNat, n.toNat + 1]
def groupRegs (n k : Nat) : List Nat := (List.range k).map (n + ·)

/-- Operand B as a register: an immediate counts as tagged U (04 R76). -/
def Warp.regB (w : Warp) (b : SrcB) : Reg :=
  match b with
  | .reg n => w.reg n.toNat
  | .imm v => .u v

/-- The row of IADD, LEA and ISUB: A and U in either order, or A and A (04 R76). -/
def addRule (sub : Bool) (a b : Reg) (otherwise : TagRule) : TagRule :=
  let f := fun (x y : W32) => if sub then x - y else x + y
  match a, b with
  | .a b1 s1, .a b2 s2 => .affine (f b1 b2) (f s1 s2)
  | .a b1 s1, .u v => .affine (f b1 v) s1
  | .u v, .a b2 s2 => .affine (f v b2) (if sub then 0 - s2 else s2)
  | _, _ => otherwise

/-- The row of IMUL (04 R76). -/
def mulRule (a b : Reg) (otherwise : TagRule) : TagRule :=
  match a, b with
  | .a b1 s1, .u v => .affine (b1 * v) (s1 * v)
  | .u v, .a b2 s2 => .affine (b2 * v) (s2 * v)
  | _, _ => otherwise

/-- A base and stride shifted left; both 0 from 32 on (04 R76). -/
def shlWord (v : W32) (n : Nat) : W32 := if n ≥ 32 then 0 else v <<< n

/-- A register shifted by LEA's shift (06 R103). -/
def Reg.shifted (r : Reg) (n : Nat) : Reg :=
  match r with
  | .u v => .u (shlWord v n)
  | .a b s => .a (shlWord b n) (shlWord s n)
  | .g vs => .g (vs.map (fun v => shlWord v n))

/-- Write lanes of a register: the tag and content of 04 R75 and R76. `act` are the lanes written. Where R76 gives tag U and
the lanes' values differ, as those of an SRD of %tsch whose threads latched different values (R82), the word is that of the
lowest written lane: the model's choice (log entry 58). -/
def Reg.write (old : Reg) (whole : Bool) (rule : TagRule) (tag : Tag) (act : Mask) (vals : List W32) : Reg :=
  if act = 0 then old
  else
    let gen : Reg := .g (allLanes.map (fun l => if has act l then nth vals l 0 else old.lane l))
    if whole then
      match rule, tag with
      | .affine b s, _ => .a b s
      | .copy r, _ => r
      | _, .u => .u (nth vals ((lowest act).getD 0) 0)
      | _, _ => gen
    else gen

/-- Split 64-bit results into the words of a pair. -/
def loWords (vs : List W64) : List W32 := vs.map (fun v => v.extractLsb' 0 32)
def hiWords (vs : List W64) : List W32 := vs.map (fun v => v.extractLsb' 32 32)

end Sys2Proof.Machine
end

