-- ==== Sys2Proof/Machine/Memory.lean ====
section
/-! DEFINITION. The memory system: homes, translation, die stores and their copies, numbered writes with their vectors
and messages, reads, poison, and the scratchpad (10 R191 to R212, R316). -/

namespace Sys2Proof.Machine

/- Homes (10 R195). -/

def g7Limit : Nat := 0x8000000000
def cxlBase : Nat := 0x1000000000000
def hostBase : Nat := 0x2000000000000
def hostEnd : Nat := 0x4000000000000
def peerBase : Nat := 0x8000000000000
def peerEnd : Nat := 0x9000000000000

/-- The home of a physical address. -/
def homeOf (pa : Nat) : Nat := if pa < g7Limit then (pa >>> 16) % 4 else 4

def isPeer (pa : Nat) : Bool := peerBase ≤ pa && pa < peerEnd
def peerOf (pa : Nat) : Nat := (pa >>> 40) % 256

/-- The end of the devices, ascending, that follow one another without a gap from an address on. -/
def backedTo (devices : List (Nat × Nat)) (a : Nat) : Nat := devices.foldl (fun e d => if d.1 ≤ e && e < d.1 + d.2 then d.1 + d.2 else e) a

/-- Whether a physical range is backed (10 R195; 20 R301). -/
def State.backed (s : State) (pa n : Nat) : Bool :=
  if pa < g7Limit then pa + n ≤ (if s.stage = .glaze then g7Limit else 0x200000000)
  else if cxlBase ≤ pa && pa < cxlBase + 0x40000000000 then
    field pa 0 40 + n ≤ backedTo (nth s.cxl (field pa 40 2) []) (field pa 0 40)
  else if hostBase ≤ pa && pa < hostEnd then pa + n ≤ hostEnd
  else if peerBase ≤ pa && pa < peerEnd then pa + n ≤ peerEnd
  else false

def lineOf (pa : Nat) : Nat := pa / 128

/- Translation (10 R207, R208). -/

/-- Permission bits of an attribute word. -/
def needRD : Nat := 1
def needW : Nat := 2
def needX : Nat := 4

def Mapping.holds (m : Mapping) (a : Nat) : Bool := m.va ≤ a && a < m.va + m.size

inductive Xlat where
  | ok (pa : Nat)
  | absent
  | protect
  | walkErr
deriving DecidableEq, Repr

/-- Who asks for a translation: the hub's firmware, a die's, a core's engines, or a partition of a core (10 R208). -/
inductive Asker where
  | hub
  | die (d : Nat)
  | core (c : Nat)
  | part (c q : Nat)
deriving DecidableEq, Repr

def Asker.die? : Asker → Nat
  | .hub => 4
  | .die d => d
  | .core c => coreDie c
  | .part c _ => coreDie c

def CoreSt.ptlb (c : CoreSt) (q : Nat) : List (Nat × Mapping) := nth c.ptlbs q []

/-- The TLBs a translation passes through, nearest first. -/
def State.tlbs (s : State) (a : Asker) : List (Nat × Mapping) :=
  match a with
  | .hub => []
  | .die d => (s.die d).tlb
  | .core c => (s.core c).tlb ++ (s.die (coreDie c)).tlb
  | .part c q => (s.core c).ptlb q ++ (s.core c).tlb ++ (s.die (coreDie c)).tlb

def holds? (l : List (Nat × Mapping)) (cx a : Nat) : Option Mapping := (l.find? (fun e => e.1 == cx && e.2.holds a)).map Prod.snd

/-- The mapping an access uses: a TLB entry, else the context's mapping. -/
def State.mapping (s : State) (at_ : Asker) (cx a : Nat) : Option Mapping :=
  match holds? (s.tlbs at_) cx a with
  | some m => some m
  | none => (tget s.ctxs cx).bind (fun c => c.maps.find? (fun m => m.holds a))

/-- Whether the host's own translation of an address of its memory is absent (20 R297). -/
def State.hostHole (s : State) (pa : Nat) : Bool := hostBase ≤ pa && pa < hostEnd && s.hostAbsent.contains ((pa - hostBase) / 4096)

/-- Translate bits 56:0 of an address with the permissions the access needs. -/
def State.xlat (s : State) (at_ : Asker) (cx a need : Nat) : Xlat :=
  let torn := match tget s.ctxs cx with | some c => c.torn.contains (a / 4096) | none => false
  match s.mapping at_ cx a with
  | none => if torn then .walkErr else .absent
  | some m =>
    if torn && (holds? (s.tlbs at_) cx a).isNone then .walkErr
    else if m.attr.toNat &&& need != need then .protect
    else if s.hostHole (m.pa + (a - m.va)) then .absent
    else .ok (m.pa + (a - m.va))

/-- Enter a mapping in a TLB of n entries that lacks the address. A full TLB gives up its oldest entry: the model's choice (10
R208; log entry 61). -/
def tlbPut (n : Nat) (cx a : Nat) (m : Mapping) (l : List (Nat × Mapping)) : List (Nat × Mapping) :=
  if (holds? l cx a).isSome then l else ((cx, m) :: l).take n

/-- Fill the TLBs an access has passed through (64 entries a partition, 512 a core, 8,192 a die; 10 R208). -/
def State.fillTlb (s : State) (at_ : Asker) (cx a : Nat) : State :=
  match s.mapping at_ cx a with
  | none => s
  | some m =>
    let die (s : State) (d : Nat) : State := s.modDie d (fun x => { x with tlb := tlbPut 8192 cx a m x.tlb })
    let core (s : State) (c : Nat) : State := (die s (coreDie c)).modCore c (fun x => { x with tlb := tlbPut 512 cx a m x.tlb })
    match at_ with
    | .hub => s
    | .die d => die s d
    | .core c => core s c
    | .part c q => (core s c).modCore c (fun x => { x with ptlbs := lput x.ptlbs q [] (tlbPut 64 cx a m) })

/- Reading the die stores. -/

/-- A byte's value and the key of its write, 0 for the initial contents. -/
abbrev ByteW := Byte × Nat

def State.homeByte (s : State) (pa : Nat) : ByteW := (memGet s.mem pa, (tget s.last pa).getD 0)

def CopyByte.zero : CopyByte := { val := 0, hs := 0, wk := 0, settle := none }

def State.copyOf (s : State) (die pa : Nat) : Option Line :=
  if homeOf pa = die then none else tget (s.die die).copies (lineOf pa)

/-- The die that serves a load of the address: its own store when it is the home or holds a copy, else the home. -/
def State.server (s : State) (die pa : Nat) : Nat := if (s.copyOf die pa).isSome then die else homeOf pa

/-- A byte as the serving store holds it. -/
def State.storeByte (s : State) (die pa : Nat) : ByteW :=
  match s.copyOf die pa with
  | some l => let b := nth l.bytes (pa % 128) CopyByte.zero; (b.val, b.wk)
  | none => s.homeByte pa

def State.storeBytes (s : State) (die pa n : Nat) : List ByteW := (List.range n).map (fun i => s.storeByte die (pa + i))

/-- Whether a byte is poisoned at its home: in an ECC word of the memory, or in a word of the home's die store
(10 R211). -/
def State.poisoned (s : State) (pa : Nat) : Bool := s.poison.contains (pa / 32) || (s.die (homeOf pa)).bad.contains (pa / 8)

/-- The same where an access of a die finds it. -/
def State.poisonedAt (s : State) (die pa : Nat) : Bool :=
  if (s.copyOf die pa).isSome then (s.die die).bad.contains (pa / 8) else s.poisoned pa

/-- The lowest poisoned byte of a range. -/
def State.poisonIn (s : State) (die pa n : Nat) : Option Nat :=
  ((List.range n).map (pa + ·)).find? (s.poisonedAt die)

/-- The clock of a write: itself and every write cb before it. -/
def State.clockOf (s : State) (wk : Nat) : VC :=
  if wk = 0 then .zero
  else ((((tget s.writes wk).map WriteRec.vec)).getD .zero).raise (wk % 5) (wk / 5)

/-- Where a write to a line stands in the home order, 0 while its home has not applied it. -/
def WriteRec.hs (r : WriteRec) (line : Nat) : Nat := (tget r.placed line).getD 0

/-- A piece of a write in a line has reached a die and not yet the line's home. -/
def State.missedAt (s : State) (die line : Nat) : Bool :=
  let piece (m : Msg) (d : Nat) : Bool := m.dst == d && lineOf m.addr == line && !m.settling && (match m.kind with | .write => true | .atomic .. => false)
  s.msgs.any (fun m => piece m (homeOf (line * 128)) && !s.msgs.any (fun x => piece x die && x.origin == m.origin && x.num == m.num))

/-- Allocate a copy of the line in a die store that is not its home (10 R196); none in the bisque stage reached from
power-up (R197), none of poisoned data, and none while the home lacks a write that the die has accounted for, or a piece of
one in this line that has reached the die, which the copy would then lack (21 R315). -/
def State.allocCopy (s : State) (die pa : Nat) : State :=
  let base := lineOf pa * 128
  if homeOf pa = die || s.stage != .glaze || (s.copyOf die pa).isSome || !(s.die die).vec.le (s.die (homeOf pa)).vec
      || (s.poisonIn 4 base 128).isSome || s.missedAt die (lineOf pa) then s
  else
    let bs := (List.range 128).map (fun i => let b := s.homeByte (base + i); ({ val := b.1, hs := s.hseq, wk := b.2, settle := none } : CopyByte))
    s.modDie die (fun d => { d with copies := tput d.copies (lineOf pa) { bytes := bs, base := s.hseq } })

/- Writing. -/

/-- ECC words, of 32 bytes or of 8, that bytes cover whole (10 R211, R212). -/
def wholeWords (size : Nat) (bytes : List (Nat × Byte)) : List Nat :=
  ((bytes.map (fun b => b.1 / size)).eraseDups).filter (fun w => (List.range size).all (fun i => bytes.any (fun b => b.1 == w * size + i)))

def clearPoison (p : List Nat) (whole : List Nat) : List Nat := p.filter (fun w => !whole.contains w)

def putBytes (m : List Host.Cell) (bytes : List (Nat × Byte)) : List Host.Cell :=
  bytes.foldl (fun m b => memPut m b.1 b.2) m

def setLast (t : Tbl Nat) (wk : Nat) (bytes : List (Nat × Byte)) : Tbl Nat := bytes.foldl (fun t b => tput t b.1 wk) t

/-- Apply a write to a byte of a copy: one that the copy was made with is not applied again; one that comes before what the
byte shows, in the home order, shows until the later one settles (10 R203). -/
def CopyByte.apply (c : CopyByte) (base hs wk : Nat) (v : Byte) : CopyByte :=
  let top := c.settle.getD (c.val, c.hs, c.wk)
  if hs ≤ base then c
  else if top.2.1 < hs then { val := v, hs := hs, wk := wk, settle := none }
  else { val := v, hs := hs, wk := wk, settle := some top }

/-- The later write is applied again. -/
def CopyByte.settled (c : CopyByte) : CopyByte :=
  match c.settle with
  | none => c
  | some t => { val := t.1, hs := t.2.1, wk := t.2.2, settle := none }

def Line.apply (l : Line) (line hs wk : Nat) (bytes : List (Nat × Byte)) : Line :=
  bytes.foldl (fun l b =>
    if lineOf b.1 = line then { l with bytes := lput l.bytes (b.1 % 128) CopyByte.zero (fun c => c.apply l.base hs wk b.2) } else l) l

def Line.settled (l : Line) : Line := { l with bytes := l.bytes.map CopyByte.settled }
def Line.unsettled (l : Line) : Bool := l.bytes.any (fun c => c.settle.isSome)

/-- A message of a write's line to a die is still on its way. -/
def State.owes (s : State) (o n line die : Nat) : Bool :=
  s.msgs.any (fun m => m.origin == o && m.num == n && m.dst == die && !m.settling && lineOf m.addr == line)

/-- Bytes of path-0x0 writes merge in the die store: the ECC words that they have come to cover whole (10 R212). -/
def mergeBytes (t : Tbl W32) (bytes : List (Nat × Byte)) : Tbl W32 :=
  bytes.foldl (fun t b => tput t (b.1 / 32) (((tget t (b.1 / 32)).getD 0) ||| laneBit (b.1 % 32))) t

def fullWords (t : Tbl W32) : List Nat := (t.filter (fun x => x.2 == BitVec.allOnes 32)).map Prod.fst

/-- The memory and its error-correcting words take a write at its home (10 R211, R212). -/
def State.writeHome (s : State) (m : Msg) : State :=
  let h := homeOf m.addr
  let merged := if m.merge then mergeBytes (s.die h).merged m.bytes else (s.die h).merged
  let s := s.modDie h (fun d => { d with merged := merged.filter (fun x => x.2 != BitVec.allOnes 32),
                                         bad := clearPoison d.bad (wholeWords 8 m.bytes) })
  { s with mem := putBytes s.mem m.bytes, last := setLast s.last (wkey m.origin m.num) m.bytes,
           poison := clearPoison s.poison (m.whole ++ fullWords merged) }

/-- Apply a write at its home: the next entry of the home order. Copies take it from the home (21 R315). -/
def State.homeApply (s : State) (m : Msg) : State :=
  let hs := s.hseq + 1
  let line := lineOf m.addr
  { s.writeHome m with
    hseq := hs,
    writes := tmod s.writes (wkey m.origin m.num) (fun r => { r with placed := tput r.placed line hs }),
    msgs := s.msgs.map (fun x => if x.origin == m.origin && x.num == m.num && lineOf x.addr == line then { x with hs := hs } else x) }

/-- Apply or account for a message at its die and advance the die's vector. A copy that shows the write before a later one
keeps the message for the settle. -/
def State.applyMsg (s : State) (m : Msg) : State :=
  let s := { s with msgs := s.msgs.filter (fun x => x.key != m.key) }
  -- a write of several pieces is accounted for with its last
  let s := if s.msgs.any (fun x => x.origin == m.origin && x.num == m.num && x.dst == m.dst && !x.settling) then s
    else s.modDie m.dst (fun d => { d with vec := d.vec.raise m.origin m.num })
  if homeOf m.addr = m.dst then s.homeApply m
  else
    match tget (s.die m.dst).copies (lineOf m.addr) with
    | none => s
    | some l =>
      let l := l.apply (lineOf m.addr) m.hs (wkey m.origin m.num) m.bytes
      let s := s.modDie m.dst (fun d => { d with copies := tput d.copies (lineOf m.addr) l, bad := clearPoison d.bad (wholeWords 8 m.bytes) })
      if l.unsettled then { s with msgs := s.msgs ++ [{ m with settling := true }] } else s

/-- The later writes that a message's write has hidden at a copy are applied again (10 R203). -/
def State.settleMsg (s : State) (m : Msg) : State :=
  { s.modDie m.dst (fun d => { d with copies := tmod d.copies (lineOf m.addr) Line.settled }) with
    msgs := s.msgs.filter (fun x => x.key != m.key) }

/-- Every write that a vector names has been applied at its home. -/
def State.allPlaced (s : State) (v : VC) : Bool :=
  s.msgs.all (fun x => match x.kind with
    | .write => x.dst != homeOf x.addr || v.get x.origin < x.num
    | .atomic .. => true)

/-- Whether a die may apply a message: the writes of an origin go in number order and its vector covers the write's
(10 R205, R316); a release at scope .s goes out after every write it orders (10 R206). -/
def State.covered (s : State) (m : Msg) : Bool :=
  (s.die m.dst).vec.get m.origin + 1 == m.num && m.vec.le ((s.die m.dst).vec) && (!m.sys || s.allPlaced m.vec)

/-- Whether the message's die only takes a notice: it is neither the home nor a holder of the line (10 R205). -/
def State.noticeOnly (s : State) (m : Msg) : Bool :=
  homeOf m.addr != m.dst && (tget (s.die m.dst).copies (lineOf m.addr)).isNone

/-- A copy takes a write from the line's home, once the home has applied it (21 R315). -/
def State.forwarded (s : State) (m : Msg) : Bool := homeOf m.addr == m.dst || s.noticeOnly m || m.hs != 0

/-- Take the next write number of a die. -/
def State.nextNum (s : State) (die : Nat) : State × Nat :=
  ((s.modDie die (fun d => { d with nextWrite := d.nextWrite + 1 })), (s.die die).nextWrite)

/-- The lines of a list of bytes, in order of first appearance. -/
def linesOf (bytes : List (Nat × Byte)) : List Nat :=
  bytes.foldl (fun ls b => if ls.contains (lineOf b.1) then ls else ls ++ [lineOf b.1]) []

/-- What a write carries besides its bytes and vector. -/
structure WAttr where
  heads : List Nat := []
  /-- the sequences that single bytes continue (10 R204) -/
  seq : Tbl (List Nat) := []
  sys : Bool := false
  merge : Bool := false
  cx : Nat := 4096
  maker : Option Maker := none
  stamp : Option Nat := none
deriving DecidableEq, Repr

/-- The release sequences of a write's bytes. -/
def WAttr.headsOf (at_ : WAttr) (addrs : List Nat) : Tbl (List Nat) :=
  addrs.foldl (fun t a => let h := (tget at_.seq a).getD [] ++ at_.heads; if h.isEmpty then t else tput t a h) []

/-- Originate one write: number it, and for each line it touches send a message to each of the five dies. `whole` are the
ECC words its instruction covers. -/
def State.sendWrite (s : State) (die : Nat) (vec : VC) (at_ : WAttr) (bytes : List (Nat × Byte)) (whole : List Nat) : State × Nat :=
  let (s, n) := s.nextNum die
  let mk (line i : Nat) : List Msg :=
    let bs := bytes.filter (fun b => lineOf b.1 == line)
    (List.range 5).map (fun d =>
      { key := s.nextKey + 5 * i + d, origin := die, num := n, vec := vec, dst := d, addr := (bs.headD (0, 0)).1, bytes := bs, hs := 0,
        held := false, kind := .write, sys := at_.sys, settling := false, merge := at_.merge, whole := whole, cx := at_.cx,
        maker := at_.maker })
  let ls := linesOf bytes
  ({ s with nextKey := s.nextKey + 5 * ls.length, msgs := s.msgs ++ (List.range ls.length).flatMap (fun i => mk (nth ls i 0) i),
            writes := tput s.writes (wkey die n) { vec := vec, heads := at_.headsOf (bytes.map Prod.fst), maker := at_.maker, addrs := bytes.map Prod.fst, placed := [],
                                                   stamp := at_.stamp } }, n)

/-- Of several bytes for one address the last remains (07 R142). -/
def lastBytes (bytes : List (Nat × Byte)) : List (Nat × Byte) :=
  bytes.foldl (fun acc b => (acc.filter (fun x => x.1 != b.1)) ++ [b]) []

/-- Originate the writes of bytes spread over lines, one piece a line; the clock covers them all. -/
def State.sendWrites (s : State) (die : Nat) (vec : VC) (at_ : WAttr) (bytes : List (Nat × Byte)) : State × VC :=
  let bytes := lastBytes bytes
  (linesOf bytes).foldl (fun acc line =>
    let bs := bytes.filter (fun b => lineOf b.1 == line)
    let (s, n) := acc.1.sendWrite die vec at_ bs (wholeWords 32 bs)
    (s, acc.2.raise die n)) (s, .zero)

/- Addresses of accesses (07 R138, R139). -/

def pathOf (va : W64) : Nat := va.toNat >>> 60
def vbits (va : W64) : Nat := va.toNat % 2 ^ 57
/-- Bits 59:57 of a global address are zero. -/
def globalOk (va : W64) : Bool := field va.toNat 57 3 == 0
/-- Bits 59:32 of a scratchpad address are zero. -/
def scratchOk (va : W64) : Bool := field va.toNat 32 28 == 0

def isGlobal (p : Nat) : Bool := p == 0 || p == 1 || p == 2

/-- The accesses whose path rules differ (07 R139). -/
inductive AccKind where
  | ld (w : Width) | st | stx | atomic | pref | cctl | icinv
deriving DecidableEq, Repr

/-- The path rules (07 R139): the cause of a combination not allowed. Nonzero bits 59:48 of a path-0x9 address, for which
R143 names no cause, raise BAD_PATH as those of the other paths do: the model's choice (log entry 58). -/
def pathCause (k : AccKind) (feature3 : Bool) (va : W64) : Option Cause :=
  let bad : Option Cause := some .badPath
  let glob : Option Cause := if globalOk va then none else bad
  match pathOf va, k with
  | 0, .stx => bad
  | 0, _ => glob
  | 1, .ld _ => glob
  | 1, .pref => glob
  | 1, .atomic => some .atomicPath
  | 1, _ => bad
  | 2, .stx => bad
  | 2, .icinv => bad
  | 2, _ => glob
  | 8, .ld _ => if scratchOk va then none else bad
  | 8, .st => if scratchOk va then none else bad
  | 8, .atomic => if scratchOk va then none else bad
  | 8, _ => bad
  | 9, .stx => if field va.toNat 48 12 == 0 then none else bad
  | 9, .atomic => some .atomicPath
  | 9, _ => bad
  | 10, .ld w =>
    if (w == .w32 || w == .w64) && feature3 && field va.toNat 44 16 == 0 && field va.toNat 11 28 == 0 then none else bad
  | 10, .atomic => some .atomicPath
  | 10, _ => bad
  | _, _ => bad

def widthBytes : Width → Nat
  | .w8 => 1
  | .w16 => 2
  | .w32 => 4
  | .w64 => 8
  | .w128 => 16

/- The scratchpad (10 R193): one copy, in one order. -/

/-- Write scratchpad bytes with the clock and the release sequences that each carries, and the span tag of their line
(08 R167, R170; 10 R204). -/
def Block.padStoreBy (b : Block) (a : Nat) (bs : List Byte) (clk : Nat → PadRec) (span : Option Span) : Block :=
  let n := bs.length
  let lines := (List.range n).map (fun i => (a + i) / 128)
  let words := (List.range n).map (fun i => (a + i) / 8)
  { b with scratch := padWrite b.scratch a bs, sclk := (List.range n).foldl (fun t i => tput t (a + i) (clk i)) b.sclk,
           spans := lines.foldl (fun t l => match span with | some x => tput t l x | none => tdel t l) b.spans,
           spoison := b.spoison.filter (fun w => !(words.contains w && (List.range 8).all (fun i => a ≤ w * 8 + i && w * 8 + i < a + n))) }

/-- Write shadow bytes as an STX store does: its lines lose their span tags, and the words it covers their poison (07 R143;
08 R167; 10 R211). -/
def Block.shadowStore (b : Block) (a : Nat) (bs : List Byte) : Block :=
  let n := bs.length
  let at_ := (List.range n).map (a + ·)
  { b with shadow := padWrite b.shadow a bs, shClk := at_.foldl tdel b.shClk, shSpans := at_.foldl (fun t x => tdel t (x / 128)) b.shSpans,
           shPoison := b.shPoison.filter (fun w => !(List.range 8).all (fun i => a ≤ w * 8 + i && w * 8 + i < a + n)) }

/-- The same clock and sequences for every byte. -/
def Block.padStore (b : Block) (a : Nat) (bs : List Byte) (clk : PadRec) (span : Option Span) : Block :=
  b.padStoreBy a bs (fun _ => clk) span

def Block.padLoad (b : Block) (a n : Nat) : List Byte := padRead b.scratch a n

/-- The clock of what a scratchpad read returns, of the writes of warps that a condition names. -/
def Block.padClkOf (b : Block) (a n : Nat) (ok : Nat → Bool) : VC :=
  VC.joins ((List.range n).map (fun i => match tget b.sclk (a + i) with
    | some r => if ok r.wid then r.clk else .zero
    | none => .zero))

def Block.padClk (b : Block) (a n : Nat) : VC := b.padClkOf a n (fun _ => true)

/-- The release sequences in which a byte stands (10 R204). -/
def Block.padHeads (b : Block) (a : Nat) : List Nat := ((tget b.sclk a).map PadRec.heads).getD []

def Block.padPoison (b : Block) (a n : Nat) : Option Nat := ((List.range n).map (a + ·)).find? (fun x => b.spoison.contains (x / 8))

/- Thread clocks (10 R205). -/

/-- What an access to bytes must follow: what every later access follows, and what the thread did to those bytes. -/
def Clk.need (c : Clk) (pa n : Nat) : VC :=
  c.base.join (VC.joins ((List.range n).map (fun i => (tget c.seen (pa + i)).getD .zero)))

def Clk.acquire (c : Clk) (v : VC) : Clk := { c with base := c.base.join v }

/-- The clock's thread fences: what it has read comes before everything later, its stores of the mask's colours before its later
writes (07 R151; 11 R213). -/
def Clk.fence (c : Clk) (cm : W8) : Clk :=
  { c.acquire c.rd with own := VC.joins (c.own :: (List.range 8).map (fun i => if cm.getLsbD i then nth c.col i .zero else .zero)) }

/-- The vector of a write of a colour; a release adds its reads and the colours of its mask (07 R152). -/
def Clk.writeVec (c : Clk) (colour : Nat) (release : Option W8) (pa n : Nat) : VC :=
  let v := VC.joins [c.need pa n, c.own, nth c.col colour .zero]
  match release with
  | none => v
  | some m => VC.joins (v :: c.rd :: (List.range 8).map (fun i => if m.getLsbD i then nth c.col i .zero else .zero))

/-- Everything the thread has done and seen: what a release of every colour carries. -/
def Clk.all (c : Clk) : VC := VC.joins (c.base :: c.own :: c.rd :: c.col)

/-- Record a read of bytes with the clock of what it returned. -/
def Clk.didRead (c : Clk) (pa n : Nat) (v : VC) : Clk :=
  { c with rd := c.rd.join v,
           seen := (List.range n).foldl (fun t i => tput t (pa + i) (((tget t (pa + i)).getD .zero).join v)) c.seen }

/-- Record a write of bytes in a colour. -/
def Clk.didWrite (c : Clk) (colour pa n : Nat) (v : VC) : Clk :=
  { c with col := lput c.col colour .zero (fun x => x.join v),
           seen := (List.range n).foldl (fun t i => tput t (pa + i) v) c.seen }

def Warp.clkAt (w : Warp) (l : Nat) : Clk := nth w.clk l (Clk.init .zero)
def Warp.modClk (w : Warp) (l : Nat) (f : Clk → Clk) : Warp := { w with clk := lput w.clk l (Clk.init .zero) f }
def Warp.modClks (w : Warp) (m : Mask) (f : Clk → Clk) : Warp := (lanesOf m).foldl (fun w l => w.modClk l f) w

/-- What the lanes together carry at a release of every colour. -/
def Warp.allClk (w : Warp) (m : Mask) : VC := VC.joins ((lanesOf m).map (fun l => (w.clkAt l).all))

/-- The clock of everything the warp's threads have done. -/
def Warp.fullClk (w : Warp) : VC := VC.joins (w.clk.map Clk.all)

/- Host memory and the agents that do not follow program order. -/

/-- Bytes as an agent of the die reads them now. -/
def State.peek (s : State) (die pa n : Nat) : List Byte := (s.storeBytes die pa n).map Prod.fst

/-- Read virtual bytes for the firmware: none when translation, RD or poison forbids it (20 R304). -/
def State.peekVa (s : State) (die cx va n : Nat) : Option (List Byte) :=
  ((List.range n).mapM (fun i =>
    match s.xlat (.die die) cx ((va + i) % 2 ^ 57) needRD with
    | .ok pa => if s.poisonedAt die pa then none else some (s.storeByte die pa).1
    | .absent | .protect | .walkErr => none))

/-- Translate every byte of a range for writing. -/
def State.writable (s : State) (die cx va n : Nat) : Option (List Nat) :=
  (List.range n).mapM (fun i =>
    match s.xlat (.die die) cx ((va + i) % 2 ^ 57) needW with
    | .ok pa => some pa
    | .absent | .protect | .walkErr => none)

/-- A write of the firmware to virtual bytes: a numbered write of the die, or none when it cannot be made. -/
def State.pokeVa (s : State) (die cx va : Nat) (bs : List Byte) (vec : VC) : Option (State × VC) :=
  (s.writable die cx va bs.length).map (fun pas => s.sendWrites die vec { cx := cx } (pas.zip bs))

/-- Bytes of host memory, at the host's own address (10 R195). -/
def State.hostRead (s : State) (a n : Nat) : List Byte := (List.range n).map (fun i => memGet s.mem (hostBase + a % (hostEnd - hostBase) + i))

def State.hostWrite (s : State) (a : Nat) (bs : List Byte) : State :=
  let pas := (List.range bs.length).map (fun i => hostBase + a % (hostEnd - hostBase) + i)
  { s with mem := putBytes s.mem (pas.zip bs), last := (pas.foldl (fun t p => tdel t p) s.last), poison := clearPoison s.poison (wholeWords 32 (pas.zip bs)) }

/-- A request of a context leaves for the host, under the context's PASID (20 R297). -/
def State.outReq (s : State) (cx : Nat) (kind : OutKind) (pa : Nat) : State :=
  if hostBase ≤ pa && pa < hostEnd then
    { s with outbound := s.outbound ++ [{ pasid := ((tget s.ctxs cx).map Ctx.pasid).getD 0, kind := kind, addr := pa - hostBase }] }
  else s

/-- A read of a line leaves for the host where the die's store does not hold a copy of it. -/
def State.readOut (s : State) (die cx pa : Nat) : State := if (s.copyOf die pa).isSome then s else s.outReq cx .read pa

/-- The reads of a virtual range that the firmware or the hub makes for a context, by the lines it touches (20 R297). -/
def State.readsOut (s : State) (die cx va n : Nat) : State :=
  (List.range (if n = 0 then 0 else ceilDiv (va % 128 + n) 128)).foldl (fun s i =>
    match s.xlat (.die die) cx ((va / 128 + i) * 128 % 2 ^ 57) needRD with
    | .ok pa => s.readOut die cx pa
    | .absent | .protect | .walkErr => s) s

/- Release sequences (10 R204; 11 R214). -/

/-- How wide a scope is. -/
def Scope.rank : Scope → Nat
  | .w => 0
  | .b => 1
  | .cl => 2
  | .d => 3
  | .k | .dflt => 4
  | .s => 5

/-- On the scratchpad a scope wider than .b acts as .b (07 R140). -/
def Scope.onPad : Scope → Scope
  | .w => .w
  | .b | .cl | .d | .k | .dflt | .s => .b

/-- Whether two threads fall in one set of a scope (10 R198; 16 R274). -/
def Scope.holds (x : Scope) (a b : Maker) : Bool :=
  match x with
  | .w => a.grid == b.grid && a.bid == b.bid && a.wid == b.wid
  | .b => a.grid == b.grid && a.bid == b.bid
  | .cl => a.grid == b.grid && a.cluster == b.cluster
  | .d => a.die == b.die
  | .k | .dflt | .s => true

/-- Whether an acquire of a thread counts for a write: its maker is within the acquire's scope. The hub's writes and the
firmware's are made by members of .k and .s only (10 R198, R199; 20 R299). -/
def Scope.counts (x : Scope) (me by_ : Option Maker) : Bool :=
  match me, by_ with
  | some a, some b => Scope.holds x a b
  | _, _ => x == .k || x == .dflt || x == .s

/-- A thread of a warp, as scopes tell threads apart; a travelling one falls in the sets of the core on which it stands, here
numbered beyond the blocks of the launch (16 R274). -/
def State.maker (s : State) (b : Block) (wid : Nat) : Maker :=
  let travel := match tget s.grids b.grid with | some g => g.rec_.travel && b.bid < g.rec_.gblocks | none => false
  let bid := if travel then 2 ^ 32 + b.core else b.bid
  { die := coreDie b.core, core := b.core, grid := b.grid, cluster := bid - b.crank, bid := bid, wid := wid, who := [] }

/-- The threads of some lanes of a warp. -/
def State.makerOf (s : State) (w : Warp) (lanes : List Nat) : Option Maker :=
  (tget s.blocks w.blk).map (fun b =>
    { s.maker b w.wid with who := if w.ids.isEmpty then [] else lanes.map (fun l => nth w.ids l (0, 0)) })

/-- The travelling threads that now stand in one set of a scope with a thread (10 R198; 16 R274). -/
def State.standing (s : State) (x : Scope) (a : Maker) : List (W32 × W64) :=
  let near (k : Nat) : Bool := match x with
    | .w => k == warpKey a.core a.wid
    | .b | .cl => k / 64 == a.core
    | .d => coreDie (k / 64) == a.die
    | .k | .dflt | .s => true
  (s.warps.filter (fun y => near y.1 && ((tget s.blocks y.2.blk).map Block.grid == some a.grid))).flatMap (fun y => y.2.ids)

/-- Whether an acquire of a thread counts for a write: its makers were then within the scope, or stand within it now
(10 R198, R199; 16 R274). -/
def State.counts (s : State) (x : Scope) (me by_ : Option Maker) : Bool :=
  Scope.counts x me by_ || (match me, by_ with
    | some a, some b => !b.who.isEmpty && b.who.any (fun t => (s.standing x a).contains t)
    | _, _ => false)

/-- The clock of the writes that an acquire of a thread counts (10 R199). -/
def State.acquired (s : State) (x : Scope) (me : Option Maker) (wks : List Nat) : VC :=
  VC.joins (wks.map (fun k => if s.counts x me ((tget s.writes k).bind (fun r => r.maker)) then s.clockOf k else .zero))

/-- The sequences that an atomic of a scope continues. -/
def continued (rank : Nat) (heads : List Nat) : List Nat := heads.filter (fun r => r ≤ rank)

/- Logs (20 R313, R314). -/

def Event.mk' (s : State) (ctx source kind code arg detail : Nat) : Event :=
  { arg := BitVec.ofNat 64 arg, stamp := s.tsc, ctx := ctx, source := source, kind := kind, code := code, detail := detail }

/-- The function to which a context's events go: the physical one for none, or for a context that is not open. -/
def State.eventFn (s : State) (cx : Nat) : Nat := match tget s.ctxs cx with | some c => c.fn | none => 0

/-- Events pend for a function. -/
def State.anyPending (s : State) (f : Nat) : Bool :=
  s.hubLog.any (fun e => s.eventFn e.ctx == f)
    || s.dies.any (fun d => d.log.any (fun e => s.eventFn e.ctx == f) || d.faults.any (fun x => !x.reported && s.eventFn x.ctx == f))

/-- MSI-X vector 0 goes to the function of a context when nothing was pending for it (20 R314). -/
def State.signal (s : State) (cx : Nat) : State :=
  let f := s.eventFn cx
  if s.anyPending f then s else { s with msix := s.msix ++ [(f, 0)] }

/-- Log an event at a die, or at the hub for die 4; past 4,096 pending it is only counted (20 R314). -/
def State.logEvent (s : State) (die : Nat) (e : Event) : State :=
  if die = 4 then
    if s.hubLog.length < Config.eventCap then let s := s.signal e.ctx; { s with hubLog := s.hubLog ++ [e] }
    else { s with hubLost := s.hubLost + 1 }
  else if (s.die die).log.length < Config.eventCap then
    (s.signal e.ctx).modDie die (fun d => { d with log := d.log ++ [e] })
  else s.modDie die (fun d => { d with lost := d.lost + 1 })

/-- A response of an older generation is discarded and counted, and the error log says so (20 R296, R314). -/
def State.countStale (s : State) (die : Nat) : State :=
  let n := (s.die die).stale + 1
  (s.modDie die (fun d => { d with stale := n })).logEvent die (Event.mk' s 0xFFFF (0x0100 + die) 0x85 0 n 0)

end Sys2Proof.Machine
end

