-- ==== Sys2Proof/Machine/Split.lean ====
section
/-! DEFINITION. The split table of a warp (01 R16 to R18) and the addresses of sequential flow (03 R48). -/

namespace Sys2Proof.Machine

/-- The sequential successor: the sum, or the next fetch block when the sum lies at offset 28 (03 R48). -/
def seqNext (pc : W64) (len : Nat) : W64 :=
  let n := pc + BitVec.ofNat 64 len
  if n.toNat % 32 = 28 then n + 4 else n

def Warp.pcAt (w : Warp) (l : Nat) : W64 := nth w.pcs l 0

def Warp.laneAt (w : Warp) (l : Nat) : LaneSt := nth w.lanes l .vacant

/-- The PC of an entry in use. -/
def Warp.entryPc (w : Warp) (e : Nat) : Option W64 := (lowest (w.groupOf e)).map w.pcAt

def Warp.entries (w : Warp) : List Nat := (List.range 8).filter (fun e => w.groupOf e != 0)

def Warp.freeEntry (w : Warp) : Option Nat := (List.range 8).find? (fun e => w.groupOf e == 0)

def Warp.heldMask (w : Warp) : Mask := maskOf (fun l => w.laneAt l == .held)

/-- Number of groups, held threads included (01 R44). -/
def Warp.groups (w : Warp) : Nat := w.entries.length + (lanesOf w.heldMask).length

def Warp.setLanes (w : Warp) (m : Mask) (x : LaneSt) : Warp :=
  { w with lanes := (List.range 32).map (fun l => if has m l then x else w.laneAt l) }

def Warp.setPcs (w : Warp) (m : Mask) (f : Nat → W64) : Warp :=
  { w with pcs := (List.range 32).map (fun l => if has m l then f l else w.pcAt l) }

/-- Insert a PC in a strictly rising list. -/
def insertPc (p : W64) (ps : List W64) : List W64 :=
  match ps with
  | [] => [p]
  | q :: ps => if p.toNat < q.toNat then p :: q :: ps else if p = q then q :: ps else q :: insertPc p ps

/-- The distinct PCs of the lanes of a mask, rising. -/
def Warp.pcsOf (w : Warp) (m : Mask) : List W64 := (lanesOf m).foldl (fun ps l => insertPc (w.pcAt l) ps) []

def Warp.atPc (w : Warp) (m : Mask) (p : W64) : Mask := m &&& maskOf (fun l => w.pcAt l == p)

/-- Threads of a further PC of a split: an entry that holds it, else the lowest free entry, else held (01 R17). -/
def Warp.place (w : Warp) (m : Mask) (p : W64) : Warp :=
  match w.entries.find? (fun e => w.entryPc e == some p) with
  | some e => w.setLanes m (.on e)
  | none =>
    match w.freeEntry with
    | some e => w.setLanes m (.on e)
    | none => w.setLanes m .held

/-- Split the group of entry e over the new PCs its lanes already hold: the lowest keeps the entry (01 R17). -/
def Warp.splitGroup (w : Warp) (e : Nat) : Warp :=
  let grp := w.groupOf e
  match w.pcsOf grp with
  | [] => w
  | p :: ps =>
    let keep := w.atPc grp p
    let rest := grp &&& ~~~ keep
    -- the lanes that leave are out of the entry while entries are searched
    ps.foldl (fun w q => w.place (w.atPc rest q) q) (w.setLanes rest .held)

/-- The entry's group merges with another entry at its PC, at the lower index (01 R17). -/
def Warp.mergeEntry (w : Warp) (e : Nat) : Warp :=
  match w.entryPc e with
  | none => w
  | some p =>
    match w.entries.find? (fun f => f != e && w.entryPc f == some p) with
    | none => w
    | some f => w.setLanes (w.groupOf e ||| w.groupOf f) (.on (min e f))

/-- Held threads join entries at their PC; while an entry is free the held threads at the lowest PC enter it (01 R17). -/
def Warp.reenter (w : Warp) : Warp :=
  let join (w : Warp) : Warp :=
    w.entries.foldl (fun w e =>
      match w.entryPc e with
      | some p => w.setLanes (w.atPc w.heldMask p) (.on e)
      | none => w) w
  let enter (w : Warp) : Warp :=
    match w.freeEntry, w.pcsOf w.heldMask with
    | some e, p :: _ => w.setLanes (w.atPc w.heldMask p) (.on e)
    | _, _ => w
  (List.range 8).foldl (fun w _ => if w.heldMask = 0 then w else enter (join w)) w

/-- The group of entry e takes new PCs: split, merge, re-entry (01 R17). -/
def Warp.goto (w : Warp) (e : Nat) (f : Nat → W64) : Warp :=
  ((((w.setPcs (w.groupOf e) f).splitGroup e).mergeEntry e)).reenter

/-- The entry with the lowest PC and its group (01 R19 step 4). -/
def Warp.front (w : Warp) : Nat × W64 :=
  (w.entries.foldl (fun (a : Option (Nat × W64)) e =>
    match w.entryPc e, a with
    | some p, some x => if p.toNat < x.2.toNat then some (e, p) else some x
    | some p, none => some (e, p)
    | none, a => a) none).getD (0, 0)

/-- The threads of an entry that issue together: in a REP, those that repeat it. -/
def Warp.issuers (w : Warp) (e : Nat) : Mask :=
  match w.rep with
  | some r => w.groupOf e &&& r.grp
  | none => w.groupOf e

/-- A REP whose threads wait for their turn goes on, at the entry on which they stand. -/
def Warp.nextRep (w : Warp) : Warp :=
  let at_ (r : RepSt) : Option Nat := match w.laneAt ((lowest (r.grp &&& w.live)).getD 0) with | .on e => some e | .held | .idle | .vacant => none
  let left := w.reps.filter (fun r => r.grp &&& w.live != 0)
  match w.rep, left.find? (fun r => (at_ r).isSome) with
  | none, some r => { w with rep := some { r with entry := (at_ r).getD 0 }, reps := left.filter (fun x => x != r) }
  | _, _ => { w with reps := left }

/-- %split for a lane (01 R18). -/
def Warp.splitReg (w : Warp) (l : Nat) : W32 :=
  let valid := (w.entries.foldl (fun a e => a + 2 ^ e) 0)
  let own := match w.laneAt l with | .on e => e | .held | .idle | .vacant => 0
  BitVec.ofNat 32 (valid + own * 256 + (lanesOf w.heldMask).length * 65536)

end Sys2Proof.Machine
end

