-- ==== Sys2Proof/Machine/Barriers.lean ====
section
/-! DEFINITION. Named barriers: members, arrivals, the expected count, and the completion of a phase with or without a
swap (01 R31; 07 R154, R155; 15 R260). A phase count is kept modulo 256, as BARSV shows it (07 R156). -/

namespace Sys2Proof.Machine

def BarSt.init : BarSt :=
  { phase := 0, arrived := 0, exec := [], remote := 0, swap := false, need := [], clk := .zero, doneClk := .zero, members := [],
    swapping := false }

def State.blk? (s : State) (bk : Nat) : Option Block := tget s.blocks bk
def Block.bar (b : Block) (n : Nat) : BarSt := (tget b.bars n).getD BarSt.init
def Grid.bar (g : Grid) (n : Nat) : BarSt := (tget g.bars n).getD BarSt.init

def State.modBar (s : State) (bk n : Nat) (f : BarSt → BarSt) : State :=
  s.modBlock bk (fun b => { b with bars := tput b.bars n (f (b.bar n)) })

def State.modHubBar (s : State) (gk n : Nat) (f : BarSt → BarSt) : State :=
  s.modGrid gk (fun g => { g with bars := tput g.bars n (f (g.bar n)) })

def popcount (m : Mask) : Nat := (lanesOf m).length

/-- A child block, whose warps are members of no barrier (01 R31, R43). -/
def Block.isChild (b : Block) (g : Grid) : Bool := g.rec_.gblocks ≤ b.bid

/-- Launch-placed %warp numbers of the block that have not retired. -/
def Block.memberMask (b : Block) (g : Grid) (n : Nat) : Mask :=
  let launched := maskOf (fun l => l < b.bwarps)
  let m := if n < 64 then nth g.bmasks n (BitVec.allOnes 32) else BitVec.allOnes 32
  if b.isChild g then 0 else launched &&& m &&& ~~~ b.retired

/-- Whether %warp w of the block is a member of barrier n. -/
def Block.isMember (b : Block) (g : Grid) (n wid : Nat) : Bool := has (b.memberMask g n) wid

/-- Blocks that share barrier n with a block: itself, its cluster, or the grid. -/
def State.barBlocks (s : State) (bk n : Nat) (b : Block) (g : Grid) : Tbl Block :=
  if n < 64 then [(bk, b)]
  else if n < 112 then s.clusterOf b g.rec_
  else s.blocks.filter (fun x => x.2.grid == b.grid && x.2.state != .ended)

/-- E: member warps that have not retired (07 R154). -/
def State.barExpected (s : State) (bk n : Nat) (b : Block) (g : Grid) : Nat :=
  ((s.barBlocks bk n b g).map (fun x => popcount (x.2.memberMask g n))).sum

/-- Arrivals counted in the current phase, those of warps that have retired since among them (07 R154). -/
def BarSt.count (r : BarSt) : Nat := popcount r.arrived + r.remote + r.members.length

/-- The warp of an arrival has retired. -/
def State.arrRetired (s : State) (m : ArrMsg) : Bool :=
  match s.blk? m.src with
  | some x => has x.retired m.wid
  | none => true

/-- Retired warps whose arrival has not reached the count: there, the retirement follows the arrival (log entry 37). -/
def State.lateOf (s : State) (l : List ArrMsg) (dst n phase : Nat) : Nat :=
  (l.filter (fun m => m.dst == dst && m.n == n && m.phase == phase && s.arrRetired m)).length

/-- The phase count rises and the arrivals clear. -/
def BarSt.complete (r : BarSt) : BarSt :=
  { r with phase := (r.phase + 1) % 256, arrived := 0, exec := [], remote := 0, swap := false, need := [], clk := .zero,
           doneClk := r.clk, members := [], swapping := false }

/-- STX stores that a warp has in flight (07 R155). -/
def State.stxsOf (s : State) (bk wid : Nat) : List Nat :=
  (s.stxs.filter (fun x => x.src == bk && x.wid == wid)).map (fun x => x.key)

/-- Complete a phase of a block's barrier, or begin the wait of a swap (07 R154, R155). -/
def State.barComplete (s : State) (bk n : Nat) (b : Block) : State :=
  if (b.bar n).swap then
    { (s.modBar bk n (fun r => { r with swapping := true })) with
      nextKey := s.nextKey + 1,
      swaps := s.swaps ++ [{ key := s.nextKey, n := n, owner := bk, need := (b.bar n).need }] }
  else s.modBar bk n BarSt.complete

/-- Judge a block's own count of a block or cluster barrier: the phase completes as the arrivals come to E, or E to them. -/
def State.barCheck (s : State) (bk n : Nat) : State :=
  match s.blk? bk with
  | none => s
  | some b =>
    match tget s.grids b.grid with
    | none => s
    | some g =>
      let r := b.bar n
      if r.swapping || n ≥ 112 || b.state == .out then s
      else
        let e := s.barExpected bk n b g + s.lateOf (s.arrs ++ b.wires) bk n r.phase
        if r.count != 0 && e ≤ r.count then s.barComplete bk n b else s

/-- Complete a grid barrier at the hub for every block; one that is out learns of it as it comes back. -/
def State.hubComplete (s : State) (gk n : Nat) (clk : VC) : State :=
  let s := s.modHubBar gk n BarSt.complete
  { s with blocks := s.blocks.map (fun x =>
      if x.2.grid == gk && x.2.state != .out && x.2.state != .restoring then (x.1, { x.2 with bars := tput x.2.bars n { (x.2.bar n).complete with doneClk := clk } }) else x) }

/-- Judge the hub's count of a grid barrier. -/
def State.hubCheck (s : State) (gk n : Nat) : State :=
  match tget s.grids gk with
  | none => s
  | some g =>
    let r := g.bar n
    let e := ((s.blocks.filter (fun x => x.2.grid == gk && x.2.state != .ended)).map (fun x => popcount (x.2.memberMask g n))).sum
      + s.lateOf s.arrs gk n r.phase
    if r.swapping || r.count = 0 || r.count < e then s
    else if r.swap then
      { (s.modHubBar gk n (fun r => { r with swapping := true })) with
        nextKey := s.nextKey + 1,
        swaps := s.swaps ++ [{ key := s.nextKey, n := n, owner := gk, need := r.need }] }
    else s.hubComplete gk n r.clk

/-- A warp arrives: it counts on its own core, and signals go to the other cores of the cluster or to the hub. -/
def State.barArrive (s : State) (bk wid n : Nat) (b : Block) (g : Grid) : State :=
  let s := s.modBar bk n (fun r => { r with arrived := r.arrived ||| laneBit wid, need := r.need ++ s.stxsOf bk wid })
  let r := match s.blk? bk with | some b => b.bar n | none => BarSt.init
  let mk (key dst : Nat) : ArrMsg :=
    { key := key, n := n, src := bk, srcCore := b.core, dst := dst, wid := wid, phase := r.phase, swap := r.swap, need := s.stxsOf bk wid,
      clk := r.clk, stamp := s.tsc }
  if n < 64 then s.barCheck bk n
  else if n < 112 then
    let others := ((s.clusterOf b g.rec_).filter (fun x => x.1 != bk)).map Prod.fst
    let s := others.foldl (fun s d => { s with arrs := s.arrs ++ [mk s.nextKey d], nextKey := s.nextKey + 1 }) s
    s.barCheck bk n
  else { s with arrs := s.arrs ++ [mk s.nextKey b.grid], nextKey := s.nextKey + 1 }

/-- Judge whether a warp arrives: every thread that is not finished-idle has executed the BAR, and at least one has. -/
def State.barJudge (s : State) (bk wid n : Nat) (live : Mask) : State :=
  match s.blk? bk with
  | none => s
  | some b =>
    match tget s.grids b.grid with
    | none => s
    | some g =>
      let r := b.bar n
      let ex := (tget r.exec wid).getD 0
      if ex != 0 && live &&& ~~~ ex == 0 && !has r.arrived wid && b.isMember g n wid then s.barArrive bk wid n b g else s

/-- Judge every barrier for a warp after an EXIT. -/
def State.barJudgeAll (s : State) (bk wid : Nat) (live : Mask) : State :=
  match s.blk? bk with
  | none => s
  | some b => (b.bars.map Prod.fst).foldl (fun s n => s.barJudge bk wid n live) s

/-- Judge every count after E has fallen. -/
def State.barRecheck (s : State) (gk : Nat) : State :=
  let s := (s.blocks.filter (fun x => x.2.grid == gk)).foldl (fun s x =>
    (x.2.bars.map Prod.fst).foldl (fun s n => s.barCheck x.1 n) s) s
  match tget s.grids gk with
  | none => s
  | some g => (g.bars.map Prod.fst).foldl (fun s n => s.hubCheck gk n) s

/-- An arrival signal counted at a block (07 R154). -/
def BarSt.take (r : BarSt) (m : ArrMsg) : BarSt :=
  { r with members := if r.members.contains (m.src, m.wid) then r.members else r.members ++ [(m.src, m.wid)],
           swap := r.swap || m.swap, need := r.need ++ m.need, clk := r.clk.join m.clk }

def State.barRemote (s : State) (bk : Nat) (m : ArrMsg) : State := (s.modBar bk m.n (fun r => r.take m)).barCheck bk m.n

/-- The phase of an arrival has completed already where it is counted: counts are modulo 256. -/
def ArrMsg.past (m : ArrMsg) (r : BarSt) : Bool := r.phase != m.phase && decide ((r.phase + 256 - m.phase % 256) % 256 < 128)

/-- Whether some thread of the warp waits on barrier n; a warp in its handler waits in none (07 R156, R157). -/
def Warp.waitsOn (w : Warp) (r : BarSt) (n : Nat) : Bool :=
  w.trap.isNone && w.lwait.any (fun x => match x with
    | .bar m ph _ => m == n && ph == r.phase
    | .none | .wsync _ | .passed | .tile .. => false)

/-- The word BARSV gives lane l for barrier n (07 R156). -/
def State.barsv (s : State) (bk : Nat) (b : Block) (n l : Nat) : W32 :=
  let r := b.bar n
  let here := l < b.bwarps
  let waits := (s.warpsOf bk).any (fun x => x.2.wid == l && x.2.waitsOn r n)
  let rem := if 64 ≤ n && n < 112 then (r.members.length + r.remote) % 256 else 0
  BitVec.ofNat 32 (r.phase % 256 * 2 ^ 24 + rem * 2 ^ 16 + (if here && waits then 2 else 0) + (if here && has r.arrived l then 1 else 0))

/-- The entries of two tables below a bound change places. -/
def exchange {α : Type} (lim : Nat) (a b : Tbl α) : Tbl α × Tbl α := (b ++ a.filter (fun x => lim ≤ x.1), a.filter (fun x => x.1 < lim))

/-- A block's scratchpad and shadow banks exchange roles for SHDB banks, with the tags, clocks and poison of what they hold; its
parity flips, and the held stores of the new parity are written (07 R155, R143; 08 R167; 10 R211). -/
def Block.doSwap (b : Block) : Block :=
  let lim := b.shadowBytes
  let data := exchange lim b.scratch b.shadow
  let spans := exchange (lim / 128) b.spans b.shSpans
  let clks := exchange lim b.sclk b.shClk
  let b : Block :=
    { b with scratch := data.1, shadow := data.2, spans := spans.1, shSpans := spans.2, sclk := clks.1, shClk := clks.2,
             spoison := b.shPoison ++ b.spoison.filter (fun x => lim / 8 ≤ x), shPoison := b.spoison.filter (fun x => x < lim / 8),
             parity := !b.parity }
  (b.heldStx.filter (fun h => h.parity == b.parity)).foldl (fun b h => b.shadowStore h.off h.bytes)
    { b with heldStx := b.heldStx.filter (fun h => h.parity != b.parity) }

/- BARLD and what a block has missed (07 R156; 13 R234). -/

/-- The block is being saved, is out, or comes back: its banks do not exchange now. -/
def State.saving (s : State) (bk : Nat) (b : Block) : Bool :=
  b.state == .out || b.state == .restoring
    || (b.state == .preempting && (s.warpsOf bk).any (fun x => match x.2.trap with | some t => t.cause == 56 | none => false))

/-- Set a barrier from an image (07 R156). -/
def BarSt.load (r : BarSt) (cluster : Bool) (lo : W32) (arrived : Mask) : BarSt :=
  { r with phase := field lo.toNat 24 8, arrived := arrived, remote := if cluster then field lo.toNat 16 8 else 0,
           members := [], exec := r.exec }

/-- BARLD of barrier n: arrivals that meet E complete the phase, and none is the answer where they exceed it. The arrivals of a
grid barrier stand at the hub while it counts the image's phase (07 R156). -/
def State.barLoad (s : State) (bk n : Nat) (b : Block) (g : Grid) (lo : W32) (arrived : Mask) : Option State :=
  let r := (b.bar n).load (64 ≤ n && n < 112) lo arrived
  let h := g.bar n
  if n < 112 then (if s.barExpected bk n b g < r.count then none else some ((s.modBar bk n (fun _ => r)).barCheck bk n))
  else if r.phase = h.phase then
    let members := h.members.filter (fun x => x.1 != bk) ++ (lanesOf arrived).map (fun l => (bk, l))
    if s.barExpected bk n b g < members.length then none
    else some (((s.modBar bk n (fun _ => r)).modHubBar b.grid n (fun h => { h with members := members })).hubCheck b.grid n)
  else some (s.modBar bk n (fun _ => r))

/-- A block that comes back takes the phases of grid barriers that the hub has completed without it, and the exchanges of their
swaps (07 R154, R155; 13 R234). -/
def State.hubSync (s : State) (bk : Nat) : State :=
  match s.blk? bk with
  | none => s
  | some b =>
    match tget s.grids b.grid with
    | none => s
    | some g =>
      let missed (n : Nat) : Bool := 112 ≤ n && (b.bar n).phase != (g.bar n).phase
      let s := ((g.bars.map Prod.fst).filter missed).foldl (fun s n =>
        s.modBar bk n (fun r => { r.complete with phase := (g.bar n).phase, doneClk := (g.bar n).doneClk })) s
      s.modBlock bk (fun b => { (List.range b.owedSwaps).foldl (fun b _ => b.doSwap) b with owedSwaps := 0 })

end Sys2Proof.Machine
end

