-- ==== Sys2Proof/Machine/Blocks.lean ====
section
/-! DEFINITION. Warp slots, the start of warps and blocks, retirement, and the end of a block under DOUBLE_FAULT or
CONTEXT_KILL (01 R11, R13, R15, R28, R30, R40; 13 R219, R224, R226). -/

namespace Sys2Proof.Machine

/- Slots. -/

/-- The slot of the dispatcher warp is never given to a block (01 R42). -/
def isDispatcher (core slot : Nat) : Bool := core % 64 == 0 && slot == 63

def State.slotFree (s : State) (core slot : Nat) : Bool :=
  !isDispatcher core slot && (tget s.warps (warpKey core slot)).isNone
    && !s.blocks.any (fun x => x.2.core == core && x.2.slots.contains slot)

/-- The slot of a warp: a free slot of partition wid mod 4, else of the next partitions (01 R15); of several the lowest,
which is the model's choice (log entry 58). -/
def State.freeSlot (s : State) (core wid : Nat) : Option Nat :=
  ((List.range 4).flatMap (fun i => (List.range 16).map (fun j => (wid + i) % 4 + 4 * j))).find? (s.slotFree core)

def State.freeSlots (s : State) (core : Nat) : Nat := ((List.range 64).filter (s.slotFree core)).length

def bankSum (w : W32) : Nat := poolRf w + poolScr w + poolShd w + poolAcc w

/-- Banks the resident blocks of a core hold (01 R11); a replica's arrival queue holds 2 × ARRCAP more (16 R262). -/
def State.banksUsed (s : State) (core : Nat) : Nat :=
  ((s.blocksOn core).map (fun x => bankSum x.2.poolw + (match tget s.grids x.2.grid with
    | some g => if g.rec_.travel && !x.2.isChild g then 2 * g.rec_.arrcap else 0
    | none => 0))).sum

/- Power requests (08 R183). -/

def PowReq.init : PowReq := { value := 0, windows := 0, next := none }

/-- The value in force. -/
def PowReq.live (p : PowReq) : Nat := if p.windows = 0 then 0 else p.value

/- Starting. -/

/-- A warp before its first instruction (01 R15). -/
def Warp.start (bk wid : Nat) (launched : Bool) (nreg : Nat) (args : List W32) (pc : W64) (clk : VC) (now : Nat) : Warp :=
  { blk := bk, wid := wid, launched := launched, regs := (List.range nreg).map (fun i => .u (nth args i 0)),
    preds := List.replicate 15 0, pcs := List.replicate 32 pc, lanes := List.replicate 32 (.on 0),
    cstack := List.replicate 32 [], lwait := List.replicate 32 .none, lwaitSince := List.replicate 32 0, wait := .none,
    waitSince := 0, count := List.replicate 32 0, ops := [], hist := [], rep := none, reps := [], card := [], cardClk := .zero, cardWho := 0,
    fflags := 0, fen := 0, vms := List.replicate 8 0, lastPost := [], tsch := List.replicate 32 0, trap := none,
    pend := none, async := [], replay := [], pre := [], inLoop := false, isync := none, clk := List.replicate 32 (Clk.init clk), halted := false, lastIssue := now,
    missed := 0, half := none, hang := 0, hangGroup := 0, icinvs := [], ids := [] }

/-- A block just given its place, with zeroed banks (01 R11, R15; 04 R80). -/
def Block.start (gk bid crank core bwarps pclass : Nat) (poolw : W32) (args : List W32) (clk : VC) (now : Nat) : Block :=
  { grid := gk, bid := bid, crank := crank, core := core, state := .running, poolw := poolw, bwarps := bwarps,
    pclass := pclass, nextWid := bwarps, retired := 0, scratch := [], shadow := [], sclk := [], shClk := [], spoison := [], shPoison := [],
    parity := false, heldStx := [], tiles := [], tclk := List.replicate 8 .zero, eclk := .zero, marks := [],
    gslots := List.replicate 16 none, spans := [], shSpans := [], vq := [], hq := [], adm := [], tickets := [], bars := [], draw := .init,
    burn := .init, shunt := .init, bconf := 0, frame := 0, mates := 0, wires := [], log := [], startAt := now,
    warpno := [], saved := [], away := [], awayGs := [], awayTickets := [], owedSwaps := 0, resumed := [], slots := [], args := args, clk := clk, err := false }

/-- Put a warp in a free slot of the core; nothing where no slot is free. -/
def State.placeWarp (s : State) (core : Nat) (w : Warp) : State :=
  match s.freeSlot core w.wid with
  | some slot => { s with warps := tput s.warps (warpKey core slot) w }
  | none => s

/-- A block has been placed on the core, or has left it (14 R241). -/
def State.noteMove (s : State) (core : Nat) : State := s.modCol (coreColumn core) (fun c => { c with fallMoved := true })

/-- Start a block on a core: BLOCK_START (01 R15). -/
def State.startBlock (s : State) (gk : Nat) (g : Grid) (core bid bwarps pclass : Nat) (entry : W64) (child : Bool)
    (args : List W32) (clk : VC) : State :=
  let bk := s.nextKey
  let crank := if child then 0 else bid % g.rec_.csize
  let b := Block.start gk bid crank core bwarps pclass g.rec_.poolw args clk s.tsc
  let s := { s.noteMove core with nextKey := bk + 1, blocks := tput s.blocks bk b }
  (List.range bwarps).foldl (fun s wid =>
    s.placeWarp core (Warp.start bk wid (!child) g.ceils.length args entry clk s.issueCount)) s

/- Asynchronous causes. -/

/-- Make a cause pending against a warp, once. -/
def Warp.addAsync (w : Warp) (c : Cause) (addr : W64) : Warp :=
  if w.async.any (fun x => x.1 == c) then w else { w with async := w.async ++ [(c, addr)] }

/-- Make a cause pending against every warp of a block. -/
def State.notifyBlock (s : State) (bk : Nat) (c : Cause) (addr : W64) : State :=
  { s with warps := s.warps.map (fun x => if x.2.blk == bk then (x.1, x.2.addAsync c addr) else x) }

/- Ending. -/

/-- Note the tick at which a column lost its last block (14 R252). -/
def State.noteEmpty (s : State) (core : Nat) : State :=
  let c := coreColumn core
  if (List.range 4).all (fun l => (s.blocksOn (4 * c + l)).isEmpty) then s.modCol c (fun x => { x with emptySince := s.tsc }) else s

/-- Every write of a block's warps and engine operations. -/
def State.blockClk (s : State) (bk : Nat) (b : Block) : VC :=
  VC.joins (b.eclk :: b.clk :: ((b.adm ++ b.vq ++ b.hq ++ b.away).map (fun o => o.wrote)) ++ (s.warpsOf bk).map (fun x => x.2.fullClk)
    ++ b.saved.map (fun x => x.2.fullClk))

/-- The writes of a warp that ends, in the clock of its grid. -/
def State.warpGone (s : State) (k : Nat) (w : Warp) : State :=
  let s := { s with warps := tdel s.warps k }
  match s.blk? w.blk with
  | none => s
  | some b => s.modGrid b.grid (fun g => { g with clk := g.clk.join w.fullClk })

/-- The block is gone: its banks and slots are free, and the grid counts it (01 R28; 13 R226). -/
def State.finishBlock (s : State) (bk : Nat) (err : Bool) : State :=
  match s.blk? bk with
  | none => s
  | some b =>
    let c := s.blockClk bk b
    let s := { s with blocks := tdel s.blocks bk, warps := s.warps.filter (fun x => x.2.blk != bk) }
    let s := s.modGrid b.grid (fun g =>
      { g with clk := g.clk.join c, err := g.err || err,
               frames := g.frames.filter (fun f => f.1 != bk) })
    if b.resident then ((s.barRecheck b.grid).noteEmpty b.core).noteMove b.core else s.barRecheck b.grid

/-- Deliver CONTEXT_KILL to a block: at once when it has no warp on a core (13 R226). -/
def State.killBlock (s : State) (bk : Nat) : State :=
  match s.blk? bk with
  | none => s
  | some _ =>
    if (s.warpsOf bk).isEmpty then s.finishBlock bk true
    else (s.modBlock bk (fun b => { b with err := true })).notifyBlock bk .contextKill 0

/-- Kill every block of a grid; a travel grid loses its caravans too (13 R226). -/
def State.killGrid (s : State) (gk : Nat) : State :=
  let s := ((s.blocks.filter (fun x => x.2.grid == gk)).map Prod.fst).foldl State.killBlock s
  let dropCore (c : CoreSt) : CoreSt := { c with arrivals := c.arrivals.filter (fun (x : Caravan) => x.grid != gk) }
  let dropDie (d : Die) : Die :=
    { d with ranges := d.ranges.filter (fun r => r.grid != gk), mailbox := d.mailbox.filter (fun p => p.grid != gk),
             giving := d.giving.filter (fun r => r.grid != gk),
             steal := match d.steal with
               | .reply g (some r) => if r.grid == gk then .reply g none else d.steal
               | .idle | .reply _ none | .wait _ => d.steal }
  let s := { s with caravans := s.caravans.filter (fun c => c.grid != gk), packets := s.packets.filter (fun p => p.grid != gk), cores := s.cores.map dropCore,
                    dies := s.dies.map dropDie }
  s.modGrid gk (fun g => { g with ring := [], err := true })

/-- A warp's ICINVs under way go on without it (07 R144). -/
def State.leaveIcinvs (s : State) (k : Nat) (w : Warp) : State :=
  if w.icinvs.isEmpty then s
  else s.modCore (k / 64) (fun c => { c with icinvs := c.icinvs ++ w.icinvs.map (fun i => (i.1, i.2.1)) })

/-- Stop a warp; the block ends with its last warp (13 R226). -/
def State.stopWarp (s : State) (k : Nat) : State :=
  match tget s.warps k with
  | none => s
  | some w =>
    let s := (s.leaveIcinvs k w).warpGone k w
    if (s.warpsOf w.blk).isEmpty then s.finishBlock w.blk true else s

/-- End the block of warp k: the blocks of its cluster, of a cooperative grid or of a travel grid are killed too
(13 R226). -/
def State.endBlock (s : State) (k : Nat) : State :=
  match tget s.warps k with
  | none => s
  | some w =>
    match s.blk? w.blk with
    | none => s
    | some b =>
      match tget s.grids b.grid with
      | none => s
      | some g =>
        let mates : List Nat :=
          if g.rec_.coop || g.rec_.travel then ((s.blocks.filter (fun x => x.2.grid == b.grid)).map Prod.fst)
          else if b.isChild g then [w.blk]
          else ((s.clusterOf b g.rec_).map Prod.fst)
        let s := mates.foldl State.killBlock s
        let s := if g.rec_.travel then s.killGrid b.grid else s
        let s := s.modGrid b.grid (fun g => { g with err := true })
        s.stopWarp k

/-- A warp whose threads are all finished-idle retires: its slot stays with its block, which retires with its last warp and
frees the slots; the segment scratchpad of a travel replica stays for the grid's life, and its slots are free at once
(01 R28; 16 R271, R274). -/
def State.retireWarp (s : State) (k : Nat) : State :=
  match tget s.warps k with
  | none => s
  | some w =>
    if w.live != 0 then s
    else
      let s := (s.leaveIcinvs k w).warpGone k w
      match s.blk? w.blk with
      | none => s
      | some b =>
        let travel := match tget s.grids b.grid with | some g => g.rec_.travel && !b.isChild g | none => false
        let s := if w.launched then s.modBlock w.blk (fun b => { b with retired := b.retired ||| laneBit w.wid }) else s
        let s := if travel then s else s.modBlock w.blk (fun b => { b with slots := b.slots ++ [k % 64] })
        if travel then s
        else if (s.warpsOf w.blk).isEmpty then s.finishBlock w.blk b.err
        else if w.launched then s.barRecheck b.grid else s

end Sys2Proof.Machine
end

