-- ==== Sys2Proof/Machine/Frame.lean ====
section
/-! DEFINITION. The frame of a swapped-out block: its layout, its header, the register records by ceiling, and what the
ROM default handler saves and restores (04 R79; 13 R228, R229, R320). -/

namespace Sys2Proof.Machine

def roundTo (n k : Nat) : Nat := (n + k - 1) / k * k

/-- Register storage of one warp (01 R13). -/
def warpBytes (ceils : List Tag) : Nat := (ceils.map Tag.bytes).sum

/-- Bytes of one warp record. -/
def frameWR (ceils : List Tag) : Nat := 128 * ceilDiv (4 * ceilDiv ceils.length 16 + warpBytes ceils) 128

def frameReg : Nat := 0xA7000
def frameScr (ceils : List Tag) (warpn : Nat) : Nat := frameReg + roundTo (warpn * frameWR ceils) 4096
def frameShd (ceils : List Tag) (warpn : Nat) (poolw : W32) : Nat := frameScr ceils warpn + poolScr poolw * 8192
def frameAcc (ceils : List Tag) (warpn : Nat) (poolw : W32) : Nat := frameShd ceils warpn poolw + poolShd poolw * 8192
def frameCap (ceils : List Tag) (warpn : Nat) (poolw : W32) : Nat := frameAcc ceils warpn poolw + poolAcc poolw * 8192
/-- FSIZE (13 R229). -/
def frameSize (ceils : List Tag) (warpn : Nat) (poolw : W32) : Nat :=
  frameCap ceils warpn poolw + 64 * 128 * ceils.length

/-- The header the firmware writes, from 0x000 to 0x7FF, Y fields 0 (13 R229). -/
def frameHeader (b : Block) (ceils : List Tag) (wids : List Nat) : List Byte :=
  let n := wids.length
  bytesOf 8 b.bid ++ bytesOf 4 b.crank ++ bytesOf 4 b.poolw.toNat ++ bytesOf 4 ceils.length ++ bytesOf 4 n
    ++ bytesOf 4 0 ++ bytesOf 4 0 ++ bytesOf 8 frameReg ++ bytesOf 8 (frameScr ceils n) ++ bytesOf 8 (frameShd ceils n b.poolw)
    ++ bytesOf 8 (frameAcc ceils n b.poolw) ++ bytesOf 8 (frameCap ceils n b.poolw) ++ bytesOf 8 (frameSize ceils n b.poolw)
    ++ List.replicate 0x30 0
    ++ (List.range 32).flatMap (fun k => bytesOf 4 (nth wids k 0)) ++ List.replicate 0x700 0

/-- The record of one register under its ceiling (04 R79). -/
def regRecord (c : Tag) (r : Reg) : List Byte :=
  match c, r with
  | .u, r => bytesOf 4 (r.lane 0).toNat
  | .a, .a b s => bytesOf 4 b.toNat ++ bytesOf 4 s.toNat
  | .a, r => bytesOf 4 (r.lane 0).toNat ++ bytesOf 4 0
  | .g, r => (List.range 32).flatMap (fun l => bytesOf 4 (r.lane l).toNat)

/-- The tag words and register records of a warp (04 R79). -/
def warpRecord (ceils : List Tag) (w : Warp) : List Byte :=
  let n := ceils.length
  let word (i : Nat) : Nat := ((List.range 16).map (fun j => if 16 * i + j < n then (w.reg (16 * i + j)).tag.code * 4 ^ j else 0)).sum
  (List.range (ceilDiv n 16)).flatMap (fun i => bytesOf 4 (word i))
    ++ (ceils.zip w.regs).flatMap (fun x => regRecord x.1 x.2)

/-- The register a tag code and a record give. -/
def regOfRecord (c : Tag) (code : Nat) (bs : List Byte) : Reg :=
  let word (i : Nat) : W32 := BitVec.ofNat 32 (ofBytes ((bs.drop (4 * i)).take 4))
  match c, code with
  | _, 0 => .u (word 0)
  | .u, _ => .u (word 0)
  | .a, _ => .a (word 0) (word 1)
  | .g, 1 => .a (word 0) (word 1 - word 0)
  | .g, _ => .g ((List.range 32).map word)

/-- Registers from a warp record. -/
def regsOfRecord (ceils : List Tag) (bs : List Byte) : List Reg :=
  let n := ceils.length
  let code (k : Nat) : Nat := field (ofBytes ((bs.drop (4 * (k / 16))).take 4)) (2 * (k % 16)) 2
  let rec go (k : Nat) (cs : List Tag) (rest : List Byte) : List Reg :=
    match cs with
    | [] => []
    | c :: cs => regOfRecord c (code k) (rest.take c.bytes) :: go (k + 1) cs (rest.drop c.bytes)
  go 0 ceils (bs.drop (4 * ceilDiv n 16))

/-- Predicates of a warp as 2 bytes a lane (13 R320). -/
def predRecord (w : Warp) : List Byte :=
  (List.range 32).flatMap (fun l =>
    bytesOf 2 (((List.range 15).map (fun p => if has (nth w.preds p 0) l then 2 ^ p else 0)).sum))

def predsOfRecord (bs : List Byte) : List Mask :=
  (List.range 15).map (fun p => maskOf (fun l => field (ofBytes ((bs.drop (2 * l)).take 2)) p 1 == 1))

/-- Row-major words of a tile (04 R80). -/
def tileBytes (b : Block) (t : Nat) : List Byte :=
  (List.range 16384).flatMap (fun i => bytesOf 4 ((tget b.tiles (t * 16384 + i)).getD 0).toNat)

def tileOfBytes (t : Nat) (bs : List Byte) (tiles : Tbl W32) : Tbl W32 :=
  (List.range 16384).foldl (fun m i =>
    let v : W32 := BitVec.ofNat 32 (ofBytes ((bs.drop (4 * i)).take 4))
    if v = 0 then tdel m (t * 16384 + i) else tput m (t * 16384 + i) v) tiles

/-- Barriers of the launch whose images a frame holds (13 R320). -/
def frameBars (g : Grid) : List Nat := List.range (if g.rec_.coop then 128 else 112)

/-- Write pieces at offsets of a frame as ordinary stores of the warp; none when a page forbids it. -/
def State.pokeAll (s : State) (die cx base : Nat) (vec : VC) (pieces : List (Nat × List Byte)) : Option (State × VC) :=
  match pieces with
  | [] => some (s, .zero)
  | (o, bs) :: rest =>
    (s.pokeVa die cx (base + o) bs vec).bind (fun r => (r.1.pokeAll die cx base vec rest).map (fun q => (q.1, r.2.join q.2)))

/-- What the ROM default handler saves of one warp: registers and predicates (13 R320). -/
def warpPieces (b : Block) (g : Grid) (w : Warp) : List (Nat × List Byte) :=
  let k := b.warpno.findIdx (· == w.wid)
  [(frameReg + k * frameWR g.ceils, warpRecord g.ceils w), (0x800 + 64 * k, predRecord w)]

/-- What the ROM default handler saves of a block: scratchpad, shadow banks, tiles and barrier images (13 R320). -/
def State.blockPieces (s : State) (bk : Nat) (b : Block) (g : Grid) : List (Nat × List Byte) :=
  let n := b.warpno.length
  [(frameScr g.ceils n, padRead b.scratch 0 b.scratchBytes), (frameShd g.ceils n b.poolw, padRead b.shadow 0 b.shadowBytes)]
    ++ (List.range (poolAcc b.poolw / 8)).map (fun t => (frameAcc g.ceils n b.poolw + 65536 * t, tileBytes b t))
    ++ (frameBars g).map (fun i => (0xA3000 + 128 * i, (List.range 32).flatMap (fun l => bytesOf 4 (s.barsv bk b i l).toNat)))

/-- Sparse bytes of a pool region. -/
def padOf (bs : List Byte) : Tbl Byte := padWrite [] 0 bs

end Sys2Proof.Machine
end

