-- ==== Sys2Proof/Machine/Preempt.lean ====
section
/-! DEFINITION. What YIELD, the departure of a block, its restore and RESUME do (07 R131, R157; 13 R228 to R234, R320;
15 R259, R260). -/

namespace Sys2Proof.Machine

/- Page faults (10 R209, R210). -/

def faultKindLoad : Nat := 0
def faultKindStore : Nat := 1
def faultKindAtomic : Nat := 2
def faultKindFetch : Nat := 3

def pageOf (va : W64) : Nat := vbits va / 4096

/-- Join the unanswered entry of the page, take a new one, or wait for room (10 R209); the first fault on a page of the host's
memory asks the host for its translation (20 R297). -/
def State.recordFault (s : State) (die : Nat) (e : FaultEnt) : State :=
  let same (x : FaultEnt) : Bool := x.ctx == e.ctx && pageOf x.va == pageOf e.va
  let d := s.die die
  -- an absent translation of the host's own is requested from it (20 R297)
  let s := match (s.mapping .hub e.ctx (vbits e.va)).map (fun m => m.pa + (vbits e.va - m.va)) with
    | some pa => if s.hostHole pa && !d.faults.any same then s.outReq e.ctx .page pa else s
    | none => s
  if d.faults.any same then
    s.modDie die (fun d => { d with faults := d.faults.map (fun x =>
      if same x then { x with count := min 255 (x.count + 1), warps := x.warps ++ e.warps, eops := x.eops ++ e.eops } else x) })
  else if d.faults.length < Config.faultBufSize then
    (s.signal e.ctx).modDie die (fun d => { d with faults := d.faults ++ [e] })
  else s.modDie die (fun d => { d with faultWait := d.faultWait ++ [(0, e)] })

/-- Park a warp on an absent page (10 R209). -/
def State.parkWarp (s : State) (core slot cx kind : Nat) (pc : W64) (grp : Mask) (va : W64) (op : Nat) : State :=
  let k := warpKey core slot
  let die := coreDie core
  let e : FaultEnt := { va := va, stamp := s.tsc, ctx := cx, core := core, kind := kind, count := 1, slot := slot,
                        warps := [k], eops := [], reported := false }
  (s.modWarp k (fun w => { w with wait := .parked die cx (pageOf va) pc grp va op, waitSince := s.tsc })).recordFault die e

/-- DOUBLE_FAULT: the error log and the host are told, and the block ends (13 R225). -/
def State.doubleFault (s : State) (k : Nat) (inner : Cause) (pc : W64) : State :=
  match tget s.warps k with
  | none => s
  | some w =>
    match (s.blk? w.blk).bind (fun b => (tget s.grids b.grid).map (fun g => (b, g))) with
    | none => s
    | some (b, g) =>
      let e := Event.mk' s g.ctx b.core 0x84 (Cause.code .doubleFault) 0 (pc.toNat % 2 ^ 48 + inner.code * 2 ^ 48)
      let s := { (s.logEvent (coreDie b.core) e) with msix := s.msix ++ [(s.eventFn g.ctx, 0)] }
      s.endBlock k

/-- Threads leave their entries for one PC and join the table there. -/
def Warp.regroup (w : Warp) (m : Mask) (pc : W64) : Warp :=
  (((w.setLanes m .held).setPcs m (fun _ => pc)).place m pc).reenter

/-- Mark a register's lanes as overtaken in every pending instruction that writes it (01 R27). -/
def Warp.overtake (w : Warp) (d : Nat) (act : Mask) : Warp :=
  { w with ops := w.ops.map (fun o =>
      if !o.done && o.dst.any (fun x => x.1 == d) then { o with sup := (d, act) :: o.sup } else o) }

/-- Restore the control state that handler entry set aside; the loop buffer and prefetched words are dropped (13 R225).
Threads that have exited in the handler stay finished-idle. -/
def Warp.tret (w : Warp) (c : Ctl) (now : Nat) : Warp :=
  let lanes := allLanes.map (fun l => match w.laneAt l with
    | .idle => LaneSt.idle
    | .on _ | .held | .vacant => nth c.lanes l .vacant)
  let w' : Warp :=
    { w with pcs := c.pcs, lanes := lanes, cstack := c.cstack, lwait := c.lwait, lwaitSince := List.replicate 32 now,
             wait := c.wait, waitSince := now, rep := c.rep, reps := c.reps, ops := c.ops, replay := c.replay, count := c.count,
             hist := c.hist, trap := none, pend := none, pre := [], inLoop := false }
  let w' := w'.reenter
  { w' with rep := w'.rep.filter (fun r => r.grp &&& w'.live != 0) }.nextRep

/-- Write bytes into the frame of a block, as the firmware or the K4 does (die 4). -/
def State.frameWrite (s : State) (cx : Nat) (b : Block) (off : Nat) (bs : List Byte) : State :=
  match s.pokeVa 4 cx (b.frame + off) bs b.clk with
  | some r => r.1
  | none => s

/-- Insert or merge an entry of the arrival log (13 R231): the index at which it stands. A merged entry keeps the earliest
stamp. -/
def logMerge (log : List (Nat × Nat × Nat × Nat × Nat × Nat)) (e : Nat × Nat × Nat × Nat × Nat × Nat) :
    List (Nat × Nat × Nat × Nat × Nat × Nat) × Nat :=
  let (st, src, kind, arg, a, b) := e
  match (if kind = 0 then log.findIdx? (fun x => x.2.1 == src && x.2.2.1 == 0 && x.2.2.2.2.1 == a) else none) with
  | some i => (lput log i (0, 0, 0, 0, 0, 0) (fun x => (min x.1 st, x.2.1, x.2.2.1, x.2.2.2.1 + arg, x.2.2.2.2.1, x.2.2.2.2.2)), i)
  | none => (log ++ [(st, src, kind, arg, a, b)], log.length)

/-- Append an entry to the arrival log of a block that is out; past 4,096 entries none is made (13 R231). -/
def State.logAppend (s : State) (bk : Nat) (e : Nat × Nat × Nat × Nat × Nat × Nat) : State :=
  match s.blk? bk with
  | none => s
  | some b =>
    let (log, i) := logMerge b.log e
    if log.length > 4096 then s
    else
      let x := nth log i (0, 0, 0, 0, 0, 0)
      let bs := bytesOf 8 x.1 ++ bytesOf 2 x.2.1 ++ bytesOf 1 x.2.2.1 ++ [0] ++ bytesOf 4 x.2.2.2.1 ++ bytesOf 8 x.2.2.2.2.1
        ++ bytesOf 8 x.2.2.2.2.2
      let s := s.modBlock bk (fun b => { b with log := log })
      match tget s.grids b.grid with
      | none => s
      | some g => (s.frameWrite g.ctx b (0x3000 + 32 * i) bs).frameWrite g.ctx b 0x18 (bytesOf 4 log.length)

/-- A barrier arrival aimed at an absent block (13 R231). -/
def State.logArrival (s : State) (bk : Nat) (m : ArrMsg) : State :=
  (s.modBlock bk (fun b => { b with wires := b.wires ++ [m] })).logAppend bk
    (m.stamp, m.srcCore, 0, 1, m.n + m.phase % 256 * 256, 0)

/-- The place of a warp's control record in its frame (13 R229). -/
def controlAt (b : Block) (w : Warp) : Nat := 0x23000 + 0x4000 * b.warpno.findIdx (· == w.wid)

/-- YIELD in a PREEMPT handler: the warp's control record is written and its earlier stores are released at package
scope (13 R229, R230). The layout of a control record is not in the manual: its bytes are free values (log entry 4). -/
def State.doYield (s : State) (k : Nat) : State :=
  match tget s.warps k with
  | none => s
  | some w =>
    match s.blk? w.blk with
    | none => s
    | some b =>
      let s := s.modBlock w.blk (fun b => { b with clk := b.clk.join w.fullClk })
      let s := s.modWarp k (fun w => { w with wait := .yielded, waitSince := s.tsc })
      match tget s.grids b.grid with
      | none => s
      | some g =>
        let bs := (List.range 0x4000).map (fun j => Config.controlByte (s.fresh * 0x4000 + j))
        (s.tickFresh).frameWrite g.ctx b (controlAt b w) bs

/-- Bytes of an operation record (13 R230). -/
def EOp.record (o : EOp) (capOff : Nat) : List Byte :=
  match o.kind with
  | .job card => (List.range 32).flatMap (fun i => bytesOf 4 (nth card i 0).toNat)
  | .mma .. | .mmz _ | .mmrd .. | .mmwr .. | .mmld .. | .mmst .. | .cmprs .. =>
    bytesOf 4 0xF0000000 ++ bytesOf 16 o.word ++ List.replicate 12 0
      ++ (List.range 16).flatMap (fun i => bytesOf 4 (nth o.raw i 0).toNat)
      ++ bytesOf 4 capOff ++ bytesOf 4 o.wid ++ bytesOf 4 o.mask.toNat ++ List.replicate 20 0

/-- Operation records and captures, in queue order. -/
def opRecords (capBase : Nat) (ops : List EOp) : List (Nat × List Byte) :=
  let rec go (i used : Nat) (ops : List EOp) : List (Nat × List Byte) :=
    match ops with
    | [] => []
    | o :: rest =>
      (0x1000 + 128 * i, o.record used)
        :: (capBase + used, o.cap.flatMap (fun r => (List.range 32).flatMap (fun l => bytesOf 4 (nth r l 0).toNat)))
        :: go (i + 1) (used + 128 * o.cap.length) rest
  go 0 0 ops

/-- The first of several regions of virtual bytes that an access of a die finds absent, with no cause, or faulty, with one
(10 R207, R211). -/
def State.vaFault (s : State) (die cx need : Nat) (regions : List (Nat × Nat)) : Option (Option Cause × Nat) :=
  let page (va n i : Nat) : Option (Option Cause × Nat) :=
    let a := if i = 0 then va else (va / 4096 + i) * 4096
    if a < va + n then
      match s.xlat (.die die) cx (a % 2 ^ 57) need with
      | .ok pa =>
        if need = needRD then (s.poisonIn die pa (min (4096 - a % 4096) (va + n - a))).map (fun p => (some .memoryError, a + (p - pa)))
        else none
      | .absent => some (none, a)
      | .protect => some (some .pageProtect, a)
      | .walkErr => some (some .walkError, a)
    else none
  (regions.flatMap (fun r => (List.range (r.2 / 4096 + 2)).filterMap (page r.1 r.2))).head?

/-- An absent page of a frame is entered in the fault buffer once, with no warp of its own (10 R209). -/
def State.frameAbsent (s : State) (core cx kind va : Nat) : State :=
  let die := coreDie core
  if (s.die die).faults.any (fun x => x.ctx == cx && pageOf x.va == va / 4096) then s
  else s.recordFault die { va := BitVec.ofNat 64 va, stamp := s.tsc, ctx := cx, core := core, kind := kind, count := 1, slot := 0,
                           warps := [], eops := [], reported := false }

/-- What the ROM default handler writes of a block, region by region. -/
def piecesOf (base : Nat) (p : List (Nat × List Byte)) : List (Nat × Nat) := p.map (fun x => (base + x.1, x.2.length))

/-- What is written into the frame as the block leaves: what the ROM default handler saves of the block, the operation records,
and the header fields that YIELD writes (13 R229, R230, R320). -/
def State.leavePieces (s : State) (bk : Nat) (b : Block) (g : Grid) (gone : Nat) : List (Nat × List Byte) :=
  (if g.rec_.handler = 0 then s.blockPieces bk b g else [])
    ++ opRecords (frameCap g.ceils b.warpno.length b.poolw) b.vq
    ++ [(0x18, bytesOf 4 0 ++ bytesOf 4 b.vq.length),
        (0x50, bytesOf 8 s.tsc ++ bytesOf 2 b.core ++ [if b.parity then 1 else 0] ++ bytesOf 1 gone)]

/-- Ranks of the block's cluster that are out. -/
def State.goneMates (s : State) (b : Block) (g : Grid) : Nat :=
  ((s.clusterOf b g.rec_).filter (fun x => x.2.state == .out)).foldl (fun a x => a ||| (1 <<< x.2.crank)) 0

/-- Arrivals at cluster barriers of a block that it has not counted: those that the wires hold, and those whose signal is still on
its way (15 R260). -/
def State.uncounted (s : State) (bk : Nat) (b : Block) : List ArrMsg := b.wires ++ s.arrs.filter (fun m => m.n < 112 && m.dst == bk)

/-- A waiting MMRD's time so far, as it is set aside: time swapped out does not count for its watchdog (13 R227). -/
def Warp.stopClock (w : Warp) (now : Nat) : Warp :=
  { w with trap := w.trap.map (fun t => { t with ctl := { t.ctl with ops := t.ctl.ops.map (fun (o : Op) => { o with since := now - o.since }) } }) }

/-- The block leaves its core: its warps, its queue, its guard slots and its tickets are set aside (13 R230 step 4 and 5, R232;
08 R183). -/
def State.departCore (s : State) (bk : Nat) : State :=
  match s.blk? bk with
  | none => s
  | some b =>
    match tget s.grids b.grid with
    | none => s
    | some g =>
      let mates := s.clusterOf b g.rec_
      let gone := s.goneMates b g
      let s := match s.pokeAll 4 g.ctx b.frame b.clk (s.leavePieces bk b g gone) with | some r => r.1 | none => s
      let saved := (s.warpsOf bk).foldl (fun t x => tput t x.2.wid (x.2.stopClock s.tsc)) []
      let held := s.uncounted bk b
      let s := { s with warps := s.warps.filter (fun x => x.2.blk != bk), arrs := s.arrs.filter (fun m => !(m.n < 112 && m.dst == bk)) }
      let s := s.modBlock bk (fun b =>
        { b with state := .out, saved := saved, resumed := [], slots := [], mates := gone, wires := [], log := [], draw := .init, burn := .init,
                 shunt := .init, scratch := [], away := b.vq, vq := [], awayGs := b.gslots,
                 awayTickets := b.tickets.map (fun t => (s.tsc, t)), tickets := [] })
      let s := b.tickets.foldl (fun s t => s.logAppend bk (s.tsc, 0xFFFF, 3, t.word.toNat, 0, 0)) s
      let s := held.foldl (fun s m => s.logArrival bk m) s
      let s := (s.noteEmpty b.core).noteMove b.core
      if g.rec_.flag 4 then
        (mates.filter (fun x => x.1 != bk && x.2.resident)).foldl
          (fun s x => s.notifyBlock x.1 .mateSwapped (BitVec.ofNat 64 b.crank)) s
      else s

/-- The block leaves once everything of its frame that is then written can be: an absent page parks the warp whose YIELD writes
it, and a page that forbids it, or poison in what the ROM default handler reads, is a double fault (10 R209, R211;
13 R225, R230, R320); a replica core without warps then ends with its grid. -/
def State.leaveCore (s : State) (bk : Nat) : State :=
  match s.blk? bk with
  | none => s
  | some b =>
    match tget s.grids b.grid with
    | none => s
    | some g =>
      let log := b.tickets.length + (s.uncounted bk b).length
      let bad := s.vaFault 4 g.ctx needW (piecesOf b.frame (s.leavePieces bk b g 0) ++ [(b.frame + 0x3000, 32 * log)])
      match (s.warpsOf bk).head? with
      | none =>
        match bad with
        | some (none, va) => s.frameAbsent b.core g.ctx faultKindStore va
        | some (some _, _) => s.killGrid b.grid
        | none => s.departCore bk
      | some w =>
        if g.rec_.handler = 0 && !(b.spoison.isEmpty && b.shPoison.isEmpty) then s.doubleFault w.1 .memoryError 0
        else
          match bad with
          | some (none, va) => s.parkWarp b.core (w.1 % 64) g.ctx faultKindStore w.2.front.2 w.2.live (BitVec.ofNat 64 va) 0
          | some (some c, _) => s.doubleFault w.1 c 0
          | none => s.departCore bk

/- The spill ring in memory (16 R269; 17 R280). -/

/-- The address of ring entry i (16 R269). -/
def ringAt (g : Grid) (i : Nat) : Nat := g.rec_.spilla.toNat + 4096 + 16384 * i

/-- Write into a ring entry as the K4: its bookkeeping takes the write, which follows its earlier ones (17 R280). -/
def State.ringWrite (s : State) (die gk i off : Nat) (bs : List Byte) (vec : VC) : State :=
  match tget s.grids gk with
  | none => s
  | some g =>
    match s.pokeVa die g.ctx (ringAt g i + off) bs (vec.join g.ringClk) with
    | none => s
    | some r =>
      let keys := (List.range ((r.1.die die).nextWrite - (s.die die).nextWrite)).map (fun j => wkey die ((s.die die).nextWrite + j))
      r.1.modGrid gk (fun g => { g with ringClk := g.ringClk.join r.2, ringKeys := g.ringKeys ++ keys })

/- Views of boards (07 R158, R159; 18 R287, R289). -/

def State.breq? (s : State) (key : Nat) : Option BReq := s.breqs.find? (fun r => r.key == key)
def State.modBReq (s : State) (key : Nat) (f : BReq → BReq) : State :=
  { s with breqs := s.breqs.map (fun r => if r.key == key then f r else r) }

/-- The warp of a request, while it waits for the answer. -/
def State.waiterOf (s : State) (r : BReq) : Option (Nat × Warp) :=
  s.warps.find? (fun x => x.2.blk == r.blk && x.2.wid == r.wid && x.2.wait == .board r.key)

/-- The group of a board instruction that raised a cause stands at it again (13 R219). A replay that skips the
instruction executes it after all. -/
def Warp.boardFail (w : Warp) (r : BReq) (c : Cause) : Warp :=
  let w := { w with wait := .none }
  let mine (h : Hist) : Bool := h.pc == r.pc && h.marked && h.group &&& r.group != 0
  if w.replay.any mine then { w with replay := w.replay.map (fun h => if mine h then { h with marked := false } else h) }
  else
    let m := r.group &&& w.live
    { w.regroup m r.pc with
      count := allLanes.map (fun l => nth w.count l 0 - (if has m l then 1 else 0)),
      hist := w.hist.filter (fun h => !(h.pc == r.pc && h.op == 0 && h.group &&& r.group != 0)),
      pend := some { cause := c, pc := r.pc, group := m, mask := m, addr := BitVec.ofNat 64 r.handle, iter := 0, next := none,
                     mark := none } }

/-- The thread of a lane takes a view. -/
def Warp.seeView (w : Warp) (r : BReq) (round : W32) (level l : Nat) : Warp :=
  w.modClk l (fun c => { c.acquire r.seen with views := (r.board, round, level) :: c.views })

/-- The answer of a BPV or BVM reaches its warp (07 R158, R159). -/
def Warp.takeView (w : Warp) (r : BReq) : Warp :=
  match r.fault with
  | some c => w.boardFail r c
  | none =>
    let w := { w with wait := .none }
    match r.kind with
    | .bpv =>
      let lv (l : Nat) : Nat × Bool := ((r.levels.find? (fun x => x.1 == l)).map (fun x => x.2)).getD (0, false)
      let vals : List W32 := allLanes.map (fun l => BitVec.ofNat 32 (lv l).1)
      let stale := maskOf (fun l => (lv l).2)
      let w := w.overtake r.dst r.act
      let w := { w with
        regs := lput w.regs r.dst (.u 0) (fun old => old.write false .g .g r.act vals),
        preds := if r.stale = 15 then w.preds else lput w.preds r.stale 0 (fun p => (p &&& ~~~ r.act) ||| (r.act &&& stale)),
        lastPost := match r.lanes with | x :: _ => tput w.lastPost r.handle x.round | [] => w.lastPost }
      r.lanes.foldl (fun w x => w.seeView r x.round (lv x.lane).1 x.lane) w
    | .bvm =>
      let w := { w with vms := lput w.vms r.vm 0 (fun _ => r.mask) }
      (lanesOf r.act).foldl (fun w l => w.seeView r r.round r.level l) w
    | .brst => w

def State.deliverView (s : State) (r : BReq) (k : Nat) (w : Warp) : State :=
  { s with breqs := s.breqs.filter (fun x => x.key != r.key), warps := tput s.warps k (w.takeView r) }

/- Replay of the arrival log (13 R234; 20 R313). -/

inductive LogItem where
  | arrival (m : ArrMsg)
  | view (key : Nat)
  | ticket (t : Ticket)

/-- Insertion by stamp and source, stable. -/
def insertItem (x : Nat × Nat × LogItem) (l : List (Nat × Nat × LogItem)) : List (Nat × Nat × LogItem) :=
  match l with
  | [] => [x]
  | y :: l => if x.1 < y.1 || (x.1 == y.1 && x.2.1 < y.2.1) then x :: y :: l else y :: insertItem x l

/-- Barrier arrivals, views and tickets of a block's log, in the order of their entries' stamps and sources. -/
def State.logItems (s : State) (bk : Nat) (b : Block) : List (Nat × Nat × LogItem) :=
  let stampOf (kind a : Nat) (p : Nat × Nat × Nat × Nat × Nat × Nat → Bool) (other : Nat) : Nat :=
    ((b.log.find? (fun e => e.2.2.1 == kind && (kind != 0 || e.2.2.2.2.1 == a) && p e)).map Prod.fst).getD other
  let views := (s.breqs.filter (fun r => r.blk == bk && r.logged)).map (fun r =>
    (stampOf 1 0 (fun e => e.2.2.2.1 == r.wid) s.tsc, 0xFFFF, LogItem.view r.key))
  let arrivals := b.wires.map (fun m =>
    (stampOf 0 (m.n + m.phase % 256 * 256) (fun e => e.2.1 == m.srcCore) m.stamp, m.srcCore, LogItem.arrival m))
  (b.awayTickets.map (fun (t : Nat × Ticket) => (t.1, 0xFFFF, LogItem.ticket t.2)) ++ arrivals ++ views).foldl (fun a x => insertItem x a) []

def State.replayItem (s : State) (bk : Nat) (x : LogItem) : State :=
  match x with
  | .arrival m =>
    let r := match s.blk? bk with | some b => b.bar m.n | none => BarSt.init
    if r.phase = m.phase then s.barRemote bk m else if m.past r then s else { s with arrs := s.arrs ++ [m] }
  | .view key =>
    match s.breq? key with
    | none => s
    | some r => match s.waiterOf r with | some (k, w) => s.deliverView r k w | none => s
  | .ticket t => s.modBlock bk (fun b => { b with tickets := b.tickets ++ [t] })

/-- When every warp has executed RESUME: the banks exchange as their parity asks, the operations are queued again with the guard
slots as they were, the log is replayed, the warps go on, and the frame is freed (13 R234; 16 R277). -/
def State.finishRestore (s : State) (bk : Nat) : State :=
  match s.blk? bk with
  | none => s
  | some b =>
    if b.saved.any (fun x => !b.resumed.contains x.1) then s
    else
      let go (x : Nat × Warp) : Nat × Warp :=
        if x.2.blk == bk then
          let w := x.2.stopClock s.tsc
          (x.1, match w.trap with | some t => w.tret t.ctl s.tsc | none => w)
        else x
      let items := s.logItems bk b
      let s := { s with warps := s.warps.map go }.hubSync bk
      let s := s.modBlock bk (fun b =>
        { b with state := .running, saved := [], resumed := [], wires := [], log := [], frame := 0, warpno := [], vq := b.away ++ b.vq,
                 gslots := b.awayGs, away := [], awayGs := [], awayTickets := [] })
      -- caravans held for the core may be promoted again
      let mine (e : Nat × RingEnt) : Bool := e.2.state == 2 && e.2.car.any (fun c => c.dst == b.core)
      let ring := match tget s.grids b.grid with | some g => (g.ring.filter mine).map Prod.fst | none => []
      let s := s.modGrid b.grid (fun g => { g with frames := g.frames.filter (fun f => f.1 != bk),
                                                   ring := g.ring.map (fun e => if mine e then (e.1, { e.2 with state := 1 }) else e) })
      let s := ring.foldl (fun s i => s.ringWrite 4 b.grid i 0x1E (bytesOf 2 1) b.clk) s
      let s := items.foldl (fun s x => s.replayItem bk x.2.2) s
      ((s.blk? bk).map (fun b => (b.bars.map Prod.fst).foldl (fun s n => s.barCheck bk n) s)).getD s

/-- RESUME in a handler entered at restore: the card, the flags and the view masks come back, and the warp waits for
the others of its block (07 R131; 13 R234). -/
def State.doResume (s : State) (k : Nat) : State :=
  match tget s.warps k with
  | none => s
  | some w =>
    match (s.blk? w.blk).bind (fun b => tget b.saved w.wid) with
    | none => s
    | some old =>
      let s := s.modWarp k (fun w => { w with wait := .resumed, card := old.card, cardClk := old.cardClk, cardWho := old.cardWho, fflags := old.fflags,
                                              fen := old.fen, vms := old.vms })
      (s.modBlock w.blk (fun b => { b with resumed := w.wid :: b.resumed })).finishRestore w.blk

/-- What the ROM default handler loads for a block: its regions, and each barrier with BARLD (13 R320). -/
def State.loadBlock (s : State) (bk : Nat) (b : Block) (g : Grid) : Except Cause State :=
  let n := b.warpno.length
  let rd (off k : Nat) : List Byte := (s.peekVa (coreDie b.core) g.ctx (b.frame + off) k).getD []
  let tl := (List.range (poolAcc b.poolw / 8)).foldl (fun m t => tileOfBytes t (rd (frameAcc g.ceils n b.poolw + 65536 * t) 65536) m) []
  let s := s.modBlock bk (fun b => { b with scratch := padOf (rd (frameScr g.ceils n) b.scratchBytes),
                                            shadow := padOf (rd (frameShd g.ceils n b.poolw) b.shadowBytes), tiles := tl })
  (frameBars g).foldlM (fun s i =>
    let bs := rd (0xA3000 + 128 * i) 128
    let word (l : Nat) : W32 := BitVec.ofNat 32 (ofBytes ((bs.drop (4 * l)).take 4))
    match s.blk? bk, tget s.grids b.grid with
    | some b, some g =>
      match s.barLoad bk i b g (word 0) (maskOf (fun l => has (word l) 0)) with
      | none => .error .barOverarrive
      | some s => .ok s
    | _, _ => .ok s) s

/-- The regions of a frame that the ROM default handler reads. -/
def frameRegions (b : Block) (g : Grid) : List (Nat × Nat) :=
  let n := b.warpno.length
  [(b.frame + 0x800, 64 * n), (b.frame + 0xA3000, 128 * (frameBars g).length), (b.frame + frameReg, frameWR g.ceils * n),
   (b.frame + frameScr g.ceils n, b.scratchBytes), (b.frame + frameShd g.ceils n b.poolw, b.shadowBytes),
   (b.frame + frameAcc g.ceils n b.poolw, poolAcc b.poolw / 8 * 65536)]

/-- A warp as it enters its handler at restore (13 R233). -/
def Warp.restored (w : Warp) (bk core nreg : Nat) (handler addr : W64) (clk : VC) (now : Nat) : Warp :=
  let live := w.live
  { w with regs := (List.range nreg).map (fun _ => Reg.u 0), preds := List.replicate 15 0, blk := bk,
           pcs := List.replicate 32 handler,
           lanes := allLanes.map (fun l => if has live l then .on 0 else w.laneAt l),
           cstack := List.replicate 32 [], lwait := List.replicate 32 .none, wait := .none, rep := none, reps := [], ops := [],
           hist := [], replay := [], pre := [], inLoop := false, pend := none,
           trap := w.trap.map (fun t => { t with cause := 56, addr := addr, win := 0, stamp := now, source := core }),
           clk := w.clk.map (fun c => { c with base := c.base.join clk }) }

/-- The ROM default handler restores a block whose warps have entered it. -/
def State.romRestore (s : State) (bk core : Nat) (b : Block) (g : Grid) : State :=
  let keys := (s.warpsOf bk).map Prod.fst
  let n := frameWR g.ceils
  match s.loadBlock bk b g with
  | .error c => s.doubleFault (keys.headD 0) c 0
  | .ok s =>
    keys.foldl (fun s k =>
      match tget s.warps k with
      | none => s
      | some w =>
        let i := b.warpno.findIdx (· == w.wid)
        let rd (off k : Nat) : List Byte := (s.peekVa (coreDie core) g.ctx (b.frame + off) k).getD []
        (s.modWarp k (fun w => { w with regs := regsOfRecord g.ceils (rd (frameReg + i * n) n),
                                        preds := predsOfRecord (rd (0x800 + 64 * i) 64) })).doResume k) s

/-- Place a block that is out on a core again: its warps enter their handlers, or the ROM default handler restores them,
once the pages it reads are there (13 R233, R320). The barriers keep what their images do not hold (07 R155, R157). -/
def State.placeRestored (s : State) (bk core : Nat) : State :=
  match s.blk? bk with
  | none => s
  | some b =>
    match tget s.grids b.grid with
    | none => s
    | some g =>
      let bars := b.bars.map (fun x => (x.1, { BarSt.init with clk := x.2.clk, doneClk := x.2.doneClk, swap := x.2.swap,
                                                                exec := x.2.exec, need := x.2.need, swapping := x.2.swapping }))
      let b' := { b with core := core, state := .restoring, scratch := [], shadow := [], tiles := [], sclk := [], shClk := [], spoison := [],
                         shPoison := [], spans := [], shSpans := [], bars := bars, resumed := [], startAt := s.tsc }
      let addr : W64 := BitVec.ofNat 64 (b.frame + 1)
      let enter (w : Warp) : Warp := w.restored bk core g.ceils.length g.rec_.handler addr b.clk s.tsc
      let placed : State := { s.noteMove core with blocks := tput s.blocks bk b' }
      -- a travelling warp keeps its slot, which is its number (16 R277)
      let placed := b.saved.foldl (fun s x =>
        if g.rec_.travel && !b.isChild g then { s with warps := tput s.warps (warpKey core x.1) (enter x.2) } else s.placeWarp core (enter x.2)) placed
      if g.rec_.handler != 0 then placed
      else
        match s.vaFault (coreDie core) g.ctx needRD (frameRegions b g) with
        | some (none, va) => s.frameAbsent core g.ctx faultKindLoad va
        | some (some c, _) => placed.doubleFault (((placed.warpsOf bk).map Prod.fst).headD 0) c 0
        | none =>
          ((frameRegions b g).foldl (fun s r => s.readsOut (coreDie core) g.ctx r.1 r.2) placed).romRestore bk core b' g

end Sys2Proof.Machine
end

