-- ==== Sys2Proof/Machine/Ops.lean ====
section
/-! DEFINITION. Taking a trap and returning from one, and the issue of one instruction by one group: decode checks,
lookahead, the effect, and the step to the successor (01 R16, R19, R24 to R27, R44; 03 R50, R63, R65, R66; 04 R75 to
R77, R83; 13 R219 to R225, R320). -/

namespace Sys2Proof.Machine

/- Waits and draining (13 R219; 07 R157). -/

def OpKind.waits (k : OpKind) : Bool :=
  match k with
  | .waita .. | .qpop _ | .mmrd _ => true
  | .value | .loaded | .load .. | .pref _ | .atomic .. => false

def Op.over (o : Op) : Bool := o.done || o.fault.isSome

/-- The warp is parked on a page fault of this load (10 R209). -/
def Warp.parksFor (w : Warp) (o : Op) : Bool :=
  match o.kind, w.wait with
  | .load .., .parked _ _ _ _ _ _ id => id == o.id
  | _, _ => false

/-- WATCHDOG is pending and ends the wait of this instruction (13 R227). -/
def Warp.timedOut (w : Warp) (o : Op) : Bool := !o.over && o.kind.waits && w.async.any (fun x => x.1 == .watchdog)

/-- A long-latency instruction whose wait an asynchronous trap ends without effect: WAITA, a load whose page fault parks its
warp, and under WATCHDOG each instruction that waits (07 R157; 10 R209; 13 R227). -/
def Warp.cancellable (w : Warp) (o : Op) : Bool :=
  (match o.kind with | .waita .. => true | _ => false) || w.parksFor o || w.timedOut o

/-- The head of a virtual queue is guarded by a slot that no GSET has resolved (08 R182). -/
def Block.headHeld (b : Block) : Bool :=
  match b.vq with
  | o :: _ => match o.guard with | some g => (nth b.gslots g none).isNone | none => false
  | [] => false

/-- An MMRD whose operation waits behind an unresolved guarded head stays with its warp, which is pre-empted all the same
(13 R230). -/
def Block.keeps (b : Block) (o : Op) : Bool :=
  match o.kind with
  | .mmrd e => b.headHeld && b.vq.any (fun x => x.id == e)
  | .value | .loaded | .load .. | .pref _ | .atomic .. | .waita .. | .qpop _ => false

/-- A wait that is part of an issued instruction and must end before a trap. -/
def WWait.mustEnd (x : WWait) : Bool :=
  match x with
  | .cmprs _ | .wb .. | .isync => true
  | .none | .nap _ | .board _ | .blockLimit | .parked .. | .yielded | .resumed => false

/-- Every issued instruction has completed or is reported as a fault, but for those that a condition names. -/
def Warp.drained (w : Warp) (but : Op → Bool) : Bool := w.ops.all (fun o => o.over || but o) && !w.wait.mustEnd && w.half.isNone

/-- A trap waits for the instructions issued before its trap point (13 R219 step 2): for an issued instruction x, a later one
that waits is not waited for, and runs again. -/
def Warp.drainedFor (w : Warp) (x : Op) : Bool :=
  w.drained (fun o => w.timedOut o || (x.id < o.id && (o.kind.waits || w.parksFor o)))

/-- An asynchronous cause waits for what its trap does not end or set aside (07 R157; 13 R230). -/
def Warp.drainedAsync (w : Warp) (b : Block) : Bool := w.drained (fun o => w.cancellable o || b.keeps o)

/-- A killed warp stops at once in a wait, and behind its engine operations (13 R226). -/
def Warp.killable (w : Warp) : Bool :=
  w.ops.all (fun o => o.over || o.kind.waits || w.parksFor o || w.wait == .cmprs o.id)
    && (match w.wait with
      | .wb .. | .isync => false
      | .none | .nap _ | .board _ | .cmprs _ | .blockLimit | .parked .. | .yielded | .resumed => true)

/-- Insert by code. -/
def lowestCause (l : List (Cause × W64)) : Option (Cause × W64) :=
  l.foldl (fun a x => match a with
    | none => some x
    | some y => if x.1.code < y.1.code then some x else some y) none

/-- A cause stands against the warp: an issued instruction's fault, or one raised at the boundary. -/
def Warp.stopped (w : Warp) : Bool := w.pend.isSome || w.ops.any (fun o => o.fault.isSome)

/-- The asynchronous cause the warp would take at this boundary (13 R224): none inside a handler, but for CONTEXT_KILL and
DEBUG_HALT, and inside a REP that goes on none but CONTEXT_KILL, and WATCHDOG, which ends a wait of one of its iterations
(03 R66; 13 R226, R227). Between the halves of a 16-byte store there is no boundary. -/
def Warp.asyncCause (w : Warp) : Option (Cause × W64) :=
  match w.async.find? (fun x => x.1 == .contextKill) with
  | some x => some x
  | none =>
    if w.half.isSome then none
    else if w.rep.isSome && !w.stopped then
      (if w.trap.isSome then none else w.async.find? (fun x => x.1 == .watchdog))
    else
      match w.async.find? (fun x => x.1 == .debugHalt) with
      | some x => some x
      | none =>
        if w.trap.isSome then none
        else
          match w.async.find? (fun x => x.1 == .preempt) with
          | some x => some x
          | none => lowestCause w.async

/-- Whether an engine operation named by number is still queued or admitted, and names a tile (08 R174). -/
def EOp.tile? (o : EOp) : Option Nat :=
  match o.kind with
  | .mma t .. => some t
  | .mmz t => some t
  | .mmrd t .. => some t
  | .mmwr t .. => some t
  | .mmld t .. => some t
  | .mmst t .. => some t
  | .cmprs .. => none
  | .job _ => none

def Block.eops (b : Block) : List EOp := b.adm ++ b.vq ++ b.hq

/-- Whether a thread's own wait is over. -/
def LWait.over (x : LWait) (b : Block) : Bool :=
  match x with
  | .none => true
  | .passed => true
  | .wsync _ => false
  | .bar n ph _ => (b.bar n).phase != ph
  | .tile t seq => !b.eops.any (fun o => o.tile? == some t && o.id < seq)

/-- A group is ready (01 R19): some thread of it does not wait, and its next instruction passes the waits of R25. -/
def Warp.groupReady (w : Warp) (b : Block) (e : Nat) : Bool :=
  let grp := w.issuers e
  (lanesOf grp).any (fun l => (nth w.lwait l .none).over b)
    && (match w.rep with | some r => r.entry == e | none => true)
    && (match w.half with | some h => h.1 == e | none => true)
    && !w.ops.any (fun o => !o.done && o.fault.isNone &&
        (lanesOf (grp &&& o.group)).any (fun l => decide (nth o.at_ l 0 + o.la < nth w.count l 0)))

/-- The entry and PC of what the warp would issue next: of a REP in progress, of the ready group with the lowest PC, or,
where none is ready, of the group with the lowest PC (13 R219, R222). -/
def Warp.nextGroup (w : Warp) (b : Block) : Nat × W64 :=
  let least (es : List Nat) : Option (Nat × W64) :=
    es.foldl (fun (a : Option (Nat × W64)) e =>
      match w.entryPc e, a with
      | some p, some x => if p.toNat < x.2.toNat then some (e, p) else some x
      | some p, none => some (e, p)
      | none, a => a) none
  match w.rep with
  | some r => (r.entry, r.base)
  | none => ((least (w.entries.filter (w.groupReady b))).getD ((least w.entries).getD (0, 0)))

/- Going back to a long-latency instruction that did not complete (13 R222, R225). -/

/-- An executed instruction that need not run again: a short-latency one, or one that has completed or stays in the window. -/
def Warp.clean (w : Warp) (keep : Op → Bool) (h : Hist) : Bool :=
  h.op == 0 || w.ops.all (fun x => x.id != h.op || (x.done && x.fault.isNone) || keep x)

/-- The executed order split at a long-latency instruction for some of its threads: what stays, and what these threads
executed after it. `seen` are those that have passed it so far. -/
def Warp.splitHist (w : Warp) (id : Nat) (m : Mask) (keep : Op → Bool) (seen : Mask) (l : List Hist) : List Hist × List Hist :=
  match l with
  | [] => ([], [])
  | h :: l =>
    let gone := h.group &&& seen
    let seen := if h.op == id then seen ||| (h.group &&& m) else seen
    let r := w.splitHist id m keep seen l
    let left := h.group &&& ~~~ seen
    (if left = 0 then r.1 else { h with group := left } :: r.1,
     if gone = 0 then r.2 else { h with group := gone, marked := w.clean keep h } :: r.2)

/-- The part of a replay that concerns some threads. -/
def replayOf (m : Mask) (l : List Hist) : List Hist := (l.map (fun h => { h with group := h.group &&& m })).filter (fun h => h.group != 0)

/-- The executed order after a long-latency instruction, for threads of its group: what they executed, and what a replay still
has to pass. -/
def Warp.after (w : Warp) (o : Op) (m : Mask) (keep : Op → Bool) : List Hist :=
  (w.splitHist o.id m keep 0 w.hist).2 ++ replayOf m w.replay

/-- One mark for each instruction: a REP and its instruction count once (03 R66). -/
def marksOf (l : List Hist) (sofar : Bool) : List Bool :=
  match l with
  | [] => []
  | h :: rest => if h.again then marksOf rest (sofar && h.marked) else (sofar && h.marked) :: marksOf rest true

/-- The instructions after a long-latency instruction, without the later iterations of its own REP. -/
def Warp.later (w : Warp) (o : Op) : List Hist :=
  match w.hist.find? (fun h => h.op == o.id) with
  | some h =>
    let l := w.after o o.group (fun _ => false)
    if h.again then (l.dropWhile (fun x => x.again)).drop 1 else l
  | none => []

/-- %twin: bit i for the instruction at distance i + 1 (13 R222). -/
def twinOf (l : List Bool) : W32 :=
  BitVec.ofNat 32 (((l.take 15).foldl (fun (a : Nat × Nat) (h : Bool) => (if h then a.1 + a.2 else a.1, a.2 * 2)) (0, 1)).1)

/-- Instructions that have faulted, or have not completed and do not stay in the window. -/
def Warp.unfinished (w : Warp) (keep : Op → Bool) : List Op := w.ops.filter (fun o => o.fault.isSome || (!o.over && !keep o))

/-- Threads of a long-latency instruction stand at it again; what they executed after it is recorded for the replay. -/
def Warp.sendBack (w : Warp) (o : Op) (m : Mask) (keep : Op → Bool) : Warp :=
  let w1 := w.regroup m (match o.rep with | some r => r.base | none => o.pc)
  let cut (r : RepSt) : RepSt := { r with grp := r.grp &&& ~~~ m }
  { w1 with count := allLanes.map (fun l => if has m l then nth o.at_ l 0 else nth w.count l 0),
            rep := (w.rep.map cut).filter (fun r => r.grp &&& w.live != 0),
            reps := w.reps.map cut ++ (match o.rep with | some r => [{ r with grp := m }] | none => []),
            hist := (w.splitHist o.id m keep 0 w.hist).1,
            replay := w.after o m keep ++ replayOf (~~~ m) w.replay }

/-- Every thread of instructions that did not complete, oldest first, stands at the oldest of its own again (13 R222, R225). -/
def Warp.rewind (w : Warp) (bad : List Op) (keep : Op → Bool) : Warp :=
  let r := bad.foldl (fun (a : Warp × Mask) o =>
    let m := o.group &&& w.live &&& ~~~ a.2
    (if m = 0 then a.1 else a.1.sendBack o m keep, a.2 ||| m)) (w, 0)
  { r.1 with ops := w.ops.filter (fun x => !bad.any (fun o => o.id == x.id)) }.nextRep

/-- A failure mark that a dropped cause had taken stands again (08 R171). -/
def Block.remark (b : Block) (t : Option Nat) (f : Cause × W64) : Block :=
  match t with
  | some t => if (tget b.marks t).isSome then b else { b with marks := tput b.marks t f }
  | none => b

/-- The marks of causes that a trap drops, all but that of one instruction. -/
def Block.remarkAll (b : Block) (w : Warp) (id : Nat) : Block :=
  let b := w.ops.foldl (fun b o => match o.fault with | some f => if o.id = id then b else b.remark o.mark f | none => b) b
  match w.pend with
  | some p => if id = 0 then b else b.remark p.mark (p.cause, p.addr)
  | none => b

/- Taking a trap. -/

/-- What the trap record says. -/
structure TrapIn where
  source : Nat
  cause : Cause
  pc : W64
  win : W32
  mask : Mask
  addr : W64
  iter : Nat
deriving DecidableEq, Repr

/-- The state of a warp in the handler: its control state is set aside, and every live thread joins entry 0 at the
handler (13 R220, R222). -/
def Warp.handlerEntry (w : Warp) (t : TrapIn) (handler : W64) (now : Nat) : Warp :=
  let live := w.live
  let ctl : Ctl := { pcs := w.pcs, lanes := w.lanes, cstack := w.cstack,
                     lwait := w.lwait.map (fun x => match x with
                       | .tile .. | .bar _ _ false => LWait.none
                       | .none | .bar _ _ true | .wsync _ | .passed => x),
                     wait := match w.wait with
                       | .board k => .board k
                       | .none | .nap _ | .cmprs _ | .wb .. | .isync | .blockLimit | .parked .. | .yielded | .resumed => .none,
                     rep := w.rep, reps := w.reps, ops := w.ops, hist := w.hist, replay := w.replay, count := w.count }
  { w with pcs := allLanes.map (fun l => if has live l then handler else w.pcAt l),
           lanes := allLanes.map (fun l => if has live l then .on 0 else w.laneAt l),
           cstack := List.replicate 32 [], lwait := List.replicate 32 .none, wait := .none, waitSince := now, rep := none, reps := [],
           ops := [], hist := [], replay := [], pre := [], inLoop := false, pend := none,
           trap := some { stamp := now, source := t.source, cause := t.cause.code, pc := t.pc, win := t.win, mask := t.mask, addr := t.addr, iter := t.iter,
                          ctl := ctl } }

/-- The wait that a trap ends without a handler: a nap counts as complete, a parked or held instruction issues again. -/
def Warp.endWait (w : Warp) : Warp :=
  { w with wait := match w.wait with
      | .board k => .board k
      | .cmprs o => .cmprs o
      | .wb l i => .wb l i
      | .isync => .isync
      | .none | .nap _ | .blockLimit | .parked .. | .yielded | .resumed => .none,
           pre := [], inLoop := false }

/-- The ROM default handler saves a warp's registers and predicates, and the warp yields; an absent page parks it, and it
goes on once the page is there (10 R209; 13 R225, R320). -/
def State.romSave (s : State) (k : Nat) (w : Warp) (b : Block) (g : Grid) : State :=
  let pieces := warpPieces b g w
  match s.vaFault (coreDie b.core) g.ctx needW (piecesOf b.frame pieces ++ [(b.frame + controlAt b w, 0x4000)]) with
  | some (none, va) => s.parkWarp b.core (k % 64) g.ctx faultKindStore 0 w.live (BitVec.ofNat 64 va) 0
  | some (some c, _) => s.doubleFault k c 0
  | none =>
    match s.pokeAll (coreDie b.core) g.ctx b.frame w.fullClk pieces with
    | some r => (r.1.modBlock w.blk (fun b => { b with clk := b.clk.join r.2 })).doYield k
    | none => s

/-- A warp in the ROM default handler of PREEMPT that has not saved its state yet, nothing of it waiting. -/
def Warp.romSaving (w : Warp) (b : Block) (g : Grid) : Bool :=
  g.rec_.handler == 0 && w.wait == .none && b.state == .preempting
    && (match w.trap with | some t => t.cause == 56 && t.addr.toNat % 2 == 0 | none => false)

/-- The ROM default handler (13 R320). -/
def State.romHandler (s : State) (k : Nat) (w : Warp) (b : Block) (g : Grid) (t : TrapIn) : State :=
  match t.cause with
  | .stackMismatch | .mateSwapped | .thermalLimit | .powerCap | .sensorDegraded | .boostEmpty | .arrivalSpill =>
    { s with warps := tput s.warps k w.endWait }
  | .breakpoint | .singleStep | .debugHalt => { s with warps := tput s.warps k { w.endWait with halted := true } }
  | .preempt =>
    let w' := { w.handlerEntry t 0 s.tsc with preds := w.preds }
    ({ s with warps := tput s.warps k w' }).romSave k w' b g
  | .badLength | .unimplOp | .badField | .fetchCross | .repMisuse | .shapeCeiling | .regRange | .badSlot | .featureOff
  | .privileged | .exitOutstanding | .trapInstr | .watchpoint | .badPath | .misaligned | .pageAbsent | .pageProtect
  | .scratchRange | .exchangeTarget | .atomicPath | .footprint | .jobMalformed | .layoutBad | .memoryError | .walkError
  | .queueMisuse | .accRange | .sparseMeta | .lookaheadRaw | .barNumber | .barMember | .barOverarrive | .boardSlot
  | .boardRepost | .boardRound | .splitHang | .wsyncMask | .burnDenied | .shuntDenied | .segmentMiss | .carryOverflow
  | .spillFull | .travelMode | .segmentMapBad | .replicaStale | .travelSync | .contextKill | .spawnEmpty | .mailboxFull
  | .fpException | .doubleFault | .watchdog =>
    let e := Event.mk' s g.ctx b.core 0x8A t.cause.code t.addr.toNat (t.pc.toNat % 2 ^ 48)
    (s.logEvent (coreDie b.core) e).endBlock k

/-- Enter the handler with a cause; DEBUG_HALT stops in the ROM debug monitor in place of the handler, and a pending
MATE_SWAPPED is dropped when PREEMPT is taken (13 R220, R223, R224, R320). -/
def State.enterTrap (s : State) (k : Nat) (w : Warp) (t : TrapIn) : State :=
  match (s.blk? w.blk).bind (fun b => (tget s.grids b.grid).map (fun g => (b, g))) with
  | none => s
  | some (b, g) =>
    let async := w.async.filter (fun x => x.1 != t.cause && !(t.cause == .preempt && x.1 == .mateSwapped))
    let w := { w with async := async, pend := none, hang := 0 }
    if t.cause == .debugHalt then { s with warps := tput s.warps k { w.endWait with halted := true } }
    else if g.rec_.handler = 0 then s.romHandler k w b g t
    else { s with warps := tput s.warps k (w.handlerEntry t g.rec_.handler s.tsc) }

/-- Enter the handler with the asynchronous cause of the boundary: what has not completed and does not stay goes back, and the
causes that stood are dropped (07 R157; 13 R224). -/
def State.asyncTrap (s : State) (k : Nat) (w : Warp) (b : Block) : State :=
  match w.asyncCause with
  | none => s
  | some (c, addr) =>
    let w' := { w with pend := none }.rewind (w.unfinished b.keeps) b.keeps
    let f := w'.nextGroup b
    (s.modBlock w.blk (fun b => b.remarkAll w (2 ^ 64))).enterTrap k w'
      { source := b.core, cause := c, pc := f.2, win := 0, mask := w'.issuers f.1, addr := addr,
        iter := match w'.rep with | some r => r.iter | none => 0 }

/-- Enter the handler with the fault of an issued instruction; the others that have not completed go back (13 R222). -/
def State.faultTrap (s : State) (k : Nat) (w : Warp) (b : Block) (o : Op) (f : Cause × W64) : State :=
  (s.modBlock w.blk (fun b => b.remarkAll w o.id)).enterTrap k ({ w with pend := none }.rewind (w.unfinished (fun _ => false)) (fun _ => false))
    { source := b.core, cause := f.1, pc := match o.rep with | some r => r.base | none => o.pc,
      win := twinOf (marksOf (w.later o) true), mask := o.group, addr := f.2,
      iter := match o.rep with | some r => r.iter | none => 0 }

/-- Enter the handler with the cause raised at the boundary. -/
def State.pendTrap (s : State) (k : Nat) (w : Warp) (b : Block) (p : Pend) : State :=
  let w' := match p.next with
    | none => w
    | some n =>
      match w.laneAt ((lowest p.group).getD 0) with
      | .on e => w.goto e (fun l => if has p.group l then n else w.pcAt l)
      | .held | .idle | .vacant => w
  s.enterTrap k w' { source := b.core, cause := p.cause, pc := p.next.getD p.pc, win := 0, mask := p.mask, addr := p.addr, iter := p.iter }

/-- Take the trap that stands against a warp, once it has drained: CONTEXT_KILL, DEBUG_HALT, then the oldest faulting
instruction, then the cause raised at the boundary, then the asynchronous causes (13 R219, R224). An older wait that WATCHDOG
ends comes before a fault and before a cause that has no effect, which arise again after TRET (13 R227). -/
def State.takeTrap (s : State) (k : Nat) : State :=
  match tget s.warps k with
  | none => s
  | some w =>
    match (s.blk? w.blk).bind (fun b => (tget s.grids b.grid).map (fun g => (b, g))) with
    | none => s
    | some (b, g) =>
      let first := (w.asyncCause.map Prod.fst).getD .doubleFault
      if first == .contextKill then if w.killable then s.stopWarp k else s
      else if first == .debugHalt then
        if w.drainedAsync b then
          s.enterTrap k w { source := b.core, cause := .debugHalt, pc := 0, win := 0, mask := 0, addr := 0, iter := 0 }
        else s
      else
        match w.ops.find? (fun o => o.fault.isSome), w.pend with
        | some o, _ =>
          let f := o.fault.getD (.memoryError, 0)
          if !w.drainedFor o then s
          else if w.trap.isSome then s.doubleFault k f.1 o.pc
          else if w.ops.any (fun x => w.timedOut x && x.id < o.id) then s.asyncTrap k w b
          else s.faultTrap k w b o f
        | none, some p =>
          if !w.drained w.timedOut then s
          else if w.trap.isSome then s.doubleFault k p.cause p.pc
          else if p.next.isNone && w.ops.any w.timedOut then s.asyncTrap k w b
          else s.pendTrap k w b p
        | none, none =>
          if w.romSaving b g then s.romSave k w b g
          else if w.drainedAsync b then s.asyncTrap k w b
          else s

/- The issuing group. -/

/-- What an instruction sees of its issuing group. -/
structure View where
  core : Nat
  slot : Nat
  key : Nat
  w : Warp
  bk : Nat
  b : Block
  gk : Nat
  g : Grid
  entry : Nat
  pc : W64
  next : W64
  word : Nat
  grp : Mask
  act : Mask
deriving DecidableEq, Repr

def State.view (s : State) (h : Hdr) : Option View :=
  (s.warp? s.cur.core s.cur.slot).bind (fun w =>
    (s.blk? w.blk).bind (fun b =>
      (tget s.grids b.grid).map (fun g =>
        let grp := w.issuers s.cur.entry
        { core := s.cur.core, slot := s.cur.slot, key := warpKey s.cur.core s.cur.slot, w := w, bk := w.blk, b := b,
          gk := b.grid, g := g, entry := s.cur.entry, pc := s.cur.pc, next := s.cur.next, word := s.cur.word, grp := grp,
          act := match w.rep with
            | some r => r.act &&& grp
            | none => w.guarded h grp })))

def View.die (v : View) : Nat := coreDie v.core
def View.lanes (v : View) : List Nat := lanesOf v.act
def View.low (v : View) : Nat := (lowest v.act).getD 0

/-- A whole write: the group holds every thread that is not finished-idle, and the guard has one value in it
(04 R76). -/
def View.whole (v : View) : Bool := v.w.live &&& ~~~ v.grp == 0 && (v.act == 0 || v.act == v.grp)

/-- What an instruction needs of the launch, the warp and its registers (03 R63). -/
structure Req where
  feats : List Nat := [0]
  noTravel : Bool := false
  reads : List Nat := []
  writes : List (Nat × TagRule) := []
  /-- predicates written -/
  wpreds : List Nat := []
  sat : Bool := false
  maps : List Nat := []
  bad : Bool := false
  badSlot : Bool := false
  tile : Option Nat := none
  bar : Option Nat := none
  /-- registers with no write still pending by any thread (07 R133) -/
  settled : List Nat := []
  /-- a memory write, barrier arrival or exit, for SPLIT_HANG (01 R44) -/
  progress : Bool := false

/-- The tag a write would take (04 R76, R77). -/
def View.tagOf (v : View) (sat : Bool) (r : TagRule) : Tag := if !v.whole || sat then .g else v.w.ruleTag r

def View.ceil (v : View) (n : Nat) : Tag := nth v.g.ceils n .u

/-- The first decode cause of the launch's context, in the order of 03 R63. -/
def View.check (v : View) (r : Req) : Option Cause :=
  let n := v.g.ceils.length
  if r.bad || r.maps.any (fun b => (List.range 8).any (fun i => decide (b + i < n) && v.ceil (b + i) != .u)) then some .badField
  else if r.feats.any (fun f => !v.g.rec_.feature f) then some .featureOff
  else if r.noTravel && v.g.rec_.travel then some .travelMode
  else if r.reads.any (fun x => n ≤ x) || r.writes.any (fun x => n ≤ x.1) then some .regRange
  else if r.writes.any (fun x => !(v.tagOf r.sat x.2).le (v.ceil x.1)) then some .shapeCeiling
  else if r.badSlot then some .badSlot
  else if r.tile.any (fun t => poolAcc v.b.poolw / 8 ≤ t) then some .accRange
  else if r.bar.any (fun b => 128 ≤ b || (112 ≤ b && !v.g.rec_.coop)) then some .barNumber
  else none

/-- A lookahead wait (01 R25), or a SHFL source with a write still pending (07 R133). -/
def View.lookWait (v : View) (r : Req) : Bool :=
  v.w.ops.any (fun o => !o.done && o.fault.isNone &&
    ((lanesOf (v.grp &&& o.group)).any (fun l => decide (nth o.at_ l 0 + o.la < nth v.w.count l 0))
      || r.settled.any (fun x => o.dst.any (fun d => d.1 == x))))

/-- LOOKAHEAD_RAW in some active lane in which the earlier instruction writes (01 R26; 03 R50; log entry 59). -/
def View.raw (v : View) (r : Req) : Bool :=
  v.w.ops.any (fun o =>
    o.dst.any (fun d => r.reads.contains d.1) &&
    (lanesOf (v.act &&& o.act)).any (fun l =>
      decide (nth o.at_ l 0 < nth v.w.count l 0) && decide (nth v.w.count l 0 ≤ nth o.at_ l 0 + o.la)))

/-- The warp issues nothing: it waits, is stopped, or stops for a trap (01 R19; 13 R219). -/
def Warp.blocked (w : Warp) : Bool :=
  w.halted || w.wait != .none || w.pend.isSome || (w.half.isNone && w.ops.any (fun o => o.fault.isSome))

/-- What an instruction did. -/
inductive Eff where
  /-- completed: the group goes to the successor -/
  | done (s : State)
  /-- the moved lanes go to these PCs, the others stay at the instruction -/
  | jump (s : State) (moved : Mask) (pcs : List W64)
  /-- a synchronous or decode cause: no effect -/
  | raise (c : Cause) (mask : Mask) (addr : W64)
  /-- the same, by a tile's failure mark, which goes with the trap (08 R171) -/
  | fail (tile : Nat) (c : Cause) (mask : Mask) (addr : W64)
  /-- completed, and then a cause with resume kind next -/
  | after (s : State) (c : Cause) (mask : Mask) (addr : W64)
  /-- not ready: it issues again -/
  | hold
  /-- not issued, but something of the machine changed (a parked fault) -/
  | park (s : State)
  /-- the control state was replaced (TRET, RESUME) -/
  | stay (s : State)

/-- Raise a cause at the group's instruction; a tile's failure mark that it reports is taken away (08 R171; 13 R219). -/
def State.raiseBy (s : State) (v : View) (c : Cause) (mask : Mask) (addr : W64) (next : Option W64) (mark : Option Nat) : State :=
  let p : Pend := { cause := c, pc := match v.w.rep with | some r => r.base | none => v.pc, group := v.grp, mask := mask,
                    addr := addr, iter := match v.w.rep with | some r => r.iter | none => 0, next := next, mark := mark }
  let s := match mark with
    | some t => s.modBlock v.bk (fun b => { b with marks := tdel b.marks t })
    | none => s
  (s.modWarp v.key (fun w => { w with pend := some p })).takeTrap v.key

def State.raise (s : State) (v : View) (c : Cause) (mask : Mask) (addr : W64) (next : Option W64) : State :=
  s.raiseBy v c mask addr next none

/-- Drop records that no window and no replay needs any more. -/
def Warp.prune (w : Warp) : Warp :=
  let live := w.live
  let inWin (o : Op) : Bool := (lanesOf (o.group &&& live)).any (fun l => decide (nth w.count l 0 ≤ nth o.at_ l 0 + o.la))
  let ops := w.ops.filter (fun o => !o.done || inWin o)
  { w with ops := ops, hist := w.hist.dropWhile (fun h => !ops.any (fun o => !o.done && o.id == h.op)) }

/-- Whether the issuing entry alone makes progress, since which window (01 R44). -/
def Warp.trackHang (w : Warp) (entry : Nat) (progress : Bool) (window : Nat) : Warp :=
  if w.groups < 2 then { w with hang := 0 }
  else if w.hang != 0 && w.hangGroup == entry && !progress then w
  else { w with hang := if progress then 0 else window + 1, hangGroup := entry }

/-- A REP has iterations to go, so its group stays at the REP (03 R66). -/
def View.again (v : View) : Bool := match v.w.rep with | some p => decide (p.iter + 1 < p.cnt) | none => false

/-- Where each lane of the group stands afterwards. -/
def View.nexts (v : View) (w : Warp) (moved : Mask) (pcs : Nat → W64) : List W64 :=
  allLanes.map (fun l => if v.again || !has v.grp l then w.pcAt l else if has moved l then pcs l else v.pc)

/-- The executed order takes the instruction, and the replay drops what it overtakes (13 R222, R225). -/
def View.recordOn (v : View) (r : Req) (next : List W64) (issue : Nat) (w : Warp) : Warp :=
  let opid := match w.ops.getLast? with
    | some o => if v.w.ops.any (fun x => x.id == o.id) then 0 else o.id
    | none => 0
  let hist : Hist := { pc := v.pc, group := v.grp, next := next, op := opid,
                       writes := r.writes.map (fun x => (x.1, v.act)) ++ r.wpreds.map (fun p => (512 + p, v.act)), marked := false, again := v.again }
  let keepHist := w.ops.any (fun o => !o.done)
  let replay := (w.replay.map (fun h => if h.pc == v.pc && !h.marked then { h with group := h.group &&& ~~~ v.grp } else h)).filter
    (fun h => h.group != 0)
  { w with hist := if keepHist then w.hist ++ [hist] else [], replay := replay, lastIssue := issue, missed := 0,
           isync := if w.isync == some issue then w.isync else none }

/-- The group goes to its new PCs and counts the instruction, or the REP goes to its next iteration. -/
def View.moveOn (v : View) (moved : Mask) (next : List W64) (w : Warp) : Warp :=
  if v.again then { w with rep := w.rep.map (fun p => { p with iter := p.iter + 1 }) }
  else
    let count := allLanes.map (fun l => nth w.count l 0 + (if has (v.grp &&& moved) l then 1 else 0))
    let w1 := { w with rep := none, count := count }
    (if v.grp &&& w.groupOf v.entry = 0 then w1.reenter else w1.goto v.entry (fun l => nth next l 0)).nextRep

/-- A debugger single-steps the grid (13 R223). -/
def State.steps (s : State) (v : View) : Bool :=
  match tget s.ctxs v.g.ctx with
  | some c => c.dbg && c.stepping.contains v.gk
  | none => false

/-- Single-stepping stops the warp after every instruction outside a handler (13 R223). -/
def State.stepStop (s : State) (v : View) (w : Warp) : Warp :=
  if s.steps v && !v.again && w.trap.isNone then w.addAsync .singleStep 0 else w

/-- The step to the successor: counts, PCs and the split table, the executed order, and single-stepping. -/
def State.advance (s : State) (v : View) (r : Req) (moved : Mask) (pcs : Nat → W64) : State :=
  match tget s.warps v.key with
  | none => s
  | some w =>
    let next := v.nexts w moved pcs
    let w1 := v.moveOn moved next (v.recordOn r next s.issueCount w)
    let w2 := (w1.trackHang v.entry (r.progress && v.act != 0) (s.col (coreColumn v.core)).window).prune
    { s with warps := tput s.warps v.key (s.stepStop v w2), issueCount := s.issueCount + 1 }

/-- The replay skips an instruction that had completed: the first recorded entry of this PC, when it is marked
(13 R225). -/
def View.skips (v : View) : Option Hist :=
  (v.w.replay.find? (fun h => h.pc == v.pc && h.group &&& v.grp != 0)).filter (fun h => h.marked)

/-- The skipped instruction keeps its place in the executed order. -/
def State.skip (s : State) (v : View) (h : Hist) : State :=
  let m := h.group &&& v.grp
  let rec drop (l : List Hist) : List Hist :=
    match l with
    | [] => []
    | x :: l => if x == h then (if h.group &&& ~~~ m == 0 then l else { x with group := h.group &&& ~~~ m } :: l) else x :: drop l
  let w := { v.w with replay := drop v.w.replay, isync := none, hist := if v.w.ops.any (fun o => !o.done) then v.w.hist ++ [{ h with group := m }] else [] }
  let w := if v.again then { w with rep := w.rep.map (fun p => { p with iter := p.iter + 1 }) }
    else
      (({ w with rep := none, count := allLanes.map (fun l => nth w.count l 0 + (if has m l then 1 else 0)) }).goto v.entry
        (fun l => if has m l then nth h.next l 0 else w.pcAt l)).nextRep
  { s with warps := tput s.warps v.key w, issueCount := s.issueCount + 1 }

/-- What an effect makes of the state. -/
def State.finish (s : State) (v : View) (r : Req) (e : Eff) : State :=
  match e with
  | .raise c m a => s.raise v c m a none
  | .fail t c m a => s.raiseBy v c m a none (some t)
  | .after s' c m a => s'.raise v c m a (some v.next)
  | .hold => if v.w.asyncCause.isSome then s.takeTrap v.key else s
  | .park s' => if v.w.asyncCause.isSome then s.takeTrap v.key else s'
  | .done s' =>
    if v.w.asyncCause.isSome then s.takeTrap v.key
    else (s'.advance v r (BitVec.allOnes 32) (fun _ => v.next)).retireWarp v.key
  | .jump s' m pcs =>
    if v.w.asyncCause.isSome then s.takeTrap v.key
    else (s'.advance v r m (fun l => nth pcs l 0)).retireWarp v.key
  | .stay s' => if v.w.asyncCause.isSome then s.takeTrap v.key else { s' with issueCount := s'.issueCount + 1 }

/-- CONTEXT_KILL and DEBUG_HALT come before every cause of the instruction (13 R224). -/
def Warp.killFirst (w : Warp) : Bool :=
  match w.asyncCause with
  | some (.contextKill, _) => true
  | some (.debugHalt, _) => true
  | _ => false

/-- The instruction is issued and its effect decides: the group stands on its entry, nothing of the warp waits, no
decode cause, no lookahead wait and no LOOKAHEAD_RAW applies. -/
def View.goes (v : View) (r : Req) : Bool :=
  v.grp != 0 && !v.w.blocked && !v.w.killFirst && v.skips.isNone && (v.check r).isNone && !v.lookWait r && !v.raw r

/-- Issue an instruction by the group of the issuing context. -/
def issue (s : State) (h : Hdr) (rq : View → Req) (eff : View → State → Eff) : Out :=
  match s.view h with
  | none => .fault .noWarp
  | some v =>
    if v.grp == 0 || v.w.blocked then .next s
    else if v.w.killFirst then .next (s.takeTrap v.key)
    else
      match v.skips with
      | some x => .next (s.skip v x)
      | none =>
        match v.check (rq v) with
        | some c => .next (s.raise v c v.grp 0 none)
        | none =>
          if v.lookWait (rq v) then .next s
          else if v.raw (rq v) then .next (s.raise v .lookaheadRaw v.grp 0 none)
          else .next (s.finish v (rq v) (eff v s))

/- Writes. -/

/-- Lanes of a register, or of predicate p as 512 + p, that a skipped later instruction has written (13 R225). -/
def Warp.laterWrites (w : Warp) (d : Nat) : Mask :=
  w.replay.foldl (fun m h => if h.marked then h.writes.foldl (fun m x => if x.1 == d then m ||| (x.2 &&& h.group) else m) m else m) 0

/-- Write the active lanes of a register (04 R75, R76). -/
def View.put (v : View) (sat : Bool) (w : Warp) (d : Nat) (rule : TagRule) (vals : List W32) : Warp :=
  let act := v.act &&& ~~~ w.laterWrites d
  let w := w.overtake d act
  let plain := v.whole && act == v.act && !sat
  { w with regs := lput w.regs d (.u 0) (fun old => old.write plain rule (v.w.ruleTag rule) act vals) }

/-- Write one register in the state. -/
def View.write (v : View) (s : State) (d : W9) (rule : TagRule) (vals : List W32) : State :=
  s.modWarp v.key (fun w => v.put false w d.toNat rule vals)

/-- The same under .sat, whose writes take tag G (04 R76). -/
def View.writeSat (v : View) (s : State) (sat : Bool) (d : W9) (rule : TagRule) (vals : List W32) : State :=
  s.modWarp v.key (fun w => v.put sat w d.toNat rule vals)

/-- Write a pair, half by half. -/
def View.write64 (v : View) (s : State) (sat : Bool) (d : W9) (rule : TagRule) (vals : List W64) : State :=
  (v.writeSat (v.writeSat s sat d rule (loWords vals)) sat (d + 1) rule (hiWords vals))

/-- Write the active lanes of a predicate. -/
def View.putPred (v : View) (w : Warp) (p : Nat) (vals : Nat → Bool) : Warp :=
  let act := v.act &&& ~~~ w.laterWrites (512 + p)
  { w with preds := lput w.preds p 0 (fun old => (old &&& ~~~ act) ||| (act &&& maskOf vals)) }

def View.writePred (v : View) (s : State) (p : W4) (vals : Nat → Bool) : State :=
  s.modWarp v.key (fun w => v.putPred w p.toNat vals)

/-- Flags arise in the warp; with FPTRAP and %fen FP_EXCEPTION becomes pending (04 R83). -/
def Warp.raiseFlags (w : Warp) (fptrap : Bool) (f : FFlags) : Warp :=
  let w' := { w with fflags := w.fflags ||| f }
  if fptrap && f &&& w.fen != 0 then w'.addAsync .fpException 0 else w'

def View.flags (v : View) (s : State) (f : List FFlags) : State :=
  let all := (v.lanes.map (fun l => nth f l 0)).foldl (· ||| ·) 0
  s.modWarp v.key (fun w => w.raiseFlags (v.g.rec_.flag 3) all)

/-- Per-lane values of an instruction. -/
def perLane {α : Type} (f : Nat → α) : List α := allLanes.map f

/- Long-latency instructions (01 R24 to R27). -/

/-- Enter an instruction in the warp's window. -/
def View.launchOp (v : View) (s : State) (h : Hdr) (kind : OpKind) (dst : List (Nat × Tag)) (res : List (List W32)) (fl : FFlags) : State :=
  let o : Op := { id := s.nextKey, kind := kind, pc := v.pc, group := v.grp, act := v.act, la := h.la.toNat, since := s.tsc,
                  at_ := v.w.count, dst := dst, whole := v.whole, res := res,
                  sup := dst.map (fun d => (d.1, v.w.laterWrites d.1)), flags := fl, gen := (s.die v.die).gen, done := false,
                  fault := none, mark := none, rep := v.w.rep }
  { (s.modWarp v.key (fun w =>
      let w := dst.foldl (fun w d => w.overtake d.1 v.act) w
      { w with ops := w.ops ++ [o] })) with nextKey := s.nextKey + 1 }

/-- Its results are written, but for the lanes a later write has overtaken, and its flags arise (01 R25, R27;
04 R83). -/
def Warp.completeOp (w : Warp) (fptrap : Bool) (o : Op) (res : List (List W32)) : Warp :=
  let gone (d : Nat) : Mask := o.sup.foldl (fun m x => if x.1 == d then m ||| x.2 else m) 0
  let w := (o.dst.zip res).foldl (fun w x =>
    let d := x.1.1
    let act := o.act &&& ~~~ gone d
    let tag := if o.whole && act == o.act then x.1.2 else Tag.g
    { w with regs := lput w.regs d (.u 0) (fun old => old.write (o.whole && act == o.act) .g tag act x.2) }) w
  let w := { w with ops := w.ops.map (fun (x : Op) => if x.id == o.id then { x with done := true, res := res } else x) }
  (w.raiseFlags fptrap o.flags).prune

def State.completeOp (s : State) (k : Nat) (o : Op) (res : List (List W32)) : State :=
  match tget s.warps k with
  | none => s
  | some w =>
    let fp := match (s.blk? w.blk).bind (fun b => tget s.grids b.grid) with | some g => g.rec_.flag 3 | none => false
    { s with warps := tput s.warps k (w.completeOp fp o res) }

/-- Threads whose replay has still to pass an instruction that stayed in the window. -/
def ahead (id : Nat) (replay : List Hist) : Mask := (replay.filter (fun h => h.op == id && h.marked)).foldl (fun m h => m ||| h.group) 0

/-- An issued instruction is reported as a fault, with the tile whose mark it reports (13 R219). For threads whose replay has
still to pass it, it runs again instead. -/
def failIn (ops : List Op) (replay : List Hist) (id : Nat) (f : Cause × W64) (mark : Option Nat) : List Op × List Hist :=
  let m := ahead id replay
  (ops.filterMap (fun o =>
      if o.id != id then some o
      else if m != 0 && o.group &&& ~~~ m == 0 then none
      else some { o with fault := some f, mark := mark, group := o.group &&& ~~~ m, act := o.act &&& ~~~ m }),
   replay.map (fun h => if h.op == id then { h with marked := false } else h))

/-- Whether the fault of an instruction is to be taken, by some of its threads. -/
def failsNow (ops : List Op) (replay : List Hist) (id : Nat) : Bool :=
  ops.any (fun o => o.id == id && (ahead id replay == 0 || o.group &&& ~~~ ahead id replay != 0))

/-- The warp's issued instruction fails, with the tile whose mark it reports. -/
def Warp.failOp (w : Warp) (id : Nat) (f : Cause × W64) (mark : Option Nat) : Warp :=
  let r := failIn w.ops w.replay id f mark
  { w with ops := r.1, replay := r.2 }

/-- Report an issued instruction as a fault (13 R219). -/
def State.faultOp (s : State) (k : Nat) (id : Nat) (c : Cause) (addr : W64) : State :=
  (s.modWarp k (fun w => w.failOp id (c, addr) none)).takeTrap k

/-- A load or atomic of the threads that has not been served yet. -/
def OpKind.pending (k : OpKind) : Bool :=
  match k with
  | .load .. => true
  | .atomic _ _ n => n != 0
  | .value | .loaded | .pref _ | .waita .. | .qpop _ | .mmrd _ => false

def Warp.unserved (w : Warp) (m : Mask) : Bool := w.ops.any (fun o => !o.over && o.group &&& m != 0 && o.kind.pending)

def Warp.op? (w : Warp) (id : Nat) : Option Op := w.ops.find? (fun o => o.id == id && !o.over)

end Sys2Proof.Machine
end

