-- ==== Sys2Proof/Machine/Fetch.lean ====
section
/-! DEFINITION. Choosing the warp and group that issue, fetching and decoding its instruction, and parking a warp on a
page fault (01 R16, R19, R20; 03 R47, R48, R63, R66; 07 R126, R319; 10 R209 to R211). -/

namespace Sys2Proof.Machine

/- Fetch. -/

inductive FetchRes where
  | bytes (bs : List Byte)
  | absent
  | bad (c : Cause) (addr : W64)

/-- The handler of a travel launch is fetched through the handler buffer (16 R276). -/
def Warp.viaHandler (w : Warp) (g : Grid) : Bool := w.trap.isSome && g.rec_.travel

/-- The segment that a core pins holds the physical line of code (16 R263). -/
def State.pinned (s : State) (core line : Nat) : Bool :=
  match (s.core core).replica with
  | none => false
  | some (gk, seg) =>
    match (tget s.grids gk).bind (fun g => (g.segs[seg]?).map (fun x => (g, x))) with
    | none => false
    | some (g, x) => (List.range (x.len / 128 + 1)).any (fun i =>
        match s.xlat (.core core) g.ctx (vbits x.base + 128 * i) needX with
        | .ok pa => lineOf pa == line
        | .absent | .protect | .walkErr => false)

/-- A line enters a store of so many lines; when it is full, another line, which the manual does not name, goes. -/
def storeLine (cap : Nat) (t : Tbl (List Byte)) (keep : Nat → Bool) (free line : Nat) (bs : List Byte) : Tbl (List Byte) :=
  let loose := (t.map Prod.fst).filter (fun l => !keep l)
  let t := if t.length < cap then t else tdel t (nth loose (free % (max 1 loose.length)) 0)
  tput t line bs

/-- A line of code, read for a context, enters the instruction store of 128 KiB, or the handler buffer of 8 KiB (01 R10; 16
R276; 20 R297). -/
def State.fillCode (s : State) (core cx line : Nat) (handler : Bool) : State :=
  let bs := s.peek (coreDie core) (line * 128) 128
  let free := Config.freeNat s.fresh
  (s.readOut (coreDie core) cx (line * 128)).modCore core (fun c =>
    if handler then { c with hbuf := storeLine 64 c.hbuf (fun _ => false) free line bs }
    else { c with istore := storeLine 1024 c.istore (s.pinned core) free line bs })

/-- A byte of the loop buffer of a partition (07 R319). -/
def LoopBuf.byte? (b : LoopBuf) (cx a : Nat) : Option Byte := if b.ctx == cx && b.lo ≤ a then b.bytes[a - b.lo]? else none

/-- A byte of code that a warp holds in its loop buffer or as a prefetched word (07 R319). -/
def State.heldByte (s : State) (core slot cx : Nat) (w : Warp) (a : Nat) : Option Byte :=
  match (if w.inLoop then (nth (s.core core).loops (slot % 4) none).bind (fun b => b.byte? cx a) else none) with
  | some x => some x
  | none => tget w.pre a

/-- The bytes of up to 16 from pc within its fetch block: loop-buffer and prefetched words first, then the instruction
store, which takes the lines it lacks from the die store (01 R10; 07 R319; 10 R211). -/
def State.fetchBytes (s : State) (core slot : Nat) (g : Grid) (w : Warp) (pc : W64) : FetchRes × State :=
  let die := coreDie core
  let at_ : Asker := .part core (slot % 4)
  let cx := g.ctx
  let a := vbits pc
  let n := min 16 (32 - a % 32)
  if (List.range n).all (fun i => (s.heldByte core slot cx w (a + i)).isSome) then
    (.bytes ((List.range n).map (fun i => (s.heldByte core slot cx w (a + i)).getD 0)), s)
  else
    match s.xlat at_ cx a needX with
    | .absent => (.absent, s)
    | .protect => (.bad .pageProtect pc, s)
    | .walkErr => (.bad .walkError pc, s)
    | .ok pa =>
      let store (s : State) : Tbl (List Byte) := if w.viaHandler g then (s.core core).hbuf else (s.core core).istore
      let s := s.fillTlb at_ cx a
      let s := match tget (store s) (lineOf pa) with
        | some _ => s
        | none => s.fillCode core cx (lineOf pa) (w.viaHandler g)
      match s.poisonIn die pa n with
      | some p => (.bad .memoryError (pc + BitVec.ofNat 64 (p - pa)), s)
      | none =>
        let line := (tget (store s) (lineOf pa)).getD []
        (.bytes ((List.range n).map (fun i => (s.heldByte core slot cx w (a + i)).getD (nth line ((pa + i) % 128) 0))), s)

/-- A byte of code as the instruction store holds it. -/
def State.codeByte (s : State) (core slot cx a : Nat) : Option Byte :=
  match s.xlat (.part core (slot % 4)) cx a needX with
  | .ok pa => (tget (s.core core).istore (lineOf pa)).map (fun l => nth l (pa % 128) 0)
  | .absent | .protect | .walkErr => none

/-- The address after n consecutive instructions from a; none where a word is not in the instruction store. -/
def State.codeEnd (s : State) (core slot cx a : Nat) (n : Nat) : Option Nat :=
  match n with
  | 0 => some a
  | n + 1 =>
    ((List.range 4).mapM (fun i => s.codeByte core slot cx (a + i))).bind (fun bs =>
      s.codeEnd core slot cx (vbits (seqNext (BitVec.ofNat 64 a) (wordBytes (BitVec.ofNat 128 (bitsOfBytes bs))))) n)

/-- Warps of a partition leave its loop buffer. -/
def State.leaveLoop (s : State) (core quarter : Nat) : State :=
  { s with warps := s.warps.map (fun x => if x.1 / 64 == core && x.1 % 4 == quarter then (x.1, { x.2 with inLoop := false }) else x) }

/-- A partition captures up to 32 consecutive instructions while a warp of it runs them, but not between a warp's ISYNC and its
next instruction (07 R129, R319). -/
def State.capture (s : State) (core slot lo n : Nat) : State :=
  match s.warp? core slot with
  | none => s
  | some w =>
    match (s.blk? w.blk).bind (fun b => (tget s.grids b.grid).map (fun g => (b, g))) with
    | none => s
    | some (b, g) =>
      match s.codeEnd core slot g.ctx lo (min n 32) with
      | none => s
      | some hi =>
        let pc := vbits (w.nextGroup b).2
        match (List.range (hi - lo)).mapM (fun i => s.codeByte core slot g.ctx (lo + i)) with
        | none => s
        | some bs =>
          if w.viaHandler g || w.isync.isSome || pc < lo || hi ≤ pc then s
          else
            let s := (s.leaveLoop core (slot % 4)).modWarp (warpKey core slot) (fun w => { w with inLoop := true })
            s.modCore core (fun c => { c with loops := lput c.loops (slot % 4) none (fun _ => some { ctx := g.ctx, lo := lo, bytes := bs, stale := false }) })

/-- A warp prefetches words of the fetch block that holds its PC and of the next, but not between an ISYNC and its next
instruction (07 R129, R319). -/
def State.prefetch (s : State) (core slot : Nat) : State :=
  match s.warp? core slot with
  | none => s
  | some w =>
    match (s.blk? w.blk).bind (fun b => (tget s.grids b.grid).map (fun g => (b, g))) with
    | none => s
    | some (b, g) =>
      if w.viaHandler g || w.isync.isSome then s
      else
        let lo := vbits (w.nextGroup b).2 / 32 * 32
        let got := (List.range 64).filterMap (fun i => (s.codeByte core slot g.ctx (lo + i)).map (fun x => (lo + i, x)))
        s.modWarp (warpKey core slot) (fun w => { w with pre := got })

/-- What a warp holds of code as it fetches at an address: it is in the loop buffer inside the captured range, which it
enters only while no ICINV has made it stale, and it drops the words of other fetch blocks (07 R319). After an ISYNC its next
instruction comes from the instruction store (07 R129). -/
def State.arriveAt (s : State) (core slot cx a : Nat) (w : Warp) : Warp :=
  { w with inLoop := match nth (s.core core).loops (slot % 4) none with
             | some b => w.isync.isNone && (b.byte? cx a).isSome && (w.inLoop || !b.stale)
             | none => false,
           pre := w.pre.filter (fun x => x.1 / 32 == a / 32 || x.1 / 32 == a / 32 + 1) }

/-- An ICINV of a physical line has completed: no core's stores hold it, and loop buffers that hold it are stale
(07 R144, R319). -/
def State.dropCode (s : State) (line : Nat) : State :=
  let staleBy (core : Nat) (b : LoopBuf) : LoopBuf :=
    if (List.range (b.bytes.length / 128 + 2)).any (fun i =>
        match s.xlat (.core core) b.ctx (min (b.lo + 128 * i) (b.lo + b.bytes.length - 1)) needX with
        | .ok pa => lineOf pa == line
        | .absent | .protect | .walkErr => false) then { b with stale := true } else b
  { s with cores := (List.range s.cores.length).map (fun i =>
      let c := nth s.cores i CoreSt.init
      { c with istore := tdel c.istore line, hbuf := tdel c.hbuf line, loops := c.loops.map (fun b => b.map (staleBy i)) }) }

/-- Fields D, A, B and C stepped for a REP iteration (03 R65). -/
def stepWord (r : RepSt) (iter : Nat) : BitVec 128 :=
  BitVec.ofNat 128 (r.word + iter * (r.sd * 2 ^ 24 + r.sa * 2 ^ 33 + r.sb * 2 ^ 42 + r.sc * 2 ^ 51))

def decodeCause : DecodeCause → Cause
  | .badLength => .badLength
  | .fetchCross => .fetchCross
  | .unimplOp => .unimplOp
  | .badField => .badField
  | .privileged => .privileged

/-- The header under which a word that is no instruction is raised: its cause does not depend on the guard. -/
def hdr0 : Hdr := ⟨15, false, 0, 0⟩

inductive Fetched where
  | idle (s : State)
  | instr (i : Instr) (s : State)

/-- Fetch and decode the instruction of the issuing context already in cur, but for its word. -/
def State.fetchCur (s : State) : Fetched :=
  match s.view hdr0 with
  | none => .idle s
  | some v =>
    match v.w.rep with
    | some r =>
      let word := stepWord r r.iter
      let s := { s with cur := { s.cur with pc := r.pc, next := seqNext r.pc (wordBytes word), word := word.toNat } }
      match decode word with
      | .ok i => .instr i s
      | .error c => .idle (s.raise v (decodeCause c) v.grp 0 none)
    | none =>
      match s.fetchBytes v.core v.slot v.g v.w v.pc with
      | (.absent, s) =>
        if v.w.asyncCause.isSome then .idle (s.takeTrap v.key)
        else .idle (s.parkWarp v.core v.slot v.g.ctx faultKindFetch v.pc v.grp v.pc 0)
      | (.bad c a, s) => .idle (s.raise v c v.grp a none)
      | (.bytes bs, s) =>
        let word := BitVec.ofNat 128 (bitsOfBytes bs)
        let s := { s with cur := { s.cur with word := word.toNat, next := seqNext v.pc (wordBytes word) } }
        match s.view hdr0 with
        | none => .idle s
        | some v =>
          match decodeAt (v.pc.toNat % 32) word with
          | .ok i => .instr i s
          | .error c => if v.w.blocked then .idle s else .idle (s.raise v (decodeCause c) v.grp 0 none)

/- Choosing (01 R19, R20). -/

/-- The ready entry with the lowest PC, of those that did not turn out to wait. -/
def Warp.readyEntry (w : Warp) (b : Block) (waits : Nat → Bool) : Option (Nat × W64) :=
  if w.blocked then none
  else w.entries.foldl (fun (a : Option (Nat × W64)) e =>
    if w.groupReady b e && !waits e then
      match w.entryPc e, a with
      | some p, some x => if p.toNat < x.2.toNat then some (e, p) else some x
      | some p, none => some (e, p)
      | none, a => a
    else a) none

/-- Heavy instructions (01 R20), by class and index of the opcode. -/
def heavyOpc (opc : Nat) : Bool :=
  let c := opc / 64
  c == 0xB || c == 5 || opc == 0x103 || opc == 0x10C || opc == 0x10D || opc == 0x047 || opc == 0x048 || opc == 0x04F
    || opc == 0x050 || opc == 0x302

/-- Whether a warp counts as preferred under the pairing bias of its core, by its next instruction, which inside a REP is
that of the iteration, or by the 8 issue opportunities it was ready for (01 R19 step 2, R20; 03 R65). -/
def State.preferred (s : State) (core slot : Nat) (w : Warp) (pc : W64) : Bool :=
  let bias := nth (s.col (coreColumn core)).bias (coreLayer core) 0
  if 8 ≤ w.missed then true
  else if bias = 0 then false
  else
    match (s.blk? w.blk).bind (fun b => tget s.grids b.grid) with
    | none => true
    | some g =>
      match w.rep with
      | some r => heavyOpc (field (stepWord r r.iter).toNat 2 10) == decide (bias < 0)
      | none =>
        match (s.fetchBytes core slot g w pc).1 with
        | .bytes bs => heavyOpc (field (bitsOfBytes bs) 2 10) == decide (bias < 0)
        | .absent | .bad .. => true

/-- A column issues once it is powered, 1 µs after its first stage (14 R252). -/
def Column.on (c : Column) (now : Nat) : Bool := !c.gated && c.powerStage == 4 && (c.powerAt == 0 || c.powerAt + 1000 ≤ now)

/-- A powered column issues, but at ratio 2 only at step 5 or lower, which keeps the lane clock within 1.9 GHz; a column that
takes ratio 2 at a higher step issues once its step has fallen: the model's choice (00 R1; 14 R246; log entry 60). -/
def Column.issues (c : Column) (now : Nat) : Bool := c.on now && (c.ratio != 2 || c.step ≤ 5)

/-- Candidates of a partition but for the groups, by slot and entry, of a list: slot, warp, entry, PC. -/
def State.ready (s : State) (core quarter : Nat) (without : List (Nat × Nat)) : List (Nat × Warp × Nat × W64) :=
  if !(s.col (coreColumn core)).issues s.tsc then [] else
  (List.range 16).filterMap (fun j =>
    let slot := quarter + 4 * j
    match s.warp? core slot with
    | none => none
    | some w => ((s.blk? w.blk).bind (fun b => w.readyEntry b (fun e => without.contains (slot, e)))).map (fun e => (slot, w, e.1, e.2)))

/-- The least recently issued of the first non-empty set: handler warps, preferred warps, the others. The spec gives no order
of warps that did not issue yet: a warp counts as having issued when it starts, and of two the lower slot comes first (01 R19
step 3; log entry 61). -/
def State.choose (s : State) (core : Nat) (c : List (Nat × Warp × Nat × W64)) : Option (Nat × Warp × Nat × W64) :=
  let lru (l : List (Nat × Warp × Nat × W64)) : Option (Nat × Warp × Nat × W64) :=
    l.foldl (fun a x => match a with
      | none => some x
      | some y => if x.2.1.lastIssue < y.2.1.lastIssue then some x else some y) none
  match lru (c.filter (fun x => x.2.1.trap.isSome)) with
  | some x => some x
  | none =>
    match lru (c.filter (fun x => s.preferred core x.1 x.2.1 x.2.2.2)) with
    | some x => some x
    | none => lru c

/-- A warp of the partition whose ROM default handler can go on with the save (13 R320). -/
def State.romSaver (s : State) (core quarter : Nat) : Option Nat :=
  ((List.range 16).map (fun j => warpKey core (quarter + 4 * j))).find? (fun k =>
    match tget s.warps k with
    | none => false
    | some w => match (s.blk? w.blk).bind (fun b => (tget s.grids b.grid).map (fun g => (b, g))) with
      | some (b, g) => w.romSaving b g
      | none => false)

/-- The issue choice of a partition among its groups but those of a list: the chosen group's instruction, or nothing (01
R19). -/
def State.pick (s : State) (core quarter : Nat) (without : List (Nat × Nat)) : Fetched :=
  match s.romSaver core quarter with
  | some k => .idle (s.takeTrap k)
  | none =>
    let c := s.ready core quarter without
    match s.choose core c with
    | none => .idle s
    | some (slot, w, e, pc) =>
      -- the others were ready and did not issue (01 R19 step 2)
      let s := c.foldl (fun s x => if x.1 == slot then s else s.modWarp (warpKey core x.1) (fun w => { w with missed := w.missed + 1 })) s
      let cx := match (s.blk? w.blk).bind (fun b => tget s.grids b.grid) with | some g => g.ctx | none => 0
      let s := s.modWarp (warpKey core slot) (s.arriveAt core slot cx (vbits pc))
      State.fetchCur { s with cur := { core := core, slot := slot, entry := e, pc := pc, next := pc, word := 0 } }

end Sys2Proof.Machine
end

