-- ==== Sys2Proof/Machine/Req.lean ====
section
/-! DEFINITION. What each instruction word needs of its launch and warp: feature bits, mode, registers read and
written with their result tags, tile, barrier and slot (03 R52, R63; 04 R76; 06 R98; 07 R125; 08 R161, R162, R172 to
R177). -/

namespace Sys2Proof.Machine

/-- Registers of a memory operand of the width (03 R61). -/
def widthRegs (w : Width) (n : W9) : List Nat :=
  match w with
  | .w8 | .w16 | .w32 => [n.toNat]
  | .w64 => groupRegs n.toNat 2
  | .w128 => groupRegs n.toNat 4

def opRegs (dbl : Bool) (n : W9) : List Nat := if dbl then pairOf n else [n.toNat]

/-- Registers by a type code (06 R121). -/
def typeRegs (t : TypeCode) (n : W9) : List Nat := opRegs t.isPairType n

def genTo (ds srcs : List Nat) : List (Nat × TagRule) := ds.map (fun d => (d, .gen srcs))

def View.slotWord (v : View) (f : W3) : W32 := nth v.g.rec_.slots f.toNat 0

/-- CVTN and CVTW take KIND 1, 2 or 3 (06 R122, R123). -/
def View.slotUnused (v : View) (f : W3) : Bool := slotKind (v.slotWord f) == 0

/-- MCONV slots: scaled or KIND 0 is a bad slot (08 R175). -/
def View.convBad (v : View) (c : MConv) : Bool :=
  match c with
  | .raw | .f16 | .bf16 => false
  | .slot f => v.slotUnused f || slotScaled (v.slotWord f)

/-- The pairing of 04 R91. -/
def pairBad (fa fb : W32) : Bool :=
  let a := slotKind fa
  let b := slotKind fb
  a == 0 || b == 0 || (a == 1) != (b == 1)

/-- K against the slots (08 R172). -/
def kBad (fa fb : W32) (k : W16) : Bool := (slotScaled fa || slotScaled fb) && k.toNat % 48 != 0

/-- A guarded operation of a handler is a bad field (13 R221). -/
def View.guardBad (v : View) (g : GField) : Bool := g.gv && v.w.trap.isSome

/-- The tag of an SRD (04 R76; 16 R271). -/
def View.sregRule (v : View) (r : SReg) : TagRule :=
  let carried := v.g.rec_.travel && !v.b.isChild v.g
  match r with
  | .lane => .affine 0 1
  | .tid => if carried then .g else .affine (BitVec.ofNat 32 (32 * v.w.wid)) 1
  | .warp | .bid | .bidh => if carried then .g else .u
  | .split => .g
  | .crank | .core | .column | .layer | .die | .ctx | .tsc | .tsch | .fstep | .ratio | .tband | .boost | .draw | .mate _
  | .mrow _ | .bconf | .fflags | .fen | .caps _ | .tcause | .tpc | .tpch | .twin | .tmask | .taddr | .taddrh | .titer
  | .gslots | .qlen | .shape _ => .u

/-- A predicate has one value in the group. -/
def View.uniform (v : View) (p : W4) : Bool := v.grp &&& v.w.predMask p == 0 || v.grp &&& v.w.predMask p == v.grp

/-- Rows of a register with a register or immediate B. -/
def reqAB (d a : W9) (b : SrcB) : Req :=
  { reads := a.toNat :: srcRegs b, writes := genTo [d.toNat] (a.toNat :: srcRegs b) }

def reqA (d a : W9) : Req := { reads := [a.toNat], writes := genTo [d.toNat] [a.toNat] }

def reqABC (d a : W9) (b : SrcB) (c : W9) : Req :=
  let r := a.toNat :: c.toNat :: srcRegs b
  { reads := r, writes := genTo [d.toNat] r }

/-- Binary64 rows: pairs all. -/
def reqD (d : W9) (srcs : List W9) : Req :=
  let r := srcs.flatMap pairOf
  { feats := [1], reads := r, writes := genTo (pairOf d) r }

/-- What an instruction word needs. The steps that are no instruction words need nothing. IADDC takes tag G where its
carry differs between the threads, whose sums then differ (06 R101; log entry 58); BARSV takes G for its words by lane
(07 R156; log entry 33). -/
def reqOf (i : Instr) (v : View) : Req :=
  match i with
  | .nop _ | .ret _ | .isync _ | .yield _ | .resume _ | .tret _ | .bra _ _ | .call _ _ | .trap _ _ | .bkpt _ _ => {}
  | .rep .. => { feats := [] }
  | .exit _ => { progress := true }
  | .brx _ a | .callx _ a => { reads := pairOf a }
  | .nap _ b | .wsync _ b => { reads := srcRegs b, progress := match i with | .wsync .. => true | _ => false }
  | .srd _ d r => { writes := [(d.toNat, v.sregRule r)] }
  | .swr _ _ a => { reads := [a.toNat] }
  | .iadd _ m d a b =>
    { reqAB d a b with sat := m.sat, writes := [(d.toNat, addRule false (v.w.reg a.toNat) (v.w.regB b) (.gen (a.toNat :: srcRegs b)))] }
  | .isub _ m d a b =>
    { reqAB d a b with sat := m.sat, writes := [(d.toNat, addRule true (v.w.reg a.toNat) (v.w.regB b) (.gen (a.toNat :: srcRegs b)))] }
  | .iaddc _ _ d a b p =>
    { reqAB d a b with wpreds := [p.toNat],
                       writes := [(d.toNat, if v.uniform p then .gen (a.toNat :: srcRegs b) else .g)] }
  | .ineg _ sat d a =>
    { reqA d a with sat := sat, writes := [(d.toNat, match v.w.reg a.toNat with
        | .a x y => .affine (0 - x) (0 - y)
        | .u _ | .g _ => .gen [a.toNat])] }
  | .iabs _ sat d a => { reqA d a with sat := sat }
  | .imul _ m d a b =>
    { reqAB d a b with sat := m.sat, writes := [(d.toNat, mulRule (v.w.reg a.toNat) (v.w.regB b) (.gen (a.toNat :: srcRegs b)))] }
  | .imulh _ _ d a b | .imin _ _ d a b | .imax _ _ d a b => reqAB d a b
  | .imad _ m d a b c | .isad _ m d a b c => { reqABC d a b c with sat := m.sat }
  | .idot4 _ m _ d a b c | .idot2 _ m _ d a b c => { reqABC d a (.reg b) c with sat := m.sat }
  | .imadw _ m d a b c =>
    let r := a.toNat :: (srcRegs b ++ pairOf c)
    { reads := r, writes := genTo (pairOf d) r, sat := m.sat }
  | .iadd64 _ m d a b | .isub64 _ m d a b =>
    let r := pairOf a ++ srcPairs b
    { reads := r, writes := genTo (pairOf d) r, sat := m.sat }
  | .imul64 _ m d a b =>
    let r := pairOf a ++ pairOf b
    { reads := r, writes := genTo (pairOf d) r, sat := m.sat }
  | .lea _ sh d a b =>
    { reqAB d a b with writes := [(d.toNat,
        addRule false (v.w.reg a.toNat) ((v.w.regB b).shifted sh.toNat) (.gen (a.toNat :: srcRegs b)))] }
  | .lea64 _ _ _ d a b =>
    let r := pairOf a ++ srcRegs b
    { reads := r, writes := genTo (pairOf d) r }
  | .lgate _ d a b c _ => reqABC d a (.reg b) c
  | .shl _ d a b =>
    { reqAB d a b with writes := [(d.toNat, match v.w.reg a.toNat, v.w.regB b with
        | .a x y, .u n => .affine (shlWord x n.toNat) (shlWord y n.toNat)
        | _, _ => .gen (a.toNat :: srcRegs b))] }
  | .shr _ d a b | .sar _ d a b | .rotl _ d a b | .bfe _ _ d a b => reqAB d a b
  | .shf _ _ d a b c | .bfi _ d a b c | .prmt _ d a b c => reqABC d a b c
  | .popc _ d a | .clz _ d a | .ctz _ d a | .brev _ d a => reqA d a
  | .clmul _ d a b | .clmulh _ d a b => reqAB d a (.reg b)
  | .clmulw _ d a b => { reads := [a.toNat, b.toNat], writes := genTo (pairOf d) [a.toNat, b.toNat] }
  | .isetp _ _ p a b => { reads := a.toNat :: srcRegs b, wpreds := [p.toNat] }
  | .fsetp _ _ p a b _ => { reads := [a.toNat, b.toNat], wpreds := [p.toNat] }
  | .dsetp _ _ p a b _ => { feats := [1], reads := pairOf a ++ pairOf b, wpreds := [p.toNat] }
  | .pgate _ pd _ _ _ _ => { wpreds := [pd.toNat] }
  | .sel _ d a b _ => { reqAB d a b with writes := [(d.toNat, .g)] }
  | .p2v _ d => { writes := [(d.toNat, .g)] }
  | .v2p _ a b => { reads := a.toNat :: srcRegs b, wpreds := List.range 15 }
  | .mov _ d a => { reqA d a with writes := [(d.toNat, .copy (v.w.reg a.toNat))] }
  | .movi _ d _ => { writes := [(d.toNat, .u)] }
  | .mov64i _ d _ => { writes := (pairOf d).map (fun n => (n, .u)) }
  | .fadd _ _ d a b _ | .fsub _ _ d a b _ | .fmul _ _ d a b _ | .fmin _ d a b _ | .fmax _ d a b _ | .fldexp _ _ d a b _
  | .hadd2 _ _ d a b _ | .hmul2 _ _ d a b _ => reqAB d a b
  | .ffma _ _ d a b c _ | .hfma2 _ _ d a b c _ | .bfma2 _ _ d a b c _ => reqABC d a b c
  | .frnd _ _ d a _ | .fclass _ d a | .fexp _ d a | .frcp _ _ d a _ | .frsq _ _ d a _ | .fsqrt _ _ d a _ | .fex2 _ _ d a _
  | .flg2 _ _ d a _ => reqA d a
  | .dadd _ _ d a b _ | .dmul _ _ d a b _ | .dmin _ d a b _ | .dmax _ d a b _ => reqD d [a, b]
  | .dfma _ _ d a b c _ => reqD d [a, b, c]
  | .cvt _ r dt st _ _ d a =>
    { feats := if dt == .f64 || st == .f64 then [1] else [0], reads := typeRegs st a,
      writes := genTo (typeRegs dt d) (typeRegs st a), sat := r.sat }
  | .cvtn _ r _ f _ _ d a => { reqA d a with feats := [2], sat := r.sat, badSlot := v.slotUnused f }
  | .cvtw _ r _ f d a => { reqA d a with feats := [2], sat := r.sat, badSlot := v.slotUnused f }
  | .pack4 _ _ d a => { feats := [2], reads := groupRegs a.toNat 4, writes := genTo [d.toNat] (groupRegs a.toNat 4) }
  | .unpack4 _ _ d a => { feats := [2], reads := [a.toNat], writes := genTo (groupRegs d.toNat 4) [a.toNat] }
  | .shfl _ mode d a b =>
    { reqAB d a b with settled := [a.toNat],
                       writes := [(d.toNat, if mode == .idx && (v.w.regB b).tag == .u then .u else .gen (a.toNat :: srcRegs b))] }
  | .vote _ mode d _ => if mode == .ballot then { writes := [(d.toNat, .u)] } else { wpreds := [d.toNat] }
  | .redw _ _ d a => { reqA d a with writes := [(d.toNat, .u)] }
  | .scanw _ _ _ d a | .matchv _ _ d a => { reqA d a with writes := [(d.toNat, .g)] }
  | .active _ d => { writes := [(d.toNat, .u)] }
  | .ld _ m d a _ _ => { reads := pairOf a, writes := genTo (widthRegs m.w d) (pairOf a) }
  | .lds _ m d a _ => { reads := [a.toNat], writes := genTo (widthRegs m.w d) [a.toNat] }
  | .st _ w a b _ _ _ => { reads := pairOf a ++ widthRegs w b, progress := true }
  | .sts _ w a b _ => { reads := a.toNat :: widthRegs w b, progress := true }
  | .stx _ w a b _ _ => { noTravel := true, reads := pairOf a ++ widthRegs w b, progress := true }
  | .pref _ a _ | .cctl _ _ a _ | .icinv _ a _ => { reads := pairOf a }
  | .atom _ op d a b _ _ =>
    { reads := pairOf a ++ opRegs op.is64 b, writes := (opRegs op.is64 d).map (fun n => (n, .g)), progress := true }
  | .atomc _ dbl d a b c _ _ =>
    { reads := pairOf a ++ opRegs dbl b ++ opRegs dbl c, writes := (opRegs dbl d).map (fun n => (n, .g)), progress := true }
  | .red _ op a b _ _ => { reads := pairOf a ++ opRegs op.is64 b, progress := true }
  | .fence _ _ _ => {}
  | .waita _ _ d a b => reqAB d a b
  | .bar _ mode swap n =>
    { noTravel := swap, bar := some (if swap && n.toNat < 64 then 512 else n.toNat), progress := mode != .wait }
  | .barsv _ d n => { writes := [(d.toNat, .g)], bar := some n.toNat }
  | .barld _ n b => { reads := [b.toNat], bar := some n.toNat }
  | .bpv _ stale d a _ c =>
    { feats := [3], reads := pairOf a ++ [c.toNat], writes := [(d.toNat, .g)], wpreds := if stale == 15 then [] else [stale.toNat] }
  | .bvm _ _ a _ => { feats := [3], reads := [a.toNat] }
  | .brst _ _ => { feats := [3] }
  | .vmpop _ d _ => { feats := [3], writes := [(d.toNat, .u)] }
  | .vmtst _ p _ b => { feats := [3], reads := srcRegs b, wpreds := [p.toNat] }
  | .vmnext _ d _ b => { feats := [3], reads := srcRegs b, writes := genTo [d.toNat] (srcRegs b) }
  | .mma _ t a b k fa fb g =>
    let wa := v.slotWord fa
    let wb := v.slotWord fb
    { feats := [4], noTravel := true, reads := groupRegs a.toNat 8 ++ groupRegs b.toNat 8, maps := [a.toNat, b.toNat],
      bad := kBad wa wb k || v.guardBad g, badSlot := pairBad wa wb, tile := some t.toNat }
  | .mmas _ s48 t a b c k fa fb g =>
    let wa := v.slotWord fa
    let wb := v.slotWord fb
    { feats := [5], noTravel := true, reads := groupRegs a.toNat 8 ++ groupRegs b.toNat 8 ++ groupRegs c.toNat (metaRegs s48 k),
      maps := [a.toNat, b.toNat], bad := kBad wa wb k || v.guardBad g, badSlot := pairBad wa wb, tile := some t.toNat }
  | .mmz _ t => { feats := [4], noTravel := true, tile := some t.toNat }
  | .mmrd _ c d t b =>
    { feats := [4], noTravel := true, reads := srcRegs b, writes := [(d.toNat, .g)], badSlot := v.convBad c, tile := some t.toNat }
  | .mmwr _ c t a b =>
    { feats := [4], noTravel := true, reads := a.toNat :: srcRegs b, badSlot := v.convBad c, tile := some t.toNat }
  | .mmld _ c t a g | .mmst _ c t a _ g =>
    { feats := [4], noTravel := true, reads := groupRegs a.toNat 8, maps := [a.toNat], bad := v.guardBad g,
      badSlot := v.convBad c, tile := some t.toNat }
  | .mmwait _ t => { feats := [4], noTravel := true, tile := some t.toNat }
  | .cmprs _ s48 d a b k fa _ =>
    let wa := v.slotWord fa
    { feats := [5], noTravel := true, reads := groupRegs a.toNat 8 ++ groupRegs b.toNat 8,
      writes := (groupRegs d.toNat (metaRegs s48 k)).map (fun n => (n, .g)), maps := [a.toNat, b.toNat],
      bad := kBad wa wa k, badSlot := slotKind wa == 0 }
  | .qpush _ _ a => { feats := [7], noTravel := true, reads := [a.toNat] }
  | .qpop _ d _ => { feats := [7], noTravel := true, writes := [(d.toNat, .g)] }
  | .job _ a => { feats := [7], noTravel := true, reads := groupRegs a.toNat 32 }
  | .gset _ _ _ => { feats := [7], noTravel := true }
  | .draw _ b | .burn _ b => { feats := [8], reads := srcRegs b }
  | .shunt _ p b => { feats := [8], reads := srcRegs b, wpreds := [p.toNat] }
  | .spawn _ b => { feats := [9], noTravel := true, reads := srcRegs b }
  | .sendw _ a b => { feats := [9], reads := groupRegs a.toNat 8 ++ [b.toNat] }
  | .takeTrap .. | .splitHang .. | .watchdog .. | .napWake .. | .loadComplete .. | .loadServe .. | .writeArrival ..
  | .heldWriteApply .. | .writeNoticeArrival .. | .atomicPerform .. | .atomicComplete .. | .dieStoreEviction ..
  | .cctlWbAck .. | .icinvComplete .. | .stxDelivery .. | .swapComplete .. | .barrierArrivalSignal .. | .pageWalkComplete ..
  | .faultBufferSlotFree .. | .tlbShootdownComplete .. | .engineAdmit .. | .engineOpStart .. | .engineOpComplete ..
  | .engineFaultResume .. | .blockLimitRelease .. | .qpopWake .. | .waitaSatisfy .. | .boardPostRequest ..
  | .boardViewRequest .. | .boardResetRequest .. | .boardViewDelivery .. | .blockPlace .. | .coopPlace .. | .stealRequest ..
  | .stealReply .. | .stealRetry .. | .frameBoundary | .fabricStepChange .. | .workPacketArrival .. | .dispatchPacket ..
  | .childRangeAccept .. | .preemptRaise .. | .blockLeave .. | .arrivalLogAppend .. | .blockRestorePlace .. | .gridComplete ..
  | .columnWindowBoundary .. | .estimateRescale .. | .throttleEngage .. | .throttleStepChange .. | .stackMismatch ..
  | .stepChange .. | .boostUpdate .. | .boostRise .. | .thermalCeilingTick .. | .powerCapSample | .powerCapRelax
  | .sensorSample .. | .sensorStuck .. | .sensorRevalidate .. | .openBumpEvent .. | .regulatorAdjust .. | .columnGate ..
  | .columnPowerStage .. | .caravanArrival .. | .caravanPromotion .. | .travelReplicaGrant .. | .floidFlitReceive ..
  | .floidNakReceive .. | .floidLinkRetrain .. | .floidLinkFail .. | .inboundPostedWrite .. | .pieceAcknowledge ..
  | .inboundRead .. | .nonpostedRelease .. | .sqtail .. | .cqhead .. | .queueRegisterWrite .. | .completionPost ..
  | .queryCapabilities .. | .queryCertificates .. | .queryFigures .. | .attest .. | .healthStatus .. | .healthEvents ..
  | .healthEnergy .. | .healthSetPowerCap .. | .healthRecalibrate .. | .healthCoreReset .. | .ctxOpen .. | .ctxClose ..
  | .map .. | .unmap .. | .faultReplyRetry .. | .faultReplyFail .. | .launch .. | .launchAccept .. | .preempt .. | .restore ..
  | .boardMake .. | .debugAttach .. | .debugDetach .. | .debugHalt .. | .debugStep .. | .debugContinue .. | .powerGood
  | .glazeTransition | .coreReset .. | .dieRecalibrate .. | .longLatencyCompletion .. | .instructionFetchFill .. | .powerLoss
  | .floidLinkTrained .. => {}

/- The shapes of most meanings. -/

/-- Write the destinations a requirement names. -/
def View.outs (v : View) (s : State) (r : Req) (vals : List (List W32)) : State :=
  s.modWarp v.key (fun w => (r.writes.zip vals).foldl (fun w x => v.put r.sat w x.1.1 x.1.2 x.2) w)

/-- A word for each lane, written to one register. -/
def issueVal (s : State) (h : Hdr) (i : Instr) (f : View → Nat → W32) : Out :=
  issue s h (reqOf i) (fun v s => .done (v.outs s (reqOf i v) [perLane (f v)]))

/-- 64 bits for each lane, written to a pair. -/
def issueVal64 (s : State) (h : Hdr) (i : Instr) (f : View → Nat → W64) : Out :=
  issue s h (reqOf i) (fun v s =>
    let vals := perLane (f v)
    .done (v.outs s (reqOf i v) [loWords vals, hiWords vals]))

/-- A word and flags for each lane. -/
def issueFlt (s : State) (h : Hdr) (i : Instr) (f : View → Nat → Nat × FFlags) : Out :=
  issue s h (reqOf i) (fun v s =>
    let r := perLane (f v)
    .done (v.flags (v.outs s (reqOf i v) [r.map (fun x => BitVec.ofNat 32 x.1)]) (r.map Prod.snd)))

/-- A long-latency instruction whose words and flags are known at issue and written at completion. -/
def issueLong (s : State) (h : Hdr) (i : Instr) (f : View → Nat → Nat × FFlags) (dbl : Bool) : Out :=
  issue s h (reqOf i) (fun v s =>
    let r := perLane (f v)
    let q := reqOf i v
    let lo := r.map (fun x => BitVec.ofNat 32 x.1)
    let hi := r.map (fun x => BitVec.ofNat 32 (x.1 >>> 32))
    let fl := (v.lanes.map (fun l => (nth r l (0, 0)).2)).foldl (· ||| ·) 0
    .done (v.launchOp s h .value (q.writes.map (fun x => (x.1, v.tagOf false x.2))) (if dbl then [lo, hi] else [lo]) fl))

/-- A predicate for each lane. -/
def issuePred (s : State) (h : Hdr) (i : Instr) (p : W4) (f : View → Nat → Bool) : Out :=
  issue s h (reqOf i) (fun v s => .done (v.writePred s p (f v)))

end Sys2Proof.Machine
end

