-- ==== Sys2Proof/Machine/Sreg.lean ====
section
/-! DEFINITION. The special registers (04 R82, R83), the capability sets (20 R308), and what the column shows of a core
(08 R183 to R186; 14 R236). -/

namespace Sys2Proof.Machine

/-- The capability sets (20 R308). -/
def capsBisque : BitVec 128 := 0xAB7
def capsGlaze : BitVec 128 := 0x1FFF
def State.caps (s : State) : BitVec 128 := if s.stage = .glaze then capsGlaze else capsBisque

/-- Program burn of a core, in half-amperes, up to the burner's 16 (08 R185). -/
def State.burnOf (s : State) (core : Nat) : Nat := min 16 ((s.blocksOn core).map (fun x => x.2.burn.live)).sum

/-- Declared draw class of a core, capped at 15 (08 R184). -/
def State.drawOf (s : State) (core : Nat) : Nat := min 15 ((s.blocksOn core).map (fun x => x.2.draw.live)).sum

/-- %draw of a core (14 R236). -/
def State.ownDraw (s : State) (core : Nat) : Nat :=
  let c := s.col (coreColumn core)
  min 65535 (nth c.est (coreLayer core) 0 + 8 * s.burnOf core + 8 * nth c.hw (coreLayer core) 0)

/-- %mate of layer k: 0 where the core holds a block of another context (04 R82). -/
def State.mateDraw (s : State) (core k cx : Nat) : Nat :=
  let m := 4 * coreColumn core + k
  let other := (s.blocksOn m).any (fun x => match tget s.grids x.2.grid with | some g => g.ctx != cx | none => false)
  if other then 0 else s.ownDraw m

/-- Engine operations of a block that have not completed. -/
def Block.inFlight (b : Block) : Nat := b.eops.length

/-- %mrow of tile t: chunks done by its oldest unfinished MMA (08 R171). -/
def Block.mrow (b : Block) (t : Nat) : Nat :=
  ((b.eops.filter (fun o => match o.kind with
      | .mma x .. => x == t
      | .mmz _ | .mmrd .. | .mmwr .. | .mmld .. | .mmst .. | .cmprs .. | .job _ => false)).foldl
    (fun (a : Option EOp) o => match a with
      | none => some o
      | some x => if o.id < x.id then some o else some x) none).elim 0 (fun o => o.progress)

/-- %gslots (04 R82). -/
def Block.gslotsWord (b : Block) : Nat :=
  ((List.range 16).map (fun k => (match nth b.gslots k none with | none => 0 | some true => 1 | some false => 2) * 4 ^ k)).sum

/-- %shape k (04 R82). -/
def View.shapeWord (v : View) (k : Nat) : Nat :=
  ((List.range 16).map (fun i =>
    (if 16 * k + i < v.g.ceils.length then (v.w.reg (16 * k + i)).tag.code else 3) * 4 ^ i)).sum

/-- A field of the trap record, 0 outside a handler (04 R82). -/
def View.trec (v : View) (f : TrapRec → Nat) : Nat := v.w.trap.elim 0 f

/-- A warp of travelling threads: one of a replica, and of no child block (16 R271, R275). -/
def View.travels (v : View) : Bool := v.g.rec_.travel && !v.b.isChild v.g

/-- The identities of lane l: carried in travel mode (16 R271). -/
def View.tidOf (v : View) (l : Nat) : Nat :=
  if v.travels then (nth v.w.ids l (0, 0)).1.toNat else 32 * v.w.wid + l
def View.bidOf (v : View) (l : Nat) : Nat :=
  if v.travels then (nth v.w.ids l (0, 0)).2.toNat else v.b.bid

/-- The value SRD gives lane l (04 R82). -/
def State.sreg (s : State) (v : View) (r : SReg) (l : Nat) : W32 :=
  let col := s.col (coreColumn v.core)
  BitVec.ofNat 32 (match r with
    | .lane => l
    | .warp => v.tidOf l / 32
    | .tid => v.tidOf l
    | .bid => v.bidOf l
    | .bidh => v.bidOf l / 2 ^ 32
    | .crank => v.b.crank
    | .core => v.core
    | .column => coreColumn v.core % 16
    | .layer => coreLayer v.core
    | .die => v.die
    | .ctx => v.g.ctx % 4096
    | .tsc => s.tsc
    | .tsch => (nth v.w.tsch l 0).toNat
    | .fstep => col.step
    | .ratio => col.ratio
    | .tband => col.tband % 8
    | .boost => col.boost / 1000 % 4096
    | .draw => s.ownDraw v.core
    | .mate k => s.mateDraw v.core k.toNat v.g.ctx
    | .mrow t => v.b.mrow t.toNat
    | .bconf => v.b.bconf
    | .fflags => v.w.fflags.toNat
    | .fen => v.w.fen.toNat
    | .caps k => s.caps.toNat / 2 ^ (32 * k.toNat)
    | .tcause => v.trec (fun t => t.cause)
    | .tpc => v.trec (fun t => t.pc.toNat)
    | .tpch => v.trec (fun t => t.pc.toNat / 2 ^ 32)
    | .twin => v.trec (fun t => t.win.toNat)
    | .tmask => v.trec (fun t => t.mask.toNat)
    | .taddr => v.trec (fun t => t.addr.toNat)
    | .taddrh => v.trec (fun t => t.addr.toNat / 2 ^ 32)
    | .titer => v.trec (fun t => t.iter)
    | .split => (v.w.splitReg l).toNat
    | .gslots => v.b.gslotsWord
    | .qlen => min 64 v.b.inFlight * 256 + min 64 v.b.tickets.length
    | .shape k => v.shapeWord k.toNat)

end Sys2Proof.Machine
end

