-- ==== Sys2Proof/Machine/Travel.lean ====
section
/-! DEFINITION. Departure in travel mode: segments, exit records, replicas, spill credits, and the caravan records
(16 R262 to R269; 17 R280). -/

namespace Sys2Proof.Machine

/-- A column is retired at its third open-bump event (14 R256). -/
def State.retired (s : State) (col : Nat) : Bool := 3 ≤ (tget s.bumps col).getD 0

/-- A replica is live unless its column is retired or its die is in the bisque stage after a core reset (16 R265). -/
def State.coreLive (s : State) (core : Nat) : Bool := !s.retired (coreColumn core) && !(s.die (coreDie core)).bisque

/-- U, the usable slots of a travel launch (16 R261). -/
def usableSlots (ceils : List Tag) (poolw : W32) : Nat :=
  let b := warpBytes ceils
  if b = 0 then 32 else min 32 (poolRf poolw * 8192 / b)

def Segment.holds (x : Segment) (a : W64) : Bool := x.base.toNat ≤ a.toNat && a.toNat < x.base.toNat + x.len

/-- The index of the segment that holds an address. -/
def Grid.segAt (g : Grid) (a : W64) : Option Nat := g.segs.findIdx? (fun x => x.holds a)

def Segment.init : Segment := { base := 0, len := 0, reps := [], entries := [], nexit := 0, exitt := 0, at_ := 0 }

def Segment.isEntry (x : Segment) (a : W64) : Bool := x.entries.contains (a.toNat - x.base.toNat)

/-- An exit record as read at a departure: its address, its carry list, and whether it is in order (16 R264). -/
structure ExitRec where
  addr : W64
  nregc : Nat
  regs : List Nat
  pmask : Nat
  good : Bool
  /-- where its register list lies -/
  list : Nat
deriving DecidableEq, Repr

/-- The exit record of a transfer, for the target segment or for any: none where there is none or it cannot be read. -/
def State.exitRec (s : State) (die : Nat) (g : Grid) (cur : Segment) (off seg : Nat) : Option ExitRec :=
  (s.peekVa die g.ctx cur.exitt.toNat (16 * cur.nexit)).bind (fun t =>
    let f (i o n : Nat) : Nat := ofBytes ((t.drop (16 * i + o)).take n)
    let find (dest : Nat) : Option Nat := (List.range cur.nexit).find? (fun i => f i 0 4 == off && f i 4 2 == dest)
    match (match find seg with | some i => some i | none => find 0xFFFF) with
    | none => none
    | some i =>
      let n := f i 6 1
      let list := (s.peekVa die g.ctx (g.rec_.segmap.toNat + f i 12 4) (2 * n)).map (fun bs =>
        (List.range n).map (fun j => ofBytes ((bs.drop (2 * j)).take 2)))
      let regs := list.getD []
      some { addr := cur.exitt + BitVec.ofNat 64 (16 * i), nregc := n, regs := regs, pmask := f i 8 2,
             good := f i 7 1 == 0 && f i 10 2 == 0 && field (f i 8 2) 15 1 == 0 && list.isSome
               && regs.all (fun r => decide (r < 512) && decide (r < g.ceils.length)),
             list := g.rec_.segmap.toNat + f i 12 4 })

/-- Ring entries free for credits, lowest first (16 R269; 17 R280). -/
def Grid.freeCredits (g : Grid) : List Nat := (List.range g.rec_.spilln).filter (fun i => (tget g.ring i).isNone)

/-- Departing lanes by target, in ascending lane order of their first lanes. -/
def departGroups (m : Mask) (t : Nat → W64) : List (W64 × Mask) :=
  (lanesOf m).foldl (fun gs l =>
    if gs.any (fun x => x.1 == t l) then gs.map (fun x => if x.1 == t l then (x.1, x.2 ||| laneBit l) else x)
    else gs ++ [(t l, laneBit l)]) []

/-- The first check a departing lane fails (16 R265); `short` says that the core cannot reserve a spill credit for each
caravan. -/
def State.departCheck (s : State) (v : View) (cur : Nat) (short : Bool) (t : W64) :
    Option (Cause × W64) :=
  let here := nth v.g.segs cur Segment.init
  match v.g.segAt t with
  | none => some (.segmentMiss, t)
  | some k =>
    let seg := nth v.g.segs k Segment.init
    if !seg.isEntry t then some (.segmentMiss, t)
    else
      match s.exitRec v.die v.g here (v.pc.toNat - here.base.toNat) k with
      | none => some (.segmentMapBad, here.at_)
      | some r =>
        if !r.good then some (.segmentMapBad, r.addr)
        else if 48 < r.nregc then some (.carryOverflow, t)
        else if seg.reps.all (fun c => !s.coreLive c) then some (.replicaStale, t)
        else if short then some (.spillFull, t)
        else none

/-- Where a caravan goes (16 R267). -/
def State.chooseReplica (s : State) (seg : Segment) (id : Nat) : Nat :=
  let n := seg.reps.length
  let h := (id * 0x9E3779B1) % 2 ^ 32 / 2 ^ 16
  let order := ((List.range n).map (fun i => nth seg.reps ((h + i) % n) 0)).filter s.coreLive
  match order.find? (fun c => !(s.core c).fullPub) with
  | some c => c
  | none => order.headD 0

/-- The content a register carries: lanes outside the mask hold 0 (16 R271). -/
def carryReg (r : Reg) (m : Mask) : Reg :=
  match r with
  | .g vs => .g (allLanes.map (fun l => if has m l then nth vs l 0 else 0))
  | .u v => .u v
  | .a b x => .a b x

/-- One caravan leaves (16 R265, R266). -/
def State.sendCaravan (s : State) (v : View) (cur entry : Nat) (target : W64) (m : Mask) : State :=
  match tget s.warps v.key, v.g.segAt target with
  | some w, some k =>
    let here := nth v.g.segs cur Segment.init
    let r := s.exitRec v.die v.g here (v.pc.toNat - here.base.toNat) k
    let regs := (r.map (fun x => x.regs)).getD []
    let pm := (r.map (fun x => x.pmask)).getD 0
    let n := (s.core v.core).departures
    let id := v.core * 2 ^ 24 + n % 2 ^ 24
    let c : Caravan :=
      { key := s.nextKey, dst := s.chooseReplica (nth v.g.segs k Segment.init) id, stamp := s.tsc, source := v.core,
        mask := m, target := target, id := id, seg := k, clk := w.clk, regs := regs.map (fun i => (i, carryReg (w.reg i) m)),
        preds := (List.range 15).map (fun p => if field pm p 1 == 1 then nth w.preds p 0 &&& m else 0),
        tid := allLanes.map (fun l => if has m l then (nth w.ids l (0, 0)).1 else 0),
        bid := allLanes.map (fun l => if has m l then (nth w.ids l (0, 0)).2 else 0),
        cstack := allLanes.map (fun l => if has m l then nth w.cstack l [] else []),
        icinvs := (w.icinvs.map (fun i => (i.1, i.2.1, i.2.2 &&& m))).filter (fun i => i.2.2 != 0), entry := entry, grid := v.gk, note := none }
    let s := s.readsOut v.die v.g.ctx here.exitt.toNat (16 * here.nexit)
    let s := match r with | some x => s.readsOut v.die v.g.ctx x.list (2 * x.nregc) | none => s
    let s := s.modCore v.core (fun x => { x with departures := n + 1 })
    let s := s.modGrid v.gk (fun g => { g with ring := tput g.ring entry { state := 0, car := none, since := 0 } })
    { s with nextKey := s.nextKey + 1, caravans := s.caravans ++ [c] }
  | _, _ => s

/-- Every caravan of a transfer leaves with its threads' ICINVs, and its lanes become vacant. -/
def State.depart (s : State) (v : View) (cur : Nat) (m : Mask) (t : Nat → W64) : State :=
  let groups := departGroups m t
  let s := (groups.zip v.g.freeCredits).foldl (fun s x => s.sendCaravan v cur x.2 x.1.1 x.1.2) s
  s.modWarp v.key (fun w =>
    { w.setLanes m .vacant with
      icinvs := (w.icinvs.map (fun i => (i.1, i.2.1, i.2.2 &&& ~~~ m))).filter (fun i => i.2.2 != 0) })

/- The record in the spill ring (16 R266). -/

def tagWord (r : Reg) : Nat := r.tag.code * 2 ^ 14

/-- A register's record in a caravan, laid out by its tag. -/
def carryRecord (r : Reg) : List Byte :=
  let bs := match r with
    | .u v => bytesOf 4 v.toNat
    | .a b x => bytesOf 4 b.toNat ++ bytesOf 4 x.toNat
    | .g vs => (List.range 32).flatMap (fun l => bytesOf 4 (nth vs l 0).toNat)
  bs ++ List.replicate (128 - bs.length) 0

def Caravan.depth (c : Caravan) : Nat := (c.cstack.map List.length).foldl max 0

/-- CLOCK: the greatest of the threads' colour and read clocks. -/
def Caravan.clock (c : Caravan) : VC := VC.joins ((lanesOf c.mask).map (fun l => (nth c.clk l (Clk.init .zero)).all))

def Caravan.record (c : Caravan) (state : Nat) : List Byte :=
  let k := c.clock
  bytesOf 8 c.stamp ++ bytesOf 2 c.source ++ bytesOf 1 c.regs.length ++ bytesOf 1 c.depth ++ bytesOf 4 c.mask.toNat
    ++ bytesOf 8 c.target.toNat ++ bytesOf 4 c.id ++ bytesOf 2 c.seg ++ bytesOf 2 state
    ++ bytesOf 8 k.d0 ++ bytesOf 8 k.d1 ++ bytesOf 8 k.d2 ++ bytesOf 8 k.d3 ++ bytesOf 8 k.d4 ++ List.replicate 24 0
    ++ (List.range 48).flatMap (fun i => match c.regs[i]? with | some r => bytesOf 2 (r.1 + tagWord r.2) | none => bytesOf 2 0)
    ++ (List.range 32).flatMap (fun l =>
        bytesOf 2 (((List.range 15).map (fun p => if has (nth c.preds p 0) l then 2 ^ p else 0)).sum))
    ++ (List.range 32).flatMap (fun l => bytesOf 4 (nth c.tid l 0).toNat)
    ++ (List.range 32).flatMap (fun l => bytesOf 8 (nth c.bid l 0).toNat) ++ List.replicate 384 0
    ++ (List.range 32).flatMap (fun l =>
        let st := (nth c.cstack l []).reverse
        (List.range 32).flatMap (fun d => bytesOf 8 (nth st d 0).toNat))
    ++ c.regs.flatMap (fun r => carryRecord r.2)

end Sys2Proof.Machine
end

