-- ==== Sys2Proof/Machine/Ctrl.lean ====
section
/-! DEFINITION. Class CTRL: transfers, exit, waits, traps and their returns, the special registers, and the REP prefix
(01 R28, R29; 03 R64 to R66; 04 R82, R83; 07 R126 to R132; 16 R265). -/

namespace Sys2Proof.Machine

/- Transfers (07 R126, R127). -/

/-- What a transfer does to the call stack; the newest return address stands first. -/
inductive CallOp where
  | none | push | pop
deriving DecidableEq, Repr

/-- Why lane l cannot transfer to t. A call depth fault comes before a bad target, an order that no rule gives: the model's
choice (log entry 58). -/
def View.targetCause (v : View) (c : CallOp) (t : W64) (l : Nat) : Option (Cause × W64) :=
  let depth := (nth v.w.cstack l []).length
  if c == .push && 32 ≤ depth then some (.trapInstr, 512)
  else if c == .pop && depth == 0 then some (.trapInstr, 513)
  else if field t.toNat 57 7 != 0 then some (.badPath, t)
  else if t.toNat % 4 != 0 || t.toNat % 32 == 28 then some (.misaligned, t)
  else none

/-- The segment of the issuing core in travel mode, outside a handler (16 R265, R276). -/
def State.travelSeg (s : State) (v : View) : Option Nat :=
  if v.travels && v.w.trap.isNone then (s.core v.core).replica.map Prod.snd else none

/-- Lanes whose target lies outside the segment. -/
def View.awayOf (v : View) (cur : Nat) (t : Nat → W64) : Mask :=
  v.act &&& maskOf (fun l => !(nth v.g.segs cur Segment.init).holds (t l))

/-- Push or pop the call stacks of the lanes that transfer. -/
def View.callStacks (v : View) (c : CallOp) (w : Warp) : Warp :=
  { w with cstack := allLanes.map (fun l =>
      let st := nth w.cstack l []
      if has v.act l then (match c with | .none => st | .push => v.next :: st | .pop => st.drop 1) else st) }

/-- A transfer: lanes with a false guard fall through, and lanes that leave their segment depart (07 R126; 16 R265). -/
def transfer (s : State) (h : Hdr) (i : Instr) (c : CallOp) (target : View → Nat → W64) : Out :=
  issue s h (reqOf i) (fun v s =>
    let t := target v
    match (v.lanes.filterMap (fun l => v.targetCause c (t l) l)).head? with
    | some (.trapInstr, a) => .after s .trapInstr v.grp a
    | some (k, a) => .raise k v.grp a
    | none =>
      let moved := s.modWarp v.key (v.callStacks c)
      let next := perLane (fun l => if has v.act l then t l else v.next)
      match s.travelSeg v with
      | none => .jump moved (BitVec.allOnes 32) next
      | some cur =>
        let away := v.awayOf cur t
        if away == 0 then .jump moved (BitVec.allOnes 32) next
        else if v.w.ops.any (fun o => !o.done && o.group &&& away != 0) then .hold
        else
          let groups := departGroups away t
          match ((lanesOf away).filterMap (fun l => s.departCheck v cur (decide (v.g.freeCredits.length < groups.length)) (t l))).head? with
          | some (k, a) => .raise k v.grp a
          | none => .jump (moved.depart v cur away t) (BitVec.allOnes 32) next)

/-- PC plus the signed displacement. -/
def View.relative (v : View) (off : W32) : W64 := v.pc + off.signExtend 64

def execBra (h : Hdr) (off : W32) (s : State) : Out := transfer s h (.bra h off) .none (fun v _ => v.relative off)
def execBrx (h : Hdr) (a : W9) (s : State) : Out := transfer s h (.brx h a) .none (fun v l => v.w.rd64 a.toNat l)
def execCall (h : Hdr) (off : W32) (s : State) : Out := transfer s h (.call h off) .push (fun v _ => v.relative off)
def execCallx (h : Hdr) (a : W9) (s : State) : Out := transfer s h (.callx h a) .push (fun v l => v.w.rd64 a.toNat l)
def execRet (h : Hdr) (s : State) : Out := transfer s h (.ret h) .pop (fun v l => (nth v.w.cstack l []).headD 0)

/-- Tickets, jobs and operations that stand against the block's last EXIT; a marked tile comes first (01 R29;
08 R171). -/
def State.lastExit (s : State) (v : View) : Option (Option Nat × Cause × W64) :=
  let others := (s.warpsOf v.bk).any (fun x => x.1 != v.key && x.2.live != 0)
  if others || v.w.live &&& ~~~ v.act != 0 then none
  else
    match v.b.marks with
    | m :: _ => some (some m.1, m.2.1, m.2.2)
    | [] => if v.b.eops.isEmpty && v.b.tickets.isEmpty then none else some (none, .exitOutstanding, 0)

/-- EXIT: the threads of the active lanes become finished-idle (01 R28, R29). It waits for their own long-latency
instructions, whose faults a finished thread could not take (log entry 12). -/
def execExit (h : Hdr) (s : State) : Out :=
  issue s h (reqOf (.exit h)) (fun v s =>
    if v.act == 0 then .done s
    else if v.w.ops.any (fun o => !o.done && o.group &&& v.act != 0) then .hold
    else
      match s.lastExit v with
      | some (some t, c, a) => .fail t c v.act a
      | some (none, c, a) => .raise c v.act a
      | none =>
        let s := s.modWarp v.key (fun w => w.setLanes v.act .idle)
        let live := match tget s.warps v.key with | some w => w.live | none => 0
        .done (s.barJudgeAll v.bk v.w.wid live))

def execNop (h : Hdr) (s : State) : Out := issue s h (reqOf (.nop h)) (fun _ s => .done s)

/-- ISYNC (07 R129). -/
def execIsync (h : Hdr) (s : State) : Out :=
  issue s h (reqOf (.isync h)) (fun v s =>
    if v.act == 0 then .done s
    else .done (s.modWarp v.key (fun w =>
      { w with pre := [], inLoop := false, isync := some s.issueCount, wait := if w.icinvs.isEmpty then .none else .isync, waitSince := s.tsc })))

/-- NAP: at least n and at most n + 64 ticks; which, is a free value (07 R129). -/
def execNap (h : Hdr) (b : SrcB) (s : State) : Out :=
  issue s h (reqOf (.nap h b)) (fun v s =>
    let n := (v.lanes.map (fun l => (v.w.srcB b l).toNat)).foldl max 0
    if n == 0 then .done s
    else .done ((s.modWarp v.key (fun w =>
      { w with wait := .nap (s.tsc + n + Config.freeNat s.fresh % 65), waitSince := s.tsc })).tickFresh))

/-- TRAP (07 R130). -/
def execTrap (h : Hdr) (k : W9) (s : State) : Out :=
  issue s h (reqOf (.trap h k)) (fun v s => if v.act == 0 then .done s else .after s .trapInstr v.act (k.setWidth 64))

/-- BKPT raises BREAKPOINT only while a debugger holds the context (07 R130). -/
def execBkpt (h : Hdr) (k : W9) (s : State) : Out :=
  issue s h (reqOf (.bkpt h k)) (fun v s =>
    let held := match tget s.ctxs v.g.ctx with | some c => c.dbg | none => false
    if v.act == 0 || !held then .done s else .after s .breakpoint v.act (k.setWidth 64))

/-- Whether the warp is in a PREEMPT handler; at restore bit 0 of %taddr is set. -/
def Warp.preemptEntry (w : Warp) : Option Bool :=
  match w.trap with
  | some t => if t.cause = 56 then some (t.addr.getLsbD 0) else none
  | none => none

/-- TRET ends the handler; the handler's own long-latency instructions complete first (07 R131; 13 R225). -/
def execTret (h : Hdr) (s : State) : Out :=
  issue s h (reqOf (.tret h)) (fun v s =>
    match v.w.trap with
    | none => .done s
    | some t =>
      if v.act == 0 then .done s
      else if !v.w.drained (fun _ => false) then .hold
      else .stay (s.modWarp v.key (fun w => w.tret t.ctl s.tsc)))

/-- The virtual queue holds only what an unresolved guarded head holds back (13 R230). -/
def Block.heldBack (b : Block) : Bool := b.vq.isEmpty || b.headHeld

/-- YIELD (07 R131; 13 R230). -/
def execYield (h : Hdr) (s : State) : Out :=
  issue s h (reqOf (.yield h)) (fun v s =>
    if v.act == 0 then .done s
    else if v.w.preemptEntry == some false then
      if !v.b.adm.isEmpty || !v.b.hq.isEmpty || !v.b.heldBack || !v.w.drained (fun _ => false) then .hold
      else
        match s.vaFault 4 v.g.ctx needW [(v.b.frame + controlAt v.b v.w, 0x4000)] with
        | some (none, va) => .park (s.parkWarp v.core v.slot v.g.ctx faultKindStore v.pc v.grp (BitVec.ofNat 64 va) 0)
        | some (some c, va) => .raise c v.grp (BitVec.ofNat 64 va)
        | none => .stay (s.doYield v.key)
    else .done s)

/-- RESUME (07 R131; 13 R234). -/
def execResume (h : Hdr) (s : State) : Out :=
  issue s h (reqOf (.resume h)) (fun v s =>
    if v.act != 0 && v.w.preemptEntry == some true then
      if !v.w.drained (fun _ => false) then .hold else .stay (s.doResume v.key)
    else .done s)

/-- SRD: one read for all lanes; a read of %tsc latches its high half for the lane (04 R82; 07 R132). %bconf has grown by
a free amount since it was read last, since no rule fixes which cycles conflicts take. -/
def execSrd (h : Hdr) (d : W9) (r : SReg) (s : State) : Out :=
  issue s h (reqOf (.srd h d r)) (fun v s =>
    let s := if r == .bconf && v.act != 0 then
        (s.modBlock v.bk (fun b => { b with bconf := (b.bconf + Config.freeNat s.fresh) % 2 ^ 32 })).tickFresh
      else s
    let v := { v with b := (s.blk? v.bk).getD v.b }
    let s := if r == .tsc then
        s.modWarp v.key (fun w => { w with tsch := allLanes.map (fun l =>
          if has v.act l then BitVec.ofNat 32 (s.tsc / 2 ^ 32) else nth w.tsch l 0) })
      else s
    .done (v.outs s (reqOf (.srd h d r) v) [perLane (fun l => s.sreg v r l)]))

/-- SWR writes bits 4:0 of the lowest active lane (04 R83). -/
def execSwr (h : Hdr) (r : SReg) (a : W9) (s : State) : Out :=
  issue s h (reqOf (.swr h r a)) (fun v s =>
    if v.act == 0 then .done s
    else
      let x : BitVec 5 := (v.w.rd a.toNat v.low).setWidth 5
      .done (s.modWarp v.key (fun w => if r == .fflags then { w with fflags := x } else { w with fen := x })))

/- REP (03 R65, R66). -/

/-- Whether fields D, A, B and C of a repeatable instruction hold registers, so that a step may apply; none for an
instruction that is not repeatable. -/
def repFields (i : Instr) : Option (Bool × Bool × Bool × Bool) :=
  let isReg (b : SrcB) : Bool := match b with | .reg _ => true | .imm _ => false
  match i with
  | .iadd _ _ _ _ b | .isub _ _ _ _ b | .iaddc _ _ _ _ b _ | .imul _ _ _ _ b | .imulh _ _ _ _ b | .iadd64 _ _ _ _ b
  | .isub64 _ _ _ _ b | .imin _ _ _ _ b | .imax _ _ _ _ b | .lea _ _ _ _ b | .lea64 _ _ _ _ _ b | .shl _ _ _ b
  | .shr _ _ _ b | .sar _ _ _ b | .rotl _ _ _ b | .bfe _ _ _ _ b | .sel _ _ _ b _ | .fadd _ _ _ _ b _ | .fsub _ _ _ _ b _
  | .fmul _ _ _ _ b _ | .fmin _ _ _ b _ | .fmax _ _ _ b _ | .fldexp _ _ _ _ b _ | .hadd2 _ _ _ _ b _
  | .hmul2 _ _ _ _ b _ | .shfl _ _ _ _ b => some (true, true, isReg b, false)
  | .imad _ _ _ _ b _ | .imadw _ _ _ _ b _ | .isad _ _ _ _ b _ | .shf _ _ _ _ b _ | .bfi _ _ _ b _ | .prmt _ _ _ b _
  | .ffma _ _ _ _ b _ _ | .hfma2 _ _ _ _ b _ _ | .bfma2 _ _ _ _ b _ _ => some (true, true, isReg b, true)
  | .idot4 .. | .idot2 .. | .lgate .. | .dfma .. => some (true, true, true, true)
  | .imul64 .. | .clmul .. | .clmulh .. | .clmulw .. | .dadd .. | .dmul .. | .dmin .. | .dmax .. =>
    some (true, true, true, false)
  | .ineg .. | .iabs .. | .popc .. | .clz .. | .ctz .. | .brev .. | .mov .. | .frnd .. | .fclass .. | .fexp .. | .frcp ..
  | .frsq .. | .fsqrt .. | .fex2 .. | .flg2 .. | .cvt .. | .cvtn .. | .cvtw .. | .pack4 .. | .unpack4 .. | .redw ..
  | .scanw .. | .matchv .. | .ld .. | .lds .. => some (true, true, false, false)
  | .p2v .. | .movi .. | .mov64i .. => some (true, false, false, false)
  | .isetp _ _ _ _ b | .v2p _ _ b | .mmwr _ _ _ _ b => some (false, true, isReg b, false)
  | .fsetp .. | .dsetp .. | .st .. | .sts .. => some (false, true, true, false)
  | .pgate .. => some (false, false, false, false)
  | .mmrd _ _ _ _ b => some (true, false, isReg b, false)
  | _ => none

/-- The long-latency instructions among the repeatable ones (01 R24). -/
def repLong (i : Instr) : Bool :=
  match i with
  | .ld .. | .lds .. | .mmrd .. | .frcp .. | .frsq .. | .fsqrt .. | .fex2 .. | .flg2 .. | .dadd .. | .dmul .. | .dfma ..
  | .dmin .. | .dmax .. => true
  | _ => false

/-- A field of the word. -/
def wordField (w l : Nat) : Nat := field w l 9

/-- Whether the steps are legal for the fields and stay within 511 (03 R65). -/
def stepsOk (r : RepSt) (f : Bool × Bool × Bool × Bool) : Bool :=
  let ok (reg : Bool) (step at_ : Nat) : Bool := step = 0 || (reg && wordField r.word at_ + (r.cnt - 1) * step ≤ 511)
  ok f.1 r.sd 24 && ok f.2.1 r.sa 33 && ok f.2.2.1 r.sb 42 && ok f.2.2.2 r.sc 51

/-- The register as a later iteration's tag check sees it. -/
def tagReg (t : Tag) : Reg :=
  match t with
  | .u => .u 0
  | .a => .a 0 0
  | .g => .g []

/-- Every iteration of a REP (03 R65). -/
def repInstrs (r : RepSt) : List (Option Instr) :=
  (List.range r.cnt).map (fun i => match decode (stepWord r i) with | .ok x => some x | .error _ => none)

/-- A later iteration that is no instruction, or whose step carries a register past the declared count. -/
def View.stepOut (v : View) (first : Req) (x : Option Instr) : Bool :=
  match x with
  | none => true
  | some i =>
    let n := v.g.ceils.length
    let q := reqOf i v
    (q.reads.zip first.reads).any (fun p => n ≤ p.1 && p.2 < n)
      || (q.writes.zip first.writes).any (fun p => n ≤ p.1.1 && p.2.1 < n)

/-- An iteration reads a register that an earlier one writes. -/
def View.readsEarlier (v : View) (is : List Instr) : Bool :=
  match is with
  | [] => false
  | i :: rest =>
    let ws := (reqOf i v).writes.map Prod.fst
    rest.any (fun j => (reqOf j v).reads.any (fun r => ws.contains r)) || v.readsEarlier rest

/-- The first decode cause of any iteration, with the tags earlier iterations leave. -/
def View.repCheck (v : View) (is : List Instr) : List Cause :=
  match is with
  | [] => []
  | i :: rest =>
    let q := reqOf i v
    let regs := if v.act == 0 then v.w.regs
      else q.writes.foldl (fun rs x => lput rs x.1 (.u 0) (fun _ => tagReg (v.tagOf q.sat x.2))) v.w.regs
    (v.check q).toList ++ ({ v with w := { v.w with regs := regs } } : View).repCheck rest

/-- Order of the decode causes (03 R63). -/
def Cause.rank (c : Cause) : Nat :=
  match c with
  | .badLength => 1 | .fetchCross => 2 | .unimplOp => 3 | .badField => 4 | .repMisuse => 5 | .privileged => 6
  | .featureOff => 7 | .travelMode => 8 | .regRange => 9 | .shapeCeiling => 10 | .badSlot => 11 | .accRange => 12
  | .barNumber => 13
  | _ => 14

def firstCause (l : List Cause) : Option Cause :=
  l.foldl (fun a c => match a with
    | none => some c
    | some x => if c.rank < x.rank then some c else some x) none

/-- The decode cause of a REP and its instruction as one (03 R63, R65): the word does not decode, the rules of REP are
broken, or an iteration meets a decode cause of the launch. A privileged instruction is not repeatable. -/
def View.repCause (v : View) (r : RepSt) (gp : W4) (gn : Bool) : Option Cause :=
  match decodeAt (r.pc.toNat % 32) (BitVec.ofNat 128 r.word) with
  | .error .privileged => some .repMisuse
  | .error c => some (decodeCause c)
  | .ok i =>
    let is := repInstrs r
    let first := reqOf i v
    let misuse := match repFields i with
      | none => true
      | some f => !stepsOk r f || (is.drop 1).any (v.stepOut first) || (repLong i && v.readsEarlier (is.filterMap id))
    let act := v.w.guarded ⟨gp, gn, 0, 0⟩ v.grp
    firstCause ((if misuse then [.repMisuse] else []) ++ (if v.g.rec_.feature 0 then [] else [.featureOff]) ++ ({ v with act := act } : View).repCheck (is.filterMap id))

/-- REP: the instruction after it is read and checked, and the group repeats it (03 R65, R66). A decode cause of that
instruction names the REP's address and iteration 0, which R66 says of dynamic faults only: the model's choice (log
entry 58). -/
def execRep (cnt : W4) (sd sa sb sc : W3) (s : State) : Out :=
  issue s hdr0 (reqOf (.rep cnt sd sa sb sc)) (fun v s =>
    if v.next.toNat / 32 != v.pc.toNat / 32 then .raise .repMisuse v.grp 0
    else
      match s.fetchBytes v.core v.slot v.g v.w v.next with
      | (.absent, _) => .park (s.parkWarp v.core v.slot v.g.ctx faultKindFetch v.pc v.grp v.next 0)
      | (.bad c a, _) => .raise c v.grp a
      | (.bytes bs, s) =>
        let w := bitsOfBytes bs
        let gp : W4 := BitVec.ofNat 4 (field w 12 4)
        let gn := field w 16 1 == 1
        let act := v.w.guarded ⟨gp, gn, 0, 0⟩ v.grp
        let r : RepSt := { base := v.pc, pc := v.next, word := w, cnt := cnt.toNat + 1, iter := 0, sd := sd.toNat,
                           sa := sa.toNat, sb := sb.toNat, sc := sc.toNat, entry := v.entry, grp := v.grp, act := act }
        match v.repCause r gp gn with
        | some c => .raise c v.grp 0
        | none => .stay (s.modWarp v.key (fun w => { w with rep := some r, lastIssue := s.issueCount })))

end Sys2Proof.Machine
end

