-- ==== Sys2Proof/Machine/Access.lean ====
section
/-! DEFINITION. What the memory instructions share: addresses, the checks of a lane's access in their order, what an
access waits for, the assembly of load values, and stores (07 R138 to R145, R150 to R152; 10 R192, R193, R199). -/

namespace Sys2Proof.Machine

/- Addresses (07 R138). -/

def offOf (off : Option W32) : W64 := (off.getD 0).signExtend 64
def View.addr (v : View) (a : W9) (off : Option W32) (l : Nat) : W64 := v.w.rd64 a.toNat l + offOf off
def View.padAddr (v : View) (a : W9) (off : Option W32) (l : Nat) : W32 := v.w.rd a.toNat l + off.getD 0

/-- Scratchpad bytes in a thread's own-location table. -/
def padKey (off : Nat) : Nat := 2 ^ 60 + off

/-- Memory modifiers; without XMOD they are the defaults (07 R140). -/
def memX (x : Option MemX) : MemX := x.getD { colour := 0, scope := .dflt, order := .rlx }

def isAcq (o : Order) : Bool := o == .acq || o == .ar
def isRel (o : Order) : Bool := o == .rel || o == .ar

/-- Scopes that an acquire serves from the die store (10 R202). -/
def wideScope (x : Scope) : Bool := x == .dflt || x == .d || x == .k || x == .s

/- Boards as the window and the board engine see them (07 R145; 18 R286, R287). -/

/-- The board a handle is bound to, by its key in the table of boards. -/
def Grid.boardKey (g : Grid) (hd : Nat) : Option Nat :=
  let w := nth g.rec_.boards hd 0
  if w.getLsbD 31 then some (g.ctx * 64 + field w.toNat 0 6) else none

def State.board? (s : State) (g : Grid) (hd : Nat) : Option (Nat × Board) :=
  (g.boardKey hd).bind (fun k => (tget s.boards k).map (fun b => (k, b)))

/-- The kept rounds, latest first. -/
def Board.kept (b : Board) : List (W32 × List Post) := (b.rc + 1, b.next) :: (b.rc, b.cur) :: b.filled.toList

/-- The posts of a slot in rounds of a parity: the value, and whether one of these views holds the post. -/
def postsIn (rounds : List (W32 × List Post)) (key par slot : Nat) (views : List (Nat × W32 × Nat)) : List (W64 × Bool) :=
  (rounds.filter (fun r => r.1.toNat % 2 == par)).filterMap (fun r =>
    (r.2.find? (fun p => p.slot == slot)).map (fun p =>
      (p.value, views.any (fun x => x.1 == key && x.2.1 == r.1 && (r.2.take x.2.2).any (fun q => q.slot == slot)))))

/-- The values down to the first that a view holds; with none, what follows as well. -/
def untilSeen (l : List (W64 × Bool)) (rest : List W64) : List W64 :=
  match l with
  | [] => rest
  | x :: l => if x.2 then [x.1] else x.1 :: untilSeen l rest

/-- What a window load may return: the posts of the slot in kept rounds of the parity, latest first, down to one that one of
these views holds; with none such also 0, which the cell held before its first post, and reads once its round has been
dropped, but not beside a kept post where a view held the post of a dropped round (18 R286, R287). -/
def Board.windowValues (b : Board) (key par slot : Nat) (views : List (Nat × W32 × Nat)) : List W64 :=
  let kept := postsIn b.kept key par slot views
  untilSeen kept (if !kept.isEmpty && (postsIn b.past key par slot views).any Prod.snd then [] else [0])

/- The checks of one lane (07 R138). -/

/-- The partition whose TLB the warp's accesses look in first (10 R208). -/
def View.asker (v : View) : Asker := .part v.core (v.slot % 4)

/-- The target block of an STX and whether the store fits (07 R143). -/
def State.stxTarget (s : State) (v : View) (scope : Scope) (va : W64) (n : Nat) : Option Nat :=
  let t := field va.toNat 32 16
  let fits (x : Nat × Block) : Bool := decide (field va.toNat 0 32 + n ≤ x.2.shadowBytes)
  let found := if scope == .k then
      if v.g.rec_.coop then s.blocks.find? (fun x => x.2.grid == v.gk && x.2.bid == t && x.2.state != .ended) else none
    else if v.b.isChild v.g then (if t = 0 then some (v.bk, v.b) else none)
    else if t < v.g.rec_.csize then (s.clusterOf v.b v.g.rec_).find? (fun x => x.2.crank == t) else none
  (found.filter fits).map Prod.fst

/-- Range, by path: the cause and what %taddr holds (07 R139, R143, R145). -/
def State.rangeCause (s : State) (v : View) (scope : Scope) (va : W64) (n : Nat) : Option (Cause × W64) :=
  match pathOf va with
  | 8 => if field va.toNat 0 32 < v.b.scratchBytes then none else some (.scratchRange, BitVec.ofNat 64 (field va.toNat 0 32))
  | 9 => if (s.stxTarget v scope va n).isSome then none else some (.exchangeTarget, va)
  | 10 =>
    let hd := field va.toNat 40 4
    match s.board? v.g hd with
    | none => some (.boardSlot, BitVec.ofNat 64 hd)
    | some b => if field va.toNat 3 8 < b.2.slots then none else some (.boardSlot, BitVec.ofNat 64 hd)
  | _ => none

/-- Path, alignment and range of one lane, in this order. -/
def State.preCheck (s : State) (v : View) (k : AccKind) (scope : Scope) (n : Nat) (va : W64) : Option (Cause × W64) :=
  match pathCause k (v.g.rec_.feature 3) va with
  | some c => some (c, va)
  | none => if va.toNat % n != 0 then some (.misaligned, va) else s.rangeCause v scope va n

/-- What is wrong with a lane's access. -/
inductive LaneFault where
  | cause (c : Cause) (addr : W64)
  | absent (va : W64)
deriving DecidableEq, Repr

/-- Translation of one lane. -/
def State.xlatFault (s : State) (v : View) (need : Nat) (va : W64) : Option LaneFault :=
  if isGlobal (pathOf va) then
    match s.xlat v.asker v.g.ctx (vbits va) need with
    | .ok _ => none
    | .absent => some (.absent va)
    | .protect => some (.cause .pageProtect va)
    | .walkErr => some (.cause .walkError va)
  else none

/-- All checks of one lane. -/
def State.laneFault (s : State) (v : View) (k : AccKind) (scope : Scope) (n need : Nat) (va : W64) : Option LaneFault :=
  match s.preCheck v k scope n va with
  | some (c, a) => some (.cause c a)
  | none => s.xlatFault v need va

/-- The fault of the lowest act lane that has one. -/
def State.firstFault (s : State) (v : View) (k : AccKind) (scope : Scope) (n need : Nat) (va : Nat → W64) : Option LaneFault :=
  (v.lanes.filterMap (fun l => s.laneFault v k scope n need (va l))).head?

/-- What an instruction does about a fault at issue: a trap, or parking on an absent page. -/
def State.onFault (s : State) (v : View) (kind : Nat) (f : LaneFault) : Eff :=
  match f with
  | .cause c a => .raise c v.grp a
  | .absent a => .park (s.parkWarp v.core v.slot v.g.ctx kind v.pc v.grp a 0)

/-- The physical address of a lane's access, where it is mapped. -/
def State.paOf (s : State) (at_ : Asker) (cx : Nat) (va : W64) (need : Nat) : Option Nat :=
  match s.xlat at_ cx (vbits va) need with
  | .ok pa => some pa
  | .absent | .protect | .walkErr => none

/- Waits of an access: own-location order, acquires and releases (10 R199). -/

def rangesMeet (a n b m : Nat) : Bool := a < b + m && b < a + n

/-- The accesses of the act lanes fill the TLBs they have passed through (10 R208). -/
def State.fillLanes (s : State) (v : View) (va : Nat → W64) : State :=
  v.lanes.foldl (fun s l => if isGlobal (pathOf (va l)) then s.fillTlb v.asker v.g.ctx (vbits (va l)) else s) s

/-- A path-0x1 load takes part in no order (10 R192). -/
def ordered (va : W64) : Bool := pathOf va != 1

/-- Accesses an instruction has not performed. -/
def OpKind.accesses (k : OpKind) : List Access :=
  match k with
  | .load acc _ _ _ => acc
  | .atomic acc _ n => if n = 0 then [] else acc
  | .value | .loaded | .pref _ | .waita .. | .qpop _ | .mmrd _ => []

/-- Whether two accesses of a thread may touch one byte. -/
def State.mayMeet (s : State) (at_ : Asker) (cx : Nat) (va : W64) (n : Nat) (x : Access) : Bool :=
  if pathOf va = 8 || pathOf x.va = 8 then
    pathOf va == pathOf x.va && rangesMeet (field va.toNat 0 32) n (field x.va.toNat 0 32) x.bytes
  else
  match s.paOf at_ cx va 0, s.paOf at_ cx x.va 0 with
  | some a, some b => rangesMeet a n b x.bytes
  | _, _ => rangesMeet (vbits va) n (vbits x.va) x.bytes

/-- An access of lane l must wait for one of its own that has not been performed. -/
def State.meetsOwn (s : State) (v : View) (l : Nat) (va : W64) (n : Nat) : Bool :=
  v.w.ops.any (fun o => !o.over && o.kind.accesses.any (fun x => x.lane == l && ordered x.va && s.mayMeet v.asker v.g.ctx va n x))

/-- The lanes in which an acquire has not read yet. -/
def Op.acquiring (o : Op) : Mask :=
  if o.over then 0
  else match o.kind with
    | .load acc _ x _ => if isAcq x.order then maskOf (fun l => acc.any (fun a => a.lane == l && ordered a.va)) else 0
    | .atomic _ x n => if n != 0 && isAcq x.order then o.act else 0
    | .waita _ offs _ => maskOf (fun l => offs.any (fun x => x.1 == l))
    | .value | .loaded | .pref _ | .qpop _ | .mmrd _ => 0

def Warp.acquiring (w : Warp) (m : Mask) : Bool := w.ops.any (fun o => o.acquiring &&& m != 0)

/-- An atomic of the colour that has not been performed. -/
def Warp.colourBusy (w : Warp) (m : Mask) (c : W3) : Bool :=
  w.ops.any (fun o => !o.over && o.act &&& m != 0 && (match o.kind with
    | .atomic _ x n => n != 0 && x.colour == c
    | .value | .loaded | .load .. | .pref _ | .waita .. | .qpop _ | .mmrd _ => false))

/-- A release, or a FENCE, of the threads waits for their earlier loads and atomics, and for the ICINVs they have under
way (07 R144, R152; 11 R216). -/
def Warp.releaseWaits (w : Warp) (m : Mask) : Bool := w.unserved m || w.icinvs.any (fun i => i.2.2 &&& m != 0)

/-- Whether a memory access waits: on an acquire, on its own earlier access to a byte, for a store also on an atomic of its
colour, and for a release on everything before it. A path-0x1 load never waits (10 R192). -/
def State.accessWaits (s : State) (v : View) (va : Nat → W64) (n : Nat) (store : Option W3) (release : Bool) : Bool :=
  v.w.acquiring (v.act &&& maskOf (fun l => ordered (va l)))
    || v.lanes.any (fun l => (isGlobal (pathOf (va l)) || pathOf (va l) == 8) && ordered (va l) && s.meetsOwn v l (va l) n)
    || store.any (fun c => v.w.colourBusy v.act c) || (release && v.w.releaseWaits v.act)

/-- A scratchpad offset as an address. -/
def padVa (o : W32) : W64 := o.setWidth 64 + 0x8000000000000000

/-- Whether an access to scratchpad offsets waits for one of the thread's own that has not been performed. -/
def State.padWaits (s : State) (v : View) (off : Nat → W32) (n : Nat) : Bool := v.lanes.any (fun l => s.meetsOwn v l (padVa (off l)) n)

/- Load values (07 R141). -/

/-- The words a load writes, lowest register first. -/
def loadWords (m : MW) (bs : List Byte) : List W32 :=
  let word (i : Nat) : W32 := BitVec.ofNat 32 (ofBytes ((bs.drop (4 * i)).take 4))
  match m.w with
  | .w8 => let x : Byte := BitVec.ofNat 8 (ofBytes (bs.take 1)); [if m.sx then x.signExtend 32 else x.setWidth 32]
  | .w16 => let x : W16 := BitVec.ofNat 16 (ofBytes (bs.take 2)); [if m.sx then x.signExtend 32 else x.setWidth 32]
  | .w32 => [word 0]
  | .w64 => [word 0, word 1]
  | .w128 => [word 0, word 1, word 2, word 3]

/-- Result columns from each lane's words. -/
def columnsOf (k : Nat) (f : Nat → List W32) : List (List W32) := (List.range k).map (fun i => perLane (fun l => nth (f l) i 0))

/-- The bytes lane l stores (07 R142). -/
def View.storeBytes (v : View) (w : Width) (b : W9) (l : Nat) : List Byte :=
  match w with
  | .w8 => bytesOf 1 (v.w.rd b.toNat l).toNat
  | .w16 => bytesOf 2 (v.w.rd b.toNat l).toNat
  | .w32 => bytesOf 4 (v.w.rd b.toNat l).toNat
  | .w64 => bytesOf 8 (v.w.rd64 b.toNat l).toNat
  | .w128 => bytesOf 8 (v.w.rd64 b.toNat l).toNat ++ bytesOf 8 (v.w.rd64 (b.toNat + 2) l).toNat

/- Stores. -/

/-- One lane's store: lane, path, address, bytes. -/
structure LaneStore where
  lane : Nat
  path : Nat
  addr : Nat
  bytes : List Byte
deriving DecidableEq, Repr

/-- How a store is ordered: its colour, and for a release the colours of its mask and its scope (07 R142, R152). -/
structure StoreOrd where
  colour : W3
  release : Option W8 := none
  scope : Scope := .dflt
deriving DecidableEq, Repr

def StoreOrd.heads (o : StoreOrd) : List Nat := if o.release.isSome then [Scope.rank o.scope] else []

def StoreOrd.padHeads (o : StoreOrd) : List Nat := if o.release.isSome then [Scope.rank (Scope.onPad o.scope)] else []

/-- Bytes of the lanes' stores, in lane order; of several for one address the last remains. -/
def storeCells (items : List LaneStore) : List (Nat × Byte) :=
  lastBytes (items.flatMap (fun x => (List.range x.bytes.length).map (fun i => (x.addr + i, nth x.bytes i 0))))

/-- One piece of a store to a line: the lanes whose bytes it holds, and the ECC words their whole store covers. -/
def State.storeLine (s : State) (k die cx line : Nat) (o : StoreOrd) (whole : List Nat) (items : List LaneStore) : State :=
  match tget s.warps k with
  | none => s
  | some w =>
    let mine := items.filter (fun x => lineOf x.addr == line)
    let vec := VC.joins (mine.map (fun x => (w.clkAt x.lane).writeVec o.colour.toNat o.release x.addr x.bytes.length))
    let at_ : WAttr := { heads := o.heads, sys := o.release.isSome && o.scope == .s, merge := mine.all (fun x => x.path == 0), cx := cx,
                         maker := s.makerOf w (mine.map (fun x => x.lane)) }
    let (s, n) := s.sendWrite die vec at_ ((storeCells items).filter (fun b => lineOf b.1 == line)) whole
    s.modWarp k (fun w => mine.foldl (fun w x =>
      w.modClk x.lane (fun c => c.didWrite o.colour.toNat x.addr x.bytes.length (VC.zero.raise die n))) w)

/-- The halves of 16-byte stores, each an access of its own (10 R194). -/
def storeHalves (items : List LaneStore) : List (List LaneStore) :=
  if items.any (fun x => x.bytes.length == 16) then
    [items.map (fun x => { x with bytes := x.bytes.take 8 }), items.map (fun x => { x with addr := x.addr + 8, bytes := x.bytes.drop 8 })]
  else [items]

/-- Stores to global memory, one write a line and half, merged over the lanes; which half of a 16-byte store goes first is
free, and the later clears what the whole store covers (10 R194, R205, R212). -/
def State.storeGlobal (s : State) (k die cx : Nat) (o : StoreOrd) (items : List LaneStore) : State :=
  let halves := storeHalves items
  let halves := if Config.freeNat s.fresh % 2 = 1 then halves.reverse else halves
  let all := storeCells items
  let n := halves.length
  { ((List.range n).foldl (fun s i =>
      let part := nth halves i []
      (linesOf (storeCells part)).foldl (fun s line =>
        let whole := if i + 1 = n then wholeWords 32 (all.filter (fun b => lineOf b.1 == line)) else []
        s.storeLine k die cx line o whole part) s) s) with fresh := if n = 1 then s.fresh else s.fresh + 1 }

/-- How the lanes' 16-byte scratchpad accesses are made, which is free: 0 both halves in one step, 1 the low half first, 2 the
high half first (10 R194). -/
def State.halves (s : State) (n : Nat) : Nat := if n = 16 then Config.freeNat s.fresh % 3 else 0

/-- One half of a 16-byte store. -/
def LaneStore.half (x : LaneStore) (high : Bool) : LaneStore :=
  if high then { x with addr := x.addr + 8, bytes := x.bytes.drop 8 } else { x with bytes := x.bytes.take 8 }

/-- A store to the scratchpad, with the clock a reader takes from it (10 R193, R199). -/
def State.storePad (s : State) (k bk : Nat) (o : StoreOrd) (x : LaneStore) : State :=
  match tget s.warps k with
  | none => s
  | some w =>
    let n := x.bytes.length
    let vec := (w.clkAt x.lane).writeVec o.colour.toNat o.release (padKey x.addr) n
    let s := s.modBlock bk (fun b => b.padStore x.addr x.bytes { clk := vec, heads := o.padHeads, wid := w.wid } none)
    s.modWarp k (fun w => w.modClk x.lane (fun c => c.didWrite o.colour.toNat (padKey x.addr) n vec))

/-- What an acquire on the scratchpad by a warp takes, as the writers are within its scope: all are of one block (10 R199). -/
def Block.padAcquired (b : Block) (x : Scope) (wid off n : Nat) : VC :=
  b.padClkOf off n (fun y => Scope.onPad x != .w || y == wid)

/-- A read of the scratchpad by a lane: its bytes, and the lane's clock; an acquire counts for writers within its scope. -/
def State.readPad (s : State) (k bk l off n : Nat) (acquire : Option Scope) : List Byte × State :=
  match s.blk? bk with
  | none => (List.replicate n 0, s)
  | some b => (b.padLoad off n, s.modWarp k (fun w => w.modClk l (fun c =>
      let c := c.didRead (padKey off) n (b.padClk off n)
      match acquire with
      | none => c
      | some x => c.acquire (b.padAcquired x w.wid off n))))

/-- The lanes' scratchpad stores. Of 16 bytes each half is an access, and the second may follow in a step of its own
(10 R194). -/
def State.storePads (s : State) (v : View) (o : StoreOrd) (n : Nat) (items : List LaneStore) : Eff :=
  let put (s : State) (items : List LaneStore) : State := items.foldl (fun s x => s.storePad v.key v.bk o x) s
  match v.w.half with
  | some (_, high) => .done ((put s (items.map (fun x => x.half (!high)))).modWarp v.key (fun w => { w with half := none }))
  | none =>
    if items.isEmpty || s.halves n = 0 then .done (put s items)
    else
      let high := s.halves n == 2
      .stay ((put s.tickFresh (items.map (fun x => x.half high))).modWarp v.key (fun w => { w with half := some (v.entry, high) }))

/-- The lowest act lane whose scratchpad bytes are poisoned (10 R211). -/
def View.padPoison (v : View) (off : Nat → Option Nat) (n : Nat) : Option W64 :=
  (v.lanes.filterMap (fun l => (off l).bind (fun o => v.b.padPoison o n))).head?.map (fun o => BitVec.ofNat 64 o)

end Sys2Proof.Machine
end

