-- ==== Sys2Proof/Machine/Mem.lean ====
section
/-! DEFINITION. Class MEM: loads, stores, exchange stores, prefetch and cache control (07 R138 to R145). -/

namespace Sys2Proof.Machine

/-- What a lane of a load reads of the scratchpad at issue: its bytes, or of 16 the half that goes first (10 R194). -/
def State.padRead1 (s : State) (v : View) (m : MW) (acquire : Option Scope) (how l off : Nat) : (Nat × List W32) × State :=
  let word (bs : List Byte) (i : Nat) : W32 := BitVec.ofNat 32 (ofBytes ((bs.drop (4 * i)).take 4))
  match how with
  | 0 => let r := s.readPad v.key v.bk l off (widthBytes m.w) acquire; ((l, loadWords m r.1), r.2)
  | 1 => let r := s.readPad v.key v.bk l off 8 acquire; ((l, [word r.1 0, word r.1 1, 0, 0]), r.2)
  | _ => let r := s.readPad v.key v.bk l (off + 8) 8 acquire; ((l, [0, 0, word r.1 0, word r.1 1]), r.2)

/-- What the lanes of a load that do not go to global memory read at issue: scratchpad bytes, and a board window's free
choice among the values it may show, where the register takes one word for all lanes, those it may show every lane (10 R193;
18 R287; log entry 10). -/
def State.localLoad (s : State) (v : View) (m : MW) (acquire : Option Scope) (how : Nat) (one : Bool) (va : Nat → W64) : List (Nat × List W32) × State :=
  v.lanes.foldl (fun acc l =>
    let a := (va l).toNat
    match pathOf (va l) with
    | 8 =>
      let r := acc.2.padRead1 v m acquire how l (field a 0 32)
      (acc.1 ++ [r.1], r.2)
    | 10 =>
      match acc.2.board? v.g (field a 40 4) with
      | none => acc
      | some (k, b) =>
        let vs := b.windowValues k (field a 39 1) (field a 3 8) (if one then v.lanes.flatMap (fun l => (v.w.clkAt l).views) else (v.w.clkAt l).views)
        let x := nth vs (Config.freeNat acc.2.fresh % vs.length) 0
        (acc.1 ++ [(l, loadWords m ((bytesOf 8 x.toNat).drop (field a 0 3)))], acc.2.tickFresh)
    | _ => acc) ([], s)

/-- The accesses of lanes: one of 16 bytes is two of 8 (10 R194). -/
def accessesOf (n : Nat) (va : Nat → W64) (lanes : List Nat) : List Access :=
  lanes.flatMap (fun l => if n = 16 then [⟨l, va l, 8, false⟩, ⟨l, va l + 8, 8, false⟩] else [⟨l, va l, n, false⟩])

/-- The second halves of scratchpad accesses, which are read in a later step (10 R194). -/
def laterHalves (how : Nat) (lds : Bool) (va : Nat → W64) (lanes : List Nat) : List Access :=
  match how with
  | 0 => []
  | 1 => lanes.map (fun l => ⟨l, va l + 8, 8, lds⟩)
  | _ => lanes.map (fun l => ⟨l, va l, 8, lds⟩)

def execLd (h : Hdr) (m : MW) (d a : W9) (off : Option W32) (x : Option MemX) (s : State) : Out :=
  let i : Instr := .ld h m d a off x
  issue s h (reqOf i) (fun v s =>
    let mx := memX x
    let n := widthBytes m.w
    let va := v.addr a off
    let early := v.lanes.any (fun l => (s.preCheck v (.ld m.w) mx.scope n (va l)).isSome)
    match (if early then s.firstFault v (.ld m.w) mx.scope n needRD va else none) with
    | some f => s.onFault v faultKindLoad f
    | none =>
      if s.accessWaits v va n none false then .hold
      else
        match v.padPoison (fun l => if pathOf (va l) = 8 then some (field (va l).toNat 0 32) else none) n with
        | some p => .raise .memoryError v.grp (p + 0x8000000000000000)
        | none =>
          let acc := accessesOf n va (v.lanes.filter (fun l => isGlobal (pathOf (va l))))
          let pads := v.lanes.filter (fun l => pathOf (va l) = 8)
          let how := if pads.isEmpty then 0 else s.halves n
          let q := reqOf i v
          let one := q.writes.all (fun w => v.tagOf false w.2 == .u)
          let r := (if how = 0 then s else s.tickFresh).localLoad v m (if isAcq mx.order then some mx.scope else none) how one va
          let all := laterHalves how false va pads ++ acc
          let res := columnsOf q.writes.length (fun l => ((r.1.find? (fun y => y.1 == l)).map Prod.snd).getD [])
          let kind : OpKind := if all.isEmpty then .loaded else .load all m mx acc.isEmpty
          .done (v.launchOp r.2 h kind (q.writes.map (fun w => (w.1, v.tagOf false w.2))) res 0))

/-- The lanes' stores on global paths, and on the scratchpad path. -/
def State.globalStores (s : State) (v : View) (va : Nat → W64) (bs : Nat → List Byte) : List LaneStore :=
  v.lanes.filterMap (fun l =>
    if isGlobal (pathOf (va l)) then (s.paOf v.asker v.g.ctx (va l) needW).map (fun pa => ⟨l, pathOf (va l), pa, bs l⟩) else none)

def View.padStores (v : View) (va : Nat → W64) (bs : Nat → List Byte) : List LaneStore :=
  v.lanes.filterMap (fun l => if pathOf (va l) = 8 then some ⟨l, 8, field (va l).toNat 0 32, bs l⟩ else none)

def execSt (h : Hdr) (w : Width) (a b : W9) (cm : W8) (off : Option W32) (x : Option MemX) (s : State) : Out :=
  issue s h (reqOf (.st h w a b cm off x)) (fun v s =>
    let mx := memX x
    let n := widthBytes w
    let va := v.addr a off
    let o : StoreOrd := { colour := mx.colour, release := if isRel mx.order then some cm else none, scope := mx.scope }
    if v.w.half.isSome then s.storePads v o n (v.padStores va (v.storeBytes w b))
    else
    match s.firstFault v .st mx.scope n needW va with
    | some f => s.onFault v faultKindStore f
    | none =>
      if s.accessWaits v va n (some mx.colour) (isRel mx.order) then .hold
      else
        let s1 := (s.fillLanes v va).storeGlobal v.key v.die v.g.ctx o (s.globalStores v va (v.storeBytes w b))
        s1.storePads v o n (v.padStores va (v.storeBytes w b)))

/-- The checks of LDS and STS, whose %taddr is the offset. -/
def View.padFault (v : View) (n : Nat) (off : Nat → W32) : Option (Cause × W64) :=
  (v.lanes.filterMap (fun l =>
    let o := (off l).toNat
    if o % n != 0 then some (Cause.misaligned, BitVec.ofNat 64 o)
    else if v.b.scratchBytes ≤ o then some (Cause.scratchRange, BitVec.ofNat 64 o)
    else none)).head?

def execLds (h : Hdr) (m : MW) (d a : W9) (off : Option W32) (s : State) : Out :=
  let i : Instr := .lds h m d a off
  issue s h (reqOf i) (fun v s =>
    let n := widthBytes m.w
    let o := v.padAddr a off
    match v.padFault n o with
    | some (c, x) => .raise c v.grp x
    | none =>
      if v.w.acquiring v.act || s.padWaits v o n then .hold
      else
        match v.padPoison (fun l => some (o l).toNat) n with
        | some p => .raise .memoryError v.grp p
        | none =>
          let va (l : Nat) : W64 := padVa (o l)
          let how := s.halves n
          let r := (if how = 0 then s else s.tickFresh).localLoad v m none how false va
          let later := laterHalves how true va v.lanes
          let kind : OpKind := if later.isEmpty then .loaded else .load later m (memX none) true
          let q := reqOf i v
          let res := columnsOf q.writes.length (fun l => ((r.1.find? (fun y => y.1 == l)).map Prod.snd).getD [])
          .done (v.launchOp r.2 h kind (q.writes.map (fun w => (w.1, v.tagOf false w.2))) res 0))

def execSts (h : Hdr) (w : Width) (a b : W9) (off : Option W32) (s : State) : Out :=
  issue s h (reqOf (.sts h w a b off)) (fun v s =>
    let o := v.padAddr a off
    let n := widthBytes w
    let items : List LaneStore := v.lanes.map (fun l => ⟨l, 8, (o l).toNat, v.storeBytes w b l⟩)
    if v.w.half.isSome then s.storePads v { colour := 0 } n items
    else
    match v.padFault n o with
    | some (c, x) => .raise c v.grp x
    | none =>
      if v.w.acquiring v.act || v.w.colourBusy v.act 0 || s.padWaits v o n then .hold
      else s.storePads v { colour := 0 } n items)

/-- STX: the stores leave for their targets with the sender's parity (07 R143). -/
def execStx (h : Hdr) (w : Width) (a b : W9) (off : Option W32) (x : Option MemX) (s : State) : Out :=
  issue s h (reqOf (.stx h w a b off x)) (fun v s =>
    let scope := (memX x).scope
    let n := widthBytes w
    let va := v.addr a off
    match s.firstFault v .stx scope n 0 va with
    | some f => s.onFault v faultKindStore f
    | none =>
      let first := s.nextKey
      .done (v.lanes.foldl (fun s l =>
        match s.stxTarget v scope (va l) n with
        | none => s
        | some t =>
          let m : StxMsg := { key := s.nextKey, group := first, blk := t, src := v.bk, wid := v.w.wid, off := field (va l).toNat 0 32,
                              bytes := v.storeBytes w b l, parity := v.b.parity }
          { s with nextKey := s.nextKey + 1, stxs := s.stxs ++ [m] }) s))

/-- PREF: lanes whose access would fault are dropped (07 R144). -/
def execPref (h : Hdr) (a : W9) (off : Option W32) (s : State) : Out :=
  issue s h (reqOf (.pref h a off)) (fun v s =>
    let va := v.addr a off
    let acc : List Access := (v.lanes.filter (fun l => (s.laneFault v .pref .dflt 1 needRD (va l)).isNone)).map (fun l => ⟨l, va l, 1, false⟩)
    .done (v.launchOp s h (.pref acc) [] [] 0))

/-- The physical lines of the act lanes' addresses. -/
def State.linesAt (s : State) (v : View) (va : Nat → W64) : List Nat :=
  (v.lanes.filterMap (fun l => (s.paOf v.asker v.g.ctx (va l) needRD).map lineOf)).eraseDups

/-- A die's copy of a line leaves its store, and the poison of its words goes with the line to its home (10 R211). -/
def State.dropCopy (s : State) (die line : Nat) : State :=
  let home := homeOf (line * 128)
  let bad := (s.die die).bad.filter (fun w => w / 16 == line)
  if home = die || (tget (s.die die).copies line).isNone then s
  else
    (s.modDie die (fun d => { d with copies := tdel d.copies line, bad := d.bad.filter (fun w => w / 16 != line) })).modDie home
      (fun d => { d with bad := d.bad ++ bad.filter (fun w => !d.bad.contains w) })

/-- A line leaves the store of its home: the words that path-0x0 writes have merged go to memory (10 R212). -/
def State.dropHome (s : State) (line : Nat) : State :=
  s.modDie (homeOf (line * 128)) (fun d => { d with merged := d.merged.filter (fun w => w.1 / 4 != line) })

/-- Discard the copies of a line that a core and, for a line homed elsewhere, its die's store hold; poisoned data is not
discarded (10 R211). -/
def State.dropLine (s : State) (core line : Nat) : State :=
  let s := s.modCore core (fun c => { c with lines := tdel c.lines line })
  if (s.die (coreDie core)).bad.any (fun w => w / 16 == line) then s else s.dropCopy (coreDie core) line

/-- CCTL.wb of a line: the writes of its die have reached the home, with the poison and the merged words (10 R211, R212). -/
def State.writeBack (s : State) (core line : Nat) : State :=
  let die := coreDie core
  let home := homeOf (line * 128)
  let bad := (s.die die).bad.filter (fun w => w / 16 == line)
  (s.modDie home (fun d => { d with bad := d.bad ++ bad.filter (fun w => !d.bad.contains w) })).dropHome line

/-- Whether the home has yet to apply a write of the die to the line. -/
def State.owed (s : State) (die line : Nat) : Bool :=
  s.msgs.any (fun m => m.origin == die && lineOf m.addr == line && m.dst == homeOf m.addr)

def execCctl (h : Hdr) (mode : CctlMode) (a : W9) (off : Option W32) (s : State) : Out :=
  issue s h (reqOf (.cctl h mode a off)) (fun v s =>
    let va := v.addr a off
    match s.firstFault v .cctl .dflt 1 needRD va with
    | some f => s.onFault v faultKindLoad f
    | none =>
      let lines := s.linesAt v va
      let wait (inv : Bool) : State := s.modWarp v.key (fun w => { w with wait := .wb lines inv, waitSince := s.tsc })
      if v.act == 0 then .done s
      else match mode with
      | .inv => .done (lines.foldl (fun s l => s.dropLine v.core l) s)
      | .wb => .done (if lines.any (s.owed v.die) then wait false else lines.foldl (fun s l => s.writeBack v.core l) s)
      | .wbinv => .done (if lines.any (s.owed v.die) then wait true else lines.foldl (fun s l => (s.writeBack v.core l).dropLine v.core l) s))

/-- ICINV: the invalidation follows the threads' stores of every colour (07 R144). -/
def execIcinv (h : Hdr) (a : W9) (off : Option W32) (s : State) : Out :=
  issue s h (reqOf (.icinv h a off)) (fun v s =>
    let va := v.addr a off
    match s.firstFault v .icinv .dflt 1 needRD va with
    | some f => s.onFault v faultKindLoad f
    | none =>
      if (List.range 8).any (fun c => v.w.colourBusy v.act (BitVec.ofNat 3 c)) then .hold
      else
        let vec := VC.joins (v.lanes.map (fun l => VC.joins ((v.w.clkAt l).base :: (v.w.clkAt l).col)))
        .done (s.modWarp v.key (fun w => { w with icinvs := w.icinvs ++ (s.linesAt v va).map (fun l => (l, vec, v.act)) })))

end Sys2Proof.Machine
end

