-- ==== Sys2Proof/Machine/Sync.lean ====
section
/-! DEFINITION. Class SYNC: atomics, fences and WAITA (07 R146 to R153). -/

namespace Sys2Proof.Machine

/- Read-modify-write (07 R146 to R148). -/

/-- The new value of one lane's operation but for .fadd (07 R146). -/
def atomNew (op : AOp) (old b : W64) : W64 :=
  let o := old.setWidth 32
  let x := b.setWidth 32
  let r (v : W32) : W64 := v.setWidth 64
  match op with
  | .add32 => r (o + x)
  | .add64 => old + b
  | .minI => r (if o.toInt ≤ x.toInt then o else x)
  | .maxI => r (if o.toInt ≤ x.toInt then x else o)
  | .minN => r (if o.toNat ≤ x.toNat then o else x)
  | .maxN => r (if o.toNat ≤ x.toNat then x else o)
  | .and => r (o &&& x)
  | .or => r (o ||| x)
  | .xor => r (o ^^^ x)
  | .exch32 => r x
  | .exch64 => b
  | .inc => r (if x.toNat ≤ o.toNat then 0 else o + 1)
  | .dec => r (if o = 0 || x.toNat < o.toNat then x else o - 1)
  | .fadd => r (add32 o x).1
  | .fmin => r (min32 o x).1
  | .fmax => r (max32 o x).1

/-- Lanes applied one after another: what each receives, and what is left (07 R147, R148). -/
def atomEach (f : W64 → AtomLane → W64) (old : W64) (ls : List AtomLane) : List (Nat × W64) × W64 :=
  ls.foldl (fun acc x => (acc.1 ++ [(x.lane, acc.2)], f acc.2 x)) ([], old)

/-- .fadd: a running sum of the lanes, added to the old value (07 R147). -/
def atomFadd (old : W64) (ls : List AtomLane) : List (Nat × W64) × W64 :=
  let o := old.setWidth 32
  let r := ls.foldl (fun (acc : List (Nat × W64) × Option W32) x =>
    let b := x.b.setWidth 32
    match acc.2 with
    | none => (acc.1 ++ [(x.lane, o.setWidth 64)], some b)
    | some t => (acc.1 ++ [(x.lane, ((add32 o t).1).setWidth 64)], some (add32 t b).1)) ([], none)
  (r.1, match r.2 with | none => o.setWidth 64 | some t => ((add32 o t).1).setWidth 64)

/-- A combined operation on one location; none is ATOMC. -/
def atomApply (op : Option AOp) (old : W64) (ls : List AtomLane) : List (Nat × W64) × W64 :=
  match op with
  | none => atomEach (fun v x => if v = x.b then x.c else v) old ls
  | some .fadd => atomFadd old ls
  | some o => atomEach (fun v x => atomNew o v x.b) old ls

/-- Lanes by location, in order of the lowest lane. -/
def groupLanes (ls : List (Nat × Nat)) : List (Nat × List Nat) :=
  ls.foldl (fun gs x =>
    if gs.any (fun g => g.1 == x.2) then gs.map (fun g => if g.1 == x.2 then (g.1, g.2 ++ [x.1]) else g)
    else gs ++ [(x.2, [x.1])]) []

/-- The words an atomic returns. -/
def atomWords (n : Nat) (v : W64) : List W32 := if n = 8 then [v.setWidth 32, v.extractLsb' 32 32] else [v.setWidth 32]

/-- Lanes that put result words into a column list. -/
def putWords (cols : List (List W32)) (rs : List (Nat × List W32)) : List (List W32) :=
  (List.range cols.length).map (fun i => perLane (fun l =>
    match rs.find? (fun r => r.1 == l) with
    | some r => nth r.2 i 0
    | none => nth (nth cols i []) l 0))

/-- A combined atomic on scratchpad bytes, performed at once; its write follows what it read only as a release, or at the bytes
whose release sequence it continues (07 R150; 10 R191, R193, R204; 11 R214). -/
def State.padAtomic (s : State) (v : View) (op : Option AOp) (n : Nat) (x : MemX) (g : Nat × List Nat)
    (b c : Nat → W64) : List (Nat × List W32) × State :=
  match s.blk? v.bk, tget s.warps v.key with
  | some blk, some w =>
    let off := g.1
    let old : W64 := BitVec.ofNat 64 (ofBytes (blk.padLoad off n))
    let r := atomApply op old (g.2.map (fun l => ⟨l, b l, c l⟩))
    let release : Option W8 := if isRel x.order then some 0xFF else none
    let was := blk.padClk off n
    let rank := Scope.rank (Scope.onPad x.scope)
    let seq (i : Nat) : List Nat := continued rank (blk.padHeads (off + i))
    let goesOn := (List.range n).filter (fun i => !(seq i).isEmpty)
    let vec := VC.joins ((if isRel x.order then was else VC.joins (goesOn.map (fun i => blk.padClk (off + i) 1)))
      :: g.2.map (fun l => (w.clkAt l).writeVec x.colour.toNat release (padKey off) n))
    let heads (i : Nat) : List Nat := seq i ++ (if isRel x.order then [rank] else [])
    let s := s.modBlock v.bk (fun b =>
      b.padStoreBy off (bytesOf n r.2.toNat) (fun i => { clk := vec, heads := heads i, wid := w.wid }) none)
    let counted := blk.padAcquired x.scope w.wid off n
    let s := s.modWarp v.key (fun w => g.2.foldl (fun w l => w.modClk l (fun c =>
      let c := c.didRead (padKey off) n was
      (if isAcq x.order then c.acquire counted else c).didWrite x.colour.toNat (padKey off) n vec)) w)
    (r.1.map (fun y => (y.1, atomWords n y.2)), s)
  | _, _ => ([], s)

/-- ATOM, ATOMC and RED: scratchpad locations at once, global ones by a message to each location's home. -/
def atomic (s : State) (h : Hdr) (i : Instr) (op : Option AOp) (n : Nat) (a : W9) (off : Option W32) (x : Option MemX)
    (b c : View → Nat → W64) : Out :=
  issue s h (reqOf i) (fun v s =>
    let mx := memX x
    let va := v.addr a off
    match s.firstFault v .atomic mx.scope n (needRD + needW) va with
    | some f => s.onFault v faultKindAtomic f
    | none =>
      if s.accessWaits v va n (some mx.colour) (isRel mx.order) then .hold
      else
        match v.padPoison (fun l => if pathOf (va l) = 8 then some (field (va l).toNat 0 32) else none) n with
        | some p => .raise .memoryError v.grp (p + 0x8000000000000000)
        | none =>
          let pads := groupLanes ((v.lanes.filter (fun l => pathOf (va l) = 8)).map (fun l => (l, field (va l).toNat 0 32)))
          let globs := groupLanes (v.lanes.filterMap (fun l =>
            if isGlobal (pathOf (va l)) then (s.paOf v.asker v.g.ctx (va l) 0).map (fun pa => (l, pa)) else none))
          let r := pads.foldl (fun acc g =>
            let y := acc.2.padAtomic v op n mx g (b v) (c v)
            (acc.1 ++ y.1, y.2)) (([] : List (Nat × List W32)), s.fillLanes v va)
          let q := reqOf i v
          let acc : List Access := (v.lanes.filter (fun l => isGlobal (pathOf (va l)))).map (fun l => ⟨l, va l, n, false⟩)
          let res := putWords (List.replicate q.writes.length (List.replicate 32 0)) r.1
          let id := r.2.nextKey
          let s := v.launchOp r.2 h (.atomic acc mx globs.length) (q.writes.map (fun w => (w.1, v.tagOf false w.2))) res 0
          let release : Option W8 := if isRel mx.order then some 0xFF else none
          .done (globs.foldl (fun s g =>
            let m : Msg := { key := s.nextKey, origin := v.die, num := 0,
                             vec := VC.joins (g.2.map (fun l => (v.w.clkAt l).writeVec mx.colour.toNat release g.1 n)),
                             dst := homeOf g.1, addr := g.1, bytes := [], hs := 0, held := false,
                             kind := .atomic op n (g.2.map (fun l => ⟨l, b v l, c v l⟩)) mx v.core v.slot id,
                             sys := isRel mx.order && mx.scope == .s, settling := false, merge := false, whole := [], cx := v.g.ctx,
                             maker := s.makerOf v.w g.2 }
            { s with nextKey := s.nextKey + 1, msgs := s.msgs ++ [m] }) s))

/-- A 32- or 64-bit operand in a lane. -/
def View.opnd (dbl : Bool) (r : W9) (v : View) (l : Nat) : W64 :=
  if dbl then v.w.rd64 r.toNat l else (v.w.rd r.toNat l).setWidth 64

def execAtom (h : Hdr) (op : AOp) (d a b : W9) (off : Option W32) (x : Option MemX) (s : State) : Out :=
  atomic s h (.atom h op d a b off x) (some op) (if op.is64 then 8 else 4) a off x (View.opnd op.is64 b) (fun _ _ => 0)

def execAtomc (h : Hdr) (dbl : Bool) (d a b c : W9) (off : Option W32) (x : Option MemX) (s : State) : Out :=
  atomic s h (.atomc h dbl d a b c off x) none (if dbl then 8 else 4) a off x (View.opnd dbl b) (View.opnd dbl c)

def execRed (h : Hdr) (op : AOp) (a b : W9) (off : Option W32) (x : Option MemX) (s : State) : Out :=
  atomic s h (.red h op a b off x) (some op) (if op.is64 then 8 else 4) a off x (View.opnd op.is64 b) (fun _ _ => 0)

/-- FENCE: the earlier loads and the stores of the mask colours come before everything later; it waits for the threads'
ICINVs (07 R151; 11 R216). The clocks carry the edge to every thread, inside the scope or not (10 R205, R316). -/
def execFence (h : Hdr) (cm : W8) (x : Option Scope) (s : State) : Out :=
  issue s h (reqOf (.fence h cm x)) (fun v s =>
    if v.w.releaseWaits v.act then .hold
    else .done (s.modWarp v.key (fun w => w.modClks v.act (fun c => c.fence cm))))

/-- WAITA's condition (07 R153). -/
def waitHolds (c : WaitCond) (v cmp : W32) : Bool :=
  match c with
  | .eq => v == cmp
  | .ne => v != cmp
  | .ge => cmp.toNat ≤ v.toNat

/-- WAITA sleeps until each act lane's word satisfies its condition (07 R153). -/
def execWaita (h : Hdr) (c : WaitCond) (d a : W9) (b : SrcB) (s : State) : Out :=
  let i : Instr := .waita h c d a b
  issue s h (reqOf i) (fun v s =>
    match v.padFault 4 (fun l => v.w.rd a.toNat l) with
    | some (c, x) => .raise c v.grp x
    | none =>
      if v.w.acquiring v.act || s.padWaits v (fun l => v.w.rd a.toNat l) 4 then .hold
      else
        match v.padPoison (fun l => some (v.w.rd a.toNat l).toNat) 4 with
        | some p => .raise .memoryError v.grp p
        | none =>
          let q := reqOf i v
          .done (v.launchOp s h (.waita c (v.lanes.map (fun l => (l, (v.w.rd a.toNat l).toNat))) (v.lanes.map (fun l => (l, v.w.srcB b l))))
            (q.writes.map (fun w => (w.1, v.tagOf false w.2))) [List.replicate 32 0] 0))

end Sys2Proof.Machine
end

