-- ==== Sys2Proof/Machine/WarpEv.lean ====
section
/-! DEFINITION. Steps of warps that are no instruction words: taking a trap, hangs, the watchdog, the ends of naps, and
the service and completion of long-latency instructions (01 R24 to R27, R44; 07 R129, R141, R153; 10 R202, R205, R207 to
R211; 13 R219, R227; 20 R296). A step whose condition does not hold changes nothing. -/

namespace Sys2Proof.Machine

def execTakeTrap (core slot : Nat) (s : State) : Out :=
  match s.warp? core slot with
  | none => .next s
  | some w => if w.halted && !w.async.any (fun x => x.1 == .contextKill) then .next s else .next (s.takeTrap (warpKey core slot))

/-- 2^20 issue cycles are 4,096 windows; one more makes up for the window in which the condition began (01 R44). -/
def Warp.hung (w : Warp) (window : Nat) : Bool := w.hang != 0 && w.hang + 4096 ≤ window

def execSplitHang (core slot : Nat) (s : State) : Out :=
  let k := warpKey core slot
  match tget s.warps k with
  | none => .next s
  | some w =>
    if w.hung (s.col (coreColumn core)).window then
      .next ((s.modWarp k (fun w => { (w.addAsync .splitHang 0) with hang := 0 })).takeTrap k)
    else .next s

/- The watchdog (13 R227). -/

/-- A wait that has lasted the limit: a single thread's, or the warp's in a BPV or BVM, which a condition tells from BRST, or on the
block limit. -/
def Warp.waitedOut (w : Warp) (view : Nat → Bool) (now limit : Nat) : Bool :=
  allLanes.any (fun l => (match nth w.lwait l .none with
      | .bar .. => true
      | .wsync _ => true
      | .tile .. => true
      | .none | .passed => false) && (w.laneAt l).live && decide (nth w.lwaitSince l 0 + limit ≤ now))
    || (match w.wait with
      | .board k => view k && decide (w.waitSince + limit ≤ now)
      | .blockLimit => decide (w.waitSince + limit ≤ now)
      | .none | .nap _ | .cmprs _ | .wb .. | .isync | .parked .. | .yielded | .resumed => false)

def Warp.opWaitedOut (w : Warp) (now limit : Nat) : Option Op :=
  w.ops.find? (fun o => !o.over && o.kind.waits && w.wait != .cmprs o.id && decide (o.since + limit ≤ now))

/-- The watchdog limit of a warp's context, in ticks. -/
def State.watchLimit (s : State) (w : Warp) : Option Nat :=
  ((s.blk? w.blk).bind (fun b => tget s.grids b.grid)).bind (fun g => (tget s.ctxs g.ctx).map (fun c => c.wdog * 1000000))

/-- WATCHDOG ends a wait: it becomes pending, and the instruction executes again after TRET; in a handler it is a double
fault (13 R224, R225, R227). -/
def execWatchdog (core slot : Nat) (s : State) : Out :=
  let k := warpKey core slot
  match tget s.warps k with
  | none => .next s
  | some w =>
    match s.watchLimit w with
    | none => .next s
    | some limit =>
      let parked := match w.wait with | .parked .. => true | _ => false
      if parked || w.halted then .next s
      else
        let op := w.opWaitedOut s.tsc limit
        let view (key : Nat) : Bool := match s.breq? key with | some r => r.kind != .brst | none => false
        if op.isSome || w.waitedOut view s.tsc limit then
          if w.trap.isSome then .next (s.doubleFault k .watchdog ((op.map (fun o => o.pc)).getD w.front.2))
          else .next ((s.modWarp k (fun w => w.addAsync .watchdog 0)).takeTrap k)
        else .next s

def execNapWake (core slot : Nat) (s : State) : Out :=
  match s.warp? core slot with
  | some w =>
    match w.wait with
    | .nap u => if u ≤ s.tsc then .next (s.modWarp (warpKey core slot) (fun w => { w with wait := .none })) else .next s
    | _ => .next s
  | none => .next s

/- Loads. -/

/-- A response for an instruction that a core reset has ended is discarded and counted (20 R296). -/
def State.staleResponse (s : State) (core slot op : Nat) : State :=
  if s.orphans.contains (core, slot, op) then
    { s.countStale (coreDie core) with orphans := s.orphans.filter (fun x => x != (core, slot, op)) }
  else s

def execLoadComplete (core slot op : Nat) (s : State) : Out :=
  match (s.warp? core slot).bind (fun w => w.op? op) with
  | none => .next (s.staleResponse core slot op)
  | some o =>
    match o.kind with
    | .loaded => .next (s.completeOp (warpKey core slot) o o.res)
    | _ => .next s

/-- A load step's warp, operation and grid. -/
def State.loadAt (s : State) (core slot op : Nat) : Option (Warp × Op × Grid) :=
  (s.warp? core slot).bind (fun w => (w.op? op).bind (fun o =>
    ((s.blk? w.blk).bind (fun b => tget s.grids b.grid)).map (fun g => (w, o, g))))

/-- The warp is parked on a fault of this operation (10 R209). -/
def Warp.parkedOn (w : Warp) (op : Nat) : Bool :=
  match w.wait with
  | .parked _ _ _ _ _ _ id => id == op
  | _ => false

/-- Change the kind and the results of an operation. -/
def Warp.setOp (w : Warp) (id : Nat) (kind : OpKind) (res : List (List W32)) : Warp :=
  { w with ops := w.ops.map (fun (y : Op) => if y.id == id then { y with kind := kind, res := res } else y) }

def slotAsker (core slot : Nat) : Asker := .part core (slot % 4)

/-- A walk fills the TLBs for a load, finds its page absent or protected, or finds a table entry malformed
(10 R207 to R209). -/
def execPageWalkComplete (core slot op : Nat) (malformed : Bool) (s : State) : Out :=
  let k := warpKey core slot
  let at_ := slotAsker core slot
  match s.loadAt core slot op with
  | none => .next (s.staleResponse core slot op)
  | some (w, o, g) =>
    match o.kind with
    | .load all m x false =>
      if w.parkedOn op then .next s
      else
        let acc := all.filter (fun a => isGlobal (pathOf a.va))
        let miss (a : Access) : Bool := (holds? (s.tlbs at_) g.ctx (vbits a.va)).isNone
        let s := if malformed then
            match acc.find? miss with
            | some a => s.modCtx g.ctx (fun c => { c with torn := (vbits a.va / 4096) :: c.torn })
            | none => s
          else s
        let bad := (acc.filterMap (fun a => match s.xlat at_ g.ctx (vbits a.va) needRD with
          | .ok _ => none
          | .absent => some (a.va, (none : Option Cause))
          | .protect => some (a.va, some Cause.pageProtect)
          | .walkErr => some (a.va, some Cause.walkError))).head?
        match bad with
        | some (va, none) => .next (s.parkWarp core slot g.ctx faultKindLoad o.pc o.group va o.id)
        | some (va, some c) => .next (s.faultOp k o.id c va)
        | none =>
          let s := acc.foldl (fun s a => s.fillTlb at_ g.ctx (vbits a.va)) s
          .next (s.modWarp k (fun w => w.setOp o.id (.load all m x true) o.res))
    | _ => .next s

/-- A write of the byte that the clock names and that comes after the home-order number, or has none yet (10 R205,
R316). -/
def State.newer (s : State) (need : VC) (pa hs : Nat) : Bool :=
  s.writes.any (fun w => w.1 / 5 ≤ need.get (w.1 % 5) && w.2.addrs.contains pa
    && (w.2.hs (lineOf pa) == 0 || hs < w.2.hs (lineOf pa)))

/-- The bytes of a core's copy, where it may serve: an acquire at a die's scope or wider, and a path-0x2 load, are served
from the die store, and no other load is served a byte older than its clock names (10 R196, R202, R316). -/
def State.coreBytes (s : State) (core path : Nat) (x : MemX) (need : VC) (pa n : Nat) : Option (List ByteW) :=
  let narrow := path != 2 && !(isAcq x.order && wideScope x.scope)
  match tget (s.core core).lines (lineOf pa) with
  | none => none
  | some l =>
    let at_ (i : Nat) : CopyByte := nth l.bytes ((pa + i) % 128) CopyByte.zero
    if narrow && (List.range n).all (fun i => !s.newer need (pa + i) (at_ i).hs) then
      some ((List.range n).map (fun i => ((at_ i).val, (at_ i).wk)))
    else none

/-- Where one access of a load is served, and the bytes it returns: a core copy where it may serve and a free choice takes
it, else the die store that serves the line; none while that store's vector does not cover the clock
(10 R202, R205, R316). -/
def State.serveLane (s : State) (core : Nat) (path : Nat) (x : MemX) (need : VC) (pa n : Nat) (free : Nat) : Option (List ByteW) :=
  match (if free % 2 = 1 then s.coreBytes core path x need pa n else none) with
  | some bs => some bs
  | none =>
    let die := coreDie core
    if need.le (s.die (s.server die pa)).vec then some (s.storeBytes die pa n) else none

/-- Where a byte that a store serves stands in the home order. -/
def State.byteHs (s : State) (die pa : Nat) : Nat :=
  match s.copyOf die pa with
  | some l => (nth l.bytes (pa % 128) CopyByte.zero).hs
  | none => ((tget s.writes ((tget s.last pa).getD 0)).map (fun r => r.hs (lineOf pa))).getD 0

/-- Its location has held a byte with this home-order number since the launch: no write that the launch follows, or that was
placed before it, comes after it (10 R192). -/
def State.heldSince (s : State) (g : Grid) (pa hs : Nat) : Bool :=
  !s.newer g.launchVec pa hs
    && !s.writes.any (fun w => w.2.addrs.contains pa && decide (hs < w.2.hs (lineOf pa)) && decide (w.2.hs (lineOf pa) ≤ g.launchHs))

/-- A core copy's bytes that their locations have held since the launch. -/
def State.constCopy (s : State) (core : Nat) (g : Grid) (pa n : Nat) : Option (List ByteW) :=
  (tget (s.core core).lines (lineOf pa)).bind (fun l =>
    let bs := (List.range n).map (fun i => nth l.bytes ((pa + i) % 128) CopyByte.zero)
    if (List.range n).all (fun i => s.heldSince g (pa + i) (nth bs i CopyByte.zero).hs) then some (bs.map (fun b => (b.val, b.wk))) else none)

/-- What a path-0x1 load returns, with no wait for the order of other accesses: bytes that their locations have held since the
grid's launch, of a core copy, where a free choice takes it, of the die's store or of the home (10 R192). -/
def State.constBytes (s : State) (core : Nat) (g : Grid) (pa n free : Nat) : Option (List ByteW) :=
  let store (d : Nat) : Option (List ByteW) :=
    if (List.range n).all (fun i => s.heldSince g (pa + i) (s.byteHs d (pa + i))) then some (s.storeBytes d pa n) else none
  ((if free % 2 = 1 then s.constCopy core g pa n else none).orElse (fun _ => store (coreDie core))).orElse (fun _ => store (homeOf pa))

/-- A core copy of a line as its die's store serves it. -/
def State.fillCore (s : State) (core pa : Nat) : State :=
  let die := coreDie core
  let base := lineOf pa * 128
  let byte (i : Nat) : CopyByte := let b := s.storeByte die (base + i); { val := b.1, hs := s.byteHs die (base + i), wk := b.2, settle := none }
  s.modCore core (fun c => { c with lines := tput c.lines (lineOf pa) { bytes := (List.range 128).map byte, base := s.hseq } })

/-- Allocation by path: 0x0 and 0x1 allocate copies, 0x2 none (10 R196). -/
def State.allocate (s : State) (core path pa : Nat) : State :=
  if path = 2 then s else (s.allocCopy (coreDie core) pa).fillCore core pa

/-- A peer module's bytes, which are not in this machine: free values (20 R302). -/
def peerBytes (fresh n : Nat) : List ByteW := (List.range n).map (fun i => (BitVec.ofNat 8 (Config.freeNat (fresh * 16 + i)), 0))

/-- A load of a peer's memory while no link to the peer is up (20 R302). -/
def State.peerDown (s : State) (pa : Nat) : Bool := isPeer pa && !s.links.any (fun l => l.up && l.peer == peerOf pa)

/-- A copy that the core or its die holds serves the access, and no read leaves the die for it. -/
def State.heldServes (s : State) (core : Nat) (w : Warp) (g : Grid) (x : MemX) (a : Access) (pa : Nat) : Bool :=
  let path := pathOf a.va
  (s.copyOf (coreDie core) pa).isSome
    || (Config.freeNat (s.fresh + a.lane) % 2 = 1
      && (if path = 1 then s.constCopy core g pa a.bytes else s.coreBytes core path x ((w.clkAt a.lane).need pa a.bytes) pa a.bytes).isSome)

/-- What one access of a load returns now, with its physical address (10 R202, R205; 20 R302). -/
def State.serveAccess (s : State) (core : Nat) (w : Warp) (g : Grid) (x : MemX) (a : Access) (pa : Nat) : Option (List ByteW) :=
  let path := pathOf a.va
  if isPeer pa then some (peerBytes (s.fresh + a.lane) a.bytes)
  else if path = 1 then s.constBytes core g pa a.bytes (Config.freeNat (s.fresh + a.lane))
  else s.serveLane core path x ((w.clkAt a.lane).need pa a.bytes) pa a.bytes (Config.freeNat (s.fresh + a.lane))

/-- Words of an access at their place among the load's: the second half of a 16-byte access gives words 2 and 3. -/
def accessWords (m : MW) (a : Access) (bs : List Byte) : Nat × List W32 :=
  match m.w with
  | .w128 => (a.va.toNat % 16 / 4, [BitVec.ofNat 32 (ofBytes (bs.take 4)), BitVec.ofNat 32 (ofBytes ((bs.drop 4).take 4))])
  | .w8 | .w16 | .w32 | .w64 => (0, loadWords m bs)

/-- Put words of a lane into result columns, from column c on. -/
def putAt (cols : List (List W32)) (l c : Nat) (ws : List W32) : List (List W32) :=
  (List.range cols.length).map (fun i => let col := nth cols i []
    if c ≤ i && i < c + ws.length then lput col l 0 (fun _ => nth ws (i - c) 0) else col)

/-- A lane reads: its clock takes what it read, and an acquire acquires the writes made within its scope; a path-0x1 load takes nothing (10 R192,
R205). -/
def State.tookRead (s : State) (x : MemX) (a : Access) (pa : Nat) (bs : List ByteW) (w : Warp) : Warp :=
  if !ordered a.va then w
  else
    let wks := bs.map Prod.snd
    let all := VC.joins (wks.map s.clockOf)
    let counted := s.acquired x.scope (s.makerOf w [a.lane]) wks
    w.modClk a.lane (fun c =>
      let c := c.didRead pa a.bytes all
      if isAcq x.order then c.acquire counted else c)

/-- The two halves of a 16-byte access are read in no fixed order: which of them a step reads is free (10 R194). -/
def State.halfChosen (s : State) (m : MW) (a : Access) : Bool :=
  match m.w with
  | .w128 => (match Config.freeNat s.fresh % 3 with
    | 0 => true
    | 1 => a.va.toNat % 16 == 0
    | _ => a.va.toNat % 16 == 8)
  | .w8 | .w16 | .w32 | .w64 => true

/-- The second halves of a load's scratchpad accesses are read (10 R193, R194). -/
def State.servePads (s : State) (k : Nat) (w : Warp) (o : Op) (pads rest : List Access) (m : MW) (x : MemX) (walked : Bool) : State :=
  let off (a : Access) : Nat := field a.va.toNat 0 32
  let poison (a : Access) : Option W64 := ((s.blk? w.blk).bind (fun b => b.padPoison (off a) a.bytes)).map (fun p =>
    BitVec.ofNat 64 p + (if a.lds then 0 else 0x8000000000000000))
  match (pads.filterMap poison).head? with
  | some p => s.faultOp k o.id .memoryError p
  | none =>
    let r := pads.foldl (fun (acc : List (List W32) × State) a =>
      let y := acc.2.readPad k w.blk a.lane (off a) a.bytes (if isAcq x.order then some x.scope else none)
      let ws := accessWords m a y.1
      (putAt acc.1 a.lane ws.1 ws.2, y.2)) (o.res, s)
    r.2.modWarp k (fun w => w.setOp o.id (if rest.isEmpty then .loaded else .load rest m x walked) r.1)

/-- A load is served: the accesses that their stores can serve read, and each lane takes the clock of what it read. -/
def execLoadServe (core slot op : Nat) (s : State) : Out :=
  let k := warpKey core slot
  let at_ := slotAsker core slot
  match s.loadAt core slot op with
  | none => .next (s.staleResponse core slot op)
  | some (w, o, g) =>
    match o.kind with
    | .load acc m x true =>
      let pads := acc.filter (fun a => pathOf a.va == 8)
      if w.parkedOn op then .next s
      else if !pads.isEmpty then .next (s.servePads k w o pads (acc.filter (fun a => pathOf a.va != 8)) m x true)
      else
        let pas := acc.map (fun a => (a, s.paOf at_ g.ctx a.va needRD))
        if pas.any (fun a => a.2.isNone) then .next (s.modWarp k (fun w => w.setOp o.id (.load acc m x false) o.res))
        else
          let pas := pas.map (fun a => (a.1, a.2.getD 0))
          let poison := (pas.filterMap (fun a => (s.poisonIn (coreDie core) a.2 a.1.bytes).map (fun p => a.1.va + BitVec.ofNat 64 (p - a.2)))).head?
          let down := (pas.find? (fun a => s.peerDown a.2)).map (fun a => a.1.va)
          match (match poison with | some p => some p | none => down) with
          | some p => .next (s.faultOp k o.id .memoryError p)
          | none =>
            let got := pas.filterMap (fun y =>
              if s.halfChosen m y.1 then (s.serveAccess core w g x y.1 y.2).map (fun bs => (y.1, y.2, bs)) else none)
            let left := acc.filter (fun a => !got.any (fun y => y.1 == a))
            let held := (got.filter (fun y => s.heldServes core w g x y.1 y.2.1)).map Prod.fst
            let res := got.foldl (fun cols y =>
              let ws := accessWords m y.1 (y.2.2.map Prod.fst)
              putAt cols y.1.lane ws.1 ws.2) o.res
            let w' := got.foldl (fun w y => s.tookRead x y.1 y.2.1 y.2.2 w) w
            let w' := w'.setOp o.id (if left.isEmpty then .loaded else .load left m x true) res
            let s1 := got.foldl (fun s y =>
              if isPeer y.2.1 then s
              else (if held.contains y.1 then s else s.outReq g.ctx .read y.2.1).allocate core (pathOf y.1.va) y.2.1) s
            .next { s1 with warps := tput s1.warps k w', fresh := s.fresh + 32 }
    | _ => .next s

/-- A long-latency arithmetic instruction completes, or a PREF does: it brings its lines toward the core where their
accesses can be made (01 R25; 07 R144; 10 R211). -/
def execLongLatencyCompletion (core slot op : Nat) (s : State) : Out :=
  let k := warpKey core slot
  match tget s.warps k with
  | none => .next (s.staleResponse core slot op)
  | some w =>
    match w.op? op, (s.blk? w.blk).bind (fun b => tget s.grids b.grid) with
    | some o, some g =>
      match o.kind with
      | .value => .next (s.completeOp k o o.res)
      | .pref acc =>
        let s := acc.foldl (fun s a =>
          let at_ := slotAsker core slot
          match s.paOf at_ g.ctx a.va needRD with
          | none => s
          | some pa =>
            if (s.poisonIn (coreDie core) (lineOf pa * 128) 128).isSome || isPeer pa then s
            else
              let s := s.fillTlb at_ g.ctx (vbits a.va)
              let s := if (tget (s.core core).lines (lineOf pa)).isSome then s else s.readOut (coreDie core) g.ctx pa
              s.allocate core (pathOf a.va) pa) s
        .next (s.completeOp k o [])
      | _ => .next s
    | _, _ => .next (s.staleResponse core slot op)

/-- The lanes of a WAITA whose words satisfy it take their values and acquire; the instruction completes with the last
(07 R153). -/
def execWaitaSatisfy (core slot op : Nat) (s : State) : Out :=
  let k := warpKey core slot
  match tget s.warps k with
  | none => .next s
  | some w =>
    match w.op? op, s.blk? w.blk with
    | some o, some b =>
      match o.kind with
      | .waita c offs cmp =>
        match (offs.filterMap (fun x => b.padPoison x.2 4)).head? with
        | some p => .next (s.faultOp k o.id .memoryError (BitVec.ofNat 64 p))
        | none =>
          let word (off : Nat) : W32 := BitVec.ofNat 32 (ofBytes (b.padLoad off 4))
          let cmpOf (l : Nat) : W32 := ((cmp.find? (fun x => x.1 == l)).map Prod.snd).getD 0
          let ok := offs.filter (fun x => waitHolds c (word x.2) (cmpOf x.1))
          let left := offs.filter (fun x => !ok.contains x)
          let res := putWords o.res (ok.map (fun x => (x.1, [word x.2])))
          let s := ok.foldl (fun s x => (s.readPad k w.blk x.1 x.2 4 (some .b)).2) s
          if left.isEmpty then .next (s.completeOp k { o with res := res } res)
          else .next (s.modWarp k (fun w => { w with ops := w.ops.map (fun (y : Op) =>
            if y.id == o.id then { y with kind := .waita c left cmp, res := res } else y) }))
      | _ => .next s
    | _, _ => .next s

end Sys2Proof.Machine
end

