-- ==== Sys2Proof/Machine/Link.lean ====
section
/-! DEFINITION. The Floid links: flits, their CRC, and what a sender keeps (20 R302; 10 R206). -/

namespace Sys2Proof.Machine

/-- One bit of the CRC-16 of polynomial 0x1021, most significant bit first. -/
def crcStep (c : Nat) : Nat := if c / 2 ^ 15 % 2 = 1 then (2 * c % 2 ^ 16) ^^^ 0x1021 else 2 * c % 2 ^ 16

def crcByte (c : Nat) (b : Byte) : Nat :=
  crcStep (crcStep (crcStep (crcStep (crcStep (crcStep (crcStep (crcStep (c ^^^ (b.toNat * 256)))))))))

/-- CRC-16 over bytes, initial value 0xFFFF. -/
def crc16 (bs : List Byte) : Nat := bs.foldl crcByte 0xFFFF

/-- A flit: HDR, SEQ, 28 payload bytes and the CRC. -/
def mkFlit (kind vc : Nat) (seq : W8) (payload : List Byte) : List Byte :=
  let body := BitVec.ofNat 8 (16 * kind + vc) :: seq :: (List.range 28).map (fun i => nth payload i 0)
  body ++ bytesOf 2 (crc16 body)

/-- Whether a flit has 32 bytes and a good CRC. -/
def flitGood (f : List Byte) : Bool := f.length == 32 && ofBytes (f.drop 30) == crc16 (f.take 30)

def flitKind (f : List Byte) : Nat := (nth f 0 0).toNat / 16
def flitSeq (f : List Byte) : W8 := nth f 1 0
def flitPayload (f : List Byte) : List Byte := (f.drop 2).take 28

/-- Send queued payloads while fewer than 128 flits await their acknowledgement. -/
def Link.pump (l : Link) (n : Nat) : Link :=
  match n with
  | 0 => l
  | n + 1 =>
    match l.tx with
    | [] => l
    | p :: rest =>
      if 128 ≤ l.unacked.length || !l.up then l
      else
        let f := mkFlit 0 0 l.nextSeq p.2
        { l with tx := rest, nextSeq := l.nextSeq + 1, unacked := l.unacked ++ [(l.nextSeq, p.1, f)], wire := l.wire ++ [f] }.pump n

/-- Cut a packet into payloads of 28 bytes; the last is padded with zeros by its flit. -/
def payloads (bs : List Byte) : List (List Byte) := (List.range (ceilDiv bs.length 28)).map (fun i => (bs.drop (28 * i)).take 28)

def Link.send (l : Link) (line : Nat) (ps : List (List Byte)) : Link :=
  let l := { l with tx := l.tx ++ ps.map (fun p => (line, p)) }
  l.pump l.tx.length

def State.link (s : State) (i : Nat) : Link := nth s.links i Link.init
def State.modLink (s : State) (i : Nat) (f : Link → Link) : State := { s with links := lput s.links i Link.init f }

/-- The links that are up to a peer. -/
def State.linksTo (s : State) (peer : Nat) : List Nat := (List.range 8).filter (fun i => (s.link i).up && (s.link i).peer == peer)

/-- Payloads of packets of one line leave on a link to the peer that a hash of the line address chooses. -/
def State.route (s : State) (peer line : Nat) (ps : List (List Byte)) : State :=
  match s.linksTo peer with
  | [] => s
  | ups => s.modLink (nth ups (Config.linkHash line % ups.length) 0) (fun l => l.send line ps)

/-- A write to a peer's memory leaves for the peer; the packet's form is not in the manual (log entry 4). While no link to
the peer is up the write is lost, since a store reports no cause, and the hub logs an uncorrectable error (log entry 59). -/
def State.toPeer (s : State) (pa cx : Nat) (bytes : List Byte) : State :=
  if (s.linksTo (peerOf pa)).isEmpty then s.logEvent 4 (Event.mk' s cx 0xFFFF 0x81 0 pa 0)
  else s.route (peerOf pa) (lineOf pa) (payloads (Config.fabricPacket pa bytes))

end Sys2Proof.Machine
end

