-- ==== Sys2Proof/Machine/MemEv.lean ====
section
/-! DEFINITION. Steps of the memory system: writes and notices at the die stores, atomics at their homes, evictions,
acknowledgements, exchange stores and swaps, barrier signals, the fault buffer and shootdowns (07 R143, R144, R147,
R150, R154, R155; 10 R195, R203 to R209, R212, R316; 15 R260). A step whose condition does not hold changes nothing. -/

namespace Sys2Proof.Machine

/- Completions of commands (20 R303). -/

def qkey (fn q : Nat) : Nat := fn * 16 + q

/-- A completion joins those of its queue pair; a result word that the command does not give is a free value. -/
def State.reply (s : State) (fn q cid status : Nat) (r : Option Nat) : State :=
  let r1 := match r with | some n => BitVec.ofNat 32 n | none => Config.freeWord s.fresh
  let c : Cpl := { cid := cid, status := status, r1 := r1, r2 := Config.freeWord (s.fresh + 1), r3 := Config.freeWord (s.fresh + 2) }
  { s with fresh := s.fresh + 3, queues := tmod s.queues (qkey fn q) (fun p => { p with done := p.done ++ [c] }) }

/- Writes (10 R205, R316). -/

def State.msg? (s : State) (key : Nat) : Option Msg := s.msgs.find? (fun m => m.key == key)

def Msg.isWrite (m : Msg) : Bool :=
  match m.kind with
  | .write => true
  | .atomic .. => false

/-- Apply a write's message, or take its notice; a write to a peer's memory, or to the host's, goes on from the hub. -/
def State.takeMsg (s : State) (m : Msg) : State :=
  let s := s.applyMsg m
  if m.dst != 4 then s
  else if isPeer m.addr then s.toPeer m.addr m.cx (m.bytes.map Prod.snd)
  else s.outReq m.cx .write m.addr

/-- A write reaches a die store that holds its line, which applies it, or holds it until its vector is covered and the
home has applied it (10 R205; 21 R315); a settle is the later writes' second application (10 R203). -/
def execWriteArrival (key : Nat) (s : State) : Out :=
  match s.msg? key with
  | none => .next s
  | some m =>
    if m.settling then .next (s.settleMsg m)
    else if !m.isWrite || m.held || s.noticeOnly m then .next s
    else if s.covered m && s.forwarded m then .next (s.takeMsg m)
    else .next { s with msgs := s.msgs.map (fun x => if x.key == key then { x with held := true } else x) }

def execHeldWriteApply (key : Nat) (s : State) : Out :=
  match s.msg? key with
  | none => .next s
  | some m => if m.isWrite && m.held && !m.settling && s.covered m && s.forwarded m then .next (s.takeMsg m) else .next s

def execWriteNoticeArrival (key : Nat) (s : State) : Out :=
  match s.msg? key with
  | none => .next s
  | some m => if m.isWrite && !m.settling && s.noticeOnly m && s.covered m then .next (s.takeMsg m) else .next s

/- Atomics (07 R147, R150; 10 R204). -/

/-- Whether a home may perform an atomic: its vector covers the clock, and it has applied its own earlier writes; at scope
.s a release waits for the writes it orders (10 R204, R206). -/
def State.mayPerform (s : State) (m : Msg) : Bool :=
  let d := s.die m.dst
  m.vec.le d.vec && d.vec.get m.dst + 1 == d.nextWrite && (!m.sys || s.allPlaced m.vec)

/-- The release sequences in which a byte of a home stands (10 R204). -/
def State.homeHeads (s : State) (pa : Nat) : List Nat :=
  ((tget s.writes ((tget s.last pa).getD 0)).bind (fun r => tget r.heads pa)).getD []

/-- The home performs an atomic: its write, numbered by the home, comes right after the latest one, and the other dies
are told. The write follows what was read only as a release, or at the bytes whose release sequence it continues
(10 R191, R204; 11 R214). -/
def State.perform (s : State) (m : Msg) (op : Option AOp) (n : Nat) (lanes : List AtomLane) (x : MemX) :
    State × List (Nat × W64) × VC × VC :=
  let bs := (List.range n).map (fun i => s.homeByte (m.addr + i))
  let old : W64 := if isPeer m.addr then (Config.freeWord s.fresh).setWidth 64 ||| ((Config.freeWord (s.fresh + 1)).setWidth 64) <<< 32
    else BitVec.ofNat 64 (ofBytes (bs.map Prod.fst))
  let was := VC.joins (bs.map (fun b => s.clockOf b.2))
  let r := atomApply op old lanes
  let seq (i : Nat) : List Nat := continued (Scope.rank x.scope) (s.homeHeads (m.addr + i))
  let goesOn := (List.range n).filter (fun i => !(seq i).isEmpty)
  let vec := m.vec.join (if isRel x.order then was else VC.joins (goesOn.map (fun i => s.clockOf (nth bs i (0, 0)).2)))
  let at_ : WAttr := { heads := if isRel x.order then [Scope.rank x.scope] else [], seq := goesOn.map (fun i => (m.addr + i, seq i)), cx := m.cx, maker := m.maker }
  let new := (List.range n).map (fun i => (m.addr + i, nth (bytesOf n r.2.toNat) i 0))
  let s := { s with fresh := s.fresh + 2, msgs := s.msgs.filter (fun x => x.key != m.key) }
  let (s, num) := s.sendWrite m.dst vec at_ new (wholeWords 32 new)
  -- the home's own message is applied in the same step
  match s.msgs.find? (fun x => x.origin == m.dst && x.num == num && x.dst == m.dst) with
  | some own => (s.takeMsg own, r.1, was, VC.zero.raise m.dst num)
  | none => (s, r.1, was, VC.zero.raise m.dst num)

/-- What an atomic's message says: its width, lanes, modifiers and instruction. -/
structure AtomMsg where
  op : Option AOp
  n : Nat
  lanes : List AtomLane
  x : MemX
  core : Nat
  slot : Nat
  opid : Nat
deriving DecidableEq, Repr

def Msg.atom? (m : Msg) : Option AtomMsg :=
  match m.kind with
  | .write => none
  | .atomic op n lanes x core slot opid => some ⟨op, n, lanes, x, core, slot, opid⟩

/-- The messages of one instruction's locations. -/
def State.atomMates (s : State) (a : AtomMsg) : List Msg :=
  s.msgs.filter (fun m => match m.atom? with | some y => y.core == a.core && y.slot == a.slot && y.opid == a.opid | none => false)

/-- The lowest lane of a location. -/
def AtomMsg.lowLane (a : AtomMsg) : Nat := (a.lanes.map (fun l => l.lane)).foldl min 32

/-- The lowest lane with a poisoned location, and the offset of its lowest poisoned byte (10 R211). -/
def State.atomPoison (s : State) (ms : List Msg) (n : Nat) : Option (Nat × Nat) :=
  ms.foldl (fun acc m =>
    match s.poisonIn m.dst m.addr n with
    | none => acc
    | some p =>
      let l := (m.atom?.map AtomMsg.lowLane).getD 32
      match acc with
      | some y => if l < y.1 then some (l, p - m.addr) else acc
      | none => some (l, p - m.addr)) none

/-- The address that a lane of a pending atomic uses. -/
def Op.laneVa (o : Op) (l : Nat) : W64 := ((o.kind.accesses.find? (fun a => a.lane == l)).map (fun a => a.va)).getD 0

/-- A location's lanes take their results and the clock of what they read, of which an acquire counts what was made within
its scope. -/
def Warp.tookAtomic (w : Warp) (m : Msg) (a : AtomMsg) (old : List (Nat × W64)) (was counted mine : VC) : Warp :=
  let w := a.lanes.foldl (fun w l => w.modClk l.lane (fun c =>
    let c := c.didRead m.addr a.n was
    (if isAcq a.x.order then c.acquire counted else c).didWrite a.x.colour.toNat m.addr a.n mine)) w
  { w with ops := w.ops.map (fun (y : Op) =>
      if y.id == a.opid then
        { y with kind := match y.kind with | .atomic acc x left => .atomic acc x (left - 1) | z => z,
                 res := putWords y.res (old.map (fun r => (r.1, atomWords a.n r.2))) }
      else y) }

/-- An atomic instruction ends with MEMORY_ERROR at a byte of a lane's location, and performs nothing more. -/
def State.atomFail (s : State) (a : AtomMsg) (l off : Nat) : State :=
  let k := warpKey a.core a.slot
  let o := (tget s.warps k).bind (fun w => w.op? a.opid)
  let mates := s.atomMates a
  { s with msgs := s.msgs.filter (fun x => !mates.any (fun y => y.key == x.key)) }.faultOp k a.opid .memoryError
    ((o.map (fun (o : Op) => o.laneVa l)).getD 0 + BitVec.ofNat 64 off)

/-- ATOMIC_PERFORM: where a location of the instruction is poisoned, or its peer has no link left, the instruction fails and
performs nothing more (10 R211; 20 R302). -/
def execAtomicPerform (key : Nat) (s : State) : Out :=
  match s.msg? key with
  | none => .next s
  | some m =>
    match m.atom? with
    | none => .next s
    | some a =>
      let k := warpKey a.core a.slot
      let o := (tget s.warps k).bind (fun w => w.op? a.opid)
      match s.atomPoison (s.atomMates a) a.n with
      | some p => .next (s.atomFail a p.1 p.2)
      | none =>
        if !s.mayPerform m then .next s
        else if isPeer m.addr && (s.linksTo (peerOf m.addr)).isEmpty then .next (s.atomFail a a.lowLane 0)
        else
          let counted := s.acquired a.x.scope m.maker ((List.range a.n).map (fun i => (s.homeByte (m.addr + i)).2))
          let (s, old, was, mine) := s.perform m a.op a.n a.lanes a.x
          .next (if o.isSome then s.modWarp k (fun w => w.tookAtomic m a old was counted mine) else s)

def execAtomicComplete (core slot op : Nat) (s : State) : Out :=
  match (s.warp? core slot).bind (fun w => w.op? op) with
  | none => .next (s.staleResponse core slot op)
  | some o =>
    match o.kind with
    | .atomic _ _ 0 => .next (s.completeOp (warpKey core slot) o o.res)
    | _ => .next s

/- Die stores (10 R196, R211). -/

def execDieStoreEviction (die line : Nat) (s : State) : Out :=
  .next (if homeOf (line * 128) = die then s.dropHome line else s.dropCopy die line)

def execCctlWbAck (core slot : Nat) (s : State) : Out :=
  match s.warp? core slot with
  | none => .next s
  | some w =>
    match w.wait with
    | .wb lines inv =>
      if lines.any (s.owed (coreDie core)) then .next s
      else
        let s := lines.foldl (fun s l => s.writeBack core l) s
        let s := if inv then lines.foldl (fun s l => s.dropLine core l) s else s
        .next (s.modWarp (warpKey core slot) (fun w => { w with wait := .none }))
    | _ => .next s

/-- The vectors of all dies cover a clock. -/
def State.everywhere (s : State) (v : VC) : Bool := s.dies.all (fun d => v.le d.vec)

/-- Every core has dropped the line, once the stores before the ICINV stand everywhere; an ISYNC that has waited for the last
lets the warp go on, with nothing of code that it took before (07 R129, R144, R319). -/
def execIcinvComplete (core slot : Nat) (s : State) : Out :=
  match s.warp? core slot with
  | none =>
    match (s.core core).icinvs with
    | [] => .next s
    | i :: rest => if s.everywhere i.2 then .next ((s.dropCode i.1).modCore core (fun c => { c with icinvs := rest })) else .next s
  | some w =>
    match w.icinvs with
    | [] => .next s
    | i :: rest =>
      if !s.everywhere i.2.1 then .next s
      else
        .next ((s.dropCode i.1).modWarp (warpKey core slot) (fun w =>
          let w := { w with icinvs := rest }
          if rest.isEmpty && w.wait == .isync then { w with wait := .none, pre := [], inLoop := false } else w))

/-- The line of the next instruction of a handler of a travel launch, which the handler buffer serves (16 R276). -/
def State.handlerLine (s : State) (core line : Nat) : Bool :=
  s.warps.any (fun x => x.1 / 64 == core && (match (s.blk? x.2.blk).bind (fun b => (tget s.grids b.grid).map (fun g => (b, g))) with
    | some (b, g) => x.2.viaHandler g && (match s.xlat (slotAsker core x.1) g.ctx (vbits (x.2.nextGroup b).2) needX with
        | .ok pa => lineOf pa == line
        | .absent | .protect | .walkErr => false)
    | none => false))

/-- The context for which a core reads a line of code: that of a warp that stands in it, or else of any of its warps. -/
def State.lineCtx (s : State) (core line : Nat) : Nat :=
  let own := (s.warps.filter (fun x => x.1 / 64 == core)).filterMap (fun x =>
    (s.blk? x.2.blk).bind (fun b => (tget s.grids b.grid).map (fun g => (g.ctx,
      match s.xlat (slotAsker core x.1) g.ctx (vbits (x.2.nextGroup b).2) needX with
      | .ok pa => lineOf pa == line
      | .absent | .protect | .walkErr => false))))
  (((own.filter Prod.snd) ++ own).map Prod.fst).headD 4096

/-- A line of code reaches a core's instruction store, or its handler buffer (01 R10; 16 R276). -/
def execInstructionFetchFill (core line : Nat) (s : State) : Out :=
  let handler := s.handlerLine core line
  match tget (if handler then (s.core core).hbuf else (s.core core).istore) line with
  | some _ => .next s
  | none =>
    if s.backed (line * 128) 128 && (s.poisonIn (coreDie core) (line * 128) 128).isNone && core < Config.numCores then
      .next (s.fillCode core (s.lineCtx core line) line handler)
    else .next s

/- Exchange (07 R143, R155). -/

/-- An STX store is written into the shadow banks, or held until the parity flips. -/
def execStxDelivery (key : Nat) (s : State) : Out :=
  match s.stxs.find? (fun x => x.key == key) with
  | none => .next s
  | some m =>
    let gone := { s with stxs := s.stxs.filter (fun x => x.key != key) }
    match s.blk? m.blk with
    | none => .next gone
    | some b =>
      if s.stxs.any (fun x => x.group == m.group && x.key < m.key) || b.state == .out || b.state == .restoring then .next s
      else if b.parity == m.parity then
        .next (gone.modBlock m.blk (fun b => b.shadowStore m.off m.bytes))
      else
        .next (gone.modBlock m.blk (fun b => { b with heldStx := b.heldStx ++ [⟨m.off, m.bytes, m.parity⟩] }))

/-- A swap waits for a block that is being saved or is out, whose banks are not in its core: a grid barrier's only for one that
is being saved. -/
def State.swapWaits (s : State) (w : SwapSt) : Bool :=
  s.blocks.any (fun x =>
    if w.n < 112 then x.1 == w.owner && s.saving x.1 x.2 else x.2.grid == w.owner && x.2.state == .preempting && s.saving x.1 x.2)

/-- A swap phase completes once the stores it waits for have been written; a block that is out exchanges its banks when it is
back (07 R155). -/
def execSwapComplete (key : Nat) (s : State) : Out :=
  match s.swaps.find? (fun x => x.key == key) with
  | none => .next s
  | some w =>
    if s.stxs.any (fun x => w.need.contains x.key) || s.swapWaits w then .next s
    else
      let s := { s with swaps := s.swaps.filter (fun x => x.key != key) }
      if w.n < 112 then .next ((s.modBlock w.owner Block.doSwap).modBar w.owner w.n BarSt.complete)
      else
        let swap (x : Nat × Block) : Nat × Block :=
          if x.2.grid != w.owner then x
          else if s.saving x.1 x.2 then (x.1, { x.2 with owedSwaps := x.2.owedSwaps + 1 })
          else (x.1, x.2.doSwap)
        let clk := match tget s.grids w.owner with | some g => (g.bar w.n).clk | none => .zero
        .next ({ s with blocks := s.blocks.map swap }.hubComplete w.owner w.n clk)

/- Barrier signals (07 R154; 15 R260). -/

/-- An arrival is counted at its block, or at the hub, in its own phase; the column wires hold one for a block in which
PREEMPT has been raised, and one for a block that is out waits for the arrival log (13 R231; 15 R260). -/
def execBarrierArrivalSignal (key : Nat) (s : State) : Out :=
  match s.arrs.find? (fun x => x.key == key) with
  | none => .next s
  | some m =>
    let gone := { s with arrs := s.arrs.filter (fun x => x.key != key) }
    if m.n < 112 then
      match s.blk? m.dst with
      | none => .next gone
      | some b =>
        if b.state == .preempting then .next (gone.modBlock m.dst (fun b => { b with wires := b.wires ++ [m] }))
        else if b.state == .out || b.state == .restoring then .next s
        else if m.past (b.bar m.n) then .next gone
        else if (b.bar m.n).swapping || (b.bar m.n).phase != m.phase then .next s
        else .next (gone.barRemote m.dst m)
    else
      match tget s.grids m.dst with
      | none => .next gone
      | some g =>
        if m.past (g.bar m.n) then .next gone
        else if (g.bar m.n).swapping || (g.bar m.n).phase != m.phase then .next s
        else .next ((gone.modHubBar m.dst m.n (fun r => r.take m)).hubCheck m.dst m.n)

/- Faults and translations (10 R208, R209). -/

def execFaultBufferSlotFree (die : Nat) (s : State) : Out :=
  let d := s.die die
  match d.faultWait with
  | [] => .next s
  | (_, e) :: rest =>
    let joins := d.faults.any (fun x => x.ctx == e.ctx && pageOf x.va == pageOf e.va)
    if joins || d.faults.length < Config.faultBufSize then
      .next ((s.modDie die (fun d => { d with faultWait := rest })).recordFault die e)
    else .next s

def Mapping.meets (m : Mapping) (va n : Nat) : Bool := rangesMeet m.va m.size va n
def Mapping.meetsPa (m : Mapping) (pa n : Nat) : Bool := rangesMeet m.pa m.size pa n

/-- Accesses already translated through a mapping that have not been performed: walked loads of the context, and writes
and atomics that their home has not applied. -/
def State.inFlight (s : State) (cx : Nat) (m : Mapping) : Bool :=
  s.warps.any (fun w =>
    (match (s.blk? w.2.blk).bind (fun b => tget s.grids b.grid) with | some g => g.ctx == cx | none => false)
      && w.2.ops.any (fun o => !o.over && (match o.kind with
        | .load acc _ _ true => acc.any (fun a => isGlobal (pathOf a.va) && m.meets (vbits a.va) a.bytes)
        | _ => false)))
    || s.msgs.any (fun x => x.dst == homeOf x.addr && m.meetsPa x.addr (max 8 x.bytes.length))

/-- No TLB holds the old mapping, and no store of a die holds its lines (10 R208). -/
def execTlbShootdownComplete (cx : Nat) (s : State) : Out :=
  match tget s.ctxs cx with
  | none => .next s
  | some c =>
    match c.shoot with
    | [] => .next s
    | (m, fn, q, cid) :: rest =>
      if s.inFlight cx m then .next s
      else
        let old (l : List (Nat × Mapping)) : List (Nat × Mapping) := l.filter (fun e => !(e.1 == cx && e.2 == m))
        let cleanDie (d : Die) : Die := { d with tlb := old d.tlb }
        let cleanCore (c : CoreSt) : CoreSt := { c with tlb := old c.tlb, ptlbs := c.ptlbs.map old }
        let s := { s with dies := s.dies.map cleanDie, cores := s.cores.map cleanCore }
        let s := (List.range 5).foldl (fun s d =>
          (((s.die d).copies.map Prod.fst).filter (fun l => m.meetsPa (l * 128) 128)).foldl (fun s l => s.dropCopy d l) s) s
        .next ((s.modCtx cx (fun c => { c with shoot := rest })).reply fn q cid 0 none)

end Sys2Proof.Machine
end

