-- ==== Sys2Proof/Machine/Bar.lean ====
section
/-! DEFINITION. Class BAR: named barriers, notice boards and view masks (07 R154 to R160). -/

namespace Sys2Proof.Machine

/-- The phase of barrier n as a block sees it. -/
def State.barPhase (s : State) (bk n : Nat) : Nat := match s.blk? bk with | some b => (b.bar n).phase | none => 0

/-- Lanes leave a wait and acquire what the members of the completed phase released. -/
def Warp.passBar (w : Warp) (m : Mask) (clk : VC) : Warp :=
  (lanesOf m).foldl (fun w l => { w with lwait := lput w.lwait l .none (fun _ => .none) }) (w.modClks m (fun c => c.acquire clk))

/-- Lanes wait on barrier n until its phase is no longer ph: at BAR.sync, or at BAR.wait. -/
def Warp.waitBar (w : Warp) (m : Mask) (n ph : Nat) (sync : Bool) (now : Nat) : Warp :=
  (lanesOf m).foldl (fun w l => { w with lwait := lput w.lwait l .none (fun _ => .bar n ph sync), lwaitSince := lput w.lwaitSince l 0 (fun _ => now) }) w

/-- What forbids the lanes that execute a BAR anew (07 R154). A warp that is no member is met by BAR_MEMBER at the first BAR.sync
or BAR.arrive of any of its threads: the model's choice (log entry 61). -/
def View.barFault (v : View) (mode : BarMode) (n : Nat) (fresh : Mask) : Option Cause :=
  if fresh == 0 then none
  else if v.g.rec_.travel && n < 112 then some .travelSync
  else if mode == .wait then none
  else if !v.b.isMember v.g n v.w.wid then some .barMember
  else if has (v.b.bar n).arrived v.w.wid then some .barOverarrive
  else none

/-- BAR: lanes that have not executed it arrive, wait or pass; lanes that wait pass once the phase is complete; lanes with
a false guard go on. -/
def execBar (h : Hdr) (mode : BarMode) (swap : Bool) (n : W9) (s : State) : Out :=
  issue s h (reqOf (.bar h mode swap n)) (fun v s =>
    let n := n.toNat
    let waiting := v.grp &&& maskOf (fun l => match nth v.w.lwait l .none with | .bar .. => true | .none | .wsync _ | .passed | .tile .. => false)
    let fresh := v.act &&& ~~~ waiting
    let out := v.grp &&& ~~~ v.act &&& ~~~ waiting
    match v.barFault mode n fresh with
    | some c => .raise c v.grp (BitVec.ofNat 64 n)
    | none =>
      if fresh != 0 && mode != .wait && v.w.releaseWaits fresh then .hold
      else
        let ph := s.barPhase v.bk n
        let arrivedNow := has (v.b.bar n).arrived v.w.wid
        -- arrivals: each thread releases at the barrier's scope
        let s1 := if fresh == 0 || mode == .wait then s
          else
            let rel := v.w.allClk fresh
            let s := s.modBar v.bk n (fun r =>
              { r with exec := tput r.exec v.w.wid (((tget r.exec v.w.wid).getD 0) ||| fresh), swap := r.swap || swap,
                       clk := r.clk.join rel })
            s.barJudge v.bk v.w.wid n v.w.live
        let now := s1.barPhase v.bk n
        let isOver (l : Nat) : Bool := match nth v.w.lwait l .none with | .bar _ p _ => p != now | .none | .wsync _ | .passed | .tile .. => false
        let passed := waiting &&& maskOf isOver
        let held := match mode with
          | .arrive => 0
          | .sync => if now == ph then fresh else 0
          | .wait => if arrivedNow && now == ph then fresh else 0
        let moved := passed ||| (fresh &&& ~~~ held) ||| out
        if fresh == 0 && moved == 0 then .hold
        else
          let done := match s1.blk? v.bk with | some b => (b.bar n).doneClk | none => .zero
          let through := passed ||| (if mode == .arrive then 0 else fresh &&& ~~~ held)
          let s2 := s1.modWarp v.key (fun w => (w.passBar through done).waitBar held n ph (mode == .sync) s.tsc)
          .jump s2 moved (perLane (fun _ => v.next)))

def execBarsv (h : Hdr) (d n : W9) (s : State) : Out :=
  issue s h (reqOf (.barsv h d n)) (fun v s =>
    .done (v.outs s (reqOf (.barsv h d n) v) [perLane (fun l => s.barsv v.bk v.b n.toNat l)]))

/-- BARLD sets a barrier from an image; arrivals that meet E complete the phase, and more than E is refused (07 R156). -/
def execBarld (h : Hdr) (n b : W9) (s : State) : Out :=
  issue s h (reqOf (.barld h n b)) (fun v s =>
    if v.act == 0 then .done s
    else
      let n := n.toNat
      let r := v.b.bar n
      let bits := maskOf (fun l => (v.w.rd b.toNat l).getLsbD 0)
      let arrived := (r.arrived &&& ~~~ v.act) ||| (bits &&& v.act)
      match s.barLoad v.bk n v.b v.g (v.w.rd b.toNat v.low) arrived with
      | none => .raise .barOverarrive v.grp (BitVec.ofNat 64 n)
      | some s => .done s)

/- Notice boards. -/

/-- The slot of a board that a thread owns (18 R283). -/
def Board.slotOf (b : Board) (bid tid : Nat) : Option Nat :=
  (List.range b.slots).find? (fun i =>
    let e := nth b.owners i 0
    e.getLsbD 63 && bid < 2 ^ 32 && field e.toNat 0 32 == bid && field e.toNat 32 16 == tid)

/-- A request with no answer yet. -/
def View.request (v : View) (key board hd : Nat) (kind : BReqKind) : BReq :=
  { key := key, board := board, kind := kind, die := v.die, gen := 0, handle := hd, blk := v.bk, wid := v.w.wid, pc := v.pc, group := v.grp, act := v.act,
    whole := v.whole, iter := 0, lanes := [], dst := 0, stale := 15, vm := 0, level := 0, round := 0, taken := false, fault := none,
    levels := [], mask := 0, seen := .zero, logged := false }

/-- Send a request; the warp waits for its answer. -/
def State.ask (s : State) (v : View) (r : BReq) : State :=
  let s := s.modWarp v.key (fun w => { w with wait := .board r.key, waitSince := s.tsc })
  { s with nextKey := s.nextKey + 1, breqs := s.breqs ++ [{ r with gen := (s.die v.die).gen }] }

def execBpv (h : Hdr) (stale : W4) (d a : W9) (hd : W4) (c : W9) (s : State) : Out :=
  issue s h (reqOf (.bpv h stale d a hd c)) (fun v s =>
    if v.act == 0 then .done s
    else
      match s.board? v.g hd.toNat with
      | none => .raise .boardSlot v.grp (hd.setWidth 64)
      | some (k, b) =>
        if v.w.releaseWaits v.act then .hold
        else
          let lanes := v.lanes.map (fun l =>
            ({ lane := l, value := v.w.rd64 a.toNat l, round := v.w.rd c.toNat l, slot := b.slotOf (v.bidOf l) (v.tidOf l),
               clk := (v.w.clkAt l).all } : BLane))
          .done (s.ask v { v.request s.nextKey k hd.toNat .bpv with lanes := lanes, dst := d.toNat, stale := stale.toNat }))

/-- BVM names the round of the warp's latest BPV on the handle; a handle that the launch does not bind is one to which the warp
has not posted (07 R159). Of R52's BAD_FIELD for such a handle and the causes of R158 to R160, each of the three instructions
raises the cause of its own rule (log entry 61). -/
def execBvm (h : Hdr) (vm : W3) (a : W9) (hd : W4) (s : State) : Out :=
  issue s h (reqOf (.bvm h vm a hd)) (fun v s =>
    if v.act == 0 then .done s
    else
      match s.board? v.g hd.toNat, tget v.w.lastPost hd.toNat with
      | none, _ | some _, none => .raise .boardRound v.grp (hd.setWidth 64)
      | some (k, _), some r =>
        .done (s.ask v { v.request s.nextKey k hd.toNat .bvm with
          vm := vm.toNat, level := (v.w.rd a.toNat v.low).toNat, round := r }))

def execBrst (h : Hdr) (hd : W4) (s : State) : Out :=
  issue s h (reqOf (.brst h hd)) (fun v s =>
    if v.act == 0 then .done s
    else
      match s.board? v.g hd.toNat with
      | none => .raise .boardSlot v.grp (hd.setWidth 64)
      | some (k, _) => .done (s.ask v (v.request s.nextKey k hd.toNat .brst)))

/- View masks (07 R159). -/

def Warp.vm (w : Warp) (m : W3) : BitVec 256 := nth w.vms m.toNat 0

def bits256 (m : BitVec 256) : List Nat := (List.range 256).filter (fun i => m.getLsbD i)

def execVmpop (h : Hdr) (d : W9) (vm : W3) (s : State) : Out :=
  issueVal s h (.vmpop h d vm) (fun v _ => BitVec.ofNat 32 (bits256 (v.w.vm vm)).length)

def execVmtst (h : Hdr) (p : W4) (vm : W3) (b : SrcB) (s : State) : Out :=
  issuePred s h (.vmtst h p vm b) p (fun v l => (v.w.vm vm).getLsbD ((v.w.srcB b l).toNat % 256))

def execVmnext (h : Hdr) (d : W9) (vm : W3) (b : SrcB) (s : State) : Out :=
  issueVal s h (.vmnext h d vm b) (fun v l =>
    match (bits256 (v.w.vm vm)).find? (fun i => (v.w.srcB b l).toNat ≤ i) with
    | some i => BitVec.ofNat 32 i
    | none => 0xFFFFFFFF)

end Sys2Proof.Machine
end

