-- ==== Sys2Proof/Machine/Bits.lean ====
section
/-! DEFINITION. Classes BITS and CMP: bit operations, comparisons, predicates and moves (06 R104 to R114). -/

namespace Sys2Proof.Machine

/-- The table of LGATE and PGATE (06 R108, R112). -/
def gate (tab : W8) (a b c : Bool) : Bool :=
  tab.getLsbD ((if c then 4 else 0) + (if b then 2 else 0) + (if a then 1 else 0))

def word32 (f : Nat → Bool) : W32 := maskOf f

def execLgate (h : Hdr) (d a b c : W9) (tab : W8) (s : State) : Out :=
  issueVal s h (.lgate h d a b c tab) (fun v l =>
    let x := v.w.rd a.toNat l
    let y := v.w.rd b.toNat l
    let z := v.w.rd c.toNat l
    word32 (fun j => gate tab (x.getLsbD j) (y.getLsbD j) (z.getLsbD j)))

def execShl (h : Hdr) (d a : W9) (b : SrcB) (s : State) : Out :=
  issueVal s h (.shl h d a b) (fun v l => shlWord (v.w.rd a.toNat l) (v.w.srcB b l).toNat)

def execShr (h : Hdr) (d a : W9) (b : SrcB) (s : State) : Out :=
  issueVal s h (.shr h d a b) (fun v l =>
    let n := (v.w.srcB b l).toNat
    if n < 32 then v.w.rd a.toNat l >>> n else 0)

def execSar (h : Hdr) (d a : W9) (b : SrcB) (s : State) : Out :=
  issueVal s h (.sar h d a b) (fun v l => (v.w.rd a.toNat l).sshiftRight (min (v.w.srcB b l).toNat 32))

def execRotl (h : Hdr) (d a : W9) (b : SrcB) (s : State) : Out :=
  issueVal s h (.rotl h d a b) (fun v l => (v.w.rd a.toNat l).rotateLeft ((v.w.srcB b l).toNat % 32))

def execShf (h : Hdr) (right : Bool) (d a : W9) (b : SrcB) (c : W9) (s : State) : Out :=
  issueVal s h (.shf h right d a b c) (fun v l =>
    let w : W64 := v.w.rd c.toNat l ++ v.w.rd a.toNat l
    let n := min (v.w.srcB b l).toNat 32
    if right then (w >>> n).extractLsb' 0 32 else (w <<< n).extractLsb' 32 32)

def execPopc (h : Hdr) (d a : W9) (s : State) : Out :=
  issueVal s h (.popc h d a) (fun v l => BitVec.ofNat 32 (popcount (v.w.rd a.toNat l)))

def execClz (h : Hdr) (d a : W9) (s : State) : Out :=
  issueVal s h (.clz h d a) (fun v l => BitVec.ofNat 32 (32 - bitLen (v.w.rd a.toNat l).toNat))

def execCtz (h : Hdr) (d a : W9) (s : State) : Out :=
  issueVal s h (.ctz h d a) (fun v l => BitVec.ofNat 32 ((lowest (v.w.rd a.toNat l)).getD 32))

def execBrev (h : Hdr) (d a : W9) (s : State) : Out :=
  issueVal s h (.brev h d a) (fun v l =>
    let x := v.w.rd a.toNat l
    word32 (fun j => x.getLsbD (31 - j)))

/-- The field BFE reads (06 R106). -/
def bfeOf (u : Bool) (a b : W32) : W32 :=
  let pos := field b.toNat 0 8
  let len := min (field b.toNat 8 8) 32
  let bit (i : Nat) : Bool := if pos + i < 32 then a.getLsbD (pos + i) else !u && a.getLsbD 31
  if len = 0 then 0
  else word32 (fun i => if i < len then bit i else !u && bit (len - 1))

def execBfe (h : Hdr) (u : Bool) (d a : W9) (b : SrcB) (s : State) : Out :=
  issueVal s h (.bfe h u d a b) (fun v l => bfeOf u (v.w.rd a.toNat l) (v.w.srcB b l))

/-- The word BFI makes (06 R106). -/
def bfiOf (a b c : W32) : W32 :=
  let pos := field b.toNat 0 8
  let len := min (field b.toNat 8 8) 32
  word32 (fun j => if pos ≤ j && j < pos + len then a.getLsbD (j - pos) else c.getLsbD j)

def execBfi (h : Hdr) (d a : W9) (b : SrcB) (c : W9) (s : State) : Out :=
  issueVal s h (.bfi h d a b c) (fun v l => bfiOf (v.w.rd a.toNat l) (v.w.srcB b l) (v.w.rd c.toNat l))

/-- PRMT (06 R107). -/
def prmtOf (a b c : W32) : W32 :=
  let src : W64 := b ++ a
  let byte (i : Nat) : Nat :=
    let nib := field c.toNat (4 * i) 4
    let x := field src.toNat (8 * (nib % 8)) 8
    if nib ≥ 8 then (if x ≥ 128 then 255 else 0) else x
  BitVec.ofNat 32 (byte 0 + byte 1 * 2 ^ 8 + byte 2 * 2 ^ 16 + byte 3 * 2 ^ 24)

def execPrmt (h : Hdr) (d a : W9) (b : SrcB) (c : W9) (s : State) : Out :=
  issueVal s h (.prmt h d a b c) (fun v l => prmtOf (v.w.rd a.toNat l) (v.w.srcB b l) (v.w.rd c.toNat l))

/-- The product over GF(2) (06 R109). -/
def clmulOf (a b : W32) : W64 :=
  (List.range 32).foldl (fun p i => if b.getLsbD i then p ^^^ (a.setWidth 64 <<< i) else p) 0

def execClmul (h : Hdr) (d a b : W9) (s : State) : Out :=
  issueVal s h (.clmul h d a b) (fun v l => (clmulOf (v.w.rd a.toNat l) (v.w.rd b.toNat l)).extractLsb' 0 32)

def execClmulh (h : Hdr) (d a b : W9) (s : State) : Out :=
  issueVal s h (.clmulh h d a b) (fun v l => (clmulOf (v.w.rd a.toNat l) (v.w.rd b.toNat l)).extractLsb' 32 32)

def execClmulw (h : Hdr) (d a b : W9) (s : State) : Out :=
  issueVal64 s h (.clmulw h d a b) (fun v l => clmulOf (v.w.rd a.toNat l) (v.w.rd b.toNat l))

/- Class CMP. -/

def execIsetp (h : Hdr) (c : ICnd) (p : W4) (a : W9) (b : SrcB) (s : State) : Out :=
  issuePred s h (.isetp h c p a b) p (fun v l => condHolds c.c (ival c.u (v.w.rd a.toNat l)) (ival c.u (v.w.srcB b l)))

/-- A float comparison of each lane, with its flags (06 R111). -/
def issueCmp (s : State) (h : Hdr) (i : Instr) (p : W4) (f : View → Nat → Bool × FFlags) : Out :=
  issue s h (reqOf i) (fun v s =>
    let r := perLane (f v)
    .done (v.flags (v.writePred s p (fun l => (nth r l (false, 0)).1)) (r.map Prod.snd)))

def execFsetp (h : Hdr) (c : FCnd) (p : W4) (a b : W9) (x : Option Mods) (s : State) : Out :=
  issueCmp s h (.fsetp h c p a b x) p (fun v l =>
    fcmp c (f32.unpack (f32.src (modA x) (v.w.rd a.toNat l).toNat)) (f32.unpack (f32.src (modB x) (v.w.rd b.toNat l).toNat)))

def execDsetp (h : Hdr) (c : FCnd) (p : W4) (a b : W9) (x : Option Mods) (s : State) : Out :=
  issueCmp s h (.dsetp h c p a b x) p (fun v l =>
    fcmp c (f64.unpack (f64.src (modA x) (v.w.rd64 a.toNat l).toNat)) (f64.unpack (f64.src (modB x) (v.w.rd64 b.toNat l).toNat)))

def execPgate (h : Hdr) (pd pa pb pc : W4) (tab : W8) (s : State) : Out :=
  issuePred s h (.pgate h pd pa pb pc tab) pd (fun v l => gate tab (v.w.pred pa l) (v.w.pred pb l) (v.w.pred pc l))

def execSel (h : Hdr) (d a : W9) (b : SrcB) (pc : W4) (s : State) : Out :=
  issueVal s h (.sel h d a b pc) (fun v l => if v.w.pred pc l then v.w.rd a.toNat l else v.w.srcB b l)

def execP2v (h : Hdr) (d : W9) (s : State) : Out :=
  issueVal s h (.p2v h d) (fun v l => word32 (fun i => i < 15 && has (nth v.w.preds i 0) l))

def execV2p (h : Hdr) (a : W9) (b : SrcB) (s : State) : Out :=
  issue s h (reqOf (.v2p h a b)) (fun v s =>
    .done (s.modWarp v.key (fun w => (List.range 15).foldl (fun w i =>
      v.putPred w i (fun l => if (v.w.srcB b l).getLsbD i then (v.w.rd a.toNat l).getLsbD i else has (nth v.w.preds i 0) l)) w)))

/-- MOV copies tag and content (04 R76; 06 R114). -/
def execMov (h : Hdr) (d a : W9) (s : State) : Out :=
  issueVal s h (.mov h d a) (fun v l => v.w.rd a.toNat l)

def execMovi (h : Hdr) (d : W9) (x : W32) (s : State) : Out :=
  issueVal s h (.movi h d x) (fun _ _ => x)

def execMov64i (h : Hdr) (d : W9) (x : W64) (s : State) : Out :=
  issueVal64 s h (.mov64i h d x) (fun _ _ => x)

end Sys2Proof.Machine
end

