-- ==== Sys2Proof/Machine/BoardEv.lean ====
section
/-! DEFINITION. Steps of the board engine: posts, views, resets and the delivery of answers (07 R157 to R160; 18 R281 to
R289). A step whose condition does not hold changes nothing. -/

namespace Sys2Proof.Machine

/-- A board just made (18 R281). -/
def Board.make (slots : Nat) (strict : Bool) (owners : List W64) : Board :=
  { slots := slots, strict := strict, owners := owners, rc := 0, cur := [], next := [], filled := none, past := [] }

/-- How far a post's round lies ahead (18 R285). -/
def Board.ahead (b : Board) (r : W32) : Nat := (r - b.rc).toNat

/-- The posts of a kept round. -/
def Board.round (b : Board) (r : W32) : Option (List Post) := (b.kept.find? (fun k => k.1 == r)).map Prod.snd

/-- What forbids a lane's post (07 R158). -/
def Board.postCause (b : Board) (x : BLane) : Option Cause :=
  match x.slot with
  | none => some .boardSlot
  | some slot =>
    let d := b.ahead x.round
    if 2 ≤ d && d ≤ 2 ^ 31 then some .boardRound
    else
      let again := decide (2 ^ 31 < d) || ((b.round x.round).getD []).any (fun p => p.slot == slot)
      if again && b.strict then some .boardRepost else none

/-- The current round fills and advances; the round filled before it is dropped (18 R285). -/
def Board.step (b : Board) : Board :=
  if b.cur.length != b.slots then b
  else
    { b with rc := b.rc + 1, cur := b.next, next := [], filled := some (b.rc, b.cur),
             past := b.filled.toList ++ b.past }

/-- One lane posts: its level, its stale bit, and what the posters of its view released. -/
def Board.postLane (b : Board) (x : BLane) : Board × Nat × Bool × VC :=
  let slot := x.slot.getD 0
  let d := b.ahead x.round
  let view (ps : List Post) (n : Nat) : VC := VC.joins ((ps.take n).map (fun p => p.clk))
  let had := ((b.round x.round).getD []).any (fun p => p.slot == slot)
  if 2 ^ 31 < d then
    (b, b.slots, true, view (((b.kept ++ b.past).find? (fun k => k.1 == x.round)).map Prod.snd |>.getD []) b.slots)
  else if had then
    let ps := (b.round x.round).getD []
    (b, ps.length, true, view ps ps.length)
  else
    let post : Post := { slot := slot, value := x.value, clk := x.clk }
    let b' : Board := if d = 0 then { b with cur := b.cur ++ [post] } else { b with next := b.next ++ [post] }
    let ps := if d = 0 then b'.cur else b'.next
    (b'.step.step, ps.length, false, view ps ps.length)

/-- All lanes post, in ascending order. -/
def Board.postAll (b : Board) (lanes : List BLane) : Board × List (Nat × Nat × Bool) × VC :=
  lanes.foldl (fun (a : Board × List (Nat × Nat × Bool) × VC) x =>
    let r := a.1.postLane x
    (r.1, a.2.1 ++ [(x.lane, r.2.1, r.2.2.1)], a.2.2.join r.2.2.2)) (b, [], .zero)

/-- The home takes a BPV whole. -/
def execBoardPostRequest (key : Nat) (s : State) : Out :=
  match s.breq? key with
  | none => .next s
  | some r =>
    if r.kind != .bpv || r.taken then .next s
    else
      match tget s.boards r.board with
      | none => .next (s.modBReq key (fun r => { r with taken := true, fault := some .boardSlot }))
      | some b =>
        match (r.lanes.filterMap b.postCause).head? with
        | some c => .next (s.modBReq key (fun r => { r with taken := true, fault := some c }))
        | none =>
          let p := b.postAll r.lanes
          .next ({ s with boards := tput s.boards r.board p.1 }.modBReq key (fun r =>
            { r with taken := true, levels := p.2.1, seen := p.2.2 }))

/-- The mask of the first posts of a round (07 R159). -/
def slotMask (ps : List Post) : BitVec 256 := ps.foldl (fun m p => m ||| BitVec.ofNat 256 (2 ^ p.slot)) 0

/-- The home answers a BVM. -/
def execBoardViewRequest (key : Nat) (s : State) : Out :=
  match s.breq? key with
  | none => .next s
  | some r =>
    if r.kind != .bvm || r.taken then .next s
    else
      match (tget s.boards r.board).map (fun b => b.round r.round) with
      | none => .next (s.modBReq key (fun r => { r with taken := true, fault := some .boardSlot }))
      | some none => .next (s.modBReq key (fun r => { r with taken := true, fault := some .boardRound }))
      | some (some ps) =>
        let seen := ps.take r.level
        .next (s.modBReq key (fun r =>
          { r with taken := true, level := min r.level ps.length, mask := slotMask seen, seen := VC.joins (seen.map (fun p => p.clk)) }))

/-- No thread has a view of a board any more. -/
def State.forgetViews (s : State) (key : Nat) : State :=
  let clean (c : Clk) : Clk := { c with views := c.views.filter (fun x => x.1 != key) }
  let cleanW (w : Warp) : Warp := { w with clk := w.clk.map clean }
  let cleanC (c : Caravan) : Caravan := { c with clk := c.clk.map clean }
  let cleanB (b : Block) : Block := { b with saved := b.saved.map (fun x => (x.1, cleanW x.2)) }
  let cleanK (c : CoreSt) : CoreSt := { c with arrivals := c.arrivals.map cleanC }
  let cleanG (g : Grid) : Grid := { g with ring := g.ring.map (fun x => (x.1, { x.2 with car := x.2.car.map cleanC })) }
  { s with warps := s.warps.map (fun x => (x.1, cleanW x.2)), blocks := s.blocks.map (fun x => (x.1, cleanB x.2)),
           caravans := s.caravans.map cleanC, cores := s.cores.map cleanK, grids := s.grids.map (fun x => (x.1, cleanG x.2)) }

/-- A board is idle for BRST: no request in progress at the home, no view undelivered to a block that has not ended, and
its current and next rounds empty. A request that the home has not taken yet is neither, nor is one that it refused with a
cause, which has no view (18 R288, R289). -/
def State.boardIdle (s : State) (b : Board) (r : BReq) : Bool :=
  b.cur.isEmpty && b.next.isEmpty
    && !s.breqs.any (fun x => x.board == r.board && x.key != r.key && x.taken && x.fault.isNone && (s.blk? x.blk).isSome)

/-- The answer of a request whose block has ended is dropped; one of an older generation of its die is counted (18 R289;
20 R296). -/
def State.dropAnswer (s : State) (r : BReq) : State :=
  let s := { s with breqs := s.breqs.filter (fun x => x.key != r.key) }
  if r.gen == (s.die r.die).gen then s else s.countStale r.die

/-- A BPV on the board of one of the request's threads, issued before the trap whose handler asks, that the home has not taken:
a BRST comes after it (07 R160; 18 R288). -/
def State.ownPostAhead (s : State) (r : BReq) : Bool :=
  s.breqs.any (fun x => x.board == r.board && x.kind == .bpv && !x.taken && x.key < r.key && x.blk == r.blk && x.wid == r.wid
    && x.act &&& r.group != 0)

/-- BRST at the home, and its answer. -/
def execBoardResetRequest (key : Nat) (s : State) : Out :=
  match s.breq? key with
  | none => .next s
  | some r =>
    if r.kind != .brst || s.ownPostAhead r then .next s
    else
      let gone := { s with breqs := s.breqs.filter (fun x => x.key != key) }
      match s.waiterOf r with
      | none => if (s.blk? r.blk).isNone then .next (s.dropAnswer r) else .next s
      | some (k, w) =>
        let fail (c : Cause) : Out := .next ({ gone with warps := tput s.warps k (w.boardFail r c) }.takeTrap k)
        match tget s.boards r.board with
        | none => fail .boardSlot
        | some b =>
          if s.boardIdle b r then
            .next ({ gone with boards := tput s.boards r.board (Board.make b.slots b.strict b.owners),
                               warps := tput s.warps k { w with wait := .none } }.forgetViews r.board)
          else fail .boardRound

/-- The answer of a BPV or BVM reaches its warp, which issues again (07 R158, R159). -/
def execBoardViewDelivery (key : Nat) (s : State) : Out :=
  match s.breq? key with
  | none => .next s
  | some r =>
    if !r.taken || r.kind == .brst then .next s
    else
      match s.waiterOf r with
      | none => if (s.blk? r.blk).isNone then .next (s.dropAnswer r) else .next s
      | some (k, w) =>
        let s := s.deliverView r k w
        .next (if r.fault.isSome then s.takeTrap k else s)

end Sys2Proof.Machine
end

