-- ==== Sys2Proof/Machine/Maps.lean ====
section
/-! DEFINITION. Operand maps: their words, the places of their elements, the checks at issue, and the regions by which
engine operations are ordered (08 R163 to R169). -/

namespace Sys2Proof.Machine

/-- An extent: code 0 stands for 256 (08 R163). -/
def extentOf (v i : Nat) : Nat := if field v (8 * i) 8 = 0 then 256 else field v (8 * i) 8

/-- A map from its eight words, lowest register first. -/
def mapOf (ws : List W32) : Map :=
  let w (i : Nat) : W32 := nth ws i 0
  let lay := (w 2).toNat
  let ext := (w 7).toNat
  { base := w 1 ++ w 0, soff := field lay 16 16, cbits := field lay 8 8, rsv := field lay 4 4, span := field lay 1 3,
    swz := field lay 0 1 == 1, s0 := (w 3).toInt, s1 := (w 4).toInt, s2 := (w 5).toInt, s3 := (w 6).toInt,
    e0 := extentOf ext 0, e1 := extentOf ext 1, e2 := extentOf ext 2, e3 := extentOf ext 3 }

def Map.spanBytes (m : Map) : Nat := 16 * 2 ^ m.span

/-- Bytes of one element, a nibble counting as its byte. -/
def Map.unit (m : Map) : Nat := max 1 (m.cbits / 8)

/-- The byte offset of element (row, k) from the base, and whether it is the high nibble (08 R165). -/
def Map.off (m : Map) (row k : Nat) : Int × Bool :=
  if m.swz then
    let c := k * m.cbits / 8
    ((row : Int) * m.s0 + ((c ^^^ (16 * (row % (m.spanBytes / 16))) : Nat) : Int), m.cbits == 4 && k % 2 == 1)
  else
    let i0 : Int := (row % m.e0 : Nat)
    let i1 : Int := (row / m.e0 : Nat)
    let i2 := k % m.e2
    let i3 : Int := (k / m.e2 : Nat)
    if m.cbits = 4 then (i0 * m.s0 + i1 * m.s1 + ((i2 / 2 : Nat) : Int) + i3 * m.s3, i2 % 2 == 1)
    else (i0 * m.s0 + i1 * m.s1 + (i2 : Int) * m.s2 + i3 * m.s3, false)

def wrap64 (x : Int) : Nat := (x % (2 ^ 64 : Int)).toNat

/-- The address of element (row, k). -/
def Map.addr (m : Map) (row k : Nat) : Nat := wrap64 ((m.base.toNat : Int) + (m.off row k).1)

/-- The address of scale byte j of a row, with nb scale bytes a row. -/
def Map.scaleAddr (m : Map) (nb row j : Nat) : Nat := (m.base.toNat + 256 * m.soff + row * nb + j) % 2 ^ 64

def Map.tag (m : Map) : Span := if m.swz then .swizzle m.span else .affine

/-- Least and one past the greatest byte offset of the elements of the rows. -/
def Map.reach (m : Map) (rows : List Nat) (kmax : Nat) : Int × Int :=
  let row (r : Nat) (a : Option (Int × Int)) : Option (Int × Int) :=
    (List.range kmax).foldl (fun a k =>
      let x := (m.off r k).1
      let y := x + m.unit
      match a with
      | none => some (x, y)
      | some p => some (min p.1 x, max p.2 y)) a
  (rows.foldl (fun a r => row r a) none).getD (0, 0)

/-- The same with the scale bytes, as addresses that have not wrapped. -/
def Map.range (m : Map) (rows : List Nat) (kmax nb : Nat) : Int × Int :=
  let p := m.reach rows kmax
  let lo := (m.base.toNat : Int) + p.1
  let hi := (m.base.toNat : Int) + p.2
  if nb = 0 then (lo, hi)
  else
    let t : Int := ((m.base.toNat + 256 * m.soff : Nat) : Int)
    let first := rows.foldl min (rows.headD 0)
    let last := rows.foldl max 0
    (min lo (t + (first * nb : Nat)), max hi (t + ((last + 1) * nb : Nat)))

/- Regions (08 R169). -/

/-- A region: scratchpad bytes, global bytes by bits 56:0, or a tile. -/
inductive Region where
  | pad (lo n : Nat)
  | glob (lo n : Nat)
  | tile (t : Nat)
deriving DecidableEq, Repr

def Region.meets (a b : Region) : Bool :=
  match a, b with
  | .pad x n, .pad y m => rangesMeet x n y m
  | .glob x n, .glob y m => rangesMeet x n y m
  | .tile x, .tile y => x == y
  | .pad .., .glob .. => false
  | .pad .., .tile _ => false
  | .glob .., .pad .. => false
  | .glob .., .tile _ => false
  | .tile _, .pad .. => false
  | .tile _, .glob .. => false

def regionsMeet (a b : List Region) : Bool := a.any (fun x => b.any x.meets)

/-- The region of n bytes at an address, by the path of the base. -/
def regionAt (path : Nat) (lo : Int) (n : Nat) : Region :=
  if path = 8 then .pad ((lo % (2 ^ 32 : Int)).toNat) n else .glob ((lo % (2 ^ 57 : Int)).toNat) n

def Map.region (m : Map) (rows : List Nat) (kmax nb : Nat) : Region :=
  let p := m.range rows kmax nb
  regionAt (pathOf m.base) p.1 (p.2 - p.1).toNat

/-- A footprint of a job card. -/
def footRegion (base : W64) (len : Nat) : Region := regionAt (pathOf base) base.toNat len

/- Checks at issue (08 R166). -/

/-- What an instruction asks of a map: the container, scale bytes a row where the scale table is judged, and whether it
writes the map; the region it must not meet. -/
structure MapUse where
  rows : List Nat
  kmax : Nat
  cbits : Nat
  /-- none for jobs, whose scale tables are optional -/
  scaled : Option Bool
  nb : Nat
  write : Bool
  other : Option Region
deriving DecidableEq, Repr

def Map.badPath (m : Map) (write : Bool) : Bool :=
  match pathOf m.base with
  | 0 | 2 => !globalOk m.base
  | 1 => !globalOk m.base || write
  | 8 => !scratchOk m.base
  | _ => true

def Map.badLayout (m : Map) (feature6 : Bool) (u : MapUse) : Bool :=
  m.rsv != 0 || m.cbits != u.cbits || !(m.cbits == 4 || m.cbits == 8 || m.cbits == 16 || m.cbits == 32)
    || u.scaled.any (fun x => x != (m.soff != 0))
    || (if m.swz then
          let row := ceilDiv (u.kmax * m.cbits) 8
          m.s0 ≤ 0 || m.s0 % (m.spanBytes : Int) != 0 || m.s0 < ((roundTo row m.spanBytes : Nat) : Int)
        else
          m.span != 0 || (m.cbits == 4 && m.s2 != 1) || u.rows.any (fun r => m.e1 ≤ r / m.e0)
            || (u.kmax != 0 && m.e3 ≤ (u.kmax - 1) / m.e2) || !feature6)
    || u.other.any (fun r => (m.region u.rows u.kmax u.nb).meets r)

def Map.misaligned (m : Map) (u : MapUse) : Bool :=
  (m.cbits == 16 || m.cbits == 32)
    && u.rows.any (fun r => (List.range u.kmax).any (fun k => m.addr r k % (m.cbits / 8) != 0))

/-- Elements outside the scratchpad (08 R166). The rule names those at or above its end; those that negative strides place
below its start raise SCRATCH_RANGE too, which is the model's choice (log entry 58). -/
def Map.outOfPad (m : Map) (u : MapUse) (limit : Nat) : Bool :=
  pathOf m.base == 8 &&
    (let p := m.range u.rows u.kmax u.nb
     p.1 < (8 * 2 ^ 60 : Int) || (8 * 2 ^ 60 : Int) + (limit : Int) < p.2)

/-- The first check a map fails. -/
def Map.check (m : Map) (feature6 : Bool) (limit : Nat) (u : MapUse) : Option Cause :=
  if m.badPath u.write then some .badPath
  else if m.badLayout feature6 u then some .layoutBad
  else if m.misaligned u then some .misaligned
  else if m.outOfPad u limit then some .scratchRange
  else none

/-- The rows of a set of lanes: lane l owns rows 4l to 4l + 3 (04 R80). -/
def rowsOf (m : Mask) : List Nat := (lanesOf m).flatMap (fun l => (List.range 4).map (fun q => 4 * l + q))

/-- Scale bytes a row of an operand in a slot (08 R165). -/
def scaleCount (slot : W32) (k : Nat) : Nat := if slotScaled slot then k / 48 else 0

/- What an operation reads and writes (08 R169). -/

def convBits (v : Launch) (c : MConv) : Nat :=
  match c with
  | .raw => 32
  | .f16 | .bf16 => 16
  | .slot f => slotContainer (nth v.slots f.toNat 0)

/-- Fields of a job card (08 R178). -/
structure Card where
  typ : Nat
  colour : Nat
  guard : Option Nat
  cmode : Nat
  jobid : Nat
  src : Map
  dst : Map
  rbase : W64
  rlen : Nat
  wbase : W64
  wlen : Nat
  ixbase : W64
  ncol : Nat
  nrow : Nat
  fill : Nat
  caddr : Nat
  cval : W32
deriving DecidableEq, Repr

def cardOf (c : List W32) : Card :=
  let w (i : Nat) : W32 := nth c i 0
  let n (i : Nat) : Nat := (w i).toNat
  { typ := field (n 0) 28 4, colour := field (n 0) 25 3, guard := if field (n 0) 24 1 = 1 then some (field (n 0) 20 4) else none,
    cmode := field (n 0) 18 2, jobid := field (n 0) 0 16, src := mapOf ((c.drop 2).take 8), dst := mapOf ((c.drop 10).take 8),
    rbase := w 19 ++ w 18, rlen := n 20, wbase := w 22 ++ w 21, wlen := n 23, ixbase := w 25 ++ w 24, ncol := field (n 26) 16 16,
    nrow := field (n 26) 0 16, fill := n 27, caddr := n 30, cval := w 31 }

/-- A card that fails a check at submission (08 R179). -/
def cardBad (c : List W32) (limit : Nat) : Bool :=
  let k := cardOf c
  let n (i : Nat) : Nat := (nth c i 0).toNat
  let footPath (b : W64) : Bool := pathOf b == 0 || pathOf b == 1 || pathOf b == 2 || pathOf b == 8
  2 < k.typ || k.cmode == 3 || field (n 0) 16 2 != 0 || n 1 != 0 || n 28 != 0 || n 29 != 0
    || k.nrow == 0 || k.ncol == 0
    || (k.typ == 2 && (List.range 8).any (fun i => n (2 + i) != 0))
    || (k.typ != 1 && k.ixbase != 0) || (k.typ != 2 && k.fill != 0)
    || (k.typ != 2 && k.src.cbits != k.dst.cbits) || 2 ^ k.dst.cbits ≤ k.fill
    || !footPath k.rbase || !footPath k.wbase || pathOf k.wbase == 1
    || (footRegion k.rbase k.rlen).meets (footRegion k.wbase k.wlen)
    || (k.cmode != 0 && (k.caddr % 4 != 0 || limit ≤ k.caddr))

def EOp.reads (o : EOp) : List Region :=
  match o.kind with
  | .mma t ma mb k fa fb sparse =>
    let ka := if sparse.isSome then k / 2 else k
    [.tile t, ma.region (rowsOf o.mask) ka (scaleCount fa k), mb.region (List.range 128) k (scaleCount fb k)]
  | .mmz _ => []
  | .mmrd t .. => [.tile t]
  | .mmwr .. => []
  | .mmld _ _ m => [m.region (rowsOf o.mask) 128 0]
  | .mmst t .. => [.tile t]
  | .cmprs _ ma _ k fa .. => [ma.region (rowsOf o.mask) k (scaleCount fa k)]
  | .job card => let k := cardOf card; [footRegion k.rbase k.rlen]

def EOp.writes (o : EOp) : List Region :=
  match o.kind with
  | .mma t .. => [.tile t]
  | .mmz t => [.tile t]
  | .mmrd .. => []
  | .mmwr t .. => [.tile t]
  | .mmld t .. => [.tile t]
  | .mmst _ _ m _ => [m.region (rowsOf o.mask) 128 0]
  | .cmprs _ _ mb k fa .. => [mb.region (rowsOf o.mask) (k / 2) (scaleCount fa k)]
  | .job card => let k := cardOf card; [footRegion k.wbase k.wlen]

/-- X before Y conflict (08 R169). -/
def EOp.conflicts (x y : EOp) : Bool :=
  regionsMeet x.writes (y.reads ++ y.writes) || regionsMeet x.reads y.writes

end Sys2Proof.Machine
end

