-- ==== Sys2Proof/Machine/Mat.lean ====
section
/-! DEFINITION. Submission to the engine queue, and class MAT (08 R161 to R177, R217). -/

namespace Sys2Proof.Machine

/- The engine queue (08 R168, R182). -/

/-- Guarded heads are decided as they reach the head: what remains, and what is discarded. -/
def settleQueue (slots : List (Option Bool)) (q : List EOp) : List EOp × List EOp :=
  match q with
  | [] => ([], [])
  | o :: rest =>
    match o.guard with
    | none => (o :: rest, [])
    | some g =>
      match nth slots g none with
      | none => (o :: rest, [])
      | some true => ({ o with guard := none } :: rest, [])
      | some false => let r := settleQueue slots rest; (r.1, o :: r.2)

/-- A ticket word (08 R181). -/
def ticketWord (status cause jobid : Nat) : W32 := BitVec.ofNat 32 (status * 2 ^ 30 + cause * 2 ^ 24 + jobid)

/-- The ticket a discarded operation leaves. -/
def EOp.discardTicket (o : EOp) : List Ticket :=
  match o.kind with
  | .job card => [⟨ticketWord 1 0 (cardOf card).jobid, .zero⟩]
  | .mma .. | .mmz _ | .mmrd .. | .mmwr .. | .mmld .. | .mmst .. | .cmprs .. => []

def Block.settle (b : Block) : Block :=
  let r := settleQueue b.gslots b.vq
  { b with vq := r.1, tickets := b.tickets ++ r.2.flatMap EOp.discardTicket }

/-- Room under the block limit for n more operations. -/
def Block.room (b : Block) (n : Nat) : Bool := b.eops.length + b.tickets.length + n ≤ 64

/-- Queue one operation: a handler's goes to the handler queue (13 R221). -/
def View.submit (v : View) (s : State) (mask : Mask) (kind : EKind) (guard : Option Nat) (sub : VC) (raw : List W32)
    (cap : List (List W32)) : State :=
  let o : EOp := { id := s.nextKey, wid := v.w.wid, mask := mask, kind := kind, guard := guard, handler := v.w.trap.isSome,
                   sub := sub, state := .queued, progress := 0, wrote := .zero, word := v.word, raw := raw, cap := cap }
  { s with nextKey := s.nextKey + 1 }.modBlock v.bk (fun b =>
    if o.handler then { b with hq := b.hq ++ [o] } else { b with vq := b.vq ++ [o] }.settle)

/-- The warp is held until the block has room. -/
def View.holdLimit (v : View) (s : State) : Eff :=
  .park (s.modWarp v.key (fun w => { w with wait := .blockLimit, waitSince := s.tsc }))

/- Maps in registers. -/

def View.mapWords (v : View) (a : W9) : List W32 := (List.range 8).map (fun i => v.w.rd (a.toNat + i) v.low)
def View.map (v : View) (a : W9) : Map := mapOf (v.mapWords a)

/-- The cause and map base of the first failed check. -/
def View.mapCheck (v : View) (a : W9) (u : MapUse) : Option (Cause × W64) :=
  let m := v.map a
  (m.check (v.g.rec_.feature 6) v.b.scratchBytes u).map (fun c => (c, m.base))

def firstBad (l : List (Option (Cause × W64))) : Option (Cause × W64) := (l.filterMap id).head?

def GField.guard (g : GField) : Option Nat := if g.gv then some g.gs.toNat else none

/-- The maps of a product (08 R172, R173). -/
def View.productCheck (v : View) (a b : W9) (ka k : Nat) (wa wb : W32) : Option (Cause × W64) :=
  let ua : MapUse := { rows := rowsOf v.act, kmax := ka, cbits := slotContainer wa, scaled := some (slotScaled wa),
                       nb := scaleCount wa k, write := false, other := none }
  let ub : MapUse := { rows := List.range 128, kmax := k, cbits := slotContainer wb, scaled := some (slotScaled wb),
                       nb := scaleCount wb k, write := false, other := none }
  firstBad [v.mapCheck a ua, v.mapCheck b ub]

def execMma (h : Hdr) (t : W3) (a b : W9) (k : W16) (fa fb : W3) (g : GField) (s : State) : Out :=
  issue s h (reqOf (.mma h t a b k fa fb g)) (fun v s =>
    let wa := v.slotWord fa
    let wb := v.slotWord fb
    if v.act == 0 then .done s
    else
      match v.productCheck a b k.toNat k.toNat wa wb with
      | some (c, x) => .raise c v.grp x
      | none =>
        if !v.b.room 1 then v.holdLimit s
        else if v.w.unserved v.act then .hold
        else .done (v.submit s v.act (.mma t.toNat (v.map a) (v.map b) k.toNat wa wb none) (GField.guard g) (v.w.allClk v.act)
          (v.mapWords a ++ v.mapWords b) []))

/-- The metadata of a lane as one number (08 R173). -/
def View.metaOf (v : View) (c : W9) (n l : Nat) : Nat :=
  ((List.range n).map (fun i => (v.w.rd (c.toNat + i) l).toNat * 2 ^ (32 * i))).sum

/-- The index of each kept element of row q of a lane. -/
def metaIndices (s48 : Bool) (k v q : Nat) : List Nat :=
  let b := if s48 then 3 else 2
  (List.range (k / 2)).map (fun e => field v ((q * (k / 2) + e) * b) b)

/-- Indices rise strictly within every group. -/
def metaOk (s48 : Bool) (ix : List Nat) : Bool :=
  let n := if s48 then 4 else 2
  (List.range (ix.length - 1)).all (fun e => (e + 1) % n == 0 || nth ix e 0 < nth ix (e + 1) 0)

/-- Logical positions of the kept elements. -/
def metaPositions (s48 : Bool) (ix : List Nat) : List Nat :=
  let n := if s48 then 4 else 2
  (List.range ix.length).map (fun e => e / n * (2 * n) + nth ix e 0)

def execMmas (h : Hdr) (s48 : Bool) (t : W3) (a b c : W9) (k : W16) (fa fb : W3) (g : GField) (s : State) : Out :=
  issue s h (reqOf (.mmas h s48 t a b c k fa fb g)) (fun v s =>
    let wa := v.slotWord fa
    let wb := v.slotWord fb
    let n := metaRegs s48 k
    if v.act == 0 then .done s
    else
      match v.productCheck a b (k.toNat / 2) k.toNat wa wb with
      | some (x, m) => .raise x v.grp m
      | none =>
        let ix (l q : Nat) : List Nat := metaIndices s48 k.toNat (v.metaOf c n l) q
        let bad := v.act &&& maskOf (fun l => has v.act l && (List.range 4).any (fun q => !metaOk s48 (ix l q)))
        if bad != 0 then .raise .sparseMeta bad 0
        else if !v.b.room 1 then v.holdLimit s
        else if v.w.unserved v.act then .hold
        else
          let kept := v.lanes.flatMap (fun l => (List.range 4).map (fun q => (4 * l + q, metaPositions s48 (ix l q))))
          .done (v.submit s v.act (.mma t.toNat (v.map a) (v.map b) k.toNat wa wb (some (s48, kept))) (GField.guard g)
            (v.w.allClk v.act) (v.mapWords a ++ v.mapWords b)
            ((List.range n).map (fun i => perLane (fun l => v.w.rd (c.toNat + i) l)))))

def execMmz (h : Hdr) (t : W3) (s : State) : Out :=
  issue s h (reqOf (.mmz h t)) (fun v s =>
    if v.act == 0 then .done s
    else if !v.b.room 1 then v.holdLimit s
    else .done (v.submit s v.act (.mmz t.toNat) none .zero [] []))

/-- Elements per lane of a conversion (08 R175). -/
def View.convCount (v : View) (c : MConv) : Nat := 32 / convBits v.g.rec_ c

/-- Act lanes with their element selectors, and the lowest whose column is not a multiple of the count. -/
def View.selectors (v : View) (b : SrcB) : List (Nat × W32) := v.lanes.map (fun l => (l, v.w.srcB b l))

def View.badSelector (v : View) (c : MConv) (b : SrcB) : Option W64 :=
  ((v.selectors b).find? (fun x => field x.2.toNat 2 7 % v.convCount c != 0)).map (fun x => x.2.setWidth 64)

/-- MMRD is long-latency: its operation's completion writes the register. A failure mark of the tile is raised and
cleared by the trap (08 R171). -/
def execMmrd (h : Hdr) (cv : MConv) (d : W9) (t : W3) (b : SrcB) (s : State) : Out :=
  issue s h (reqOf (.mmrd h cv d t b)) (fun v s =>
    if v.act == 0 then .done s
    else
      match tget v.b.marks t.toNat with
      | some (c, x) => .fail t.toNat c v.grp x
      | none =>
        match v.badSelector cv b with
        | some x => .raise .misaligned v.grp x
        | none =>
          if !v.b.room 1 then v.holdLimit s
          else
            let s1 := v.launchOp s h (.mmrd (s.nextKey + 1)) [(d.toNat, .g)] [] 0
            .done (v.submit s1 v.act (.mmrd t.toNat cv (v.selectors b) v.core v.slot s.nextKey) none .zero [] []))

def execMmwr (h : Hdr) (cv : MConv) (t : W3) (a : W9) (b : SrcB) (s : State) : Out :=
  issue s h (reqOf (.mmwr h cv t a b)) (fun v s =>
    if v.act == 0 then .done s
    else
      match v.badSelector cv b with
      | some x => .raise .misaligned v.grp x
      | none =>
        if !v.b.room 1 then v.holdLimit s
        else .done (v.submit s v.act (.mmwr t.toNat cv (v.selectors b) (v.lanes.map (fun l => (l, v.w.rd a.toNat l)))) none .zero []
          [perLane (fun l => v.w.rd a.toNat l)]))

def View.rowUse (v : View) (c : MConv) (write : Bool) : MapUse :=
  { rows := rowsOf v.act, kmax := 128, cbits := convBits v.g.rec_ c, scaled := some false, nb := 0, write := write, other := none }

def execMmld (h : Hdr) (cv : MConv) (t : W3) (a : W9) (g : GField) (s : State) : Out :=
  issue s h (reqOf (.mmld h cv t a g)) (fun v s =>
    if v.act == 0 then .done s
    else
      match v.mapCheck a (v.rowUse cv false) with
      | some (c, x) => .raise c v.grp x
      | none =>
        if !v.b.room 1 then v.holdLimit s
        else if v.w.unserved v.act then .hold
        else .done (v.submit s v.act (.mmld t.toNat cv (v.map a)) (GField.guard g) (v.w.allClk v.act) (v.mapWords a) []))

def execMmst (h : Hdr) (cv : MConv) (t : W3) (a : W9) (colour : W3) (g : GField) (s : State) : Out :=
  issue s h (reqOf (.mmst h cv t a colour g)) (fun v s =>
    if v.act == 0 then .done s
    else
      match v.mapCheck a (v.rowUse cv true) with
      | some (c, x) => .raise c v.grp x
      | none =>
        if !v.b.room 1 then v.holdLimit s
        else if v.w.unserved v.act then .hold
        else .done (v.submit s v.act (.mmst t.toNat cv (v.map a) colour.toNat) (GField.guard g) (v.w.allClk v.act) (v.mapWords a) []))

/-- MMWAIT: the group waits for the operations of the tile submitted before it issued, acquires the MMSTs among them, and
raises a failure mark (08 R170, R171, R174). -/
def execMmwait (h : Hdr) (t : W3) (s : State) : Out :=
  issue s h (reqOf (.mmwait h t)) (fun v s =>
    if v.act == 0 then .done s
    else
      let t := t.toNat
      let old := match nth v.w.lwait v.low .none with
        | .tile x seq => if x = t then some seq else none
        | .none | .bar .. | .wsync _ | .passed => none
      let seq := old.getD s.nextKey
      let set (x : LWait) (w : Warp) : Warp :=
        (lanesOf v.grp).foldl (fun w l => { w with lwait := lput w.lwait l .none (fun _ => x), lwaitSince := lput w.lwaitSince l 0 (fun _ => s.tsc) }) w
      if v.b.eops.any (fun o => o.tile? == some t && o.id < seq) then
        (if old.isSome then .hold else .park (s.modWarp v.key (set (.tile t seq))))
      else
        match tget v.b.marks t with
        | some (c, x) => .fail t c v.grp x
        | none => .done (s.modWarp v.key (fun w => (set .none w).modClks v.act (fun c => c.acquire (nth v.b.tclk t .zero)))))

/-- CMPRS: the warp waits until its metadata and rows are written; it is short-latency, so its lookahead counts as 0
(01 R24; 08 R177). -/
def execCmprs (h : Hdr) (s48 : Bool) (d a b : W9) (k : W16) (fa : W3) (colour : W3) (s : State) : Out :=
  issue s h (reqOf (.cmprs h s48 d a b k fa colour)) (fun v s =>
    let wa := v.slotWord fa
    let nb := scaleCount wa k.toNat
    if v.act == 0 then .done s
    else
      let rows := rowsOf v.act
      let ua : MapUse := { rows := rows, kmax := k.toNat, cbits := slotContainer wa, scaled := some (slotScaled wa), nb := nb,
                           write := false, other := none }
      let ub : MapUse := { rows := rows, kmax := k.toNat / 2, cbits := slotContainer wa, scaled := some (slotScaled wa), nb := nb,
                           write := true, other := some ((v.map a).region rows k.toNat nb) }
      match firstBad [v.mapCheck a ua, v.mapCheck b ub] with
      | some (c, x) => .raise c v.grp x
      | none =>
        if !v.b.room 1 then v.holdLimit s
        else if v.w.unserved v.act then .hold
        else
          let dst := (groupRegs d.toNat (metaRegs s48 k)).map (fun n => (n, Tag.g))
          let op := s.nextKey
          let s1 := v.launchOp s { h with la := 0 } (.mmrd (op + 1)) dst [] 0
          let s2 := v.submit s1 v.act (.cmprs s48 (v.map a) (v.map b) k.toNat wa colour.toNat v.core v.slot op) none
            (v.w.allClk v.act) (v.mapWords a ++ v.mapWords b) []
          .done (s2.modWarp v.key (fun w => { w with wait := .cmprs op, waitSince := s.tsc })))

end Sys2Proof.Machine
end

