-- ==== Sys2Proof/Machine/Eng.lean ====
section
/-! DEFINITION. Class ENG: job cards, tickets and guard slots (08 R178 to R182). -/

namespace Sys2Proof.Machine

/-- What forbids the submission of a card (08 R179; 13 R221). -/
def View.cardCause (v : View) (c : List W32) : Option Cause :=
  if cardBad c v.b.scratchBytes then some .jobMalformed
  else if (cardOf c).guard.isSome && v.w.trap.isSome then some .badField
  else none

def View.submitCard (v : View) (s : State) (mask : Mask) (card : List W32) (sub : VC) : State :=
  v.submit s mask (.job card) (cardOf card).guard sub [] []

/-- JOB takes its 32 words from the lowest act lane. -/
def execJob (h : Hdr) (a : W9) (s : State) : Out :=
  issue s h (reqOf (.job h a)) (fun v s =>
    let card := (List.range 32).map (fun i => v.w.rd (a.toNat + i) v.low)
    if v.act == 0 then .done s
    else if !v.w.card.isEmpty then .raise .queueMisuse v.grp 0
    else
      match v.cardCause card with
      | some c => .raise c v.grp 0
      | none =>
        if !v.b.room 1 then v.holdLimit s
        else if v.w.unserved v.act then .hold
        else .done (v.submitCard s v.act card (v.w.allClk v.act)))

/-- The cards under assembly as words arrive: the words so far, their pushers, what these carried as they pushed, and the
cards that are complete. -/
structure Pushed where
  words : List W32
  who : Mask
  clk : VC
  full : List (List W32 × Mask × VC)
deriving DecidableEq, Repr

def Pushed.push (p : Pushed) (l : Nat) (x : W32) (clk : VC) : Pushed :=
  let words := p.words ++ [x]
  let who := p.who ||| laneBit l
  let clk := p.clk.join clk
  if words.length = 32 then { words := [], who := 0, clk := .zero, full := p.full ++ [(words, who, clk)] }
  else { p with words := words, who := who, clk := clk }

/-- QPUSH submits each card that its words complete, for every thread that pushed one of its words, as these stand now: it
waits for what any of them has in flight (08 R178; 12 R217). -/
def execQpush (h : Hdr) (q : W2) (a : W9) (s : State) : Out :=
  issue s h (reqOf (.qpush h q a)) (fun v s =>
    if v.act == 0 then .done s
    else if q != 0 then .raise .queueMisuse v.grp 0
    else
      let p := v.lanes.foldl (fun (p : Pushed) l => p.push l (v.w.rd a.toNat l) (v.w.clkAt l).all)
        { words := v.w.card, who := v.w.cardWho, clk := v.w.cardClk, full := [] }
      match (p.full.filterMap (fun x => v.cardCause x.1)).head? with
      | some c => .raise c v.grp 0
      | none =>
        if !v.b.room p.full.length then v.holdLimit s
        else if v.w.unserved (p.full.foldl (fun m x => m ||| x.2.1) 0) then .hold
        else
          let s := p.full.foldl (fun s x => v.submitCard s x.2.1 x.1 (x.2.2.join (v.w.allClk x.2.1))) s
          .done (s.modWarp v.key (fun w => { w with card := p.words, cardClk := p.clk, cardWho := p.who })))

/-- QPOP waits for a ticket of q1; the other queues are not a program's to pop, and the dispatcher's pop of q3 is a part of
its ROM loop (01 R42; 04 R81). -/
def execQpop (h : Hdr) (d : W9) (q : W2) (s : State) : Out :=
  issue s h (reqOf (.qpop h d q)) (fun v s =>
    if v.act == 0 then .done s
    else if q != 1 then .raise .queueMisuse v.grp 0
    else .done (v.launchOp s h (.qpop 1) [(d.toNat, .g)] [] 0))

/-- GSET resolves or clears a guard slot, and the head of the queue is decided again (08 R168, R182). -/
def execGset (h : Hdr) (g p : W4) (s : State) : Out :=
  issue s h (reqOf (.gset h g p)) (fun v s =>
    if v.act == 0 then .done s
    else
      let x := if p = 15 then none else some (v.w.pred p v.low)
      .done (s.modBlock v.bk (fun b => { b with gslots := lput b.gslots g.toNat none (fun _ => x) }.settle)))

end Sys2Proof.Machine
end

