-- ==== Sys2Proof/Machine/Pwr.lean ====
section
/-! DEFINITION. Classes PWR and WORK: draw, burn and shunt requests, spawned warps and work packets (01 R40, R41; 08 R183
to R189). -/

namespace Sys2Proof.Machine

/- Requests (08 R183). -/

def powerLevel (w : W32) : Nat := field w.toNat 0 4
def powerWindows (w : W32) : Nat := field w.toNat 16 16

def execDraw (h : Hdr) (b : SrcB) (s : State) : Out :=
  issue s h (reqOf (.draw h b)) (fun v s =>
    let x := v.w.srcB b v.low
    if v.act == 0 then .done s
    else .done (s.modBlock v.bk (fun b => { b with draw := { b.draw with next := some (powerLevel x, powerWindows x) } })))

/-- What a block's request is from the next window boundary on. -/
def PowReq.soon (p : PowReq) : Nat :=
  match p.next with
  | some x => if x.2 = 0 then 0 else x.1
  | none => if p.windows ≤ 1 then 0 else p.value

/-- Program burn of the core's other blocks as a BURN takes effect, requests accepted in this window among them (08 R183,
R185). -/
def State.otherBurn (s : State) (core bk : Nat) : Nat :=
  (((s.blocksOn core).filter (fun x => x.1 != bk)).map (fun x => x.2.burn.soon)).sum

/-- BURN is denied past 16 half-amperes, or at %tband 5 and above (08 R185). -/
def execBurn (h : Hdr) (b : SrcB) (s : State) : Out :=
  issue s h (reqOf (.burn h b)) (fun v s =>
    let x := v.w.srcB b v.low
    let level := powerLevel x
    let col := s.col (coreColumn v.core)
    let denied := powerWindows x != 0 &&
      (decide (16 < s.otherBurn v.core v.bk + level + nth col.hw (coreLayer v.core) 0) || (level != 0 && 5 ≤ col.tband))
    if v.act == 0 then .done s
    else if denied then .after s .burnDenied v.grp 0
    else .done (s.modBlock v.bk (fun b => { b with burn := { b.burn with next := some (level, powerWindows x) } })))

/-- The layer boundaries next to a layer (08 R186). -/
def boundariesOf (layer : Nat) : List Nat :=
  match layer with
  | 0 => [0]
  | 1 => [0, 1]
  | 2 => [1, 2]
  | _ => [2]

/-- What a block has reserved, or will have from the next window on. -/
def PowReq.most (p : PowReq) : Nat := max p.live (match p.next with | some x => if x.2 = 0 then 0 else x.1 | none => 0)

/-- Quarter-amperes of a boundary reserved by other blocks than bk. -/
def State.reservedOn (s : State) (col bnd bk : Nat) : Nat :=
  ((List.range 4).map (fun l =>
    if (boundariesOf l).contains bnd then
      (((s.blocksOn (4 * col + l)).filter (fun x => x.1 != bk)).map (fun x => x.2.shunt.most)).sum
    else 0)).sum

def execShunt (h : Hdr) (p : W4) (b : SrcB) (s : State) : Out :=
  issue s h (reqOf (.shunt h p b)) (fun v s =>
    let x := v.w.srcB b v.low
    let amount := powerLevel x
    let n := powerWindows x
    let col := coreColumn v.core
    let fits := (boundariesOf (coreLayer v.core)).all (fun bnd => s.reservedOn col bnd v.bk + amount ≤ 8)
    let ask (s : State) : State := s.modBlock v.bk (fun b => { b with shunt := { b.shunt with next := some (amount, n) } })
    if v.act == 0 then .done s
    else if n = 0 then .done (v.writePred (ask s) p (fun _ => true))
    else if amount = 0 then .done (v.writePred s p (fun _ => false))
    else if amount ≤ 8 && fits then .done (v.writePred (ask s) p (fun _ => true))
    else if v.g.rec_.flag 7 then .after s .shuntDenied v.grp 0
    else .done (v.writePred s p (fun _ => false)))

/- Spawned warps (01 R40; 08 R187, R188). -/

/-- The address of entry i of a launch: none when there is no such entry or its word cannot be read. -/
def State.entryAt (s : State) (die cx : Nat) (entry : W64) (i : Nat) : Option W64 :=
  (s.peekVa die cx (vbits (entry - 8)) 8).bind (fun bs =>
    let n := ofBytes (bs.take 2)
    if n ≤ i then none
    else if i = 0 then some entry
    else (s.peekVa die cx (vbits (entry - BitVec.ofNat 64 (8 + 8 * i))) 8).map (fun w => BitVec.ofNat 64 (ofBytes w)))

/-- What finding that address reads (20 R297). -/
def State.entryReads (s : State) (die cx : Nat) (entry : W64) (i : Nat) : State :=
  let s := s.readsOut die cx (vbits (entry - 8)) 8
  if i = 0 then s else s.readsOut die cx (vbits (entry - BitVec.ofNat 64 (8 + 8 * i))) 8

/-- Spawned warps of a block alive. -/
def State.spawned (s : State) (bk : Nat) (b : Block) : Nat := ((s.warpsOf bk).filter (fun x => b.bwarps ≤ x.2.wid)).length

def execSpawn (h : Hdr) (b : SrcB) (s : State) : Out :=
  issue s h (reqOf (.spawn h b)) (fun v s =>
    let x := v.w.srcB b v.low
    let ix := field x.toNat 0 16
    let count := field x.toNat 16 5
    if v.act == 0 || count = 0 then .done s
    else
      match s.entryAt v.die v.g.ctx v.g.rec_.entry ix with
      | none => .raise .spawnEmpty v.grp (BitVec.ofNat 64 ix)
      | some pc =>
        if s.freeSlots v.core < count || v.g.rec_.spawna < s.spawned v.bk v.b + count then .raise .spawnEmpty v.grp 0
        else if v.w.unserved v.act then .hold
        else
          let args := (List.range 8).map (fun i => v.w.rd i v.low)
          let clk := v.w.allClk v.act
          let s1 := (List.range count).foldl (fun s i =>
            s.placeWarp v.core (Warp.start v.bk (v.b.nextWid + i) false v.g.ceils.length args pc clk s.issueCount))
              (s.entryReads v.die v.g.ctx v.g.rec_.entry ix)
          .done (s1.modBlock v.bk (fun b => { b with nextWid := b.nextWid + count })))

/- Work packets (01 R41; 08 R189). -/

/-- Packets a mailbox holds or has been promised. -/
def State.mailboxLoad (s : State) (die : Nat) : Nat :=
  (s.die die).mailbox.length + (s.packets.filter (fun p => p.die == die)).length

/-- Word 0 with HOPS n. -/
def withHops (w : W32) (n : Nat) : W32 := (w &&& ~~~ 0x180000#32) ||| BitVec.ofNat 32 (n * 2 ^ 19)

def execSendw (h : Hdr) (a b : W9) (s : State) : Out :=
  issue s h (reqOf (.sendw h a b)) (fun v s =>
    let die := (v.w.rd b.toNat v.low).toNat
    if v.act == 0 then .done s
    else if 4 ≤ die then .raise .queueMisuse v.grp 0
    else if Config.mailboxSize ≤ s.mailboxLoad die then .raise .mailboxFull v.grp (BitVec.ofNat 64 die)
    else if v.w.unserved v.act then .hold
    else
      let words := (List.range 8).map (fun i => let x := v.w.rd (a.toNat + i) v.low; if i = 0 then withHops x 0 else x)
      let p : Packet := { key := s.nextKey, die := die, words := words, grid := v.gk, clk := v.w.allClk v.act }
      .done { s with nextKey := s.nextKey + 1, packets := s.packets ++ [p] })

end Sys2Proof.Machine
end

