-- ==== Sys2Proof/Machine/EngRun.lean ====
section
/-! DEFINITION. What an engine operation does: its reads and writes with their faults, the chunks of a matrix product,
the rows of a move, a compression and a job (04 R90, R91; 08 R165, R167, R170 to R179; 10 R209 to R211). -/

namespace Sys2Proof.Machine

/-- Why an operation does not go on (08 R171). -/
inductive EFault where
  /-- the die store has not yet what the operation must observe -/
  | wait
  | park (va : Nat) (write : Bool)
  | fail (c : Cause) (addr : W64)
deriving DecidableEq, Repr

/-- What every access of an operation needs. -/
structure EngCtx where
  bk : Nat
  /-- %warp of the submitting warp -/
  wid : Nat
  cx : Nat
  core : Nat
  need : VC
  /-- what the block's earlier operations have written, of which a read misses no write to its bytes (08 R169) -/
  own : VC
  /-- span tag its scratchpad reads must meet (08 R167) -/
  tag : Option Span
  /-- read and write footprints of a job: base and length -/
  rfoot : Option (Nat × Nat)
  wfoot : Option (Nat × Nat)
deriving DecidableEq, Repr

/-- An address outside a footprint. Addresses compare whole, with their path: the model's choice (08 R179; log entry 61). -/
def outside (f : Option (Nat × Nat)) (a : Nat) : Bool := f.any (fun x => !(x.1 ≤ a && a < x.1 + x.2))

/-- The store that serves a byte of global memory has what the operation must observe there (08 R169, R170; 10 R316). -/
def State.engSees (s : State) (e : EngCtx) (pa : Nat) : Bool :=
  let die := coreDie e.core
  e.need.le (s.die (s.server die pa)).vec && !s.newer e.own pa (s.byteHs die pa)

/-- Read one byte. -/
def State.engByte (s : State) (e : EngCtx) (a : Nat) : Except EFault Byte :=
  let va : W64 := BitVec.ofNat 64 a
  if outside e.rfoot a then .error (.fail .footprint va)
  else if a / 2 ^ 60 = 8 then
    match s.blk? e.bk with
    | none => .error .wait
    | some b =>
      let off := a % 2 ^ 60
      if b.scratchBytes ≤ off then .error (.fail .scratchRange va)
      else if (b.padPoison off 1).isSome then .error (.fail .memoryError va)
      else if (match tget b.spans (off / 128), e.tag with | some x, some y => x != y | _, _ => false) then
        .error (.fail .layoutBad (BitVec.ofNat 64 (a / 128 * 128)))
      else .ok (padGet b.scratch off)
  else
    match s.xlat (.core e.core) e.cx (a % 2 ^ 57) needRD with
    | .absent => .error (.park a false)
    | .protect => .error (.fail .pageProtect va)
    | .walkErr => .error (.fail .walkError va)
    | .ok pa =>
      if s.poisonedAt (coreDie e.core) pa then .error (.fail .memoryError va)
      else if isPeer pa then
        (if s.links.any (fun l => l.up && l.peer == peerOf pa) then .ok (BitVec.ofNat 8 (Config.freeNat (s.fresh + pa)))
         else .error (.fail .memoryError va))
      else if s.engSees e pa then .ok (s.storeByte (coreDie e.core) pa).1
      else .error .wait

def State.engBytes (s : State) (e : EngCtx) (a n : Nat) : Except EFault (List Byte) :=
  (List.range n).mapM (fun i => s.engByte e ((a + i) % 2 ^ 64))

/-- Read one element's container. -/
def State.engElem (s : State) (e : EngCtx) (m : Map) (row k : Nat) : Except EFault Nat :=
  (s.engBytes e (m.addr row k) m.unit).map (fun bs =>
    let v := ofBytes bs
    if m.cbits = 4 then (if (m.off row k).2 then v / 16 else v % 16) else v)

def State.engScale (s : State) (e : EngCtx) (m : Map) (nb row j : Nat) : Except EFault Nat :=
  if nb = 0 then .ok 127 else (s.engByte e (m.scaleAddr nb row j)).map BitVec.toNat

/-- Bytes to write, by address; a later byte of one address replaces the earlier. -/
abbrev EBytes := List (Nat × Byte)

def putByte (l : EBytes) (a : Nat) (v : Byte) : EBytes :=
  if l.any (fun x => x.1 == a) then l.map (fun x => if x.1 == a then (a, v) else x) else l ++ [(a, v)]

/-- The byte a nibble is merged into: the store that serves it must hold what the operation observes (08 R170; 12 R217). A
byte that cannot be written is found by the write itself. -/
def State.engOld (s : State) (e : EngCtx) (a : Nat) : Except EFault Byte :=
  if a / 2 ^ 60 = 8 then .ok (match s.blk? e.bk with | some b => padGet b.scratch (a % 2 ^ 60) | none => 0)
  else match s.xlat (.core e.core) e.cx (a % 2 ^ 57) needW with
    | .ok pa =>
      if s.engSees e pa then .ok (s.storeByte (coreDie e.core) pa).1 else .error .wait
    | .absent | .protect | .walkErr => .ok 0

/-- Add one element to the bytes to write; a 4-bit write leaves the other half of its byte (08 R179). -/
def State.engPut (s : State) (e : EngCtx) (m : Map) (row k v : Nat) (l : EBytes) : Except EFault EBytes :=
  let a := m.addr row k
  if m.cbits = 4 then
    let half (x : Byte) : EBytes :=
      putByte l a (BitVec.ofNat 8 (if (m.off row k).2 then x.toNat % 16 + v % 16 * 16 else x.toNat / 16 * 16 + v % 16))
    match l.find? (fun (y : Nat × Byte) => y.1 == a) with
    | some y => .ok (half y.2)
    | none => (s.engOld e a).map half
  else .ok ((List.range m.unit).foldl (fun l i => putByte l ((a + i) % 2 ^ 64) (BitVec.ofNat 8 (v >>> (8 * i)))) l)

/-- The elements of a row, from element 0 on. -/
def State.engRow (s : State) (e : EngCtx) (m : Map) (row : Nat) (vs : List Nat) (l : EBytes) : Except EFault EBytes :=
  (List.range vs.length).foldlM (fun l i => s.engPut e m row i (nth vs i 0) l) l

/- Pages (10 R208; 20 R297). -/

/-- The 4 KiB pages that rows of a map touch from element lo up to hi, with their scale bytes. -/
def Map.pages (m : Map) (rows : List Nat) (lo hi nb : Nat) : List Nat :=
  ((rows.flatMap (fun r => (List.range (hi - lo)).map (fun i => m.addr r (lo + i)) ++ (List.range nb).map (m.scaleAddr nb r))).map
    (· / 4096)).eraseDups

/-- The accesses of a core's engine have filled its TLBs, and those of the host's memory have gone out. -/
def State.engFill (s : State) (e : EngCtx) (pages : List Nat) : State :=
  pages.foldl (fun s p =>
    if isGlobal (p * 4096 / 2 ^ 60) then
      let a := p * 4096 % 2 ^ 57
      let s := s.fillTlb (.core e.core) e.cx a
      match s.xlat (.core e.core) e.cx a needRD with
      | .ok pa => s.readOut (coreDie e.core) e.cx pa
      | .absent | .protect | .walkErr => s
    else s) s

/-- Runs of consecutive addresses. -/
def runsOf (l : EBytes) : List (Nat × List Byte) :=
  l.foldl (fun (acc : List (Nat × List Byte)) x =>
    match acc.getLast? with
    | some r => if r.1 + r.2.length = x.1 then acc.dropLast ++ [(r.1, r.2 ++ [x.2])] else acc ++ [(x.1, [x.2])]
    | none => [(x.1, [x.2])]) []

/-- Where a byte is written, or why it cannot be. -/
def State.engWhere (s : State) (e : EngCtx) (a : Nat) : Except EFault (Option Nat) :=
  let va : W64 := BitVec.ofNat 64 a
  if outside e.wfoot a then .error (.fail .footprint va)
  else if a / 2 ^ 60 = 8 then
    match s.blk? e.bk with
    | none => .error .wait
    | some b => if b.scratchBytes ≤ a % 2 ^ 60 then .error (.fail .scratchRange va) else .ok none
  else
    match s.xlat (.core e.core) e.cx (a % 2 ^ 57) needW with
    | .absent => .error (.park a true)
    | .protect => .error (.fail .pageProtect va)
    | .walkErr => .error (.fail .walkError va)
    | .ok pa => .ok (some pa)

/-- Write bytes once every one of them can be; scratchpad lines take the span. -/
def State.engWrite (s : State) (e : EngCtx) (span : Span) (l : EBytes) : Except EFault (State × VC) :=
  (l.mapM (fun x => (s.engWhere e x.1).map (fun p => (x, p)))).map (fun ps =>
    let pad : EBytes := ps.filterMap (fun y => match y.2 with | none => some (y.1.1 % 2 ^ 60, y.1.2) | some _ => none)
    let glob : List (Nat × Byte) := ps.filterMap (fun y => y.2.map (fun pa => (pa, y.1.2)))
    let s := s.modBlock e.bk (fun b => (runsOf pad).foldl (fun b r => b.padStore r.1 r.2 { clk := e.need, heads := [], wid := e.wid } (some span)) b)
    s.sendWrites (coreDie e.core) e.need { cx := e.cx, maker := (s.blk? e.bk).map (fun b => s.maker b e.wid) } glob)

/- Tiles (04 R80). -/

def tileAt (t r c : Nat) : Nat := t * 16384 + r * 128 + c
def Block.acc (b : Block) (t r c : Nat) : W32 := (tget b.tiles (tileAt t r c)).getD 0
def putTile (m : Tbl W32) (i : Nat) (v : W32) : Tbl W32 := if v = 0 then tdel m i else tput m i v
def State.setTile (s : State) (bk : Nat) (ws : List (Nat × W32)) : State :=
  s.modBlock bk (fun b => { b with tiles := ws.foldl (fun m x => putTile m x.1 x.2) b.tiles })

/- The matrix product (04 R91; 08 R172, R173). -/

/-- The exact sum of a chunk's products. -/
def dotExact (l : List (FVal × FVal)) : FVal :=
  match l.map (fun p => (mulVal p.1 p.2).1) with
  | [] => .fin false 0 0
  | x :: xs => xs.foldl (fun a y => (addVal .rne a y).1) x

/-- Multiply by an E8 scale byte (04 R90). -/
def scaleBy (x : FVal) (sg : Nat) : FVal :=
  if sg = 255 then .nan false
  else match x with
    | .nan q => .nan q
    | .inf s => .inf s
    | .fin s m e => .fin s m (e + (sg : Int) - 127)

def chunkLen (fa fb : W32) : Nat := if slotScaled fa || slotScaled fb then 48 else if slotKind fa = 1 then 32 else 8

/-- One element of the accumulator after a chunk. -/
def chunkAdd (acc : W32) (d : FVal) (sa sb : Nat) : W32 :=
  let t := (f32.pack .rne (scaleBy (scaleBy d sa) sb)).1
  BitVec.ofNat 32 (f32.add false .rne (f32.unpack acc.toNat) (f32.unpack t)).1

/-- Kept elements of a row whose logical position lies in a chunk: element number and position. -/
def keptIn (sparse : Option (Bool × List (Nat × List Nat))) (r lo hi : Nat) : List (Nat × Nat) :=
  match sparse with
  | none => (List.range (hi - lo)).map (fun i => (lo + i, lo + i))
  | some (_, rows) =>
    let ps := ((rows.find? (fun x => x.1 == r)).map Prod.snd).getD []
    ((List.range ps.length).map (fun e => (e, nth ps e 0))).filter (fun x => lo ≤ x.2 && x.2 < hi)

/-- Chunk j of a product: every element it reads, then the accumulators it writes. -/
def State.mmaChunk (s : State) (e : EngCtx) (ea eb : EngCtx) (t : Nat) (ma mb : Map) (k : Nat) (fa fb : W32)
    (sparse : Option (Bool × List (Nat × List Nat))) (rows : List Nat) (j : Nat) : Except EFault State := do
  let n := chunkLen fa fb
  let lo := j * n
  let hi := min (lo + n) k
  let nba := scaleCount fa k
  let nbb := scaleCount fb k
  let as ← rows.mapM (fun r => do
    let xs ← (keptIn sparse r lo hi).mapM (fun x => (s.engElem ea ma r x.1).map (fun v => (x.2, slotDecode fa v)))
    let sc ← s.engScale ea ma nba r (lo / 48)
    pure (r, xs, sc))
  let bs ← (List.range 128).mapM (fun c => do
    let xs ← (List.range (hi - lo)).mapM (fun i => (s.engElem eb mb c (lo + i)).map (fun v => slotDecode fb v))
    let sc ← s.engScale eb mb nbb c (lo / 48)
    pure (c, xs, sc))
  match s.blk? e.bk with
  | none => .error .wait
  | some b =>
    pure (s.setTile e.bk (as.flatMap (fun x => bs.map (fun y =>
      let d := dotExact (x.2.1.map (fun z => (z.2, nth y.2.1 (z.1 - lo) (.fin false 0 0))))
      (tileAt t x.1 y.1, chunkAdd (b.acc t x.1 y.1) d x.2.2 y.2.2)))))

/- Conversions (08 R175). -/

/-- Out of binary32: the container bits. -/
def convOut (g : Launch) (c : MConv) (v : W32) : Nat :=
  match c with
  | .raw => v.toNat
  | .f16 => (f16.pack .rne (f32.unpack v.toNat)).1
  | .bf16 => (bf16.pack .rne (f32.unpack v.toNat)).1
  | .slot f => (slotEncode (nth g.slots f.toNat 0) (f32.unpack v.toNat)).1

/-- Into binary32, exactly. -/
def convIn (g : Launch) (c : MConv) (v : Nat) : W32 :=
  BitVec.ofNat 32 (match c with
    | .raw => v
    | .f16 => (f32.pack .rne (f16.unpack (v % 65536))).1
    | .bf16 => (f32.pack .rne (bf16.unpack (v % 65536))).1
    | .slot f => (f32.pack .rne (slotDecode (nth g.slots f.toNat 0) v)).1)

/-- The elements a selector names: their places in the tile (08 R175). -/
def selected (g : Launch) (c : MConv) (t : Nat) (x : Nat × W32) : List Nat :=
  (List.range (32 / convBits g c)).map (fun i => tileAt t (4 * x.1 + field x.2.toNat 0 2) (field x.2.toNat 2 7 + i))

/-- The word an MMRD gives a lane. -/
def mmrdWord (b : Block) (g : Launch) (c : MConv) (t : Nat) (x : Nat × W32) : W32 :=
  let n := convBits g c
  BitVec.ofNat 32 (((selected g c t x).zip (List.range 32)).map (fun p =>
    convOut g c ((tget b.tiles p.1).getD 0) % 2 ^ n * 2 ^ (n * p.2))).sum

/-- The accumulators an MMWR writes for a lane. -/
def mmwrWords (g : Launch) (c : MConv) (t : Nat) (x : Nat × W32) (v : W32) : List (Nat × W32) :=
  let n := convBits g c
  ((selected g c t x).zip (List.range 32)).map (fun p => (p.1, convIn g c (field v.toNat (n * p.2) n)))

/- Compress (08 R177). -/

def magRank (x : FVal) : Nat :=
  match x with
  | .nan _ => 2
  | .inf _ => 1
  | .fin .. => 0

/-- Whether x ranks above y by magnitude. -/
def magAbove (x y : FVal) : Bool :=
  if magRank x != magRank y then magRank y < magRank x
  else if magRank x != 0 then false
  else decide (0 < cmpVal x.abs y.abs)

/-- The indices a group keeps, ascending. -/
def keepOf (n : Nat) (xs : List FVal) : List Nat :=
  (List.range xs.length).filter (fun i =>
    let x := nth xs i (.fin false 0 0)
    ((List.range xs.length).filter (fun j =>
      let y := nth xs j (.fin false 0 0)
      magAbove y x || (!magAbove x y && j < i))).length < n)

/-- One row: the kept containers in order, and their indices. -/
def State.cmprsRow (s : State) (e : EngCtx) (ma : Map) (fa : W32) (s48 : Bool) (k r : Nat) : Except EFault (List (Nat × Nat)) :=
  let n := if s48 then 4 else 2
  let grps := (List.range (k / (2 * n))).mapM (fun q =>
    ((List.range (2 * n)).mapM (fun i => s.engElem e ma r (q * (2 * n) + i))).map (fun xs =>
      (keepOf n (xs.map (slotDecode fa))).map (fun i => (nth xs i 0, i))))
  grps.map List.flatten

/-- The metadata words of a lane from its rows' indices. -/
def metaWords (s48 : Bool) (k : Nat) (rows : List (List Nat)) : List W32 :=
  let b := if s48 then 3 else 2
  let v := ((List.range rows.length).map (fun q =>
    ((List.range (k / 2)).map (fun i => nth (nth rows q []) i 0 * 2 ^ ((q * (k / 2) + i) * b))).sum)).sum
  (List.range (k * b / 16)).map (fun i => BitVec.ofNat 32 (v >>> (32 * i)))

/-- The whole of a CMPRS: the state with the compressed rows, what it wrote, and the metadata words by lane. -/
def State.runCmprs (s : State) (e : EngCtx) (mask : Mask) (ma mb : Map) (fa : W32) (s48 : Bool) (k : Nat) :
    Except EFault (State × VC × List (Nat × List W32)) := do
  let rows := rowsOf mask
  let nb := scaleCount fa k
  let got ← rows.mapM (fun r => do
    let xs ← s.cmprsRow e ma fa s48 k r
    let sc ← (List.range nb).mapM (fun j => s.engScale e ma nb r j)
    pure (r, xs, sc))
  let bytes ← got.foldlM (fun (l : EBytes) x => (s.engRow e mb x.1 (x.2.1.map Prod.fst) l).map (fun l =>
    (List.range x.2.2.length).foldl (fun l j => putByte l (mb.scaleAddr nb x.1 j) (BitVec.ofNat 8 (nth x.2.2 j 0))) l)) []
  let r ← s.engWrite e mb.tag bytes
  let idx (row : Nat) : List Nat := (((got.find? (fun x => x.1 == row)).map (fun x => x.2.1)).getD []).map Prod.snd
  pure (r.1, r.2, (lanesOf mask).map (fun l => (l, metaWords s48 k ((List.range 4).map (fun q => idx (4 * l + q))))))

/- Jobs (08 R179). -/

/-- The check of one map of a job over rows. -/
def jobUse (k : Card) (m : Map) (rows : List Nat) (nb : Nat) (write : Bool) (other : Option Region) : MapUse :=
  { rows := rows, kmax := k.ncol, cbits := m.cbits, scaled := none, nb := nb, write := write, other := other }

/-- Scale bytes a row that a job copies. -/
def Card.scales (k : Card) : Nat := if k.typ != 2 && k.src.soff != 0 && k.dst.soff != 0 then ceilDiv k.ncol 48 else 0

/-- The maps at the start of a job; of two that fail, the destination's cause is the one reported: the model's choice (08 R166,
R179; log entry 61). -/
def Card.startCheck (k : Card) (feature6 : Bool) (limit : Nat) : Option (Cause × W64) :=
  let rows := List.range k.nrow
  let nb := k.scales
  match k.dst.check feature6 limit (jobUse k k.dst rows nb true none) with
  | some c => some (c, k.dst.base)
  | none =>
    if k.typ != 0 then none
    else (k.src.check feature6 limit (jobUse k k.src rows nb false (some (k.dst.region rows k.ncol nb)))).map (fun c => (c, k.src.base))

/-- One row of a job. -/
def State.jobRow (s : State) (e : EngCtx) (k : Card) (feature6 : Bool) (limit r : Nat) : Except EFault (State × VC) := do
  let nb := k.scales
  let src ← (if k.typ = 1 then (s.engBytes e ((k.ixbase.toNat + 4 * r) % 2 ^ 64) 4).map ofBytes else pure r)
  let bad := if k.typ = 1 then
      k.src.check feature6 limit (jobUse k k.src [src] nb false (some (k.dst.region (List.range k.nrow) k.ncol nb)))
    else none
  match bad with
  | some c => .error (.fail c k.src.base)
  | none =>
    let xs ← (List.range k.ncol).mapM (fun i => if k.typ = 2 then pure k.fill else s.engElem e k.src src i)
    let sc ← (List.range nb).mapM (fun j => s.engScale e k.src nb src j)
    let bytes ← s.engRow e k.dst r xs []
    let bytes := (List.range nb).foldl (fun l j => putByte l (k.dst.scaleAddr nb r j) (BitVec.ofNat 8 (nth sc j 0))) bytes
    s.engWrite e k.dst.tag bytes

end Sys2Proof.Machine
end

