-- ==== Sys2Proof/Machine/EngEv.lean ====
section
/-! DEFINITION. Steps of the engines: admission, start, completion and failure of an operation, the resume of a parked one,
the block limit, and tickets (08 R168 to R181; 13 R221). A step whose condition does not hold changes nothing. -/

namespace Sys2Proof.Machine

/-- The operation a block's queues offer for admission: the handler's first, else the head, once it is decided. -/
def Block.offer (b : Block) : Option EOp :=
  match b.hq with
  | o :: _ => some o
  | [] => b.vq.head?.filter (fun o => o.guard.isNone)

def Block.takeIn (b : Block) (o : EOp) : Block :=
  let drop (l : List EOp) : List EOp := l.filter (fun x => x.id != o.id)
  { b with hq := drop b.hq, vq := drop b.vq, adm := b.adm ++ [{ o with state := .admitted }] }.settle

/-- ENGINE_ADMIT: the next block in rotation whose queue offers an operation; at most 64 are admitted on a core. -/
def execEngineAdmit (core : Nat) (s : State) : Out :=
  let bs := s.blocksOn core
  let held := (bs.map (fun x => x.2.adm.length)).sum
  let can := bs.filter (fun x => x.2.offer.isSome)
  let pick := match can.find? (fun x => (s.core core).rot < x.1) with
    | some x => some x
    | none => can.head?
  match pick with
  | none => .next s
  | some (bk, b) =>
    if 64 ≤ held then .next s
    else
      match b.offer with
      | none => .next s
      | some o => .next ((s.modBlock bk (fun b => b.takeIn o)).modCore core (fun c => { c with rot := bk }))

/-- Whether an earlier admitted operation of the block holds this one back (08 R169; 13 R221). -/
def Block.mustFollow (b : Block) (o : EOp) : Bool :=
  (b.adm.takeWhile (fun x => x.id != o.id)).any (fun x => x.conflicts o || (x.handler && o.handler))

def Block.setEOp (b : Block) (id : Nat) (f : EOp → EOp) : Block := { b with adm := b.adm.map (fun o => if o.id == id then f o else o) }

def Block.adm? (b : Block) (id : Nat) : Option EOp := b.adm.find? (fun o => o.id == id)

def execEngineOpStart (blk op : Nat) (s : State) : Out :=
  match (s.blk? blk).bind (fun b => (b.adm? op).map (fun o => (b, o))) with
  | none => .next s
  | some (b, o) =>
    if o.state == .admitted && !b.mustFollow o then .next (s.modBlock blk (fun b => b.setEOp op (fun o => { o with state := .started })))
    else .next s

/- Completion. -/

inductive EEnd where
  | done
  | failed (c : Cause) (addr : W64)
deriving DecidableEq, Repr

/-- A ticket enters q1 (08 R181). -/
def Block.ticket (b : Block) (x : W32) (clk : VC) : Block := { b with tickets := b.tickets ++ [⟨x, clk⟩] }

/-- What an acquire from an operation takes: its writes, and what its submission carried (08 R170; 10 R199). -/
def EOp.gives (o : EOp) : VC := o.wrote.join o.sub

/-- A job ends: its completion word, then its ticket (08 R170, R178 to R181). -/
def Block.endJob (b : Block) (o : EOp) (k : Card) (r : EEnd) : Block :=
  match r with
  | .done =>
    let b := if k.cmode = 1 || k.cmode = 2 then b.padStore k.caddr (bytesOf 4 k.cval.toNat) { clk := o.gives, heads := [], wid := o.wid } none else b
    if k.cmode = 2 then b else b.ticket (ticketWord 0 0 k.jobid) o.gives
  | .failed c _ => b.ticket (ticketWord 2 c.code k.jobid) .zero

/-- A tile takes a failure mark; a mark that stands is kept (08 R171). -/
def Block.mark (b : Block) (t : Nat) (r : EEnd) : Block :=
  match r with
  | .done => b
  | .failed c a => if (tget b.marks t).isSome then b else { b with marks := tput b.marks t (c, a) }

/-- The warp of a block by its number. -/
def State.engWarp (s : State) (bk wid : Nat) : Option (Nat × Warp) := s.warps.find? (fun x => x.2.blk == bk && x.2.wid == wid)

/-- Change the control state that a warp in its handler has set aside (13 R220, R230). -/
def Warp.setAside (w : Warp) (f : Ctl → Ctl) : Warp := { w with trap := w.trap.map (fun t => { t with ctl := f t.ctl }) }

/-- The outcome of an MMRD whose warp is in its handler waits among the instructions set aside. -/
def Ctl.arrived (c : Ctl) (op : Nat) (res : List (List W32)) : Ctl :=
  { c with ops := c.ops.map (fun (x : Op) => if x.id == op then { x with kind := .value, res := res } else x) }

def Ctl.failOp (c : Ctl) (op : Nat) (f : Cause × W64) (mark : Option Nat) : Ctl :=
  let r := failIn c.ops c.replay op f mark
  { c with ops := r.1, replay := r.2 }

/-- An MMRD finds its tile marked: the mark goes with the fault, where that is to be taken (08 R171). -/
def State.failRead (s : State) (bk k : Nat) (w : Warp) (op t : Nat) (f : Cause × W64) : State :=
  let unmark (s : State) : State := s.modBlock bk (fun b => { b with marks := tdel b.marks t })
  if (w.op? op).isSome then
    ((if failsNow w.ops w.replay op then unmark s else s).modWarp k (fun w => w.failOp op f (some t))).takeTrap k
  else
    let takes := match w.trap with | some r => failsNow r.ctl.ops r.ctl.replay op | none => false
    (if takes then unmark s else s).modWarp k (fun w => w.setAside (fun c => c.failOp op f (some t)))

/-- An operation leaves the engine, completed or failed. -/
def State.endEOp (s : State) (bk : Nat) (o : EOp) (r : EEnd) (words : List (Nat × List W32)) : State :=
  let s := s.modBlock bk (fun b => { b with adm := b.adm.filter (fun x => x.id != o.id), eclk := b.eclk.join o.wrote })
  match s.blk? bk, (s.blk? bk).bind (fun b => tget s.grids b.grid) with
  | some b, some g =>
    match o.kind with
    | .mma t .. | .mmz t | .mmwr t .. | .mmld t .. => s.modBlock bk (fun b => b.mark t r)
    | .mmst t .. => s.modBlock bk (fun b => { (b.mark t r) with tclk := lput b.tclk t .zero (fun c => c.join o.gives) })
    | .mmrd t cv sel core slot op =>
      let word (l : Nat) : W32 := ((sel.find? (fun y => y.1 == l)).map (mmrdWord b g.rec_ cv t)).getD 0
      match s.engWarp bk o.wid with
      | none => s.staleResponse core slot op
      | some (k, w) =>
        match w.op? op, tget b.marks t with
        | some x, none => s.completeOp k x [perLane word]
        | none, none => s.modWarp k (fun w => w.setAside (fun c => c.arrived op [perLane word]))
        | _, some f => s.failRead bk k w op t f
    | .cmprs s48 _ _ k _ _ _ _ op =>
      match (s.engWarp bk o.wid).bind (fun y => (y.2.op? op).map (fun x => (y.1, x))) with
      | none => s
      | some (wk, x) =>
        let s := s.modWarp wk (fun w => { w with wait := if w.wait == .cmprs op then .none else w.wait })
        match r with
        | .failed c a => s.faultOp wk op c a
        | .done =>
          let n := k * (if s48 then 3 else 2) / 16
          let word (i l : Nat) : W32 := nth (((words.find? (fun y => y.1 == l)).map Prod.snd).getD []) i 0
          (s.modWarp wk (fun w => w.modClks x.act (fun c => c.acquire o.gives))).completeOp wk x
            ((List.range n).map (fun i => perLane (word i)))
    | .job card => s.modBlock bk (fun b => b.endJob o (cardOf card) r)
  | _, _ => s

/-- What is left to do, step by step: chunks of a product, rows of a move or of a job. -/
def EOp.steps (o : EOp) : Nat :=
  match o.kind with
  | .mma _ _ _ k fa fb _ => ceilDiv k (chunkLen fa fb)
  | .mmld .. | .mmst .. => (rowsOf o.mask).length
  | .job card => (cardOf card).nrow
  | .mmz _ | .mmrd .. | .mmwr .. | .cmprs .. => 1

/-- The accesses of an operation: what it observes, and the span tag or footprints it is held to. -/
def EOp.ctx (o : EOp) (bk cx core : Nat) (eclk : VC) : EngCtx :=
  let e : EngCtx := { bk := bk, wid := o.wid, cx := cx, core := core, need := o.sub, own := eclk, tag := none, rfoot := none, wfoot := none }
  match o.kind with
  | .mmld _ _ m => { e with tag := some m.tag }
  | .job card =>
    let k := cardOf card
    { e with rfoot := some (k.rbase.toNat, k.rlen), wfoot := some (k.wbase.toNat, k.wlen) }
  | .mma .. | .mmz _ | .mmrd .. | .mmwr .. | .mmst .. | .cmprs .. => e

/-- Step i of an operation: the state after it and what it wrote to memory. -/
def State.engStep (s : State) (bk : Nat) (g : Grid) (o : EOp) (i : Nat) : Except EFault (State × VC) :=
  match s.blk? bk with
  | none => .error .wait
  | some b =>
    let e := o.ctx bk g.ctx b.core b.eclk
    let rows := rowsOf o.mask
    let r := nth rows i 0
    match o.kind with
    | .mma t ma mb k fa fb sparse =>
      (s.mmaChunk e { e with tag := some ma.tag } { e with tag := some mb.tag } t ma mb k fa fb sparse rows i).map (fun s => (s, .zero))
    | .mmz t => .ok (s.setTile bk (rows.flatMap (fun r => (List.range 128).map (fun c => (tileAt t r c, 0)))), .zero)
    | .mmrd .. => .ok (s, .zero)
    | .mmwr t cv sel vals =>
      .ok (s.setTile bk (sel.flatMap (fun x =>
        mmwrWords g.rec_ cv t x (((vals.find? (fun y => y.1 == x.1)).map Prod.snd).getD 0))), .zero)
    | .mmld t cv m =>
      ((List.range 128).mapM (fun c => (s.engElem e m r c).map (fun v => (tileAt t r c, convIn g.rec_ cv v)))).map
        (fun ws => (s.setTile bk ws, .zero))
    | .mmst t cv m _ =>
      (s.engRow e m r ((List.range 128).map (fun c => convOut g.rec_ cv (b.acc t r c))) []).bind (s.engWrite e m.tag)
    | .cmprs .. => .ok (s, .zero)
    | .job card =>
      let k := cardOf card
      match (if i = 0 then k.startCheck (g.rec_.feature 6) b.scratchBytes else none) with
      | some (c, a) => .error (.fail c a)
      | none => s.jobRow e k (g.rec_.feature 6) b.scratchBytes i

/-- The steps from i on: the state they reach, how far they came, what they wrote, and what stopped them. -/
def State.engSteps (s : State) (bk : Nat) (g : Grid) (o : EOp) (i : Nat) (left : Nat) (wrote : VC) :
    State × Nat × VC × Option EFault :=
  match left with
  | 0 => (s, i, wrote, none)
  | left + 1 =>
    match s.engStep bk g o i with
    | .error f => (s, i, wrote, some f)
    | .ok r => r.1.engSteps bk g o (i + 1) left (wrote.join r.2)

/-- The pages an operation touches from its progress on, as far as they can be told now (10 R208). -/
def State.engPages (s : State) (e : EngCtx) (o : EOp) : List Nat :=
  let rows := rowsOf o.mask
  match o.kind with
  | .mma _ ma mb k fa fb _ =>
    let lo := o.progress * chunkLen fa fb
    ma.pages rows lo k (scaleCount fa k) ++ mb.pages (List.range 128) lo k (scaleCount fb k)
  | .mmld _ _ m => m.pages (rows.drop o.progress) 0 128 0
  | .mmst _ _ m _ => m.pages (rows.drop o.progress) 0 128 0
  | .cmprs _ ma mb k fa _ _ _ _ => ma.pages rows 0 k (scaleCount fa k) ++ mb.pages rows 0 (k / 2) (scaleCount fa k)
  | .job card =>
    let k := cardOf card
    let left := (List.range k.nrow).drop o.progress
    let at_ (r : Nat) : Nat := (k.ixbase.toNat + 4 * r) % 2 ^ 64
    let src := if k.typ = 1 then left.filterMap (fun r => match s.engBytes e (at_ r) 4 with | .ok bs => some (ofBytes bs) | .error _ => none)
      else left
    k.dst.pages left 0 k.ncol k.scales ++ (if k.typ = 1 then (left.map (fun r => at_ r / 4096)).eraseDups else [])
      ++ (if k.typ = 2 then [] else k.src.pages src 0 k.ncol k.scales)
  | .mmz _ | .mmrd .. | .mmwr .. => []

/-- Park an operation on an absent page (08 R171; 10 R209, R210). The index that SLOT gives it is its place among its block's
admitted operations, modulo 64: the model's choice (log entry 61). -/
def State.parkEOp (s : State) (bk : Nat) (b : Block) (g : Grid) (o : EOp) (va : Nat) (write : Bool) : State :=
  let ix := b.adm.findIdx (fun x => x.id == o.id) % 64
  (s.modBlock bk (fun b => b.setEOp o.id (fun _ => { o with state := .parked (BitVec.ofNat 64 va) }))).recordFault (coreDie b.core)
    { va := BitVec.ofNat 64 va, stamp := s.tsc, ctx := g.ctx, core := b.core, kind := if write then 5 else 4, count := 1,
      slot := ix, warps := [], eops := [(bk, o.id)], reported := false }

/-- A response for an engine operation that a core reset has ended is discarded and counted (20 R296); the slot of an engine's
request is 64. -/
def State.staleEngine (s : State) (op : Nat) : State :=
  match s.orphans.find? (fun x => x.2.1 == 64 && x.2.2 == op) with
  | some x => s.staleResponse x.1 64 op
  | none => s

/-- ENGINE_OP_COMPLETE: a started operation does what is left of it, and completes, fails or parks. -/
def execEngineOpComplete (blk op : Nat) (s : State) : Out :=
  match (s.blk? blk).bind (fun b => (b.adm? op).bind (fun o => (tget s.grids b.grid).map (fun g => (b, o, g)))) with
  | none => .next (s.staleEngine op)
  | some (b, o, g) =>
    if o.state != .started then .next s
    else
      let e := o.ctx blk g.ctx b.core b.eclk
      let stop (s : State) (o : EOp) (f : EFault) : Out :=
        match f with
        | .wait => .next (s.modBlock blk (fun b => b.setEOp op (fun _ => o)))
        | .park va w => .next (s.parkEOp blk b g o va w)
        | .fail c a => .next ((s.endEOp blk o (.failed c a) []).tickFresh)
      match o.kind with
      | .cmprs s48 ma mb k fa _ _ _ _ =>
        match s.runCmprs e o.mask ma mb fa s48 k with
        | .error f => stop s o f
        | .ok r => .next (((r.1.engFill e (s.engPages e o)).endEOp blk { o with wrote := o.wrote.join r.2.1 } .done r.2.2).tickFresh)
      | .mma .. | .mmz _ | .mmrd .. | .mmwr .. | .mmld .. | .mmst .. | .job _ =>
        let r := s.engSteps blk g o o.progress (o.steps - o.progress) o.wrote
        let pages := s.engPages e o
        let o := { o with progress := r.2.1, wrote := r.2.2.1 }
        match r.2.2.2 with
        | some f => stop (r.1.engFill e pages) o f
        | none => .next (((r.1.engFill e pages).endEOp blk o .done []).tickFresh)

def EState.isParked (x : EState) : Bool :=
  match x with
  | .parked _ => true
  | .queued | .admitted | .started => false

/-- ENGINE_FAULT_RESUME: the operation's fault has been answered. -/
def execEngineFaultResume (blk op : Nat) (s : State) : Out :=
  let waits := s.dies.any (fun d => d.faults.any (fun f => f.eops.contains (blk, op)) || d.faultWait.any (fun f => f.2.eops.contains (blk, op)))
  match (s.blk? blk).bind (fun b => b.adm? op) with
  | none => .next s
  | some o =>
    if o.state.isParked && !waits then .next (s.modBlock blk (fun b => b.setEOp op (fun o => { o with state := .started })))
    else .next s

/-- BLOCK_LIMIT_RELEASE: the held warp issues its instruction again. -/
def execBlockLimitRelease (core slot : Nat) (s : State) : Out :=
  match s.warp? core slot with
  | none => .next s
  | some w =>
    match w.wait, s.blk? w.blk with
    | .blockLimit, some b =>
      if b.room 1 then .next (s.modWarp (warpKey core slot) (fun w => { w with wait := .none })) else .next s
    | _, _ => .next s

/-- QPOP_WAKE: the oldest waiting QPOP of a warp takes the oldest ticket; one with status done is acquired (08 R170). -/
def execQpopWake (core slot op : Nat) (s : State) : Out :=
  match s.warp? core slot with
  | none => .next s
  | some w =>
    match w.op? op, s.blk? w.blk with
    | some o, some b =>
      let older := w.ops.any (fun x => !x.over && x.id < o.id && (match x.kind with
        | .qpop _ => true
        | .value | .loaded | .load .. | .pref _ | .atomic .. | .waita .. | .mmrd _ => false))
      match o.kind, b.tickets with
      | .qpop _, t :: rest =>
        if older then .next s
        else
          let s := s.modBlock w.blk (fun b => { b with tickets := rest })
          let s := s.modWarp (warpKey core slot) (fun w =>
            if field t.word.toNat 30 2 = 0 then w.modClks o.act (fun c => c.acquire t.clk) else w)
          .next (s.completeOp (warpKey core slot) o [perLane (fun _ => t.word)])
      | _, _ => .next s
    | _, _ => .next s

end Sys2Proof.Machine
end

