-- ==== Sys2Proof/Machine/Place.lean ====
section
/-! DEFINITION. Steps of placement and work: dealing, placing clusters, cooperative and travel launches, stealing, frames,
work packets and child blocks (01 R30, R32, R36 to R43; 14 R246, R252, R257; 16 R262; 18 R284; 20 R292, R309). A step whose
condition does not hold changes nothing. -/

namespace Sys2Proof.Machine

/- Room. -/

/-- A core that belongs to a travel grid takes no other block (16 R262). -/
def State.replicaCore (s : State) (core : Nat) : Bool := (s.core core).replica.isSome

/-- Whether a block fits a core (01 R11, R15). -/
def State.coreFits (s : State) (core warps : Nat) (poolw : W32) : Bool :=
  !s.replicaCore core && s.banksUsed core + bankSum poolw ≤ Config.coreBanks && warps ≤ s.freeSlots core

/-- The core sets of one column that a cluster may take (01 R30). -/
def clusterSites (col csize : Nat) : List (List Nat) :=
  let core (l : Nat) : Nat := 4 * col + l
  match csize with
  | 1 => (List.range 4).map (fun l => [core l])
  | 2 => [[core 0, core 1], [core 2, core 3]]
  | _ => [(List.range 4).map core]

/-- Insert a grid by the order of acceptance. -/
def insertGrid (g : Grid) (l : List Grid) : List Grid :=
  match l with
  | [] => [g]
  | x :: l => if g.order < x.order then g :: x :: l else x :: insertGrid g l

/-- Cores that travel launches accepted before an order wait for (16 R262): in the order of acceptance the named ones, and for each
choice one free core that no earlier launch waits for. -/
def State.promised (s : State) (order : Nat) : List Nat :=
  let gs := (s.grids.map Prod.snd).filter (fun x => x.rec_.travel && x.accepted && x.state == .waiting && x.order < order)
  (gs.foldl (fun l g => insertGrid g l) []).foldl (fun taken x =>
    let reps := x.segs.flatMap (fun g => g.reps)
    let named := reps.filter (fun c => c != 0xFFFF)
    let free := (List.range Config.numCores).filter (fun c =>
      (s.blocksOn c).isEmpty && !s.replicaCore c && s.coreLive c && c % 64 != 0 && !named.contains c && !taken.contains c)
    taken ++ named ++ free.take (reps.length - named.length)) []

/-- The site of a cluster in a column: of the core sets that fit, the one of the lowest layers; R37 leaves open which, and
this is the model's choice (log entry 58). -/
def State.siteIn (s : State) (col csize warps : Nat) (poolw : W32) (avoid : List Nat) : Option (List Nat) :=
  if s.retired col then none
  else (clusterSites col csize).find? (fun cs => cs.all (fun c => s.coreFits c warps poolw && !avoid.contains c))

/-- Blocks of a column. -/
def State.columnBlocks (s : State) (col : Nat) : Tbl Block := (List.range 4).flatMap (fun l => s.blocksOn (4 * col + l))

/-- Which of the three classes of R37 a column is in. -/
def State.siteRank (s : State) (col pclass : Nat) : Nat :=
  let bs := s.columnBlocks col
  if bs.isEmpty then 1 else if bs.all (fun x => x.2.pclass == pclass) then 0 else 2

/-- Where a die's distributor places a cluster (01 R37). -/
def State.site (s : State) (die csize warps pclass : Nat) (poolw : W32) (avoid : List Nat) : Option (List Nat) :=
  let cols := (List.range 16).map (fun i => 16 * die + i)
  ([0, 1, 2].filterMap (fun r =>
    (cols.filterMap (fun c => if s.siteRank c pclass = r then s.siteIn c csize warps poolw avoid else none)).head?)).head?

/-- The ratio a power class takes on an empty column (14 R246); 1 in the bisque stage (14 R241). -/
def State.ratioFor (s : State) (die pclass : Nat) : Nat :=
  if s.stage != .glaze || (s.die die).bisque then 1 else if pclass < 2 then 0 else if pclass < 6 then 1 else 2

/-- A block is given its place on a column: an empty column takes its ratio, a gated one powers up. -/
def State.wakeColumn (s : State) (col pclass : Nat) : State :=
  let empty := (s.columnBlocks col).isEmpty
  let s := s.modCol col (fun c => if empty then { c with ratio := s.ratioFor (col / 16) pclass } else c)
  if (s.col col).gated then
    { (s.modCol col (fun c => { c with gated := false, powerStage := 0, powerAsk := s.nextKey })) with nextKey := s.nextKey + 1 }
  else s

/-- Place one block of a grid. -/
def State.placeBlock (s : State) (gk : Nat) (g : Grid) (core bid : Nat) (r : Range) : State :=
  match r.child with
  | none =>
    (s.wakeColumn (coreColumn core) g.rec_.pclass).startBlock gk g core bid g.rec_.bwarps g.rec_.pclass g.rec_.entry false g.rec_.args r.clk
  | some (entry, warps, pclass, args) =>
    (s.wakeColumn (coreColumn core) pclass).startBlock gk g core bid warps pclass (BitVec.ofNat 64 entry) true args r.clk

/-- The cluster's blocks on the cores of its site, rank by rank. -/
def State.placeCluster (s : State) (gk : Nat) (g : Grid) (cores : List Nat) (bid csize : Nat) (r : Range) : State :=
  (List.range csize).foldl (fun s k =>
    let core := if cores.length = 1 then cores.headD 0 else nth cores k 0
    s.placeBlock gk g core (bid + k) r) s

/- Which launches may place (18 R284; 20 R309). -/

/-- The boards a grid binds. -/
def Grid.boardKeys (g : Grid) : List Nat := (List.range 16).filterMap g.boardKey

/-- No earlier grid that has not completed binds a board of this one. -/
def State.boardsFree (s : State) (g : Grid) : Bool :=
  !s.grids.any (fun x => x.2.order < g.order && x.2.state != .done && x.2.accepted && x.2.boardKeys.any (fun k => g.boardKeys.contains k))

/-- Whether the launch names a bit that the bisque set lacks (00 R9). -/
def Launch.needsGlaze (r : Launch) : Bool := r.features &&& ~~~ capsBisque != 0

def State.dieServes (s : State) (die : Nat) (r : Launch) : Bool := !(r.needsGlaze && (s.die die).bisque)

def State.mayPlace (s : State) (g : Grid) : Bool := g.accepted && !g.held && g.state == .running && s.boardsFree g

/- Dealing (01 R36). -/

/-- Ranges of consecutive blocks that die number i of n is dealt, in chunks of 8. -/
def dealt (blocks i n : Nat) : List (Nat × Nat) :=
  ((List.range (ceilDiv blocks 8)).filter (fun c => c % n == i)).foldl (fun (l : List (Nat × Nat)) c =>
    let lo := 8 * c
    let hi := min blocks (lo + 8)
    match l.getLast? with
    | some x => if x.2 = lo then l.dropLast ++ [(x.1, hi)] else l ++ [(lo, hi)]
    | none => [(lo, hi)]) []

/-- The front end deals the blocks of a launch to the dies that may run it. -/
def State.deal (s : State) (gk : Nat) (g : Grid) : State :=
  let ds := (List.range 4).filter (fun d => s.dieServes d g.rec_)
  (List.range ds.length).foldl (fun s i =>
    let rs : List Range := (dealt g.rec_.gblocks i ds.length).map (fun x =>
      { grid := gk, lo := x.1, hi := x.2, prio := g.rec_.prio, order := g.order, child := none, clk := g.launchVec })
    s.modDie (nth ds i 0) (fun d => { d with ranges := d.ranges ++ rs })) s

/-- An accepted launch begins: it is dealt, or waits to be placed whole, or for its replica cores; while no die may run it,
it is held. -/
def State.beginGrid (s : State) (gk : Nat) : State :=
  match tget s.grids gk with
  | none => s
  | some g =>
    if (List.range 4).all (fun d => !s.dieServes d g.rec_) then s.modGrid gk (fun g => { g with held := true })
    else
      let s := s.modGrid gk (fun g => { g with held := false, state := if g.rec_.coop || g.rec_.travel then .waiting else .running })
      if g.rec_.coop then s else s.deal gk g

/- Placing. -/

/-- The order in which a distributor serves ranges (01 R37). -/
def Range.before (a b : Range) : Bool :=
  b.prio < a.prio || (a.prio == b.prio && (a.order < b.order || (a.order == b.order && a.lo < b.lo)))

def insertRange (r : Range) (l : List Range) : List Range :=
  match l with
  | [] => [r]
  | x :: l => if r.before x then r :: x :: l else x :: insertRange r l

def sortRanges (l : List Range) : List Range := l.foldl (fun a r => insertRange r a) []

/-- Take the first n blocks of a range off a die's list. -/
def takeBlocks (l : List Range) (r : Range) (n : Nat) : List Range :=
  l.flatMap (fun x => if x == r then (if r.lo + n < r.hi then [{ r with lo := r.lo + n }] else []) else [x])

def Range.csize (r : Range) (g : Grid) : Nat := if r.child.isSome then 1 else g.rec_.csize
def Range.warps (r : Range) (g : Grid) : Nat := match r.child with | some c => c.2.1 | none => g.rec_.bwarps
def Range.pclass (r : Range) (g : Grid) : Nat := match r.child with | some c => c.2.2.1 | none => g.rec_.pclass

/-- A replica's block runs: it is neither out nor being pre-empted or restored (16 R262, R277). -/
def State.replicaRuns (s : State) (gk core : Nat) : Bool :=
  (s.blocksOn core).any (fun x => x.2.grid == gk && x.2.state == .running)

/-- The slots of a travel launch's replica core that hold no warp: slots 0 to U − 1 are usable (16 R261, R262). -/
def State.usableFree (s : State) (g : Grid) (core : Nat) : List Nat :=
  (List.range (usableSlots g.ceils g.rec_.poolw)).filter (s.slotFree core)

/-- The slot of a warp among the usable ones: by R15. -/
def State.usableSlot (s : State) (g : Grid) (core wid : Nat) : Option Nat :=
  ((List.range 4).flatMap (fun i => (List.range 16).map (fun j => (wid + i) % 4 + 4 * j))).find? ((s.usableFree g core).contains)

/-- The block that stands for a replica core. -/
def State.replicaBlock (s : State) (gk core : Nat) : Option Nat := ((s.blocksOn core).find? (fun x => x.2.grid == gk)).map Prod.fst

/-- The warps of a launch block of a travel grid start on a replica of the entry segment (16 R262). -/
def State.placeTravel (s : State) (gk : Nat) (g : Grid) (core bid : Nat) (clk : VC) : State :=
  match s.replicaBlock gk core with
  | none => s
  | some bk =>
    (List.range g.rec_.bwarps).foldl (fun s wid =>
      match s.usableSlot g core wid with
      | none => s
      | some slot =>
        let w := Warp.start bk slot false g.ceils.length g.rec_.args g.rec_.entry clk s.issueCount
        let w := { w with ids := (List.range 32).map (fun l => (BitVec.ofNat 32 (32 * wid + l), BitVec.ofNat 64 bid)) }
        { s with warps := tput s.warps (warpKey core slot) w }) (s.noteMove core)

/-- Where a range's next cluster goes: cores, none when it does not fit now. A block of a travel launch waits for a replica
of the entry segment that runs, on a column that is not retired (14 R256; 16 R262). -/
def State.siteFor (s : State) (die : Nat) (g : Grid) (r : Range) : Option (List Nat) :=
  if g.rec_.travel && r.child.isNone then
    ((g.segAt g.rec_.entry).map (fun k => (nth g.segs k Segment.init).reps)).bind (fun reps =>
      (reps.find? (fun c => s.replicaRuns r.grid c && !s.retired (coreColumn c) && g.rec_.bwarps ≤ (s.usableFree g c).length)).map (fun c => [c]))
  else s.site die (r.csize g) (r.warps g) (r.pclass g) g.rec_.poolw (s.promised r.order)

/-- BLOCK_PLACE: the distributor places the first cluster, in its order, that fits. -/
def execBlockPlace (die : Nat) (s : State) : Out :=
  let try_ (r : Range) : Option (Range × Grid × List Nat) :=
    match tget s.grids r.grid with
    | none => none
    | some g => if s.mayPlace g && s.dieServes die g.rec_ then (s.siteFor die g r).map (fun cs => (r, g, cs)) else none
  match ((sortRanges (s.die die).ranges).filterMap try_).head? with
  | none => .next s
  | some (r, g, cs) =>
    let n := r.csize g
    let s := s.modDie die (fun d => { d with ranges := takeBlocks d.ranges r n })
    if g.rec_.travel && r.child.isNone then .next (s.placeTravel r.grid g (cs.headD 0) r.lo r.clk)
    else .next (s.placeCluster r.grid g cs r.lo n r)

/-- Place the clusters of a cooperative launch from number c on; none when one does not fit. Of the assignments that fit,
this one gives each cluster to the lowest die with room; the manual fixes none, and this is the model's choice (log entry
58). -/
def State.placeAll (s : State) (gk : Nat) (g : Grid) (c left : Nat) : Option State :=
  match left with
  | 0 => some s
  | left + 1 =>
    let r : Range := { grid := gk, lo := c, hi := c, prio := 0, order := g.order, child := none, clk := g.launchVec }
    match ((List.range 4).filterMap (fun d =>
      if s.dieServes d g.rec_ then s.site d g.rec_.csize g.rec_.bwarps g.rec_.pclass g.rec_.poolw (s.promised g.order) else none)).head? with
    | none => none
    | some cs => (s.placeCluster gk g cs (c * g.rec_.csize) g.rec_.csize r).placeAll gk g (c + 1) left

/-- COOP_PLACE: all blocks of a cooperative launch at once (01 R32). -/
def execCoopPlace (grid : Nat) (s : State) : Out :=
  match tget s.grids grid with
  | none => .next s
  | some g =>
    if !g.rec_.coop || g.state != .waiting || !g.accepted || g.held || !s.boardsFree g then .next s
    else
      match s.placeAll grid g 0 (g.rec_.gblocks / g.rec_.csize) with
      | none => .next s
      | some s => .next (s.modGrid grid (fun g => { g with state := .running }))

/- Travel launches (16 R262). -/

/-- Cores for the segments' replicas: each named core, and for each choice the lowest free one that the map does not
name. -/
def State.chooseCores (s : State) (named taken : List Nat) (segs : List (List Nat)) : Option (List (List Nat)) :=
  let free (taken : List Nat) (c : Nat) : Bool :=
    (s.blocksOn c).isEmpty && !s.replicaCore c && s.coreLive c && c % 64 != 0 && !taken.contains c
  let one (acc : Option (List Nat × List Nat)) (c : Nat) : Option (List Nat × List Nat) :=
    acc.bind (fun a =>
      let pick := if c = 0xFFFF then (List.range Config.numCores).find? (fun x => free a.2 x && !named.contains x)
        else if free a.2 c then some c else none
      pick.map (fun x => (a.1 ++ [x], a.2 ++ [x])))
  match segs with
  | [] => some []
  | reps :: rest =>
    (reps.foldl one (some ([], taken))).bind (fun a => (s.chooseCores named a.2 rest).map (fun r => a.1 :: r))

/-- Fill a segment's lines, which the core pins, into its instruction store. -/
def State.pin (s : State) (core cx : Nat) (x : Segment) : State :=
  (List.range (x.len / 128 + 1)).foldl (fun s i =>
    match s.xlat (.core core) cx (vbits x.base + min (128 * i) (x.len - 1)) needX with
    | .ok pa => s.fillCode core cx (lineOf pa) false
    | .absent | .protect | .walkErr => s) s

/-- One core becomes a replica: its block holds the segment scratchpad and the pool. -/
def State.giveReplica (s : State) (gk : Nat) (g : Grid) (core seg : Nat) (x : Segment) : State :=
  let s := (s.wakeColumn (coreColumn core) g.rec_.pclass).noteMove core
  let b := Block.start gk 0 0 core g.rec_.bwarps g.rec_.pclass g.rec_.poolw g.rec_.args g.launchVec s.tsc
  let s := { s with blocks := tput s.blocks s.nextKey b, nextKey := s.nextKey + 1 }
  (s.modCore core (fun c => { c with replica := some (gk, seg), arrivals := [], fullPub := false })).pin core g.ctx x

/-- TRAVEL_REPLICA_GRANT: every replica core at once. -/
def execTravelReplicaGrant (grid : Nat) (s : State) : Out :=
  match tget s.grids grid with
  | none => .next s
  | some g =>
    if !g.rec_.travel || g.state != .waiting || !g.accepted || g.held || !s.boardsFree g then .next s
    else
      let named := (g.segs.flatMap (fun x => x.reps)).filter (fun c => c != 0xFFFF)
      match s.chooseCores named (s.promised g.order) (g.segs.map (fun x => x.reps)) with
      | none => .next s
      | some cs =>
        let segs := (g.segs.zip cs).map (fun x => { x.1 with reps := x.2 })
        let s := s.modGrid grid (fun g => { g with segs := segs, state := .running })
        .next ((List.range segs.length).foldl (fun s k =>
          (nth cs k []).foldl (fun s c => s.giveReplica grid g c k (nth segs k Segment.init)) s) s)

/- Stealing (01 R38). -/

/-- What the distributors serve and steal together: the blocks of a launch at one priority, that of its record or of the
packet that gave child blocks (01 R37, R43); that child ranges of another priority are not counted among the clusters of the
launch is the model's choice (log entry 61). -/
def workKey (gk prio : Nat) : Nat := gk * 8 + prio % 8
def Range.work (r : Range) : Nat := workKey r.grid r.prio

/-- Blocks of a launch and priority that a die has still to place. -/
def Die.remaining (d : Die) (wk : Nat) : Nat := ((d.ranges.filter (fun r => r.work == wk)).map (fun r => r.hi - r.lo)).sum

/-- The work an empty distributor would steal from, and its victim, by the published counters. -/
def State.target (s : State) (thief : Nat) : Option (Nat × Nat) :=
  let others := (List.range 4).filter (fun d => d != thief)
  let shown (d wk : Nat) : Nat := (tget (s.die d).pubRemain wk).getD 0
  let may (x : Nat × Grid) : Bool := !x.2.rec_.coop && x.2.state == .running && s.dieServes thief x.2.rec_
  let cand := (s.grids.filter may).flatMap (fun x => ((List.range 8).map (fun p => (workKey x.1 p, p, x.2.order))).filter (fun y =>
    others.any (fun d => shown d y.1 != 0)))
  let best := cand.foldl (fun (a : Option (Nat × Nat × Nat)) x => match a with
    | none => some x
    | some y => if y.2.1 < x.2.1 || (y.2.1 == x.2.1 && x.2.2 < y.2.2) then some x else some y) none
  best.bind (fun x =>
    (others.foldl (fun (a : Option Nat) d => match a with
      | none => some d
      | some v => if shown v x.1 < shown d x.1 then some d else some v) none).map (fun v => (x.1, v)))

/-- The range a victim gives: the higher half of its last range, or the whole of it when that is one cluster. The last range is
that which its list took last, and the clusters counted are those of one priority of the launch: the model's choices (log entry
61). -/
def shareOf (l : List Range) (wk csize : Nat) : Option (Range × List Range) :=
  let mine := l.filter (fun r => r.work == wk)
  let size (r : Range) : Nat := if r.child.isSome then 1 else csize
  match mine.getLast? with
  | none => none
  | some r =>
    let n := r.hi - r.lo
    let cs := size r
    if (mine.map (fun r => (r.hi - r.lo) / size r)).sum < 2 then none
    else if n ≤ cs then some (r, l.filter (fun x => x != r))
    else
      let m := n / 2 / cs * cs
      some ({ r with lo := r.hi - m }, l.map (fun x => if x == r then { r with hi := r.hi - m } else x))

/-- STEAL_REQUEST: of the idle dies without ranges that pick this victim, the lowest gets its share, or nothing; whose
message arrives first is not in the manual, and this is the model's choice (log entry 58). -/
def execStealRequest (victim : Nat) (s : State) : Out :=
  match (List.range 4).find? (fun d => (s.die d).ranges.isEmpty && (s.die d).steal == .idle && (s.target d).any (fun x => x.2 == victim)) with
  | none => .next s
  | some thief =>
    match s.target thief with
    | none => .next s
    | some (wk, _) =>
      let gk := wk / 8
      let csize := match tget s.grids gk with | some g => g.rec_.csize | none => 1
      match shareOf (s.die victim).ranges wk csize with
      | none => .next (s.modDie thief (fun d => { d with steal := .reply gk none }))
      | some (r, left) =>
        .next ((s.modDie victim (fun d => { d with ranges := left })).modDie thief (fun d => { d with steal := .reply gk (some r) }))

def execStealReply (thief : Nat) (s : State) : Out :=
  match (s.die thief).steal with
  | .reply _ (some r) => .next (s.modDie thief (fun d => { d with ranges := d.ranges ++ [r], steal := .idle }))
  | .reply _ none => .next (s.modDie thief (fun d => { d with steal := .wait (s.tsc + 1000) }))
  | .idle | .wait _ => .next s

def execStealRetry (thief : Nat) (s : State) : Out :=
  match (s.die thief).steal with
  | .wait u => if u ≤ s.tsc then .next (s.modDie thief (fun d => { d with steal := .idle })) else .next s
  | .idle | .reply .. => .next s

/- Frames (20 R292; 14 R257). -/

/-- FRAME_BOUNDARY: the distributors and replica cores publish their counters for the frame just ended. -/
def execFrameBoundary (s : State) : Out :=
  if s.tsc / 1000 ≤ s.frame then .next s
  else
    let dies := (List.range s.dies.length).map (fun i =>
      let d := s.die i
      let works := s.grids.flatMap (fun x => (List.range 8).map (workKey x.1))
      { d with pubRemain := works.filterMap (fun k => if d.remaining k = 0 then none else some (k, d.remaining k)),
               pubFree := if i < 4 then (List.range 64).map (fun j =>
                   let c := 64 * i + j
                   (c, if s.replicaCore c || s.retired (coreColumn c) then (0, 0) else (s.freeSlots c, Config.coreBanks - s.banksUsed c))) else [] })
    let cores := s.cores.map (fun (c : CoreSt) =>
      { c with fullPub := match c.replica.bind (fun r => tget s.grids r.1) with
          | some g => g.rec_.arrcap ≤ c.arrivals.length
          | none => false })
    .next { s with frame := s.tsc / 1000, dies := dies, cores := cores }

/-- A domain judges a frame by its mean queue occupancy, in thousandths; frames count as consecutive where none was left
out. -/
def Die.judgeFrame (d : Die) (frame occ : Nat) : Die :=
  let d := if d.fjudged + 1 = frame then d else { d with fhigh := 0, flow := 0 }
  let d := { d with fjudged := frame }
  if 500 < occ then
    (if 2 ≤ d.fhigh + 1 then { d with fstep := min 7 (d.fstep + 1), fhigh := 0, flow := 0 } else { d with fhigh := d.fhigh + 1, flow := 0 })
  else if occ < 125 then
    (if 8 ≤ d.flow + 1 then { d with fstep := d.fstep - 1, flow := 0, fhigh := 0 } else { d with flow := d.flow + 1, fhigh := 0 })
  else { d with fhigh := 0, flow := 0 }

/-- FABRIC_STEP_CHANGE: a domain's frame has ended; each frame is judged once (00 R321; 14 R257). -/
def execFabricStepChange (domain occ : Nat) (s : State) : Out :=
  if s.frame ≤ (s.die domain).fjudged then .next s else .next (s.modDie domain (fun d => d.judgeFrame s.frame occ))

/- Work packets (01 R41 to R43). -/

def execWorkPacketArrival (key : Nat) (s : State) : Out :=
  match s.packets.find? (fun p => p.key == key) with
  | none => .next s
  | some p => .next ({ s with packets := s.packets.filter (fun x => x.key != key) }.modDie p.die (fun d => { d with mailbox := d.mailbox ++ [p] }))

def Packet.word (p : Packet) (i : Nat) : Nat := (nth p.words i 0).toNat
def Packet.hops (p : Packet) : Nat := field (p.word 0) 19 2
def Packet.prio (p : Packet) : Nat := field (p.word 0) 16 3
def Packet.nblk (p : Packet) : Nat := p.word 1
def Packet.pclass (p : Packet) : Nat := field (p.word 2) 8 3
def Packet.cwarps (p : Packet) : Nat := field (p.word 2) 0 6

/-- A packet outside its limits, or whose entry is not in the kernel's table (01 R41; 08 R187). -/
def State.malformed (s : State) (die : Nat) (g : Grid) (p : Packet) : Bool :=
  field (p.word 0) 21 11 != 0 || p.nblk == 0 || field (p.word 2) 11 21 != 0 || field (p.word 2) 6 2 != 0
    || p.cwarps == 0 || 32 < p.cwarps || p.word 3 != 0 || (s.entryAt die g.ctx g.rec_.entry (field (p.word 0) 0 16)).isNone

/-- Child blocks a die could place now, by its published counters: none where the die may not run the launch, and none on a
core of a retired column or one that an earlier travel launch waits for. -/
def State.capacity (s : State) (die : Nat) (g : Grid) (p : Packet) : Nat :=
  let open_ := if s.dieServes die g.rec_ then
      (s.die die).pubFree.filter (fun x => !s.retired (coreColumn x.1) && !(s.promised g.order).contains x.1) else []
  min p.nblk ((open_.map (fun x =>
    min (x.2.1 / max 1 p.cwarps) (if bankSum g.rec_.poolw = 0 then x.2.1 else x.2.2 / bankSum g.rec_.poolw))).sum)

/-- The other die with most capacity, the lowest of equals. -/
def State.elsewhere (s : State) (die : Nat) (g : Grid) (p : Packet) : Option Nat :=
  (((List.range 4).filter (fun d => d != die)).foldl (fun (a : Option Nat) d => match a with
    | none => some d
    | some v => if s.capacity v g p < s.capacity d g p then some d else some v) none).filter (fun d =>
      s.capacity d g p != 0 && s.mailboxLoad d < Config.mailboxSize)

/-- The dispatcher warp pops q3: lanes 0 to 7 of its register take the packet's words, the others 0 (08 R181). -/
def Packet.popped (p : Packet) : List W32 := (List.range 32).map (fun l => if l < 8 then nth p.words l 0 else 0)

/-- DISPATCH_PACKET: one turn of the dispatcher's ROM loop: it pops the packet at the head of its mailbox, and drops,
forwards or hands on what it has popped (01 R42). -/
def execDispatchPacket (die : Nat) (s : State) : Out :=
  match (s.die die).mailbox with
  | [] => .next s
  | p :: rest =>
    if (s.die die).giving.isSome then .next s
    else
      let s1 := s.modDie die (fun d => { d with mailbox := rest, dreg := p.popped })
      let p := { p with words := (s1.die die).dreg.take 8 }
      match tget s.grids p.grid with
      | none => .next s1
      | some g =>
        if s.malformed die g p then
          .next ((s1.modDie die (fun d => { d with malformed := d.malformed + 1 })).logEvent die
            (Event.mk' s g.ctx (0x100 + die) 0x86 0 0 0))
        else
          let away := if s.capacity die g p = 0 && p.hops < 3 then s.elsewhere die g p else none
          match away with
          | some d =>
            let q : Packet := { p with key := s.nextKey, die := d, words := lput p.words 0 0 (fun w => withHops w (p.hops + 1)) }
            .next { s1 with nextKey := s.nextKey + 1, packets := s1.packets ++ [q] }
          | none =>
            let pc := (s.entryAt die g.ctx g.rec_.entry (field (p.word 0) 0 16)).getD 0
            let r : Range := { grid := p.grid, lo := 0, hi := p.nblk, prio := p.prio, order := g.order,
                               child := some (pc.toNat, p.cwarps, p.pclass, (p.words.drop 4).take 4), clk := p.clk }
            .next ((s1.entryReads die g.ctx g.rec_.entry (field (p.word 0) 0 16)).modDie die (fun d => { d with giving := some r }))

/-- CHILD_RANGE_ACCEPT: the distributor takes the range and numbers its blocks from the grid's counter. -/
def execChildRangeAccept (die : Nat) (s : State) : Out :=
  match (s.die die).giving with
  | none => .next s
  | some r =>
    let s1 := s.modDie die (fun d => { d with giving := none })
    match tget s.grids r.grid with
    | none => .next s1
    | some g =>
      let lo := g.rec_.gblocks + g.childNext
      let n := r.hi - r.lo
      let s2 := s1.modGrid r.grid (fun g => { g with childNext := g.childNext + n })
      .next (s2.modDie die (fun d => { d with ranges := d.ranges ++ [{ r with lo := lo, hi := lo + n }] }))

end Sys2Proof.Machine
end

