-- ==== Sys2Proof/Machine/PreEv.lean ====
section
/-! DEFINITION. Steps of pre-emption and restore, and the completion of a grid (13 R228 to R234; 15 R259, R260; 16 R262,
R277; 18 R289; 20 R304, R307). A step whose condition does not hold changes nothing. -/

namespace Sys2Proof.Machine

/- Frames (13 R228; 15 R259). -/

/-- The save region of a grid: its first and last address, from SAVEB or the base of the registered area. -/
def State.saveRegion (s : State) (g : Grid) : Nat × Nat :=
  match tget s.ctxs g.ctx with
  | none => (0, 0)
  | some c => (if g.rec_.saveb = 0 then c.saveBase.toNat else g.rec_.saveb.toNat, c.saveBase.toNat + c.saveLen)

/-- Frames in use in the context: address and size. -/
def State.framesOf (s : State) (cx : Nat) : List (Nat × Nat) :=
  (s.grids.filter (fun x => x.2.ctx == cx)).flatMap (fun x => x.2.frames.map (fun f => f.2))

/-- The lowest place of the save region with room for a frame. -/
def State.allotFrame (s : State) (g : Grid) (size : Nat) : Option Nat :=
  let r := s.saveRegion g
  let used := s.framesOf g.ctx
  let cand := (r.1 :: (used.map (fun f => f.1 + f.2))).filter (fun a => r.1 ≤ a && a + size ≤ r.2
    && used.all (fun f => f.1 + f.2 ≤ a || a + size ≤ f.1))
  cand.foldl (fun (m : Option Nat) a => match m with
    | none => some a
    | some x => some (min a x)) none

/-- Insert in ascending order. -/
def insertNat (x : Nat) (l : List Nat) : List Nat :=
  match l with
  | [] => [x]
  | y :: l => if x ≤ y then x :: y :: l else y :: insertNat x l

/-- %warp of the warps of a block, ascending; numbers of spawned warps count on without bound (01 R40). -/
def State.widsOf (s : State) (bk : Nat) : List Nat := (s.warpsOf bk).foldl (fun l x => insertNat x.2.wid l) []

/-- What becomes of raising PREEMPT in a block: its frame is allotted and its header written first, unless the save region
has no room, which refuses the block, or the header cannot be written, which refuses the command (13 R228; 20 R304). -/
inductive Raised where
  | noRoom
  | unwritable
  | ok (s : State)

def State.raisePreempt (s : State) (bk : Nat) (b : Block) (g : Grid) : Raised :=
  let wids := s.widsOf bk
  let size := frameSize g.ceils wids.length b.poolw
  match s.allotFrame g size with
  | none => .noRoom
  | some a =>
    match s.pokeVa 4 g.ctx a (frameHeader b g.ceils wids) .zero with
    | none => .unwritable
    | some r =>
      let s := r.1.modBlock bk (fun b => { b with state := .preempting, frame := a, warpno := wids, clk := b.clk.join r.2 })
      .ok ((s.modGrid b.grid (fun g => { g with frames := g.frames ++ [(bk, a, size)] })).notifyBlock bk .preempt (BitVec.ofNat 64 a))

/-- Whether the header of every frame that the blocks would be allotted can be written now. -/
def State.headersOk (s : State) (gk : Nat) (todo : List Nat) : Bool :=
  match todo with
  | [] => true
  | bk :: rest =>
    match s.blk? bk, tget s.grids gk with
    | some b, some g =>
      (match s.raisePreempt bk b g with
        | .unwritable => false
        | .noRoom => s.headersOk gk rest
        | .ok s => s.headersOk gk rest)
    | _, _ => s.headersOk gk rest

/-- A PREEMPT completes: with the number of refused blocks, or refused itself. -/
def State.preemptEnd (s : State) (gk status : Nat) (n : Option Nat) : State :=
  match tget s.grids gk with
  | none => s
  | some g =>
    match g.preCid with
    | none => s
    | some cid => (s.modGrid gk (fun g => { g with pre := [], preRefused := 0, preCid := none })).reply g.fn g.q cid status n

/-- Go through the blocks still to be raised until one is raised; the command ends with the last, or with a frame whose
header can no longer be written. -/
def State.preemptNext (s : State) (gk : Nat) (todo : List Nat) : State :=
  match todo with
  | [] => s.preemptEnd gk 0 ((tget s.grids gk).map (fun g => g.preRefused))
  | bk :: rest =>
    match s.blk? bk, tget s.grids gk with
    | some b, some g =>
      match b.state with
      | .running =>
        match s.raisePreempt bk b g with
        | .ok s => s.modGrid gk (fun g => { g with pre := rest })
        | .noRoom => (s.modGrid gk (fun g => { g with preRefused := g.preRefused + 1 })).preemptNext gk rest
        | .unwritable => s.preemptEnd gk 1 none
      | .restoring => s.modGrid gk (fun g => { g with pre := bk :: rest })
      | .preempting | .out | .ended => s.preemptNext gk rest
    | _, _ => s.preemptNext gk rest

/-- The firmware serves the blocks of a PREEMPT one at a time. -/
def State.preemptGo (s : State) (gk : Nat) : State :=
  match tget s.grids gk with
  | none => s
  | some g =>
    if g.preCid.isNone || s.blocks.any (fun x => x.2.grid == gk && x.2.state == .preempting) then s
    else s.preemptNext gk g.pre

def execPreemptRaise (grid : Nat) (s : State) : Out := .next (s.preemptGo grid)

/- Leaving (13 R230, R232; 16 R277). -/

/-- A caravan goes into a ring entry, held for a core that is out, and into the arrival log (13 R231; 16 R277). -/
def State.ringOut (s : State) (bk gk entry : Nat) (c : Caravan) : State :=
  match tget s.grids gk with
  | none => s
  | some _ =>
    let s := s.modGrid gk (fun g => { g with ring := tput g.ring entry { state := 2, car := some { c with entry := entry }, since := s.hseq } })
    let s := s.ringWrite (coreDie c.dst) gk entry 0 (c.record 2) c.clock
    s.logAppend bk (s.tsc, c.source, 2, 0, entry, 0)

/-- The arrival queue of a replica core empties into the spill ring, as far as it has entries. -/
def State.queueOut (s : State) (bk gk core : Nat) (q : List Caravan) : State :=
  match q with
  | [] => s
  | c :: rest =>
    match (tget s.grids gk).bind (fun g => g.freeCredits.head?) with
    | none => s
    | some e => ((s.modCore core (fun x => { x with arrivals := rest })).ringOut bk gk e c).queueOut bk gk core rest

/-- Every warp has executed YIELD, and the engines hold nothing of the block but what a guard holds back. -/
def State.canLeave (s : State) (bk : Nat) (b : Block) : Bool :=
  b.state == .preempting && b.adm.isEmpty && b.hq.isEmpty && b.heldBack
    && (s.warpsOf bk).all (fun x => x.2.wait == .yielded && !x.2.async.any (fun a => a.1 == .contextKill))

/-- BLOCK_LEAVE: the block leaves its core, and PREEMPT is raised in the next block at the same tick. -/
def execBlockLeave (blk : Nat) (s : State) : Out :=
  match s.blk? blk with
  | none => .next s
  | some b =>
    if !s.canLeave blk b then .next s
    else
      let s1 := s.leaveCore blk
      let left := match s1.blk? blk with | some b => b.state == .out | none => false
      let s2 := if left && (s.core b.core).replica.any (fun r => r.1 == b.grid) then s1.queueOut blk b.grid b.core (s.core b.core).arrivals else s1
      .next (s2.preemptGo b.grid)

/-- ARRIVAL_LOG_APPEND: a cluster-barrier arrival, or a view, for a block that is out goes into its arrival log, stamped with
the tick of the entry (13 R231); what arrived before the block left is in the log already, with its own stamp (15 R260). -/
def execArrivalLogAppend (blk : Nat) (s : State) : Out :=
  match s.blk? blk with
  | none => .next s
  | some b =>
    if b.state != .out && b.state != .restoring then .next s
    else
      match s.arrs.find? (fun m => m.n < 112 && m.dst == blk) with
      | some m =>
        .next ({ s with arrs := s.arrs.filter (fun x => x.key != m.key) }.logArrival blk { m with stamp := s.tsc })
      | none =>
        match s.breqs.find? (fun r => r.blk == blk && r.taken && !r.logged && r.kind != .brst) with
        | none => .next s
        | some r =>
          .next ((s.modBReq r.key (fun r => { r with logged := true })).logAppend blk (s.tsc, 0xFFFF, 1, r.wid, r.pc.toNat, 0))

/- Restoring (13 R233). -/

/-- RESTORE commands whose blocks have all been placed, or have ended, complete. -/
def State.restoreSweep (s : State) : State :=
  let out (bk : Nat) : Bool := match s.blk? bk with | some b => b.state == .out | none => false
  s.grids.foldl (fun s x =>
    let left := x.2.res.filter out
    let s := s.modGrid x.1 (fun g => { g with res := left })
    match x.2.resCid with
    | some cid =>
      if left.isEmpty then (s.modGrid x.1 (fun g => { g with resCid := none })).reply x.2.fn x.2.q cid 0 none else s
    | none => s) s

/-- A core takes a block back: it has room, and no earlier travel launch waits for it (13 R233; 16 R262). -/
def State.takesBack (s : State) (g : Grid) (core : Nat) (b : Block) : Bool :=
  s.coreFits core b.warpno.length b.poolw && !(s.promised g.order).contains core

/-- A site for a cluster that is wholly out: the lowest column of any die whose layers have room for its blocks. -/
def State.restoreSite (s : State) (g : Grid) (child : Bool) (mates : Tbl Block) : Option (List (Nat × Nat)) :=
  let csize := if child then 1 else g.rec_.csize
  let at_ (cs : List Nat) : List (Nat × Nat) := mates.map (fun m => (m.1, nth cs m.2.crank 0))
  let fits (cs : List Nat) : Bool :=
    mates.all (fun m => s.takesBack g (nth cs m.2.crank 0) m.2)
  let sites := (List.range 64).flatMap (fun c =>
    if s.retired c || !s.dieServes (c / 16) g.rec_ then [] else clusterSites c csize)
  (sites.find? fits).map at_

/-- Put a block on a core again; a block without warps is restored at once. -/
def State.restoreAt (s : State) (bk core : Nat) : State :=
  match s.blk? bk with
  | none => s
  | some b =>
    let s := (s.wakeColumn (coreColumn core) b.pclass).placeRestored bk core
    if b.saved.isEmpty then s.finishRestore bk else s

/-- BLOCK_RESTORE_PLACE: a block whose mates are resident, and a replica of a travel grid, goes back to its core, unless its
column has been retired (14 R256); a cluster wholly out goes to any column with its layers. -/
def execBlockRestorePlace (blk : Nat) (s : State) : Out :=
  match (s.blk? blk).bind (fun b => (tget s.grids b.grid).map (fun g => (b, g))) with
  | none => .next s.restoreSweep
  | some (b, g) =>
    if b.state != .out || !g.res.contains blk then .next s.restoreSweep
    else if g.rec_.travel && !b.isChild g then
      (if s.retired (coreColumn b.core) then .next s.restoreSweep else .next (s.restoreAt blk b.core).restoreSweep)
    else
      let mates := s.clusterOf b g.rec_
      if mates.any (fun x => x.2.resident) then
        if s.takesBack g b.core b && !s.retired (coreColumn b.core) then .next (s.restoreAt blk b.core).restoreSweep else .next s.restoreSweep
      else
        match s.restoreSite g (b.isChild g) mates with
        | none => .next s.restoreSweep
        | some l => .next (l.foldl (fun s x => s.restoreAt x.1 x.2) s).restoreSweep

/- The end of a grid (16 R262; 20 R307). -/

/-- No block, child range or work packet of the grid remains. -/
def State.gridEmpty (s : State) (gk : Nat) : Bool :=
  let theirs (r : Range) : Bool := r.grid == gk
  !s.packets.any (fun p => p.grid == gk)
    && s.dies.all (fun d => !d.ranges.any theirs && !d.giving.any theirs && !d.mailbox.any (fun p => p.grid == gk)
        && (match d.steal with
          | .reply _ (some r) => !theirs r
          | .idle | .reply _ none | .wait _ => true))

/-- No thread of a travel grid remains on a core, and no caravan anywhere. -/
def State.travelEmpty (s : State) (gk : Nat) (g : Grid) : Bool :=
  !s.caravans.any (fun c => c.grid == gk) && g.ring.isEmpty
    && s.cores.all (fun (c : CoreSt) => !c.arrivals.any (fun x => x.grid == gk))
    && s.blocks.all (fun x => x.2.grid != gk || (x.2.saved.isEmpty && (s.warpsOf x.1).isEmpty))

/-- A travel grid gives its replica cores back. -/
def State.freeReplicas (s : State) (gk : Nat) : State :=
  let s := ((s.blocks.filter (fun x => x.2.grid == gk)).map Prod.fst).foldl (fun s bk => s.finishBlock bk false) s
  let free (c : CoreSt) : CoreSt :=
    if c.replica.any (fun r => r.1 == gk) then { c with replica := none, arrivals := [], fullPub := false } else c
  { s with cores := s.cores.map free }

/-- Status of a completed grid: DONE, GRID_ERROR, or KILLED. -/
def Grid.status (g : Grid) : Nat := if g.killed then 5 else if g.err then 4 else 0

/-- GRID_COMPLETE: every write of the grid has reached all five dies, and the completion follows. -/
def execGridComplete (grid : Nat) (s : State) : Out :=
  match tget s.grids grid with
  | none => .next s
  | some g =>
    let gone := if g.rec_.travel then s.travelEmpty grid g else !s.blocks.any (fun x => x.2.grid == grid)
    if g.state != .running || g.held || !g.accepted || !gone || !s.gridEmpty grid then .next s
    else
      let s1 := if g.rec_.travel then s.freeReplicas grid else s
      let clk := match tget s1.grids grid with | some g => g.clk | none => g.clk
      if !s.dies.all (fun d => clk.le d.vec) then .next s
      else .next ((s1.modGrid grid (fun g => { g with state := .done })).reply g.fn g.q g.cid g.status none)

end Sys2Proof.Machine
end

