-- ==== Sys2Proof/Machine/PowerEv.lean ====
section
/-! DEFINITION. Steps of the column controllers, the sensors, the power cap and the core reset of a die (14 R235 to R257;
20 R295). A step whose condition does not hold changes nothing. -/

namespace Sys2Proof.Machine

/- A core reset (20 R295, R296; 13 R226). -/

/-- Requests of a block whose responses are on their way: of its loads, atomics and prefetches, and of its engine
operations (20 R296). -/
def State.awaited (s : State) (bk core : Nat) : List (Nat × Nat × Nat) :=
  (match s.blk? bk with
    | some b => (b.adm.filter (fun e => e.state == .started)).map (fun e => (core, 64, e.id))
    | none => [])
  ++ (s.warpsOf bk).flatMap (fun x => (x.2.ops.filter (fun o => !o.over && (match o.kind with
      | .load .. | .loaded | .atomic .. | .pref _ => true
      | .value | .waita .. | .qpop _ | .mmrd _ => false))).map (fun o => (core, x.1 % 64, o.id)))

/-- One block on the reset die ends; the rest of its cluster, or of its cooperative or travel grid, is killed. -/
def State.resetBlock (s : State) (bk : Nat) : State :=
  match s.blk? bk with
  | none => s
  | some b =>
    match tget s.grids b.grid with
    | none => s
    | some g =>
      let mates : List Nat :=
        if g.rec_.coop || g.rec_.travel then (s.blocks.filter (fun x => x.2.grid == b.grid)).map Prod.fst
        else (s.clusterOf b g.rec_).map Prod.fst
      let s := { s with orphans := s.orphans ++ s.awaited bk b.core }
      let s := s.finishBlock bk true
      let s := mates.foldl State.killBlock s
      if g.rec_.travel then s.killGrid b.grid else s

/-- The core domain of a die is reset. -/
def State.coreReset (s : State) (die : Nat) : State :=
  let mine := (s.blocks.filter (fun x => x.2.resident && coreDie x.2.core == die)).map Prod.fst
  let s := mine.foldl State.resetBlock s
  let s := { s with cores := (List.range s.cores.length).map (fun c =>
    let x := s.core c
    if coreDie c = die then
      { x with istore := [], hbuf := [], loops := [none, none, none, none], lines := [], tlb := [], ptlbs := [[], [], [], []] }
    else x) }
  s.modDie die (fun d => { d with gen := (d.gen + 1) % 16, bisque := true, lastReset := some s.tsc, resetAsk := false })

/-- A reset that has been asked for begins no earlier than 1 ms after the last. -/
def State.tryReset (s : State) (die : Nat) : State :=
  let d := s.die die
  let due := match d.lastReset with | some t => t + 1000000 ≤ s.tsc | none => true
  if d.resetAsk && due && die < 4 then s.coreReset die else s

def State.askReset (s : State) (die : Nat) : State := (s.modDie die (fun d => { d with resetAsk := true })).tryReset die

def execCoreReset (die : Nat) (s : State) : Out := .next (s.tryReset die)

/- Notices (14 R245). -/

/-- Send a notice to the blocks of a column whose launch satisfies a condition. -/
def State.notifyColumn (s : State) (col : Nat) (want : Launch → Bool) (c : Cause) (addr : Nat) : State :=
  (s.columnBlocks col).foldl (fun s x =>
    if (tget s.grids x.2.grid).any (fun g => want g.rec_) then s.notifyBlock x.1 c (BitVec.ofNat 64 addr) else s) s

/- Steps, ceilings and voltages (14 R246, R247, R253). -/

def Column.nominal (c : Column) : Nat := if c.ratio = 2 then 4 else 12
def Column.topStep (c : Column) : Nat := if c.ratio = 2 then 5 else 15
/-- The fallback step (14 R241). -/
def Column.fallbackStep (c : Column) : Nat := if c.ratio = 2 || 5 ≤ c.tband then 0 else 4

/-- Whether the column's die runs under the rules of the bisque stage. -/
def State.colBisque (s : State) (col : Nat) : Bool := s.stage != .glaze || (s.die (col / 16)).bisque

/-- The lowest ceiling of a column. -/
def Column.target (c : Column) (bisque : Bool) : Nat :=
  let low (on : Bool) (v x : Nat) : Nat := if on then min v x else x
  low bisque 4 (low c.bumpCap c.fallbackStep (low c.sensorFall c.fallbackStep (low c.fallback c.fallbackStep
    (low c.thermal.isSome (c.thermal.getD 0) (low c.powerCeil.isSome (c.powerCeil.getD 0) (low (c.ratio == 2) 5
      (if c.boostOn then c.boostCeil else c.nominal)))))))

/-- V(s) in mV. -/
def stepMv (s : Nat) : Nat := if s ≤ 12 then 600 + 10 * s else if s = 13 then 750 else if s = 14 then 780 else 810

/-- The highest step among the powered columns of a die. -/
def State.highStep (s : State) (die : Nat) : Nat :=
  ((List.range 16).map (fun i => let c := s.col (16 * die + i); if c.gated || c.powerStage != 4 then 0 else c.step)).foldl max 0

def State.layerMv (s : State) (die : Nat) : Nat := stepMv (s.highStep die)

/-- Program burn of the four cores of a column. -/
def State.burns (s : State) (col : Nat) : List Nat := (List.range 4).map (fun l => s.burnOf (4 * col + l))

/-- %draw of the four cores. -/
def State.draws (s : State) (col : Nat) : List Nat := (List.range 4).map (fun l => s.ownDraw (4 * col + l))

/-- Power of a column in mW (14 R250). -/
def State.columnMw (s : State) (col : Nat) : Nat := (s.draws col).sum * s.layerMv (col / 16) / 16

/- The mismatch ladder (14 R237 to R241). -/

/-- Four times the mismatch at boundary b. -/
def mismatch4 (c : List Nat) (b : Nat) : Int :=
  ((List.range 4).filter (fun k => b < k)).foldl (fun (a : Int) k => a + (4 * ((nth c k 0 : Nat) : Int) - (c.sum : Int))) 0

def absNat (x : Int) : Nat := x.natAbs

/-- Forecasts with hardware burn added. -/
def Column.residual (c : Column) : List Nat := (List.range 4).map (fun k => nth c.fc k 0 + 8 * nth c.hw k 0)

/-- Layers on the heavy side of boundary b. -/
def Column.heavySide (c : Column) (b : Nat) : List Nat :=
  (List.range 4).filter (fun k => decide (b < k) == decide (0 < mismatch4 c.residual b))

/-- The heavy core of boundary b: without a reservation there where possible, of the largest forecast, lowest layer. -/
def State.heavyCore (s : State) (col b : Nat) : Nat :=
  let c := s.col col
  let held (k : Nat) : Bool := (boundariesOf k).contains b && (s.blocksOn (4 * col + k)).any (fun x => x.2.shunt.live != 0)
  let side := c.heavySide b
  let pool := if (side.filter (fun k => !held k)).isEmpty then side else side.filter (fun k => !held k)
  (pool.foldl (fun (a : Option Nat) k => match a with
    | none => some k
    | some x => if nth c.fc x 0 < nth c.fc k 0 then some k else some x) none).getD 0

/-- Since when a condition has held. -/
def heldSince (old : Option Nat) (now : Nat) (holds : Bool) : Option Nat := if holds then some (old.getD now) else none

def heldFor (x : Option Nat) (now t : Nat) : Bool := match x with | some a => a + t ≤ now | none => false

/-- The request of one kind at a window boundary (08 R183). -/
def PowReq.boundary (p : PowReq) : PowReq :=
  match p.next with
  | some x => { value := x.1, windows := x.2, next := none }
  | none => { p with windows := p.windows - 1 }

/-- Energy of the window just ended goes to the contexts of the blocks, by warps; blocks of a core that holds no warp share it
alike (14 R242; 20 R306). -/
def State.charge (s : State) (col dt : Nat) : State :=
  let c := s.col col
  let mv := s.layerMv (col / 16)
  let units (x : Nat) : Nat := x * mv * dt
  let share (s : State) (core e : Nat) : State :=
    let bs := s.blocksOn core
    let n := (bs.map (fun x => (s.warpsOf x.1).length)).sum
    bs.foldl (fun s x => match tget s.grids x.2.grid with
      | some g => s.modCtx g.ctx (fun k => { k with energy := k.energy + (if n = 0 then e / bs.length else e * (s.warpsOf x.1).length / n) })
      | none => s) s
  let heaviest := (((List.range 4).filter (fun k => !(s.blocksOn (4 * col + k)).isEmpty)).foldl (fun (a : Option Nat) k => match a with
    | none => some k
    | some x => if nth c.fc x 0 < nth c.fc k 0 then some k else some x) none).getD 0
  (List.range 4).foldl (fun s l =>
    let core := 4 * col + l
    let s := share s core (units (nth c.est l 0))
    let s := (s.blocksOn core).foldl (fun s x => match tget s.grids x.2.grid with
      | some g => s.modCtx g.ctx (fun k => { k with energy := k.energy + units (8 * x.2.burn.live) })
      | none => s) s
    share s (if (s.blocksOn core).isEmpty then 4 * col + heaviest else core) (units (8 * nth c.hw l 0))) s

/-- Hardware burn of a layer (14 R239, R241). -/
def hwBurn (gmax g p cap slack : Nat) : Nat := min (min (ceilDiv (gmax - g - slack) 8) (16 - p)) cap

/-- Whether boost may begin on a column, or go on (14 R250). -/
def State.boostOk (s : State) (col : Nat) : Bool :=
  let c := s.col col
  (s.columnBlocks col).all (fun x => (tget s.grids x.2.grid).any (fun g => g.rec_.feature 10)) && c.tband ≤ 3
    && c.rung.all (fun r => r ≤ 2) && !c.fallback && c.powerCeil.all (fun p => c.nominal ≤ p) && !s.colBisque col

/-- Boost is withdrawn when a condition fails; BOOST_EMPTY when the bucket is the reason. -/
def State.boostCheck (s : State) (col : Nat) : State :=
  let c := s.col col
  if !c.boostOn then s
  else if c.boost = 0 then
    (s.modCol col (fun c => { c with boostOn := false, boostCeil := c.nominal })).notifyColumn col (fun r => r.feature 11) .boostEmpty 0
  else if !s.boostOk col then s.modCol col (fun c => { c with boostOn := false, boostCeil := c.nominal })
  else s

/-- Blocks resident on a column, by key. -/
def State.columnKeys (s : State) (col : Nat) : List Nat := (s.columnBlocks col).map Prod.fst

/-- Whether the condition of rung 3 holds at a boundary, as of the last window boundary (14 R238). -/
def Column.rung3 (c : Column) (b : Nat) : Bool := heldFor (nth c.over6 b none) c.windowAt 4000

/-- The ladder begins again at rung 1 (14 R241). -/
def Column.restart (c : Column) : Column :=
  { c with over6 := [none, none, none], over9 := [none, none, none], over2 := [none, none, none], rung := [1, 1, 1],
           mism := [false, false, false] }

/-- The length of a window in ticks, 256 issue cycles (01 R20; 14 R246). -/
def Column.windowLen (c : Column) : Nat := 2560 / (4 + c.step)

/-- What the controller sets at a window boundary: forecasts, burn, and the rungs of the ladder. -/
def Column.evaluate (c : Column) (ps ds : List Nat) (bisque : Bool) (now : Nat) : Column :=
  let cap := if 5 ≤ c.tband then 8 else 16
  let g := (List.range 4).map (fun k => max (nth c.est k 0) (14 * nth ds k 0) + 8 * nth ps k 0)
  let gmax := g.foldl max 0
  let base (b : Nat) : Nat := absNat (mismatch4 g b)
  let fixed := bisque || c.fallback
  let hw := (List.range 4).map (fun k =>
    if fixed then hwBurn gmax (nth g k 0) (nth ps k 0) cap 0
    else if (List.range 3).any (fun b => 128 < base b) then hwBurn gmax (nth g k 0) (nth ps k 0) cap 32
    else 0)
  let c := { c with fc := g, hw := hw }
  if fixed then c.restart
  else
    let res (b : Nat) : Nat := absNat (mismatch4 c.residual b)
    let full (b : Nat) : Bool := (List.range 4).all (fun k =>
      (c.heavySide b).contains k || nth ps k 0 + nth hw k 0 == 16 || nth hw k 0 == cap)
    let o6 := (List.range 3).map (fun b => heldSince (nth c.over6 b none) now (384 < res b))
    let o9 := (List.range 3).map (fun b => heldSince (nth c.over9 b none) now (576 < res b))
    let o2 := (List.range 3).map (fun b => heldSince (nth c.over2 b none) now (128 < res b && full b))
    let four (b : Nat) : Bool := heldFor (nth o9 b none) now 20000 || heldFor (nth o2 b none) now 20000
    let rung := (List.range 3).map (fun b =>
      if four b then 4 else if heldFor (nth o6 b none) now 4000 then 3 else if 128 < base b then 2 else 1)
    { c with over6 := o6, over9 := o9, over2 := o2, rung := rung, mism := (List.range 3).map four }

/-- COLUMN_WINDOW_BOUNDARY. -/
def execColumnWindowBoundary (col : Nat) (s : State) : Out :=
  let c := s.col col
  if s.tsc < c.windowAt + c.windowLen then .next s
  else if !c.on s.tsc then
    .next (s.modCol col (fun c => { c with windowAt := s.tsc, window := c.window + 1, est := [0, 0, 0, 0], hw := [0, 0, 0, 0],
                                           fc := [0, 0, 0, 0], rung := [1, 1, 1], over6 := [none, none, none],
                                           over9 := [none, none, none], over2 := [none, none, none], mism := [false, false, false] }))
  else
    let s := s.charge col (s.tsc - c.windowAt)
    let mine := s.columnKeys col
    let s := mine.foldl (fun s bk => s.modBlock bk (fun b =>
      { b with draw := b.draw.boundary, burn := b.burn.boundary, shunt := b.shunt.boundary })) s
    let est := (List.range 4).map (fun l => Config.estimate (4 * s.fresh + l))
    let s := s.tickFresh
    let ended := c.fallback && c.fallMoved
    let ps := s.burns col
    let ds := (List.range 4).map (fun l => s.drawOf (4 * col + l))
    let bisque := s.colBisque col
    let s := s.modCol col (fun c =>
      let c := if ended then { c.restart with fallback := false, fallMoved := false } else c
      let c := { c with est := est, window := c.window + 1, windowAt := s.tsc, rescaleDue := c.rescaleDue || (c.window + 1) % 64 == 0 }
      c.evaluate ps ds bisque s.tsc)
    let d := s.draws col
    let bias := (List.range 4).map (fun l =>
      let own : Int := 3 * ((nth d l 0 : Nat) : Int)
      let others : Int := (d.sum : Int) - ((nth d l 0 : Nat) : Int)
      if (s.blocksOn (4 * col + l)).any (fun x => x.2.shunt.live != 0) then (0 : Int)
      else if 48 ≤ own - others then 1 else if 48 ≤ others - own then -1 else 0)
    .next ((s.modCol col (fun c => { c with bias := bias })).boostCheck col)

/-- ESTIMATE_RESCALE: the four estimates, with the burners, match the current measured at the feed (14 R236). -/
def execEstimateRescale (col feed : Nat) (s : State) : Out :=
  let c := s.col col
  if !c.rescaleDue then .next s
  else
    let burn := 8 * (s.burns col).sum + 8 * c.hw.sum
    let total := c.est.sum
    .next (s.modCol col (fun c =>
      { c with rescaleDue := false, est := if total = 0 then c.est else c.est.map (fun a => a * (feed - burn) / total) }))

/-- THROTTLE_ENGAGE: the heavy core of a boundary where rung 3 holds is throttled, from the column's step (14 R240). -/
def execThrottleEngage (col bnd : Nat) (s : State) : Out :=
  let c := s.col col
  let k := s.heavyCore col bnd
  let mine := nth c.throttleFor k []
  if !c.on s.tsc || !c.rung3 bnd || c.fallback || s.colBisque col || ((nth c.throttle k none).isSome && mine.contains bnd) then .next s
  else if (nth c.throttle k none).isSome then .next (s.modCol col (fun c => { c with throttleFor := lput c.throttleFor k [] (fun l => bnd :: l) }))
  else .next (s.modCol col (fun c => { c with throttle := lput c.throttle k none (fun _ => some c.step),
                                              throttleFor := lput c.throttleFor k [] (fun _ => [bnd]),
                                              throttleAt := lput c.throttleAt k 0 (fun _ => s.tsc) }))

/-- THROTTLE_STEP_CHANGE: down one step per µs while rung 3 holds at a boundary for which the core is throttled, up one per
4 µs once every residual is within 4.0 A. -/
def execThrottleStepChange (col layer : Nat) (s : State) : Out :=
  let c := s.col col
  match nth c.throttle layer none with
  | none => .next s
  | some t =>
    if !c.on s.tsc then .next s else
    let since := nth c.throttleAt layer 0
    let put (v : Option Nat) : Out :=
      .next (s.modCol col (fun c => { c with throttle := lput c.throttle layer none (fun _ => v),
                                             throttleFor := if v.isNone then lput c.throttleFor layer [] (fun _ => []) else c.throttleFor,
                                             throttleAt := lput c.throttleAt layer 0 (fun _ => s.tsc) }))
    if (nth c.throttleFor layer []).any c.rung3 then
      if since + 1000 ≤ s.tsc && t != 0 then put (some (t - 1)) else .next s
    else if (List.range 3).all (fun b => absNat (mismatch4 c.residual b) ≤ 256) then
      if c.step ≤ t then put none
      else if since + 4000 ≤ s.tsc then (if c.step ≤ t + 1 then put none else put (some (t + 1))) else .next s
    else .next s

/-- STACK_MISMATCH: rung 4 at a boundary (14 R241). -/
def execStackMismatch (col bnd : Nat) (s : State) : Out :=
  let c := s.col col
  if !nth c.mism bnd false then .next s
  else
    let s := s.modCol col (fun c => { c with mism := lput c.mism bnd false (fun _ => false) })
    let heavy := (s.blocksOn (4 * col + s.heavyCore col bnd)).filter (fun x => (tget s.grids x.2.grid).any (fun g => g.rec_.flag 2))
    if heavy.isEmpty then
      .next ((s.modCol col (fun c =>
        { c.restart with fallback := true, fallMoved := false, throttle := [none, none, none, none],
                         throttleFor := [[], [], [], []] })).boostCheck col)
    else .next (heavy.foldl (fun s x => s.notifyBlock x.1 .stackMismatch (BitVec.ofNat 64 bnd)) s)

/-- STEP_CHANGE: at a window boundary, one step toward the lowest ceiling, at most one per µs (14 R248). -/
def execStepChange (col : Nat) (s : State) : Out :=
  let c := s.col col
  let t := c.target (s.colBisque col)
  if c.windowAt != s.tsc || t == c.step || s.tsc < c.stepAt + 1000 then .next s
  else if t < c.step then
    .next (s.modCol col (fun c => { c with step := c.step - 1, stepAt := s.tsc,
                                           boostCeil := if c.boostOn then min c.boostCeil (max c.nominal (c.step - 1)) else c.boostCeil }))
  else .next (s.modCol col (fun c => { c with step := c.step + 1, stepAt := s.tsc }))

/-- BOOST_UPDATE: the bucket gains the shortfall below 27.5 W, or loses the excess at a boost step (14 R250). -/
def execBoostUpdate (col : Nat) (s : State) : Out :=
  let c := s.col col
  if s.tsc < c.boostTick + 1000 then .next s
  else
    let dt := s.tsc - c.boostTick
    let p := s.columnMw col
    let gain := (Config.columnAllowanceMW - p) * dt / 1000000
    let loss := if c.nominal < c.step then (p - Config.columnAllowanceMW) * dt / 1000000 else 0
    let s := (s.modCol col (fun c => { c with boost := min Config.boostCapUJ (c.boost + gain) - loss, boostTick := s.tsc })).boostCheck col
    let c := s.col col
    if !c.boostOn && 16000 ≤ c.boost && s.boostOk col then
      .next (s.modCol col (fun c => { c with boostOn := true, boostCeil := c.nominal, boostAt := s.tsc }))
    else .next s

/-- BOOST_RISE: while boost is granted and the column stands at its boost ceiling, that rises one step every 10 µs. -/
def execBoostRise (col : Nat) (s : State) : Out :=
  let s := s.boostCheck col
  let c := s.col col
  if c.boostOn && c.boostCeil < c.topStep && c.step == c.boostCeil && c.boostAt + 10000 ≤ s.tsc && c.stepAt + 10000 ≤ s.tsc then
    .next (s.modCol col (fun c => { c with boostCeil := c.boostCeil + 1, boostAt := s.tsc }))
  else .next s

/- Heat (14 R249, R253 to R255). -/

/-- Highest valid temperature of a column, in 1/16 °C. -/
def Column.hottest (c : Column) : Option Int :=
  (c.temps.filter (fun t => t.valid)).foldl (fun a t => match a with
    | none => some t.reading
    | some x => some (if x < t.reading then t.reading else x)) none

def bandOf (t : Int) : Nat :=
  if t < 640 then 0 else if t < 880 then 1 else if t < 1120 then 2 else if t < 1360 then 3 else if t < 1520 then 4
  else if t < 1680 then 5 else 6

/-- 125 °C or more on a valid sensor trips the die. -/
def State.thermalTrip (s : State) (col : Nat) : State :=
  if (s.col col).hottest.any (fun t => 2000 ≤ t) then
    let die := col / 16
    (s.logEvent die (Event.mk' s 0xFFFF (0x100 + die) 0x87 0 0 0)).askReset die
  else s

/-- THERMAL_CEILING_TICK. -/
def execThermalCeilingTick (col : Nat) (s : State) : Out :=
  let s := s.thermalTrip col
  let c := s.col col
  match c.thermal with
  | none => .next s
  | some t =>
    if c.tband = 6 then
      if c.thermAt + 10000 ≤ s.tsc && t != 0 then .next (s.modCol col (fun c => { c with thermal := some (t - 1), thermAt := s.tsc }))
      else .next s
    else if c.tband ≤ 4 && c.thermAt + 100000 ≤ s.tsc then
      .next (s.modCol col (fun c => { c with thermal := if c.nominal ≤ t + 1 then none else some (t + 1), thermAt := s.tsc }))
    else .next s

/-- Insert in ascending order. -/
def insertInt (x : Int) (l : List Int) : List Int :=
  match l with
  | [] => [x]
  | y :: l => if x ≤ y then x :: y :: l else y :: insertInt x l

/-- Whether a reading lies more than a bound from the median of its neighbours; of an even number the median is the mean
of the middle two. -/
def disagrees (r : Int) (others : List Int) (bound : Nat) : Bool :=
  let l := others.foldl (fun a x => insertInt x a) []
  let n := l.length
  if n = 0 then false else 2 * bound < absNat (2 * r - (nth l ((n - 1) / 2) 0 + nth l (n / 2) 0))

/-- Columns next to a column, on its die. -/
def nextColumns (col : Nat) : List Nat :=
  (if col % 16 = 0 then [] else [col - 1]) ++ (if col % 16 = 15 then [] else [col + 1])

def validReadings (l : List Sensor) : List Int := (l.filter (fun x => x.valid)).map (fun x => x.reading)

/-- The voltage sensors of a layer. -/
def Column.layerVolts (c : Column) (layer : Nat) : List Sensor := (c.volts.drop (4 * layer)).take 4

/-- The ranges in which a sensor of a voltage and of a temperature must read (14 R254). -/
def voltInRange (r : Int) : Bool := 300 ≤ r && r ≤ 1100
def tempInRange (r : Int) : Bool := -640 ≤ r && r ≤ 2400

/-- Neighbours of voltage sensor i, and of the temperature sensor of a layer; of its own column those whose new readings are in
range. -/
def State.voltNeighbours (s : State) (col : Nat) (c : Column) (i : Nat) : List Int :=
  let own := (((List.range 16).filter (fun j => j / 4 == i / 4 && j != i)).map (fun j => nth c.volts j Sensor.init)).filter (fun x => voltInRange x.reading)
  validReadings own ++ (nextColumns col).flatMap (fun k => let x := s.col k; if x.sampled then validReadings (x.layerVolts (i / 4)) else [])

def State.tempNeighbours (s : State) (col : Nat) (c : Column) (l : Nat) : List Int :=
  let own := (((List.range 4).filter (fun j => j + 1 == l || l + 1 == j)).map (fun j => nth c.temps j Sensor.init)).filter (fun x => tempInRange x.reading)
  validReadings own ++ (nextColumns col).flatMap (fun k =>
    let x := s.col k; if x.sampled then validReadings [nth x.temps l Sensor.init] else [])

/-- Take a new reading, before it is judged. -/
def Sensor.read (x : Sensor) (r : Int) (first : Bool) : Sensor :=
  { x with reading := r, same := if !first && x.reading == r then x.same + 1 else 1 }

/-- Judge a reading. -/
def Sensor.judge (x : Sensor) (good : Bool) : Sensor :=
  if good then { x with good := x.good + 1 } else { x with good := 0, bad := true }

/-- Whether a voltage sensor reads 45 mV low while the other valid ones of its layer stay within 15 mV of what they
should read, at the layer's current with p of program burn (14 R256). -/
def Column.readsLow (c : Column) (col i p : Nat) : Bool :=
  let cur := nth c.est (i / 4) 0 + 8 * nth c.hw (i / 4) 0 + 8 * p
  let want (j : Nat) : Int := Config.expectedMv (16 * col + j) cur
  let s (j : Nat) : Sensor := nth c.volts j Sensor.init
  (s i).valid && (s i).reading + 45 ≤ want i
    && ((List.range 16).filter (fun j => j / 4 == i / 4 && j != i)).all (fun j => !(s j).valid || absNat ((s j).reading - want j) ≤ 15)

/-- A layer whose voltage sensors, or whose temperature sensor, are all invalid (14 R255). -/
def Column.wholly (c : Column) (layer : Nat) : Bool :=
  (c.layerVolts layer).all (fun x => !x.valid) || !(nth c.temps layer Sensor.init).valid

/-- Set the band and what follows from it: the sensor ceiling, the thermal ceiling and the notices (14 R249, R255). -/
def State.judgeBand (s : State) (col : Nat) (before : List Bool) : State :=
  let c := s.col col
  let bad := (List.range 4).map c.wholly
  let band := if bad.any id then 7 else match c.hottest with | some t => bandOf t | none => 7
  let zone (b : Nat) : Nat := if b ≤ 4 then 0 else b
  let begins := band == 6 && c.tband != 6
  let s := s.modCol col (fun c =>
    { c with tband := band, sensorFall := bad.any id,
             thermal := if begins && c.thermal.isNone then some c.step else c.thermal,
             thermAt := if zone band != zone c.tband then s.tsc else c.thermAt })
  let s := (List.range 4).foldl (fun s l =>
    if nth bad l false && !nth before l false then s.notifyColumn col (fun r => r.flag 6) .sensorDegraded l else s) s
  let s := if begins then s.notifyColumn col (fun r => r.feature 11) .thermalLimit 6 else s
  s.boostCheck col

/-- Log the sensors that have become invalid. -/
def State.logInvalid (s : State) (col : Nat) (before after : List Sensor) (layerOf : Nat → Nat) : State :=
  (List.range after.length).foldl (fun s i =>
    if (nth before i Sensor.init).valid && !(nth after i Sensor.init).valid then
      s.logEvent (col / 16) (Event.mk' s 0xFFFF (0x100 + col / 16) 0x82 (layerOf i) col 0)
    else s) s

/-- SENSOR_SAMPLE: 16 voltages in mV and 4 temperatures in 1/16 °C. -/
def execSensorSample (col : Nat) (mv : List Int) (temp : List Int) (s : State) : Out :=
  let c := s.col col
  if c.sampled && s.tsc < c.sampleAt + 200 then .next s
  else
    let before := if c.sampled then (List.range 4).map c.wholly else [false, false, false, false]
    let c1 := { c with
      volts := (List.range 16).map (fun i => (nth c.volts i Sensor.init).read (nth mv i 0) (!c.sampled)),
      temps := (List.range 4).map (fun i => (nth c.temps i Sensor.init).read (nth temp i 0) (!c.sampled)) }
    let volts := (List.range 16).map (fun i =>
      let x := nth c1.volts i Sensor.init
      x.judge (voltInRange x.reading && !disagrees x.reading (s.voltNeighbours col c1 i) 60))
    let temps := (List.range 4).map (fun i =>
      let x := nth c1.temps i Sensor.init
      x.judge (tempInRange x.reading && !disagrees x.reading (s.tempNeighbours col c1 i) 192))
    let c2 := { c1 with volts := volts, temps := temps, sampled := true, sampleAt := s.tsc, sums := (c.est.sum :: c.sums).take 4096 }
    let volts2 := (List.range 16).map (fun i =>
      let x := nth volts i Sensor.init
      { x with low := if c2.readsLow col i (nth (s.burns col) (i / 4) 0) then (if x.low ≤ 250 then x.low + 1 else x.low) else 0 })
    let s1 := s.modCol col (fun _ => { c2 with volts := volts2 })
    let s2 := (s1.logInvalid col c.volts volts (fun i => i / 4)).logInvalid col c.temps temps (fun i => i)
    .next ((s2.judgeBand col before).thermalTrip col)

/-- Sensor n of a column: voltage sensors 0 to 15, temperature sensors 16 to 19. -/
def Column.sensor (c : Column) (n : Nat) : Sensor := if n < 16 then nth c.volts n Sensor.init else nth c.temps (n - 16) Sensor.init

def Column.modSensor (c : Column) (n : Nat) (f : Sensor → Sensor) : Column :=
  if n < 16 then { c with volts := lput c.volts n Sensor.init f } else { c with temps := lput c.temps (n - 16) Sensor.init f }

/-- Change one sensor's standing and judge the column again. -/
def State.rejudge (s : State) (col n : Nat) (f : Sensor → Sensor) : State :=
  let before := (List.range 4).map (s.col col).wholly
  (s.modCol col (fun c => c.modSensor n f)).judgeBand col before

/-- SENSOR_STUCK (14 R254). -/
def execSensorStuck (col sensor : Nat) (s : State) : Out :=
  let c := s.col col
  let x := c.sensor sensor
  let hi := c.sums.foldl max 0
  let lo := c.sums.foldl min hi
  if sensor < 20 && !x.stuck && 4096 ≤ x.same && c.sums.length = 4096 && hi < 4 * (hi - lo) then
    let s1 := s.rejudge col sensor (fun x => { x with stuck := true })
    if x.valid then
      .next (s1.logEvent (col / 16) (Event.mk' s 0xFFFF (0x100 + col / 16) 0x82 (if sensor < 16 then sensor / 4 else sensor - 16) col 0))
    else .next s1
  else .next s

/-- SENSOR_REVALIDATE (14 R254). -/
def execSensorRevalidate (col sensor : Nat) (s : State) : Out :=
  let x := (s.col col).sensor sensor
  if sensor < 20 && x.bad && 65536 ≤ x.good then .next (s.rejudge col sensor (fun x => { x with bad := false }))
  else .next s

/-- OPEN_BUMP_EVENT (14 R256). -/
def execOpenBumpEvent (col sensor : Nat) (s : State) : Out :=
  let c := s.col col
  if sensor < 16 && (c.sensor sensor).low = 251 then
    let s1 := s.modCol col (fun c => { c.modSensor sensor (fun x => { x with low := 252 }) with bumpCap := true })
    let s2 := { s1 with bumps := tput s.bumps col ((tget s.bumps col).getD 0 + 1) }
    .next (s2.logEvent (col / 16) (Event.mk' s 0xFFFF (0x100 + col / 16) 0x83 (sensor / 4) col 0))
  else .next s

/-- REGULATOR_ADJUST: the output moves, by at most 20 mV, toward the point where the lowest valid reading of the die
equals the layer target (14 R253). -/
def execRegulatorAdjust (die : Nat) (s : State) : Out :=
  if s.tsc < (s.die die).railAt + 200 || 4 ≤ die then .next s
  else
    let all := (List.range 16).flatMap (fun i =>
      let c := s.col (16 * die + i)
      if c.sampled then validReadings c.volts else [])
    let low := all.foldl (fun (a : Option Int) x => match a with
      | none => some x
      | some y => some (if x < y then x else y)) none
    let move : Int := match low with
      | none => 0
      | some x => let e := 4 * ((s.layerMv die : Int) - x); if 20 < e then 20 else if e < -20 then -20 else e
    .next (s.modDie die (fun d => { d with rail := ((d.rail : Int) + move).toNat, railAt := s.tsc }))

/- The power cap (14 R251). -/

/-- Whether column c, the higher numbered, comes before column x in the order of 14 R251. -/
def State.capAfter (s : State) (x c : Nat) : Bool :=
  decide ((s.col x).step < (s.col c).step) || ((s.col x).step == (s.col c).step && decide (s.columnMw x < s.columnMw c))

/-- The column whose ceiling is lowered next. -/
def State.capVictim (s : State) : Option Nat :=
  ((List.range 64).filter (fun c => !(s.col c).gated && (s.col c).powerStage == 4 && (s.col c).powerCeil != some 0)).foldl
    (fun (a : Option Nat) c => match a with
      | none => some c
      | some x => if s.capAfter x c then some c else some x) none

/-- The column whose ceiling is raised next: the last of that order among those that have one. -/
def State.capReliever (s : State) : Option Nat :=
  ((List.range 64).filter (fun c => (s.col c).powerCeil.isSome)).foldl
    (fun (a : Option Nat) c => match a with
      | none => some c
      | some x => if s.capAfter x c then some x else some c) none

/-- POWER_CAP_SAMPLE: every 10 µs. -/
def execPowerCapSample (s : State) : Out :=
  if s.tsc < s.capAt + 10000 then .next s
  else
    let mw := ((List.range 64).map s.columnMw).sum + Config.restPower s.fresh
    let s := { s.tickFresh with modPower := mw / 1000, capAt := s.tsc,
                                capTimer := if 100 * mw ≤ 95 * (1000 * s.powerCap) then some (s.capTimer.getD s.tsc) else none }
    if mw ≤ 1000 * s.powerCap then .next s
    else
      match s.capVictim with
      | none => .next s
      | some col =>
        let c := s.col col
        let old := c.powerCeil.getD c.step
        if old = 0 then .next s
        else
          let s1 := s.modCol col (fun c => { c with powerCeil := some (old - 1) })
          let s2 := if old - 1 < c.nominal && c.powerCeil.all (fun p => c.nominal ≤ p) then
              s1.notifyColumn col (fun r => r.feature 11) .powerCap 0
            else s1
          .next (s2.boostCheck col)

/-- A power-cap ceiling one step higher; at the top step it limits nothing and is lifted. -/
def Column.relaxed (c : Column) : Option Nat := c.powerCeil.bind (fun p => if p + 1 < c.topStep then some (p + 1) else none)

/-- POWER_CAP_RELAX: after 100 µs at or below 95% of the cap, one ceiling rises by one step. -/
def execPowerCapRelax (s : State) : Out :=
  match s.capTimer, s.capReliever with
  | some t, some col =>
    if s.tsc < t + 100000 then .next s
    else .next ({ s with capTimer := some s.tsc }.modCol col (fun c => { c with powerCeil := c.relaxed }))
  | _, _ => .next s

/- Gating (14 R252, R256). -/

/-- COLUMN_GATE. -/
def execColumnGate (col : Nat) (s : State) : Out :=
  let c := s.col col
  if col % 16 != 0 && !c.gated && c.powerStage == 4 && (s.columnBlocks col).isEmpty && (c.emptySince + 100000 ≤ s.tsc || s.retired col) then
    .next (s.modCol col (fun c => { c with gated := true, powerStage := 0, est := [0, 0, 0, 0], hw := [0, 0, 0, 0] }))
  else .next s

/-- COLUMN_POWER_STAGE: four stages 250 ns apart, two columns of a die at once, in the order of the requests. -/
def execColumnPowerStage (col : Nat) (s : State) : Out :=
  let c := s.col col
  if c.gated || c.powerStage == 4 then .next s
  else if c.powerStage == 0 then
    let others := ((List.range 16).map (fun i => 16 * (col / 16) + i)).filter (fun k =>
      k != col && !(s.col k).gated && (s.col k).powerStage != 4)
    let busy := others.filter (fun k => (s.col k).powerStage != 0)
    let first := others.all (fun k => (s.col k).powerStage != 0 || c.powerAsk < (s.col k).powerAsk)
    if busy.length < 2 && first then .next (s.modCol col (fun c => { c with powerStage := 1, powerAt := max 1 s.tsc })) else .next s
  else if c.powerAt + 250 * c.powerStage ≤ s.tsc then .next (s.modCol col (fun c => { c with powerStage := c.powerStage + 1 }))
  else .next s

end Sys2Proof.Machine
end

