-- ==== Sys2Proof/Machine/TravelEv.lean ====
section
/-! DEFINITION. Steps of travel mode: a caravan's arrival at its replica, and its promotion to a warp slot (16 R268 to R272,
R274, R277; 17 R280). A step whose condition does not hold changes nothing. -/

namespace Sys2Proof.Machine

/-- The spill ring holds a caravan for the segment. -/
def Grid.ringHolds (g : Grid) (seg : Nat) : Bool := g.ring.any (fun e => e.2.car.any (fun c => c.seg == seg))

/-- CARAVAN_ARRIVAL: into the queue, returning the credit, or into the ring entry of the credit. -/
def execCaravanArrival (key : Nat) (s : State) : Out :=
  match s.caravans.find? (fun c => c.key == key) with
  | none => .next s
  | some c =>
    match tget s.grids c.grid with
    | none => .next { s with caravans := s.caravans.filter (fun x => x.key != key) }
    | some g =>
      let s1 := { s with caravans := s.caravans.filter (fun x => x.key != key) }
      let here := (s.blocks.find? (fun x => x.2.grid == c.grid && x.2.core == c.dst)).map Prod.fst
      let out := here.any (fun bk => (s.blk? bk).any (fun b => b.state == .out || b.state == .restoring))
      let c := { c with note := if g.rec_.flag 5 then some c.dst else none }
      if out then .next (s1.ringOut (here.getD 0) c.grid c.entry c)
      else if (s.core c.dst).arrivals.length < g.rec_.arrcap && !g.ringHolds c.seg then
        let s2 := s1.modCore c.dst (fun x => { x with arrivals := x.arrivals ++ [{ c with note := none }] })
        .next (s2.modGrid c.grid (fun g => { g with ring := tdel g.ring c.entry }))
      else
        let s2 := s1.modGrid c.grid (fun g => { g with ring := tput g.ring c.entry { state := 1, car := some c, since := s.hseq } })
        .next (s2.ringWrite (coreDie c.dst) c.grid c.entry 0 (c.record 1) c.clock)

/-- The oldest spilled caravan of a segment, by stamp and source. -/
def Grid.oldest (g : Grid) (seg : Nat) : Option Caravan :=
  (g.ring.filterMap (fun e => if e.2.state = 1 then e.2.car.filter (fun c => c.seg == seg) else none)).foldl
    (fun (a : Option Caravan) c => match a with
      | none => some c
      | some x => if c.stamp < x.stamp || (c.stamp == x.stamp && c.source < x.source) then some c else some x) none

def Caravan.reg? (c : Caravan) (n : Nat) : Option Reg := (c.regs.find? (fun r => r.1 == n)).map Prod.snd

/-- Whether every register of the caravans is carried alike by all, or may take tag G. -/
def mergeable (ceils : List Tag) (cs : List Caravan) : Bool :=
  (List.range ceils.length).all (fun n =>
    nth ceils n .u == .g || (match cs with
      | [] => true
      | c :: rest => (c.reg? n).isSome && rest.all (fun x => x.reg? n == c.reg? n)))

/-- The caravans of a queue that may share a slot with those already chosen, at most n of them (16 R272). -/
def mergeWith (ceils : List Tag) (chosen queue : List Caravan) (n : Nat) : List Caravan :=
  match queue, n with
  | [], _ => chosen
  | _, 0 => chosen
  | c :: rest, n + 1 =>
    if chosen.all (fun x => x.target == c.target && x.mask &&& c.mask == 0) && mergeable ceils (chosen ++ [c]) then
      mergeWith ceils (chosen ++ [c]) rest n
    else mergeWith ceils chosen rest (n + 1)

/-- A register of the promoted warp: carried as it was, or composed lane by lane. -/
def mergedReg (cs : List Caravan) (n : Nat) : Reg :=
  match cs with
  | [] => .u 0
  | c :: rest =>
    if rest.all (fun x => x.reg? n == c.reg? n) then (c.reg? n).getD (.u 0)
    else .g (allLanes.map (fun l =>
      match cs.find? (fun x => has x.mask l) with
      | some x => ((x.reg? n).map (fun r => r.lane l)).getD 0
      | none => 0))

/-- The warp of a promotion. -/
def promoted (bk slot : Nat) (g : Grid) (cs : List Caravan) (issued : Nat) : Warp :=
  let target := match cs with | c :: _ => c.target | [] => 0
  let of {α : Type} (l : Nat) (d : α) (f : Caravan → α) : α := match cs.find? (fun x => has x.mask l) with | some x => f x | none => d
  let w := Warp.start bk slot false g.ceils.length [] target .zero issued
  let w := { w with
    regs := (List.range g.ceils.length).map (mergedReg cs),
    preds := (List.range 15).map (fun p => cs.foldl (fun m c => m ||| (nth c.preds p 0 &&& c.mask)) 0),
    lanes := allLanes.map (fun l => of l LaneSt.vacant (fun _ => .on 0)),
    cstack := allLanes.map (fun l => of l [] (fun c => nth c.cstack l [])),
    clk := allLanes.map (fun l => of l (Clk.init .zero) (fun c => (nth c.clk l (Clk.init .zero)).acquire c.clock)),
    icinvs := cs.flatMap (fun c => c.icinvs),
    ids := allLanes.map (fun l => of l (0, 0) (fun c => (nth c.tid l 0, nth c.bid l 0))) }
  cs.foldl (fun w c => match c.note with | some k => w.addAsync .arrivalSpill (BitVec.ofNat 64 k) | none => w) w

/-- Whether a write other than the K4's own has touched the ring, its header or any entry, since a record was written (16
R269). -/
def State.ringTouched (s : State) (g : Grid) (since : Nat) : Bool :=
  let pages := (List.range (1 + 4 * g.rec_.spilln)).filterMap (fun p => match s.xlat .hub g.ctx (g.rec_.spilla.toNat + 4096 * p) 0 with
    | .ok pa => some (pa / 4096)
    | _ => none)
  s.writes.any (fun x => !g.ringKeys.contains x.1 && x.2.addrs.any (fun a =>
    pages.contains (a / 4096) && (match tget x.2.placed (a / 128) with | some h => decide (since < h) | none => true)))

/-- A register of free words with a free tag that its ceiling admits. -/
def Tag.freeReg (ceil : Tag) (n : Nat) : Reg :=
  match ceil.code, Config.freeNat n % 3 with
  | 2, 2 => .g (allLanes.map (fun l => Config.freeWord (n + l)))
  | 2, 1 | 1, 1 => .a (Config.freeWord n) (Config.freeWord (n + 1))
  | _, _ => .u (Config.freeWord n)

/-- A caravan of a ring that a program has written: every value its record holds is free, within what a record can hold: at
least one thread, registers that the kernel declares with tags that their ceilings admit, and a clock of writes that exist
(16 R266, R269; log entry 26). -/
def Caravan.blurred (c : Caravan) (ceils : List Tag) (next : List Nat) (n : Nat) : Caravan :=
  let long (k : Nat) : W64 := Config.freeWord (n + k) ++ Config.freeWord (n + k + 1)
  let count (d : Nat) : Nat := Config.freeNat (n + 1800 + d) % (nth next d 0)
  let mask := Config.freeWord (n + 2050)
  { c with
    mask := if mask = 0 then 1 else mask,
    target := long 2048,
    clk := List.replicate 32 (Clk.init ⟨count 0, count 1, count 2, count 3, count 4⟩),
    regs := (List.range (Config.freeNat (n + 2300) % 49)).map (fun i =>
      let r := Config.freeNat (n + 2100 + i) % ceils.length
      (r, (nth ceils r .u).freeReg (n + 32 * i))),
    preds := (List.range 15).map (fun i => Config.freeWord (n + 1536 + i)),
    tid := allLanes.map (fun l => Config.freeWord (n + 1600 + l)),
    bid := allLanes.map (fun l => long (1700 + 2 * l)),
    cstack := allLanes.map (fun l => (List.range (Config.freeNat (n + 2200 + l) % 33)).map (fun d => long (4096 + 64 * l + 2 * d))) }

/-- CARAVAN_PROMOTION: the head of the core's queue, with up to so many others merged; else the oldest of the ring. -/
def execCaravanPromotion (core merged : Nat) (s : State) : Out :=
  match (s.core core).replica.bind (fun r => (tget s.grids r.1).map (fun g => (r.1, r.2, g))) with
  | none => .next s
  | some (gk, seg, g) =>
    match s.replicaBlock gk core, (s.usableFree g core).head? with
    | some bk, some slot =>
      if !(s.blk? bk).any (fun b => b.state == .running) then .next s
      else
        match (s.core core).arrivals with
        | c :: rest =>
          let cs := mergeWith g.ceils [c] rest merged
          let s1 := s.modCore core (fun x => { x with arrivals := x.arrivals.filter (fun a => !cs.any (fun y => y.key == a.key)) })
          .next { s1 with warps := tput s1.warps (warpKey core slot) (promoted bk slot g cs s.issueCount) }
        | [] =>
          match g.oldest seg with
          | none => .next s
          | some c =>
            let since := match tget g.ring c.entry with | some e => e.since | none => 0
            let s1 := s.modGrid gk (fun g => { g with ring := tdel g.ring c.entry })
            let s2 := s1.ringWrite (coreDie core) gk c.entry 0x1E (bytesOf 2 0) c.clock
            let (s3, c) := if s.ringTouched g since then ({ s2 with fresh := s2.fresh + 2 ^ 16 }, c.blurred g.ceils (s.dies.map Die.nextWrite) s2.fresh) else (s2, c)
            .next { s3 with warps := tput s3.warps (warpKey core slot) (promoted bk slot g [c] s.issueCount) }
    | _, _ => .next s

end Sys2Proof.Machine
end

