-- ==== Sys2Proof/Machine/HostEv.lean ====
section
/-! DEFINITION. Steps of the Floid links, of the host port and its ordering point, and of the command queues (20 R298 to
R303; 10 R206). A step whose condition does not hold changes nothing. -/

namespace Sys2Proof.Machine

/- Floid links (20 R302). -/

def Link.emit (l : Link) (kind : Nat) (seq : W8) : Link := { l with wire := l.wire ++ [mkFlit kind 0 seq []] }

/-- Flits up to a sequence number are acknowledged. -/
def Link.acked (l : Link) (seq : W8) : Link :=
  match l.unacked.findIdx? (fun u => u.1 == seq) with
  | none => l
  | some i =>
    let l := { l with unacked := l.unacked.drop (i + 1), replays := 0 }
    l.pump l.tx.length

/-- Replay from a sequence number. -/
def Link.replay (l : Link) (seq : W8) : Link :=
  match l.unacked.findIdx? (fun u => u.1 == seq) with
  | none => l
  | some i => { l with wire := l.wire ++ (l.unacked.drop i).map (fun u => u.2.2), replays := l.replays + 1 }

/-- A packet whose payload bytes are complete on a virtual channel is passed up as its 32-byte fabric flits. -/
def Link.rebuild (l : Link) (vc : Nat) : Link :=
  let bs := (tget l.rx vc).getD []
  let n := max 1 (Config.packetFlits (bs.take 32))
  let need := 28 * ceilDiv (32 * n) 28
  if bs.length < 32 || bs.length < need then l
  else { l with rx := tput l.rx vc (bs.drop need), got := l.got ++ (List.range n).map (fun i => (bs.drop (32 * i)).take 32) }

/-- A flit reaches a receiver: each with a bad CRC is answered by a nak, and the first with an unexpected SEQ, after which those
of other SEQs are dropped until the expected one comes. -/
def Link.receive (l : Link) (f : List Byte) : Link :=
  let nak : Link := { l.emit 2 l.expect with nakked := true }
  if !flitGood f then nak
  else
    match flitKind f with
    | 0 =>
      if flitSeq f != l.expect then (if l.nakked then l else nak)
      else
        let vc := (nth f 0 0).toNat % 16
        (({ l with rx := tput l.rx vc ((tget l.rx vc).getD [] ++ flitPayload f), expect := l.expect + 1, nakked := false }).rebuild vc).emit 1 (flitSeq f)
    | 1 => l.acked (flitSeq f)
    | 2 => l.replay (flitSeq f)
    | _ => l

def execFloidFlitReceive (link : Nat) (flit : List Byte) (s : State) : Out :=
  .next (s.modLink link (fun l => if l.up then l.receive flit else l))

def execFloidNakReceive (link : Nat) (seq : W8) (s : State) : Out :=
  .next (s.modLink link (fun l => if l.up then l.replay seq else l))

/-- The payloads a link still has to carry, with their line addresses. -/
def Link.pending (l : Link) : List (Nat × List Byte) := l.unacked.map (fun u => (u.2.1, flitPayload u.2.2)) ++ l.tx

/-- A link goes down; its traffic moves to the other links to the same peer, each payload by the hash of its line, or stays
until it is trained again. -/
def State.linkDown (s : State) (link : Nat) : State :=
  let l := s.link link
  let s := s.modLink link (fun l => { l with up := false, unacked := [], tx := l.pending, replays := 0, nakked := false })
  if (s.linksTo l.peer).isEmpty then s
  else l.pending.foldl (fun s p => s.route l.peer p.1 [p.2]) (s.modLink link (fun l => { l with tx := [] }))

/-- FLOID_LINK_RETRAIN: more than 16 replays of one flit. -/
def execFloidLinkRetrain (link : Nat) (s : State) : Out :=
  if (s.link link).up && 16 < (s.link link).replays then
    .next ((s.linkDown link).logEvent 4 (Event.mk' s 0xFFFF 0xFFFF 0x89 link 0 0))
  else .next s

/-- The address at which a load in flight reads a peer's memory. -/
def State.peerLoad (s : State) (k : Nat) (w : Warp) (o : Op) (peer : Nat) : Option W64 :=
  match o.kind, (s.blk? w.blk).bind (fun b => tget s.grids b.grid) with
  | .load acc _ _ true, some g =>
    (acc.find? (fun a => isGlobal (pathOf a.va) && (s.paOf (slotAsker (k / 64) (k % 64)) g.ctx a.va needRD).any (fun pa => isPeer pa && peerOf pa == peer))).map
      (fun a => a.va)
  | _, _ => none

/-- The loads and atomics of a peer's memory that are in flight end with MEMORY_ERROR. -/
def State.dropPeer (s : State) (peer : Nat) : State :=
  let s := s.msgs.foldl (fun s m => match m.atom? with
    | some a => if isPeer m.addr && peerOf m.addr == peer && (s.msg? m.key).isSome then s.atomFail a a.lowLane 0 else s
    | none => s) s
  s.warps.foldl (fun s x => x.2.ops.foldl (fun s o => match s.peerLoad x.1 x.2 o peer with
    | some va => if o.over then s else s.faultOp x.1 o.id .memoryError va
    | none => s) s) s

/-- FLOID_LINK_FAIL: with the last link to a peer its traffic is lost, and the accesses in flight fail. -/
def execFloidLinkFail (link : Nat) (s : State) : Out :=
  if (s.link link).up then
    let s1 := (s.linkDown link).modLink link (fun l => { l with tx := [] })
    .next (if (s1.linksTo (s.link link).peer).isEmpty then s1.dropPeer (s.link link).peer else s1)
  else .next s

/-- FLOID_LINK_TRAINED: sequence numbers start anew at both ends. -/
def execFloidLinkTrained (link : Nat) (s : State) : Out :=
  if (s.link link).up || 8 ≤ link then .next s
  else
    .next (s.modLink link (fun l =>
      { l with up := true, peer := Config.linkPeer link % 256, nextSeq := 0, expect := 0, unacked := [], replays := 0,
               nakked := false }.pump l.tx.length))

/- Reading commands (20 R303, R304). -/

def Cmd.word (c : Cmd) (i : Nat) : Nat := (nth c.words i 0).toNat
def Cmd.word64 (c : Cmd) (i : Nat) : Nat := c.word i + 2 ^ 32 * c.word (i + 1)
def Cmd.cid (c : Cmd) : Nat := field (c.word 0) 16 16
def Cmd.opc (c : Cmd) : Nat := field (c.word 0) 0 8
def Cmd.ctx (c : Cmd) : Nat := field (c.word 1) 0 12

/-- A context is being closed: a CTX_CLOSE of it has begun. It is open for nothing else any more. -/
def State.closing (s : State) (cx : Nat) : Bool := s.queues.any (fun x => x.2.begun.any (fun c => c.opc == 0x11 && c.ctx == cx))

/- The window of a function (20 R298). -/

/-- The PCIe link is trained from the bisque stage on (20 R309). -/
def State.linked (s : State) : Bool := s.stage != .off

/-- BAR2 is 1 TiB (20 R297). -/
def inBar2 (off n : Nat) : Bool := off + n ≤ 2 ^ 40

/-- The context most recently opened with WIN set and not closed since. -/
def State.window (s : State) (fn : Nat) : Option (Nat × Ctx) :=
  (s.ctxs.filter (fun c => c.2.fn == fn && c.2.win && !s.closing c.1)).foldl (fun (a : Option (Nat × Ctx)) c => match a with
    | none => some c
    | some x => if x.2.opened < c.2.opened then some c else some x) none

/-- Physical addresses of the bytes of a BAR2 access; none when one fails translation. -/
def State.barBytes (s : State) (fn off n need : Nat) : Option (List Nat) :=
  (s.window fn).bind (fun w => (List.range n).mapM (fun i =>
    match s.xlat .hub w.1 ((w.2.wbase.toNat + off + i) % 2 ^ 57) need with
    | .ok pa => some pa
    | .absent | .protect | .walkErr => none))

/-- A failed inbound access is logged. -/
def State.barFailed (s : State) (fn off : Nat) : State :=
  let w := s.window fn
  s.logEvent 4 (Event.mk' s ((w.map Prod.fst).getD 0xFFFF) 0xFFFF 0x88 0 (((w.map (fun x => x.2.wbase.toNat)).getD 0) + off) 0)

/-- A request of a function waits for its posted writes below a number (20 R300). -/
def State.retiredBelow (s : State) (fn num : Nat) : Bool := !s.inbound.any (fun x => x.fn == fn && x.num < num)

/-- INBOUND_POSTED_WRITE: stamped, numbered as a write of die 4, a release at scope .s, and cut into one piece a line; beyond 1,024 unretired writes it is
not taken (20 R299). -/
def execInboundPostedWrite (fn off : Nat) (bytes : List Byte) (s : State) : Out :=
  if !s.linked || !inBar2 off bytes.length || Config.inboundCap ≤ s.inbound.length || bytes.isEmpty then .next s
  else
    match s.barBytes fn off bytes.length needW with
    | none => .next (s.barFailed fn off)
    | some pas =>
      let vec := VC.zero.raise 4 ((s.die 4).nextWrite - 1)
      let bs := lastBytes (pas.zip bytes)
      let r := s.sendWrite 4 vec { heads := [Scope.rank .s], sys := true, stamp := some s.tsc } bs (wholeWords 32 bs)
      .next { r.1 with inbound := r.1.inbound ++ [{ fn := fn, num := r.2, left := linesOf bs, stamp := s.tsc }] }

/-- PIECE_ACKNOWLEDGE: a home that has applied its piece tells the hub; the write retires with its last piece. -/
def execPieceAcknowledge (num line : Nat) (s : State) : Out :=
  if s.owes 4 num line (homeOf (line * 128)) then .next s
  else
    let ack (x : Inbound) : Inbound := if x.num == num then { x with left := x.left.filter (fun l => l != line) } else x
    .next { s with inbound := (s.inbound.map ack).filter (fun x => !x.left.isEmpty) }

/-- The completion of a read: bytes, a poisoned completion, or Completer Abort; bytes of a peer are free values, poisoned
while no link to it is up. -/
def State.answerRead (s : State) (r : HRead) : State × HRead :=
  match s.barBytes r.fn r.off r.n needRD with
  | none => (s.barFailed r.fn r.off, { r with answer := some (none, false) })
  | some pas =>
    let byte (a : Nat) : Byte := if isPeer a then BitVec.ofNat 8 (Config.freeNat (s.fresh + a)) else (s.storeByte 4 a).1
    (s.tickFresh, { r with answer := some (some (pas.map byte), pas.any (fun a => s.poisonedAt 4 a || s.peerDown a)) })

/-- INBOUND_READ: answered once every earlier posted write of the function has retired. -/
def execInboundRead (fn off n : Nat) (s : State) : Out :=
  let r : HRead := { fn := fn, off := off, n := n, after := (s.die 4).nextWrite, answer := none }
  if !s.linked || !inBar2 off n then .next s
  else if s.retiredBelow fn r.after then
    let a := s.answerRead r
    .next { a.1 with hreads := a.1.hreads ++ [a.2] }
  else .next { s with hreads := s.hreads ++ [r] }

/- Command queues (20 R303). -/

def QPair.init : QPair :=
  { sqbase := 0, sqsize := 0, sqtail := 0, sqhead := 0, cqbase := 0, cqsize := 0, cqhead := 0, cqtail := 0, phase := true, bells := [],
    cmds := [], begun := [], done := [] }

/-- Functions that exist: the physical one and the enabled virtual ones (20 R297). -/
def State.hasFn (s : State) (fn : Nat) : Bool := fn ≤ s.vfs

def State.queue (s : State) (fn q : Nat) : QPair := (tget s.queues (qkey fn q)).getD QPair.init
def State.modQueue (s : State) (fn q : Nat) (f : QPair → QPair) : State :=
  if s.hasFn fn && q < 16 then { s with queues := tput s.queues (qkey fn q) (f (s.queue fn q)) } else s

/-- Read the entries that a new tail announces. -/
def State.readCommands (s : State) (p : QPair) (v : W32) : QPair :=
  let size := p.sqsize.toNat
  let n := if size = 0 then 0 else (v.toNat % size + size - p.sqhead % size) % size
  let cmd (i : Nat) : Cmd :=
    let bs := s.hostRead (p.sqbase.toNat + 64 * ((p.sqhead + i) % size)) 64
    { words := (List.range 16).map (fun j => BitVec.ofNat 32 (ofBytes ((bs.drop (4 * j)).take 4))) }
  { p with sqtail := v, sqhead := if size = 0 then 0 else v.toNat % size, cmds := p.cmds ++ (List.range n).map cmd }

/-- Commands and their operations (20 R304). -/
def Cmd.known (c : Cmd) : Bool :=
  match c.opc with
  | 0x01 => c.word 2 < 3
  | 0x03 => c.word 2 < 6
  | 0x14 => c.word 6 < 2
  | 0x31 => c.word 2 < 5
  | 0x02 | 0x10 | 0x11 | 0x12 | 0x13 | 0x20 | 0x21 | 0x22 | 0x30 => true
  | _ => false

def QPair.pop (p : QPair) : QPair := { p with cmds := p.cmds.drop 1 }

/-- Unknown commands at the head of a queue complete with BAD_COMMAND. -/
def State.dropUnknown (s : State) (fn q : Nat) (l : List Cmd) : State :=
  match l with
  | [] => s
  | c :: rest => if c.known then s else ((s.modQueue fn q QPair.pop).reply fn q c.cid 2 none).dropUnknown fn q rest

/-- A doorbell takes effect. -/
def State.ring (s : State) (fn q : Nat) (sq : Bool) (v : W32) : State :=
  let s := s.modQueue fn q (fun p => if sq then s.readCommands p v else { p with cqhead := v })
  s.dropUnknown fn q (s.queue fn q).cmds

/-- A doorbell waits for the earlier posted writes of its function, and for earlier doorbells of its queue. -/
def State.bell (s : State) (fn q : Nat) (sq : Bool) (v : W32) : State :=
  let after := (s.die 4).nextWrite
  if !s.linked then s
  else if (s.queue fn q).bells.isEmpty && s.retiredBelow fn after then s.ring fn q sq v
  else s.modQueue fn q (fun p => { p with bells := p.bells ++ [(sq, v, after)] })

def execSqtail (fn q : Nat) (v : W32) (s : State) : Out := .next (s.bell fn q true v)
def execCqhead (fn q : Nat) (v : W32) (s : State) : Out := .next (s.bell fn q false v)

/-- Doorbells of a queue whose wait has ended, oldest first. -/
def State.releaseBells (s : State) (fn q : Nat) (l : List (Bool × W32 × Nat)) : State :=
  match l with
  | [] => s
  | (sq, v, after) :: rest =>
    if s.retiredBelow fn after then ((s.modQueue fn q (fun p => { p with bells := rest })).ring fn q sq v).releaseBells fn q rest
    else s

/-- NONPOSTED_RELEASE: reads and doorbells of a function whose earlier posted writes have retired. -/
def execNonpostedRelease (fn : Nat) (s : State) : Out :=
  let s1 := (List.range 16).foldl (fun s q => s.releaseBells fn q (s.queue fn q).bells) s
  let r := s1.hreads.foldl (fun (a : State × List HRead) r =>
    if r.fn == fn && r.answer.isNone && a.1.retiredBelow fn r.after then
      let x := a.1.answerRead r
      (x.1, a.2 ++ [x.2])
    else (a.1, a.2 ++ [r])) (s1, [])
  .next { r.1 with hreads := r.2 }

/-- QUEUE_REGISTER_WRITE: a register of a queue pair without behaviour of its own; reserved bytes take nothing (00 R7). -/
def execQueueRegisterWrite (fn off : Nat) (v : W64) (s : State) : Out :=
  if !s.linked || off < 0x1000 || 0x1400 ≤ off then .next s
  else
    .next (s.modQueue fn ((off - 0x1000) / 64) (fun p =>
      match off % 64 with
      | 0x00 => { p with sqbase := v }
      | 0x08 => { p with sqsize := v.setWidth 32 }
      | 0x10 => { p with cqbase := v }
      | 0x18 => { p with cqsize := v.setWidth 32 }
      | _ => p))

/-- The completion queue is full when the next write would reach the entry at CQHEAD. -/
def QPair.full (p : QPair) : Bool :=
  p.cqsize == 0 || (p.cqtail + 1) % p.cqsize.toNat == p.cqhead.toNat % p.cqsize.toNat

/-- COMPLETION_POST: the oldest held completion is written, and MSI-X vector q + 1 follows. -/
def execCompletionPost (fn q : Nat) (s : State) : Out :=
  let p := s.queue fn q
  match p.done with
  | [] => .next s
  | c :: rest =>
    if p.full then .next s
    else
      let bs := bytesOf 4 (c.cid * 2 ^ 16 + c.status * 2 + (if p.phase then 1 else 0)) ++ bytesOf 4 c.r1.toNat ++ bytesOf 4 c.r2.toNat
        ++ bytesOf 4 c.r3.toNat
      let s1 := s.hostWrite (p.cqbase.toNat + 16 * p.cqtail) bs
      let t := (p.cqtail + 1) % p.cqsize.toNat
      let s2 := s1.modQueue fn q (fun p => { p with done := rest, cqtail := t, phase := if t = 0 then !p.phase else p.phase })
      .next { s2 with msix := s2.msix ++ [(fn, q + 1)] }

end Sys2Proof.Machine
end

