-- ==== Sys2Proof/Machine/Sha.lean ====
section
/-! DEFINITION. SHA-384, by which the measurement registers are extended and reports are signed (20 R311, R312). The manual
names the function; its definition is the published standard's (log entry 13). -/

namespace Sys2Proof.Machine

/-- Whether no number from 2 to the square root divides n. -/
def isPrime (n : Nat) : Bool := 2 ≤ n && (List.range 21).all (fun d => d < 2 || n ≤ d || n % d != 0)

/-- The first 80 primes; the eightieth is 409. -/
def eightyPrimes : List Nat := (List.range 410).filter isPrime

/-- The largest number whose power k is at most n, found bit by bit from x on. -/
def rootBelow (k n bits x : Nat) : Nat :=
  match bits with
  | 0 => x
  | bits + 1 => rootBelow k n bits (if (x + 2 ^ bits) ^ k ≤ n then x + 2 ^ bits else x)

/-- The first 64 bits of the fraction of the root k of p. -/
def rootFraction (k p : Nat) : W64 := BitVec.ofNat 64 (rootBelow k (p * 2 ^ (64 * k)) 70 0)

/-- The constants of the 80 rounds: cube roots of the first 80 primes. -/
def shaRounds : List W64 := eightyPrimes.map (rootFraction 3)

/-- The eight words of a hash in progress. -/
structure Sha where
  a : W64
  b : W64
  c : W64
  d : W64
  e : W64
  f : W64
  g : W64
  h : W64
deriving DecidableEq, Repr

/-- The start: square roots of the ninth to the sixteenth prime. -/
def shaStart : Sha :=
  let r (p : Nat) : W64 := rootFraction 2 p
  ⟨r 23, r 29, r 31, r 37, r 41, r 43, r 47, r 53⟩

/-- The message with the bit 1, zeros, and its length in bits as 16 bytes, highest first: a multiple of 128 bytes. -/
def shaPad (m : List Byte) : List Byte :=
  m ++ [0x80] ++ List.replicate ((239 - m.length % 128) % 128) 0 ++ (bytesOf 16 (8 * m.length)).reverse

/-- The word i of a block, highest byte first. -/
def shaWord (blk : List Byte) (i : Nat) : W64 := BitVec.ofNat 64 (ofBytes (((blk.drop (8 * i)).take 8).reverse))

/-- The parity of several rotations of a word. -/
def rotations (x : W64) (rs : List Nat) : W64 := rs.foldl (fun acc r => acc ^^^ x.rotateRight r) 0

/-- The words of the rounds so far, the latest first, with one more. -/
def shaExtend (w : List W64) : List W64 :=
  let back (n : Nat) : W64 := nth w (n - 1) 0
  let near := rotations (back 2) [19, 61] ^^^ (back 2 >>> 6)
  let far := rotations (back 15) [1, 8] ^^^ (back 15 >>> 7)
  (back 16 + far + back 7 + near) :: w

def shaWords (blk : List Byte) : List W64 :=
  ((List.range 64).foldl (fun w _ => shaExtend w) ((List.range 16).map (shaWord blk)).reverse).reverse

def shaRound (s : Sha) (kw : W64 × W64) : Sha :=
  let chosen := s.g ^^^ (s.e &&& (s.f ^^^ s.g))
  let most := (s.a &&& s.b) ||| (s.c &&& (s.a ||| s.b))
  let add := kw.1 + kw.2 + s.h + rotations s.e [14, 18, 41] + chosen
  { a := add + rotations s.a [28, 34, 39] + most, b := s.a, c := s.b, d := s.c, e := s.d + add, f := s.e, g := s.f, h := s.g }

def shaBlock (s : Sha) (blk : List Byte) : Sha :=
  let r := (shaRounds.zip (shaWords blk)).foldl shaRound s
  ⟨s.a + r.a, s.b + r.b, s.c + r.c, s.d + r.d, s.e + r.e, s.f + r.f, s.g + r.g, s.h + r.h⟩

/-- The 48 bytes of the SHA-384 digest (20 R311). -/
def digest (m : List Byte) : List Byte :=
  let p := shaPad m
  let s := (List.range (p.length / 128)).foldl (fun s i => shaBlock s ((p.drop (128 * i)).take 128)) shaStart
  [s.a, s.b, s.c, s.d, s.e, s.f].flatMap (fun w => (bytesOf 8 w.toNat).reverse)

end Sys2Proof.Machine
end

