-- ==== Sys2Proof/Machine/LaunchEv.lean ====
section
/-! DEFINITION. The launch record, the checks of a launch, and its acceptance (01 R12, R13, R32 to R36; 04 R78, R89; 16 R261
to R263; 18 R282, R284; 20 R304, R307, R309, R311). -/

namespace Sys2Proof.Machine

/-- A list of n bytes. -/
def fitBytes (n : Nat) (l : List Byte) : List Byte := (l ++ List.replicate n 0).take n

/-- Little-endian bytes of a record. -/
def recField (bs : List Byte) (off n : Nat) : Nat := ofBytes ((bs.drop off).take n)

/- The launch record (01 R33). -/

def launchOf (r : List Byte) : Launch :=
  let f := recField r
  { entry := BitVec.ofNat 64 (f 0x00 8), features := BitVec.ofNat 128 (f 0x08 16), bwarps := field (f 0x18 4) 0 6,
    csize := field (f 0x1C 4) 0 3, gblocks := f 0x20 8, poolw := BitVec.ofNat 32 (f 0x28 4), flags := BitVec.ofNat 32 (f 0x2C 4),
    ceilt := BitVec.ofNat 64 (f 0x30 8), slots := (List.range 8).map (fun i => BitVec.ofNat 32 (f (0x38 + 4 * i) 4)),
    boards := (List.range 16).map (fun i => BitVec.ofNat 32 (f (0x58 + 4 * i) 4)), saveb := BitVec.ofNat 64 (f 0x98 8),
    handler := BitVec.ofNat 64 (f 0xA0 8), pclass := f 0xA8 1, spawna := f 0xA9 1, arrcap := f 0xAA 1, prio := f 0xAB 1,
    bmaskt := BitVec.ofNat 64 (f 0xB0 8), spilla := BitVec.ofNat 64 (f 0xB8 8), spilln := f 0xC0 4,
    segmap := BitVec.ofNat 64 (f 0xC8 8), args := (List.range 8).map (fun i => BitVec.ofNat 32 (f (0xD0 + 4 * i) 4)) }

/-- A reserved byte or bit of the record is nonzero. Bits 31:6 of BWARPS and 31:3 of CSIZE, which R33 does not call reserved,
are taken as such: the model's choice (log entry 58). -/
def recordReserved (r : List Byte) : Bool :=
  let f := recField r
  f 0xAC 4 != 0 || f 0xC4 4 != 0 || f 0xF0 16 != 0 || f 0x18 4 / 64 != 0 || f 0x1C 4 / 8 != 0 || f 0x2C 4 / 256 != 0
    || (List.range 16).any (fun i => field (f (0x58 + 4 * i) 4) 6 24 != 0)

def misaligned (a : W64) (n : Nat) : Bool := a.toNat % n != 0

/-- What a table read gives: its content, a breach of its form, or that it could not be read. -/
inductive Tab (α : Type) where
  | ok (v : α)
  | broken
  | unread
deriving DecidableEq, Repr

def Tab.unreadable {α : Type} (t : Tab α) : Bool :=
  match t with
  | .unread => true
  | .ok _ | .broken => false

def Tab.bad {α : Type} (t : Tab α) : Bool :=
  match t with
  | .ok _ => false
  | .broken | .unread => true

def Tab.get {α : Type} (t : Tab α) (d : α) : α :=
  match t with
  | .ok v => v
  | .broken | .unread => d

def tagOfCode (n : Nat) : Option Tag :=
  match n with
  | 0 => some .u
  | 1 => some .a
  | 2 => some .g
  | _ => none

/-- The ceiling table (04 R78). -/
def State.ceilTable (s : State) (cx : Nat) (a : W64) : Tab (List Tag) :=
  if misaligned a 8 then .broken
  else
    match s.peekVa 4 cx (vbits a) 4 with
    | none => .unread
    | some h =>
      let w := ofBytes h
      let n := field w 0 10
      if w / 1024 != 0 || n = 0 || 512 < n then .broken
      else
        match s.peekVa 4 cx (vbits a + 4) (4 * ceilDiv n 16) with
        | none => .unread
        | some bs =>
          let code (k : Nat) : Nat := field (recField bs (4 * (k / 16)) 4) (2 * (k % 16)) 2
          if (List.range (16 * ceilDiv n 16)).any (fun k => n ≤ k && code k != 0) then .broken
          else
            match (List.range n).mapM (fun k => tagOfCode (code k)) with
            | some l => .ok l
            | none => .broken

/-- The barrier-mask table; no table selects every warp (01 R31, R33). -/
def State.maskTable (s : State) (cx : Nat) (a : W64) : Tab (List W32) :=
  if a = 0 then .ok []
  else if misaligned a 4 then .broken
  else
    match s.peekVa 4 cx (vbits a) 256 with
    | none => .unread
    | some bs => .ok ((List.range 64).map (fun i => BitVec.ofNat 32 (recField bs (4 * i) 4)))

/- The segment map (16 R263). -/

def segmentOf (e : List Byte) (at_ : W64) : Segment :=
  let f := recField e
  { base := BitVec.ofNat 64 (f 0 8), len := f 8 4, reps := (List.range (f 0xC 1)).map (fun i => f (0x10 + 2 * i) 2), entries := [],
    nexit := f 0x2C 4, exitt := BitVec.ofNat 64 (f 0x30 8), at_ := at_ }

def segmentBroken (e : List Byte) : Bool :=
  let f := recField e
  f 0 8 % 32 != 0 || f 8 4 % 32 != 0 || f 8 4 < 32 || 131072 < f 8 4 || f 0xC 1 = 0 || 8 < f 0xC 1 || f 0xD 3 != 0
    || f 0x28 4 = 0 || 65535 < f 0x28 4 || 65535 < f 0x2C 4 || f 0x30 8 % 8 != 0 || f 0x38 8 != 0

/-- One segment entry with its entry points. -/
def State.readSegment (s : State) (cx : Nat) (a : W64) : Tab Segment :=
  match s.peekVa 4 cx (vbits a) 64 with
  | none => .unread
  | some e =>
    if segmentBroken e then .broken
    else
      let x := segmentOf e a
      match s.peekVa 4 cx (recField e 0x20 8 % 2 ^ 57) (4 * recField e 0x28 4) with
      | none => .unread
      | some t =>
        let offs := (List.range (recField e 0x28 4)).map (fun i => recField t (4 * i) 4)
        if offs.any (fun o => o % 4 != 0 || x.len ≤ o || o % 32 == 28) then .broken else .ok { x with entries := offs }

def State.readSegments (s : State) (cx : Nat) (a : W64) (n : Nat) : Tab (List Segment) :=
  match n with
  | 0 => .ok []
  | n + 1 =>
    match s.readSegment cx a, s.readSegments cx (a + 64) n with
    | .ok x, .ok l => .ok (x :: l)
    | .unread, _ => .unread
    | _, .unread => .unread
    | _, _ => .broken

def Segment.meets (x y : Segment) : Bool := x.base.toNat < y.base.toNat + y.len && y.base.toNat < x.base.toNat + x.len

def pairwiseApart (l : List Segment) : Bool :=
  match l with
  | [] => true
  | x :: l => l.all (fun y => !x.meets y) && pairwiseApart l

def noRepeats (l : List Nat) : Bool :=
  match l with
  | [] => true
  | x :: l => !l.contains x && noRepeats l

def namedCores (segs : List Segment) : List Nat := (segs.flatMap (fun x => x.reps)).filter (fun c => c != 0xFFFF)

/-- The segment map of a travel launch. -/
def State.segTable (s : State) (cx : Nat) (r : Launch) : Tab (List Segment) :=
  if r.segmap = 0 || misaligned r.segmap 64 then .broken
  else
    match s.peekVa 4 cx (vbits r.segmap) 64 with
    | none => .unread
    | some h =>
      let n := recField h 0 2
      if n = 0 || 1024 < n || recField h 2 62 != 0 then .broken
      else
        match s.readSegments cx (r.segmap + 64) n with
        | .unread => .unread
        | .broken => .broken
        | .ok segs =>
          let named := namedCores segs
          if pairwiseApart segs && segs.any (fun x => x.holds r.entry) && noRepeats named
            && named.all (fun c => c < Config.numCores && c % 64 != 0) then .ok segs else .broken

/-- What reading a launch record and its tables reads (20 R297). -/
def State.recordReads (s : State) (cx va : Nat) (r : Launch) (ceils : Tab (List Tag)) (segs : Tab (List Segment)) : State :=
  let s := (s.readsOut 4 cx va 256).readsOut 4 cx (vbits r.ceilt) (4 + 4 * ceilDiv (ceils.get []).length 16)
  let s := if r.bmaskt = 0 then s else s.readsOut 4 cx (vbits r.bmaskt) 256
  if !r.travel then s
  else
    (segs.get []).foldl (fun s x =>
      match s.peekVa 4 cx (vbits x.at_) 64 with
      | some e => s.readsOut 4 cx (recField e 0x20 8 % 2 ^ 57) (4 * x.entries.length)
      | none => s) (s.readsOut 4 cx (vbits r.segmap) (64 + 64 * (segs.get []).length))

/-- The replicas can be given on a device that holds nothing else (16 R262). -/
def State.replicasFit (s : State) (segs : List Segment) : Bool :=
  let named := namedCores segs
  let wanted := ((segs.flatMap (fun x => x.reps)).filter (fun c => c == 0xFFFF)).length
  let free := (List.range Config.numCores).filter (fun c => !s.retired (coreColumn c) && c % 64 != 0 && !named.contains c)
  named.all (fun c => !s.retired (coreColumn c)) && wanted ≤ free.length

/- The checks (01 R12, R13, R32, R35; 16 R261). -/

/-- Blocks one core of an empty device can hold. -/
def coreCapacity (r : Launch) (core : Nat) : Nat :=
  let slots := if core % 64 = 0 then 63 else 64
  let b := bankSum r.poolw
  let n := slots / max 1 r.bwarps
  if b = 0 then n else min n (Config.coreBanks / b)

/-- Clusters that the columns of an empty device can hold. -/
def State.gridCapacity (s : State) (r : Launch) : Nat :=
  ((List.range 64).map (fun col =>
    if s.retired col then 0
    else ((clusterSites col r.csize).map (fun cs =>
      cs.foldl (fun m c => min m (coreCapacity r c)) 64)).sum)).sum

def poolBroken (r : Launch) (ceils : Tab (List Tag)) : Bool :=
  let w := r.poolw
  192 < bankSum w || poolRf w % 4 != 0 || poolScr w < poolShd w || poolAcc w % 8 != 0 || 64 < poolAcc w
    || (match ceils with
      | .ok c => poolRf w * 8192 < (r.bwarps + r.spawna) * warpBytes c
      | .broken | .unread => false)
    || (r.travel && (poolAcc w != 0 || poolShd w != 0 || 192 < poolRf w + poolScr w + 2 * r.arrcap
      || (match ceils with
        | .ok c => usableSlots c w < r.bwarps
        | .broken | .unread => false)))

def powerOfTwo (n : Nat) : Bool := n != 0 && n &&& (n - 1) == 0

def sizeBroken (r : Launch) : Bool :=
  r.bwarps = 0 || 32 < r.bwarps || !(r.csize == 1 || r.csize == 2 || r.csize == 4) || r.gblocks = 0 || 2 ^ 32 < r.gblocks
    || r.gblocks % max 1 r.csize != 0 || 31 < r.spawna || 32 < r.bwarps + r.spawna || 7 < r.pclass || 7 < r.prio
    || (r.travel && (r.arrcap = 0 || 16 < r.arrcap || r.spilln < 16 || 65536 < r.spilln || !powerOfTwo r.spilln))

def formatBroken (rec_ : List Byte) (r : Launch) (ceils : Tab (List Tag)) : Bool :=
  recordReserved rec_ || misaligned r.entry 32 || misaligned r.saveb 4096 || misaligned r.handler 32 || misaligned r.bmaskt 4 || ceils.bad
    || (r.travel && (misaligned r.spilla 4096 || misaligned r.segmap 64))

def State.modeBroken (s : State) (r : Launch) (segs : Tab (List Segment)) : Bool :=
  r.travel && (r.coop || r.segmap = 0 || r.csize != 1 || !r.feature 12 || segs.bad
    || (match segs with
      | .ok l => (r.handler != 0 && l.any (fun x => x.holds r.handler)) || !s.replicasFit l
      | .broken | .unread => false))

/-- Every byte of the spill ring is mapped with RD and W. -/
def State.ringMapped (s : State) (cx : Nat) (r : Launch) : Bool :=
  (List.range (1 + 4 * r.spilln)).all (fun i =>
    match s.xlat .hub cx ((vbits r.spilla + 4096 * i) % 2 ^ 57) (needRD ||| needW) with
    | .ok _ => true
    | .absent | .protect | .walkErr => false)

def State.bindingBroken (s : State) (cx : Nat) (c : Ctx) (r : Launch) : Bool :=
  r.slots.any (fun w => !slotValid w)
    || r.boards.any (fun w => w.getLsbD 31 && (match tget s.boards (cx * 64 + field w.toNat 0 6) with
      | none => true
      | some b => w.getLsbD 30 && !b.strict))
    || (r.saveb != 0 && !(c.saveBase.toNat ≤ r.saveb.toNat && r.saveb.toNat < c.saveBase.toNat + c.saveLen))
    || (r.travel && !s.ringMapped cx r)

/-- The status of the first check that fails; 0 when none does. -/
def State.launchStatus (s : State) (cx : Nat) (c : Ctx) (rec_ : List Byte) (r : Launch) (ceils : Tab (List Tag)) (masks : Tab (List W32))
    (segs : Tab (List Segment)) : Nat :=
  if ceils.unreadable || masks.unreadable || (r.travel && segs.unreadable) then 1
  else if r.features &&& ~~~ capsGlaze != 0 then 16
  else if poolBroken r ceils then 17
  else if sizeBroken r then 18
  else if formatBroken rec_ r ceils then 19
  else if s.modeBroken r segs then 20
  else if r.coop && s.gridCapacity r < r.gblocks / max 1 r.csize then 21
  else if s.bindingBroken cx c r then 22
  else 0

/- Acceptance (20 R304, R309). -/

/-- Accept a launch: it takes its place in the order of acceptance, and begins unless it is held in the bisque stage. -/
def State.acceptGrid (s : State) (gk : Nat) : State :=
  match tget s.grids gk with
  | none => s
  | some g =>
    let hold := s.stage != .glaze && (s.trained || g.rec_.needsGlaze)
    let n := s.launchCount + 1
    let s := { s with launchCount := n }
    let s := s.modGrid gk (fun g => { g with accepted := true, held := hold, order := n })
    if hold then s else s.beginGrid gk

/-- Every grid that the launch names has completed. -/
def State.mayAccept (s : State) (g : Grid) : Bool :=
  g.after.all (fun k => match tget s.grids k with | some x => x.state == .done | none => true)

/-- LAUNCH_ACCEPT. -/
def execLaunchAccept (grid : Nat) (s : State) : Out :=
  match tget s.grids grid with
  | none => .next s
  | some g => if !g.accepted && g.state != .done && s.mayAccept g then .next (s.acceptGrid grid) else .next s

/-- Held launches begin, in the order in which they were accepted. -/
def State.beginHeld (s : State) : State :=
  let held := s.grids.filter (fun x => x.2.held && x.2.accepted && x.2.state != .done)
  let rec insert (x : Nat × Grid) (l : List (Nat × Grid)) : List (Nat × Grid) :=
    match l with
    | [] => [x]
    | y :: l => if x.2.order < y.2.order then x :: y :: l else y :: insert x l
  ((held.foldl (fun l x => insert x l) []).map Prod.fst).foldl State.beginGrid s

/-- A stuck sensor is freed; one that is out of range or disagrees stays invalid. -/
def Sensor.calibrated (x : Sensor) : Sensor := if x.stuck then { x with stuck := false, same := 0 } else x

def Column.calibrated (c : Column) : Column :=
  { c with bumpCap := false, volts := c.volts.map Sensor.calibrated, temps := c.temps.map Sensor.calibrated }

/-- The columns of a die are calibrated (14 R254, R256). -/
def State.calibrate (s : State) (die : Nat) : State :=
  (List.range 16).foldl (fun s i => s.modCol (16 * die + i) Column.calibrated) s

/-- A die is calibrated again after a core reset, and held launches may begin (20 R309). -/
def State.recalibrate (s : State) (die : Nat) : State :=
  let s := (s.calibrate die).modDie die (fun d => { d with bisque := false })
  if s.stage == .glaze then s.beginHeld else s

/-- DIE_RECALIBRATE: once the reset die holds no block. -/
def execDieRecalibrate (die : Nat) (s : State) : Out :=
  if (s.die die).bisque && !s.blocks.any (fun x => x.2.resident && coreDie x.2.core == die) then .next (s.recalibrate die) else .next s

end Sys2Proof.Machine
end

