-- ==== Sys2Proof/Machine/CmdEv.lean ====
section
/-! DEFINITION. The command processor: how a command is taken from its queue and completed, and the commands QUERY, ATTEST
and HEALTH (20 R303 to R306, R310 to R314). A command is executed when it heads its queue
pair, or once it has begun; else nothing changes. -/

namespace Sys2Proof.Machine

/- Taking and completing a command. -/

/-- The bits of words 0 and 1 that hold no field. That bits 31:12 of word 1 are reserved as those of word 0 are is the model's
choice (20 R303; log entry 61). -/
def Cmd.badHeader (c : Cmd) : Bool := field (c.word 0) 8 8 != 0 || c.word 1 / 4096 != 0

/-- Take a command: the one that heads its queue, or else one that has begun and waits. -/
def State.takeCmd (s : State) (fn q : Nat) (want : Cmd → Bool) : Option (Cmd × State) :=
  let p := s.queue fn q
  if s.stage == .off || !s.hasFn fn then none
  else
    match p.cmds.head?.filter want with
    | some c => some (c, s.modQueue fn q QPair.pop)
    | none => (p.begun.find? want).map (fun c => (c, s.modQueue fn q (fun p => { p with begun := p.begun.erase c })))

/-- A command that cannot end yet has begun all the same, and the next one heads the queue. -/
def State.keepCmd (s : State) (fn q : Nat) (c : Cmd) : State := s.modQueue fn q (fun p => { p with begun := p.begun ++ [c] })

/-- Run a command without a context. -/
def State.command (s : State) (fn q : Nat) (want : Cmd → Bool) (reserved : Cmd → Bool) (run : State → Cmd → State) : Out :=
  match s.takeCmd fn q want with
  | none => .next s
  | some (c, s1) =>
    let s2 := if c.badHeader || reserved c then s1.reply fn q c.cid 2 none else run s1 c
    .next (s2.dropUnknown fn q (s2.queue fn q).cmds)

/-- Run a command of a context, which must be open for the function. -/
def State.ctxCommand (s : State) (fn q : Nat) (want : Cmd → Bool) (reserved : Cmd → Bool) (run : State → Cmd → Ctx → State) : Out :=
  s.command fn q want reserved (fun s c =>
    match (tget s.ctxs c.ctx).filter (fun x => x.fn == fn && !s.closing c.ctx) with
    | none => s.reply fn q c.cid 3 none
    | some x => run s c x)

def isOp (opc : Nat) (c : Cmd) : Bool := c.opc == opc
/-- A command whose operation stands in word 2. -/
def isSub (opc sub_ : Nat) (c : Cmd) : Bool := c.opc == opc && c.word 2 == sub_
def noReserved (_ : Cmd) : Bool := false

/-- Write a buffer in host memory; none outside it. -/
def State.hostPut (s : State) (a : Nat) (bs : List Byte) : Option State :=
  if a + bs.length ≤ hostEnd - hostBase then some (s.hostWrite a bs) else none

/- What the module reports (20 R305, R306). -/

def zeros (n : Nat) : List Byte := List.replicate n 0

def State.retiredBits (s : State) : Nat := (((List.range 64).filter s.retired).map (fun c => 2 ^ c)).sum
def State.floidUp (s : State) : Nat := (((List.range 8).filter (fun k => (s.link k).up)).map (fun k => 2 ^ k)).sum
def State.stageByte (s : State) : Nat :=
  (if s.stage == .glaze then 1 else 0) + (((List.range 4).filter (fun d => (s.die d).bisque)).map (fun d => 2 ^ (4 + d))).sum

/-- QUERY item 0: the bisque set and the glaze set. -/
def capBytes : List Byte := bytesOf 16 capsBisque.toNat ++ bytesOf 16 capsGlaze.toNat

/-- The bytes that the devices placed behind a CXL port have. -/
def State.portBytes (s : State) (p : Nat) : Nat := ((nth s.cxl p []).map Prod.snd).sum

/-- QUERY item 2. -/
def State.figures (s : State) : List Byte :=
  bytesOf 4 1 ++ bytesOf 4 (4 * ((List.range 64).filter (fun c => !s.retired c)).length) ++ bytesOf 8 s.retiredBits ++ bytesOf 8 s.g7
    ++ bytesOf 8 8589934592 ++ (List.range 4).flatMap (fun p => bytesOf 8 (s.portBytes p)) ++ bytesOf 1 s.floidUp
    ++ bytesOf 1 s.stageByte ++ bytesOf 2 s.vfs ++ bytesOf 4 s.powerCap ++ bytesOf 4 Config.defaultWatchdogMs ++ zeros 52

/-- Write an item that fits the given length. -/
def State.queryItem (s : State) (fn q : Nat) (c : Cmd) (bs : List Byte) : State :=
  if c.word 6 < bs.length then s.reply fn q c.cid 1 (some bs.length)
  else
    match s.hostPut (c.word64 4) bs with
    | none => s.reply fn q c.cid 1 none
    | some s => s.reply fn q c.cid 0 (some bs.length)

def execQueryCapabilities (fn q : Nat) (s : State) : Out :=
  s.command fn q (isSub 0x01 0) noReserved (fun s c => s.queryItem fn q c capBytes)

def execQueryCertificates (fn q : Nat) (s : State) : Out :=
  s.command fn q (isSub 0x01 1) noReserved (fun s c => s.queryItem fn q c Config.certificate)

def execQueryFigures (fn q : Nat) (s : State) : Out :=
  s.command fn q (isSub 0x01 2) noReserved (fun s c => s.queryItem fn q c s.figures)

/- ATTEST (20 R311, R312). -/

/-- The first 0x1B0 bytes of a report. -/
def State.report (s : State) (nonce m4 : List Byte) : List Byte :=
  let stage := (if s.stage == .glaze then 1 else 0) + (if (List.range 4).any (fun d => (s.die d).bisque) then 2 else 0)
  bytesOf 4 1 ++ bytesOf 4 stage ++ bytesOf 8 s.tsc ++ nonce ++ (List.range 4).flatMap (fun i => nth s.meas i (zeros 48)) ++ m4 ++ zeros 144

def execAttest (fn q : Nat) (s : State) : Out :=
  s.command fn q (isOp 0x02) noReserved (fun s c =>
    let cx := (tget s.ctxs (c.word 2)).filter (fun x => x.fn == fn)
    if c.word 2 != 0xFFFFFFFF && cx.isNone then s.reply fn q c.cid 3 none
    else
      let nonce := (List.range 8).flatMap (fun i => bytesOf 4 (c.word (6 + i)))
      let body := s.report nonce (if c.word 2 == 0xFFFFFFFF then zeros 48 else (cx.map (fun x => x.m4)).getD (zeros 48))
      match s.hostPut (c.word64 4) (body ++ fitBytes 96 (Config.signature (digest body))) with
      | none => s.reply fn q c.cid 1 none
      | some s => s.reply fn q c.cid 0 none)

/- HEALTH (20 R306, R313, R314). -/

/-- A pending event: where it stands, its order, and its entry. -/
structure Pending where
  die : Nat
  fault : Bool
  ix : Nat
  stamp : Nat
  source : Nat
  bytes : List Byte
deriving DecidableEq, Repr

def Event.entry (e : Event) : List Byte :=
  bytesOf 8 e.arg.toNat ++ bytesOf 8 e.stamp ++ bytesOf 2 e.ctx ++ bytesOf 2 e.source ++ bytesOf 1 e.kind ++ bytesOf 1 e.code ++ bytesOf 10 e.detail

def FaultEnt.entry (e : FaultEnt) : List Byte :=
  bytesOf 8 e.va.toNat ++ bytesOf 8 e.stamp ++ bytesOf 2 e.ctx ++ bytesOf 2 e.core ++ bytesOf 1 e.kind ++ bytesOf 1 e.count
    ++ bytesOf 2 e.slot ++ zeros 8

/-- The error log of a die, or of the hub. -/
def State.logOf (s : State) (d : Nat) : List Event := if d = 4 then s.hubLog else (s.die d).log

def numbered {α : Type} (l : List α) : List (Nat × α) := (List.range l.length).zip l

/-- Insert in the order of stamps, then of sources. -/
def insertPending (x : Pending) (l : List Pending) : List Pending :=
  match l with
  | [] => [x]
  | y :: l => if x.stamp < y.stamp || (x.stamp == y.stamp && x.source < y.source) then x :: y :: l else y :: insertPending x l

/-- The pending events of the function's contexts, in the order of 20 R313. -/
def State.pendingOf (s : State) (fn : Nat) : List Pending :=
  let logs := (List.range 5).flatMap (fun d => ((numbered (s.logOf d)).filter (fun e => s.eventFn e.2.ctx == fn)).map (fun e =>
    ({ die := d, fault := false, ix := e.1, stamp := e.2.stamp, source := e.2.source, bytes := e.2.entry } : Pending)))
  let faults := (List.range 5).flatMap (fun d =>
    ((numbered (s.die d).faults).filter (fun e => !e.2.reported && s.eventFn e.2.ctx == fn)).map (fun e =>
      ({ die := d, fault := true, ix := e.1, stamp := e.2.stamp, source := e.2.core, bytes := e.2.entry } : Pending)))
  (logs ++ faults).foldl (fun l x => insertPending x l) []

/-- Delivered events pend no more; a fault-buffer entry stays until it is answered. -/
def State.deliver (s : State) (l : List Pending) : State :=
  let took (d : Nat) (f : Bool) (i : Nat) : Bool := l.any (fun x => x.die == d && x.fault == f && x.ix == i)
  let keep (d : Nat) (es : List Event) : List Event := ((numbered es).filter (fun e => !took d false e.1)).map Prod.snd
  let mark (d : Nat) (es : List FaultEnt) : List FaultEnt :=
    (numbered es).map (fun e => if took d true e.1 then { e.2 with reported := true } else e.2)
  let s := (List.range 5).foldl (fun s d => s.modDie d (fun x => { x with log := keep d x.log, faults := mark d x.faults })) s
  { s with hubLog := keep 4 s.hubLog }

/-- The highest valid temperature of the columns that have been sampled. -/
def State.tempMax (s : State) : Option Int :=
  (s.cols.filterMap (fun c => if c.sampled then c.hottest else none)).foldl (fun (m : Option Int) t => match m with
    | none => some t
    | some x => some (if x < t then t else x)) none

/-- The status record of operation 0. -/
def State.statusRecord (s : State) (fn : Nat) : List Byte :=
  let temp := match s.tempMax with
    | some t => (BitVec.ofInt 32 t).toNat
    | none => (Config.freeWord s.fresh).toNat
  bytesOf 8 s.tsc ++ bytesOf 1 s.stageByte ++ bytesOf 1 s.floidUp ++ zeros 2 ++ bytesOf 4 s.cxlBad
    ++ (List.range 4).flatMap (fun d => bytesOf 8 (s.die d).stale) ++ (List.range 4).flatMap (fun d => bytesOf 4 (s.die d).lost)
    ++ bytesOf 4 s.hubLost ++ bytesOf 4 (s.pendingOf fn).length ++ bytesOf 8 s.retiredBits
    ++ (List.range 4).flatMap (fun d => bytesOf 4 (s.die d).malformed) ++ bytesOf 4 s.powerCap ++ bytesOf 4 s.modPower ++ bytesOf 4 temp
    ++ zeros 20

def execHealthStatus (fn q : Nat) (s : State) : Out :=
  s.command fn q (isSub 0x03 0) noReserved (fun s c =>
    if c.word 6 < 128 then s.reply fn q c.cid 1 (some 128)
    else
      match s.hostPut (c.word64 4) (s.statusRecord fn) with
      | none => s.reply fn q c.cid 1 none
      | some s => s.tickFresh.reply fn q c.cid 0 none)

def execHealthEvents (fn q : Nat) (s : State) : Out :=
  s.command fn q (isSub 0x03 1) noReserved (fun s c =>
    let l := (s.pendingOf fn).take (c.word 6 / 32)
    match s.hostPut (c.word64 4) (l.flatMap (fun x => x.bytes)) with
    | none => s.reply fn q c.cid 1 none
    | some s => (s.deliver l).reply fn q c.cid 0 (some l.length))

/-- An entry of operation 2: the context and its energy in µJ. -/
def energyEntry (x : Nat × Ctx) : List Byte := bytesOf 2 x.1 ++ zeros 6 ++ bytesOf 8 (x.2.energy / 16000000)

def execHealthEnergy (fn q : Nat) (s : State) : Out :=
  s.command fn q (isSub 0x03 2) noReserved (fun s c =>
    let l := (s.ctxs.filter (fun x => x.2.fn == fn)).take (c.word 6 / 16)
    match s.hostPut (c.word64 4) (l.flatMap energyEntry) with
    | none => s.reply fn q c.cid 1 none
    | some s => s.reply fn q c.cid 0 (some l.length))

/-- The cap may be lowered to 400 W, and is never above the module's own (14 R251). -/
def execHealthSetPowerCap (fn q : Nat) (s : State) : Out :=
  s.command fn q (isSub 0x03 3) noReserved (fun s c =>
    if c.word 3 < 400 then s.reply fn q c.cid 1 none
    else { s with powerCap := min Config.modulePowerW (c.word 3) }.reply fn q c.cid 0 none)

def execHealthRecalibrate (fn q : Nat) (s : State) : Out :=
  s.command fn q (isSub 0x03 4) noReserved (fun s c =>
    if 3 < c.word 3 then s.reply fn q c.cid 1 none else (s.recalibrate (c.word 3)).reply fn q c.cid 0 none)

/-- Operation 5 is refused for a virtual function (20 R307). -/
def execHealthCoreReset (fn q : Nat) (s : State) : Out :=
  s.command fn q (isSub 0x03 5) noReserved (fun s c =>
    if fn != 0 || 3 < c.word 3 then s.reply fn q c.cid 1 none else (s.askReset (c.word 3)).reply fn q c.cid 0 none)

end Sys2Proof.Machine
end

