-- ==== Sys2Proof/Machine/CtxEv.lean ====
section
/-! DEFINITION. The commands of a context: CTX_OPEN, CTX_CLOSE, MAP, UNMAP, FAULT_REPLY, LAUNCH, PREEMPT, RESTORE,
BOARD_MAKE and DEBUG (20 R303, R304, R307, R309, R311; 10 R207 to R210; 13 R223, R226 to R233; 18 R281 to R283; 01 R35). A
command is executed when it heads its queue pair, or once it has begun; else nothing changes. -/

namespace Sys2Proof.Machine

/- Contexts (20 R297, R304; 13 R226). -/

/-- Operands of CTX_OPEN out of their ranges. That nonzero bits 31:2 of word 2, which hold no field, are refused is the model's choice
(20 R304; log entry 61). -/
def Cmd.badOpen (c : Cmd) : Bool :=
  3 < c.word 2 || 60000 < c.word 3 || c.word64 4 % 4096 != 0 || 1 < c.word 9 || (c.word 9 == 1 && c.word64 10 % 2 ^ 40 != 0)

def Cmd.newCtx (c : Cmd) (fn opened : Nat) : Ctx :=
  { fn := fn, cls := c.word 2, wdog := if c.word 3 = 0 then Config.defaultWatchdogMs else c.word 3,
    saveBase := BitVec.ofNat 64 (c.word64 4), saveLen := c.word64 6, pasid := BitVec.ofNat 32 (c.word 8), win := c.word 9 == 1,
    wbase := BitVec.ofNat 64 (c.word64 10), opened := opened, maps := [], shoot := [], torn := [], energy := 0, m4 := zeros 48,
    dbg := false, stepping := [] }

/-- CTX_OPEN: the lowest free number of 4,096, and at most 16 contexts for one function. -/
def execCtxOpen (fn q : Nat) (s : State) : Out :=
  s.command fn q (isOp 0x10) Cmd.badOpen (fun s c =>
    let mine := (s.ctxs.filter (fun x => x.2.fn == fn)).length
    match (List.range 4096).find? (fun i => (tget s.ctxs i).isNone) with
    | some i =>
      if mine < 16 then
        { s with ctxs := tput s.ctxs i (c.newCtx fn s.nextKey), nextKey := s.nextKey + 1 }.reply fn q c.cid 0 (some i)
      else s.reply fn q c.cid 1 none
    | none => s.reply fn q c.cid 1 none)

/-- Grids of a context. -/
def State.gridsOf (s : State) (cx : Nat) : List (Nat × Grid) := s.grids.filter (fun x => x.2.ctx == cx)

/-- CONTEXT_KILL to a grid: what has not been placed is not placed any more. -/
def State.killForClose (s : State) (gk : Nat) (g : Grid) : State :=
  if g.state == .done then s
  else (s.modGrid gk (fun g => { g with killed := true, accepted := true, held := false, state := .running })).killGrid gk

/-- A closing context is empty: every grid and every command on it has completed. -/
def State.closable (s : State) (cx : Nat) (c : Ctx) : Bool :=
  c.shoot.isEmpty && (s.gridsOf cx).all (fun x => x.2.state == .done && x.2.preCid.isNone && x.2.resCid.isNone
    && !s.blocks.any (fun b => b.2.grid == x.1))

/-- Free what a context holds: boards, mappings with their translations, faults, and the save-area registration. -/
def State.freeCtx (s : State) (cx : Nat) : State :=
  let clean (d : Die) : Die :=
    { d with tlb := d.tlb.filter (fun e => e.1 != cx), faults := d.faults.filter (fun e => e.ctx != cx),
             faultWait := d.faultWait.filter (fun e => e.2.ctx != cx) }
  let cleanCore (c : CoreSt) : CoreSt :=
    { c with tlb := c.tlb.filter (fun e => e.1 != cx), ptlbs := c.ptlbs.map (fun l => l.filter (fun e => e.1 != cx)),
             loops := c.loops.map (fun l => l.filter (fun b => b.ctx != cx)) }
  { s with ctxs := tdel s.ctxs cx, cores := s.cores.map cleanCore, boards := s.boards.filter (fun b => b.1 / 64 != cx), grids := s.grids.filter (fun x => x.2.ctx != cx),
           dies := s.dies.map clean }

/-- CTX_CLOSE: CONTEXT_KILL to every block; it completes once they have ended. -/
def execCtxClose (fn q : Nat) (s : State) : Out :=
  s.ctxCommand fn q (isOp 0x11) noReserved (fun s c _ =>
    let s := (s.gridsOf c.ctx).foldl (fun s x => s.killForClose x.1 x.2) s
    match tget s.ctxs c.ctx with
    | none => s.reply fn q c.cid 3 none
    | some x => if s.closable c.ctx x then (s.freeCtx c.ctx).reply fn q c.cid 0 none else s.keepCmd fn q c)

/- Mappings (10 R207, R208). -/

def pageBits (code : Nat) : Nat := nth [12, 16, 21, 29, 34] code 0

def Cmd.badAttr (c : Cmd) : Bool := c.word 6 / 256 != 0 || field (c.word 6) 3 2 != 0 || 4 < field (c.word 6) 5 3

/-- Whether a MAP is refused: misaligned, beyond the address spaces, unbacked, or overlapping another mapping. -/
def State.mapRefused (s : State) (x : Ctx) (va pa size : Nat) : Bool :=
  va % size != 0 || pa % size != 0 || 2 ^ 57 < va + size || !s.backed pa size
    || x.maps.any (fun m => m.meets va size && !(m.va == va && m.size == size))

/-- MAP; one that replaces a mapping completes with the shootdown of the old one. -/
def execMap (fn q : Nat) (s : State) : Out :=
  s.ctxCommand fn q (isOp 0x12) Cmd.badAttr (fun s c x =>
    let va := c.word64 2
    let pa := c.word64 4
    let size := 2 ^ pageBits (field (c.word 6) 5 3)
    if s.mapRefused x va pa size then s.reply fn q c.cid 1 none
    else
      let new : Mapping := { va := va, pa := pa, size := size, attr := BitVec.ofNat 32 (c.word 6) }
      let keep := x.maps.filter (fun m => m.va != va)
      let inPage (p : Nat) : Bool := va ≤ p * 4096 && p * 4096 < va + size
      let put (x : Ctx) : Ctx := { x with maps := new :: keep, torn := x.torn.filter (fun p => !inPage p) }
      match x.maps.find? (fun m => m.va == va) with
      | none => (s.modCtx c.ctx put).reply fn q c.cid 0 none
      | some old => (s.modCtx c.ctx (fun x => { put x with shoot := x.shoot ++ [(old, fn, q, c.cid)] })))

/-- UNMAP completes with the shootdown of the mapping. -/
def execUnmap (fn q : Nat) (s : State) : Out :=
  s.ctxCommand fn q (isOp 0x13) noReserved (fun s c x =>
    let va := c.word64 2
    match x.maps.find? (fun m => m.va == va) with
    | none => s.reply fn q c.cid 1 none
    | some old =>
      (s.modCtx c.ctx (fun x => { x with maps := x.maps.filter (fun m => m.va != va), shoot := x.shoot ++ [(old, fn, q, c.cid)] })))

/- FAULT_REPLY (10 R209; 08 R171). -/

/-- The fault a warp is parked on. -/
structure ParkedAt where
  pc : W64
  grp : Mask
  addr : W64
  op : Nat
deriving DecidableEq, Repr

def Warp.parkedAt (w : Warp) (die cx page : Nat) : Option ParkedAt :=
  match w.wait with
  | .parked d c p pc grp addr op => if d == die && c == cx && p == page then some ⟨pc, grp, addr, op⟩ else none
  | .none | .nap _ | .board _ | .cmprs _ | .wb .. | .isync | .blockLimit | .yielded | .resumed => none

/-- A parked warp goes on; the time it was parked does not count for its watchdog (13 R227). -/
def Warp.unpark (w : Warp) (now : Nat) : Warp :=
  let dt := now - w.waitSince
  { w with wait := .none, waitSince := now, lwaitSince := w.lwaitSince.map (fun t => t + dt),
           ops := w.ops.map (fun (o : Op) => { o with since := o.since + dt }) }

/-- RETRY: the access is made again. -/
def State.retryWarp (s : State) (die cx page k : Nat) : State :=
  match tget s.warps k with
  | none => s
  | some w => if (w.parkedAt die cx page).isSome then { s with warps := tput s.warps k (w.unpark s.tsc) } else s

/-- FAIL: PAGE_ABSENT, as a dynamic trap at the instruction. -/
def State.failWarp (s : State) (die cx page k : Nat) : State :=
  match tget s.warps k with
  | none => s
  | some w =>
    match w.parkedAt die cx page with
    | none => s
    | some p =>
      let w := w.unpark s.tsc
      if p.op != 0 then { s with warps := tput s.warps k w }.faultOp k p.op .pageAbsent p.addr
      else
        let pend : Pend := { cause := .pageAbsent, pc := match w.rep with | some r => r.base | none => p.pc, group := p.grp, mask := p.grp,
                             addr := p.addr, iter := match w.rep with | some r => r.iter | none => 0, next := none, mark := none }
        { s with warps := tput s.warps k { w with pend := some pend } }.takeTrap k

/-- FAIL to a parked engine operation: it fails with PAGE_ABSENT. -/
def State.failEOp (s : State) (bk id : Nat) : State :=
  match (s.blk? bk).bind (fun b => b.adm? id) with
  | none => s
  | some o =>
    match o.state with
    | .parked va => s.endEOp bk o (.failed .pageAbsent va) []
    | .queued | .admitted | .started => s

/-- The entry a FAULT_REPLY answers. -/
def State.faultEntry (s : State) (c : Cmd) : Option FaultEnt :=
  (s.die (c.word 2)).faults.find? (fun e => e.va.toNat == c.word64 4 && e.ctx == c.ctx)

/-- Answer an entry: it leaves the buffer, and everything that waits on it is told. -/
def State.faultReply (s : State) (fn q : Nat) (c : Cmd) (warp : State → Nat → Nat → State) (eop : State → Nat × Nat → State) : State :=
  match s.faultEntry c with
  | none => s.reply fn q c.cid 1 none
  | some e =>
    let page := pageOf e.va
    let s := s.modDie (c.word 2) (fun d => { d with faults := d.faults.filter (fun x => !(x.ctx == e.ctx && x.va == e.va)) })
    let s := e.warps.foldl (fun s k => warp s page k) s
    let s := e.eops.foldl eop s
    s.reply fn q c.cid 0 none

def isReply (r : Nat) (c : Cmd) : Bool := c.opc == 0x14 && c.word 6 == r

def execFaultReplyRetry (fn q : Nat) (s : State) : Out :=
  s.ctxCommand fn q (isReply 0) noReserved (fun s c _ =>
    s.faultReply fn q c (fun s page k => s.retryWarp (c.word 2) c.ctx page k) (fun s _ => s))

def execFaultReplyFail (fn q : Nat) (s : State) : Out :=
  s.ctxCommand fn q (isReply 1) noReserved (fun s c _ =>
    s.faultReply fn q c (fun s page k => s.failWarp (c.word 2) c.ctx page k) (fun s x => s.failEOp x.1 x.2))

/- LAUNCH (01 R35; 20 R304, R309, R311). -/

/-- Grids of the earlier LAUNCHes of the queue that a LAUNCH names, not yet completed. -/
def State.earlier (s : State) (fn q : Nat) (c : Cmd) : List Nat :=
  (s.grids.filter (fun x => x.2.fn == fn && x.2.q == q && x.2.state != .done
    && (List.range 4).any (fun i => c.word (4 + i) != 0xFFFF && c.word (4 + i) == x.2.cid))).map Prod.fst

def State.newGrid (s : State) (fn q : Nat) (c : Cmd) (r : Launch) (ceils : List Tag) (masks : List W32) (segs : List Segment) : Grid :=
  { ctx := c.ctx, rec_ := r, ceils := ceils, bmasks := masks, state := .waiting, fn := fn, q := q, cid := c.cid, order := 0,
    after := s.earlier fn q c, accepted := false, held := false, childNext := 0, err := false, killed := false, bars := [], frames := [],
    segs := segs, ring := [], ringClk := .zero, ringKeys := [], pre := [], preRefused := 0, preCid := none, res := [], resCid := none,
    launchVec := VC.zero.raise 4 ((s.die 4).nextWrite - 1), launchHs := s.hseq, clk := .zero }

/-- LAUNCH: the record and its tables are read and checked, the context's measurement is extended, and the grid waits to be
accepted. -/
def execLaunch (fn q : Nat) (s : State) : Out :=
  s.ctxCommand fn q (isOp 0x20) noReserved (fun s c x =>
    if c.word64 2 % 64 != 0 then s.reply fn q c.cid 19 none
    else
      match s.peekVa 4 c.ctx (c.word64 2 % 2 ^ 57) 256 with
      | none => s.reply fn q c.cid 1 none
      | some bytes =>
        let r := launchOf bytes
        let ceils := s.ceilTable c.ctx r.ceilt
        let masks := s.maskTable c.ctx r.bmaskt
        let segs := if r.travel then s.segTable c.ctx r else .ok []
        let status := s.launchStatus c.ctx x bytes r ceils masks segs
        let s := s.recordReads c.ctx (c.word64 2 % 2 ^ 57) r ceils segs
        if status = 1 then s.reply fn q c.cid 1 none
        else
          let s := s.modCtx c.ctx (fun x => { x with m4 := digest (x.m4 ++ bytes) })
          if status != 0 then s.reply fn q c.cid status none
          else
            let gk := s.nextKey
            let g := s.newGrid fn q c r (ceils.get []) (masks.get []) (segs.get [])
            let s := { s with nextKey := gk + 1, grids := tput s.grids gk g }
            (if s.mayAccept g then s.acceptGrid gk else s))

/- PREEMPT and RESTORE (13 R228, R233). -/

/-- The grid of a LAUNCH of the same queue pair that has been accepted and has not completed. -/
def State.namedGrid (s : State) (fn q cx cid : Nat) : Option (Nat × Grid) :=
  s.grids.find? (fun x => x.2.fn == fn && x.2.q == q && x.2.ctx == cx && x.2.cid == cid && x.2.accepted && x.2.state != .done)

/-- The clusters a command names: none for all of them; an unreadable list is refused. -/
def State.clusterList (s : State) (c : Cmd) : Option (Option (List Nat)) :=
  if c.word 4 = 0 then some none
  else
    (s.peekVa 4 c.ctx (c.word64 6 % 2 ^ 57) (8 * c.word 8)).map (fun bs =>
      some ((List.range (c.word 8)).map (fun i => recField bs (8 * i) 8)))

/-- What reading that list reads (20 R297). -/
def State.listReads (s : State) (c : Cmd) : State :=
  if c.word 4 = 0 then s else s.readsOut 4 c.ctx (c.word64 6 % 2 ^ 57) (8 * c.word 8)

def Cmd.badMode (c : Cmd) : Bool := 1 < c.word 4

/-- Blocks of a grid in named clusters: by cluster, and in a cluster by falling rank. A travel grid goes whole (16 R277). -/
def State.namedBlocks (s : State) (gk : Nat) (g : Grid) (names : Option (List Nat)) (want : Block → Bool) : List Nat :=
  let cl (b : Block) : Nat := b.bid / max 1 g.rec_.csize
  let mine := s.blocks.filter (fun x => x.2.grid == gk && want x.2 && (g.rec_.travel || (match names with | none => true | some l => l.contains (cl x.2))))
  let rec insert (x : Nat × Block) (l : List (Nat × Block)) : List (Nat × Block) :=
    match l with
    | [] => [x]
    | y :: l => if cl x.2 < cl y.2 || (cl x.2 == cl y.2 && y.2.crank < x.2.crank) then x :: y :: l else y :: insert x l
  (mine.foldl (fun l x => insert x l) []).map Prod.fst

def Block.isIn (b : Block) : Bool := b.state != .out && b.state != .ended
def Block.isOut (b : Block) : Bool := b.state == .out

/-- PREEMPT: the named blocks are asked out, and it completes when they have left; a second one waits for the first. One
that cannot write the header of a frame is refused and takes no effect. -/
def execPreempt (fn q : Nat) (s : State) : Out :=
  s.ctxCommand fn q (isOp 0x21) Cmd.badMode (fun s c _ =>
    match s.namedGrid fn q c.ctx (c.word64 2), s.clusterList c with
    | some (gk, g), some names =>
      if g.preCid.isSome then s.keepCmd fn q c
      else
        let s := s.listReads c
        let l := s.namedBlocks gk g names Block.isIn
        if !s.headersOk gk l then s.reply fn q c.cid 1 none
        else (s.modGrid gk (fun g => { g with pre := l, preRefused := 0, preCid := some c.cid })).preemptGo gk
    | _, _ => s.reply fn q c.cid 1 none)

/-- RESTORE: the named blocks are asked back. -/
def execRestore (fn q : Nat) (s : State) : Out :=
  s.ctxCommand fn q (isOp 0x22) Cmd.badMode (fun s c _ =>
    match s.namedGrid fn q c.ctx (c.word64 2), s.clusterList c with
    | some (gk, g), some names =>
      if g.resCid.isSome then s.keepCmd fn q c
      else
        let s := s.listReads c
        let l := s.namedBlocks gk g names Block.isOut
        ((s.modGrid gk (fun g => { g with res := l, resCid := some c.cid }))).restoreSweep
    | _, _ => s.reply fn q c.cid 1 none)

/- BOARD_MAKE (18 R281 to R283; 20 R309). -/

/-- Owner entries without the reserved bits, 0 for a slot without an owner. -/
def ownerOf (e : Nat) : W64 := if e / 2 ^ 63 = 0 then 0 else BitVec.ofNat 64 (field e 0 48 + 2 ^ 63)

/-- The board that a descriptor describes; none when it breaks its layout or cannot be read. -/
def State.boardAt (s : State) (cx a : Nat) : Option Board :=
  if a % 8 != 0 then none
  else
    (s.peekVa 4 cx (a % 2 ^ 57) 64).bind (fun d =>
      let ctrl := recField d 0 4
      let n := field ctrl 0 9
      if field ctrl 9 7 != 0 || ctrl / 2 ^ 17 != 0 || n = 0 || 256 < n || recField d 4 4 != 0 || recField d 0x10 48 != 0
          || recField d 8 8 % 8 != 0 then none
      else
        (s.peekVa 4 cx (recField d 8 8 % 2 ^ 57) (8 * n)).bind (fun t =>
          let owners := (List.range n).map (fun i => ownerOf (recField t (8 * i) 8))
          if noRepeats ((owners.filter (fun o => o != 0)).map (fun o => o.toNat)) then some (Board.make n (ctrl / 2 ^ 16 % 2 == 1) owners)
          else none))

/-- What reading a board's descriptor and owner table reads (20 R297). -/
def State.boardReads (s : State) (cx a n : Nat) : State :=
  let s' := s.readsOut 4 cx (a % 2 ^ 57) 64
  match s.peekVa 4 cx (a % 2 ^ 57) 64 with
  | some d => s'.readsOut 4 cx (recField d 8 8 % 2 ^ 57) (8 * n)
  | none => s'

/-- BOARD_MAKE waits for the glaze stage. -/
def execBoardMake (fn q : Nat) (s : State) : Out :=
  s.ctxCommand fn q (isOp 0x30) noReserved (fun s c _ =>
    if 63 < c.word 2 then s.reply fn q c.cid 1 none
    else if s.stage != .glaze then s.keepCmd fn q c
    else
      let key := c.ctx * 64 + c.word 2
      if s.grids.any (fun x => x.2.state != .done && x.2.boardKeys.contains key) then s.reply fn q c.cid 1 none
      else
        match s.boardAt c.ctx (c.word64 4) with
        | none => (if c.word64 4 % 8 = 0 then s.boardReads c.ctx (c.word64 4) 0 else s).reply fn q c.cid 1 none
        | some b => ({ s.boardReads c.ctx (c.word64 4) b.slots with boards := tput s.boards key b }.forgetViews key).reply fn q c.cid 0 none)

/- DEBUG (13 R223; 07 R130; 20 R307). -/

/-- Change every warp of a grid, on a core or set aside. -/
def State.modGridWarps (s : State) (gk : Nat) (f : Warp → Warp) : State :=
  let mine (bk : Nat) : Bool := match s.blk? bk with | some b => b.grid == gk | none => false
  let inBlock (b : Block) : Block := if b.grid == gk then { b with saved := b.saved.map (fun x => (x.1, f x.2)) } else b
  { s with warps := s.warps.map (fun x => if mine x.2.blk then (x.1, f x.2) else x), blocks := s.blocks.map (fun x => (x.1, inBlock x.2)) }

def Warp.unhalt (w : Warp) : Warp := { w with halted := false }

/-- A DEBUG operation on a launch of a context that a debugger holds. -/
def State.debugGrid (s : State) (fn q : Nat) (op : Nat) (run : State → Cmd → Nat → State) : Out :=
  s.ctxCommand fn q (isSub 0x31 op) noReserved (fun s c x =>
    match s.grids.find? (fun y => y.2.ctx == c.ctx && y.2.cid == c.word 3 && y.2.state != .done) with
    | some (gk, _) => if fn == 0 && x.dbg then (run s c gk).reply fn q c.cid 0 none else s.reply fn q c.cid 1 none
    | none => s.reply fn q c.cid 1 none)

def execDebugAttach (fn q : Nat) (s : State) : Out :=
  s.ctxCommand fn q (isSub 0x31 0) noReserved (fun s c _ =>
    if fn != 0 then s.reply fn q c.cid 1 none else (s.modCtx c.ctx (fun x => { x with dbg := true })).reply fn q c.cid 0 none)

/-- Detach: the context's warps run freely again. -/
def execDebugDetach (fn q : Nat) (s : State) : Out :=
  s.ctxCommand fn q (isSub 0x31 1) noReserved (fun s c x =>
    if fn != 0 || !x.dbg then s.reply fn q c.cid 1 none
    else
      let s := s.modCtx c.ctx (fun x => { x with dbg := false, stepping := [] })
      ((s.gridsOf c.ctx).foldl (fun s y => s.modGridWarps y.1 Warp.unhalt) s).reply fn q c.cid 0 none)

def execDebugHalt (fn q : Nat) (s : State) : Out :=
  s.debugGrid fn q 2 (fun s _ gk => s.modGridWarps gk (fun w => if w.halted then w else w.addAsync .debugHalt 0))

def execDebugStep (fn q : Nat) (s : State) : Out :=
  s.debugGrid fn q 3 (fun s c gk =>
    (s.modCtx c.ctx (fun x => { x with stepping := gk :: x.stepping.filter (fun k => k != gk) })).modGridWarps gk Warp.unhalt)

def execDebugContinue (fn q : Nat) (s : State) : Out :=
  s.debugGrid fn q 4 (fun s c gk =>
    (s.modCtx c.ctx (fun x => { x with stepping := x.stepping.filter (fun k => k != gk) })).modGridWarps gk Warp.unhalt)

end Sys2Proof.Machine
end

