-- ==== Sys2Proof/Machine/Flt.lean ====
section
/-! DEFINITION. Classes FLT, DBL and CVT: floating-point arithmetic and conversion (06 R115 to R124). -/

namespace Sys2Proof.Machine

/-- A binary32 source with its modifiers and FTZ. -/
def View.fa (v : View) (x : Option Mods) (ftz : Bool) (a : W9) (l : Nat) : FVal := f32.input ftz (f32.src (modA x) (v.w.rd a.toNat l).toNat)
def View.fb (v : View) (x : Option Mods) (ftz : Bool) (b : SrcB) (l : Nat) : FVal := f32.input ftz (f32.src (modB x) (v.w.srcB b l).toNat)
def View.fc (v : View) (x : Option Mods) (ftz : Bool) (c : W9) (l : Nat) : FVal := f32.input ftz (f32.src (modC x) (v.w.rd c.toNat l).toNat)

/-- A binary64 source with its modifiers and FTZ. -/
def View.da (v : View) (md : Bool × Bool) (ftz : Bool) (a : W9) (l : Nat) : FVal := f64.input ftz (f64.src md (v.w.rd64 a.toNat l).toNat)

def execFadd (h : Hdr) (r : Rnd) (d a : W9) (b : SrcB) (x : Option Mods) (s : State) : Out :=
  issueFlt s h (.fadd h r d a b x) (fun v l => f32.add r.ftz r.rm (v.fa x r.ftz a l) (v.fb x r.ftz b l))

def execFsub (h : Hdr) (r : Rnd) (d a : W9) (b : SrcB) (x : Option Mods) (s : State) : Out :=
  issueFlt s h (.fsub h r d a b x) (fun v l => f32.add r.ftz r.rm (v.fa x r.ftz a l) (v.fb x r.ftz b l).neg)

def execFmul (h : Hdr) (r : Rnd) (d a : W9) (b : SrcB) (x : Option Mods) (s : State) : Out :=
  issueFlt s h (.fmul h r d a b x) (fun v l => f32.mul r.ftz r.rm (v.fa x r.ftz a l) (v.fb x r.ftz b l))

def execFfma (h : Hdr) (r : Rnd) (d a : W9) (b : SrcB) (c : W9) (x : Option Mods) (s : State) : Out :=
  issueFlt s h (.ffma h r d a b c x) (fun v l => f32.fma r.ftz r.rm (v.fa x r.ftz a l) (v.fb x r.ftz b l) (v.fc x r.ftz c l))

def execFmin (h : Hdr) (d a : W9) (b : SrcB) (x : Option Mods) (s : State) : Out :=
  issueFlt s h (.fmin h d a b x) (fun v l =>
    let p := f32.src (modA x) (v.w.rd a.toNat l).toNat
    let q := f32.src (modB x) (v.w.srcB b l).toNat
    f32.minNum (p, f32.unpack p) (q, f32.unpack q))

def execFmax (h : Hdr) (d a : W9) (b : SrcB) (x : Option Mods) (s : State) : Out :=
  issueFlt s h (.fmax h d a b x) (fun v l =>
    let p := f32.src (modA x) (v.w.rd a.toNat l).toNat
    let q := f32.src (modB x) (v.w.srcB b l).toNat
    f32.maxNum (p, f32.unpack p) (q, f32.unpack q))

def execFrnd (h : Hdr) (r : Rnd) (d a : W9) (x : Option Mods) (s : State) : Out :=
  issueFlt s h (.frnd h r d a x) (fun v l => frndOf r.rm (v.fa x r.ftz a l))

def execFclass (h : Hdr) (d a : W9) (s : State) : Out :=
  issueVal s h (.fclass h d a) (fun v l => BitVec.ofNat 32 (fclassOf (v.w.rd a.toNat l).toNat))

def execFexp (h : Hdr) (d a : W9) (s : State) : Out :=
  issueFlt s h (.fexp h d a) (fun v l =>
    let r := fexpOf (v.w.rd a.toNat l).toNat
    (r.1.toNat, r.2))

def execFldexp (h : Hdr) (r : Rnd) (d a : W9) (b : SrcB) (x : Option Mods) (s : State) : Out :=
  issueFlt s h (.fldexp h r d a b x) (fun v l => fldexpOf r.ftz r.rm (v.fa x r.ftz a l) (v.w.srcB b l).toInt)

/-- Both 16-bit elements of a pair instruction, the flags their union (06 R118). -/
def halves (f : Nat → Nat × FFlags) : Nat × FFlags :=
  let lo := f 0
  let hi := f 1
  (lo.1 % 65536 + hi.1 % 65536 * 65536, lo.2 ||| hi.2)

/-- Element e of a word, with modifiers and FTZ. -/
def half (f : Fmt) (md : Bool × Bool) (ftz : Bool) (w : W32) (e : Nat) : FVal := f.input ftz (f.src md (field w.toNat (16 * e) 16))

def execHadd2 (h : Hdr) (r : Rnd) (d a : W9) (b : SrcB) (x : Option Mods) (s : State) : Out :=
  issueFlt s h (.hadd2 h r d a b x) (fun v l => halves (fun e =>
    f16.add r.ftz r.rm (half f16 (modA x) r.ftz (v.w.rd a.toNat l) e) (half f16 (modB x) r.ftz (v.w.srcB b l) e)))

def execHmul2 (h : Hdr) (r : Rnd) (d a : W9) (b : SrcB) (x : Option Mods) (s : State) : Out :=
  issueFlt s h (.hmul2 h r d a b x) (fun v l => halves (fun e =>
    f16.mul r.ftz r.rm (half f16 (modA x) r.ftz (v.w.rd a.toNat l) e) (half f16 (modB x) r.ftz (v.w.srcB b l) e)))

def execHfma2 (h : Hdr) (r : Rnd) (d a : W9) (b : SrcB) (c : W9) (x : Option Mods) (s : State) : Out :=
  issueFlt s h (.hfma2 h r d a b c x) (fun v l => halves (fun e =>
    f16.fma r.ftz r.rm (half f16 (modA x) r.ftz (v.w.rd a.toNat l) e) (half f16 (modB x) r.ftz (v.w.srcB b l) e)
      (half f16 (modC x) r.ftz (v.w.rd c.toNat l) e)))

def execBfma2 (h : Hdr) (r : Rnd) (d a : W9) (b : SrcB) (c : W9) (x : Option Mods) (s : State) : Out :=
  issueFlt s h (.bfma2 h r d a b c x) (fun v l => halves (fun e =>
    bf16.fma r.ftz r.rm (half bf16 (modA x) r.ftz (v.w.rd a.toNat l) e) (half bf16 (modB x) r.ftz (v.w.srcB b l) e)
      (half bf16 (modC x) r.ftz (v.w.rd c.toNat l) e)))

/- Class DBL: long-latency (06 R119, R120). -/

def execDadd (h : Hdr) (r : Rnd) (d a b : W9) (x : Option Mods) (s : State) : Out :=
  issueLong s h (.dadd h r d a b x) (fun v l => f64.add r.ftz r.rm (v.da (modA x) r.ftz a l) (v.da (modB x) r.ftz b l)) true

def execDmul (h : Hdr) (r : Rnd) (d a b : W9) (x : Option Mods) (s : State) : Out :=
  issueLong s h (.dmul h r d a b x) (fun v l => f64.mul r.ftz r.rm (v.da (modA x) r.ftz a l) (v.da (modB x) r.ftz b l)) true

def execDfma (h : Hdr) (r : Rnd) (d a b c : W9) (x : Option Mods) (s : State) : Out :=
  issueLong s h (.dfma h r d a b c x) (fun v l =>
    f64.fma r.ftz r.rm (v.da (modA x) r.ftz a l) (v.da (modB x) r.ftz b l) (v.da (modC x) r.ftz c l)) true

def execDmin (h : Hdr) (d a b : W9) (x : Option Mods) (s : State) : Out :=
  issueLong s h (.dmin h d a b x) (fun v l =>
    let p := f64.src (modA x) (v.w.rd64 a.toNat l).toNat
    let q := f64.src (modB x) (v.w.rd64 b.toNat l).toNat
    f64.minNum (p, f64.unpack p) (q, f64.unpack q)) true

def execDmax (h : Hdr) (d a b : W9) (x : Option Mods) (s : State) : Out :=
  issueLong s h (.dmax h d a b x) (fun v l =>
    let p := f64.src (modA x) (v.w.rd64 a.toNat l).toNat
    let q := f64.src (modB x) (v.w.rd64 b.toNat l).toNat
    f64.maxNum (p, f64.unpack p) (q, f64.unpack q)) true

def execFrcp (h : Hdr) (ftz : Bool) (d a : W9) (x : Option Mods) (s : State) : Out :=
  issueLong s h (.frcp h ftz d a x) (fun v l => frcpOf ftz (v.fa x ftz a l)) false

def execFrsq (h : Hdr) (ftz : Bool) (d a : W9) (x : Option Mods) (s : State) : Out :=
  issueLong s h (.frsq h ftz d a x) (fun v l => frsqOf ftz (v.fa x ftz a l)) false

def execFsqrt (h : Hdr) (ftz : Bool) (d a : W9) (x : Option Mods) (s : State) : Out :=
  issueLong s h (.fsqrt h ftz d a x) (fun v l => fsqrtOf ftz (v.fa x ftz a l)) false

def execFex2 (h : Hdr) (ftz : Bool) (d a : W9) (x : Option Mods) (s : State) : Out :=
  issueLong s h (.fex2 h ftz d a x) (fun v l => fex2Of ftz (v.fa x ftz a l)) false

def execFlg2 (h : Hdr) (ftz : Bool) (d a : W9) (x : Option Mods) (s : State) : Out :=
  issueLong s h (.flg2 h ftz d a x) (fun v l => flg2Of ftz (v.fa x ftz a l)) false

/- Class CVT. -/

/-- CVT: pairs for the 64-bit types (06 R121). -/
def execCvt (h : Hdr) (r : RndS) (dt st : TypeCode) (na aa : Bool) (d a : W9) (s : State) : Out :=
  issue s h (reqOf (.cvt h r dt st na aa d a)) (fun v s =>
    let q := reqOf (.cvt h r dt st na aa d a) v
    let res := perLane (fun l =>
      cvtOf r dt st na aa (if st.isPairType then (v.w.rd64 a.toNat l).toNat else (v.w.rd a.toNat l).toNat))
    let vals := res.map Prod.fst
    .done (v.flags (v.outs s q [loWords vals, hiWords vals]) (res.map Prod.snd)))

def execCvtn (h : Hdr) (r : RndS) (st : TypeCode) (f : W3) (na aa : Bool) (d a : W9) (s : State) : Out :=
  issueFlt s h (.cvtn h r st f na aa d a) (fun v l =>
    let p := cvtnOf r st (v.slotWord f) na aa (v.w.rd a.toNat l).toNat
    (p.1.toNat, p.2))

def execCvtw (h : Hdr) (r : RndS) (dt : TypeCode) (f : W3) (d a : W9) (s : State) : Out :=
  issueFlt s h (.cvtw h r dt f d a) (fun v l =>
    let p := cvtwOf r dt (v.slotWord f) (v.w.rd a.toNat l).toNat
    (p.1.toNat, p.2))

def execPack4 (h : Hdr) (w4 : Bool) (d a : W9) (s : State) : Out :=
  issueVal s h (.pack4 h w4 d a) (fun v l =>
    let n := if w4 then 4 else 8
    BitVec.ofNat 32 (((List.range 4).map (fun i => field (v.w.rd (a.toNat + i) l).toNat 0 n * 2 ^ (n * i))).sum))

def execUnpack4 (h : Hdr) (w4 : Bool) (d a : W9) (s : State) : Out :=
  issue s h (reqOf (.unpack4 h w4 d a)) (fun v s =>
    let n := if w4 then 4 else 8
    .done (v.outs s (reqOf (.unpack4 h w4 d a) v)
      ((List.range 4).map (fun i => perLane (fun l => BitVec.ofNat 32 (field (v.w.rd a.toNat l).toNat (n * i) n))))))

end Sys2Proof.Machine
end

