-- ==== Sys2Proof/Machine/Int.lean ====
section
/-! DEFINITION. Class INT: integer arithmetic (06 R100 to R103). -/

namespace Sys2Proof.Machine

def execIadd (h : Hdr) (m : IntM) (d a : W9) (b : SrcB) (s : State) : Out :=
  issueVal s h (.iadd h m d a b) (fun v l => narrowInt m.sat m.u 32 (ival m.u (v.w.rd a.toNat l) + ival m.u (v.w.srcB b l)))

def execIsub (h : Hdr) (m : IntM) (d a : W9) (b : SrcB) (s : State) : Out :=
  issueVal s h (.isub h m d a b) (fun v l => narrowInt m.sat m.u 32 (ival m.u (v.w.rd a.toNat l) - ival m.u (v.w.srcB b l)))

/-- IADDC reads the carry predicate before it writes it (06 R101). -/
def execIaddc (h : Hdr) (u : Bool) (d a : W9) (b : SrcB) (p : W4) (s : State) : Out :=
  issue s h (reqOf (.iaddc h u d a b p)) (fun v s =>
    let x := perLane (fun l => ival u (v.w.rd a.toNat l) + ival u (v.w.srcB b l) + (if v.w.pred p l then 1 else 0))
    let s := v.outs s (reqOf (.iaddc h u d a b p) v) [x.map (BitVec.ofInt 32)]
    .done (v.writePred s p (fun l => carryOut u (nth x l 0))))

def execIneg (h : Hdr) (sat : Bool) (d a : W9) (s : State) : Out :=
  issueVal s h (.ineg h sat d a) (fun v l => narrowInt sat false 32 (-(ival false (v.w.rd a.toNat l))))

def execIabs (h : Hdr) (sat : Bool) (d a : W9) (s : State) : Out :=
  issueVal s h (.iabs h sat d a) (fun v l => narrowInt sat false 32 (ival false (v.w.rd a.toNat l)).natAbs)

def execImul (h : Hdr) (m : IntM) (d a : W9) (b : SrcB) (s : State) : Out :=
  issueVal s h (.imul h m d a b) (fun v l => narrowInt m.sat m.u 32 (ival m.u (v.w.rd a.toNat l) * ival m.u (v.w.srcB b l)))

def execImulh (h : Hdr) (u : Bool) (d a : W9) (b : SrcB) (s : State) : Out :=
  issueVal s h (.imulh h u d a b) (fun v l =>
    BitVec.ofInt 32 ((ival u (v.w.rd a.toNat l) * ival u (v.w.srcB b l)) / (2 ^ 32 : Int)))

def execImad (h : Hdr) (m : IntM) (d a : W9) (b : SrcB) (c : W9) (s : State) : Out :=
  issueVal s h (.imad h m d a b c) (fun v l =>
    narrowInt m.sat m.u 32 (ival m.u (v.w.rd a.toNat l) * ival m.u (v.w.srcB b l) + ival m.u (v.w.rd c.toNat l)))

def execImadw (h : Hdr) (m : IntM) (d a : W9) (b : SrcB) (c : W9) (s : State) : Out :=
  issueVal64 s h (.imadw h m d a b c) (fun v l =>
    narrowInt m.sat m.u 64 (ival m.u (v.w.rd a.toNat l) * ival m.u (v.w.srcB b l) + ival m.u (v.w.rd64 c.toNat l)))

def execIadd64 (h : Hdr) (m : IntM) (d a : W9) (b : SrcB) (s : State) : Out :=
  issueVal64 s h (.iadd64 h m d a b) (fun v l =>
    narrowInt m.sat m.u 64 (ival m.u (v.w.rd64 a.toNat l) + ival m.u (v.w.srcB64 b m.u l)))

def execIsub64 (h : Hdr) (m : IntM) (d a : W9) (b : SrcB) (s : State) : Out :=
  issueVal64 s h (.isub64 h m d a b) (fun v l =>
    narrowInt m.sat m.u 64 (ival m.u (v.w.rd64 a.toNat l) - ival m.u (v.w.srcB64 b m.u l)))

def execImul64 (h : Hdr) (m : IntM) (d a b : W9) (s : State) : Out :=
  issueVal64 s h (.imul64 h m d a b) (fun v l =>
    narrowInt m.sat m.u 64 (ival m.u (v.w.rd64 a.toNat l) * ival m.u (v.w.rd64 b.toNat l)))

def execImin (h : Hdr) (u : Bool) (d a : W9) (b : SrcB) (s : State) : Out :=
  issueVal s h (.imin h u d a b) (fun v l => BitVec.ofInt 32 (min (ival u (v.w.rd a.toNat l)) (ival u (v.w.srcB b l))))

def execImax (h : Hdr) (u : Bool) (d a : W9) (b : SrcB) (s : State) : Out :=
  issueVal s h (.imax h u d a b) (fun v l => BitVec.ofInt 32 (max (ival u (v.w.rd a.toNat l)) (ival u (v.w.srcB b l))))

def execIsad (h : Hdr) (m : IntM) (d a : W9) (b : SrcB) (c : W9) (s : State) : Out :=
  issueVal s h (.isad h m d a b c) (fun v l =>
    narrowInt m.sat m.u 32 ((ival m.u (v.w.rd a.toNat l) - ival m.u (v.w.srcB b l)).natAbs + ival m.u (v.w.rd c.toNat l)))

/-- The exact dot product of n elements of w bits, plus C (06 R102). -/
def dotSum (n w : Nat) (u bn : Bool) (a b c : W32) : Int :=
  (List.range n).foldl (fun x i => x + ival u (a.extractLsb' (w * i) w) * ival bn (b.extractLsb' (w * i) w)) (ival u c)

def execIdot4 (h : Hdr) (m : IntM) (bn : Bool) (d a b c : W9) (s : State) : Out :=
  issueVal s h (.idot4 h m bn d a b c) (fun v l =>
    narrowInt m.sat m.u 32 (dotSum 4 8 m.u bn (v.w.rd a.toNat l) (v.w.rd b.toNat l) (v.w.rd c.toNat l)))

def execIdot2 (h : Hdr) (m : IntM) (bn : Bool) (d a b c : W9) (s : State) : Out :=
  issueVal s h (.idot2 h m bn d a b c) (fun v l =>
    narrowInt m.sat m.u 32 (dotSum 2 16 m.u bn (v.w.rd a.toNat l) (v.w.rd b.toNat l) (v.w.rd c.toNat l)))

def execLea (h : Hdr) (sh : W2) (d a : W9) (b : SrcB) (s : State) : Out :=
  issueVal s h (.lea h sh d a b) (fun v l => v.w.rd a.toNat l + (v.w.srcB b l) <<< sh.toNat)

def execLea64 (h : Hdr) (u : Bool) (sh : W2) (d a : W9) (b : SrcB) (s : State) : Out :=
  issueVal64 s h (.lea64 h u sh d a b) (fun v l =>
    let x : W64 := if u then (v.w.srcB b l).setWidth 64 else (v.w.srcB b l).signExtend 64
    v.w.rd64 a.toNat l + x <<< sh.toNat)

end Sys2Proof.Machine
end

