-- ==== Sys2Proof/Machine/Lane.lean ====
section
/-! DEFINITION. Class LANE: exchange within a warp (07 R133 to R137; 04 R92). -/

namespace Sys2Proof.Machine

/-- The lane SHFL reads (07 R134). -/
def shflFrom (mode : ShflMode) (lane b : Nat) : Option Nat :=
  match mode with
  | .idx => some (b % 32)
  | .up => if lane < b then none else some (lane - b)
  | .down => if 31 < lane + b then none else some (lane + b)
  | .bfly => some (lane ^^^ (b % 32))

/-- SHFL reads any lane's value, whatever its thread does (07 R133). -/
def execShfl (h : Hdr) (mode : ShflMode) (d a : W9) (b : SrcB) (s : State) : Out :=
  issueVal s h (.shfl h mode d a b) (fun v l =>
    v.w.rd a.toNat ((shflFrom mode l (v.w.srcB b l).toNat).getD l))

/-- VOTE (07 R135): .ballot writes a register, the others a predicate. -/
def execVote (h : Hdr) (mode : VoteMode) (d : W9) (p : W4) (s : State) : Out :=
  issue s h (reqOf (.vote h mode d p)) (fun v s =>
    let m := v.act &&& v.w.predMask p
    match mode with
    | .ballot => .done (v.outs s (reqOf (.vote h mode d p) v) [perLane (fun _ => m)])
    | .all => .done (v.writePred s (d.setWidth 4) (fun _ => m == v.act))
    | .any => .done (v.writePred s (d.setWidth 4) (fun _ => m != 0))
    | .uni => .done (v.writePred s (d.setWidth 4) (fun _ => m == v.act || m == 0)))

/-- The identity SCANW.excl gives the first lane (07 R136). -/
def wopId (op : WOp) : W32 :=
  match op with
  | .add => 0
  | .minI => 0x7FFFFFFF
  | .maxI => 0x80000000
  | .minN => 0xFFFFFFFF
  | .maxN => 0
  | .and => 0xFFFFFFFF
  | .or => 0
  | .xor => 0
  | .fadd => 0
  | .fmin => 0x7F800000
  | .fmax => 0xFF800000

/-- One combination, with the flags FADD would set (07 R133, R136). -/
def wopStep (op : WOp) (a b : W32) : W32 × FFlags :=
  match op with
  | .add => (a + b, 0)
  | .minI => (if a.toInt ≤ b.toInt then a else b, 0)
  | .maxI => (if a.toInt ≤ b.toInt then b else a, 0)
  | .minN => (if a.toNat ≤ b.toNat then a else b, 0)
  | .maxN => (if a.toNat ≤ b.toNat then b else a, 0)
  | .and => (a &&& b, 0)
  | .or => (a ||| b, 0)
  | .xor => (a ^^^ b, 0)
  | .fadd => add32 a b
  | .fmin => min32 a b
  | .fmax => max32 a b

abbrev Part := Option (W32 × FFlags)

def combine (op : WOp) (a b : Part) : Part :=
  match a, b with
  | none, b => b
  | a, none => a
  | some x, some y =>
    let r := wopStep op x.1 y.1
    some (r.1, x.2 ||| y.2 ||| r.2)

/-- One level of the tree by lane index (04 R92). -/
def treeLevel (op : WOp) (l : List Part) : List Part :=
  match l with
  | a :: b :: rest => combine op a b :: treeLevel op rest
  | l => l

/-- REDW: a tree by lane index, which for the integer operations equals the ascending order (04 R92; 07 R136). -/
def redwOf (op : WOp) (parts : List Part) : Part :=
  match treeLevel op (treeLevel op (treeLevel op (treeLevel op (treeLevel op parts)))) with
  | x :: _ => x
  | [] => none

def View.parts (v : View) (a : W9) : List Part := perLane (fun l => if has v.act l then some (v.w.rd a.toNat l, (0 : FFlags)) else none)

def execRedw (h : Hdr) (op : WOp) (d a : W9) (s : State) : Out :=
  issue s h (reqOf (.redw h op d a)) (fun v s =>
    match redwOf op (v.parts a) with
    | none => .done s
    | some r => .done (v.flags (v.outs s (reqOf (.redw h op d a) v) [perLane (fun _ => r.1)]) (perLane (fun _ => r.2))))

/-- Running combinations over the act lanes, ascending: value before and through each lane (07 R136; 04 R92). The flags are
those of every combination; that the exclusive form counts the last of them, whose result it does not use, is the model's
choice (log entry 58). -/
def scanOf (op : WOp) (parts : List Part) : List (W32 × W32) × FFlags :=
  let r := parts.foldl (fun (acc : List (W32 × W32) × Part × FFlags) p =>
    match p with
    | none => (acc.1 ++ [(0, 0)], acc.2.1, acc.2.2)
    | some x =>
      let before := match acc.2.1 with | some y => y.1 | none => wopId op
      let q := combine op acc.2.1 (some x)
      match q with
      | some y => (acc.1 ++ [(before, y.1)], some (y.1, 0), acc.2.2 ||| y.2)
      | none => acc) ([], none, 0)
  (r.1, r.2.2)

def execScanw (h : Hdr) (op : WOp) (excl : Bool) (d a : W9) (s : State) : Out :=
  issue s h (reqOf (.scanw h op excl d a)) (fun v s =>
    let r := scanOf op (v.parts a)
    .done (v.flags (v.outs s (reqOf (.scanw h op excl d a) v) [r.1.map (fun x => if excl then x.1 else x.2)]) (perLane (fun _ => r.2))))

def execMatchv (h : Hdr) (all : Bool) (d a : W9) (s : State) : Out :=
  issueVal s h (.matchv h all d a) (fun v l =>
    let same := v.act &&& maskOf (fun k => v.w.rd a.toNat k == v.w.rd a.toNat l)
    if all then (if same == v.act then v.act else 0) else same)

def execActive (h : Hdr) (d : W9) (s : State) : Out :=
  issueVal s h (.active h d) (fun v _ => v.act)

/-- WSYNC: arrive with the mask, or pass once the barrier has completed (07 R137, R157). The threads then acquire what
the others did at warp scope. -/
def execWsync (h : Hdr) (b : SrcB) (s : State) : Out :=
  issue s h (reqOf (.wsync h b)) (fun v s =>
    let lw (l : Nat) : LWait := nth v.w.lwait l .none
    let passing := v.act &&& maskOf (fun l => lw l == .passed)
    let waiting := v.act &&& maskOf (fun l => match lw l with | .wsync _ => true | .none | .passed | .bar .. | .tile .. => false)
    let fresh := v.act &&& ~~~ passing &&& ~~~ waiting
    let out := v.grp &&& ~~~ v.act
    let low := (lowest fresh).getD 0
    let m := v.w.srcB b low
    let same := (lanesOf fresh).all (fun l => v.w.srcB b l == m)
    if fresh != 0 && v.w.unserved fresh then .hold
    else if fresh != 0 && (!same || fresh &&& ~~~ m != 0 || m &&& ~~~ v.w.live != 0) then .raise .wsyncMask v.grp (m.setWidth 64)
    else
      let arrive (w : Warp) : Warp := (lanesOf fresh).foldl (fun w l =>
        { w with lwait := lput w.lwait l .none (fun _ => .wsync m), lwaitSince := lput w.lwaitSince l 0 (fun _ => s.tsc) }) w
      let s1 := s.modWarp v.key arrive
      let done := fresh != 0 && (lanesOf m).all (fun l => has fresh l || lw l == .wsync m)
      let s2 := if done then
          let all := v.w.allClk m
          s1.modWarp v.key (fun w => { (lanesOf m).foldl (fun w l => { w with lwait := lput w.lwait l .none (fun _ => .passed) }) w with
            clk := allLanes.map (fun l => if has m l then (w.clkAt l).acquire all else w.clkAt l) })
        else s1
      let moved := passing ||| (if done then fresh &&& m else 0)
      let go := moved ||| out
      if fresh == 0 && go == 0 then .hold
      else
        let s3 := s2.modWarp v.key (fun w => (lanesOf moved).foldl (fun w l => { w with lwait := lput w.lwait l .none (fun _ => .none) }) w)
        .jump s3 go (perLane (fun _ => v.next)))

end Sys2Proof.Machine
end

