-- ==== Sys2Proof/Machine/StageEv.lean ====
section
/-! DEFINITION. The stages of the module: power-good, the glaze stage, and the loss of power (20 R308, R309, R311; 10 R197;
14 R256, R318). A step whose condition does not hold changes nothing. -/

namespace Sys2Proof.Machine

/-- POWER_GOOD: the bisque stage, with M0 to M2 measured. -/
def execPowerGood (s : State) : Out :=
  if s.stage != .off then .next s
  else .next { s with stage := .bisque, meas := [0, 1, 2].map (fun i => fitBytes 48 (Config.measured i)) ++ [zeros 48] }

/-- A grid runs: accepted, not held, and not completed. -/
def Grid.runs (g : Grid) : Bool := g.accepted && !g.held && g.state != .done

/-- GLAZE_TRANSITION: once training and calibration have finished and no grid runs. The die stores have been copied into the G7 devices at
the same addresses, so that memory keeps every value (10 R197). -/
def execGlazeTransition (s : State) : Out :=
  if s.stage != .bisque || !s.trained || s.grids.any (fun x => x.2.runs) then .next s
  else
    let m3 := digest (nth s.meas 3 (zeros 48) ++ bytesOf 16 capsGlaze.toNat)
    .next ((List.range 4).foldl State.calibrate { s with stage := .glaze, meas := lput s.meas 3 (zeros 48) (fun _ => m3) }).beginHeld

/-- POWER_LOSS: everything is lost but the open-bump events, and what is outside the module: the host's memory, the messages
it has had, and its own course. -/
def execPowerLoss (s : State) : Out :=
  let host (a : Nat) : Bool := hostBase ≤ a && a < hostEnd
  .next { State.reset with
    bumps := s.bumps, mem := s.mem.filter (fun c => host c.1), poison := s.poison.filter (fun w => host (w * 32)),
    msix := s.msix, outbound := s.outbound, hostAbsent := s.hostAbsent, agenda := s.agenda, fresh := s.fresh, rr := s.rr }

end Sys2Proof.Machine
end

