-- ==== Sys2Proof/Machine/Dispatch.lean ====
section
/-! DEFINITION. The dispatch of an instruction to its meaning. -/

namespace Sys2Proof.Machine

def exec (i : Instr) (s : State) : Host.Outcome State Fault Refusal :=
  match i with
  | .nop h => Sys2Proof.Machine.execNop h s
  | .bra h off => Sys2Proof.Machine.execBra h off s
  | .brx h a => Sys2Proof.Machine.execBrx h a s
  | .call h off => Sys2Proof.Machine.execCall h off s
  | .callx h a => Sys2Proof.Machine.execCallx h a s
  | .ret h => Sys2Proof.Machine.execRet h s
  | .exit h => Sys2Proof.Machine.execExit h s
  | .rep cnt sd sa sb sc => Sys2Proof.Machine.execRep cnt sd sa sb sc s
  | .trap h k => Sys2Proof.Machine.execTrap h k s
  | .bkpt h k => Sys2Proof.Machine.execBkpt h k s
  | .isync h => Sys2Proof.Machine.execIsync h s
  | .nap h b => Sys2Proof.Machine.execNap h b s
  | .yield h => Sys2Proof.Machine.execYield h s
  | .resume h => Sys2Proof.Machine.execResume h s
  | .tret h => Sys2Proof.Machine.execTret h s
  | .srd h d r => Sys2Proof.Machine.execSrd h d r s
  | .swr h r a => Sys2Proof.Machine.execSwr h r a s
  | .iadd h m d a b => Sys2Proof.Machine.execIadd h m d a b s
  | .isub h m d a b => Sys2Proof.Machine.execIsub h m d a b s
  | .iaddc h u d a b p => Sys2Proof.Machine.execIaddc h u d a b p s
  | .ineg h sat d a => Sys2Proof.Machine.execIneg h sat d a s
  | .iabs h sat d a => Sys2Proof.Machine.execIabs h sat d a s
  | .imul h m d a b => Sys2Proof.Machine.execImul h m d a b s
  | .imulh h u d a b => Sys2Proof.Machine.execImulh h u d a b s
  | .imad h m d a b c => Sys2Proof.Machine.execImad h m d a b c s
  | .imadw h m d a b c => Sys2Proof.Machine.execImadw h m d a b c s
  | .iadd64 h m d a b => Sys2Proof.Machine.execIadd64 h m d a b s
  | .isub64 h m d a b => Sys2Proof.Machine.execIsub64 h m d a b s
  | .imul64 h m d a b => Sys2Proof.Machine.execImul64 h m d a b s
  | .imin h u d a b => Sys2Proof.Machine.execImin h u d a b s
  | .imax h u d a b => Sys2Proof.Machine.execImax h u d a b s
  | .isad h m d a b c => Sys2Proof.Machine.execIsad h m d a b c s
  | .idot4 h m bn d a b c => Sys2Proof.Machine.execIdot4 h m bn d a b c s
  | .idot2 h m bn d a b c => Sys2Proof.Machine.execIdot2 h m bn d a b c s
  | .lea h sh d a b => Sys2Proof.Machine.execLea h sh d a b s
  | .lea64 h u sh d a b => Sys2Proof.Machine.execLea64 h u sh d a b s
  | .lgate h d a b c tab => Sys2Proof.Machine.execLgate h d a b c tab s
  | .shl h d a b => Sys2Proof.Machine.execShl h d a b s
  | .shr h d a b => Sys2Proof.Machine.execShr h d a b s
  | .sar h d a b => Sys2Proof.Machine.execSar h d a b s
  | .rotl h d a b => Sys2Proof.Machine.execRotl h d a b s
  | .shf h right d a b c => Sys2Proof.Machine.execShf h right d a b c s
  | .popc h d a => Sys2Proof.Machine.execPopc h d a s
  | .clz h d a => Sys2Proof.Machine.execClz h d a s
  | .ctz h d a => Sys2Proof.Machine.execCtz h d a s
  | .brev h d a => Sys2Proof.Machine.execBrev h d a s
  | .bfe h u d a b => Sys2Proof.Machine.execBfe h u d a b s
  | .bfi h d a b c => Sys2Proof.Machine.execBfi h d a b c s
  | .prmt h d a b c => Sys2Proof.Machine.execPrmt h d a b c s
  | .clmul h d a b => Sys2Proof.Machine.execClmul h d a b s
  | .clmulh h d a b => Sys2Proof.Machine.execClmulh h d a b s
  | .clmulw h d a b => Sys2Proof.Machine.execClmulw h d a b s
  | .isetp h c p a b => Sys2Proof.Machine.execIsetp h c p a b s
  | .fsetp h c p a b x => Sys2Proof.Machine.execFsetp h c p a b x s
  | .dsetp h c p a b x => Sys2Proof.Machine.execDsetp h c p a b x s
  | .pgate h pd pa pb pc tab => Sys2Proof.Machine.execPgate h pd pa pb pc tab s
  | .sel h d a b pc => Sys2Proof.Machine.execSel h d a b pc s
  | .p2v h d => Sys2Proof.Machine.execP2v h d s
  | .v2p h a b => Sys2Proof.Machine.execV2p h a b s
  | .mov h d a => Sys2Proof.Machine.execMov h d a s
  | .movi h d v => Sys2Proof.Machine.execMovi h d v s
  | .mov64i h d v => Sys2Proof.Machine.execMov64i h d v s
  | .fadd h r d a b x => Sys2Proof.Machine.execFadd h r d a b x s
  | .fsub h r d a b x => Sys2Proof.Machine.execFsub h r d a b x s
  | .fmul h r d a b x => Sys2Proof.Machine.execFmul h r d a b x s
  | .ffma h r d a b c x => Sys2Proof.Machine.execFfma h r d a b c x s
  | .fmin h d a b x => Sys2Proof.Machine.execFmin h d a b x s
  | .fmax h d a b x => Sys2Proof.Machine.execFmax h d a b x s
  | .frnd h r d a x => Sys2Proof.Machine.execFrnd h r d a x s
  | .fclass h d a => Sys2Proof.Machine.execFclass h d a s
  | .fexp h d a => Sys2Proof.Machine.execFexp h d a s
  | .fldexp h r d a b x => Sys2Proof.Machine.execFldexp h r d a b x s
  | .hadd2 h r d a b x => Sys2Proof.Machine.execHadd2 h r d a b x s
  | .hmul2 h r d a b x => Sys2Proof.Machine.execHmul2 h r d a b x s
  | .hfma2 h r d a b c x => Sys2Proof.Machine.execHfma2 h r d a b c x s
  | .bfma2 h r d a b c x => Sys2Proof.Machine.execBfma2 h r d a b c x s
  | .dadd h r d a b x => Sys2Proof.Machine.execDadd h r d a b x s
  | .dmul h r d a b x => Sys2Proof.Machine.execDmul h r d a b x s
  | .dfma h r d a b c x => Sys2Proof.Machine.execDfma h r d a b c x s
  | .dmin h d a b x => Sys2Proof.Machine.execDmin h d a b x s
  | .dmax h d a b x => Sys2Proof.Machine.execDmax h d a b x s
  | .frcp h ftz d a x => Sys2Proof.Machine.execFrcp h ftz d a x s
  | .frsq h ftz d a x => Sys2Proof.Machine.execFrsq h ftz d a x s
  | .fsqrt h ftz d a x => Sys2Proof.Machine.execFsqrt h ftz d a x s
  | .fex2 h ftz d a x => Sys2Proof.Machine.execFex2 h ftz d a x s
  | .flg2 h ftz d a x => Sys2Proof.Machine.execFlg2 h ftz d a x s
  | .cvt h r dt st na aa d a => Sys2Proof.Machine.execCvt h r dt st na aa d a s
  | .cvtn h r st f na aa d a => Sys2Proof.Machine.execCvtn h r st f na aa d a s
  | .cvtw h r dt f d a => Sys2Proof.Machine.execCvtw h r dt f d a s
  | .pack4 h w4 d a => Sys2Proof.Machine.execPack4 h w4 d a s
  | .unpack4 h w4 d a => Sys2Proof.Machine.execUnpack4 h w4 d a s
  | .shfl h mode d a b => Sys2Proof.Machine.execShfl h mode d a b s
  | .vote h mode d p => Sys2Proof.Machine.execVote h mode d p s
  | .redw h op d a => Sys2Proof.Machine.execRedw h op d a s
  | .scanw h op excl d a => Sys2Proof.Machine.execScanw h op excl d a s
  | .matchv h all d a => Sys2Proof.Machine.execMatchv h all d a s
  | .active h d => Sys2Proof.Machine.execActive h d s
  | .wsync h b => Sys2Proof.Machine.execWsync h b s
  | .ld h m d a off x => Sys2Proof.Machine.execLd h m d a off x s
  | .st h w a b cm off x => Sys2Proof.Machine.execSt h w a b cm off x s
  | .lds h m d a off => Sys2Proof.Machine.execLds h m d a off s
  | .sts h w a b off => Sys2Proof.Machine.execSts h w a b off s
  | .stx h w a b off x => Sys2Proof.Machine.execStx h w a b off x s
  | .pref h a off => Sys2Proof.Machine.execPref h a off s
  | .cctl h mode a off => Sys2Proof.Machine.execCctl h mode a off s
  | .icinv h a off => Sys2Proof.Machine.execIcinv h a off s
  | .atom h op d a b off x => Sys2Proof.Machine.execAtom h op d a b off x s
  | .atomc h dbl d a b c off x => Sys2Proof.Machine.execAtomc h dbl d a b c off x s
  | .red h op a b off x => Sys2Proof.Machine.execRed h op a b off x s
  | .fence h cm x => Sys2Proof.Machine.execFence h cm x s
  | .waita h c d a b => Sys2Proof.Machine.execWaita h c d a b s
  | .bar h mode swap n => Sys2Proof.Machine.execBar h mode swap n s
  | .barsv h d n => Sys2Proof.Machine.execBarsv h d n s
  | .barld h n b => Sys2Proof.Machine.execBarld h n b s
  | .bpv h stale d a hd c => Sys2Proof.Machine.execBpv h stale d a hd c s
  | .bvm h vm a hd => Sys2Proof.Machine.execBvm h vm a hd s
  | .brst h hd => Sys2Proof.Machine.execBrst h hd s
  | .vmpop h d vm => Sys2Proof.Machine.execVmpop h d vm s
  | .vmtst h p vm b => Sys2Proof.Machine.execVmtst h p vm b s
  | .vmnext h d vm b => Sys2Proof.Machine.execVmnext h d vm b s
  | .mma h t a b k fa fb g => Sys2Proof.Machine.execMma h t a b k fa fb g s
  | .mmas h s48 t a b c k fa fb g => Sys2Proof.Machine.execMmas h s48 t a b c k fa fb g s
  | .mmz h t => Sys2Proof.Machine.execMmz h t s
  | .mmrd h cv d t b => Sys2Proof.Machine.execMmrd h cv d t b s
  | .mmwr h cv t a b => Sys2Proof.Machine.execMmwr h cv t a b s
  | .mmld h cv t a g => Sys2Proof.Machine.execMmld h cv t a g s
  | .mmst h cv t a colour g => Sys2Proof.Machine.execMmst h cv t a colour g s
  | .mmwait h t => Sys2Proof.Machine.execMmwait h t s
  | .cmprs h s48 d a b k fa colour => Sys2Proof.Machine.execCmprs h s48 d a b k fa colour s
  | .qpush h q a => Sys2Proof.Machine.execQpush h q a s
  | .qpop h d q => Sys2Proof.Machine.execQpop h d q s
  | .job h a => Sys2Proof.Machine.execJob h a s
  | .gset h g p => Sys2Proof.Machine.execGset h g p s
  | .draw h b => Sys2Proof.Machine.execDraw h b s
  | .burn h b => Sys2Proof.Machine.execBurn h b s
  | .shunt h p b => Sys2Proof.Machine.execShunt h p b s
  | .spawn h b => Sys2Proof.Machine.execSpawn h b s
  | .sendw h a b => Sys2Proof.Machine.execSendw h a b s
  | .takeTrap core slot => Sys2Proof.Machine.execTakeTrap core slot s
  | .splitHang core slot => Sys2Proof.Machine.execSplitHang core slot s
  | .watchdog core slot => Sys2Proof.Machine.execWatchdog core slot s
  | .napWake core slot => Sys2Proof.Machine.execNapWake core slot s
  | .loadComplete core slot op => Sys2Proof.Machine.execLoadComplete core slot op s
  | .loadServe core slot op => Sys2Proof.Machine.execLoadServe core slot op s
  | .writeArrival msg => Sys2Proof.Machine.execWriteArrival msg s
  | .heldWriteApply msg => Sys2Proof.Machine.execHeldWriteApply msg s
  | .writeNoticeArrival msg => Sys2Proof.Machine.execWriteNoticeArrival msg s
  | .atomicPerform msg => Sys2Proof.Machine.execAtomicPerform msg s
  | .atomicComplete core slot op => Sys2Proof.Machine.execAtomicComplete core slot op s
  | .dieStoreEviction die line => Sys2Proof.Machine.execDieStoreEviction die line s
  | .cctlWbAck core slot => Sys2Proof.Machine.execCctlWbAck core slot s
  | .icinvComplete core slot => Sys2Proof.Machine.execIcinvComplete core slot s
  | .stxDelivery key => Sys2Proof.Machine.execStxDelivery key s
  | .swapComplete key => Sys2Proof.Machine.execSwapComplete key s
  | .barrierArrivalSignal key => Sys2Proof.Machine.execBarrierArrivalSignal key s
  | .pageWalkComplete core slot op malformed => Sys2Proof.Machine.execPageWalkComplete core slot op malformed s
  | .faultBufferSlotFree die => Sys2Proof.Machine.execFaultBufferSlotFree die s
  | .tlbShootdownComplete ctx => Sys2Proof.Machine.execTlbShootdownComplete ctx s
  | .engineAdmit core => Sys2Proof.Machine.execEngineAdmit core s
  | .engineOpStart blk op => Sys2Proof.Machine.execEngineOpStart blk op s
  | .engineOpComplete blk op => Sys2Proof.Machine.execEngineOpComplete blk op s
  | .engineFaultResume blk op => Sys2Proof.Machine.execEngineFaultResume blk op s
  | .blockLimitRelease core slot => Sys2Proof.Machine.execBlockLimitRelease core slot s
  | .qpopWake core slot op => Sys2Proof.Machine.execQpopWake core slot op s
  | .waitaSatisfy core slot op => Sys2Proof.Machine.execWaitaSatisfy core slot op s
  | .boardPostRequest key => Sys2Proof.Machine.execBoardPostRequest key s
  | .boardViewRequest key => Sys2Proof.Machine.execBoardViewRequest key s
  | .boardResetRequest key => Sys2Proof.Machine.execBoardResetRequest key s
  | .boardViewDelivery key => Sys2Proof.Machine.execBoardViewDelivery key s
  | .blockPlace die => Sys2Proof.Machine.execBlockPlace die s
  | .coopPlace grid => Sys2Proof.Machine.execCoopPlace grid s
  | .stealRequest victim => Sys2Proof.Machine.execStealRequest victim s
  | .stealReply thief => Sys2Proof.Machine.execStealReply thief s
  | .stealRetry thief => Sys2Proof.Machine.execStealRetry thief s
  | .fabricStepChange domain occ => Sys2Proof.Machine.execFabricStepChange domain occ s
  | .workPacketArrival key => Sys2Proof.Machine.execWorkPacketArrival key s
  | .dispatchPacket die => Sys2Proof.Machine.execDispatchPacket die s
  | .childRangeAccept die => Sys2Proof.Machine.execChildRangeAccept die s
  | .preemptRaise grid => Sys2Proof.Machine.execPreemptRaise grid s
  | .blockLeave blk => Sys2Proof.Machine.execBlockLeave blk s
  | .arrivalLogAppend blk => Sys2Proof.Machine.execArrivalLogAppend blk s
  | .blockRestorePlace blk => Sys2Proof.Machine.execBlockRestorePlace blk s
  | .gridComplete grid => Sys2Proof.Machine.execGridComplete grid s
  | .columnWindowBoundary col => Sys2Proof.Machine.execColumnWindowBoundary col s
  | .estimateRescale col feed => Sys2Proof.Machine.execEstimateRescale col feed s
  | .throttleEngage col bnd => Sys2Proof.Machine.execThrottleEngage col bnd s
  | .throttleStepChange col layer => Sys2Proof.Machine.execThrottleStepChange col layer s
  | .stackMismatch col bnd => Sys2Proof.Machine.execStackMismatch col bnd s
  | .stepChange col => Sys2Proof.Machine.execStepChange col s
  | .boostUpdate col => Sys2Proof.Machine.execBoostUpdate col s
  | .boostRise col => Sys2Proof.Machine.execBoostRise col s
  | .thermalCeilingTick col => Sys2Proof.Machine.execThermalCeilingTick col s
  | .sensorSample col mv temp => Sys2Proof.Machine.execSensorSample col mv temp s
  | .sensorStuck col sensor => Sys2Proof.Machine.execSensorStuck col sensor s
  | .sensorRevalidate col sensor => Sys2Proof.Machine.execSensorRevalidate col sensor s
  | .openBumpEvent col sensor => Sys2Proof.Machine.execOpenBumpEvent col sensor s
  | .regulatorAdjust die => Sys2Proof.Machine.execRegulatorAdjust die s
  | .columnGate col => Sys2Proof.Machine.execColumnGate col s
  | .columnPowerStage col => Sys2Proof.Machine.execColumnPowerStage col s
  | .caravanArrival key => Sys2Proof.Machine.execCaravanArrival key s
  | .caravanPromotion core merged => Sys2Proof.Machine.execCaravanPromotion core merged s
  | .travelReplicaGrant grid => Sys2Proof.Machine.execTravelReplicaGrant grid s
  | .floidFlitReceive link flit => Sys2Proof.Machine.execFloidFlitReceive link flit s
  | .floidNakReceive link seq => Sys2Proof.Machine.execFloidNakReceive link seq s
  | .floidLinkRetrain link => Sys2Proof.Machine.execFloidLinkRetrain link s
  | .floidLinkFail link => Sys2Proof.Machine.execFloidLinkFail link s
  | .inboundPostedWrite fn off bytes => Sys2Proof.Machine.execInboundPostedWrite fn off bytes s
  | .pieceAcknowledge num line => Sys2Proof.Machine.execPieceAcknowledge num line s
  | .inboundRead fn off n => Sys2Proof.Machine.execInboundRead fn off n s
  | .nonpostedRelease fn => Sys2Proof.Machine.execNonpostedRelease fn s
  | .sqtail fn q v => Sys2Proof.Machine.execSqtail fn q v s
  | .cqhead fn q v => Sys2Proof.Machine.execCqhead fn q v s
  | .queueRegisterWrite fn off v => Sys2Proof.Machine.execQueueRegisterWrite fn off v s
  | .completionPost fn q => Sys2Proof.Machine.execCompletionPost fn q s
  | .queryCapabilities fn q => Sys2Proof.Machine.execQueryCapabilities fn q s
  | .queryCertificates fn q => Sys2Proof.Machine.execQueryCertificates fn q s
  | .queryFigures fn q => Sys2Proof.Machine.execQueryFigures fn q s
  | .attest fn q => Sys2Proof.Machine.execAttest fn q s
  | .healthStatus fn q => Sys2Proof.Machine.execHealthStatus fn q s
  | .healthEvents fn q => Sys2Proof.Machine.execHealthEvents fn q s
  | .healthEnergy fn q => Sys2Proof.Machine.execHealthEnergy fn q s
  | .healthSetPowerCap fn q => Sys2Proof.Machine.execHealthSetPowerCap fn q s
  | .healthRecalibrate fn q => Sys2Proof.Machine.execHealthRecalibrate fn q s
  | .healthCoreReset fn q => Sys2Proof.Machine.execHealthCoreReset fn q s
  | .ctxOpen fn q => Sys2Proof.Machine.execCtxOpen fn q s
  | .ctxClose fn q => Sys2Proof.Machine.execCtxClose fn q s
  | .map fn q => Sys2Proof.Machine.execMap fn q s
  | .unmap fn q => Sys2Proof.Machine.execUnmap fn q s
  | .faultReplyRetry fn q => Sys2Proof.Machine.execFaultReplyRetry fn q s
  | .faultReplyFail fn q => Sys2Proof.Machine.execFaultReplyFail fn q s
  | .launch fn q => Sys2Proof.Machine.execLaunch fn q s
  | .launchAccept grid => Sys2Proof.Machine.execLaunchAccept grid s
  | .preempt fn q => Sys2Proof.Machine.execPreempt fn q s
  | .restore fn q => Sys2Proof.Machine.execRestore fn q s
  | .boardMake fn q => Sys2Proof.Machine.execBoardMake fn q s
  | .debugAttach fn q => Sys2Proof.Machine.execDebugAttach fn q s
  | .debugDetach fn q => Sys2Proof.Machine.execDebugDetach fn q s
  | .debugHalt fn q => Sys2Proof.Machine.execDebugHalt fn q s
  | .debugStep fn q => Sys2Proof.Machine.execDebugStep fn q s
  | .debugContinue fn q => Sys2Proof.Machine.execDebugContinue fn q s
  | .coreReset die => Sys2Proof.Machine.execCoreReset die s
  | .dieRecalibrate die => Sys2Proof.Machine.execDieRecalibrate die s
  | .longLatencyCompletion core slot op => Sys2Proof.Machine.execLongLatencyCompletion core slot op s
  | .instructionFetchFill core line => Sys2Proof.Machine.execInstructionFetchFill core line s
  | .floidLinkTrained link => Sys2Proof.Machine.execFloidLinkTrained link s
  | .frameBoundary => Sys2Proof.Machine.execFrameBoundary s
  | .powerCapSample => Sys2Proof.Machine.execPowerCapSample s
  | .powerCapRelax => Sys2Proof.Machine.execPowerCapRelax s
  | .powerGood => Sys2Proof.Machine.execPowerGood s
  | .glazeTransition => Sys2Proof.Machine.execGlazeTransition s
  | .powerLoss => Sys2Proof.Machine.execPowerLoss s

end Sys2Proof.Machine
end

