-- ==== Sys2Proof/Machine/World.lean ====
section
/-! DEFINITION. What the outside world does to the machine: time, the host's own memory, soft errors, training, devices
behind the CXL ports, virtual functions, and what a loop buffer captures (10 R207, R211; 07 R319; 20 R295, R297, R301, R309). -/

namespace Sys2Proof.Machine

/-- A step of the machine and its surroundings, as against an instruction of a program, which only a warp issues. -/
def isStep (i : Instr) : Bool := i.raw.len == 3

/-- The source number of what a home logs (20 R313). -/
def homeSource (d : Nat) : Nat := if d = 4 then 0xFFFF else 0x100 + d

/-- A soft error in memory: logged, and an uncorrectable one poisons its ECC word (10 R211). -/
def State.softError (s : State) (pa : Nat) (uncorrectable : Bool) : State :=
  let d := homeOf pa
  let s := s.logEvent d (Event.mk' s 0xFFFF (homeSource d) (if uncorrectable then 0x81 else 0x80) 0 pa 0)
  if uncorrectable && !s.poisoned pa then { s with poison := pa / 32 :: s.poison } else s

/-- An error in the scratchpad of a block, or, past it, in its shadow banks: logged by its die, and an uncorrectable one poisons
its word (10 R211). -/
def State.poolError (s : State) (bk off : Nat) (uncorrectable : Bool) : State :=
  match s.blk? bk with
  | none => s
  | some b =>
    if b.scratchBytes + b.shadowBytes ≤ off || !b.resident then s
    else
      let cx := match tget s.grids b.grid with | some g => g.ctx | none => 0xFFFF
      let s := s.logEvent (coreDie b.core) (Event.mk' s cx b.core (if uncorrectable then 0x81 else 0x80) 0 off 0)
      let word := (if off < b.scratchBytes then off else off - b.scratchBytes) / 8
      if !uncorrectable then s
      else if off < b.scratchBytes then s.modBlock bk (fun b => { b with spoison := (word :: b.spoison).eraseDups })
      else s.modBlock bk (fun b => { b with shPoison := (word :: b.shPoison).eraseDups })

/-- An error in the store of a die, at a line that is homed on it or that it holds a copy of. -/
def State.storeError (s : State) (die pa : Nat) (uncorrectable : Bool) : State :=
  if homeOf pa != die && (s.copyOf die pa).isNone then s
  else
    let s := s.logEvent die (Event.mk' s 0xFFFF (homeSource die) (if uncorrectable then 0x81 else 0x80) 0 pa 0)
    if uncorrectable && !(s.die die).bad.contains (pa / 8) then s.modDie die (fun d => { d with bad := pa / 8 :: d.bad }) else s

/-- The devices behind a CXL port, placed in ascending order, each from the next 256 MiB boundary of the port's 1 TiB window;
the size of one past the eighth, or that does not fit, is 0 (20 R301). -/
def placeDevices (from_ n : Nat) (sizes : List Nat) : List (Nat × Nat) :=
  match sizes with
  | [] => []
  | x :: rest =>
    let base := ceilDiv from_ 0x10000000 * 0x10000000
    if n < 8 && base + x ≤ 2 ^ 40 then (base, x) :: placeDevices (base + x) (n + 1) rest
    else (base, 0) :: placeDevices from_ (n + 1) rest

/-- The bits of the devices of a port that could not be placed. -/
def unplaced (port : Nat) (sizes : List Nat) (placed : List (Nat × Nat)) : Nat :=
  ((List.range (min 8 sizes.length)).map (fun k => if nth sizes k 0 != 0 && (nth placed k (0, 0)).2 = 0 then 2 ^ (8 * port + k) else 0)).sum

/-- Firmware finds the devices behind the four ports, before any context is open. -/
def State.findDevices (s : State) (sizes : List (List Nat)) : State :=
  if !s.ctxs.isEmpty then s
  else
    let placed := (List.range 4).map (fun p => placeDevices 0 0 (nth sizes p []))
    { s with cxl := placed, cxlBad := ((List.range 4).map (fun p => unplaced p (nth sizes p []) (nth placed p []))).sum }

/-- The host's own translation of a page of its memory goes, or comes (20 R297). -/
def State.hostPage (s : State) (page : Nat) (present : Bool) : State :=
  { s with hostAbsent := if present then s.hostAbsent.filter (fun p => p != page)
                         else if s.hostAbsent.contains page then s.hostAbsent else page :: s.hostAbsent }

/-- The table entry of a page becomes malformed or unreadable (10 R207). -/
def State.tearEntry (s : State) (cx page : Nat) : State :=
  s.modCtx cx (fun c => { c with torn := if c.torn.contains page then c.torn else page :: c.torn })

/-- What a turn of the outside world changes. -/
def State.world (s : State) (t : Turn) : State :=
  match t with
  | .issue .. | .event _ => s
  | .tick n => { s with tsc := s.tsc + n }
  | .hostMem addr bytes => if addr + bytes.length ≤ hostEnd - hostBase then s.hostWrite addr bytes else s
  | .softError pa u => if s.backed pa 1 then s.softError pa u else s
  | .poolError bk off u => s.poolError bk off u
  | .storeError die pa u => if die < 5 && s.backed pa 1 then s.storeError die pa u else s
  | .tornEntry cx page => s.tearEntry cx page
  | .hostPage page present => s.hostPage page present
  | .capture core slot lo n => s.capture core slot lo n
  | .prefetch core slot => s.prefetch core slot
  | .trained => if s.stage == .off then s else { s with trained := true, g7 := g7Limit }
  | .cxl sizes => s.findDevices sizes
  | .functions n => { s with vfs := min n 255 }
  | .coreError die => if die < 4 then s.askReset die else s

/- What moves next when the agenda says nothing: every agent in turn (log entry 3). -/

def warpMoves (x : Nat × Warp) : List Instr :=
  let c := x.1 / 64
  let l := x.1 % 64
  [.takeTrap c l, .splitHang c l, .watchdog c l, .napWake c l, .cctlWbAck c l, .icinvComplete c l, .blockLimitRelease c l]
    ++ x.2.ops.flatMap (fun o => [.pageWalkComplete c l o.id false, .loadServe c l o.id, .loadComplete c l o.id,
      .longLatencyCompletion c l o.id, .atomicComplete c l o.id, .waitaSatisfy c l o.id, .qpopWake c l o.id])

def msgMoves (m : Msg) : List Instr :=
  [.writeArrival m.key, .heldWriteApply m.key, .writeNoticeArrival m.key, .atomicPerform m.key]

def boardMoves (r : BReq) : List Instr :=
  [.boardPostRequest r.key, .boardViewRequest r.key, .boardResetRequest r.key, .boardViewDelivery r.key]

def blockMoves (x : Nat × Block) : List Instr :=
  [.engineAdmit x.2.core, .blockLeave x.1, .arrivalLogAppend x.1, .blockRestorePlace x.1]
    ++ x.2.adm.flatMap (fun o => [.engineOpStart x.1 o.id, .engineOpComplete x.1 o.id, .engineFaultResume x.1 o.id])

def gridMoves (gk : Nat) : List Instr :=
  [.launchAccept gk, .coopPlace gk, .travelReplicaGrant gk, .preemptRaise gk, .blockRestorePlace 0, .gridComplete gk]

def dieMoves (d : Nat) : List Instr :=
  [.faultBufferSlotFree d, .blockPlace d, .stealRequest d, .stealReply d, .stealRetry d, .dispatchPacket d, .childRangeAccept d,
   .regulatorAdjust d, .coreReset d, .dieRecalibrate d]

def columnMoves (fresh c : Nat) : List Instr :=
  let mv := (List.range 16).map (fun i => (Config.freeNat (fresh + i) : Int))
  let temp := (List.range 4).map (fun i => (Config.freeNat (fresh + 16 + i) : Int))
  [.columnWindowBoundary c, .estimateRescale c (Config.freeNat fresh), .stepChange c, .boostUpdate c, .boostRise c, .thermalCeilingTick c,
   .sensorSample c mv temp, .columnGate c, .columnPowerStage c]
    ++ (List.range 3).flatMap (fun b => [.throttleEngage c b, .stackMismatch c b])
    ++ (List.range 4).map (fun l => .throttleStepChange c l)
    ++ (List.range 20).flatMap (fun n => [.sensorStuck c n, .sensorRevalidate c n, .openBumpEvent c n])

/-- The step that executes a command. -/
def commandMove (fn q : Nat) (c : Cmd) : List Instr :=
  match c.opc, c.word 2 with
  | 0x01, 0 => [.queryCapabilities fn q]
  | 0x01, 1 => [.queryCertificates fn q]
  | 0x01, _ => [.queryFigures fn q]
  | 0x02, _ => [.attest fn q]
  | 0x03, 0 => [.healthStatus fn q]
  | 0x03, 1 => [.healthEvents fn q]
  | 0x03, 2 => [.healthEnergy fn q]
  | 0x03, 3 => [.healthSetPowerCap fn q]
  | 0x03, 4 => [.healthRecalibrate fn q]
  | 0x03, _ => [.healthCoreReset fn q]
  | 0x10, _ => [.ctxOpen fn q]
  | 0x11, _ => [.ctxClose fn q]
  | 0x12, _ => [.map fn q]
  | 0x13, _ => [.unmap fn q]
  | 0x14, _ => [if c.word 6 = 0 then .faultReplyRetry fn q else .faultReplyFail fn q]
  | 0x20, _ => [.launch fn q]
  | 0x21, _ => [.preempt fn q]
  | 0x22, _ => [.restore fn q]
  | 0x30, _ => [.boardMake fn q]
  | 0x31, 0 => [.debugAttach fn q]
  | 0x31, 1 => [.debugDetach fn q]
  | 0x31, 2 => [.debugHalt fn q]
  | 0x31, 3 => [.debugStep fn q]
  | 0x31, _ => [.debugContinue fn q]
  | _, _ => []

def queueMoves (x : Nat × QPair) : List Instr :=
  let fn := x.1 / 16
  let q := x.1 % 16
  [.completionPost fn q, .nonpostedRelease fn] ++ (x.2.cmds.take 1 ++ x.2.begun).flatMap (commandMove fn q)

def inboundMoves (x : Inbound) : List Instr := x.left.map (fun l => .pieceAcknowledge x.num l)

/-- Every step that an agent of the machine could take. -/
def State.moves (s : State) : List Instr :=
  if s.stage == .off then [.powerGood]
  else
    [.glazeTransition, .frameBoundary, .powerCapSample, .powerCapRelax]
      ++ s.warps.flatMap warpMoves ++ s.orphans.map (fun o => if o.2.1 = 64 then .engineOpComplete 0 o.2.2 else .loadComplete o.1 o.2.1 o.2.2) ++ s.msgs.flatMap msgMoves
      ++ s.stxs.map (fun m => .stxDelivery m.key) ++ s.swaps.map (fun m => .swapComplete m.key)
      ++ s.arrs.map (fun m => .barrierArrivalSignal m.key) ++ s.breqs.flatMap boardMoves ++ s.blocks.flatMap blockMoves
      ++ s.grids.flatMap (fun x => gridMoves x.1) ++ s.ctxs.map (fun x => .tlbShootdownComplete x.1)
      ++ s.packets.map (fun p => .workPacketArrival p.key) ++ s.caravans.map (fun c => .caravanArrival c.key)
      ++ ((List.range Config.numCores).filter (fun c => (s.core c).replica.isSome)).map (fun c => .caravanPromotion c (Config.freeNat s.fresh))
      ++ s.queues.flatMap queueMoves ++ s.inbound.flatMap inboundMoves ++ s.hreads.map (fun r => .nonpostedRelease r.fn)
      ++ (List.range 8).map (fun k => .floidLinkRetrain k) ++ (List.range 4).flatMap dieMoves ++ [.faultBufferSlotFree 4]
      ++ (List.range 5).map (fun d => .fabricStepChange d (Config.freeNat s.fresh)) ++ (List.range 64).flatMap (columnMoves s.fresh)

/-- With an empty agenda, partitions and agents take turns. -/
def State.defaultTurn (s : State) : Turn :=
  let i := s.rr / 2
  if s.rr % 2 = 0 && s.stage != .off then .issue (i / 4 % 256) (i % 4)
  else
    let m := s.moves
    .event ((m[i % max 1 m.length]?).getD .powerGood)

/-- A column at a window boundary whose step is to change there (14 R248). -/
def State.dueStep (s : State) : Option Nat :=
  if s.stage == .off then none
  else (List.range 64).find? (fun k => let c := s.col k
    c.windowAt == s.tsc && c.stepAt + 1000 ≤ s.tsc && c.target (s.colBisque k) != c.step)

/-- The next turn, and the state in which it is taken. With an empty agenda time advances by a tick, but not past a step
that is due at a window boundary. -/
def State.nextTurn (s : State) : Turn × State :=
  match s.agenda with
  | t :: rest => (t, { s with agenda := rest })
  | [] =>
    match s.dueStep with
    | some k => (.event (.stepChange k), s)
    | none => (s.defaultTurn, { s.tickFresh with tsc := s.tsc + 1, rr := s.rr + 1 })

/- A program placed from outside (log entry 5). -/

def codeBase : Nat := 0x10000000

/-- A launch that binds nothing and forbids nothing: every feature, 512 registers with ceiling G, one warp. -/
def plainLaunch : Launch :=
  { entry := BitVec.ofNat 64 codeBase, features := capsGlaze, bwarps := 1, csize := 1, gblocks := 1, poolw := 0x40041008, flags := 0, ceilt := 0,
    slots := List.replicate 8 0x40000134, boards := List.replicate 16 0, saveb := 0, handler := 0, pclass := 0, spawna := 0,
    arrcap := 0, prio := 0, bmaskt := 0, spilla := 0, spilln := 0, segmap := 0, args := [] }

def plainCtx : Ctx :=
  { fn := 0, cls := 0, wdog := Config.defaultWatchdogMs, saveBase := 0, saveLen := 0, pasid := 0, win := false, wbase := 0, opened := 0,
    maps := [{ va := 0, pa := 0, size := 2 ^ 34, attr := 0x87 }], shoot := [], torn := [], energy := 0, m4 := zeros 48, dbg := false,
    stepping := [] }

def plainGrid : Grid :=
  { ctx := 0, rec_ := plainLaunch, ceils := List.replicate 512 .g, bmasks := [], state := .running, fn := 0, q := 0, cid := 0,
    order := 0, after := [], accepted := true, held := false, childNext := 0, err := false, killed := false, bars := [], frames := [],
    segs := [], ring := [], ringClk := .zero, ringKeys := [], pre := [], preRefused := 0, preCid := none, res := [], resCid := none,
    launchVec := .zero, launchHs := 0, clk := .zero }

/-- Words in memory, and one warp in slot 0 of core 0 whose 32 threads stand at them, which issues next. -/
def State.placeCode (s : State) (bs : List Byte) : State :=
  let gk := s.nextKey
  let bk := s.nextKey + 1
  let line := lineOf codeBase
  let quarter0 (x : Nat × Warp) : Bool := x.1 / 64 == 0 && x.1 % 4 == 0
  { s with
    stage := .glaze, mem := putBytes s.mem ((List.range bs.length).map (fun i => (codeBase + i, nth bs i 0))),
    poison := s.poison.filter (fun p => p != codeBase / 32),
    dies := (lput s.dies 0 Die.init (fun d => { d with copies := tdel d.copies line, tlb := d.tlb.filter (fun e => e.1 != 0) })).map
      (fun d => { d with bad := d.bad.filter (fun w => w / 16 != line) }),
    cols := lput s.cols 0 Column.init (fun c =>
      { c with gated := false, powerStage := 4, powerAt := 0, step := if c.ratio = 2 then min c.step 5 else c.step }),
    cores := lput s.cores 0 CoreSt.init (fun c =>
      { c with istore := tdel c.istore line, loops := lput c.loops 0 none (fun _ => none), tlb := c.tlb.filter (fun e => e.1 != 0),
               ptlbs := c.ptlbs.map (fun l => l.filter (fun e => e.1 != 0)) }),
    ctxs := tput s.ctxs 0 plainCtx, grids := tput s.grids gk plainGrid,
    blocks := tput s.blocks bk (Block.start gk 0 0 0 1 0 plainLaunch.poolw [] .zero s.tsc),
    warps := tput (s.warps.filter (fun x => !quarter0 x)) 0 (Warp.start bk 0 true 512 [] (BitVec.ofNat 64 codeBase) .zero s.issueCount),
    nextKey := s.nextKey + 2, agenda := .issue 0 0 :: s.agenda }

end Sys2Proof.Machine
end

