-- ==== Sys2Proof/Machine/Turn.lean ====
section
/-! DEFINITION. What a turn does: an issue cycle of a partition, a step of another agent, or what the outside world does
(01 R19; log entry 3). -/

namespace Sys2Proof.Machine

/-- The instruction of the issuing context did not issue: it waits for something that the choice could not see. -/
def State.stalledBy (before after : State) : Bool :=
  let k := warpKey before.cur.core before.cur.slot
  after.issueCount == before.issueCount && tget after.warps k == tget before.warps k

/-- One choice of a partition among its groups but those of a list, with the slot that issued. A group whose instruction waits
is not ready, and the choice goes on among the others, those of its warp too (01 R19). -/
def State.issueOne (s : State) (core quarter : Nat) (without : List (Nat × Nat)) (n : Nat) : Out × Option Nat :=
  match n with
  | 0 => (.next s, none)
  | n + 1 =>
    match s.pick core quarter without with
    | .idle s' => (.next s', none)
    | .instr i s' =>
      match exec i s' with
      | .next t => if s'.stalledBy t then s.issueOne core quarter ((s'.cur.slot, s'.cur.entry) :: without) n else (.next t, some s'.cur.slot)
      | .fault f => (.fault f, none)
      | .refused r => (.refused r, none)

/-- An issue cycle of a partition: one choice, and at lane ratio 2 a second from the warps that remain. A partition holds at most 16
warps of 8 groups each. -/
def State.issueCycle (s : State) (core quarter : Nat) : Out :=
  match s.issueOne core quarter [] 129 with
  | (.next t, some k) => if (t.col (coreColumn core)).ratio = 2 then (t.issueOne core quarter ((List.range 8).map (fun e => (k, e))) 129).1 else .next t
  | (o, _) => o

/-- Take a turn: an issue cycle, or a step of the opcode table. -/
def takeTurn (t : Turn) (s : State) : Out :=
  match t with
  | .issue core quarter => s.issueCycle core quarter
  | .event i => if isStep i then exec i s else .next s
  | .tick _ | .hostMem .. | .softError .. | .poolError .. | .storeError .. | .tornEntry .. | .hostPage .. | .capture .. | .prefetch ..
  | .trained | .cxl .. | .functions _ | .coreError _ => .next (s.world t)

end Sys2Proof.Machine
end

