-- ==== Sys2Proof/Machine/Step.lean ====
section
/-! DEFINITION. One step: the machine takes its next turn. -/

namespace Sys2Proof.Machine

/-- An instruction's bits as the opcode table numbers them, stored where the next step fetches. -/
def State.withFetchWord (s : State) (nbits w : Nat) : State := s.placeCode (bytesOf 16 (w % 2 ^ nbits))

def step (s : State) : Host.Outcome State Fault Refusal := takeTurn s.nextTurn.1 s.nextTurn.2

end Sys2Proof.Machine
end

