-- ==== Sys2Proof/Safety.lean ====
section
/-! DEFINITION. The terms that statements use: what a safe run is, when an instruction of a warp is issued with nothing
against it, and what its completion leaves as it was. -/

namespace Sys2Proof

/-- The step takes place: neither a fault nor a refusal. -/
def Safe (s : Machine.State) : Prop := ∃ t, Machine.step s = .next t

/-- So many steps in a row take place. -/
def SafeFor (n : Nat) (s : Machine.State) : Prop := ∃ t, Host.Core.run core n s = .next t

namespace Machine

/-- The issuing group stands at instruction i: its warp waits in nothing, i meets no decode cause of the launch, no
lookahead wait and no LOOKAHEAD_RAW (01 R19, R25, R26; 03 R63), and no asynchronous cause is pending (13 R224). -/
structure Issues (s : State) (h : Hdr) (i : Instr) (v : View) : Prop where
  view : s.view h = some v
  goes : v.goes (reqOf i v) = true
  calm : v.w.asyncCause = none

/-- A warp w after an instruction, where w' says only what every instruction may change: where the threads stand, their
executed counts, the window of long-latency instructions and the executed order kept for a replay, the REPs, the mark that an
ISYNC came last, the time of issue, and the watch of R44. -/
def Warp.flowOf (w w' : Warp) : Warp :=
  { w with pcs := w'.pcs, lanes := w'.lanes, count := w'.count, ops := w'.ops, hist := w'.hist, rep := w'.rep,
           reps := w'.reps, isync := w'.isync, replay := w'.replay, lastIssue := w'.lastIssue, missed := w'.missed, hang := w'.hang, hangGroup := w'.hangGroup,
           async := w'.async }

/-- The instruction completes: in the next state t the issuing warp is w but for its flow, the threads of the group go to
`next` (or repeat), no other thread moves, at most SINGLE_STEP becomes pending, and all else is as in s0, where the effect
of the instruction outside its warp stands: every other warp, every special and control register, and every byte of
memory as each die reads it. -/
def Passes (s0 : State) (v : View) (w : Warp) (next : Nat → W64) (t : State) : Prop :=
  ∃ w', t = { s0 with warps := t.warps, issueCount := s0.issueCount + 1 }
    ∧ (∀ k, tget t.warps k = if k = v.key then some w' else tget s0.warps k) ∧ w' = w.flowOf w'
    ∧ (w'.async = w.async ∨ w'.async = (w.addAsync .singleStep 0).async)
    ∧ (∀ l, has v.grp l = true → w'.pcAt l = if v.again then w.pcAt l else next l)
    ∧ (∀ l, l < 32 → has v.grp l = false → w'.pcAt l = w.pcAt l)
    ∧ (∀ d a, t.storeByte d a = s0.storeByte d a)

/-- The same where the instruction also acts outside its warp: of the parts of t that are not the warps, a statement says
beside this one what they hold. -/
def Flows (s : State) (v : View) (w : Warp) (next : Nat → W64) (t : State) : Prop :=
  Passes { t with warps := s.warps, issueCount := s.issueCount } v w next t

/-- The lanes of register d that an instruction writes: the active ones, but for those that a skipped later instruction
has written already (13 R225). A predicate p counts as register 512 + p. -/
def View.lanesTo (v : View) (d : Nat) : Mask := v.act &&& ~~~ v.w.laterWrites d

/-- What the registers hold in the live lanes after an instruction that writes `outs`: registers, each with a word for
every lane. A lane that is not written, and every other register, keeps its value. -/
def RegsAfter (v : View) (outs : List (Nat × (Nat → W32))) (w : Warp) : Prop :=
  ∀ n l, has v.w.live l = true → w.rd n l =
    match outs.find? (fun x => x.1 == n) with
    | some x => if has (v.lanesTo n) l then x.2 l else v.w.rd n l
    | none => v.w.rd n l

/-- The instruction completes, writes these registers in the warp, and changes nothing else. -/
def Computes (i : Instr) (h : Hdr) (outs : View → List (Nat × (Nat → W32))) : Prop :=
  ∀ s v, Issues s h i v → ∃ t w, exec i s = .next t ∧ Passes s v w (fun _ => v.next) t
    ∧ w = { v.w with regs := w.regs } ∧ RegsAfter v (outs v) w

/-- The shape tag that a register takes from a write with this rule of 04 R76: the rule's tag where the write is whole and
not saturated, and G otherwise; where no lane is written, every register keeps its tag and content. -/
def Tags (i : Instr) (h : Hdr) (n : Nat) (sat : Bool) (rule : View → Tag) : Prop :=
  ∀ s v, Issues s h i v → v.w.replay = [] → ∃ t w, exec i s = .next t ∧ tget t.warps v.key = some w
    ∧ if v.act = 0 then ∀ k, w.reg k = v.w.reg k else (w.reg n).tag = if v.whole && !sat then rule v else .g

/-- The issuing group stands at an instruction of a warp that nothing keeps from entering its handler at once: it waits in
nothing, all that it has issued has completed, no cause is pending, and it is in no handler, no REP, no replay and not
between the halves of a store. -/
structure Stands (s : State) (h : Hdr) (v : View) : Prop where
  view : s.view h = some v
  group : v.grp ≠ 0
  free : v.w.halted = false ∧ v.w.wait = .none ∧ v.w.pend = none ∧ v.w.async = []
  fresh : v.w.trap = none ∧ v.w.rep = none ∧ v.w.replay = [] ∧ v.w.half = none
  drained : ∀ o ∈ v.w.ops, o.done = true ∧ o.fault = none
  handler : v.g.rec_.handler ≠ 0

/-- The warp is in its handler with a cause: the record holds the cause, this PC, these threads and this address, and no
instruction after it had completed; the live threads stand together at the handler; registers, predicates, the other warps
and every byte of memory are as they were (13 R219, R220, R222). -/
def TrapsTo (s : State) (v : View) (pc : W64) (c : Cause) (mask : Mask) (addr : W64) (t : State) : Prop :=
  ∃ w r, tget t.warps v.key = some w ∧ (∀ j, j ≠ v.key → tget t.warps j = tget s.warps j)
    ∧ w.trap = some r ∧ r.cause = c.code ∧ r.pc = pc ∧ r.win = 0 ∧ r.mask = mask ∧ r.addr = addr ∧ r.iter = 0
    ∧ w.regs = v.w.regs ∧ w.preds = v.w.preds ∧ (∀ l, has v.w.live l = true → w.pcAt l = v.g.rec_.handler ∧ w.laneAt l = .on 0)
    ∧ ∀ d a, t.storeByte d a = s.storeByte d a

/-- The instruction takes no effect but the trap with this cause and address, which names the group (03 R63; 13 R219). -/
def Traps (i : Instr) (s : State) (v : View) (c : Cause) (addr : W64) : Prop :=
  ∃ t, exec i s = .next t ∧ TrapsTo s v v.pc c v.grp addr t

/-- The split table of a warp is in order: an entry in use is one of the eight, its threads share one PC, and no two entries
hold the same PC (01 R17). -/
def Warp.tableOk (w : Warp) : Prop :=
  (∀ l e, l < 32 → w.laneAt l = .on e → e < 8)
  ∧ ∀ l k e f, l < 32 → k < 32 → w.laneAt l = .on e → w.laneAt k = .on f → (e = f ↔ w.pcAt l = w.pcAt k)

/-- a·2^i is at most b·2^j. -/
abbrev dyLe (a : Nat) (i : Int) (b : Nat) (j : Int) : Prop := a * 2 ^ (i - j).toNat ≤ b * 2 ^ (j - i).toNat

/-- The numbers a·2^i and b·2^j are the same. -/
abbrev dyEq (a : Nat) (i : Int) (b : Nat) (j : Int) : Prop := a * 2 ^ (i - j).toNat = b * 2 ^ (j - i).toNat

/-- What the predicates hold after an instruction that writes `outs`; every other stays (04 R80). -/
def PredsAfter (v : View) (outs : List (Nat × (Nat → Bool))) (w : Warp) : Prop :=
  ∀ p l, l < 32 → has (nth w.preds p 0) l =
    match outs.find? (fun x => x.1 == p) with
    | some x => if has (v.lanesTo (512 + p)) l then x.2 l else has (nth v.w.preds p 0) l
    | none => has (nth v.w.preds p 0) l

/-- The floating-point flags that the active lanes raise (04 R83). -/
def View.raised (v : View) (f : Nat → FFlags) : FFlags := (v.lanes.map f).foldl (· ||| ·) 0

/-- The warp after an instruction that raises flags: they join %fflags, and with FPTRAP an enabled one makes FP_EXCEPTION
pending (04 R83). -/
def View.flagged (v : View) (f : Nat → FFlags) (w : Warp) : Warp :=
  if v.g.rec_.flag 3 && v.raised f &&& w.fen != 0 then { w with fflags := w.fflags ||| v.raised f }.addAsync .fpException 0
  else { w with fflags := w.fflags ||| v.raised f }

/-- The instruction completes, writes these registers and raises these flags, and changes nothing else. -/
def ComputesFlags (i : Instr) (h : Hdr) (outs : View → List (Nat × (Nat → W32))) (flags : View → Nat → FFlags) : Prop :=
  ∀ s v, Issues s h i v → ∃ t w, exec i s = .next t ∧ Passes s v w (fun _ => v.next) t
    ∧ w = { v.flagged (flags v) v.w with regs := w.regs } ∧ RegsAfter v (outs v) w

/-- The instruction completes, writes these predicates, and changes nothing else. -/
def ComputesPreds (i : Instr) (h : Hdr) (outs : View → List (Nat × (Nat → Bool))) : Prop :=
  ∀ s v, Issues s h i v → ∃ t w, exec i s = .next t ∧ Passes s v w (fun _ => v.next) t
    ∧ w = { v.w with preds := w.preds } ∧ PredsAfter v (outs v) w

/-- Two registers that hold a 64-bit result, low half first (04 R74). -/
def pairOuts (d : W9) (f : Nat → W64) : List (Nat × (Nat → W32)) :=
  [(d.toNat, fun l => (f l).extractLsb' 0 32), (d.toNat + 1, fun l => (f l).extractLsb' 32 32)]

/-- A long-latency instruction is issued: it enters the warp's window with its results and flags, to be written when it
completes, and changes nothing else (01 R24). -/
def Starts (i : Instr) (h : Hdr) (dst : List Nat) (res : View → List (Nat → W32)) (flags : View → Nat → FFlags) : Prop :=
  ∀ s v, Issues s h i v → ∃ t, exec i s = .next t ∧ Passes { s with nextKey := s.nextKey + 1 } v v.w (fun _ => v.next) t
    ∧ ∃ w o, tget t.warps v.key = some w ∧ o ∈ w.ops ∧ o.id = s.nextKey ∧ o.kind = .value ∧ o.done = false ∧ o.fault = none
      ∧ o.pc = v.pc ∧ o.group = v.grp ∧ o.act = v.act ∧ o.la = h.la.toNat ∧ o.dst.map Prod.fst = dst
      ∧ o.res = (res v).map perLane ∧ o.flags = v.raised (flags v)

/-- The lanes of register n that a long-latency instruction still writes when it completes: its own, but for those a later
write has overtaken (01 R27). -/
def Op.lanesTo (o : Op) (n : Nat) : Mask := o.act &&& ~~~ (o.sup.filter (fun x => x.1 == n)).foldl (fun m x => m ||| x.2) 0

/-- The register n of w' holds the result column x of the instruction: its word in every lane written, or, where the write
is whole and takes tag U, the word of the lowest lane in all (01 R25, R27; 04 R76). -/
def Op.puts (o : Op) (w w' : Warp) (n : Nat) (x : (Nat × Tag) × List W32) : Prop :=
  if o.whole && o.lanesTo n == o.act && x.1.2 == .u && o.act != 0 then ∀ l, w'.rd n l = nth x.2 ((lowest o.act).getD 0) 0
  else ∀ l, l < 32 → w'.rd n l = if has (o.lanesTo n) l then nth x.2 l 0 else w.rd n l

/-- A long-latency instruction of warp w completes with these results: its registers are written, its flags arise, it is
done, and nothing else of the warp but its window and history changes; no other warp changes (01 R25; 04 R83). -/
def Completes (s : State) (k : Nat) (w : Warp) (o : Op) (res : List (List W32)) (t : State) : Prop :=
  ∃ w', tget t.warps k = some w' ∧ (∀ j, j ≠ k → tget t.warps j = tget s.warps j)
    ∧ w' = { w with regs := w'.regs, ops := w'.ops, hist := w'.hist, async := w'.async, clk := w'.clk, fflags := w.fflags ||| o.flags }
    ∧ (∀ x ∈ w'.ops, x.id = o.id → x.done = true)
    ∧ (∀ n, (∀ x ∈ o.dst, x.1 ≠ n) → ∀ l, w'.rd n l = w.rd n l)
    ∧ (∀ x ∈ o.dst.zip res, (o.dst.filter (fun y => y.1 == x.1.1)).length = 1 → o.puts w w' x.1.1 x)

/-- Command c heads queue pair q of function fn, which holds p once the command is taken: the module is on, the function
exists, the header is in order, and no unknown command comes next (20 R303, R304). -/
structure Heads (s : State) (fn q : Nat) (c : Cmd) (p : QPair) : Prop where
  queue : tget s.queues (qkey fn q) = some { p with cmds := c :: p.cmds }
  follows : ∀ x, p.cmds.head? = some x → x.known = true
  live : s.stage ≠ .off ∧ fn ≤ s.vfs ∧ q < 16
  header : c.badHeader = false

/-- A completion with this status, and with this first result word where there is one, is the queue pair's latest. -/
def Answered (t : State) (fn q : Nat) (p : QPair) (cid status : Nat) (r : Option Nat) : Prop :=
  ∃ x, tget t.queues (qkey fn q) = some { p with done := p.done ++ [x] } ∧ x.cid = cid ∧ x.status = status
    ∧ ∀ n, r = some n → x.r1 = BitVec.ofNat 32 n

/-- The bytes of the host's memory from its address a on are these, and every other byte of memory is as before. -/
def HostWrote (s : State) (a : Nat) (bs : List Byte) (t : State) : Prop :=
  ∀ p, memGet t.mem p = if hostBase + a ≤ p ∧ p < hostBase + a + bs.length then nth bs (p - (hostBase + a)) 0 else memGet s.mem p

end Machine

end Sys2Proof
end

