-- ==== Sys2Proof/Certificates/Slice0/Obligations.lean ====
section
/-! DEFINITION. The statements of this model, for the provers: what each instruction and each step of the machine does,
and what every step keeps. -/

open Sys2Proof Sys2Proof.Machine

/-- IADD, ISUB, INEG, IABS, IMUL, IMULH, IMAD, IMIN, IMAX and ISAD complete in every form, write in each active lane the
exact result wrapped or saturated to 32 bits, and leave every other register, predicate, special register, accumulator and
byte of memory unchanged. Without saturation the result is the exact integer modulo 2^w; with it, an integer in the range of
the type stays, a smaller one becomes the least value of the type and a larger one the greatest. The width is any w above 0.
(R100, R75, 06_isa_arithmetic.md) -/
def Obligations.IntegerWordArithmetic : Prop :=
  (∀ (h : Hdr) (m : IntM) (u sat : Bool) (d a c : W9) (b : SrcB),
      Computes (.iadd h m d a b) h (fun v => [(d.toNat, fun l => narrowInt m.sat m.u 32 (ival m.u (v.w.rd a.toNat l) + ival m.u (v.w.srcB b l)))])
      ∧ Computes (.isub h m d a b) h (fun v => [(d.toNat, fun l => narrowInt m.sat m.u 32 (ival m.u (v.w.rd a.toNat l) - ival m.u (v.w.srcB b l)))])
      ∧ Computes (.ineg h sat d a) h (fun v => [(d.toNat, fun l => narrowInt sat false 32 (-(v.w.rd a.toNat l).toInt))])
      ∧ Computes (.iabs h sat d a) h (fun v => [(d.toNat, fun l => narrowInt sat false 32 |(v.w.rd a.toNat l).toInt|)])
      ∧ Computes (.imul h m d a b) h (fun v => [(d.toNat, fun l => narrowInt m.sat m.u 32 (ival m.u (v.w.rd a.toNat l) * ival m.u (v.w.srcB b l)))])
      ∧ Computes (.imulh h u d a b) h (fun v => [(d.toNat, fun l => BitVec.ofInt 32 (ival u (v.w.rd a.toNat l) * ival u (v.w.srcB b l) / 2 ^ 32))])
      ∧ Computes (.imad h m d a b c) h (fun v => [(d.toNat, fun l =>
          narrowInt m.sat m.u 32 (ival m.u (v.w.rd a.toNat l) * ival m.u (v.w.srcB b l) + ival m.u (v.w.rd c.toNat l)))])
      ∧ Computes (.imin h u d a b) h (fun v => [(d.toNat, fun l =>
          if ival u (v.w.rd a.toNat l) ≤ ival u (v.w.srcB b l) then v.w.rd a.toNat l else v.w.srcB b l)])
      ∧ Computes (.imax h u d a b) h (fun v => [(d.toNat, fun l =>
          if ival u (v.w.rd a.toNat l) ≤ ival u (v.w.srcB b l) then v.w.srcB b l else v.w.rd a.toNat l)])
      ∧ Computes (.isad h m d a b c) h (fun v => [(d.toNat, fun l =>
          narrowInt m.sat m.u 32 (|ival m.u (v.w.rd a.toNat l) - ival m.u (v.w.srcB b l)| + ival m.u (v.w.rd c.toNat l)))]))
  ∧ (∀ (u : Bool) (w : Nat) (x : Int), 0 < w →
      (((narrowInt false u w x).toNat : Nat) : Int) = x % 2 ^ w
      ∧ (intMin u w ≤ x → x ≤ intMax u w → ival u (narrowInt true u w x) = x)
      ∧ (x < intMin u w → ival u (narrowInt true u w x) = intMin u w)
      ∧ (intMax u w < x → ival u (narrowInt true u w x) = intMax u w))

/-- IMADW, IADD64, ISUB64 and IMUL64 complete in every form and write the exact result wrapped or saturated to 64 bits in
the pair D:D+1 of each active lane; nothing else changes. (R100, R75, 06_isa_arithmetic.md) -/
def Obligations.IntegerPairArithmetic : Prop :=
  ∀ (h : Hdr) (m : IntM) (d a b' c : W9) (b : SrcB),
    Computes (.imadw h m d a b c) h (fun v => pairOuts d (fun l =>
      narrowInt m.sat m.u 64 (ival m.u (v.w.rd a.toNat l) * ival m.u (v.w.srcB b l) + ival m.u (v.w.rd64 c.toNat l))))
    ∧ Computes (.iadd64 h m d a b) h (fun v => pairOuts d (fun l =>
      narrowInt m.sat m.u 64 (ival m.u (v.w.rd64 a.toNat l) + ival m.u (v.w.srcB64 b m.u l))))
    ∧ Computes (.isub64 h m d a b) h (fun v => pairOuts d (fun l =>
      narrowInt m.sat m.u 64 (ival m.u (v.w.rd64 a.toNat l) - ival m.u (v.w.srcB64 b m.u l))))
    ∧ Computes (.imul64 h m d a b') h (fun v => pairOuts d (fun l =>
      narrowInt m.sat m.u 64 (ival m.u (v.w.rd64 a.toNat l) * ival m.u (v.w.rd64 b'.toNat l))))

/-- IADDC completes in every form: each active lane of D holds A + B plus 1 if the predicate was true, modulo 2^32, and the
predicate becomes the unsigned carry out or the signed overflow; nothing else changes. (R101) -/
def Obligations.AddWithCarry : Prop :=
  ∀ (h : Hdr) (u : Bool) (d a : W9) (b : SrcB) (p : W4) (s : State) (v : View), Issues s h (.iaddc h u d a b p) v →
    ∃ t w, exec (.iaddc h u d a b p) s = .next t ∧ Passes s v w (fun _ => v.next) t ∧ w = { v.w with regs := w.regs, preds := w.preds }
      ∧ RegsAfter v [(d.toNat, fun l => v.w.rd a.toNat l + v.w.srcB b l + (if v.w.pred p l then 1 else 0))] w
      ∧ PredsAfter v [(p.toNat, fun l =>
          let x := ival u (v.w.rd a.toNat l) + ival u (v.w.srcB b l) + (if v.w.pred p l then 1 else 0)
          if u then decide (2 ^ 32 ≤ x) else decide (x < -2 ^ 31 ∨ 2 ^ 31 - 1 < x))] w

/-- IDOT4 and IDOT2 complete: each active lane of D holds C plus the products of the 4 bytes, or the 2 halves, of A and B,
each read by its own signedness, wrapped or saturated; nothing else changes. LEA writes A plus B shifted left by 0 to 3,
modulo 2^32; LEA64 writes the pair A plus the extended B shifted left, modulo 2^64; nothing else changes. (R102, R103, R76)
-/
def Obligations.DotProductsAndAddresses : Prop :=
  (∀ (h : Hdr) (m : IntM) (bn : Bool) (d a b c : W9),
      let e (v : View) (n i l : Nat) : Int :=
        ival m.u ((v.w.rd a.toNat l).extractLsb' (n * i) n) * ival bn ((v.w.rd b.toNat l).extractLsb' (n * i) n)
      Computes (.idot4 h m bn d a b c) h (fun v => [(d.toNat, fun l =>
        narrowInt m.sat m.u 32 (ival m.u (v.w.rd c.toNat l) + e v 8 0 l + e v 8 1 l + e v 8 2 l + e v 8 3 l))])
      ∧ Computes (.idot2 h m bn d a b c) h (fun v => [(d.toNat, fun l =>
        narrowInt m.sat m.u 32 (ival m.u (v.w.rd c.toNat l) + e v 16 0 l + e v 16 1 l))]))
  ∧ (∀ (h : Hdr) (u : Bool) (sh : W2) (d a : W9) (b : SrcB),
      Computes (.lea h sh d a b) h (fun v => [(d.toNat, fun l => v.w.rd a.toNat l + v.w.srcB b l * BitVec.ofNat 32 (2 ^ sh.toNat))])
      ∧ Computes (.lea64 h u sh d a b) h (fun v => pairOuts d (fun l =>
          v.w.rd64 a.toNat l + (if u then (v.w.srcB b l).setWidth 64 else (v.w.srcB b l).signExtend 64) * BitVec.ofNat 64 (2 ^ sh.toNat))))

/-- The five shifts complete in every form; bit j of each active lane of D is the bit of the source that the shift moves
there, and 0 or the sign where none is moved; nothing else changes. (R104) -/
def Obligations.ShiftsAndRotates : Prop :=
  ∀ (h : Hdr) (d a c : W9) (b : SrcB),
    let n (v : View) (l : Nat) : Nat := (v.w.srcB b l).toNat
    let bits (f : Nat → Bool) : W32 := maskOf f
    Computes (.shl h d a b) h (fun v => [(d.toNat, fun l => bits (fun j => n v l ≤ j && (v.w.rd a.toNat l).getLsbD (j - n v l)))])
    ∧ Computes (.shr h d a b) h (fun v => [(d.toNat, fun l => bits (fun j => (v.w.rd a.toNat l).getLsbD (j + n v l)))])
    ∧ Computes (.sar h d a b) h (fun v => [(d.toNat, fun l => bits (fun j =>
        if j + n v l < 32 then (v.w.rd a.toNat l).getLsbD (j + n v l) else (v.w.rd a.toNat l).getLsbD 31))])
    ∧ Computes (.rotl h d a b) h (fun v => [(d.toNat, fun l => bits (fun j => (v.w.rd a.toNat l).getLsbD ((j + 32 - n v l % 32) % 32)))])
    ∧ Computes (.shf h false d a b c) h (fun v => [(d.toNat, fun l =>
        (((v.w.rd c.toNat l ++ v.w.rd a.toNat l : W64)) <<< min (n v l) 32).extractLsb' 32 32)])
    ∧ Computes (.shf h true d a b c) h (fun v => [(d.toNat, fun l =>
        (((v.w.rd c.toNat l ++ v.w.rd a.toNat l : W64)) >>> min (n v l) 32).extractLsb' 0 32)])

/-- POPC gives the number of set bits, CLZ and CTZ the number of zero bits above the highest and below the lowest set bit
(32 for 0), and BREV the bits in reverse; nothing else changes. (R105) -/
def Obligations.BitCounts : Prop :=
  ∀ (h : Hdr) (d a : W9),
    Computes (.popc h d a) h (fun v => [(d.toNat, fun l => BitVec.ofNat 32 ((List.range 32).countP (fun j => (v.w.rd a.toNat l).getLsbD j)))])
    ∧ Computes (.clz h d a) h (fun v => [(d.toNat, fun l =>
        BitVec.ofNat 32 (((List.range 32).find? (fun j => (v.w.rd a.toNat l).getLsbD (31 - j))).getD 32))])
    ∧ Computes (.ctz h d a) h (fun v => [(d.toNat, fun l =>
        BitVec.ofNat 32 (((List.range 32).find? (fun j => (v.w.rd a.toNat l).getLsbD j)).getD 32))])
    ∧ Computes (.brev h d a) h (fun v => [(d.toNat, fun l => maskOf (fun j => (v.w.rd a.toNat l).getLsbD (31 - j)))])

/-- BFE extracts a field and extends it, BFI inserts one and drops bits past 31, PRMT permutes the eight bytes of B:A by the
nibbles of C, and LGATE applies its truth table to each bit; nothing else changes. Bit k of the carry-less product P of A
and B is the exclusive or, over i, of bit i of B and bit k - i of A; CLMUL writes bits 31:0 of P, CLMULH bits 62:32 with bit
31 zero, CLMULW both to the pair; nothing else changes. (R106, R107, R108, R109) -/
def Obligations.BitFieldsGatesAndCarryless : Prop :=
  (∀ (h : Hdr) (u : Bool) (d a b' c : W9) (b : SrcB) (tab : W8),
      let pos (v : View) (l : Nat) : Nat := (v.w.srcB b l).toNat % 256
      let len (v : View) (l : Nat) : Nat := min ((v.w.srcB b l).toNat / 256 % 256) 32
      let f (v : View) (l i : Nat) : Bool := if pos v l + i < 32 then (v.w.rd a.toNat l).getLsbD (pos v l + i) else !u && (v.w.rd a.toNat l).getLsbD 31
      let byteOf (x : W64) (nib : Nat) : Nat :=
        let y := x.toNat / 2 ^ (8 * (nib % 8)) % 256
        if nib < 8 then y else if y < 128 then 0 else 255
      Computes (.bfe h u d a b) h (fun v => [(d.toNat, fun l => maskOf (fun j =>
          if j < len v l then f v l j else !u && len v l != 0 && f v l (len v l - 1)))])
      ∧ Computes (.bfi h d a b c) h (fun v => [(d.toNat, fun l => maskOf (fun j =>
          if pos v l ≤ j && j < pos v l + len v l then (v.w.rd a.toNat l).getLsbD (j - pos v l) else (v.w.rd c.toNat l).getLsbD j))])
      ∧ Computes (.prmt h d a b c) h (fun v => [(d.toNat, fun l => BitVec.ofNat 32 (((List.range 4).map (fun i =>
          byteOf (v.w.srcB b l ++ v.w.rd a.toNat l) ((v.w.rd c.toNat l).toNat / 16 ^ i % 16) * 256 ^ i)).sum))])
      ∧ Computes (.lgate h d a b' c tab) h (fun v => [(d.toNat, fun l => maskOf (fun j =>
          tab.getLsbD (((v.w.rd c.toNat l).getLsbD j).toNat * 4 + ((v.w.rd b'.toNat l).getLsbD j).toNat * 2 + ((v.w.rd a.toNat l).getLsbD j).toNat)))]))
  ∧ (∀ (h : Hdr) (d a b : W9),
      let bit (v : View) (l k : Nat) : Bool := ((List.range 32).countP (fun i =>
        decide (i ≤ k) && (v.w.rd b.toNat l).getLsbD i && (v.w.rd a.toNat l).getLsbD (k - i))) % 2 == 1
      Computes (.clmul h d a b) h (fun v => [(d.toNat, fun l => maskOf (fun j => bit v l j))])
      ∧ Computes (.clmulh h d a b) h (fun v => [(d.toNat, fun l => maskOf (fun j => bit v l (32 + j)))])
      ∧ Computes (.clmulw h d a b) h (fun v => [(d.toNat, fun l => maskOf (fun j => bit v l j)), (d.toNat + 1, fun l => maskOf (fun j => bit v l (32 + j)))]))

/-- ISETP writes the comparison of A and B to its predicate, PGATE the truth table of three predicates, V2P the bits of A
where B has a bit; SEL chooses A or B by a predicate and P2V collects the predicates in bits 14:0. Nothing else changes, and
no predicate but those named. MOV copies the word of A, MOVI writes its immediate and MOV64I both halves of its 64-bit
immediate in every active lane; nothing else changes. A whole write takes the shape tag of its row: MOVI, ACTIVE and SRD
%core U, SRD %lane A, SRD %tid A, in travel mode G, SRD %split, SEL and P2V G; MOV and INEG the tag of A; IADD, ISUB
and LEA U, A or G by both operands, IMUL A for one A and one U, SHL the tag of A where B is U, IMIN U only where both
sources are. A saturated write and one that is not whole take G, and with no active lane no tag changes. For P2V, MOVI and
MOV, a tag above the register's ceiling is SHAPE_CEILING, and the instruction takes no other effect. (R110, R112, R113, R80, R114, R75, R76, R77)
-/
def Obligations.ComparesPredicatesAndMoves : Prop :=
  (∀ (h : Hdr) (c : ICnd) (p pa pb pc : W4) (d a : W9) (b : SrcB) (tab : W8),
      (ComputesPreds (.isetp h c p a b) h (fun v => [(p.toNat, fun l =>
          let x := ival c.u (v.w.rd a.toNat l)
          let y := ival c.u (v.w.srcB b l)
          match c.c with
          | .eq => decide (x = y)
          | .ne => decide (x ≠ y)
          | .lt => decide (x < y)
          | .le => decide (x ≤ y)
          | .gt => decide (x > y)
          | .ge => decide (x ≥ y))]))
      ∧ (ComputesPreds (.pgate h p pa pb pc tab) h (fun v => [(p.toNat, fun l =>
          tab.getLsbD ((v.w.pred pc l).toNat * 4 + (v.w.pred pb l).toNat * 2 + (v.w.pred pa l).toNat))]))
      ∧ ComputesPreds (.v2p h a b) h (fun v => (List.range 15).map (fun i => (i, fun l =>
          if (v.w.srcB b l).getLsbD i then (v.w.rd a.toNat l).getLsbD i else has (nth v.w.preds i 0) l)))
      ∧ Computes (.sel h d a b pc) h (fun v => [(d.toNat, fun l => if v.w.pred pc l then v.w.rd a.toNat l else v.w.srcB b l)])
      ∧ Computes (.p2v h d) h (fun v => [(d.toNat, fun l => maskOf (fun j => j < 15 && has (nth v.w.preds j 0) l))]))
  ∧ (∀ (h : Hdr) (d a : W9) (x : W32) (y : W64),
      Computes (.mov h d a) h (fun v => [(d.toNat, fun l => v.w.rd a.toNat l)])
      ∧ Computes (.movi h d x) h (fun _ => [(d.toNat, fun _ => x)])
      ∧ Computes (.mov64i h d y) h (fun _ => pairOuts d (fun _ => y)))
  ∧ (∀ (h : Hdr) (m : IntM) (u sat : Bool) (sh : W2) (d a : W9) (b : SrcB) (p : W4) (x : W32),
      let ta (v : View) : Tag := (v.w.reg a.toNat).tag
      let tb (v : View) : Tag := (v.w.regB b).tag
      let sum (v : View) : Tag := if ta v = .g ∨ tb v = .g then .g else if ta v = .u ∧ tb v = .u then .u else .a
      Tags (.movi h d x) h d.toNat false (fun _ => .u)
      ∧ Tags (.mov h d a) h d.toNat false ta
      ∧ Tags (.iadd h m d a b) h d.toNat m.sat sum ∧ Tags (.isub h m d a b) h d.toNat m.sat sum ∧ Tags (.lea h sh d a b) h d.toNat false sum
      ∧ Tags (.ineg h sat d a) h d.toNat sat ta
      ∧ Tags (.imul h m d a b) h d.toNat m.sat (fun v => if ta v = .a ∧ tb v = .a then .g else sum v)
      ∧ Tags (.shl h d a b) h d.toNat false (fun v => if tb v = .u then ta v else .g)
      ∧ Tags (.imin h u d a b) h d.toNat false (fun v => if ta v = .u ∧ tb v = .u then .u else .g)
      ∧ Tags (.sel h d a b p) h d.toNat false (fun _ => .g) ∧ Tags (.p2v h d) h d.toNat false (fun _ => .g)
      ∧ Tags (.active h d) h d.toNat false (fun _ => .u) ∧ Tags (.srd h d .lane) h d.toNat false (fun _ => .a)
      ∧ Tags (.srd h d .tid) h d.toNat false (fun v => if v.travels then .g else .a)
      ∧ Tags (.srd h d .split) h d.toNat false (fun _ => .g) ∧ Tags (.srd h d .core) h d.toNat false (fun _ => .u))
  ∧ (∀ (h : Hdr) (d a : W9) (x : W32) (s : State) (v : View), Stands s h v → v.g.rec_.feature 0 = true → d.toNat < v.g.ceils.length →
      (v.ceil d.toNat ≠ .g → Traps (.p2v h d) s v .shapeCeiling 0)
      ∧ (v.whole = false → v.ceil d.toNat ≠ .g → Traps (.movi h d x) s v .shapeCeiling 0)
      ∧ (v.whole = true → a.toNat < v.g.ceils.length → (v.ceil d.toNat).code < (v.w.reg a.toNat).tag.code → Traps (.mov h d a) s v .shapeCeiling 0))

/-- FSETP and DSETP write the comparison of the modified operands, taken as values, to their predicate, and raise the flag
of each active lane; with UN a NaN makes the result true. Nothing else changes. For operands that are no NaN, each condition
holds as on the values; for a NaN operand it holds exactly with UN or the condition .ne read unordered, and NV is raised by
a signalling NaN, or by any NaN under .lt, .le, .gt and .ge without UN; no other flag is raised. (R111, R83, R97) -/
def Obligations.FloatCompare : Prop :=
  (∀ (h : Hdr) (c : FCnd) (p : W4) (a b : W9) (x : Option Mods),
      let r (f : Fmt) (rd : W9 → Nat → Nat) (l : Nat) : Bool × FFlags :=
        fcmp c (f.unpack (f.src (modA x) (rd a l))) (f.unpack (f.src (modB x) (rd b l)))
      (∀ s v, Issues s h (.fsetp h c p a b x) v → ∃ t w, exec (.fsetp h c p a b x) s = .next t ∧ Passes s v w (fun _ => v.next) t
        ∧ w = { v.flagged (fun l => (r f32 (fun n l => (v.w.rd n.toNat l).toNat) l).2) v.w with preds := w.preds }
        ∧ PredsAfter v [(p.toNat, fun l => (r f32 (fun n l => (v.w.rd n.toNat l).toNat) l).1)] w)
      ∧ (∀ s v, Issues s h (.dsetp h c p a b x) v → ∃ t w, exec (.dsetp h c p a b x) s = .next t ∧ Passes s v w (fun _ => v.next) t
        ∧ w = { v.flagged (fun l => (r f64 (fun n l => (v.w.rd64 n.toNat l).toNat) l).2) v.w with preds := w.preds }
        ∧ PredsAfter v [(p.toNat, fun l => (r f64 (fun n l => (v.w.rd64 n.toNat l).toNat) l).1)] w))
  ∧ (∀ (c : FCnd) (a b : FVal),
      (a.isNan = true ∨ b.isNan = true → (fcmp c a b).1 = c.un
        ∧ (fcmp c a b).2 = if a.isSig || b.isSig || (!c.un && (c.c == .lt || c.c == .le || c.c == .gt || c.c == .ge)) then fNV else 0)
      ∧ (a.isNan = false → b.isNan = false → (fcmp c a b).2 = 0 ∧ (fcmp c a b).1 = match c.c with
          | .eq => decide (cmpVal a b = 0)
          | .ne => decide (cmpVal a b ≠ 0)
          | .lt => decide (cmpVal a b < 0)
          | .le => decide (cmpVal a b ≤ 0)
          | .gt => decide (0 < cmpVal a b)
          | .ge => decide (0 ≤ cmpVal a b)
          | .num => !c.un))

/-- FADD, FSUB, FMUL, FFMA, FMIN, FMAX, FRND, FCLASS, FEXP and FLDEXP complete in every form; each active lane of D holds
the exact result of its modified operands rounded once, the flags of the active lanes join the warp's flags, and nothing
else changes. Each of the two 16-bit elements of D holds the operation of the same elements of the sources, modifiers and
FTZ applied to each, and the flags are the union over both elements and the active lanes; nothing else changes. (R115, R116,
R117, R83, R84, R85, R118) -/
def Obligations.FloatArithmetic : Prop :=
  (∀ (h : Hdr) (r : Rnd) (d a : W9) (b : SrcB) (c : W9) (x : Option Mods),
      let out (f : View → Nat → Nat × FFlags) (v : View) : List (Nat × (Nat → W32)) := [(d.toNat, fun l => BitVec.ofNat 32 (f v l).1)]
      let flg (f : View → Nat → Nat × FFlags) (v : View) (l : Nat) : FFlags := (f v l).2
      let pat (v : View) (l : Nat) : (Nat × FVal) × (Nat × FVal) :=
        let p := f32.src (modA x) (v.w.rd a.toNat l).toNat
        let q := f32.src (modB x) (v.w.srcB b l).toNat
        ((p, f32.unpack p), (q, f32.unpack q))
      let flt (i : Instr) (f : View → Nat → Nat × FFlags) : Prop := ComputesFlags i h (out f) (flg f)
      flt (.fadd h r d a b x) (fun v l => f32.finish r.ftz r.rm (addVal r.rm (v.fa x r.ftz a l) (v.fb x r.ftz b l)))
      ∧ flt (.fsub h r d a b x) (fun v l => f32.finish r.ftz r.rm (addVal r.rm (v.fa x r.ftz a l) (v.fb x r.ftz b l).neg))
      ∧ flt (.fmul h r d a b x) (fun v l => f32.finish r.ftz r.rm (mulVal (v.fa x r.ftz a l) (v.fb x r.ftz b l)))
      ∧ flt (.ffma h r d a b c x) (fun v l => f32.finish r.ftz r.rm (fmaVal r.rm (v.fa x r.ftz a l) (v.fb x r.ftz b l) (v.fc x r.ftz c l)))
      ∧ flt (.fmin h d a b x) (fun v l => f32.minNum (pat v l).1 (pat v l).2)
      ∧ flt (.fmax h d a b x) (fun v l => f32.maxNum (pat v l).1 (pat v l).2)
      ∧ flt (.frnd h r d a x) (fun v l => frndOf r.rm (v.fa x r.ftz a l))
      ∧ Computes (.fclass h d a) h (fun v => [(d.toNat, fun l => BitVec.ofNat 32 (fclassOf (v.w.rd a.toNat l).toNat))])
      ∧ ComputesFlags (.fexp h d a) h (fun v => [(d.toNat, fun l => (fexpOf (v.w.rd a.toNat l).toNat).1)]) (fun v l => (fexpOf (v.w.rd a.toNat l).toNat).2)
      ∧ flt (.fldexp h r d a b x) (fun v l => fldexpOf r.ftz r.rm (v.fa x r.ftz a l) (v.w.srcB b l).toInt))
  ∧ (∀ (h : Hdr) (r : Rnd) (d a : W9) (b : SrcB) (c : W9) (x : Option Mods),
      let both (f : View → Nat → Nat → Nat × FFlags) (i : Instr) : Prop := ComputesFlags i h
        (fun v => [(d.toNat, fun l => (BitVec.ofNat 16 (f v l 1).1 ++ BitVec.ofNat 16 (f v l 0).1 : W32))]) (fun v l => (f v l 0).2 ||| (f v l 1).2)
      let el (f : Fmt) (md : Bool × Bool) (w : W32) (e : Nat) : FVal := f.input r.ftz (f.src md (w.extractLsb' (16 * e) 16).toNat)
      both (fun v l e => f16.add r.ftz r.rm (el f16 (modA x) (v.w.rd a.toNat l) e) (el f16 (modB x) (v.w.srcB b l) e)) (.hadd2 h r d a b x)
      ∧ both (fun v l e => f16.mul r.ftz r.rm (el f16 (modA x) (v.w.rd a.toNat l) e) (el f16 (modB x) (v.w.srcB b l) e)) (.hmul2 h r d a b x)
      ∧ both (fun v l e => f16.fma r.ftz r.rm (el f16 (modA x) (v.w.rd a.toNat l) e) (el f16 (modB x) (v.w.srcB b l) e)
          (el f16 (modC x) (v.w.rd c.toNat l) e)) (.hfma2 h r d a b c x)
      ∧ both (fun v l e => bf16.fma r.ftz r.rm (el bf16 (modA x) (v.w.rd a.toNat l) e) (el bf16 (modB x) (v.w.srcB b l) e)
          (el bf16 (modC x) (v.w.rd c.toNat l) e)) (.bfma2 h r d a b c x))

/-- In binary32, binary64, binary16 and bfloat16, rounding the value of a finite pattern gives the pattern back with no
flag, in every rounding mode. For a value m at scale e rounded to a multiple of 2^q, rounding toward zero gives the greatest
multiple not above it, every mode gives that or the next, it is inexact exactly when the two differ, and to nearest the
error is at most half a unit. (R84, R115) -/
def Obligations.Rounding : Prop :=
  (∀ (f : Fmt), f ∈ [f32, f64, f16, bf16] → ∀ (rm : RM) (p : Nat) (s : Bool) (m : Nat) (e : Int), p < 2 ^ f.width →
      f.unpack p = .fin s m e → f.round rm s m e false = (p, 0))
  ∧ (∀ (rm : RM) (s : Bool) (m k : Nat) (e : Int),
      let r := roundAt rm s m e (e + k) false
      (roundAt .rtz s m e (e + k) false).1 = m / 2 ^ k
      ∧ (r.1 = m / 2 ^ k ∨ r.1 = m / 2 ^ k + 1)
      ∧ (r.2 = true ↔ m % 2 ^ k ≠ 0) ∧ (m % 2 ^ k = 0 → r.1 = m / 2 ^ k)
      ∧ (rm = .rne → 2 * ((r.1 : Int) * 2 ^ k - m).natAbs ≤ 2 ^ k ∧ (2 * (m % 2 ^ k) = 2 ^ k → r.1 % 2 = 0))
      ∧ (rm = .rup → m % 2 ^ k ≠ 0 → r.1 = if s then m / 2 ^ k else m / 2 ^ k + 1)
      ∧ (rm = .rdn → m % 2 ^ k ≠ 0 → r.1 = if s then m / 2 ^ k + 1 else m / 2 ^ k))

/-- DADD, DMUL, DFMA, DMIN, DMAX, FRCP, FRSQ, FSQRT, FEX2 and FLG2 complete their issue in every form: the instruction
enters the warp's window with its result words and flags, and every register, flag, special register and byte of memory
stays as it is until it completes. The five functions have the special values of R120. For a finite nonzero a, the result
of FRCP, and for a positive one of FSQRT and FRSQ, is the binary32 value within half a unit of 1/a, √a or 1/√a, NX being
raised exactly where it is not that number itself, and infinity with OF and NX only where that number is past the greatest
value by half a unit. FEX2 of an integer from -149 to 127 and FLG2 of a power of two are exact, with no flag; FEX2 overflows
to infinity from 128 on and gives +0 from -150 down; between integers, and between powers of two, the result lies between
the exact values at both and raises NX. (R24, R25, R119, R120) -/
def Obligations.LongLatencyFloat : Prop :=
  (∀ (h : Hdr) (r : Rnd) (ftz : Bool) (d a b c : W9) (x : Option Mods),
    let D (i : Instr) (f : View → Nat → Nat × FFlags) : Prop := Starts i h [d.toNat, d.toNat + 1]
      (fun v => [fun l => BitVec.ofNat 32 (f v l).1, fun l => BitVec.ofNat 32 ((f v l).1 / 2 ^ 32)]) (fun v l => (f v l).2)
    let S (i : Instr) (f : View → Nat → Nat × FFlags) : Prop := Starts i h [d.toNat] (fun v => [fun l => BitVec.ofNat 32 (f v l).1]) (fun v l => (f v l).2)
    let pat (v : View) (md : Bool × Bool) (n : W9) (l : Nat) : Nat × FVal :=
      let p := f64.src md (v.w.rd64 n.toNat l).toNat
      (p, f64.unpack p)
    D (.dadd h r d a b x) (fun v l => f64.add r.ftz r.rm (v.da (modA x) r.ftz a l) (v.da (modB x) r.ftz b l))
    ∧ D (.dmul h r d a b x) (fun v l => f64.mul r.ftz r.rm (v.da (modA x) r.ftz a l) (v.da (modB x) r.ftz b l))
    ∧ D (.dfma h r d a b c x) (fun v l => f64.fma r.ftz r.rm (v.da (modA x) r.ftz a l) (v.da (modB x) r.ftz b l) (v.da (modC x) r.ftz c l))
    ∧ D (.dmin h d a b x) (fun v l => f64.minNum (pat v (modA x) a l) (pat v (modB x) b l))
    ∧ D (.dmax h d a b x) (fun v l => f64.maxNum (pat v (modA x) a l) (pat v (modB x) b l))
    ∧ S (.frcp h ftz d a x) (fun v l => frcpOf ftz (v.fa x ftz a l))
    ∧ S (.frsq h ftz d a x) (fun v l => frsqOf ftz (v.fa x ftz a l))
    ∧ S (.fsqrt h ftz d a x) (fun v l => fsqrtOf ftz (v.fa x ftz a l))
    ∧ S (.fex2 h ftz d a x) (fun v l => fex2Of ftz (v.fa x ftz a l))
    ∧ S (.flg2 h ftz d a x) (fun v l => flg2Of ftz (v.fa x ftz a l)))
  ∧ (∀ ftz s sig : Bool,
      let nan (fl : FFlags) : Nat × FFlags := (0x7FC00000, fl)
      let inf (s : Bool) (fl : FFlags) : Nat × FFlags := (if s then 0xFF800000 else 0x7F800000, fl)
      let zero (s : Bool) : Nat × FFlags := (if s then 0x80000000 else 0, 0)
      let O : FVal := .fin s 0 (-149)
      let I : FVal := .inf s
      let one : FVal := .fin false (2 ^ 23) (-23)
      (∀ f ∈ [frcpOf, frsqOf, fsqrtOf, fex2Of, flg2Of], f ftz (.nan sig) = nan (if sig then fNV else 0))
      ∧ frcpOf ftz O = inf s fDZ ∧ frsqOf ftz O = inf s fDZ ∧ fsqrtOf ftz O = zero s ∧ fex2Of ftz O = (0x3F800000, 0) ∧ flg2Of ftz O = inf true fDZ
      ∧ frcpOf ftz I = zero s ∧ frsqOf ftz I = (if s then nan fNV else zero false) ∧ fsqrtOf ftz I = (if s then nan fNV else inf false 0)
      ∧ fex2Of ftz I = (if s then zero false else inf false 0) ∧ flg2Of ftz I = (if s then nan fNV else inf false 0)
      ∧ (∀ (m : Nat) (e : Int), m ≠ 0 → frsqOf ftz (.fin true m e) = nan fNV ∧ fsqrtOf ftz (.fin true m e) = nan fNV ∧ flg2Of ftz (.fin true m e) = nan fNV)
      ∧ frcpOf ftz one = (0x3F800000, 0) ∧ frsqOf ftz one = (0x3F800000, 0) ∧ fsqrtOf ftz one = (0x3F800000, 0) ∧ fex2Of ftz one = (0x40000000, 0)
      ∧ flg2Of ftz one = (0, 0))
  ∧ (∀ (p m : Nat) (e : Int) (s : Bool), p < 2 ^ 32 → f32.unpack p = .fin s m e → m ≠ 0 →
      let near (o : Nat × FFlags) (sign : Bool) (below above : Nat → Int → Prop) : Prop :=
        match f32.unpack o.1 with
        | .nan _ => False
        | .inf t => t = sign ∧ o.2 = fOF ||| fNX ∧ below (2 ^ 25 - 1) 103
        | .fin t n q => t = sign ∧ below (2 * n - 1) (q - 1) ∧ above (2 * n + 1) (q - 1) ∧ (o.2 &&& fNX = 0 ↔ below n q ∧ above n q)
      near (frcpOf false (.fin s m e)) s (fun n q => dyLe (n * m) (q + e) 1 0) (fun n q => dyLe 1 0 (n * m) (q + e))
      ∧ (s = false → near (fsqrtOf false (.fin s m e)) false (fun n q => dyLe (n * n) (2 * q) m e) (fun n q => dyLe m e (n * n) (2 * q)))
      ∧ (s = false → near (frsqOf false (.fin s m e)) false (fun n q => dyLe (n * n * m) (2 * q + e) 1 0) (fun n q => dyLe 1 0 (n * n * m) (2 * q + e))))
  ∧ (∀ (p m : Nat) (e : Int) (s : Bool), p < 2 ^ 32 → f32.unpack p = .fin s m e →
      let o := fex2Of false (.fin s m e)
      let g := flg2Of false (.fin s m e)
      let isPow (r : Nat) (n : Int) : Prop := ∃ k q, f32.unpack r = .fin false k q ∧ dyEq k q 1 n
      let isInt (r : Nat) (n : Int) : Prop := ∃ k q, f32.unpack r = .fin (decide (n < 0)) k q ∧ dyEq k q n.natAbs 0
      (∀ n : Int, -149 ≤ n → n ≤ 127 → (n ≠ 0 → s = decide (n < 0)) → dyEq m e n.natAbs 0 → isPow o.1 n ∧ o.2 = 0)
      ∧ (s = false → dyLe 128 0 m e → o = (0x7F800000, fOF ||| fNX))
      ∧ (s = true → dyLe 150 0 m e → o = (0, fUF ||| fNX))
      ∧ (∀ n : Nat, n < 128 → s = false → dyLe n 0 m e → dyLe m e (n + 1) 0 → ¬ dyEq m e n 0 → ¬ dyEq m e (n + 1) 0 →
          o.2 &&& fNX = fNX ∧ ∃ k q, f32.unpack o.1 = .fin false k q ∧ dyLe 1 n k q ∧ dyLe k q 1 (n + 1))
      ∧ (∀ n : Nat, n < 150 → s = true → dyLe n 0 m e → dyLe m e (n + 1) 0 → ¬ dyEq m e n 0 → ¬ dyEq m e (n + 1) 0 →
          o.2 &&& fNX = fNX ∧ ∃ k q, f32.unpack o.1 = .fin false k q ∧ dyLe 1 (-(n + 1)) k q ∧ dyLe k q 1 (-n))
      ∧ (∀ n : Int, s = false → dyEq m e 1 n → isInt g.1 n ∧ g.2 = 0)
      ∧ (∀ n : Nat, s = false → dyLe 1 n m e → dyLe m e 1 (n + 1) → ¬ dyEq m e 1 n → ¬ dyEq m e 1 (n + 1) →
          g.2 &&& fNX = fNX ∧ ∃ k q, f32.unpack g.1 = .fin false k q ∧ dyLe n 0 k q ∧ dyLe k q (n + 1) 0)
      ∧ (∀ n : Nat, s = false → dyLe 1 (-(n + 1)) m e → dyLe m e 1 (-n) → ¬ dyEq m e 1 (-n) → ¬ dyEq m e 1 (-(n + 1)) →
          g.2 &&& fNX = fNX ∧ ∃ k q, f32.unpack g.1 = .fin true k q ∧ dyLe n 0 k q ∧ dyLe k q (n + 1) 0))

/-- CVT converts between the types of its codes, pairs for the 64-bit types; CVTN and CVTW convert into and out of the
format of a slot; PACK4 packs the low 4 or 8 bits of four registers and UNPACK4 takes them apart again. The flags join the
warp's flags; nothing else changes. CVT from binary32 to a 32-bit integer: a NaN gives 0 with NV, a value past the range its
nearest end with NV, and any other value its rounded integer, with NX when it was not one. CVT between integer types gives
the value modulo the width, or clamped under SAT, extended, with no flag; from an integer to a floating-point type the
value rounded once; to a wider floating-point type the value itself, to the same type the pattern itself, to a narrower one
the value rounded once, a NaN becoming the canonical one. CVTN into a 16-bit slot is that CVT. CVTW of a code of a valid
KIND 1 slot into binary32 is the value that R86 gives the code, with no flag, and CVTN into the slot gives that code back;
the code CVTN gives for any value that does not overflow is within half a unit of it to nearest, and toward zero not above
it and within a unit. (R121, R122, R123, R124, R83, R86, R88) -/
def Obligations.Conversions : Prop :=
  (∀ (h : Hdr) (r : RndS) (dt st : TypeCode) (na aa w4 : Bool) (f : W3) (d a : W9),
      let cv (v : View) (l : Nat) : W64 × FFlags :=
        cvtOf r dt st na aa (if st.isPairType then (v.w.rd64 a.toNat l).toNat else (v.w.rd a.toNat l).toNat)
      let n := if w4 then 4 else 8
      ComputesFlags (.cvt h r dt st na aa d a) h (fun v =>
          if dt.isPairType then pairOuts d (fun l => (cv v l).1) else [(d.toNat, fun l => (cv v l).1.extractLsb' 0 32)]) (fun v l => (cv v l).2)
      ∧ ComputesFlags (.cvtn h r st f na aa d a) h (fun v => [(d.toNat, fun l => (cvtnOf r st (v.slotWord f) na aa (v.w.rd a.toNat l).toNat).1)])
          (fun v l => (cvtnOf r st (v.slotWord f) na aa (v.w.rd a.toNat l).toNat).2)
      ∧ ComputesFlags (.cvtw h r dt f d a) h (fun v => [(d.toNat, fun l => (cvtwOf r dt (v.slotWord f) (v.w.rd a.toNat l).toNat).1)])
          (fun v l => (cvtwOf r dt (v.slotWord f) (v.w.rd a.toNat l).toNat).2)
      ∧ Computes (.pack4 h w4 d a) h (fun v => [(d.toNat, fun l =>
          maskOf (fun j => j < 4 * n && (v.w.rd (a.toNat + j / n) l).getLsbD (j % n)))])
      ∧ Computes (.unpack4 h w4 d a) h (fun v => (List.range 4).map (fun i => (d.toNat + i, fun l =>
          BitVec.ofNat 32 ((v.w.rd a.toNat l).toNat / 2 ^ (n * i) % 2 ^ n)))))
  ∧ (∀ (r : RndS) (u na aa : Bool) (v : Nat), v < 2 ^ 32 →
      let x := f32.input r.ftz (f32.modify aa na v)
      let dt : TypeCode := if u then .n32 else .i32
      let o := cvtOf r dt .f32 na aa v
      (x.isNan = true → o.1.extractLsb' 0 32 = 0 ∧ o.2 = fNV)
      ∧ (∀ s, x = .inf s → ival u (o.1.extractLsb' 0 32) = (if s then intMin u 32 else intMax u 32) ∧ o.2 = fNV)
      ∧ (∀ s m e, x = .fin s m e →
          let k := roundAt r.rm s m e 0 false
          let i : Int := if s then -(k.1 : Int) else k.1
          ival u (o.1.extractLsb' 0 32) = max (intMin u 32) (min (intMax u 32) i)
          ∧ o.2 = if i < intMin u 32 ∨ intMax u 32 < i then fNV else if k.2 then fNX else 0))
  ∧ (∀ (r : RndS) (na aa : Bool) (v : Nat),
      let ints : List (TypeCode × Nat × Bool) := [(.i8, 8, false), (.n8, 8, true), (.i16, 16, false), (.n16, 16, true), (.i32, 32, false),
        (.n32, 32, true), (.i64, 64, false), (.n64, 64, true)]
      let floats : List (TypeCode × Fmt) := [(.f16, f16), (.bf16, bf16), (.f32, f32), (.f64, f64)]
      (∀ x ∈ ints,
        let i : Int := ival x.2.2 (BitVec.ofNat x.2.1 v)
        (∀ y ∈ ints,
          let o := cvtOf r y.1 x.1 na aa v
          let z : BitVec y.2.1 := BitVec.ofInt y.2.1 (if r.sat then max (intMin y.2.2 y.2.1) (min (intMax y.2.2 y.2.1) i) else i)
          o.2 = 0 ∧ BitVec.ofNat y.2.1 o.1.toNat = z ∧ (y.2.1 ≤ 32 → o.1.extractLsb' 0 32 = if y.2.2 then z.setWidth 32 else z.signExtend 32))
        ∧ ∀ y ∈ floats, r.sat = false → r.ftz = false → cvtOf r y.1 x.1 na aa v =
          let q := y.2.round r.rm (decide (i < 0)) i.natAbs 0 false
          (BitVec.ofNat 64 q.1, q.2))
      ∧ (∀ x ∈ floats, ∀ y ∈ floats, r.sat = false → r.ftz = false → v < 2 ^ x.2.width →
        let o := cvtOf r y.1 x.1 false false v
        (∀ sig, x.2.unpack v = .nan sig → o = (BitVec.ofNat 64 y.2.nanBits, if sig then fNV else 0))
        ∧ (∀ s, x.2.unpack v = .inf s → y.2.unpack o.1.toNat = .inf s ∧ o.2 = 0)
        ∧ (∀ s m e, x.2.unpack v = .fin s m e →
          (x.2.eb ≤ y.2.eb → x.2.mb ≤ y.2.mb → o.2 = 0 ∧ ∃ k q, y.2.unpack o.1.toNat = .fin s k q ∧ dyEq k q m e)
          ∧ (x = y → o.1.toNat = v)
          ∧ o = let q := y.2.round r.rm s m e false
            (BitVec.ofNat 64 q.1, q.2)))
      ∧ (∀ w : W32, r.sat = false → (slotKind w = 2 → cvtnOf r .f32 w na aa v = let o := cvtOf r .f16 .f32 na aa v
                                                     (o.1.extractLsb' 0 32, o.2))
        ∧ (slotKind w = 3 → cvtnOf r .f32 w na aa v = let o := cvtOf r .bf16 .f32 na aa v
                                                (o.1.extractLsb' 0 32, o.2))))
  ∧ (∀ (r r' : RndS) (w : W32), slotKind w = 1 → slotValid w = true → r.ftz = false →
      let E := slotE w
      let M := slotM w
      let unit (c : Nat) : Int := max ((c / 2 ^ M % 2 ^ E : Nat) : Int) 1 - slotBias w - M
      let mant (c : Nat) : Nat := c % 2 ^ M + if c / 2 ^ M % 2 ^ E = 0 then 0 else 2 ^ M
      let value (s : Bool) (m : Nat) (e : Int) : Int := (if s then -1 else 1) * (m * 2 ^ (e + 150).toNat : Nat)
      let isNan (c : Nat) : Prop := slotS w = 1 ∧ c = 2 ^ (E + M)
      (∀ c, c < 2 ^ slotWidth w →
        let o := cvtwOf r' .f32 w c
        (isNan c → o = (0x7FC00000, 0))
        ∧ (¬ isNan c → o.2 = 0 ∧ cvtnOf r .f32 w false false o.1.toNat = (BitVec.ofNat 32 c, 0)
          ∧ ∃ k q, f32.unpack o.1.toNat = .fin (slotS w = 1 && c.testBit (E + M)) k q ∧ dyEq k q (mant c) (unit c)))
      ∧ ∀ (v m : Nat) (e : Int) (s : Bool), v < 2 ^ 32 → f32.unpack v = .fin s m e → (s = true → slotS w = 1) →
        let o := cvtnOf r .f32 w false false v
        let c := o.1.toNat
        let x := value s m e
        let y := value (slotS w = 1 && c.testBit (E + M)) (mant c) (unit c)
        o.2 &&& fOF = 0 → c < 2 ^ slotWidth w ∧ ¬ isNan c ∧ (o.2 &&& fNX = 0 ↔ x = y)
          ∧ if slotRtz w then y.natAbs ≤ x.natAbs ∧ (x - y).natAbs < 2 ^ (unit c + 150).toNat else 2 * (x - y).natAbs ≤ 2 ^ (unit c + 150).toNat)

/-- SHFL gives each active lane the word of the lane its mode names, its own where that leaves the warp; VOTE gives the
ballot, or whether the predicate is true in all, in any, or alike in all active lanes; MATCHV the active lanes of the same
word, or all of them if they agree; ACTIVE the active lanes. Nothing else changes. With a true guard in the whole group and
no memory operation of its lanes still unserved, a WSYNC whose mask M is the same in all lanes, names each of them and only
live threads: while a lane of M has not arrived with M, the lanes wait at the WSYNC; when it is the last, its group goes on,
the other lanes of M may pass, and every lane of M acquires what the others did. No register, predicate, special register or
byte of memory changes. (R133, R134, R135, R136, R137, R157) -/
def Obligations.LaneExchangeAndSync : Prop :=
  (∀ (h : Hdr) (d a : W9) (b : SrcB) (p : W4) (all : Bool),
      let shfl (mode : ShflMode) (f : Nat → Nat → Nat) : Prop :=
        Computes (.shfl h mode d a b) h (fun v => [(d.toNat, fun l => v.w.rd a.toNat (f l (v.w.srcB b l).toNat))])
      let set (v : View) (l : Nat) : Bool := v.w.pred p l
      shfl .idx (fun _ n => n % 32)
      ∧ shfl .up (fun l n => if n ≤ l then l - n else l)
      ∧ shfl .down (fun l n => if l + n < 32 then l + n else l)
      ∧ shfl .bfly (fun l n => l ^^^ (n % 32))
      ∧ Computes (.vote h .ballot d p) h (fun v => [(d.toNat, fun _ => v.act &&& maskOf (set v))])
      ∧ (d.toNat < 15 → ComputesPreds (.vote h .all d p) h (fun v => [(d.toNat, fun _ => v.lanes.all (set v))])
        ∧ ComputesPreds (.vote h .any d p) h (fun v => [(d.toNat, fun _ => v.lanes.any (set v))])
        ∧ ComputesPreds (.vote h .uni d p) h (fun v => [(d.toNat, fun _ => v.lanes.all (set v) || !v.lanes.any (set v))]))
      ∧ Computes (.matchv h all d a) h (fun v => [(d.toNat, fun l =>
          let same (k : Nat) : Bool := v.w.rd a.toNat k == v.w.rd a.toNat l
          if all then (if v.lanes.all same then v.act else 0) else v.act &&& maskOf same)])
      ∧ Computes (.active h d) h (fun v => [(d.toNat, fun _ => v.act)]))
  ∧ (∀ (h : Hdr) (b : SrcB) (s : State) (v : View) (M : Mask), Issues s h (.wsync h b) v → v.act = v.grp →
      (∀ l, has v.act l = true → nth v.w.lwait l .none = .none ∧ v.w.srcB b l = M) → v.w.unserved v.act = false →
      v.act &&& ~~~ M = 0 → M &&& ~~~ v.w.live = 0 →
      let here (l : Nat) : Bool := has v.act l || nth v.w.lwait l .none == .wsync M
      ∃ t w, exec (.wsync h b) s = .next t
        ∧ w = { v.w with lwait := w.lwait, lwaitSince := w.lwaitSince, clk := w.clk }
        ∧ if (lanesOf M).all here then
            Passes s v w (fun _ => v.next) t
            ∧ (∀ l, l < 32 → nth w.lwait l .none = if has v.act l then .none else if has M l then .passed else nth v.w.lwait l .none)
            ∧ (∀ l, l < 32 → w.clkAt l = if has M l then (v.w.clkAt l).acquire (v.w.allClk M) else v.w.clkAt l)
          else
            Passes s v w (fun _ => v.pc) t ∧ w.clk = v.w.clk
            ∧ (∀ l, l < 32 → nth w.lwait l .none = if has v.act l then .wsync M else nth v.w.lwait l .none))

/-- REDW writes the tree combination over the active lanes to all of them, SCANW the combination of the lanes below and,
without .excl, of the lane itself, the first lane of .excl receiving the identity; the flags of every combination join the
warp's flags; nothing else changes. For the integer operations the tree over 32 lane parts gives the combination of the
present parts in ascending lane order, with no flag. (R136, R92, R83) -/
def Obligations.WarpReductions : Prop :=
  (∀ (h : Hdr) (op : WOp) (excl : Bool) (d a : W9),
      let below (v : View) (l : Nat) : Part :=
        ((v.lanes.filter (fun k => k < l)).map (fun k => some (v.w.rd a.toNat k, (0 : FFlags)))).foldl (combine op) none
      let own (v : View) (l : Nat) : Part := combine op (below v l) (some (v.w.rd a.toNat l, 0))
      ComputesFlags (.redw h op d a) h (fun v => [(d.toNat, fun _ => ((redwOf op (v.parts a)).getD (0, 0)).1)]) (fun v _ => ((redwOf op (v.parts a)).getD (0, 0)).2)
      ∧ ComputesFlags (.scanw h op excl d a) h (fun v => [(d.toNat, fun l =>
          if excl then ((below v l).getD (wopId op, 0)).1 else ((own v l).getD (0, 0)).1)]) (fun v l => ((own v l).getD (0, 0)).2))
  ∧ (∀ (op : WOp) (m : Mask) (f : Nat → W32), op ≠ .fadd → op ≠ .fmin → op ≠ .fmax →
      redwOf op (perLane (fun l => if has m l then some (f l, (0 : FFlags)) else none)) =
        (match (lanesOf m).map f with
         | [] => none
         | x :: rest => some (rest.foldl (fun y z => (wopStep op y z).1) x, 0)))

/-- A transfer whose active lanes all have an aligned target below 2^57, room on the call stack to push and an address on it
to pop, and whose targets stay in the segment in travel mode, completes: active lanes go to their target, the others to the
successor; CALL and CALLX push the successor, RET pops its target; nothing else changes. Transfers, EXIT, WSYNC, NOP
and IADD keep the split table in order: an entry in use is one of the eight, its threads
share one PC, and no two entries hold the same PC. Of the two groups into which a BRA splits, the one with the lower PC
keeps the entry, the other takes the lowest free entry, or is held where none is free; a group that comes to the PC of
another entry joins it at the lower index, and held threads of one PC then take the entry that came free. A BRA in travel mode
out of its segment, with a sound exit record, a live replica and a free spill credit, sends its active lanes as one caravan,
with the registers that the record lists, to the replica chosen for its number, and their lanes become vacant. (R126, R127,
R265, R266, R267, R17) -/
def Obligations.Transfers : Prop :=
  ∀ (h : Hdr) (off : W32) (a : W9) (s : State) (v : View),
    let depth (l : Nat) : Nat := (nth v.w.cstack l []).length
    let runs (i : Instr) (room : Nat → Prop) (t : Nat → W64) (stack : Nat → List W64) : Prop :=
      Issues s h i v → (∀ l, has v.act l = true → room l ∧ (t l).toNat < 2 ^ 57 ∧ (t l).toNat % 4 = 0 ∧ (t l).toNat % 32 ≠ 28
        ∧ (∀ cur, s.travelSeg v = some cur → (nth v.g.segs cur Segment.init).holds (t l) = true)) →
      ∃ x w, exec i s = .next x ∧ Passes s v w (fun l => if has v.act l then t l else v.next) x
        ∧ w = { v.w with cstack := w.cstack } ∧ ∀ l, l < 32 → nth w.cstack l [] = if has v.act l then stack l else nth v.w.cstack l []
    let disp : W64 := v.pc + off.signExtend 64
    let old (l : Nat) : List W64 := nth v.w.cstack l []
    runs (.bra h off) (fun _ => True) (fun _ => disp) old
    ∧ runs (.brx h a) (fun _ => True) (v.w.rd64 a.toNat) old
    ∧ runs (.call h off) (fun l => depth l < 32) (fun _ => disp) (fun l => v.next :: old l)
    ∧ runs (.callx h a) (fun l => depth l < 32) (v.w.rd64 a.toNat) (fun l => v.next :: old l)
    ∧ runs (.ret h) (fun l => 0 < depth l) (fun l => (old l).headD 0) (fun l => (old l).drop 1)
    ∧ (v.w.tableOk → ∀ (m : IntM) (d : W9) (b : SrcB), ∀ i ∈ [Instr.bra h off, .brx h a, .call h off, .callx h a, .ret h, .nop h, .exit h, .wsync h b, .iadd h m d a b],
        Issues s h i v → ∀ t w, exec i s = .next t → tget t.warps v.key = some w → w.tableOk)
    ∧ (v.w.tableOk → Issues s h (.bra h off) v → s.travelSeg v = none → v.w.rep = none →
        disp.toNat < 2 ^ 57 → disp.toNat % 4 = 0 → disp.toNat % 32 ≠ 28 →
        let away : Mask := v.grp &&& ~~~ v.act
        let lanesAre (f : Nat → LaneSt) : Prop := ∃ x w, exec (.bra h off) s = .next x ∧ tget x.warps v.key = some w ∧ ∀ l, l < 32 → w.laneAt l = f l
        (v.act ≠ 0 → away ≠ 0 → v.w.heldMask = 0 → disp ≠ v.next → (∀ e, e ≠ v.entry → v.w.entryPc e ≠ some disp ∧ v.w.entryPc e ≠ some v.next) →
          let low : Mask := if disp.toNat < v.next.toNat then v.act else away
          lanesAre (fun l => if has low l then .on v.entry else if has v.grp l then (match v.w.freeEntry with | some e => .on e | none => .held)
            else v.w.laneAt l))
        ∧ ∀ f, f ≠ v.entry → v.w.entryPc f = some disp → away = 0 →
          let joined (l : Nat) : Bool := has v.grp l || has (v.w.groupOf f) l
          (v.w.heldMask = 0 → lanesAre (fun l => if joined l then .on (min v.entry f) else v.w.laneAt l))
          ∧ ∀ p, v.w.heldMask ≠ 0 → v.w.freeEntry = none → (∀ l, has v.w.heldMask l = true → v.w.pcAt l = p) → (∀ e, v.w.entryPc e ≠ some p) →
            lanesAre (fun l => if joined l then .on (min v.entry f) else if has v.w.heldMask l then .on (max v.entry f) else v.w.laneAt l))
    ∧ ∀ (cur k e : Nat) (rest : List Nat) (r : ExitRec),
      let here := nth v.g.segs cur Segment.init
      let id := v.core * 2 ^ 24 + (s.core v.core).departures % 2 ^ 24
      Issues s h (.bra h off) v → v.act ≠ 0 → disp.toNat < 2 ^ 57 → disp.toNat % 4 = 0 → disp.toNat % 32 ≠ 28 → s.travelSeg v = some cur →
      here.holds disp = false → (∀ o ∈ v.w.ops, o.done = false → o.group &&& v.act = 0) → v.g.freeCredits = e :: rest → v.g.segAt disp = some k →
      s.exitRec v.die v.g here (v.pc.toNat - here.base.toNat) k = some r → s.departCheck v cur false disp = none →
      ∃ x c g, exec (.bra h off) s = .next x ∧ x.caravans = s.caravans ++ [c] ∧ c.target = disp ∧ c.mask = v.act ∧ c.source = v.core ∧ c.id = id
        ∧ c.seg = k ∧ c.entry = e ∧ c.grid = v.gk ∧ c.dst = s.chooseReplica (nth v.g.segs k Segment.init) id
        ∧ c.regs = r.regs.map (fun i => (i, carryReg (v.w.reg i) v.act)) ∧ tget x.grids v.gk = some g ∧ tget g.ring e = some ⟨0, none, 0⟩
        ∧ ∀ w, tget x.warps v.key = some w → w.regs = v.w.regs ∧ ∀ l, l < 32 → has v.act l = true → w.laneAt l = .vacant

/-- When the lowest active lane has an address bit above 56 set in its target, BRX makes BAD_PATH pending with the target;
when that is clear and the target is not a multiple of 4 or lies at offset 28 of a fetch block, MISALIGNED; the warp,
drained and outside a handler, is then in its handler with every register as it was and the record naming the BRX. When no
other warp of the block has a live thread, all live threads of this one are active, no tile is marked, and a ticket or an
engine operation is left, EXIT takes no effect: the warp, drained and outside a handler, enters its handler with
EXIT_OUTSTANDING, its threads still live. CALL and CALLX on a full call stack and RET on an empty one take the trap
TRAP_INSTR with 512 or 513, which names the successor. A load of the lowest active lane at a path the rules do not allow,
or with a bit of 59:57 set in a global address, is BAD_PATH, at an address that is no multiple of its width MISALIGNED, and
past the scratchpad SCRATCH_RANGE with the offset; a store to a page that may not be written is PAGE_PROTECT; an atomic on
path 0x1, 0x9 or 0xA is ATOMIC_PATH. A BRX with BAD_PATH inside a handler, in the one warp of a cluster of one, is
DOUBLE_FAULT: the block is gone, its grid ends with an error, and the error log of its die names the inner cause. (R126,
R127, R220, R223, R29, R139, R193, R207, R225, R314) -/
def Obligations.BadTransfersAndExits : Prop :=
  (∀ (h : Hdr) (a : W9) (s : State) (v : View), Issues s h (.brx h a) v → v.act ≠ 0 → v.w.trap = none → v.w.rep = none → v.g.rec_.handler ≠ 0 →
      v.w.ops = [] → v.w.half = none → (∀ l k, has v.act l = true → has v.act k = true → v.w.rd64 a.toNat l = v.w.rd64 a.toNat k) →
      let t : W64 := v.w.rd64 a.toNat v.low
      (t.toNat / 2 ^ 57 ≠ 0 ∨ t.toNat % 4 ≠ 0 ∨ t.toNat % 32 = 28) →
      ∃ x w r, exec (.brx h a) s = .next x ∧ tget x.warps v.key = some w ∧ w.trap = some r ∧ w.regs = v.w.regs ∧ w.preds = v.w.preds
        ∧ r.cause = (if t.toNat / 2 ^ 57 ≠ 0 then Cause.badPath else Cause.misaligned).code ∧ r.pc = v.pc ∧ r.mask = v.grp ∧ r.addr = t
        ∧ ∀ l, has v.w.live l = true → w.pcAt l = v.g.rec_.handler)
  ∧ (∀ (h : Hdr) (s : State) (v : View), Issues s h (.exit h) v → v.act ≠ 0 → v.w.trap = none → v.w.rep = none → v.g.rec_.handler ≠ 0 →
      v.w.ops = [] → v.w.half = none → (s.warpsOf v.bk).all (fun x => x.1 == v.key || x.2.live == 0) = true → v.w.live &&& ~~~ v.act = 0 →
      v.b.marks = [] → (v.b.eops ≠ [] ∨ v.b.tickets ≠ []) →
      ∃ t w r, exec (.exit h) s = .next t ∧ tget t.warps v.key = some w ∧ w.trap = some r ∧ r.cause = Cause.code .exitOutstanding
        ∧ r.pc = v.pc ∧ r.mask = v.act ∧ w.regs = v.w.regs ∧ ∀ l, has v.w.live l = true → has w.live l = true)
  ∧ (∀ (h : Hdr) (off : W32) (a : W9) (s : State) (v : View), Stands s h v → v.act ≠ 0 →
      let depth : Nat := (nth v.w.cstack v.low []).length
      let deep (i : Instr) (n : W64) : Prop := Issues s h i v → ∃ t, exec i s = .next t ∧ TrapsTo s v v.next .trapInstr v.grp n t
      (32 ≤ depth → deep (.call h off) 512 ∧ deep (.callx h a) 512) ∧ (depth = 0 → deep (.ret h) 513))
  ∧ (∀ (h : Hdr) (m : MW) (sz : Width) (op : AOp) (d a b : W9) (cm : W8) (off : Option W32) (x : Option MemX) (s : State) (v : View),
      Stands s h v → v.act ≠ 0 →
      let va : W64 := v.w.rd64 a.toNat v.low + (off.getD 0).signExtend 64
      let path : Nat := va.toNat / 2 ^ 60
      let n := widthBytes m.w
      let global : Prop := path < 3 ∧ va.toNat / 2 ^ 57 % 8 = 0
      let ld : Instr := .ld h m d a off x
      let st : Instr := .st h sz a b cm off x
      (Issues s h ld v →
        (path ∉ [0, 1, 2, 8, 10] ∨ (path < 3 ∧ va.toNat / 2 ^ 57 % 8 ≠ 0) ∨ (path = 8 ∧ va.toNat / 2 ^ 32 % 2 ^ 28 ≠ 0) → Traps ld s v .badPath va)
        ∧ (global → va.toNat % n ≠ 0 → Traps ld s v .misaligned va)
        ∧ (path = 8 → va.toNat / 2 ^ 32 % 2 ^ 28 = 0 → va.toNat % n = 0 → v.b.scratchBytes ≤ va.toNat % 2 ^ 32 →
            Traps ld s v .scratchRange (BitVec.ofNat 64 (va.toNat % 2 ^ 32))))
      ∧ (Issues s h st v → global → path ≠ 1 → va.toNat % widthBytes sz = 0 →
          s.xlat (.part v.core (v.slot % 4)) v.g.ctx (va.toNat % 2 ^ 57) needW = .protect → Traps st s v .pageProtect va)
      ∧ (Issues s h (.atom h op d a b off x) v → path = 1 ∨ path = 9 ∨ path = 10 → Traps (.atom h op d a b off x) s v .atomicPath va))
  ∧ (∀ (h : Hdr) (a : W9) (s : State) (v : View) (r : TrapRec), Issues s h (.brx h a) v → v.act ≠ 0 → v.w.trap = some r → v.w.rep = none → v.w.half = none →
      v.w.async = [] → v.g.rec_.handler ≠ 0 → v.b.core < 256 → (∀ o ∈ v.w.ops, o.done = true ∧ o.fault = none) → (v.w.rd64 a.toNat v.low).toNat / 2 ^ 57 ≠ 0 →
      v.g.rec_.coop = false → v.g.rec_.travel = false → v.g.rec_.csize = 1 → (s.warpsOf v.bk).all (fun x => x.1 == v.key) = true →
      ∃ t g, exec (.brx h a) s = .next t ∧ tget t.warps v.key = none ∧ t.blk? v.bk = none ∧ tget t.grids v.gk = some g ∧ g.err = true
        ∧ ((s.die (v.b.core / 64)).log.length < 4096 → ∃ e ∈ (t.die (v.b.core / 64)).log, e.kind = 0x84 ∧ e.code = Cause.code .doubleFault
          ∧ e.ctx = v.g.ctx ∧ e.source = v.b.core ∧ e.detail = v.pc.toNat % 2 ^ 48 + Cause.code .badPath * 2 ^ 48))

/-- NOP only goes to the successor; ISYNC drops the buffered instruction words and waits while an ICINV of the warp is under
way; NAP with a count n above 0 waits for at least n and at most n + 64 ticks; SWR writes bits 4:0 of the lowest active lane
to %fflags or %fen. Nothing else changes, and with no active lane nothing but the program counter. With none of their own
long-latency instructions unfinished, and no ticket, job or operation against the last EXIT of the block, the active lanes
become finished-idle: while other threads live, the warp keeps its registers and predicates and the other live lanes live
on. With its last live thread the warp is retired: a replica's slot is free at once (R265), any other stays with the block
while another warp of it has not retired, and with the last one the block retires. That EXIT waits for the long-latency
instructions of its own lanes is the model's choice (log entry 12). (R128, R129, R83, R28, R29) -/
def Obligations.PlainControlAndExit : Prop :=
  (∀ (h : Hdr) (b : SrcB) (r : SReg) (a : W9) (s : State) (v : View),
      (Issues s h (.nop h) v → ∃ t, exec (.nop h) s = .next t ∧ Passes s v v.w (fun _ => v.next) t)
      ∧ (Issues s h (.isync h) v → ∃ t w, exec (.isync h) s = .next t ∧ Passes s v w (fun _ => v.next) t
          ∧ w = if v.act = 0 then v.w
            else { v.w with pre := [], inLoop := false, wait := if v.w.icinvs = [] then .none else .isync, waitSince := s.tsc })
      ∧ (Issues s h (.isync h) v → v.act ≠ 0 → ∃ t w, exec (.isync h) s = .next t ∧ tget t.warps v.key = some w ∧ w.isync = some s.issueCount)
      ∧ (Issues s h (.nap h b) v →
          let n := (v.lanes.map (fun l => (v.w.srcB b l).toNat)).foldl max 0
          if n = 0 then ∃ t, exec (.nap h b) s = .next t ∧ Passes s v v.w (fun _ => v.next) t
          else ∃ t w u, exec (.nap h b) s = .next t ∧ Passes { s with fresh := s.fresh + 1 } v w (fun _ => v.next) t
            ∧ w = { v.w with wait := .nap u, waitSince := s.tsc } ∧ s.tsc + n ≤ u ∧ u ≤ s.tsc + n + 64)
      ∧ (r = .fflags ∨ r = .fen → Issues s h (.swr h r a) v → ∃ t w, exec (.swr h r a) s = .next t ∧ Passes s v w (fun _ => v.next) t
          ∧ let x := (v.w.rd a.toNat v.low).setWidth 5
            w = if v.act = 0 then v.w else if r = .fflags then { v.w with fflags := x } else { v.w with fen := x }))
  ∧ (∀ (h : Hdr) (s : State) (v : View), Issues s h (.exit h) v → v.act ≠ 0 →
      (∀ o ∈ v.w.ops, o.done = true ∨ o.group &&& v.act = 0) → s.lastExit v = none →
      ∃ t, exec (.exit h) s = .next t ∧
        if v.w.live &&& ~~~ v.act = 0 then tget t.warps v.key = none
          ∧ (v.travels = false →
              if (s.warpsOf v.bk).all (fun x => x.1 == v.key) then t.blk? v.bk = none
              else ∃ b', t.blk? v.bk = some b' ∧ b'.slots = v.b.slots ++ [v.key % 64])
        else ∃ w, tget t.warps v.key = some w ∧ w.regs = v.w.regs ∧ w.preds = v.w.preds
          ∧ (∀ l, has v.act l = true → w.laneAt l = .idle)
          ∧ (∀ l, has v.w.live l = true → has v.act l = false → has w.live l = true))

/-- TRAP, and BKPT while a debugger holds the context, enter the handler when the warp is drained and outside a handler: the
record holds the cause, the successor as PC, the active lanes and the constant; every live thread stands in entry 0 at the
handler; registers, predicates, flags, view masks, the card and every byte of memory are as they were, and so is every other
warp. BKPT without a debugger, and both with no active lane, only go to the successor. (R130, R219, R220, R222) -/
def Obligations.TrapInstructions : Prop :=
  ∀ (h : Hdr) (k : W9) (s : State) (v : View),
    let held : Bool := (tget s.ctxs v.g.ctx).any (fun c => c.dbg)
    let enters (i : Instr) (c : Cause) : Prop := v.w.trap = none → v.w.rep = none → v.w.half = none → v.g.rec_.handler ≠ 0 → (∀ o ∈ v.w.ops, o.done = true) →
      ∃ t w r, exec i s = .next t ∧ tget t.warps v.key = some w ∧ (∀ j, j ≠ v.key → tget t.warps j = tget s.warps j)
        ∧ w.trap = some r ∧ r.cause = c.code ∧ r.pc = v.next ∧ r.win = 0 ∧ r.mask = v.act ∧ r.addr = k.setWidth 64 ∧ r.iter = 0
        ∧ (∀ l, has v.grp l = true → nth r.ctl.pcs l 0 = v.next)
        ∧ (∀ l, has v.w.live l = true → w.pcAt l = v.g.rec_.handler ∧ w.laneAt l = .on 0)
        ∧ w.regs = v.w.regs ∧ w.preds = v.w.preds ∧ w.vms = v.w.vms ∧ w.card = v.w.card ∧ w.fflags = v.w.fflags ∧ w.fen = v.w.fen
        ∧ w.cstack = List.replicate 32 [] ∧ w.wait = .none ∧ (∀ d a, t.storeByte d a = s.storeByte d a)
    let passes (i : Instr) : Prop := ∃ t, exec i s = .next t ∧ Passes s v v.w (fun _ => v.next) t
    (Issues s h (.trap h k) v → if v.act = 0 then passes (.trap h k) else enters (.trap h k) .trapInstr)
    ∧ (Issues s h (.bkpt h k) v → if v.act = 0 ∨ held = false then passes (.bkpt h k) else enters (.bkpt h k) .breakpoint)

/-- TRET in a handler whose own long-latency instructions have ended restores the PCs, call stacks, waits, REP, window and
executed order and counts of the record, the REP where no thread of it is left to repeat it again; a thread that was finished-idle stays so, one that exited in the handler too; the trap record
is gone; registers, predicates, flags, masks and every byte of memory stay. Outside a handler, or with no active lane, it
only goes to the successor. YIELD in a PREEMPT handler of a block being pre-empted, whose engine queues are empty or held
back, whose own operations have ended and whose control record can be written, leaves the warp waiting, its registers as they were; RESUME in a handler entered
at restore of a block whose arrival log is empty gives back the card, the flags and the view masks; the warp waits while
another warp of its block has not executed it, and with the last one the block runs again and its warps leave the handler. Elsewhere, and with no active lane, both only go to the successor. (R131, R225, R230, R234) -/
def Obligations.ReturnYieldAndResume : Prop :=
  (∀ (h : Hdr) (s : State) (v : View), Issues s h (.tret h) v →
      match v.w.trap with
      | none => ∃ t, exec (.tret h) s = .next t ∧ Passes s v v.w (fun _ => v.next) t
      | some r =>
        if v.act = 0 then ∃ t, exec (.tret h) s = .next t ∧ Passes s v v.w (fun _ => v.next) t
        else (∀ o ∈ v.w.ops, o.done = true ∨ o.fault ≠ none) → v.w.half = none →
          ∃ t w, exec (.tret h) s = .next t ∧ tget t.warps v.key = some w ∧ (∀ j, j ≠ v.key → tget t.warps j = tget s.warps j)
            ∧ w.trap = none ∧ w.pcs = r.ctl.pcs ∧ w.cstack = r.ctl.cstack ∧ w.lwait = r.ctl.lwait ∧ w.wait = r.ctl.wait
            ∧ (r.ctl.reps = [] → (∀ p, r.ctl.rep = some p → p.grp &&& w.live ≠ 0) → w.rep = r.ctl.rep)
            ∧ w.ops = r.ctl.ops ∧ w.hist = r.ctl.hist ∧ w.replay = r.ctl.replay ∧ w.count = r.ctl.count ∧ w.pre = [] ∧ w.inLoop = false
            ∧ (∀ l e, l < 32 → v.w.laneAt l ≠ .idle → nth r.ctl.lanes l .vacant = .on e → w.laneAt l = .on e)
            ∧ (∀ l, l < 32 → v.w.laneAt l = .idle → w.laneAt l = .idle)
            ∧ w.regs = v.w.regs ∧ w.preds = v.w.preds ∧ w.fflags = v.w.fflags ∧ w.fen = v.w.fen ∧ w.vms = v.w.vms ∧ w.card = v.w.card
            ∧ (∀ d a, t.storeByte d a = s.storeByte d a))
  ∧ (∀ (h : Hdr) (s : State) (v : View),
      (Issues s h (.yield h) v →
        if v.act = 0 ∨ v.w.preemptEntry ≠ some false then ∃ t, exec (.yield h) s = .next t ∧ Passes s v v.w (fun _ => v.next) t
        else v.b.adm = [] → v.b.hq = [] → v.b.heldBack = true → (∀ o ∈ v.w.ops, o.done = true ∨ o.fault ≠ none) → v.w.half = none →
          s.vaFault 4 v.g.ctx needW [(v.b.frame + controlAt v.b v.w, 0x4000)] = none →
          ∃ t w, exec (.yield h) s = .next t ∧ tget t.warps v.key = some w ∧ w.wait = .yielded ∧ w.regs = v.w.regs ∧ w.preds = v.w.preds
            ∧ w.trap = v.w.trap)
      ∧ (Issues s h (.resume h) v →
        if v.act = 0 ∨ v.w.preemptEntry ≠ some true then ∃ t, exec (.resume h) s = .next t ∧ Passes s v v.w (fun _ => v.next) t
        else ∀ old, tget v.b.saved v.w.wid = some old → v.b.wires = [] → (∀ x ∈ s.breqs, x.blk ≠ v.bk) →
            (∀ o ∈ v.w.ops, o.done = true ∨ o.fault ≠ none) → v.w.half = none →
          ∃ t w, exec (.resume h) s = .next t ∧ tget t.warps v.key = some w ∧ w.card = old.card ∧ w.fflags = old.fflags ∧ w.fen = old.fen
            ∧ w.vms = old.vms ∧ w.regs = v.w.regs ∧ w.preds = v.w.preds
            ∧ ((∃ x ∈ v.b.saved, x.1 ≠ v.w.wid ∧ x.1 ∉ v.b.resumed) → w.wait = .resumed ∧ w.trap = v.w.trap)
            ∧ ((∀ x ∈ v.b.saved, x.1 = v.w.wid ∨ x.1 ∈ v.b.resumed) → v.b.bars = [] → w.trap = none
                ∧ ∃ b', t.blk? v.bk = some b' ∧ b'.state = .running ∧ b'.saved = [])))

/-- SRD writes the value of its special register to the active lanes of D and changes nothing else; a read of %tsc also
latches its high half for the lane, and a read of %bconf gives a count that the block keeps. The identities of a thread, its
warp, block, core, die and context, the time, the flags, the trap record (0 outside a handler) and the split table read as
their rows say. Where the threads of a whole read of %tsch hold different latches, the one word of tag U is the lowest
active lane's: the model's choice (log entry 58). (R82, R132, R83, R18) -/
def Obligations.SpecialRegisters : Prop :=
  (∀ (h : Hdr) (d : W9) (r : SReg) (s : State) (v : View), Issues s h (.srd h d r) v →
      (r ≠ .bconf → ∃ t w, exec (.srd h d r) s = .next t ∧ Passes s v w (fun _ => v.next) t
        ∧ w = { v.w with regs := w.regs, tsch := w.tsch }
        ∧ RegsAfter v [(d.toNat, fun l => if r = .tsch ∧ v.whole = true ∧ v.lanesTo d.toNat = v.act then s.sreg v r v.low else s.sreg v r l)] w
        ∧ if r = .tsc then ∀ l, l < 32 → nth w.tsch l 0 = if has v.act l then BitVec.ofNat 32 (s.tsc / 2 ^ 32) else nth v.w.tsch l 0
          else w.tsch = v.w.tsch)
      ∧ (r = .bconf → v.act ≠ 0 → ∃ t w n, exec (.srd h d r) s = .next t
        ∧ Passes { s.modBlock v.bk (fun b => { b with bconf := n }) with fresh := s.fresh + 1 } v w (fun _ => v.next) t
        ∧ w = { v.w with regs := w.regs } ∧ RegsAfter v [(d.toNat, fun _ => BitVec.ofNat 32 n)] w))
  ∧ (∀ (s : State) (v : View) (l : Nat), l < 32 →
      s.sreg v .lane l = BitVec.ofNat 32 l ∧ s.sreg v .core l = BitVec.ofNat 32 v.core ∧ s.sreg v .die l = BitVec.ofNat 32 (v.core / 64)
      ∧ s.sreg v .layer l = BitVec.ofNat 32 (v.core % 4) ∧ s.sreg v .column l = BitVec.ofNat 32 (v.core / 4 % 16)
      ∧ s.sreg v .tsc l = BitVec.ofNat 32 s.tsc ∧ s.sreg v .fflags l = v.w.fflags.setWidth 32 ∧ s.sreg v .fen l = v.w.fen.setWidth 32
      ∧ s.sreg v .crank l = BitVec.ofNat 32 v.b.crank ∧ s.sreg v .bconf l = BitVec.ofNat 32 v.b.bconf
      ∧ s.sreg v .ctx l = BitVec.ofNat 32 (v.g.ctx % 4096)
      ∧ (∀ e, v.w.laneAt l = .on e → s.sreg v .split l =
          BitVec.ofNat 32 (((List.range 8).map (fun k => if v.w.groupOf k ≠ 0 then 2 ^ k else 0)).sum + 256 * e
            + 65536 * (List.range 32).countP (fun k => v.w.laneAt k == .held)))
      ∧ (v.travels = false → s.sreg v .tid l = BitVec.ofNat 32 (32 * v.w.wid + l) ∧ s.sreg v .warp l = BitVec.ofNat 32 v.w.wid
          ∧ s.sreg v .bid l = BitVec.ofNat 32 v.b.bid ∧ s.sreg v .bidh l = BitVec.ofNat 32 (v.b.bid / 2 ^ 32))
      ∧ (v.w.trap = none → ∀ r ∈ [SReg.tcause, .tpc, .tpch, .twin, .tmask, .taddr, .taddrh, .titer], s.sreg v r l = 0)
      ∧ (∀ x, v.w.trap = some x → s.sreg v .tcause l = BitVec.ofNat 32 x.cause ∧ s.sreg v .tpc l = x.pc.extractLsb' 0 32
          ∧ s.sreg v .tpch l = x.pc.extractLsb' 32 32 ∧ s.sreg v .tmask l = x.mask ∧ s.sreg v .twin l = x.win
          ∧ s.sreg v .taddr l = x.addr.extractLsb' 0 32 ∧ s.sreg v .taddrh l = x.addr.extractLsb' 32 32 ∧ s.sreg v .titer l = BitVec.ofNat 32 x.iter))

/-- A REP in the same fetch block as its instruction, whose bytes can be read, and which meets no decode cause, leaves its
group at the REP with iteration 0 of the instruction to come, count plus 1 times, the steps of its fields and the lanes its
guard selects; registers, predicates and the other warps stay. Each iteration issues the word whose register fields D, A, B
and C have moved by the iteration's number of steps, in the lanes selected at the start, whatever its guard says since. Of
IADD, IMAD, FFMA, MOVI and ISETP: while another iteration is to come the group stays at the REP and the executed counts
stand, and with the last the REP is over, the group goes on and counts one instruction. (R65, R66) -/
def Obligations.RepeatStarts : Prop :=
  (∀ (cnt : W4) (sd sa sb sc : W3) (s s1 : State) (v : View) (bs : List Byte), Issues s hdr0 (.rep cnt sd sa sb sc) v →
    v.next.toNat / 32 = v.pc.toNat / 32 → s.fetchBytes v.core v.slot v.g v.w v.next = (.bytes bs, s1) →
    let word := ofBytes bs
    let gp : W4 := BitVec.ofNat 4 (word / 2 ^ 12)
    let gn : Bool := word.testBit 16
    let r : RepSt := { base := v.pc, pc := v.next, word := word, cnt := cnt.toNat + 1, iter := 0, sd := sd.toNat, sa := sa.toNat,
                       sb := sb.toNat, sc := sc.toNat, entry := v.entry, grp := v.grp, act := v.w.guarded ⟨gp, gn, 0, 0⟩ v.grp }
    v.repCause r gp gn = none →
    ∃ t w, exec (.rep cnt sd sa sb sc) s = .next t ∧ tget t.warps v.key = some w ∧ w = { v.w with rep := some r, lastIssue := w.lastIssue }
      ∧ ∀ j, j ≠ v.key → tget t.warps j = tget s.warps j)
  ∧ (∀ (r : RepSt) (k : Nat), r.word < 2 ^ 128 →
      let fields : List (Nat × Nat) := [(24, r.sd), (33, r.sa), (42, r.sb), (51, r.sc)]
      (∀ f ∈ fields, r.word / 2 ^ f.1 % 512 + k * f.2 < 512) →
      (∀ f ∈ fields, (stepWord r k).extractLsb' f.1 9 = BitVec.ofNat 9 (r.word / 2 ^ f.1 % 512 + k * f.2))
      ∧ ∀ j, j < 24 ∨ (60 ≤ j ∧ j < 128) → (stepWord r k).getLsbD j = r.word.testBit j)
  ∧ (∀ (h : Hdr) (s : State) (v : View) (r : RepSt), v.w.rep = some r →
      (∀ i, s.view hdr0 = some v → decode (stepWord r r.iter) = .ok i → s.fetchCur = .instr i
        { s with cur := { s.cur with pc := r.pc, next := seqNext r.pc (wordBytes (stepWord r r.iter)), word := (stepWord r r.iter).toNat } })
      ∧ (s.view h = some v → v.act = r.act &&& v.grp)
      ∧ ∀ (m : IntM) (n : Rnd) (k : ICnd) (d a c : W9) (b : SrcB) (p : W4) (y : W32) (x : Option Mods),
        ∀ i ∈ [Instr.iadd h m d a b, .imad h m d a b c, .ffma h n d a b c x, .movi h d y, .isetp h k p a b], Issues s h i v →
        ∃ t w, exec i s = .next t ∧ tget t.warps v.key = some w ∧
          if r.iter + 1 < r.cnt then w.rep = some { r with iter := r.iter + 1 } ∧ w.count = v.w.count ∧ ∀ l, l < 32 → w.pcAt l = v.w.pcAt l
          else (v.w.reps = [] → w.rep = none) ∧ ∀ l, l < 32 → nth w.count l 0 = nth v.w.count l 0 + (if has v.grp l then 1 else 0)
            ∧ w.pcAt l = if has v.grp l then v.next else v.w.pcAt l)

/-- With no lane faulting and no access to wait for, ST sends for every byte a lane stores on a global path one write to
each of the five dies, the highest lane winning a byte, and stores a scratchpad byte at once; STS stores in the scratchpad;
of a 16-byte store there either half may be stored first, the warp then standing at the store until the other follows. STX sends each lane's bytes to its target block. At issue no byte of memory changes on any die, no scratchpad byte outside
the stored ones, and no register, predicate or special register. A store of 1, 2 or 4 bytes stores the low bytes of B, one
of 8 or 16 the registers from B on, lowest byte first; a load of the stored bytes gives the register words back, zero- or
sign-extended below 32 bits. (R138, R142, R143, R193, R205, R212, R141) -/
def Obligations.Stores : Prop :=
  (∀ (h : Hdr) (sz : Width) (a b : W9) (cm : W8) (off : Option W32) (x : Option MemX) (s : State) (v : View),
      let n := widthBytes sz
      let va (l : Nat) : W64 := v.w.rd64 a.toNat l + (off.getD 0).signExtend 64
      let pad (l : Nat) : W32 := v.w.rd a.toNat l + off.getD 0
      let byteIn (part : Nat → Bool) (at_ : Nat → Option Nat) (p : Nat) : Option Byte :=
        (v.lanes.filterMap (fun l => (at_ l).bind (fun q =>
          if q ≤ p ∧ p < q + n ∧ part ((p - q) / 8) then (v.storeBytes sz b l)[p - q]? else none))).getLast?
      let byte := byteIn (fun _ => true)
      let glob (l : Nat) : Option Nat := if isGlobal (pathOf (va l)) then s.paOf v.asker v.g.ctx (va l) needW else none
      let scratch (l : Nat) : Option Nat := if pathOf (va l) = 8 then some ((va l).toNat % 2 ^ 32) else none
      let padAfter (t : State) (part : Nat → Bool) (at_ : Nat → Option Nat) : Prop :=
        ∃ c, t.blk? v.bk = some c ∧ ∀ p, c.padLoad p 1 = [(byteIn part at_ p).getD (nth (v.b.padLoad p 1) 0 0)]
      -- the whole store, or its first half with the group to come again, or the half that follows
      let once (t : State) (at_ : Nat → Option Nat) : Prop :=
        (∃ w, Flows s v w (fun _ => v.next) t ∧ w = { v.w with clk := w.clk } ∧ padAfter t (fun _ => true) at_)
        ∨ (n = 16 ∧ (∃ l, has v.act l = true ∧ (at_ l).isSome) ∧ ∃ high w, tget t.warps v.key = some w
          ∧ w = { v.w with clk := w.clk, half := some (v.entry, high) } ∧ (∀ j, j ≠ v.key → tget t.warps j = tget s.warps j)
          ∧ padAfter t (fun i => i == if high then 1 else 0) at_)
      let other (i : Instr) (at_ : Nat → Option Nat) : Prop := ∀ e high, n = 16 → v.w.half = some (e, high) →
        ∃ t w, exec i s = .next t ∧ Flows s v w (fun _ => v.next) t ∧ w = { v.w with clk := w.clk, half := none }
          ∧ t = { s with warps := t.warps, blocks := t.blocks, issueCount := t.issueCount } ∧ (∀ d p, t.storeByte d p = s.storeByte d p)
          ∧ (∀ j, j ≠ v.bk → t.blk? j = s.blk? j) ∧ padAfter t (fun i => i == if high then 0 else 1) at_
      let others (t : State) : Prop := ∀ j, j ≠ v.bk → t.blk? j = s.blk? j
      let noByte (t : State) : Prop := ∀ d p, t.storeByte d p = s.storeByte d p
      (Issues s h (.st h sz a b cm off x) v → s.firstFault v .st (memX x).scope n needW va = none →
        s.accessWaits v va n (some (memX x).colour) (isRel (memX x).order) = false → v.w.half = none →
        ∃ t, exec (.st h sz a b cm off x) s = .next t ∧ once t scratch
          ∧ t = { s with warps := t.warps, blocks := t.blocks, dies := t.dies, cores := t.cores, msgs := t.msgs, nextKey := t.nextKey,
                         writes := t.writes, fresh := t.fresh, issueCount := t.issueCount }
          ∧ noByte t ∧ others t
          ∧ ∃ new, t.msgs = s.msgs ++ new ∧ (∀ m ∈ new, m.isWrite = true ∧ m.origin = v.die)
            ∧ ∀ d p y, d < 5 → ((∃ m ∈ new, m.dst = d ∧ (p, y) ∈ m.bytes) ↔ byte glob p = some y))
      ∧ (Issues s h (.sts h sz a b off) v → v.padFault n pad = none → v.w.acquiring v.act = false → v.w.colourBusy v.act 0 = false →
        s.padWaits v pad n = false → v.w.half = none →
        ∃ t, exec (.sts h sz a b off) s = .next t ∧ once t (fun l => some (pad l).toNat)
          ∧ t = { s with warps := t.warps, blocks := t.blocks, fresh := t.fresh, issueCount := t.issueCount } ∧ noByte t ∧ others t)
      ∧ (Issues s h (.st h sz a b cm off x) v → other (.st h sz a b cm off x) scratch)
      ∧ (Issues s h (.sts h sz a b off) v → other (.sts h sz a b off) (fun l => some (pad l).toNat))
      ∧ (Issues s h (.stx h sz a b off x) v → s.firstFault v .stx (memX x).scope n 0 va = none →
        ∃ t, exec (.stx h sz a b off x) s = .next t ∧ Flows s v v.w (fun _ => v.next) t
          ∧ t = { s with warps := t.warps, stxs := t.stxs, nextKey := t.nextKey, issueCount := t.issueCount } ∧ noByte t
          ∧ ∃ new, t.stxs = s.stxs ++ new ∧ new.map (fun m => (m.blk, m.src, m.off, m.bytes, m.parity)) = v.lanes.map (fun l =>
              ((s.stxTarget v (memX x).scope (va l) n).getD 0, v.bk, (va l).toNat % 2 ^ 32, v.storeBytes sz b l, v.b.parity))))
  ∧ (∀ (v : View) (b : W9) (l : Nat) (sx : Bool),
      loadWords ⟨sx, .w32⟩ (v.storeBytes .w32 b l) = [v.w.rd b.toNat l]
      ∧ loadWords ⟨sx, .w64⟩ (v.storeBytes .w64 b l) = [v.w.rd b.toNat l, v.w.rd (b.toNat + 1) l]
      ∧ loadWords ⟨sx, .w128⟩ (v.storeBytes .w128 b l) = [v.w.rd b.toNat l, v.w.rd (b.toNat + 1) l, v.w.rd (b.toNat + 2) l, v.w.rd (b.toNat + 3) l]
      ∧ loadWords ⟨sx, .w8⟩ (v.storeBytes .w8 b l) =
          [if sx then ((v.w.rd b.toNat l).extractLsb' 0 8).signExtend 32 else ((v.w.rd b.toNat l).extractLsb' 0 8).setWidth 32]
      ∧ loadWords ⟨sx, .w16⟩ (v.storeBytes .w16 b l) =
          [if sx then ((v.w.rd b.toNat l).extractLsb' 0 16).signExtend 32 else ((v.w.rd b.toNat l).extractLsb' 0 16).setWidth 32])

/-- With no fault known at issue and no access to wait for, a load enters the window of its warp with its accesses, one of
16 bytes as its two halves, and with the words of the lanes that read the scratchpad; of 16 bytes there either half may be read at
issue and the other left to be read. PREF with the lanes that would not fault; WAITA with its offsets and
comparison words. No register, predicate, special register, memory or scratchpad byte changes at issue. (R138, R139, R141,
R144, R153, R193, R194) -/
def Obligations.Loads : Prop :=
  ∀ (h : Hdr) (m : MW) (d a : W9) (b : SrcB) (c : WaitCond) (off : Option W32) (x : Option MemX) (s : State) (v : View),
    let n := widthBytes m.w
    let va (l : Nat) : W64 := v.w.rd64 a.toNat l + (off.getD 0).signExtend 64
    let pad (l : Nat) : W32 := v.w.rd a.toNat l + off.getD 0
    -- how: 0 every scratchpad byte is read now, 1 the low halves, 2 the high halves
    let starts (i : Instr) (kind : Nat → OpKind) (dst : List Nat) (res : Nat → List (List W32) → Prop) : Prop :=
      ∃ how t w w1 o, (how = 0 ∨ n = 16 ∧ (how = 1 ∨ how = 2)) ∧ exec i s = .next t ∧ Flows s v w (fun _ => v.next) t ∧ w = { v.w with clk := w.clk }
        ∧ t = { s with warps := t.warps, fresh := t.fresh, nextKey := t.nextKey, issueCount := t.issueCount }
        ∧ (∀ d p, t.storeByte d p = s.storeByte d p)
        ∧ tget t.warps v.key = some w1 ∧ o ∈ w1.ops ∧ o.id = s.nextKey ∧ o.kind = kind how ∧ o.done = false ∧ o.fault = none ∧ o.pc = v.pc
        ∧ o.group = v.grp ∧ o.act = v.act ∧ o.la = h.la.toNat ∧ o.dst.map Prod.fst = dst ∧ res how o.res
    let acc : List Access := (v.lanes.filter (fun l => isGlobal (pathOf (va l)))).flatMap (fun l =>
      if n = 16 then [⟨l, va l, 8, false⟩, ⟨l, va l + 8, 8, false⟩] else [⟨l, va l, n, false⟩])
    let later (how : Nat) (lds : Bool) (at_ : Nat → W64) (ls : List Nat) : List Access :=
      if how = 0 then [] else ls.map (fun l => ⟨l, if how = 1 then at_ l + 8 else at_ l, 8, lds⟩)
    let pads : List Nat := v.lanes.filter (fun l => pathOf (va l) = 8)
    let padWords (how : Nat) (r : List (List W32)) (l o : Nat) : Prop := ∀ i, i < (loadWords m (v.b.padLoad o n)).length →
      how = 0 ∨ (how = 1 ↔ i < 2) →
      nth (nth r i []) l 0 = nth (loadWords m (v.b.padLoad o n)) i 0
    (Issues s h (.ld h m d a off x) v → (∀ l, has v.act l = true → s.preCheck v (.ld m.w) (memX x).scope n (va l) = none) →
      s.accessWaits v va n none false = false →
      v.padPoison (fun l => if pathOf (va l) = 8 then some ((va l).toNat % 2 ^ 32) else none) n = none →
      starts (.ld h m d a off x) (fun how => let all := later how false va pads ++ acc
          if all = [] then .loaded else .load all m (memX x) (acc == [])) (widthRegs m.w d)
        (fun how r => ∀ l, has v.act l = true → pathOf (va l) = 8 → padWords how r l ((va l).toNat % 2 ^ 32)))
    ∧ (Issues s h (.lds h m d a off) v → v.padFault n pad = none → v.w.acquiring v.act = false → s.padWaits v pad n = false →
      v.padPoison (fun l => some (pad l).toNat) n = none →
      starts (.lds h m d a off) (fun how => let all := later how true (fun l => padVa (pad l)) v.lanes
          if all = [] then .loaded else .load all m (memX none) true) (widthRegs m.w d)
        (fun how r => ∀ l, has v.act l = true → padWords how r l (pad l).toNat))
    ∧ (Issues s h (.pref h a off) v →
      starts (.pref h a off) (fun _ => .pref ((v.lanes.filter (fun l => (s.laneFault v .pref .dflt 1 needRD (va l)).isNone)).map (fun l => ⟨l, va l, 1, false⟩)))
        [] (fun _ r => r = []))
    ∧ (Issues s h (.waita h c d a b) v → v.padFault 4 (fun l => v.w.rd a.toNat l) = none → v.w.acquiring v.act = false →
      s.padWaits v (fun l => v.w.rd a.toNat l) 4 = false → v.padPoison (fun l => some (v.w.rd a.toNat l).toNat) 4 = none →
      starts (.waita h c d a b) (fun _ => .waita c (v.lanes.map (fun l => (l, (v.w.rd a.toNat l).toNat))) (v.lanes.map (fun l => (l, v.w.srcB b l))))
        [d.toNat] (fun _ _ => True))

/-- With no lane faulting: CCTL.inv discards the copies that the core holds of the lanes' lines, and those of its die for
lines homed elsewhere that hold no poison; .wb goes on when the home owes no write of the die to them and waits otherwise,
and .wbinv also discards; ICINV enters its lines with the stores it follows and the threads that executed it; FENCE, which
waits for the threads' loads, atomics and ICINVs, makes every later access of the active threads follow their reads, and every
later write the stores of its colours, which a later load need not wait for (R213). No byte of memory and no register changes. (R144, R151, R211, R216) -/
def Obligations.CacheControl : Prop :=
  ∀ (h : Hdr) (mode : CctlMode) (a : W9) (off : Option W32) (cm : W8) (sc : Option Scope) (s : State) (v : View),
    let va (l : Nat) : W64 := v.w.rd64 a.toNat l + (off.getD 0).signExtend 64
    let lines := s.linesAt v va
    let gone (t : State) : Prop := ∀ n ∈ lines, tget (t.core v.core).lines n = none
      ∧ (homeOf (n * 128) ≠ v.die → (∀ x ∈ (s.die v.die).bad, x / 16 ≠ n) → tget (t.die v.die).copies n = none)
    let keeps (t : State) : Prop := t.cores = s.cores ∧ ∀ d, (t.die d).copies = (s.die d).copies ∧ (t.die d).vec = (s.die d).vec
    (Issues s h (.cctl h mode a off) v → s.firstFault v .cctl .dflt 1 needRD va = none →
      ∃ t w, exec (.cctl h mode a off) s = .next t ∧ Flows s v w (fun _ => v.next) t
        ∧ t = { s with warps := t.warps, cores := t.cores, dies := t.dies, issueCount := t.issueCount }
        ∧ if v.act = 0 then w = v.w ∧ t.cores = s.cores ∧ t.dies = s.dies
          else if mode = .inv then w = v.w ∧ gone t
          else if lines.any (s.owed v.die) then
            w = { v.w with wait := .wb lines (mode == .wbinv), waitSince := s.tsc } ∧ t.cores = s.cores ∧ t.dies = s.dies
          else w = v.w ∧ (mode = .wbinv → gone t) ∧ (mode = .wb → keeps t))
    ∧ (Issues s h (.icinv h a off) v → s.firstFault v .icinv .dflt 1 needRD va = none →
        (∀ c, c < 8 → v.w.colourBusy v.act (BitVec.ofNat 3 c) = false) →
      ∃ t w vec, exec (.icinv h a off) s = .next t ∧ Passes s v w (fun _ => v.next) t
        ∧ w = { v.w with icinvs := v.w.icinvs ++ lines.map (fun n => (n, vec, v.act)) }
        ∧ ∀ l, has v.act l = true → ∀ c, c < 8 → (nth (v.w.clkAt l).col c .zero).le vec = true)
    ∧ (Issues s h (.fence h cm sc) v → v.w.releaseWaits v.act = false →
      ∃ t w, exec (.fence h cm sc) s = .next t ∧ Passes s v w (fun _ => v.next) t ∧ w = { v.w with clk := w.clk }
        ∧ ∀ l, l < 32 → w.clkAt l = if has v.act l then
            let k := v.w.clkAt l
            { k with base := k.base.join k.rd, own := VC.joins (k.own ::
                (List.range 8).map (fun c => if cm.getLsbD c then nth k.col c .zero else .zero)) } else v.w.clkAt l)

/-- With no lane faulting and no access to wait for: where every active lane names a global location, one message for each
location goes to its home with the lanes in ascending order, and no memory or scratchpad byte changes at issue; where all
name one scratchpad location, it takes the combined result at once and every lane receives its old value, and no other
scratchpad byte changes. (R146, R147, R148, R150, R193) -/
def Obligations.Atomics : Prop :=
  ∀ (h : Hdr) (d a b c : W9) (off : Option W32) (x : Option MemX) (s : State) (v : View),
    let va (l : Nat) : W64 := v.w.rd64 a.toNat l + (off.getD 0).signExtend 64
    let opnd (dbl : Bool) (r : W9) (l : Nat) : W64 := if dbl then v.w.rd64 r.toNat l else (v.w.rd r.toNat l).setWidth 64
    let runs (i : Instr) (op : Option AOp) (n : Nat) (y z : Nat → W64) (dst : List Nat) : Prop :=
      Issues s h i v → s.firstFault v .atomic (memX x).scope n (needRD + needW) va = none →
      s.accessWaits v va n (some (memX x).colour) (isRel (memX x).order) = false →
      v.padPoison (fun l => if pathOf (va l) = 8 then some ((va l).toNat % 2 ^ 32) else none) n = none →
      ((∀ l, has v.act l = true → isGlobal (pathOf (va l)) = true) →
        let groups := groupLanes (v.lanes.filterMap (fun l => (s.paOf v.asker v.g.ctx (va l) 0).map (fun pa => (l, pa))))
        ∃ t w1 o, exec i s = .next t ∧ Flows s v v.w (fun _ => v.next) t
          ∧ t = { s with warps := t.warps, dies := t.dies, cores := t.cores, msgs := t.msgs, nextKey := t.nextKey, issueCount := t.issueCount }
          ∧ (∀ e p, t.storeByte e p = s.storeByte e p)
          ∧ tget t.warps v.key = some w1 ∧ o ∈ w1.ops ∧ o.id = s.nextKey ∧ o.dst.map Prod.fst = dst
          ∧ o.kind = .atomic (v.lanes.map (fun l => ⟨l, va l, n, false⟩)) (memX x) groups.length
          ∧ ∃ new, t.msgs = s.msgs ++ new ∧ new.map (fun m => (m.origin, m.dst, m.addr, m.kind)) =
              groups.map (fun g => (v.die, homeOf g.1, g.1, MsgKind.atomic op n (g.2.map (fun l => ⟨l, y l, z l⟩)) (memX x) v.core v.slot s.nextKey)))
      ∧ (∀ p, p < 2 ^ 32 → v.act ≠ 0 → (∀ l, has v.act l = true → pathOf (va l) = 8 ∧ (va l).toNat % 2 ^ 32 = p) →
        let old : W64 := BitVec.ofNat 64 (ofBytes (v.b.padLoad p n))
        let r := atomApply op old (v.lanes.map (fun l => ⟨l, y l, z l⟩))
        ∃ t w w1 o bl, exec i s = .next t ∧ Flows s v w (fun _ => v.next) t ∧ w = { v.w with clk := w.clk }
          ∧ t = { s with warps := t.warps, blocks := t.blocks, nextKey := t.nextKey, issueCount := t.issueCount }
          ∧ t.blk? v.bk = some bl ∧ bl.padLoad p n = bytesOf n r.2.toNat
          ∧ (∀ q, q < p ∨ p + n ≤ q → bl.padLoad q 1 = v.b.padLoad q 1)
          ∧ tget t.warps v.key = some w1 ∧ o ∈ w1.ops ∧ o.id = s.nextKey ∧ o.dst.map Prod.fst = dst
          ∧ ∀ j, j < dst.length → ∀ e ∈ r.1, nth (nth o.res j []) e.1 0 = e.2.extractLsb' (32 * j) 32)
    (∀ op : AOp, runs (.atom h op d a b off x) (some op) (if op.is64 then 8 else 4) (opnd op.is64 b) (fun _ => 0) (opRegs op.is64 d)
      ∧ runs (.red h op a b off x) (some op) (if op.is64 then 8 else 4) (opnd op.is64 b) (fun _ => 0) [])
    ∧ ∀ dbl : Bool, runs (.atomc h dbl d a b c off x) none (if dbl then 8 else 4) (opnd dbl b) (opnd dbl c) (opRegs dbl d)

/-- A BAR whose group executes it anew, with no fault, no memory operation unserved and no ICINV under way, counts its
threads in the current phase, and waits or goes on by its mode; a block barrier without a swap completes its phase exactly
when the warp's live threads have all executed it and the arrivals, those of warps that have retired since among them, have
come to the number of member warps that have not retired. BARSV reads the barrier. BARLD sets it from the lanes' words; more arrivals than that number
are BAR_OVERARRIVE, and a block barrier whose arrivals then meet it completes. Those of a grid barrier in the hub's phase stand
at the hub. No register but BARSV's, no predicate and no byte of memory
changes. (R31, R154, R155, R156, R216) -/
def Obligations.NamedBarriers : Prop :=
  ∀ (h : Hdr) (mode : BarMode) (swap : Bool) (n d : W9) (a : W9) (s : State) (v : View),
    let k := n.toNat
    let r := v.b.bar k
    let ran (f : BarSt) : Mask := (tget f.exec v.w.wid).getD 0
    let own : Prop := v.b.state ≠ .out ∧ ∀ m ∈ s.arrs ++ v.b.wires, m.n ≠ k
    (Issues s h (.bar h mode swap n) v → v.act = v.grp → (∀ l, has v.act l = true → nth v.w.lwait l .none = .none) →
      v.barFault mode k v.act = none → (mode = .wait ∨ v.w.releaseWaits v.act = false) →
      ∃ t w c, exec (.bar h mode swap n) s = .next t ∧ t.blk? v.bk = some c ∧
        let stays : Bool := (c.bar k).phase == r.phase && (mode == .sync || (mode == .wait && has r.arrived v.w.wid))
        Flows s v w (fun _ => if stays then v.pc else v.next) t ∧ w = { v.w with lwait := w.lwait, lwaitSince := w.lwaitSince, clk := w.clk }
        ∧ t = { s with warps := t.warps, blocks := t.blocks, arrs := t.arrs, swaps := t.swaps, nextKey := t.nextKey, issueCount := t.issueCount }
        ∧ (∀ l, l < 32 → nth w.lwait l .none = if has v.act l then (if stays then .bar k r.phase (mode == .sync) else .none) else nth v.w.lwait l .none)
        ∧ (mode = .wait → c.bar k = r)
        ∧ (mode ≠ .wait → (c.bar k).phase = r.phase → ran (c.bar k) = ran r ||| v.act)
        ∧ (mode ≠ .wait → k < 64 → swap = false → r.swap = false → r.swapping = false → r.remote = 0 → r.members = [] → own →
            (c.bar k).phase = if v.w.live &&& ~~~ (ran r ||| v.act) = 0
                ∧ popcount (v.b.memberMask v.g k) ≤ popcount (r.arrived ||| laneBit v.w.wid)
              then (r.phase + 1) % 256 else r.phase))
    ∧ (Issues s h (.barsv h d n) v → ∃ t w, exec (.barsv h d n) s = .next t ∧ Passes s v w (fun _ => v.next) t
        ∧ w = { v.w with regs := w.regs } ∧ RegsAfter v [(d.toNat, fun l => s.barsv v.bk v.b k l)] w)
    ∧ (Issues s h (.barld h n a) v → v.act ≠ 0 →
      let word : W32 := v.w.rd a.toNat v.low
      let loaded : BarSt :=
        { r with phase := word.toNat / 2 ^ 24, remote := if 64 ≤ k ∧ k < 112 then word.toNat / 2 ^ 16 % 256 else 0, members := [],
                 arrived := maskOf (fun l => if has v.act l then (v.w.rd a.toNat l).getLsbD 0 else has r.arrived l) }
      let hub : List (Nat × Nat) := (v.g.bar k).members.filter (fun x => x.1 != v.bk) ++ (lanesOf loaded.arrived).map (fun l => (v.bk, l))
      let fits : Prop := if k < 112 then loaded.count ≤ s.barExpected v.bk k v.b v.g
        else loaded.phase = (v.g.bar k).phase → hub.length ≤ s.barExpected v.bk k v.b v.g
      (¬ fits → Stands s h v → Traps (.barld h n a) s v .barOverarrive (BitVec.ofNat 64 k))
      ∧ (fits → ∃ t c, exec (.barld h n a) s = .next t ∧ Flows s v v.w (fun _ => v.next) t ∧ t.blk? v.bk = some c
        ∧ t = { s with warps := t.warps, blocks := t.blocks, swaps := t.swaps, nextKey := t.nextKey, issueCount := t.issueCount,
                       grids := if k < 112 then s.grids else t.grids }
        ∧ (k < 112 → c.bar k = loaded ∨ c.bar k = loaded.complete ∨ c.bar k = { loaded with swapping := true })
        ∧ (112 ≤ k → loaded.phase ≠ (v.g.bar k).phase → c.bar k = loaded ∧ t.grids = s.grids)
        ∧ (112 ≤ k → loaded.phase = (v.g.bar k).phase → ∃ g, tget t.grids v.gk = some g ∧
            ((g.bar k).phase = (v.g.bar k).phase ∧ (g.bar k).members = hub ∧ c.bar k = loaded ∨ (g.bar k).phase = (loaded.phase + 1) % 256))
        ∧ (k < 64 → r.swap = false → r.swapping = false → own → c.bar k =
            if 0 < popcount loaded.arrived ∧ popcount (v.b.memberMask v.g k) ≤ popcount loaded.arrived then loaded.complete else loaded)))

/-- With an active lane, a bound board and, for BPV, no memory operation unserved and no ICINV under way, for BVM an earlier BPV of the warp on the
handle: the request joins those under way with the values, rounds and slots of the active lanes, or the round of the warp's
latest post, and the warp waits for its answer. Nothing else changes, and no byte of memory. VMPOP counts the mask's bits,
VMTST tests the bit that B names modulo 256, VMNEXT finds the lowest set bit not below B, or gives all ones; nothing else
changes. (R158, R159, R160, R283, R288) -/
def Obligations.BoardsAndViewMasks : Prop :=
  (∀ (h : Hdr) (stale hd : W4) (d a c : W9) (vm : W3) (s : State) (v : View) (key : Nat) (bd : Board),
      s.board? v.g hd.toNat = some (key, bd) → v.act ≠ 0 →
      let asks (i : Instr) (kind : BReqKind) (P : BReq → Prop) : Prop := Issues s h i v →
        ∃ t w r, exec i s = .next t ∧ Flows s v w (fun _ => v.next) t ∧ w = { v.w with wait := .board s.nextKey, waitSince := s.tsc }
          ∧ t = { s with warps := t.warps, nextKey := s.nextKey + 1, breqs := s.breqs ++ [r], issueCount := t.issueCount }
          ∧ r.key = s.nextKey ∧ r.board = key ∧ r.kind = kind ∧ r.blk = v.bk ∧ r.wid = v.w.wid ∧ r.act = v.act ∧ r.taken = false ∧ r.fault = none ∧ P r
      (v.w.releaseWaits v.act = false → asks (.bpv h stale d a hd c) .bpv (fun r => r.dst = d.toNat ∧ r.stale = stale.toNat
        ∧ r.lanes.map (fun x => (x.lane, x.value, x.round, x.slot)) =
            v.lanes.map (fun l => (l, v.w.rd64 a.toNat l, v.w.rd c.toNat l, bd.slotOf (v.bidOf l) (v.tidOf l)))))
      ∧ (∀ post, tget v.w.lastPost hd.toNat = some post → asks (.bvm h vm a hd) .bvm (fun r => r.vm = vm.toNat ∧ r.round = post
        ∧ r.level = (v.w.rd a.toNat v.low).toNat))
      ∧ asks (.brst h hd) .brst (fun _ => True))
  ∧ (∀ (h : Hdr) (d : W9) (p : W4) (vm : W3) (b : SrcB),
      let m (v : View) : BitVec 256 := nth v.w.vms vm.toNat 0
      Computes (.vmpop h d vm) h (fun v => [(d.toNat, fun _ => BitVec.ofNat 32 ((List.range 256).countP (fun i => (m v).getLsbD i)))])
      ∧ ComputesPreds (.vmtst h p vm b) h (fun v => [(p.toNat, fun l => (m v).getLsbD ((v.w.srcB b l).toNat % 256))])
      ∧ Computes (.vmnext h d vm b) h (fun v => [(d.toNat, fun l =>
          match (List.range 256).find? (fun i => (m v).getLsbD i && decide ((v.w.srcB b l).toNat ≤ i)) with
          | some i => BitVec.ofNat 32 i
          | none => 0xFFFFFFFF)]))

/-- With an active lane, good maps, room under the block limit and no memory operation unserved, the instruction completes:
one operation with the active lanes, the maps in the lowest active lane, the tile and the guard joins the virtual queue, or
the handler queue, whose guarded head is then decided. No register, predicate, tile, scratchpad or memory byte changes.
(R161, R163, R168, R169, R172, R173) -/
def Obligations.EngineSubmission : Prop :=
  ∀ (h : Hdr) (s48 : Bool) (cv : MConv) (t c3 fa fb : W3) (a b c : W9) (sel : SrcB) (k : W16) (g : GField) (s : State) (v : View),
    let queued (t : State) (o : EOp) : Prop := t.blk? v.bk = some
      (if v.w.trap = none then ({ v.b with vq := v.b.vq ++ [o] } : Block).settle else { v.b with hq := v.b.hq ++ [o] })
    let op (o : EOp) (mask : Mask) (kind : EKind) (guard : Option Nat) : Prop :=
      o.wid = v.w.wid ∧ o.mask = mask ∧ o.kind = kind ∧ o.guard = guard ∧ o.handler = v.w.trap.isSome ∧ o.state = .queued ∧ o.progress = 0
    let only (t : State) : Prop :=
      t = { s with warps := t.warps, blocks := t.blocks, nextKey := t.nextKey, issueCount := t.issueCount }
      ∧ ∀ j, j ≠ v.bk → t.blk? j = s.blk? j
    let m (r : W9) : Map := mapOf ((List.range 8).map (fun i => v.w.rd (r.toNat + i) v.low))
    let guard : Option Nat := if g.gv then some g.gs.toNat else none
    let sends (i : Instr) (kind : EKind) (gd : Option Nat) : Prop :=
      ∃ x o, exec i s = .next x ∧ Flows s v v.w (fun _ => v.next) x ∧ only x ∧ queued x o ∧ op o v.act kind gd ∧ o.id = s.nextKey
    let wa := v.slotWord fa
    let wb := v.slotWord fb
    let ix (l q : Nat) : List Nat := metaIndices s48 k.toNat (v.metaOf c (metaRegs s48 k) l) q
    v.act ≠ 0 → v.b.room 1 = true →
    (Issues s h (.mmz h t) v → sends (.mmz h t) (.mmz t.toNat) none)
    ∧ (Issues s h (.mmwr h cv t a sel) v → v.badSelector cv sel = none →
        sends (.mmwr h cv t a sel) (.mmwr t.toNat cv (v.lanes.map (fun l => (l, v.w.srcB sel l))) (v.lanes.map (fun l => (l, v.w.rd a.toNat l)))) none)
    ∧ (v.w.unserved v.act = false →
      (Issues s h (.mma h t a b k fa fb g) v → v.productCheck a b k.toNat k.toNat wa wb = none →
        sends (.mma h t a b k fa fb g) (.mma t.toNat (m a) (m b) k.toNat wa wb none) guard)
      ∧ (Issues s h (.mmas h s48 t a b c k fa fb g) v → v.productCheck a b (k.toNat / 2) k.toNat wa wb = none →
        (∀ l q, has v.act l = true → q < 4 → metaOk s48 (ix l q) = true) →
        sends (.mmas h s48 t a b c k fa fb g) (.mma t.toNat (m a) (m b) k.toNat wa wb
          (some (s48, v.lanes.flatMap (fun l => (List.range 4).map (fun q => (4 * l + q, metaPositions s48 (ix l q))))))) guard)
      ∧ (Issues s h (.mmld h cv t a g) v → v.mapCheck a (v.rowUse cv false) = none →
        sends (.mmld h cv t a g) (.mmld t.toNat cv (m a)) guard)
      ∧ (Issues s h (.mmst h cv t a c3 g) v → v.mapCheck a (v.rowUse cv true) = none →
        sends (.mmst h cv t a c3 g) (.mmst t.toNat cv (m a) c3.toNat) guard))

/-- MMRD of an unmarked tile and CMPRS with good maps enter the warp's window, CMPRS with a lookahead of 0, and send their
operation, whose completion writes their registers, and CMPRS holds the warp; MMWAIT goes on when no operation on its tile is left and the tile is
unmarked, acquiring the writes of its MMSTs, and otherwise its threads wait. No register, predicate or byte of memory
changes at issue. (R24, R170, R174, R175, R177) -/
def Obligations.EngineReads : Prop :=
  ∀ (h : Hdr) (s48 : Bool) (cv : MConv) (t fa col : W3) (d a b : W9) (sel : SrcB) (k : W16) (s : State) (v : View), v.act ≠ 0 →
    let queued (t : State) (o : EOp) : Prop := t.blk? v.bk = some
      (if v.w.trap = none then ({ v.b with vq := v.b.vq ++ [o] } : Block).settle else { v.b with hq := v.b.hq ++ [o] })
    let op (o : EOp) (mask : Mask) (kind : EKind) (guard : Option Nat) : Prop :=
      o.wid = v.w.wid ∧ o.mask = mask ∧ o.kind = kind ∧ o.guard = guard ∧ o.handler = v.w.trap.isSome ∧ o.state = .queued ∧ o.progress = 0
    let only (t : State) : Prop :=
      t = { s with warps := t.warps, blocks := t.blocks, nextKey := t.nextKey, issueCount := t.issueCount }
      ∧ ∀ j, j ≠ v.bk → t.blk? j = s.blk? j
    let m (r : W9) : Map := mapOf ((List.range 8).map (fun i => v.w.rd (r.toNat + i) v.low))
    let enters (i : Instr) (la : Nat) (dst : List Nat) (kind : EKind) (w : Warp) : Prop :=
      ∃ x w1 p o, exec i s = .next x ∧ Flows s v w (fun _ => v.next) x ∧ only x ∧ queued x o ∧ op o v.act kind none ∧ o.id = s.nextKey + 1
        ∧ tget x.warps v.key = some w1 ∧ p ∈ w1.ops ∧ p.id = s.nextKey ∧ p.kind = .mmrd (s.nextKey + 1) ∧ p.done = false
        ∧ p.la = la ∧ p.dst.map Prod.fst = dst
    let wa := v.slotWord fa
    let nb := scaleCount wa k.toNat
    let ua : MapUse := { rows := rowsOf v.act, kmax := k.toNat, cbits := slotContainer wa, scaled := some (slotScaled wa), nb := nb,
                         write := false, other := none }
    let ub : MapUse := { rows := rowsOf v.act, kmax := k.toNat / 2, cbits := slotContainer wa, scaled := some (slotScaled wa), nb := nb,
                         write := true, other := some ((m a).region (rowsOf v.act) k.toNat nb) }
    let busy : Bool := v.b.eops.any (fun o => o.tile? == some t.toNat && o.id < s.nextKey)
    (Issues s h (.mmrd h cv d t sel) v → tget v.b.marks t.toNat = none → v.badSelector cv sel = none → v.b.room 1 = true →
      enters (.mmrd h cv d t sel) h.la.toNat [d.toNat] (.mmrd t.toNat cv (v.lanes.map (fun l => (l, v.w.srcB sel l))) v.core v.slot s.nextKey) v.w)
    ∧ (Issues s h (.cmprs h s48 d a b k fa col) v → v.mapCheck a ua = none → v.mapCheck b ub = none → v.b.room 1 = true →
      v.w.unserved v.act = false →
      enters (.cmprs h s48 d a b k fa col) 0 (groupRegs d.toNat (metaRegs s48 k))
        (.cmprs s48 (m a) (m b) k.toNat wa col.toNat v.core v.slot s.nextKey) { v.w with wait := .cmprs s.nextKey, waitSince := s.tsc })
    ∧ (Issues s h (.mmwait h t) v → (∀ l, has v.grp l = true → nth v.w.lwait l .none = .none) → tget v.b.marks t.toNat = none →
      if busy then ∃ x w, exec (.mmwait h t) s = .next x ∧ x = { s with warps := x.warps } ∧ tget x.warps v.key = some w
          ∧ w = { v.w with lwait := w.lwait, lwaitSince := w.lwaitSince }
          ∧ ∀ l, l < 32 → nth w.lwait l .none = if has v.grp l then .tile t.toNat s.nextKey else nth v.w.lwait l .none
      else ∃ x w, exec (.mmwait h t) s = .next x ∧ Passes s v w (fun _ => v.next) x
          ∧ w = { v.w with lwait := w.lwait, lwaitSince := w.lwaitSince, clk := w.clk }
          ∧ (∀ l, l < 32 → nth w.lwait l .none = nth v.w.lwait l .none)
          ∧ ∀ l, l < 32 → w.clkAt l = if has v.act l then (v.w.clkAt l).acquire (nth v.b.tclk t.toNat .zero) else v.w.clkAt l)

/-- JOB sends the card of 32 registers of the lowest active lane; QPUSH to q0 adds the words of the active lanes in
ascending order to the card under assembly, and sends a card that becomes full for every thread that pushed a word of it; QPOP of q1 waits for a ticket in the window;
GSET sets or, with pT, clears a guard slot from the lowest active lane, and the queue's guarded head is decided again. No
register, predicate or byte of memory changes. (R81, R178, R179, R181, R182, R168) -/
def Obligations.JobsTicketsGuards : Prop :=
  ∀ (h : Hdr) (d a : W9) (g p : W4) (s : State) (v : View), v.act ≠ 0 →
    let queued (t : State) (o : EOp) : Prop := t.blk? v.bk = some
      (if v.w.trap = none then ({ v.b with vq := v.b.vq ++ [o] } : Block).settle else { v.b with hq := v.b.hq ++ [o] })
    let op (o : EOp) (mask : Mask) (kind : EKind) (guard : Option Nat) : Prop :=
      o.wid = v.w.wid ∧ o.mask = mask ∧ o.kind = kind ∧ o.guard = guard ∧ o.handler = v.w.trap.isSome ∧ o.state = .queued ∧ o.progress = 0
    let only (t : State) : Prop :=
      t = { s with warps := t.warps, blocks := t.blocks, nextKey := t.nextKey, issueCount := t.issueCount }
      ∧ ∀ j, j ≠ v.bk → t.blk? j = s.blk? j
    let card : List W32 := (List.range 32).map (fun i => v.w.rd (a.toNat + i) v.low)
    let words : List W32 := v.w.card ++ v.lanes.map (v.w.rd a.toNat)
    (Issues s h (.job h a) v → v.w.card = [] → v.cardCause card = none → v.b.room 1 = true → v.w.unserved v.act = false →
      ∃ x o, exec (.job h a) s = .next x ∧ Flows s v v.w (fun _ => v.next) x ∧ only x ∧ queued x o
        ∧ op o v.act (.job card) (cardOf card).guard)
    ∧ (Issues s h (.qpush h 0 a) v → v.b.room 1 = true →
      (words.length < 32 → ∃ x w, exec (.qpush h 0 a) s = .next x ∧ Passes s v w (fun _ => v.next) x
        ∧ w = { v.w with card := words, cardClk := w.cardClk, cardWho := v.w.cardWho ||| v.act })
      ∧ (words.length = 32 → v.cardCause words = none → v.w.unserved (v.w.cardWho ||| v.act) = false → ∃ x w o, exec (.qpush h 0 a) s = .next x ∧ Flows s v w (fun _ => v.next) x ∧ only x
        ∧ w = { v.w with card := [], cardClk := .zero, cardWho := 0 } ∧ queued x o ∧ op o (v.w.cardWho ||| v.act) (.job words) (cardOf words).guard))
    ∧ (Issues s h (.qpop h d 1) v → ∃ x w1 o, exec (.qpop h d 1) s = .next x
        ∧ Passes { s with nextKey := s.nextKey + 1 } v v.w (fun _ => v.next) x
        ∧ tget x.warps v.key = some w1 ∧ o ∈ w1.ops ∧ o.id = s.nextKey ∧ o.kind = .qpop 1 ∧ o.done = false ∧ o.dst.map Prod.fst = [d.toNat])
    ∧ (Issues s h (.gset h g p) v → ∃ x, exec (.gset h g p) s = .next x ∧ Flows s v v.w (fun _ => v.next) x ∧ only x
        ∧ let slots := lput v.b.gslots g.toNat none (fun _ => if p = 15 then none else some (v.w.pred p v.low))
          x.blk? v.bk = some ({ v.b with gslots := slots } : Block).settle)

/-- With an active lane, DRAW and a BURN that is not denied leave the level and count of windows of the lowest active lane
as the block's next request; a SHUNT of 1 to 8 that fits every boundary next to the core's layer, and one of 0 windows, does
so and writes true, one of amount 0 writes false, and one that does not fit writes false without SHTRAP. The live request
and everything else stays. SPAWN of a count of warps at an entry of the launch that can be read, with free slots and under
SPAWNA, starts them in the block, with the first eight registers of the lowest active lane as arguments; SENDW to a die
whose mailbox has room sends the eight words of the lowest active lane with HOPS 0. No register, predicate or byte of memory
of the issuing warp changes. (R183, R184, R185, R186, R40, R41, R187, R188, R189) -/
def Obligations.PowerSpawnAndSend : Prop :=
  (∀ (h : Hdr) (p : W4) (b : SrcB) (s : State) (v : View), v.act ≠ 0 →
      let x : Nat := (v.w.srcB b v.low).toNat
      let ask : Option (Nat × Nat) := some (x % 16, x / 2 ^ 16)
      let col := s.col (v.core / 4)
      let denied : Bool := x / 2 ^ 16 != 0 &&
        (decide (16 < s.otherBurn v.core v.bk + x % 16 + nth col.hw (v.core % 4) 0) || (x % 16 != 0 && decide (5 ≤ col.tband)))
      let fits : Bool := (boundariesOf (v.core % 4)).all (fun n => decide (s.reservedOn (v.core / 4) n v.bk + x % 16 ≤ 8))
      let becomes (t : State) (c : Block) : Prop :=
        t = { s with warps := t.warps, blocks := t.blocks, issueCount := t.issueCount } ∧ t.blk? v.bk = some c ∧ ∀ j, j ≠ v.bk → t.blk? j = s.blk? j
      let answers (ok asked : Bool) : Prop := ∃ t w, exec (.shunt h p b) s = .next t ∧ Flows s v w (fun _ => v.next) t
        ∧ w = { v.w with preds := w.preds } ∧ PredsAfter v [(p.toNat, fun _ => ok)] w
        ∧ becomes t (if asked then { v.b with shunt := { v.b.shunt with next := ask } } else v.b)
      (Issues s h (.draw h b) v → ∃ t, exec (.draw h b) s = .next t ∧ Flows s v v.w (fun _ => v.next) t
        ∧ becomes t { v.b with draw := { v.b.draw with next := ask } })
      ∧ (Issues s h (.burn h b) v → denied = false → ∃ t, exec (.burn h b) s = .next t ∧ Flows s v v.w (fun _ => v.next) t
        ∧ becomes t { v.b with burn := { v.b.burn with next := ask } })
      ∧ (Issues s h (.shunt h p b) v →
        (x / 2 ^ 16 = 0 → answers true true)
        ∧ (x / 2 ^ 16 ≠ 0 → x % 16 = 0 → answers false false)
        ∧ (x / 2 ^ 16 ≠ 0 → x % 16 ≠ 0 → x % 16 ≤ 8 → fits = true → answers true true)
        ∧ (x / 2 ^ 16 ≠ 0 → x % 16 ≠ 0 → 8 < x % 16 ∨ fits = false → v.g.rec_.flag 7 = false → answers false false)))
  ∧ (∀ (h : Hdr) (b : SrcB) (a d : W9) (s : State) (v : View), v.act ≠ 0 → v.w.unserved v.act = false →
      let x : Nat := (v.w.srcB b v.low).toNat
      let count := x / 2 ^ 16 % 32
      let die := (v.w.rd d.toNat v.low).toNat
      (Issues s h (.spawn h b) v → ∀ pc, s.entryAt v.die v.g.ctx v.g.rec_.entry (x % 2 ^ 16) = some pc → count ≤ s.freeSlots v.core →
        s.spawned v.bk v.b + count ≤ v.g.rec_.spawna →
        ∃ t w1, exec (.spawn h b) s = .next t ∧ tget t.warps v.key = some w1 ∧ w1 = v.w.flowOf w1
          ∧ (∀ l, has v.grp l = true → w1.pcAt l = if v.again then v.w.pcAt l else v.next)
          ∧ (∀ e q, t.storeByte e q = s.storeByte e q)
          ∧ ∀ i, i < count → ∃ k w, tget s.warps k = none ∧ tget t.warps k = some w ∧ k / 64 = v.core ∧ w.blk = v.bk ∧ w.wid = v.b.nextWid + i
            ∧ w.launched = false ∧ (∀ l, l < 32 → w.pcAt l = pc ∧ w.laneAt l = .on 0)
            ∧ ∀ j l, j < 8 → j < v.g.ceils.length → l < 32 → w.rd j l = v.w.rd j v.low)
      ∧ (Issues s h (.sendw h a d) v → die < 4 → s.mailboxLoad die < Config.mailboxSize →
        ∃ t q, exec (.sendw h a d) s = .next t ∧ Flows s v v.w (fun _ => v.next) t
          ∧ t = { s with warps := t.warps, nextKey := s.nextKey + 1, packets := s.packets ++ [q], issueCount := t.issueCount }
          ∧ q.key = s.nextKey ∧ q.die = die ∧ q.grid = v.gk ∧ (∀ i, 1 ≤ i → i < 8 → nth q.words i 0 = v.w.rd (a.toNat + i) v.low)
          ∧ (nth q.words 0 0).toNat / 2 ^ 19 % 4 = 0
          ∧ ∀ j, j < 32 → j ≠ 19 → j ≠ 20 → (nth q.words 0 0).getLsbD j = (v.w.rd a.toNat v.low).getLsbD j))

/-- With a handler and outside one, for a warp with nothing in its window and no cause pending but the one named: TAKE_TRAP
enters the handler with the pending asynchronous cause, SPLIT_HANG with its own once the one-group condition has held long
enough, WATCHDOG with its own once a thread's or the warp's wait, but for a BRST's, has lasted the limit of the context; the record names the
ready group with the lowest PC, or with none ready the group with the lowest PC, every live thread stands at the handler, and
registers, predicates and memory stay. NAP_WAKE ends a nap whose time has come. (R219, R220, R223, R224, R44, R227, R129) -/
def Obligations.WarpSteps : Prop :=
  ∀ (core slot : Nat) (s : State) (w : Warp) (b : Block) (g : Grid),
    let k := warpKey core slot
    tget s.warps k = some w → s.blk? w.blk = some b → tget s.grids b.grid = some g →
    let quiet : Prop := g.rec_.handler ≠ 0 ∧ w.trap = none ∧ w.pend = none ∧ w.ops = [] ∧ w.rep = none ∧ w.reps = [] ∧ w.half = none ∧ w.halted = false ∧ w.wait.mustEnd = false
    let least (P : Nat → Prop) (pc : W64) (mask : Mask) : Prop := ∃ e, mask = w.groupOf e ∧ w.entryPc e = some pc ∧ P e
      ∧ ∀ j p, j < 8 → P j → w.entryPc j = some p → pc.toNat ≤ p.toNat
    let named (pc : W64) (mask : Mask) : Prop := (∃ e, e < 8 ∧ w.groupOf e ≠ 0) →
      ((∃ e, e < 8 ∧ w.groupReady b e = true) → least (fun e => w.groupReady b e = true) pc mask)
      ∧ ((∀ e, e < 8 → w.groupReady b e = false) → least (fun _ => True) pc mask)
    let handles (i : Instr) (c : Cause) (addr : W64) : Prop := ∃ t x r, exec i s = .next t ∧ t = { s with warps := t.warps }
      ∧ tget t.warps k = some x ∧ (∀ j, j ≠ k → tget t.warps j = tget s.warps j) ∧ x.trap = some r ∧ r.cause = c.code
      ∧ named r.pc r.mask ∧ r.addr = addr ∧ r.win = 0 ∧ x.regs = w.regs ∧ x.preds = w.preds ∧ x.pend = none
      ∧ (∀ l, has w.live l = true → x.pcAt l = g.rec_.handler ∧ x.laneAt l = .on 0)
    (quiet → ∀ c addr, w.asyncCause = some (c, addr) → c ≠ .contextKill → c ≠ .debugHalt → handles (.takeTrap core slot) c addr)
    ∧ (quiet → w.async = [] → w.hung (s.col (core / 4)).window = true → handles (.splitHang core slot) .splitHang 0)
    ∧ (quiet → w.async = [] → (∀ d cx p pc m a o, w.wait ≠ .parked d cx p pc m a o) → ∀ c, tget s.ctxs g.ctx = some c →
        w.waitedOut (fun key => (s.breq? key).any (fun r => r.kind != .brst)) s.tsc (c.wdog * 1000000) = true → handles (.watchdog core slot) .watchdog 0)
    ∧ (∀ n, w.wait = .nap n → n ≤ s.tsc → ∃ t, exec (.napWake core slot) s = .next t ∧ t = { s with warps := t.warps }
        ∧ ∀ j, tget t.warps j = if j = k then some { w with wait := .none } else tget s.warps j)

/-- LOAD_COMPLETE of a served load, ATOMIC_COMPLETE of an atomic whose operations are all performed, LONG_LATENCY_COMPLETION
of an arithmetic instruction and of a PREF, WAITA_SATISFY when every lane's word satisfies its condition, and QPOP_WAKE of
the oldest QPOP with a ticket there: each writes its registers, its flags arise, and nothing else of the warp changes; a
ticket leaves q1. Until one completes, a MOV, IADD, LD or BRX of a thread that has executed more than its lookahead number since
does not issue. A MOV, IADD, LD or BRX within that number that reads one of its destinations, in a lane both are active in, is
LOOKAHEAD_RAW with no other effect: the trap is taken at once where everything issued has completed, and otherwise stands
until it has. That a lane in which the earlier instruction was not active does not count is the model's reading (log entry
59). (R25, R26, R27, R83, R153, R170, R181) -/
def Obligations.LongLatencyCompletes : Prop :=
  (∀ (core slot op : Nat) (s : State) (w : Warp) (o : Op) (b : Block) (g : Grid),
    let k := warpKey core slot
    tget s.warps k = some w → w.op? op = some o → s.blk? w.blk = some b → tget s.grids b.grid = some g →
    let completes (i : Instr) (res : List (List W32)) (P : State → Prop) : Prop := ∃ t, exec i s = .next t ∧ Completes s k w o res t ∧ P t
    let plain (t : State) : Prop := t = { s with warps := t.warps }
    (o.kind = .loaded → completes (.loadComplete core slot op) o.res plain)
    ∧ (∀ acc x, o.kind = .atomic acc x 0 → completes (.atomicComplete core slot op) o.res plain)
    ∧ (o.kind = .value → completes (.longLatencyCompletion core slot op) o.res plain)
    ∧ (∀ acc, o.kind = .pref acc → completes (.longLatencyCompletion core slot op) [] (fun t =>
        t = { s with warps := t.warps, dies := t.dies, cores := t.cores } ∧ ∀ p, memGet t.mem p = memGet s.mem p))
    ∧ (∀ c offs cmp, o.kind = .waita c offs cmp → (∀ x ∈ offs, b.padPoison x.2 4 = none) →
        let word (x : Nat × Nat) : W32 := BitVec.ofNat 32 (ofBytes (b.padLoad x.2 4))
        (∀ x ∈ offs, waitHolds c (word x) (((cmp.find? (fun y => y.1 == x.1)).map Prod.snd).getD 0) = true) →
        completes (.waitaSatisfy core slot op) (putWords o.res (offs.map (fun x => (x.1, [word x])))) plain)
    ∧ (∀ q t0 rest, o.kind = .qpop q → b.tickets = t0 :: rest →
        (∀ x ∈ w.ops, x.over = false → x.id < o.id → ∀ n, x.kind ≠ .qpop n) →
        completes (.qpopWake core slot op) [perLane (fun _ => t0.word)] (fun t =>
          t = { s with warps := t.warps, blocks := t.blocks } ∧ t.blk? w.blk = some { b with tickets := rest })))
  ∧ ∀ (h : Hdr) (m : IntM) (z : MW) (d a : W9) (b : SrcB) (off : Option W32) (x : Option MemX) (s : State) (v : View),
      ∀ i ∈ [Instr.mov h d a, .iadd h m d a b, .ld h z d a off x, .brx h a],
      let count (l : Nat) : Nat := nth v.w.count l 0
      let runs : Prop := s.view h = some v ∧ v.grp ≠ 0 ∧ v.w.blocked = false ∧ v.w.async = [] ∧ v.w.replay = [] ∧ v.check (reqOf i v) = none
      let conflicts : Prop := ∃ o ∈ v.w.ops, (∃ y ∈ o.dst, y.1 = a.toNat) ∧ ∃ l, has v.act l = true ∧ has o.act l = true
        ∧ nth o.at_ l 0 < count l ∧ count l ≤ nth o.at_ l 0 + o.la
      (runs → (∃ o ∈ v.w.ops, o.done = false ∧ ∃ l, has v.grp l = true ∧ has o.group l = true ∧ nth o.at_ l 0 + o.la < count l) → exec i s = .next s)
      ∧ (Stands s h v → v.check (reqOf i v) = none → conflicts → Traps i s v .lookaheadRaw 0)
      ∧ (runs → v.w.rep = none → conflicts → (∃ o ∈ v.w.ops, o.done = false) →
          (∀ o ∈ v.w.ops, o.done = false → ∀ l, has v.grp l = true → has o.group l = true → count l ≤ nth o.at_ l 0 + o.la) →
          (v.g.rec_.handler ≠ 0 ∨ v.w.trap = none) →
          ∃ t w p, exec i s = .next t ∧ tget t.warps v.key = some w ∧ w = { v.w with pend := some p } ∧ p.cause = .lookaheadRaw ∧ p.pc = v.pc
            ∧ p.group = v.grp ∧ p.next = none ∧ ∀ j, j ≠ v.key → tget t.warps j = tget s.warps j)

/-- A walk that finds every page of a load present and readable leaves the load ready to be served, and one that finds a
page absent parks the warp on it; a load all of whose accesses can be served, and of 16-byte accesses both halves, takes for
each access the bytes that a core copy or the die store holds, extended to its registers' words, and waits for its response;
the second halves of 16-byte scratchpad accesses take their bytes first. A path-0x1 load takes what its locations have held
since the launch.
Registers, predicates and memory stay. (R207, R208, R209, R141, R194, R202, R205) -/
def Obligations.LoadSteps : Prop :=
  ∀ (core slot op : Nat) (s : State) (w : Warp) (o : Op) (b : Block) (g : Grid) (acc : List Access) (m : MW) (x : MemX),
    let k := warpKey core slot
    let die := core / 64
    tget s.warps k = some w → w.op? op = some o → s.blk? w.blk = some b → tget s.grids b.grid = some g →
    (∀ d cx p pc ms a q, w.wait ≠ .parked d cx p pc ms a q) →
    let from_ := Asker.part core (slot % 4)
    let serves (a : Access) (pa : Nat) (bs : List ByteW) : Prop := if pathOf a.va = 1
      then s.constBytes core g pa a.bytes (Config.freeNat (s.fresh + a.lane)) = some bs
      else s.serveLane core (pathOf a.va) x ((w.clkAt a.lane).need pa a.bytes) pa a.bytes (Config.freeNat (s.fresh + a.lane)) = some bs
    let half : Bool := m.w == .w128
    let first (a : Access) : Nat := if half then a.va.toNat % 16 / 4 else 0
    let words (bs : List Byte) : List W32 := if half then
        [BitVec.ofNat 32 (ofBytes (bs.take 4)), BitVec.ofNat 32 (ofBytes ((bs.drop 4).take 4))] else loadWords m bs
    let keeps (t : State) (w1 : Warp) : Prop := tget t.warps k = some w1 ∧ (∀ j, j ≠ k → tget t.warps j = tget s.warps j)
      ∧ w1.regs = w.regs ∧ w1.preds = w.preds ∧ ∀ p, memGet t.mem p = memGet s.mem p
    let becomes (w1 : Warp) (P : Op → Prop) : Prop := ∃ y ∈ w1.ops, y.id = op ∧ P y
    (o.kind = .load acc m x false → (∀ a ∈ acc, isGlobal (pathOf a.va) = true → ∃ p, s.xlat from_ g.ctx (vbits a.va) needRD = .ok p) →
      ∃ t w1, exec (.pageWalkComplete core slot op false) s = .next t ∧ keeps t w1 ∧ t = { s with warps := t.warps, dies := t.dies, cores := t.cores }
        ∧ becomes w1 (fun y => y = { o with kind := .load acc m x true }))
    ∧ (∀ a rest, o.kind = .load acc m x false → acc = a :: rest → isGlobal (pathOf a.va) = true → s.xlat from_ g.ctx (vbits a.va) needRD = .absent →
      ∃ t w1, exec (.pageWalkComplete core slot op false) s = .next t ∧ keeps t w1
        ∧ w1.wait = .parked die g.ctx (pageOf a.va) o.pc o.group a.va op)
    ∧ (o.kind = .load acc m x true → (acc.map (fun a => (a.lane, first a))).Nodup →
      (∀ a ∈ acc, a.lane < 32 ∧ pathOf a.va ≠ 8 ∧ s.halfChosen m a = true ∧ (half = true → a.va.toNat % 8 = 0) ∧ ∃ pa bs,
        s.paOf from_ g.ctx a.va needRD = some pa ∧ isPeer pa = false ∧ s.poisonIn die pa a.bytes = none ∧ serves a pa bs) →
      ∃ t w1, exec (.loadServe core slot op) s = .next t ∧ keeps t w1
        ∧ becomes w1 (fun y => y.kind = .loaded ∧ y.done = false ∧ y.dst = o.dst ∧ y.res.length = o.res.length ∧
          ∀ a ∈ acc, ∀ pa bs, s.paOf from_ g.ctx a.va needRD = some pa → serves a pa bs →
            let ws := words (bs.map Prod.fst)
            ∀ i, i < ws.length → first a + i < o.res.length → nth (nth y.res (first a + i) []) a.lane 0 = nth ws i 0))
    ∧ (let pads := acc.filter (fun a => pathOf a.va == 8)
      let rest := acc.filter (fun a => pathOf a.va != 8)
      o.kind = .load acc m x true → half = true → pads ≠ [] → (pads.map (fun a => a.lane)).Nodup →
      (∀ a ∈ pads, a.lane < 32 ∧ a.va.toNat % 8 = 0 ∧ b.padPoison (a.va.toNat % 2 ^ 32) a.bytes = none) →
      ∃ t w1, exec (.loadServe core slot op) s = .next t ∧ keeps t w1 ∧ t = { s with warps := t.warps }
        ∧ becomes w1 (fun y => y.kind = (if rest = [] then .loaded else .load rest m x true) ∧ y.res.length = o.res.length ∧
          ∀ a ∈ pads, ∀ i, i < 2 → first a + i < o.res.length →
            nth (nth y.res (first a + i) []) a.lane 0 = nth (words (b.padLoad (a.va.toNat % 2 ^ 32) a.bytes)) i 0))

/-- A write's message whose number is the next of its origin, whose vector its die's vector covers, which the line's home has
applied where the die holds a copy, and which as a release at scope .s follows every write it orders at its home, is applied:
at the home, memory takes its bytes and no others; elsewhere memory stays. One not yet so is held, and a held one is applied
when it is so; a die that is neither home nor holder only accounts for it. A copy shows the byte; where the copy had taken a
later write of the home order already, that one is applied again by a further step. An atomic that its home may perform
replaces the value of its location by the combined result and no other byte of memory, and gives each lane what it found. An
eviction drops a copy and leaves memory as it is. (R196, R203, R204, R205, R206, R316, R147) -/
def Obligations.WriteSteps : Prop :=
  ∀ (key : Nat) (s : State) (m : Msg), s.msg? key = some m → (m.dst = 4 → isPeer m.addr = false) →
    let last (p : Nat) : Byte := ((m.bytes.reverse.find? (fun x => x.1 == p)).map Prod.snd).getD (memGet s.mem p)
    let covered : Prop := (s.die m.dst).vec.get m.origin + 1 = m.num ∧ m.vec.le (s.die m.dst).vec = true ∧ (m.sys = true → s.allPlaced m.vec = true)
    let holder : Prop := homeOf m.addr ≠ m.dst ∧ tget (s.die m.dst).copies (lineOf m.addr) ≠ none
    let aside : Prop := homeOf m.addr ≠ m.dst ∧ tget (s.die m.dst).copies (lineOf m.addr) = none
    let ready : Prop := covered ∧ (holder → m.hs ≠ 0)
    let applied (i : Instr) : Prop := ∃ t, exec i s = .next t ∧ t.warps = s.warps ∧ t.blocks = s.blocks
      ∧ (∀ x ∈ t.msgs, x.key = m.key → x = { m with settling := true } ∧ holder)
      ∧ (∀ p, memGet t.mem p = if homeOf m.addr = m.dst then last p else memGet s.mem p)
      ∧ ((∀ x ∈ s.msgs, x.key ≠ m.key → x.origin = m.origin → x.num = m.num → x.dst = m.dst → x.settling = true) →
          (t.die m.dst).vec = (s.die m.dst).vec.raise m.origin m.num)
      ∧ (∀ l p v, homeOf m.addr ≠ m.dst → tget (s.die m.dst).copies (lineOf m.addr) = some l → m.bytes = [(p, v)] → lineOf p = lineOf m.addr →
          l.base < m.hs →
          let c : CopyByte := nth l.bytes (p % 128) CopyByte.zero
          let top := c.settle.getD (c.val, c.hs, c.wk)
          ∃ l', tget (t.die m.dst).copies (lineOf m.addr) = some l' ∧ (nth l'.bytes (p % 128) CopyByte.zero).val = v
            ∧ (nth l'.bytes (p % 128) CopyByte.zero).settle = if top.2.1 < m.hs then none else some top)
    (m.isWrite = true → m.settling = false → m.held = false → ¬ aside →
      (ready → applied (.writeArrival key))
      ∧ (¬ ready → ∃ t, exec (.writeArrival key) s = .next t
        ∧ t = { s with msgs := s.msgs.map (fun x => if x.key == key then { x with held := true } else x) }))
    ∧ (m.isWrite = true → m.settling = false → m.held = true → ready → applied (.heldWriteApply key))
    ∧ (m.isWrite = true → m.settling = false → aside → covered → applied (.writeNoticeArrival key))
    ∧ (m.settling = true → ∃ t, exec (.writeArrival key) s = .next t ∧ t = { s with dies := t.dies, msgs := s.msgs.filter (fun x => x.key != m.key) }
        ∧ (∀ j, (t.die j).vec = (s.die j).vec)
        ∧ ∀ l, tget (s.die m.dst).copies (lineOf m.addr) = some l → ∃ l', tget (t.die m.dst).copies (lineOf m.addr) = some l' ∧ ∀ i, i < l.bytes.length →
            let c : CopyByte := nth l.bytes i CopyByte.zero
            (nth l'.bytes i CopyByte.zero).val = ((c.settle.map Prod.fst).getD c.val) ∧ (nth l'.bytes i CopyByte.zero).settle = none)
    ∧ (∀ op n lanes x core slot opid, m.kind = .atomic op n lanes x core slot opid → s.mayPerform m = true →
      (∀ y ∈ s.msgs, y.isWrite = false → s.poisonIn y.dst y.addr n = none) →
      isPeer m.addr = false → homeOf m.addr = m.dst → m.addr % 128 + n ≤ 128 → n ≤ 8 → m.dst < 5 →
      (∀ x ∈ s.msgs, x.origin = m.dst → x.num ≠ (s.die m.dst).nextWrite) →
      let old : W64 := BitVec.ofNat 64 (ofBytes ((List.range n).map (fun i => memGet s.mem (m.addr + i))))
      let r := atomApply op old lanes
      ∃ t, exec (.atomicPerform key) s = .next t ∧ (∀ x ∈ t.msgs, x.key = key → x.isWrite = true)
        ∧ (∀ p, memGet t.mem p = if m.addr ≤ p ∧ p < m.addr + n then nth (bytesOf n r.2.toNat) (p - m.addr) 0 else memGet s.mem p)
        ∧ ∀ w o, tget s.warps (warpKey core slot) = some w → w.op? opid = some o → (lanes.map (fun l => l.lane)).Nodup →
            (∀ l ∈ lanes, l.lane < 32) → 4 * o.res.length ≤ n →
            ∃ w' y, tget t.warps (warpKey core slot) = some w' ∧ w' = { w with ops := w'.ops, clk := w'.clk } ∧ y ∈ w'.ops ∧ y.id = opid
              ∧ ∀ e ∈ r.1, ∀ i, i < o.res.length → nth (nth y.res i []) e.1 0 = e.2.extractLsb' (32 * i) 32)
    ∧ ∀ die line, ∃ t, exec (.dieStoreEviction die line) s = .next t ∧ t = { s with dies := t.dies }
        ∧ (homeOf (line * 128) ≠ die → tget (t.die die).copies line = none) ∧ ∀ j, (t.die j).vec = (s.die j).vec

/-- A warp that waits on CCTL.wb goes on once the home owes its lines no write; the oldest ICINV of a warp drops its line
from every instruction store and handler buffer once the writes it follows stand in every die; a fetch fill brings a backed,
unpoisoned line to the core's instruction store, which holds no more than its 1,024 lines, or to the handler buffer where a
handler of a travel launch fetches it; a waiting page fault enters the buffer when it has room; a shootdown whose mapping no
access still uses leaves no TLB holding it and completes its command. Memory stays. (R10, R144, R208, R209, R210, R276) -/
def Obligations.CacheSteps : Prop :=
  ∀ (core slot : Nat) (s : State),
    let k := warpKey core slot
    (∀ w lines inv, tget s.warps k = some w → w.wait = .wb lines inv → lines.any (s.owed (core / 64)) = false →
      ∃ t, exec (.cctlWbAck core slot) s = .next t ∧ t = { s with warps := t.warps, cores := t.cores, dies := t.dies }
        ∧ tget t.warps k = some { w with wait := .none }
        ∧ (inv = true → ∀ n ∈ lines, tget (t.core core).lines n = none
            ∧ (homeOf (n * 128) ≠ core / 64 → (∀ x ∈ (s.die (core / 64)).bad, x / 16 ≠ n) → tget (t.die (core / 64)).copies n = none))
        ∧ (inv = false → t.cores = s.cores ∧ ∀ d, (t.die d).copies = (s.die d).copies ∧ (t.die d).vec = (s.die d).vec))
    ∧ (∀ w i rest, tget s.warps k = some w → w.icinvs = i :: rest → s.everywhere i.2.1 = true →
      ∃ t w1, exec (.icinvComplete core slot) s = .next t ∧ t = { s with warps := t.warps, cores := t.cores }
        ∧ (∀ c, c < s.cores.length → tget (t.core c).istore i.1 = none ∧ tget (t.core c).hbuf i.1 = none)
        ∧ tget t.warps k = some w1 ∧ w1.icinvs = rest ∧ w1.wait = if rest = [] ∧ w.wait = .isync then .none else w.wait)
    ∧ (∀ line, s.backed (line * 128) 128 = true → s.poisonIn (core / 64) (line * 128) 128 = none → core < Config.numCores →
      let bytes := s.peek (core / 64) (line * 128) 128
      let fills (P : CoreSt → Prop) : Prop := ∃ t, exec (.instructionFetchFill core line) s = .next t ∧ t = { s with cores := t.cores, outbound := t.outbound } ∧ P (t.core core)
      (s.handlerLine core line = false → tget (s.core core).istore line = none → fills (fun c => tget c.istore line = some bytes
        ∧ c.hbuf = (s.core core).hbuf ∧ ((s.core core).istore.length ≤ 1024 → (∃ x ∈ (s.core core).istore, s.pinned core x.1 = false) →
          c.istore.length ≤ 1024)))
      ∧ (s.handlerLine core line = true → tget (s.core core).hbuf line = none → fills (fun c => tget c.hbuf line = some bytes
        ∧ c.istore = (s.core core).istore ∧ ((s.core core).hbuf.length ≤ 64 → c.hbuf.length ≤ 64))))
    ∧ (∀ die n e rest, (s.die die).faultWait = (n, e) :: rest → (s.die die).faults.length < Config.faultBufSize →
      ∃ t, exec (.faultBufferSlotFree die) s = .next t ∧ t = { s with dies := t.dies, msix := t.msix, outbound := t.outbound }
        ∧ (t.die die).faultWait = rest
        ∧ ∃ x ∈ (t.die die).faults, x.ctx = e.ctx ∧ pageOf x.va = pageOf e.va ∧ ∀ y ∈ e.warps, y ∈ x.warps)
    ∧ (∀ cx c m fn q cid rest, tget s.ctxs cx = some c → c.shoot = (m, fn, q, cid) :: rest → s.inFlight cx m = false →
      ∃ t, exec (.tlbShootdownComplete cx) s = .next t ∧ tget t.ctxs cx = some { c with shoot := rest } ∧ t.mem = s.mem
        ∧ (∀ d, d < s.dies.length → (cx, m) ∉ (t.die d).tlb)
        ∧ (∀ d, d < s.cores.length → (cx, m) ∉ (t.core d).tlb ∧ ∀ l ∈ (t.core d).ptlbs, (cx, m) ∉ l)
        ∧ ∀ p, tget s.queues (qkey fn q) = some p → ∃ y, tget t.queues (qkey fn q) = some { p with done := p.done ++ [y] } ∧ y.cid = cid ∧ y.status = 0)

/-- An exchange store whose parity is its target's goes into the shadow bytes, and no other shadow byte changes; one of the
other parity is held. A swap whose stores have been written exchanges scratchpad and shadow of the block, or of every block
of the grid, flips the parity, and completes the phase; a block of the grid that is out owes its exchange. An arrival signal is counted in its own phase at its block, on the
column wires while the block is being preempted, or at the hub; then it is gone. (R143, R154, R155, R231, R260) -/
def Obligations.ExchangeAndBarrierSteps : Prop :=
  ∀ (key : Nat) (s : State),
    (∀ m b, s.stxs.find? (fun x => x.key == key) = some m → s.blk? m.blk = some b → (∀ x ∈ s.stxs, x.group = m.group → m.key ≤ x.key) →
      b.state ≠ .out → b.state ≠ .restoring →
      ∃ t b', exec (.stxDelivery key) s = .next t ∧ t = { s with stxs := t.stxs, blocks := t.blocks }
        ∧ t.stxs = s.stxs.filter (fun x => x.key != key) ∧ (∀ j, t.blk? j = if j = m.blk then some b' else s.blk? j)
        ∧ (b.parity = m.parity → b' = { b with shadow := b'.shadow, shClk := b'.shClk, shSpans := b'.shSpans, shPoison := b'.shPoison } ∧ ∀ a, padGet b'.shadow a =
            if m.off ≤ a ∧ a < m.off + m.bytes.length then nth m.bytes (a - m.off) 0 else padGet b.shadow a)
        ∧ (b.parity ≠ m.parity → b' = { b with heldStx := b.heldStx ++ [⟨m.off, m.bytes, m.parity⟩] }))
    ∧ (∀ w, s.swaps.find? (fun x => x.key == key) = some w → (∀ x ∈ s.stxs, x.key ∉ w.need) →
      (∀ x ∈ s.blocks, (if w.n < 112 then x.1 = w.owner else x.2.grid = w.owner ∧ x.2.state = .preempting) → s.saving x.1 x.2 = false) →
      ∃ t, exec (.swapComplete key) s = .next t ∧ t = { s with swaps := t.swaps, blocks := t.blocks, grids := t.grids }
        ∧ (∀ x ∈ t.swaps, x.key ≠ key)
        ∧ (∀ b, w.n < 112 → s.blk? w.owner = some b → (∀ x ∈ b.shadow, x.1 < b.shadowBytes) → t.grids = s.grids ∧
            ∃ b', (∀ j, t.blk? j = if j = w.owner then some b' else s.blk? j) ∧ b'.parity = !b.parity
              ∧ (b'.bar w.n).phase = ((b.bar w.n).phase + 1) % 256 ∧ (b'.bar w.n).arrived = 0
              ∧ (∀ a, padGet b'.scratch a = if a < b.shadowBytes then padGet b.shadow a else padGet b.scratch a)
              ∧ (b.heldStx = [] → ∀ a, a < b.shadowBytes → padGet b'.shadow a = padGet b.scratch a))
        ∧ (112 ≤ w.n → ∀ j b, s.blk? j = some b → b.grid = w.owner →
            ∃ b', t.blk? j = some b' ∧ if s.saving j b = true then b' = { b with owedSwaps := b.owedSwaps + 1 }
              else b'.parity = !b.parity ∧ (b'.bar w.n).phase = ((b.bar w.n).phase + 1) % 256))
    ∧ ∀ m, s.arrs.find? (fun x => x.key == key) = some m →
        let counts (r r' : BarSt) : Prop := (m.src, m.wid) ∈ r'.members ∧ r'.phase = r.phase ∨ r'.phase = (r.phase + 1) % 256
        (∀ b, m.n < 112 → s.blk? m.dst = some b → b.state = .preempting →
          ∃ t, exec (.barrierArrivalSignal key) s = .next t ∧ t = { s with arrs := s.arrs.filter (fun x => x.key != key), blocks := t.blocks }
            ∧ ∀ j, t.blk? j = if j = m.dst then some { b with wires := b.wires ++ [m] } else s.blk? j)
        ∧ (∀ b, m.n < 112 → s.blk? m.dst = some b → b.state = .running → (b.bar m.n).swapping = false → (b.bar m.n).phase = m.phase →
          ∃ t b', exec (.barrierArrivalSignal key) s = .next t
            ∧ t = { s with arrs := s.arrs.filter (fun x => x.key != key), blocks := t.blocks, swaps := t.swaps, nextKey := t.nextKey }
            ∧ (∀ j, t.blk? j = if j = m.dst then some b' else s.blk? j) ∧ b' = { b with bars := b'.bars }
            ∧ (∀ n, n ≠ m.n → b'.bar n = b.bar n) ∧ counts (b.bar m.n) (b'.bar m.n))
        ∧ (∀ g, 112 ≤ m.n → tget s.grids m.dst = some g → (g.bar m.n).swapping = false → (g.bar m.n).phase = m.phase →
          ∃ t g', exec (.barrierArrivalSignal key) s = .next t ∧ (∀ x ∈ t.arrs, x.key ≠ key)
            ∧ t = { s with arrs := t.arrs, blocks := t.blocks, grids := t.grids, swaps := t.swaps, nextKey := t.nextKey }
            ∧ tget t.grids m.dst = some g' ∧ counts (g.bar m.n) (g'.bar m.n))

/-- The one block that offers an operation has it admitted; an admitted operation that must follow no other starts; a
started MMZ zeroes the accumulators of its rows and of no others; a job that completes adds its done ticket, and one that
fails its failed ticket with the cause; a failed operation on a tile, but MMRD, marks it, keeping a mark that stands; an operation
whose fault has been answered resumes; and a warp held by the block limit goes on when there is room. What the steps of the
operations leave: MMLD the converted elements of a row of its map, MMWR the converted fields of its words, MMA and MMAS for
each chunk the accumulator plus the exact sum of the chunk's products, scaled and rounded once, and MMRD in the warp's
register the converted accumulators; after MMST or a job, an element of the destination reads as the converted accumulator,
or as the source's element or the fill. CMPRS keeps of each group of a row the elements of the greatest magnitudes, of equal ones
the lower, and the words of a lane hold its rows' indices as MMAS reads them. (R91, R168, R169, R171, R172, R173, R174, R175, R176, R177, R179,
R181) -/
def Obligations.EngineSteps : Prop :=
  (∀ (core bk : Nat) (s : State) (b : Block) (o : EOp), s.blocksOn core = [(bk, b)] → s.blk? bk = some b → b.offer = some o →
    b.adm.length < 64 → ∃ t b', exec (.engineAdmit core) s = .next t ∧ t = { s with blocks := t.blocks, cores := t.cores }
      ∧ (∀ j, t.blk? j = if j = bk then some b' else s.blk? j) ∧ b'.adm = b.adm ++ [{ o with state := .admitted }]
      ∧ (∀ x ∈ b'.hq ++ b'.vq, x.id ≠ o.id) ∧ b' = { b with hq := b'.hq, vq := b'.vq, adm := b'.adm, tickets := b'.tickets })
  ∧ (∀ (blk op : Nat) (s : State) (b : Block) (o : EOp), s.blk? blk = some b → b.adm? op = some o →
    let moves (i : Instr) (f : EOp → EOp) : Prop := ∃ t, exec i s = .next t ∧ t = { s with blocks := t.blocks }
      ∧ ∀ j, t.blk? j = if j = blk then some { b with adm := b.adm.map (fun x => if x.id == op then f x else x) } else s.blk? j
    (o.state = .admitted → b.mustFollow o = false → moves (.engineOpStart blk op) (fun x => { x with state := .started }))
    ∧ (o.state.isParked = true → (∀ d ∈ s.dies, (∀ f ∈ d.faults, (blk, op) ∉ f.eops) ∧ ∀ f ∈ d.faultWait, (blk, op) ∉ f.2.eops) →
        moves (.engineFaultResume blk op) (fun x => { x with state := .started })))
  ∧ (∀ (blk op : Nat) (s : State) (b : Block) (o : EOp) (g : Grid), s.blk? blk = some b → b.adm? op = some o → tget s.grids b.grid = some g →
    o.state = .started →
    let ends (P : State → Block → Prop) : Prop := ∃ t b', exec (.engineOpComplete blk op) s = .next t ∧ t.blk? blk = some b'
      ∧ (∀ x ∈ b'.adm, x.id ≠ op) ∧ P t b'
    (∀ tt, o.kind = .mmz tt → o.progress = 0 → ends (fun t b' => t = { s with blocks := t.blocks, fresh := s.fresh + 1 }
      ∧ (∀ j, j ≠ blk → t.blk? j = s.blk? j) ∧ b'.marks = b.marks ∧ b'.scratch = b.scratch
      ∧ ∀ x r c, r < 128 → c < 128 → b'.acc x r c = if x = tt ∧ r ∈ rowsOf o.mask then 0 else b.acc x r c))
    ∧ (∀ card s1 n w, o.kind = .job card → s.engSteps blk g o o.progress (o.steps - o.progress) o.wrote = (s1, n, w, none) →
      ∀ b1, s1.blk? blk = some b1 → s1.grids = s.grids → b1.grid = b.grid → ends (fun t b' => t.mem = s1.mem
        ∧ b'.tickets = if (cardOf card).cmode = 2 then b1.tickets else b1.tickets ++ [⟨ticketWord 0 0 (cardOf card).jobid, w.join o.sub⟩]))
    ∧ (∀ card s1 n w c a, o.kind = .job card → s.engSteps blk g o o.progress (o.steps - o.progress) o.wrote = (s1, n, w, some (.fail c a)) →
      ∀ b1, s1.blk? blk = some b1 → s1.grids = s.grids → b1.grid = b.grid → ends (fun t b' => t.mem = s1.mem
        ∧ b'.tickets = b1.tickets ++ [⟨ticketWord 2 c.code (cardOf card).jobid, .zero⟩]))
    ∧ (∀ tt s1 n w c a, o.tile? = some tt → (∀ cv sel x y z, o.kind ≠ .mmrd tt cv sel x y z) → s.engSteps blk g o o.progress (o.steps - o.progress) o.wrote = (s1, n, w, some (.fail c a)) →
      ∀ b1, s1.blk? blk = some b1 → s1.grids = s.grids → b1.grid = b.grid → ends (fun t b' => t.mem = s1.mem
        ∧ tget b'.marks tt = if (tget b1.marks tt).isSome then tget b1.marks tt else some (c, a))))
  ∧ (∀ (blk i : Nat) (s : State) (b : Block) (g : Grid) (o : EOp), s.blk? blk = some b →
    let reads (tag : Option Span) : EngCtx := ⟨blk, o.wid, g.ctx, b.core, o.sub, b.eclk, tag, none, none⟩
    let row := nth (rowsOf o.mask) i 0
    let tile (P : Nat → Nat → Nat → W32) : Prop := ∃ t b', s.engStep blk g o i = .ok (t, .zero) ∧ t = { s with blocks := t.blocks }
      ∧ (∀ j, t.blk? j = if j = blk then some b' else s.blk? j) ∧ b' = { b with tiles := b'.tiles }
      ∧ ∀ x r c, r < 128 → c < 128 → b'.acc x r c = P x r c
    let apart (m : Map) (r n : Nat) : Prop := m.cbits ∈ [8, 16, 32] ∧ b.spoison = []
      ∧ (∀ c, c < n → m.addr r c / 2 ^ 60 = 8 ∧ (m.addr r c + m.cbits / 8 - 1) / 2 ^ 60 = 8)
      ∧ ∀ c d, c < d → d < n → m.addr r c + m.cbits / 8 ≤ m.addr r d ∨ m.addr r d + m.cbits / 8 ≤ m.addr r c
    (∀ tt cv m (V : Nat → Nat), o.kind = .mmld tt cv m → row < 128 → (∀ c, c < 128 → s.engElem (reads (some m.tag)) m row c = .ok (V c)) →
      tile (fun x r c => if x = tt ∧ r = row then convIn g.rec_ cv (V c) else b.acc x r c))
    ∧ (∀ tt cv sel vals, o.kind = .mmwr tt cv sel vals →
      let n := convBits g.rec_ cv
      let col (y : Nat × W32) : Nat := y.2.toNat / 4 % 128
      let word (l : Nat) : Nat := (((vals.find? (fun y => y.1 == l)).map Prod.snd).getD 0).toNat
      (sel.map Prod.fst).Nodup → (∀ y ∈ sel, y.1 < 32 ∧ col y + 32 / n ≤ 128) →
      tile (fun x r c => match (if x = tt then sel.find? (fun y => 4 * y.1 + y.2.toNat % 4 == r) else none) with
        | some y => if col y ≤ c ∧ c < col y + 32 / n then convIn g.rec_ cv (word y.1 / 2 ^ (n * (c - col y)) % 2 ^ n) else b.acc x r c
        | none => b.acc x r c))
    ∧ (∀ tt ma mb k fa fb (A B : Nat → Nat → Nat) (SA SB : Nat → Nat), o.kind = .mma tt ma mb k fa fb none →
      let n := chunkLen fa fb
      let m := min n (k - i * n)
      (∀ r ∈ rowsOf o.mask, (∀ j, j < m → s.engElem (reads (some ma.tag)) ma r (i * n + j) = .ok (A r j))
        ∧ s.engScale (reads (some ma.tag)) ma (scaleCount fa k) r (i * n / 48) = .ok (SA r)) →
      (∀ c, c < 128 → (∀ j, j < m → s.engElem (reads (some mb.tag)) mb c (i * n + j) = .ok (B c j))
        ∧ s.engScale (reads (some mb.tag)) mb (scaleCount fb k) c (i * n / 48) = .ok (SB c)) →
      tile (fun x r c => if x = tt ∧ r ∈ rowsOf o.mask
        then chunkAdd (b.acc tt r c) (dotExact ((List.range m).map (fun j => (slotDecode fa (A r j), slotDecode fb (B c j))))) (SA r) (SB c)
        else b.acc x r c))
    ∧ (∀ tt ma mb k fa fb s48 P (A B : Nat → Nat → Nat) (SA SB : Nat → Nat), o.kind = .mma tt ma mb k fa fb (some (s48, P)) →
      let n := chunkLen fa fb
      let m := min n (k - i * n)
      let at_ (r e : Nat) : Nat := nth (((P.find? (fun x => x.1 == r)).map Prod.snd).getD []) e 0
      let kept (r : Nat) : List Nat := (List.range (((P.find? (fun x => x.1 == r)).map Prod.snd).getD []).length).filter
        (fun e => decide (i * n ≤ at_ r e ∧ at_ r e < i * n + m))
      (∀ r ∈ rowsOf o.mask, (∀ e ∈ kept r, s.engElem (reads (some ma.tag)) ma r e = .ok (A r e))
        ∧ s.engScale (reads (some ma.tag)) ma (scaleCount fa k) r (i * n / 48) = .ok (SA r)) →
      (∀ c, c < 128 → (∀ j, j < m → s.engElem (reads (some mb.tag)) mb c (i * n + j) = .ok (B c j))
        ∧ s.engScale (reads (some mb.tag)) mb (scaleCount fb k) c (i * n / 48) = .ok (SB c)) →
      tile (fun x r c => if x = tt ∧ r ∈ rowsOf o.mask
        then chunkAdd (b.acc tt r c) (dotExact ((kept r).map (fun e => (slotDecode fa (A r e), slotDecode fb (B c (at_ r e - i * n)))))) (SA r) (SB c)
        else b.acc x r c))
    ∧ (∀ ma fa s48 k r (V : Nat → Nat), (∀ c, c < k → s.engElem (reads none) ma r c = .ok (V c)) →
      let n := if s48 then 4 else 2
      s.cmprsRow (reads none) ma fa s48 k r = .ok ((List.range (k / (2 * n))).flatMap (fun q =>
        (keepOf n ((List.range (2 * n)).map (fun i => slotDecode fa (V (q * (2 * n) + i))))).map (fun i => (V (q * (2 * n) + i), i)))))
    ∧ (∀ ma mb fa s48 k t w words l (X : Nat → List (Nat × Nat)), s.runCmprs (reads none) o.mask ma mb fa s48 k = .ok (t, w, words) →
      has o.mask l = true → l < 32 → (∀ q, q < 4 → s.cmprsRow (reads none) ma fa s48 k (4 * l + q) = .ok (X (4 * l + q))) →
      (l, metaWords s48 k ((List.range 4).map (fun q => (X (4 * l + q)).map Prod.snd))) ∈ words)
    ∧ (∀ tt cv m col t w, o.kind = .mmst tt cv m col → s.engStep blk g o i = .ok (t, w) → apart m row 128 →
      ∀ c, c < 128 → t.engElem (reads (some m.tag)) m row c = .ok (convOut g.rec_ cv (b.acc tt row c) % 2 ^ m.cbits))
    ∧ ∀ card t w src (V : Nat → Nat), o.kind = .job card → s.engStep blk g o i = .ok (t, w) →
      let k := cardOf card
      let rd : EngCtx := { reads none with rfoot := some (k.rbase.toNat, k.rlen), wfoot := some (k.wbase.toNat, k.wlen) }
      apart k.dst i k.ncol → k.scales = 0 → (k.typ ≠ 1 → src = i) →
      (k.typ = 1 → ∃ bs, s.engBytes rd ((k.ixbase.toNat + 4 * i) % 2 ^ 64) 4 = .ok bs ∧ src = ofBytes bs) →
      (k.typ ≠ 2 → ∀ c, c < k.ncol → s.engElem rd k.src src c = .ok (V c)) → (k.typ = 2 → ∀ c, V c = k.fill) →
      ∀ c, c < k.ncol → t.engElem (reads (some k.dst.tag)) k.dst i c = .ok (V c % 2 ^ k.dst.cbits))
  ∧ (∀ (blk op core slot wop k tt : Nat) (cv : MConv) (sel : List (Nat × W32)) (s : State) (b : Block) (o : EOp) (g : Grid) (w : Warp) (x : Op),
    s.blk? blk = some b → b.adm? op = some o → tget s.grids b.grid = some g → o.state = .started → o.progress = 0 →
    o.kind = .mmrd tt cv sel core slot wop → s.engWarp blk o.wid = some (k, w) → tget s.warps k = some w → w.op? wop = some x →
    tget b.marks tt = none →
    let n := convBits g.rec_ cv
    let word (y : Nat × W32) : W32 := BitVec.ofNat 32 ((List.range (min 32 (32 / n))).map (fun i =>
      convOut g.rec_ cv (b.acc tt (4 * y.1 + y.2.toNat % 4) (y.2.toNat / 4 % 128 + i)) % 2 ^ n * 2 ^ (n * i))).sum
    ∃ t, exec (.engineOpComplete blk op) s = .next t
      ∧ Completes s k w x [perLane (fun l => ((sel.find? (fun y => y.1 == l)).map word).getD 0)] t)
  ∧ (∀ (acc : W32) (sg : Bool) (m sa sb : Nat) (e : Int), sa < 255 → sb < 255 → chunkAdd acc (.fin sg m e) sa sb =
      BitVec.ofNat 32 (f32.add false .rne (f32.unpack acc.toNat) (f32.unpack (f32.pack .rne (.fin sg m (e + sa - 127 + sb - 127))).1)).1)
  ∧ (∀ (n : Nat) (xs : List FVal),
      let keep := keepOf n xs
      let val (i : Nat) : FVal := nth xs i (.fin false 0 0)
      keep.length = min n xs.length ∧ keep.Pairwise (· < ·)
      ∧ ∀ i j, i ∈ keep → j < xs.length → j ∉ keep → magAbove (val j) (val i) = false ∧ (magAbove (val i) (val j) = false → i < j))
  ∧ (∀ (s48 : Bool) (k q : Nat) (rows : List (List Nat)), q < 4 → rows.length = 4 → k % 16 = 0 →
      (∀ r ∈ rows, r.length = k / 2 ∧ ∀ x ∈ r, x < if s48 then 8 else 4) →
      let ws := metaWords s48 k rows
      metaIndices s48 k ((List.range ws.length).map (fun i => (nth ws i 0).toNat * 2 ^ (32 * i))).sum q = nth rows q [])
  ∧ ∀ (core slot : Nat) (s : State) (w : Warp) (b : Block), tget s.warps (warpKey core slot) = some w → s.blk? w.blk = some b →
    w.wait = .blockLimit → b.eops.length + b.tickets.length < 64 → ∃ t, exec (.blockLimitRelease core slot) s = .next t
      ∧ t = { s with warps := t.warps } ∧ ∀ j, tget t.warps j = if j = warpKey core slot then some { w with wait := .none } else tget s.warps j

/-- A lawful post takes its slot in its round and answers its level; the post that completes the current round fills it and
advances; a second post of a slot, or a post of an old round, changes nothing and is stale. A view answers the slots of the
first posts of a kept round, and a round that is not kept answers BOARD_ROUND. A reset of an idle board empties it and takes
every view of it away. A delivered answer writes the levels, the stale predicate and the last round, or the view mask, and
the warp goes on; a delivered fault is trapped at the instruction that asked, with the handle as its address. (R158, R159,
R160, R219, R222, R285, R288) -/
def Obligations.BoardSteps : Prop :=
  ∀ (key : Nat) (s : State) (r : BReq), s.breq? key = some r →
    let answered (i : Instr) (x : BReq) (P : State → Prop) : Prop := ∃ t, exec i s = .next t ∧ t = { s with boards := t.boards, breqs := t.breqs }
      ∧ t.breq? key = some x ∧ (∀ j, j ≠ key → t.breq? j = s.breq? j) ∧ (∀ j, j ≠ r.board → tget t.boards j = tget s.boards j) ∧ P t
    let same (t : State) : Prop := t.boards = s.boards
    (∀ b x n, r.kind = .bpv → r.taken = false → tget s.boards r.board = some b → r.lanes = [x] → x.slot = some n →
      let post : Post := ⟨n, x.value, x.clk⟩
      let took (lv : Nat) (st : Bool) (P : State → Prop) : Prop := ∃ clk, answered (.boardPostRequest key)
        { r with taken := true, levels := [(x.lane, lv, st)], seen := clk } P
      let had (ps : List Post) : Prop := ∃ p ∈ ps, p.slot = n
      (x.round = b.rc → ¬ had b.cur → b.cur.length + 1 < b.slots →
        took (b.cur.length + 1) false (fun t => tget t.boards r.board = some { b with cur := b.cur ++ [post] }))
      ∧ (x.round = b.rc → ¬ had b.cur → b.cur.length + 1 = b.slots → b.next.length < b.slots →
        took b.slots false (fun t => ∃ b', tget t.boards r.board = some b' ∧ b' = { b with rc := b'.rc, cur := b'.cur, next := b'.next, filled := b'.filled, past := b'.past }
          ∧ b'.rc = b.rc + 1 ∧ b'.cur = b.next ∧ b'.next = [] ∧ b'.filled = some (b.rc, b.cur ++ [post])))
      ∧ (x.round = b.rc + 1 → ¬ had b.next → b.cur.length < b.slots →
        took (b.next.length + 1) false (fun t => tget t.boards r.board = some { b with next := b.next ++ [post] }))
      ∧ (x.round = b.rc → had b.cur → b.strict = false →
        took b.cur.length true (fun t => tget t.boards r.board = some b))
      ∧ (2 ^ 31 < (x.round - b.rc).toNat → b.strict = false → took b.slots true (fun t => tget t.boards r.board = some b)))
    ∧ (∀ b ps, r.kind = .bvm → r.taken = false → tget s.boards r.board = some b → b.round r.round = some ps →
        ∃ m clk, answered (.boardViewRequest key) { r with taken := true, level := min r.level ps.length, mask := m, seen := clk } same
          ∧ ∀ i, i < 256 → m.getLsbD i = (ps.take r.level).any (fun p => p.slot == i))
    ∧ (∀ b, r.kind = .bvm → r.taken = false → tget s.boards r.board = some b → b.round r.round = none →
        answered (.boardViewRequest key) { r with taken := true, fault := some .boardRound } same)
    ∧ (∀ b k w, r.kind = .brst → s.waiterOf r = some (k, w) → tget s.boards r.board = some b → s.boardIdle b r = true → s.ownPostAhead r = false →
        ∃ t b' w', exec (.boardResetRequest key) s = .next t ∧ tget t.boards r.board = some b' ∧ b'.rc = 0 ∧ b'.cur = [] ∧ b'.next = []
          ∧ b'.filled = none ∧ b'.slots = b.slots ∧ b'.owners = b.owners ∧ b'.strict = b.strict ∧ (∀ x ∈ t.breqs, x.key ≠ key)
          ∧ tget t.warps k = some w' ∧ w' = { w with wait := .none, clk := w'.clk } ∧ (∀ c ∈ w'.clk, ∀ x ∈ c.views, x.1 ≠ r.board)
          ∧ ∀ p, memGet t.mem p = memGet s.mem p)
    ∧ ∀ k w, r.taken = true → r.fault = none → s.waiterOf r = some (k, w) →
        let delivered (P : Warp → Prop) : Prop := ∃ t w', exec (.boardViewDelivery key) s = .next t ∧ t = { s with breqs := t.breqs, warps := t.warps }
          ∧ (∀ x ∈ t.breqs, x.key ≠ key) ∧ (∀ j, tget t.warps j = if j = k then some w' else tget s.warps j) ∧ w'.wait = .none ∧ P w'
        (r.kind = .bvm → delivered (fun w' => w' = { w with wait := .none, vms := w'.vms, clk := w'.clk }
          ∧ ∀ i, nth w'.vms i 0 = if i = r.vm then r.mask else nth w.vms i 0))
        ∧ (r.kind = .bpv → delivered (fun w' =>
          (∀ n l, n ≠ r.dst → w'.rd n l = w.rd n l) ∧ (∀ l, l < 32 → has r.act l = false → w'.rd r.dst l = w.rd r.dst l)
          ∧ (∀ l x, l < 32 → has r.act l = true → r.levels.find? (fun y => y.1 == l) = some x → w'.rd r.dst l = BitVec.ofNat 32 x.2.1
            ∧ (r.stale ≠ 15 → has (nth w'.preds r.stale 0) l = x.2.2))
          ∧ (∀ p l, l < 32 → p ≠ r.stale ∨ has r.act l = false → has (nth w'.preds p 0) l = has (nth w.preds p 0) l)
          ∧ (∀ x rest, r.lanes = x :: rest → tget w'.lastPost r.handle = some x.round)))
    ∧ ∀ c k w b g, r.taken = true → r.fault = some c → r.kind ≠ .brst → s.waiterOf r = some (k, w) → s.blk? w.blk = some b →
        tget s.grids b.grid = some g → g.rec_.handler ≠ 0 → w.trap = none → w.async = [] → w.replay = [] →
        (∀ o ∈ w.ops, o.done = true ∧ o.fault = none) →
        ∃ t w' x, exec (.boardViewDelivery key) s = .next t ∧ tget t.warps k = some w' ∧ (∀ j, j ≠ k → tget t.warps j = tget s.warps j)
          ∧ w'.trap = some x ∧ x.cause = c.code ∧ x.pc = r.pc ∧ x.mask = r.group &&& w.live ∧ x.addr = BitVec.ofNat 64 r.handle
          ∧ w'.regs = w.regs ∧ w'.preds = w.preds ∧ w'.vms = w.vms ∧ (∀ l, has w.live l = true → w'.pcAt l = g.rec_.handler)

/-- The one range of a die whose cluster of one fits has its first block placed: the block starts as 01 R15 says, each of
its warps in a slot that was free, no warp moves, and the range loses the block. A cooperative launch of one block that fits
is placed and runs, and one that does not fit as a whole places nothing. An idle die steals the higher half of the victim's
range, takes it when the reply comes, and after an empty reply waits 1,000 ticks. A fabric domain judges each frame once: it
steps up at its second busy frame in a row and down at its eighth quiet one. Which slot, and which of several idle dies is
served, are the model's choices (log entry 58). (R15, R32, R37, R38, R257, R321) -/
def Obligations.PlacementSteps : Prop :=
  let starts (s : State) (gk : Nat) (g : Grid) (core bid : Nat) (clk : VC) (t : State) : Prop :=
    (∀ j, t.blk? j = if j = s.nextKey then some (Block.start gk bid (bid % g.rec_.csize) core g.rec_.bwarps g.rec_.pclass g.rec_.poolw g.rec_.args clk s.tsc)
      else s.blk? j)
    ∧ (∀ k w, tget s.warps k = some w → tget t.warps k = some w)
    ∧ ∀ wid, wid < g.rec_.bwarps → ∃ slot, slot < 64 ∧ s.slotFree core slot = true
        ∧ tget t.warps (warpKey core slot) = some (Warp.start s.nextKey wid true g.ceils.length g.rec_.args g.rec_.entry clk s.issueCount)
  (∀ (die core : Nat) (s : State) (r : Range) (g : Grid), (s.die die).ranges = [r] → r.child = none → tget s.grids r.grid = some g →
    s.blk? s.nextKey = none → g.rec_.travel = false → g.rec_.csize = 1 → s.mayPlace g = true → s.dieServes die g.rec_ = true → s.siteFor die g r = some [core] →
    (s.col (core / 4)).gated = false →
    ∃ t, exec (.blockPlace die) s = .next t ∧ starts s r.grid g core r.lo r.clk t
      ∧ t = { s with blocks := t.blocks, warps := t.warps, dies := t.dies, cols := t.cols, nextKey := s.nextKey + 1 }
      ∧ (t.die die).ranges = if r.lo + 1 < r.hi then [{ r with lo := r.lo + 1 }] else [])
  ∧ (∀ (gk core : Nat) (s : State) (g : Grid), tget s.grids gk = some g → g.rec_.coop = true → g.state = .waiting → g.accepted = true →
    g.held = false → s.boardsFree g = true →
    (s.placeAll gk g 0 (g.rec_.gblocks / g.rec_.csize) = none → exec (.coopPlace gk) s = .next s)
    ∧ (g.rec_.gblocks = 1 → g.rec_.csize = 1 → s.dieServes 0 g.rec_ = true → (s.col (core / 4)).gated = false →
      s.blk? s.nextKey = none → s.site 0 1 g.rec_.bwarps g.rec_.pclass g.rec_.poolw (s.promised g.order) = some [core] →
      ∃ t, exec (.coopPlace gk) s = .next t ∧ starts s gk g core 0 g.launchVec t ∧ tget t.grids gk = some { g with state := .running }))
  ∧ (∀ (victim thief gk : Nat) (s : State) (g : Grid) (r : Range), thief < 4 → (∀ d, d < thief → (s.die d).ranges ≠ []) →
    (s.die thief).ranges = [] → (s.die thief).steal = .idle → s.target thief = some (workKey gk r.prio, victim) → victim ≠ thief →
    tget s.grids gk = some g → r.grid = gk → r.child = none → (s.die victim).ranges = [r] → 0 < g.rec_.csize →
    2 * g.rec_.csize ≤ r.hi - r.lo →
    let m := (r.hi - r.lo) / 2 / g.rec_.csize * g.rec_.csize
    ∃ t, exec (.stealRequest victim) s = .next t ∧ t = { s with dies := t.dies } ∧ (t.die victim).ranges = [{ r with hi := r.hi - m }]
      ∧ (t.die thief).steal = .reply gk (some { r with lo := r.hi - m }) ∧ ∀ d, d ≠ victim → d ≠ thief → t.die d = s.die d)
  ∧ (∀ (thief : Nat) (s : State),
    let turns (i : Instr) (d : Die) : Prop := ∃ t, exec i s = .next t ∧ t = { s with dies := t.dies }
      ∧ ∀ j, t.die j = if j = thief then d else s.die j
    (∀ gk r, (s.die thief).steal = .reply gk (some r) →
      turns (.stealReply thief) { s.die thief with ranges := (s.die thief).ranges ++ [r], steal := .idle })
    ∧ (∀ gk, (s.die thief).steal = .reply gk none → turns (.stealReply thief) { s.die thief with steal := .wait (s.tsc + 1000) })
    ∧ (∀ u, (s.die thief).steal = .wait u → u ≤ s.tsc → turns (.stealRetry thief) { s.die thief with steal := .idle }))
  ∧ ∀ (domain occ : Nat) (s : State),
    let d := s.die domain
    let high := if d.fjudged + 1 = s.frame then d.fhigh else 0
    let low := if d.fjudged + 1 = s.frame then d.flow else 0
    let steps (st hi lo : Nat) : Prop := ∃ t, exec (.fabricStepChange domain occ) s = .next t ∧ t = { s with dies := t.dies }
      ∧ ∀ j, t.die j = if j = domain then { d with fstep := st, fhigh := hi, flow := lo, fjudged := s.frame } else s.die j
    (s.frame ≤ d.fjudged → exec (.fabricStepChange domain occ) s = .next s)
    ∧ (d.fjudged < s.frame → (500 < occ → 1 ≤ high → steps (min 7 (d.fstep + 1)) 0 0) ∧ (500 < occ → high = 0 → steps d.fstep 1 0)
      ∧ (occ < 125 → 7 ≤ low → steps (d.fstep - 1) 0 0) ∧ (occ < 125 → low < 7 → steps d.fstep 0 (low + 1))
      ∧ (125 ≤ occ → occ ≤ 500 → steps d.fstep 0 0))

/-- A caravan that finds room joins the queue of its core, latest last, and its credit returns; one that finds none is held
in the ring entry of its credit. The head of the queue is promoted to the lowest usable slot: its lanes stand at the target,
every other lane is vacant, and it has the registers, predicates and identities it carried. A travel launch of one segment
and one replica takes the core, whose queue is empty, and runs. That the promoted warp's number is its slot is log entry 23,
and which waiting caravans are merged with the head are log entries 24 and 25: the model's choices. (R262, R268, R269, R271,
R272) -/
def Obligations.TravelSteps : Prop :=
  (∀ (key bk : Nat) (s : State) (c : Caravan) (g : Grid) (b : Block), s.caravans.find? (fun x => x.key == key) = some c →
    tget s.grids c.grid = some g → s.blocks.find? (fun x => x.2.grid == c.grid && x.2.core == c.dst) = some (bk, b) →
    s.blk? bk = some b → b.state = .running →
    ((s.core c.dst).arrivals.length < g.rec_.arrcap → g.ringHolds c.seg = false →
      ∃ t g', exec (.caravanArrival key) s = .next t ∧ t = { s with caravans := t.caravans, cores := t.cores, grids := t.grids }
        ∧ (∀ x ∈ t.caravans, x.key ≠ key) ∧ (∀ j, t.core j = if j = c.dst then
            { s.core j with arrivals := (s.core j).arrivals ++ [{ c with note := none }] } else s.core j)
        ∧ tget t.grids c.grid = some g' ∧ g' = { g with ring := g'.ring }
        ∧ ∀ e, tget g'.ring e = if e = c.entry then none else tget g.ring e)
    ∧ (g.rec_.arrcap ≤ (s.core c.dst).arrivals.length → ∃ t g' x, exec (.caravanArrival key) s = .next t ∧ t.cores = s.cores
        ∧ t.warps = s.warps ∧ (∀ y ∈ t.caravans, y.key ≠ key) ∧ tget t.grids c.grid = some g' ∧ tget g'.ring c.entry = some ⟨1, some x, s.hseq⟩
        ∧ x = { c with note := x.note } ∧ (x.note = if g.rec_.flag 5 then some c.dst else none)
        ∧ ∀ e, e ≠ c.entry → tget g'.ring e = tget g.ring e))
  ∧ (∀ (core gk seg bk slot : Nat) (s : State) (g : Grid) (b : Block) (c : Caravan) (rest : List Caravan) (l1 : List Nat),
    (s.core core).replica = some (gk, seg) → tget s.grids gk = some g → s.replicaBlock gk core = some bk → s.blk? bk = some b →
    b.state = .running → s.usableFree g core = slot :: l1 → (s.core core).arrivals = c :: rest → c.note = none → (∀ x ∈ rest, x.key ≠ c.key) →
    ∃ t w, exec (.caravanPromotion core 0) s = .next t ∧ t = { s with cores := t.cores, warps := t.warps }
      ∧ (t.core core).arrivals = rest ∧ (∀ j, tget t.warps j = if j = warpKey core slot then some w else tget s.warps j)
      ∧ w.blk = bk ∧ w.wid = slot ∧ (∀ n, n < g.ceils.length → w.reg n = (c.reg? n).getD (.u 0))
      ∧ ∀ l, l < 32 → (has c.mask l = true → w.laneAt l = .on 0 ∧ w.pcAt l = c.target ∧ nth w.ids l (0, 0) = (nth c.tid l 0, nth c.bid l 0)
            ∧ nth w.cstack l [] = nth c.cstack l [] ∧ ∀ p, p < 15 → has (nth w.preds p 0) l = has (nth c.preds p 0) l)
        ∧ (has c.mask l = false → w.laneAt l = .vacant))
  ∧ ∀ (gk core : Nat) (s : State) (g : Grid) (x : Segment), tget s.grids gk = some g → g.rec_.travel = true → g.state = .waiting →
    g.accepted = true → g.held = false → s.boardsFree g = true → g.segs = [x] →
    s.chooseCores (x.reps.filter (fun c => c != 0xFFFF)) (s.promised g.order) [x.reps] = some [[core]] →
    ∃ t bk b, exec (.travelReplicaGrant gk) s = .next t ∧ tget t.grids gk = some { g with segs := [{ x with reps := [core] }], state := .running }
      ∧ (t.core core).replica = some (gk, 0) ∧ (t.core core).arrivals = [] ∧ (∀ j, j ≠ core → t.core j = s.core j)
      ∧ t.blk? bk = some b ∧ b.grid = gk ∧ b.core = core ∧ b.state = .running ∧ t.warps = s.warps

/-- An arriving packet joins its die's mailbox, latest last. The dispatcher pops the head packet: the lanes 0 to 7 of its
register take the words, the others 0. The packet is dropped and counted when it is malformed; handed on as a range of its blocks when the die has capacity or it has been forwarded three times; forwarded with one more
hop when another die has capacity. An accepted range takes its block numbers from the grid's counter. A frame that has ended
publishes what each distributor has still to place of each launch and priority and whether each arrival queue is full. (R41,
R42, R43, R38, R181, R268, R292) -/
def Obligations.WorkSteps : Prop :=
  (∀ (key : Nat) (s : State) (p : Packet), s.packets.find? (fun x => x.key == key) = some p →
    ∃ t, exec (.workPacketArrival key) s = .next t ∧ t = { s with packets := s.packets.filter (fun x => x.key != key), dies := t.dies }
      ∧ ∀ j, t.die j = if j = p.die then { s.die j with mailbox := (s.die j).mailbox ++ [p] } else s.die j)
  ∧ (∀ (die : Nat) (s : State) (p : Packet) (rest : List Packet) (g : Grid), die < 4 → (s.die die).mailbox = p :: rest → (s.die die).giving = none →
    tget s.grids p.grid = some g →
    let popped (t : State) : Prop := (t.die die).dreg.length = 32 ∧ ∀ l, nth (t.die die).dreg l 0 = if l < 8 then nth p.words l 0 else 0
    (s.malformed die g p = true → ∃ t, exec (.dispatchPacket die) s = .next t ∧ popped t ∧ (t.die die).mailbox = rest
      ∧ (t.die die).malformed = (s.die die).malformed + 1 ∧ (t.die die).giving = none ∧ t.packets = s.packets ∧ t.warps = s.warps ∧ t.mem = s.mem)
    ∧ (s.malformed die g p = false → s.capacity die g p ≠ 0 ∨ p.hops = 3 →
      ∃ t r, exec (.dispatchPacket die) s = .next t ∧ t = { s with dies := t.dies, outbound := t.outbound } ∧ (∀ pc, s.entryAt die g.ctx g.rec_.entry (field (p.word 0) 0 16) = some pc →
        r = { grid := p.grid, lo := 0, hi := p.nblk, prio := p.prio, order := g.order,
              child := some (pc.toNat, p.cwarps, p.pclass, (List.range 4).map (fun i => nth p.words (4 + i) 0)), clk := p.clk })
        ∧ popped t ∧ ∀ j, t.die j = if j = die then { s.die j with mailbox := rest, dreg := (t.die j).dreg, giving := some r } else s.die j)
    ∧ (∀ d, s.malformed die g p = false → s.capacity die g p = 0 → p.hops < 3 → s.elsewhere die g p = some d →
      ∃ t q, exec (.dispatchPacket die) s = .next t ∧ t = { s with dies := t.dies, packets := s.packets ++ [q], nextKey := s.nextKey + 1 }
        ∧ popped t ∧ (∀ j, t.die j = if j = die then { s.die j with mailbox := rest, dreg := (t.die j).dreg } else s.die j)
        ∧ q.die = d ∧ q.grid = p.grid ∧ q.clk = p.clk ∧ q.hops = p.hops + 1 ∧ ∀ i, 0 < i → i < 8 → nth q.words i 0 = nth p.words i 0))
  ∧ (∀ (die : Nat) (s : State) (r : Range) (g : Grid), (s.die die).giving = some r → tget s.grids r.grid = some g →
    let lo := g.rec_.gblocks + g.childNext
    ∃ t, exec (.childRangeAccept die) s = .next t ∧ t = { s with dies := t.dies, grids := t.grids }
      ∧ (∀ j, t.die j = if j = die then
          { s.die j with giving := none, ranges := (s.die j).ranges ++ [{ r with lo := lo, hi := lo + (r.hi - r.lo) }] } else s.die j)
      ∧ ∀ j, tget t.grids j = if j = r.grid then some { g with childNext := g.childNext + (r.hi - r.lo) } else tget s.grids j)
  ∧ ∀ s : State, s.frame < s.tsc / 1000 → ∃ t, exec .frameBoundary s = .next t ∧ t = { s with frame := s.tsc / 1000, dies := t.dies, cores := t.cores }
      ∧ (∀ d gk p, d < s.dies.length → p < 8 → (tget s.grids gk).isSome = true →
        (tget (t.die d).pubRemain (workKey gk p)).getD 0 = (s.die d).remaining (workKey gk p))
      ∧ (∀ d, d < s.dies.length → t.die d = { s.die d with pubRemain := (t.die d).pubRemain, pubFree := (t.die d).pubFree })
      ∧ ∀ c gk seg g, c < s.cores.length → (s.core c).replica = some (gk, seg) → tget s.grids gk = some g →
          t.core c = { s.core c with fullPub := decide (g.rec_.arrcap ≤ (s.core c).arrivals.length) }

/-- PREEMPT is raised in the next running block of a command and becomes pending in each of its warps; with no block left
the command completes with the refused count. That the blocks are raised one at a time over the whole command is the model's
choice (log entry 32): R259 orders only those of one cluster. A block all of whose warps have yielded leaves, where its frame can be
written: it is out, its queue, guard slots and tickets are set aside, and none of its warps holds a slot. An arrival for a block that is out goes into its log. A block whose mates are resident goes back to its
core, with each saved warp in a slot at the handler. A grid with nothing left, whose writes have reached every die,
completes with its status. (R228, R230, R231, R232, R233, R259, R260, R307) -/
def Obligations.PreemptSteps : Prop :=
  (∀ (gk cid : Nat) (s : State) (g : Grid), tget s.grids gk = some g → g.preCid = some cid →
    (∀ x ∈ s.blocks, x.2.grid = gk → x.2.state ≠ .preempting) →
    (∀ bk rest b, g.pre = bk :: rest → s.blk? bk = some b → b.grid = gk → b.state = .running → (∃ s1, s.raisePreempt bk b g = .ok s1) →
      ∃ t b' g', exec (.preemptRaise gk) s = .next t ∧ t.blk? bk = some b' ∧ b'.state = .preempting ∧ b'.scratch = b.scratch
        ∧ tget t.grids gk = some g' ∧ g'.pre = rest ∧ (∃ n, g'.frames = g.frames ++ [(bk, b'.frame, n)])
        ∧ (∀ j, j ≠ bk → t.blk? j = s.blk? j) ∧ t.mem = s.mem
        ∧ ∀ k w, tget s.warps k = some w → ∃ w', tget t.warps k = some w' ∧ w' = { w with async := w'.async }
            ∧ (w.blk = bk → ∃ a, (Cause.preempt, a) ∈ w'.async) ∧ (w.blk ≠ bk → w' = w))
    ∧ (g.pre = [] → ∃ t, exec (.preemptRaise gk) s = .next t ∧ tget t.grids gk = some { g with preRefused := 0, preCid := none }
        ∧ (∀ p, tget s.queues (qkey g.fn g.q) = some p → ∃ x, tget t.queues (qkey g.fn g.q) = some { p with done := p.done ++ [x] }
            ∧ x.cid = cid ∧ x.status = 0 ∧ x.r1 = BitVec.ofNat 32 g.preRefused) ∧ t.warps = s.warps ∧ t.blocks = s.blocks))
  ∧ (∀ (bk : Nat) (s : State) (b : Block) (g : Grid), s.blk? bk = some b → tget s.grids b.grid = some g → s.canLeave bk b = true →
    (g.rec_.handler = 0 → b.spoison = [] ∧ b.shPoison = []) →
    s.vaFault 4 g.ctx needW (piecesOf b.frame (s.leavePieces bk b g 0)
      ++ [(b.frame + 0x3000, 32 * (b.tickets.length + (s.uncounted bk b).length))]) = none →
    ∃ t b', exec (.blockLeave bk) s = .next t ∧ t.blk? bk = some b' ∧ b'.state = .out ∧ b'.core = b.core ∧ b'.tiles = b.tiles
      ∧ b'.vq = [] ∧ b'.away = b.vq ∧ b'.awayGs = b.gslots ∧ b'.tickets = [] ∧ b'.awayTickets.map Prod.snd = b.tickets
      ∧ (∀ k w, tget t.warps k = some w → w.blk ≠ bk) ∧ t.mem = s.mem)
  ∧ (∀ (bk : Nat) (s : State) (b : Block) (m : ArrMsg), s.blk? bk = some b → b.state = .out →
    s.arrs.find? (fun m => m.n < 112 && m.dst == bk) = some m → ∃ t b', exec (.arrivalLogAppend bk) s = .next t
      ∧ t.arrs = s.arrs.filter (fun x => x.key != m.key) ∧ t.blk? bk = some b' ∧ b'.state = .out
      ∧ b'.wires = b.wires ++ [{ m with stamp := s.tsc }] ∧ t.warps = s.warps ∧ t.mem = s.mem)
  ∧ (∀ (bk : Nat) (s : State) (b : Block) (g : Grid), s.blk? bk = some b → tget s.grids b.grid = some g → b.state = .out → bk ∈ g.res →
    g.rec_.travel = false → g.rec_.handler ≠ 0 → s.retired (coreColumn b.core) = false →
    (s.clusterOf b g.rec_).any (fun x => x.2.resident) = true →
    s.takesBack g b.core b = true → b.saved.length ≤ s.freeSlots b.core →
    ∃ t b', exec (.blockRestorePlace bk) s = .next t ∧ t.blk? bk = some b' ∧ b'.core = b.core
      ∧ (b'.state = if b.saved.isEmpty then .running else .restoring) ∧ (∀ k w, tget s.warps k = some w → w.blk ≠ bk → tget t.warps k = some w)
      ∧ ∀ x ∈ b.saved, ∃ slot w, tget t.warps (warpKey b.core slot) = some w ∧ w.blk = bk ∧ w.wid = x.2.wid
          ∧ ∀ l, l < 32 → w.pcAt l = g.rec_.handler)
  ∧ ∀ (gk : Nat) (s : State) (g : Grid), tget s.grids gk = some g → g.rec_.travel = false → g.state = .running → g.held = false →
    g.accepted = true → (∀ x ∈ s.blocks, x.2.grid ≠ gk) → s.gridEmpty gk = true → (∀ d ∈ s.dies, g.clk.le d.vec = true) →
    ∃ t, exec (.gridComplete gk) s = .next t ∧ tget t.grids gk = some { g with state := .done } ∧ t.warps = s.warps ∧ t.mem = s.mem
      ∧ ∀ p, tget s.queues (qkey g.fn g.q) = some p → ∃ x, tget t.queues (qkey g.fn g.q) = some { p with done := p.done ++ [x] }
          ∧ x.cid = g.cid ∧ x.status = if g.killed then 5 else if g.err then 4 else 0

/-- At a window boundary of a powered column the estimates are the controller's (free values), each forecast is the larger
of estimate and 14 times the declared draw plus 8 times the burn, no burner exceeds its limit, and no other column changes.
A rescale scales the estimates to the measured current, with the burners taken off before and the quotient rounded down: the
model's choice (log entry 41). Where the condition of rung 3 holds the heavy core is throttled from the column's step, goes
down one step per µs while it holds, and up one per 4 µs once the residuals are within 4.0 A. Rung 4 falls back unless a
heavy block asked for the notice, which its warps then get; the fallback lifts the throttles and the ladder begins again. That
the mismatch step is the one that tells the blocks is the model's choice (log entry 45). The step moves by one toward the
lowest ceiling. (R236, R237, R238, R239, R240, R241, R248) -/
def Obligations.WindowAndThrottleSteps : Prop :=
  ∀ (col bnd layer feed : Nat) (s : State),
    let c := s.col col
    let cols (t : State) (c' : Column) : Prop := ∀ j, t.col j = if j = col then c' else s.col j
    let only (i : Instr) (c' : Column) : Prop := ∃ t, exec i s = .next t ∧ t = { s with cols := t.cols } ∧ cols t c'
    (c.windowAt + c.windowLen ≤ s.tsc →
      (c.on s.tsc = false → only (.columnWindowBoundary col) { c with windowAt := s.tsc, window := c.window + 1, est := [0, 0, 0, 0],
                                                                      hw := [0, 0, 0, 0], fc := [0, 0, 0, 0], rung := [1, 1, 1],
                                                                      over6 := [none, none, none], over9 := [none, none, none],
                                                                      over2 := [none, none, none], mism := [false, false, false] })
      ∧ (c.on s.tsc = true → ∃ t c', exec (.columnWindowBoundary col) s = .next t ∧ cols t c' ∧ t.fresh = s.fresh + 1 ∧ t.mem = s.mem
          ∧ c'.windowAt = s.tsc ∧ c'.window = c.window + 1 ∧ c'.step = c.step
          ∧ ∀ k, k < 4 → nth c'.est k 0 = Config.estimate (4 * s.fresh + k)
            ∧ nth c'.fc k 0 = max (nth c'.est k 0) (14 * t.drawOf (4 * col + k)) + 8 * t.burnOf (4 * col + k)
            ∧ nth c'.hw k 0 ≤ 16 - t.burnOf (4 * col + k) ∧ nth c'.hw k 0 ≤ if 5 ≤ c.tband then 8 else 16))
    ∧ (c.rescaleDue = true → c.est.sum ≠ 0 → only (.estimateRescale col feed) { c with
        rescaleDue := false, est := c.est.map (fun a => a * (feed - (8 * (s.burns col).sum + 8 * c.hw.sum)) / c.est.sum) })
    ∧ (let k0 := s.heavyCore col bnd
      (c.on s.tsc = true → c.rung3 bnd = true → nth c.throttle k0 none = none → c.fallback = false → s.colBisque col = false →
        ∃ c', only (.throttleEngage col bnd) c' ∧ c' = { c with throttle := c'.throttle, throttleFor := c'.throttleFor, throttleAt := c'.throttleAt }
          ∧ (∀ k, nth c'.throttle k none = if k = k0 then some c.step else nth c.throttle k none)
          ∧ (∀ k, nth c'.throttleFor k [] = if k = k0 then [bnd] else nth c.throttleFor k [])
          ∧ nth c'.throttleAt k0 0 = s.tsc)
      ∧ (c.on s.tsc = false ∨ c.rung3 bnd = false ∨ c.fallback = true ∨ s.colBisque col = true → exec (.throttleEngage col bnd) s = .next s))
    ∧ (∀ v, c.on s.tsc = true → nth c.throttle layer none = some v →
        let goes (x : Option Nat) : Prop := ∃ c', only (.throttleStepChange col layer) c'
          ∧ c' = { c with throttle := c'.throttle, throttleFor := c'.throttleFor, throttleAt := c'.throttleAt }
          ∧ (∀ k, nth c'.throttle k none = if k = layer then x else nth c.throttle k none)
        (bnd ∈ nth c.throttleFor layer [] → c.rung3 bnd = true → nth c.throttleAt layer 0 + 1000 ≤ s.tsc → v ≠ 0 → goes (some (v - 1)))
        ∧ ((∀ b ∈ nth c.throttleFor layer [], c.rung3 b = false) → (∀ b, b < 3 → absNat (mismatch4 c.residual b) ≤ 256) →
            nth c.throttleAt layer 0 + 4000 ≤ s.tsc →
          goes (if c.step ≤ v + 1 then none else some (v + 1))))
    ∧ (nth c.mism bnd false = true →
        let heavy := (s.blocksOn (4 * col + s.heavyCore col bnd)).filter (fun x => (tget s.grids x.2.grid).any (fun g => g.rec_.flag 2))
        (heavy = [] → ∃ t c', exec (.stackMismatch col bnd) s = .next t ∧ cols t c' ∧ t.blocks = s.blocks ∧ t.mem = s.mem ∧ c'.fallback = true
          ∧ c'.fallMoved = false ∧ c'.throttle = [none, none, none, none] ∧ c'.rung = [1, 1, 1] ∧ c'.mism = [false, false, false]
          ∧ c'.over6 = [none, none, none] ∧ c'.over9 = [none, none, none] ∧ c'.over2 = [none, none, none])
        ∧ (heavy ≠ [] → ∃ t c', exec (.stackMismatch col bnd) s = .next t ∧ cols t c' ∧ t = { s with cols := t.cols, warps := t.warps }
          ∧ c' = { c with mism := c'.mism } ∧ nth c'.mism bnd false = false
          ∧ ∀ k w, tget s.warps k = some w → ∃ w', tget t.warps k = some w' ∧ w' = { w with async := w'.async }
            ∧ ((∃ x ∈ heavy, x.1 = w.blk) → ∃ a, (Cause.stackMismatch, a) ∈ w'.async)))
    ∧ (c.windowAt = s.tsc → c.stepAt + 1000 ≤ s.tsc →
        (c.target (s.colBisque col) < c.step → only (.stepChange col) { c with
          step := c.step - 1, stepAt := s.tsc, boostCeil := if c.boostOn then min c.boostCeil (max c.nominal (c.step - 1)) else c.boostCeil })
        ∧ (c.step < c.target (s.colBisque col) → only (.stepChange col) { c with step := c.step + 1, stepAt := s.tsc }))

/-- A column without boost gains its shortfall below 27.5 W, up to the capacity of the bucket, and boost begins when the
bucket allows it; when boost ends, and how energies round, are the model's choices (log entry 40). A granted boost ceiling at
which the column stands rises one step per 10 µs. A thermal ceiling falls one step per 10 µs in band 6 and
rises one per 100 µs in bands 0 to 4, until it is gone. A sample over the module's cap lowers by one the ceiling of the
powered column of the highest step, of those the greatest power, of those the lowest number; 100 µs at or below 95% of the cap
raise by one the ceiling of the last column in that order among those that have one. That a first ceiling lies one below the
column's step, and one at the top step is lifted, are the model's choices (log entry 44). (R249, R250, R251) -/
def Obligations.CeilingSteps : Prop :=
  (∀ (col : Nat) (s : State),
    let c := s.col col
    let only (i : Instr) (c' : Column) : Prop := ∃ t, exec i s = .next t ∧ t = { s with cols := t.cols } ∧ ∀ j, t.col j = if j = col then c' else s.col j
    (c.boostTick + 1000 ≤ s.tsc → c.boostOn = false → c.step ≤ c.nominal →
      let boost := min 4095000 (c.boost + (27500 - s.columnMw col) * (s.tsc - c.boostTick) / 1000000)
      only (.boostUpdate col) (if 16000 ≤ boost ∧ s.boostOk col = true
        then { c with boost := boost, boostTick := s.tsc, boostOn := true, boostCeil := c.nominal, boostAt := s.tsc }
        else { c with boost := boost, boostTick := s.tsc }))
    ∧ (c.boostOn = true → c.boost ≠ 0 → s.boostOk col = true → c.boostCeil < c.topStep → c.step = c.boostCeil →
      c.boostAt + 10000 ≤ s.tsc → c.stepAt + 10000 ≤ s.tsc →
      only (.boostRise col) { c with boostCeil := c.boostCeil + 1, boostAt := s.tsc })
    ∧ ((∀ x, c.hottest = some x → x < 2000) → ∀ v, c.thermal = some v →
      (c.tband = 6 → c.thermAt + 10000 ≤ s.tsc → v ≠ 0 → only (.thermalCeilingTick col) { c with thermal := some (v - 1), thermAt := s.tsc })
      ∧ (c.tband ≤ 4 → c.thermAt + 100000 ≤ s.tsc →
        only (.thermalCeilingTick col) { c with thermal := if c.nominal ≤ v + 1 then none else some (v + 1), thermAt := s.tsc })))
  ∧ (∀ s : State, s.capAt + 10000 ≤ s.tsc →
    let mw := ((List.range 64).map s.columnMw).sum + Config.restPower s.fresh
    (mw ≤ 1000 * s.powerCap → ∃ t, exec .powerCapSample s = .next t ∧ t = { s with fresh := s.fresh + 1, modPower := mw / 1000, capAt := s.tsc,
                                                                                    capTimer := t.capTimer }
      ∧ (100 * mw ≤ 95 * (1000 * s.powerCap) → t.capTimer = some (s.capTimer.getD s.tsc))
      ∧ (95 * (1000 * s.powerCap) < 100 * mw → t.capTimer = none))
    ∧ (∀ col, 1000 * s.powerCap < mw → s.capVictim = some col → (s.col col).powerCeil.getD (s.col col).step ≠ 0 →
      ∃ t c', exec .powerCapSample s = .next t ∧ (∀ j, t.col j = if j = col then c' else s.col j) ∧ t.capTimer = none
        ∧ c'.powerCeil = some ((s.col col).powerCeil.getD (s.col col).step - 1) ∧ c'.step = (s.col col).step ∧ t.blocks = s.blocks ∧ t.mem = s.mem))
  ∧ (∀ (s : State) (v col p : Nat), s.capTimer = some v → s.capReliever = some col → (s.col col).powerCeil = some p → v + 100000 ≤ s.tsc →
    ∃ t, exec .powerCapRelax s = .next t ∧ t = { s with cols := t.cols, capTimer := some s.tsc }
      ∧ ∀ j, t.col j = if j = col then
          { s.col j with powerCeil := if p + 1 < (s.col j).topStep then some (p + 1) else none } else s.col j)
  ∧ ∀ (s : State) (a b : Nat), b < 64 →
    let above (x y : Nat) : Prop := (s.col y).step < (s.col x).step
      ∨ (s.col y).step = (s.col x).step ∧ (s.columnMw y < s.columnMw x ∨ s.columnMw y = s.columnMw x ∧ x ≤ y)
    (s.capVictim = some a → (s.col b).gated = false → (s.col b).powerStage = 4 → (s.col b).powerCeil ≠ some 0 → above a b)
    ∧ (s.capReliever = some a → (s.col b).powerCeil ≠ none → above b a)

/-- A sample holds the twenty readings, takes a reading out of its range for invalid, and puts the column in the band of its
hottest valid temperature while no layer has lost its sensors. A stuck sensor is invalid until its die is calibrated; a bad
one with 65,536 good readings in a row is bad no more. An open-bump event counts against the column and caps its step; that
an episode of low readings opens at its 251st sample, and makes one event, is the model's choice (log entry 43). The
regulator moves by at most 20 mV, and not up while every valid reading of the die's columns exceeds the target. An empty column is gated 100 µs after its last block,
and its header switch closes in four stages. (R249, R252, R253, R254, R255, R256) -/
def Obligations.SensorSteps : Prop :=
  (∀ (col n : Nat) (s : State),
    let c := s.col col
    (∀ mv temp, (c.sampled = true → c.sampleAt + 200 ≤ s.tsc) → (∀ i, i < 4 → nth temp i 0 < (2000 : Int)) →
      ∃ t c', exec (.sensorSample col mv temp) s = .next t ∧ (∀ j, t.col j = if j = col then c' else s.col j) ∧ c'.sampled = true ∧ c'.sampleAt = s.tsc
        ∧ (∀ i, i < 16 → (nth c'.volts i Sensor.init).reading = nth mv i 0
            ∧ (nth mv i 0 < (300 : Int) ∨ (1100 : Int) < nth mv i 0 → (nth c'.volts i Sensor.init).valid = false))
        ∧ (∀ i, i < 4 → (nth c'.temps i Sensor.init).reading = nth temp i 0
            ∧ (nth temp i 0 < (-640 : Int) → (nth c'.temps i Sensor.init).valid = false))
        ∧ ((∀ l, l < 4 → c'.wholly l = false) → ∃ x, c'.hottest = some x ∧ c'.tband = bandOf x ∧ c'.sensorFall = false)
        ∧ ((∃ l, l < 4 ∧ c'.wholly l = true) → c'.tband = 7 ∧ c'.sensorFall = true) ∧ t.blocks = s.blocks ∧ t.mem = s.mem)
    ∧ (n < 20 → (c.sensor n).stuck = false → 4096 ≤ (c.sensor n).same → c.sums.length = 4096 →
      c.sums.foldl max 0 < 4 * (c.sums.foldl max 0 - c.sums.foldl min (c.sums.foldl max 0)) →
      ∃ t, exec (.sensorStuck col n) s = .next t ∧ ((t.col col).sensor n).stuck = true ∧ ((t.col col).sensor n).valid = false
        ∧ (∀ m, m ≠ n → (t.col col).sensor m = c.sensor m) ∧ (∀ j, j ≠ col → t.col j = s.col j) ∧ t.mem = s.mem)
    ∧ (n < 20 → (c.sensor n).bad = true → 65536 ≤ (c.sensor n).good →
      ∃ t, exec (.sensorRevalidate col n) s = .next t ∧ (t.col col).sensor n = { c.sensor n with bad := false }
        ∧ (∀ m, m ≠ n → (t.col col).sensor m = c.sensor m) ∧ (∀ j, j ≠ col → t.col j = s.col j) ∧ t.mem = s.mem)
    ∧ (n < 16 → (c.sensor n).low = 251 →
      ∃ t, exec (.openBumpEvent col n) s = .next t ∧ tget t.bumps col = some ((tget s.bumps col).getD 0 + 1) ∧ (t.col col).bumpCap = true
        ∧ ((t.col col).sensor n).low = 252 ∧ (∀ j, j ≠ col → t.col j = s.col j ∧ tget t.bumps j = tget s.bumps j) ∧ t.blocks = s.blocks ∧ t.mem = s.mem)
    ∧ (let only (i : Instr) (c' : Column) : Prop := ∃ t, exec i s = .next t ∧ t = { s with cols := t.cols } ∧ ∀ j, t.col j = if j = col then c' else s.col j
      (col % 16 ≠ 0 → c.gated = false → c.powerStage = 4 → s.columnBlocks col = [] → c.emptySince + 100000 ≤ s.tsc →
        only (.columnGate col) { c with gated := true, powerStage := 0, est := [0, 0, 0, 0], hw := [0, 0, 0, 0] })
      ∧ (c.gated = false → c.powerStage = 0 → (∀ k, k / 16 = col / 16 → k ≠ col → (s.col k).gated = true ∨ (s.col k).powerStage = 4) →
        only (.columnPowerStage col) { c with powerStage := 1, powerAt := max 1 s.tsc })
      ∧ (c.gated = false → 0 < c.powerStage → c.powerStage < 4 → c.powerAt + 250 * c.powerStage ≤ s.tsc →
        only (.columnPowerStage col) { c with powerStage := c.powerStage + 1 })))
  ∧ ∀ (die : Nat) (s : State), die < 4 → (s.die die).railAt + 200 ≤ s.tsc →
    ∃ t r, exec (.regulatorAdjust die) s = .next t ∧ t = { s with dies := t.dies }
      ∧ (∀ j, t.die j = if j = die then { s.die j with rail := r, railAt := s.tsc } else s.die j)
      ∧ r ≤ (s.die die).rail + 20 ∧ (s.die die).rail ≤ r + 20
      ∧ ((∀ i, i < 16 → (s.col (16 * die + i)).sampled = true → ∀ x ∈ validReadings (s.col (16 * die + i)).volts, ((s.layerMv die : Nat) : Int) < x) → r ≤ (s.die die).rail)

/-- A good flit with the expected number joins the bytes of its channel and is acknowledged, and a packet that is complete is
passed up as its 32-byte fabric flits; a bad one is answered by a nak, the first unexpected one too, and passes nothing up; an
acknowledgement frees the flits up to its number; a nak replays from its number. A link with more than 16 replays, or a
failed one, is down: its traffic moves to the other link to its peer; without another it waits for training, or is lost, and
a load in flight to the peer then ends with MEMORY_ERROR. The order in which unacknowledged payloads move is the model's
choice (log entry 46), as are the queue's being full one entry early and what a doorbell does before an unknown command (log
entry 47). A trained link starts anew. With no posted write of the function outstanding and no doorbell waiting, a new tail has the entries up to
it read from host memory, in order, behind the commands already there, and a new head is taken; else the doorbell waits. The
base and size registers of a queue pair are written at their offsets. The oldest completion is written as four words at its
entry, with CID, status and phase, the entry advances, the phase turns at the wrap, and MSI-X vector q + 1 follows. (R302,
R300, R303) -/
def Obligations.LinkAndQueueSteps : Prop :=
  (∀ (link : Nat) (s : State),
      let l := s.link link
      let becomes (i : Instr) (x : Link) : Prop := ∃ t, exec i s = .next t ∧ t = { s with links := t.links } ∧ ∀ j, t.link j = if j = link then x else s.link j
      (l.up = true →
        (∀ f, flitGood f = true → flitKind f = 0 → flitSeq f = l.expect →
          let vc := (nth f 0 0).toNat % 16
          let held := (tget l.rx vc).getD [] ++ (f.drop 2).take 28
          let n := max 1 (Config.packetFlits (held.take 32))
          let size := 28 * ((32 * n + 27) / 28)
          ∃ x, becomes (.floidFlitReceive link f) x
            ∧ x = { l with rx := x.rx, got := x.got, expect := l.expect + 1, nakked := false, wire := l.wire ++ [mkFlit 1 0 (flitSeq f) []] }
            ∧ (∀ v, v ≠ vc → tget x.rx v = tget l.rx v)
            ∧ (held.length < 32 ∨ held.length < size → tget x.rx vc = some held ∧ x.got = l.got)
            ∧ (32 ≤ held.length → size ≤ held.length → tget x.rx vc = some (held.drop size)
              ∧ x.got = l.got ++ (List.range n).map (fun i => (held.drop (32 * i)).take 32)))
        ∧ (let nak : Link := { l with nakked := true, wire := l.wire ++ [mkFlit 2 0 l.expect []] }
          (∀ f, flitGood f = false → becomes (.floidFlitReceive link f) nak)
          ∧ ∀ f, flitGood f = true → flitKind f = 0 → flitSeq f ≠ l.expect → becomes (.floidFlitReceive link f) (if l.nakked then l else nak))
        ∧ (∀ f a b x, flitGood f = true → flitKind f = 1 → l.unacked = a ++ (flitSeq f, x) :: b → (∀ y ∈ a, y.1 ≠ flitSeq f) → l.tx = [] →
          becomes (.floidFlitReceive link f) { l with unacked := b, replays := 0 })
        ∧ (∀ seq a b x, l.unacked = a ++ (seq, x) :: b → (∀ y ∈ a, y.1 ≠ seq) → becomes (.floidNakReceive link seq)
          { l with wire := l.wire ++ x.2 :: b.map (fun u => u.2.2), replays := l.replays + 1 })
        ∧ (let down (tx : List (Nat × List Byte)) : Link := { l with up := false, unacked := [], tx := tx, replays := 0, nakked := false }
          let left := l.unacked.map (fun u => (u.2.1, (u.2.2.drop 2).take 28)) ++ l.tx
          ((∀ k, k < 8 → k ≠ link → (s.link k).up = false ∨ (s.link k).peer ≠ l.peer) →
            ((∀ m ∈ s.msgs, m.atom? = none) → ∃ s1, s1 = { s with links := s1.links } ∧ (∀ j, s1.link j = if j = link then down [] else s.link j)
              ∧ ((∀ x ∈ s.warps, ∀ o ∈ x.2.ops, s1.peerLoad x.1 x.2 o l.peer = none) → exec (.floidLinkFail link) s = .next s1)
              ∧ ∀ k w o va, s.warps = [(k, w)] → w.ops = [o] → s1.peerLoad k w o l.peer = some va → o.over = false →
                  exec (.floidLinkFail link) s = .next (s1.faultOp k o.id .memoryError va))
            ∧ (16 < l.replays → ∃ t, exec (.floidLinkRetrain link) s = .next t
              ∧ t = { s with links := t.links, hubLog := t.hubLog, hubLost := t.hubLost, msix := t.msix }
              ∧ ∀ j, t.link j = if j = link then down left else s.link j))
          ∧ ∀ k, k < 8 → k ≠ link → (s.link k).up = true → (s.link k).peer = l.peer →
              (∀ j, j < 8 → j ≠ link → j ≠ k → (s.link j).up = false ∨ (s.link j).peer ≠ l.peer) →
              ∃ t, exec (.floidLinkFail link) s = .next t ∧ t = { s with links := t.links } ∧ t.link link = down []
                ∧ (∀ j, j ≠ link → j ≠ k → t.link j = s.link j)
                ∧ (t.link k).unacked.map (fun u => u.2.1) ++ (t.link k).tx.map Prod.fst
                  = (s.link k).unacked.map (fun u => u.2.1) ++ (s.link k).tx.map Prod.fst ++ left.map Prod.fst))
      ∧ (l.up = false → link < 8 → l.tx = [] → becomes (.floidLinkTrained link)
          { l with up := true, peer := Config.linkPeer link % 256, nextSeq := 0, expect := 0, unacked := [], replays := 0, nakked := false }))
  ∧ (∀ (fn q : Nat) (s : State) (p : QPair), tget s.queues (qkey fn q) = some p → s.stage ≠ .off → fn ≤ s.vfs → q < 16 →
      let becomes (i : Instr) (P : QPair → Prop) : Prop := ∃ t x, exec i s = .next t ∧ t = { s with queues := t.queues }
        ∧ (∀ k, tget t.queues k = if k = qkey fn q then some x else tget s.queues k) ∧ P x
      let free : Prop := p.bells = [] ∧ ∀ x ∈ s.inbound, x.fn = fn → (s.die 4).nextWrite ≤ x.num
      (∀ v c rest, free → p.cmds = c :: rest → c.known = true →
        (p.sqsize ≠ 0 → becomes (.sqtail fn q v) (fun x => ∃ new, x = { p with sqtail := v, sqhead := v.toNat % p.sqsize.toNat, cmds := p.cmds ++ new }
            ∧ new.length = (v.toNat % p.sqsize.toNat + p.sqsize.toNat - p.sqhead % p.sqsize.toNat) % p.sqsize.toNat
            ∧ ∀ i j, i < new.length → j < 16 → (nth (nth new i ⟨[]⟩).words j 0).toNat = ofBytes
                (((s.hostRead (p.sqbase.toNat + 64 * ((p.sqhead + i) % p.sqsize.toNat)) 64).drop (4 * j)).take 4)))
        ∧ becomes (.cqhead fn q v) (fun x => x = { p with cqhead := v }))
      ∧ (∀ v, ¬ free → becomes (.sqtail fn q v) (fun x => x = { p with bells := p.bells ++ [(true, v, (s.die 4).nextWrite)] })
          ∧ becomes (.cqhead fn q v) (fun x => x = { p with bells := p.bells ++ [(false, v, (s.die 4).nextWrite)] }))
      ∧ (∀ v : W64, becomes (.queueRegisterWrite fn (0x1000 + 64 * q) v) (fun x => x = { p with sqbase := v })
          ∧ becomes (.queueRegisterWrite fn (0x1008 + 64 * q) v) (fun x => x = { p with sqsize := v.setWidth 32 })
          ∧ becomes (.queueRegisterWrite fn (0x1010 + 64 * q) v) (fun x => x = { p with cqbase := v })
          ∧ becomes (.queueRegisterWrite fn (0x1018 + 64 * q) v) (fun x => x = { p with cqsize := v.setWidth 32 }))
      ∧ ∀ c rest, p.done = c :: rest → p.full = false → p.cqbase.toNat + 16 * p.cqtail + 16 ≤ hostEnd - hostBase →
          let next := (p.cqtail + 1) % p.cqsize.toNat
          ∃ t, exec (.completionPost fn q) s = .next t ∧ t.warps = s.warps ∧ t.msix = s.msix ++ [(fn, q + 1)]
            ∧ HostWrote s (p.cqbase.toNat + 16 * p.cqtail) (bytesOf 4 (c.cid * 65536 + c.status * 2 + (if p.phase then 1 else 0))
                ++ bytesOf 4 c.r1.toNat ++ bytesOf 4 c.r2.toNat ++ bytesOf 4 c.r3.toNat) t
            ∧ ∀ k, tget t.queues k = if k = qkey fn q then
                some { p with done := rest, cqtail := next, phase := if next = 0 then !p.phase else p.phase } else tget s.queues k)

/-- A posted write of translated bytes takes the next number of die 4, a message with each byte goes to every die, and
memory waits for them; one that cannot be translated writes nothing. An acknowledged piece leaves its write, which retires
with its last. A read whose earlier posted writes have retired is answered with the bytes as the hub sees them; another one
waits, and is answered by NONPOSTED_RELEASE once they have; a doorbell that waited takes effect then. (R298, R299, R300) -/
def Obligations.HostPortSteps : Prop :=
  ∀ (fn off : Nat) (s : State), s.stage ≠ .off →
    (∀ bytes : List Byte, off + bytes.length ≤ 2 ^ 40 → s.inbound.length < 1024 → bytes ≠ [] →
      (∀ pas, s.barBytes fn off bytes.length needW = some pas → pas.Nodup →
        ∃ t x, exec (.inboundPostedWrite fn off bytes) s = .next t ∧ t.inbound = s.inbound ++ [x] ∧ x.fn = fn ∧ x.num = (s.die 4).nextWrite ∧ x.stamp = s.tsc
          ∧ (t.die 4).nextWrite = (s.die 4).nextWrite + 1 ∧ t.mem = s.mem ∧ t.warps = s.warps ∧ (∀ m ∈ s.msgs, m ∈ t.msgs)
          ∧ ∀ d i, d < 5 → i < bytes.length → ∃ m ∈ t.msgs, m.origin = 4 ∧ m.num = x.num ∧ m.dst = d ∧ m.kind = .write
              ∧ (nth pas i 0, nth bytes i 0) ∈ m.bytes ∧ lineOf (nth pas i 0) ∈ x.left)
      ∧ (s.barBytes fn off bytes.length needW = none → ∃ t, exec (.inboundPostedWrite fn off bytes) s = .next t
          ∧ t.inbound = s.inbound ∧ t.msgs = s.msgs ∧ t.mem = s.mem ∧ t.warps = s.warps))
    ∧ (∀ num line, (∀ m ∈ s.msgs, m.origin = 4 → m.num = num → m.dst = homeOf (line * 128) → lineOf m.addr ≠ line) →
      ∃ t, exec (.pieceAcknowledge num line) s = .next t ∧ t = { s with inbound := t.inbound }
        ∧ t.inbound = (s.inbound.map (fun x => if x.num = num then { x with left := x.left.filter (fun l => l != line) } else x)).filter
            (fun x => !x.left.isEmpty))
    ∧ (let answers (n : Nat) (pas : List Nat) (x : HRead) : Prop := ∃ bs, x.answer = some (some bs, pas.any (fun a => s.poisonedAt 4 a || s.peerDown a)) ∧ bs.length = n ∧ x.fn = fn ∧ x.off = off ∧ x.n = n
          ∧ ∀ i, i < n → isPeer (nth pas i 0) = false → nth bs i 0 = (s.storeByte 4 (nth pas i 0)).1
      let retired : Prop := ∀ x ∈ s.inbound, x.fn = fn → (s.die 4).nextWrite ≤ x.num
      (∀ n pas, off + n ≤ 2 ^ 40 → s.barBytes fn off n needRD = some pas → retired →
        ∃ t x, exec (.inboundRead fn off n) s = .next t ∧ t = { s with hreads := s.hreads ++ [x], fresh := s.fresh + 1 } ∧ answers n pas x)
      ∧ (∀ n, off + n ≤ 2 ^ 40 → ¬ retired → ∃ t, exec (.inboundRead fn off n) s = .next t
          ∧ t = { s with hreads := s.hreads ++ [⟨fn, off, n, (s.die 4).nextWrite, none⟩] })
      ∧ (∀ r pas, s.hreads = [r] → r.fn = fn → r.off = off → r.answer = none → (∀ x ∈ s.inbound, x.fn = fn → r.after ≤ x.num) →
          (∀ q, q < 16 → (s.queue fn q).bells = []) → s.barBytes fn off r.n needRD = some pas →
          ∃ t x, exec (.nonpostedRelease fn) s = .next t ∧ t = { s with hreads := [x], fresh := s.fresh + 1 } ∧ answers r.n pas x))
    ∧ ∀ q0 v after, q0 < 16 → fn ≤ s.vfs → s.hreads = [] → (s.queue fn q0).bells = [(false, v, after)] → (s.queue fn q0).cmds = [] →
        (∀ q, q < 16 → q ≠ q0 → (s.queue fn q).bells = []) → (∀ x ∈ s.inbound, x.fn = fn → after ≤ x.num) →
        ∃ t, exec (.nonpostedRelease fn) s = .next t ∧ t = { s with queues := t.queues }
          ∧ t.queue fn q0 = { s.queue fn q0 with cqhead := v, bells := [] } ∧ ∀ k, k ≠ qkey fn q0 → tget t.queues k = tget s.queues k

/-- A QUERY item that fits the buffer is written there and answered DONE with its length, and one that does not is REFUSED
with its length; ATTEST writes its report with its signature; HEALTH writes the status record, the pending events, and the
energies, sets a lawful power cap, recalibrates a die and resets one that may be reset; no other byte of memory changes. The
model's choices: the digest under the signature is SHA-384 as its published standard defines it (log entry 13), and an event
of the module itself belongs to the physical function (log entry 51). (R303, R304, R305, R306, R311, R312, R313) -/
def Obligations.ReportCommands : Prop :=
  ∀ (fn q : Nat) (s : State) (c : Cmd) (p : QPair), Heads s fn q c p →
    let fits (bs : List Byte) : Prop := c.word64 4 + bs.length ≤ hostEnd - hostBase
    let ends (i : Instr) (status : Nat) (r : Option Nat) (P : State → Prop) : Prop := ∃ t, exec i s = .next t ∧ Answered t fn q p c.cid status r
      ∧ t.warps = s.warps ∧ P t
    let query (i : Instr) (bs : List Byte) : Prop :=
      (fits bs → bs.length ≤ c.word 6 → ends i 0 (some bs.length) (HostWrote s (c.word64 4) bs)) ∧ (c.word 6 < bs.length → ends i 1 (some bs.length) (fun t => t.mem = s.mem))
    (c.opc = 1 → c.word 2 = 0 → query (.queryCapabilities fn q) (bytesOf 16 capsBisque.toNat ++ bytesOf 16 capsGlaze.toNat))
    ∧ (c.opc = 1 → c.word 2 = 1 → query (.queryCertificates fn q) Config.certificate)
    ∧ (c.opc = 1 → c.word 2 = 2 → query (.queryFigures fn q) s.figures)
    ∧ (c.opc = 2 → ∀ m4, (c.word 2 = 0xFFFFFFFF ∧ m4 = zeros 48 ∨ c.word 2 ≠ 0xFFFFFFFF ∧ ∃ x, tget s.ctxs (c.word 2) = some x ∧ x.fn = fn ∧ m4 = x.m4) →
        let body := s.report ((List.range 8).flatMap (fun i => bytesOf 4 (c.word (6 + i)))) m4
        let report := body ++ fitBytes 96 (Config.signature (digest body))
        fits report → ends (.attest fn q) 0 none (HostWrote s (c.word64 4) report))
    ∧ (c.opc = 3 → c.word 2 = 0 → 128 ≤ c.word 6 → fits (s.statusRecord fn) → ends (.healthStatus fn q) 0 none (HostWrote s (c.word64 4) (s.statusRecord fn)))
    ∧ (c.opc = 3 → c.word 2 = 1 →
        let l := (s.pendingOf fn).take (c.word 6 / 32)
        fits (l.flatMap Pending.bytes) → ends (.healthEvents fn q) 0 (some l.length) (HostWrote s (c.word64 4) (l.flatMap Pending.bytes)))
    ∧ (c.opc = 3 → c.word 2 = 2 →
        let l := (s.ctxs.filter (fun x => x.2.fn == fn)).take (c.word 6 / 16)
        fits (l.flatMap energyEntry) → ends (.healthEnergy fn q) 0 (some l.length) (HostWrote s (c.word64 4) (l.flatMap energyEntry)))
    ∧ (c.opc = 3 → c.word 2 = 3 → (400 ≤ c.word 3 → ends (.healthSetPowerCap fn q) 0 none (fun t => t.powerCap = min 2400 (c.word 3) ∧ t.mem = s.mem))
        ∧ (c.word 3 < 400 → ends (.healthSetPowerCap fn q) 1 none (fun t => t.powerCap = s.powerCap ∧ t.mem = s.mem)))
    ∧ (c.opc = 3 → c.word 2 = 4 → c.word 3 < 4 → ends (.healthRecalibrate fn q) 0 none (fun t => (t.die (c.word 3)).bisque = false ∧ t.mem = s.mem
        ∧ ∀ col n, col / 16 = c.word 3 → (t.col col).bumpCap = false ∧ (t.col col).sensor n =
            if ((s.col col).sensor n).stuck then { (s.col col).sensor n with stuck := false, same := 0 } else (s.col col).sensor n))
    ∧ (c.opc = 3 → c.word 2 = 5 → fn = 0 → c.word 3 < 4 → (s.die (c.word 3)).lastReset = none →
        ∃ t, exec (.healthCoreReset fn q) s = .next t ∧ Answered t fn q p c.cid 0 none ∧ (t.die (c.word 3)).bisque = true
          ∧ (t.die (c.word 3)).gen = ((s.die (c.word 3)).gen + 1) % 16 ∧ (t.die (c.word 3)).lastReset = some s.tsc)
    ∧ (c.opc = 3 → c.word 2 = 5 → fn ≠ 0 → ends (.healthCoreReset fn q) 1 none (fun t => t.dies = s.dies ∧ t.mem = s.mem))

/-- CTX_OPEN in order takes the lowest free number and answers it. CTX_CLOSE of a context without launches frees it, its
boards and its translations. MAP adds a lawful mapping, and UNMAP removes one and leaves its shootdown to do. FAULT_REPLY
takes the entry out of the buffer: RETRY lets the parked warp go on, FAIL traps it with PAGE_ABSENT at its instruction.
BOARD_MAKE in the glaze stage makes the board its descriptor describes, and refuses one that breaks its layout. That the
number is the lowest free one, and that a context whose CTX_CLOSE has begun takes no command, is the model's choice (log
entry 53). (R207, R208, R209, R283, R304) -/
def Obligations.ContextCommands : Prop :=
  ∀ (fn q : Nat) (s : State) (c : Cmd) (p : QPair), Heads s fn q c p →
    (c.opc = 0x10 → c.badOpen = false → ∀ i, i < 4096 → tget s.ctxs i = none → (∀ j, j < i → (tget s.ctxs j).isSome = true) →
      (s.ctxs.filter (fun x => x.2.fn == fn)).length < 16 →
      ∃ t x, exec (.ctxOpen fn q) s = .next t ∧ Answered t fn q p c.cid 0 (some i) ∧ (∀ j, tget t.ctxs j = if j = i then some x else tget s.ctxs j)
        ∧ x.fn = fn ∧ x.cls = c.word 2 ∧ x.maps = [] ∧ x.saveBase.toNat = c.word64 4 % 2 ^ 64 ∧ x.win = (c.word 9 == 1) ∧ t.mem = s.mem)
    ∧ ∀ x, tget s.ctxs c.ctx = some x → x.fn = fn → s.closing c.ctx = false →
      let only (t : State) (x' : Ctx) : Prop := ∀ j, tget t.ctxs j = if j = c.ctx then some x' else tget s.ctxs j
      (c.opc = 0x11 → x.shoot = [] → (∀ g ∈ s.grids, g.2.ctx ≠ c.ctx) →
        ∃ t, exec (.ctxClose fn q) s = .next t ∧ Answered t fn q p c.cid 0 none ∧ tget t.ctxs c.ctx = none ∧ (∀ j, j ≠ c.ctx → tget t.ctxs j = tget s.ctxs j)
          ∧ (∀ b ∈ t.boards, b.1 / 64 ≠ c.ctx) ∧ (∀ d ∈ t.dies, (∀ e ∈ d.tlb, e.1 ≠ c.ctx) ∧ ∀ e ∈ d.faults, e.ctx ≠ c.ctx) ∧ t.mem = s.mem)
      ∧ (c.opc = 0x12 → c.badAttr = false →
        let size := 2 ^ pageBits (field (c.word 6) 5 3)
        (s.mapRefused x (c.word64 2) (c.word64 4) size = false → (∀ m ∈ x.maps, m.va ≠ c.word64 2) →
          ∃ t x', exec (.map fn q) s = .next t ∧ Answered t fn q p c.cid 0 none ∧ only t x' ∧ x' = { x with maps := x'.maps, torn := x'.torn }
            ∧ x'.maps = ⟨c.word64 2, c.word64 4, size, BitVec.ofNat 32 (c.word 6)⟩ :: x.maps ∧ t.mem = s.mem)
        ∧ (s.mapRefused x (c.word64 2) (c.word64 4) size = true → ∃ t, exec (.map fn q) s = .next t ∧ Answered t fn q p c.cid 1 none ∧ t.ctxs = s.ctxs))
      ∧ (c.opc = 0x13 → ∀ m, x.maps.find? (fun m => m.va == c.word64 2) = some m →
        ∃ t, exec (.unmap fn q) s = .next t ∧ tget t.queues (qkey fn q) = some p ∧ only t { x with
          maps := x.maps.filter (fun m => m.va != c.word64 2), shoot := x.shoot ++ [(m, fn, q, c.cid)] } ∧ t.mem = s.mem ∧ t.dies = s.dies)
      ∧ (∀ e k w at_, c.opc = 0x14 → s.faultEntry c = some e → e.warps = [k] → e.eops = [] → tget s.warps k = some w →
          w.parkedAt (c.word 2) c.ctx (pageOf e.va) = some at_ →
          let replied (i : Instr) (x' : Warp) : Prop := ∃ t, exec i s = .next t ∧ Answered t fn q p c.cid 0 none
            ∧ (∀ f ∈ (t.die (c.word 2)).faults, f.ctx = e.ctx → f.va ≠ e.va) ∧ t.mem = s.mem ∧ ∀ j, tget t.warps j = if j = k then some x' else tget s.warps j
          (c.word 6 = 0 → replied (.faultReplyRetry fn q) (w.unpark s.tsc) ∧ (w.unpark s.tsc).wait = .none)
          ∧ (∀ b g, c.word 6 = 1 → at_.op = 0 → s.blk? w.blk = some b → tget s.grids b.grid = some g → g.rec_.handler ≠ 0 → w.trap = none →
              w.ops = [] → w.rep = none → w.async = [] →
              ∃ x' r, replied (.faultReplyFail fn q) x' ∧ x'.trap = some r ∧ r.cause = Cause.pageAbsent.code ∧ r.pc = at_.pc ∧ r.addr = at_.addr
                ∧ x'.regs = w.regs ∧ x'.preds = w.preds ∧ ∀ l, has w.live l = true → x'.pcAt l = g.rec_.handler))
      ∧ (c.opc = 0x30 → c.word 2 < 64 → s.stage = .glaze → (∀ g ∈ s.grids, g.2.state ≠ .done → c.ctx * 64 + c.word 2 ∉ g.2.boardKeys) →
          (∀ b, s.boardAt c.ctx (c.word64 4) = some b → ∃ t, exec (.boardMake fn q) s = .next t ∧ Answered t fn q p c.cid 0 none
            ∧ ∀ j, tget t.boards j = if j = c.ctx * 64 + c.word 2 then some b else tget s.boards j)
          ∧ (s.boardAt c.ctx (c.word64 4) = none → ∃ t, exec (.boardMake fn q) s = .next t ∧ Answered t fn q p c.cid 1 none ∧ t.boards = s.boards))

/-- A record that is not aligned completes with BAD_FORMAT, and one that fails a check completes with the status of the
first check that fails and makes no grid; one that passes makes a grid that holds the record, accepted at once when it need
wait for no other. LAUNCH_ACCEPT accepts one that waited and gives it the next place in the order. PREEMPT names its blocks
and raises the first, and is refused without effect where the header of a frame cannot be written; RESTORE names the blocks
that are out; either refuses a launch that is not there. That the blocks are raised one after another is the model's choice
(log entry 32), as are the status of a record that cannot be read (log entry 48) and the time at which a launch completes
(log entry 49). (R35, R228, R233, R304, R309) -/
def Obligations.LaunchCommands : Prop :=
  (∀ (fn q : Nat) (s : State) (c : Cmd) (p : QPair) (x : Ctx), Heads s fn q c p → tget s.ctxs c.ctx = some x → x.fn = fn → s.closing c.ctx = false →
    (c.opc = 0x20 →
      (c.word64 2 % 64 ≠ 0 → ∃ t, exec (.launch fn q) s = .next t ∧ Answered t fn q p c.cid 0x13 none ∧ t.grids = s.grids)
      ∧ ∀ bytes, c.word64 2 % 64 = 0 → s.peekVa 4 c.ctx (c.word64 2 % 2 ^ 57) 256 = some bytes →
        let r := launchOf bytes
        let segs : Tab (List Segment) := if r.travel then s.segTable c.ctx r else .ok []
        let status := s.launchStatus c.ctx x bytes r (s.ceilTable c.ctx r.ceilt) (s.maskTable c.ctx r.bmaskt) segs
        (status ≠ 0 → ∃ t, exec (.launch fn q) s = .next t ∧ Answered t fn q p c.cid status none ∧ t.grids = s.grids ∧ t.mem = s.mem)
        ∧ (status = 0 → ∃ t g, exec (.launch fn q) s = .next t ∧ tget t.queues (qkey fn q) = some p ∧ tget t.grids s.nextKey = some g ∧ t.mem = s.mem
            ∧ (∀ k, k ≠ s.nextKey → tget t.grids k = tget s.grids k) ∧ g.rec_ = r ∧ g.ctx = c.ctx ∧ g.cid = c.cid ∧ g.fn = fn ∧ g.q = q
            ∧ (s.earlier fn q c = [] → g.accepted = true ∧ g.order = s.launchCount + 1) ∧ (g.accepted = false → g.state = .waiting)))
    ∧ (∀ gk g names, c.opc = 0x21 → c.badMode = false → s.namedGrid fn q c.ctx (c.word64 2) = some (gk, g) → tget s.grids gk = some g →
        s.clusterList c = some names → g.preCid = none →
        (s.headersOk gk (s.namedBlocks gk g names Block.isIn) = false → ∃ t, exec (.preempt fn q) s = .next t ∧ Answered t fn q p c.cid 1 none
          ∧ t.grids = s.grids ∧ t.blocks = s.blocks ∧ t.warps = s.warps ∧ t.mem = s.mem)
        ∧ (s.headersOk gk (s.namedBlocks gk g names Block.isIn) = true → (∀ b ∈ s.blocks, b.2.grid = gk → b.2.state ≠ .preempting) →
          ∀ bk rest b, s.namedBlocks gk g names Block.isIn = bk :: rest → s.blk? bk = some b → b.state = .running → b.grid = gk →
          (∃ s1, s.raisePreempt bk b g = .ok s1) →
          ∃ t b' g', exec (.preempt fn q) s = .next t ∧ tget t.queues (qkey fn q) = some p ∧ t.blk? bk = some b' ∧ b'.state = .preempting
            ∧ tget t.grids gk = some g' ∧ g'.pre = rest ∧ g'.preCid = some c.cid ∧ g'.preRefused = 0 ∧ t.mem = s.mem
            ∧ ∀ k w, tget s.warps k = some w → w.blk = bk → ∃ w' a, tget t.warps k = some w' ∧ (Cause.preempt, a) ∈ w'.async))
    ∧ (∀ gk g names, c.opc = 0x22 → c.badMode = false → s.namedGrid fn q c.ctx (c.word64 2) = some (gk, g) → tget s.grids gk = some g →
        s.clusterList c = some names → g.resCid = none → tsorted s.grids = true → (∀ y ∈ s.grids, y.2.resCid = none) →
        ∀ l, s.namedBlocks gk g names Block.isOut = l → l ≠ [] → (∀ bk ∈ l, ∃ b, s.blk? bk = some b ∧ b.state = .out) →
          ∃ t g', exec (.restore fn q) s = .next t ∧ tget t.queues (qkey fn q) = some p ∧ tget t.grids gk = some g' ∧ g'.res = l
            ∧ g'.resCid = some c.cid ∧ t.warps = s.warps ∧ t.blocks = s.blocks ∧ t.mem = s.mem)
    ∧ (c.opc = 0x21 ∨ c.opc = 0x22 → c.badMode = false → s.namedGrid fn q c.ctx (c.word64 2) = none →
        let i : Instr := if c.opc = 0x21 then .preempt fn q else .restore fn q
        ∃ t, exec i s = .next t ∧ Answered t fn q p c.cid 1 none ∧ t.grids = s.grids))
  ∧ ∀ (gk : Nat) (s : State) (g : Grid), tget s.grids gk = some g → g.accepted = false → g.state ≠ .done → s.mayAccept g = true →
      ∃ t g', exec (.launchAccept gk) s = .next t ∧ tget t.grids gk = some g' ∧ g'.accepted = true ∧ g'.order = s.launchCount + 1
        ∧ g'.rec_ = g.rec_ ∧ t.launchCount = s.launchCount + 1 ∧ t.warps = s.warps ∧ t.mem = s.mem
        ∧ (s.stage = .bisque → s.trained = true → g'.held = true ∧ t.dies = s.dies)

/-- The physical function attaches to a context and detaches from it, when no grid of it single-steps and no warp of it
stays halted; it halts a launch, whose warps get DEBUG_HALT; single-steps it; and lets it continue. A virtual function is
refused. (R130, R223, R304, R307) -/
def Obligations.DebugCommands : Prop :=
  ∀ (fn q : Nat) (s : State) (c : Cmd) (p : QPair) (x : Ctx), Heads s fn q c p → tget s.ctxs c.ctx = some x → x.fn = fn → s.closing c.ctx = false → c.opc = 0x31 →
    let only (t : State) (x' : Ctx) : Prop := ∀ j, tget t.ctxs j = if j = c.ctx then some x' else tget s.ctxs j
    let ours (gk : Nat) (w : Warp) : Prop := ∃ b, s.blk? w.blk = some b ∧ b.grid = gk
    let warps (t : State) (which : Warp → Prop) (P : Warp → Warp → Prop) : Prop := ∀ k w, tget s.warps k = some w → ∃ w', tget t.warps k = some w'
      ∧ w'.regs = w.regs ∧ w'.preds = w.preds ∧ w'.pcs = w.pcs ∧ (which w → P w w') ∧ (¬ which w → w' = w)
    (fn = 0 → c.word 2 = 0 → ∃ t, exec (.debugAttach fn q) s = .next t ∧ Answered t fn q p c.cid 0 none ∧ only t { x with dbg := true }
      ∧ t.warps = s.warps ∧ t.mem = s.mem)
    ∧ (fn ≠ 0 → c.word 2 = 0 → ∃ t, exec (.debugAttach fn q) s = .next t ∧ Answered t fn q p c.cid 1 none ∧ t.ctxs = s.ctxs ∧ t.warps = s.warps)
    ∧ (fn = 0 → c.word 2 = 1 → x.dbg = true → ∃ t, exec (.debugDetach fn q) s = .next t ∧ Answered t fn q p c.cid 0 none
      ∧ only t { x with dbg := false, stepping := [] } ∧ t.mem = s.mem
      ∧ warps t (fun w => ∃ g ∈ s.grids, g.2.ctx = c.ctx ∧ ours g.1 w) (fun w w' => w' = { w with halted := false }))
    ∧ ∀ gk g, fn = 0 → x.dbg = true → s.grids.find? (fun y => y.2.ctx == c.ctx && y.2.cid == c.word 3 && y.2.state != .done) = some (gk, g) →
        (c.word 2 = 2 → ∃ t, exec (.debugHalt fn q) s = .next t ∧ Answered t fn q p c.cid 0 none ∧ t.ctxs = s.ctxs ∧ t.mem = s.mem
          ∧ warps t (ours gk) (fun w w' => w.halted = false → ∃ a, (Cause.debugHalt, a) ∈ w'.async))
        ∧ (c.word 2 = 3 → ∃ t x', exec (.debugStep fn q) s = .next t ∧ Answered t fn q p c.cid 0 none ∧ only t x' ∧ x' = { x with stepping := x'.stepping }
          ∧ gk ∈ x'.stepping ∧ t.mem = s.mem ∧ warps t (ours gk) (fun w w' => w' = { w with halted := false }))
        ∧ (c.word 2 = 4 → ∃ t x', exec (.debugContinue fn q) s = .next t ∧ Answered t fn q p c.cid 0 none ∧ only t x' ∧ x' = { x with stepping := x'.stepping }
          ∧ gk ∉ x'.stepping ∧ t.mem = s.mem ∧ warps t (ours gk) (fun w w' => w' = { w with halted := false }))

/-- POWER_GOOD begins the bisque stage. Once training has finished and no launch runs, the glaze stage begins; memory keeps
every value, and the module has extended M3. A core reset that is asked for, 1 ms after the last or later, puts the die in
the bisque stage with the next generation, keeps memory, and leaves no block on the die; a die without blocks is
recalibrated. A loss of power leaves the machine as at reset, but for the open-bump events and the host's memory. The
model's choices: the copies that a core holds go with its reset (log entry 50), and the host's memory, the messages it has
had and the model's own counters are no part of the module and stay (log entry 54). (R197, R256, R295, R308, R309, R311) -/
def Obligations.StageSteps : Prop :=
  (∀ s : State, s.stage = .off → ∃ t, exec .powerGood s = .next t ∧ t = { s with stage := .bisque, meas := t.meas } ∧ nth t.meas 3 [] = zeros 48
    ∧ ∀ i, i < 3 → nth t.meas i [] = fitBytes 48 (Config.measured i))
  ∧ (∀ s : State, s.stage = .bisque → s.trained = true → (∀ g ∈ s.grids, g.2.accepted = true → g.2.held = false → g.2.state = .done) →
    ∃ t, exec .glazeTransition s = .next t ∧ t.stage = .glaze ∧ t.mem = s.mem ∧ t.warps = s.warps ∧ t.blocks = s.blocks
      ∧ nth t.meas 3 [] = digest (nth s.meas 3 (zeros 48) ++ bytesOf 16 capsGlaze.toNat) ∧ ∀ i, i < 3 → nth t.meas i (zeros 48) = nth s.meas i (zeros 48))
  ∧ (∀ (die : Nat) (s : State), die < 4 → (s.die die).resetAsk = true → (∀ n, (s.die die).lastReset = some n → n + 1000000 ≤ s.tsc) →
    (∀ x ∈ s.blocks, ∃ b, s.blk? x.1 = some b ∧ (tget s.grids b.grid).isSome = true) →
    ∃ t, exec (.coreReset die) s = .next t ∧ (t.die die).bisque = true ∧ (t.die die).gen = ((s.die die).gen + 1) % 16
      ∧ (t.die die).resetAsk = false ∧ (t.die die).lastReset = some s.tsc ∧ t.mem = s.mem
      ∧ (∀ x ∈ t.blocks, x.2.resident = true → x.2.core / 64 ≠ die)
      ∧ ∀ c, c / 64 = die → (t.core c).istore = [] ∧ (t.core c).hbuf = [] ∧ (t.core c).lines = [] ∧ (t.core c).tlb = [])
  ∧ (∀ (die : Nat) (s : State), (s.die die).bisque = true → (∀ b ∈ s.blocks, b.2.resident = true → b.2.core / 64 ≠ die) →
    ∃ t, exec (.dieRecalibrate die) s = .next t ∧ (t.die die).bisque = false ∧ t.mem = s.mem ∧ t.warps = s.warps
      ∧ ∀ col, col / 16 = die → (t.col col).bumpCap = false)
  ∧ ∀ s : State, ∃ t, exec .powerLoss s = .next t
      ∧ t = { State.reset with bumps := s.bumps, mem := t.mem, poison := t.poison, msix := s.msix, outbound := s.outbound,
                                 hostAbsent := s.hostAbsent, agenda := s.agenda, fresh := s.fresh, rr := s.rr }
      ∧ ∀ a, memGet t.mem a = if hostBase ≤ a ∧ a < hostEnd then memGet s.mem a else memDefault

/-- The loop of 03 (MOVI, LD, IADD, ISETP, BRA, NOP, FADD), and words of the other families that the manual encodes: CLMULW,
IDOT4, CVTN, ST, BAR, BPV, MMAS, BURN. (R49, R53, R58, R62, 03_encoding_notation.md) -/
def Obligations.DecodeWorkedWords : Prop :=
  let h : Hdr := ⟨15, false, 0, 0⟩
  decode 0x00000004000000000300F321 = .ok (.movi h 3 4)
  ∧ decode 0x00000040200000080802F801 = .ok (.ld { h with la := 1 } ⟨false, .w32⟩ 8 4 (some 64) none)
  ∧ decode 0x00000C120900F100 = .ok (.iadd h ⟨false, false⟩ 9 9 (.reg 3))
  ∧ decode 0x00000064200000120100F301 = .ok (.isetp h ⟨false, .lt⟩ 1 9 (.imm 100))
  ∧ decode 0xFFFFFFE00000000000001005 = .ok (.bra { h with gp := 1 } 0xFFFFFFE0)
  ∧ decode 0xF000 = .ok (.nop h)
  ∧ decode 0x01000000000030100B00F401 = .ok (.fadd h ⟨false, .rne⟩ 11 8 (.reg 12) (some ⟨false, false, false, false, false, true⟩))
  ∧ decode 0x000058180A00F23C = .ok (.clmulw h 10 12 22)
  ∧ decode 0x606038140D00F13C = .ok (.idot4 h ⟨false, true⟩ true 13 10 14 12)
  ∧ decode 0x00C80010000000000400F605 = .ok (.cvtn h ⟨false, false, .rne⟩ .f32 0 false false 4 0)
  ∧ decode 0x0000001000000200200820080000F806 = .ok (.st h .w32 4 8 1 (some 16) (some ⟨0, .dflt, .rel⟩))
  ∧ decode 0x000000800000FA00 = .ok (.bar h .sync false 64)
  ∧ decode 0xF07000180F00FA0C = .ok (.bpv h 15 15 12 0 14)
  ∧ decode 0x200000600140602000002B06 = .ok (.mmas { h with gp := 2 } false 0 16 24 40 96 1 0 ⟨false, 0⟩)
  ∧ decode 0x00400008000000000000FD05 = .ok (.burn h (.imm 0x00400008))

/-- For every well-formed instruction word, with every operand at every value that its encoding admits, decoding its
encoding gives the instruction. (R47, R49, R52, R53, R54, R55, R56, R58, R61, R62) -/
def Obligations.DecodeEncode : Prop :=
  ∀ i : Instr, i.isWord = true → i.wf = true → decode (encode i) = .ok i

/-- Length 0b11 is BAD_LENGTH, an instruction that would leave its fetch block is FETCH_CROSS, an unassigned opcode is
UNIMPL_OP; whatever is decoded is a well-formed instruction word and no step of the machine; and bits past the end of an
instruction do not matter. A word that does not decode, at the issuing group's PC, takes the trap of its cause, as code that
cannot be fetched takes that of the fault. Of a word that decodes, NOP, MOVI, DADD, PACK4, VMPOP, MMZ, CMPRS,
GSET, DRAW and SPAWN without their feature are FEATURE_OFF, MMZ, GSET and SPAWN in travel mode TRAVEL_MODE, a register of
MOVI or MOV past the declared count REG_RANGE, a map register of MMLD with a ceiling other than U BAD_FIELD, a slot of KIND
0 under CVTN BAD_SLOT, a tile of MMZ outside the pool ACC_RANGE, and under BARLD a barrier that no block has, or that only a
cooperative grid has, BAR_NUMBER; the trap names the instruction and its group, and nothing else happens. (R45,
R47, R48, R58, R63, R219) -/
def Obligations.DecodeRejects : Prop :=
  (∀ w : BitVec 128, w.extractLsb' 0 2 = 3 → decode w = .error .badLength ∧ ∀ off, decodeAt off w = .error .badLength)
  ∧ (∀ w : BitVec 128, w.extractLsb' 0 2 ≠ 3 → assigned (w.extractLsb' 2 10) = false → decode w = .error .unimplOp)
  ∧ (∀ (w : BitVec 128) (off n : Nat), lenBytes (w.extractLsb' 0 2) = some n → decodeAt off w = if 32 < off + n then .error .fetchCross else decode w)
  ∧ (∀ (w : BitVec 128) (i : Instr), decode w = .ok i → i.isWord = true ∧ i.wf = true)
  ∧ (∀ w v : BitVec 128, wordBytes w ≠ 0 → (∀ k, k < 8 * wordBytes w → v.getLsbD k = w.getLsbD k) → decode v = decode w)
  ∧ (∀ (s s1 : State) (v : View), Stands s hdr0 v →
      (∀ bs c, s.fetchBytes v.core v.slot v.g v.w v.pc = (.bytes bs, s1) → decodeAt (v.pc.toNat % 32) (BitVec.ofNat 128 (bitsOfBytes bs)) = .error c →
        let cause : Cause := match c with
          | .badLength => .badLength
          | .fetchCross => .fetchCross
          | .unimplOp => .unimplOp
          | .badField => .badField
          | .privileged => .privileged
        ∃ t, s.fetchCur = .idle t ∧ TrapsTo s v v.pc cause v.grp 0 t)
      ∧ ∀ c a, s.fetchBytes v.core v.slot v.g v.w v.pc = (.bad c a, s1) → ∃ t, s.fetchCur = .idle t ∧ TrapsTo s v v.pc c v.grp a t)
  ∧ ∀ (h : Hdr) (r : Rnd) (rs : RndS) (st : TypeCode) (na aa w4 : Bool) (cv : MConv) (d a b n : W9) (t : W3) (f : W3) (vm : W3) (g p : W4) (gd : GField)
      (x : Option Mods) (y : W32) (sb : SrcB) (s : State) (v : View), Stands s h v →
      let regs := v.g.ceils.length
      let on (k : Nat) : Prop := v.g.rec_.feature k = true
      (∀ z ∈ [(0, Instr.nop h), (0, .movi h d y), (1, .dadd h r d a b x), (2, .pack4 h w4 d a), (3, .vmpop h d vm), (4, .mmz h t), (7, .gset h g p),
              (8, .draw h sb), (9, .spawn h sb)], v.g.rec_.feature z.1 = false → Traps z.2 s v .featureOff 0)
      ∧ (∀ (s48 : Bool) (kk : W16) (col : W3), (∀ j, v.ceil j = .u) → kBad (v.slotWord f) (v.slotWord f) kk = false →
          v.g.rec_.feature 5 = false → Traps (.cmprs h s48 d a b kk f col) s v .featureOff 0)
      ∧ (v.g.rec_.travel = true → (on 4 → Traps (.mmz h t) s v .travelMode 0) ∧ (on 7 → Traps (.gset h g p) s v .travelMode 0)
          ∧ (on 9 → Traps (.spawn h sb) s v .travelMode 0))
      ∧ (on 0 → (regs ≤ d.toNat → Traps (.movi h d y) s v .regRange 0) ∧ (regs ≤ a.toNat → Traps (.mov h d a) s v .regRange 0))
      ∧ (∀ i, i < 8 → a.toNat + i < regs → v.ceil (a.toNat + i) ≠ .u → Traps (.mmld h cv t a gd) s v .badField 0)
      ∧ (on 2 → a.toNat < regs → d.toNat < regs → v.ceil d.toNat = .g → v.slotWord f &&& 0xC0000000 = 0 → Traps (.cvtn h rs st f na aa d a) s v .badSlot 0)
      ∧ (on 4 → v.g.rec_.travel = false → poolAcc v.b.poolw / 8 ≤ t.toNat → Traps (.mmz h t) s v .accRange 0)
      ∧ (on 0 → b.toNat < regs → 128 ≤ n.toNat ∨ (112 ≤ n.toNat ∧ v.g.rec_.coop = false) → Traps (.barld h n b) s v .barNumber 0)

/-- At an issue opportunity whose one candidate stands at a PC whose code its core holds, and the bytes of its fetch block,
those of its loop buffer and prefetched words first, decode to i: the step is exec of i, with the issuing group, PC, next PC
and word as its context. One that waits does not issue, and with no other group ready the partition issues nothing. A turn of another agent is exec of
that step, and never runs an instruction of a program; a step change that is due at a window boundary comes first of itself.
Which agent moves, and when time passes, is the model's choice (log entry 3). (R10, R16, R19, R47, R48, R319) -/
def Obligations.StepRunsDecoded : Prop :=
  (∀ (s : State) (core quarter slot entry pa : Nat) (pc : W64) (rest : List Turn) (w : Warp) (b : Block) (g : Grid) (line : List Byte) (i : Instr),
    s.agenda = .issue core quarter :: rest → s.ready core quarter [] = [(slot, w, entry, pc)] → s.warp? core slot = some w →
    s.blk? w.blk = some b → tget s.grids b.grid = some g → s.romSaver core quarter = none → w.rep = none →
    s.xlat (.part core (slot % 4)) g.ctx (vbits pc) needX = .ok pa →
    tget (if w.viaHandler g then (s.core core).hbuf else (s.core core).istore) (lineOf pa) = some line →
    let n := min 16 (32 - vbits pc % 32)
    s.poisonIn (core / 64) pa n = none →
    let w1 := s.arriveAt core slot g.ctx (vbits pc) w
    let word : BitVec 128 := BitVec.ofNat 128 (bitsOfBytes ((List.range n).map (fun k =>
      (s.heldByte core slot g.ctx w1 (vbits pc + k)).getD (nth line ((pa + k) % 128) 0))))
    decodeAt (pc.toNat % 32) word = .ok i →
    ∃ s1, s1 = { s with agenda := rest, dies := s1.dies, cores := s1.cores, warps := s1.warps,
                        cur := ⟨core, slot, entry, pc, seqNext pc (wordBytes word), word.toNat⟩ }
      ∧ (∀ k, tget s1.warps k = if k = warpKey core slot then some w1 else tget s.warps k)
      ∧ (∀ t, exec i s1 = .next t → s1.stalledBy t = false →
          ((t.col (core / 4)).ratio = 2 → t.romSaver core quarter = none ∧ ∀ x ∈ t.ready core quarter [], x.1 = slot) → step s = .next t)
      ∧ (∀ t, exec i s1 = .next t → s1.stalledBy t = true → s.ready core quarter [(slot, entry)] = [] → step s = .next { s with agenda := rest })
      ∧ (∀ f, exec i s1 = .fault f → step s = .fault f) ∧ ∀ r, exec i s1 = .refused r → step s = .refused r)
  ∧ (∀ (s : State) (i : Instr) (rest : List Turn), s.agenda = .event i :: rest →
    step s = if isStep i then exec i { s with agenda := rest } else .next { s with agenda := rest })
  ∧ (∀ (s : State) (k : Nat), s.agenda = [] → s.dueStep = some k → step s = exec (.stepChange k) s)
  ∧ ∀ i : Instr, isStep i = !i.isWord

/-- Power is not good, no warp, block, grid, context, board or message exists, every column has the figures of 14 R318, the
power cap is the module's, and memory is in canonical form. The model's choice: every byte of memory reads as 0 (log entry
2), and the columns start at step 4 and ratio 1 (log entry 6). (R309, R318, R251, R241) -/
def Obligations.ResetState : Prop :=
  State.reset.stage = .off ∧ State.reset.warps = [] ∧ State.reset.blocks = [] ∧ State.reset.grids = [] ∧ State.reset.ctxs = [] ∧ State.reset.boards = []
  ∧ State.reset.msgs = [] ∧ State.reset.powerCap = 2400 ∧ Memory.wf State.reset.mem = true ∧ (∀ a, memGet State.reset.mem a = 0)
  ∧ (∀ col, let c := State.reset.col col
      c.boost = 0 ∧ c.powerCeil = none ∧ c.thermal = none ∧ c.throttle = [none, none, none, none] ∧ c.hw = [0, 0, 0, 0] ∧ c.tband = 7
        ∧ c.step = 4 ∧ c.ratio = 1 ∧ c.gated = false)

/-- From every state whose memory lists rising addresses and no byte that an unlisted address reads as, every step that
takes place leaves memory in that form, so that equal memories are equal data. (R191, R195, R205) -/
def Obligations.StepKeepsMemory : Prop :=
  ∀ s t : State, Memory.wf s.mem = true → step s = .next t → Memory.wf t.mem = true
end

