-- ==== Sys2Proof/Laws/Codec.lean ====
section
/-! SUPPORT. Every code of the instruction word reads back as written, and each row of the opcode map as an
equation of its own: what the round trip of one instruction rests on. -/

namespace Sys2Proof

theorem extract_append_hi {m n k l : Nat} (x : BitVec m) (y : BitVec n) (h : n ≤ k) :
    (x ++ y).extractLsb' k l = x.extractLsb' (k - n) l := by
  ext i hi
  simp only [BitVec.getElem_extractLsb', BitVec.getLsbD_append]
  have : ¬ k + i < n := by omega
  simp [this]; congr 1; omega

theorem extract_append_lo {m n : Nat} (x : BitVec m) (y : BitVec n) : (x ++ y).extractLsb' 0 n = y := by
  ext i hi
  simp [BitVec.getLsbD_append, hi]

theorem Raw.ofBits_bits (r : Raw) (h : extOf r.len r.ext = r.ext) : Raw.ofBits r.bits = r := by
  obtain ⟨m, c, b, a, d, keep, la, gn, gp, opc, len, ext⟩ := r
  have f (s n : Nat) : (Raw.bits ⟨m, c, b, a, d, keep, la, gn, gp, opc, len, ext⟩).extractLsb' s n =
      @BitVec.extractLsb' (64 + 4 + 9 + 9 + 9 + 9 + 3 + 4 + 1 + 4 + 10 + 2) s n
        (ext ++ m ++ c ++ b ++ a ++ d ++ keep ++ la ++ gn ++ gp ++ opc ++ len) := rfl
  simp only [Raw.ofBits, f, Raw.mk.injEq]
  simp (disch := decide) only [extract_append_lo, extract_append_hi, Nat.reduceSub, true_and]
  simpa using h

@[simp] theorem bit_one (b : Bool) : (Bool.bit b == 1#1) = b := by cases b <;> rfl
@[simp] theorem Rnd.dec_enc (r : Rnd) : Rnd.dec r.enc = some r := by obtain ⟨_ | _, _ | _ | _ | _⟩ := r <;> rfl
@[simp] theorem RndS.dec_enc (r : RndS) : RndS.dec r.enc = r := by obtain ⟨_ | _, _ | _, _ | _ | _ | _⟩ := r <;> rfl
@[simp] theorem ftzDec_enc (f : Bool) : ftzDec (ftzEnc f) = some f := by cases f <;> rfl
@[simp] theorem IntM.dec_enc (m : IntM) : IntM.dec m.enc = some m := by obtain ⟨_ | _, _ | _⟩ := m <;> rfl
@[simp] theorem dotDec_enc (m : IntM) (b : Bool) : dotDec (dotEnc m b) = some (m, b) := by
  obtain ⟨_ | _, _ | _⟩ := m <;> cases b <;> rfl
@[simp] theorem MW.dec_enc (m : MW) : MW.dec m.enc = some m := by obtain ⟨_ | _, _ | _ | _ | _ | _⟩ := m <;> rfl
@[simp] theorem MW.dec_mwEnc (w : Width) : MW.dec (mwEnc w) = some ⟨false, w⟩ := by cases w <;> rfl
@[simp] theorem ICnd.dec_enc (m : ICnd) : ICnd.dec m.enc = some m := by obtain ⟨_ | _, _ | _ | _ | _ | _ | _⟩ := m <;> rfl
@[simp] theorem FCnd.dec_enc (m : FCnd) : FCnd.dec m.enc = some m := by obtain ⟨_ | _, _ | _ | _ | _ | _ | _ | _⟩ := m <;> rfl
@[simp] theorem WOp.dec_enc (m : WOp) : WOp.dec m.enc = some m := by cases m <;> rfl
@[simp] theorem AOp.ofM_enc (m : AOp) : AOp.ofM m.enc = m := by cases m <;> rfl
@[simp] theorem barDec_enc (m : BarMode) (s : Bool) : barDec (barEnc m s) = some (m, s) := by cases m <;> cases s <;> rfl
@[simp] theorem TypeCode.dec_enc (t : TypeCode) : TypeCode.dec t.enc = some t := by cases t <;> rfl
@[simp] theorem Order.dec_enc (o : Order) : Order.dec o.enc = o := by cases o <;> rfl
@[simp] theorem Scope.dec_enc (x : Scope) : Scope.dec x.enc = some x := by cases x <;> rfl
@[simp] theorem SReg.ofNum_num (s : SReg) : SReg.ofNum s.num = some s := by
  cases s
  case mate k => revert k; decide
  case mrow t => revert t; decide
  case caps k => revert k; decide
  case shape k => revert k; decide
  all_goals rfl
@[simp] theorem flag_enc (b : Bool) : flag (flagEnc b) = some b := by cases b <;> rfl
@[simp] theorem mflag_enc (b : Bool) : mflag (mflagEnc b) = some b := by cases b <;> rfl
@[simp] theorem Mods.dec_enc (x : Mods) : Mods.dec x.enc = some x := by
  obtain ⟨_ | _, _ | _, _ | _, _ | _, _ | _, _ | _⟩ := x <;> rfl
@[simp] theorem small_w9 (k : Nat) (v : BitVec k) (h : k ≤ 9) : small k (w9 v) = some v := by
  have hb : v.toNat < 2 ^ k := v.isLt
  have h9 : (2 : Nat) ^ k ≤ 2 ^ 9 := Nat.pow_le_pow_right (by decide) h
  have e : (w9 v).toNat = v.toNat := by
    simp only [w9, BitVec.toNat_setWidth]; exact Nat.mod_eq_of_lt (Nat.lt_of_lt_of_le hb h9)
  simp only [small, e, hb, if_true, Option.some.injEq]
  apply BitVec.eq_of_toNat_eq
  rw [BitVec.toNat_setWidth, e, Nat.mod_eq_of_lt hb]

theorem extract_append_skip {m n k l : Nat} (x : BitVec m) (y : BitVec n) (h : k + l ≤ n) :
    (x ++ y).extractLsb' k l = y.extractLsb' k l := by
  ext i hi
  have : k + i < n := by omega
  simp [BitVec.getLsbD_append, this]

theorem extract_whole {n : Nat} (x : BitVec n) : x.extractLsb' 0 n = x := by
  ext i hi; simp

theorem lsb_append {m n k : Nat} (x : BitVec m) (y : BitVec n) :
    (x ++ y).getLsbD k = if k < n then y.getLsbD k else x.getLsbD (k - n) := BitVec.getLsbD_append

@[simp] theorem lo_wide (v : W32) : (v.setWidth 64 : W64).extractLsb' 0 32 = v := by
  ext i hi; simp [show i < 64 by omega, BitVec.getLsbD_eq_getElem hi]

@[simp] theorem lo_pair (x v : W32) : (v ++ x : W64).extractLsb' 0 32 = x := extract_append_lo _ _

@[simp] theorem hi_pair (x v : W32) : (v ++ x : W64).extractLsb' 32 32 = v := by
  rw [extract_append_hi _ _ (by decide)]; exact extract_whole _

@[simp] theorem extOf_wide (v : W32) : extOf 1#2 (v.setWidth 64) = v.setWidth 64 := by
  show ((v.setWidth 64).extractLsb' 0 32).setWidth 64 = _
  rw [lo_wide]

theorem bit_lsb (b : Bool) : (Bool.bit b).getLsbD 0 = b := by cases b <;> rfl

@[simp] theorem MConv.dec_enc (m : MConv) : MConv.dec m.enc = some m := by
  cases m
  case slot f => revert f; decide
  all_goals rfl

@[simp] theorem MemX.dec_enc (x : MemX) : MemX.dec x.enc = some x := by
  obtain ⟨c, sc, o⟩ := x
  revert c
  cases sc <;> cases o <;> decide

@[simp] theorem Ext.dec_enc (x : Ext) : Ext.dec x.enc = some x := by
  obtain ⟨⟨gv, gs⟩, fb, fa, colour, k⟩ := x
  have f (s n : Nat) : (Ext.enc ⟨⟨gv, gs⟩, fb, fa, colour, k⟩).extractLsb' s n =
      @BitVec.extractLsb' (24 + 4 + 1 + 3 + 3 + 3 + 10 + 16) s n
        (0#24 ++ gs ++ Bool.bit gv ++ fb ++ fa ++ colour ++ 0#10 ++ k) := rfl
  have g (n : Nat) : (Ext.enc ⟨⟨gv, gs⟩, fb, fa, colour, k⟩).getLsbD n =
      @BitVec.getLsbD (24 + 4 + 1 + 3 + 3 + 3 + 10 + 16)
        (0#24 ++ gs ++ Bool.bit gv ++ fb ++ fa ++ colour ++ 0#10 ++ k) n := rfl
  simp only [Ext.dec, f, g]
  simp (disch := decide) only [extract_append_lo, extract_append_hi, lsb_append, extract_whole, bit_lsb, Nat.reduceSub,
    Nat.reduceLT, if_true, if_false]
  rfl

/- The fields of a base word, and what writing an operand leaves of them. -/

@[simp] theorem Raw.base_m (h o m d a b c) : (Raw.base h o m d a b c).m = m := (rfl)
@[simp] theorem Raw.base_c (h o m d a b c) : (Raw.base h o m d a b c).c = c := (rfl)
@[simp] theorem Raw.base_b (h o m d a b c) : (Raw.base h o m d a b c).b = b := (rfl)
@[simp] theorem Raw.base_a (h o m d a b c) : (Raw.base h o m d a b c).a = a := (rfl)
@[simp] theorem Raw.base_d (h o m d a b c) : (Raw.base h o m d a b c).d = d := (rfl)
@[simp] theorem Raw.base_keep (h o m d a b c) : (Raw.base h o m d a b c).keep = h.keep := (rfl)
@[simp] theorem Raw.base_la (h o m d a b c) : (Raw.base h o m d a b c).la = h.la := (rfl)
@[simp] theorem Raw.base_gp (h o m d a b c) : (Raw.base h o m d a b c).gp = h.gp := (rfl)
@[simp] theorem Raw.base_gn (h o m d a b c) : (Raw.base h o m d a b c).gn = Bool.bit h.gn := (rfl)
@[simp] theorem Raw.base_opc (h o m d a b c) : (Raw.base h o m d a b c).opc = BitVec.ofNat 10 o := (rfl)
@[simp] theorem Raw.base_len (h o m d a b c) : (Raw.base h o m d a b c).len = 0 := (rfl)
@[simp] theorem Raw.base_ext (h o m d a b c) : (Raw.base h o m d a b c).ext = 0 := (rfl)
@[simp] theorem Raw.base_hdr (h o m d a b c) : (Raw.base h o m d a b c).hdr = h := by simp [Raw.hdr]
@[simp] theorem Raw.with96_m (r : Raw) (v : W32) : (r.with96 v).m = r.m := rfl
@[simp] theorem Raw.with96_c (r : Raw) (v : W32) : (r.with96 v).c = r.c := rfl
@[simp] theorem Raw.with96_a (r : Raw) (v : W32) : (r.with96 v).a = r.a := rfl
@[simp] theorem Raw.with96_d (r : Raw) (v : W32) : (r.with96 v).d = r.d := rfl
@[simp] theorem Raw.with96_opc (r : Raw) (v : W32) : (r.with96 v).opc = r.opc := rfl
@[simp] theorem Raw.with96_hdr (r : Raw) (v : W32) : (r.with96 v).hdr = r.hdr := rfl
@[simp] theorem Raw.with96_b (r : Raw) (v : W32) : (r.with96 v).b = r.b := rfl
@[simp] theorem Raw.with128_m (r : Raw) (v : W64) : (r.with128 v).m = r.m := rfl
@[simp] theorem Raw.with128_c (r : Raw) (v : W64) : (r.with128 v).c = r.c := rfl
@[simp] theorem Raw.with128_a (r : Raw) (v : W64) : (r.with128 v).a = r.a := rfl
@[simp] theorem Raw.with128_d (r : Raw) (v : W64) : (r.with128 v).d = r.d := rfl
@[simp] theorem Raw.with128_opc (r : Raw) (v : W64) : (r.with128 v).opc = r.opc := rfl
@[simp] theorem Raw.with128_hdr (r : Raw) (v : W64) : (r.with128 v).hdr = r.hdr := rfl
@[simp] theorem Raw.with128_b (r : Raw) (v : W64) : (r.with128 v).b = r.b := rfl
@[simp] theorem Raw.with96_len (r : Raw) (v : W32) : (r.with96 v).len = 1 := (rfl)
@[simp] theorem Raw.with96_lo (r : Raw) (v : W32) : (r.with96 v).lo = v := lo_wide v
@[simp] theorem Raw.with96_ext (r : Raw) (v : W32) : (r.with96 v).ext = v.setWidth 64 := rfl
@[simp] theorem Raw.with128_len (r : Raw) (v : W64) : (r.with128 v).len = 2 := rfl
@[simp] theorem Raw.with128_ext (r : Raw) (v : W64) : (r.with128 v).ext = v := rfl
@[simp] theorem Raw.putI_m (r : Raw) (x : SrcB) : (r.putI x).m = r.m := by cases x <;> rfl
@[simp] theorem Raw.putI_c (r : Raw) (x : SrcB) : (r.putI x).c = r.c := by cases x <;> rfl
@[simp] theorem Raw.putI_a (r : Raw) (x : SrcB) : (r.putI x).a = r.a := by cases x <;> rfl
@[simp] theorem Raw.putI_d (r : Raw) (x : SrcB) : (r.putI x).d = r.d := by cases x <;> rfl
@[simp] theorem Raw.putI_opc (r : Raw) (x : SrcB) : (r.putI x).opc = r.opc := by cases x <;> rfl
@[simp] theorem Raw.putI_hdr (r : Raw) (x : SrcB) : (r.putI x).hdr = r.hdr := by cases x <;> rfl
@[simp] theorem Raw.putX_m (r : Raw) (x : Option Mods) : (r.putX x).m = r.m := by cases x <;> rfl
@[simp] theorem Raw.putX_c (r : Raw) (x : Option Mods) : (r.putX x).c = r.c := by cases x <;> rfl
@[simp] theorem Raw.putX_a (r : Raw) (x : Option Mods) : (r.putX x).a = r.a := by cases x <;> rfl
@[simp] theorem Raw.putX_d (r : Raw) (x : Option Mods) : (r.putX x).d = r.d := by cases x <;> rfl
@[simp] theorem Raw.putX_opc (r : Raw) (x : Option Mods) : (r.putX x).opc = r.opc := by cases x <;> rfl
@[simp] theorem Raw.putX_hdr (r : Raw) (x : Option Mods) : (r.putX x).hdr = r.hdr := by cases x <;> rfl
@[simp] theorem Raw.putX_b (r : Raw) (x : Option Mods) : (r.putX x).b = r.b := by cases x <;> rfl
@[simp] theorem Raw.putOff_m (r : Raw) (x : Option W32) : (r.putOff x).m = r.m := by cases x <;> rfl
@[simp] theorem Raw.putOff_c (r : Raw) (x : Option W32) : (r.putOff x).c = r.c := by cases x <;> rfl
@[simp] theorem Raw.putOff_a (r : Raw) (x : Option W32) : (r.putOff x).a = r.a := by cases x <;> rfl
@[simp] theorem Raw.putOff_d (r : Raw) (x : Option W32) : (r.putOff x).d = r.d := by cases x <;> rfl
@[simp] theorem Raw.putOff_opc (r : Raw) (x : Option W32) : (r.putOff x).opc = r.opc := by cases x <;> rfl
@[simp] theorem Raw.putOff_hdr (r : Raw) (x : Option W32) : (r.putOff x).hdr = r.hdr := by cases x <;> rfl
@[simp] theorem Raw.putOff_b (r : Raw) (x : Option W32) : (r.putOff x).b = r.b := by cases x <;> rfl
@[simp] theorem Raw.putXW_m (r : Raw) (y : SrcB) (x : Option Mods) : (r.putXW y x).m = r.m := by cases y <;> cases x <;> rfl
@[simp] theorem Raw.putXW_c (r : Raw) (y : SrcB) (x : Option Mods) : (r.putXW y x).c = r.c := by cases y <;> cases x <;> rfl
@[simp] theorem Raw.putXW_a (r : Raw) (y : SrcB) (x : Option Mods) : (r.putXW y x).a = r.a := by cases y <;> cases x <;> rfl
@[simp] theorem Raw.putXW_d (r : Raw) (y : SrcB) (x : Option Mods) : (r.putXW y x).d = r.d := by cases y <;> cases x <;> rfl
@[simp] theorem Raw.putXW_opc (r : Raw) (y : SrcB) (x : Option Mods) : (r.putXW y x).opc = r.opc := by cases y <;> cases x <;> rfl
@[simp] theorem Raw.putXW_hdr (r : Raw) (y : SrcB) (x : Option Mods) : (r.putXW y x).hdr = r.hdr := by cases y <;> cases x <;> rfl
@[simp] theorem Raw.putOffW_m (r : Raw) (y : Option W32) (x : Option MemX) : (r.putOffW y x).m = r.m := by cases y <;> cases x <;> rfl
@[simp] theorem Raw.putOffW_c (r : Raw) (y : Option W32) (x : Option MemX) : (r.putOffW y x).c = r.c := by cases y <;> cases x <;> rfl
@[simp] theorem Raw.putOffW_a (r : Raw) (y : Option W32) (x : Option MemX) : (r.putOffW y x).a = r.a := by cases y <;> cases x <;> rfl
@[simp] theorem Raw.putOffW_d (r : Raw) (y : Option W32) (x : Option MemX) : (r.putOffW y x).d = r.d := by cases y <;> cases x <;> rfl
@[simp] theorem Raw.putOffW_opc (r : Raw) (y : Option W32) (x : Option MemX) : (r.putOffW y x).opc = r.opc := by cases y <;> cases x <;> rfl
@[simp] theorem Raw.putOffW_hdr (r : Raw) (y : Option W32) (x : Option MemX) : (r.putOffW y x).hdr = r.hdr := by cases y <;> cases x <;> rfl
@[simp] theorem Raw.putOffW_b (r : Raw) (y : Option W32) (x : Option MemX) : (r.putOffW y x).b = r.b := by cases y <;> cases x <;> rfl

/-- A word with the length and the upper bits of one of the three formats (03 R53). -/
def Raw.formed (r : Raw) : Bool := !(r.len == 3) && extOf r.len r.ext == r.ext

@[simp] theorem Raw.base_formed (h o m d a b c) : (Raw.base h o m d a b c).formed = true := (rfl)
@[simp] theorem Raw.with96_formed (r : Raw) (v : W32) : (r.with96 v).formed = true := by
  simp [Raw.formed]
@[simp] theorem Raw.withW_formed (r : Raw) (x v : W32) : (r.withW x v).formed = true := by
  simp [Raw.formed, Raw.withW]; rfl
@[simp] theorem Raw.with128_formed (r : Raw) (v : W64) : (r.with128 v).formed = true := by
  simp [Raw.formed]; rfl
@[simp] theorem Raw.putI_formed (r : Raw) (h : r.formed = true) (x : SrcB) : (r.putI x).formed = true := by
  cases x; exacts [h, Raw.with96_formed ..]
@[simp] theorem Raw.putX_formed (r : Raw) (h : r.formed = true) (x : Option Mods) : (r.putX x).formed = true := by
  cases x; exacts [h, Raw.with96_formed ..]
@[simp] theorem Raw.putOff_formed (r : Raw) (h : r.formed = true) (x : Option W32) : (r.putOff x).formed = true := by
  cases x; exacts [h, Raw.with96_formed ..]
@[simp] theorem Raw.putXW_formed (r : Raw) (h : r.formed = true) (y : SrcB) (x : Option Mods) :
    (r.putXW y x).formed = true := by
  cases y <;> cases x; exacts [h, Raw.with96_formed .., Raw.withW_formed .., Raw.withW_formed ..]
@[simp] theorem Raw.putOffW_formed (r : Raw) (h : r.formed = true) (y : Option W32) (x : Option MemX) :
    (r.putOffW y x).formed = true := by
  cases y <;> cases x; exacts [h, Raw.withW_formed .., Raw.with96_formed .., Raw.withW_formed ..]

/- What was written as an operand is read back. -/

@[simp] theorem Raw.srcI_putI (r : Raw) (hl : r.len = 0) (hb : r.b = 0) (x : SrcB) : (r.putI x).srcI = some x := by
  cases x
  · simp [Raw.putI, Raw.srcI, Raw.is64, hl]
  · simp [Raw.putI, Raw.srcI, Raw.is64, Raw.is96, opt, hb]
@[simp] theorem Raw.modsX_putX (r : Raw) (hl : r.len = 0) (x : Option Mods) : (r.putX x).modsX = some x := by
  cases x
  · simp [Raw.putX, Raw.modsX, Raw.is64, hl]
  · simp [Raw.putX, Raw.modsX, Raw.is64, Raw.is96]
@[simp] theorem Raw.offI_putOff (r : Raw) (hl : r.len = 0) (x : Option W32) : (r.putOff x).offI = some x := by
  cases x
  · simp [Raw.putOff, Raw.offI, Raw.is64, hl]
  · simp [Raw.putOff, Raw.offI, Raw.is64, Raw.is96]
@[simp] theorem Raw.srcXW_putXW (r : Raw) (hl : r.len = 0) (hb : r.b = 0) (y : SrcB) (x : Option Mods)
    (h : floatBOk y x = true) : (r.putXW y x).srcXW = some (y, x) := by
  cases y <;> cases x
  · simp [Raw.putXW, Raw.srcXW, Raw.is64, hl]
  · simp [Raw.putXW, Raw.srcXW, Raw.is64, Raw.is96]
  · cases h
  · simp [Raw.putXW, Raw.withW, Raw.srcXW, Raw.is64, Raw.is96, Raw.is128, Raw.lo, Raw.hi, opt, hb]
@[simp] theorem Raw.offIW_putOffW (r : Raw) (hl : r.len = 0) (y : Option W32) (x : Option MemX)
    (h : formOk y x = true) : (r.putOffW y x).offIW = some (y, x) := by
  cases y <;> cases x
  · simp [Raw.putOffW, Raw.offIW, Raw.is64, hl]
  · cases h
  · simp [Raw.putOffW, Raw.offIW, Raw.is64, Raw.is96]
  · simp [Raw.putOffW, Raw.withW, Raw.offIW, Raw.is64, Raw.is96, Raw.is128, Raw.lo, Raw.hi]
@[simp] theorem Raw.extM_with128 (r : Raw) (x : Ext) : (r.with128 x.enc).extM = some x := by
  simp [Raw.extM, Raw.is128]
@[simp] theorem Raw.base_is64 (h o m d a b c) : (Raw.base h o m d a b c).is64 = true := rfl
@[simp] theorem Raw.with96_is96 (r : Raw) (v : W32) : (r.with96 v).is96 = true := rfl
@[simp] theorem Raw.with96_is64 (r : Raw) (v : W32) : (r.with96 v).is64 = false := rfl
@[simp] theorem Raw.with128_is128 (r : Raw) (v : W64) : (r.with128 v).is128 = true := rfl

/-- A word whose length and opcode are assigned decodes to its row (03 R47, R63). -/
theorem decode_encode_of {i : Instr} (r : Raw) (n : Nat) (hi : i.raw = r) (ho : r.opc = BitVec.ofNat 10 n)
    (ha : assigned (BitVec.ofNat 10 n) = true) (hf : r.formed = true) (hr : r.row = some i) (hw : i.wf = true) :
    decode (encode i) = .ok i := by
  simp only [Raw.formed, Bool.and_eq_true, Bool.not_eq_true', beq_iff_eq] at hf
  rw [encode, hi]
  simp only [decode, Raw.ofBits_bits _ hf.2, Raw.decode, hf.1, ho, ha, hr, hw]
  rfl

/- The codes that stand in one row only. -/

theorem lea_code (sh : W2) : (0#2 ++ sh).extractLsb' 2 2 = 0#2 ∧ (0#2 ++ sh).extractLsb' 0 2 = sh := by
  revert sh; decide

theorem lea64_code (u : Bool) (sh : W2) : (0#1 ++ Bool.bit u ++ sh)[3] = false ∧ (0#1 ++ Bool.bit u ++ sh)[2] = u ∧
    (0#1 ++ Bool.bit u ++ sh).extractLsb' 0 2 = sh := by
  revert sh; cases u <;> decide

theorem table_code (t : W8) : (t.setWidth 32).extractLsb' 8 24 = 0#24 ∧ (t.setWidth 32).extractLsb' 0 8 = t := by
  constructor <;> ext i hi
  · simp
  · simp [show i < 32 by omega, BitVec.getLsbD_eq_getElem hi]

theorem rep_code (cnt : W4) (sd sa sb sc : W3) :
    (w9 sc).extractLsb' 3 6 = 0#6 ∧ (w9 sc).extractLsb' 0 3 = sc ∧
    (0#1 ++ cnt.extractLsb' 1 3)[3] = false ∧ (0#1 ++ cnt.extractLsb' 1 3).extractLsb' 0 3 ++ cnt.extractLsb' 0 1 = cnt ∧
    (sb ++ sa ++ sd).extractLsb' 0 3 = sd ∧ (sb ++ sa ++ sd).extractLsb' 3 3 = sa ∧
    (sb ++ sa ++ sd).extractLsb' 6 3 = sb := by
  refine ⟨?_, ?_, ?_, ?_, extract_append_lo _ _, ?_, ?_⟩
  · revert sc; decide
  · revert sc; decide
  · revert cnt; decide
  · revert cnt; decide
  · rw [extract_append_hi _ _ (by decide)]; exact extract_append_lo _ _
  · rw [extract_append_hi _ _ (by decide), extract_append_hi _ _ (by decide)]; exact extract_whole _

@[simp] theorem typesX_low (na aa dt st low) (s n : Nat) (h : s + n ≤ 16) :
    (typesX na aa dt st low).extractLsb' s n = low.extractLsb' s n := extract_append_skip _ _ h

theorem typesX_code (na aa : Bool) (dt st : W4) (low : W16) :
    (typesX na aa dt st low).extractLsb' 20 4 = dt ∧ (typesX na aa dt st low).extractLsb' 16 4 = st ∧
    (typesX na aa dt st low).extractLsb' 26 6 = 0#6 ∧ (typesX na aa dt st low)[24] = na ∧
    (typesX na aa dt st low)[25] = aa := by
  have f (s n : Nat) : (typesX na aa dt st low).extractLsb' s n =
      @BitVec.extractLsb' (6 + 1 + 1 + 4 + 4 + 16) s n (0#6 ++ Bool.bit aa ++ Bool.bit na ++ dt ++ st ++ low) := rfl
  have g (n : Nat) (h : n < 32) : (typesX na aa dt st low)[n] =
      @BitVec.getLsbD (6 + 1 + 1 + 4 + 4 + 16) (0#6 ++ Bool.bit aa ++ Bool.bit na ++ dt ++ st ++ low) n :=
    (BitVec.getLsbD_eq_getElem h).symm
  simp only [f, g]
  simp (disch := decide) only [extract_append_lo, extract_append_hi, lsb_append, extract_whole, bit_lsb, Nat.reduceSub,
    Nat.reduceLT, if_true, if_false, and_self]

theorem typesX_none (dt st : W4) (low : W16) : (typesX false false dt st low).extractLsb' 24 8 = 0#8 := by
  have f (s n : Nat) : (typesX false false dt st low).extractLsb' s n =
      @BitVec.extractLsb' (6 + 1 + 1 + 4 + 4 + 16) s n
        (0#6 ++ Bool.bit false ++ Bool.bit false ++ dt ++ st ++ low) := rfl
  rw [f]
  simp (disch := decide) only [extract_append_hi, Nat.reduceSub]
  rfl

theorem typesX_four (na aa dt st low) : (typesX na aa dt st low)[4] = low[4] := by
  have g : (typesX na aa dt st low)[4] = @BitVec.getLsbD (6 + 1 + 1 + 4 + 4 + 16)
      (0#6 ++ Bool.bit aa ++ Bool.bit na ++ dt ++ st ++ low) 4 := (BitVec.getLsbD_eq_getElem (by decide)).symm
  rw [g, lsb_append]
  exact BitVec.getLsbD_eq_getElem (by decide)

theorem slotX_code (f : W3) : (slotX f).extractLsb' 8 8 = 0#8 ∧ (slotX f).extractLsb' 5 3 = f ∧ (slotX f)[4] = true ∧
    (slotX f).extractLsb' 0 4 = 0#4 := by
  revert f; decide


theorem Raw.row_000 (r : Raw) (h : r.opc.toNat = 0x000) : r.row = ( r.bare .nop) := by
  unfold Raw.row; rw [h]; rfl

theorem Raw.row_001 (r : Raw) (h : r.opc.toNat = 0x001) : r.row = ( opt (r.is96 && r.m == 0 && r.only false false false false) (.bra r.hdr r.lo)) := by
  unfold Raw.row; rw [h]; rfl

theorem Raw.row_002 (r : Raw) (h : r.opc.toNat = 0x002) : r.row = ( opt (r.is64 && r.m == 0 && r.only false true false false) (.brx r.hdr r.a)) := by
  unfold Raw.row; rw [h]; rfl

theorem Raw.row_003 (r : Raw) (h : r.opc.toNat = 0x003) : r.row = ( opt (r.is96 && r.m == 0 && r.only false false false false) (.call r.hdr r.lo)) := by
  unfold Raw.row; rw [h]; rfl

theorem Raw.row_004 (r : Raw) (h : r.opc.toNat = 0x004) : r.row = ( opt (r.is64 && r.m == 0 && r.only false true false false) (.callx r.hdr r.a)) := by
  unfold Raw.row; rw [h]; rfl

theorem Raw.row_005 (r : Raw) (h : r.opc.toNat = 0x005) : r.row = ( r.bare .ret) := by
  unfold Raw.row; rw [h]; rfl

theorem Raw.row_006 (r : Raw) (h : r.opc.toNat = 0x006) : r.row = ( r.bare .exit) := by
  unfold Raw.row; rw [h]; rfl

theorem Raw.row_007 (r : Raw) (h : r.opc.toNat = 0x007) : r.row = (
    opt (r.is64 && r.m == 0 && r.c == 0 && r.b == 0 && r.a.extractLsb' 3 6 == 0 && r.keep == 0
           && !r.la.getLsbD 3 && r.gp == 15)
        (.rep (r.la.extractLsb' 0 3 ++ r.gn) (r.d.extractLsb' 0 3) (r.d.extractLsb' 3 3) (r.d.extractLsb' 6 3)
          (r.a.extractLsb' 0 3))) := by
  unfold Raw.row; rw [h]; rfl

theorem Raw.row_008 (r : Raw) (h : r.opc.toNat = 0x008) : r.row = ( opt (r.is64 && r.m == 0 && r.only false false true false) (.trap r.hdr r.b)) := by
  unfold Raw.row; rw [h]; rfl

theorem Raw.row_009 (r : Raw) (h : r.opc.toNat = 0x009) : r.row = ( opt (r.is64 && r.m == 0 && r.only false false true false) (.bkpt r.hdr r.b)) := by
  unfold Raw.row; rw [h]; rfl

theorem Raw.row_00A (r : Raw) (h : r.opc.toNat = 0x00A) : r.row = ( r.bare .isync) := by
  unfold Raw.row; rw [h]; rfl

theorem Raw.row_00B (r : Raw) (h : r.opc.toNat = 0x00B) : r.row = (
    do
      let b ← r.srcI
      opt (r.m == 0 && r.only false false true false) (.nap r.hdr b)) := by
  unfold Raw.row; rw [h]; rfl

theorem Raw.row_00C (r : Raw) (h : r.opc.toNat = 0x00C) : r.row = ( r.bare .yield) := by
  unfold Raw.row; rw [h]; rfl

theorem Raw.row_00D (r : Raw) (h : r.opc.toNat = 0x00D) : r.row = ( r.bare .resume) := by
  unfold Raw.row; rw [h]; rfl

theorem Raw.row_00E (r : Raw) (h : r.opc.toNat = 0x00E) : r.row = ( r.bare .tret) := by
  unfold Raw.row; rw [h]; rfl

theorem Raw.row_00F (r : Raw) (h : r.opc.toNat = 0x00F) : r.row = (
    do
      let s ← SReg.ofNum r.a
      opt (r.is64 && r.m == 0 && r.only true true false false) (.srd r.hdr r.d s)) := by
  unfold Raw.row; rw [h]; rfl

theorem Raw.row_010 (r : Raw) (h : r.opc.toNat = 0x010) : r.row = (
    do
      let s ← SReg.ofNum r.d
      opt (r.is64 && r.m == 0 && r.only true true false false) (.swr r.hdr s r.a)) := by
  unfold Raw.row; rw [h]; rfl

theorem Raw.row_040 (r : Raw) (h : r.opc.toNat = 0x040) : r.row = ( r.intI .iadd) := by
  unfold Raw.row; rw [h]; rfl

theorem Raw.row_041 (r : Raw) (h : r.opc.toNat = 0x041) : r.row = ( r.intI .isub) := by
  unfold Raw.row; rw [h]; rfl

theorem Raw.row_042 (r : Raw) (h : r.opc.toNat = 0x042) : r.row = (
    do
      let m ← IntM.dec r.m
      let b ← r.srcI
      let p ← small 4 r.c
      opt (!m.sat) (.iaddc r.hdr m.u r.d r.a b p)) := by
  unfold Raw.row; rw [h]; rfl

theorem Raw.row_043 (r : Raw) (h : r.opc.toNat = 0x043) : r.row = ( r.intSat .ineg) := by
  unfold Raw.row; rw [h]; rfl

theorem Raw.row_044 (r : Raw) (h : r.opc.toNat = 0x044) : r.row = ( r.intSat .iabs) := by
  unfold Raw.row; rw [h]; rfl

theorem Raw.row_045 (r : Raw) (h : r.opc.toNat = 0x045) : r.row = ( r.intI .imul) := by
  unfold Raw.row; rw [h]; rfl

theorem Raw.row_046 (r : Raw) (h : r.opc.toNat = 0x046) : r.row = ( r.intU .imulh) := by
  unfold Raw.row; rw [h]; rfl

theorem Raw.row_047 (r : Raw) (h : r.opc.toNat = 0x047) : r.row = ( r.intIC .imad) := by
  unfold Raw.row; rw [h]; rfl

theorem Raw.row_048 (r : Raw) (h : r.opc.toNat = 0x048) : r.row = ( r.intIC .imadw) := by
  unfold Raw.row; rw [h]; rfl

theorem Raw.row_049 (r : Raw) (h : r.opc.toNat = 0x049) : r.row = ( r.intI .iadd64) := by
  unfold Raw.row; rw [h]; rfl

theorem Raw.row_04A (r : Raw) (h : r.opc.toNat = 0x04A) : r.row = ( r.intI .isub64) := by
  unfold Raw.row; rw [h]; rfl

theorem Raw.row_04B (r : Raw) (h : r.opc.toNat = 0x04B) : r.row = (
    do
      let m ← IntM.dec r.m
      opt (r.is64 && r.c == 0) (.imul64 r.hdr m r.d r.a r.b)) := by
  unfold Raw.row; rw [h]; rfl

theorem Raw.row_04C (r : Raw) (h : r.opc.toNat = 0x04C) : r.row = ( r.intU .imin) := by
  unfold Raw.row; rw [h]; rfl

theorem Raw.row_04D (r : Raw) (h : r.opc.toNat = 0x04D) : r.row = ( r.intU .imax) := by
  unfold Raw.row; rw [h]; rfl

theorem Raw.row_04E (r : Raw) (h : r.opc.toNat = 0x04E) : r.row = ( r.intIC .isad) := by
  unfold Raw.row; rw [h]; rfl

theorem Raw.row_04F (r : Raw) (h : r.opc.toNat = 0x04F) : r.row = ( r.dot .idot4) := by
  unfold Raw.row; rw [h]; rfl

theorem Raw.row_050 (r : Raw) (h : r.opc.toNat = 0x050) : r.row = ( r.dot .idot2) := by
  unfold Raw.row; rw [h]; rfl

theorem Raw.row_051 (r : Raw) (h : r.opc.toNat = 0x051) : r.row = (
    do
      let b ← r.srcI
      opt (r.m.extractLsb' 2 2 == 0 && r.c == 0) (.lea r.hdr (r.m.extractLsb' 0 2) r.d r.a b)) := by
  unfold Raw.row; rw [h]; rfl

theorem Raw.row_052 (r : Raw) (h : r.opc.toNat = 0x052) : r.row = (
    do
      let b ← r.srcI
      opt (!r.m.getLsbD 3 && r.c == 0) (.lea64 r.hdr (r.m.getLsbD 2) (r.m.extractLsb' 0 2) r.d r.a b)) := by
  unfold Raw.row; rw [h]; rfl

theorem Raw.row_080 (r : Raw) (h : r.opc.toNat = 0x080) : r.row = ( opt (r.is96 && r.m == 0 && r.lo.extractLsb' 8 24 == 0) (.lgate r.hdr r.d r.a r.b r.c (r.lo.extractLsb' 0 8))) := by
  unfold Raw.row; rw [h]; rfl

theorem Raw.row_081 (r : Raw) (h : r.opc.toNat = 0x081) : r.row = ( r.plainI .shl) := by
  unfold Raw.row; rw [h]; rfl

theorem Raw.row_082 (r : Raw) (h : r.opc.toNat = 0x082) : r.row = ( r.plainI .shr) := by
  unfold Raw.row; rw [h]; rfl

theorem Raw.row_083 (r : Raw) (h : r.opc.toNat = 0x083) : r.row = ( r.plainI .sar) := by
  unfold Raw.row; rw [h]; rfl

theorem Raw.row_084 (r : Raw) (h : r.opc.toNat = 0x084) : r.row = ( r.plainI .rotl) := by
  unfold Raw.row; rw [h]; rfl

theorem Raw.row_085 (r : Raw) (h : r.opc.toNat = 0x085) : r.row = (
    do
      let m ← mflag r.m
      let b ← r.srcI
      some (.shf r.hdr m r.d r.a b r.c)) := by
  unfold Raw.row; rw [h]; rfl

theorem Raw.row_086 (r : Raw) (h : r.opc.toNat = 0x086) : r.row = ( r.plainDA .popc) := by
  unfold Raw.row; rw [h]; rfl

theorem Raw.row_087 (r : Raw) (h : r.opc.toNat = 0x087) : r.row = ( r.plainDA .clz) := by
  unfold Raw.row; rw [h]; rfl

theorem Raw.row_088 (r : Raw) (h : r.opc.toNat = 0x088) : r.row = ( r.plainDA .ctz) := by
  unfold Raw.row; rw [h]; rfl

theorem Raw.row_089 (r : Raw) (h : r.opc.toNat = 0x089) : r.row = ( r.plainDA .brev) := by
  unfold Raw.row; rw [h]; rfl

theorem Raw.row_08A (r : Raw) (h : r.opc.toNat = 0x08A) : r.row = (
    do
      let m ← ftzDec r.m
      let b ← r.srcI
      opt (r.c == 0) (.bfe r.hdr m r.d r.a b)) := by
  unfold Raw.row; rw [h]; rfl

theorem Raw.row_08B (r : Raw) (h : r.opc.toNat = 0x08B) : r.row = ( r.plainIC .bfi) := by
  unfold Raw.row; rw [h]; rfl

theorem Raw.row_08C (r : Raw) (h : r.opc.toNat = 0x08C) : r.row = ( r.plainIC .prmt) := by
  unfold Raw.row; rw [h]; rfl

theorem Raw.row_08D (r : Raw) (h : r.opc.toNat = 0x08D) : r.row = ( r.plainDAB .clmul) := by
  unfold Raw.row; rw [h]; rfl

theorem Raw.row_08E (r : Raw) (h : r.opc.toNat = 0x08E) : r.row = ( r.plainDAB .clmulh) := by
  unfold Raw.row; rw [h]; rfl

theorem Raw.row_08F (r : Raw) (h : r.opc.toNat = 0x08F) : r.row = ( r.plainDAB .clmulw) := by
  unfold Raw.row; rw [h]; rfl

theorem Raw.row_0C0 (r : Raw) (h : r.opc.toNat = 0x0C0) : r.row = (
    do
      let m ← ICnd.dec r.m
      let b ← r.srcI
      let p ← small 4 r.d
      opt (r.c == 0) (.isetp r.hdr m p r.a b)) := by
  unfold Raw.row; rw [h]; rfl

theorem Raw.row_0C1 (r : Raw) (h : r.opc.toNat = 0x0C1) : r.row = ( r.cmpX .fsetp) := by
  unfold Raw.row; rw [h]; rfl

theorem Raw.row_0C2 (r : Raw) (h : r.opc.toNat = 0x0C2) : r.row = ( r.cmpX .dsetp) := by
  unfold Raw.row; rw [h]; rfl

theorem Raw.row_0C3 (r : Raw) (h : r.opc.toNat = 0x0C3) : r.row = (
    do
      let pd ← small 4 r.d
      let pa ← small 4 r.a
      let pb ← small 4 r.b
      let pc ← small 4 r.c
      opt (r.is96 && r.m == 0 && r.lo.extractLsb' 8 24 == 0) (.pgate r.hdr pd pa pb pc (r.lo.extractLsb' 0 8))) := by
  unfold Raw.row; rw [h]; rfl

theorem Raw.row_0C4 (r : Raw) (h : r.opc.toNat = 0x0C4) : r.row = (
    do
      let b ← r.srcI
      let p ← small 4 r.c
      opt (r.m == 0) (.sel r.hdr r.d r.a b p)) := by
  unfold Raw.row; rw [h]; rfl

theorem Raw.row_0C5 (r : Raw) (h : r.opc.toNat = 0x0C5) : r.row = ( opt (r.is64 && r.m == 0 && r.only true false false false) (.p2v r.hdr r.d)) := by
  unfold Raw.row; rw [h]; rfl

theorem Raw.row_0C6 (r : Raw) (h : r.opc.toNat = 0x0C6) : r.row = (
    do
      let b ← r.srcI
      opt (r.m == 0 && r.only false true true false) (.v2p r.hdr r.a b)) := by
  unfold Raw.row; rw [h]; rfl

theorem Raw.row_0C7 (r : Raw) (h : r.opc.toNat = 0x0C7) : r.row = ( r.plainDA .mov) := by
  unfold Raw.row; rw [h]; rfl

theorem Raw.row_0C8 (r : Raw) (h : r.opc.toNat = 0x0C8) : r.row = ( opt (r.is96 && r.m == 0 && r.only true false false false) (.movi r.hdr r.d r.lo)) := by
  unfold Raw.row; rw [h]; rfl

theorem Raw.row_0C9 (r : Raw) (h : r.opc.toNat = 0x0C9) : r.row = ( opt (r.is128 && r.m == 0 && r.only true false false false) (.mov64i r.hdr r.d r.ext)) := by
  unfold Raw.row; rw [h]; rfl

theorem Raw.row_100 (r : Raw) (h : r.opc.toNat = 0x100) : r.row = ( r.rndXW .fadd) := by
  unfold Raw.row; rw [h]; rfl

theorem Raw.row_101 (r : Raw) (h : r.opc.toNat = 0x101) : r.row = ( r.rndXW .fsub) := by
  unfold Raw.row; rw [h]; rfl

theorem Raw.row_102 (r : Raw) (h : r.opc.toNat = 0x102) : r.row = ( r.rndXW .fmul) := by
  unfold Raw.row; rw [h]; rfl

theorem Raw.row_103 (r : Raw) (h : r.opc.toNat = 0x103) : r.row = ( r.rndXWC .ffma) := by
  unfold Raw.row; rw [h]; rfl

theorem Raw.row_104 (r : Raw) (h : r.opc.toNat = 0x104) : r.row = ( r.plainXW .fmin) := by
  unfold Raw.row; rw [h]; rfl

theorem Raw.row_105 (r : Raw) (h : r.opc.toNat = 0x105) : r.row = ( r.plainXW .fmax) := by
  unfold Raw.row; rw [h]; rfl

theorem Raw.row_106 (r : Raw) (h : r.opc.toNat = 0x106) : r.row = (
    do
      let m ← Rnd.dec r.m
      let x ← r.modsX
      opt (r.only true true false false) (.frnd r.hdr m r.d r.a x)) := by
  unfold Raw.row; rw [h]; rfl

theorem Raw.row_107 (r : Raw) (h : r.opc.toNat = 0x107) : r.row = ( r.plainDA .fclass) := by
  unfold Raw.row; rw [h]; rfl

theorem Raw.row_108 (r : Raw) (h : r.opc.toNat = 0x108) : r.row = ( r.plainDA .fexp) := by
  unfold Raw.row; rw [h]; rfl

theorem Raw.row_109 (r : Raw) (h : r.opc.toNat = 0x109) : r.row = ( r.rndXW .fldexp) := by
  unfold Raw.row; rw [h]; rfl

theorem Raw.row_10A (r : Raw) (h : r.opc.toNat = 0x10A) : r.row = ( r.rndXW .hadd2) := by
  unfold Raw.row; rw [h]; rfl

theorem Raw.row_10B (r : Raw) (h : r.opc.toNat = 0x10B) : r.row = ( r.rndXW .hmul2) := by
  unfold Raw.row; rw [h]; rfl

theorem Raw.row_10C (r : Raw) (h : r.opc.toNat = 0x10C) : r.row = ( r.rndXWC .hfma2) := by
  unfold Raw.row; rw [h]; rfl

theorem Raw.row_10D (r : Raw) (h : r.opc.toNat = 0x10D) : r.row = ( r.rndXWC .bfma2) := by
  unfold Raw.row; rw [h]; rfl

theorem Raw.row_140 (r : Raw) (h : r.opc.toNat = 0x140) : r.row = ( r.rndX .dadd) := by
  unfold Raw.row; rw [h]; rfl

theorem Raw.row_141 (r : Raw) (h : r.opc.toNat = 0x141) : r.row = ( r.rndX .dmul) := by
  unfold Raw.row; rw [h]; rfl

theorem Raw.row_142 (r : Raw) (h : r.opc.toNat = 0x142) : r.row = (
    do
      let m ← Rnd.dec r.m
      let x ← r.modsX
      some (.dfma r.hdr m r.d r.a r.b r.c x)) := by
  unfold Raw.row; rw [h]; rfl

theorem Raw.row_143 (r : Raw) (h : r.opc.toNat = 0x143) : r.row = ( r.plainX .dmin) := by
  unfold Raw.row; rw [h]; rfl

theorem Raw.row_144 (r : Raw) (h : r.opc.toNat = 0x144) : r.row = ( r.plainX .dmax) := by
  unfold Raw.row; rw [h]; rfl

theorem Raw.row_145 (r : Raw) (h : r.opc.toNat = 0x145) : r.row = ( r.ftzX .frcp) := by
  unfold Raw.row; rw [h]; rfl

theorem Raw.row_146 (r : Raw) (h : r.opc.toNat = 0x146) : r.row = ( r.ftzX .frsq) := by
  unfold Raw.row; rw [h]; rfl

theorem Raw.row_147 (r : Raw) (h : r.opc.toNat = 0x147) : r.row = ( r.ftzX .fsqrt) := by
  unfold Raw.row; rw [h]; rfl

theorem Raw.row_148 (r : Raw) (h : r.opc.toNat = 0x148) : r.row = ( r.ftzX .fex2) := by
  unfold Raw.row; rw [h]; rfl

theorem Raw.row_149 (r : Raw) (h : r.opc.toNat = 0x149) : r.row = ( r.ftzX .flg2) := by
  unfold Raw.row; rw [h]; rfl

theorem Raw.row_180 (r : Raw) (h : r.opc.toNat = 0x180) : r.row = (
    do
      let dt ← TypeCode.dec (r.lo.extractLsb' 20 4)
      let st ← TypeCode.dec (r.lo.extractLsb' 16 4)
      opt (r.is96 && r.only true true false false && r.lo.extractLsb' 26 6 == 0 && r.lo.extractLsb' 0 16 == 0)
        (.cvt r.hdr (RndS.dec r.m) dt st (r.lo.getLsbD 24) (r.lo.getLsbD 25) r.d r.a)) := by
  unfold Raw.row; rw [h]; rfl

theorem Raw.row_181 (r : Raw) (h : r.opc.toNat = 0x181) : r.row = (
    do
      let st ← TypeCode.dec (r.lo.extractLsb' 16 4)
      opt (r.is96 && r.only true true false false && r.lo.extractLsb' 26 6 == 0 && r.lo.extractLsb' 20 4 == 12
           && r.lo.extractLsb' 8 8 == 0 && r.lo.getLsbD 4 && r.lo.extractLsb' 0 4 == 0)
        (.cvtn r.hdr (RndS.dec r.m) st (r.lo.extractLsb' 5 3) (r.lo.getLsbD 24) (r.lo.getLsbD 25) r.d r.a)) := by
  unfold Raw.row; rw [h]; rfl

theorem Raw.row_182 (r : Raw) (h : r.opc.toNat = 0x182) : r.row = (
    do
      let dt ← TypeCode.dec (r.lo.extractLsb' 20 4)
      opt (r.is96 && r.only true true false false && r.lo.extractLsb' 24 8 == 0 && r.lo.extractLsb' 16 4 == 12
           && r.lo.extractLsb' 8 8 == 0 && r.lo.getLsbD 4 && r.lo.extractLsb' 0 4 == 0)
        (.cvtw r.hdr (RndS.dec r.m) dt (r.lo.extractLsb' 5 3) r.d r.a)) := by
  unfold Raw.row; rw [h]; rfl

theorem Raw.row_183 (r : Raw) (h : r.opc.toNat = 0x183) : r.row = (
    do
      let m ← mflag r.m
      opt (r.is64 && r.only true true false false) (.pack4 r.hdr m r.d r.a)) := by
  unfold Raw.row; rw [h]; rfl

theorem Raw.row_184 (r : Raw) (h : r.opc.toNat = 0x184) : r.row = (
    do
      let m ← mflag r.m
      opt (r.is64 && r.only true true false false) (.unpack4 r.hdr m r.d r.a)) := by
  unfold Raw.row; rw [h]; rfl

theorem Raw.row_1C0 (r : Raw) (h : r.opc.toNat = 0x1C0) : r.row = (
    do
      let b ← r.srcI
      match r.m.toNat with
      | 0 => opt (r.c == 0) (.shfl r.hdr .idx r.d r.a b)
      | 1 => opt (r.c == 0) (.shfl r.hdr .up r.d r.a b)
      | 2 => opt (r.c == 0) (.shfl r.hdr .down r.d r.a b)
      | 3 => opt (r.c == 0) (.shfl r.hdr .bfly r.d r.a b)
      | _ => none) := by
  unfold Raw.row; rw [h]; rfl

theorem Raw.row_1C1 (r : Raw) (h : r.opc.toNat = 0x1C1) : r.row = (
    do
      let p ← small 4 r.a
      let ok := r.is64 && r.only true true false false
      match r.m.toNat with
      | 0 => opt ok (.vote r.hdr .all r.d p)
      | 1 => opt ok (.vote r.hdr .any r.d p)
      | 2 => opt ok (.vote r.hdr .uni r.d p)
      | 3 => opt ok (.vote r.hdr .ballot r.d p)
      | _ => none) := by
  unfold Raw.row; rw [h]; rfl

theorem Raw.row_1C2 (r : Raw) (h : r.opc.toNat = 0x1C2) : r.row = (
    do
      let op ← WOp.dec r.m
      opt (r.is64 && r.only true true false false) (.redw r.hdr op r.d r.a)) := by
  unfold Raw.row; rw [h]; rfl

theorem Raw.row_1C3 (r : Raw) (h : r.opc.toNat = 0x1C3) : r.row = (
    do
      let op ← WOp.dec r.m
      let ex ← flag r.c
      opt (r.is64 && r.b == 0) (.scanw r.hdr op ex r.d r.a)) := by
  unfold Raw.row; rw [h]; rfl

theorem Raw.row_1C4 (r : Raw) (h : r.opc.toNat = 0x1C4) : r.row = (
    do
      let m ← mflag r.m
      opt (r.is64 && r.only true true false false) (.matchv r.hdr m r.d r.a)) := by
  unfold Raw.row; rw [h]; rfl

theorem Raw.row_1C5 (r : Raw) (h : r.opc.toNat = 0x1C5) : r.row = ( opt (r.is64 && r.m == 0 && r.only true false false false) (.active r.hdr r.d)) := by
  unfold Raw.row; rw [h]; rfl

theorem Raw.row_1C6 (r : Raw) (h : r.opc.toNat = 0x1C6) : r.row = (
    do
      let b ← r.srcI
      opt (r.m == 0 && r.only false false true false) (.wsync r.hdr b)) := by
  unfold Raw.row; rw [h]; rfl

theorem Raw.row_200 (r : Raw) (h : r.opc.toNat = 0x200) : r.row = (
    do
      let m ← MW.dec r.m
      let o ← r.offIW
      opt (r.only true true false false) (.ld r.hdr m r.d r.a o.1 o.2)) := by
  unfold Raw.row; rw [h]; rfl

theorem Raw.row_201 (r : Raw) (h : r.opc.toNat = 0x201) : r.row = (
    do
      let m ← MW.dec r.m
      let o ← r.offIW
      let cm ← small 8 r.c
      opt (!m.sx && r.d == 0) (.st r.hdr m.w r.a r.b cm o.1 o.2)) := by
  unfold Raw.row; rw [h]; rfl

theorem Raw.row_202 (r : Raw) (h : r.opc.toNat = 0x202) : r.row = (
    do
      let m ← MW.dec r.m
      let o ← r.offI
      opt (r.only true true false false) (.lds r.hdr m r.d r.a o)) := by
  unfold Raw.row; rw [h]; rfl

theorem Raw.row_203 (r : Raw) (h : r.opc.toNat = 0x203) : r.row = (
    do
      let m ← MW.dec r.m
      let o ← r.offI
      opt (!m.sx && r.only false true true false) (.sts r.hdr m.w r.a r.b o)) := by
  unfold Raw.row; rw [h]; rfl

theorem Raw.row_204 (r : Raw) (h : r.opc.toNat = 0x204) : r.row = (
    do
      let m ← MW.dec r.m
      let o ← r.offIW
      opt (!m.sx && r.only false true true false) (.stx r.hdr m.w r.a r.b o.1 o.2)) := by
  unfold Raw.row; rw [h]; rfl

theorem Raw.row_205 (r : Raw) (h : r.opc.toNat = 0x205) : r.row = ( r.lineI .pref) := by
  unfold Raw.row; rw [h]; rfl

theorem Raw.row_206 (r : Raw) (h : r.opc.toNat = 0x206) : r.row = (
    do
      let off ← r.offI
      match r.m.toNat with
      | 0 => opt (r.only false true false false) (.cctl r.hdr .inv r.a off)
      | 1 => opt (r.only false true false false) (.cctl r.hdr .wb r.a off)
      | 2 => opt (r.only false true false false) (.cctl r.hdr .wbinv r.a off)
      | _ => none) := by
  unfold Raw.row; rw [h]; rfl

theorem Raw.row_207 (r : Raw) (h : r.opc.toNat = 0x207) : r.row = ( r.lineI .icinv) := by
  unfold Raw.row; rw [h]; rfl

theorem Raw.row_240 (r : Raw) (h : r.opc.toNat = 0x240) : r.row = (
    do
      let o ← r.offIW
      opt (r.c == 0) (.atom r.hdr (AOp.ofM r.m) r.d r.a r.b o.1 o.2)) := by
  unfold Raw.row; rw [h]; rfl

theorem Raw.row_241 (r : Raw) (h : r.opc.toNat = 0x241) : r.row = (
    do
      let o ← r.offIW
      if r.m == 2 then some (.atomc r.hdr false r.d r.a r.b r.c o.1 o.2)
      else if r.m == 3 then some (.atomc r.hdr true r.d r.a r.b r.c o.1 o.2)
      else none) := by
  unfold Raw.row; rw [h]; rfl

theorem Raw.row_242 (r : Raw) (h : r.opc.toNat = 0x242) : r.row = (
    do
      let o ← r.offIW
      opt (r.d == 0 && r.c == 0) (.red r.hdr (AOp.ofM r.m) r.a r.b o.1 o.2)) := by
  unfold Raw.row; rw [h]; rfl

theorem Raw.row_243 (r : Raw) (h : r.opc.toNat = 0x243) : r.row = (
    do
      let cm ← small 8 r.c
      if r.is64 then opt (r.m == 0 && r.only false false false true) (.fence r.hdr cm none)
      else do
        let x ← MemX.dec r.lo
        opt (r.is96 && r.m == 0 && r.only false false false true && x.order == .rlx && x.colour == 0)
          (.fence r.hdr cm (some x.scope))) := by
  unfold Raw.row; rw [h]; rfl

theorem Raw.row_244 (r : Raw) (h : r.opc.toNat = 0x244) : r.row = (
    do
      let b ← r.srcI
      match r.m.toNat with
      | 0 => opt (r.c == 0) (.waita r.hdr .eq r.d r.a b)
      | 1 => opt (r.c == 0) (.waita r.hdr .ne r.d r.a b)
      | 2 => opt (r.c == 0) (.waita r.hdr .ge r.d r.a b)
      | _ => none) := by
  unfold Raw.row; rw [h]; rfl

theorem Raw.row_280 (r : Raw) (h : r.opc.toNat = 0x280) : r.row = (
    do
      let m ← barDec r.m
      opt (r.is64 && r.only false true false false) (.bar r.hdr m.1 m.2 r.a)) := by
  unfold Raw.row; rw [h]; rfl

theorem Raw.row_281 (r : Raw) (h : r.opc.toNat = 0x281) : r.row = ( r.plainDA .barsv) := by
  unfold Raw.row; rw [h]; rfl

theorem Raw.row_282 (r : Raw) (h : r.opc.toNat = 0x282) : r.row = ( opt (r.is64 && r.m == 0 && r.only false true true false) (.barld r.hdr r.a r.b)) := by
  unfold Raw.row; rw [h]; rfl

theorem Raw.row_283 (r : Raw) (h : r.opc.toNat = 0x283) : r.row = (
    do
      let hd ← small 4 r.b
      opt r.is64 (.bpv r.hdr r.m r.d r.a hd r.c)) := by
  unfold Raw.row; rw [h]; rfl

theorem Raw.row_284 (r : Raw) (h : r.opc.toNat = 0x284) : r.row = (
    do
      let vm ← small 3 r.d
      let hd ← small 4 r.b
      opt (r.is64 && r.m == 0 && r.c == 0) (.bvm r.hdr vm r.a hd)) := by
  unfold Raw.row; rw [h]; rfl

theorem Raw.row_285 (r : Raw) (h : r.opc.toNat = 0x285) : r.row = (
    do
      let hd ← small 4 r.b
      opt (r.is64 && r.m == 0 && r.only false false true false) (.brst r.hdr hd)) := by
  unfold Raw.row; rw [h]; rfl

theorem Raw.row_286 (r : Raw) (h : r.opc.toNat = 0x286) : r.row = (
    do
      let vm ← small 3 r.a
      opt (r.is64 && r.m == 0 && r.only true true false false) (.vmpop r.hdr r.d vm)) := by
  unfold Raw.row; rw [h]; rfl

theorem Raw.row_287 (r : Raw) (h : r.opc.toNat = 0x287) : r.row = (
    do
      let p ← small 4 r.d
      let vm ← small 3 r.a
      let b ← r.srcI
      opt (r.m == 0 && r.c == 0) (.vmtst r.hdr p vm b)) := by
  unfold Raw.row; rw [h]; rfl

theorem Raw.row_288 (r : Raw) (h : r.opc.toNat = 0x288) : r.row = (
    do
      let vm ← small 3 r.a
      let b ← r.srcI
      opt (r.m == 0 && r.c == 0) (.vmnext r.hdr r.d vm b)) := by
  unfold Raw.row; rw [h]; rfl

theorem Raw.row_2C0 (r : Raw) (h : r.opc.toNat = 0x2C0) : r.row = (
    do
      let t ← small 3 r.d
      let e ← r.extM
      opt (r.m == 0 && r.c == 0 && e.colour == 0) (.mma r.hdr t r.a r.b e.k e.fa e.fb e.g)) := by
  unfold Raw.row; rw [h]; rfl

theorem Raw.row_2C1 (r : Raw) (h : r.opc.toNat = 0x2C1) : r.row = (
    do
      let t ← small 3 r.d
      let m ← mflag r.m
      let e ← r.extM
      opt (e.colour == 0) (.mmas r.hdr m t r.a r.b r.c e.k e.fa e.fb e.g)) := by
  unfold Raw.row; rw [h]; rfl

theorem Raw.row_2C2 (r : Raw) (h : r.opc.toNat = 0x2C2) : r.row = (
    do
      let t ← small 3 r.d
      opt (r.is64 && r.m == 0 && r.only true false false false) (.mmz r.hdr t)) := by
  unfold Raw.row; rw [h]; rfl

theorem Raw.row_2C3 (r : Raw) (h : r.opc.toNat = 0x2C3) : r.row = (
    do
      let cv ← MConv.dec r.m
      let t ← small 3 r.a
      let b ← r.srcI
      opt (r.c == 0) (.mmrd r.hdr cv r.d t b)) := by
  unfold Raw.row; rw [h]; rfl

theorem Raw.row_2C4 (r : Raw) (h : r.opc.toNat = 0x2C4) : r.row = (
    do
      let cv ← MConv.dec r.m
      let t ← small 3 r.d
      let b ← r.srcI
      opt (r.c == 0) (.mmwr r.hdr cv t r.a b)) := by
  unfold Raw.row; rw [h]; rfl

theorem Raw.row_2C5 (r : Raw) (h : r.opc.toNat = 0x2C5) : r.row = (
    do
      let cv ← MConv.dec r.m
      let t ← small 3 r.d
      let e ← r.extM
      opt (r.only true true false false && e.k == 0 && e.fa == 0 && e.fb == 0 && e.colour == 0) (.mmld r.hdr cv t r.a e.g)) := by
  unfold Raw.row; rw [h]; rfl

theorem Raw.row_2C6 (r : Raw) (h : r.opc.toNat = 0x2C6) : r.row = (
    do
      let cv ← MConv.dec r.m
      let t ← small 3 r.d
      let e ← r.extM
      opt (r.only true true false false && e.k == 0 && e.fa == 0 && e.fb == 0) (.mmst r.hdr cv t r.a e.colour e.g)) := by
  unfold Raw.row; rw [h]; rfl

theorem Raw.row_2C7 (r : Raw) (h : r.opc.toNat = 0x2C7) : r.row = (
    do
      let t ← small 3 r.d
      opt (r.is64 && r.m == 0 && r.only true false false false) (.mmwait r.hdr t)) := by
  unfold Raw.row; rw [h]; rfl

theorem Raw.row_2C8 (r : Raw) (h : r.opc.toNat = 0x2C8) : r.row = (
    do
      let m ← mflag r.m
      let e ← r.extM
      opt (r.c == 0 && e.fb == 0 && e.g == ⟨false, 0⟩) (.cmprs r.hdr m r.d r.a r.b e.k e.fa e.colour)) := by
  unfold Raw.row; rw [h]; rfl

theorem Raw.row_300 (r : Raw) (h : r.opc.toNat = 0x300) : r.row = (
    do
      let q ← small 2 r.d
      opt (r.is64 && r.m == 0 && r.only true true false false) (.qpush r.hdr q r.a)) := by
  unfold Raw.row; rw [h]; rfl

theorem Raw.row_301 (r : Raw) (h : r.opc.toNat = 0x301) : r.row = (
    do
      let q ← small 2 r.a
      opt (r.is64 && r.m == 0 && r.only true true false false) (.qpop r.hdr r.d q)) := by
  unfold Raw.row; rw [h]; rfl

theorem Raw.row_302 (r : Raw) (h : r.opc.toNat = 0x302) : r.row = ( opt (r.is64 && r.m == 0 && r.only false true false false) (.job r.hdr r.a)) := by
  unfold Raw.row; rw [h]; rfl

theorem Raw.row_303 (r : Raw) (h : r.opc.toNat = 0x303) : r.row = (
    do
      let g ← small 4 r.a
      let p ← small 4 r.b
      opt (r.is64 && r.m == 0 && r.only false true true false) (.gset r.hdr g p)) := by
  unfold Raw.row; rw [h]; rfl

theorem Raw.row_340 (r : Raw) (h : r.opc.toNat = 0x340) : r.row = (
    do
      let b ← r.srcI
      opt (r.m == 0 && r.only false false true false) (.draw r.hdr b)) := by
  unfold Raw.row; rw [h]; rfl

theorem Raw.row_341 (r : Raw) (h : r.opc.toNat = 0x341) : r.row = (
    do
      let b ← r.srcI
      opt (r.m == 0 && r.only false false true false) (.burn r.hdr b)) := by
  unfold Raw.row; rw [h]; rfl

theorem Raw.row_342 (r : Raw) (h : r.opc.toNat = 0x342) : r.row = (
    do
      let p ← small 4 r.d
      let b ← r.srcI
      opt (r.m == 0 && r.only true false true false) (.shunt r.hdr p b)) := by
  unfold Raw.row; rw [h]; rfl

theorem Raw.row_380 (r : Raw) (h : r.opc.toNat = 0x380) : r.row = (
    do
      let b ← r.srcI
      opt (r.m == 0 && r.only false false true false) (.spawn r.hdr b)) := by
  unfold Raw.row; rw [h]; rfl

theorem Raw.row_381 (r : Raw) (h : r.opc.toNat = 0x381) : r.row = ( opt (r.is64 && r.m == 0 && r.only false true true false) (.sendw r.hdr r.a r.b)) := by
  unfold Raw.row; rw [h]; rfl

end Sys2Proof
end

