-- ==== Sys2Proof/Laws/Tables.lean ====
section
/-! SUPPORT. Tables, lists, memory in canonical form, and lane masks: reading after writing, and that every memory
operation keeps the canonical form. -/

namespace Sys2Proof.Machine

/- Tables. -/

@[simp] theorem tget_nil {α : Type} (k : Nat) : tget ([] : Tbl α) k = none := rfl

theorem tget_tput {α : Type} (t : Tbl α) (k j : Nat) (v : α) : tget (tput t k v) j = if j = k then some v else tget t j := by
  induction t with
  | nil => 
    by_cases h : j = k
    · simp [tput, tget, h]
    · simp [tput, tget, h, Ne.symm h]
  | cons x t ih =>
    obtain ⟨i, w⟩ := x
    simp only [tput]
    split
    · by_cases h : j = k
      · simp [tget, h]
      · simp [tget, h, Ne.symm h]
    · split
      · next e =>
        subst e
        by_cases h : j = k
        · simp [tget, h]
        · simp [tget, h, Ne.symm h]
      · next h =>
        simp only [tget, ih]
        by_cases hi : i = j
        · subst hi; simp [Ne.symm h]
        · simp [hi]

@[simp] theorem tget_tput_self {α : Type} (t : Tbl α) (k : Nat) (v : α) : tget (tput t k v) k = some v := by simp [tget_tput]

theorem tget_tput_ne {α : Type} (t : Tbl α) {k j : Nat} (v : α) (h : j ≠ k) : tget (tput t k v) j = tget t j := by
  simp [tget_tput, h]

theorem tget_tmod {α : Type} (t : Tbl α) (k j : Nat) (f : α → α) :
    tget (tmod t k f) j = if j = k then (tget t j).map f else tget t j := by
  induction t with
  | nil => simp [tmod, tget]
  | cons x t ih =>
    obtain ⟨i, w⟩ := x
    simp only [tmod]
    split
    · next e =>
      subst e
      by_cases h : j = i
      · simp [tget, h]
      · simp [tget, h, Ne.symm h]
    · next h =>
      simp only [tget, ih]
      by_cases hi : i = j
      · subst hi; simp [h]
      · simp [hi]

@[simp] theorem tget_tmod_self {α : Type} (t : Tbl α) (k : Nat) (f : α → α) : tget (tmod t k f) k = (tget t k).map f := by
  simp [tget_tmod]

theorem tget_tmod_ne {α : Type} (t : Tbl α) {k j : Nat} (f : α → α) (h : j ≠ k) : tget (tmod t k f) j = tget t j := by
  simp [tget_tmod, h]

theorem tget_tdel {α : Type} (t : Tbl α) (k j : Nat) : tget (tdel t k) j = if j = k then none else tget t j := by
  induction t with
  | nil => simp [tdel, tget]
  | cons x t ih =>
    obtain ⟨i, w⟩ := x
    simp only [tdel]
    split
    · next e => subst e; rw [ih]; by_cases h : j = i <;> simp [tget, h, eq_comm (a := i)]
    · next e =>
      simp only [tget, ih]
      by_cases h : i = j
      · subst h; simp [e]
      · simp [h]

/-- Keys strictly rising. -/
def Rising {α : Type} (t : Tbl α) : Prop := t.Pairwise (fun x y => x.1 < y.1)

theorem tsorted_iff {α : Type} (t : Tbl α) : tsorted t = true ↔ Rising t := by
  induction t with
  | nil => simp [tsorted, Rising]
  | cons x t ih =>
    cases t with
    | nil => simp [tsorted, Rising]
    | cons y t =>
      simp only [tsorted, Bool.and_eq_true, decide_eq_true_eq, ih, Rising, List.pairwise_cons] at *
      constructor
      · rintro ⟨h, h1, h2⟩
        exact ⟨by rintro z (_ | ⟨_, hz⟩); exacts [h, h.trans (h1 z hz)], h1, h2⟩
      · rintro ⟨h, h1, h2⟩
        exact ⟨h y (by simp), h1, h2⟩

theorem mem_tput {α : Type} (t : Tbl α) (k : Nat) (v : α) : ∀ x ∈ tput t k v, x = (k, v) ∨ x ∈ t := by
  induction t with
  | nil => simp [tput]
  | cons y t ih =>
    obtain ⟨i, w⟩ := y
    intro x hx
    simp only [tput] at hx
    split at hx
    · simpa using hx
    · split at hx
      · have := List.mem_cons.mp hx; tauto
      · rcases List.mem_cons.mp hx with h | h
        · exact .inr (by simp [h])
        · rcases ih x h with h | h
          · exact .inl h
          · exact .inr (by simp [h])

theorem rising_tput {α : Type} (t : Tbl α) (k : Nat) (v : α) (h : Rising t) : Rising (tput t k v) := by
  induction t with
  | nil => simp [tput, Rising]
  | cons y t ih =>
    obtain ⟨i, w⟩ := y
    have h1 := (List.pairwise_cons.mp h).1
    have h2 := (List.pairwise_cons.mp h).2
    simp only [tput]
    split
    · next hk =>
      refine List.pairwise_cons.mpr ⟨?_, h⟩
      intro z hz
      rcases List.mem_cons.mp hz with rfl | hz
      · exact hk
      · exact hk.trans (h1 z hz)
    · split
      · next hk => subst hk; exact List.pairwise_cons.mpr ⟨h1, h2⟩
      · next hk hne =>
        refine List.pairwise_cons.mpr ⟨?_, ih h2⟩
        intro z hz
        rcases mem_tput t k v z hz with rfl | hz
        · simp only; omega
        · exact h1 z hz

theorem tdel_sub {α : Type} (t : Tbl α) (k : Nat) : (tdel t k).Sublist t := by
  induction t with
  | nil => simp [tdel]
  | cons y t ih =>
    obtain ⟨i, w⟩ := y
    simp only [tdel]
    split
    · exact ih.cons _
    · exact ih.cons_cons _

theorem rising_tdel {α : Type} (t : Tbl α) (k : Nat) (h : Rising t) : Rising (tdel t k) := h.sublist (tdel_sub t k)

/- Memory. -/

theorem memGet_memPut (m : List Host.Cell) (a b : Nat) (v : Byte) :
    memGet (memPut m a v) b = if b = a then v else memGet m b := by
  unfold memGet memPut
  by_cases hv : v = memDefault
  · by_cases hb : b = a <;> simp [hv, hb, tget_tdel]
  · by_cases hb : b = a <;> simp [hv, hb, tget_tput]

/-- Writing a byte keeps the canonical form. -/
theorem memPut_wf (m : List Host.Cell) (a : Nat) (v : Byte) (hm : Memory.wf m = true) : Memory.wf (memPut m a v) = true := by
  simp only [Memory.wf, Bool.and_eq_true, tsorted_iff, List.all_eq_true] at hm ⊢
  unfold memPut
  split
  · exact ⟨rising_tdel m a hm.1, fun x hx => hm.2 x ((tdel_sub m a).subset hx)⟩
  · next hv =>
    refine ⟨rising_tput m a v hm.1, fun x hx => ?_⟩
    rcases mem_tput m a v x hx with rfl | h
    · simpa using hv
    · exact hm.2 x h

theorem wf_nil : Memory.wf [] = true := rfl

/- Lists. -/

theorem nth_lput {α : Type} (l : List α) (i j : Nat) (d : α) (f : α → α) :
    nth (lput l i d f) j d = if j = i then f (nth l i d) else nth l j d := by
  induction l generalizing i j with
  | nil =>
    induction i generalizing j with
    | zero => cases j <;> simp [lput, nth]
    | succ i ih =>
      cases j with
      | zero => simp [lput, nth]
      | succ j => simpa [lput, nth] using ih j
  | cons x l ih =>
    cases i with
    | zero => cases j <;> simp [lput, nth]
    | succ i =>
      cases j with
      | zero => simp [lput, nth]
      | succ j => simpa [lput, nth] using ih i j

theorem nth_map_range {α : Type} (n : Nat) (f : Nat → α) (i : Nat) (d : α) (h : i < n) : nth ((List.range n).map f) i d = f i := by
  simp [nth, h]

/- Lane masks. -/

theorem foldl_bits (f : Nat → Bool) (n a : Nat) :
    (List.range n).foldl (fun a l => if f l then a + 2 ^ l else a) a = a + ((List.range n).map (fun l => if f l then 2 ^ l else 0)).sum := by
  induction n generalizing a with
  | zero => simp
  | succ n ih =>
    rw [List.range_succ, List.foldl_append, ih, List.map_append, List.sum_append]
    simp only [List.foldl_cons, List.foldl_nil, List.map_cons, List.map_nil, List.sum_cons, List.sum_nil]
    split <;> omega

theorem bits_sum (f : Nat → Bool) (n : Nat) :
    (((List.range n).map (fun l => if f l then 2 ^ l else 0)).sum < 2 ^ n) ∧
    ∀ l, ((List.range n).map (fun l => if f l then 2 ^ l else 0)).sum.testBit l = (decide (l < n) && f l) := by
  induction n with
  | zero => simp
  | succ n ih =>
    obtain ⟨hlt, hb⟩ := ih
    rw [List.range_succ, List.map_append, List.sum_append]
    simp only [List.map_cons, List.map_nil, List.sum_cons, List.sum_nil, Nat.add_zero]
    generalize ((List.range n).map (fun l => if f l then 2 ^ l else 0)).sum = x at hlt hb
    cases hf : f n
    · refine ⟨by simp only [Bool.false_eq_true, if_false]; rw [Nat.pow_succ]; omega, fun l => ?_⟩
      simp only [Bool.false_eq_true, if_false, Nat.add_zero, hb]
      by_cases h : l < n
      · simp [h, show l < n + 1 by omega]
      · by_cases h2 : l = n
        · subst h2; simp [hf]
        · simp [h, show ¬ l < n + 1 by omega]
    · refine ⟨by simp only [if_true]; rw [Nat.pow_succ]; omega, fun l => ?_⟩
      simp only [if_true, Nat.add_comm x]
      rcases Nat.lt_trichotomy l n with h | h | h
      · rw [Nat.testBit_two_pow_add_gt h, hb]
        simp [h, show l < n + 1 by omega]
      · subst h
        rw [Nat.testBit_two_pow_add_eq, hb]
        simp [hf]
      · rw [Nat.testBit_lt_two_pow]
        · simp [show ¬ l < n + 1 by omega]
        · have : 2 ^ (n + 1) ≤ 2 ^ l := Nat.pow_le_pow_right (by omega) h
          rw [Nat.pow_succ] at this
          omega

theorem has_maskOf (f : Nat → Bool) (l : Nat) : has (maskOf f) l = (decide (l < 32) && f l) := by
  unfold has maskOf allLanes
  rw [foldl_bits, BitVec.getLsbD_ofNat, Nat.zero_add, (bits_sum f 32).2]
  by_cases h : l < 32 <;> simp [h]

@[simp] theorem has_and (a b : Mask) (l : Nat) : has (a &&& b) l = (has a l && has b l) := by simp [has]
@[simp] theorem has_zero (l : Nat) : has 0#32 l = false := by simp [has]

theorem has_lt {m : Mask} {l : Nat} (h : has m l = true) : l < 32 := by
  by_contra hl
  simp [has, BitVec.getLsbD_of_ge m l (by omega)] at h

theorem has_not (a : Mask) (l : Nat) : has (~~~ a) l = (decide (l < 32) && !has a l) := by
  simp [has]

theorem mask_ext {a b : Mask} (h : ∀ l, l < 32 → has a l = has b l) : a = b := by
  apply BitVec.eq_of_getLsbD_eq
  intro i hi
  exact h i hi

theorem mask_ne_zero {m : Mask} (h : m ≠ 0) : ∃ l, has m l = true := by
  by_contra hc
  push Not at hc
  apply h
  apply mask_ext
  intro l _
  rw [show has (0 : Mask) l = false from has_zero l]
  exact Bool.eq_false_iff.mpr (hc l)

theorem mem_lanesOf (m : Mask) (l : Nat) : l ∈ lanesOf m ↔ has m l = true := by
  simp only [lanesOf, allLanes, List.mem_filter, List.mem_range]
  exact ⟨fun h => h.2, fun h => ⟨has_lt h, h⟩⟩

end Sys2Proof.Machine
end

