-- ==== Sys2Proof/Laws/Registers.lean ====
section
/-! SUPPORT. What a register write leaves in each lane, whatever the shape tag it takes (04 R75, R76). -/

namespace Sys2Proof.Machine

/-- The values agree, in the lanes written, with the content that the rule stores when the write is whole. -/
def TagRule.fits (w : Warp) (r : TagRule) (act : Mask) (vals : List W32) : Prop :=
  match r with
  | .g => True
  | .u => ∀ l k, has act l = true → has act k = true → nth vals l 0 = nth vals k 0
  | .affine b s => ∀ l, has act l = true → nth vals l 0 = b + BitVec.ofNat 32 l * s
  | .copy x => ∀ l, has act l = true → nth vals l 0 = x.lane l
  | .gen srcs => w.allU srcs = true → ∀ l k, has act l = true → has act k = true → nth vals l 0 = nth vals k 0

theorem lowest_has {m : Mask} (h : m ≠ 0) : has m ((lowest m).getD 0) = true := by
  obtain ⟨l, hl⟩ := mask_ne_zero h
  unfold lowest
  cases hh : lanesOf m with
  | nil =>
    have := (mem_lanesOf m l).mpr hl
    rw [hh] at this
    simp at this
  | cons x xs =>
    simp only [List.head?_cons, Option.getD_some]
    exact (mem_lanesOf m x).mp (by rw [hh]; simp)

theorem nth_lanes (f : Nat → W32) {l : Nat} (h : l < 32) : nth (allLanes.map f) l 0 = f l := nth_map_range 32 f l 0 h

theorem nth_perLane {α : Type} (f : Nat → α) (d : α) {l : Nat} (h : l < 32) : nth (perLane f) l d = f l := nth_map_range 32 f l d h

/-- A write that is not whole stores the values lane by lane. -/
theorem Reg.lane_write_part (old : Reg) (r : TagRule) (t : Tag) (act : Mask) (vals : List W32) {l : Nat} (hl : l < 32) :
    (old.write false r t act vals).lane l = if has act l then nth vals l 0 else old.lane l := by
  unfold Reg.write
  split
  · next h => simp [h]
  · simp only [Bool.false_eq_true, if_false, Reg.lane, nth_lanes _ hl]

/-- A whole write stores the values in the lanes written, by its tag. -/
theorem Reg.lane_write_whole (old : Reg) (w : Warp) (r : TagRule) (act : Mask) (vals : List W32) {l : Nat}
    (hl : has act l = true) (hf : r.fits w act vals) :
    (old.write true r (w.ruleTag r) act vals).lane l = nth vals l 0 := by
  have h32 := has_lt hl
  have hz : act ≠ 0 := by rintro rfl; simp at hl
  have hlow := lowest_has hz
  unfold Reg.write
  simp only [hz, if_false, if_true]
  cases r with
  | g => simp only [Warp.ruleTag, Reg.lane, nth_lanes _ h32, hl, if_true]
  | u => simp only [Warp.ruleTag, Reg.lane]; exact hf _ _ hlow hl
  | affine b s => simp only [Reg.lane]; exact (hf l hl).symm
  | copy x => exact (hf l hl).symm
  | gen srcs =>
    simp only [Warp.ruleTag]
    by_cases ha : w.allU srcs = true
    · simp only [ha, if_true, Reg.lane]; exact hf ha _ _ hlow hl
    · simp only [ha, if_false, Reg.lane, nth_lanes _ h32, hl, if_true, Bool.false_eq_true]

/-- A live lane that a whole write does not write belongs to a write of no lane at all. -/
theorem View.whole_out (v : View) (h : v.whole = true) {l : Nat} (hl : has v.w.live l = true) (ha : has v.act l = false) : v.act = 0 := by
  simp only [View.whole, Bool.and_eq_true, beq_iff_eq, Bool.or_eq_true] at h
  rcases h.2 with h0 | h1
  · exact h0
  · have : has (v.w.live &&& ~~~ v.grp) l = true := by
      rw [has_and, has_not, hl, ← h1, ha]
      simpa using has_lt hl
    rw [h.1] at this
    simp at this


theorem Warp.overtake_regs (w : Warp) (d : Nat) (m : Mask) : (w.overtake d m).regs = w.regs := rfl

/-- What a live lane of a register holds after a write. -/
theorem View.put_rd (v : View) (sat : Bool) (w : Warp) (d : Nat) (r : TagRule) (vals : List W32)
    (hr : w.replay = v.w.replay) (hf : sat = true ∨ r.fits v.w v.act vals) {l : Nat} (hl : has v.w.live l = true) (n : Nat) :
    (v.put sat w d r vals).rd n l = if n = d ∧ has (v.lanesTo d) l = true then nth vals l 0 else w.rd n l := by
  have h32 := has_lt hl
  have hlw : w.laterWrites d = v.w.laterWrites d := by simp only [Warp.laterWrites, hr]
  simp only [View.put, Warp.rd, Warp.reg, Warp.overtake_regs, nth_lput, View.lanesTo, hlw]
  by_cases hn : n = d
  · subst hn
    simp only [true_and, if_true]
    by_cases hp : (v.whole && (v.act &&& ~~~ v.w.laterWrites n) == v.act && !sat) = true
    · rw [hp]
      simp only [Bool.and_eq_true, beq_iff_eq, Bool.not_eq_true'] at hp
      rw [hp.1.2]
      by_cases ha : has v.act l = true
      · rw [Reg.lane_write_whole _ _ _ _ _ ha (hf.resolve_left (by simp [hp.2])), if_pos ha]
      · have : v.act = 0 := v.whole_out hp.1.1 hl (by simpa using ha)
        simp [this, Reg.write]
    · rw [Bool.not_eq_true] at hp
      rw [hp, Reg.lane_write_part _ _ _ _ _ h32]
  · simp [hn]

/-- Nothing but registers and the window changes. -/
theorem View.put_eq (v : View) (sat : Bool) (w : Warp) (d : Nat) (r : TagRule) (vals : List W32) :
    v.put sat w d r vals = { w with regs := (v.put sat w d r vals).regs, ops := (v.put sat w d r vals).ops } := rfl

end Sys2Proof.Machine
end

