-- ==== Sys2Proof/Laws/Issue.lean ====
section
/-! SUPPORT. What an issue does, said once: an instruction that is issued with nothing against it runs its effect and
steps to its successor; and everything that an issue can answer at all. -/

namespace Sys2Proof.Machine

/- The split table changes lanes only, and loses no live thread. -/

/-- Lanes change, and no live lane dies. -/
def OnlyLanes (w w' : Warp) : Prop := w' = { w with lanes := w'.lanes } ∧ ∀ l, has w.live l = true → has w'.live l = true

theorem OnlyLanes.refl (w : Warp) : OnlyLanes w w := ⟨rfl, fun _ h => h⟩

theorem OnlyLanes.trans {a b c : Warp} (h1 : OnlyLanes a b) (h2 : OnlyLanes b c) : OnlyLanes a c := by
  refine ⟨?_, fun l h => h2.2 l (h1.2 l h)⟩
  have e1 := h1.1
  have e2 := h2.1
  rw [e1] at e2
  rw [e2]

theorem has_live (w : Warp) (l : Nat) : has w.live l = (decide (l < 32) && (nth w.lanes l .idle).live) := by
  simp only [Warp.live, has_maskOf]

theorem has_groupOf (w : Warp) (e l : Nat) : has (w.groupOf e) l = (decide (l < 32) && nth w.lanes l .idle == .on e) := by
  simp only [Warp.groupOf, has_maskOf]

theorem groupOf_live {w : Warp} {e l : Nat} (h : has (w.groupOf e) l = true) : has w.live l = true := by
  rw [has_groupOf, Bool.and_eq_true, beq_iff_eq] at h
  rw [has_live, h.1, h.2]
  rfl

theorem setLanes_only (w : Warp) (m : Mask) (x : LaneSt) (hx : x.live = true) : OnlyLanes w (w.setLanes m x) := by
  refine ⟨rfl, fun l h => ?_⟩
  have h32 := has_lt h
  rw [has_live] at h ⊢
  simp only [h32, decide_true, Bool.true_and, Warp.setLanes] at h ⊢
  rw [nth_map_range _ _ _ _ h32]
  split
  · exact hx
  · unfold Warp.laneAt nth
    unfold nth at h
    cases hh : w.lanes[l]? with
    | none => simp [hh, LaneSt.live] at h
    | some y => simpa [hh] using h

theorem foldl_only {α : Type} (f : Warp → α → Warp) (hf : ∀ w a, OnlyLanes w (f w a)) (l : List α) (w : Warp) :
    OnlyLanes w (l.foldl f w) := by
  induction l generalizing w with
  | nil => exact .refl w
  | cons a l ih => exact (hf w a).trans (ih (f w a))

theorem place_only (w : Warp) (m : Mask) (p : W64) : OnlyLanes w (w.place m p) := by
  unfold Warp.place
  split
  · exact setLanes_only _ _ _ rfl
  · split <;> exact setLanes_only _ _ _ rfl

theorem splitGroup_only (w : Warp) (e : Nat) : OnlyLanes w (w.splitGroup e) := by
  unfold Warp.splitGroup
  simp only
  split
  · exact .refl w
  · refine (setLanes_only _ _ _ rfl).trans (foldl_only _ ?_ _ _)
    intro x q
    exact place_only _ _ _

theorem mergeEntry_only (w : Warp) (e : Nat) : OnlyLanes w (w.mergeEntry e) := by
  unfold Warp.mergeEntry
  split
  · exact .refl w
  · split
    · exact .refl w
    · exact setLanes_only _ _ _ rfl

/-- One round of re-entry. -/
theorem reenter_only (w : Warp) : OnlyLanes w w.reenter := by
  unfold Warp.reenter
  simp only
  refine foldl_only _ ?_ _ _
  intro x _
  split
  · exact .refl x
  · have h1 : OnlyLanes x (x.entries.foldl (fun w e =>
        match w.entryPc e with
        | some p => w.setLanes (w.atPc w.heldMask p) (.on e)
        | none => w) x) := by
      refine foldl_only _ ?_ _ _
      intro y e
      split
      · exact setLanes_only _ _ _ rfl
      · exact .refl y
    refine h1.trans ?_
    split
    · exact setLanes_only _ _ _ rfl
    · exact .refl _

theorem setPcs_pcAt (w : Warp) (m : Mask) (f : Nat → W64) {l : Nat} (hl : l < 32) :
    (w.setPcs m f).pcAt l = if has m l then f l else w.pcAt l := by
  unfold Warp.pcAt Warp.setPcs
  exact nth_map_range 32 (fun l => if has m l then f l else w.pcAt l) l 0 hl

/-- Going to new PCs: nothing but PCs and lanes changes. -/
theorem goto_spec (w : Warp) (e : Nat) (f : Nat → W64) :
    (∃ p ls, w.goto e f = { w with pcs := p, lanes := ls })
    ∧ (∀ l, has w.live l = true → has (w.goto e f).live l = true)
    ∧ ∀ l, l < 32 → (w.goto e f).pcAt l = if has (w.groupOf e) l then f l else w.pcAt l := by
  have h : OnlyLanes (w.setPcs (w.groupOf e) f) (w.goto e f) :=
    ((splitGroup_only _ e).trans (mergeEntry_only _ e)).trans (reenter_only _)
  obtain ⟨e1, e2⟩ := h
  generalize w.goto e f = x at e1 e2
  have hp : x.pcs = (w.setPcs (w.groupOf e) f).pcs := by rw [e1]
  refine ⟨⟨_, _, e1⟩, fun l hl => e2 l hl, fun l hl => ?_⟩
  · unfold Warp.pcAt
    rw [hp]
    exact setPcs_pcAt w _ f hl

/- The step to the successor. -/

/-- Two warps that agree but for what every instruction may change, asynchronous causes among it. -/
def SameBut (w w' : Warp) : Prop := w' = w.flowOf w'

theorem SameBut.refl (w : Warp) : SameBut w w := rfl

theorem SameBut.trans {a b c : Warp} (h1 : SameBut a b) (h2 : SameBut b c) : SameBut a c := by
  unfold SameBut at *
  rw [h1] at h2
  rw [h2]
  rfl

theorem trackHang_same (w : Warp) (e : Nat) (p : Bool) (n : Nat) :
    SameBut w (w.trackHang e p n) ∧ (w.trackHang e p n).async = w.async ∧ (w.trackHang e p n).pcs = w.pcs
    ∧ (w.trackHang e p n).lanes = w.lanes := by
  unfold Warp.trackHang
  split
  · exact ⟨rfl, rfl, rfl, rfl⟩
  · split <;> exact ⟨rfl, rfl, rfl, rfl⟩

theorem prune_same (w : Warp) : SameBut w w.prune ∧ w.prune.async = w.async ∧ w.prune.pcs = w.pcs ∧ w.prune.lanes = w.lanes :=
  ⟨rfl, rfl, rfl, rfl⟩

theorem addAsync_same (w : Warp) (c : Cause) (a : W64) :
    SameBut w (w.addAsync c a) ∧ (w.addAsync c a).pcs = w.pcs ∧ (w.addAsync c a).lanes = w.lanes := by
  unfold Warp.addAsync
  split <;> exact ⟨rfl, rfl, rfl⟩

theorem addAsync_congr {w w' : Warp} (h : w.async = w'.async) (c : Cause) (a : W64) :
    (w.addAsync c a).async = (w'.addAsync c a).async := by
  unfold Warp.addAsync
  rw [h]
  split <;> first | exact h | simp only

theorem stepStop_same (s : State) (v : View) (w : Warp) :
    SameBut w (s.stepStop v w) ∧ (s.stepStop v w).pcs = w.pcs ∧ (s.stepStop v w).lanes = w.lanes
    ∧ ((s.stepStop v w).async = w.async ∨ (s.stepStop v w).async = (w.addAsync .singleStep 0).async) := by
  unfold State.stepStop
  split
  · have h := addAsync_same w .singleStep 0
    exact ⟨h.1, h.2.1, h.2.2, .inr rfl⟩
  · exact ⟨rfl, rfl, rfl, .inl rfl⟩

theorem recordOn_same (v : View) (r : Req) (next : List W64) (n : Nat) (w : Warp) :
    SameBut w (v.recordOn r next n w) ∧ (v.recordOn r next n w).async = w.async ∧ (v.recordOn r next n w).pcs = w.pcs
    ∧ (v.recordOn r next n w).lanes = w.lanes := ⟨rfl, rfl, rfl, rfl⟩

/-- A subset's lanes. -/
theorem sub_has {a b : Mask} (h : a &&& b = a) {l : Nat} (ha : has a l = true) : has b l = true := by
  have h' : has (a &&& b) l = true := by rw [h]; exact ha
  simp only [has, BitVec.getLsbD_and, Bool.and_eq_true] at h'
  exact h'.2

theorem live_congr {a b : Warp} (h : a.lanes = b.lanes) : a.live = b.live := by simp only [Warp.live, h]

/-- Choosing the REP that goes on moves no thread. -/
theorem nextRep_same (w : Warp) : SameBut w w.nextRep ∧ w.nextRep.async = w.async ∧ w.nextRep.pcs = w.pcs ∧ w.nextRep.lanes = w.lanes := by
  unfold Warp.nextRep
  simp only
  split <;> exact ⟨rfl, rfl, rfl, rfl⟩

theorem moveOn_same (v : View) (moved : Mask) (next : List W64) (w : Warp) (hl : v.grp &&& w.groupOf v.entry = v.grp) (hg : v.grp ≠ 0)
    (hn : ∀ l, l < 32 → has v.grp l = false → nth next l 0 = w.pcAt l) :
    SameBut w (v.moveOn moved next w) ∧ (v.moveOn moved next w).async = w.async
    ∧ (∀ l, has w.live l = true → has (v.moveOn moved next w).live l = true)
    ∧ ∀ l, l < 32 → (v.moveOn moved next w).pcAt l = if has v.grp l && !v.again then nth next l 0 else w.pcAt l := by
  unfold View.moveOn
  split
  · next ha => exact ⟨rfl, rfl, fun _ h => h, fun l _ => by simp [ha, Warp.pcAt]⟩
  · next ha =>
    simp only [hl, hg, if_false]
    set w1 : Warp := { w with rep := none, count := allLanes.map (fun l => nth w.count l 0 + (if has (v.grp &&& moved) l then 1 else 0)) } with hw1
    obtain ⟨⟨p, ls, e1⟩, e2, e3⟩ := goto_spec w1 v.entry (fun l => nth next l 0)
    have hsub (l : Nat) (h : has v.grp l = true) : has (w1.groupOf v.entry) l = true := sub_has (a := v.grp) (b := w.groupOf v.entry) hl h
    obtain ⟨n1, n2, n3, n4⟩ := nextRep_same (w1.goto v.entry (fun l => nth next l 0))
    have hs : SameBut w (w1.goto v.entry (fun l => nth next l 0)) := by rw [e1]; rfl
    refine ⟨hs.trans n1, n2.trans (by rw [e1]), fun l h => ?_, fun l h => ?_⟩
    · rw [live_congr n4]; exact e2 l h
    · have h3 : (w1.goto v.entry (fun l => nth next l 0)).nextRep.pcAt l = (w1.goto v.entry (fun l => nth next l 0)).pcAt l := by
        simp only [Warp.pcAt, n3]
      rw [h3, e3 l h]
      cases hb : has v.grp l
      · have hw : w1.pcAt l = w.pcAt l := rfl
        simp only [hn l h hb, hw, ite_self, Bool.false_and, Bool.false_eq_true]
      · simp [hsub l hb, ha]

/-- What `advance` makes of a warp whose group still stands in its entry: all but the flow of the warp is as it was. -/
theorem advance_spec (s : State) (v : View) (r : Req) (moved : Mask) (pcs : Nat → W64) (w : Warp)
    (hw : tget s.warps v.key = some w) (hl : v.grp &&& w.groupOf v.entry = v.grp) (hg : v.grp ≠ 0) :
    Passes s v w (fun l => if has moved l then pcs l else v.pc) (s.advance v r moved pcs)
    ∧ ∃ w', tget (s.advance v r moved pcs).warps v.key = some w' ∧ w'.live ≠ 0 := by
  unfold State.advance
  simp only [hw]
  set next := v.nexts w moved pcs with hnext
  obtain ⟨a1, a2, a3, a4⟩ := recordOn_same v r next s.issueCount w
  set wr := v.recordOn r next s.issueCount w
  obtain ⟨b1, b2, b3, b4⟩ := moveOn_same v moved next wr (by simpa [Warp.groupOf, a4] using hl) hg (fun l h32 h => by
    rw [hnext, View.nexts, allLanes, nth_map_range 32 _ l 0 h32, h]
    simp [Warp.pcAt, a3])
  set wm := v.moveOn moved next wr
  obtain ⟨c1, c2, c3, c4⟩ := trackHang_same wm v.entry (r.progress && v.act != 0) (s.col (coreColumn v.core)).window
  set wt := wm.trackHang v.entry (r.progress && v.act != 0) (s.col (coreColumn v.core)).window
  obtain ⟨d1, d2, d3, d4⟩ := prune_same wt
  obtain ⟨f1, f2, f3, f4⟩ := stepStop_same s v wt.prune
  set wf := s.stepStop v wt.prune
  have hasync : wt.prune.async = w.async := by rw [d2, c2, b2, a2]
  have hpcs : wf.pcs = wm.pcs := by rw [f2, d3, c3]
  have hpc (l : Nat) : wf.pcAt l = wm.pcAt l := by simp [Warp.pcAt, hpcs]
  have hwr (l : Nat) : wr.pcAt l = w.pcAt l := by simp [Warp.pcAt, a3]
  refine ⟨⟨wf, rfl, fun k => tget_tput _ _ _ _, ((((a1.trans b1).trans c1).trans d1).trans f1), ?_, fun l h => ?_, fun l h32 h => ?_, fun _ _ => rfl⟩, wf, by simp, ?_⟩
  · rcases f4 with h | h
    · exact .inl (h.trans hasync)
    · exact .inr (h.trans (addAsync_congr hasync _ _))
  · have h32 := has_lt h
    rw [hpc, b4 l h32, hwr]
    by_cases ha : v.again = true
    · simp [ha]
    · rw [Bool.not_eq_true] at ha
      rw [ha, h, hnext, View.nexts, allLanes, nth_map_range 32 _ l 0 h32, ha]
      simp [h]
  · rw [hpc, b4 l h32, hwr]
    simp [h]
  · obtain ⟨l0, hl0⟩ := mask_ne_zero hg
    have h1 : has w.live l0 = true := groupOf_live (e := v.entry) (sub_has hl hl0)
    have h2 : has wr.live l0 = true := by simpa [Warp.live, a4] using h1
    have h3 := b3 l0 h2
    have h4 : has wf.live l0 = true := by simpa [Warp.live, f3, d4, c4] using h3
    intro hz
    rw [hz] at h4
    simp at h4

/- Issue. -/

theorem goes_iff (v : View) (r : Req) : v.goes r = true ↔
    (v.grp ≠ 0 ∧ v.w.blocked = false ∧ v.w.killFirst = false ∧ v.skips = none ∧ v.check r = none ∧ v.lookWait r = false
      ∧ v.raw r = false) := by
  simp only [View.goes, Bool.and_eq_true, bne_iff_ne, ne_eq, Bool.not_eq_true', Option.isNone_iff_eq_none, and_assoc]

/-- An instruction with nothing against it runs its effect. -/
theorem issue_goes {s : State} {h : Hdr} {v : View} {rq : View → Req} {eff : View → State → Eff} (hv : s.view h = some v)
    (hg : v.goes (rq v) = true) : issue s h rq eff = .next (s.finish v (rq v) (eff v s)) := by
  obtain ⟨h1, h2, h3, h4, h5, h6, h7⟩ := (goes_iff v (rq v)).mp hg
  have h1' : (v.grp == 0) = false := by simpa using h1
  simp only [issue, hv, h1', h2, h3, h4, h5, h6, h7, Bool.or_self, Bool.false_eq_true, if_false]

/-- What an issue can answer: it never refuses, and it faults only where no warp issues. -/
theorem issue_next {s : State} {h : Hdr} {rq : View → Req} {eff : View → State → Eff} {v : View} (hv : s.view h = some v) :
    ∃ t, issue s h rq eff = .next t := by
  simp only [issue, hv]
  split
  · exact ⟨_, rfl⟩
  · split
    · exact ⟨_, rfl⟩
    · split
      · exact ⟨_, rfl⟩
      · split
        · exact ⟨_, rfl⟩
        · split
          · exact ⟨_, rfl⟩
          · split <;> exact ⟨_, rfl⟩

/-- The threads that issue together stand in their entry. -/
theorem issuers_sub (w : Warp) (e : Nat) : w.issuers e &&& w.groupOf e = w.issuers e := by
  unfold Warp.issuers
  split
  · rw [BitVec.and_assoc, BitVec.and_comm (RepSt.grp _), ← BitVec.and_assoc, BitVec.and_self]
  · exact BitVec.and_self

/-- What the issuing group of a view is. -/
theorem view_spec {s : State} {h : Hdr} {v : View} (hv : s.view h = some v) :
    v.core = s.cur.core ∧ v.slot = s.cur.slot ∧ v.key = warpKey s.cur.core s.cur.slot ∧ tget s.warps v.key = some v.w
    ∧ v.entry = s.cur.entry ∧ v.pc = s.cur.pc ∧ v.next = s.cur.next ∧ v.grp = v.w.issuers v.entry ∧ v.bk = v.w.blk
    ∧ s.blk? v.bk = some v.b ∧ v.gk = v.b.grid ∧ tget s.grids v.gk = some v.g := by
  unfold State.view at hv
  simp only [Option.bind_eq_some_iff, Option.map_eq_some_iff] at hv
  obtain ⟨w, hw, b, hb, g, hg, rfl⟩ := hv
  exact ⟨rfl, rfl, rfl, hw, rfl, rfl, rfl, rfl, rfl, hb, rfl, hg⟩

/-- A warp with a live thread does not retire. -/
theorem retireWarp_live {s : State} {k : Nat} {w : Warp} (hw : tget s.warps k = some w) (hl : w.live ≠ 0) : s.retireWarp k = s := by
  have h : (w.live != 0) = true := by simpa using hl
  simp only [State.retireWarp, hw, h, if_true]

/-- An effect that completes, and leaves the group on its entry: the group goes to its successor. -/
theorem issue_done {s : State} {h : Hdr} {v : View} {rq : View → Req} {eff : View → State → Eff} (hv : s.view h = some v)
    (hg : v.goes (rq v) = true) (hc : v.w.asyncCause = none) {s' : State} (he : eff v s = .done s') {w : Warp}
    (hw : tget s'.warps v.key = some w) (hl : w.lanes = v.w.lanes) :
    ∃ t, issue s h rq eff = .next t ∧ Passes s' v w (fun _ => v.next) t := by
  have hgrp : v.grp &&& w.groupOf v.entry = v.grp := by
    have h1 : w.groupOf v.entry = v.w.groupOf v.entry := by simp [Warp.groupOf, hl]
    rw [h1, (view_spec hv).2.2.2.2.2.2.2.1]
    exact issuers_sub v.w v.entry
  obtain ⟨h1, w', h2, h3⟩ := advance_spec s' v (rq v) (BitVec.allOnes 32) (fun _ => v.next) w hw hgrp ((goes_iff v _).mp hg).1
  refine ⟨_, issue_goes hv hg, ?_⟩
  rw [he]
  simp only [State.finish, hc, Option.isSome_none, Bool.false_eq_true, if_false]
  rw [retireWarp_live h2 h3]
  obtain ⟨x, e0, e1, e2, e3, e4, e5, e6⟩ := h1
  refine ⟨x, e0, e1, e2, e3, fun l hl => ?_, e5, e6⟩
  have h32 := has_lt hl
  have h1 : has (BitVec.allOnes 32) l = true := by unfold has; rw [BitVec.getLsbD_allOnes]; simpa using h32
  rw [e4 l hl]
  simp only [h1, if_true]

/-- An effect that moves its lanes: each goes to its own address. -/
theorem issue_jump {s : State} {h : Hdr} {v : View} {rq : View → Req} {eff : View → State → Eff} (hv : s.view h = some v)
    (hg : v.goes (rq v) = true) (hc : v.w.asyncCause = none) {s' : State} {m : Mask} {pcs : List W64}
    (he : eff v s = .jump s' m pcs) {w : Warp} (hw : tget s'.warps v.key = some w) (hl : w.lanes = v.w.lanes) :
    ∃ t, issue s h rq eff = .next t ∧ Passes s' v w (fun l => if has m l then nth pcs l 0 else v.pc) t := by
  have hgrp : v.grp &&& w.groupOf v.entry = v.grp := by
    have h1 : w.groupOf v.entry = v.w.groupOf v.entry := by simp [Warp.groupOf, hl]
    rw [h1, (view_spec hv).2.2.2.2.2.2.2.1]
    exact issuers_sub v.w v.entry
  obtain ⟨h1, w', h2, h3⟩ := advance_spec s' v (rq v) m (fun l => nth pcs l 0) w hw hgrp ((goes_iff v _).mp hg).1
  refine ⟨_, issue_goes hv hg, ?_⟩
  rw [he]
  simp only [State.finish, hc, Option.isSome_none, Bool.false_eq_true, if_false]
  rw [retireWarp_live h2 h3]
  exact h1

end Sys2Proof.Machine
end

