-- ==== Sys2Proof/Laws/Compute.lean ====
section
/-! SUPPORT. What the common shapes of meanings do, each said once: a word, a pair, or words with flags for every lane, and
a predicate for every lane. -/

namespace Sys2Proof.Machine

/-- The state before the effect on the issuing warp serves as well as the state after it. -/
theorem Passes.modWarp {s : State} {v : View} {w : Warp} {next : Nat → W64} {t : State} {f : Warp → Warp}
    (h : Passes (s.modWarp v.key f) v w next t) : Passes s v w next t := by
  obtain ⟨x, e0, e1, e2, e3, e4, e5, e6⟩ := h
  refine ⟨x, e0, fun k => ?_, e2, e3, e4, e5, e6⟩
  rw [e1 k]
  by_cases hk : k = v.key
  · simp [hk]
  · simp [hk, State.modWarp, tget_tmod_ne]

/-- The window of the warp is part of its flow. -/
theorem Passes.ops {s : State} {v : View} {w : Warp} {next : Nat → W64} {t : State} (o : List Op) (h : Passes s v w next t) :
    Passes s v { w with ops := o } next t := by
  obtain ⟨x, e0, e1, e2, e3, e4, e5, e6⟩ := h
  refine ⟨x, e0, e1, e2, ?_, e4, e5, e6⟩
  rcases e3 with e3 | e3
  · exact .inl e3
  · refine .inr (e3.trans (addAsync_congr (w := w) (w' := { w with ops := o }) rfl _ _))

/-- Write the registers of a list, each by its rule. -/
def View.putAll (v : View) (sat : Bool) (w : Warp) (l : List ((Nat × TagRule) × List W32)) : Warp :=
  l.foldl (fun w x => v.put sat w x.1.1 x.1.2 x.2) w

theorem outs_eq (v : View) (s : State) (r : Req) (vals : List (List W32)) :
    v.outs s r vals = s.modWarp v.key (fun w => v.putAll r.sat w (r.writes.zip vals)) := rfl

theorem put_keeps (v : View) (sat : Bool) (w : Warp) (d : Nat) (r : TagRule) (vals : List W32) :
    ∃ rs os, v.put sat w d r vals = { w with regs := rs, ops := os } := ⟨_, _, rfl⟩

theorem putAll_keeps (v : View) (sat : Bool) (l : List ((Nat × TagRule) × List W32)) (w : Warp) :
    ∃ rs os, v.putAll sat w l = { w with regs := rs, ops := os } := by
  induction l generalizing w with
  | nil => exact ⟨_, _, rfl⟩
  | cons x l ih =>
    obtain ⟨rs, os, h⟩ := ih (v.put sat w x.1.1 x.1.2 x.2)
    obtain ⟨r1, o1, h1⟩ := put_keeps v sat w x.1.1 x.1.2 x.2
    refine ⟨rs, os, ?_⟩
    rw [show v.putAll sat w (x :: l) = v.putAll sat (v.put sat w x.1.1 x.1.2 x.2) l from rfl, h, h1]

/-- Registers after a list of writes to registers that are all different. -/
theorem putAll_rd (v : View) (sat : Bool) (l : List ((Nat × TagRule) × List W32)) (w : Warp) (hr : w.replay = v.w.replay)
    (hf : ∀ x ∈ l, sat = true ∨ x.1.2.fits v.w v.act x.2)
    (hn : l.Pairwise (fun x y => x.1.1 ≠ y.1.1)) (n i : Nat) (hi : has v.w.live i = true) :
    (v.putAll sat w l).rd n i = match l.find? (fun x => x.1.1 == n) with
      | some x => if has (v.lanesTo n) i then nth x.2 i 0 else w.rd n i
      | none => w.rd n i := by
  induction l generalizing w with
  | nil => rfl
  | cons x l ih =>
    obtain ⟨h1, h2⟩ := List.pairwise_cons.mp hn
    have hput := v.put_rd sat w x.1.1 x.1.2 x.2 hr (hf x (by simp)) hi n
    rw [show v.putAll sat w (x :: l) = v.putAll sat (v.put sat w x.1.1 x.1.2 x.2) l from rfl,
      ih (v.put sat w x.1.1 x.1.2 x.2) (by simpa [View.put, Warp.overtake] using hr) 
        (fun y hy => hf y (by simp [hy])) h2]
    by_cases hx : x.1.1 = n
    · have hnone : l.find? (fun y => y.1.1 == n) = none := by
        rw [List.find?_eq_none]
        intro y hy
        have := h1 y hy
        simpa [hx] using Ne.symm (hx ▸ this)
      rw [List.find?_cons, show (x.1.1 == n) = true by simpa using hx, hnone]
      simp only
      rw [hput]
      simp [hx]
    · simp only [List.find?_cons, show (x.1.1 == n) = false by simpa using hx]
      have : (v.put sat w x.1.1 x.1.2 x.2).rd n i = w.rd n i := by rw [hput]; simp [Ne.symm hx]
      rw [this]

/-- Registers that agree on the writes: the values of the rule's list and those of the statement. -/
theorem find_zip (n : Nat) (ws : List (Nat × TagRule)) (vals : List (List W32)) (fs : List (Nat → W32))
    (h : vals = fs.map perLane) :
    ((ws.zip vals).find? (fun x => x.1.1 == n)).map (fun x => x.2) =
      (((ws.map Prod.fst).zip fs).find? (fun x => x.1 == n)).map (fun x => perLane x.2) := by
  subst h
  induction ws generalizing fs with
  | nil => simp
  | cons a ws ih =>
    cases fs with
    | nil => simp
    | cons f fs =>
      simp only [List.map_cons, List.zip_cons_cons, List.find?_cons]
      split <;> simp_all

/-- The registers of the issuing warp after the writes of an instruction. -/
theorem outs_regs {v : View} {r : Req} {fs : List (Nat → W32)}
    (hf : ∀ x ∈ r.writes.zip (fs.map perLane), r.sat = true ∨ x.1.2.fits v.w v.act x.2)
    (hn : (r.writes.map Prod.fst).Nodup) :
    RegsAfter v ((r.writes.map Prod.fst).zip fs) (v.putAll r.sat v.w (r.writes.zip (fs.map perLane))) := by
  intro n l hl
  have hp : (r.writes.zip (fs.map perLane)).Pairwise (fun x y => x.1.1 ≠ y.1.1) := by
    have h1 : ((r.writes.zip (fs.map perLane)).map (fun x => x.1.1)).Nodup := by
      have : (r.writes.zip (fs.map perLane)).map (fun x => x.1.1) = ((r.writes.zip (fs.map perLane)).map Prod.fst).map Prod.fst := by
        simp
      rw [this]
      refine hn.sublist (List.Sublist.map _ ?_)
      generalize fs.map perLane = vs
      generalize r.writes = ws
      induction ws generalizing vs with
      | nil => simp
      | cons a ws ih =>
        cases vs with
        | nil => simp
        | cons b vs => simpa using ih vs
    exact List.pairwise_map.mp h1
  rw [putAll_rd v r.sat _ v.w rfl hf hp n l hl]
  have hz := find_zip n r.writes _ fs rfl
  have h32 := has_lt hl
  cases h1 : (r.writes.zip (fs.map perLane)).find? (fun x => x.1.1 == n) with
  | none =>
    rw [h1] at hz
    have h2 : ((r.writes.map Prod.fst).zip fs).find? (fun x => x.1 == n) = none := by
      simpa using hz.symm
    rw [h2]
  | some x =>
    rw [h1] at hz
    simp only [Option.map_some] at hz
    obtain ⟨y, h2, h3⟩ := Option.map_eq_some_iff.mp hz.symm
    rw [h2]
    simp only [← h3, nth_perLane _ _ h32]

/-- An instruction that writes words for every lane, and no more. -/
theorem computes_outs {i : Instr} {h : Hdr} (fs : View → List (Nat → W32)) (ds : View → List Nat)
    (he : ∀ s, exec i s = issue s h (reqOf i) (fun v s => .done (v.outs s (reqOf i v) ((fs v).map perLane))))
    (hd : ∀ v, (reqOf i v).writes.map Prod.fst = ds v) (hn : ∀ v, (ds v).Nodup)
    (hf : ∀ v, ∀ x ∈ (reqOf i v).writes.zip ((fs v).map perLane), (reqOf i v).sat = true ∨ x.1.2.fits v.w v.act x.2) :
    Computes i h (fun v => (ds v).zip (fs v)) := by
  intro s v hi
  obtain ⟨hv, hg, hcalm⟩ := hi
  have hw := (view_spec hv).2.2.2.1
  set w := v.putAll (reqOf i v).sat v.w ((reqOf i v).writes.zip ((fs v).map perLane)) with hwdef
  obtain ⟨rs, os, hk⟩ := putAll_keeps v (reqOf i v).sat ((reqOf i v).writes.zip ((fs v).map perLane)) v.w
  have hpass := issue_done (rq := reqOf i) (eff := fun v s => .done (v.outs s (reqOf i v) ((fs v).map perLane))) hv hg hcalm
    (s' := v.outs s (reqOf i v) ((fs v).map perLane)) rfl (w := w) (by simp [outs_eq, State.modWarp, hw, ← hwdef])
    (by rw [hwdef, hk])
  obtain ⟨t, ht, hp⟩ := hpass
  have hregs := outs_regs (fs := fs v) (hf v) (by rw [hd]; exact hn v)
  rw [hd, ← hwdef] at hregs
  have e : w = { v.w with regs := rs, ops := os } := hk
  refine ⟨t, { v.w with regs := rs }, (he s).trans ht, ?_, rfl, ?_⟩
  · have h1 := Passes.ops v.w.ops hp.modWarp
    rw [e] at h1
    exact h1
  · rw [e] at hregs
    exact hregs

/- When the values of a lane-wise function fit the rule of 04 R76. -/

theorem allU_rd {w : Warp} {rs : List Nat} (h : w.allU rs = true) {n : Nat} (hn : n ∈ rs) (l k : Nat) : w.rd n l = w.rd n k := by
  have ht : (w.reg n).tag = .u := by
    have := List.all_eq_true.mp h n hn
    simpa using this
  unfold Warp.rd
  cases hr : w.reg n with
  | u v => rfl
  | a b s => simp [hr, Reg.tag] at ht
  | g vs => simp [hr, Reg.tag] at ht

/-- A function of registers all tagged U gives one word. -/
theorem fits_gen {w : Warp} {srcs : List Nat} {act : Mask} {f : Nat → W32}
    (h : w.allU srcs = true → ∀ l k, l < 32 → k < 32 → f l = f k) : (TagRule.gen srcs).fits w act (perLane f) := by
  intro hu l k hl hk
  rw [nth_perLane _ _ (has_lt hl), nth_perLane _ _ (has_lt hk)]
  exact h hu l k (has_lt hl) (has_lt hk)

theorem fits_u {w : Warp} {act : Mask} {f : Nat → W32} (h : ∀ l k, l < 32 → k < 32 → f l = f k) : TagRule.u.fits w act (perLane f) := by
  intro l k hl hk
  rw [nth_perLane _ _ (has_lt hl), nth_perLane _ _ (has_lt hk)]
  exact h l k (has_lt hl) (has_lt hk)

theorem fits_affine {w : Warp} {b s : W32} {act : Mask} {f : Nat → W32} (h : ∀ l, l < 32 → f l = b + BitVec.ofNat 32 l * s) :
    (TagRule.affine b s).fits w act (perLane f) := by
  intro l hl
  rw [nth_perLane _ _ (has_lt hl)]
  exact h l (has_lt hl)

theorem fits_copy {w : Warp} {x : Reg} {act : Mask} {f : Nat → W32} (h : ∀ l, l < 32 → f l = x.lane l) :
    (TagRule.copy x).fits w act (perLane f) := by
  intro l hl
  rw [nth_perLane _ _ (has_lt hl)]
  exact h l (has_lt hl)

end Sys2Proof.Machine
end

