-- ==== Sys2Proof/Laws/PerInstr.lean ====
section
/-! SUPPORT. Decoding the words of a well-formed instruction gives it back (03 R47 to R64), one lemma for each row of
the opcode table. -/

namespace Sys2Proof.Laws.RoundTrip

/-- The decoder reads the instruction back from its words. A step of the machine has no word. -/
def Statement (i : Instr) : Prop := i.isWord = true → i.wf = true → decode (encode i) = .ok i

theorem nop (h) : Statement (.nop h) := by
  intro _ hw
  exact decode_encode_of (.base h 0x000 0 0 0 0 0) 0x000 rfl (by simp) (by decide) (by simp)
    ((Raw.row_000 _ (by simp)).trans (by simp [opt, Raw.bare, Raw.only])) hw

theorem bra (h off) : Statement (.bra h off) := by
  intro _ hw
  exact decode_encode_of ((Raw.base h 0x001 0 0 0 0 0).with96 off) 0x001 rfl (by simp) (by decide) (by simp)
    ((Raw.row_001 _ (by simp)).trans (by simp [opt, Raw.only])) hw

theorem brx (h a) : Statement (.brx h a) := by
  intro _ hw
  exact decode_encode_of (.base h 0x002 0 0 a 0 0) 0x002 rfl (by simp) (by decide) (by simp)
    ((Raw.row_002 _ (by simp)).trans (by simp [opt, Raw.only])) hw

theorem call (h off) : Statement (.call h off) := by
  intro _ hw
  exact decode_encode_of ((Raw.base h 0x003 0 0 0 0 0).with96 off) 0x003 rfl (by simp) (by decide) (by simp)
    ((Raw.row_003 _ (by simp)).trans (by simp [opt, Raw.only])) hw

theorem callx (h a) : Statement (.callx h a) := by
  intro _ hw
  exact decode_encode_of (.base h 0x004 0 0 a 0 0) 0x004 rfl (by simp) (by decide) (by simp)
    ((Raw.row_004 _ (by simp)).trans (by simp [opt, Raw.only])) hw

theorem ret (h) : Statement (.ret h) := by
  intro _ hw
  exact decode_encode_of (.base h 0x005 0 0 0 0 0) 0x005 rfl (by simp) (by decide) (by simp)
    ((Raw.row_005 _ (by simp)).trans (by simp [opt, Raw.bare, Raw.only])) hw

theorem exit (h) : Statement (.exit h) := by
  intro _ hw
  exact decode_encode_of (.base h 0x006 0 0 0 0 0) 0x006 rfl (by simp) (by decide) (by simp)
    ((Raw.row_006 _ (by simp)).trans (by simp [opt, Raw.bare, Raw.only])) hw

theorem rep (cnt sd sa sb sc) : Statement (.rep cnt sd sa sb sc) := by
  intro _ hw
  obtain ⟨h1, h2, h3, h4, h5, h6, h7⟩ := rep_code cnt sd sa sb sc
  exact decode_encode_of ⟨0, 0, 0, w9 sc, sb ++ sa ++ sd, 0, 0#1 ++ cnt.extractLsb' 1 3, cnt.extractLsb' 0 1, 15, 0x007, 0, 0⟩
    0x007 rfl rfl (by decide) rfl ((Raw.row_007 _ rfl).trans (by simp [opt, Raw.is64, h1, h2, h3, h4, h5, h6, h7])) hw

theorem trap (h k) : Statement (.trap h k) := by
  intro _ hw
  exact decode_encode_of (.base h 0x008 0 0 0 k 0) 0x008 rfl (by simp) (by decide) (by simp)
    ((Raw.row_008 _ (by simp)).trans (by simp [opt, Raw.only])) hw

theorem bkpt (h k) : Statement (.bkpt h k) := by
  intro _ hw
  exact decode_encode_of (.base h 0x009 0 0 0 k 0) 0x009 rfl (by simp) (by decide) (by simp)
    ((Raw.row_009 _ (by simp)).trans (by simp [opt, Raw.only])) hw

theorem isync (h) : Statement (.isync h) := by
  intro _ hw
  exact decode_encode_of (.base h 0x00A 0 0 0 0 0) 0x00A rfl (by simp) (by decide) (by simp)
    ((Raw.row_00A _ (by simp)).trans (by simp [opt, Raw.bare, Raw.only])) hw

theorem nap (h b) : Statement (.nap h b) := by
  intro _ hw
  exact decode_encode_of ((Raw.base h 0x00B 0 0 0 0 0).putI b) 0x00B rfl (by simp) (by decide) (by simp)
    ((Raw.row_00B _ (by simp)).trans (by simp [opt, Raw.only])) hw

theorem yield (h) : Statement (.yield h) := by
  intro _ hw
  exact decode_encode_of (.base h 0x00C 0 0 0 0 0) 0x00C rfl (by simp) (by decide) (by simp)
    ((Raw.row_00C _ (by simp)).trans (by simp [opt, Raw.bare, Raw.only])) hw

theorem resume (h) : Statement (.resume h) := by
  intro _ hw
  exact decode_encode_of (.base h 0x00D 0 0 0 0 0) 0x00D rfl (by simp) (by decide) (by simp)
    ((Raw.row_00D _ (by simp)).trans (by simp [opt, Raw.bare, Raw.only])) hw

theorem tret (h) : Statement (.tret h) := by
  intro _ hw
  exact decode_encode_of (.base h 0x00E 0 0 0 0 0) 0x00E rfl (by simp) (by decide) (by simp)
    ((Raw.row_00E _ (by simp)).trans (by simp [opt, Raw.bare, Raw.only])) hw

theorem srd (h d s) : Statement (.srd h d s) := by
  intro _ hw
  exact decode_encode_of (.base h 0x00F 0 d s.num 0 0) 0x00F rfl (by simp) (by decide) (by simp)
    ((Raw.row_00F _ (by simp)).trans (by simp [opt, Raw.only])) hw

theorem swr (h s a) : Statement (.swr h s a) := by
  intro _ hw
  exact decode_encode_of (.base h 0x010 0 s.num a 0 0) 0x010 rfl (by simp) (by decide) (by simp)
    ((Raw.row_010 _ (by simp)).trans (by simp [opt, Raw.only])) hw

theorem iadd (h m d a b) : Statement (.iadd h m d a b) := by
  intro _ hw
  exact decode_encode_of ((Raw.base h 0x040 m.enc d a 0 0).putI b) 0x040 rfl (by simp) (by decide) (by simp)
    ((Raw.row_040 _ (by simp)).trans (by simp [opt, Raw.intI])) hw

theorem isub (h m d a b) : Statement (.isub h m d a b) := by
  intro _ hw
  exact decode_encode_of ((Raw.base h 0x041 m.enc d a 0 0).putI b) 0x041 rfl (by simp) (by decide) (by simp)
    ((Raw.row_041 _ (by simp)).trans (by simp [opt, Raw.intI])) hw

theorem iaddc (h u d a b p) : Statement (.iaddc h u d a b p) := by
  intro _ hw
  exact decode_encode_of ((Raw.base h 0x042 (IntM.enc ⟨false, u⟩) d a 0 (w9 p)).putI b) 0x042 rfl (by simp) (by decide) (by simp)
    ((Raw.row_042 _ (by simp)).trans (by simp [opt])) hw

theorem ineg (h s d a) : Statement (.ineg h s d a) := by
  intro _ hw
  exact decode_encode_of (.base h 0x043 (IntM.enc ⟨s, false⟩) d a 0 0) 0x043 rfl (by simp) (by decide) (by simp)
    ((Raw.row_043 _ (by simp)).trans (by simp [opt, Raw.intSat, Raw.only])) hw

theorem iabs (h s d a) : Statement (.iabs h s d a) := by
  intro _ hw
  exact decode_encode_of (.base h 0x044 (IntM.enc ⟨s, false⟩) d a 0 0) 0x044 rfl (by simp) (by decide) (by simp)
    ((Raw.row_044 _ (by simp)).trans (by simp [opt, Raw.intSat, Raw.only])) hw

theorem imul (h m d a b) : Statement (.imul h m d a b) := by
  intro _ hw
  exact decode_encode_of ((Raw.base h 0x045 m.enc d a 0 0).putI b) 0x045 rfl (by simp) (by decide) (by simp)
    ((Raw.row_045 _ (by simp)).trans (by simp [opt, Raw.intI])) hw

theorem imulh (h u d a b) : Statement (.imulh h u d a b) := by
  intro _ hw
  exact decode_encode_of ((Raw.base h 0x046 (IntM.enc ⟨false, u⟩) d a 0 0).putI b) 0x046 rfl (by simp) (by decide) (by simp)
    ((Raw.row_046 _ (by simp)).trans (by simp [opt, Raw.intU])) hw

theorem imad (h m d a b c) : Statement (.imad h m d a b c) := by
  intro _ hw
  exact decode_encode_of ((Raw.base h 0x047 m.enc d a 0 c).putI b) 0x047 rfl (by simp) (by decide) (by simp)
    ((Raw.row_047 _ (by simp)).trans (by simp [Raw.intIC])) hw

theorem imadw (h m d a b c) : Statement (.imadw h m d a b c) := by
  intro _ hw
  exact decode_encode_of ((Raw.base h 0x048 m.enc d a 0 c).putI b) 0x048 rfl (by simp) (by decide) (by simp)
    ((Raw.row_048 _ (by simp)).trans (by simp [Raw.intIC])) hw

theorem iadd64 (h m d a b) : Statement (.iadd64 h m d a b) := by
  intro _ hw
  exact decode_encode_of ((Raw.base h 0x049 m.enc d a 0 0).putI b) 0x049 rfl (by simp) (by decide) (by simp)
    ((Raw.row_049 _ (by simp)).trans (by simp [opt, Raw.intI])) hw

theorem isub64 (h m d a b) : Statement (.isub64 h m d a b) := by
  intro _ hw
  exact decode_encode_of ((Raw.base h 0x04A m.enc d a 0 0).putI b) 0x04A rfl (by simp) (by decide) (by simp)
    ((Raw.row_04A _ (by simp)).trans (by simp [opt, Raw.intI])) hw

theorem imul64 (h m d a b) : Statement (.imul64 h m d a b) := by
  intro _ hw
  exact decode_encode_of (.base h 0x04B m.enc d a b 0) 0x04B rfl (by simp) (by decide) (by simp)
    ((Raw.row_04B _ (by simp)).trans (by simp [opt])) hw

theorem imin (h u d a b) : Statement (.imin h u d a b) := by
  intro _ hw
  exact decode_encode_of ((Raw.base h 0x04C (IntM.enc ⟨false, u⟩) d a 0 0).putI b) 0x04C rfl (by simp) (by decide) (by simp)
    ((Raw.row_04C _ (by simp)).trans (by simp [opt, Raw.intU])) hw

theorem imax (h u d a b) : Statement (.imax h u d a b) := by
  intro _ hw
  exact decode_encode_of ((Raw.base h 0x04D (IntM.enc ⟨false, u⟩) d a 0 0).putI b) 0x04D rfl (by simp) (by decide) (by simp)
    ((Raw.row_04D _ (by simp)).trans (by simp [opt, Raw.intU])) hw

theorem isad (h m d a b c) : Statement (.isad h m d a b c) := by
  intro _ hw
  exact decode_encode_of ((Raw.base h 0x04E m.enc d a 0 c).putI b) 0x04E rfl (by simp) (by decide) (by simp)
    ((Raw.row_04E _ (by simp)).trans (by simp [Raw.intIC])) hw

theorem idot4 (h m bn d a b c) : Statement (.idot4 h m bn d a b c) := by
  intro _ hw
  exact decode_encode_of (.base h 0x04F (dotEnc m bn) d a b c) 0x04F rfl (by simp) (by decide) (by simp)
    ((Raw.row_04F _ (by simp)).trans (by simp [opt, Raw.dot])) hw

theorem idot2 (h m bn d a b c) : Statement (.idot2 h m bn d a b c) := by
  intro _ hw
  exact decode_encode_of (.base h 0x050 (dotEnc m bn) d a b c) 0x050 rfl (by simp) (by decide) (by simp)
    ((Raw.row_050 _ (by simp)).trans (by simp [opt, Raw.dot])) hw

theorem lea (h sh d a b) : Statement (.lea h sh d a b) := by
  intro _ hw
  exact decode_encode_of ((Raw.base h 0x051 (0#2 ++ sh) d a 0 0).putI b) 0x051 rfl (by simp) (by decide) (by simp)
    ((Raw.row_051 _ (by simp)).trans (by simp [opt, lea_code])) hw

theorem lea64 (h u sh d a b) : Statement (.lea64 h u sh d a b) := by
  intro _ hw
  exact decode_encode_of ((Raw.base h 0x052 (0#1 ++ Bool.bit u ++ sh) d a 0 0).putI b) 0x052 rfl (by simp) (by decide) (by simp)
    ((Raw.row_052 _ (by simp)).trans (by simp [opt, lea64_code])) hw

theorem lgate (h d a b c t) : Statement (.lgate h d a b c t) := by
  intro _ hw
  exact decode_encode_of ((Raw.base h 0x080 0 d a b c).with96 (t.setWidth 32)) 0x080 rfl (by simp) (by decide) (by simp)
    ((Raw.row_080 _ (by simp)).trans (by simp [opt, table_code])) hw

theorem shl (h d a b) : Statement (.shl h d a b) := by
  intro _ hw
  exact decode_encode_of ((Raw.base h 0x081 0 d a 0 0).putI b) 0x081 rfl (by simp) (by decide) (by simp)
    ((Raw.row_081 _ (by simp)).trans (by simp [opt, Raw.plainI])) hw

theorem shr (h d a b) : Statement (.shr h d a b) := by
  intro _ hw
  exact decode_encode_of ((Raw.base h 0x082 0 d a 0 0).putI b) 0x082 rfl (by simp) (by decide) (by simp)
    ((Raw.row_082 _ (by simp)).trans (by simp [opt, Raw.plainI])) hw

theorem sar (h d a b) : Statement (.sar h d a b) := by
  intro _ hw
  exact decode_encode_of ((Raw.base h 0x083 0 d a 0 0).putI b) 0x083 rfl (by simp) (by decide) (by simp)
    ((Raw.row_083 _ (by simp)).trans (by simp [opt, Raw.plainI])) hw

theorem rotl (h d a b) : Statement (.rotl h d a b) := by
  intro _ hw
  exact decode_encode_of ((Raw.base h 0x084 0 d a 0 0).putI b) 0x084 rfl (by simp) (by decide) (by simp)
    ((Raw.row_084 _ (by simp)).trans (by simp [opt, Raw.plainI])) hw

theorem shf (h r d a b c) : Statement (.shf h r d a b c) := by
  intro _ hw
  exact decode_encode_of ((Raw.base h 0x085 (mflagEnc r) d a 0 c).putI b) 0x085 rfl (by simp) (by decide) (by simp)
    ((Raw.row_085 _ (by simp)).trans (by simp)) hw

theorem popc (h d a) : Statement (.popc h d a) := by
  intro _ hw
  exact decode_encode_of (.base h 0x086 0 d a 0 0) 0x086 rfl (by simp) (by decide) (by simp)
    ((Raw.row_086 _ (by simp)).trans (by simp [opt, Raw.plainDA, Raw.only])) hw

theorem clz (h d a) : Statement (.clz h d a) := by
  intro _ hw
  exact decode_encode_of (.base h 0x087 0 d a 0 0) 0x087 rfl (by simp) (by decide) (by simp)
    ((Raw.row_087 _ (by simp)).trans (by simp [opt, Raw.plainDA, Raw.only])) hw

theorem ctz (h d a) : Statement (.ctz h d a) := by
  intro _ hw
  exact decode_encode_of (.base h 0x088 0 d a 0 0) 0x088 rfl (by simp) (by decide) (by simp)
    ((Raw.row_088 _ (by simp)).trans (by simp [opt, Raw.plainDA, Raw.only])) hw

theorem brev (h d a) : Statement (.brev h d a) := by
  intro _ hw
  exact decode_encode_of (.base h 0x089 0 d a 0 0) 0x089 rfl (by simp) (by decide) (by simp)
    ((Raw.row_089 _ (by simp)).trans (by simp [opt, Raw.plainDA, Raw.only])) hw

theorem bfe (h u d a b) : Statement (.bfe h u d a b) := by
  intro _ hw
  exact decode_encode_of ((Raw.base h 0x08A (ftzEnc u) d a 0 0).putI b) 0x08A rfl (by simp) (by decide) (by simp)
    ((Raw.row_08A _ (by simp)).trans (by simp [opt])) hw

theorem bfi (h d a b c) : Statement (.bfi h d a b c) := by
  intro _ hw
  exact decode_encode_of ((Raw.base h 0x08B 0 d a 0 c).putI b) 0x08B rfl (by simp) (by decide) (by simp)
    ((Raw.row_08B _ (by simp)).trans (by simp [opt, Raw.plainIC])) hw

theorem prmt (h d a b c) : Statement (.prmt h d a b c) := by
  intro _ hw
  exact decode_encode_of ((Raw.base h 0x08C 0 d a 0 c).putI b) 0x08C rfl (by simp) (by decide) (by simp)
    ((Raw.row_08C _ (by simp)).trans (by simp [opt, Raw.plainIC])) hw

theorem clmul (h d a b) : Statement (.clmul h d a b) := by
  intro _ hw
  exact decode_encode_of (.base h 0x08D 0 d a b 0) 0x08D rfl (by simp) (by decide) (by simp)
    ((Raw.row_08D _ (by simp)).trans (by simp [opt, Raw.plainDAB, Raw.only])) hw

theorem clmulh (h d a b) : Statement (.clmulh h d a b) := by
  intro _ hw
  exact decode_encode_of (.base h 0x08E 0 d a b 0) 0x08E rfl (by simp) (by decide) (by simp)
    ((Raw.row_08E _ (by simp)).trans (by simp [opt, Raw.plainDAB, Raw.only])) hw

theorem clmulw (h d a b) : Statement (.clmulw h d a b) := by
  intro _ hw
  exact decode_encode_of (.base h 0x08F 0 d a b 0) 0x08F rfl (by simp) (by decide) (by simp)
    ((Raw.row_08F _ (by simp)).trans (by simp [opt, Raw.plainDAB, Raw.only])) hw

theorem isetp (h c p a b) : Statement (.isetp h c p a b) := by
  intro _ hw
  exact decode_encode_of ((Raw.base h 0x0C0 c.enc (w9 p) a 0 0).putI b) 0x0C0 rfl (by simp) (by decide) (by simp)
    ((Raw.row_0C0 _ (by simp)).trans (by simp [opt])) hw

theorem fsetp (h c p a b x) : Statement (.fsetp h c p a b x) := by
  intro _ hw
  exact decode_encode_of ((Raw.base h 0x0C1 c.enc (w9 p) a b 0).putX x) 0x0C1 rfl (by simp) (by decide) (by simp)
    ((Raw.row_0C1 _ (by simp)).trans (by simp [opt, Raw.cmpX])) hw

theorem dsetp (h c p a b x) : Statement (.dsetp h c p a b x) := by
  intro _ hw
  exact decode_encode_of ((Raw.base h 0x0C2 c.enc (w9 p) a b 0).putX x) 0x0C2 rfl (by simp) (by decide) (by simp)
    ((Raw.row_0C2 _ (by simp)).trans (by simp [opt, Raw.cmpX])) hw

theorem pgate (h pd pa pb pc t) : Statement (.pgate h pd pa pb pc t) := by
  intro _ hw
  exact decode_encode_of ((Raw.base h 0x0C3 0 (w9 pd) (w9 pa) (w9 pb) (w9 pc)).with96 (t.setWidth 32)) 0x0C3 rfl (by simp) (by decide) (by simp)
    ((Raw.row_0C3 _ (by simp)).trans (by simp [opt, table_code])) hw

theorem sel (h d a b p) : Statement (.sel h d a b p) := by
  intro _ hw
  exact decode_encode_of ((Raw.base h 0x0C4 0 d a 0 (w9 p)).putI b) 0x0C4 rfl (by simp) (by decide) (by simp)
    ((Raw.row_0C4 _ (by simp)).trans (by simp [opt])) hw

theorem p2v (h d) : Statement (.p2v h d) := by
  intro _ hw
  exact decode_encode_of (.base h 0x0C5 0 d 0 0 0) 0x0C5 rfl (by simp) (by decide) (by simp)
    ((Raw.row_0C5 _ (by simp)).trans (by simp [opt, Raw.only])) hw

theorem v2p (h a b) : Statement (.v2p h a b) := by
  intro _ hw
  exact decode_encode_of ((Raw.base h 0x0C6 0 0 a 0 0).putI b) 0x0C6 rfl (by simp) (by decide) (by simp)
    ((Raw.row_0C6 _ (by simp)).trans (by simp [opt, Raw.only])) hw

theorem mov (h d a) : Statement (.mov h d a) := by
  intro _ hw
  exact decode_encode_of (.base h 0x0C7 0 d a 0 0) 0x0C7 rfl (by simp) (by decide) (by simp)
    ((Raw.row_0C7 _ (by simp)).trans (by simp [opt, Raw.plainDA, Raw.only])) hw

theorem movi (h d v) : Statement (.movi h d v) := by
  intro _ hw
  exact decode_encode_of ((Raw.base h 0x0C8 0 d 0 0 0).with96 v) 0x0C8 rfl (by simp) (by decide) (by simp)
    ((Raw.row_0C8 _ (by simp)).trans (by simp [opt, Raw.only])) hw

theorem mov64i (h d v) : Statement (.mov64i h d v) := by
  intro _ hw
  exact decode_encode_of ((Raw.base h 0x0C9 0 d 0 0 0).with128 v) 0x0C9 rfl (by simp) (by decide) (by simp)
    ((Raw.row_0C9 _ (by simp)).trans (by simp [opt, Raw.only])) hw

theorem fadd (h r d a b x) : Statement (.fadd h r d a b x) := by
  intro _ hw
  have hf := hw; simp [Instr.wf] at hf
  exact decode_encode_of ((Raw.base h 0x100 r.enc d a 0 0).putXW b x) 0x100 rfl (by simp) (by decide) (by simp)
    ((Raw.row_100 _ (by simp)).trans (by simp [opt, Raw.rndXW, hf])) hw

theorem fsub (h r d a b x) : Statement (.fsub h r d a b x) := by
  intro _ hw
  have hf := hw; simp [Instr.wf] at hf
  exact decode_encode_of ((Raw.base h 0x101 r.enc d a 0 0).putXW b x) 0x101 rfl (by simp) (by decide) (by simp)
    ((Raw.row_101 _ (by simp)).trans (by simp [opt, Raw.rndXW, hf])) hw

theorem fmul (h r d a b x) : Statement (.fmul h r d a b x) := by
  intro _ hw
  have hf := hw; simp [Instr.wf] at hf
  exact decode_encode_of ((Raw.base h 0x102 r.enc d a 0 0).putXW b x) 0x102 rfl (by simp) (by decide) (by simp)
    ((Raw.row_102 _ (by simp)).trans (by simp [opt, Raw.rndXW, hf])) hw

theorem ffma (h r d a b c x) : Statement (.ffma h r d a b c x) := by
  intro _ hw
  have hf := hw; simp [Instr.wf] at hf
  exact decode_encode_of ((Raw.base h 0x103 r.enc d a 0 c).putXW b x) 0x103 rfl (by simp) (by decide) (by simp)
    ((Raw.row_103 _ (by simp)).trans (by simp [Raw.rndXWC, hf])) hw

theorem fmin (h d a b x) : Statement (.fmin h d a b x) := by
  intro _ hw
  have hf := hw; simp [Instr.wf] at hf
  exact decode_encode_of ((Raw.base h 0x104 0 d a 0 0).putXW b x) 0x104 rfl (by simp) (by decide) (by simp)
    ((Raw.row_104 _ (by simp)).trans (by simp [opt, Raw.plainXW, hf])) hw

theorem fmax (h d a b x) : Statement (.fmax h d a b x) := by
  intro _ hw
  have hf := hw; simp [Instr.wf] at hf
  exact decode_encode_of ((Raw.base h 0x105 0 d a 0 0).putXW b x) 0x105 rfl (by simp) (by decide) (by simp)
    ((Raw.row_105 _ (by simp)).trans (by simp [opt, Raw.plainXW, hf])) hw

theorem frnd (h r d a x) : Statement (.frnd h r d a x) := by
  intro _ hw
  exact decode_encode_of ((Raw.base h 0x106 r.enc d a 0 0).putX x) 0x106 rfl (by simp) (by decide) (by simp)
    ((Raw.row_106 _ (by simp)).trans (by simp [opt, Raw.only])) hw

theorem fclass (h d a) : Statement (.fclass h d a) := by
  intro _ hw
  exact decode_encode_of (.base h 0x107 0 d a 0 0) 0x107 rfl (by simp) (by decide) (by simp)
    ((Raw.row_107 _ (by simp)).trans (by simp [opt, Raw.plainDA, Raw.only])) hw

theorem fexp (h d a) : Statement (.fexp h d a) := by
  intro _ hw
  exact decode_encode_of (.base h 0x108 0 d a 0 0) 0x108 rfl (by simp) (by decide) (by simp)
    ((Raw.row_108 _ (by simp)).trans (by simp [opt, Raw.plainDA, Raw.only])) hw

theorem fldexp (h r d a b x) : Statement (.fldexp h r d a b x) := by
  intro _ hw
  have hf := hw; simp [Instr.wf] at hf
  exact decode_encode_of ((Raw.base h 0x109 r.enc d a 0 0).putXW b x) 0x109 rfl (by simp) (by decide) (by simp)
    ((Raw.row_109 _ (by simp)).trans (by simp [opt, Raw.rndXW, hf])) hw

theorem hadd2 (h r d a b x) : Statement (.hadd2 h r d a b x) := by
  intro _ hw
  have hf := hw; simp [Instr.wf] at hf
  exact decode_encode_of ((Raw.base h 0x10A r.enc d a 0 0).putXW b x) 0x10A rfl (by simp) (by decide) (by simp)
    ((Raw.row_10A _ (by simp)).trans (by simp [opt, Raw.rndXW, hf])) hw

theorem hmul2 (h r d a b x) : Statement (.hmul2 h r d a b x) := by
  intro _ hw
  have hf := hw; simp [Instr.wf] at hf
  exact decode_encode_of ((Raw.base h 0x10B r.enc d a 0 0).putXW b x) 0x10B rfl (by simp) (by decide) (by simp)
    ((Raw.row_10B _ (by simp)).trans (by simp [opt, Raw.rndXW, hf])) hw

theorem hfma2 (h r d a b c x) : Statement (.hfma2 h r d a b c x) := by
  intro _ hw
  have hf := hw; simp [Instr.wf] at hf
  exact decode_encode_of ((Raw.base h 0x10C r.enc d a 0 c).putXW b x) 0x10C rfl (by simp) (by decide) (by simp)
    ((Raw.row_10C _ (by simp)).trans (by simp [Raw.rndXWC, hf])) hw

theorem bfma2 (h r d a b c x) : Statement (.bfma2 h r d a b c x) := by
  intro _ hw
  have hf := hw; simp [Instr.wf] at hf
  exact decode_encode_of ((Raw.base h 0x10D r.enc d a 0 c).putXW b x) 0x10D rfl (by simp) (by decide) (by simp)
    ((Raw.row_10D _ (by simp)).trans (by simp [Raw.rndXWC, hf])) hw

theorem dadd (h r d a b x) : Statement (.dadd h r d a b x) := by
  intro _ hw
  exact decode_encode_of ((Raw.base h 0x140 r.enc d a b 0).putX x) 0x140 rfl (by simp) (by decide) (by simp)
    ((Raw.row_140 _ (by simp)).trans (by simp [opt, Raw.rndX])) hw

theorem dmul (h r d a b x) : Statement (.dmul h r d a b x) := by
  intro _ hw
  exact decode_encode_of ((Raw.base h 0x141 r.enc d a b 0).putX x) 0x141 rfl (by simp) (by decide) (by simp)
    ((Raw.row_141 _ (by simp)).trans (by simp [opt, Raw.rndX])) hw

theorem dfma (h r d a b c x) : Statement (.dfma h r d a b c x) := by
  intro _ hw
  exact decode_encode_of ((Raw.base h 0x142 r.enc d a b c).putX x) 0x142 rfl (by simp) (by decide) (by simp)
    ((Raw.row_142 _ (by simp)).trans (by simp)) hw

theorem dmin (h d a b x) : Statement (.dmin h d a b x) := by
  intro _ hw
  exact decode_encode_of ((Raw.base h 0x143 0 d a b 0).putX x) 0x143 rfl (by simp) (by decide) (by simp)
    ((Raw.row_143 _ (by simp)).trans (by simp [opt, Raw.plainX])) hw

theorem dmax (h d a b x) : Statement (.dmax h d a b x) := by
  intro _ hw
  exact decode_encode_of ((Raw.base h 0x144 0 d a b 0).putX x) 0x144 rfl (by simp) (by decide) (by simp)
    ((Raw.row_144 _ (by simp)).trans (by simp [opt, Raw.plainX])) hw

theorem frcp (h f d a x) : Statement (.frcp h f d a x) := by
  intro _ hw
  exact decode_encode_of ((Raw.base h 0x145 (ftzEnc f) d a 0 0).putX x) 0x145 rfl (by simp) (by decide) (by simp)
    ((Raw.row_145 _ (by simp)).trans (by simp [opt, Raw.ftzX, Raw.only])) hw

theorem frsq (h f d a x) : Statement (.frsq h f d a x) := by
  intro _ hw
  exact decode_encode_of ((Raw.base h 0x146 (ftzEnc f) d a 0 0).putX x) 0x146 rfl (by simp) (by decide) (by simp)
    ((Raw.row_146 _ (by simp)).trans (by simp [opt, Raw.ftzX, Raw.only])) hw

theorem fsqrt (h f d a x) : Statement (.fsqrt h f d a x) := by
  intro _ hw
  exact decode_encode_of ((Raw.base h 0x147 (ftzEnc f) d a 0 0).putX x) 0x147 rfl (by simp) (by decide) (by simp)
    ((Raw.row_147 _ (by simp)).trans (by simp [opt, Raw.ftzX, Raw.only])) hw

theorem fex2 (h f d a x) : Statement (.fex2 h f d a x) := by
  intro _ hw
  exact decode_encode_of ((Raw.base h 0x148 (ftzEnc f) d a 0 0).putX x) 0x148 rfl (by simp) (by decide) (by simp)
    ((Raw.row_148 _ (by simp)).trans (by simp [opt, Raw.ftzX, Raw.only])) hw

theorem flg2 (h f d a x) : Statement (.flg2 h f d a x) := by
  intro _ hw
  exact decode_encode_of ((Raw.base h 0x149 (ftzEnc f) d a 0 0).putX x) 0x149 rfl (by simp) (by decide) (by simp)
    ((Raw.row_149 _ (by simp)).trans (by simp [opt, Raw.ftzX, Raw.only])) hw

theorem cvt (h r dt sty na aa d a) : Statement (.cvt h r dt sty na aa d a) := by
  intro _ hw
  exact decode_encode_of ((Raw.base h 0x180 r.enc d a 0 0).with96 (typesX na aa dt.enc sty.enc 0)) 0x180 rfl (by simp) (by decide) (by simp)
    ((Raw.row_180 _ (by simp)).trans (by simp [opt, Raw.only, typesX_code])) hw

theorem cvtn (h r sty f na aa d a) : Statement (.cvtn h r sty f na aa d a) := by
  intro _ hw
  exact decode_encode_of ((Raw.base h 0x181 r.enc d a 0 0).with96 (typesX na aa 12 sty.enc (slotX f))) 0x181 rfl (by simp) (by decide) (by simp)
    ((Raw.row_181 _ (by simp)).trans (by simp [opt, Raw.only, typesX_code, typesX_four, slotX_code])) hw

theorem cvtw (h r dt f d a) : Statement (.cvtw h r dt f d a) := by
  intro _ hw
  exact decode_encode_of ((Raw.base h 0x182 r.enc d a 0 0).with96 (typesX false false dt.enc 12 (slotX f))) 0x182 rfl (by simp) (by decide) (by simp)
    ((Raw.row_182 _ (by simp)).trans (by simp [opt, Raw.only, typesX_code, typesX_none, typesX_four, slotX_code])) hw

theorem pack4 (h w d a) : Statement (.pack4 h w d a) := by
  intro _ hw
  exact decode_encode_of (.base h 0x183 (mflagEnc w) d a 0 0) 0x183 rfl (by simp) (by decide) (by simp)
    ((Raw.row_183 _ (by simp)).trans (by simp [opt, Raw.only])) hw

theorem unpack4 (h w d a) : Statement (.unpack4 h w d a) := by
  intro _ hw
  exact decode_encode_of (.base h 0x184 (mflagEnc w) d a 0 0) 0x184 rfl (by simp) (by decide) (by simp)
    ((Raw.row_184 _ (by simp)).trans (by simp [opt, Raw.only])) hw

theorem shfl (h m d a b) : Statement (.shfl h m d a b) := by
  intro _ hw
  exact decode_encode_of ((Raw.base h 0x1C0 m.enc d a 0 0).putI b) 0x1C0 rfl (by simp) (by decide) (by simp)
    ((Raw.row_1C0 _ (by simp)).trans (by simp [opt]; cases m <;> rfl)) hw

theorem vote (h m d p) : Statement (.vote h m d p) := by
  intro _ hw
  exact decode_encode_of (.base h 0x1C1 m.enc d (w9 p) 0 0) 0x1C1 rfl (by simp) (by decide) (by simp)
    ((Raw.row_1C1 _ (by simp)).trans (by simp [opt, Raw.only]; cases m <;> rfl)) hw

theorem redw (h op d a) : Statement (.redw h op d a) := by
  intro _ hw
  exact decode_encode_of (.base h 0x1C2 op.enc d a 0 0) 0x1C2 rfl (by simp) (by decide) (by simp)
    ((Raw.row_1C2 _ (by simp)).trans (by simp [opt, Raw.only])) hw

theorem scanw (h op ex d a) : Statement (.scanw h op ex d a) := by
  intro _ hw
  exact decode_encode_of (.base h 0x1C3 op.enc d a 0 (flagEnc ex)) 0x1C3 rfl (by simp) (by decide) (by simp)
    ((Raw.row_1C3 _ (by simp)).trans (by simp [opt])) hw

theorem matchv (h all d a) : Statement (.matchv h all d a) := by
  intro _ hw
  exact decode_encode_of (.base h 0x1C4 (mflagEnc all) d a 0 0) 0x1C4 rfl (by simp) (by decide) (by simp)
    ((Raw.row_1C4 _ (by simp)).trans (by simp [opt, Raw.only])) hw

theorem active (h d) : Statement (.active h d) := by
  intro _ hw
  exact decode_encode_of (.base h 0x1C5 0 d 0 0 0) 0x1C5 rfl (by simp) (by decide) (by simp)
    ((Raw.row_1C5 _ (by simp)).trans (by simp [opt, Raw.only])) hw

theorem wsync (h b) : Statement (.wsync h b) := by
  intro _ hw
  exact decode_encode_of ((Raw.base h 0x1C6 0 0 0 0 0).putI b) 0x1C6 rfl (by simp) (by decide) (by simp)
    ((Raw.row_1C6 _ (by simp)).trans (by simp [opt, Raw.only])) hw

theorem ld (h m d a off x) : Statement (.ld h m d a off x) := by
  intro _ hw
  have hf := hw; simp [Instr.wf] at hf
  exact decode_encode_of ((Raw.base h 0x200 m.enc d a 0 0).putOffW off x) 0x200 rfl (by simp) (by decide) (by simp)
    ((Raw.row_200 _ (by simp)).trans (by simp [opt, Raw.only, hf])) hw

theorem st (h w a b cm off x) : Statement (.st h w a b cm off x) := by
  intro _ hw
  have hf := hw; simp [Instr.wf] at hf
  exact decode_encode_of ((Raw.base h 0x201 (mwEnc w) 0 a b (w9 cm)).putOffW off x) 0x201 rfl (by simp) (by decide) (by simp)
    ((Raw.row_201 _ (by simp)).trans (by simp [opt, hf])) hw

theorem lds (h m d a off) : Statement (.lds h m d a off) := by
  intro _ hw
  exact decode_encode_of ((Raw.base h 0x202 m.enc d a 0 0).putOff off) 0x202 rfl (by simp) (by decide) (by simp)
    ((Raw.row_202 _ (by simp)).trans (by simp [opt, Raw.only])) hw

theorem sts (h w a b off) : Statement (.sts h w a b off) := by
  intro _ hw
  exact decode_encode_of ((Raw.base h 0x203 (mwEnc w) 0 a b 0).putOff off) 0x203 rfl (by simp) (by decide) (by simp)
    ((Raw.row_203 _ (by simp)).trans (by simp [opt, Raw.only])) hw

theorem stx (h w a b off x) : Statement (.stx h w a b off x) := by
  intro _ hw
  have hf := hw; simp [Instr.wf] at hf
  exact decode_encode_of ((Raw.base h 0x204 (mwEnc w) 0 a b 0).putOffW off x) 0x204 rfl (by simp) (by decide) (by simp)
    ((Raw.row_204 _ (by simp)).trans (by simp [opt, Raw.only, hf])) hw

theorem pref (h a off) : Statement (.pref h a off) := by
  intro _ hw
  exact decode_encode_of ((Raw.base h 0x205 0 0 a 0 0).putOff off) 0x205 rfl (by simp) (by decide) (by simp)
    ((Raw.row_205 _ (by simp)).trans (by simp [opt, Raw.lineI, Raw.only])) hw

theorem cctl (h m a off) : Statement (.cctl h m a off) := by
  intro _ hw
  exact decode_encode_of ((Raw.base h 0x206 m.enc 0 a 0 0).putOff off) 0x206 rfl (by simp) (by decide) (by simp)
    ((Raw.row_206 _ (by simp)).trans (by simp [opt, Raw.only]; cases m <;> rfl)) hw

theorem icinv (h a off) : Statement (.icinv h a off) := by
  intro _ hw
  exact decode_encode_of ((Raw.base h 0x207 0 0 a 0 0).putOff off) 0x207 rfl (by simp) (by decide) (by simp)
    ((Raw.row_207 _ (by simp)).trans (by simp [opt, Raw.lineI, Raw.only])) hw

theorem atom (h op d a b off x) : Statement (.atom h op d a b off x) := by
  intro _ hw
  have hf := hw; simp [Instr.wf] at hf
  exact decode_encode_of ((Raw.base h 0x240 op.enc d a b 0).putOffW off x) 0x240 rfl (by simp) (by decide) (by simp)
    ((Raw.row_240 _ (by simp)).trans (by simp [opt, hf])) hw

theorem atomc (h dbl d a b c off x) : Statement (.atomc h dbl d a b c off x) := by
  intro _ hw
  have hf := hw; simp [Instr.wf] at hf
  exact decode_encode_of ((Raw.base h 0x241 (if dbl then 3 else 2) d a b c).putOffW off x) 0x241 rfl (by simp) (by decide) (by simp)
    ((Raw.row_241 _ (by simp)).trans (by simp [hf]; cases dbl <;> simp)) hw

theorem red (h op a b off x) : Statement (.red h op a b off x) := by
  intro _ hw
  have hf := hw; simp [Instr.wf] at hf
  exact decode_encode_of ((Raw.base h 0x242 op.enc 0 a b 0).putOffW off x) 0x242 rfl (by simp) (by decide) (by simp)
    ((Raw.row_242 _ (by simp)).trans (by simp [opt, hf])) hw

theorem fence (h cm x) : Statement (.fence h cm x) := by
  intro _ hw
  cases x with
  | none =>
    exact decode_encode_of (Raw.base h 0x243 0 0 0 0 (w9 cm)) 0x243 rfl (by simp) (by decide) (by simp)
      ((Raw.row_243 _ (by simp)).trans (by simp [opt, Raw.only])) hw
  | some sc =>
    exact decode_encode_of ((Raw.base h 0x243 0 0 0 0 (w9 cm)).with96 (MemX.enc ⟨0, sc, .rlx⟩)) 0x243 rfl (by simp)
      (by decide) (by simp) ((Raw.row_243 _ (by simp)).trans (by simp [opt, Raw.only])) hw

theorem waita (h c d a b) : Statement (.waita h c d a b) := by
  intro _ hw
  exact decode_encode_of ((Raw.base h 0x244 c.enc d a 0 0).putI b) 0x244 rfl (by simp) (by decide) (by simp)
    ((Raw.row_244 _ (by simp)).trans (by simp [opt]; cases c <;> rfl)) hw

theorem bar (h m sw n) : Statement (.bar h m sw n) := by
  intro _ hw
  exact decode_encode_of (.base h 0x280 (barEnc m sw) 0 n 0 0) 0x280 rfl (by simp) (by decide) (by simp)
    ((Raw.row_280 _ (by simp)).trans (by simp [opt, Raw.only])) hw

theorem barsv (h d n) : Statement (.barsv h d n) := by
  intro _ hw
  exact decode_encode_of (.base h 0x281 0 d n 0 0) 0x281 rfl (by simp) (by decide) (by simp)
    ((Raw.row_281 _ (by simp)).trans (by simp [opt, Raw.plainDA, Raw.only])) hw

theorem barld (h n b) : Statement (.barld h n b) := by
  intro _ hw
  exact decode_encode_of (.base h 0x282 0 0 n b 0) 0x282 rfl (by simp) (by decide) (by simp)
    ((Raw.row_282 _ (by simp)).trans (by simp [opt, Raw.only])) hw

theorem bpv (h stale d a hd c) : Statement (.bpv h stale d a hd c) := by
  intro _ hw
  exact decode_encode_of (.base h 0x283 stale d a (w9 hd) c) 0x283 rfl (by simp) (by decide) (by simp)
    ((Raw.row_283 _ (by simp)).trans (by simp [opt])) hw

theorem bvm (h vm a hd) : Statement (.bvm h vm a hd) := by
  intro _ hw
  exact decode_encode_of (.base h 0x284 0 (w9 vm) a (w9 hd) 0) 0x284 rfl (by simp) (by decide) (by simp)
    ((Raw.row_284 _ (by simp)).trans (by simp [opt])) hw

theorem brst (h hd) : Statement (.brst h hd) := by
  intro _ hw
  exact decode_encode_of (.base h 0x285 0 0 0 (w9 hd) 0) 0x285 rfl (by simp) (by decide) (by simp)
    ((Raw.row_285 _ (by simp)).trans (by simp [opt, Raw.only])) hw

theorem vmpop (h d vm) : Statement (.vmpop h d vm) := by
  intro _ hw
  exact decode_encode_of (.base h 0x286 0 d (w9 vm) 0 0) 0x286 rfl (by simp) (by decide) (by simp)
    ((Raw.row_286 _ (by simp)).trans (by simp [opt, Raw.only])) hw

theorem vmtst (h p vm b) : Statement (.vmtst h p vm b) := by
  intro _ hw
  exact decode_encode_of ((Raw.base h 0x287 0 (w9 p) (w9 vm) 0 0).putI b) 0x287 rfl (by simp) (by decide) (by simp)
    ((Raw.row_287 _ (by simp)).trans (by simp [opt])) hw

theorem vmnext (h d vm b) : Statement (.vmnext h d vm b) := by
  intro _ hw
  exact decode_encode_of ((Raw.base h 0x288 0 d (w9 vm) 0 0).putI b) 0x288 rfl (by simp) (by decide) (by simp)
    ((Raw.row_288 _ (by simp)).trans (by simp [opt])) hw

theorem mma (h t a b k fa fb g) : Statement (.mma h t a b k fa fb g) := by
  intro _ hw
  exact decode_encode_of ((Raw.base h 0x2C0 0 (w9 t) a b 0).with128 (Ext.enc ⟨g, fb, fa, 0, k⟩)) 0x2C0 rfl (by simp) (by decide) (by simp)
    ((Raw.row_2C0 _ (by simp)).trans (by simp [opt])) hw

theorem mmas (h s48 t a b c k fa fb g) : Statement (.mmas h s48 t a b c k fa fb g) := by
  intro _ hw
  exact decode_encode_of ((Raw.base h 0x2C1 (mflagEnc s48) (w9 t) a b c).with128 (Ext.enc ⟨g, fb, fa, 0, k⟩)) 0x2C1 rfl (by simp) (by decide) (by simp)
    ((Raw.row_2C1 _ (by simp)).trans (by simp [opt])) hw

theorem mmz (h t) : Statement (.mmz h t) := by
  intro _ hw
  exact decode_encode_of (.base h 0x2C2 0 (w9 t) 0 0 0) 0x2C2 rfl (by simp) (by decide) (by simp)
    ((Raw.row_2C2 _ (by simp)).trans (by simp [opt, Raw.only])) hw

theorem mmrd (h cv d t b) : Statement (.mmrd h cv d t b) := by
  intro _ hw
  exact decode_encode_of ((Raw.base h 0x2C3 cv.enc d (w9 t) 0 0).putI b) 0x2C3 rfl (by simp) (by decide) (by simp)
    ((Raw.row_2C3 _ (by simp)).trans (by simp [opt])) hw

theorem mmwr (h cv t a b) : Statement (.mmwr h cv t a b) := by
  intro _ hw
  exact decode_encode_of ((Raw.base h 0x2C4 cv.enc (w9 t) a 0 0).putI b) 0x2C4 rfl (by simp) (by decide) (by simp)
    ((Raw.row_2C4 _ (by simp)).trans (by simp [opt])) hw

theorem mmld (h cv t a g) : Statement (.mmld h cv t a g) := by
  intro _ hw
  exact decode_encode_of ((Raw.base h 0x2C5 cv.enc (w9 t) a 0 0).with128 (Ext.enc ⟨g, 0, 0, 0, 0⟩)) 0x2C5 rfl (by simp) (by decide) (by simp)
    ((Raw.row_2C5 _ (by simp)).trans (by simp [opt, Raw.only])) hw

theorem mmst (h cv t a col g) : Statement (.mmst h cv t a col g) := by
  intro _ hw
  exact decode_encode_of ((Raw.base h 0x2C6 cv.enc (w9 t) a 0 0).with128 (Ext.enc ⟨g, 0, 0, col, 0⟩)) 0x2C6 rfl (by simp) (by decide) (by simp)
    ((Raw.row_2C6 _ (by simp)).trans (by simp [opt, Raw.only])) hw

theorem mmwait (h t) : Statement (.mmwait h t) := by
  intro _ hw
  exact decode_encode_of (.base h 0x2C7 0 (w9 t) 0 0 0) 0x2C7 rfl (by simp) (by decide) (by simp)
    ((Raw.row_2C7 _ (by simp)).trans (by simp [opt, Raw.only])) hw

theorem cmprs (h s48 d a b k fa col) : Statement (.cmprs h s48 d a b k fa col) := by
  intro _ hw
  exact decode_encode_of ((Raw.base h 0x2C8 (mflagEnc s48) d a b 0).with128 (Ext.enc ⟨⟨false, 0⟩, 0, fa, col, k⟩)) 0x2C8 rfl (by simp) (by decide) (by simp)
    ((Raw.row_2C8 _ (by simp)).trans (by simp [opt])) hw

theorem qpush (h q a) : Statement (.qpush h q a) := by
  intro _ hw
  exact decode_encode_of (.base h 0x300 0 (w9 q) a 0 0) 0x300 rfl (by simp) (by decide) (by simp)
    ((Raw.row_300 _ (by simp)).trans (by simp [opt, Raw.only])) hw

theorem qpop (h d q) : Statement (.qpop h d q) := by
  intro _ hw
  exact decode_encode_of (.base h 0x301 0 d (w9 q) 0 0) 0x301 rfl (by simp) (by decide) (by simp)
    ((Raw.row_301 _ (by simp)).trans (by simp [opt, Raw.only])) hw

theorem job (h a) : Statement (.job h a) := by
  intro _ hw
  exact decode_encode_of (.base h 0x302 0 0 a 0 0) 0x302 rfl (by simp) (by decide) (by simp)
    ((Raw.row_302 _ (by simp)).trans (by simp [opt, Raw.only])) hw

theorem gset (h g p) : Statement (.gset h g p) := by
  intro _ hw
  exact decode_encode_of (.base h 0x303 0 0 (w9 g) (w9 p) 0) 0x303 rfl (by simp) (by decide) (by simp)
    ((Raw.row_303 _ (by simp)).trans (by simp [opt, Raw.only])) hw

theorem draw (h b) : Statement (.draw h b) := by
  intro _ hw
  exact decode_encode_of ((Raw.base h 0x340 0 0 0 0 0).putI b) 0x340 rfl (by simp) (by decide) (by simp)
    ((Raw.row_340 _ (by simp)).trans (by simp [opt, Raw.only])) hw

theorem burn (h b) : Statement (.burn h b) := by
  intro _ hw
  exact decode_encode_of ((Raw.base h 0x341 0 0 0 0 0).putI b) 0x341 rfl (by simp) (by decide) (by simp)
    ((Raw.row_341 _ (by simp)).trans (by simp [opt, Raw.only])) hw

theorem shunt (h p b) : Statement (.shunt h p b) := by
  intro _ hw
  exact decode_encode_of ((Raw.base h 0x342 0 (w9 p) 0 0 0).putI b) 0x342 rfl (by simp) (by decide) (by simp)
    ((Raw.row_342 _ (by simp)).trans (by simp [opt, Raw.only])) hw

theorem spawn (h b) : Statement (.spawn h b) := by
  intro _ hw
  exact decode_encode_of ((Raw.base h 0x380 0 0 0 0 0).putI b) 0x380 rfl (by simp) (by decide) (by simp)
    ((Raw.row_380 _ (by simp)).trans (by simp [opt, Raw.only])) hw

theorem sendw (h a b) : Statement (.sendw h a b) := by
  intro _ hw
  exact decode_encode_of (.base h 0x381 0 0 a b 0) 0x381 rfl (by simp) (by decide) (by simp)
    ((Raw.row_381 _ (by simp)).trans (by simp [opt, Raw.only])) hw

/- Steps of the machine. -/

theorem takeTrap (core slot) : Statement (.takeTrap core slot) := nofun
theorem splitHang (core slot) : Statement (.splitHang core slot) := nofun
theorem watchdog (core slot) : Statement (.watchdog core slot) := nofun
theorem napWake (core slot) : Statement (.napWake core slot) := nofun
theorem loadComplete (core slot op) : Statement (.loadComplete core slot op) := nofun
theorem loadServe (core slot op) : Statement (.loadServe core slot op) := nofun
theorem writeArrival (msg) : Statement (.writeArrival msg) := nofun
theorem heldWriteApply (msg) : Statement (.heldWriteApply msg) := nofun
theorem writeNoticeArrival (msg) : Statement (.writeNoticeArrival msg) := nofun
theorem atomicPerform (msg) : Statement (.atomicPerform msg) := nofun
theorem atomicComplete (core slot op) : Statement (.atomicComplete core slot op) := nofun
theorem dieStoreEviction (die line) : Statement (.dieStoreEviction die line) := nofun
theorem cctlWbAck (core slot) : Statement (.cctlWbAck core slot) := nofun
theorem icinvComplete (core slot) : Statement (.icinvComplete core slot) := nofun
theorem stxDelivery (key) : Statement (.stxDelivery key) := nofun
theorem swapComplete (key) : Statement (.swapComplete key) := nofun
theorem barrierArrivalSignal (key) : Statement (.barrierArrivalSignal key) := nofun
theorem pageWalkComplete (core slot op malformed) : Statement (.pageWalkComplete core slot op malformed) := nofun
theorem faultBufferSlotFree (die) : Statement (.faultBufferSlotFree die) := nofun
theorem tlbShootdownComplete (ctx) : Statement (.tlbShootdownComplete ctx) := nofun
theorem engineAdmit (core) : Statement (.engineAdmit core) := nofun
theorem engineOpStart (blk op) : Statement (.engineOpStart blk op) := nofun
theorem engineOpComplete (blk op) : Statement (.engineOpComplete blk op) := nofun
theorem engineFaultResume (blk op) : Statement (.engineFaultResume blk op) := nofun
theorem blockLimitRelease (core slot) : Statement (.blockLimitRelease core slot) := nofun
theorem qpopWake (core slot op) : Statement (.qpopWake core slot op) := nofun
theorem waitaSatisfy (core slot op) : Statement (.waitaSatisfy core slot op) := nofun
theorem boardPostRequest (key) : Statement (.boardPostRequest key) := nofun
theorem boardViewRequest (key) : Statement (.boardViewRequest key) := nofun
theorem boardResetRequest (key) : Statement (.boardResetRequest key) := nofun
theorem boardViewDelivery (key) : Statement (.boardViewDelivery key) := nofun
theorem blockPlace (die) : Statement (.blockPlace die) := nofun
theorem coopPlace (grid) : Statement (.coopPlace grid) := nofun
theorem stealRequest (victim) : Statement (.stealRequest victim) := nofun
theorem stealReply (thief) : Statement (.stealReply thief) := nofun
theorem stealRetry (thief) : Statement (.stealRetry thief) := nofun
theorem fabricStepChange (domain occ) : Statement (.fabricStepChange domain occ) := nofun
theorem workPacketArrival (key) : Statement (.workPacketArrival key) := nofun
theorem dispatchPacket (die) : Statement (.dispatchPacket die) := nofun
theorem childRangeAccept (die) : Statement (.childRangeAccept die) := nofun
theorem preemptRaise (grid) : Statement (.preemptRaise grid) := nofun
theorem blockLeave (blk) : Statement (.blockLeave blk) := nofun
theorem arrivalLogAppend (blk) : Statement (.arrivalLogAppend blk) := nofun
theorem blockRestorePlace (blk) : Statement (.blockRestorePlace blk) := nofun
theorem gridComplete (grid) : Statement (.gridComplete grid) := nofun
theorem columnWindowBoundary (col) : Statement (.columnWindowBoundary col) := nofun
theorem estimateRescale (col feed) : Statement (.estimateRescale col feed) := nofun
theorem throttleEngage (col bnd) : Statement (.throttleEngage col bnd) := nofun
theorem throttleStepChange (col layer) : Statement (.throttleStepChange col layer) := nofun
theorem stackMismatch (col bnd) : Statement (.stackMismatch col bnd) := nofun
theorem stepChange (col) : Statement (.stepChange col) := nofun
theorem boostUpdate (col) : Statement (.boostUpdate col) := nofun
theorem boostRise (col) : Statement (.boostRise col) := nofun
theorem thermalCeilingTick (col) : Statement (.thermalCeilingTick col) := nofun
theorem sensorSample (col mv temp) : Statement (.sensorSample col mv temp) := nofun
theorem sensorStuck (col sensor) : Statement (.sensorStuck col sensor) := nofun
theorem sensorRevalidate (col sensor) : Statement (.sensorRevalidate col sensor) := nofun
theorem openBumpEvent (col sensor) : Statement (.openBumpEvent col sensor) := nofun
theorem regulatorAdjust (die) : Statement (.regulatorAdjust die) := nofun
theorem columnGate (col) : Statement (.columnGate col) := nofun
theorem columnPowerStage (col) : Statement (.columnPowerStage col) := nofun
theorem caravanArrival (key) : Statement (.caravanArrival key) := nofun
theorem caravanPromotion (core merged) : Statement (.caravanPromotion core merged) := nofun
theorem travelReplicaGrant (grid) : Statement (.travelReplicaGrant grid) := nofun
theorem floidFlitReceive (link flit) : Statement (.floidFlitReceive link flit) := nofun
theorem floidNakReceive (link seq) : Statement (.floidNakReceive link seq) := nofun
theorem floidLinkRetrain (link) : Statement (.floidLinkRetrain link) := nofun
theorem floidLinkFail (link) : Statement (.floidLinkFail link) := nofun
theorem inboundPostedWrite (fn off bytes) : Statement (.inboundPostedWrite fn off bytes) := nofun
theorem pieceAcknowledge (num line) : Statement (.pieceAcknowledge num line) := nofun
theorem inboundRead (fn off n) : Statement (.inboundRead fn off n) := nofun
theorem nonpostedRelease (fn) : Statement (.nonpostedRelease fn) := nofun
theorem sqtail (fn q v) : Statement (.sqtail fn q v) := nofun
theorem cqhead (fn q v) : Statement (.cqhead fn q v) := nofun
theorem queueRegisterWrite (fn off v) : Statement (.queueRegisterWrite fn off v) := nofun
theorem completionPost (fn q) : Statement (.completionPost fn q) := nofun
theorem queryCapabilities (fn q) : Statement (.queryCapabilities fn q) := nofun
theorem queryCertificates (fn q) : Statement (.queryCertificates fn q) := nofun
theorem queryFigures (fn q) : Statement (.queryFigures fn q) := nofun
theorem attest (fn q) : Statement (.attest fn q) := nofun
theorem healthStatus (fn q) : Statement (.healthStatus fn q) := nofun
theorem healthEvents (fn q) : Statement (.healthEvents fn q) := nofun
theorem healthEnergy (fn q) : Statement (.healthEnergy fn q) := nofun
theorem healthSetPowerCap (fn q) : Statement (.healthSetPowerCap fn q) := nofun
theorem healthRecalibrate (fn q) : Statement (.healthRecalibrate fn q) := nofun
theorem healthCoreReset (fn q) : Statement (.healthCoreReset fn q) := nofun
theorem ctxOpen (fn q) : Statement (.ctxOpen fn q) := nofun
theorem ctxClose (fn q) : Statement (.ctxClose fn q) := nofun
theorem map (fn q) : Statement (.map fn q) := nofun
theorem unmap (fn q) : Statement (.unmap fn q) := nofun
theorem faultReplyRetry (fn q) : Statement (.faultReplyRetry fn q) := nofun
theorem faultReplyFail (fn q) : Statement (.faultReplyFail fn q) := nofun
theorem launch (fn q) : Statement (.launch fn q) := nofun
theorem launchAccept (grid) : Statement (.launchAccept grid) := nofun
theorem preempt (fn q) : Statement (.preempt fn q) := nofun
theorem restore (fn q) : Statement (.restore fn q) := nofun
theorem boardMake (fn q) : Statement (.boardMake fn q) := nofun
theorem debugAttach (fn q) : Statement (.debugAttach fn q) := nofun
theorem debugDetach (fn q) : Statement (.debugDetach fn q) := nofun
theorem debugHalt (fn q) : Statement (.debugHalt fn q) := nofun
theorem debugStep (fn q) : Statement (.debugStep fn q) := nofun
theorem debugContinue (fn q) : Statement (.debugContinue fn q) := nofun
theorem coreReset (die) : Statement (.coreReset die) := nofun
theorem dieRecalibrate (die) : Statement (.dieRecalibrate die) := nofun
theorem longLatencyCompletion (core slot op) : Statement (.longLatencyCompletion core slot op) := nofun
theorem instructionFetchFill (core line) : Statement (.instructionFetchFill core line) := nofun
theorem floidLinkTrained (link) : Statement (.floidLinkTrained link) := nofun
theorem frameBoundary : Statement (.frameBoundary) := nofun
theorem powerCapSample : Statement (.powerCapSample) := nofun
theorem powerCapRelax : Statement (.powerCapRelax) := nofun
theorem powerGood : Statement (.powerGood) := nofun
theorem glazeTransition : Statement (.glazeTransition) := nofun
theorem powerLoss : Statement (.powerLoss) := nofun

end Sys2Proof.Laws.RoundTrip
end

