-- ==== Sys2Proof/Laws/State.lean ====
section
/-! SUPPORT. What each update of the state does to each field, true by unfolding, so that no proof unfolds an update. -/

namespace Sys2Proof.Machine

/- modDie -/

@[simp] theorem modDie_tsc (s : State) (k : Nat) (f : Die → Die) : (s.modDie k f).tsc = s.tsc := rfl
@[simp] theorem modDie_frame (s : State) (k : Nat) (f : Die → Die) : (s.modDie k f).frame = s.frame := rfl
@[simp] theorem modDie_stage (s : State) (k : Nat) (f : Die → Die) : (s.modDie k f).stage = s.stage := rfl
@[simp] theorem modDie_trained (s : State) (k : Nat) (f : Die → Die) : (s.modDie k f).trained = s.trained := rfl
@[simp] theorem modDie_mem (s : State) (k : Nat) (f : Die → Die) : (s.modDie k f).mem = s.mem := rfl
@[simp] theorem modDie_last (s : State) (k : Nat) (f : Die → Die) : (s.modDie k f).last = s.last := rfl
@[simp] theorem modDie_poison (s : State) (k : Nat) (f : Die → Die) : (s.modDie k f).poison = s.poison := rfl
@[simp] theorem modDie_writes (s : State) (k : Nat) (f : Die → Die) : (s.modDie k f).writes = s.writes := rfl
@[simp] theorem modDie_msgs (s : State) (k : Nat) (f : Die → Die) : (s.modDie k f).msgs = s.msgs := rfl
@[simp] theorem modDie_hseq (s : State) (k : Nat) (f : Die → Die) : (s.modDie k f).hseq = s.hseq := rfl
@[simp] theorem modDie_dies (s : State) (k : Nat) (f : Die → Die) : (s.modDie k f).dies = lput s.dies k Die.init f := rfl
@[simp] theorem modDie_cols (s : State) (k : Nat) (f : Die → Die) : (s.modDie k f).cols = s.cols := rfl
@[simp] theorem modDie_cores (s : State) (k : Nat) (f : Die → Die) : (s.modDie k f).cores = s.cores := rfl
@[simp] theorem modDie_warps (s : State) (k : Nat) (f : Die → Die) : (s.modDie k f).warps = s.warps := rfl
@[simp] theorem modDie_blocks (s : State) (k : Nat) (f : Die → Die) : (s.modDie k f).blocks = s.blocks := rfl
@[simp] theorem modDie_grids (s : State) (k : Nat) (f : Die → Die) : (s.modDie k f).grids = s.grids := rfl
@[simp] theorem modDie_ctxs (s : State) (k : Nat) (f : Die → Die) : (s.modDie k f).ctxs = s.ctxs := rfl
@[simp] theorem modDie_boards (s : State) (k : Nat) (f : Die → Die) : (s.modDie k f).boards = s.boards := rfl
@[simp] theorem modDie_breqs (s : State) (k : Nat) (f : Die → Die) : (s.modDie k f).breqs = s.breqs := rfl
@[simp] theorem modDie_stxs (s : State) (k : Nat) (f : Die → Die) : (s.modDie k f).stxs = s.stxs := rfl
@[simp] theorem modDie_arrs (s : State) (k : Nat) (f : Die → Die) : (s.modDie k f).arrs = s.arrs := rfl
@[simp] theorem modDie_swaps (s : State) (k : Nat) (f : Die → Die) : (s.modDie k f).swaps = s.swaps := rfl
@[simp] theorem modDie_caravans (s : State) (k : Nat) (f : Die → Die) : (s.modDie k f).caravans = s.caravans := rfl
@[simp] theorem modDie_packets (s : State) (k : Nat) (f : Die → Die) : (s.modDie k f).packets = s.packets := rfl
@[simp] theorem modDie_orphans (s : State) (k : Nat) (f : Die → Die) : (s.modDie k f).orphans = s.orphans := rfl
@[simp] theorem modDie_queues (s : State) (k : Nat) (f : Die → Die) : (s.modDie k f).queues = s.queues := rfl
@[simp] theorem modDie_inbound (s : State) (k : Nat) (f : Die → Die) : (s.modDie k f).inbound = s.inbound := rfl
@[simp] theorem modDie_hreads (s : State) (k : Nat) (f : Die → Die) : (s.modDie k f).hreads = s.hreads := rfl
@[simp] theorem modDie_outbound (s : State) (k : Nat) (f : Die → Die) : (s.modDie k f).outbound = s.outbound := rfl
@[simp] theorem modDie_hostAbsent (s : State) (k : Nat) (f : Die → Die) : (s.modDie k f).hostAbsent = s.hostAbsent := rfl
@[simp] theorem modDie_links (s : State) (k : Nat) (f : Die → Die) : (s.modDie k f).links = s.links := rfl
@[simp] theorem modDie_powerCap (s : State) (k : Nat) (f : Die → Die) : (s.modDie k f).powerCap = s.powerCap := rfl
@[simp] theorem modDie_capAt (s : State) (k : Nat) (f : Die → Die) : (s.modDie k f).capAt = s.capAt := rfl
@[simp] theorem modDie_capTimer (s : State) (k : Nat) (f : Die → Die) : (s.modDie k f).capTimer = s.capTimer := rfl
@[simp] theorem modDie_modPower (s : State) (k : Nat) (f : Die → Die) : (s.modDie k f).modPower = s.modPower := rfl
@[simp] theorem modDie_meas (s : State) (k : Nat) (f : Die → Die) : (s.modDie k f).meas = s.meas := rfl
@[simp] theorem modDie_bumps (s : State) (k : Nat) (f : Die → Die) : (s.modDie k f).bumps = s.bumps := rfl
@[simp] theorem modDie_g7 (s : State) (k : Nat) (f : Die → Die) : (s.modDie k f).g7 = s.g7 := rfl
@[simp] theorem modDie_cxl (s : State) (k : Nat) (f : Die → Die) : (s.modDie k f).cxl = s.cxl := rfl
@[simp] theorem modDie_cxlBad (s : State) (k : Nat) (f : Die → Die) : (s.modDie k f).cxlBad = s.cxlBad := rfl
@[simp] theorem modDie_vfs (s : State) (k : Nat) (f : Die → Die) : (s.modDie k f).vfs = s.vfs := rfl
@[simp] theorem modDie_hubLog (s : State) (k : Nat) (f : Die → Die) : (s.modDie k f).hubLog = s.hubLog := rfl
@[simp] theorem modDie_hubLost (s : State) (k : Nat) (f : Die → Die) : (s.modDie k f).hubLost = s.hubLost := rfl
@[simp] theorem modDie_msix (s : State) (k : Nat) (f : Die → Die) : (s.modDie k f).msix = s.msix := rfl
@[simp] theorem modDie_launchCount (s : State) (k : Nat) (f : Die → Die) : (s.modDie k f).launchCount = s.launchCount := rfl
@[simp] theorem modDie_issueCount (s : State) (k : Nat) (f : Die → Die) : (s.modDie k f).issueCount = s.issueCount := rfl
@[simp] theorem modDie_nextKey (s : State) (k : Nat) (f : Die → Die) : (s.modDie k f).nextKey = s.nextKey := rfl
@[simp] theorem modDie_agenda (s : State) (k : Nat) (f : Die → Die) : (s.modDie k f).agenda = s.agenda := rfl
@[simp] theorem modDie_fresh (s : State) (k : Nat) (f : Die → Die) : (s.modDie k f).fresh = s.fresh := rfl
@[simp] theorem modDie_rr (s : State) (k : Nat) (f : Die → Die) : (s.modDie k f).rr = s.rr := rfl
@[simp] theorem modDie_cur (s : State) (k : Nat) (f : Die → Die) : (s.modDie k f).cur = s.cur := rfl

/- modCol -/

@[simp] theorem modCol_tsc (s : State) (k : Nat) (f : Column → Column) : (s.modCol k f).tsc = s.tsc := rfl
@[simp] theorem modCol_frame (s : State) (k : Nat) (f : Column → Column) : (s.modCol k f).frame = s.frame := rfl
@[simp] theorem modCol_stage (s : State) (k : Nat) (f : Column → Column) : (s.modCol k f).stage = s.stage := rfl
@[simp] theorem modCol_trained (s : State) (k : Nat) (f : Column → Column) : (s.modCol k f).trained = s.trained := rfl
@[simp] theorem modCol_mem (s : State) (k : Nat) (f : Column → Column) : (s.modCol k f).mem = s.mem := rfl
@[simp] theorem modCol_last (s : State) (k : Nat) (f : Column → Column) : (s.modCol k f).last = s.last := rfl
@[simp] theorem modCol_poison (s : State) (k : Nat) (f : Column → Column) : (s.modCol k f).poison = s.poison := rfl
@[simp] theorem modCol_writes (s : State) (k : Nat) (f : Column → Column) : (s.modCol k f).writes = s.writes := rfl
@[simp] theorem modCol_msgs (s : State) (k : Nat) (f : Column → Column) : (s.modCol k f).msgs = s.msgs := rfl
@[simp] theorem modCol_hseq (s : State) (k : Nat) (f : Column → Column) : (s.modCol k f).hseq = s.hseq := rfl
@[simp] theorem modCol_dies (s : State) (k : Nat) (f : Column → Column) : (s.modCol k f).dies = s.dies := rfl
@[simp] theorem modCol_cols (s : State) (k : Nat) (f : Column → Column) : (s.modCol k f).cols = lput s.cols k Column.init f := rfl
@[simp] theorem modCol_cores (s : State) (k : Nat) (f : Column → Column) : (s.modCol k f).cores = s.cores := rfl
@[simp] theorem modCol_warps (s : State) (k : Nat) (f : Column → Column) : (s.modCol k f).warps = s.warps := rfl
@[simp] theorem modCol_blocks (s : State) (k : Nat) (f : Column → Column) : (s.modCol k f).blocks = s.blocks := rfl
@[simp] theorem modCol_grids (s : State) (k : Nat) (f : Column → Column) : (s.modCol k f).grids = s.grids := rfl
@[simp] theorem modCol_ctxs (s : State) (k : Nat) (f : Column → Column) : (s.modCol k f).ctxs = s.ctxs := rfl
@[simp] theorem modCol_boards (s : State) (k : Nat) (f : Column → Column) : (s.modCol k f).boards = s.boards := rfl
@[simp] theorem modCol_breqs (s : State) (k : Nat) (f : Column → Column) : (s.modCol k f).breqs = s.breqs := rfl
@[simp] theorem modCol_stxs (s : State) (k : Nat) (f : Column → Column) : (s.modCol k f).stxs = s.stxs := rfl
@[simp] theorem modCol_arrs (s : State) (k : Nat) (f : Column → Column) : (s.modCol k f).arrs = s.arrs := rfl
@[simp] theorem modCol_swaps (s : State) (k : Nat) (f : Column → Column) : (s.modCol k f).swaps = s.swaps := rfl
@[simp] theorem modCol_caravans (s : State) (k : Nat) (f : Column → Column) : (s.modCol k f).caravans = s.caravans := rfl
@[simp] theorem modCol_packets (s : State) (k : Nat) (f : Column → Column) : (s.modCol k f).packets = s.packets := rfl
@[simp] theorem modCol_orphans (s : State) (k : Nat) (f : Column → Column) : (s.modCol k f).orphans = s.orphans := rfl
@[simp] theorem modCol_queues (s : State) (k : Nat) (f : Column → Column) : (s.modCol k f).queues = s.queues := rfl
@[simp] theorem modCol_inbound (s : State) (k : Nat) (f : Column → Column) : (s.modCol k f).inbound = s.inbound := rfl
@[simp] theorem modCol_hreads (s : State) (k : Nat) (f : Column → Column) : (s.modCol k f).hreads = s.hreads := rfl
@[simp] theorem modCol_outbound (s : State) (k : Nat) (f : Column → Column) : (s.modCol k f).outbound = s.outbound := rfl
@[simp] theorem modCol_hostAbsent (s : State) (k : Nat) (f : Column → Column) : (s.modCol k f).hostAbsent = s.hostAbsent := rfl
@[simp] theorem modCol_links (s : State) (k : Nat) (f : Column → Column) : (s.modCol k f).links = s.links := rfl
@[simp] theorem modCol_powerCap (s : State) (k : Nat) (f : Column → Column) : (s.modCol k f).powerCap = s.powerCap := rfl
@[simp] theorem modCol_capAt (s : State) (k : Nat) (f : Column → Column) : (s.modCol k f).capAt = s.capAt := rfl
@[simp] theorem modCol_capTimer (s : State) (k : Nat) (f : Column → Column) : (s.modCol k f).capTimer = s.capTimer := rfl
@[simp] theorem modCol_modPower (s : State) (k : Nat) (f : Column → Column) : (s.modCol k f).modPower = s.modPower := rfl
@[simp] theorem modCol_meas (s : State) (k : Nat) (f : Column → Column) : (s.modCol k f).meas = s.meas := rfl
@[simp] theorem modCol_bumps (s : State) (k : Nat) (f : Column → Column) : (s.modCol k f).bumps = s.bumps := rfl
@[simp] theorem modCol_g7 (s : State) (k : Nat) (f : Column → Column) : (s.modCol k f).g7 = s.g7 := rfl
@[simp] theorem modCol_cxl (s : State) (k : Nat) (f : Column → Column) : (s.modCol k f).cxl = s.cxl := rfl
@[simp] theorem modCol_cxlBad (s : State) (k : Nat) (f : Column → Column) : (s.modCol k f).cxlBad = s.cxlBad := rfl
@[simp] theorem modCol_vfs (s : State) (k : Nat) (f : Column → Column) : (s.modCol k f).vfs = s.vfs := rfl
@[simp] theorem modCol_hubLog (s : State) (k : Nat) (f : Column → Column) : (s.modCol k f).hubLog = s.hubLog := rfl
@[simp] theorem modCol_hubLost (s : State) (k : Nat) (f : Column → Column) : (s.modCol k f).hubLost = s.hubLost := rfl
@[simp] theorem modCol_msix (s : State) (k : Nat) (f : Column → Column) : (s.modCol k f).msix = s.msix := rfl
@[simp] theorem modCol_launchCount (s : State) (k : Nat) (f : Column → Column) : (s.modCol k f).launchCount = s.launchCount := rfl
@[simp] theorem modCol_issueCount (s : State) (k : Nat) (f : Column → Column) : (s.modCol k f).issueCount = s.issueCount := rfl
@[simp] theorem modCol_nextKey (s : State) (k : Nat) (f : Column → Column) : (s.modCol k f).nextKey = s.nextKey := rfl
@[simp] theorem modCol_agenda (s : State) (k : Nat) (f : Column → Column) : (s.modCol k f).agenda = s.agenda := rfl
@[simp] theorem modCol_fresh (s : State) (k : Nat) (f : Column → Column) : (s.modCol k f).fresh = s.fresh := rfl
@[simp] theorem modCol_rr (s : State) (k : Nat) (f : Column → Column) : (s.modCol k f).rr = s.rr := rfl
@[simp] theorem modCol_cur (s : State) (k : Nat) (f : Column → Column) : (s.modCol k f).cur = s.cur := rfl

/- modCore -/

@[simp] theorem modCore_tsc (s : State) (k : Nat) (f : CoreSt → CoreSt) : (s.modCore k f).tsc = s.tsc := rfl
@[simp] theorem modCore_frame (s : State) (k : Nat) (f : CoreSt → CoreSt) : (s.modCore k f).frame = s.frame := rfl
@[simp] theorem modCore_stage (s : State) (k : Nat) (f : CoreSt → CoreSt) : (s.modCore k f).stage = s.stage := rfl
@[simp] theorem modCore_trained (s : State) (k : Nat) (f : CoreSt → CoreSt) : (s.modCore k f).trained = s.trained := rfl
@[simp] theorem modCore_mem (s : State) (k : Nat) (f : CoreSt → CoreSt) : (s.modCore k f).mem = s.mem := rfl
@[simp] theorem modCore_last (s : State) (k : Nat) (f : CoreSt → CoreSt) : (s.modCore k f).last = s.last := rfl
@[simp] theorem modCore_poison (s : State) (k : Nat) (f : CoreSt → CoreSt) : (s.modCore k f).poison = s.poison := rfl
@[simp] theorem modCore_writes (s : State) (k : Nat) (f : CoreSt → CoreSt) : (s.modCore k f).writes = s.writes := rfl
@[simp] theorem modCore_msgs (s : State) (k : Nat) (f : CoreSt → CoreSt) : (s.modCore k f).msgs = s.msgs := rfl
@[simp] theorem modCore_hseq (s : State) (k : Nat) (f : CoreSt → CoreSt) : (s.modCore k f).hseq = s.hseq := rfl
@[simp] theorem modCore_dies (s : State) (k : Nat) (f : CoreSt → CoreSt) : (s.modCore k f).dies = s.dies := rfl
@[simp] theorem modCore_cols (s : State) (k : Nat) (f : CoreSt → CoreSt) : (s.modCore k f).cols = s.cols := rfl
@[simp] theorem modCore_cores (s : State) (k : Nat) (f : CoreSt → CoreSt) : (s.modCore k f).cores = lput s.cores k CoreSt.init f := rfl
@[simp] theorem modCore_warps (s : State) (k : Nat) (f : CoreSt → CoreSt) : (s.modCore k f).warps = s.warps := rfl
@[simp] theorem modCore_blocks (s : State) (k : Nat) (f : CoreSt → CoreSt) : (s.modCore k f).blocks = s.blocks := rfl
@[simp] theorem modCore_grids (s : State) (k : Nat) (f : CoreSt → CoreSt) : (s.modCore k f).grids = s.grids := rfl
@[simp] theorem modCore_ctxs (s : State) (k : Nat) (f : CoreSt → CoreSt) : (s.modCore k f).ctxs = s.ctxs := rfl
@[simp] theorem modCore_boards (s : State) (k : Nat) (f : CoreSt → CoreSt) : (s.modCore k f).boards = s.boards := rfl
@[simp] theorem modCore_breqs (s : State) (k : Nat) (f : CoreSt → CoreSt) : (s.modCore k f).breqs = s.breqs := rfl
@[simp] theorem modCore_stxs (s : State) (k : Nat) (f : CoreSt → CoreSt) : (s.modCore k f).stxs = s.stxs := rfl
@[simp] theorem modCore_arrs (s : State) (k : Nat) (f : CoreSt → CoreSt) : (s.modCore k f).arrs = s.arrs := rfl
@[simp] theorem modCore_swaps (s : State) (k : Nat) (f : CoreSt → CoreSt) : (s.modCore k f).swaps = s.swaps := rfl
@[simp] theorem modCore_caravans (s : State) (k : Nat) (f : CoreSt → CoreSt) : (s.modCore k f).caravans = s.caravans := rfl
@[simp] theorem modCore_packets (s : State) (k : Nat) (f : CoreSt → CoreSt) : (s.modCore k f).packets = s.packets := rfl
@[simp] theorem modCore_orphans (s : State) (k : Nat) (f : CoreSt → CoreSt) : (s.modCore k f).orphans = s.orphans := rfl
@[simp] theorem modCore_queues (s : State) (k : Nat) (f : CoreSt → CoreSt) : (s.modCore k f).queues = s.queues := rfl
@[simp] theorem modCore_inbound (s : State) (k : Nat) (f : CoreSt → CoreSt) : (s.modCore k f).inbound = s.inbound := rfl
@[simp] theorem modCore_hreads (s : State) (k : Nat) (f : CoreSt → CoreSt) : (s.modCore k f).hreads = s.hreads := rfl
@[simp] theorem modCore_outbound (s : State) (k : Nat) (f : CoreSt → CoreSt) : (s.modCore k f).outbound = s.outbound := rfl
@[simp] theorem modCore_hostAbsent (s : State) (k : Nat) (f : CoreSt → CoreSt) : (s.modCore k f).hostAbsent = s.hostAbsent := rfl
@[simp] theorem modCore_links (s : State) (k : Nat) (f : CoreSt → CoreSt) : (s.modCore k f).links = s.links := rfl
@[simp] theorem modCore_powerCap (s : State) (k : Nat) (f : CoreSt → CoreSt) : (s.modCore k f).powerCap = s.powerCap := rfl
@[simp] theorem modCore_capAt (s : State) (k : Nat) (f : CoreSt → CoreSt) : (s.modCore k f).capAt = s.capAt := rfl
@[simp] theorem modCore_capTimer (s : State) (k : Nat) (f : CoreSt → CoreSt) : (s.modCore k f).capTimer = s.capTimer := rfl
@[simp] theorem modCore_modPower (s : State) (k : Nat) (f : CoreSt → CoreSt) : (s.modCore k f).modPower = s.modPower := rfl
@[simp] theorem modCore_meas (s : State) (k : Nat) (f : CoreSt → CoreSt) : (s.modCore k f).meas = s.meas := rfl
@[simp] theorem modCore_bumps (s : State) (k : Nat) (f : CoreSt → CoreSt) : (s.modCore k f).bumps = s.bumps := rfl
@[simp] theorem modCore_g7 (s : State) (k : Nat) (f : CoreSt → CoreSt) : (s.modCore k f).g7 = s.g7 := rfl
@[simp] theorem modCore_cxl (s : State) (k : Nat) (f : CoreSt → CoreSt) : (s.modCore k f).cxl = s.cxl := rfl
@[simp] theorem modCore_cxlBad (s : State) (k : Nat) (f : CoreSt → CoreSt) : (s.modCore k f).cxlBad = s.cxlBad := rfl
@[simp] theorem modCore_vfs (s : State) (k : Nat) (f : CoreSt → CoreSt) : (s.modCore k f).vfs = s.vfs := rfl
@[simp] theorem modCore_hubLog (s : State) (k : Nat) (f : CoreSt → CoreSt) : (s.modCore k f).hubLog = s.hubLog := rfl
@[simp] theorem modCore_hubLost (s : State) (k : Nat) (f : CoreSt → CoreSt) : (s.modCore k f).hubLost = s.hubLost := rfl
@[simp] theorem modCore_msix (s : State) (k : Nat) (f : CoreSt → CoreSt) : (s.modCore k f).msix = s.msix := rfl
@[simp] theorem modCore_launchCount (s : State) (k : Nat) (f : CoreSt → CoreSt) : (s.modCore k f).launchCount = s.launchCount := rfl
@[simp] theorem modCore_issueCount (s : State) (k : Nat) (f : CoreSt → CoreSt) : (s.modCore k f).issueCount = s.issueCount := rfl
@[simp] theorem modCore_nextKey (s : State) (k : Nat) (f : CoreSt → CoreSt) : (s.modCore k f).nextKey = s.nextKey := rfl
@[simp] theorem modCore_agenda (s : State) (k : Nat) (f : CoreSt → CoreSt) : (s.modCore k f).agenda = s.agenda := rfl
@[simp] theorem modCore_fresh (s : State) (k : Nat) (f : CoreSt → CoreSt) : (s.modCore k f).fresh = s.fresh := rfl
@[simp] theorem modCore_rr (s : State) (k : Nat) (f : CoreSt → CoreSt) : (s.modCore k f).rr = s.rr := rfl
@[simp] theorem modCore_cur (s : State) (k : Nat) (f : CoreSt → CoreSt) : (s.modCore k f).cur = s.cur := rfl

/- modWarp -/

@[simp] theorem modWarp_tsc (s : State) (k : Nat) (f : Warp → Warp) : (s.modWarp k f).tsc = s.tsc := rfl
@[simp] theorem modWarp_frame (s : State) (k : Nat) (f : Warp → Warp) : (s.modWarp k f).frame = s.frame := rfl
@[simp] theorem modWarp_stage (s : State) (k : Nat) (f : Warp → Warp) : (s.modWarp k f).stage = s.stage := rfl
@[simp] theorem modWarp_trained (s : State) (k : Nat) (f : Warp → Warp) : (s.modWarp k f).trained = s.trained := rfl
@[simp] theorem modWarp_mem (s : State) (k : Nat) (f : Warp → Warp) : (s.modWarp k f).mem = s.mem := rfl
@[simp] theorem modWarp_last (s : State) (k : Nat) (f : Warp → Warp) : (s.modWarp k f).last = s.last := rfl
@[simp] theorem modWarp_poison (s : State) (k : Nat) (f : Warp → Warp) : (s.modWarp k f).poison = s.poison := rfl
@[simp] theorem modWarp_writes (s : State) (k : Nat) (f : Warp → Warp) : (s.modWarp k f).writes = s.writes := rfl
@[simp] theorem modWarp_msgs (s : State) (k : Nat) (f : Warp → Warp) : (s.modWarp k f).msgs = s.msgs := rfl
@[simp] theorem modWarp_hseq (s : State) (k : Nat) (f : Warp → Warp) : (s.modWarp k f).hseq = s.hseq := rfl
@[simp] theorem modWarp_dies (s : State) (k : Nat) (f : Warp → Warp) : (s.modWarp k f).dies = s.dies := rfl
@[simp] theorem modWarp_cols (s : State) (k : Nat) (f : Warp → Warp) : (s.modWarp k f).cols = s.cols := rfl
@[simp] theorem modWarp_cores (s : State) (k : Nat) (f : Warp → Warp) : (s.modWarp k f).cores = s.cores := rfl
@[simp] theorem modWarp_warps (s : State) (k : Nat) (f : Warp → Warp) : (s.modWarp k f).warps = tmod s.warps k f := rfl
@[simp] theorem modWarp_blocks (s : State) (k : Nat) (f : Warp → Warp) : (s.modWarp k f).blocks = s.blocks := rfl
@[simp] theorem modWarp_grids (s : State) (k : Nat) (f : Warp → Warp) : (s.modWarp k f).grids = s.grids := rfl
@[simp] theorem modWarp_ctxs (s : State) (k : Nat) (f : Warp → Warp) : (s.modWarp k f).ctxs = s.ctxs := rfl
@[simp] theorem modWarp_boards (s : State) (k : Nat) (f : Warp → Warp) : (s.modWarp k f).boards = s.boards := rfl
@[simp] theorem modWarp_breqs (s : State) (k : Nat) (f : Warp → Warp) : (s.modWarp k f).breqs = s.breqs := rfl
@[simp] theorem modWarp_stxs (s : State) (k : Nat) (f : Warp → Warp) : (s.modWarp k f).stxs = s.stxs := rfl
@[simp] theorem modWarp_arrs (s : State) (k : Nat) (f : Warp → Warp) : (s.modWarp k f).arrs = s.arrs := rfl
@[simp] theorem modWarp_swaps (s : State) (k : Nat) (f : Warp → Warp) : (s.modWarp k f).swaps = s.swaps := rfl
@[simp] theorem modWarp_caravans (s : State) (k : Nat) (f : Warp → Warp) : (s.modWarp k f).caravans = s.caravans := rfl
@[simp] theorem modWarp_packets (s : State) (k : Nat) (f : Warp → Warp) : (s.modWarp k f).packets = s.packets := rfl
@[simp] theorem modWarp_orphans (s : State) (k : Nat) (f : Warp → Warp) : (s.modWarp k f).orphans = s.orphans := rfl
@[simp] theorem modWarp_queues (s : State) (k : Nat) (f : Warp → Warp) : (s.modWarp k f).queues = s.queues := rfl
@[simp] theorem modWarp_inbound (s : State) (k : Nat) (f : Warp → Warp) : (s.modWarp k f).inbound = s.inbound := rfl
@[simp] theorem modWarp_hreads (s : State) (k : Nat) (f : Warp → Warp) : (s.modWarp k f).hreads = s.hreads := rfl
@[simp] theorem modWarp_outbound (s : State) (k : Nat) (f : Warp → Warp) : (s.modWarp k f).outbound = s.outbound := rfl
@[simp] theorem modWarp_hostAbsent (s : State) (k : Nat) (f : Warp → Warp) : (s.modWarp k f).hostAbsent = s.hostAbsent := rfl
@[simp] theorem modWarp_links (s : State) (k : Nat) (f : Warp → Warp) : (s.modWarp k f).links = s.links := rfl
@[simp] theorem modWarp_powerCap (s : State) (k : Nat) (f : Warp → Warp) : (s.modWarp k f).powerCap = s.powerCap := rfl
@[simp] theorem modWarp_capAt (s : State) (k : Nat) (f : Warp → Warp) : (s.modWarp k f).capAt = s.capAt := rfl
@[simp] theorem modWarp_capTimer (s : State) (k : Nat) (f : Warp → Warp) : (s.modWarp k f).capTimer = s.capTimer := rfl
@[simp] theorem modWarp_modPower (s : State) (k : Nat) (f : Warp → Warp) : (s.modWarp k f).modPower = s.modPower := rfl
@[simp] theorem modWarp_meas (s : State) (k : Nat) (f : Warp → Warp) : (s.modWarp k f).meas = s.meas := rfl
@[simp] theorem modWarp_bumps (s : State) (k : Nat) (f : Warp → Warp) : (s.modWarp k f).bumps = s.bumps := rfl
@[simp] theorem modWarp_g7 (s : State) (k : Nat) (f : Warp → Warp) : (s.modWarp k f).g7 = s.g7 := rfl
@[simp] theorem modWarp_cxl (s : State) (k : Nat) (f : Warp → Warp) : (s.modWarp k f).cxl = s.cxl := rfl
@[simp] theorem modWarp_cxlBad (s : State) (k : Nat) (f : Warp → Warp) : (s.modWarp k f).cxlBad = s.cxlBad := rfl
@[simp] theorem modWarp_vfs (s : State) (k : Nat) (f : Warp → Warp) : (s.modWarp k f).vfs = s.vfs := rfl
@[simp] theorem modWarp_hubLog (s : State) (k : Nat) (f : Warp → Warp) : (s.modWarp k f).hubLog = s.hubLog := rfl
@[simp] theorem modWarp_hubLost (s : State) (k : Nat) (f : Warp → Warp) : (s.modWarp k f).hubLost = s.hubLost := rfl
@[simp] theorem modWarp_msix (s : State) (k : Nat) (f : Warp → Warp) : (s.modWarp k f).msix = s.msix := rfl
@[simp] theorem modWarp_launchCount (s : State) (k : Nat) (f : Warp → Warp) : (s.modWarp k f).launchCount = s.launchCount := rfl
@[simp] theorem modWarp_issueCount (s : State) (k : Nat) (f : Warp → Warp) : (s.modWarp k f).issueCount = s.issueCount := rfl
@[simp] theorem modWarp_nextKey (s : State) (k : Nat) (f : Warp → Warp) : (s.modWarp k f).nextKey = s.nextKey := rfl
@[simp] theorem modWarp_agenda (s : State) (k : Nat) (f : Warp → Warp) : (s.modWarp k f).agenda = s.agenda := rfl
@[simp] theorem modWarp_fresh (s : State) (k : Nat) (f : Warp → Warp) : (s.modWarp k f).fresh = s.fresh := rfl
@[simp] theorem modWarp_rr (s : State) (k : Nat) (f : Warp → Warp) : (s.modWarp k f).rr = s.rr := rfl
@[simp] theorem modWarp_cur (s : State) (k : Nat) (f : Warp → Warp) : (s.modWarp k f).cur = s.cur := rfl

/- modBlock -/

@[simp] theorem modBlock_tsc (s : State) (k : Nat) (f : Block → Block) : (s.modBlock k f).tsc = s.tsc := rfl
@[simp] theorem modBlock_frame (s : State) (k : Nat) (f : Block → Block) : (s.modBlock k f).frame = s.frame := rfl
@[simp] theorem modBlock_stage (s : State) (k : Nat) (f : Block → Block) : (s.modBlock k f).stage = s.stage := rfl
@[simp] theorem modBlock_trained (s : State) (k : Nat) (f : Block → Block) : (s.modBlock k f).trained = s.trained := rfl
@[simp] theorem modBlock_mem (s : State) (k : Nat) (f : Block → Block) : (s.modBlock k f).mem = s.mem := rfl
@[simp] theorem modBlock_last (s : State) (k : Nat) (f : Block → Block) : (s.modBlock k f).last = s.last := rfl
@[simp] theorem modBlock_poison (s : State) (k : Nat) (f : Block → Block) : (s.modBlock k f).poison = s.poison := rfl
@[simp] theorem modBlock_writes (s : State) (k : Nat) (f : Block → Block) : (s.modBlock k f).writes = s.writes := rfl
@[simp] theorem modBlock_msgs (s : State) (k : Nat) (f : Block → Block) : (s.modBlock k f).msgs = s.msgs := rfl
@[simp] theorem modBlock_hseq (s : State) (k : Nat) (f : Block → Block) : (s.modBlock k f).hseq = s.hseq := rfl
@[simp] theorem modBlock_dies (s : State) (k : Nat) (f : Block → Block) : (s.modBlock k f).dies = s.dies := rfl
@[simp] theorem modBlock_cols (s : State) (k : Nat) (f : Block → Block) : (s.modBlock k f).cols = s.cols := rfl
@[simp] theorem modBlock_cores (s : State) (k : Nat) (f : Block → Block) : (s.modBlock k f).cores = s.cores := rfl
@[simp] theorem modBlock_warps (s : State) (k : Nat) (f : Block → Block) : (s.modBlock k f).warps = s.warps := rfl
@[simp] theorem modBlock_blocks (s : State) (k : Nat) (f : Block → Block) : (s.modBlock k f).blocks = tmod s.blocks k f := rfl
@[simp] theorem modBlock_grids (s : State) (k : Nat) (f : Block → Block) : (s.modBlock k f).grids = s.grids := rfl
@[simp] theorem modBlock_ctxs (s : State) (k : Nat) (f : Block → Block) : (s.modBlock k f).ctxs = s.ctxs := rfl
@[simp] theorem modBlock_boards (s : State) (k : Nat) (f : Block → Block) : (s.modBlock k f).boards = s.boards := rfl
@[simp] theorem modBlock_breqs (s : State) (k : Nat) (f : Block → Block) : (s.modBlock k f).breqs = s.breqs := rfl
@[simp] theorem modBlock_stxs (s : State) (k : Nat) (f : Block → Block) : (s.modBlock k f).stxs = s.stxs := rfl
@[simp] theorem modBlock_arrs (s : State) (k : Nat) (f : Block → Block) : (s.modBlock k f).arrs = s.arrs := rfl
@[simp] theorem modBlock_swaps (s : State) (k : Nat) (f : Block → Block) : (s.modBlock k f).swaps = s.swaps := rfl
@[simp] theorem modBlock_caravans (s : State) (k : Nat) (f : Block → Block) : (s.modBlock k f).caravans = s.caravans := rfl
@[simp] theorem modBlock_packets (s : State) (k : Nat) (f : Block → Block) : (s.modBlock k f).packets = s.packets := rfl
@[simp] theorem modBlock_orphans (s : State) (k : Nat) (f : Block → Block) : (s.modBlock k f).orphans = s.orphans := rfl
@[simp] theorem modBlock_queues (s : State) (k : Nat) (f : Block → Block) : (s.modBlock k f).queues = s.queues := rfl
@[simp] theorem modBlock_inbound (s : State) (k : Nat) (f : Block → Block) : (s.modBlock k f).inbound = s.inbound := rfl
@[simp] theorem modBlock_hreads (s : State) (k : Nat) (f : Block → Block) : (s.modBlock k f).hreads = s.hreads := rfl
@[simp] theorem modBlock_outbound (s : State) (k : Nat) (f : Block → Block) : (s.modBlock k f).outbound = s.outbound := rfl
@[simp] theorem modBlock_hostAbsent (s : State) (k : Nat) (f : Block → Block) : (s.modBlock k f).hostAbsent = s.hostAbsent := rfl
@[simp] theorem modBlock_links (s : State) (k : Nat) (f : Block → Block) : (s.modBlock k f).links = s.links := rfl
@[simp] theorem modBlock_powerCap (s : State) (k : Nat) (f : Block → Block) : (s.modBlock k f).powerCap = s.powerCap := rfl
@[simp] theorem modBlock_capAt (s : State) (k : Nat) (f : Block → Block) : (s.modBlock k f).capAt = s.capAt := rfl
@[simp] theorem modBlock_capTimer (s : State) (k : Nat) (f : Block → Block) : (s.modBlock k f).capTimer = s.capTimer := rfl
@[simp] theorem modBlock_modPower (s : State) (k : Nat) (f : Block → Block) : (s.modBlock k f).modPower = s.modPower := rfl
@[simp] theorem modBlock_meas (s : State) (k : Nat) (f : Block → Block) : (s.modBlock k f).meas = s.meas := rfl
@[simp] theorem modBlock_bumps (s : State) (k : Nat) (f : Block → Block) : (s.modBlock k f).bumps = s.bumps := rfl
@[simp] theorem modBlock_g7 (s : State) (k : Nat) (f : Block → Block) : (s.modBlock k f).g7 = s.g7 := rfl
@[simp] theorem modBlock_cxl (s : State) (k : Nat) (f : Block → Block) : (s.modBlock k f).cxl = s.cxl := rfl
@[simp] theorem modBlock_cxlBad (s : State) (k : Nat) (f : Block → Block) : (s.modBlock k f).cxlBad = s.cxlBad := rfl
@[simp] theorem modBlock_vfs (s : State) (k : Nat) (f : Block → Block) : (s.modBlock k f).vfs = s.vfs := rfl
@[simp] theorem modBlock_hubLog (s : State) (k : Nat) (f : Block → Block) : (s.modBlock k f).hubLog = s.hubLog := rfl
@[simp] theorem modBlock_hubLost (s : State) (k : Nat) (f : Block → Block) : (s.modBlock k f).hubLost = s.hubLost := rfl
@[simp] theorem modBlock_msix (s : State) (k : Nat) (f : Block → Block) : (s.modBlock k f).msix = s.msix := rfl
@[simp] theorem modBlock_launchCount (s : State) (k : Nat) (f : Block → Block) : (s.modBlock k f).launchCount = s.launchCount := rfl
@[simp] theorem modBlock_issueCount (s : State) (k : Nat) (f : Block → Block) : (s.modBlock k f).issueCount = s.issueCount := rfl
@[simp] theorem modBlock_nextKey (s : State) (k : Nat) (f : Block → Block) : (s.modBlock k f).nextKey = s.nextKey := rfl
@[simp] theorem modBlock_agenda (s : State) (k : Nat) (f : Block → Block) : (s.modBlock k f).agenda = s.agenda := rfl
@[simp] theorem modBlock_fresh (s : State) (k : Nat) (f : Block → Block) : (s.modBlock k f).fresh = s.fresh := rfl
@[simp] theorem modBlock_rr (s : State) (k : Nat) (f : Block → Block) : (s.modBlock k f).rr = s.rr := rfl
@[simp] theorem modBlock_cur (s : State) (k : Nat) (f : Block → Block) : (s.modBlock k f).cur = s.cur := rfl

/- modGrid -/

@[simp] theorem modGrid_tsc (s : State) (k : Nat) (f : Grid → Grid) : (s.modGrid k f).tsc = s.tsc := rfl
@[simp] theorem modGrid_frame (s : State) (k : Nat) (f : Grid → Grid) : (s.modGrid k f).frame = s.frame := rfl
@[simp] theorem modGrid_stage (s : State) (k : Nat) (f : Grid → Grid) : (s.modGrid k f).stage = s.stage := rfl
@[simp] theorem modGrid_trained (s : State) (k : Nat) (f : Grid → Grid) : (s.modGrid k f).trained = s.trained := rfl
@[simp] theorem modGrid_mem (s : State) (k : Nat) (f : Grid → Grid) : (s.modGrid k f).mem = s.mem := rfl
@[simp] theorem modGrid_last (s : State) (k : Nat) (f : Grid → Grid) : (s.modGrid k f).last = s.last := rfl
@[simp] theorem modGrid_poison (s : State) (k : Nat) (f : Grid → Grid) : (s.modGrid k f).poison = s.poison := rfl
@[simp] theorem modGrid_writes (s : State) (k : Nat) (f : Grid → Grid) : (s.modGrid k f).writes = s.writes := rfl
@[simp] theorem modGrid_msgs (s : State) (k : Nat) (f : Grid → Grid) : (s.modGrid k f).msgs = s.msgs := rfl
@[simp] theorem modGrid_hseq (s : State) (k : Nat) (f : Grid → Grid) : (s.modGrid k f).hseq = s.hseq := rfl
@[simp] theorem modGrid_dies (s : State) (k : Nat) (f : Grid → Grid) : (s.modGrid k f).dies = s.dies := rfl
@[simp] theorem modGrid_cols (s : State) (k : Nat) (f : Grid → Grid) : (s.modGrid k f).cols = s.cols := rfl
@[simp] theorem modGrid_cores (s : State) (k : Nat) (f : Grid → Grid) : (s.modGrid k f).cores = s.cores := rfl
@[simp] theorem modGrid_warps (s : State) (k : Nat) (f : Grid → Grid) : (s.modGrid k f).warps = s.warps := rfl
@[simp] theorem modGrid_blocks (s : State) (k : Nat) (f : Grid → Grid) : (s.modGrid k f).blocks = s.blocks := rfl
@[simp] theorem modGrid_grids (s : State) (k : Nat) (f : Grid → Grid) : (s.modGrid k f).grids = tmod s.grids k f := rfl
@[simp] theorem modGrid_ctxs (s : State) (k : Nat) (f : Grid → Grid) : (s.modGrid k f).ctxs = s.ctxs := rfl
@[simp] theorem modGrid_boards (s : State) (k : Nat) (f : Grid → Grid) : (s.modGrid k f).boards = s.boards := rfl
@[simp] theorem modGrid_breqs (s : State) (k : Nat) (f : Grid → Grid) : (s.modGrid k f).breqs = s.breqs := rfl
@[simp] theorem modGrid_stxs (s : State) (k : Nat) (f : Grid → Grid) : (s.modGrid k f).stxs = s.stxs := rfl
@[simp] theorem modGrid_arrs (s : State) (k : Nat) (f : Grid → Grid) : (s.modGrid k f).arrs = s.arrs := rfl
@[simp] theorem modGrid_swaps (s : State) (k : Nat) (f : Grid → Grid) : (s.modGrid k f).swaps = s.swaps := rfl
@[simp] theorem modGrid_caravans (s : State) (k : Nat) (f : Grid → Grid) : (s.modGrid k f).caravans = s.caravans := rfl
@[simp] theorem modGrid_packets (s : State) (k : Nat) (f : Grid → Grid) : (s.modGrid k f).packets = s.packets := rfl
@[simp] theorem modGrid_orphans (s : State) (k : Nat) (f : Grid → Grid) : (s.modGrid k f).orphans = s.orphans := rfl
@[simp] theorem modGrid_queues (s : State) (k : Nat) (f : Grid → Grid) : (s.modGrid k f).queues = s.queues := rfl
@[simp] theorem modGrid_inbound (s : State) (k : Nat) (f : Grid → Grid) : (s.modGrid k f).inbound = s.inbound := rfl
@[simp] theorem modGrid_hreads (s : State) (k : Nat) (f : Grid → Grid) : (s.modGrid k f).hreads = s.hreads := rfl
@[simp] theorem modGrid_outbound (s : State) (k : Nat) (f : Grid → Grid) : (s.modGrid k f).outbound = s.outbound := rfl
@[simp] theorem modGrid_hostAbsent (s : State) (k : Nat) (f : Grid → Grid) : (s.modGrid k f).hostAbsent = s.hostAbsent := rfl
@[simp] theorem modGrid_links (s : State) (k : Nat) (f : Grid → Grid) : (s.modGrid k f).links = s.links := rfl
@[simp] theorem modGrid_powerCap (s : State) (k : Nat) (f : Grid → Grid) : (s.modGrid k f).powerCap = s.powerCap := rfl
@[simp] theorem modGrid_capAt (s : State) (k : Nat) (f : Grid → Grid) : (s.modGrid k f).capAt = s.capAt := rfl
@[simp] theorem modGrid_capTimer (s : State) (k : Nat) (f : Grid → Grid) : (s.modGrid k f).capTimer = s.capTimer := rfl
@[simp] theorem modGrid_modPower (s : State) (k : Nat) (f : Grid → Grid) : (s.modGrid k f).modPower = s.modPower := rfl
@[simp] theorem modGrid_meas (s : State) (k : Nat) (f : Grid → Grid) : (s.modGrid k f).meas = s.meas := rfl
@[simp] theorem modGrid_bumps (s : State) (k : Nat) (f : Grid → Grid) : (s.modGrid k f).bumps = s.bumps := rfl
@[simp] theorem modGrid_g7 (s : State) (k : Nat) (f : Grid → Grid) : (s.modGrid k f).g7 = s.g7 := rfl
@[simp] theorem modGrid_cxl (s : State) (k : Nat) (f : Grid → Grid) : (s.modGrid k f).cxl = s.cxl := rfl
@[simp] theorem modGrid_cxlBad (s : State) (k : Nat) (f : Grid → Grid) : (s.modGrid k f).cxlBad = s.cxlBad := rfl
@[simp] theorem modGrid_vfs (s : State) (k : Nat) (f : Grid → Grid) : (s.modGrid k f).vfs = s.vfs := rfl
@[simp] theorem modGrid_hubLog (s : State) (k : Nat) (f : Grid → Grid) : (s.modGrid k f).hubLog = s.hubLog := rfl
@[simp] theorem modGrid_hubLost (s : State) (k : Nat) (f : Grid → Grid) : (s.modGrid k f).hubLost = s.hubLost := rfl
@[simp] theorem modGrid_msix (s : State) (k : Nat) (f : Grid → Grid) : (s.modGrid k f).msix = s.msix := rfl
@[simp] theorem modGrid_launchCount (s : State) (k : Nat) (f : Grid → Grid) : (s.modGrid k f).launchCount = s.launchCount := rfl
@[simp] theorem modGrid_issueCount (s : State) (k : Nat) (f : Grid → Grid) : (s.modGrid k f).issueCount = s.issueCount := rfl
@[simp] theorem modGrid_nextKey (s : State) (k : Nat) (f : Grid → Grid) : (s.modGrid k f).nextKey = s.nextKey := rfl
@[simp] theorem modGrid_agenda (s : State) (k : Nat) (f : Grid → Grid) : (s.modGrid k f).agenda = s.agenda := rfl
@[simp] theorem modGrid_fresh (s : State) (k : Nat) (f : Grid → Grid) : (s.modGrid k f).fresh = s.fresh := rfl
@[simp] theorem modGrid_rr (s : State) (k : Nat) (f : Grid → Grid) : (s.modGrid k f).rr = s.rr := rfl
@[simp] theorem modGrid_cur (s : State) (k : Nat) (f : Grid → Grid) : (s.modGrid k f).cur = s.cur := rfl

/- modCtx -/

@[simp] theorem modCtx_tsc (s : State) (k : Nat) (f : Ctx → Ctx) : (s.modCtx k f).tsc = s.tsc := rfl
@[simp] theorem modCtx_frame (s : State) (k : Nat) (f : Ctx → Ctx) : (s.modCtx k f).frame = s.frame := rfl
@[simp] theorem modCtx_stage (s : State) (k : Nat) (f : Ctx → Ctx) : (s.modCtx k f).stage = s.stage := rfl
@[simp] theorem modCtx_trained (s : State) (k : Nat) (f : Ctx → Ctx) : (s.modCtx k f).trained = s.trained := rfl
@[simp] theorem modCtx_mem (s : State) (k : Nat) (f : Ctx → Ctx) : (s.modCtx k f).mem = s.mem := rfl
@[simp] theorem modCtx_last (s : State) (k : Nat) (f : Ctx → Ctx) : (s.modCtx k f).last = s.last := rfl
@[simp] theorem modCtx_poison (s : State) (k : Nat) (f : Ctx → Ctx) : (s.modCtx k f).poison = s.poison := rfl
@[simp] theorem modCtx_writes (s : State) (k : Nat) (f : Ctx → Ctx) : (s.modCtx k f).writes = s.writes := rfl
@[simp] theorem modCtx_msgs (s : State) (k : Nat) (f : Ctx → Ctx) : (s.modCtx k f).msgs = s.msgs := rfl
@[simp] theorem modCtx_hseq (s : State) (k : Nat) (f : Ctx → Ctx) : (s.modCtx k f).hseq = s.hseq := rfl
@[simp] theorem modCtx_dies (s : State) (k : Nat) (f : Ctx → Ctx) : (s.modCtx k f).dies = s.dies := rfl
@[simp] theorem modCtx_cols (s : State) (k : Nat) (f : Ctx → Ctx) : (s.modCtx k f).cols = s.cols := rfl
@[simp] theorem modCtx_cores (s : State) (k : Nat) (f : Ctx → Ctx) : (s.modCtx k f).cores = s.cores := rfl
@[simp] theorem modCtx_warps (s : State) (k : Nat) (f : Ctx → Ctx) : (s.modCtx k f).warps = s.warps := rfl
@[simp] theorem modCtx_blocks (s : State) (k : Nat) (f : Ctx → Ctx) : (s.modCtx k f).blocks = s.blocks := rfl
@[simp] theorem modCtx_grids (s : State) (k : Nat) (f : Ctx → Ctx) : (s.modCtx k f).grids = s.grids := rfl
@[simp] theorem modCtx_ctxs (s : State) (k : Nat) (f : Ctx → Ctx) : (s.modCtx k f).ctxs = tmod s.ctxs k f := rfl
@[simp] theorem modCtx_boards (s : State) (k : Nat) (f : Ctx → Ctx) : (s.modCtx k f).boards = s.boards := rfl
@[simp] theorem modCtx_breqs (s : State) (k : Nat) (f : Ctx → Ctx) : (s.modCtx k f).breqs = s.breqs := rfl
@[simp] theorem modCtx_stxs (s : State) (k : Nat) (f : Ctx → Ctx) : (s.modCtx k f).stxs = s.stxs := rfl
@[simp] theorem modCtx_arrs (s : State) (k : Nat) (f : Ctx → Ctx) : (s.modCtx k f).arrs = s.arrs := rfl
@[simp] theorem modCtx_swaps (s : State) (k : Nat) (f : Ctx → Ctx) : (s.modCtx k f).swaps = s.swaps := rfl
@[simp] theorem modCtx_caravans (s : State) (k : Nat) (f : Ctx → Ctx) : (s.modCtx k f).caravans = s.caravans := rfl
@[simp] theorem modCtx_packets (s : State) (k : Nat) (f : Ctx → Ctx) : (s.modCtx k f).packets = s.packets := rfl
@[simp] theorem modCtx_orphans (s : State) (k : Nat) (f : Ctx → Ctx) : (s.modCtx k f).orphans = s.orphans := rfl
@[simp] theorem modCtx_queues (s : State) (k : Nat) (f : Ctx → Ctx) : (s.modCtx k f).queues = s.queues := rfl
@[simp] theorem modCtx_inbound (s : State) (k : Nat) (f : Ctx → Ctx) : (s.modCtx k f).inbound = s.inbound := rfl
@[simp] theorem modCtx_hreads (s : State) (k : Nat) (f : Ctx → Ctx) : (s.modCtx k f).hreads = s.hreads := rfl
@[simp] theorem modCtx_outbound (s : State) (k : Nat) (f : Ctx → Ctx) : (s.modCtx k f).outbound = s.outbound := rfl
@[simp] theorem modCtx_hostAbsent (s : State) (k : Nat) (f : Ctx → Ctx) : (s.modCtx k f).hostAbsent = s.hostAbsent := rfl
@[simp] theorem modCtx_links (s : State) (k : Nat) (f : Ctx → Ctx) : (s.modCtx k f).links = s.links := rfl
@[simp] theorem modCtx_powerCap (s : State) (k : Nat) (f : Ctx → Ctx) : (s.modCtx k f).powerCap = s.powerCap := rfl
@[simp] theorem modCtx_capAt (s : State) (k : Nat) (f : Ctx → Ctx) : (s.modCtx k f).capAt = s.capAt := rfl
@[simp] theorem modCtx_capTimer (s : State) (k : Nat) (f : Ctx → Ctx) : (s.modCtx k f).capTimer = s.capTimer := rfl
@[simp] theorem modCtx_modPower (s : State) (k : Nat) (f : Ctx → Ctx) : (s.modCtx k f).modPower = s.modPower := rfl
@[simp] theorem modCtx_meas (s : State) (k : Nat) (f : Ctx → Ctx) : (s.modCtx k f).meas = s.meas := rfl
@[simp] theorem modCtx_bumps (s : State) (k : Nat) (f : Ctx → Ctx) : (s.modCtx k f).bumps = s.bumps := rfl
@[simp] theorem modCtx_g7 (s : State) (k : Nat) (f : Ctx → Ctx) : (s.modCtx k f).g7 = s.g7 := rfl
@[simp] theorem modCtx_cxl (s : State) (k : Nat) (f : Ctx → Ctx) : (s.modCtx k f).cxl = s.cxl := rfl
@[simp] theorem modCtx_cxlBad (s : State) (k : Nat) (f : Ctx → Ctx) : (s.modCtx k f).cxlBad = s.cxlBad := rfl
@[simp] theorem modCtx_vfs (s : State) (k : Nat) (f : Ctx → Ctx) : (s.modCtx k f).vfs = s.vfs := rfl
@[simp] theorem modCtx_hubLog (s : State) (k : Nat) (f : Ctx → Ctx) : (s.modCtx k f).hubLog = s.hubLog := rfl
@[simp] theorem modCtx_hubLost (s : State) (k : Nat) (f : Ctx → Ctx) : (s.modCtx k f).hubLost = s.hubLost := rfl
@[simp] theorem modCtx_msix (s : State) (k : Nat) (f : Ctx → Ctx) : (s.modCtx k f).msix = s.msix := rfl
@[simp] theorem modCtx_launchCount (s : State) (k : Nat) (f : Ctx → Ctx) : (s.modCtx k f).launchCount = s.launchCount := rfl
@[simp] theorem modCtx_issueCount (s : State) (k : Nat) (f : Ctx → Ctx) : (s.modCtx k f).issueCount = s.issueCount := rfl
@[simp] theorem modCtx_nextKey (s : State) (k : Nat) (f : Ctx → Ctx) : (s.modCtx k f).nextKey = s.nextKey := rfl
@[simp] theorem modCtx_agenda (s : State) (k : Nat) (f : Ctx → Ctx) : (s.modCtx k f).agenda = s.agenda := rfl
@[simp] theorem modCtx_fresh (s : State) (k : Nat) (f : Ctx → Ctx) : (s.modCtx k f).fresh = s.fresh := rfl
@[simp] theorem modCtx_rr (s : State) (k : Nat) (f : Ctx → Ctx) : (s.modCtx k f).rr = s.rr := rfl
@[simp] theorem modCtx_cur (s : State) (k : Nat) (f : Ctx → Ctx) : (s.modCtx k f).cur = s.cur := rfl

/- modLink -/

@[simp] theorem modLink_tsc (s : State) (k : Nat) (f : Link → Link) : (s.modLink k f).tsc = s.tsc := rfl
@[simp] theorem modLink_frame (s : State) (k : Nat) (f : Link → Link) : (s.modLink k f).frame = s.frame := rfl
@[simp] theorem modLink_stage (s : State) (k : Nat) (f : Link → Link) : (s.modLink k f).stage = s.stage := rfl
@[simp] theorem modLink_trained (s : State) (k : Nat) (f : Link → Link) : (s.modLink k f).trained = s.trained := rfl
@[simp] theorem modLink_mem (s : State) (k : Nat) (f : Link → Link) : (s.modLink k f).mem = s.mem := rfl
@[simp] theorem modLink_last (s : State) (k : Nat) (f : Link → Link) : (s.modLink k f).last = s.last := rfl
@[simp] theorem modLink_poison (s : State) (k : Nat) (f : Link → Link) : (s.modLink k f).poison = s.poison := rfl
@[simp] theorem modLink_writes (s : State) (k : Nat) (f : Link → Link) : (s.modLink k f).writes = s.writes := rfl
@[simp] theorem modLink_msgs (s : State) (k : Nat) (f : Link → Link) : (s.modLink k f).msgs = s.msgs := rfl
@[simp] theorem modLink_hseq (s : State) (k : Nat) (f : Link → Link) : (s.modLink k f).hseq = s.hseq := rfl
@[simp] theorem modLink_dies (s : State) (k : Nat) (f : Link → Link) : (s.modLink k f).dies = s.dies := rfl
@[simp] theorem modLink_cols (s : State) (k : Nat) (f : Link → Link) : (s.modLink k f).cols = s.cols := rfl
@[simp] theorem modLink_cores (s : State) (k : Nat) (f : Link → Link) : (s.modLink k f).cores = s.cores := rfl
@[simp] theorem modLink_warps (s : State) (k : Nat) (f : Link → Link) : (s.modLink k f).warps = s.warps := rfl
@[simp] theorem modLink_blocks (s : State) (k : Nat) (f : Link → Link) : (s.modLink k f).blocks = s.blocks := rfl
@[simp] theorem modLink_grids (s : State) (k : Nat) (f : Link → Link) : (s.modLink k f).grids = s.grids := rfl
@[simp] theorem modLink_ctxs (s : State) (k : Nat) (f : Link → Link) : (s.modLink k f).ctxs = s.ctxs := rfl
@[simp] theorem modLink_boards (s : State) (k : Nat) (f : Link → Link) : (s.modLink k f).boards = s.boards := rfl
@[simp] theorem modLink_breqs (s : State) (k : Nat) (f : Link → Link) : (s.modLink k f).breqs = s.breqs := rfl
@[simp] theorem modLink_stxs (s : State) (k : Nat) (f : Link → Link) : (s.modLink k f).stxs = s.stxs := rfl
@[simp] theorem modLink_arrs (s : State) (k : Nat) (f : Link → Link) : (s.modLink k f).arrs = s.arrs := rfl
@[simp] theorem modLink_swaps (s : State) (k : Nat) (f : Link → Link) : (s.modLink k f).swaps = s.swaps := rfl
@[simp] theorem modLink_caravans (s : State) (k : Nat) (f : Link → Link) : (s.modLink k f).caravans = s.caravans := rfl
@[simp] theorem modLink_packets (s : State) (k : Nat) (f : Link → Link) : (s.modLink k f).packets = s.packets := rfl
@[simp] theorem modLink_orphans (s : State) (k : Nat) (f : Link → Link) : (s.modLink k f).orphans = s.orphans := rfl
@[simp] theorem modLink_queues (s : State) (k : Nat) (f : Link → Link) : (s.modLink k f).queues = s.queues := rfl
@[simp] theorem modLink_inbound (s : State) (k : Nat) (f : Link → Link) : (s.modLink k f).inbound = s.inbound := rfl
@[simp] theorem modLink_hreads (s : State) (k : Nat) (f : Link → Link) : (s.modLink k f).hreads = s.hreads := rfl
@[simp] theorem modLink_outbound (s : State) (k : Nat) (f : Link → Link) : (s.modLink k f).outbound = s.outbound := rfl
@[simp] theorem modLink_hostAbsent (s : State) (k : Nat) (f : Link → Link) : (s.modLink k f).hostAbsent = s.hostAbsent := rfl
@[simp] theorem modLink_links (s : State) (k : Nat) (f : Link → Link) : (s.modLink k f).links = lput s.links k Link.init f := rfl
@[simp] theorem modLink_powerCap (s : State) (k : Nat) (f : Link → Link) : (s.modLink k f).powerCap = s.powerCap := rfl
@[simp] theorem modLink_capAt (s : State) (k : Nat) (f : Link → Link) : (s.modLink k f).capAt = s.capAt := rfl
@[simp] theorem modLink_capTimer (s : State) (k : Nat) (f : Link → Link) : (s.modLink k f).capTimer = s.capTimer := rfl
@[simp] theorem modLink_modPower (s : State) (k : Nat) (f : Link → Link) : (s.modLink k f).modPower = s.modPower := rfl
@[simp] theorem modLink_meas (s : State) (k : Nat) (f : Link → Link) : (s.modLink k f).meas = s.meas := rfl
@[simp] theorem modLink_bumps (s : State) (k : Nat) (f : Link → Link) : (s.modLink k f).bumps = s.bumps := rfl
@[simp] theorem modLink_g7 (s : State) (k : Nat) (f : Link → Link) : (s.modLink k f).g7 = s.g7 := rfl
@[simp] theorem modLink_cxl (s : State) (k : Nat) (f : Link → Link) : (s.modLink k f).cxl = s.cxl := rfl
@[simp] theorem modLink_cxlBad (s : State) (k : Nat) (f : Link → Link) : (s.modLink k f).cxlBad = s.cxlBad := rfl
@[simp] theorem modLink_vfs (s : State) (k : Nat) (f : Link → Link) : (s.modLink k f).vfs = s.vfs := rfl
@[simp] theorem modLink_hubLog (s : State) (k : Nat) (f : Link → Link) : (s.modLink k f).hubLog = s.hubLog := rfl
@[simp] theorem modLink_hubLost (s : State) (k : Nat) (f : Link → Link) : (s.modLink k f).hubLost = s.hubLost := rfl
@[simp] theorem modLink_msix (s : State) (k : Nat) (f : Link → Link) : (s.modLink k f).msix = s.msix := rfl
@[simp] theorem modLink_launchCount (s : State) (k : Nat) (f : Link → Link) : (s.modLink k f).launchCount = s.launchCount := rfl
@[simp] theorem modLink_issueCount (s : State) (k : Nat) (f : Link → Link) : (s.modLink k f).issueCount = s.issueCount := rfl
@[simp] theorem modLink_nextKey (s : State) (k : Nat) (f : Link → Link) : (s.modLink k f).nextKey = s.nextKey := rfl
@[simp] theorem modLink_agenda (s : State) (k : Nat) (f : Link → Link) : (s.modLink k f).agenda = s.agenda := rfl
@[simp] theorem modLink_fresh (s : State) (k : Nat) (f : Link → Link) : (s.modLink k f).fresh = s.fresh := rfl
@[simp] theorem modLink_rr (s : State) (k : Nat) (f : Link → Link) : (s.modLink k f).rr = s.rr := rfl
@[simp] theorem modLink_cur (s : State) (k : Nat) (f : Link → Link) : (s.modLink k f).cur = s.cur := rfl

/- tickFresh -/

@[simp] theorem tickFresh_tsc (s : State) : s.tickFresh.tsc = s.tsc := rfl
@[simp] theorem tickFresh_frame (s : State) : s.tickFresh.frame = s.frame := rfl
@[simp] theorem tickFresh_stage (s : State) : s.tickFresh.stage = s.stage := rfl
@[simp] theorem tickFresh_trained (s : State) : s.tickFresh.trained = s.trained := rfl
@[simp] theorem tickFresh_mem (s : State) : s.tickFresh.mem = s.mem := rfl
@[simp] theorem tickFresh_last (s : State) : s.tickFresh.last = s.last := rfl
@[simp] theorem tickFresh_poison (s : State) : s.tickFresh.poison = s.poison := rfl
@[simp] theorem tickFresh_writes (s : State) : s.tickFresh.writes = s.writes := rfl
@[simp] theorem tickFresh_msgs (s : State) : s.tickFresh.msgs = s.msgs := rfl
@[simp] theorem tickFresh_hseq (s : State) : s.tickFresh.hseq = s.hseq := rfl
@[simp] theorem tickFresh_dies (s : State) : s.tickFresh.dies = s.dies := rfl
@[simp] theorem tickFresh_cols (s : State) : s.tickFresh.cols = s.cols := rfl
@[simp] theorem tickFresh_cores (s : State) : s.tickFresh.cores = s.cores := rfl
@[simp] theorem tickFresh_warps (s : State) : s.tickFresh.warps = s.warps := rfl
@[simp] theorem tickFresh_blocks (s : State) : s.tickFresh.blocks = s.blocks := rfl
@[simp] theorem tickFresh_grids (s : State) : s.tickFresh.grids = s.grids := rfl
@[simp] theorem tickFresh_ctxs (s : State) : s.tickFresh.ctxs = s.ctxs := rfl
@[simp] theorem tickFresh_boards (s : State) : s.tickFresh.boards = s.boards := rfl
@[simp] theorem tickFresh_breqs (s : State) : s.tickFresh.breqs = s.breqs := rfl
@[simp] theorem tickFresh_stxs (s : State) : s.tickFresh.stxs = s.stxs := rfl
@[simp] theorem tickFresh_arrs (s : State) : s.tickFresh.arrs = s.arrs := rfl
@[simp] theorem tickFresh_swaps (s : State) : s.tickFresh.swaps = s.swaps := rfl
@[simp] theorem tickFresh_caravans (s : State) : s.tickFresh.caravans = s.caravans := rfl
@[simp] theorem tickFresh_packets (s : State) : s.tickFresh.packets = s.packets := rfl
@[simp] theorem tickFresh_orphans (s : State) : s.tickFresh.orphans = s.orphans := rfl
@[simp] theorem tickFresh_queues (s : State) : s.tickFresh.queues = s.queues := rfl
@[simp] theorem tickFresh_inbound (s : State) : s.tickFresh.inbound = s.inbound := rfl
@[simp] theorem tickFresh_hreads (s : State) : s.tickFresh.hreads = s.hreads := rfl
@[simp] theorem tickFresh_outbound (s : State) : s.tickFresh.outbound = s.outbound := rfl
@[simp] theorem tickFresh_hostAbsent (s : State) : s.tickFresh.hostAbsent = s.hostAbsent := rfl
@[simp] theorem tickFresh_links (s : State) : s.tickFresh.links = s.links := rfl
@[simp] theorem tickFresh_powerCap (s : State) : s.tickFresh.powerCap = s.powerCap := rfl
@[simp] theorem tickFresh_capAt (s : State) : s.tickFresh.capAt = s.capAt := rfl
@[simp] theorem tickFresh_capTimer (s : State) : s.tickFresh.capTimer = s.capTimer := rfl
@[simp] theorem tickFresh_modPower (s : State) : s.tickFresh.modPower = s.modPower := rfl
@[simp] theorem tickFresh_meas (s : State) : s.tickFresh.meas = s.meas := rfl
@[simp] theorem tickFresh_bumps (s : State) : s.tickFresh.bumps = s.bumps := rfl
@[simp] theorem tickFresh_g7 (s : State) : s.tickFresh.g7 = s.g7 := rfl
@[simp] theorem tickFresh_cxl (s : State) : s.tickFresh.cxl = s.cxl := rfl
@[simp] theorem tickFresh_cxlBad (s : State) : s.tickFresh.cxlBad = s.cxlBad := rfl
@[simp] theorem tickFresh_vfs (s : State) : s.tickFresh.vfs = s.vfs := rfl
@[simp] theorem tickFresh_hubLog (s : State) : s.tickFresh.hubLog = s.hubLog := rfl
@[simp] theorem tickFresh_hubLost (s : State) : s.tickFresh.hubLost = s.hubLost := rfl
@[simp] theorem tickFresh_msix (s : State) : s.tickFresh.msix = s.msix := rfl
@[simp] theorem tickFresh_launchCount (s : State) : s.tickFresh.launchCount = s.launchCount := rfl
@[simp] theorem tickFresh_issueCount (s : State) : s.tickFresh.issueCount = s.issueCount := rfl
@[simp] theorem tickFresh_nextKey (s : State) : s.tickFresh.nextKey = s.nextKey := rfl
@[simp] theorem tickFresh_agenda (s : State) : s.tickFresh.agenda = s.agenda := rfl
@[simp] theorem tickFresh_fresh (s : State) : s.tickFresh.fresh = s.fresh + 1 := rfl
@[simp] theorem tickFresh_rr (s : State) : s.tickFresh.rr = s.rr := rfl
@[simp] theorem tickFresh_cur (s : State) : s.tickFresh.cur = s.cur := rfl

/- modQueue -/

@[simp] theorem modQueue_tsc (s : State) (fn q : Nat) (f : QPair → QPair) : (s.modQueue fn q f).tsc = s.tsc := by
  unfold State.modQueue; split <;> rfl
@[simp] theorem modQueue_frame (s : State) (fn q : Nat) (f : QPair → QPair) : (s.modQueue fn q f).frame = s.frame := by
  unfold State.modQueue; split <;> rfl
@[simp] theorem modQueue_stage (s : State) (fn q : Nat) (f : QPair → QPair) : (s.modQueue fn q f).stage = s.stage := by
  unfold State.modQueue; split <;> rfl
@[simp] theorem modQueue_trained (s : State) (fn q : Nat) (f : QPair → QPair) : (s.modQueue fn q f).trained = s.trained := by
  unfold State.modQueue; split <;> rfl
@[simp] theorem modQueue_mem (s : State) (fn q : Nat) (f : QPair → QPair) : (s.modQueue fn q f).mem = s.mem := by
  unfold State.modQueue; split <;> rfl
@[simp] theorem modQueue_last (s : State) (fn q : Nat) (f : QPair → QPair) : (s.modQueue fn q f).last = s.last := by
  unfold State.modQueue; split <;> rfl
@[simp] theorem modQueue_poison (s : State) (fn q : Nat) (f : QPair → QPair) : (s.modQueue fn q f).poison = s.poison := by
  unfold State.modQueue; split <;> rfl
@[simp] theorem modQueue_writes (s : State) (fn q : Nat) (f : QPair → QPair) : (s.modQueue fn q f).writes = s.writes := by
  unfold State.modQueue; split <;> rfl
@[simp] theorem modQueue_msgs (s : State) (fn q : Nat) (f : QPair → QPair) : (s.modQueue fn q f).msgs = s.msgs := by
  unfold State.modQueue; split <;> rfl
@[simp] theorem modQueue_hseq (s : State) (fn q : Nat) (f : QPair → QPair) : (s.modQueue fn q f).hseq = s.hseq := by
  unfold State.modQueue; split <;> rfl
@[simp] theorem modQueue_dies (s : State) (fn q : Nat) (f : QPair → QPair) : (s.modQueue fn q f).dies = s.dies := by
  unfold State.modQueue; split <;> rfl
@[simp] theorem modQueue_cols (s : State) (fn q : Nat) (f : QPair → QPair) : (s.modQueue fn q f).cols = s.cols := by
  unfold State.modQueue; split <;> rfl
@[simp] theorem modQueue_cores (s : State) (fn q : Nat) (f : QPair → QPair) : (s.modQueue fn q f).cores = s.cores := by
  unfold State.modQueue; split <;> rfl
@[simp] theorem modQueue_warps (s : State) (fn q : Nat) (f : QPair → QPair) : (s.modQueue fn q f).warps = s.warps := by
  unfold State.modQueue; split <;> rfl
@[simp] theorem modQueue_blocks (s : State) (fn q : Nat) (f : QPair → QPair) : (s.modQueue fn q f).blocks = s.blocks := by
  unfold State.modQueue; split <;> rfl
@[simp] theorem modQueue_grids (s : State) (fn q : Nat) (f : QPair → QPair) : (s.modQueue fn q f).grids = s.grids := by
  unfold State.modQueue; split <;> rfl
@[simp] theorem modQueue_ctxs (s : State) (fn q : Nat) (f : QPair → QPair) : (s.modQueue fn q f).ctxs = s.ctxs := by
  unfold State.modQueue; split <;> rfl
@[simp] theorem modQueue_boards (s : State) (fn q : Nat) (f : QPair → QPair) : (s.modQueue fn q f).boards = s.boards := by
  unfold State.modQueue; split <;> rfl
@[simp] theorem modQueue_breqs (s : State) (fn q : Nat) (f : QPair → QPair) : (s.modQueue fn q f).breqs = s.breqs := by
  unfold State.modQueue; split <;> rfl
@[simp] theorem modQueue_stxs (s : State) (fn q : Nat) (f : QPair → QPair) : (s.modQueue fn q f).stxs = s.stxs := by
  unfold State.modQueue; split <;> rfl
@[simp] theorem modQueue_arrs (s : State) (fn q : Nat) (f : QPair → QPair) : (s.modQueue fn q f).arrs = s.arrs := by
  unfold State.modQueue; split <;> rfl
@[simp] theorem modQueue_swaps (s : State) (fn q : Nat) (f : QPair → QPair) : (s.modQueue fn q f).swaps = s.swaps := by
  unfold State.modQueue; split <;> rfl
@[simp] theorem modQueue_caravans (s : State) (fn q : Nat) (f : QPair → QPair) : (s.modQueue fn q f).caravans = s.caravans := by
  unfold State.modQueue; split <;> rfl
@[simp] theorem modQueue_packets (s : State) (fn q : Nat) (f : QPair → QPair) : (s.modQueue fn q f).packets = s.packets := by
  unfold State.modQueue; split <;> rfl
@[simp] theorem modQueue_orphans (s : State) (fn q : Nat) (f : QPair → QPair) : (s.modQueue fn q f).orphans = s.orphans := by
  unfold State.modQueue; split <;> rfl
@[simp] theorem modQueue_inbound (s : State) (fn q : Nat) (f : QPair → QPair) : (s.modQueue fn q f).inbound = s.inbound := by
  unfold State.modQueue; split <;> rfl
@[simp] theorem modQueue_hreads (s : State) (fn q : Nat) (f : QPair → QPair) : (s.modQueue fn q f).hreads = s.hreads := by
  unfold State.modQueue; split <;> rfl
@[simp] theorem modQueue_outbound (s : State) (fn q : Nat) (f : QPair → QPair) : (s.modQueue fn q f).outbound = s.outbound := by
  unfold State.modQueue; split <;> rfl
@[simp] theorem modQueue_hostAbsent (s : State) (fn q : Nat) (f : QPair → QPair) : (s.modQueue fn q f).hostAbsent = s.hostAbsent := by
  unfold State.modQueue; split <;> rfl
@[simp] theorem modQueue_links (s : State) (fn q : Nat) (f : QPair → QPair) : (s.modQueue fn q f).links = s.links := by
  unfold State.modQueue; split <;> rfl
@[simp] theorem modQueue_powerCap (s : State) (fn q : Nat) (f : QPair → QPair) : (s.modQueue fn q f).powerCap = s.powerCap := by
  unfold State.modQueue; split <;> rfl
@[simp] theorem modQueue_capAt (s : State) (fn q : Nat) (f : QPair → QPair) : (s.modQueue fn q f).capAt = s.capAt := by
  unfold State.modQueue; split <;> rfl
@[simp] theorem modQueue_capTimer (s : State) (fn q : Nat) (f : QPair → QPair) : (s.modQueue fn q f).capTimer = s.capTimer := by
  unfold State.modQueue; split <;> rfl
@[simp] theorem modQueue_modPower (s : State) (fn q : Nat) (f : QPair → QPair) : (s.modQueue fn q f).modPower = s.modPower := by
  unfold State.modQueue; split <;> rfl
@[simp] theorem modQueue_meas (s : State) (fn q : Nat) (f : QPair → QPair) : (s.modQueue fn q f).meas = s.meas := by
  unfold State.modQueue; split <;> rfl
@[simp] theorem modQueue_bumps (s : State) (fn q : Nat) (f : QPair → QPair) : (s.modQueue fn q f).bumps = s.bumps := by
  unfold State.modQueue; split <;> rfl
@[simp] theorem modQueue_g7 (s : State) (fn q : Nat) (f : QPair → QPair) : (s.modQueue fn q f).g7 = s.g7 := by
  unfold State.modQueue; split <;> rfl
@[simp] theorem modQueue_cxl (s : State) (fn q : Nat) (f : QPair → QPair) : (s.modQueue fn q f).cxl = s.cxl := by
  unfold State.modQueue; split <;> rfl
@[simp] theorem modQueue_cxlBad (s : State) (fn q : Nat) (f : QPair → QPair) : (s.modQueue fn q f).cxlBad = s.cxlBad := by
  unfold State.modQueue; split <;> rfl
@[simp] theorem modQueue_vfs (s : State) (fn q : Nat) (f : QPair → QPair) : (s.modQueue fn q f).vfs = s.vfs := by
  unfold State.modQueue; split <;> rfl
@[simp] theorem modQueue_hubLog (s : State) (fn q : Nat) (f : QPair → QPair) : (s.modQueue fn q f).hubLog = s.hubLog := by
  unfold State.modQueue; split <;> rfl
@[simp] theorem modQueue_hubLost (s : State) (fn q : Nat) (f : QPair → QPair) : (s.modQueue fn q f).hubLost = s.hubLost := by
  unfold State.modQueue; split <;> rfl
@[simp] theorem modQueue_msix (s : State) (fn q : Nat) (f : QPair → QPair) : (s.modQueue fn q f).msix = s.msix := by
  unfold State.modQueue; split <;> rfl
@[simp] theorem modQueue_launchCount (s : State) (fn q : Nat) (f : QPair → QPair) : (s.modQueue fn q f).launchCount = s.launchCount := by
  unfold State.modQueue; split <;> rfl
@[simp] theorem modQueue_issueCount (s : State) (fn q : Nat) (f : QPair → QPair) : (s.modQueue fn q f).issueCount = s.issueCount := by
  unfold State.modQueue; split <;> rfl
@[simp] theorem modQueue_nextKey (s : State) (fn q : Nat) (f : QPair → QPair) : (s.modQueue fn q f).nextKey = s.nextKey := by
  unfold State.modQueue; split <;> rfl
@[simp] theorem modQueue_agenda (s : State) (fn q : Nat) (f : QPair → QPair) : (s.modQueue fn q f).agenda = s.agenda := by
  unfold State.modQueue; split <;> rfl
@[simp] theorem modQueue_fresh (s : State) (fn q : Nat) (f : QPair → QPair) : (s.modQueue fn q f).fresh = s.fresh := by
  unfold State.modQueue; split <;> rfl
@[simp] theorem modQueue_rr (s : State) (fn q : Nat) (f : QPair → QPair) : (s.modQueue fn q f).rr = s.rr := by
  unfold State.modQueue; split <;> rfl
@[simp] theorem modQueue_cur (s : State) (fn q : Nat) (f : QPair → QPair) : (s.modQueue fn q f).cur = s.cur := by
  unfold State.modQueue; split <;> rfl

end Sys2Proof.Machine
end

