-- ==== Sys2Proof/Tests/Slice0.lean ====
section
/-! SUPPORT. Tests of the model, few and small: what WellFormed refuses, a word of every instruction of the opcode map,
one step of some instructions, and for each statement a state that meets its hypotheses. -/

namespace Sys2Proof.Tests

set_option Elab.async false

open Sys2Proof Sys2Proof.Machine

/- WellFormed: one ill-formed term for each check. -/

def hd : Hdr := ⟨15, false, 0, 0⟩
def r (n : Nat) : SrcB := .reg (BitVec.ofNat 9 n)
def im (n : Nat) : SrcB := .imm (BitVec.ofNat 32 n)
def si : IntM := ⟨false, false⟩
def rne : Rnd := ⟨false, .rne⟩
def rs : RndS := ⟨false, false, .rne⟩
def ng : GField := ⟨false, 0⟩
def mods (a b c : Bool) : Option Mods := some ⟨false, c, false, b, false, a⟩

/-- Displacements, pairs and quads, and registers past v511 (03 R52, R56). -/
theorem test_wf_registers : ([.bra hd 2, .call hd 1, .brx hd 3, .callx hd 5, .imadw hd si 1 2 (r 3) 4, .imadw hd si 0 2 (r 3) 5,
    .iadd64 hd si 1 2 (r 4), .isub64 hd si 0 3 (r 4), .iadd64 hd si 0 2 (r 5), .imul64 hd si 0 2 3, .lea64 hd true 0 1 2 (r 3),
    .clmulw hd 3 4 5, .mov64i hd 1 0, .dadd hd rne 0 1 2 none, .dmul hd rne 1 0 2 none, .dmin hd 0 2 1 none, .dmax hd 3 0 2 none,
    .dfma hd rne 0 2 4 5 none, .dsetp hd ⟨false, .eq⟩ 0 1 2 none, .pack4 hd false 0 2, .unpack4 hd true 2 0, .lds hd ⟨false, .w64⟩ 1 0 none,
    .ld hd ⟨false, .w128⟩ 2 0 none none, .ld hd ⟨false, .w32⟩ 2 1 none none, .st hd .w64 0 1 1 none none, .sts hd .w128 0 2 none,
    .stx hd .w64 0 3 none none, .stx hd .w32 1 3 none none, .pref hd 1 none, .cctl hd .inv 1 none, .icinv hd 3 none,
    .atom hd .add64 1 2 4 none none, .atom hd .add32 1 3 4 none none, .atomc hd true 0 2 4 5 none none, .red hd .add64 2 5 none none,
    .bpv hd 15 0 1 0 2, .mma hd 0 505 0 16 0 0 ng, .mmas hd false 0 0 8 511 96 0 0 ng, .mmld hd .raw 0 505 ng, .mmst hd .raw 0 505 0 ng,
    .cmprs hd true 510 0 8 96 0 0, .job hd 481, .sendw hd 505 0] : List Instr).all (fun i => !i.wf) = true := by decide

/-- Predicates written, and special registers that SWR does not write (03 R52, 04 R82). -/
theorem test_wf_predicates : ([.iaddc hd true 0 1 (r 2) 15, .isetp hd ⟨false, .eq⟩ 15 0 (r 1), .fsetp hd ⟨false, .eq⟩ 15 0 1 none,
    .dsetp hd ⟨false, .eq⟩ 15 0 2 none, .pgate hd 15 0 0 0 0, .vote hd .all 15 0, .vote hd .uni 16 0, .vmtst hd 15 0 (r 0), .shunt hd 15 (im 0),
    .swr hd .lane 0, .swr hd (.caps 2) 0] : List Instr).all (fun i => !i.wf) = true := by decide

/-- Modifiers that the opcode does not take, and forms that no word has (03 R54, R57, R60, R62; 06 R97, R121 to R123; 07 R140). -/
theorem test_wf_modifiers : ([.fsetp hd ⟨false, .eq⟩ 0 0 1 (mods false false true), .dsetp hd ⟨false, .eq⟩ 0 0 2 (mods false false true),
    .fadd hd rne 0 1 (r 2) (mods false false true), .fadd hd rne 0 1 (im 2) none, .fmul hd rne 0 1 (im 2) (mods false true false),
    .ffma hd rne 0 1 (im 2) 3 (mods false true false), .fmin hd 0 1 (im 2) none, .fldexp hd rne 0 1 (r 2) (mods false true false),
    .frnd hd rne 0 1 (mods false true false), .dadd hd rne 0 2 4 (mods false false true), .frcp hd false 0 1 (mods false true false),
    .cvt hd rs .nar .f32 false false 0 2, .cvt hd rs .f32 .nar false false 0 2, .cvt hd rs .i64 .f32 false false 1 2,
    .cvt hd rs .f32 .f64 false false 0 3, .cvt hd rs .f32 .i32 true false 0 2, .cvt hd ⟨false, false, .rtz⟩ .i32 .i16 false false 0 2,
    .cvtn hd rs .i32 0 false false 0 2, .cvtw hd rs .f64 0 0 2, .ld hd ⟨true, .w32⟩ 0 2 none none, .lds hd ⟨true, .w64⟩ 0 2 none,
    .ld hd ⟨false, .w32⟩ 0 2 none (some ⟨0, .dflt, .rlx⟩), .ld hd ⟨false, .w32⟩ 0 2 (some 0) (some ⟨0, .dflt, .rel⟩),
    .ld hd ⟨false, .w32⟩ 0 2 (some 0) (some ⟨1, .dflt, .acq⟩), .st hd .w32 0 2 1 (some 0) (some ⟨0, .dflt, .acq⟩),
    .stx hd .w32 0 2 (some 0) (some ⟨0, .d, .rlx⟩), .stx hd .w32 0 2 (some 0) (some ⟨0, .cl, .rel⟩), .red hd .exch32 0 2 none none,
    .red hd .add32 0 2 (some 0) (some ⟨0, .dflt, .acq⟩), .bar hd .wait true 0] : List Instr).all (fun i => !i.wf) = true := by decide

/-- Numbers of K, and immediates with reserved bits (03 R55, R56). -/
theorem test_wf_numbers : ([.mma hd 0 0 8 0 0 0 ng, .mma hd 0 0 8 24 0 0 ng, .mmas hd true 0 0 8 16 8 0 0 ng, .cmprs hd false 0 0 8 0 0 0,
    .draw hd (im 0x10), .burn hd (im 0x20), .shunt hd 0 (im 9), .shunt hd 0 (im 0x8000), .spawn hd (im 0x200000), .spawn hd (im 5)] :
    List Instr).all (fun i => !i.wf) = true := by decide

/- Decoding: words written from the tables of 03 R49, R53 to R62. -/

/-- The word of these fields with the guard pT (03 R49): length, opcode, M, D, A, B, C, and the bits above 63 (03 R53). -/
def word (len opc m d a b c ext : Nat) : BitVec 128 :=
  BitVec.ofNat 128 (len + opc * 2 ^ 2 + 15 * 2 ^ 12 + d * 2 ^ 24 + a * 2 ^ 33 + b * 2 ^ 42 + c * 2 ^ 51 + m * 2 ^ 60 + ext * 2 ^ 64)

/-- The decoder reads the instruction from the word, and the encoder writes the word. -/
def reads (x : BitVec 128 × Instr) : Bool :=
  match decode x.1 with
  | .ok i => i == x.2 && encode i == x.1
  | .error _ => false

theorem test_decode_ctrl : ([(word 0 0x000 0 0 0 0 0 0, .nop hd), (word 1 0x001 0 0 0 0 0 0xFFFFFFE0, .bra hd 0xFFFFFFE0),
    (word 0 0x002 0 0 6 0 0 0, .brx hd 6), (word 1 0x003 0 0 0 0 0 0x40, .call hd 0x40), (word 0 0x004 0 0 8 0 0 0, .callx hd 8),
    (word 0 0x005 0 0 0 0 0 0, .ret hd), (word 0 0x006 0 0 0 0 0 0, .exit hd),
    (BitVec.ofNat 128 (0x007 * 2 ^ 2 + 15 * 2 ^ 12 + 6 * 2 ^ 16 + 1 * 2 ^ 24 + 2 * 2 ^ 27 + 3 * 2 ^ 30 + 4 * 2 ^ 33), .rep 6 1 2 3 4),
    (word 0 0x008 0 0 0 0x155 0 0, .trap hd 0x155), (word 0 0x009 0 0 0 7 0 0, .bkpt hd 7), (word 0 0x00A 0 0 0 0 0 0, .isync hd),
    (word 1 0x00B 0 0 0 0 0 500, .nap hd (im 500)), (word 0 0x00B 0 0 0 9 0 0, .nap hd (r 9)), (word 0 0x00C 0 0 0 0 0 0, .yield hd),
    (word 0 0x00D 0 0 0 0 0 0, .resume hd), (word 0 0x00E 0 0 0 0 0 0, .tret hd), (word 0 0x00F 0 3 0x07E 0 0 0, .srd hd 3 (.shape 30)),
    (word 0 0x00F 0 3 0x01D 0 0 0, .srd hd 3 (.mate 1)), (word 0 0x010 0 0x031 4 0 0 0, .swr hd .fen 4)] :
    List (BitVec 128 × Instr)).all reads = true := by decide

theorem test_decode_int : ([(word 0 0x040 0 1 2 3 0 0, .iadd hd si 1 2 (r 3)), (word 1 0x041 0xC 1 2 0 0 5, .isub hd ⟨true, true⟩ 1 2 (im 5)),
    (word 0 0x042 4 1 2 3 14 0, .iaddc hd true 1 2 (r 3) 14), (word 0 0x043 8 1 2 0 0 0, .ineg hd true 1 2), (word 0 0x044 0 1 2 0 0 0, .iabs hd false 1 2),
    (word 0 0x045 0 1 2 3 0 0, .imul hd si 1 2 (r 3)), (word 0 0x046 4 1 2 3 0 0, .imulh hd true 1 2 (r 3)),
    (word 0 0x047 0 1 2 3 4 0, .imad hd si 1 2 (r 3) 4), (word 1 0x048 0 2 3 0 4 7, .imadw hd si 2 3 (im 7) 4),
    (word 0 0x049 0 2 4 6 0 0, .iadd64 hd si 2 4 (r 6)), (word 1 0x04A 4 2 4 0 0 0xFFFFFFFF, .isub64 hd ⟨false, true⟩ 2 4 (im 0xFFFFFFFF)),
    (word 0 0x04B 8 2 4 6 0 0, .imul64 hd ⟨true, false⟩ 2 4 6), (word 0 0x04C 4 1 2 3 0 0, .imin hd true 1 2 (r 3)),
    (word 0 0x04D 0 1 2 3 0 0, .imax hd false 1 2 (r 3)), (word 0 0x04E 4 1 2 3 4 0, .isad hd ⟨false, true⟩ 1 2 (r 3) 4),
    (word 0 0x04F 6 1 2 3 4 0, .idot4 hd ⟨false, true⟩ true 1 2 3 4), (word 0 0x050 8 1 2 3 4 0, .idot2 hd ⟨true, false⟩ false 1 2 3 4),
    (word 0 0x051 2 1 2 3 0 0, .lea hd 2 1 2 (r 3)), (word 1 0x052 7 2 4 0 0 16, .lea64 hd true 3 2 4 (im 16))] :
    List (BitVec 128 × Instr)).all reads = true := by decide

theorem test_decode_bits : ([(word 1 0x080 0 1 2 3 4 0x96, .lgate hd 1 2 3 4 0x96), (word 0 0x081 0 1 2 3 0 0, .shl hd 1 2 (r 3)),
    (word 1 0x082 0 1 2 0 0 31, .shr hd 1 2 (im 31)), (word 0 0x083 0 1 2 3 0 0, .sar hd 1 2 (r 3)), (word 0 0x084 0 1 2 3 0 0, .rotl hd 1 2 (r 3)),
    (word 0 0x085 1 1 2 3 4 0, .shf hd true 1 2 (r 3) 4), (word 0 0x086 0 1 2 0 0 0, .popc hd 1 2), (word 0 0x087 0 1 2 0 0 0, .clz hd 1 2),
    (word 0 0x088 0 1 2 0 0 0, .ctz hd 1 2), (word 0 0x089 0 1 2 0 0 0, .brev hd 1 2), (word 1 0x08A 4 1 2 0 0 0x808, .bfe hd true 1 2 (im 0x808)),
    (word 0 0x08B 0 1 2 3 4 0, .bfi hd 1 2 (r 3) 4), (word 0 0x08C 0 1 2 3 4 0, .prmt hd 1 2 (r 3) 4), (word 0 0x08D 0 1 2 3 0 0, .clmul hd 1 2 3),
    (word 0 0x08E 0 1 2 3 0 0, .clmulh hd 1 2 3), (word 0 0x08F 0 2 3 4 0 0, .clmulw hd 2 3 4)] :
    List (BitVec 128 × Instr)).all reads = true := by decide

theorem test_decode_cmp : ([(word 1 0x0C0 0xA 14 2 0 0 100, .isetp hd ⟨true, .lt⟩ 14 2 (im 100)),
    (word 1 0x0C1 0xE 1 2 3 0 (2 ^ 25 + 2 ^ 26), .fsetp hd ⟨true, .num⟩ 1 2 3 (some ⟨false, false, false, true, true, false⟩)),
    (word 0 0x0C2 5 1 2 4 0 0, .dsetp hd ⟨false, .ge⟩ 1 2 4 none), (word 1 0x0C3 0 1 15 2 3 0x80, .pgate hd 1 15 2 3 0x80),
    (word 0 0x0C4 0 1 2 3 4 0, .sel hd 1 2 (r 3) 4), (word 0 0x0C5 0 1 0 0 0 0, .p2v hd 1), (word 1 0x0C6 0 0 2 0 0 0x7FFF, .v2p hd 2 (im 0x7FFF)),
    (word 0 0x0C7 0 1 2 0 0 0, .mov hd 1 2), (word 1 0x0C8 0 1 0 0 0 0x3F800000, .movi hd 1 0x3F800000),
    (word 2 0x0C9 0 2 0 0 0 0x123456789ABCDEF0, .mov64i hd 2 0x123456789ABCDEF0)] : List (BitVec 128 × Instr)).all reads = true := by decide

theorem test_decode_flt : ([(word 0 0x100 0 1 2 3 0 0, .fadd hd rne 1 2 (r 3) none),
    (word 1 0x101 5 1 2 3 0 (2 ^ 24), .fsub hd ⟨true, .rtz⟩ 1 2 (r 3) (mods true false false)),
    (word 2 0x102 2 1 2 0 0 (2 ^ 25 + 0x40000000 * 2 ^ 32), .fmul hd ⟨false, .rup⟩ 1 2 (im 0x40000000) (some ⟨false, false, false, false, true, false⟩)),
    (word 1 0x103 3 1 2 3 4 (2 ^ 28 + 2 ^ 29), .ffma hd ⟨false, .rdn⟩ 1 2 (r 3) 4 (some ⟨true, true, false, false, false, false⟩)),
    (word 0 0x104 0 1 2 3 0 0, .fmin hd 1 2 (r 3) none), (word 0 0x105 0 1 2 3 0 0, .fmax hd 1 2 (r 3) none),
    (word 0 0x106 1 1 2 0 0 0, .frnd hd ⟨false, .rtz⟩ 1 2 none), (word 0 0x107 0 1 2 0 0 0, .fclass hd 1 2), (word 0 0x108 0 1 2 0 0 0, .fexp hd 1 2),
    (word 2 0x109 0 1 2 0 0 (0xFFFFFFFE * 2 ^ 32), .fldexp hd rne 1 2 (im 0xFFFFFFFE) (mods false false false)),
    (word 0 0x10A 0 1 2 3 0 0, .hadd2 hd rne 1 2 (r 3) none), (word 1 0x10B 0 1 2 3 0 (2 ^ 27), .hmul2 hd rne 1 2 (r 3) (some ⟨false, false, true, false, false, false⟩)),
    (word 0 0x10C 4 1 2 3 4 0, .hfma2 hd ⟨true, .rne⟩ 1 2 (r 3) 4 none), (word 0 0x10D 0 1 2 3 4 0, .bfma2 hd rne 1 2 (r 3) 4 none)] :
    List (BitVec 128 × Instr)).all reads = true := by decide

theorem test_decode_dbl : ([(word 0 0x140 0 2 4 6 0 0, .dadd hd rne 2 4 6 none), (word 1 0x141 1 2 4 6 0 (2 ^ 24), .dmul hd ⟨false, .rtz⟩ 2 4 6 (mods true false false)),
    (word 0 0x142 0 2 4 6 8 0, .dfma hd rne 2 4 6 8 none), (word 0 0x143 0 2 4 6 0 0, .dmin hd 2 4 6 none), (word 0 0x144 0 2 4 6 0 0, .dmax hd 2 4 6 none),
    (word 0 0x145 4 1 2 0 0 0, .frcp hd true 1 2 none), (word 0 0x146 0 1 2 0 0 0, .frsq hd false 1 2 none),
    (word 1 0x147 0 1 2 0 0 (2 ^ 25), .fsqrt hd false 1 2 (some ⟨false, false, false, false, true, false⟩)), (word 0 0x148 0 1 2 0 0 0, .fex2 hd false 1 2 none),
    (word 0 0x149 4 1 2 0 0 0, .flg2 hd true 1 2 none)] : List (BitVec 128 × Instr)).all reads = true := by decide

theorem test_decode_cvt : ([(word 1 0x180 0xD 2 3 0 0 (9 * 2 ^ 20 + 10 * 2 ^ 16 + 2 ^ 24), .cvt hd ⟨true, true, .rtz⟩ .f64 .f16 true false 2 3),
    (word 1 0x181 0 2 3 0 0 (12 * 2 ^ 20 + 8 * 2 ^ 16 + 5 * 2 ^ 5 + 2 ^ 4 + 2 ^ 25), .cvtn hd rs .f32 5 false true 2 3),
    (word 1 0x182 0 2 3 0 0 (11 * 2 ^ 20 + 12 * 2 ^ 16 + 7 * 2 ^ 5 + 2 ^ 4), .cvtw hd rs .bf16 7 2 3),
    (word 0 0x183 1 2 4 0 0 0, .pack4 hd true 2 4), (word 0 0x184 0 4 2 0 0 0, .unpack4 hd false 4 2)] :
    List (BitVec 128 × Instr)).all reads = true := by decide

theorem test_decode_lane : ([(word 1 0x1C0 1 1 2 0 0 3, .shfl hd .up 1 2 (im 3)), (word 0 0x1C0 3 1 2 4 0 0, .shfl hd .bfly 1 2 (r 4)),
    (word 0 0x1C1 3 1 2 0 0 0, .vote hd .ballot 1 2), (word 0 0x1C1 1 14 2 0 0 0, .vote hd .any 14 2), (word 0 0x1C2 8 1 2 0 0 0, .redw hd .fadd 1 2),
    (word 0 0x1C3 0 1 2 0 1 0, .scanw hd .add true 1 2), (word 0 0x1C4 1 1 2 0 0 0, .matchv hd true 1 2), (word 0 0x1C5 0 1 0 0 0 0, .active hd 1),
    (word 1 0x1C6 0 0 0 0 0 0xFFFFFFFF, .wsync hd (im 0xFFFFFFFF))] : List (BitVec 128 × Instr)).all reads = true := by decide

theorem test_decode_mem : ([(word 0 0x200 9 1 2 0 0 0, .ld hd ⟨true, .w16⟩ 1 2 none none),
    (word 2 0x200 4 4 2 0 0 (2 ^ 8 + 4 * 2 ^ 10 + 0xFFFFFFF0 * 2 ^ 32), .ld hd ⟨false, .w128⟩ 4 2 (some 0xFFFFFFF0) (some ⟨0, .d, .acq⟩)),
    (word 1 0x201 3 0 2 4 0xFF 8, .st hd .w64 2 4 0xFF (some 8) none), (word 0 0x202 2 1 3 0 0 0, .lds hd ⟨false, .w32⟩ 1 3 none),
    (word 1 0x203 0 0 3 5 0 1, .sts hd .w8 3 5 (some 1)), (word 2 0x204 2 0 2 5 0 (5 * 2 ^ 10), .stx hd .w32 2 5 (some 0) (some ⟨0, .k, .rlx⟩)),
    (word 0 0x205 0 0 2 0 0 0, .pref hd 2 none), (word 1 0x206 2 0 2 0 0 128, .cctl hd .wbinv 2 (some 128)), (word 0 0x207 0 0 2 0 0 0, .icinv hd 2 none)] :
    List (BitVec 128 × Instr)).all reads = true := by decide

theorem test_decode_sync : ([(word 2 0x240 1 2 4 6 0 (3 * 2 ^ 8 + 6 * 2 ^ 10 + 5 * 2 ^ 13), .atom hd .add64 2 4 6 (some 0) (some ⟨5, .s, .ar⟩)),
    (word 0 0x241 2 1 4 6 7 0, .atomc hd false 1 4 6 7 none none), (word 1 0x242 15 0 4 5 0 4, .red hd .fmax 4 5 (some 4) none),
    (word 1 0x243 0 0 0 0 1 (2 * 2 ^ 10), .fence hd 1 (some .b)), (word 0 0x243 0 0 0 0 0xFF 0, .fence hd 0xFF none),
    (word 1 0x244 2 1 2 0 0 9, .waita hd .ge 1 2 (im 9))] : List (BitVec 128 × Instr)).all reads = true := by decide

theorem test_decode_bar : ([(word 0 0x280 5 0 0x7F 0 0 0, .bar hd .arrive true 0x7F), (word 0 0x281 0 1 3 0 0 0, .barsv hd 1 3),
    (word 0 0x282 0 0 3 5 0 0, .barld hd 3 5), (word 0 0x283 4 1 2 15 3 0, .bpv hd 4 1 2 15 3), (word 0 0x284 0 7 2 1 0 0, .bvm hd 7 2 1),
    (word 0 0x285 0 0 0 2 0 0, .brst hd 2), (word 0 0x286 0 1 6 0 0 0, .vmpop hd 1 6), (word 1 0x287 0 3 5 0 0 255, .vmtst hd 3 5 (im 255)),
    (word 0 0x288 0 1 4 2 0 0, .vmnext hd 1 4 (r 2))] : List (BitVec 128 × Instr)).all reads = true := by decide

theorem test_decode_mat : ([(word 2 0x2C0 0 7 8 16 0 (64 + 3 * 2 ^ 29 + 5 * 2 ^ 32 + 2 ^ 35 + 9 * 2 ^ 36), .mma hd 7 8 16 64 3 5 ⟨true, 9⟩),
    (word 2 0x2C1 1 0 8 16 32 96, .mmas hd true 0 8 16 32 96 0 0 ng), (word 0 0x2C2 0 3 0 0 0 0, .mmz hd 3), (word 0 0x2C3 8 1 2 3 0 0, .mmrd hd (.slot 0) 1 2 (r 3)),
    (word 1 0x2C4 2 2 1 0 0 127, .mmwr hd .bf16 2 1 (im 127)), (word 2 0x2C5 1 2 8 0 0 0, .mmld hd .f16 2 8 ng),
    (word 2 0x2C6 15 2 8 0 0 (6 * 2 ^ 26), .mmst hd (.slot 7) 2 8 6 ng), (word 0 0x2C7 0 5 0 0 0 0, .mmwait hd 5),
    (word 2 0x2C8 0 40 8 16 0 (96 + 2 * 2 ^ 29 + 1 * 2 ^ 26), .cmprs hd false 40 8 16 96 2 1)] : List (BitVec 128 × Instr)).all reads = true := by decide

theorem test_decode_engines_power_work : ([(word 0 0x300 0 3 2 0 0 0, .qpush hd 3 2), (word 0 0x301 0 1 2 0 0 0, .qpop hd 1 2), (word 0 0x302 0 0 32 0 0 0, .job hd 32),
    (word 0 0x303 0 0 9 15 0 0, .gset hd 9 15), (word 0 0x340 0 0 0 2 0 0, .draw hd (r 2)), (word 1 0x341 0 0 0 0 0 0x400008, .burn hd (im 0x400008)),
    (word 1 0x342 0 1 0 0 0 0x20008, .shunt hd 1 (im 0x20008)), (word 1 0x380 0 0 0 0 0 0x30002, .spawn hd (im 0x30002)), (word 0 0x381 0 0 8 3 0 0, .sendw hd 8 3)] :
    List (BitVec 128 × Instr)).all reads = true := by decide

/-- GP, GN, LA and KEEP of the common fields (03 R49). -/
theorem test_decode_header : reads (BitVec.ofNat 128 (0x040 * 2 ^ 2 + 9 * 2 ^ 12 + 2 ^ 16 + 11 * 2 ^ 17 + 5 * 2 ^ 21 + 1 * 2 ^ 24 + 2 * 2 ^ 33 + 3 * 2 ^ 42),
    .iadd ⟨9, true, 11, 5⟩ si 1 2 (r 3)) = true := by decide

def fails (c : DecodeCause) (w : BitVec 128) : Bool :=
  match decode w with
  | .ok _ => false
  | .error e => e == c

/-- Reserved codes, unused fields, lengths that an opcode does not have, and numbers out of a kind's range (03 R52, R57, R62, R63). -/
theorem test_decode_bad_field : [word 0 0x040 1 1 2 3 0 0, word 0 0x200 5 1 2 0 0 0, word 0 0x200 10 1 2 0 0 0, word 0 0x0C0 6 1 2 3 0 0, word 0 0x000 0 1 0 0 0 0,
    word 1 0x000 0 0 0 0 0 0, word 2 0x040 0 1 2 3 0 0, word 0 0x001 0 0 0 0 0 0, word 0 0x0C4 0 1 2 3 16 0, word 0 0x2C2 0 8 0 0 0 0, word 0 0x286 0 1 8 0 0 0,
    word 0 0x300 0 4 2 0 0 0, word 1 0x040 0 1 2 3 0 5, word 1 0x100 0 1 2 3 0 (2 ^ 30), word 1 0x100 8 1 2 3 0 0, word 2 0x2C0 0 0 8 16 0 (64 + 2 ^ 16),
    word 0 0x1C2 11 1 2 0 0 0, word 0 0x00F 0 1 0x00B 0 0 0, word 0 0x010 0 0x000 1 0 0 0, word 0 0x1C3 0 1 2 0 2 0].all (fails .badField) = true := by decide

/-- BAD_LENGTH before all, then UNIMPL_OP; a privileged special register (03 R63, 04 R82). -/
theorem test_decode_other_causes : fails .badLength (word 3 0x3FF 0 0 0 0 0 0) = true ∧ fails .unimplOp (word 0 0x011 1 2 3 0 0 0) = true
    ∧ fails .unimplOp (word 0 0x3C0 0 0 0 0 0 0) = true ∧ fails .privileged (word 0 0x00F 0 1 0x100 0 0 0) = true := by decide

/- Steps: the machine after reset with an instruction placed, at the moment at which it executes. -/

/-- The state in which step executes the instructions of these bits. -/
def onBits (w : Nat) : State :=
  let s := State.reset.withFetchWord 128 w
  match s.nextTurn with
  | (.issue core quarter, t) =>
    match t.pick core quarter [] with
    | .instr _ t => t
    | .idle t => t
  | (_, t) => t

def on (i : Instr) : State := onBits (encode i).toNat

/-- The placed grid and block. -/
def gk0 : Nat := State.reset.nextKey
def bk0 : Nat := gk0 + 1

def State.setW (s : State) (f : Warp → Warp) : State := s.modWarp 0 f
def State.setB (s : State) (f : Block → Block) : State := s.modBlock bk0 f
def State.setG (s : State) (f : Grid → Grid) : State := { s with grids := tmod s.grids gk0 f }
def State.setL (s : State) (f : Launch → Launch) : State := State.setG s (fun g => { g with rec_ := f g.rec_ })
def low (n : Nat) : W64 := BitVec.ofNat 64 n
def codeAt (n : Nat) : W64 := BitVec.ofNat 64 (codeBase + n)
/-- Registers with one word in all lanes. -/
def State.regs (s : State) (l : List (Nat × W32)) : State :=
  State.setW s (fun w => { w with regs := l.foldl (fun rs x => lput rs x.1 (.u 0) (fun _ => .u x.2)) w.regs })

/-- The instruction is issued with nothing against it, and P holds of the context. -/
def chk (s : State) (h : Hdr) (i : Instr) (P : View → Bool) : Bool :=
  match s.view h with
  | some v => v.goes (reqOf i v) && v.w.asyncCause.isNone && P v
  | none => false

theorem shows {s : State} {h : Hdr} {i : Instr} {P : View → Prop} [DecidablePred P] (c : chk s h i (fun v => decide (P v)) = true) :
    ∃ v, Issues s h i v ∧ P v := by
  unfold chk at c
  split at c
  · rename_i v hv
    simp only [Bool.and_eq_true, decide_eq_true_eq, Option.isNone_iff_eq_none] at c
    exact ⟨v, ⟨hv, c.1.1, c.1.2⟩, c.2⟩
  · cases c

theorem runs {l : List Instr} (c : l.all (fun i => chk (on i) hd i (fun _ => true)) = true) : ∀ i ∈ l, ∃ v, Issues (on i) hd i v := by
  intro i hi
  have h := List.all_eq_true.mp c i hi
  unfold chk at h
  split at h
  · rename_i v hv
    simp only [Bool.and_eq_true, Option.isNone_iff_eq_none, Bool.and_true] at h
    exact ⟨v, hv, h.1, h.2⟩
  · cases h

/-- The warp stands at an instruction that it may trap at, and P holds of the context. -/
def stood (s : State) (h : Hdr) (P : View → Bool) : Bool :=
  match s.view h with
  | some v => v.grp != 0 && !v.w.halted && v.w.wait == .none && v.w.pend.isNone && v.w.async.isEmpty && v.w.trap.isNone && v.w.rep.isNone && v.w.replay.isEmpty
      && v.w.half.isNone && v.w.ops.all (fun o => o.done && o.fault.isNone) && v.g.rec_.handler != 0 && P v
  | none => false

theorem halts {s : State} {h : Hdr} {P : View → Prop} [DecidablePred P] (c : stood s h (fun v => decide (P v)) = true) : ∃ v, Stands s h v ∧ P v := by
  unfold stood at c
  split at c
  · rename_i v hv
    simp only [Bool.and_eq_true, decide_eq_true_eq, Option.isNone_iff_eq_none, bne_iff_ne, beq_iff_eq, Bool.not_eq_true', List.isEmpty_iff, List.all_eq_true] at c
    obtain ⟨⟨⟨⟨⟨⟨⟨⟨⟨⟨⟨c1, c2⟩, c3⟩, c4⟩, c5⟩, c6⟩, c7⟩, c8⟩, c12⟩, c9⟩, c10⟩, c11⟩ := c
    exact ⟨v, ⟨hv, c1, ⟨c2, c3, c4, c5⟩, ⟨c6, c7, c8, c12⟩, c9, c10⟩, c11⟩
  · cases c

theorem runs_over {α : Type} {l : List α} {s : α → State} {h : Hdr} {i : α → Instr} (c : l.all (fun x => chk (s x) h (i x) (fun _ => true)) = true) :
    ∀ x ∈ l, ∃ v, Issues (s x) h (i x) v := by
  intro x hx
  have := List.all_eq_true.mp c x hx
  obtain ⟨v, hv, _⟩ := shows (P := fun _ => True) (s := s x) (h := h) (i := i x) (by simpa using this)
  exact ⟨v, hv⟩

theorem halts_over {α : Type} {l : List α} {s : α → State} {h : Hdr} {P : α → View → Prop} [∀ x v, Decidable (P x v)]
    (c : l.all (fun x => stood (s x) h (fun v => decide (P x v))) = true) : ∀ x ∈ l, ∃ v, Stands (s x) h v ∧ P x v :=
  fun x hx => halts (List.all_eq_true.mp c x hx)

theorem runs_one {s : State} {h : Hdr} {i : Instr} (c : chk s h i (fun _ => true) = true) : ∃ v, Issues s h i v := by
  obtain ⟨v, hv, _⟩ := shows (P := fun _ => True) (s := s) (h := h) (i := i) (by simpa using c)
  exact ⟨v, hv⟩

/-- What holds in the listed lanes holds in the active ones. -/
theorem active {v : View} {P : Nat → Prop} (h : ∀ l ∈ v.lanes, P l) : ∀ l, has v.act l = true → P l :=
  fun l hl => h l ((mem_lanesOf v.act l).mpr hl)

theorem wit_IntegerWordArithmetic : ∀ i ∈ ([.iadd hd si 1 2 (im 3), .isub hd ⟨true, true⟩ 1 2 (r 3), .ineg hd true 1 2, .iabs hd false 511 2,
    .imul hd si 1 2 (r 1), .imulh hd true 1 2 (r 3), .imad hd si 1 2 (r 3) 1, .imin hd true 1 2 (r 3), .imax hd false 1 2 (im 0xFFFFFFFF),
    .isad hd si 1 2 (r 3) 4] : List Instr), ∃ v, Issues (on i) hd i v := runs (by decide +kernel)

theorem wit_IntegerPairArithmetic : ∀ i ∈ ([.imadw hd si 2 3 (im 7) 4, .iadd64 hd si 2 4 (r 6), .isub64 hd si 510 4 (im 1), .imul64 hd si 2 4 6] :
    List Instr), ∃ v, Issues (on i) hd i v := runs (by decide +kernel)

theorem wit_AddWithCarry : ∀ i ∈ ([.iaddc hd true 1 2 (r 3) 14, .iaddc hd false 1 2 (im 3) 0] : List Instr), ∃ v, Issues (on i) hd i v := runs (by decide +kernel)

theorem wit_DotProductsAndAddresses : ∀ i ∈ ([.idot4 hd si true 1 2 3 4, .idot2 hd si false 1 2 3 4, .lea hd 3 1 2 (r 3), .lea64 hd true 3 2 4 (im 5)] :
    List Instr), ∃ v, Issues (on i) hd i v := runs (by decide +kernel)

theorem wit_ShiftsAndRotates : ∀ i ∈ ([.shl hd 1 2 (im 32), .shr hd 1 2 (r 3), .sar hd 1 2 (im 31), .rotl hd 1 2 (r 3), .shf hd false 1 2 (r 3) 4,
    .shf hd true 1 2 (im 32) 4] : List Instr), ∃ v, Issues (on i) hd i v := runs (by decide +kernel)

theorem wit_BitCounts : ∀ i ∈ ([.popc hd 1 2, .clz hd 1 2, .ctz hd 1 2, .brev hd 1 1] : List Instr), ∃ v, Issues (on i) hd i v := runs (by decide +kernel)

theorem wit_BitFieldsGatesAndCarryless : ∀ i ∈ ([.bfe hd true 1 2 (im 0x2000), .bfi hd 1 2 (r 3) 4, .prmt hd 1 2 (r 3) 4, .lgate hd 1 2 3 4 0x96,
    .clmul hd 1 2 3, .clmulh hd 1 2 3, .clmulw hd 2 2 3] : List Instr), ∃ v, Issues (on i) hd i v := runs (by decide +kernel)

/-- The guard p0, true in lane 0; every other ceiling than U, A and G. -/
def h0 : Hdr := ⟨0, false, 0, 0⟩
def lane0 (s : State) : State := State.setW s (fun w => { w with preds := lput w.preds 0 0 (fun _ => 1) })
def handled (s : State) : State := State.setL s (fun g => { g with handler := codeAt 0x100 })
def ceiled (t : Tag) (s : State) : State := State.setG s (fun g => { g with ceils := (List.range 512).map (fun i => if i = 16 then t else .g) })
def columned (s : State) : State := State.setW s (fun w => { w with regs := lput w.regs 2 (.u 0) (fun _ => .g (List.range 32 |>.map (BitVec.ofNat 32))) })

theorem wit_ComparesPredicatesAndMoves : (∀ i ∈ ([.isetp hd ⟨true, .ge⟩ 14 2 (r 3), .pgate hd 0 0 15 14 1, .v2p hd 2 (im 0x7FFF), .sel hd 1 2 (r 3) 15,
    .p2v hd 1, .mov hd 1 1, .movi hd 1 5, .mov64i hd 2 5, .active hd 511, .srd hd 0 .lane, .srd hd 0 .tid, .srd hd 0 .split, .srd hd 0 .core] : List Instr),
      ∃ v, Issues (on i) hd i v)
    ∧ (∃ v, Issues (on (.iadd hd si 1 2 (r 3))) hd (.iadd hd si 1 2 (r 3)) v ∧ v.w.replay = [] ∧ v.act ≠ 0 ∧ v.whole = true)
    ∧ (∃ v, Issues (lane0 (on (.mov h0 1 2))) h0 (.mov h0 1 2) v ∧ v.w.replay = [] ∧ v.act ≠ 0 ∧ v.whole = false)
    ∧ (∃ v, Issues (on (.mov h0 1 2)) h0 (.mov h0 1 2) v ∧ v.w.replay = [] ∧ v.act = 0)
    ∧ (∀ t ∈ [Tag.u, .a], ∃ v, Stands (ceiled t (handled (on (.p2v hd 16)))) hd v ∧ v.g.rec_.feature 0 = true ∧ 16 < v.g.ceils.length ∧ v.ceil 16 ≠ .g)
    ∧ (∃ v, Stands (ceiled .u (handled (lane0 (on (.movi h0 16 5))))) h0 v ∧ v.g.rec_.feature 0 = true ∧ 16 < v.g.ceils.length ∧ v.whole = false ∧ v.ceil 16 ≠ .g)
    ∧ ∃ v, Stands (ceiled .a (handled (columned (on (.mov hd 16 2))))) hd v ∧ v.g.rec_.feature 0 = true ∧ 16 < v.g.ceils.length ∧ v.whole = true
      ∧ (v.ceil 16).code < (v.w.reg 2).tag.code := by
  refine ⟨runs (by decide +kernel), shows (by decide +kernel), shows (by decide +kernel), shows (by decide +kernel), ?_, halts (by decide +kernel), halts (by decide +kernel)⟩
  intro t ht
  simp only [List.mem_cons, List.mem_nil_iff, or_false] at ht
  rcases ht with rfl | rfl <;> exact halts (by decide +kernel)

theorem wit_FloatCompare : (∀ i ∈ ([.fsetp hd ⟨true, .num⟩ 14 1 2 none, .dsetp hd ⟨false, .eq⟩ 0 2 4 (mods false true false)] : List Instr),
    ∃ v, Issues (on i) hd i v) ∧ (f32.unpack 0x7FC00000).isNan = true ∧ (f32.unpack 0x3F800000).isNan = false := ⟨runs (by decide +kernel), by decide +kernel, by decide +kernel⟩

theorem wit_FloatArithmetic : ∀ i ∈ ([.fadd hd rne 1 2 (im 0x3F800000) (mods true false false), .fsub hd rne 1 2 (r 3) none, .fmul hd rne 1 2 (r 3) none,
    .ffma hd rne 1 2 (r 3) 4 (mods true true true), .fmin hd 1 2 (r 3) none, .fmax hd 1 2 (r 3) none, .frnd hd rne 1 2 none, .fclass hd 1 2, .fexp hd 1 2,
    .fldexp hd rne 1 2 (r 3) none, .hadd2 hd rne 1 2 (r 3) none, .hmul2 hd rne 1 2 (r 3) none, .hfma2 hd rne 1 2 (r 3) 4 none,
    .bfma2 hd rne 1 2 (im 0x3F803F80) 4 (mods false false false)] : List Instr), ∃ v, Issues (on i) hd i v := runs (by decide +kernel)

/-- The least and the greatest finite pattern. -/
theorem wit_Rounding : f32 ∈ [f32, f64, f16, bf16] ∧ (0x7F7FFFFF < 2 ^ f32.width) ∧ f32.unpack 1 = .fin false 1 (-149)
    ∧ f32.unpack 0x7F7FFFFF = .fin false (2 ^ 24 - 1) 104 := by decide +kernel

theorem wit_LongLatencyFloat : ∀ i ∈ ([.dadd hd rne 2 4 6 none, .dmul hd rne 2 4 6 none, .dfma hd rne 2 4 6 8 none, .dmin hd 2 4 6 none, .dmax hd 2 4 6 none,
    .frcp hd true 1 2 none, .frsq hd false 1 2 none, .fsqrt hd false 1 2 none, .fex2 hd false 1 2 none, .flg2 hd false 1 2 none] :
    List Instr), ∃ v, Issues (on i) hd i v := runs (by decide +kernel)

/-- P holds of the value of a pattern. -/
def fin32 (p : Nat) (P : Bool → Nat → Int → Bool) : Bool :=
  match f32.unpack p with
  | .fin s m e => decide (p < 2 ^ 32) && P s m e
  | .nan _ | .inf _ => false

theorem finite {p : Nat} {P : Bool → Nat → Int → Prop} [∀ s m e, Decidable (P s m e)] (c : fin32 p (fun s m e => decide (P s m e)) = true) :
    ∃ s m e, p < 2 ^ 32 ∧ f32.unpack p = .fin s m e ∧ P s m e := by
  unfold fin32 at c
  split at c
  · rename_i s m e h
    simp only [Bool.and_eq_true, decide_eq_true_eq] at c
    exact ⟨s, m, e, c.1, h, c.2⟩
  · cases c
  · cases c

/-- The least subnormal and the greatest value; the integers 127 and -149, the bounds 128 and -150, and values half a unit within them; the powers
2^-149 and 2^127, and values above, below and between powers of two. -/
theorem wit_LongLatencyFloat_values :
    (∀ p ∈ [1, 0x7F7FFFFF], ∃ s m e, p < 2 ^ 32 ∧ f32.unpack p = .fin s m e ∧ m ≠ 0 ∧ s = false)
    ∧ (∀ x ∈ [(0x42FE0000, 127), (0xC3150000, (-149 : Int))], ∃ s m e, x.1 < 2 ^ 32 ∧ f32.unpack x.1 = .fin s m e
      ∧ -149 ≤ x.2 ∧ x.2 ≤ 127 ∧ s = decide (x.2 < 0) ∧ dyEq m e x.2.natAbs 0)
    ∧ (∃ s m e, 0x43000000 < 2 ^ 32 ∧ f32.unpack 0x43000000 = .fin s m e ∧ s = false ∧ dyLe 128 0 m e)
    ∧ (∃ s m e, 0xC3160000 < 2 ^ 32 ∧ f32.unpack 0xC3160000 = .fin s m e ∧ s = true ∧ dyLe 150 0 m e)
    ∧ (∃ s m e, 0x42FF0000 < 2 ^ 32 ∧ f32.unpack 0x42FF0000 = .fin s m e ∧ s = false ∧ dyLe 127 0 m e ∧ dyLe m e 128 0 ∧ ¬ dyEq m e 127 0 ∧ ¬ dyEq m e 128 0)
    ∧ (∃ s m e, 0xC3158000 < 2 ^ 32 ∧ f32.unpack 0xC3158000 = .fin s m e ∧ s = true ∧ dyLe 149 0 m e ∧ dyLe m e 150 0 ∧ ¬ dyEq m e 149 0 ∧ ¬ dyEq m e 150 0)
    ∧ (∀ x ∈ [(1, (-149 : Int)), (0x7F000000, 127)], ∃ s m e, x.1 < 2 ^ 32 ∧ f32.unpack x.1 = .fin s m e ∧ s = false ∧ dyEq m e 1 x.2)
    ∧ (∃ s m e, 0x7F7FFFFF < 2 ^ 32 ∧ f32.unpack 0x7F7FFFFF = .fin s m e ∧ s = false ∧ dyLe 1 127 m e ∧ dyLe m e 1 128 ∧ ¬ dyEq m e 1 127 ∧ ¬ dyEq m e 1 128)
    ∧ (∃ s m e, 0x3F400000 < 2 ^ 32 ∧ f32.unpack 0x3F400000 = .fin s m e ∧ s = false ∧ dyLe 1 (-1) m e ∧ dyLe m e 1 0 ∧ ¬ dyEq m e 1 0 ∧ ¬ dyEq m e 1 (-1))
    ∧ ∃ s m e, 3 < 2 ^ 32 ∧ f32.unpack 3 = .fin s m e ∧ s = false ∧ dyLe 1 (-148) m e ∧ dyLe m e 1 (-147) ∧ ¬ dyEq m e 1 (-147) ∧ ¬ dyEq m e 1 (-148) := by
  refine ⟨?_, ?_, finite (by decide +kernel), finite (by decide +kernel), finite (by decide +kernel), finite (by decide +kernel), ?_, finite (by decide +kernel),
    finite (by decide +kernel), finite (by decide +kernel)⟩ <;>
  · intro x hx
    simp only [List.mem_cons, List.mem_nil_iff, or_false] at hx
    rcases hx with rfl | rfl <;> exact finite (by decide +kernel)

/-- The patterns of a NaN, the infinities, and the value one; the patterns that each pair of types and a slot take. -/
theorem wit_Conversions : (∀ i ∈ ([.cvt hd rs .i32 .f32 false false 1 2, .cvt hd rs .f64 .i64 false false 2 4, .cvtn hd rs .f32 0 false false 1 2,
    .cvtw hd rs .f32 0 1 2, .pack4 hd true 1 4, .unpack4 hd false 508 1] : List Instr), ∃ v, Issues (on i) hd i v)
    ∧ (f32.input false (f32.modify false false 0x7FC00000)).isNan = true ∧ f32.input false (f32.modify false true 0x7F800000) = .inf true
    ∧ f32.input false (f32.modify false false 0x3F800000) = .fin false (2 ^ 23) (-23)
    ∧ (rs.sat = false ∧ rs.ftz = false ∧ f64.unpack 0x7FF0000000000001 = .nan true ∧ f16.unpack 0xFC00 = .inf true ∧ bf16.unpack 1 = .fin false 1 (-133))
    ∧ (slotKind 0x80000000 = 2 ∧ slotKind 0xC0000000 = 3)
    ∧ (∀ w ∈ [0x40000134#32, 0x40000934], slotKind w = 1 ∧ slotValid w = true ∧ slotS w = 1 ∧ slotE w = 3 ∧ slotM w = 4 ∧ 2 ^ (3 + 4) < 2 ^ slotWidth w
      ∧ ∃ s m e, 0xBF800000 < 2 ^ 32 ∧ f32.unpack 0xBF800000 = .fin s m e ∧ (s = true → slotS w = 1)
        ∧ (cvtnOf rs .f32 w false false 0xBF800000).2 &&& fOF = 0) := by
  refine ⟨runs (by decide +kernel), by decide +kernel, by decide +kernel, by decide +kernel, by decide +kernel, by decide +kernel, ?_⟩
  intro w hw
  simp only [List.mem_cons, List.mem_nil_iff, or_false] at hw
  rcases hw with rfl | rfl <;> exact ⟨by decide +kernel, by decide +kernel, by decide +kernel, by decide +kernel, by decide +kernel, by decide +kernel, finite (by decide +kernel)⟩

theorem wit_LaneExchangeAndSync : (∀ i ∈ ([.shfl hd .idx 1 2 (im 31), .shfl hd .up 1 2 (r 3), .shfl hd .down 1 2 (r 3), .shfl hd .bfly 1 2 (r 3),
    .vote hd .ballot 15 2, .vote hd .all 14 2, .vote hd .any 0 2, .vote hd .uni 0 2, .matchv hd true 1 2, .active hd 1] : List Instr), ∃ v, Issues (on i) hd i v)
    ∧ ∃ v, Issues (on (.wsync hd (im 0xFFFFFFFF))) hd (.wsync hd (im 0xFFFFFFFF)) v ∧ v.act = v.grp
      ∧ (∀ l ∈ v.lanes, nth v.w.lwait l .none = .none ∧ v.w.srcB (im 0xFFFFFFFF) l = 0xFFFFFFFF) ∧ v.w.unserved v.act = false
      ∧ v.act &&& ~~~ 0xFFFFFFFF = 0 ∧ 0xFFFFFFFF &&& ~~~ v.w.live = 0 := ⟨runs (by decide +kernel), shows (by decide +kernel)⟩

theorem wit_WarpReductions : (∀ i ∈ ([.redw hd .fadd 1 2, .redw hd .maxN 1 2, .scanw hd .add true 1 2] : List Instr), ∃ v, Issues (on i) hd i v)
    ∧ (WOp.xor ≠ .fadd ∧ WOp.xor ≠ .fmin ∧ WOp.xor ≠ .fmax) := ⟨runs (by decide +kernel), by decide +kernel⟩

def bra0 : Instr := .bra hd 0x20
def target' (t : W64) : Bool := decide (t.toNat < 2 ^ 57) && t.toNat % 4 == 0 && t.toNat % 32 != 28
/-- Registers v2:v3 with an address in all lanes. -/
def addr (s : State) (a : W64) : State := State.regs s [(2, a.setWidth 32), (3, (a >>> 32).setWidth 32)]

def inTable (w : Warp) : Bool := (List.range 32).all (fun l =>
  match w.laneAt l with
  | .on e => decide (e < 8) && nth w.lanes l .idle == .on e && (List.range 32).all (fun k =>
    match w.laneAt k with
    | .on f => (e == f) == (w.pcAt l == w.pcAt k)
    | .held | .idle | .vacant => true)
  | .held => nth w.lanes l .idle == .held
  | .idle | .vacant => nth w.lanes l .idle == .idle || nth w.lanes l .idle == .vacant)

theorem table_of {w : Warp} (c : inTable w = true) : w.tableOk ∧ ∀ e, 8 ≤ e → w.entryPc e = none := by
  have at_ : ∀ l, l < 32 → _ := fun l hl => List.all_eq_true.mp c l (List.mem_range.mpr hl)
  refine ⟨⟨?_, ?_⟩, ?_⟩
  · intro l e hl h
    have := at_ l hl
    simp only [h, Bool.and_eq_true, decide_eq_true_eq] at this
    exact this.1.1
  · intro l k e f hl hk h1 h2
    have := at_ l hl
    simp only [h1, Bool.and_eq_true] at this
    have := List.all_eq_true.mp this.2 k (List.mem_range.mpr hk)
    simp only [h2, beq_iff_eq] at this
    by_cases q : e = f
    · simp [q] at this ⊢; exact this
    · simp [q] at this ⊢; exact this
  · intro e he
    have : w.groupOf e = 0 := by
      apply mask_ext
      intro l hl
      rw [Warp.groupOf, has_maskOf]
      have := at_ l hl
      split at this
      · simp only [Bool.and_eq_true, decide_eq_true_eq, beq_iff_eq] at this
        simp [this.1.2]; omega
      · simp_all
      · rcases (Bool.or_eq_true _ _).mp this with h | h <;> simp_all
      · rcases (Bool.or_eq_true _ _).mp this with h | h <;> simp_all
    simp [Warp.entryPc, this, lowest, lanesOf]

/-- The threads of each three lanes stand in an entry of their own, from entry 0 at the placed instruction on. -/
def forked (last : LaneSt) (s : State) : State := State.setW s (fun w =>
  { w with lanes := (List.range 32).map (fun l => if l < 24 then .on (l / 3) else last),
           pcs := (List.range 32).map (fun l => codeAt (if l < 24 then 0x20 * (l / 3) else if last = .held then 0x200 else 0x20 * 7)) })

/-- A split of a whole warp and of a full table; an entry joined with no thread held, and with threads held. -/
theorem wit_Transfers_entries :
    (∃ v, Issues (lane0 (on (.bra h0 0x20))) h0 (.bra h0 0x20) v ∧ v.w.tableOk ∧ (lane0 (on (.bra h0 0x20))).travelSeg v = none ∧ v.again = false
      ∧ v.pc + 0x20 = codeAt 0x20 ∧ target' (codeAt 0x20) = true ∧ v.act ≠ 0 ∧ v.grp &&& ~~~ v.act ≠ 0 ∧ v.w.heldMask = 0 ∧ codeAt 0x20 ≠ v.next
      ∧ ∀ e, e ≠ v.entry → v.w.entryPc e ≠ some (codeAt 0x20) ∧ v.w.entryPc e ≠ some v.next)
    ∧ (∃ v, Issues (forked (.on 7) (lane0 (on (.bra h0 0x220)))) h0 (.bra h0 0x220) v ∧ v.w.tableOk ∧ v.act ≠ 0 ∧ v.grp &&& ~~~ v.act ≠ 0 ∧ v.w.heldMask = 0
      ∧ v.w.freeEntry = none ∧ codeAt 0x220 ≠ v.next ∧ ∀ e, e ≠ v.entry → v.w.entryPc e ≠ some (codeAt 0x220) ∧ v.w.entryPc e ≠ some v.next)
    ∧ (∃ v, Issues (forked (.on 7) (on bra0)) hd bra0 v ∧ v.w.tableOk ∧ 1 ≠ v.entry ∧ v.w.entryPc 1 = some (codeAt 0x20) ∧ v.grp &&& ~~~ v.act = 0 ∧ v.w.heldMask = 0)
    ∧ ∃ v, Issues (forked .held (on bra0)) hd bra0 v ∧ v.w.tableOk ∧ 1 ≠ v.entry ∧ v.w.entryPc 1 = some (codeAt 0x20) ∧ v.grp &&& ~~~ v.act = 0
      ∧ v.w.heldMask ≠ 0 ∧ v.w.freeEntry = none ∧ (∀ l, has v.w.heldMask l = true → v.w.pcAt l = codeAt 0x200) ∧ ∀ e, v.w.entryPc e ≠ some (codeAt 0x200) := by
  have far {w : Warp} {p : Nat → Prop} {a b : W64} (c : inTable w = true) (h : ∀ e ∈ List.range 8, p e → w.entryPc e ≠ some a ∧ w.entryPc e ≠ some b) :
      ∀ e, p e → w.entryPc e ≠ some a ∧ w.entryPc e ≠ some b := by
    intro e he
    by_cases q : e < 8
    · exact h e (List.mem_range.mpr q) he
    · simp [(table_of c).2 e (by omega)]
  refine ⟨?_, ?_, ?_, ?_⟩
  · obtain ⟨v, i, c, h1, h2, h3, h4, h5, h6, h7, h8, h⟩ : ∃ v, Issues (lane0 (on (.bra h0 0x20))) h0 (.bra h0 0x20) v ∧ inTable v.w = true
      ∧ (lane0 (on (.bra h0 0x20))).travelSeg v = none ∧ v.again = false ∧ v.pc + 0x20 = codeAt 0x20 ∧ target' (codeAt 0x20) = true ∧ v.act ≠ 0
      ∧ v.grp &&& ~~~ v.act ≠ 0 ∧ v.w.heldMask = 0 ∧ codeAt 0x20 ≠ v.next
      ∧ ∀ e ∈ List.range 8, e ≠ v.entry → v.w.entryPc e ≠ some (codeAt 0x20) ∧ v.w.entryPc e ≠ some v.next := shows (by decide +kernel)
    exact ⟨v, i, (table_of c).1, h1, h2, h3, h4, h5, h6, h7, h8, far c h⟩
  · obtain ⟨v, i, c, h1, h2, h3, h4, h5, h⟩ : ∃ v, Issues (forked (.on 7) (lane0 (on (.bra h0 0x220)))) h0 (.bra h0 0x220) v ∧ inTable v.w = true
      ∧ v.act ≠ 0 ∧ v.grp &&& ~~~ v.act ≠ 0 ∧ v.w.heldMask = 0 ∧ v.w.freeEntry = none ∧ codeAt 0x220 ≠ v.next
      ∧ ∀ e ∈ List.range 8, e ≠ v.entry → v.w.entryPc e ≠ some (codeAt 0x220) ∧ v.w.entryPc e ≠ some v.next := shows (by decide +kernel)
    exact ⟨v, i, (table_of c).1, h1, h2, h3, h4, h5, far c h⟩
  · obtain ⟨v, i, c, h⟩ : ∃ v, Issues (forked (.on 7) (on bra0)) hd bra0 v ∧ inTable v.w = true ∧ 1 ≠ v.entry ∧ v.w.entryPc 1 = some (codeAt 0x20)
      ∧ v.grp &&& ~~~ v.act = 0 ∧ v.w.heldMask = 0 := shows (by decide +kernel)
    exact ⟨v, i, (table_of c).1, h⟩
  · obtain ⟨v, i, c, h1, h2, h3, h4, h5, h6, h⟩ : ∃ v, Issues (forked .held (on bra0)) hd bra0 v ∧ inTable v.w = true ∧ 1 ≠ v.entry
      ∧ v.w.entryPc 1 = some (codeAt 0x20) ∧ v.grp &&& ~~~ v.act = 0 ∧ v.w.heldMask ≠ 0 ∧ v.w.freeEntry = none
      ∧ (∀ l ∈ List.range 32, has v.w.heldMask l = true → v.w.pcAt l = codeAt 0x200) ∧ ∀ e ∈ List.range 8, v.w.entryPc e ≠ some (codeAt 0x200) ∧ v.w.entryPc e ≠ some (codeAt 0x200) := shows (by decide +kernel)
    exact ⟨v, i, (table_of c).1, h1, h2, h3, h4, h5, fun l hl => h6 l (List.mem_range.mpr (has_lt hl)) hl,
      fun e => (far (p := fun _ => True) c (fun e q _ => h e q) e trivial).1⟩

/-- Two segments of a travel launch: the first holds the placed code and has one exit record, which carries v8 of the threads
that leave its first instruction; an entry of the second lies at 0x20. -/
def departing : State :=
  let s := State.setL (on bra0) (fun g => { g with flags := 2, spilln := 4, segmap := codeAt 0x200 })
  let s := State.setG s (fun g => { g with segs :=
    [{ Segment.init with base := codeAt 0, len := 0x20, reps := [0], nexit := 1, exitt := codeAt 0x100 },
     { Segment.init with base := codeAt 0x20, len := 0x40, reps := [1], entries := [0] }] })
  { s with cores := lput s.cores 0 CoreSt.init (fun c => { c with replica := some (gk0, 0) }),
           mem := putBytes s.mem ([1, 0, 1].zipIdx.map (fun x => (codeBase + 0x104 + x.2, x.1)) ++ [(codeBase + 0x200, 8)]) }

/-- Room for the last entry of the call stack, and a stack of one entry; and a departure. -/
theorem wit_Transfers :
    (∃ v, Issues (on bra0) hd bra0 v ∧ (v.pc + 0x20 = codeAt 0x20 ∧ target' (codeAt 0x20) = true ∧ (on bra0).travelSeg v = none))
    ∧ (∃ v, Issues (addr (on (.brx hd 2)) (codeAt 24)) hd (.brx hd 2) v ∧ (∀ l ∈ v.lanes, v.w.rd64 2 l = codeAt 24) ∧ target' (codeAt 24) = true)
    ∧ (∃ v, Issues (State.setW (addr (on (.callx hd 2)) (codeAt 0)) (fun w => { w with cstack := List.replicate 32 (List.replicate 31 0) })) hd (.callx hd 2) v
      ∧ ∀ l ∈ v.lanes, (nth v.w.cstack l []).length = 31 ∧ v.w.rd64 2 l = codeAt 0)
    ∧ (∃ v, Issues (on (.call hd 0x40)) hd (.call hd 0x40) v ∧ ∀ l ∈ v.lanes, (nth v.w.cstack l []).length = 0)
    ∧ (∃ v, Issues (State.setW (on (.ret hd)) (fun w => { w with cstack := List.replicate 32 [codeAt 0x40] })) hd (.ret hd) v
      ∧ ∀ l ∈ v.lanes, (nth v.w.cstack l []).length = 1 ∧ (nth v.w.cstack l []).headD 0 = codeAt 0x40)
    ∧ ∃ v, Issues departing hd bra0 v ∧ v.act ≠ 0 ∧ v.pc + 0x20 = codeAt 0x20 ∧ target' (codeAt 0x20) = true ∧ departing.travelSeg v = some 0
      ∧ (nth v.g.segs 0 Segment.init).holds (codeAt 0x20) = false ∧ v.w.ops = [] ∧ v.g.freeCredits = [0, 1, 2, 3] ∧ v.g.segAt (codeAt 0x20) = some 1
      ∧ (departing.exitRec v.die v.g (nth v.g.segs 0 Segment.init) (v.pc.toNat - codeBase) 1).map (fun r => r.regs) = some [8]
      ∧ (departing.departCheck v 0 false (codeAt 0x20)).isNone = true :=
  ⟨shows (by decide +kernel), shows (by decide +kernel), shows (by decide +kernel), shows (by decide +kernel), shows (by decide +kernel), shows (by decide +kernel)⟩

def quiet (v : View) : Bool := v.act != 0 && v.w.trap.isNone && v.w.rep.isNone && v.w.half.isNone && v.g.rec_.handler != 0 && v.w.ops.isEmpty

/-- Each of the three bad targets; and an EXIT with a ticket left. -/
theorem wit_BadTransfersAndExits :
    (∀ t ∈ [0x0200000010000000#64, codeAt 2, codeAt 28], ∃ v, Issues (addr (handled (on (.brx hd 2))) t) hd (.brx hd 2) v ∧ quiet v = true
      ∧ (∀ l ∈ v.lanes, v.w.rd64 2 l = t) ∧ (t.toNat / 2 ^ 57 ≠ 0 ∨ t.toNat % 4 ≠ 0 ∨ t.toNat % 32 = 28))
    ∧ let s := State.setB (handled (on (.exit hd))) (fun b => { b with tickets := [⟨0, .zero⟩] })
      ∃ v, Issues s hd (.exit hd) v ∧ quiet v = true ∧ (s.warpsOf v.bk).all (fun x => x.1 == v.key || x.2.live == 0) = true
        ∧ v.w.live &&& ~~~ v.act = 0 ∧ v.b.marks = [] ∧ v.b.tickets ≠ [] := by
  refine ⟨?_, shows (by decide +kernel)⟩
  intro t ht
  simp only [List.mem_cons, List.mem_nil_iff, or_false] at ht
  rcases ht with rfl | rfl | rfl <;> exact shows (by decide +kernel)

def ctl0 : Ctl := { pcs := List.replicate 32 (codeAt 8), lanes := List.replicate 32 (.on 0), cstack := List.replicate 32 [], lwait := List.replicate 32 .none,
                    wait := .none, rep := none, reps := [], ops := [], replay := [], hist := [], count := List.replicate 32 0 }
def trapped (cause : Cause) (a : W64) (s : State) : State :=
  State.setW s (fun w => { w with trap := some ⟨0, 0, cause.code, codeAt 8, 0, 0xFFFFFFFF, a, 0, ctl0⟩ })
def deep (n : Nat) (s : State) : State := State.setW s (fun w => { w with cstack := List.replicate 32 (List.replicate n 0) })
/-- No page may be written, and no entry of the TLBs says otherwise. -/
def sealed (s : State) : State := { s with cores := lput s.cores 0 CoreSt.init (fun c => { c with tlb := [], ptlbs := [] }), dies := lput s.dies 0 Die.init (fun d => { d with tlb := [] }), ctxs := tmod s.ctxs 0 (fun c => { c with maps := c.maps.map (fun m => { m with attr := 0x85 }) }) }
def aimed (i : Instr) (p n : Nat) : State := addr (handled (on i)) (BitVec.ofNat 64 (p * 2 ^ 60 + n))

/-- A full call stack and an empty one. Loads: at a path that is none, with each bit past the address, off their alignment, and just past the scratchpad.
A store to a page that may be read only, and an atomic on each path that takes none. -/
theorem wit_BadTransfersAndExits_memory :
    ((∀ i ∈ [Instr.call hd 0x40, .callx hd 2], ∃ v, Issues (deep 32 (handled (on i))) hd i v) ∧ (∃ v, Stands (deep 32 (handled (on (.call hd 0x40)))) hd v
      ∧ v.act ≠ 0 ∧ (nth v.w.cstack v.low []).length = 32)
      ∧ (∃ v, Issues (handled (on (.ret hd))) hd (.ret hd) v) ∧ ∃ v, Stands (handled (on (.ret hd))) hd v ∧ v.act ≠ 0 ∧ (nth v.w.cstack v.low []).length = 0)
    ∧ (let i : Instr := .ld hd ⟨false, .w32⟩ 8 2 none none
       (∀ x ∈ [(3, 0x20000), (0, 2 ^ 57), (2, 2 ^ 59), (8, 2 ^ 32), (0, 0x20002), (8, 131072)], ∃ v, Issues (aimed i x.1 x.2) hd i v)
       ∧ ∀ x ∈ [(3, 0x20000), (0, 2 ^ 57), (2, 2 ^ 59), (8, 2 ^ 32), (0, 0x20002), (8, 131072)], ∃ v, Stands (aimed i x.1 x.2) hd v ∧ v.act ≠ 0
          ∧ v.w.rd64 2 v.low + (0 : W32).signExtend 64 = BitVec.ofNat 64 (x.1 * 2 ^ 60 + x.2) ∧ v.b.scratchBytes ≤ 131072)
    ∧ (let i : Instr := .st hd .w32 2 4 1 none none
       (∃ v, Issues (sealed (aimed i 0 0x20000)) hd i v) ∧ ∃ v, Stands (sealed (aimed i 0 0x20000)) hd v ∧ v.act ≠ 0
          ∧ v.w.rd64 2 v.low + (0 : W32).signExtend 64 = low 0x20000 ∧ (sealed (aimed i 0 0x20000)).xlat (.part v.core (v.slot % 4)) v.g.ctx 0x20000 needW = .protect)
    ∧ (let i : Instr := .atom hd .add32 8 2 4 none none
       (∀ p ∈ [1, 9, 10], ∃ v, Issues (aimed i p 0x20000) hd i v) ∧ ∀ p ∈ [1, 9, 10], ∃ v, Stands (aimed i p 0x20000) hd v ∧ v.act ≠ 0
          ∧ v.w.rd64 2 v.low + (0 : W32).signExtend 64 = BitVec.ofNat 64 (p * 2 ^ 60 + 0x20000)) := by
  exact ⟨⟨runs_over (by decide +kernel), halts (by decide +kernel), runs_one (by decide +kernel), halts (by decide +kernel)⟩,
    ⟨runs_over (by decide +kernel), halts_over (by decide +kernel)⟩, ⟨runs_one (by decide +kernel), halts (by decide +kernel)⟩,
    runs_over (by decide +kernel), halts_over (by decide +kernel)⟩

/-- A BRX to a bad address in a handler. -/
theorem wit_BadTransfersAndExits_double :
    let s := addr (trapped .trapInstr 0 (handled (on (.brx hd 2)))) 0x0200000010000000
    ∃ v, Issues s hd (.brx hd 2) v ∧ v.act ≠ 0 ∧ v.w.trap.isSome = true ∧ v.w.rep = none ∧ v.w.half = none ∧ v.w.async = [] ∧ v.g.rec_.handler ≠ 0 ∧ v.b.core < 256 ∧ v.w.ops = []
      ∧ (v.w.rd64 2 v.low).toNat / 2 ^ 57 ≠ 0 ∧ v.g.rec_.coop = false ∧ v.g.rec_.travel = false ∧ v.g.rec_.csize = 1
      ∧ (s.warpsOf v.bk).all (fun x => x.1 == v.key) = true ∧ (s.die (v.b.core / 64)).log.length < 4096 := shows (by decide +kernel)

/-- Every thread exits, and one of them; and a warp whose block has another warp that has not retired. -/
theorem wit_PlainControlAndExit : (∀ i ∈ ([.nop hd, .isync hd, .nap hd (im 0), .nap hd (im 1), .swr hd .fflags 1, .swr hd .fen 1] : List Instr), ∃ v, Issues (on i) hd i v)
    ∧ (∃ v, Issues (on (.exit hd)) hd (.exit hd) v ∧ v.act ≠ 0 ∧ v.w.ops = [] ∧ ((on (.exit hd)).lastExit v).isNone = true ∧ v.w.live &&& ~~~ v.act = 0)
    ∧ (∃ v, Issues (State.setW (on (.exit ⟨0, false, 0, 0⟩)) (fun w => { w with preds := lput w.preds 0 0 (fun _ => 1) })) ⟨0, false, 0, 0⟩ (.exit ⟨0, false, 0, 0⟩) v
      ∧ v.act = 1 ∧ v.w.live &&& ~~~ v.act ≠ 0)
    ∧ (let s := { on (.exit hd) with warps := tput (on (.exit hd)).warps 5 (Warp.start bk0 1 true 512 [] 0 .zero 0) }
       ∃ v, Issues s hd (.exit hd) v ∧ v.act ≠ 0 ∧ v.w.ops = [] ∧ (s.lastExit v).isNone = true ∧ v.w.live &&& ~~~ v.act = 0 ∧ v.travels = false
        ∧ (s.warpsOf v.bk).all (fun x => x.1 == v.key) = false)
    ∧ ∃ v, Issues (on (.exit hd)) hd (.exit hd) v ∧ v.travels = false ∧ ((on (.exit hd)).warpsOf v.bk).all (fun x => x.1 == v.key) = true :=
  ⟨runs (by decide +kernel), shows (by decide +kernel), shows (by decide +kernel), shows (by decide +kernel), shows (by decide +kernel)⟩

def debugged (s : State) : State := { s with ctxs := tmod s.ctxs 0 (fun c => { c with dbg := true }) }

theorem wit_TrapInstructions : (∃ v, Issues (handled (on (.trap hd 5))) hd (.trap hd 5) v ∧ quiet v = true)
    ∧ (∃ v, Issues (debugged (handled (on (.bkpt hd 511)))) hd (.bkpt hd 511) v ∧ quiet v = true
      ∧ (tget (debugged (handled (on (.bkpt hd 511)))).ctxs v.g.ctx).any (fun c => c.dbg) = true)
    ∧ ∃ v, Issues (on (.bkpt hd 0)) hd (.bkpt hd 0) v ∧ (tget (on (.bkpt hd 0)).ctxs v.g.ctx).any (fun c => c.dbg) = false :=
  ⟨shows (by decide +kernel), shows (by decide +kernel), shows (by decide +kernel)⟩

/-- The block is being pre-empted and has saved its warp. -/
def saving (s : State) : State := State.setB s (fun b => { b with saved := tput b.saved 0 (Warp.start bk0 0 true 512 [] 0 .zero 0) })

theorem wit_ReturnYieldAndResume :
    (∃ v, Issues (trapped .trapInstr 0 (on (.tret hd))) hd (.tret hd) v ∧ v.act ≠ 0 ∧ v.w.trap.isSome = true ∧ v.w.ops = [] ∧ v.w.half = none)
    ∧ (∃ v, Issues (on (.tret hd)) hd (.tret hd) v ∧ v.w.trap = none)
    ∧ (∃ v, Issues (trapped .preempt 0 (on (.yield hd))) hd (.yield hd) v ∧ v.act ≠ 0 ∧ v.w.preemptEntry = some false ∧ v.b.adm = [] ∧ v.b.hq = []
      ∧ v.b.heldBack = true ∧ v.w.ops = [] ∧ v.w.half = none
      ∧ ((trapped .preempt 0 (on (.yield hd))).vaFault 4 v.g.ctx needW [(v.b.frame + controlAt v.b v.w, 0x4000)]).isNone = true)
    ∧ (∃ v, Issues (on (.yield hd)) hd (.yield hd) v ∧ v.w.preemptEntry ≠ some false)
    ∧ (∃ v, Issues (saving (trapped .preempt 1 (on (.resume hd)))) hd (.resume hd) v ∧ v.act ≠ 0 ∧ v.w.preemptEntry = some true
      ∧ (tget v.b.saved v.w.wid).isSome = true ∧ v.w.ops = [] ∧ v.w.half = none ∧ v.b.wires = [])
    ∧ ∃ v, Issues (on (.resume hd)) hd (.resume hd) v ∧ v.w.preemptEntry ≠ some true :=
  ⟨shows (by decide +kernel), shows (by decide +kernel), shows (by decide +kernel), shows (by decide +kernel), shows (by decide +kernel), shows (by decide +kernel)⟩

theorem wit_SpecialRegisters : (∀ i ∈ ([.srd hd 1 .tsc, .srd hd 1 .lane, .srd hd 1 (.shape 31), .srd hd 1 .qlen, .srd hd 1 .bconf] : List Instr),
    ∃ v, Issues (on i) hd i v) ∧ (∃ v, Issues (on (.srd hd 1 .tcause)) hd (.srd hd 1 .tcause) v ∧ v.w.trap = none ∧ v.travels = false ∧ v.act ≠ 0 ∧ v.w.laneAt 31 = .on 0)
    ∧ ∃ v, Issues (trapped .misaligned 2 (on (.srd hd 1 .taddr))) hd (.srd hd 1 .taddr) v ∧ v.w.trap.isSome = true :=
  ⟨runs (by decide +kernel), shows (by decide +kernel), shows (by decide +kernel)⟩

/-- A REP of two iterations before an IADD in the same fetch block. -/
def rep0 : Instr := .rep 1 1 1 1 0
def sRep : State := onBits ((encode rep0).toNat + (encode (.iadd hd si 8 16 (r 24))).toNat * 2 ^ 64)

theorem wit_RepeatStarts : ∃ v, Issues sRep hdr0 rep0 v ∧ v.next.toNat / 32 = v.pc.toNat / 32
    ∧ (match sRep.fetchBytes v.core v.slot v.g v.w v.next with
       | (.bytes bs, _) =>
         let word := ofBytes bs
         (v.repCause { base := v.pc, pc := v.next, word := word, cnt := 2, iter := 0, sd := 1, sa := 1, sb := 1, sc := 0, entry := v.entry, grp := v.grp,
                       act := v.w.guarded ⟨BitVec.ofNat 4 (word / 2 ^ 12), word.testBit 16, 0, 0⟩ v.grp }
           (BitVec.ofNat 4 (word / 2 ^ 12)) (word.testBit 16)).isNone
       | _ => false) = true := shows (by decide +kernel)

/-- The REP of an IADD whose last register is reached by the steps, with so many iterations to come. -/
def rep1 (n : Nat) : RepSt :=
  { base := codeAt 0, pc := codeAt 8, word := (encode (.iadd hd si 510 16 (r 24))).toNat, cnt := 2, iter := 2 - n, sd := 1, sa := 1, sb := 1, sc := 0, entry := 0,
    grp := 0xFFFFFFFF, act := 0xFFFFFFFF }
def repeating (n : Nat) : State := State.setW (on (.iadd hd si 510 16 (r 24))) (fun w => { w with rep := some (rep1 n) })

/-- Before the last iteration and in it; the word of the second iteration is an instruction. -/
theorem wit_RepeatStarts_iterations :
    (∀ n ∈ [2, 1], ∃ v, Issues (repeating n) hd (.iadd hd si 510 16 (r 24)) v)
    ∧ (∃ v, Issues (repeating 1) hd (.iadd hd si 510 16 (r 24)) v ∧ ((repeating 1).view hdr0).isSome = true
      ∧ v.w.rep.any (fun r => decide (r.word < 2 ^ 128) && [(24, r.sd), (33, r.sa), (42, r.sb), (51, r.sc)].all (fun f => r.word / 2 ^ f.1 % 512 + 1 * f.2 < 512)
        && (match decode (stepWord r r.iter) with | .ok _ => true | .error _ => false)) = true) :=
  ⟨runs_over (by decide +kernel), shows (by decide +kernel)⟩

/- Memory, barriers and boards. -/

/-- The block has shadow banks (01 R13). -/
def shadowed (s : State) : State := State.setB s (fun b => { b with poolw := 0x40041008 })
def scratch (n : Nat) : W64 := BitVec.ofNat 64 (8 * 2 ^ 60 + n)

/-- The other half of a 16-byte store is to follow. -/
def halved (s : State) : State := State.setW s (fun w => { w with half := some (0, true) })

/-- Global and scratchpad stores, the last word of the scratchpad, the halves that follow, and an exchange store to the block itself. -/
theorem wit_Stores :
    (let i : Instr := .st hd .w32 2 4 1 (some 16) (some ⟨0, .dflt, .rel⟩)
     let s := addr (on i) (low 0x20000)
     ∃ v, Issues s hd i v ∧ (s.firstFault v .st .dflt 4 needW (fun l => v.w.rd64 2 l + 16)).isNone = true
      ∧ s.accessWaits v (fun l => v.w.rd64 2 l + 16) 4 (some 0) true = false ∧ v.act ≠ 0 ∧ v.w.half = none)
    ∧ (let i : Instr := .st hd .w128 2 4 1 none none
       let s := addr (on i) (scratch 65520)
       ∃ v, Issues s hd i v ∧ (s.firstFault v .st .dflt 16 needW (fun l => v.w.rd64 2 l)).isNone = true ∧ s.accessWaits v (fun l => v.w.rd64 2 l) 16 (some 0) false = false ∧ v.w.half = none)
    ∧ (let i : Instr := .sts hd .w32 2 4 (some 4)
       let s := addr (on i) (low 65528)
       ∃ v, Issues s hd i v ∧ (v.padFault 4 (fun l => v.w.rd 2 l + 4)).isNone = true ∧ v.w.acquiring v.act = false ∧ v.w.colourBusy v.act 0 = false
        ∧ s.padWaits v (fun l => v.w.rd 2 l + 4) 4 = false ∧ v.w.half = none)
    ∧ (∃ v, Issues (halved (addr (on (.st hd .w128 2 4 1 none none)) (scratch 65520))) hd (.st hd .w128 2 4 1 none none) v ∧ v.w.half = some (0, true))
    ∧ (∃ v, Issues (halved (addr (on (.sts hd .w128 2 4 none)) (low 65520))) hd (.sts hd .w128 2 4 none) v ∧ v.w.half = some (0, true))
    ∧ (let i : Instr := .stx hd .w32 2 4 none none
       let s := addr (on i) (BitVec.ofNat 64 (9 * 2 ^ 60 + 32764))
       ∃ v, Issues s hd i v ∧ (s.firstFault v .stx .dflt 4 0 (fun l => v.w.rd64 2 l)).isNone = true) :=
  ⟨shows (by decide +kernel), shows (by decide +kernel), shows (by decide +kernel), shows (by decide +kernel), shows (by decide +kernel), shows (by decide +kernel)⟩

theorem wit_Loads :
    (let i : Instr := .ld hd ⟨false, .w32⟩ 8 2 (some 64) none
     let s := addr (on i) (low 0x20000)
     ∃ v, Issues s hd i v ∧ (∀ l ∈ v.lanes, (s.preCheck v (.ld .w32) .dflt 4 (v.w.rd64 2 l + 64)).isNone = true)
      ∧ s.accessWaits v (fun l => v.w.rd64 2 l + 64) 4 none false = false)
    ∧ (let i : Instr := .ld hd ⟨true, .w8⟩ 8 2 none none
       let s := addr (on i) (scratch 65535)
       ∃ v, Issues s hd i v ∧ (∀ l ∈ v.lanes, (s.preCheck v (.ld .w8) .dflt 1 (v.w.rd64 2 l)).isNone = true)
        ∧ s.accessWaits v (fun l => v.w.rd64 2 l) 1 none false = false ∧ (v.padPoison (fun _ => some 65535) 1).isNone = true)
    ∧ (let i : Instr := .ld hd ⟨false, .w128⟩ 8 2 none none
       let s := addr (on i) (low 0x20000)
       ∃ v, Issues s hd i v ∧ (∀ l ∈ v.lanes, (s.preCheck v (.ld .w128) .dflt 16 (v.w.rd64 2 l + 0)).isNone = true)
        ∧ s.accessWaits v (fun l => v.w.rd64 2 l + 0) 16 none false = false)
    ∧ (let i : Instr := .lds hd ⟨false, .w128⟩ 8 2 none
       let s := addr (on i) (low 65520)
       ∃ v, Issues s hd i v ∧ (v.padFault 16 (fun l => v.w.rd 2 l)).isNone = true ∧ v.w.acquiring v.act = false ∧ s.padWaits v (fun l => v.w.rd 2 l) 16 = false
        ∧ (v.padPoison (fun _ => some 65520) 16).isNone = true)
    ∧ (let i : Instr := .ld hd ⟨false, .w128⟩ 8 2 none none
       let s := addr (on i) (scratch 65520)
       ∃ v, Issues s hd i v ∧ (∀ l ∈ v.lanes, (s.preCheck v (.ld .w128) .dflt 16 (v.w.rd64 2 l)).isNone = true)
        ∧ s.accessWaits v (fun l => v.w.rd64 2 l) 16 none false = false ∧ (v.padPoison (fun _ => some 65520) 16).isNone = true)
    ∧ (∃ v, Issues (addr (on (.pref hd 2 none)) (low 0x20000)) hd (.pref hd 2 none) v ∧ v.act ≠ 0)
    ∧ (let i : Instr := .waita hd .eq 8 2 (im 1)
       let s := addr (on i) (low 65532)
       ∃ v, Issues s hd i v ∧ (v.padFault 4 (fun l => v.w.rd 2 l)).isNone = true ∧ v.w.acquiring v.act = false ∧ s.padWaits v (fun l => v.w.rd 2 l) 4 = false
        ∧ (v.padPoison (fun _ => some 65532) 4).isNone = true) :=
  ⟨shows (by decide +kernel), shows (by decide +kernel), shows (by decide +kernel), shows (by decide +kernel), shows (by decide +kernel), shows (by decide +kernel), shows (by decide +kernel)⟩

theorem wit_CacheControl :
    (∀ i ∈ ([.cctl hd .inv 2 none, .cctl hd .wb 2 none, .cctl hd .wbinv 2 (some 128)] : List Instr),
      chk (addr (on i) (low 0x20000)) hd i (fun v => ((addr (on i) (low 0x20000)).firstFault v .cctl .dflt 1 needRD (fun l => v.w.rd64 2 l)).isNone) = true)
    ∧ (let i : Instr := .icinv hd 2 none
       let s := addr (on i) (low 0x20000)
       ∃ v, Issues s hd i v ∧ (s.firstFault v .icinv .dflt 1 needRD (fun l => v.w.rd64 2 l)).isNone = true ∧ ∀ c < 8, v.w.colourBusy v.act (BitVec.ofNat 3 c) = false)
    ∧ ∃ v, Issues (on (.fence hd 0xFF (some .d))) hd (.fence hd 0xFF (some .d)) v ∧ v.w.releaseWaits v.act = false :=
  ⟨by decide +kernel, shows (by decide +kernel), shows (by decide +kernel)⟩

/-- A location in memory for all lanes, and the last one of the scratchpad. -/
theorem wit_Atomics :
    (∀ i ∈ ([.atom hd .add64 8 2 6 none none, .atomc hd false 8 2 6 7 none none, .red hd .fadd 2 6 none none] : List Instr),
      let s := addr (on i) (low 0x20000)
      chk s hd i (fun v => (s.firstFault v .atomic .dflt 8 (needRD + needW) (fun l => v.w.rd64 2 l)).isNone
        && !s.accessWaits v (fun l => v.w.rd64 2 l) 8 (some 0) false && v.lanes.all (fun l => isGlobal (pathOf (v.w.rd64 2 l)))) = true)
    ∧ (∀ i ∈ ([.atom hd .add32 8 2 6 none none, .atomc hd false 8 2 6 7 none none, .red hd .fadd 2 6 none none] : List Instr),
      let s := addr (on i) (scratch 65532)
      chk s hd i (fun v => (s.firstFault v .atomic .dflt 4 (needRD + needW) (fun l => v.w.rd64 2 l)).isNone && !s.accessWaits v (fun l => v.w.rd64 2 l) 4 (some 0) false
        && (v.padPoison (fun _ => some 65532) 4).isNone && v.act != 0 && v.lanes.all (fun l => pathOf (v.w.rd64 2 l) == 8 && (v.w.rd64 2 l).toNat % 2 ^ 32 == 65532)) = true) :=
  ⟨by decide +kernel, by decide +kernel⟩

theorem wit_NamedBarriers :
    (∀ m ∈ [BarMode.sync, .arrive, .wait], chk (on (.bar hd m false 0)) hd (.bar hd m false 0) (fun v =>
      v.act == v.grp && v.lanes.all (fun l => nth v.w.lwait l .none == .none) && (v.barFault m 0 v.act).isNone && !v.w.releaseWaits v.act
      && v.b.state != .out && ((on (.bar hd m false 0)).arrs ++ v.b.wires).isEmpty && !(v.b.bar 0).swap && !(v.b.bar 0).swapping && (v.b.bar 0).remote == 0 && (v.b.bar 0).members.isEmpty) = true)
    ∧ (∃ v, Issues (on (.bar hd .sync true 64)) hd (.bar hd .sync true 64) v ∧ v.act = v.grp ∧ (v.barFault .sync 64 v.act).isNone = true)
    ∧ (∃ v, Issues (on (.barsv hd 1 0)) hd (.barsv hd 1 0) v)
    ∧ (∀ x ∈ [0, 1, 0x01000000], let s := State.regs (State.setL (on (.barld hd 127 1)) (fun r => { r with flags := 1 })) [(1, x)]
        ∃ v, Issues s hd (.barld hd 127 1) v ∧ v.act ≠ 0 ∧ v.w.rd 1 v.low = x ∧ (v.g.bar 127).phase = 0 ∧ (v.g.bar 127).members = []
          ∧ lanesOf (maskOf (fun l => if has v.act l then (v.w.rd 1 l).getLsbD 0 else has (v.b.bar 127).arrived l)) = List.range (32 * (x.toNat % 2))
          ∧ s.barExpected v.bk 127 v.b v.g = 1)
    ∧ (let s := State.regs (handled (State.setL (on (.barld hd 127 1)) (fun r => { r with flags := 1 }))) [(1, 1)]
       (∃ v, Issues s hd (.barld hd 127 1) v) ∧ ∃ v, Stands s hd v ∧ s.barExpected v.bk 127 v.b v.g < 32)
    ∧ ∀ x ∈ [0, 1], let s := State.regs (on (.barld hd 5 1)) [(1, x)]
        ∃ v, Issues s hd (.barld hd 5 1) v ∧ v.act ≠ 0 ∧ v.w.rd 1 v.low = x
          ∧ ({ v.b.bar 5 with phase := 0, remote := 0, members := [], arrived := maskOf (fun l => if has v.act l then (v.w.rd 1 l).getLsbD 0 else has (v.b.bar 5).arrived l) } : BarSt).count
            ≤ s.barExpected v.bk 5 v.b v.g + 31 * x.toNat
          ∧ (v.b.bar 5).swap = false ∧ (v.b.bar 5).swapping = false ∧ v.b.state ≠ .out ∧ (s.arrs ++ v.b.wires).isEmpty = true := by
  refine ⟨by decide +kernel, shows (by decide +kernel), runs_one (by decide +kernel), ?_, ⟨runs_one (by decide +kernel), halts (by decide +kernel)⟩, ?_⟩
  · intro x hx
    simp only [List.mem_cons, List.mem_nil_iff, or_false] at hx
    rcases hx with rfl | rfl | rfl <;> exact shows (by decide +kernel)
  · intro x hx
    simp only [List.mem_cons, List.mem_nil_iff, or_false] at hx
    rcases hx with rfl | rfl <;> exact shows (by decide +kernel)

/-- A board of two slots, of the threads 0 and 31 of block 0, bound to handle 15. -/
def board0 : Board := { slots := 2, strict := false, owners := [0x8000000000000000, 0x8000001F00000000], rc := 5, cur := [], next := [], filled := none, past := [] }
def boarded (s : State) : State :=
  { State.setL s (fun g => { g with boards := lput g.boards 15 0 (fun _ => 0x80000007) }) with boards := tput s.boards 7 board0 }

theorem wit_BoardsAndViewMasks :
    (∃ v, Issues (boarded (on (.bpv hd 14 8 2 15 4))) hd (.bpv hd 14 8 2 15 4) v ∧ (boarded (on (.bpv hd 14 8 2 15 4))).board? v.g 15 = some (7, board0)
      ∧ v.act ≠ 0 ∧ v.w.releaseWaits v.act = false)
    ∧ (let s := State.setW (boarded (on (.bvm hd 7 2 15))) (fun w => { w with lastPost := tput w.lastPost 15 5 })
       ∃ v, Issues s hd (.bvm hd 7 2 15) v ∧ s.board? v.g 15 = some (7, board0) ∧ v.act ≠ 0 ∧ tget v.w.lastPost 15 = some 5)
    ∧ (∃ v, Issues (boarded (on (.brst hd 15))) hd (.brst hd 15) v ∧ (boarded (on (.brst hd 15))).board? v.g 15 = some (7, board0) ∧ v.act ≠ 0)
    ∧ ∀ i ∈ ([.vmpop hd 1 7, .vmtst hd 14 0 (im 511), .vmnext hd 1 7 (im 256)] : List Instr), ∃ v, Issues (on i) hd i v :=
  ⟨shows (by decide +kernel), shows (by decide +kernel), shows (by decide +kernel), runs (by decide +kernel)⟩

/- Engines, power and work. -/

/-- Registers v16 to v39 and v64 to v95 hold uniform words. -/
def uniform (s : State) : State := State.setG s (fun g => { g with ceils := (List.range 512).map (fun i => if 16 ≤ i ∧ i < 40 ∨ 64 ≤ i ∧ i < 96 then .u else .g) })
/-- A swizzle map of 16-byte spans in registers from v(n) on. -/
def mapRegs (n : Nat) (base : W64) (cbits s0 : Nat) : List (Nat × W32) :=
  [(n, base.setWidth 32), (n + 1, (base >>> 32).setWidth 32), (n + 2, BitVec.ofNat 32 (cbits * 256 + 1)), (n + 3, BitVec.ofNat 32 s0)]
def mapped (s : State) (cbits s0 : Nat) : State := State.regs (uniform s) (mapRegs 16 (low 0x20000) cbits s0 ++ mapRegs 24 (scratch 0x8000) cbits s0)

set_option maxRecDepth 100000 in
theorem wit_EngineSubmission :
    (∃ v, Issues (on (.mmz hd 7)) hd (.mmz hd 7) v ∧ v.act ≠ 0 ∧ v.b.room 1 = true)
    ∧ (∃ v, Issues (on (.mmwr hd .raw 0 1 (im 127))) hd (.mmwr hd .raw 0 1 (im 127)) v ∧ v.act ≠ 0 ∧ v.b.room 1 = true ∧ (v.badSelector .raw (im 127)).isNone = true)
    ∧ (let i : Instr := .mma h0 7 16 24 16 0 0 ⟨true, 15⟩
       ∃ v, Issues (lane0 (mapped (on i) 8 16)) h0 i v ∧ v.act ≠ 0 ∧ v.b.room 1 = true ∧ v.w.unserved v.act = false
        ∧ (v.productCheck 16 24 16 16 (v.slotWord 0) (v.slotWord 0)).isNone = true)
    ∧ (let i : Instr := .mmas h0 false 0 16 24 40 16 0 0 ng
       ∃ v, Issues (lane0 (State.regs (mapped (on i) 8 16) [(40, 0x44444444), (41, 0x44444444)])) h0 i v ∧ v.act ≠ 0 ∧ v.b.room 1 = true
        ∧ (v.productCheck 16 24 8 16 (v.slotWord 0) (v.slotWord 0)).isNone = true
        ∧ ∀ l ∈ v.lanes, ∀ q < 4, metaOk false (metaIndices false 16 (v.metaOf 40 (metaRegs false 16) l) q) = true)
    ∧ (let i : Instr := .mmld h0 .f16 2 16 ng
       ∃ v, Issues (lane0 (mapped (on i) 16 256)) h0 i v ∧ v.act ≠ 0 ∧ v.b.room 1 = true ∧ (v.mapCheck 16 (v.rowUse .f16 false)).isNone = true)
    ∧ (let i : Instr := .mmst h0 .raw 2 16 3 ng
       ∃ v, Issues (lane0 (mapped (on i) 32 512)) h0 i v ∧ v.act ≠ 0 ∧ v.b.room 1 = true ∧ (v.mapCheck 16 (v.rowUse .raw true)).isNone = true) :=
  ⟨shows (by decide +kernel), shows (by decide +kernel), shows (by decide +kernel), shows (by decide +kernel), shows (by decide +kernel), shows (by decide +kernel)⟩

def eop0 (k : EKind) (st : EState) : EOp :=
  { id := 0, wid := 0, mask := 0xFFFFFFFF, kind := k, guard := none, handler := false, sub := .zero, state := st, progress := 0, wrote := .zero, word := 0, raw := [], cap := [] }

theorem wit_EngineReads :
    (∃ v, Issues (on (.mmrd hd (.slot 0) 1 2 (im 496))) hd (.mmrd hd (.slot 0) 1 2 (im 496)) v ∧ v.act ≠ 0 ∧ (tget v.b.marks 2).isNone = true
      ∧ (v.badSelector (.slot 0) (im 496)).isNone = true ∧ v.b.room 1 = true)
    ∧ (let i : Instr := .cmprs h0 false 40 16 24 16 0 1
       ∃ v, Issues (lane0 (mapped (on i) 8 16)) h0 i v ∧ v.act ≠ 0 ∧ v.b.room 1 = true ∧ v.w.unserved v.act = false
        ∧ (v.mapCheck 16 { rows := rowsOf v.act, kmax := 16, cbits := slotContainer (v.slotWord 0), scaled := some (slotScaled (v.slotWord 0)),
                           nb := scaleCount (v.slotWord 0) 16, write := false, other := none }).isNone = true
        ∧ (v.mapCheck 24 { rows := rowsOf v.act, kmax := 8, cbits := slotContainer (v.slotWord 0), scaled := some (slotScaled (v.slotWord 0)),
                           nb := scaleCount (v.slotWord 0) 16, write := true,
                           other := some ((mapOf ((List.range 8).map (fun i => v.w.rd (16 + i) v.low))).region (rowsOf v.act) 16 (scaleCount (v.slotWord 0) 16)) }).isNone = true)
    ∧ (∃ v, Issues (on (.mmwait hd 7)) hd (.mmwait hd 7) v ∧ v.act ≠ 0 ∧ (∀ l ∈ lanesOf v.grp, nth v.w.lwait l .none = .none) ∧ (tget v.b.marks 7).isNone = true ∧ v.b.eops = [])
    ∧ let s := State.setB (on (.mmwait hd 7)) (fun b => { b with vq := [eop0 (.mmz 7) .queued] })
      ∃ v, Issues s hd (.mmwait hd 7) v ∧ v.act ≠ 0 ∧ v.b.eops.any (fun o => o.tile? == some 7 && o.id < s.nextKey) = true :=
  ⟨shows (by decide +kernel), shows (by decide +kernel), shows (by decide +kernel), shows (by decide +kernel)⟩

/-- A fill job of one row of 16 bytes. -/
def card0 : List W32 := (List.range 32).map (fun i => match i with
  | 0 => 0x20000000 | 10 => 0x20000 | 12 => 0x801 | 13 => 16 | 21 => 0x20000 | 23 => 16 | 26 => 0x00100001 | _ => 0)

theorem wit_JobsTicketsGuards :
    (∃ v, Issues (State.regs (uniform (on (.job hd 64))) ((List.range 32).zip card0 |>.map (fun x => (64 + x.1, x.2)))) hd (.job hd 64) v ∧ v.act ≠ 0 ∧ v.w.card = []
      ∧ (List.range 32).map (fun i => v.w.rd (64 + i) v.low) = card0 ∧ (v.cardCause card0).isNone = true ∧ v.b.room 1 = true ∧ v.w.unserved v.act = false)
    ∧ (∃ v, Issues (State.setW (on (.qpush hd 0 1)) (fun w => { w with regs := lput w.regs 1 (.u 0) (fun _ => .g card0) })) hd (.qpush hd 0 1) v ∧ v.act ≠ 0
      ∧ v.w.card ++ v.lanes.map (v.w.rd 1) = card0 ∧ (v.cardCause card0).isNone = true ∧ v.b.room 1 = true ∧ v.w.unserved (v.w.cardWho ||| v.act) = false)
    ∧ (∃ v, Issues (State.setW (on (.qpush ⟨0, false, 0, 0⟩ 0 1)) (fun w => { w with preds := lput w.preds 0 0 (fun _ => 1) })) ⟨0, false, 0, 0⟩ (.qpush ⟨0, false, 0, 0⟩ 0 1) v
      ∧ v.act = 1 ∧ (v.w.card ++ v.lanes.map (v.w.rd 1)).length = 1 ∧ v.b.room 1 = true)
    ∧ (∀ i ∈ ([.qpop hd 1 1, .gset hd 15 15, .gset hd 0 14] : List Instr), ∃ v, Issues (on i) hd i v) :=
  ⟨shows (by decide +kernel), shows (by decide +kernel), shows (by decide +kernel), runs (by decide +kernel)⟩

theorem wit_PowerSpawnAndSend :
    (∃ v, Issues (on (.draw hd (im 0xFFFF000F))) hd (.draw hd (im 0xFFFF000F)) v ∧ v.act ≠ 0)
    ∧ (let s := { on (.burn hd (im 0x10008)) with cols := lput (on (.burn hd (im 0x10008))).cols 0 Column.init (fun c => { c with tband := 4 }) }
       ∃ v, Issues s hd (.burn hd (im 0x10008)) v ∧ v.act ≠ 0
        ∧ ¬ (16 < s.otherBurn v.core v.bk + 8 + nth (s.col (v.core / 4)).hw (v.core % 4) 0) ∧ (s.col (v.core / 4)).tband = 4)
    ∧ (∃ v, Issues (on (.burn hd (im 0))) hd (.burn hd (im 0)) v ∧ v.act ≠ 0)
    ∧ (∃ v, Issues (on (.shunt hd 0 (im 0))) hd (.shunt hd 0 (im 0)) v ∧ v.act ≠ 0)
    ∧ (∃ v, Issues (on (.shunt hd 0 (im 0x10000))) hd (.shunt hd 0 (im 0x10000)) v ∧ v.act ≠ 0)
    ∧ (let s := on (.shunt hd 0 (im 0x10008))
       ∃ v, Issues s hd (.shunt hd 0 (im 0x10008)) v ∧ v.act ≠ 0
        ∧ (boundariesOf (v.core % 4)).all (fun b => decide (s.reservedOn (v.core / 4) b v.bk + 8 ≤ 8)) = true)
    ∧ (let s := State.regs (on (.shunt hd 0 (r 2))) [(2, 0x1000F)]
       ∃ v, Issues s hd (.shunt hd 0 (r 2)) v ∧ v.act ≠ 0 ∧ (v.w.srcB (r 2) v.low).toNat = 0x1000F ∧ v.g.rec_.flag 7 = false)
    ∧ (let i : Instr := .spawn hd (im 0x10000)
       let s := State.setL (on i) (fun g => { g with entry := codeAt 0x40, spawna := 1 })
       let s := { s with mem := putBytes s.mem ((List.range 8).map (fun k => (codeBase + 0x38 + k, if k = 0 then 1 else 0))) }
       ∃ v, Issues s hd i v ∧ v.act ≠ 0 ∧ v.w.unserved v.act = false ∧ (s.entryAt v.die v.g.ctx v.g.rec_.entry 0).isSome = true ∧ 1 ≤ s.freeSlots v.core ∧ s.spawned v.bk v.b + 1 ≤ v.g.rec_.spawna)
    ∧ ∃ v, Issues (on (.sendw hd 8 16)) hd (.sendw hd 8 16) v ∧ v.act ≠ 0 ∧ v.w.unserved v.act = false ∧ (v.w.rd 16 v.low).toNat = 0
        ∧ (on (.sendw hd 8 16)).mailboxLoad 0 < Config.mailboxSize :=
  ⟨shows (by decide +kernel), shows (by decide +kernel), shows (by decide +kernel), shows (by decide +kernel), shows (by decide +kernel),
    shows (by decide +kernel), shows (by decide +kernel), shows (by decide +kernel), shows (by decide +kernel)⟩

/- Steps of the other agents, on the placed program's state with what the step needs put in. -/

def base : State := on (.nop hd)

def meets (s : State) (k : Nat) (P : Warp → Block → Grid → Bool) : Bool :=
  match tget s.warps k with
  | some w =>
    match s.blk? w.blk with
    | some b =>
      match tget s.grids b.grid with
      | some g => P w b g
      | none => false
    | none => false
  | none => false

/-- A warp, its block and its grid that P holds of. -/
theorem stands {s : State} {k : Nat} {P : Warp → Block → Grid → Prop} [∀ w b g, Decidable (P w b g)]
    (c : meets s k (fun w b g => decide (P w b g)) = true) :
    ∃ w b g, tget s.warps k = some w ∧ s.blk? w.blk = some b ∧ tget s.grids b.grid = some g ∧ P w b g := by
  unfold meets at c
  split at c
  · rename_i w hw
    split at c
    · rename_i b hb
      split at c
      · rename_i g hg
        exact ⟨w, b, g, hw, hb, hg, of_decide_eq_true c⟩
      · cases c
    · cases c
  · cases c

def op0 (k : OpKind) : Op :=
  { id := 1, kind := k, pc := codeAt 0, group := 0xFFFFFFFF, act := 0xFFFFFFFF, la := 0, since := 0, at_ := List.replicate 32 1, dst := [(8, .g)],
    whole := true, res := [List.replicate 32 0], sup := [], flags := 0, gen := 0, done := false, fault := none, mark := none, rep := none }
def opped (k : OpKind) : State := State.setW base (fun w => { w with ops := [op0 k] })

def calm (w : Warp) (g : Grid) : Bool :=
  g.rec_.handler != 0 && w.trap.isNone && w.pend.isNone && w.ops.isEmpty && w.rep.isNone && w.reps.isEmpty && w.half.isNone && !w.halted && !w.wait.mustEnd

theorem wit_WarpSteps :
    (∃ w b g, tget (State.setW (handled base) (fun w => { w with async := [(.preempt, 5)] })).warps 0 = some w
      ∧ (State.setW (handled base) (fun w => { w with async := [(.preempt, 5)] })).blk? w.blk = some b
      ∧ tget (State.setW (handled base) (fun w => { w with async := [(.preempt, 5)] })).grids b.grid = some g
      ∧ calm w g = true ∧ w.asyncCause = some (.preempt, 5))
    ∧ (let s := { State.setW (handled base) (fun w => { w with hang := 1, hangGroup := 0 }) with
                  cols := lput base.cols 0 Column.init (fun c => { c with window := 4097 }) }
      ∃ w b g, tget s.warps 0 = some w ∧ s.blk? w.blk = some b ∧ tget s.grids b.grid = some g
        ∧ calm w g = true ∧ w.async.isEmpty = true ∧ w.hung (s.col 0).window = true)
    ∧ (let s := { State.setW (handled base) (fun w => { w with wait := .blockLimit, waitSince := 0 }) with tsc := 10 ^ 12 }
      ∃ w b g, tget s.warps 0 = some w ∧ s.blk? w.blk = some b ∧ tget s.grids b.grid = some g
        ∧ calm w g = true ∧ w.async.isEmpty = true ∧ (tget s.ctxs g.ctx).any (fun c => w.waitedOut (fun key => (s.breq? key).any (fun r => r.kind != .brst)) s.tsc (c.wdog * 1000000)) = true)
    ∧ (let s := { State.setW base (fun w => { w with wait := .nap 7 }) with tsc := 7 }
      ∃ w b g, tget s.warps 0 = some w ∧ s.blk? w.blk = some b ∧ tget s.grids b.grid = some g ∧ w.wait = .nap 7 ∧ 7 ≤ s.tsc) :=
  ⟨stands (by decide +kernel), stands (by decide +kernel), stands (by decide +kernel), stands (by decide +kernel)⟩

/-- One state for each kind of instruction under way. -/
theorem wit_LongLatencyCompletes :
    (∀ k ∈ [OpKind.loaded, .atomic [] ⟨0, .dflt, .rlx⟩ 0, .value, .pref [], .waita .eq [(0, 64), (31, 65532)] [(0, 0)]],
      ∃ w b g, tget (opped k).warps 0 = some w ∧ (opped k).blk? w.blk = some b ∧ tget (opped k).grids b.grid = some g
        ∧ ((w.op? 1).any (fun o => o.kind == k) = true ∧ (b.padPoison 64 4).isNone = true ∧ waitHolds .eq (BitVec.ofNat 32 (ofBytes (b.padLoad 64 4))) 0 = true))
    ∧ (let s := State.setB (opped (.qpop 1)) (fun b => { b with tickets := [⟨5, .zero⟩] })
      ∃ w b g, tget s.warps 0 = some w ∧ s.blk? w.blk = some b ∧ tget s.grids b.grid = some g
        ∧ ((w.op? 1).any (fun o => o.kind == .qpop 1) = true ∧ b.tickets = ⟨5, .zero⟩ :: [] ∧ ∀ x ∈ w.ops, x.over = false → ¬ x.id < 1)) := by
  refine ⟨?_, stands (by decide +kernel)⟩
  intro k hk
  simp only [List.mem_cons, List.mem_nil_iff, or_false] at hk
  rcases hk with rfl | rfl | rfl | rfl | rfl <;> exact stands (by decide +kernel)

/-- A read of v8 by threads that have executed three instructions, the operations o under way from their first on. -/
def reading (l : List Op) : State := State.setW (handled (on (.mov hd 1 8))) (fun w => { w with ops := l, count := List.replicate 32 3 })
def clash (v : View) : Bool := v.w.ops.any (fun o => o.dst.any (fun y => y.1 == 8) && v.lanes.any (fun l =>
  has o.act l && decide (nth o.at_ l 0 < nth v.w.count l 0) && decide (nth v.w.count l 0 ≤ nth o.at_ l 0 + o.la)))

/-- Past its lookahead; within it, with all that is under way complete, and with another operation under way. -/
theorem wit_LongLatencyCompletes_window :
    (let s := reading [{ op0 .value with la := 1 }]
     ∃ v, s.view hd = some v ∧ (v.grp ≠ 0 ∧ v.w.blocked = false ∧ v.w.async = [] ∧ v.w.replay = []
      ∧ (v.check (reqOf (.mov hd 1 8) v)).isNone = true
      ∧ v.w.ops.any (fun o => !o.done && (lanesOf v.grp).any (fun l => has o.group l && decide (nth o.at_ l 0 + o.la < nth v.w.count l 0))) = true))
    ∧ (let s := reading [{ op0 .value with la := 2, done := true }]
       ∃ v, Stands s hd v ∧ (v.check (reqOf (.mov hd 1 8) v)).isNone = true ∧ clash v = true)
    ∧ (let s := reading [{ op0 .value with la := 2, done := true }, { op0 .value with id := 2, la := 7, dst := [(9, .g)] }]
       (s.view hd).any (fun v => v.grp != 0 && !v.w.blocked && v.w.async.isEmpty && v.w.replay.isEmpty && (v.check (reqOf (.mov hd 1 8) v)).isNone && v.w.rep.isNone
        && clash v && v.w.ops.any (fun o => !o.done) && v.w.ops.all (fun o => o.done || (lanesOf v.grp).all (fun l => !has o.group l
          || decide (nth v.w.count l 0 ≤ nth o.at_ l 0 + o.la)))) = true) := by
  refine ⟨?_, halts (by decide +kernel), by decide +kernel⟩
  have h : ((reading [{ op0 .value with la := 1 }]).view hd).any (fun v => decide (v.grp ≠ 0 ∧ v.w.blocked = false ∧ v.w.async = [] ∧ v.w.replay = []
      ∧ (v.check (reqOf (.mov hd 1 8) v)).isNone = true
      ∧ v.w.ops.any (fun o => !o.done && (lanesOf v.grp).any (fun l => has o.group l && decide (nth o.at_ l 0 + o.la < nth v.w.count l 0))) = true)) = true := by
    decide +kernel
  obtain ⟨v, hv, hp⟩ := (Option.any_eq_true _ _).mp h
  exact ⟨v, hv, of_decide_eq_true hp⟩

def acc0 (va : Nat) : List Access := [⟨0, low va, 4, false⟩, ⟨31, low (va + 124), 4, false⟩]
/-- A half of a 16-byte access of lane 0 to a global address, and one of lane 31 to the scratchpad. -/
def accHalf : List Access := [⟨0, low 0x20000, 8, false⟩, ⟨31, scratch 65528, 8, false⟩]
def plainX : MemX := ⟨0, .dflt, .rlx⟩
def ldOp (va : Nat) (walked : Bool) : OpKind := .load (acc0 va) ⟨false, .w32⟩ plainX walked

/-- Mapped to the last byte of the mapping, absent just above it, and served. -/
theorem wit_LoadSteps :
    (let s := opped (ldOp (2 ^ 34 - 128) false)
      ∃ w b g, tget s.warps 0 = some w ∧ s.blk? w.blk = some b ∧ tget s.grids b.grid = some g
        ∧ ((w.op? 1).any (fun o => o.kind == ldOp (2 ^ 34 - 128) false) = true
          ∧ ∀ a ∈ acc0 (2 ^ 34 - 128), s.xlat (.part 0 0) g.ctx (vbits a.va) needRD = .ok (vbits a.va)))
    ∧ (let s := opped (ldOp (2 ^ 34) false)
      ∃ w b g, tget s.warps 0 = some w ∧ s.blk? w.blk = some b ∧ tget s.grids b.grid = some g
        ∧ ((w.op? 1).any (fun o => o.kind == ldOp (2 ^ 34) false) = true ∧ s.xlat (.part 0 0) g.ctx (2 ^ 34) needRD = .absent))
    ∧ (let s := opped (ldOp 0x20000 true)
      ∃ w b g, tget s.warps 0 = some w ∧ s.blk? w.blk = some b ∧ tget s.grids b.grid = some g
        ∧ ((w.op? 1).any (fun o => o.kind == ldOp 0x20000 true) = true ∧ ((acc0 0x20000).map (fun a => (a.lane, 0))).Nodup
          ∧ ∀ a ∈ acc0 0x20000, a.lane < 32 ∧ s.halfChosen ⟨false, .w32⟩ a = true ∧ s.paOf (.part 0 0) g.ctx a.va needRD = some (vbits a.va)
            ∧ isPeer (vbits a.va) = false ∧ (s.poisonIn 0 (vbits a.va) 4).isNone = true ∧ pathOf a.va = 0
            ∧ ∀ free, (s.serveLane 0 (pathOf a.va) plainX ((w.clkAt a.lane).need (vbits a.va) 4) (vbits a.va) 4 free).isSome = true))
    ∧ (let k : OpKind := .load accHalf ⟨false, .w128⟩ plainX true
      let s := opped k
      ∃ w b g, tget s.warps 0 = some w ∧ s.blk? w.blk = some b ∧ tget s.grids b.grid = some g
        ∧ ((w.op? 1).any (fun o => o.kind == k) = true ∧ (b.padPoison 65528 8).isNone = true
          ∧ accHalf.filter (fun a => pathOf a.va == 8) = [⟨31, scratch 65528, 8, false⟩] ∧ (scratch 65528).toNat % 2 ^ 32 = 65528))
    ∧ (let k : OpKind := .load [⟨0, 0x1000000000020000, 4, false⟩] ⟨false, .w32⟩ plainX true
      let s := opped k
      ∃ w b g, tget s.warps 0 = some w ∧ s.blk? w.blk = some b ∧ tget s.grids b.grid = some g
        ∧ ((w.op? 1).any (fun o => o.kind == k) = true ∧ s.paOf (.part 0 0) g.ctx 0x1000000000020000 needRD = some 0x20000 ∧ pathOf 0x1000000000020000 = 1
          ∧ (s.poisonIn 0 0x20000 4).isNone = true ∧ ∀ free ∈ [0, 1], (s.constBytes 0 g 0x20000 4 free).isSome = true))
    ∧ (∃ a ∈ [(⟨0, low 0x20000, 8, false⟩ : Access), ⟨0, low 0x20008, 8, false⟩], (opped (ldOp 0x20000 true)).halfChosen ⟨false, .w128⟩ a = true) := by
  refine ⟨stands (by decide +kernel), stands (by decide +kernel), ?_, stands (by decide +kernel), stands (by decide +kernel), ?_⟩
  · obtain ⟨w, b, g, hw, hb, hg, h1, h2, h3⟩ : ∃ w b g, tget (opped (ldOp 0x20000 true)).warps 0 = some w ∧ (opped (ldOp 0x20000 true)).blk? w.blk = some b
        ∧ tget (opped (ldOp 0x20000 true)).grids b.grid = some g ∧ ((w.op? 1).any (fun o => o.kind == ldOp 0x20000 true) = true
          ∧ ((acc0 0x20000).map (fun a => (a.lane, 0))).Nodup
          ∧ ∀ a ∈ acc0 0x20000, a.lane < 32 ∧ (opped (ldOp 0x20000 true)).paOf (.part 0 0) g.ctx a.va needRD = some (vbits a.va)
            ∧ isPeer (vbits a.va) = false ∧ ((opped (ldOp 0x20000 true)).poisonIn 0 (vbits a.va) 4).isNone = true ∧ pathOf a.va = 0
            ∧ (opped (ldOp 0x20000 true)).coreBytes 0 (pathOf a.va) plainX ((w.clkAt a.lane).need (vbits a.va) 4) (vbits a.va) 4 = none
            ∧ ((w.clkAt a.lane).need (vbits a.va) 4).le ((opped (ldOp 0x20000 true)).die ((opped (ldOp 0x20000 true)).server (coreDie 0) (vbits a.va))).vec = true) :=
      stands (by decide +kernel)
    refine ⟨w, b, g, hw, hb, hg, h1, h2, fun a ha => ?_⟩
    obtain ⟨a1, a2, a3, a4, a5, a6, a7⟩ := h3 a ha
    exact ⟨a1, rfl, a2, a3, a4, a5, fun free => by simp only [State.serveLane, a6, a7, ite_self, if_true, Option.isSome_some]⟩
  · simp only [State.halfChosen]
    split
    · exact ⟨_, List.mem_cons_self, rfl⟩
    · exact ⟨_, List.mem_cons_self, by decide⟩
    · exact ⟨_, List.mem_cons_of_mem _ List.mem_cons_self, by decide⟩

/-- There is a block, and its grid, that P holds of. -/
def blkIs (s : State) (k : Nat) (P : Block → Grid → Bool) : Bool := (s.blk? k).any (fun b => (tget s.grids b.grid).any (P b))
def warpIs (s : State) (k : Nat) (P : Warp → Bool) : Bool := (tget s.warps k).any P
def State.setD (s : State) (d : Nat) (f : Die → Die) : State := { s with dies := lput s.dies d Die.init f }
def State.setC (s : State) (f : Ctx → Ctx) : State := { s with ctxs := tmod s.ctxs 0 f }
def State.setCol (s : State) (f : Column → Column) : State := { s with cols := lput s.cols 0 Column.init f }
def State.setCore (s : State) (f : CoreSt → CoreSt) : State := { s with cores := lput s.cores 0 CoreSt.init f }

def msg0 (dst addr : Nat) (held : Bool) : Msg :=
  { key := 50, origin := 1, num := 1, vec := .zero, dst := dst, addr := addr, bytes := [(addr, 1), (addr + 1, 2)], hs := 1, held := held, kind := .write,
    sys := false, settling := false, merge := false, whole := [], cx := 0, maker := none }
def atom0 (addr : Nat) : Msg := { msg0 (homeOf addr) addr false with bytes := [], kind := .atomic (some .add32) 4 [⟨0, 1, 0⟩, ⟨1, 2, 0⟩] plainX 0 0 1 }
def messaged (m : Msg) : State := { base with msgs := [m] }

/-- A copy of the line at die 3 whose last byte shows a write of this place in the home order. -/
def copied (hs : Nat) (m : Msg) : State :=
  State.setD (messaged m) 3 (fun d => { d with copies := [(lineOf 0x20000, ⟨List.replicate 127 CopyByte.zero ++ [⟨7, hs, 0, none⟩], 0⟩)] })

/-- At the home, uncovered, held, at a die that holds no copy, at one whose copy shows an earlier or a later write, a settle, and an atomic at the last
word of a line. -/
theorem wit_WriteSteps :
    (let m := msg0 2 0x20000 false
     (messaged m).msg? 50 = some m ∧ isPeer m.addr = false ∧ m.isWrite = true ∧ m.settling = false ∧ homeOf m.addr = m.dst ∧ (messaged m).covered m = true)
    ∧ (let m := { msg0 2 0x20000 false with num := 2 }
       (messaged m).msg? 50 = some m ∧ m.isWrite = true ∧ homeOf m.addr = m.dst ∧ (messaged m).covered m = false)
    ∧ (let m := msg0 2 0x20000 true
       (messaged m).msg? 50 = some m ∧ m.isWrite = true ∧ m.held = true ∧ homeOf m.addr = m.dst ∧ (messaged m).covered m = true)
    ∧ (let m := msg0 3 0x20000 false
       (messaged m).msg? 50 = some m ∧ m.isWrite = true ∧ (messaged m).noticeOnly m = true ∧ (messaged m).covered m = true)
    ∧ (∀ hs ∈ [0, 5], let m := { msg0 3 0x20000 false with bytes := [(0x2007F, 1)] }
       (copied hs m).msg? 50 = some m ∧ m.isWrite = true ∧ homeOf m.addr ≠ m.dst ∧ (copied hs m).noticeOnly m = false ∧ (copied hs m).covered m = true ∧ m.hs ≠ 0
        ∧ lineOf 0x2007F = lineOf m.addr ∧ (tget ((copied hs m).die 3).copies (lineOf m.addr)).any (fun l => decide (l.base < m.hs)) = true)
    ∧ (let m := { msg0 3 0x20000 false with settling := true }
       (copied 5 m).msg? 50 = some m ∧ m.settling = true)
    ∧ (let m := { msg0 2 0x20000 false with sys := true }
       (messaged m).msg? 50 = some m ∧ m.sys = true ∧ (messaged m).allPlaced m.vec = true)
    ∧ (let m := atom0 (0x20000 + 124)
       (messaged m).msg? 50 = some m ∧ (messaged m).mayPerform m = true ∧ ((messaged m).poisonIn m.dst m.addr 4).isNone = true ∧ isPeer m.addr = false ∧ homeOf m.addr = m.dst
        ∧ m.addr % 128 + 4 ≤ 128 ∧ m.dst < 5 ∧ ∀ x ∈ (messaged m).msgs, x.origin = m.dst → x.num ≠ ((messaged m).die m.dst).nextWrite) := by decide +kernel

def fent0 : FaultEnt := { va := low 0x5000, stamp := 0, ctx := 0, core := 0, kind := 0, count := 1, slot := 0, warps := [0], eops := [], reported := false }
def map0 : Mapping := { va := 0x4000000000, pa := 0, size := 4096, attr := 0x87 }

theorem wit_CacheSteps :
    (∀ inv : Bool, let s := State.setW base (fun w => { w with wait := .wb [5] inv })
     warpIs s 0 (fun w => w.wait == .wb [5] inv) = true ∧ [5].any (s.owed 0) = false)
    ∧ (let s := State.setW base (fun w => { w with icinvs := [(5, .zero, 1)], wait := .isync })
       warpIs s 0 (fun w => w.icinvs == [(5, .zero, 1)] && w.wait == .isync) = true ∧ s.everywhere .zero = true)
    ∧ ((tget (base.core 255).istore 5).isNone = true ∧ base.backed (5 * 128) 128 = true ∧ (base.poisonIn 3 (5 * 128) 128).isNone = true ∧ 255 < Config.numCores
      ∧ base.handlerLine 255 5 = false)
    ∧ (let s := State.setL (trapped .trapInstr 0 base) (fun r => { r with flags := 2 })
       let line := lineOf codeBase
       (tget (s.core 0).hbuf line).isNone = true ∧ s.backed (line * 128) 128 = true ∧ (s.poisonIn 0 (line * 128) 128).isNone = true ∧ s.handlerLine 0 line = true)
    ∧ (let s := State.setCore base (fun c => { c with istore := (List.range 1024).map (fun i => (i + 10, [])) })
       (s.core 0).istore.length ≤ 1024 ∧ (s.core 0).istore.any (fun x => s.pinned 0 x.1 == false) = true ∧ (tget (s.core 0).istore 5).isNone = true
        ∧ s.handlerLine 0 5 = false)
    ∧ (let s := State.setD base 0 (fun d => { d with faultWait := [(0, fent0)] })
       (s.die 0).faultWait = [(0, fent0)] ∧ (s.die 0).faults.length < Config.faultBufSize)
    ∧ (let s := State.setC base (fun c => { c with shoot := [(map0, 0, 1, 7)] })
       (tget s.ctxs 0).any (fun c => c.shoot == [(map0, 0, 1, 7)]) = true ∧ s.inFlight 0 map0 = false) := by decide +kernel

def stx0 (parity : Bool) : StxMsg := { key := 60, group := 60, blk := bk0, src := bk0, wid := 0, off := 32764, bytes := [1, 2, 3, 4], parity := parity }
def arr0 (n dst : Nat) : ArrMsg := { key := 70, n := n, src := bk0, srcCore := 0, dst := dst, wid := 0, phase := 0, swap := false, need := [], clk := .zero, stamp := 0 }

theorem wit_ExchangeAndBarrierSteps :
    (∀ p : Bool, let s := { shadowed base with stxs := [stx0 p] }
     s.stxs.find? (fun x => x.key == 60) = some (stx0 p)
      ∧ blkIs s bk0 (fun b _ => b.parity == false && b.state != .out && b.state != .restoring) = true ∧ ∀ x ∈ s.stxs, x.group = 60 → 60 ≤ x.key)
    ∧ (let w : SwapSt := ⟨61, 3, bk0, []⟩
       let s := { shadowed base with swaps := [w] }
       s.swaps.find? (fun x => x.key == 61) = some w ∧ (∀ x ∈ s.stxs, x.key ∉ w.need) ∧ s.blocks.all (fun x => !s.saving x.1 x.2) = true
        ∧ blkIs s bk0 (fun b _ => b.shadowBytes == 32768 && b.heldStx.isEmpty && b.shadow.all (fun x => x.1 < b.shadowBytes)) = true)
    ∧ (let w : SwapSt := ⟨61, 112, gk0, []⟩
       let s := { shadowed base with swaps := [w] }
       s.swaps.find? (fun x => x.key == 61) = some w ∧ blkIs s bk0 (fun b _ => b.grid == w.owner && !s.saving bk0 b) = true)
    ∧ (let w : SwapSt := ⟨61, 112, gk0, []⟩
       let s := State.setB { shadowed base with swaps := [w] } (fun b => { b with state := .out })
       s.swaps.find? (fun x => x.key == 61) = some w ∧ s.blocks.all (fun x => x.2.state != .preempting) = true ∧ blkIs s bk0 (fun b _ => b.grid == w.owner && s.saving bk0 b) = true)
    ∧ (let s := State.setB { base with arrs := [arr0 111 bk0] } (fun b => { b with state := .preempting })
       s.arrs.find? (fun x => x.key == 70) = some (arr0 111 bk0) ∧ blkIs s bk0 (fun b _ => b.state == .preempting) = true)
    ∧ (let s := { base with arrs := [arr0 1 bk0] }
       s.arrs.find? (fun x => x.key == 70) = some (arr0 1 bk0) ∧ blkIs s bk0 (fun b _ => b.state == .running && !(b.bar 1).swapping && (b.bar 1).phase == 0) = true)
    ∧ (let s := { base with arrs := [arr0 112 gk0] }
       s.arrs.find? (fun x => x.key == 70) = some (arr0 112 gk0) ∧ (tget s.grids gk0).any (fun g => !(g.bar 112).swapping && (g.bar 112).phase == 0) = true) := by
  decide +kernel

def admitted (o : EOp) : State := State.setB base (fun b => { b with adm := [o] })

theorem wit_EngineSteps :
    (let o := eop0 (.mmz 7) .queued
     let s := State.setB base (fun b => { b with vq := [o] })
     (s.blocksOn 0).map Prod.fst = [bk0] ∧ blkIs s bk0 (fun b _ => b.offer == some o && decide (b.adm.length < 64)) = true)
    ∧ (let o := eop0 (.mmz 7) .admitted
       blkIs (admitted o) bk0 (fun b _ => b.adm? 0 == some o && !b.mustFollow o) = true)
    ∧ (let o := eop0 (.mmz 7) (.parked 0x20000)
       blkIs (admitted o) bk0 (fun b _ => b.adm? 0 == some o && o.state.isParked) = true
        ∧ ∀ d ∈ (admitted o).dies, (∀ f ∈ d.faults, (bk0, 0) ∉ f.eops) ∧ ∀ f ∈ d.faultWait, (bk0, 0) ∉ f.2.eops)
    ∧ (let o := eop0 (.mmz 7) .started
       blkIs (admitted o) bk0 (fun b _ => b.adm? 0 == some o) = true)
    ∧ (let o := eop0 (.job card0) .started
       blkIs (admitted o) bk0 (fun b g => b.adm? 0 == some o
        && (match (admitted o).engSteps bk0 g o o.progress (o.steps - o.progress) o.wrote with
            | (s1, _, _, none) => blkIs s1 bk0 (fun b1 _ => b1.grid == b.grid) && s1.grids == (admitted o).grids
            | _ => false)) = true)
    ∧ (∀ k ∈ [EKind.job (lput card0 23 0 (fun _ => 0)), .mmld 7 .raw (mapOf [0x20000, 0, 0x2001, 512, 0, 0, 0, 0])],
       let s := { admitted (eop0 k .started) with poison := [0x20000 / 32] }
       blkIs s bk0 (fun b g => b.adm? 0 == some (eop0 k .started)
        && (match s.engSteps bk0 g (eop0 k .started) 0 ((eop0 k .started).steps - 0) .zero with
            | (s1, _, _, some (.fail _ _)) => blkIs s1 bk0 (fun b1 _ => b1.grid == b.grid) && s1.grids == s.grids
            | _ => false)) = true)
    ∧ (let s := State.setW base (fun w => { w with wait := .blockLimit })
       warpIs s 0 (fun w => w.wait == .blockLimit) = true ∧ blkIs s bk0 (fun b _ => b.eops.length + b.tickets.length < 64) = true) := by
  decide +kernel

/-- Elements of 16 bits in rows of s bytes of the scratchpad. -/
def smap (base s : Nat) : Map := mapOf [BitVec.ofNat 32 base, 0x80000000, 0x1001, BitVec.ofNat 32 s, 0, 0, 0, 0]
def ctxOf (o : EOp) (tag : Option Span) (b : Block) (g : Grid) : EngCtx := ⟨bk0, o.wid, g.ctx, b.core, o.sub, b.eclk, tag, none, none⟩
def reads_ (s : State) (e : EngCtx) (m : Map) (row k : Nat) : Bool := match s.engElem e m row k with | .ok _ => true | .error _ => false
/-- Elements that no two of share a byte. -/
def apart_ (m : Map) (r n : Nat) : Bool := [8, 16, 32].contains m.cbits && (List.range n).all (fun c =>
  m.addr r c / 2 ^ 60 == 8 && (m.addr r c + m.cbits / 8 - 1) / 2 ^ 60 == 8
    && (List.range n).all (fun d => d ≤ c || m.addr r c + m.cbits / 8 ≤ m.addr r d || m.addr r d + m.cbits / 8 ≤ m.addr r c))
def steps_ (o : EOp) : Bool := blkIs (admitted o) bk0 (fun _ g => match (admitted o).engStep bk0 g o 0 with | .ok _ => true | .error _ => false)
/-- Jobs on the scratchpad of one row of eight elements: a copy, an indexed copy and a fill. -/
def card1 (typ : Nat) : List W32 := (List.range 32).map (fun i => BitVec.ofNat 32 (match i with
  | 0 => typ * 2 ^ 28 | 2 => if typ = 2 then 0 else 0x1000 | 3 => if typ = 2 then 0 else 0x80000000 | 4 => if typ = 2 then 0 else 0x1001
  | 5 => if typ = 2 then 0 else 16 | 10 => 0x8000 | 11 => 0x80000000 | 12 => 0x1001 | 13 => 16 | 18 => 0 | 19 => 0x80000000 | 20 => 0x8000
  | 21 => 0x8000 | 22 => 0x80000000 | 23 => 16 | 24 => if typ = 1 then 0x2000 else 0 | 25 => if typ = 1 then 0x80000000 else 0
  | 26 => 0x00080001 | _ => 0))

set_option maxRecDepth 100000 in
theorem wit_EngineSteps_results :
    (let o := { eop0 (.mmld 7 .f16 (smap 0x8000 256)) .started with mask := 1 }
     nth (rowsOf o.mask) 0 0 < 128 ∧ blkIs (admitted o) bk0 (fun b g => (List.range 128).all (reads_ (admitted o) (ctxOf o (some (smap 0x8000 256).tag) b g) (smap 0x8000 256) 0)) = true)
    ∧ (let sel : List (Nat × W32) := [(0, 0), (31, 4 * 126 + 3)]
       (sel.map Prod.fst).Nodup ∧ blkIs base bk0 (fun _ g => sel.all (fun y => y.1 < 32 && y.2.toNat / 4 % 128 + 32 / convBits g.rec_ .f16 ≤ 128)) = true)
    ∧ (let o := { eop0 (.mma 7 (smap 0x8000 32) (smap 0x10000 32) 16 0x80000000 0x80000000 none) .started with mask := 1 }
       chunkLen 0x80000000 0x80000000 = 8 ∧ scaleCount 0x80000000 16 = 0
        ∧ blkIs (admitted o) bk0 (fun b g => (rowsOf o.mask).all (fun r => (List.range 8).all (reads_ (admitted o) (ctxOf o (some (smap 0x8000 32).tag) b g) (smap 0x8000 32) r))
          && (List.range 128).all (fun c => (List.range 8).all (reads_ (admitted o) (ctxOf o (some (smap 0x10000 32).tag) b g) (smap 0x10000 32) c))) = true)
    ∧ (let P := (List.range 4).map (fun r => (r, [0, 1, 4, 5, 8, 9, 12, 13]))
       let o := { eop0 (.mma 7 (smap 0x8000 32) (smap 0x10000 32) 16 0x80000000 0x80000000 (some (false, P))) .started with mask := 1 }
       P.map Prod.fst = rowsOf o.mask ∧ ([0, 1, 4, 5, 8, 9, 12, 13].filter (fun x => decide (x < chunkLen 0x80000000 0x80000000))).length = 4
        ∧ blkIs (admitted o) bk0 (fun b g => (rowsOf o.mask).all (fun r => (List.range 4).all (reads_ (admitted o) (ctxOf o (some (smap 0x8000 32).tag) b g) (smap 0x8000 32) r))
          && (List.range 128).all (fun c => (List.range 8).all (reads_ (admitted o) (ctxOf o (some (smap 0x10000 32).tag) b g) (smap 0x10000 32) c))) = true)
    ∧ (let o := { eop0 (.mmz 7) .started with mask := 1 }
       has o.mask 0 = true ∧ blkIs (admitted o) bk0 (fun b g => (List.range 16).all (reads_ (admitted o) (ctxOf o none b g) (smap 0x8000 32) 0)
        && (match (admitted o).runCmprs (ctxOf o none b g) o.mask (smap 0x8000 32) (smap 0x10000 32) 0x80000000 false 16 with | .ok _ => true | .error _ => false)
        && (List.range 4).all (fun q => match (admitted o).cmprsRow (ctxOf o none b g) (smap 0x8000 32) 0x80000000 false 16 q with | .ok _ => true | .error _ => false)) = true)
    ∧ (steps_ { eop0 (.mmst 7 .f16 (smap 0x8000 256) 3) .started with mask := 1 } = true ∧ apart_ (smap 0x8000 256) 0 128 = true
      ∧ blkIs base bk0 (fun b _ => b.spoison.isEmpty) = true)
    ∧ (∀ typ ∈ [0, 1, 2], steps_ (eop0 (.job (card1 typ)) .started) = true ∧ (cardOf (card1 typ)).typ = typ ∧ (cardOf (card1 typ)).ncol = 8
      ∧ apart_ (cardOf (card1 typ)).dst 0 8 = true ∧ (cardOf (card1 typ)).scales = 0
      ∧ let o := eop0 (.job (card1 typ)) .started
        let k := cardOf (card1 typ)
        blkIs (admitted o) bk0 (fun b g => let rd : EngCtx := { ctxOf o none b g with rfoot := some (k.rbase.toNat, k.rlen), wfoot := some (k.wbase.toNat, k.wlen) }
          (typ != 1 || (match (admitted o).engBytes rd ((k.ixbase.toNat + 4 * 0) % 2 ^ 64) 4 with | .ok bs => ofBytes bs == 0 | .error _ => false))
            && (typ == 2 || (List.range 8).all (reads_ (admitted o) rd k.src 0))) = true)
    ∧ (let o := eop0 (.mmrd 7 (.slot 0) [(0, 0)] 0 0 1) .started
       let s := State.setW (admitted o) (fun w => { w with ops := [op0 (.mmrd 0)] })
       blkIs s bk0 (fun b _ => b.adm? 0 == some o && (tget b.marks 7).isNone) = true
        ∧ (s.engWarp bk0 0).any (fun x => x.1 == 0 && (tget s.warps 0).any (fun w => decide (w = x.2)) && (x.2.op? 1).isSome) = true)
    ∧ ∀ s48 : Bool, let rows := List.replicate 4 [0, 1, 2, 3, 0, 1, 2, 3]
      rows.length = 4 ∧ 16 % 16 = 0 ∧ ∀ r ∈ rows, r.length = 16 / 2 ∧ ∀ x ∈ r, x < if s48 then 8 else 4 := by
  refine ⟨by decide +kernel, by decide +kernel, by decide +kernel, by decide +kernel, by decide +kernel, by decide +kernel, by decide +kernel, by decide +kernel, by decide⟩


def breq0 (k : BReqKind) : BReq :=
  { key := 80, board := 7, die := 0, gen := 0, kind := k, handle := 7, blk := bk0, wid := 0, pc := codeAt 0, group := 0xFFFFFFFF, act := 1, whole := true, iter := 0,
    lanes := [], dst := 8, stale := 0, vm := 3, level := 1, round := 5, taken := false, fault := none, levels := [], mask := 0, seen := .zero, logged := false }
def posting (n : Nat) (r : W32) : BReq := { breq0 .bpv with lanes := [⟨0, 1, r, some n, .zero⟩] }
def asked (b : Board) (r : BReq) : State := { State.setW base (fun w => { w with wait := .board 80 }) with boards := [(7, b)], breqs := [r] }
def posted (n : Nat) : Post := ⟨n, 9, .zero⟩

/-- A board of two slots in round 5: each kind of post, views of a kept round and of another, a reset, and answers. -/
theorem wit_BoardSteps :
    ((posting 0 5).round = board0.rc ∧ (asked board0 (posting 0 5)).breq? 80 = some (posting 0 5) ∧ board0.cur.length + 1 < board0.slots)
    ∧ (let b := { board0 with cur := [posted 1] }
       (asked b (posting 0 5)).breq? 80 = some (posting 0 5) ∧ (¬ ∃ p ∈ b.cur, p.slot = 0) ∧ b.cur.length + 1 = b.slots ∧ b.next.length < b.slots)
    ∧ ((asked board0 (posting 0 6)).breq? 80 = some (posting 0 6) ∧ (6 : W32) = board0.rc + 1 ∧ board0.cur.length < board0.slots)
    ∧ (let b := { board0 with cur := [posted 0] }
       (asked b (posting 0 5)).breq? 80 = some (posting 0 5) ∧ (∃ p ∈ b.cur, p.slot = 0) ∧ b.strict = false)
    ∧ ((asked board0 (posting 0 4)).breq? 80 = some (posting 0 4) ∧ 2 ^ 31 < ((4 : W32) - board0.rc).toNat ∧ board0.strict = false)
    ∧ ((asked board0 (breq0 .bvm)).breq? 80 = some (breq0 .bvm) ∧ (board0.round 5).isSome = true)
    ∧ ((asked board0 { breq0 .bvm with round := 77 }).breq? 80 = some { breq0 .bvm with round := 77 } ∧ (board0.round 77).isNone = true)
    ∧ (((asked board0 (breq0 .brst)).waiterOf (breq0 .brst)).isSome = true ∧ (asked board0 (breq0 .brst)).boardIdle board0 (breq0 .brst) = true
      ∧ (asked board0 (breq0 .brst)).ownPostAhead (breq0 .brst) = false)
    ∧ (∀ k ∈ [BReqKind.bvm, .bpv], let r := { breq0 k with taken := true, levels := [(0, 1, false)] }
       (asked board0 r).breq? 80 = some r ∧ r.fault.isNone = true ∧ ((asked board0 r).waiterOf r).isSome = true)
    ∧ ∀ k ∈ [BReqKind.bvm, .bpv], let r := { breq0 k with taken := true, fault := some .boardRound }
       let s := handled (asked board0 r)
       s.breq? 80 = some r ∧ r.kind ≠ .brst ∧ (s.waiterOf r).any (fun x => (tget s.warps x.1).any (fun w => decide (w = x.2)) && x.2.trap.isNone && x.2.async.isEmpty
        && x.2.replay.isEmpty && x.2.ops.isEmpty && blkIs s x.2.blk (fun _ g => g.rec_.handler != 0)) = true := by decide +kernel

def gk1 : Nat := 9
def grid1 (f : Launch → Launch) : Grid := { plainGrid with rec_ := f plainLaunch }
def with1 (g : Grid) : State := { base with grids := tput base.grids gk1 g }
def range0 (lo hi : Nat) : Range := { grid := gk1, lo := lo, hi := hi, prio := 0, order := 0, child := none, clk := .zero }

set_option maxRecDepth 100000 in
theorem wit_PlacementSteps :
    (∀ hi ∈ [1, 2], let s := State.setD (with1 (grid1 id)) 1 (fun d => { d with ranges := [range0 0 hi] })
      ∃ core, (s.die 1).ranges = [range0 0 hi] ∧ s.mayPlace (grid1 id) = true ∧ s.dieServes 1 (grid1 id).rec_ = true
        ∧ s.siteFor 1 (grid1 id) (range0 0 hi) = some [core] ∧ (s.col (core / 4)).gated = false)
    ∧ (let g := { grid1 (fun r => { r with flags := 1, bwarps := 65 }) with state := .waiting }
       g.rec_.coop = true ∧ (with1 g).boardsFree g = true ∧ ((with1 g).placeAll gk1 g 0 (g.rec_.gblocks / g.rec_.csize)).isNone = true)
    ∧ (let g := { grid1 (fun r => { r with flags := 1 }) with state := .waiting }
       ∃ core, g.rec_.coop = true ∧ (with1 g).boardsFree g = true ∧ (with1 g).dieServes 0 g.rec_ = true ∧ ((with1 g).col (core / 4)).gated = false
        ∧ (with1 g).site 0 1 g.rec_.bwarps g.rec_.pclass g.rec_.poolw ((with1 g).promised g.order) = some [core])
    ∧ (let s := State.setD (with1 (grid1 (fun r => { r with gblocks := 8 }))) 1 (fun d => { d with ranges := [range0 0 8], pubRemain := [(workKey gk1 0, 8)] })
       (s.die 0).ranges = [] ∧ (s.die 0).steal = .idle ∧ s.target 0 = some (workKey gk1 (range0 0 8).prio, 1) ∧ (s.die 1).ranges = [range0 0 8] ∧ 2 * 1 ≤ 8 - 0)
    ∧ (∀ x ∈ [Steal.reply gk1 (some (range0 4 8)), .reply gk1 none, .wait 0], ((State.setD base 0 (fun d => { d with steal := x })).die 0).steal = x)
    ∧ (let s := State.setD { base with frame := 9 } 4 (fun d => { d with fjudged := 8, fhigh := 1, flow := 7 })
       let t := State.setD { base with frame := 9 } 4 (fun d => { d with fjudged := 7, fhigh := 1, flow := 7 })
       (s.die 4).fjudged < s.frame ∧ (s.die 4).fjudged + 1 = s.frame ∧ 500 < 501 ∧ 1 ≤ (s.die 4).fhigh ∧ 124 < 125 ∧ 7 ≤ (s.die 4).flow
        ∧ (t.die 4).fjudged < t.frame ∧ (t.die 4).fjudged + 1 ≠ t.frame) := by
  refine ⟨?_, by decide +kernel, ⟨0, by decide +kernel⟩, by decide +kernel, by decide +kernel, by decide +kernel⟩
  intro hi h
  simp only [List.mem_cons, List.mem_nil_iff, or_false] at h
  rcases h with rfl | rfl <;> exact ⟨64, by decide +kernel⟩

def caravan0 : Caravan :=
  { key := 90, dst := 1, stamp := 0, source := 2, mask := 1, target := codeAt 0x40, id := 0, seg := 0, clk := [], regs := [(1, .u 5)],
    preds := List.replicate 15 0, tid := List.replicate 32 3, bid := List.replicate 32 4, cstack := List.replicate 32 [], icinvs := [], entry := 2, grid := gk1, note := none }
def travel1 (st : GridSt) : Grid :=
  { grid1 (fun r => { r with flags := 2, arrcap := 1, spilln := 4 }) with
    state := st, segs := [{ Segment.init with base := codeAt 0, len := 4096, reps := [if st = .waiting then 0xFFFF else 1] }], ring := [(2, ⟨0, none, 0⟩)] }
def travelling (arrivals : List Caravan) : State :=
  let s := with1 (travel1 .running)
  { s with blocks := tput s.blocks 10 (Block.start gk1 0 0 1 1 0 plainLaunch.poolw [] .zero 0), caravans := if arrivals.isEmpty then [caravan0] else [],
           cores := lput s.cores 1 CoreSt.init (fun c => { c with replica := some (gk1, 0), arrivals := arrivals }) }

set_option maxRecDepth 100000 in
/-- An arrival with room and one that finds the queue full, a promotion, and the start of a travel launch. -/
theorem wit_TravelSteps :
    (let s := travelling []
     s.caravans.find? (fun x => x.key == 90) = some caravan0 ∧ (s.blocks.find? (fun x => x.2.grid == gk1 && x.2.core == 1)).map Prod.fst = some 10
      ∧ blkIs s 10 (fun b g => b.state == .running && decide ((s.core 1).arrivals.length < g.rec_.arrcap) && !g.ringHolds 0) = true)
    ∧ (let s := { travelling [{ caravan0 with key := 91 }] with caravans := [caravan0] }
       blkIs s 10 (fun b g => b.state == .running && decide (g.rec_.arrcap ≤ (s.core 1).arrivals.length)) = true)
    ∧ (let s := travelling [caravan0]
       (s.core 1).replica = some (gk1, 0) ∧ s.replicaBlock gk1 1 = some 10 ∧ (s.usableFree (travel1 .running) 1).head? = some 0 ∧ (s.core 1).arrivals = [caravan0])
    ∧ (let g := travel1 .waiting
       g.rec_.travel = true ∧ (with1 g).boardsFree g = true
        ∧ ((with1 g).chooseCores [] ((with1 g).promised g.order) [[0xFFFF]]).any (fun l => l.length == 1 && (l.headD []).length == 1) = true) := by decide +kernel

def packet0 (hops nblk : Nat) : Packet := { key := 95, die := 1, words := [BitVec.ofNat 32 (hops * 2 ^ 19), BitVec.ofNat 32 nblk, 1, 0, 7], grid := gk1, clk := .zero }
/-- A kernel of one entry, and the packet at the head of the mailbox of die 1; the first core of these dies is published as free. -/
def mailed (p : Packet) (free : List Nat) : State :=
  let s := with1 (grid1 (fun r => { r with entry := codeAt 0x40 }))
  { s with mem := putBytes s.mem [(codeBase + 0x38, 1)], packets := [p],
           dies := (List.range 5).map (fun d => { s.die d with mailbox := if d = 1 then [p] else [], pubFree := if free.contains d then [(64 * d, (64, 1024))] else [] }) }

theorem wit_WorkSteps :
    ((mailed (packet0 0 1) []).packets.find? (fun x => x.key == 95) = some (packet0 0 1))
    ∧ (let s := mailed (packet0 0 0) []
       (s.die 1).mailbox = [packet0 0 0] ∧ (tget s.grids gk1).any (fun g => s.malformed 1 g (packet0 0 0)) = true)
    ∧ (let s := mailed (packet0 0 4) [1]
       (tget s.grids gk1).any (fun g => !s.malformed 1 g (packet0 0 4) && s.capacity 1 g (packet0 0 4) != 0) = true)
    ∧ (let s := mailed (packet0 3 4) []
       (tget s.grids gk1).any (fun g => !s.malformed 1 g (packet0 3 4)) = true ∧ (packet0 3 4).hops = 3)
    ∧ (let s := mailed (packet0 2 4) [3]
       (tget s.grids gk1).any (fun g => !s.malformed 1 g (packet0 2 4) && s.capacity 1 g (packet0 2 4) == 0 && s.elsewhere 1 g (packet0 2 4) == some 3) = true
        ∧ (packet0 2 4).hops < 3)
    ∧ (((State.setD (with1 (grid1 id)) 1 (fun d => { d with giving := some (range0 0 4) })).die 1).giving = some (range0 0 4))
    ∧ { base with tsc := 1000 }.frame < 1000 / 1000 := by decide +kernel

def pre0 (st : BlkSt) (f : Grid → Grid) : State :=
  State.setG (State.setC (State.setB (handled base) (fun b => { b with state := st })) (fun c => { c with saveBase := 0x100000, saveLen := 0x1000000 })) f

set_option maxRecDepth 100000 in
theorem wit_PreemptSteps :
    (let s := pre0 .running (fun g => { g with pre := [bk0], preCid := some 7 })
     (∀ x ∈ s.blocks, x.2.grid = gk0 → x.2.state ≠ .preempting)
      ∧ blkIs s bk0 (fun b g => g.preCid == some 7 && g.pre == [bk0] && b.state == .running && (match s.raisePreempt bk0 b g with | .ok _ => true | .noRoom | .unwritable => false)) = true)
    ∧ (let s := pre0 .running (fun g => { g with preCid := some 7, preRefused := 2 })
       blkIs s bk0 (fun _ g => g.preCid == some 7 && g.pre.isEmpty) = true)
    ∧ (let s := State.setW (pre0 .preempting id) (fun w => { w with wait := .yielded })
       blkIs s bk0 (fun b g => s.canLeave bk0 b && g.rec_.handler != 0 && (s.vaFault 4 g.ctx needW (piecesOf b.frame (s.leavePieces bk0 b g 0)
          ++ [(b.frame + 0x3000, 32 * (b.tickets.length + (s.uncounted bk0 b).length))])).isNone) = true)
    ∧ (let s := State.setL (State.setW (pre0 .preempting id) (fun w => { w with wait := .yielded })) (fun r => { r with handler := 0 })
       let s := State.setB s (fun b => { b with frame := 0x100000, poolw := 0 })
       blkIs s bk0 (fun b g => s.canLeave bk0 b && g.rec_.handler == 0 && b.spoison.isEmpty && b.shPoison.isEmpty && (s.vaFault 4 g.ctx needW (piecesOf b.frame (s.leavePieces bk0 b g 0)
          ++ [(b.frame + 0x3000, 32 * (b.tickets.length + (s.uncounted bk0 b).length))])).isNone) = true)
    ∧ (let s := { pre0 .out id with arrs := [arr0 5 bk0] }
       blkIs s bk0 (fun b _ => b.state == .out) = true ∧ s.arrs.find? (fun m => m.n < 112 && m.dst == bk0) = some (arr0 5 bk0))
    ∧ (let s := State.setB { pre0 .out (fun g => { g with res := [bk0] }) with warps := [] } (fun b => { b with saved := [(0, Warp.start bk0 0 true 512 [] 0 .zero 0)] })
       blkIs s bk0 (fun b g => b.state == .out && g.res.contains bk0 && !g.rec_.travel && g.rec_.handler != 0 && s.retired (coreColumn b.core) == false
        && s.takesBack g b.core b && decide (b.saved.length ≤ s.freeSlots b.core)) = true
        ∧ let t := { s with blocks := tput s.blocks 11 (Block.start gk0 1 1 4 1 0 plainLaunch.poolw [] .zero 0) }
          blkIs (State.setL t (fun r => { r with csize := 2 })) bk0 (fun b g => ((State.setL t (fun r => { r with csize := 2 })).clusterOf b g.rec_).any (fun x => x.2.resident)) = true)
    ∧ (let s := with1 (grid1 id)
       (∀ x ∈ s.blocks, x.2.grid ≠ gk1) ∧ s.gridEmpty gk1 = true ∧ ∀ d ∈ s.dies, (grid1 id).clk.le d.vec = true) := by decide +kernel

/- Power: column 0, which holds the placed block. -/

theorem wit_WindowAndThrottleSteps :
    (let s := { State.setCol base (fun c => { c with powerStage := 0 }) with tsc := 10 ^ 6 }
     (s.col 0).windowAt + (s.col 0).windowLen ≤ s.tsc ∧ (s.col 0).on s.tsc = false)
    ∧ (let s := { base with tsc := (base.col 0).windowLen }
       (s.col 0).windowAt + (s.col 0).windowLen ≤ s.tsc ∧ (s.col 0).on s.tsc = true)
    ∧ (let s := State.setCol base (fun c => { c with rescaleDue := true })
       (s.col 0).rescaleDue = true ∧ (s.col 0).est.sum ≠ 0)
    ∧ (let s := State.setCol base (fun c => { c with over6 := [some 1, none, none], windowAt := 4001 })
       (s.col 0).rung3 0 = true ∧ (nth (s.col 0).throttle (s.heavyCore 0 0) none).isNone = true ∧ (s.col 0).fallback = false ∧ s.colBisque 0 = false
        ∧ (s.col 0).on s.tsc = true ∧ (s.col 0).rung3 1 = false)
    ∧ (let s := { base with tsc := 5001 }
       let k := s.heavyCore 0 0
       let s := State.setCol s (fun c => { c with over6 := [some 1, none, none], windowAt := 4001, throttle := lput c.throttle k none (fun _ => some 4), throttleFor := lput c.throttleFor k [] (fun _ => [0]) })
       (s.col 0).on s.tsc = true ∧ 0 ∈ nth (s.col 0).throttleFor k [] ∧ (s.col 0).rung3 0 = true ∧ nth (s.col 0).throttle k none = some 4 ∧ nth (s.col 0).throttleAt k 0 + 1000 ≤ s.tsc)
    ∧ (let s := { State.setCol base (fun c => { c with throttle := [some 2, none, none, none], throttleFor := [[0], [], [], []] }) with tsc := 4000 }
       (s.col 0).on s.tsc = true ∧ nth (s.col 0).throttle 0 none = some 2 ∧ (∀ b ∈ nth (s.col 0).throttleFor 0 [], (s.col 0).rung3 b = false)
        ∧ (∀ b ∈ List.range 3, absNat (mismatch4 (s.col 0).residual b) ≤ 256) ∧ nth (s.col 0).throttleAt 0 0 + 4000 ≤ s.tsc)
    ∧ (let s := State.setCol base (fun c => { c with mism := [true, false, false], fc := [99, 16, 16, 16] })
       nth (s.col 0).mism 0 false = true ∧ s.heavyCore 0 0 = 0 ∧ blkIs s bk0 (fun b g => b.core == 0 && !g.rec_.flag 2) = true
        ∧ blkIs (State.setL s (fun r => { r with flags := 4 })) bk0 (fun b g => b.core == 0 && g.rec_.flag 2) = true)
    ∧ (∀ st ∈ [3, 15], let s := { State.setCol base (fun c => { c with step := st, windowAt := 1000 }) with tsc := 1000 }
       (s.col 0).windowAt = s.tsc ∧ (s.col 0).stepAt + 1000 ≤ s.tsc ∧ ((s.col 0).target (s.colBisque 0) < (s.col 0).step ∨ (s.col 0).step < (s.col 0).target (s.colBisque 0))) := by
  decide +kernel

/-- Below, between 95% and, and above the cap. -/
theorem wit_CeilingSteps :
    (let s := { base with tsc := 1000 }
     (s.col 0).boostTick + 1000 ≤ s.tsc ∧ (s.col 0).boostOn = false ∧ (s.col 0).step ≤ (s.col 0).nominal)
    ∧ (let s := { State.setCol base (fun c => { c with boostOn := true, boost := 1, boostCeil := 14, tband := 3, step := 14 }) with tsc := 10000 }
       s.boostOk 0 = true ∧ (s.col 0).boost ≠ 0 ∧ (s.col 0).boostCeil < (s.col 0).topStep ∧ (s.col 0).step = (s.col 0).boostCeil ∧ (s.col 0).boostAt + 10000 ≤ s.tsc
        ∧ (s.col 0).stepAt + 10000 ≤ s.tsc)
    ∧ (∀ band ∈ [4, 6], let s := { State.setCol base (fun c => { c with thermal := some 11, tband := band }) with tsc := 100000 }
       (s.col 0).hottest = some 0 ∧ (s.col 0).thermal = some 11 ∧ (s.col 0).tband = band ∧ (s.col 0).thermAt + 100000 ≤ s.tsc)
    ∧ (∀ p ∈ [3, 11], let s := { State.setCol base (fun c => { c with powerCeil := some p }) with capTimer := some 0, tsc := 100000 }
       s.capTimer = some 0 ∧ s.capReliever = some 0 ∧ (s.col 0).powerCeil = some p ∧ 0 + 100000 ≤ s.tsc)
    ∧ ((base.capVictim).any (fun c => (base.col c).powerCeil.getD (base.col c).step != 0 && !(base.col c).gated
      && (base.col c).powerStage == 4) = true) := by decide +kernel

theorem wit_CeilingSteps_samples : ∀ rest : Nat, let sum := ((List.range 64).map base.columnMw).sum
    (100 * (sum + rest) ≤ 95 * (1000 * (sum + rest))) ∧ 0 < sum
    ∧ (let cap := (sum + rest + 999) / 1000
       sum + rest ≤ 1000 * cap ∧ 95 * (1000 * cap) < 100 * (sum + rest)) := by
  have h : 20000 < ((List.range 64).map base.columnMw).sum := by decide +kernel
  intro rest sum
  have h : 20000 < sum := h
  clear_value sum
  simp only
  omega

def sensed (f : Sensor → Sensor) : State := State.setCol base (fun c => { c with volts := lput c.volts 3 Sensor.init f })

/-- A column whose summed estimate moved by all of its peak. -/
theorem wit_SensorSteps_sums : ∀ n : Nat, let sums := 0 :: List.replicate (n + 1) 1
    sums.length = n + 2 ∧ sums.foldl max 0 < 4 * (sums.foldl max 0 - sums.foldl min (sums.foldl max 0)) := by
  have up : ∀ n : Nat, (List.replicate n 1).foldl max 1 = 1 := by
    intro n
    induction n with
    | zero => rfl
    | succ n ih => simpa [List.replicate_succ] using ih
  have down : ∀ n : Nat, (List.replicate n 1).foldl min 0 = 0 := by
    intro n
    induction n with
    | zero => rfl
    | succ n ih => simpa [List.replicate_succ] using ih
  intro n
  simp [List.replicate_succ, up, down]

theorem wit_SensorSteps :
    ((∀ i, i < 4 → nth [0, 1999, -641, 5] i 0 < (2000 : Int)) ∧ (base.col 0).sampled = false
      ∧ (let s := { State.setCol base (fun c => { c with sampled := true }) with tsc := 200 }
         (s.col 0).sampled = true ∧ (s.col 0).sampleAt + 200 ≤ s.tsc))
    ∧ (let s := sensed (fun x => { x with same := 4096 })
       ((s.col 0).sensor 3).stuck = false ∧ 4096 ≤ ((s.col 0).sensor 3).same)
    ∧ (let s := sensed (fun x => { x with bad := true, good := 65536 })
       ((s.col 0).sensor 3).bad = true ∧ 65536 ≤ ((s.col 0).sensor 3).good)
    ∧ (((sensed (fun x => { x with low := 251 })).col 0).sensor 3).low = 251
    ∧ (let s := { base with tsc := 100000 }
       (17 % 16 ≠ 0) ∧ (s.col 17).gated = false ∧ (s.col 17).powerStage = 4 ∧ s.columnBlocks 17 = [] ∧ (s.col 17).emptySince + 100000 ≤ s.tsc)
    ∧ (let s := State.setCol base (fun c => { c with powerStage := 0 })
       (s.col 0).gated = false ∧ (s.col 0).powerStage = 0 ∧ ∀ k, k < 16 → k ≠ 0 → (s.col k).gated = true ∨ (s.col k).powerStage = 4)
    ∧ (let s := { State.setCol base (fun c => { c with powerStage := 3, powerAt := 1 }) with tsc := 751 }
       (s.col 0).powerStage < 4 ∧ (s.col 0).powerAt + 250 * (s.col 0).powerStage ≤ s.tsc)
    ∧ (let s := { base with tsc := 200 }
       (s.die 3).railAt + 200 ≤ s.tsc ∧ ∀ i, i < 16 → ∀ x ∈ validReadings (s.col (16 * 3 + i)).volts, x ≤ ((s.layerMv 3 : Nat) : Int)) := by decide +kernel

/- The host side. -/

def link0 (f : Link → Link) : State := { base with links := lput base.links 0 Link.init (fun l => f { l with up := true, peer := 9 }) }
def qp0 : QPair :=
  { sqbase := 0, sqsize := 16, sqtail := 0, sqhead := 0, cqbase := 0, cqsize := 16, cqhead := 0, cqtail := 15, phase := true, bells := [], cmds := [], begun := [], done := [] }
def queued (s : State) (p : QPair) : State := { s with queues := [(qkey 0 1, p)] }
/-- A command's words, by number. -/
def cmd (opc : Nat) (l : List (Nat × Nat)) : Cmd :=
  ⟨(List.range 16).map (fun i => if i = 0 then BitVec.ofNat 32 (0x50000 + opc) else BitVec.ofNat 32 (((l.find? (fun x => x.1 == i)).map Prod.snd).getD 0))⟩
def commanded (s : State) (c : Cmd) : State := queued s { qp0 with cmds := [c] }
def heads (s : State) (c : Cmd) : Bool :=
  tget s.queues (qkey 0 1) == some { qp0 with cmds := [c] } && s.stage != .off && !c.badHeader

theorem heads_of {s : State} {c : Cmd} {P : Prop} (h : heads s c = true) (p : P) : Heads s 0 1 c qp0 ∧ P := by
  simp only [heads, Bool.and_eq_true, beq_iff_eq, bne_iff_ne, Bool.not_eq_true'] at h
  refine ⟨⟨h.1.1, ?_, ⟨h.1.2, Nat.zero_le _, by decide⟩, h.2⟩, p⟩
  intro x hx
  simp [qp0] at hx

theorem wit_LinkAndQueueSteps :
    (let f := mkFlit 0 0 0 [1, 2]
     flitGood f = true ∧ flitKind f = 0 ∧ flitSeq f = ((link0 id).link 0).expect ∧ ((link0 id).link 0).up = true)
    ∧ (flitGood (mkFlit 0 0 255 []) = true ∧ flitSeq (mkFlit 0 0 255 []) ≠ ((link0 id).link 0).expect ∧ flitGood [] = false)
    ∧ (let l := (link0 (fun l => { l with unacked := [(254, 0, [1]), (255, 128, [2]), (0, 256, [3])] })).link 0
       flitGood (mkFlit 1 0 255 []) = true ∧ flitKind (mkFlit 1 0 255 []) = 1 ∧ l.unacked = [(254, 0, [1])] ++ (flitSeq (mkFlit 1 0 255 []), 128, [2]) :: [(0, 256, [3])] ∧ l.tx = [])
    ∧ (let s := link0 (fun l => { l with replays := 17 })
       (∀ k, k < 8 → k ≠ 0 → (s.link k).up = false ∨ (s.link k).peer ≠ (s.link 0).peer) ∧ 16 < (s.link 0).replays ∧ ∀ m ∈ s.msgs, m.atom? = none)
    ∧ (let s := link0 (fun l => { l with unacked := [(254, 0, [1])] })
       let s := { s with links := lput s.links 3 Link.init (fun l => { l with up := true, peer := 9 }) }
       (s.link 3).up = true ∧ (s.link 3).peer = (s.link 0).peer ∧ ∀ j ∈ List.range 8, j ≠ 0 → j ≠ 3 → (s.link j).up = false)
    ∧ ((base.link 7).up = false ∧ (base.link 7).tx = [])
    ∧ (let c := cmd 1 []
       tget (commanded base c).queues (qkey 0 1) = some { qp0 with cmds := [c] } ∧ c.known = true ∧ base.inbound = [] ∧ qp0.sqsize ≠ 0)
    ∧ (let p := { qp0 with bells := [(true, 3, 1)] }
       tget (queued base p).queues (qkey 0 1) = some p ∧ p.bells ≠ [])
    ∧ (let p := { qp0 with done := [⟨5, 0, 0, 0, 0⟩], cqhead := 1 }
       tget (queued base p).queues (qkey 0 1) = some p ∧ p.full = false ∧ (p.cqtail + 1) % p.cqsize.toNat = 0
        ∧ p.cqbase.toNat + 16 * p.cqtail + 16 ≤ hostEnd - hostBase) := by decide +kernel

def windowed : State := State.setC base (fun c => { c with win := true })

theorem wit_HostPortSteps :
    (windowed.barBytes 0 0x20000 3 needW = some [0x20000, 0x20001, 0x20002] ∧ [0x20000, 0x20001, 0x20002].Nodup ∧ windowed.inbound.length < 1024 ∧ windowed.stage ≠ .off)
    ∧ (windowed.barBytes 0 (2 ^ 40 - 1) 1 needW).isNone = true
    ∧ windowed.barBytes 0 0x20000 3 needRD = some [0x20000, 0x20001, 0x20002]
    ∧ (let s := { windowed with inbound := [⟨0, 0, [5], 0⟩] }
       ¬ ∀ x ∈ s.inbound, x.fn = 0 → (s.die 4).nextWrite ≤ x.num)
    ∧ (let s := { windowed with hreads := [⟨0, 0x20000, 3, 1, none⟩] }
       s.hreads = [⟨0, 0x20000, 3, 1, none⟩] ∧ (∀ x ∈ s.inbound, x.fn = 0 → 1 ≤ x.num) ∧ ∀ q, q < 16 → (s.queue 0 q).bells = [])
    ∧ (let s := queued windowed { qp0 with bells := [(false, 3, 1)] }
       (s.queue 0 1).bells = [(false, 3, 1)] ∧ s.hreads = [] ∧ (s.queue 0 1).cmds = [] ∧ ∀ q, q < 16 → q ≠ 1 → (s.queue 0 q).bells = []) := by decide +kernel

/-- Each command with room for what it writes; a query with room for less; a power cap at and below the least. -/
theorem wit_ReportCommands :
    (∀ l ∈ [160, 31], let c := cmd 1 [(2, 0), (6, l)]
      Heads (commanded base c) 0 1 c qp0 ∧ (c.opc = 1 ∧ c.word 2 = 0 ∧ c.word 6 = l ∧ (bytesOf 16 capsBisque.toNat ++ bytesOf 16 capsGlaze.toNat).length = 32))
    ∧ (let c := cmd 1 [(2, 1), (6, 4096)]
       Heads (commanded base c) 0 1 c qp0 ∧ (c.opc = 1 ∧ c.word 2 = 1))
    ∧ (let c := cmd 1 [(2, 2), (6, 4096)]
       Heads (commanded base c) 0 1 c qp0 ∧ (c.opc = 1 ∧ c.word 2 = 2 ∧ (commanded base c).figures.length ≤ c.word 6))
    ∧ (∀ n ∈ [0xFFFFFFFF, 0], let c := cmd 2 [(2, n)]
      Heads (commanded base c) 0 1 c qp0 ∧ (c.opc = 2 ∧ c.word 2 = n ∧ c.word64 4 + 4096 ≤ hostEnd - hostBase))
    ∧ (let c := cmd 3 [(2, 0), (6, 128)]
       Heads (commanded base c) 0 1 c qp0 ∧ (c.opc = 3 ∧ 128 ≤ c.word 6 ∧ ((commanded base c).statusRecord 0).length ≤ hostEnd - hostBase))
    ∧ (let c := cmd 3 [(2, 1), (6, 64)]
       Heads (commanded base c) 0 1 c qp0 ∧ (c.opc = 3 ∧ c.word 2 = 1 ∧ (((commanded base c).pendingOf 0).flatMap Pending.bytes).length ≤ hostEnd - hostBase))
    ∧ (let c := cmd 3 [(2, 2), (6, 160)]
       Heads (commanded base c) 0 1 c qp0 ∧ (c.opc = 3 ∧ c.word 2 = 2 ∧ (base.ctxs.filter (fun x => x.2.fn == 0)).length = 1))
    ∧ (∀ w ∈ [400, 399], let c := cmd 3 [(2, 3), (3, w)]
      Heads (commanded base c) 0 1 c qp0 ∧ (c.opc = 3 ∧ c.word 2 = 3 ∧ c.word 3 = w))
    ∧ (let c := cmd 3 [(2, 4), (3, 3)]
       Heads (commanded base c) 0 1 c qp0 ∧ (c.opc = 3 ∧ c.word 2 = 4 ∧ c.word 3 < 4))
    ∧ (let c := cmd 3 [(2, 5), (3, 3)]
       Heads (commanded base c) 0 1 c qp0 ∧ (c.opc = 3 ∧ c.word 2 = 5 ∧ ((commanded base c).die 3).lastReset = none)) := by
  refine ⟨?_, heads_of (by decide +kernel) (by decide +kernel), heads_of (by decide +kernel) (by decide +kernel), ?_, heads_of (by decide +kernel) (by decide +kernel),
    heads_of (by decide +kernel) (by decide +kernel), heads_of (by decide +kernel) (by decide +kernel), ?_, heads_of (by decide +kernel) (by decide +kernel),
    heads_of (by decide +kernel) (by decide +kernel)⟩ <;>
  · intro x hx
    simp only [List.mem_cons, List.mem_nil_iff, or_false] at hx
    rcases hx with rfl | rfl <;> exact heads_of (by decide +kernel) (by decide +kernel)

def parked0 : State :=
  State.setW (State.setD (handled base) 0 (fun d => { d with faults := [fent0] })) (fun w => { w with wait := .parked 0 0 5 (codeAt 0) 0xFFFFFFFF (low 0x5008) 0 })
/-- A board descriptor of one slot at 0x6000, and its owner table. -/
def described (ctrl : Byte) : State := { base with mem := putBytes base.mem [(0x6000, ctrl), (0x6009, 0x70)] }

theorem wit_ContextCommands :
    (let c := cmd 0x10 [(2, 3), (3, 60000), (4, 0x1000)]
     Heads (commanded base c) 0 1 c qp0 ∧ (c.opc = 0x10 ∧ c.badOpen = false ∧ tget base.ctxs 1 = none ∧ (∀ j, j < 1 → (tget base.ctxs j).isSome = true)
        ∧ (base.ctxs.filter (fun x => x.2.fn == 0)).length < 16))
    ∧ (let c := cmd 0x11 []
       let s := { base with grids := [] }
       Heads (commanded s c) 0 1 c qp0 ∧ ((tget s.ctxs c.ctx).any (fun x => x.fn == 0 && x.shoot.isEmpty) = true ∧ (commanded s c).closing 0 = false ∧ c.opc = 0x11))
    ∧ (let c := cmd 0x12 [(3, 0x100), (6, 0x87)]
       Heads (commanded base c) 0 1 c qp0 ∧ (c.opc = 0x12 ∧ c.badAttr = false ∧ (commanded base c).closing c.ctx = false
        ∧ (tget base.ctxs c.ctx).any (fun x => x.fn == 0 && !base.mapRefused x (c.word64 2) (c.word64 4) (2 ^ pageBits (field (c.word 6) 5 3)) && x.maps.all (fun m => m.va != c.word64 2)) = true))
    ∧ (let c := cmd 0x12 [(2, 1), (6, 0x87)]
       Heads (commanded base c) 0 1 c qp0 ∧ (c.opc = 0x12 ∧ c.badAttr = false
        ∧ (tget base.ctxs c.ctx).any (fun x => base.mapRefused x (c.word64 2) (c.word64 4) (2 ^ pageBits (field (c.word 6) 5 3))) = true))
    ∧ (let c := cmd 0x13 []
       Heads (commanded base c) 0 1 c qp0 ∧ (c.opc = 0x13 ∧ (tget base.ctxs c.ctx).any (fun x => (x.maps.find? (fun m => m.va == c.word64 2)).isSome) = true))
    ∧ (∀ k ∈ [0, 1], let c := cmd 0x14 [(4, 0x5000), (6, k)]
      Heads (commanded parked0 c) 0 1 c qp0 ∧ (c.opc = 0x14 ∧ c.word 6 = k ∧ (commanded parked0 c).faultEntry c = some fent0
        ∧ (parked0).warps.any (fun w => (w.2.parkedAt (c.word 2) c.ctx (pageOf fent0.va)).isSome && w.2.trap.isNone && w.2.ops.isEmpty && w.2.async.isEmpty) = true))
    ∧ (∀ n ∈ [1, 0], let c := cmd 0x30 [(2, 63), (4, 0x6000)]
      Heads (commanded (described (BitVec.ofNat 8 n)) c) 0 1 c qp0 ∧ (c.opc = 0x30 ∧ c.word 2 < 64 ∧ base.stage = .glaze
        ∧ (∀ g ∈ base.grids, g.2.state ≠ .done → c.ctx * 64 + c.word 2 ∉ g.2.boardKeys)
        ∧ ((described (BitVec.ofNat 8 n)).boardAt c.ctx (c.word64 4)).isSome = (n == 1))) := by
  refine ⟨heads_of (by decide +kernel) (by decide +kernel), heads_of (by decide +kernel) (by decide +kernel), heads_of (by decide +kernel) (by decide +kernel),
    heads_of (by decide +kernel) (by decide +kernel), heads_of (by decide +kernel) (by decide +kernel), ?_, ?_⟩ <;>
  · intro x hx
    simp only [List.mem_cons, List.mem_nil_iff, or_false] at hx
    rcases hx with rfl | rfl <;> exact heads_of (by decide +kernel) (by decide +kernel)

/-- A launch record at 0x8000 of one block of one warp, with a table of 8 ceilings at 0x9000; bw warps to a block. -/
def recorded (bw : Byte) : State :=
  { base with mem := putBytes base.mem [(0x8003, 0x10), (0x8018, bw), (0x801C, 1), (0x8020, 1), (0x8028, 4), (0x8031, 0x90), (0x9000, 8)] }
def gridless (c : Cmd) (s : State) : Nat :=
  match tget s.ctxs 0, s.peekVa 4 0 (c.word64 2 % 2 ^ 57) 256 with
  | some x, some bytes => s.launchStatus 0 x bytes (launchOf bytes) (s.ceilTable 0 (launchOf bytes).ceilt) (s.maskTable 0 (launchOf bytes).bmaskt) (.ok [])
  | _, _ => 99
def named (c : Cmd) (st : BlkSt) : State := commanded (State.setG (pre0 st id) (fun g => { g with q := 1 })) c

set_option maxRecDepth 100000 in
/-- Records out of alignment, in order, and with no warps; the commands on a launch that is there, and on none. -/
theorem wit_LaunchCommands :
    (let c := cmd 0x20 [(2, 0x8020)]
     Heads (commanded base c) 0 1 c qp0 ∧ (c.opc = 0x20 ∧ c.word64 2 % 64 ≠ 0 ∧ (tget base.ctxs c.ctx).any (fun x => x.fn == 0) = true ∧ (commanded base c).closing c.ctx = false))
    ∧ (∀ n ∈ [1, 0], let c := cmd 0x20 [(2, 0x8000)]
       let s := commanded (recorded (BitVec.ofNat 8 n)) c
       Heads s 0 1 c qp0 ∧ (c.opc = 0x20 ∧ c.word64 2 % 64 = 0 ∧ gridless c s = (if n = 1 then 0 else 18) ∧ s.earlier 0 1 c = []))
    ∧ (let c := cmd 0x21 []
       let s := named c .running
       Heads s 0 1 c qp0 ∧ (c.badMode = false ∧ (s.namedGrid 0 1 c.ctx (c.word64 2)).map Prod.fst = some gk0 ∧ s.clusterList c = some none
        ∧ blkIs s bk0 (fun b g => g.preCid.isNone && s.namedBlocks gk0 g none Block.isIn == [bk0] && b.state == .running
            && (match s.raisePreempt bk0 b g with | .ok _ => true | .noRoom | .unwritable => false) && s.headersOk gk0 [bk0]) = true))
    ∧ (let c := cmd 0x21 []
       let s := commanded (State.setC (State.setG (pre0 .running id) (fun g => { g with q := 1 })) (fun x => { x with maps := [] })) c
       Heads s 0 1 c qp0 ∧ ((s.namedGrid 0 1 c.ctx (c.word64 2)).map Prod.fst = some gk0 ∧ s.clusterList c = some none
        ∧ blkIs s bk0 (fun _ g => g.preCid.isNone && !s.headersOk gk0 (s.namedBlocks gk0 g none Block.isIn)) = true))
    ∧ (let c := cmd 0x22 []
       let s := named c .out
       Heads s 0 1 c qp0 ∧ (c.badMode = false ∧ (s.namedGrid 0 1 c.ctx (c.word64 2)).map Prod.fst = some gk0 ∧ tsorted s.grids = true
        ∧ (∀ y ∈ s.grids, y.2.resCid = none) ∧ blkIs s bk0 (fun b g => g.resCid.isNone && s.namedBlocks gk0 g none Block.isOut == [bk0] && b.state == .out) = true))
    ∧ (∀ opc ∈ [0x21, 0x22], let c := cmd opc [(2, 77)]
       Heads (commanded base c) 0 1 c qp0 ∧ (c.opc = opc ∧ c.badMode = false ∧ ((commanded base c).namedGrid 0 1 c.ctx (c.word64 2)).isNone = true))
    ∧ (let g := { plainGrid with accepted := false, state := .waiting }
       tget (with1 g).grids gk1 = some g ∧ (with1 g).mayAccept g = true) := by
  refine ⟨heads_of (by decide +kernel) (by decide +kernel), ?_, heads_of (by decide +kernel) (by decide +kernel), heads_of (by decide +kernel) (by decide +kernel),
    heads_of (by decide +kernel) (by decide +kernel), ?_, by decide +kernel⟩ <;>
  · intro x hx
    simp only [List.mem_cons, List.mem_nil_iff, or_false] at hx
    rcases hx with rfl | rfl <;> exact heads_of (by decide +kernel) (by decide +kernel)

theorem wit_DebugCommands :
    (∀ n ∈ [0, 1], let c := cmd 0x31 [(2, n)]
      let s := commanded (debugged base) c
      Heads s 0 1 c qp0 ∧ (c.opc = 0x31 ∧ c.word 2 = n ∧ s.closing c.ctx = false ∧ (tget s.ctxs c.ctx).any (fun x => x.fn == 0 && x.dbg) = true))
    ∧ (let c := cmd 0x31 []
       let s := { State.setC (commanded base c) (fun x => { x with fn := 1 }) with queues := [(qkey 1 0, { qp0 with cmds := [c] })], vfs := 1 }
       tget s.queues (qkey 1 0) = some { qp0 with cmds := [c] } ∧ 1 ≤ s.vfs ∧ c.badHeader = false ∧ (tget s.ctxs c.ctx).any (fun x => x.fn == 1) = true)
    ∧ (∀ n ∈ [2, 4], let c := cmd 0x31 [(2, n)]
      let s := commanded (debugged base) c
      Heads s 0 1 c qp0 ∧ (c.word 2 = n ∧ (s.grids.find? (fun y => y.2.ctx == c.ctx && y.2.cid == c.word 3 && y.2.state != .done)).map Prod.fst = some gk0)) := by
  refine ⟨?_, by decide +kernel, ?_⟩ <;>
  · intro x hx
    simp only [List.mem_cons, List.mem_nil_iff, or_false] at hx
    rcases hx with rfl | rfl <;> exact heads_of (by decide +kernel) (by decide +kernel)

/-- Power is off after reset; training done with no launch; a die asked to reset, for the first time and 1 ms after; a die without blocks. -/
theorem wit_StageSteps :
    State.reset.stage = .off
    ∧ (let s := { State.reset with stage := .bisque, trained := true }
       s.stage = .bisque ∧ s.trained = true ∧ ∀ g ∈ s.grids, g.2.accepted = true → g.2.held = false → g.2.state = .done)
    ∧ (∀ l ∈ [none, some 5], let s := { State.setD base 3 (fun d => { d with resetAsk := true, lastReset := l }) with tsc := 1000005 }
       (s.die 3).resetAsk = true ∧ (s.die 3).lastReset = l ∧ (∀ n ∈ l.toList, n + 1000000 ≤ s.tsc)
        ∧ s.blocks.all (fun x => (s.blk? x.1).any (fun b => (tget s.grids b.grid).isSome)) = true)
    ∧ (let s := State.setD base 1 (fun d => { d with bisque := true })
       (s.die 1).bisque = true ∧ ∀ b ∈ s.blocks, b.2.resident = true → b.2.core / 64 ≠ 1) := by decide +kernel

theorem wit_DecodeEncode : (Instr.isWord (.iadd hd si 1 2 (im 3)) = true ∧ Instr.wf (.iadd hd si 1 2 (im 3)) = true)
    ∧ Instr.isWord (.ld hd ⟨true, .w8⟩ 511 510 (some 0xFFFFFFFF) none) = true ∧ Instr.wf (.ld hd ⟨true, .w8⟩ 511 510 (some 0xFFFFFFFF) none) = true := by decide

/-- Length 0b11, an opcode that is not assigned, an instruction that ends with its fetch block and one that does not. -/
theorem wit_DecodeRejects : ((3 : BitVec 128).extractLsb' 0 2 = 3)
    ∧ ((0xFFC : BitVec 128).extractLsb' 0 2 ≠ 3 ∧ assigned ((0xFFC : BitVec 128).extractLsb' 2 10) = false)
    ∧ (lenBytes ((0x00000004000000000300F321 : BitVec 128).extractLsb' 0 2) = some 12 ∧ ¬ 32 < 20 + 12 ∧ 32 < 24 + 12)
    ∧ (∃ i, decode 0xF000 = .ok i) ∧ wordBytes 0xF000 = 8 := by
  refine ⟨by decide, by decide, by decide, ⟨.nop ⟨15, false, 0, 0⟩, by decide⟩, by decide⟩

/-- The warp stands at byte n of the code line, which holds this word there. -/
def coded (n : Nat) (w : BitVec 128) : State :=
  let s := State.setW (handled base) (fun x => { x with pre := [], inLoop := false, pcs := List.replicate 32 (codeAt n) })
  State.setCore { s with cur := { s.cur with pc := codeAt n } } (fun c => { c with istore := [(lineOf codeBase, List.replicate n 0 ++ bytesOf 16 w.toNat ++ List.replicate (112 - n) 0)] })
def gives (s : State) (v : View) (c : DecodeCause) : Bool :=
  match s.fetchBytes v.core v.slot v.g v.w v.pc with
  | (.bytes bs, _) => (match decodeAt (v.pc.toNat % 32) (BitVec.ofNat 128 (bitsOfBytes bs)) with | .error e => e == c | .ok _ => false)
  | _ => false
/-- No page may be executed. -/
def unfetchable : State :=
  let s := State.setW (handled base) (fun x => { x with pre := [], inLoop := false })
  State.setC (sealed s) (fun c => { c with maps := c.maps.map (fun m => { m with attr := 0x83 }) })

/-- Each cause of a word that does not decode, and code that may not be executed. -/
theorem wit_DecodeRejects_fetch :
    (∀ x ∈ [(0, (3 : BitVec 128), DecodeCause.badLength), (0, 0xFFC, .unimplOp), (24, 0x00000004000000000300F321, .fetchCross), (0, word 0 0x2C2 0 8 0 0 0 0, .badField),
      (0, word 0 0x00F 0 1 0x100 0 0 0, .privileged)], ∃ v, Stands (coded x.1 x.2.1) hdr0 v ∧ gives (coded x.1 x.2.1) v x.2.2 = true)
    ∧ ∃ v, Stands unfetchable hdr0 v ∧ (match unfetchable.fetchBytes v.core v.slot v.g v.w v.pc with | (.bad _ _, _) => true | _ => false) = true :=
  ⟨halts_over (by decide +kernel), halts (by decide +kernel)⟩

def lacking (f : Nat) : State := State.setL (handled base) (fun r => { r with features := r.features &&& ~~~ (1#128 <<< f) })

/-- Each feature absent; a launch of travel mode; registers and tiles that are not there; a ceiling of a map; a slot of KIND 0; barriers past the block's. -/
theorem wit_DecodeRejects_launch :
    (∀ f ∈ [0, 1, 2, 3, 4, 7, 8, 9], ∃ v, Stands (lacking f) hd v ∧ v.g.rec_.feature f = false)
    ∧ (∃ v, Stands (State.setG (lacking 5) (fun g => { g with ceils := List.replicate 512 .u })) hd v ∧ (∀ j < 512, v.ceil j = .u)
      ∧ kBad (v.slotWord 0) (v.slotWord 0) 16 = false ∧ v.g.rec_.feature 5 = false)
    ∧ (∃ v, Stands (State.setL (handled base) (fun r => { r with flags := 2 })) hd v ∧ v.g.rec_.travel = true
      ∧ ∀ f ∈ [4, 7, 9], v.g.rec_.feature f = true)
    ∧ (∃ v, Stands (State.setG (handled base) (fun g => { g with ceils := g.ceils.take 16 })) hd v ∧ v.g.rec_.feature 0 = true ∧ v.g.ceils.length ≤ 16)
    ∧ (∃ v, Stands (State.setL (handled base) (fun r => { r with slots := [] })) hd v ∧ 504 + 7 < v.g.ceils.length ∧ v.ceil (504 + 7) ≠ .u ∧ v.g.rec_.feature 2 = true ∧ v.ceil 511 = .g
      ∧ v.slotWord 7 &&& 0xC0000000 = 0)
    ∧ (∃ v, Stands (State.setB (handled base) (fun b => { b with poolw := 0 })) hd v ∧ v.g.rec_.feature 4 = true ∧ v.g.rec_.travel = false ∧ poolAcc v.b.poolw / 8 ≤ 0)
    ∧ ∃ v, Stands (handled base) hd v ∧ v.g.rec_.feature 0 = true ∧ 511 < v.g.ceils.length ∧ v.g.rec_.coop = false :=
  ⟨halts_over (by decide +kernel), halts (by decide +kernel), halts (by decide +kernel), halts (by decide +kernel), halts (by decide +kernel), halts (by decide +kernel), halts (by decide +kernel)⟩

/-- The placed NOP at its issue opportunity; and a turn of another agent. -/
def placed : State := { State.reset.withFetchWord 128 0xF000 with agenda := [.issue 0 0] }
def fetched : State := { placed with cores := lput placed.cores 0 CoreSt.init (fun c => { c with istore := [(lineOf codeBase, placed.peek 0 codeBase 128)] }) }

theorem wit_StepRunsDecoded :
    (fetched.agenda = .issue 0 0 :: [] ∧ (fetched.ready 0 0 []).map (fun x => (x.1, x.2.2.1, x.2.2.2)) = [(0, 0, codeAt 0)]
      ∧ (∃ w b g, tget fetched.warps 0 = some w ∧ fetched.blk? w.blk = some b ∧ tget fetched.grids b.grid = some g
        ∧ (fetched.romSaver 0 0 = none ∧ w.rep = none ∧ fetched.xlat (.part 0 0) g.ctx (vbits (codeAt 0)) needX = .ok codeBase
          ∧ (tget (if w.viaHandler g then (fetched.core 0).hbuf else (fetched.core 0).istore) (lineOf codeBase)).any (fun line =>
            match decodeAt 0 (BitVec.ofNat 128 (bitsOfBytes ((List.range 16).map (fun k =>
              (fetched.heldByte 0 0 g.ctx (fetched.arriveAt 0 0 g.ctx (vbits (codeAt 0)) w) (vbits (codeAt 0) + k)).getD (nth line ((codeBase + k) % 128) 0))))) with
            | .ok i => i == .nop ⟨15, false, 0, 0⟩
            | .error _ => false) = true)))
    ∧ (fetched.poisonIn 0 codeBase 16).isNone = true ∧ fetched.ready 0 0 [(0, 0)] = []
    ∧ (let s := { State.setCol base (fun c => { c with step := 3, windowAt := 1000 }) with tsc := 1000, agenda := [] }
       s.agenda = [] ∧ s.dueStep.isSome = true)
    ∧ isStep .powerGood = true ∧ isStep (.nop hd) = false :=
  ⟨⟨by decide +kernel, by decide +kernel, stands (by decide +kernel)⟩, by decide +kernel, by decide +kernel, by decide, by decide⟩

theorem wit_StepKeepsMemory : Memory.wf (State.reset.withFetchWord 128 0xF000).mem = true
    ∧ ((match step State.reset with | .next _ => true | .fault _ | .refused _ => false) = true) := by decide +kernel

/- One step of an instruction, checked at a few lanes against values worked out by hand from the manual's rules. -/

/-- Register d holds x in lane 0 and in lane 31 after the step. -/
def after (s : State) (i : Instr) (d : Nat) (x : W32) : Bool :=
  match exec i s with
  | .next t => warpIs t 0 (fun w => w.rd d 0 == x && w.rd d 31 == x)
  | .fault _ | .refused _ => false

/-- 04 R86, R87: a signed saturated sum, a borrow that wraps, a high product. -/
theorem test_integer :
    after (State.regs (on (.iadd hd ⟨true, false⟩ 1 2 (im 1))) [(2, 0x7FFFFFFF)]) (.iadd hd ⟨true, false⟩ 1 2 (im 1)) 1 0x7FFFFFFF = true
    ∧ after (on (.isub hd ⟨false, false⟩ 1 2 (im 1))) (.isub hd ⟨false, false⟩ 1 2 (im 1)) 1 0xFFFFFFFF = true
    ∧ after (State.regs (on (.imulh hd false 1 2 (im 2))) [(2, 0x80000000)]) (.imulh hd false 1 2 (im 2)) 1 0xFFFFFFFF = true := by decide +kernel

/-- A shift by the width, an arithmetic one, a funnel shift, a field, a permutation, a carry-less product. -/
theorem test_bits :
    after (State.regs (on (.sar hd 1 2 (im 31))) [(2, 0x80000000)]) (.sar hd 1 2 (im 31)) 1 0xFFFFFFFF = true
    ∧ after (State.regs (on (.clmul hd 1 2 3)) [(2, 3), (3, 3)]) (.clmul hd 1 2 3) 1 5 = true
    ∧ after (State.regs (on (.lgate hd 1 2 3 4 0x96)) [(2, 0xFF), (3, 0x0F), (4, 0x33)]) (.lgate hd 1 2 3 4 0x96) 1 0xC3 = true
    ∧ after (State.regs (on (.clz hd 1 2)) [(2, 0)]) (.clz hd 1 2) 1 32 = true := by decide +kernel

/-- 1.5 + 0.25, a fused product with one rounding, the sum of the least subnormal with itself, a conversion that saturates. -/
theorem test_float :
    after (State.regs (on (.fadd hd rne 1 2 (im 0x3E800000) none)) [(2, 0x3FC00000)]) (.fadd hd rne 1 2 (im 0x3E800000) none) 1 0x3FE00000 = true
    ∧ after (State.regs (on (.ffma hd rne 1 2 (r 2) 3 none)) [(2, 0x3F800001), (3, 0xBF800002)]) (.ffma hd rne 1 2 (r 2) 3 none) 1 0x28800000 = true
    ∧ after (State.regs (on (.fadd hd rne 1 2 (r 2) none)) [(2, 1)]) (.fadd hd rne 1 2 (r 2) none) 1 2 = true
    ∧ after (State.regs (on (.cvt hd rs .i32 .f32 false false 1 2)) [(2, 0x4F000000)]) (.cvt hd rs .i32 .f32 false false 1 2) 1 0x7FFFFFFF = true := by decide +kernel

/-- A ballot of all lanes, a rotation by one lane, a sum over the warp, the identity in a special register. -/
theorem test_lanes :
    after (on (.vote hd .ballot 14 2)) (.vote hd .ballot 14 2) 2 0 = true
    ∧ after (State.regs (on (.redw hd .add 1 2)) [(2, 3)]) (.redw hd .add 1 2) 1 96 = true
    ∧ after (State.regs (on (.shfl hd .bfly 1 2 (im 1))) [(2, 9)]) (.shfl hd .bfly 1 2 (im 1)) 1 9 = true := by decide +kernel

/-- The first step after an instruction is placed runs it: MOVI of 03 writes 4 to v3 of every lane. -/
theorem test_step_runs_placed :
    (match step (State.reset.withFetchWord 96 0x00000004000000000300F321) with
     | .next t => warpIs t 0 (fun w => w.rd 3 0 == 4 && w.rd 3 31 == 4 && w.pcAt 0 == codeAt 12)
     | .fault _ | .refused _ => false) = true := by decide +kernel

/-- TRAP enters the handler with its cause, its number and the PC after it (13 R223). -/
theorem test_trap :
    (match exec (.trap hd 5) (handled (on (.trap hd 5))) with
     | .next t => warpIs t 0 (fun w => w.pcAt 0 == codeAt 0x100 && w.trap.any (fun x => x.cause == 12 && x.addr == 5 && x.pc == codeAt 8))
     | .fault _ | .refused _ => false) = true := by decide +kernel

end Sys2Proof.Tests
end

