-- ==== Sys2Proof/Proofs/Parts.lean ====
section
/-! SUPPORT. Reading a part of the state after an update of a part, and what the requests and records of an event leave as
they were. -/

namespace Sys2Proof.Machine

/- Parts of the state. -/

@[simp] theorem die_modDie (s : State) (k j : Nat) (f : Die → Die) :
    (s.modDie k f).die j = if j = k then f (s.die k) else s.die j := nth_lput s.dies k j Die.init f

theorem die_modDie_self (s : State) (k : Nat) (f : Die → Die) : (s.modDie k f).die k = f (s.die k) := by simp

@[simp] theorem core_modCore (s : State) (k j : Nat) (f : CoreSt → CoreSt) :
    (s.modCore k f).core j = if j = k then f (s.core k) else s.core j := nth_lput s.cores k j CoreSt.init f

@[simp] theorem col_modCol (s : State) (k j : Nat) (f : Column → Column) :
    (s.modCol k f).col j = if j = k then f (s.col k) else s.col j := nth_lput s.cols k j Column.init f

@[simp] theorem blk_modBlock (s : State) (k j : Nat) (f : Block → Block) :
    (s.modBlock k f).blk? j = if j = k then (s.blk? j).map f else s.blk? j := tget_tmod s.blocks k j f

/-- What a table holds under a key is in its list. -/
theorem tget_mem {α : Type} {t : Tbl α} {k : Nat} {v : α} (h : tget t k = some v) : (k, v) ∈ t := by
  induction t with
  | nil => simp at h
  | cons x t ih =>
    obtain ⟨j, w⟩ := x
    simp only [tget] at h
    split at h
    · next e => subst e; simp_all
    · exact List.mem_cons_of_mem _ (ih h)

theorem tget_filterMap_none (f : Nat → Nat) {l : List Nat} {k : Nat} (h : k ∉ l) :
    tget (l.filterMap (fun k => if f k = 0 then none else some (k, f k))) k = none := by
  induction l with
  | nil => rfl
  | cons j l ih =>
    obtain ⟨hj, hl⟩ := not_or.mp (mt List.mem_cons.mpr h)
    by_cases h0 : f j = 0
    · simpa [List.filterMap_cons, h0] using ih hl
    · simpa [List.filterMap_cons, h0, tget, Ne.symm hj] using ih hl

/-- A table that lists f at the keys where it is not 0 reads as f. -/
theorem tget_filterMap_self (f : Nat → Nat) {l : List Nat} {k : Nat} (h : k ∈ l) :
    (tget (l.filterMap (fun k => if f k = 0 then none else some (k, f k))) k).getD 0 = f k := by
  induction l with
  | nil => simp at h
  | cons j l ih =>
    by_cases hj : j = k
    · subst hj
      by_cases h0 : f j = 0
      · rw [List.filterMap_cons, if_pos h0]
        by_cases hm : j ∈ l
        · exact ih hm
        · rw [h0, tget_filterMap_none f hm]; rfl
      · simp [h0, tget]
    · have hm : k ∈ l := (List.mem_cons.mp h).resolve_left (Ne.symm hj)
      by_cases h0 : f j = 0
      · simpa [List.filterMap_cons, h0] using ih hm
      · simpa [List.filterMap_cons, h0, tget, hj] using ih hm

/- Requests to the host, and the signal of an event: nothing but the requests, or the messages, changes. -/

/-- Nothing but the requests sent to the host differs. -/
def SameButOut (s t : State) : Prop := t = { s with outbound := t.outbound }

theorem SameButOut.refl (s : State) : SameButOut s s := rfl

theorem SameButOut.trans {a b c : State} (h1 : SameButOut a b) (h2 : SameButOut b c) : SameButOut a c := by
  unfold SameButOut at *
  rw [h2, h1]

theorem outReq_same (s : State) (cx : Nat) (k : OutKind) (pa : Nat) : SameButOut s (s.outReq cx k pa) := by
  unfold State.outReq
  split <;> rfl

theorem readOut_same (s : State) (die cx pa : Nat) : SameButOut s (s.readOut die cx pa) := by
  unfold State.readOut
  split
  · exact .refl s
  · exact outReq_same s cx .read pa

theorem foldl_sameButOut {α : Type} (f : State → α → State) (hf : ∀ s a, SameButOut s (f s a)) (l : List α) (s : State) :
    SameButOut s (l.foldl f s) := by
  induction l generalizing s with
  | nil => exact .refl s
  | cons a l ih => exact (hf s a).trans (ih (f s a))

theorem readsOut_same (s : State) (die cx va n : Nat) : SameButOut s (s.readsOut die cx va n) := by
  unfold State.readsOut
  refine foldl_sameButOut _ (fun t i => ?_) _ s
  split
  · exact readOut_same t die cx _
  all_goals exact .refl t

theorem entryReads_same (s : State) (die cx : Nat) (entry : W64) (i : Nat) : SameButOut s (s.entryReads die cx entry i) := by
  have h := readsOut_same s die cx (vbits (entry - 8)) 8
  unfold State.entryReads
  split
  · exact h
  · exact h.trans (readsOut_same _ die cx _ 8)

theorem signal_msix (s : State) (cx : Nat) : s.signal cx = { s with msix := (s.signal cx).msix } := by
  unfold State.signal
  simp only
  split <;> rfl

/-- An event of a die joins its log, or is counted as lost; beside that only a message is sent. -/
theorem logEvent_die (s : State) (die : Nat) (e : Event) (hd : die ≠ 4) :
    ∃ m f, (∀ d : Die, f d = { d with log := (f d).log, lost := (f d).lost })
      ∧ s.logEvent die e = { s.modDie die f with msix := m } := by
  unfold State.logEvent
  rw [if_neg hd]
  split
  · exact ⟨(s.signal e.ctx).msix, fun d => { d with log := d.log ++ [e] }, fun _ => rfl,
      by rw [signal_msix s e.ctx]; rfl⟩
  · exact ⟨s.msix, fun d => { d with lost := d.lost + 1 }, fun _ => rfl, rfl⟩

end Sys2Proof.Machine
end

