-- ==== Sys2Proof/Proofs/Work.lean ====
section
/-! PROOFS. Work packets, child ranges and frames (01 R38, R41 to R43; 16 R268; 20 R292). -/

namespace Sys2Proof.Machine

/- A popped packet (08 R181). -/

theorem popped_length (p : Packet) : p.popped.length = 32 := by simp [Packet.popped]

theorem nth_popped (p : Packet) (l : Nat) : nth p.popped l 0 = if l < 8 then nth p.words l 0 else 0 := by
  by_cases h : l < 32
  · exact nth_map_range 32 _ l 0 h
  · rw [if_neg (by omega)]
    simp [nth, Packet.popped, List.getElem?_eq_none (show (List.map _ (List.range 32)).length ≤ l by simpa using h)]

theorem popped_reg {d : Die} {p : Packet} (h : d.dreg = p.popped) :
    d.dreg.length = 32 ∧ ∀ l, nth d.dreg l 0 = if l < 8 then nth p.words l 0 else 0 := by
  rw [h]
  exact ⟨popped_length p, nth_popped p⟩

/-- The packet as the dispatcher sees it: its words are the lanes 0 to 7 of the register. -/
def Packet.seen (p : Packet) : Packet := { p with words := p.popped.take 8 }

theorem nth_seen (p : Packet) {i : Nat} (h : i < 8) : nth p.seen.words i 0 = nth p.words i 0 := by
  have h1 : nth (p.popped.take 8) i 0 = nth p.popped i 0 := by simp [nth, h]
  rw [show p.seen.words = p.popped.take 8 from rfl, h1, nth_popped, if_pos h]

theorem word_seen (p : Packet) {i : Nat} (h : i < 8) : p.seen.word i = p.word i := by
  unfold Packet.word
  rw [nth_seen p h]

theorem malformed_seen (s : State) (die : Nat) (g : Grid) (p : Packet) : s.malformed die g p.seen = s.malformed die g p := by
  unfold State.malformed Packet.nblk Packet.cwarps
  rw [word_seen p (i := 0) (by decide), word_seen p (i := 1) (by decide), word_seen p (i := 2) (by decide),
    word_seen p (i := 3) (by decide)]

theorem capacity_seen (s : State) (die : Nat) (g : Grid) (p : Packet) : s.capacity die g p.seen = s.capacity die g p := by
  simp [State.capacity, Packet.nblk, Packet.cwarps, word_seen]

theorem elsewhere_seen (s : State) (die : Nat) (g : Grid) (p : Packet) : s.elsewhere die g p.seen = s.elsewhere die g p := by
  simp only [State.elsewhere, capacity_seen]

theorem hops_seen (p : Packet) : p.seen.hops = p.hops := by simp [Packet.hops, word_seen]

theorem args_seen (p : Packet) : (p.seen.words.drop 4).take 4 = (List.range 4).map (fun i => nth p.words (4 + i) 0) := by
  simp [Packet.seen, Packet.popped, List.range_succ]

theorem hops_lt (p : Packet) : p.hops < 4 := Nat.mod_lt _ (by decide)

theorem field_toNat {w : Nat} (x : BitVec w) (l n : Nat) : field x.toNat l n = (x.extractLsb' l n).toNat := by
  simp [field, BitVec.extractLsb'_toNat]

/-- The hop count of a header word that is written anew. -/
theorem field_withHops (w : W32) {n : Nat} (h : n < 4) : field (withHops w n).toNat 19 2 = n := by
  have key : (withHops w n).extractLsb' 19 2 = (BitVec.ofNat 32 (n * 2 ^ 19)).extractLsb' 19 2 := by
    unfold withHops
    ext i hi
    have : i = 0 ∨ i = 1 := by omega
    rcases this with rfl | rfl <;> simp
  rw [field_toNat, key]
  interval_cases n <;> rfl

/-- A packet that goes on to another die, with one more hop. -/
def Packet.forwarded (p : Packet) (key die : Nat) : Packet :=
  { p.seen with key := key, die := die, words := lput p.seen.words 0 0 (fun w => withHops w (p.seen.hops + 1)) }

theorem hops_forwarded (p : Packet) (h : p.hops < 3) (key die : Nat) : (p.forwarded key die).hops = p.hops + 1 := by
  show field (nth (lput p.seen.words 0 0 (fun w => withHops w (p.seen.hops + 1))) 0 0).toNat 19 2 = _
  rw [nth_lput, if_pos rfl, hops_seen]
  exact field_withHops _ (by omega)

/- The four steps, one equation for each case. -/

theorem exec_workPacketArrival {key : Nat} {s : State} {p : Packet} (hp : s.packets.find? (fun x => x.key == key) = some p) :
    exec (.workPacketArrival key) s = .next ({ s with packets := s.packets.filter (fun x => x.key != key) }.modDie p.die
      (fun d => { d with mailbox := d.mailbox ++ [p] })) := by
  show execWorkPacketArrival key s = _
  simp only [execWorkPacketArrival, hp]

/-- The state once the dispatcher of a die has popped a packet. -/
def State.poppedAt (s : State) (die : Nat) (p : Packet) (rest : List Packet) : State :=
  s.modDie die (fun d => { d with mailbox := rest, dreg := p.popped })

/-- The range of child blocks that a packet asks for. -/
def State.childRange (s : State) (die : Nat) (g : Grid) (p : Packet) : Range :=
  { grid := p.grid, lo := 0, hi := p.seen.nblk, prio := p.seen.prio, order := g.order,
    child := some (((s.entryAt die g.ctx g.rec_.entry (field (p.seen.word 0) 0 16)).getD 0).toNat, p.seen.cwarps, p.seen.pclass,
      (p.seen.words.drop 4).take 4), clk := p.clk }

/-- What the dispatcher makes of the head of its mailbox (01 R42). -/
theorem exec_dispatchPacket {die : Nat} {s : State} {p : Packet} {rest : List Packet} {g : Grid} (hm : (s.die die).mailbox = p :: rest)
    (hv : (s.die die).giving = none) (hg : tget s.grids p.grid = some g) :
    exec (.dispatchPacket die) s = .next (
      if s.malformed die g p then
        ((s.poppedAt die p rest).modDie die (fun d => { d with malformed := d.malformed + 1 })).logEvent die
          (Event.mk' s g.ctx (0x100 + die) 0x86 0 0 0)
      else match (if s.capacity die g p = 0 && p.hops < 3 then s.elsewhere die g p else none) with
        | some d => { s.poppedAt die p rest with nextKey := s.nextKey + 1, packets := s.packets ++ [p.forwarded s.nextKey d] }
        | none => ((s.poppedAt die p rest).entryReads die g.ctx g.rec_.entry (field (p.seen.word 0) 0 16)).modDie die
            (fun d => { d with giving := some (s.childRange die g p) })) := by
  have hw : ((s.poppedAt die p rest).die die).dreg.take 8 = p.seen.words := by
    simp [State.poppedAt, Packet.seen]
  show execDispatchPacket die s = _
  simp only [execDispatchPacket, hm, hv, Option.isSome_none, Bool.false_eq_true, if_false]
  rw [show (s.modDie die (fun d => { d with mailbox := rest, dreg := p.popped })) = s.poppedAt die p rest from rfl, hw]
  rw [show ({ p with words := p.seen.words } : Packet) = p.seen from rfl, hg]
  simp only [malformed_seen, capacity_seen, elsewhere_seen, hops_seen]
  split
  · rfl
  · generalize (if s.capacity die g p = 0 && p.hops < 3 then s.elsewhere die g p else none) = away
    cases away <;> rfl

section Dispatch

variable {die : Nat} {s : State} {p : Packet} {rest : List Packet} {g : Grid}

theorem poppedAt_die (j : Nat) : (s.poppedAt die p rest).die j
    = if j = die then { s.die j with mailbox := rest, dreg := p.popped } else s.die j := by
  rw [State.poppedAt, die_modDie]
  by_cases h : j = die
  · simp [h]
  · simp [h]

/-- A malformed packet is dropped and counted. -/
theorem dispatchPacket_drops (hd : die < 4) (hm : (s.die die).mailbox = p :: rest) (hv : (s.die die).giving = none)
    (hg : tget s.grids p.grid = some g) (hbad : s.malformed die g p = true) :
    ∃ t, exec (.dispatchPacket die) s = .next t
      ∧ t.die die = { s.die die with mailbox := rest, dreg := p.popped, malformed := (s.die die).malformed + 1,
                                     log := (t.die die).log, lost := (t.die die).lost }
      ∧ t.packets = s.packets ∧ t.warps = s.warps ∧ t.mem = s.mem := by
  have hx := exec_dispatchPacket hm hv hg
  rw [if_pos hbad] at hx
  obtain ⟨m, f, hf, hlog⟩ := logEvent_die ((s.poppedAt die p rest).modDie die (fun d => { d with malformed := d.malformed + 1 })) die
    (Event.mk' s g.ctx (0x100 + die) 0x86 0 0 0) (by omega)
  rw [hlog] at hx
  have hdie : (((s.poppedAt die p rest).modDie die (fun d => { d with malformed := d.malformed + 1 })).modDie die f).die die
      = f { s.die die with mailbox := rest, dreg := p.popped, malformed := (s.die die).malformed + 1 } := by
    rw [die_modDie_self, die_modDie_self, poppedAt_die, if_pos rfl]
  refine ⟨_, hx, ?_, rfl, rfl, rfl⟩
  refine hdie.trans ((hf _).trans ?_)
  show _ = ({ s.die die with
    mailbox := rest, dreg := p.popped, malformed := (s.die die).malformed + 1,
    log := ((((s.poppedAt die p rest).modDie die (fun d => { d with malformed := d.malformed + 1 })).modDie die f).die die).log,
    lost := ((((s.poppedAt die p rest).modDie die (fun d => { d with malformed := d.malformed + 1 })).modDie die f).die die).lost } : Die)
  rw [hdie]

/-- A packet whose die has capacity, or that has been forwarded three times, becomes a range. -/
theorem dispatchPacket_keeps (hm : (s.die die).mailbox = p :: rest) (hv : (s.die die).giving = none)
    (hg : tget s.grids p.grid = some g) (hok : s.malformed die g p = false) (hcap : s.capacity die g p ≠ 0 ∨ p.hops = 3) :
    ∃ t, exec (.dispatchPacket die) s = .next t ∧ t = { s with dies := t.dies, outbound := t.outbound }
      ∧ ∀ j, t.die j = if j = die then { s.die j with mailbox := rest, dreg := p.popped, giving := some (s.childRange die g p) }
                       else s.die j := by
  have haway : (if s.capacity die g p = 0 && p.hops < 3 then s.elsewhere die g p else none) = none := by
    rw [if_neg]
    rcases hcap with h | h <;> simp [h]
  have hx := exec_dispatchPacket hm hv hg
  rw [if_neg (by simp [hok])] at hx
  simp only [haway] at hx
  have hreads := entryReads_same (s.poppedAt die p rest) die g.ctx g.rec_.entry (field (p.seen.word 0) 0 16)
  unfold SameButOut at hreads
  rw [hreads] at hx
  refine ⟨_, hx, rfl, fun j => ?_⟩
  rw [die_modDie]
  show (if j = die then ({ (s.poppedAt die p rest).die die with giving := some (s.childRange die g p) } : Die)
    else (s.poppedAt die p rest).die j) = _
  rw [poppedAt_die, poppedAt_die, if_pos rfl]
  by_cases h : j = die
  · simp [h]
  · simp [h]

/-- A packet that another die has room for goes there. -/
theorem dispatchPacket_forwards (hm : (s.die die).mailbox = p :: rest) (hv : (s.die die).giving = none)
    (hg : tget s.grids p.grid = some g) (hok : s.malformed die g p = false) (hcap : s.capacity die g p = 0) (hh : p.hops < 3) {d : Nat}
    (he : s.elsewhere die g p = some d) :
    ∃ t, exec (.dispatchPacket die) s = .next t
      ∧ t = { s with dies := t.dies, packets := s.packets ++ [p.forwarded s.nextKey d], nextKey := s.nextKey + 1 }
      ∧ ∀ j, t.die j = if j = die then { s.die j with mailbox := rest, dreg := p.popped } else s.die j := by
  have hx := exec_dispatchPacket hm hv hg
  rw [if_neg (by simp [hok])] at hx
  simp only [hcap, hh, decide_true, Bool.and_self, if_true, he] at hx
  exact ⟨_, hx, rfl, poppedAt_die⟩

theorem childRange_eq {pc : W64} (hpc : s.entryAt die g.ctx g.rec_.entry (field (p.word 0) 0 16) = some pc) :
    s.childRange die g p =
      { grid := p.grid, lo := 0, hi := p.nblk, prio := p.prio, order := g.order,
        child := some (pc.toNat, p.cwarps, p.pclass, (List.range 4).map (fun i => nth p.words (4 + i) 0)), clk := p.clk } := by
  simp only [State.childRange, word_seen p (i := 0) (by decide), hpc, Option.getD_some, args_seen, Packet.nblk, Packet.prio,
    Packet.cwarps, Packet.pclass, word_seen p (i := 1) (by decide), word_seen p (i := 2) (by decide)]

end Dispatch

theorem exec_childRangeAccept {die : Nat} {s : State} {r : Range} {g : Grid} (hr : (s.die die).giving = some r)
    (hg : tget s.grids r.grid = some g) :
    exec (.childRangeAccept die) s = .next
      (((s.modDie die (fun d => { d with giving := none })).modGrid r.grid (fun g => { g with childNext := g.childNext + (r.hi - r.lo) })).modDie die
        (fun d => { d with ranges := d.ranges ++
          [{ r with lo := g.rec_.gblocks + g.childNext, hi := g.rec_.gblocks + g.childNext + (r.hi - r.lo) }] })) := by
  show execChildRangeAccept die s = _
  simp only [execChildRangeAccept, hr, hg]

/-- What a die publishes at the end of a frame. -/
def State.publishDie (s : State) (i : Nat) : Die :=
  let works := s.grids.flatMap (fun x => (List.range 8).map (workKey x.1))
  { s.die i with
    pubRemain := works.filterMap (fun k => if (s.die i).remaining k = 0 then none else some (k, (s.die i).remaining k)),
    pubFree := if i < 4 then (List.range 64).map (fun j =>
      let c := 64 * i + j
      (c, if s.replicaCore c || s.retired (coreColumn c) then (0, 0) else (s.freeSlots c, Config.coreBanks - s.banksUsed c))) else [] }

/-- What a core publishes at the end of a frame. -/
def State.publishCore (s : State) (c : CoreSt) : CoreSt :=
  { c with fullPub := match c.replica.bind (fun r => tget s.grids r.1) with
      | some g => g.rec_.arrcap ≤ c.arrivals.length
      | none => false }

theorem exec_frameBoundary {s : State} (h : s.frame < s.tsc / 1000) :
    exec .frameBoundary s = .next { s with frame := s.tsc / 1000, dies := (List.range s.dies.length).map s.publishDie,
                                           cores := s.cores.map s.publishCore } := by
  show execFrameBoundary s = _
  simp only [execFrameBoundary, if_neg (Nat.not_le.mpr h)]
  rfl

/-- A frame that has ended publishes what a die has still to place of each launch and priority (01 R38). -/
theorem publishDie_remaining (s : State) (i : Nat) {gk p : Nat} (hg : (tget s.grids gk).isSome = true) (hp : p < 8) :
    (tget (s.publishDie i).pubRemain (workKey gk p)).getD 0 = (s.die i).remaining (workKey gk p) := by
  obtain ⟨g, hg⟩ := Option.isSome_iff_exists.mp hg
  have hmem : workKey gk p ∈ s.grids.flatMap (fun x => (List.range 8).map (workKey x.1)) :=
    List.mem_flatMap.mpr ⟨(gk, g), tget_mem hg, List.mem_map.mpr ⟨p, List.mem_range.mpr hp, rfl⟩⟩
  exact tget_filterMap_self (s.die i).remaining hmem

/-- Settles O43: each step has one equation, and what it changes is read off the equation. -/
theorem workSteps : Obligations.WorkSteps := by
  unfold Obligations.WorkSteps
  refine ⟨?_, ?_, ?_, ?_⟩
  · intro key s p hp
    refine ⟨_, exec_workPacketArrival hp, rfl, fun j => ?_⟩
    rw [die_modDie]
    by_cases h : j = p.die
    · subst h; simp only [if_true]; rfl
    · simp only [if_neg h]; rfl
  · intro die s p rest g hd hm hv hg
    refine ⟨fun hbad => ?_, fun hok hcap => ?_, fun d hok hcap hh he => ?_⟩
    · obtain ⟨t, hx, hdie, h1, h2, h3⟩ := dispatchPacket_drops hd hm hv hg hbad
      exact ⟨t, hx, popped_reg (by rw [hdie]), by rw [hdie], by rw [hdie], by rw [hdie]; exact hv, h1, h2, h3⟩
    · obtain ⟨t, hx, ht, hdie⟩ := dispatchPacket_keeps hm hv hg hok hcap
      refine ⟨t, s.childRange die g p, hx, ht, fun pc hpc => childRange_eq hpc, ?_, fun j => ?_⟩
      · exact popped_reg (by rw [hdie die, if_pos rfl])
      · rw [hdie j]
        by_cases h : j = die <;> simp [h]
    · obtain ⟨t, hx, ht, hdie⟩ := dispatchPacket_forwards hm hv hg hok hcap hh he
      refine ⟨t, p.forwarded s.nextKey d, hx, ht, ?_, fun j => ?_, rfl, rfl, rfl, hops_forwarded p hh s.nextKey d, fun i h0 h8 => ?_⟩
      · exact popped_reg (by rw [hdie die, if_pos rfl])
      · rw [hdie j]
        by_cases h : j = die <;> simp [h]
      · exact (nth_lput _ 0 i 0 _).trans (by rw [if_neg (by omega), nth_seen p h8])
  · intro die s r g hr hg
    refine ⟨_, exec_childRangeAccept hr hg, rfl, fun j => ?_, fun j => ?_⟩
    · rw [die_modDie]
      by_cases h : j = die
      · subst h
        rw [if_pos rfl, if_pos rfl]
        show ({ (s.modDie j (fun d => { d with giving := none })).die j with
          ranges := ((s.modDie j (fun d => { d with giving := none })).die j).ranges ++ _ } : Die) = _
        rw [die_modDie_self]
      · rw [if_neg h, if_neg h]
        show (s.modDie die _).die j = s.die j
        rw [die_modDie, if_neg h]
    · refine (tget_tmod s.grids r.grid j _).trans ?_
      by_cases h : j = r.grid
      · simp [h, hg]
      · simp [h]
  · intro s h
    refine ⟨_, exec_frameBoundary h, rfl, fun d gk p hd hp hg => ?_, fun d hd => ?_, fun c gk seg g hc hr hg => ?_⟩
    · show (tget (nth _ d Die.init).pubRemain _).getD 0 = _
      rw [nth_map_range _ _ _ _ hd]
      exact publishDie_remaining s d hg hp
    · have he : nth ((List.range s.dies.length).map s.publishDie) d Die.init = s.publishDie d := nth_map_range _ _ _ _ hd
      refine he.trans ?_
      show s.publishDie d = { s.die d with pubRemain := (nth ((List.range s.dies.length).map s.publishDie) d Die.init).pubRemain,
                                           pubFree := (nth ((List.range s.dies.length).map s.publishDie) d Die.init).pubFree }
      rw [he]
      rfl
    · show nth (s.cores.map s.publishCore) c CoreSt.init = _
      have he : nth (s.cores.map s.publishCore) c CoreSt.init = s.publishCore (s.core c) := by
        simp [nth, State.core, hc]
      rw [he]
      simp only [State.publishCore, hr, Option.bind_some, hg]

end Sys2Proof.Machine
end

