-- ==== Sys2Proof/Proofs/StepRuns.lean ====
section
/-! PROOFS. A step runs the instruction at the PC of the group that issues (01 R16, R19; 03 R47, R48; 07 R319). -/

namespace Sys2Proof

/- A step of the machine has the length code that no word has. -/

theorem Raw.len_putI {r : Raw} (h : r.len ≠ 3#2) (b : SrcB) : (r.putI b).len ≠ 3#2 := by
  cases b with
  | reg n => exact h
  | imm v => exact (by decide : (1 : W2) ≠ 3#2)

theorem Raw.len_putX {r : Raw} (h : r.len ≠ 3#2) (x : Option Mods) : (r.putX x).len ≠ 3#2 := by
  cases x with
  | none => exact h
  | some x => exact (by decide : (1 : W2) ≠ 3#2)

theorem Raw.len_putXW {r : Raw} (h : r.len ≠ 3#2) (b : SrcB) (x : Option Mods) : (r.putXW b x).len ≠ 3#2 := by
  cases b with
  | reg n => cases x with
    | none => exact h
    | some x => exact (by decide : (1 : W2) ≠ 3#2)
  | imm v => cases x <;> exact (by decide : (2 : W2) ≠ 3#2)

theorem Raw.len_putOff {r : Raw} (h : r.len ≠ 3#2) (off : Option W32) : (r.putOff off).len ≠ 3#2 := by
  cases off with
  | none => exact h
  | some v => exact (by decide : (1 : W2) ≠ 3#2)

theorem Raw.len_putOffW {r : Raw} (h : r.len ≠ 3#2) (off : Option W32) (x : Option MemX) : (r.putOffW off x).len ≠ 3#2 := by
  cases off with
  | none => cases x with
    | none => exact h
    | some x => exact (by decide : (2 : W2) ≠ 3#2)
  | some v => cases x with
    | none => exact (by decide : (1 : W2) ≠ 3#2)
    | some x => exact (by decide : (2 : W2) ≠ 3#2)

/-- Of all instructions, those of a program have a word, and the steps of the machine have none. -/
theorem raw_len (i : Instr) : i.raw.len = 3#2 ↔ i.isWord = false := by
  cases i
  case fence h cm x => cases x <;> simp [Instr.raw, Instr.isWord, Raw.base, Raw.with96]
  all_goals simp [Instr.raw, Instr.isWord, Raw.len_putI, Raw.len_putX, Raw.len_putXW, Raw.len_putOff, Raw.len_putOffW, Raw.base,
    Raw.with96, Raw.with128, Raw.noWord]

namespace Machine

theorem isStep_eq (i : Instr) : isStep i = !i.isWord := by
  have h := raw_len i
  show (i.raw.len == 3#2) = _
  cases hw : i.isWord
  · simpa using h.mpr hw
  · simpa [hw] using h

/-- Nothing but TLBs differs. -/
structure SameButTlb (s t : State) : Prop where
  rest : t = { s with dies := t.dies, cores := t.cores }
  die : ∀ d, t.die d = { s.die d with tlb := (t.die d).tlb }
  core : ∀ c, t.core c = { s.core c with tlb := (t.core c).tlb, ptlbs := (t.core c).ptlbs }

namespace SameButTlb

theorem refl (s : State) : SameButTlb s s := ⟨rfl, fun _ => rfl, fun _ => rfl⟩

theorem trans {a b c : State} (h1 : SameButTlb a b) (h2 : SameButTlb b c) : SameButTlb a c := by
  refine ⟨?_, fun d => ?_, fun k => ?_⟩
  · rw [h2.rest, h1.rest]
  · rw [h2.die d, h1.die d]
  · rw [h2.core k, h1.core k]

theorem modDie (s : State) (d : Nat) (f : List (Nat × Mapping) → List (Nat × Mapping)) :
    SameButTlb s (s.modDie d (fun x => { x with tlb := f x.tlb })) := by
  refine ⟨rfl, fun j => ?_, fun _ => rfl⟩
  rw [die_modDie]
  by_cases h : j = d
  · subst h; simp only [if_true]
  · simp only [if_neg h]

theorem modCore (s : State) (c : Nat) (f : CoreSt → CoreSt) (hf : ∀ x, f x = { x with tlb := (f x).tlb, ptlbs := (f x).ptlbs }) :
    SameButTlb s (s.modCore c f) := by
  refine ⟨rfl, fun _ => rfl, fun j => ?_⟩
  rw [core_modCore]
  by_cases h : j = c
  · subst h; simp only [if_true]; exact hf _
  · simp only [if_neg h]

theorem fillTlb (s : State) (at_ : Asker) (cx a : Nat) : SameButTlb s (s.fillTlb at_ cx a) := by
  unfold State.fillTlb
  split
  · exact refl s
  · cases at_ with
    | hub => exact refl s
    | die d => exact modDie s d _
    | core c => exact (modDie s (coreDie c) _).trans (modCore _ c _ fun _ => rfl)
    | part c q => exact ((modDie s (coreDie c) _).trans (modCore _ c _ fun _ => rfl)).trans (modCore _ c _ fun _ => rfl)

theorem poisonIn {s t : State} (h : SameButTlb s t) (die pa n : Nat) : t.poisonIn die pa n = s.poisonIn die pa n := by
  have hp : t.poison = s.poison := by rw [h.rest]
  have hc : (t.die die).copies = (s.die die).copies := by rw [h.die die]
  have hb : ∀ d, (t.die d).bad = (s.die d).bad := fun d => by rw [h.die d]
  have hd : t.poisonedAt die = s.poisonedAt die := by
    funext x
    unfold State.poisonedAt State.copyOf State.poisoned
    rw [hp, hc, hb, hb]
  unfold State.poisonIn
  rw [hd]

theorem loops {s t : State} (h : SameButTlb s t) (core : Nat) : (t.core core).loops = (s.core core).loops := by rw [h.core core]

theorem heldByte {s t : State} (h : SameButTlb s t) (core slot cx : Nat) (w : Warp) (a : Nat) :
    t.heldByte core slot cx w a = s.heldByte core slot cx w a := by
  unfold State.heldByte
  rw [h.loops]

theorem view {s t : State} (h : SameButTlb s t) {c : Cur} {v : View} (hv : s.view hdr0 = some v)
    (hc : c.core = s.cur.core ∧ c.slot = s.cur.slot ∧ c.entry = s.cur.entry ∧ c.pc = s.cur.pc) :
    ∃ v', State.view { t with cur := c } hdr0 = some v' ∧ v'.pc = v.pc := by
  obtain ⟨h1, h2, h3, h4⟩ := hc
  rw [h.rest]
  obtain ⟨w, hw, hv⟩ := Option.bind_eq_some_iff.mp hv
  obtain ⟨b, hb, hv⟩ := Option.bind_eq_some_iff.mp hv
  obtain ⟨g, hg, rfl⟩ := Option.map_eq_some_iff.mp hv
  refine ⟨_, Option.bind_eq_some_iff.mpr ⟨w, ?_, Option.bind_eq_some_iff.mpr ⟨b, hb, Option.map_eq_some_iff.mpr ⟨g, hg, rfl⟩⟩⟩, h4⟩
  show tget s.warps (warpKey c.core c.slot) = some w
  rw [h1, h2]
  exact hw

end SameButTlb

/- Fetch. -/

/-- The bytes of a fetch: those a warp holds, and the others from the line. -/
def State.fetched (s : State) (core slot cx : Nat) (w : Warp) (a pa : Nat) (line : List Byte) : List Byte :=
  (List.range (min 16 (32 - a % 32))).map (fun k => (s.heldByte core slot cx w (a + k)).getD (nth line ((pa + k) % 128) 0))

/-- A fetch whose line the core holds gives its bytes, and changes TLBs only (01 R10; 07 R319). -/
theorem fetchBytes_held {s : State} {core slot : Nat} {g : Grid} {w : Warp} {pc : W64} {pa : Nat} {line : List Byte}
    (hx : s.xlat (.part core (slot % 4)) g.ctx (vbits pc) needX = .ok pa)
    (hl : tget (if w.viaHandler g then (s.core core).hbuf else (s.core core).istore) (lineOf pa) = some line)
    (hp : s.poisonIn (core / 64) pa (min 16 (32 - vbits pc % 32)) = none) :
    ∃ t, s.fetchBytes core slot g w pc = (.bytes (s.fetched core slot g.ctx w (vbits pc) pa line), t) ∧ SameButTlb s t := by
  unfold State.fetchBytes
  simp only
  split
  · next hall =>
    refine ⟨s, ?_, .refl s⟩
    rw [Prod.mk.injEq, FetchRes.bytes.injEq]
    refine ⟨List.map_congr_left fun k hk => ?_, rfl⟩
    obtain ⟨x, hx⟩ := Option.isSome_iff_exists.mp (List.all_eq_true.mp hall k hk)
    rw [hx]
    rfl
  · have hs := SameButTlb.fillTlb s (.part core (slot % 4)) g.ctx (vbits pc)
    rw [hx]
    simp only
    have hl' : tget (if w.viaHandler g then ((s.fillTlb (.part core (slot % 4)) g.ctx (vbits pc)).core core).hbuf
        else ((s.fillTlb (.part core (slot % 4)) g.ctx (vbits pc)).core core).istore) (lineOf pa) = some line := by
      rw [hs.core core]
      exact hl
    rw [hl']
    simp only
    rw [hs.poisonIn]
    rw [show s.poisonIn (coreDie core) pa (min 16 (32 - vbits pc % 32)) = none from hp]
    simp only [hl', Option.getD_some]
    refine ⟨_, ?_, hs⟩
    rw [Prod.mk.injEq, FetchRes.bytes.injEq]
    exact ⟨List.map_congr_left fun k hk => by rw [hs.heldByte], rfl⟩

theorem view_of_parts {s : State} {w : Warp} {b : Block} {g : Grid} (hw : tget s.warps (warpKey s.cur.core s.cur.slot) = some w)
    (hb : s.blk? w.blk = some b) (hg : tget s.grids b.grid = some g) :
    ∃ v, s.view hdr0 = some v ∧ v.core = s.cur.core ∧ v.slot = s.cur.slot ∧ v.g = g ∧ v.w = w ∧ v.pc = s.cur.pc :=
  ⟨_, Option.bind_eq_some_iff.mpr ⟨w, hw, Option.bind_eq_some_iff.mpr ⟨b, hb, Option.map_eq_some_iff.mpr ⟨g, hg, rfl⟩⟩⟩,
    rfl, rfl, rfl, rfl, rfl⟩

/-- The word at the PC of a group that stands in no REP is decoded, and the group issues it (03 R47, R48). -/
theorem fetchCur_ok {s : State} {v : View} {t : State} {bs : List Byte} {i : Instr} (hv : s.view hdr0 = some v) (hr : v.w.rep = none)
    (hf : s.fetchBytes v.core v.slot v.g v.w v.pc = (.bytes bs, t)) (ht : SameButTlb s t)
    (hi : decodeAt (v.pc.toNat % 32) (BitVec.ofNat 128 (bitsOfBytes bs)) = .ok i) :
    s.fetchCur = .instr i { t with cur := { s.cur with word := (BitVec.ofNat 128 (bitsOfBytes bs)).toNat,
                                                       next := seqNext v.pc (wordBytes (BitVec.ofNat 128 (bitsOfBytes bs))) } } := by
  have hcur : t.cur = s.cur := by rw [ht.rest]
  obtain ⟨v', hv', hpc⟩ := ht.view hv (c := { s.cur with
    word := (BitVec.ofNat 128 (bitsOfBytes bs)).toNat, next := seqNext v.pc (wordBytes (BitVec.ofNat 128 (bitsOfBytes bs))) })
    ⟨rfl, rfl, rfl, rfl⟩
  unfold State.fetchCur
  rw [hv]
  simp only [hr, hf, hcur, hv', hpc, hi]

/- The choice (01 R19). -/

theorem choose_single (s : State) (core : Nat) (x : Nat × Warp × Nat × W64) : s.choose core [x] = some x := by
  unfold State.choose
  by_cases h1 : x.2.1.trap.isSome = true
  · simp [h1]
  · by_cases h2 : s.preferred core x.1 x.2.1 x.2.2.2 = true
    · simp [h1, h2]
    · simp [h1, h2]

/-- With one candidate the partition fetches its instruction. -/
theorem pick_single {s : State} {core quarter slot entry : Nat} {without : List (Nat × Nat)} {w : Warp} {pc : W64} {b : Block} {g : Grid}
    (hrom : s.romSaver core quarter = none) (hr : s.ready core quarter without = [(slot, w, entry, pc)])
    (hb : s.blk? w.blk = some b) (hg : tget s.grids b.grid = some g) :
    s.pick core quarter without = State.fetchCur { s.modWarp (warpKey core slot) (s.arriveAt core slot g.ctx (vbits pc)) with
      cur := { core := core, slot := slot, entry := entry, pc := pc, next := pc, word := 0 } } := by
  unfold State.pick
  simp only [hrom, hr, choose_single, List.foldl_cons, List.foldl_nil, beq_self_eq_true, if_true, hb, hg, Option.bind_some]

theorem pick_none {s : State} {core quarter : Nat} {without : List (Nat × Nat)} (hrom : s.romSaver core quarter = none)
    (hr : s.ready core quarter without = []) : s.pick core quarter without = .idle s := by
  unfold State.pick
  simp only [hrom, hr]
  rfl

/-- With one candidate at code the core holds, the partition issues the instruction there (01 R10, R16). -/
theorem pick_decoded {s : State} {core quarter slot entry pa : Nat} {pc : W64} {w : Warp} {b : Block} {g : Grid} {line : List Byte}
    {i : Instr} (hrom : s.romSaver core quarter = none) (hr : s.ready core quarter [] = [(slot, w, entry, pc)])
    (hw : s.warp? core slot = some w) (hb : s.blk? w.blk = some b) (hg : tget s.grids b.grid = some g) (hrep : w.rep = none)
    (hx : s.xlat (.part core (slot % 4)) g.ctx (vbits pc) needX = .ok pa)
    (hl : tget (if w.viaHandler g then (s.core core).hbuf else (s.core core).istore) (lineOf pa) = some line)
    (hp : s.poisonIn (core / 64) pa (min 16 (32 - vbits pc % 32)) = none)
    (hi : decodeAt (pc.toNat % 32) (BitVec.ofNat 128 (bitsOfBytes
      (s.fetched core slot g.ctx (s.arriveAt core slot g.ctx (vbits pc) w) (vbits pc) pa line))) = .ok i) :
    let word := BitVec.ofNat 128 (bitsOfBytes (s.fetched core slot g.ctx (s.arriveAt core slot g.ctx (vbits pc) w) (vbits pc) pa line))
    ∃ s1, s.pick core quarter [] = .instr i s1
      ∧ s1 = { s with dies := s1.dies, cores := s1.cores, warps := s1.warps,
                      cur := ⟨core, slot, entry, pc, seqNext pc (wordBytes word), word.toNat⟩ }
      ∧ ∀ k, tget s1.warps k = if k = warpKey core slot then some (s.arriveAt core slot g.ctx (vbits pc) w) else tget s.warps k := by
  intro word
  have hfetch := fetchBytes_held (s := ({ s.modWarp (warpKey core slot) (s.arriveAt core slot g.ctx (vbits pc)) with
    cur := { core := core, slot := slot, entry := entry, pc := pc, next := pc, word := 0 } } : State))
    (core := core) (slot := slot) (g := g) (w := s.arriveAt core slot g.ctx (vbits pc) w) hx hl hp
  obtain ⟨t, hf, ht⟩ := hfetch
  have hw1 : tget (s.modWarp (warpKey core slot) (s.arriveAt core slot g.ctx (vbits pc))).warps (warpKey core slot)
      = some (s.arriveAt core slot g.ctx (vbits pc) w) := by
    rw [modWarp_warps, tget_tmod_self, show tget s.warps (warpKey core slot) = some w from hw]
    rfl
  obtain ⟨v, hv, hcore, hslot, hvg, hvw, hpc⟩ := view_of_parts (s := ({ s.modWarp (warpKey core slot) (s.arriveAt core slot g.ctx (vbits pc)) with
    cur := { core := core, slot := slot, entry := entry, pc := pc, next := pc, word := 0 } } : State)) hw1 hb hg
  have hcur := fetchCur_ok hv (by rw [hvw]; exact hrep) (by rw [hcore, hslot, hvg, hvw, hpc]; exact hf) ht (by rw [hpc]; exact hi)
  rw [hpc] at hcur
  refine ⟨_, (pick_single hrom hr hb hg).trans hcur, ?_, fun k => ?_⟩
  · rw [ht.rest]
    rfl
  · show tget t.warps k = _
    rw [ht.rest]
    show tget (s.modWarp (warpKey core slot) (s.arriveAt core slot g.ctx (vbits pc))).warps k = _
    rw [modWarp_warps]
    by_cases h : k = warpKey core slot
    · rw [if_pos h, h, ← hw1, modWarp_warps]
    · rw [if_neg h, tget_tmod_ne _ _ h]

/- The second choice, among the warps that remain (01 R16). -/

theorem readyFold_none {w : Warp} {b : Block} {waits : Nat → Bool} {es : List Nat} {a : Option (Nat × W64)} :
    es.foldl (fun (a : Option (Nat × W64)) e =>
      if w.groupReady b e && !waits e then
        match w.entryPc e, a with
        | some p, some x => if p.toNat < x.2.toNat then some (e, p) else some x
        | some p, none => some (e, p)
        | none, a => a
      else a) a = none ↔ a = none ∧ ∀ e ∈ es, (w.groupReady b e && !waits e) = true → w.entryPc e = none := by
  induction es generalizing a with
  | nil => simp
  | cons e es ih =>
    rw [List.foldl_cons, ih, List.forall_mem_cons]
    cases hr : (w.groupReady b e && !waits e) with
    | false => simp
    | true =>
      cases hp : w.entryPc e with
      | none => simp
      | some p => cases a <;> simp; split <;> simp

theorem readyEntry_none {w : Warp} {b : Block} {waits : Nat → Bool} :
    w.readyEntry b waits = none ↔ w.blocked = true ∨ ∀ e ∈ w.entries, (w.groupReady b e && !waits e) = true → w.entryPc e = none := by
  unfold Warp.readyEntry
  cases hb : w.blocked with
  | true => simp
  | false =>
    rw [if_neg Bool.false_ne_true]
    exact readyFold_none.trans (by simp)

/-- Where only one warp has a group ready, no other warp has. -/
theorem ready_without {t : State} {core quarter slot : Nat} (h : ∀ x ∈ t.ready core quarter [], x.1 = slot) :
    t.ready core quarter ((List.range 8).map (fun e => (slot, e))) = [] := by
  rw [List.eq_nil_iff_forall_not_mem]
  intro x hx
  unfold State.ready at h hx
  split at hx
  · exact absurd hx List.not_mem_nil
  next hi =>
  rw [if_neg hi] at h
  obtain ⟨j, hj, hx⟩ := List.mem_filterMap.mp hx
  cases hw : t.warp? core (quarter + 4 * j) with
  | none => simp [hw] at hx
  | some w =>
    simp only [hw, Option.map_eq_some_iff, Option.bind_eq_some_iff] at hx
    obtain ⟨e, ⟨b, hb, he⟩, rfl⟩ := hx
    have hsome : w.readyEntry b (fun _ => false) ≠ none := by
      intro hn
      rw [readyEntry_none] at hn
      have : w.readyEntry b (fun e => List.contains ((List.range 8).map (fun e => (slot, e))) (quarter + 4 * j, e)) = none := by
        rw [readyEntry_none]
        exact hn.imp_right fun hn e he hr => hn e he (by simp only [Bool.and_eq_true] at hr ⊢; exact ⟨hr.1, rfl⟩)
      rw [this] at he
      exact absurd he (by simp)
    obtain ⟨e', he'⟩ := Option.ne_none_iff_exists'.mp hsome
    have hs : quarter + 4 * j = slot := h (quarter + 4 * j, w, e'.1, e'.2) (List.mem_filterMap.mpr ⟨j, hj, by
      simp only [hw, hb, Option.bind_some, List.contains_nil, he', Option.map_some]⟩)
    have : w.readyEntry b (fun e => List.contains ((List.range 8).map (fun e => (slot, e))) (quarter + 4 * j, e)) = none := by
      rw [readyEntry_none]
      refine .inr fun e he hr => ?_
      have hmem : e < 8 := List.mem_range.mp (List.mem_filter.mp he).1
      simp [hs, hmem] at hr
    rw [this] at he
    exact absurd he (by simp)

/-- An issue opportunity (01 R16, R19). -/
theorem issueCycle_of_pick {s s1 : State} {core quarter : Nat} {i : Instr} (hp : s.pick core quarter [] = .instr i s1) :
    (∀ t, exec i s1 = .next t → s1.stalledBy t = false →
      ((t.col (core / 4)).ratio = 2 → t.romSaver core quarter = none ∧ ∀ x ∈ t.ready core quarter [], x.1 = s1.cur.slot) →
      s.issueCycle core quarter = .next t)
    ∧ (∀ t, exec i s1 = .next t → s1.stalledBy t = true → s.romSaver core quarter = none →
      s.ready core quarter [(s1.cur.slot, s1.cur.entry)] = [] → s.issueCycle core quarter = .next s)
    ∧ (∀ f, exec i s1 = .fault f → s.issueCycle core quarter = .fault f)
    ∧ ∀ r, exec i s1 = .refused r → s.issueCycle core quarter = .refused r := by
  refine ⟨fun t ht hs h2 => ?_, fun t ht hs hrom hr => ?_, fun f hf => ?_, fun r hf => ?_⟩
  · have h1 : s.issueOne core quarter [] 129 = (.next t, some s1.cur.slot) := by
      rw [State.issueOne, hp]
      simp only [ht, hs]
      rfl
    unfold State.issueCycle
    rw [h1]
    by_cases hr : (t.col (coreColumn core)).ratio = 2
    · obtain ⟨hrom, hone⟩ := h2 hr
      simp only [hr, if_true]
      rw [State.issueOne, pick_none hrom (ready_without hone)]
    · simp only [hr, if_false]
  · have h1 : s.issueOne core quarter [] 129 = (.next s, none) := by
      rw [State.issueOne, hp]
      simp only [ht, hs, if_true]
      rw [State.issueOne, pick_none hrom hr]
    unfold State.issueCycle
    rw [h1]
  · unfold State.issueCycle
    rw [State.issueOne, hp]
    simp only [hf]
  · unfold State.issueCycle
    rw [State.issueOne, hp]
    simp only [hf]

theorem step_of_agenda {s : State} {t : Turn} {rest : List Turn} (h : s.agenda = t :: rest) : step s = takeTurn t { s with agenda := rest } := by
  unfold step State.nextTurn
  rw [h]

/-- Settles O58: the partition's one candidate is fetched and decoded, and `exec` of it is the step. -/
theorem stepRunsDecoded : Obligations.StepRunsDecoded := by
  unfold Obligations.StepRunsDecoded
  refine ⟨?_, fun s i rest h => ?_, fun s k h hd => ?_, isStep_eq⟩
  · intro s core quarter slot entry pa pc rest w b g line i hag hr hw hb hg hrom hrep hx hl n hp w1 word hi
    obtain ⟨s1, hpick, hs1, hw1⟩ := pick_decoded (s := { s with agenda := rest }) hrom hr hw hb hg hrep hx hl hp hi
    obtain ⟨hnext, hstall, hfault, hrefused⟩ := issueCycle_of_pick hpick
    have hslot : s1.cur.slot = slot := by rw [hs1]
    have hentry : s1.cur.entry = entry := by rw [hs1]
    rw [hslot] at hnext
    rw [hslot, hentry] at hstall
    refine ⟨s1, hs1, hw1, ?_⟩
    rw [step_of_agenda hag]
    exact ⟨hnext, fun t ht hs hr => hstall t ht hs hrom hr, hfault, hrefused⟩
  · rw [step_of_agenda h]
    rfl
  · unfold step State.nextTurn
    rw [h]
    simp only [hd]
    rfl

end Machine

end Sys2Proof
end

