-- ==== Sys2Proof/Proofs/Caches.lean ====
section
/-! PROOFS. Write-backs, instruction stores, the fault buffers and TLB shootdowns (06 R144; 01 R10; 10 R208 to R210; 16 R276). -/

namespace Sys2Proof.Machine

/- Write-back and what a line's drop takes (06 R144). -/

/-- A write-back changes what the home records as merged and which of its words are bad, and no copy. -/
structure WritesBack (s t : State) : Prop where
  rest : t = { s with dies := t.dies }
  copies : ∀ d, (t.die d).copies = (s.die d).copies
  vec : ∀ d, (t.die d).vec = (s.die d).vec

/-- Of a core's lines, and of the copies and bad words of its die, none is new. -/
structure Loses (core : Nat) (s t : State) : Prop where
  rest : t = { s with cores := t.cores, dies := t.dies }
  bad : ∀ x ∈ (t.die (coreDie core)).bad, x ∈ (s.die (coreDie core)).bad
  copies : ∀ n, tget (s.die (coreDie core)).copies n = none → tget (t.die (coreDie core)).copies n = none
  lines : ∀ n, tget (s.core core).lines n = none → tget (t.core core).lines n = none

theorem WritesBack.trans {a b c : State} (h1 : WritesBack a b) (h2 : WritesBack b c) : WritesBack a c :=
  ⟨by rw [h2.rest, h1.rest], fun d => (h2.copies d).trans (h1.copies d), fun d => (h2.vec d).trans (h1.vec d)⟩

namespace Loses

theorem refl (core : Nat) (s : State) : Loses core s s := ⟨rfl, fun _ h => h, fun _ h => h, fun _ h => h⟩

theorem trans {core : Nat} {a b c : State} (h1 : Loses core a b) (h2 : Loses core b c) : Loses core a c :=
  ⟨by rw [h2.rest, h1.rest], fun x h => h1.bad x (h2.bad x h), fun n h => h2.copies n (h1.copies n h), fun n h => h2.lines n (h1.lines n h)⟩

theorem foldl {core : Nat} (f : State → Nat → State) (hf : ∀ s l, Loses core s (f s l)) (ls : List Nat) (s : State) :
    Loses core s (ls.foldl f s) := by
  induction ls generalizing s with
  | nil => exact refl core s
  | cons l ls ih => exact (hf s l).trans (ih (f s l))

end Loses

theorem writeBack_spec (s : State) (core line : Nat) : WritesBack s (s.writeBack core line) := by
  refine ⟨rfl, fun d => ?_, fun d => ?_⟩
  all_goals
    unfold State.writeBack State.dropHome
    by_cases h : d = homeOf (line * 128)
    · simp [h]
    · simp [h]

theorem writeBacks_spec (core : Nat) (ls : List Nat) (s : State) : WritesBack s (ls.foldl (fun s l => s.writeBack core l) s) := by
  induction ls generalizing s with
  | nil => exact ⟨rfl, fun _ => rfl, fun _ => rfl⟩
  | cons l ls ih => exact (writeBack_spec s core l).trans (ih _)

theorem writeBack_loses (s : State) (core line : Nat) : Loses core s (s.writeBack core line) := by
  refine ⟨rfl, fun x hx => ?_, fun n hn => ?_, fun _ h => h⟩
  · unfold State.writeBack State.dropHome at hx
    by_cases h : coreDie core = homeOf (line * 128)
    · simp [← h] at hx
      tauto
    · simpa [h] using hx
  · rw [(writeBack_spec s core line).copies]
    exact hn

theorem tget_tdel_none {α : Type} {t : Tbl α} {k n : Nat} (h : tget t n = none) : tget (tdel t k) n = none := by
  rw [tget_tdel]
  split
  · rfl
  · exact h

/-- A dropped copy is gone, where it is one: the home's own line is none. -/
theorem dropCopy_spec (s : State) (core line : Nat) :
    Loses core s (s.dropCopy (coreDie core) line) ∧ (s.dropCopy (coreDie core) line).cores = s.cores
    ∧ (homeOf (line * 128) ≠ coreDie core → tget ((s.dropCopy (coreDie core) line).die (coreDie core)).copies line = none) := by
  unfold State.dropCopy
  by_cases hh : homeOf (line * 128) = coreDie core
  · simp [hh, Loses.refl]
  · by_cases hc : tget (s.die (coreDie core)).copies line = none
    · simp [hc, Loses.refl]
    · have hd : coreDie core ≠ homeOf (line * 128) := Ne.symm hh
      have hg : ¬ (homeOf (line * 128) = coreDie core || (tget (s.die (coreDie core)).copies line).isNone) = true := by simp [hh, hc]
      rw [if_neg hg]
      refine ⟨⟨rfl, fun x hx => ?_, fun n hn => ?_, fun _ h => h⟩, rfl, fun _ => ?_⟩
      · simp [hd] at hx
        exact hx.1
      · simpa [hd] using tget_tdel_none hn
      · simp [hd, tget_tdel]

theorem dropLine_spec (s : State) (core line : Nat) :
    Loses core s (s.dropLine core line) ∧ tget ((s.dropLine core line).core core).lines line = none
    ∧ (homeOf (line * 128) ≠ coreDie core → (∀ x ∈ (s.die (coreDie core)).bad, x / 16 ≠ line) →
        tget ((s.dropLine core line).die (coreDie core)).copies line = none) := by
  have hm : Loses core s (s.modCore core (fun c => { c with lines := tdel c.lines line })) :=
    ⟨rfl, fun _ h => h, fun _ h => h, fun n hn => by simpa using tget_tdel_none hn⟩
  have hl : tget ((s.modCore core (fun c => { c with lines := tdel c.lines line })).core core).lines line = none := by
    simp [tget_tdel]
  unfold State.dropLine
  by_cases hb : ((s.modCore core (fun c => { c with lines := tdel c.lines line })).die (coreDie core)).bad.any (fun w => w / 16 == line) = true
  · simp only [hb, if_true]
    refine ⟨hm, hl, fun _ hx => ?_⟩
    obtain ⟨x, hx', he⟩ := List.any_eq_true.mp hb
    exact absurd (beq_iff_eq.mp he) (hx x hx')
  · simp only [hb, if_false, Bool.false_eq_true]
    obtain ⟨h1, h2, h3⟩ := dropCopy_spec (s.modCore core (fun c => { c with lines := tdel c.lines line })) core line
    refine ⟨hm.trans h1, ?_, fun hh _ => h3 hh⟩
    unfold State.core at hl ⊢
    rw [h2]
    exact hl

def State.dropLines (s : State) (core : Nat) (ls : List Nat) : State := ls.foldl (fun s l => s.dropLine core l) s

/-- Each of the lines is dropped. -/
theorem dropLines_spec (core : Nat) (ls : List Nat) (s : State) (n : Nat) (hn : n ∈ ls) :
    tget ((s.dropLines core ls).core core).lines n = none
    ∧ (homeOf (n * 128) ≠ coreDie core → (∀ x ∈ (s.die (coreDie core)).bad, x / 16 ≠ n) →
        tget ((s.dropLines core ls).die (coreDie core)).copies n = none) := by
  induction ls generalizing s with
  | nil => exact absurd hn List.not_mem_nil
  | cons l ls ih =>
    obtain ⟨h1, h2, h3⟩ := dropLine_spec s core l
    unfold State.dropLines at ih ⊢
    rw [List.foldl_cons]
    rcases List.mem_cons.mp hn with rfl | hn
    · have hrest := Loses.foldl (core := core) (fun s l => s.dropLine core l) (fun s l => (dropLine_spec s core l).1) ls (s.dropLine core n)
      exact ⟨hrest.lines n h2, fun hh hb => hrest.copies n (h3 hh hb)⟩
    · obtain ⟨h4, h5⟩ := ih (s.dropLine core l) hn
      exact ⟨h4, fun hh hb => h5 hh fun x hx => hb x (h1.bad x hx)⟩

/-- A warp that waits on the write-back of its lines goes on (06 R144). -/
theorem exec_cctlWbAck {s : State} {core slot : Nat} {w : Warp} {lines : List Nat} {inv : Bool}
    (hw : tget s.warps (warpKey core slot) = some w) (hwait : w.wait = .wb lines inv) (ho : lines.any (s.owed (coreDie core)) = false) :
    exec (.cctlWbAck core slot) s = .next
      ((if inv then (lines.foldl (fun s l => s.writeBack core l) s).dropLines core lines else lines.foldl (fun s l => s.writeBack core l) s).modWarp
        (warpKey core slot) (fun w => { w with wait := .none })) := by
  show execCctlWbAck core slot s = _
  unfold execCctlWbAck
  rw [show s.warp? core slot = some w from hw]
  simp only [hwait, ho, Bool.false_eq_true, if_false]
  rfl

/- Instruction stores (01 R10). -/

theorem core_dropCode (s : State) (line c : Nat) (hc : c < s.cores.length) :
    tget ((s.dropCode line).core c).istore line = none ∧ tget ((s.dropCode line).core c).hbuf line = none := by
  unfold State.dropCode State.core
  simp only
  rw [nth_map_range _ _ _ _ hc]
  simp [tget_tdel]

/-- A warp whose oldest ICINV is done: one that waits at ISYNC goes on after the last. -/
def Warp.icinvDone (w : Warp) (rest : List (Nat × VC × Mask)) : Warp :=
  if rest.isEmpty && w.wait == .isync then { w with icinvs := rest, wait := .none, pre := [], inLoop := false } else { w with icinvs := rest }

theorem icinvDone_spec (w : Warp) (rest : List (Nat × VC × Mask)) :
    (w.icinvDone rest).icinvs = rest ∧ (w.icinvDone rest).wait = if rest = [] ∧ w.wait = .isync then .none else w.wait := by
  unfold Warp.icinvDone
  by_cases h : rest = [] ∧ w.wait = .isync
  · simp [h]
  · rw [if_neg h, if_neg (by simpa using h)]
    exact ⟨rfl, rfl⟩

theorem exec_icinvComplete {s : State} {core slot : Nat} {w : Warp} {i : Nat × VC × Mask} {rest : List (Nat × VC × Mask)}
    (hw : tget s.warps (warpKey core slot) = some w) (hi : w.icinvs = i :: rest) (he : s.everywhere i.2.1 = true) :
    exec (.icinvComplete core slot) s = .next ((s.dropCode i.1).modWarp (warpKey core slot) (fun w => w.icinvDone rest)) := by
  show execIcinvComplete core slot s = _
  unfold execIcinvComplete
  rw [show s.warp? core slot = some w from hw]
  simp only [hi, he, Bool.not_true, Bool.false_eq_true, if_false]
  rfl

theorem length_tput_le {α : Type} (t : Tbl α) (k : Nat) (v : α) : (tput t k v).length ≤ t.length + 1 := by
  induction t with
  | nil => simp [tput]
  | cons x t ih =>
    obtain ⟨j, u⟩ := x
    simp only [tput]
    split
    · simp
    · split
      · simp
      · simpa using ih

theorem length_tdel_le {α : Type} (t : Tbl α) (k : Nat) : (tdel t k).length ≤ t.length := by
  induction t with
  | nil => simp [tdel]
  | cons x t ih =>
    obtain ⟨j, u⟩ := x
    simp only [tdel]
    split
    · exact Nat.le_succ_of_le ih
    · simpa using ih

theorem length_tdel_lt {α : Type} {t : Tbl α} {k : Nat} (h : k ∈ t.map Prod.fst) : (tdel t k).length < t.length := by
  induction t with
  | nil => simp at h
  | cons x t ih =>
    obtain ⟨j, u⟩ := x
    by_cases hj : j = k
    · simpa [tdel, hj] using Nat.lt_succ_of_le (length_tdel_le t k)
    · have hm : k ∈ t.map Prod.fst := (List.mem_cons.mp h).resolve_left (Ne.symm hj)
      simpa [tdel, hj] using ih hm

theorem storeLine_line (cap : Nat) (t : Tbl (List Byte)) (keep : Nat → Bool) (free line : Nat) (bs : List Byte) :
    tget (storeLine cap t keep free line bs) line = some bs := tget_tput_self _ _ _

theorem nth_eq_getElem {α : Type} (l : List α) {i : Nat} (d : α) (h : i < l.length) : nth l i d = l[i] := by
  simp [nth, h]

/-- A store that may give up a line stays within its capacity. -/
theorem storeLine_length {cap : Nat} {t : Tbl (List Byte)} {keep : Nat → Bool} (free line : Nat) (bs : List Byte) (hcap : t.length ≤ cap)
    (hloose : t.length = cap → ∃ x ∈ t, keep x.1 = false) : (storeLine cap t keep free line bs).length ≤ cap := by
  unfold storeLine
  refine (length_tput_le _ _ _).trans ?_
  split
  · next h => exact h
  · next h =>
    obtain ⟨x, hx, hk⟩ := hloose (by omega)
    have hmem : x.1 ∈ (t.map Prod.fst).filter (fun l => !keep l) := by
      rw [List.mem_filter]
      exact ⟨List.mem_map_of_mem hx, by simp [hk]⟩
    have hpos : 0 < ((t.map Prod.fst).filter (fun l => !keep l)).length := List.length_pos_of_mem hmem
    have hlt : free % max 1 ((t.map Prod.fst).filter (fun l => !keep l)).length < ((t.map Prod.fst).filter (fun l => !keep l)).length := by
      have := Nat.mod_lt free (show 0 < max 1 ((t.map Prod.fst).filter (fun l => !keep l)).length by omega)
      omega
    have hin : nth ((t.map Prod.fst).filter (fun l => !keep l)) (free % max 1 ((t.map Prod.fst).filter (fun l => !keep l)).length) 0 ∈ t.map Prod.fst := by
      rw [nth_eq_getElem _ _ hlt]
      exact List.mem_of_mem_filter (List.getElem_mem hlt)
    have := length_tdel_lt hin
    omega

theorem fillCode_spec (s : State) (core cx line : Nat) (handler : Bool) :
    s.fillCode core cx line handler = { s with cores := (s.fillCode core cx line handler).cores, outbound := (s.fillCode core cx line handler).outbound }
    ∧ (s.fillCode core cx line handler).core core =
      (if handler then { s.core core with hbuf := storeLine 64 (s.core core).hbuf (fun _ => false) (Config.freeNat s.fresh) line (s.peek (coreDie core) (line * 128) 128) }
       else { s.core core with istore := storeLine 1024 (s.core core).istore (s.pinned core) (Config.freeNat s.fresh) line (s.peek (coreDie core) (line * 128) 128) }) := by
  have hr := readOut_same s (coreDie core) cx (line * 128)
  unfold SameButOut at hr
  unfold State.fillCode
  constructor
  · rw [hr]
    rfl
  · rw [core_modCore, if_pos rfl, hr]
    rfl

theorem exec_instructionFetchFill {s : State} {core line : Nat} (hb : s.backed (line * 128) 128 = true)
    (hp : s.poisonIn (core / 64) (line * 128) 128 = none) (hc : core < Config.numCores)
    (hn : tget (if s.handlerLine core line then (s.core core).hbuf else (s.core core).istore) line = none) :
    exec (.instructionFetchFill core line) s = .next (s.fillCode core (s.lineCtx core line) line (s.handlerLine core line)) := by
  show execInstructionFetchFill core line s = _
  unfold execInstructionFetchFill
  simp only [hn, hb, show s.poisonIn (coreDie core) (line * 128) 128 = none from hp, hc, Option.isNone_none, decide_true, Bool.and_self, if_true]

/- Page faults (10 R210). -/

/-- Whether a fault entry is of the page of another. -/
def FaultEnt.samePage (e x : FaultEnt) : Bool := x.ctx == e.ctx && pageOf x.va == pageOf e.va

/-- A fault joins the entry of its page, or takes a new one where there is room. -/
def FaultEnt.joined (e : FaultEnt) (l : List FaultEnt) : List FaultEnt :=
  if l.any e.samePage then
    l.map (fun x => if e.samePage x then { x with count := min 255 (x.count + 1), warps := x.warps ++ e.warps, eops := x.eops ++ e.eops } else x)
  else l ++ [e]

theorem joined_has (e : FaultEnt) (l : List FaultEnt) :
    ∃ x ∈ e.joined l, x.ctx = e.ctx ∧ pageOf x.va = pageOf e.va ∧ ∀ y ∈ e.warps, y ∈ x.warps := by
  unfold FaultEnt.joined
  split
  · next h =>
    obtain ⟨x, hx, hs⟩ := List.any_eq_true.mp h
    refine ⟨_, List.mem_map.mpr ⟨x, hx, rfl⟩, ?_⟩
    rw [if_pos hs]
    simp only [FaultEnt.samePage, Bool.and_eq_true, beq_iff_eq] at hs
    exact ⟨hs.1, hs.2, fun y hy => List.mem_append_right _ hy⟩
  · exact ⟨e, by simp, rfl, rfl, fun _ h => h⟩

/-- The request for a page of the host's own that is absent (20 R297). -/
def State.asksPage (s : State) (die : Nat) (e : FaultEnt) : State :=
  match (s.mapping .hub e.ctx (vbits e.va)).map (fun m => m.pa + (vbits e.va - m.va)) with
  | some pa => if s.hostHole pa && !(s.die die).faults.any e.samePage then s.outReq e.ctx .page pa else s
  | none => s

theorem asksPage_same (s : State) (die : Nat) (e : FaultEnt) : SameButOut s (s.asksPage die e) := by
  unfold State.asksPage
  split
  · split
    · exact outReq_same s _ _ _
    · exact .refl s
  · exact .refl s

theorem recordFault_room {s : State} {die : Nat} (e : FaultEnt) (hroom : (s.die die).faults.length < Config.faultBufSize) :
    ∃ m o f, f (s.die die) = { s.die die with faults := e.joined (s.die die).faults }
      ∧ s.recordFault die e = { s.modDie die f with msix := m, outbound := o } := by
  have hsame := asksPage_same s die e
  unfold SameButOut at hsame
  by_cases h : (s.die die).faults.any e.samePage = true
  · refine ⟨s.msix, (s.asksPage die e).outbound, _, ?_, (?_ : _ = { s.modDie die (fun d => { d with faults := d.faults.map (fun x =>
      if e.samePage x then { x with count := min 255 (x.count + 1), warps := x.warps ++ e.warps, eops := x.eops ++ e.eops } else x) }) with
      msix := s.msix, outbound := (s.asksPage die e).outbound })⟩
    · unfold FaultEnt.joined
      rw [if_pos h]
    · refine (if_pos h).trans ?_
      show (s.asksPage die e).modDie die _ = _
      rw [hsame]
      rfl
  · refine ⟨((s.asksPage die e).signal e.ctx).msix, (s.asksPage die e).outbound, _, ?_, (?_ : _ = { s.modDie die (fun d =>
      { d with faults := d.faults ++ [e] }) with msix := ((s.asksPage die e).signal e.ctx).msix, outbound := (s.asksPage die e).outbound })⟩
    · unfold FaultEnt.joined
      rw [if_neg h]
    · refine (if_neg h).trans ((if_pos hroom).trans ?_)
      show ((s.asksPage die e).signal e.ctx).modDie die _ = _
      rw [signal_msix]
      generalize ((s.asksPage die e).signal e.ctx).msix = m
      rw [hsame]
      rfl

/-- A waiting page fault enters the buffer (10 R210). -/
theorem exec_faultBufferSlotFree {s : State} {die n : Nat} {e : FaultEnt} {rest : List (Nat × FaultEnt)}
    (hw : (s.die die).faultWait = (n, e) :: rest) (hroom : (s.die die).faults.length < Config.faultBufSize) :
    exec (.faultBufferSlotFree die) s = .next ((s.modDie die (fun d => { d with faultWait := rest })).recordFault die e) := by
  show execFaultBufferSlotFree die s = _
  unfold execFaultBufferSlotFree
  simp only [hw, hroom, decide_true, Bool.or_true, if_true]

/- Completions of commands. -/

theorem reply_done {s : State} {fn q : Nat} {p : QPair} (cid status : Nat) (r : Option Nat) (hp : tget s.queues (qkey fn q) = some p) :
    ∃ y, tget (s.reply fn q cid status r).queues (qkey fn q) = some { p with done := p.done ++ [y] } ∧ y.cid = cid ∧ y.status = status := by
  refine ⟨{ cid := cid, status := status, r1 := match r with | some n => BitVec.ofNat 32 n | none => Config.freeWord s.fresh,
            r2 := Config.freeWord (s.fresh + 1), r3 := Config.freeWord (s.fresh + 2) }, ?_, rfl, rfl⟩
  show tget (tmod s.queues (qkey fn q) _) (qkey fn q) = _
  rw [tget_tmod_self, hp]
  rfl

/- Shootdown (10 R208, R209). -/

/-- Nothing but copies and bad words of dies differs. -/
structure DropsCopies (s t : State) : Prop where
  rest : t = { s with dies := t.dies }
  tlb : ∀ d, (t.die d).tlb = (s.die d).tlb

theorem DropsCopies.trans {a b c : State} (h1 : DropsCopies a b) (h2 : DropsCopies b c) : DropsCopies a c :=
  ⟨by rw [h2.rest, h1.rest], fun d => (h2.tlb d).trans (h1.tlb d)⟩

theorem DropsCopies.foldl {α : Type} (f : State → α → State) (hf : ∀ s a, DropsCopies s (f s a)) (l : List α) (s : State) :
    DropsCopies s (l.foldl f s) := by
  induction l generalizing s with
  | nil => exact ⟨rfl, fun _ => rfl⟩
  | cons a l ih => exact (hf s a).trans (ih (f s a))

theorem tlb_modDie {s : State} {k d : Nat} {f : Die → Die} (hf : ∀ x, (f x).tlb = x.tlb) : ((s.modDie k f).die d).tlb = (s.die d).tlb := by
  rw [die_modDie]
  split
  · next h => rw [h, hf]
  · rfl

theorem dropCopy_drops (s : State) (die line : Nat) : DropsCopies s (s.dropCopy die line) := by
  unfold State.dropCopy
  simp only
  split
  · exact ⟨rfl, fun _ => rfl⟩
  · refine ⟨rfl, fun d => ?_⟩
    rw [tlb_modDie, tlb_modDie]
    · exact fun _ => rfl
    · exact fun _ => rfl

/-- A list of translations without those of one mapping. -/
def withoutMapping (cx : Nat) (m : Mapping) (l : List (Nat × Mapping)) : List (Nat × Mapping) := l.filter (fun e => !(e.1 == cx && e.2 == m))

theorem withoutMapping_not_mem (cx : Nat) (m : Mapping) (l : List (Nat × Mapping)) : (cx, m) ∉ withoutMapping cx m l := by
  simp [withoutMapping]

/-- The TLBs without a mapping. -/
def State.shotDown (s : State) (cx : Nat) (m : Mapping) : State :=
  { s with dies := s.dies.map (fun d => { d with tlb := withoutMapping cx m d.tlb }),
           cores := s.cores.map (fun c => { c with tlb := withoutMapping cx m c.tlb, ptlbs := c.ptlbs.map (withoutMapping cx m) }) }

theorem nth_map {α β : Type} (l : List α) (f : α → β) {i : Nat} (d : α) (e : β) (h : i < l.length) : nth (l.map f) i e = f (nth l i d) := by
  simp [nth, h]

/-- The die copies of a mapping's lines are dropped. -/
def State.dropsMapping (s : State) (m : Mapping) : State :=
  (List.range 5).foldl (fun s d =>
    (((s.die d).copies.map Prod.fst).filter (fun l => m.meetsPa (l * 128) 128)).foldl (fun s l => s.dropCopy d l) s) s

theorem dropsMapping_drops (s : State) (m : Mapping) : DropsCopies s (s.dropsMapping m) :=
  DropsCopies.foldl _ (fun s d => DropsCopies.foldl _ (fun s l => dropCopy_drops s d l) _ s) _ s

theorem exec_tlbShootdownComplete {s : State} {cx fn q cid : Nat} {c : Ctx} {m : Mapping} {rest : List (Mapping × Nat × Nat × Nat)}
    (hc : tget s.ctxs cx = some c) (hsh : c.shoot = (m, fn, q, cid) :: rest) (hfl : s.inFlight cx m = false) :
    exec (.tlbShootdownComplete cx) s
      = .next ((((s.shotDown cx m).dropsMapping m).modCtx cx (fun c => { c with shoot := rest })).reply fn q cid 0 none) := by
  show execTlbShootdownComplete cx s = _
  unfold execTlbShootdownComplete
  rw [hc]
  simp only [hsh, hfl, Bool.false_eq_true, if_false]
  rfl

/-- Settles O37: what each of the five steps does, by the lemmas above. -/
theorem cacheSteps : Obligations.CacheSteps := by
  unfold Obligations.CacheSteps
  intro core slot s k
  refine ⟨fun w lines inv hw hwait ho => ?_, fun w i rest hw hi he => ?_, fun line hb hp hc => ⟨fun hh hn => ?_, fun hh hn => ?_⟩,
    fun die n e rest hw hroom => ?_, fun cx c m fn q cid rest hc hsh hfl => ?_⟩
  · have hwb := writeBacks_spec core lines s
    have hws : ∀ t : State, t.warps = s.warps → tget (t.modWarp k (fun w => { w with wait := .none })).warps k = some { w with wait := .none } := by
      intro t ht
      rw [modWarp_warps, tget_tmod_self, ht, hw]
      rfl
    refine ⟨_, exec_cctlWbAck hw hwait ho, ?_⟩
    cases inv with
    | false =>
      refine ⟨by rw [if_neg Bool.false_ne_true, hwb.rest]; rfl, hws _ (by rw [if_neg Bool.false_ne_true, hwb.rest]), fun h => absurd h Bool.false_ne_true,
        fun _ => ⟨?_, ?_⟩⟩
      · rw [if_neg Bool.false_ne_true, hwb.rest]; rfl
      · exact fun d => ⟨hwb.copies d, hwb.vec d⟩
    | true =>
      have hls : Loses core s (lines.foldl (fun s l => s.writeBack core l) s) := Loses.foldl _ (fun s l => writeBack_loses s core l) lines s
      have hdl := hls.trans (Loses.foldl (fun s l => s.dropLine core l) (fun s l => (dropLine_spec s core l).1) lines _)
      refine ⟨by rw [if_pos rfl]; unfold State.dropLines; rw [hdl.rest]; rfl, hws _ (by rw [if_pos rfl]; unfold State.dropLines; rw [hdl.rest]),
        fun _ n hn => ?_, fun h => absurd h (by decide)⟩
      obtain ⟨h1, h2⟩ := dropLines_spec core lines (lines.foldl (fun s l => s.writeBack core l) s) n hn
      exact ⟨h1, fun hh hb => h2 hh fun x hx => hb x (hls.bad x hx)⟩
  · refine ⟨(s.dropCode i.1).modWarp k (fun w => w.icinvDone rest), w.icinvDone rest, exec_icinvComplete hw hi he, rfl,
      fun c hc => core_dropCode s i.1 c hc, ?_, ?_, ?_⟩
    · show tget (tmod s.warps k _) k = _
      rw [tget_tmod_self, hw]
      rfl
    · exact (icinvDone_spec w rest).1
    · exact (icinvDone_spec w rest).2
  · refine ⟨_, exec_instructionFetchFill hb hp hc (by rw [hh]; exact hn), (fillCode_spec ..).1, ?_⟩
    rw [hh, (fillCode_spec ..).2]
    exact ⟨storeLine_line .., rfl, fun hl hx => storeLine_length _ _ _ hl fun _ => hx⟩
  · refine ⟨_, exec_instructionFetchFill hb hp hc (by rw [hh]; exact hn), (fillCode_spec ..).1, ?_⟩
    rw [hh, (fillCode_spec ..).2]
    refine ⟨storeLine_line .., rfl, fun hl => storeLine_length _ _ _ hl fun h64 => ?_⟩
    obtain ⟨x, hx⟩ := List.exists_mem_of_length_pos (show 0 < (s.core core).hbuf.length by omega)
    exact ⟨x, hx, rfl⟩
  · have hd : (s.modDie die (fun d => { d with faultWait := rest })).die die = { s.die die with faultWait := rest } := die_modDie_self ..
    obtain ⟨m, o, f, hf, he⟩ := recordFault_room (s := s.modDie die (fun d => { d with faultWait := rest })) e (by rw [hd]; exact hroom)
    have ht : ((s.modDie die (fun d => { d with faultWait := rest })).recordFault die e).die die
        = { s.die die with faultWait := rest, faults := e.joined (s.die die).faults } := by
      rw [he]
      refine (die_modDie_self ..).trans (hf.trans ?_)
      rw [hd]
    refine ⟨_, exec_faultBufferSlotFree hw hroom, ?_, by rw [ht], by rw [ht]; exact joined_has e _⟩
    rw [he]
    rfl
  · have hdrop := dropsMapping_drops (s.shotDown cx m) m
    have hexec := exec_tlbShootdownComplete hc hsh hfl
    generalize (s.shotDown cx m).dropsMapping m = t at hdrop hexec
    have hctxs : t.ctxs = s.ctxs := by rw [hdrop.rest]; rfl
    have hcores : t.cores = (s.shotDown cx m).cores := by rw [hdrop.rest]
    have hqueues : t.queues = s.queues := by rw [hdrop.rest]; rfl
    refine ⟨_, hexec, ?_, ?_, fun d hd => ?_, fun d hd => ?_, fun p hp => ?_⟩
    · show tget (tmod t.ctxs cx _) cx = _
      rw [hctxs, tget_tmod_self, hc]
      rfl
    · show t.mem = s.mem
      rw [hdrop.rest]
      rfl
    · show _ ∉ (t.die d).tlb
      rw [hdrop.tlb]
      show _ ∉ (nth (s.dies.map _) d Die.init).tlb
      rw [nth_map _ _ Die.init _ hd]
      exact withoutMapping_not_mem cx m _
    · have hcore : t.core d = { s.core d with tlb := withoutMapping cx m (s.core d).tlb, ptlbs := (s.core d).ptlbs.map (withoutMapping cx m) } := by
        unfold State.core
        rw [hcores]
        exact nth_map _ _ CoreSt.init _ hd
      show _ ∉ (t.core d).tlb ∧ ∀ l ∈ (t.core d).ptlbs, _ ∉ l
      rw [hcore]
      refine ⟨withoutMapping_not_mem cx m _, fun l hl => ?_⟩
      obtain ⟨l', -, rfl⟩ := List.mem_map.mp hl
      exact withoutMapping_not_mem cx m l'
    · exact reply_done (s := t.modCtx cx (fun c => { c with shoot := rest })) cid 0 none ((congrArg (tget · _) hqueues).trans hp)

end Sys2Proof.Machine
end

