-- ==== Sys2Proof/Proofs/Placing.lean ====
section
/-! PROOFS. Where blocks are placed, the steal protocol and the fabric steps (01 R15, R32, R37, R38; 15 R257). -/

namespace Sys2Proof.Machine

/- Free slots: the search finds one where one is, and each warp takes one. -/

theorem warpKey_inj {core a b : Nat} (h : warpKey core a = warpKey core b) : a = b := Nat.add_left_cancel h

/-- The search visits every slot. -/
theorem freeSlot_some {s : State} {core wid : Nat} (h : 0 < s.freeSlots core) :
    ∃ slot, s.freeSlot core wid = some slot ∧ slot < 64 ∧ s.slotFree core slot = true := by
  obtain ⟨x, hx⟩ := List.exists_mem_of_length_pos h
  obtain ⟨hx64, hfree⟩ := List.mem_filter.mp hx
  have hx64 : x < 64 := List.mem_range.mp hx64
  have hin : x ∈ (List.range 4).flatMap (fun i => (List.range 16).map (fun j => (wid + i) % 4 + 4 * j)) := by
    refine List.mem_flatMap.mpr ⟨(x + 4 - wid % 4) % 4, List.mem_range.mpr (by omega), List.mem_map.mpr ⟨x / 4, List.mem_range.mpr (by omega), ?_⟩⟩
    omega
  obtain ⟨slot, hs⟩ := Option.isSome_iff_exists.mp (List.find?_isSome.mpr ⟨x, hin, hfree⟩)
  refine ⟨slot, hs, ?_, List.find?_some hs⟩
  obtain ⟨i, -, hm⟩ := List.mem_flatMap.mp (List.mem_of_find?_eq_some hs)
  obtain ⟨j, hj, rfl⟩ := List.mem_map.mp hm
  have := List.mem_range.mp hj
  omega

/-- A warp put into a slot takes that slot only. -/
theorem slotFree_put (s : State) (core slot j : Nat) (w : Warp) :
    State.slotFree { s with warps := tput s.warps (warpKey core slot) w } core j = (j != slot && s.slotFree core j) := by
  unfold State.slotFree
  by_cases h : j = slot
  · subst h
    simp
  · have hk : warpKey core j ≠ warpKey core slot := fun e => h (warpKey_inj e)
    simp [h, tget_tput_ne _ _ hk]

theorem freeSlots_put (s : State) (core slot : Nat) (w : Warp) :
    s.freeSlots core ≤ State.freeSlots { s with warps := tput s.warps (warpKey core slot) w } core + 1 := by
  unfold State.freeSlots
  have hnd : ((List.range 64).filter (s.slotFree core)).Nodup := List.nodup_range.filter _
  have he : (List.range 64).filter (fun j => j != slot && s.slotFree core j) = ((List.range 64).filter (s.slotFree core)).erase slot := by
    rw [hnd.erase_eq_filter, List.filter_filter]
  rw [show (List.range 64).filter (State.slotFree { s with warps := tput s.warps (warpKey core slot) w } core)
    = (List.range 64).filter (fun j => j != slot && s.slotFree core j) from List.filter_congr fun j _ => slotFree_put s core slot j w, he,
    List.length_erase]
  split <;> omega

/-- Warps 0 to n - 1 stand in slots that were free, and no warp has moved. -/
structure Placed (s : State) (core : Nat) (mk : Nat → Warp) (n : Nat) (t : State) : Prop where
  rest : t = { s with warps := t.warps }
  kept : ∀ k w, tget s.warps k = some w → tget t.warps k = some w
  placed : ∀ wid, wid < n → ∃ slot, slot < 64 ∧ s.slotFree core slot = true ∧ tget t.warps (warpKey core slot) = some (mk wid)
  free : s.freeSlots core ≤ t.freeSlots core + n

theorem slotFree_of_kept {s t : State} {core slot : Nat} (hr : t = { s with warps := t.warps })
    (hk : ∀ k w, tget s.warps k = some w → tget t.warps k = some w) (h : t.slotFree core slot = true) : s.slotFree core slot = true := by
  have hb : t.blocks = s.blocks := by rw [hr]
  simp only [State.slotFree, Bool.and_eq_true, Option.isNone_iff_eq_none, hb] at h ⊢
  obtain ⟨⟨hd, hw⟩, hs⟩ := h
  refine ⟨⟨hd, ?_⟩, hs⟩
  cases hc : tget s.warps (warpKey core slot) with
  | none => rfl
  | some w => rw [hk _ w hc] at hw; exact absurd hw (by simp)

/-- The warps of a block are placed one after another while slots are free (01 R15). -/
theorem placeWarps {s : State} {core : Nat} {mk : Nat → Nat → Warp} (n : Nat) (hn : n ≤ s.freeSlots core) :
    Placed s core (mk s.issueCount) n ((List.range n).foldl (fun t wid => t.placeWarp core (mk t.issueCount wid)) s) := by
  induction n with
  | zero => exact ⟨rfl, fun _ _ h => h, fun _ h => absurd h (Nat.not_lt_zero _), Nat.le_refl _⟩
  | succ n ih =>
    obtain ⟨hrest, hkept, hplaced, hfree⟩ := ih (by omega)
    rw [List.range_succ, List.foldl_append, List.foldl_cons, List.foldl_nil]
    generalize (List.range n).foldl (fun t wid => t.placeWarp core (mk t.issueCount wid)) s = t at *
    have hi : t.issueCount = s.issueCount := by rw [hrest]
    rw [hi]
    obtain ⟨slot, hs, h64, hsf⟩ := freeSlot_some (wid := (mk s.issueCount n).wid) (show 0 < t.freeSlots core by omega)
    have hnone : tget t.warps (warpKey core slot) = none := by
      simp only [State.slotFree, Bool.and_eq_true, Option.isNone_iff_eq_none] at hsf
      exact hsf.1.2
    have hkeep : ∀ k w, tget t.warps k = some w → tget (tput t.warps (warpKey core slot) (mk s.issueCount n)) k = some w := by
      intro k w hw
      have hk : k ≠ warpKey core slot := fun e => by rw [e, hnone] at hw; exact absurd hw (by simp)
      rw [tget_tput_ne _ _ hk, hw]
    have hp : t.placeWarp core (mk s.issueCount n) = { t with warps := tput t.warps (warpKey core slot) (mk s.issueCount n) } := by
      unfold State.placeWarp
      rw [hs]
    rw [hp]
    refine ⟨by rw [hrest], fun k w h => hkeep k w (hkept k w h), fun wid hw => ?_, ?_⟩
    · rcases Nat.lt_succ_iff_lt_or_eq.mp hw with hlt | rfl
      · obtain ⟨sl, h1, h2, h3⟩ := hplaced wid hlt
        exact ⟨sl, h1, h2, hkeep _ _ h3⟩
      · exact ⟨slot, h64, slotFree_of_kept hrest hkept hsf, tget_tput_self _ _ _⟩
    · have := freeSlots_put t core slot (mk s.issueCount n)
      omega

/- A block starts (01 R15). -/

/-- A block of a grid starts with its warps in slots that were free. -/
structure BlockStarts (s : State) (gk : Nat) (g : Grid) (core bid : Nat) (clk : VC) (t : State) : Prop where
  block : ∀ j, t.blk? j = if j = s.nextKey then
      some (Block.start gk bid (bid % g.rec_.csize) core g.rec_.bwarps g.rec_.pclass g.rec_.poolw g.rec_.args clk s.tsc) else s.blk? j
  kept : ∀ k w, tget s.warps k = some w → tget t.warps k = some w
  placed : ∀ wid, wid < g.rec_.bwarps → ∃ slot, slot < 64 ∧ s.slotFree core slot = true
    ∧ tget t.warps (warpKey core slot) = some (Warp.start s.nextKey wid true g.ceils.length g.rec_.args g.rec_.entry clk s.issueCount)

theorem any_tput_of_none {α : Type} {t : Tbl α} {k : Nat} {v : α} (p : Nat × α → Bool) (h : tget t k = none) (hv : p (k, v) = false) :
    (tput t k v).any p = t.any p := by
  induction t with
  | nil => simp [tput, hv]
  | cons x t ih =>
    obtain ⟨j, u⟩ := x
    simp only [tget] at h
    by_cases hj : j = k
    · rw [if_pos hj] at h; exact absurd h (by simp)
    · rw [if_neg hj] at h
      by_cases hlt : k < j
      · simp [tput, hlt, hv]
      · simp [tput, hlt, Ne.symm hj, ih h]

theorem slotFree_congr {s t : State} (hw : t.warps = s.warps)
    (hb : ∀ core slot, t.blocks.any (fun x => x.2.core == core && x.2.slots.contains slot) = s.blocks.any (fun x => x.2.core == core && x.2.slots.contains slot))
    (core slot : Nat) : t.slotFree core slot = s.slotFree core slot := by
  simp only [State.slotFree, hw, hb]

theorem wakeColumn_cols {s : State} {col : Nat} (pclass : Nat) (h : (s.col col).gated = false) :
    ∃ cs, s.wakeColumn col pclass = { s with cols := cs } := by
  unfold State.wakeColumn
  simp only
  rw [if_neg (by rw [col_modCol, if_pos rfl]; split <;> simp [h])]
  exact ⟨_, rfl⟩

/-- A block stands under the next key, and its column has moved. -/
def State.begun (s : State) (core : Nat) (b : Block) : State := { s.noteMove core with nextKey := s.nextKey + 1, blocks := tput s.blocks s.nextKey b }

theorem startBlock_eq (s : State) (gk : Nat) (g : Grid) (core bid bwarps pclass : Nat) (entry : W64) (args : List W32) (clk : VC) :
    s.startBlock gk g core bid bwarps pclass entry false args clk = (List.range bwarps).foldl
      (fun t wid => t.placeWarp core (Warp.start s.nextKey wid true g.ceils.length args entry clk t.issueCount))
      (s.begun core (Block.start gk bid (bid % g.rec_.csize) core bwarps pclass g.rec_.poolw args clk s.tsc)) := rfl

theorem begun_slotFree {s : State} {core : Nat} {b : Block} (hk : s.blk? s.nextKey = none) (hb : b.slots = []) (slot : Nat) :
    (s.begun core b).slotFree core slot = s.slotFree core slot :=
  slotFree_congr (s := s) (t := s.begun core b) rfl (fun _ _ => any_tput_of_none _ hk (by simp [hb])) core slot

/-- A launch's block takes the next key and starts, where the core has its warps' slots. -/
theorem placeBlock_starts {s : State} {gk core bid : Nat} {g : Grid} {r : Range} (hc : r.child = none) (hk : s.blk? s.nextKey = none)
    (hg : (s.col (coreColumn core)).gated = false) (hf : g.rec_.bwarps ≤ s.freeSlots core) :
    ∃ t, s.placeBlock gk g core bid r = t ∧ BlockStarts s gk g core bid r.clk t
    ∧ t = { s with blocks := t.blocks, warps := t.warps, cols := t.cols, nextKey := s.nextKey + 1 } := by
  obtain ⟨cs, hcs⟩ := wakeColumn_cols g.rec_.pclass hg
  unfold State.placeBlock
  simp only [hc, hcs, startBlock_eq]
  have hfree := begun_slotFree (s := { s with cols := cs }) (core := core)
    (b := Block.start gk bid (bid % g.rec_.csize) core g.rec_.bwarps g.rec_.pclass g.rec_.poolw g.rec_.args r.clk s.tsc) hk rfl
  have hp := placeWarps (s := State.begun { s with cols := cs } core
      (Block.start gk bid (bid % g.rec_.csize) core g.rec_.bwarps g.rec_.pclass g.rec_.poolw g.rec_.args r.clk s.tsc)) (core := core)
    (mk := fun now wid => Warp.start s.nextKey wid true g.ceils.length g.rec_.args g.rec_.entry r.clk now) g.rec_.bwarps
    (by unfold State.freeSlots; rw [funext hfree]; exact hf)
  obtain ⟨hrest, hkept, hplaced, -⟩ := hp
  refine ⟨_, rfl, ⟨fun j => ?_, hkept, fun wid hw => ?_⟩, ?_⟩
  · unfold State.blk?
    rw [hrest]
    exact tget_tput s.blocks s.nextKey j _
  · obtain ⟨slot, h1, h2, h3⟩ := hplaced wid hw
    exact ⟨slot, h1, (hfree slot).symm.trans h2, h3⟩
  · rw [hrest]
    rfl

/- Sites (01 R32). -/

theorem siteIn_fits {s : State} {col csize warps core : Nat} {poolw : W32} {avoid : List Nat} (h : s.siteIn col csize warps poolw avoid = some [core]) :
    warps ≤ s.freeSlots core := by
  unfold State.siteIn at h
  split at h
  · exact absurd h (by simp)
  · have hp := List.find?_some h
    simp only [List.all_cons, List.all_nil, Bool.and_true, Bool.and_eq_true] at hp
    obtain ⟨hfits, -⟩ := hp
    simp only [State.coreFits, Bool.and_eq_true, decide_eq_true_eq] at hfits
    exact hfits.2

theorem site_fits {s : State} {die csize warps pclass core : Nat} {poolw : W32} {avoid : List Nat}
    (h : s.site die csize warps pclass poolw avoid = some [core]) : warps ≤ s.freeSlots core := by
  unfold State.site at h
  obtain ⟨r, -, hr⟩ := List.mem_filterMap.mp (List.mem_of_mem_head? h)
  obtain ⟨c, -, hc⟩ := List.mem_filterMap.mp (List.mem_of_mem_head? hr)
  split at hc
  · exact siteIn_fits hc
  · exact absurd hc (by simp)

theorem placeCluster_one (s : State) (gk : Nat) (g : Grid) (core bid : Nat) (r : Range) :
    s.placeCluster gk g [core] bid 1 r = s.placeBlock gk g core bid r := rfl

theorem takeBlocks_one (r : Range) : takeBlocks [r] r 1 = if r.lo + 1 < r.hi then [{ r with lo := r.lo + 1 }] else [] := by
  simp [takeBlocks]

/-- The one range of a die, of a launch whose cluster of one fits, has its first block placed (01 R32, R37). -/
theorem exec_blockPlace {s : State} {die core : Nat} {r : Range} {g : Grid} (hr : (s.die die).ranges = [r]) (hc : r.child = none)
    (hg : tget s.grids r.grid = some g) (ht : g.rec_.travel = false) (h1 : g.rec_.csize = 1) (hp : s.mayPlace g = true)
    (hd : s.dieServes die g.rec_ = true) (hs : s.siteFor die g r = some [core]) :
    exec (.blockPlace die) s = .next ((s.modDie die (fun d => { d with ranges := takeBlocks d.ranges r 1 })).placeBlock r.grid g core r.lo r) := by
  show execBlockPlace die s = _
  have hn : r.csize g = 1 := by simp [Range.csize, hc, h1]
  unfold execBlockPlace
  simp only [hr, sortRanges, List.foldl_cons, List.foldl_nil, insertRange, List.filterMap_cons, List.filterMap_nil, hg, hp, hd, hs,
    Bool.and_self, if_true, Option.map_some, List.head?_cons, hn, ht, Bool.false_and, Bool.false_eq_true, if_false, placeCluster_one]

theorem coopWaits {s : State} {gk : Nat} {g : Grid} (hg : tget s.grids gk = some g) (hc : g.rec_.coop = true) (hw : g.state = .waiting)
    (ha : g.accepted = true) (hh : g.held = false) (hb : s.boardsFree g = true) :
    exec (.coopPlace gk) s = match s.placeAll gk g 0 (g.rec_.gblocks / g.rec_.csize) with
      | none => .next s
      | some s => .next (s.modGrid gk (fun g => { g with state := .running })) := by
  show execCoopPlace gk s = _
  unfold execCoopPlace
  simp only [hg, hc, hw, ha, hh, hb]
  rfl

/-- The one block of a cooperative launch, as a range. -/
def Grid.wholeRange (g : Grid) (gk : Nat) : Range :=
  { grid := gk, lo := 0, hi := 0, prio := 0, order := g.order, child := none, clk := g.launchVec }

theorem placeAll_one {s : State} {gk core : Nat} {g : Grid} (hd : s.dieServes 0 g.rec_ = true) (hc : g.rec_.csize = 1)
    (hs : s.site 0 1 g.rec_.bwarps g.rec_.pclass g.rec_.poolw (s.promised g.order) = some [core]) :
    s.placeAll gk g 0 1 = some (s.placeBlock gk g core 0 (g.wholeRange gk)) := by
  have hhead : ((List.range 4).filterMap (fun d =>
      if s.dieServes d g.rec_ then s.site d g.rec_.csize g.rec_.bwarps g.rec_.pclass g.rec_.poolw (s.promised g.order) else none)).head?
      = some [core] := by
    rw [show List.range 4 = 0 :: [1, 2, 3] from rfl, List.filterMap_cons]
    simp only [hd, hc, if_true, hs, List.head?_cons]
  rw [State.placeAll]
  simp only [hhead]
  rw [hc, placeCluster_one, State.placeAll]
  rfl

/-- A step that changes one die. -/
theorem turns_of {s : State} {i : Instr} {thief : Nat} {f : Die → Die} (h : exec i s = .next (s.modDie thief f)) :
    ∃ t, exec i s = .next t ∧ t = { s with dies := t.dies } ∧ ∀ j, t.die j = if j = thief then f (s.die thief) else s.die j :=
  ⟨_, h, rfl, fun j => die_modDie s thief j f⟩

/- The steal protocol (01 R38). -/

theorem exec_stealRequest {s : State} {victim thief gk : Nat} {g : Grid} {r : Range} (h4 : thief < 4)
    (hbusy : ∀ d, d < thief → (s.die d).ranges ≠ []) (hidle : (s.die thief).ranges = []) (hst : (s.die thief).steal = .idle)
    (htgt : s.target thief = some (workKey gk r.prio, victim)) (hg : tget s.grids gk = some g) (hr : r.grid = gk)
    (hc : r.child = none) (hv : (s.die victim).ranges = [r]) (hpos : 0 < g.rec_.csize) (h2 : 2 * g.rec_.csize ≤ r.hi - r.lo) :
    exec (.stealRequest victim) s = .next
      ((s.modDie victim (fun d => { d with ranges := [{ r with hi := r.hi - (r.hi - r.lo) / 2 / g.rec_.csize * g.rec_.csize }] })).modDie thief
        (fun d => { d with steal := .reply gk (some { r with lo := r.hi - (r.hi - r.lo) / 2 / g.rec_.csize * g.rec_.csize }) })) := by
  show execStealRequest victim s = _
  have hfind : (List.range 4).find? (fun d => (s.die d).ranges.isEmpty && (s.die d).steal == .idle && (s.target d).any (fun x => x.2 == victim))
      = some thief := by
    rw [List.find?_range_eq_some]
    refine ⟨by simp [hidle, hst, htgt], List.mem_range.mpr h4, fun d hd => ?_⟩
    simp [hbusy d hd]
  have hkey : workKey gk r.prio / 8 = gk := by unfold workKey; omega
  have hsum : ¬ (r.hi - r.lo) / g.rec_.csize < 2 := Nat.not_lt.mpr ((Nat.le_div_iff_mul_le hpos).mpr h2)
  have hle : ¬ r.hi - r.lo ≤ g.rec_.csize := by omega
  have hshare : shareOf [r] (workKey gk r.prio) g.rec_.csize = some ({ r with lo := r.hi - (r.hi - r.lo) / 2 / g.rec_.csize * g.rec_.csize },
      [{ r with hi := r.hi - (r.hi - r.lo) / 2 / g.rec_.csize * g.rec_.csize }]) := by
    simp [shareOf, Range.work, hr, hc, hsum, hle]
  unfold execStealRequest
  simp only [hfind, htgt, hkey, hg, hv, hshare]

/- Fabric domains (15 R257). -/

theorem exec_fabricStepChange_judged {s : State} {domain occ : Nat} (h : (s.die domain).fjudged < s.frame) :
    exec (.fabricStepChange domain occ) s = .next (s.modDie domain (fun d => d.judgeFrame s.frame occ)) := by
  show execFabricStepChange domain occ s = _
  unfold execFabricStepChange
  rw [if_neg (Nat.not_le.mpr h)]

/-- A die with a step and its counts of busy and quiet frames. -/
def Die.judged (d : Die) (frame st hi lo : Nat) : Die := { d with fstep := st, fhigh := hi, flow := lo, fjudged := frame }

/-- The frames counted when a frame is judged: those of the frame before it. -/
def Die.counted (d : Die) (frame n : Nat) : Nat := if d.fjudged + 1 = frame then n else 0

theorem judgeFrame_eq (d : Die) (frame occ : Nat) : d.judgeFrame frame occ =
    if 500 < occ then
      (if 1 ≤ d.counted frame d.fhigh then d.judged frame (min 7 (d.fstep + 1)) 0 0 else d.judged frame d.fstep (d.counted frame d.fhigh + 1) 0)
    else if occ < 125 then
      (if 7 ≤ d.counted frame d.flow then d.judged frame (d.fstep - 1) 0 0 else d.judged frame d.fstep 0 (d.counted frame d.flow + 1))
    else d.judged frame d.fstep 0 0 := by
  unfold Die.judgeFrame Die.counted Die.judged
  by_cases h : d.fjudged + 1 = frame
  · simp [h]
  · simp [h]

/-- Settles O41: each step of the placement, of the steal protocol and of the fabric domains, by the lemmas above. -/
theorem placementSteps : Obligations.PlacementSteps := by
  unfold Obligations.PlacementSteps
  intro starts
  have hstarts : ∀ {s gk g core bid clk t}, BlockStarts s gk g core bid clk t → starts s gk g core bid clk t :=
    fun h => ⟨h.block, h.kept, h.placed⟩
  refine ⟨fun die core s r g hr hc hg hk ht h1 hp hd hs hcol => ?_, fun gk core s g hg hc hw ha hh hb => ⟨fun hn => ?_, fun hone h1 hd hcol hk hs => ?_⟩,
    fun victim thief gk s g r h4 hbusy hidle hst htgt hne hg hr hc hv hpos h2 => ?_, fun thief s => ⟨fun gk r h => ?_, fun gk h => ?_, fun u h hu => ?_⟩,
    fun domain occ s => ⟨fun h => ?_, fun h => ?_⟩⟩
  · have hfits : g.rec_.bwarps ≤ s.freeSlots core := by
      unfold State.siteFor at hs
      rw [ht, Bool.false_and, if_neg Bool.false_ne_true] at hs
      simpa [Range.warps, hc] using site_fits hs
    obtain ⟨t, hplace, hst, hrest⟩ := placeBlock_starts (s := s.modDie die (fun d => { d with ranges := takeBlocks d.ranges r 1 }))
      (gk := r.grid) (core := core) (bid := r.lo) (g := g) hc hk hcol hfits
    refine ⟨t, (exec_blockPlace hr hc hg ht h1 hp hd hs).trans (congrArg Host.Outcome.next hplace), hstarts ⟨hst.block, hst.kept, hst.placed⟩, ?_, ?_⟩
    · rw [hrest]
      rfl
    · have hdie : t.die die = (s.modDie die (fun d => { d with ranges := takeBlocks d.ranges r 1 })).die die := by rw [hrest]; rfl
      rw [hdie, die_modDie_self]
      show takeBlocks (s.die die).ranges r 1 = _
      rw [hr, takeBlocks_one]
  · rw [coopWaits hg hc hw ha hh hb, hn]
  · obtain ⟨t, hplace, hst, hrest⟩ := placeBlock_starts (s := s) (gk := gk) (core := core) (bid := 0) (g := g) (r := g.wholeRange gk) rfl hk hcol
      (site_fits hs)
    have hall : s.placeAll gk g 0 (g.rec_.gblocks / g.rec_.csize) = some t := by
      rw [hone, h1, ← hplace]
      exact placeAll_one hd h1 hs
    refine ⟨t.modGrid gk (fun g => { g with state := .running }), by rw [coopWaits hg hc hw ha hh hb, hall], hstarts ⟨hst.block, hst.kept, hst.placed⟩, ?_⟩
    rw [modGrid_grids, tget_tmod_self, show t.grids = s.grids by rw [hrest], hg]
    rfl
  · refine ⟨_, exec_stealRequest h4 hbusy hidle hst htgt hg hr hc hv hpos h2, rfl, ?_, ?_, fun d hd1 hd2 => ?_⟩
    · rw [die_modDie, if_neg hne, die_modDie_self]
    · rw [die_modDie_self]
    · rw [die_modDie, if_neg hd2, die_modDie, if_neg hd1]
  · refine turns_of (f := fun d => { d with ranges := d.ranges ++ [r], steal := .idle }) ?_
    show execStealReply thief s = _
    unfold execStealReply
    rw [h]
  · refine turns_of (f := fun d => { d with steal := .wait (s.tsc + 1000) }) ?_
    show execStealReply thief s = _
    unfold execStealReply
    rw [h]
  · refine turns_of (f := fun d => { d with steal := .idle }) ?_
    show execStealRetry thief s = _
    unfold execStealRetry
    rw [h]
    exact if_pos hu
  · show execFabricStepChange domain occ s = _
    exact if_pos h
  · have hx := exec_fabricStepChange_judged (occ := occ) h
    have hsteps : ∀ st hi lo, (s.die domain).judgeFrame s.frame occ = (s.die domain).judged s.frame st hi lo →
        ∃ t, exec (.fabricStepChange domain occ) s = .next t ∧ t = { s with dies := t.dies }
          ∧ ∀ j, t.die j = if j = domain then (s.die domain).judged s.frame st hi lo else s.die j := by
      intro st hi lo he
      rw [← he]
      exact turns_of hx
    refine ⟨fun h1 h2 => hsteps _ _ _ ?_, fun h1 h2 => hsteps _ _ _ ?_, fun h1 h2 => hsteps _ _ _ ?_, fun h1 h2 => hsteps _ _ _ ?_, fun h1 h2 => hsteps _ _ _ ?_⟩
    · rw [judgeFrame_eq, if_pos h1]
      exact if_pos h2
    · rw [judgeFrame_eq, if_pos h1, show (s.die domain).counted s.frame (s.die domain).fhigh = 0 from h2]
      rfl
    · rw [judgeFrame_eq, if_neg (by omega), if_pos h1]
      exact if_pos h2
    · rw [judgeFrame_eq, if_neg (by omega), if_pos h1]
      exact if_neg (Nat.not_le.mpr h2)
    · rw [judgeFrame_eq, if_neg (by omega), if_neg (by omega)]

end Sys2Proof.Machine
end

