-- ==== Sys2Proof/Proofs/Prefetching.lean ====
section
/-! PROOFS. What a prefetch asks of the host (06 R153; 20 R297). -/

namespace Sys2Proof.Machine

/-- A prefetch of one line, from thread 0. -/
def prefOp : Op :=
  { id := 0, kind := .pref [{ lane := 0, va := 0, bytes := 128, lds := false }], pc := 0, group := 1, act := 1, la := 15, since := 0,
    at_ := List.replicate 32 0, dst := [], whole := false, res := [], sup := [], flags := 0, gen := 0, done := false, fault := none,
    mark := none, rep := none }

/-- A warp whose only operation is a prefetch of a page that is mapped to the host's memory. -/
def hostPref : State :=
  { State.reset with
    ctxs := [(0, { plainCtx with maps := [{ va := 0, pa := hostBase, size := 4096, attr := 0x87 }] })],
    grids := [(1, plainGrid)], blocks := [(2, Block.start 1 0 0 0 1 0 plainLaunch.poolw [] .zero 0)],
    warps := [(0, { Warp.start 2 0 true 0 [] 0 .zero 0 with ops := [prefOp] })] }

/-- The addresses a step asks the host for. -/
def asks (o : Out) : List Nat :=
  match o with
  | .next t => t.outbound.map (fun x => x.addr)
  | .fault _ | .refused _ => []

theorem hostPref_asks : asks (exec (.longLatencyCompletion 0 0 0) hostPref) = [0] := by decide +kernel

/-- Refutes O34: a prefetch of a line of the host's own memory sends a read over the link when it completes, which the claim for a
PREF does not let change. -/
theorem not_longLatencyCompletes : ¬ Obligations.LongLatencyCompletes := by
  unfold Obligations.LongLatencyCompletes
  rintro ⟨h, -⟩
  obtain ⟨-, -, -, hpref, -⟩ := h 0 0 0 hostPref (w := { Warp.start 2 0 true 0 [] 0 .zero 0 with ops := [prefOp] }) (o := prefOp)
    (b := Block.start 1 0 0 0 1 0 plainLaunch.poolw [] .zero 0) (g := plainGrid) rfl rfl rfl rfl
  obtain ⟨t, hexec, -, hsame, -⟩ := hpref _ rfl
  have hasks := hostPref_asks
  rw [hexec, hsame] at hasks
  exact List.cons_ne_nil 0 [] hasks.symm

end Sys2Proof.Machine
end

