-- ==== Sys2Proof/Proofs/Windows.lean ====
section
/-! SUPPORT. Operations in a warp's window: what is issued stays there until it completes, and what a launch of one changes
(01 R24, R25). -/

namespace Sys2Proof.Machine

/- What an advance does to the window. -/

theorem goto_ops (w : Warp) (e : Nat) (f : Nat → W64) : (w.goto e f).ops = w.ops := by
  obtain ⟨⟨p, ls, h⟩, -, -⟩ := goto_spec w e f
  rw [h]

theorem nextRep_ops (w : Warp) : w.nextRep.ops = w.ops := by
  unfold Warp.nextRep
  simp only
  split <;> rfl

theorem trackHang_ops (w : Warp) (e : Nat) (p : Bool) (n : Nat) : (w.trackHang e p n).ops = w.ops := by
  unfold Warp.trackHang
  split
  · rfl
  · split <;> rfl

theorem stepStop_ops (s : State) (v : View) (w : Warp) : (s.stepStop v w).ops = w.ops := by
  unfold State.stepStop Warp.addAsync
  split
  · split <;> rfl
  · rfl

theorem moveOn_ops (v : View) (moved : Mask) (next : List W64) (w : Warp) (hl : v.grp &&& w.groupOf v.entry = v.grp) (hg : v.grp ≠ 0) :
    (v.moveOn moved next w).ops = w.ops := by
  unfold View.moveOn
  split
  · rfl
  · simp only [hl, hg, if_false]
    rw [nextRep_ops, goto_ops]

/-- An operation that is not done stays in the window (01 R25). -/
theorem advance_keeps {s : State} {v : View} (r : Req) (moved : Mask) (pcs : Nat → W64) {w : Warp} (hw : tget s.warps v.key = some w)
    (hl : v.grp &&& w.groupOf v.entry = v.grp) (hg : v.grp ≠ 0) :
    ∃ w1, tget (s.advance v r moved pcs).warps v.key = some w1 ∧ ∀ o ∈ w.ops, o.done = false → o ∈ w1.ops := by
  unfold State.advance
  simp only [hw, tget_tput_self]
  refine ⟨_, rfl, fun o ho hd => ?_⟩
  rw [stepStop_ops]
  unfold Warp.prune
  simp only [trackHang_ops]
  refine List.mem_filter.mpr ⟨?_, by simp [hd]⟩
  rw [moveOn_ops v _ _ (v.recordOn r _ s.issueCount w) hl hg]
  exact ho

/-- An effect that completes and leaves operations in the window: they are there when the group has gone on. -/
theorem issue_done_keeps {s : State} {h : Hdr} {v : View} {rq : View → Req} {eff : View → State → Eff} (hv : s.view h = some v)
    (hg : v.goes (rq v) = true) (hc : v.w.asyncCause = none) {s' : State} (he : eff v s = .done s') {w : Warp}
    (hw : tget s'.warps v.key = some w) (hl : w.lanes = v.w.lanes) :
    ∃ t w1, issue s h rq eff = .next t ∧ Passes s' v w (fun _ => v.next) t ∧ tget t.warps v.key = some w1
      ∧ ∀ o ∈ w.ops, o.done = false → o ∈ w1.ops := by
  have hgrp : v.grp &&& w.groupOf v.entry = v.grp := by
    have h1 : w.groupOf v.entry = v.w.groupOf v.entry := by simp [Warp.groupOf, hl]
    rw [h1, (view_spec hv).2.2.2.2.2.2.2.1]
    exact issuers_sub v.w v.entry
  have hgne := ((goes_iff v (rq v)).mp hg).1
  obtain ⟨w1, h1, h2⟩ := advance_keeps (rq v) (BitVec.allOnes 32) (fun _ => v.next) hw hgrp hgne
  obtain ⟨t, ht, hp⟩ := issue_done hv hg hc he hw hl
  have hx : issue s h rq eff = .next (s'.advance v (rq v) (BitVec.allOnes 32) (fun _ => v.next)) := by
    obtain ⟨-, w', h3, h4⟩ := advance_spec s' v (rq v) (BitVec.allOnes 32) (fun _ => v.next) w hw hgrp hgne
    rw [issue_goes hv hg, he]
    simp only [State.finish, hc, Option.isSome_none, Bool.false_eq_true, if_false]
    rw [retireWarp_live h3 h4]
  rw [hx] at ht
  obtain rfl := Host.Outcome.next.inj ht
  exact ⟨_, w1, hx, hp, h1, h2⟩

/- The launch of an operation (01 R24). -/

/-- The operation that an instruction enters with. -/
def View.opOf (v : View) (s : State) (h : Hdr) (kind : OpKind) (dst : List (Nat × Tag)) (res : List (List W32)) (fl : FFlags) : Op :=
  { id := s.nextKey, kind := kind, pc := v.pc, group := v.grp, act := v.act, la := h.la.toNat, since := s.tsc,
    at_ := v.w.count, dst := dst, whole := v.whole, res := res,
    sup := dst.map (fun d => (d.1, v.w.laterWrites d.1)), flags := fl, gen := (s.die v.die).gen, done := false,
    fault := none, mark := none, rep := v.w.rep }

theorem overtakes_ops (act : Mask) (dst : List (Nat × Tag)) (w : Warp) :
    dst.foldl (fun w d => w.overtake d.1 act) w = { w with ops := (dst.foldl (fun w d => w.overtake d.1 act) w).ops } := by
  induction dst generalizing w with
  | nil => rfl
  | cons d dst ih => rw [List.foldl_cons, ih]; rfl

/-- A launch puts its operation at the end of the window and takes its number; no other part of the machine changes. -/
theorem launchOp_spec {s : State} {v : View} (hw : tget s.warps v.key = some v.w) (h : Hdr) (kind : OpKind) (dst : List (Nat × Tag))
    (res : List (List W32)) (fl : FFlags) :
    ∃ ops, tget (v.launchOp s h kind dst res fl).warps v.key = some { v.w with ops := ops ++ [v.opOf s h kind dst res fl] }
      ∧ v.launchOp s h kind dst res fl = { s with warps := (v.launchOp s h kind dst res fl).warps, nextKey := s.nextKey + 1 }
      ∧ ∀ k, k ≠ v.key → tget (v.launchOp s h kind dst res fl).warps k = tget s.warps k := by
  refine ⟨(dst.foldl (fun w d => w.overtake d.1 v.act) v.w).ops, ?_, rfl, fun k hk => tget_tmod_ne _ _ hk⟩
  show tget (tmod s.warps v.key _) v.key = _
  rw [tget_tmod_self, hw, Option.map_some, overtakes_ops]
  rfl

/- Reading after one update per lane. -/

theorem nth_lputs {α : Type} (d : α) (f : α → α) {ls : List Nat} (hn : ls.Nodup) (xs : List α) (j : Nat) :
    nth (ls.foldl (fun xs l => lput xs l d f) xs) j d = if j ∈ ls then f (nth xs j d) else nth xs j d := by
  induction ls generalizing xs with
  | nil => rfl
  | cons l ls ih =>
    obtain ⟨hl, hn⟩ := List.nodup_cons.mp hn
    rw [List.foldl_cons, ih hn, nth_lput]
    by_cases hj : j = l
    · subst hj
      simp [hl]
    · simp [hj]

theorem nodup_lanesOf (m : Mask) : (lanesOf m).Nodup := List.nodup_range.filter _

theorem modClks_eq (w : Warp) (m : Mask) (f : Clk → Clk) :
    w.modClks m f = { w with clk := (lanesOf m).foldl (fun c l => lput c l (Clk.init .zero) f) w.clk } := by
  unfold Warp.modClks
  induction lanesOf m generalizing w with
  | nil => rfl
  | cons l ls ih => rw [List.foldl_cons, ih]; rfl

theorem clkAt_modClks (w : Warp) (m : Mask) (f : Clk → Clk) (l : Nat) :
    (w.modClks m f).clkAt l = if has m l = true then f (w.clkAt l) else w.clkAt l := by
  rw [modClks_eq]
  refine (nth_lputs _ f (nodup_lanesOf m) w.clk l).trans ?_
  simp only [mem_lanesOf]
  rfl

/-- The lanes that execute are of the group. -/
theorem view_act_sub {s : State} {h : Hdr} {v : View} (hv : s.view h = some v) {l : Nat} (hl : has v.act l = true) : has v.grp l = true := by
  obtain ⟨w, -, hv⟩ := Option.bind_eq_some_iff.mp hv
  obtain ⟨b, -, hv⟩ := Option.bind_eq_some_iff.mp hv
  obtain ⟨g, -, rfl⟩ := Option.map_eq_some_iff.mp hv
  simp only at hl ⊢
  split at hl
  · rw [has_and, Bool.and_eq_true] at hl
    exact hl.2
  · unfold Warp.guarded at hl
    rw [has_and, Bool.and_eq_true] at hl
    exact hl.1

end Sys2Proof.Machine
end

