-- ==== Sys2Proof/Proofs/Engine.lean ====
section
/-! PROOFS. MMRD, CMPRS and MMWAIT at issue (08 R170, R174, R175, R177; 01 R24). -/

namespace Sys2Proof.Machine

theorem Passes.flows {s s' x : State} {v : View} {w : Warp} {ops : List Op} {next : Nat → W64}
    (h : Passes s' v { w with ops := ops } next x) (hi : s'.issueCount = s.issueCount)
    (hk : ∀ k, k ≠ v.key → tget s'.warps k = tget s.warps k) : Flows s v w next x := by
  obtain ⟨w', e0, e1, e2, e3, e4, e5, e6⟩ := Passes.ops w.ops h
  refine ⟨w', ?_, fun k => ?_, e2, e3, e4, e5, fun _ _ => rfl⟩
  · show x = { x with warps := x.warps, issueCount := s.issueCount + 1 }
    rw [← hi, e0]
  · rw [e1 k]
    by_cases h : k = v.key
    · rw [if_pos h, if_pos h]
    · rw [if_neg h, if_neg h]
      exact hk k h

/-- The operation that an instruction sends to the engine of its block. -/
def View.eopOf (v : View) (id : Nat) (mask : Mask) (kind : EKind) (guard : Option Nat) (sub : VC) (raw : List W32) (cap : List (List W32)) : EOp :=
  { id := id, wid := v.w.wid, mask := mask, kind := kind, guard := guard, handler := v.w.trap.isSome,
    sub := sub, state := .queued, progress := 0, wrote := .zero, word := v.word, raw := raw, cap := cap }

/-- An operation joins the queue of its block (08 R170). -/
def View.queues (v : View) (o : EOp) : Block :=
  if v.w.trap = none then ({ v.b with vq := v.b.vq ++ [o] } : Block).settle else { v.b with hq := v.b.hq ++ [o] }

theorem submit_blk {s : State} {v : View} (hb : s.blk? v.bk = some v.b) (mask : Mask) (kind : EKind) (guard : Option Nat) (sub : VC)
    (raw : List W32) (cap : List (List W32)) (j : Nat) :
    (v.submit s mask kind guard sub raw cap).blk? j
      = if j = v.bk then some (v.queues (v.eopOf s.nextKey mask kind guard sub raw cap)) else s.blk? j := by
  unfold View.submit
  simp only [blk_modBlock]
  by_cases h : j = v.bk
  · rw [if_pos h, if_pos h, h, show State.blk? { s with nextKey := s.nextKey + 1 } v.bk = some v.b from hb, Option.map_some]
    unfold View.queues View.eopOf
    cases v.w.trap <;> rfl
  · rw [if_neg h, if_neg h]
    rfl

/-- An operation stands in the warp's window and another in the queue of its block, and w is the warp beside its window. -/
structure Sent (s : State) (v : View) (w : Warp) (p : Op) (o : EOp) (s' : State) : Prop where
  warp : ∃ ops, tget s'.warps v.key = some { w with ops := ops ++ [p] }
  others : ∀ k, k ≠ v.key → tget s'.warps k = tget s.warps k
  rest : s' = { s with warps := s'.warps, blocks := s'.blocks, nextKey := s.nextKey + 2 }
  blk : ∀ j, s'.blk? j = if j = v.bk then some (v.queues o) else s.blk? j

theorem submit_sent {s : State} {h : Hdr} {v : View} (hv : s.view h = some v) (h' : Hdr) (dst : List (Nat × Tag)) (kind : EKind) (sub : VC)
    (raw : List W32) :
    Sent s v v.w (v.opOf s h' (.mmrd (s.nextKey + 1)) dst [] 0) (v.eopOf (s.nextKey + 1) v.act kind none sub raw [])
      (v.submit (v.launchOp s h' (.mmrd (s.nextKey + 1)) dst [] 0) v.act kind none sub raw []) := by
  obtain ⟨-, -, -, hw, -, -, -, -, -, hb, -⟩ := view_spec hv
  obtain ⟨ops, h1, h2, h3⟩ := launchOp_spec hw h' (.mmrd (s.nextKey + 1)) dst [] 0
  exact ⟨⟨ops, h1⟩, h3, rfl, submit_blk (s := v.launchOp s h' (.mmrd (s.nextKey + 1)) dst [] 0) hb v.act kind none sub raw []⟩

theorem Sent.modWarp {s s' : State} {v : View} {w : Warp} {p : Op} {o : EOp} (h : Sent s v w p o s') {f : Warp → Warp}
    (hf : ∀ ops, f { w with ops := ops } = { f w with ops := ops }) : Sent s v (f w) p o (s'.modWarp v.key f) := by
  obtain ⟨⟨ops, hw⟩, hk, hr, hb⟩ := h
  refine ⟨⟨ops, ?_⟩, fun k hne => ?_, by rw [hr]; rfl, hb⟩
  · rw [modWarp_warps, tget_tmod_self, hw, Option.map_some, hf]
  · rw [modWarp_warps, tget_tmod_ne _ _ hne]
    exact hk k hne

/-- The state after an instruction has entered the window and its operation the queue. -/
structure Entered (s : State) (v : View) (w : Warp) (p : Op) (o : EOp) (x : State) : Prop where
  flows : Flows s v w (fun _ => v.next) x
  rest : x = { s with warps := x.warps, blocks := x.blocks, nextKey := x.nextKey, issueCount := x.issueCount }
  blk : ∀ j, x.blk? j = if j = v.bk then some (v.queues o) else s.blk? j
  window : ∃ w1, tget x.warps v.key = some w1 ∧ p ∈ w1.ops

/-- An instruction enters the window, and its operation the queue of its block. -/
theorem enters_queue {s s' : State} {h : Hdr} {v : View} {rq : View → Req} {eff : View → State → Eff} {w : Warp} {p : Op} {o : EOp}
    (hv : s.view h = some v) (hg : v.goes (rq v) = true) (hc : v.w.asyncCause = none) (he : eff v s = .done s')
    (hs : Sent s v w p o s') (hl : w.lanes = v.w.lanes) (hd : p.done = false) :
    ∃ x, issue s h rq eff = .next x ∧ Entered s v w p o x := by
  obtain ⟨⟨ops, hw⟩, hk, hrest, hblk⟩ := hs
  obtain ⟨x, w1, hx, hp, hw1, hops⟩ := issue_done_keeps hv hg hc he hw hl
  obtain ⟨-, e0, -⟩ := id hp
  have hblocks : x.blocks = s'.blocks := by rw [e0]
  refine ⟨x, hx, hp.flows (by rw [hrest]) hk, ?_, fun j => ?_, w1, hw1, hops _ (List.mem_append_right _ (List.mem_singleton.mpr rfl)) hd⟩
  · have hkey : x.nextKey = s'.nextKey := by rw [e0]
    have hcount : x.issueCount = s'.issueCount + 1 := by rw [e0]
    rw [hblocks, hkey, hcount]
    refine e0.trans ?_
    rw [hrest]
  · unfold State.blk? at hblk ⊢
    rw [hblocks]
    exact hblk j

/-- An effect that completes and changes its warp only. -/
theorem issue_done_modWarp {s : State} {h : Hdr} {v : View} {rq : View → Req} {eff : View → State → Eff} (hv : s.view h = some v)
    (hg : v.goes (rq v) = true) (hc : v.w.asyncCause = none) {f : Warp → Warp} (he : eff v s = .done (s.modWarp v.key f))
    (hl : (f v.w).lanes = v.w.lanes) : ∃ t, issue s h rq eff = .next t ∧ Passes s v (f v.w) (fun _ => v.next) t := by
  obtain ⟨-, -, -, hw, -⟩ := view_spec hv
  obtain ⟨t, ht, hp⟩ := issue_done hv hg hc he (w := f v.w) (by rw [modWarp_warps, tget_tmod_self, hw]; rfl) hl
  exact ⟨t, ht, hp.modWarp⟩

/- MMWAIT (08 R175). -/

/-- The waits of a group's threads. -/
def Warp.setWaits (w : Warp) (m : Mask) (x : LWait) (now : Nat) : Warp :=
  (lanesOf m).foldl (fun w l => { w with lwait := lput w.lwait l .none (fun _ => x), lwaitSince := lput w.lwaitSince l 0 (fun _ => now) }) w

theorem setWaits_eq (w : Warp) (m : Mask) (x : LWait) (now : Nat) :
    w.setWaits m x now = { w with lwait := (lanesOf m).foldl (fun c l => lput c l .none (fun _ => x)) w.lwait,
                                  lwaitSince := (w.setWaits m x now).lwaitSince } := by
  unfold Warp.setWaits
  induction lanesOf m generalizing w with
  | nil => rfl
  | cons l ls ih => rw [List.foldl_cons, ih]; rfl

theorem nth_setWaits (w : Warp) (m : Mask) (x : LWait) (now l : Nat) :
    nth (w.setWaits m x now).lwait l .none = if has m l = true then x else nth w.lwait l .none := by
  rw [setWaits_eq]
  refine (nth_lputs _ (fun _ => x) (nodup_lanesOf m) w.lwait l).trans ?_
  simp only [mem_lanesOf]

/-- An operation of a tile that is older than an instruction. -/
def View.tileBusy (v : View) (s : State) (t : W3) : Bool := v.b.eops.any (fun o => o.tile? == some t.toNat && o.id < s.nextKey)

/-- Threads that wait on no tile begin to wait while an operation on the tile is left. -/
theorem mmwait_waits {s : State} {h : Hdr} {t : W3} {v : View} (hi : Issues s h (.mmwait h t) v) (ha : v.act ≠ 0)
    (hl : nth v.w.lwait v.low .none = .none) (hb : v.tileBusy s t = true) :
    exec (.mmwait h t) s = .next (s.modWarp v.key (fun w => w.setWaits v.grp (.tile t.toNat s.nextKey) s.tsc)) := by
  have ha' : (v.act == 0) = false := by simpa using ha
  unfold View.tileBusy at hb
  show execMmwait h t s = _
  unfold execMmwait
  rw [issue_goes hi.view hi.goes]
  simp only [ha', hl, Option.getD_none, hb, State.finish, hi.calm]
  rfl

/-- Where none is left they go on, and acquire the writes of the tile's MMSTs. -/
theorem mmwait_passes {s : State} {h : Hdr} {t : W3} {v : View} (hi : Issues s h (.mmwait h t) v) (ha : v.act ≠ 0)
    (hl : nth v.w.lwait v.low .none = .none) (hb : v.tileBusy s t = false) (hm : tget v.b.marks t.toNat = none) :
    ∃ x, exec (.mmwait h t) s = .next x
      ∧ Passes s v ((v.w.setWaits v.grp .none s.tsc).modClks v.act (fun c => c.acquire (nth v.b.tclk t.toNat .zero))) (fun _ => v.next) x := by
  have ha' : (v.act == 0) = false := by simpa using ha
  unfold View.tileBusy at hb
  show ∃ x, execMmwait h t s = .next x ∧ _
  unfold execMmwait
  refine issue_done_modWarp hi.view hi.goes hi.calm
    (f := fun w => (w.setWaits v.grp .none s.tsc).modClks v.act (fun c => c.acquire (nth v.b.tclk t.toNat .zero))) ?_
    (by rw [modClks_eq, setWaits_eq])
  simp only [ha', hl, Option.getD_none, hb, hm]
  rfl

theorem mmrd_enters {s : State} {h : Hdr} {cv : MConv} {d : W9} {t : W3} {sel : SrcB} {v : View} (hi : Issues s h (.mmrd h cv d t sel) v)
    (ha : v.act ≠ 0) (hm : tget v.b.marks t.toNat = none) (hsel : v.badSelector cv sel = none) (hroom : v.b.room 1 = true) :
    ∃ x, exec (.mmrd h cv d t sel) s = .next x ∧ Entered s v v.w (v.opOf s h (.mmrd (s.nextKey + 1)) [(d.toNat, .g)] [] 0)
      (v.eopOf (s.nextKey + 1) v.act (.mmrd t.toNat cv (v.selectors sel) v.core v.slot s.nextKey) none .zero [] []) x := by
  show ∃ x, execMmrd h cv d t sel s = .next x ∧ _
  have ha' : (v.act == 0) = false := by simpa using ha
  unfold execMmrd
  refine enters_queue hi.view hi.goes hi.calm ?_ (submit_sent hi.view ..) rfl rfl
  simp only [ha', hm, hsel, hroom]
  rfl

theorem cmprs_enters {s : State} {h : Hdr} {s48 : Bool} {d a b : W9} {k : W16} {fa col : W3} {v : View}
    (hi : Issues s h (.cmprs h s48 d a b k fa col) v) (ha : v.act ≠ 0) (hroom : v.b.room 1 = true) (hun : v.w.unserved v.act = false)
    (hca : v.mapCheck a { rows := rowsOf v.act, kmax := k.toNat, cbits := slotContainer (v.slotWord fa), scaled := some (slotScaled (v.slotWord fa)),
                          nb := scaleCount (v.slotWord fa) k.toNat, write := false, other := none } = none)
    (hcb : v.mapCheck b { rows := rowsOf v.act, kmax := k.toNat / 2, cbits := slotContainer (v.slotWord fa), scaled := some (slotScaled (v.slotWord fa)),
                          nb := scaleCount (v.slotWord fa) k.toNat, write := true,
                          other := some ((v.map a).region (rowsOf v.act) k.toNat (scaleCount (v.slotWord fa) k.toNat)) } = none) :
    ∃ x, exec (.cmprs h s48 d a b k fa col) s = .next x ∧ Entered s v { v.w with wait := .cmprs s.nextKey, waitSince := s.tsc }
      (v.opOf s { h with la := 0 } (.mmrd (s.nextKey + 1)) ((groupRegs d.toNat (metaRegs s48 k)).map (fun n => (n, Tag.g))) [] 0)
      (v.eopOf (s.nextKey + 1) v.act (.cmprs s48 (v.map a) (v.map b) k.toNat (v.slotWord fa) col.toNat v.core v.slot s.nextKey) none
        (v.w.allClk v.act) (v.mapWords a ++ v.mapWords b) []) x := by
  show ∃ x, execCmprs h s48 d a b k fa col s = .next x ∧ _
  have ha' : (v.act == 0) = false := by simpa using ha
  unfold execCmprs
  refine enters_queue hi.view hi.goes hi.calm ?_ ((submit_sent hi.view ..).modWarp (f := fun w => { w with wait := .cmprs s.nextKey, waitSince := s.tsc })
    fun _ => rfl) rfl rfl
  simp only [ha', hca, hcb, hroom, hun, firstBad]
  rfl

/-- Settles O30: MMRD and CMPRS send their operation and stand in the window; MMWAIT waits while its tile has an operation. -/
theorem engineReads : Obligations.EngineReads := by
  unfold Obligations.EngineReads
  intro h s48 cv t fa col d a b sel k s v hact queued op only m enters wa nb ua ub busy
  refine ⟨fun hi hm hsel hroom => ?_, fun hi hca hcb hroom hun => ?_, fun hi hl hm => ?_⟩
  · obtain ⟨x, he, hfl, hrest, hblk, w1, hw1, hp⟩ := mmrd_enters hi hact hm hsel hroom
    exact ⟨x, w1, _, _, he, hfl, ⟨hrest, fun j hj => (hblk j).trans (if_neg hj)⟩, (hblk v.bk).trans (if_pos rfl),
      ⟨rfl, rfl, rfl, rfl, rfl, rfl, rfl⟩, rfl, hw1, hp, rfl, rfl, rfl, rfl, rfl⟩
  · obtain ⟨x, he, hfl, hrest, hblk, w1, hw1, hp⟩ := cmprs_enters hi hact hroom hun hca hcb
    refine ⟨x, w1, _, _, he, hfl, ⟨hrest, fun j hj => (hblk j).trans (if_neg hj)⟩, (hblk v.bk).trans (if_pos rfl),
      ⟨rfl, rfl, rfl, rfl, rfl, rfl, rfl⟩, rfl, hw1, hp, rfl, rfl, rfl, rfl, ?_⟩
    show ((groupRegs d.toNat (metaRegs s48 k)).map (fun n => (n, Tag.g))).map Prod.fst = _
    rw [List.map_map]
    exact List.map_id _
  · have hlow : nth v.w.lwait v.low .none = .none := hl v.low (view_act_sub hi.view (lowest_has hact))
    obtain ⟨-, -, -, hw, -⟩ := view_spec hi.view
    by_cases hb : busy = true
    · rw [if_pos hb]
      refine ⟨_, v.w.setWaits v.grp (.tile t.toNat s.nextKey) s.tsc, mmwait_waits hi hact hlow hb, rfl, ?_, by rw [setWaits_eq], fun l _ => nth_setWaits ..⟩
      rw [modWarp_warps, tget_tmod_self, hw]
      rfl
    · rw [if_neg hb]
      obtain ⟨x, hx, hp⟩ := mmwait_passes hi hact hlow (Bool.eq_false_iff.mpr hb) hm
      refine ⟨x, _, hx, hp, by rw [modClks_eq, setWaits_eq], fun l _ => ?_, fun l _ => ?_⟩
      · rw [modClks_eq, nth_setWaits]
        split
        · next hg => exact (hl l hg).symm
        · rfl
      · rw [clkAt_modClks, setWaits_eq]
        rfl

end Sys2Proof.Machine
end

