-- ==== Sys2Proof/Proofs/Raising.lean ====
section
/-! SUPPORT. A cause raised at the boundary of a warp where nothing else stands enters the handler (13 R219, R220, R222). -/

namespace Sys2Proof.Machine

theorem asyncCause_none {w : Warp} (ha : w.async = []) : w.asyncCause = none := by
  unfold Warp.asyncCause lowestCause
  rw [ha]
  simp

theorem handlerEntry_spec (w : Warp) (t : TrapIn) (handler : W64) (now l : Nat) (hl : has w.live l = true) :
    (w.handlerEntry t handler now).pcAt l = handler ∧ (w.handlerEntry t handler now).laneAt l = .on 0 := by
  have h32 := has_lt hl
  unfold Warp.handlerEntry Warp.pcAt Warp.laneAt
  simp only
  rw [allLanes, nth_map_range 32 _ l _ h32, nth_map_range 32 _ l _ h32, hl]
  exact ⟨rfl, rfl⟩

/-- A warp with nothing before a cause takes it at once. -/
theorem takeTrap_pend {s : State} {k : Nat} {w : Warp} {b : Block} {g : Grid} {p : Pend} (hw : tget s.warps k = some w)
    (hb : s.blk? w.blk = some b) (hg : tget s.grids b.grid = some g) (ha : w.async = []) (hd : ∀ o ∈ w.ops, o.done = true ∧ o.fault = none)
    (hwait : w.wait = .none) (hhalf : w.half = none) (ht : w.trap = none) (hp : w.pend = some p) :
    s.takeTrap k = s.pendTrap k w b p := by
  have hfault : w.ops.find? (fun o => o.fault.isSome) = none := by
    rw [List.find?_eq_none]
    intro o ho
    simp [(hd o ho).2]
  have hover : ∀ o ∈ w.ops, o.over = true := fun o ho => by simp [Op.over, (hd o ho).1]
  have hdrained : w.drained w.timedOut = true := by
    simp only [Warp.drained, hwait, hhalf, Bool.and_eq_true, List.all_eq_true]
    exact ⟨⟨fun o ho => by simp [hover o ho], rfl⟩, rfl⟩
  have htimed : w.ops.any w.timedOut = false := by
    rw [List.any_eq_false]
    intro o ho
    simp [Warp.timedOut, hover o ho]
  unfold State.takeTrap
  simp only [hw, hb, hg, Option.bind_some, Option.map_some, asyncCause_none ha, hfault, hp, hdrained, ht, htimed, Option.map_none,
    Option.getD_none, Bool.and_false]
  rfl

theorem pendTrap_enters {s : State} {k : Nat} {w : Warp} {b : Block} {g : Grid} {p : Pend} (hb : s.blk? w.blk = some b)
    (hg : tget s.grids b.grid = some g) (hn : p.next = none) (hc : p.cause ≠ .debugHalt) (hh : g.rec_.handler ≠ 0) :
    s.pendTrap k w b p = { s with warps := tput s.warps k (Warp.handlerEntry
      { w with async := w.async.filter (fun x => x.1 != p.cause && !(p.cause == .preempt && x.1 == .mateSwapped)), pend := none, hang := 0 }
      { source := b.core, cause := p.cause, pc := p.pc, win := 0, mask := p.mask, addr := p.addr, iter := p.iter } g.rec_.handler s.tsc) } := by
  have hc' : (p.cause == .debugHalt) = false := by simpa using hc
  unfold State.pendTrap State.enterTrap
  simp only [hn, hb, hg, Option.bind_some, Option.map_some, hh, hc', Option.getD_none, if_false, Bool.false_eq_true]

/-- What stands against a group for a cause without effect. -/
def View.pendOf (v : View) (c : Cause) (mask : Mask) (addr : W64) : Pend :=
  { cause := c, pc := v.pc, group := v.grp, mask := mask, addr := addr, iter := 0, next := none, mark := none }

/-- The warp with that cause against it. -/
def View.pended (v : View) (c : Cause) (mask : Mask) (addr : W64) : Warp := { v.w with pend := some (v.pendOf c mask addr) }

theorem raise_eq {s : State} {v : View} (hr : v.w.rep = none) (c : Cause) (mask : Mask) (addr : W64) :
    s.raise v c mask addr none = (s.modWarp v.key (fun w => { w with pend := some (v.pendOf c mask addr) })).takeTrap v.key := by
  unfold State.raise State.raiseBy
  simp only [hr]
  rfl

/-- An instruction's cause at a group where nothing else stands. -/
theorem raise_traps {s : State} {h : Hdr} {v : View} (hs : Stands s h v) {c : Cause} (hc : c ≠ .debugHalt) (mask : Mask) (addr : W64) :
    TrapsTo s v v.pc c mask addr (s.raise v c mask addr none) := by
  obtain ⟨hv, -, ⟨-, hwait, -, ha⟩, ⟨ht, hrep, -, hhalf⟩, hd, hh⟩ := hs
  obtain ⟨-, -, -, hw, -, -, -, -, hbk, hb, hgk, hg⟩ := view_spec hv
  have hb' : s.blk? (v.pended c mask addr).blk = some v.b := hbk ▸ hb
  have hg' : tget s.grids v.b.grid = some v.g := hgk ▸ hg
  have hw' : tget (s.modWarp v.key (fun w => { w with pend := some (v.pendOf c mask addr) })).warps v.key
      = some (v.pended c mask addr) := by
    rw [modWarp_warps, tget_tmod_self, hw]
    rfl
  rw [raise_eq hrep, takeTrap_pend (s := s.modWarp v.key _) (p := v.pendOf c mask addr) hw' hb' hg' ha hd hwait hhalf ht rfl,
    pendTrap_enters (s := s.modWarp v.key _) (p := v.pendOf c mask addr) hb' hg' rfl hc hh]
  refine ⟨_, _, tget_tput_self _ _ _, fun j hj => ?_, rfl, rfl, rfl, rfl, rfl, rfl, rfl, rfl, rfl, fun l hl => handlerEntry_spec _ _ _ _ l hl, fun _ _ => rfl⟩
  show tget (tput (tmod s.warps v.key _) v.key _) j = _
  rw [tget_tput_ne _ _ hj, tget_tmod_ne _ _ hj]

end Sys2Proof.Machine
end

