-- ==== Sys2Proof/Proofs/Barriers.lean ====
section
/-! PROOFS. BAR, BARSV and BARLD (07 R154 to R156; 01 R31). -/

namespace Sys2Proof.Machine

/- Judging a count (07 R154, R155). -/

/-- What a judgement makes of a barrier: nothing, its completion, or the wait of a swap. -/
def BarSt.judged (r x : BarSt) : Prop := x = r ∨ x = r.complete ∨ x = { r with swapping := true }

/-- Of a machine, only blocks, the signals of arrivals and the swaps differ. -/
def OnlyBars (s t : State) : Prop := t = { s with blocks := t.blocks, arrs := t.arrs, swaps := t.swaps, nextKey := t.nextKey }

theorem OnlyBars.refl (s : State) : OnlyBars s s := rfl

theorem OnlyBars.trans {a b c : State} (h1 : OnlyBars a b) (h2 : OnlyBars b c) : OnlyBars a c := by
  unfold OnlyBars at *
  rw [h2, h1]

theorem modBar_only (s : State) (bk n : Nat) (f : BarSt → BarSt) : OnlyBars s (s.modBar bk n f) := rfl

theorem bar_put (b : Block) (n : Nat) (r : BarSt) : ({ b with bars := tput b.bars n r } : Block).bar n = r := by
  simp [Block.bar]

theorem modBar_blk {s : State} {bk n : Nat} {f : BarSt → BarSt} {b : Block} (hb : s.blk? bk = some b) :
    (s.modBar bk n f).blk? bk = some { b with bars := tput b.bars n (f (b.bar n)) } := by
  unfold State.modBar
  rw [blk_modBlock, if_pos rfl, hb]
  rfl

/-- A phase completes, or the wait of its swap begins. -/
theorem barComplete_spec {s : State} {bk n : Nat} {b : Block} (hb : s.blk? bk = some b) :
    OnlyBars s (s.barComplete bk n b) ∧ (s.barComplete bk n b).arrs = s.arrs
    ∧ ∃ c, (s.barComplete bk n b).blk? bk = some c
      ∧ c.bar n = if (b.bar n).swap then { b.bar n with swapping := true } else (b.bar n).complete := by
  unfold State.barComplete
  split
  · exact ⟨rfl, rfl, _, (modBar_blk hb : (s.modBar bk n (fun r => { r with swapping := true })).blk? bk = _), bar_put ..⟩
  · exact ⟨rfl, rfl, _, modBar_blk hb, bar_put ..⟩

theorem barCheck_spec {s : State} {bk n : Nat} {b : Block} (hb : s.blk? bk = some b) :
    OnlyBars s (s.barCheck bk n) ∧ (s.barCheck bk n).arrs = s.arrs ∧ ∃ c, (s.barCheck bk n).blk? bk = some c ∧ (b.bar n).judged (c.bar n) := by
  have hkeep : OnlyBars s s ∧ s.arrs = s.arrs ∧ ∃ c, s.blk? bk = some c ∧ (b.bar n).judged (c.bar n) := ⟨rfl, rfl, b, hb, .inl rfl⟩
  unfold State.barCheck
  simp only [hb]
  split
  · exact hkeep
  · split
    · exact hkeep
    · split
      · obtain ⟨h1, h2, c, h3, h4⟩ := barComplete_spec (n := n) hb
        refine ⟨h1, h2, c, h3, .inr ?_⟩
        rw [h4]
        split
        · exact .inr rfl
        · exact .inl rfl
      · exact hkeep

/-- A block's own barrier without a swap, where no signal of an arrival is on its way: it completes exactly when arrivals there
are, and they come to the members that have not retired. -/
theorem barCheck_own {s : State} {bk n : Nat} {b : Block} {g : Grid} (hb : s.blk? bk = some b) (hg : tget s.grids b.grid = some g) (hn : n < 64)
    (hout : b.state ≠ .out) (hm : ∀ m ∈ s.arrs ++ b.wires, m.n ≠ n) (hsw : (b.bar n).swapping = false) (hswap : (b.bar n).swap = false)
    (hrem : (b.bar n).remote = 0) (hmem : (b.bar n).members = []) :
    ∃ c, (s.barCheck bk n).blk? bk = some c
      ∧ c.bar n = if 0 < popcount (b.bar n).arrived ∧ popcount (b.memberMask g n) ≤ popcount (b.bar n).arrived then (b.bar n).complete else b.bar n := by
  have hlate : s.lateOf (s.arrs ++ b.wires) bk n (b.bar n).phase = 0 := by
    unfold State.lateOf
    rw [List.length_eq_zero_iff, List.filter_eq_nil_iff]
    intro m hmm
    simp [hm m hmm]
  have hexp : s.barExpected bk n b g = popcount (b.memberMask g n) := by
    simp [State.barExpected, State.barBlocks, hn]
  have hcount : (b.bar n).count = popcount (b.bar n).arrived := by simp [BarSt.count, hrem, hmem]
  have hgate : ((b.bar n).swapping || decide (n ≥ 112) || b.state == .out) = false := by
    simp [hsw, hout, show ¬ 112 ≤ n by omega]
  unfold State.barCheck
  simp only [hb, hg, hgate, hlate, hexp, hcount, Bool.false_eq_true, if_false, Nat.add_zero]
  by_cases hc : 0 < popcount (b.bar n).arrived ∧ popcount (b.memberMask g n) ≤ popcount (b.bar n).arrived
  · rw [if_pos (by simpa [Nat.pos_iff_ne_zero] using hc), if_pos hc]
    obtain ⟨-, -, c, h3, h4⟩ := barComplete_spec (n := n) hb
    rw [hswap] at h4
    exact ⟨c, h3, h4⟩
  · rw [if_neg (by simpa [Nat.pos_iff_ne_zero] using hc), if_neg hc]
    exact ⟨b, hb, rfl⟩

/- An arrival. -/

/-- A barrier that a warp has arrived at. -/
def BarSt.arrives (r : BarSt) (wid : Nat) (need : List Nat) : BarSt := { r with arrived := r.arrived ||| laneBit wid, need := r.need ++ need }

theorem arrs_only {α : Type} (l : List α) (f : Nat → α → ArrMsg) (s : State) :
    OnlyBars s (l.foldl (fun s d => { s with arrs := s.arrs ++ [f s.nextKey d], nextKey := s.nextKey + 1 }) s)
    ∧ (l.foldl (fun s d => { s with arrs := s.arrs ++ [f s.nextKey d], nextKey := s.nextKey + 1 }) s).blocks = s.blocks := by
  induction l generalizing s with
  | nil => exact ⟨rfl, rfl⟩
  | cons d l ih =>
    obtain ⟨h1, h2⟩ := ih { s with arrs := s.arrs ++ [f s.nextKey d], nextKey := s.nextKey + 1 }
    exact ⟨(show OnlyBars s { s with arrs := s.arrs ++ [f s.nextKey d], nextKey := s.nextKey + 1 } from rfl).trans h1, h2⟩

theorem barArrive_spec {s : State} {bk wid n : Nat} {b : Block} {g : Grid} (hb : s.blk? bk = some b) :
    OnlyBars s (s.barArrive bk wid n b g)
    ∧ ∃ c need, (s.barArrive bk wid n b g).blk? bk = some c ∧ ((b.bar n).arrives wid need).judged (c.bar n) := by
  have hb1 := modBar_blk (n := n) (f := fun r => r.arrives wid (s.stxsOf bk wid)) hb
  have hbar := bar_put b n ((b.bar n).arrives wid (s.stxsOf bk wid))
  have hs1 : OnlyBars s (s.modBar bk n (fun r => r.arrives wid (s.stxsOf bk wid))) := rfl
  unfold State.barArrive
  rw [show (s.modBar bk n (fun r => { r with arrived := r.arrived ||| laneBit wid, need := r.need ++ s.stxsOf bk wid }))
    = s.modBar bk n (fun r => r.arrives wid (s.stxsOf bk wid)) from rfl]
  generalize s.modBar bk n (fun r => r.arrives wid (s.stxsOf bk wid)) = s1 at *
  simp only
  split
  · obtain ⟨h1, -, c, h2, h3⟩ := barCheck_spec (n := n) hb1
    rw [hbar] at h3
    exact ⟨hs1.trans h1, c, _, h2, h3⟩
  · split
    · obtain ⟨h1, h2⟩ := arrs_only (((s1.clusterOf b g.rec_).filter (fun x => x.1 != bk)).map Prod.fst) (fun key dst =>
        { key := key, n := n, src := bk, srcCore := b.core, dst := dst, wid := wid,
          phase := (match s1.blk? bk with | some b => b.bar n | none => BarSt.init).phase,
          swap := (match s1.blk? bk with | some b => b.bar n | none => BarSt.init).swap, need := s1.stxsOf bk wid,
          clk := (match s1.blk? bk with | some b => b.bar n | none => BarSt.init).clk, stamp := s1.tsc }) s1
      obtain ⟨h3, -, c, h4, h5⟩ := barCheck_spec (n := n) (s := List.foldl _ s1 _) ((congrArg (fun t => tget t bk) h2).trans hb1)
      rw [hbar] at h5
      exact ⟨(hs1.trans h1).trans h3, c, _, h4, h5⟩
    · exact ⟨hs1.trans rfl, _, _, hb1, .inl hbar⟩

/-- A warp is judged to arrive, or not. -/
theorem barJudge_spec {s : State} {bk wid n : Nat} {live : Mask} {b : Block} (hb : s.blk? bk = some b) :
    OnlyBars s (s.barJudge bk wid n live)
    ∧ ∃ c, (s.barJudge bk wid n live).blk? bk = some c ∧ (c.bar n = b.bar n ∨ ∃ need, ((b.bar n).arrives wid need).judged (c.bar n)) := by
  have hkeep : OnlyBars s s ∧ ∃ c, s.blk? bk = some c ∧ (c.bar n = b.bar n ∨ ∃ need, ((b.bar n).arrives wid need).judged (c.bar n)) :=
    ⟨rfl, b, hb, .inl rfl⟩
  unfold State.barJudge
  simp only [hb]
  split
  · exact hkeep
  · split
    · obtain ⟨h1, c, need, h2, h3⟩ := barArrive_spec (wid := wid) (n := n) hb
      exact ⟨h1, c, h2, .inr ⟨need, h3⟩⟩
    · exact hkeep

/-- What the count of a block's own barrier rests on: no swap, no signal on its way, nothing restored (07 R154, R155). -/
structure OwnBar (s : State) (b : Block) (n : Nat) : Prop where
  own : n < 64
  here : b.state ≠ .out
  quiet : ∀ m ∈ s.arrs ++ b.wires, m.n ≠ n
  swapping : (b.bar n).swapping = false
  swap : (b.bar n).swap = false
  remote : (b.bar n).remote = 0
  members : (b.bar n).members = []

theorem has_or (a b : Mask) (l : Nat) : has (a ||| b) l = (has a l || has b l) := BitVec.getLsbD_or

theorem has_laneBit {w : Nat} (h : w < 32) : has (laneBit w) w = true := by
  unfold has laneBit
  rw [BitVec.getLsbD_ofNat, Nat.testBit_two_pow_self]
  simp [h]

theorem popcount_pos {m : Mask} {l : Nat} (h : has m l = true) : 0 < popcount m := List.length_pos_of_mem ((mem_lanesOf m l).mpr h)

/-- A warp of which every live thread has executed the BAR arrives, and the phase completes where the arrivals then meet the members. -/
theorem barJudge_own {s : State} {bk wid n : Nat} {live : Mask} {b : Block} {g : Grid} (hb : s.blk? bk = some b) (hg : tget s.grids b.grid = some g)
    (ho : OwnBar s b n) (hex : (tget (b.bar n).exec wid).getD 0 ≠ 0) (harr : has (b.bar n).arrived wid = false) (hmem : b.isMember g n wid = true) :
    ∃ c, (s.barJudge bk wid n live).blk? bk = some c
      ∧ (c.bar n).phase = if live &&& ~~~ ((tget (b.bar n).exec wid).getD 0) = 0
          ∧ popcount (b.memberMask g n) ≤ popcount ((b.bar n).arrived ||| laneBit wid) then ((b.bar n).phase + 1) % 256 else (b.bar n).phase := by
  have hex' : ((tget (b.bar n).exec wid).getD 0 != 0) = true := by simpa using hex
  unfold State.barJudge
  simp only [hb, hg, hex', harr, hmem, Bool.true_and, Bool.not_false, Bool.and_true]
  by_cases hl : live &&& ~~~ ((tget (b.bar n).exec wid).getD 0) = 0
  · rw [if_pos (by simpa using hl)]
    have hb1 := modBar_blk (n := n) (f := fun r => r.arrives wid (s.stxsOf bk wid)) hb
    have hbar := bar_put b n ((b.bar n).arrives wid (s.stxsOf bk wid))
    obtain ⟨h1, h2, h3, h4, h5, h6, h7⟩ := ho
    obtain ⟨c, hc1, hc2⟩ := barCheck_own (n := n) hb1 (g := g) hg h1 h2 h3 (by rw [hbar]; exact h4) (by rw [hbar]; exact h5)
      (by rw [hbar]; exact h6) (by rw [hbar]; exact h7)
    have hpos : 0 < popcount ((b.bar n).arrived ||| laneBit wid) :=
      popcount_pos (l := wid) (by rw [has_or, has_laneBit (has_lt hmem), Bool.or_true])
    refine ⟨c, ?_, ?_⟩
    · unfold State.barArrive
      simp only [h1, if_true]
      exact hc1
    · rw [hc2, hbar]
      simp only [hl, true_and, show ((b.bar n).arrives wid (s.stxsOf bk wid)).arrived = (b.bar n).arrived ||| laneBit wid from rfl, hpos]
      show BarSt.phase (if popcount (b.memberMask g n) ≤ _ then _ else _) = _
      split <;> rfl
  · rw [if_neg (by simpa using hl)]
    exact ⟨b, hb, by rw [if_neg (fun h => hl h.1)]⟩

/- BAR (07 R154, R155). -/

/-- The group's new executions of a BAR are counted in the barrier. -/
def View.counts (v : View) (swap : Bool) (r : BarSt) : BarSt :=
  { r with exec := tput r.exec v.w.wid (((tget r.exec v.w.wid).getD 0) ||| v.act), swap := r.swap || swap, clk := r.clk.join (v.w.allClk v.act) }

/-- The machine after a BAR is counted: one that only waits counts nothing. -/
def View.barCounted (v : View) (s : State) (mode : BarMode) (swap : Bool) (n : Nat) : State :=
  if mode == .wait then s else (s.modBar v.bk n (v.counts swap)).barJudge v.bk v.w.wid n v.w.live

theorem barCounted_eq (v : View) (s : State) (mode : BarMode) (swap : Bool) (n : Nat) : v.barCounted s mode swap n = if mode == .wait then s else
    (s.modBar v.bk n (fun r => { r with exec := tput r.exec v.w.wid (((tget r.exec v.w.wid).getD 0) ||| v.act), swap := r.swap || swap,
                                        clk := r.clk.join (v.w.allClk v.act) })).barJudge v.bk v.w.wid n v.w.live := rfl

/-- Whether the group waits on, given the phase the barrier is in now. -/
def View.barStays (v : View) (mode : BarMode) (n now : Nat) : Bool :=
  now == (v.b.bar n).phase && (mode == .sync || (mode == .wait && has (v.b.bar n).arrived v.w.wid))

/-- The warp of a BAR: its threads wait, or go on past the barrier. -/
def View.barWarp (v : View) (mode : BarMode) (n now : Nat) (done : VC) (tick : Nat) (w : Warp) : Warp :=
  (w.passBar (if mode == .arrive || v.barStays mode n now then 0 else v.act) done).waitBar
    (if v.barStays mode n now then v.act else 0) n (v.b.bar n).phase (mode == .sync) tick

/-- Of a group whose lanes all have f false, none is left. -/
theorem grp_none {v : View} (ha : v.act = v.grp) (f : Nat → Bool) (hf : ∀ l, has v.act l = true → f l = false) : v.grp &&& maskOf f = 0 := by
  refine mask_ext fun l h32 => ?_
  rw [has_and, has_maskOf, ← ha]
  cases hla : has v.act l with
  | false => simp [has]
  | true => simp [hf l hla, has]

theorem barPhase_eq {s : State} {bk : Nat} {b : Block} (hb : s.blk? bk = some b) (n : Nat) : s.barPhase bk n = (b.bar n).phase := by
  unfold State.barPhase
  rw [hb]

theorem passBar_eq (w : Warp) (m : Mask) (clk : VC) :
    w.passBar m clk = { w with lwait := (lanesOf m).foldl (fun c l => lput c l .none (fun _ => .none)) w.lwait,
                               clk := (w.modClks m (fun c => c.acquire clk)).clk } := by
  have h : ∀ (ls : List Nat) (x : Warp), ls.foldl (fun w l => { w with lwait := lput w.lwait l .none (fun _ => .none) }) x
      = { x with lwait := ls.foldl (fun c l => lput c l .none (fun _ => .none)) x.lwait } := by
    intro ls
    induction ls with
    | nil => exact fun _ => rfl
    | cons l ls ih => exact fun x => by rw [List.foldl_cons, ih]; rfl
  unfold Warp.passBar
  rw [h, modClks_eq]

theorem waitBar_eq (w : Warp) (m : Mask) (n ph : Nat) (sync : Bool) (now : Nat) : w.waitBar m n ph sync now = w.setWaits m (.bar n ph sync) now := rfl

/-- Only the waits and the clocks of a BAR's warp differ. -/
theorem barWarp_only (v : View) (mode : BarMode) (n now : Nat) (done : VC) (tick : Nat) (w : Warp) :
    v.barWarp mode n now done tick w = { w with
      lwait := (v.barWarp mode n now done tick w).lwait, lwaitSince := (v.barWarp mode n now done tick w).lwaitSince,
      clk := (v.barWarp mode n now done tick w).clk } := by
  unfold View.barWarp
  rw [waitBar_eq, setWaits_eq, passBar_eq]

theorem nth_barWarp (v : View) (mode : BarMode) (n now : Nat) (done : VC) (tick : Nat) (w : Warp) (l : Nat) (hl : has v.act l = true → nth w.lwait l .none = .none) :
    nth (v.barWarp mode n now done tick w).lwait l .none
      = if has v.act l then (if v.barStays mode n now then .bar n (v.b.bar n).phase (mode == .sync) else .none) else nth w.lwait l .none := by
  have hpass : ∀ m : Mask, (has m l = true → has v.act l = true) → nth (w.passBar m done).lwait l .none = nth w.lwait l .none := by
    intro m hm
    rw [passBar_eq]
    refine (nth_lputs _ (fun _ => LWait.none) (nodup_lanesOf m) w.lwait l).trans ?_
    split
    · next h => exact (hl (hm ((mem_lanesOf m l).mp h))).symm
    · rfl
  unfold View.barWarp
  rw [waitBar_eq, nth_setWaits, hpass]
  · cases v.barStays mode n now with
    | true => rfl
    | false =>
      rw [if_neg Bool.false_ne_true, show has 0 l = false by simp [has], if_neg Bool.false_ne_true, if_neg Bool.false_ne_true]
      split
      · next ha => exact hl ha
      · rfl
  · intro h
    split at h
    · exact absurd h (by simp [has])
    · exact h

/-- A BAR that its group executes anew, with nothing against it. -/
theorem exec_bar {s : State} {h : Hdr} {mode : BarMode} {swap : Bool} {n : W9} {v : View} (hi : Issues s h (.bar h mode swap n) v)
    (ha : v.act = v.grp) (hl : ∀ l, has v.act l = true → nth v.w.lwait l .none = .none) (hf : v.barFault mode n.toNat v.act = none)
    (hr : mode = .wait ∨ v.w.releaseWaits v.act = false) {c : Block} (hc : (v.barCounted s mode swap n.toNat).blk? v.bk = some c)
    {w : Warp} (hw : tget (v.barCounted s mode swap n.toNat).warps v.key = some w) (hwl : w.lanes = v.w.lanes) :
    ∃ t, exec (.bar h mode swap n) s = .next t
      ∧ Passes ((v.barCounted s mode swap n.toNat).modWarp v.key (v.barWarp mode n.toNat (c.bar n.toNat).phase (c.bar n.toNat).doneClk s.tsc)) v
          (v.barWarp mode n.toNat (c.bar n.toNat).phase (c.bar n.toNat).doneClk s.tsc w)
          (fun l => if has (if v.barStays mode n.toNat (c.bar n.toNat).phase then 0 else v.act) l then nth (perLane (fun _ => v.next)) l 0 else v.pc) t := by
  have hb := (view_spec hi.view).2.2.2.2.2.2.2.2.2.1
  have hne : v.act ≠ 0 := by rw [ha]; exact ((goes_iff v _).mp hi.goes).1
  have hout : v.grp &&& ~~~ v.act = 0 := mask_ext fun l h32 => by rw [ha, has_and, has_not]; cases has v.grp l <;> simp [has]
  show ∃ t, execBar h mode swap n s = .next t ∧ _
  unfold execBar
  refine issue_jump hi.view hi.goes hi.calm ?_ (by rw [modWarp_warps, tget_tmod_self, hw]; rfl) (by rw [barWarp_only]; exact hwl)
  have hne' : (v.act == 0) = false := by simpa using hne
  have hhold : (mode != .wait && v.w.releaseWaits v.act) = false := by
    rcases hr with rfl | hr
    · rfl
    · rw [hr, Bool.and_false]
  have hph := barPhase_eq hb n.toNat
  have hnow := barPhase_eq hc n.toNat
  simp only
  rw [grp_none ha]
  · rw [show (~~~ (0 : Mask)) = BitVec.allOnes 32 from rfl]
    simp only [hout, hf, BitVec.and_allOnes, hne', Bool.false_or, Bool.false_and, Bool.false_eq_true, if_false]
    rw [if_neg (by rw [Bool.and_assoc, hhold, Bool.and_false]; exact Bool.false_ne_true)]
    rw [← barCounted_eq]
    simp only [hph, hnow, hc]
    have hall : ∀ m : Mask, m &&& 4294967295#32 = m := fun m => BitVec.and_allOnes
    unfold View.barWarp View.barStays
    cases mode with
    | arrive => simp [hall]
    | sync =>
      cases (c.bar n.toNat).phase == (v.b.bar n.toNat).phase <;> simp [hall]
    | wait =>
      rw [show (BarMode.wait == BarMode.arrive) = false from rfl, show (BarMode.wait == BarMode.sync) = false from rfl]
      cases (c.bar n.toNat).phase == (v.b.bar n.toNat).phase <;> cases has (v.b.bar n.toNat).arrived v.w.wid <;> simp [hall]
  · intro l hla
    simp only [hl l hla]

/-- The barrier after a BAR is counted: its phase has completed, or it stands with the executions counted. -/
theorem barCounted_spec {s : State} {v : View} (hb : s.blk? v.bk = some v.b) (mode : BarMode) (swap : Bool) (n : Nat) :
    OnlyBars s (v.barCounted s mode swap n) ∧ ∃ c, (v.barCounted s mode swap n).blk? v.bk = some c ∧ (mode = .wait → c.bar n = v.b.bar n)
      ∧ (mode ≠ .wait → (c.bar n).phase = (v.b.bar n).phase → (c.bar n).exec = (v.counts swap (v.b.bar n)).exec) := by
  by_cases hm : mode = .wait
  · subst hm
    exact ⟨rfl, v.b, hb, fun _ => rfl, fun h => absurd rfl h⟩
  · have hm' : (mode == .wait) = false := by simpa using hm
    have hb1 := modBar_blk (n := n) (f := v.counts swap) hb
    have hbar := bar_put v.b n (v.counts swap (v.b.bar n))
    obtain ⟨h1, c, h2, h3⟩ := barJudge_spec (wid := v.w.wid) (n := n) (live := v.w.live) hb1
    rw [hbar] at h3
    have hne : (v.b.bar n).phase ≠ ((v.b.bar n).phase + 1) % 256 := by omega
    unfold View.barCounted
    rw [hm', if_neg Bool.false_ne_true]
    refine ⟨(modBar_only s v.bk n (v.counts swap)).trans h1, c, h2, fun h => absurd h hm, fun _ hp => ?_⟩
    rcases h3 with h3 | ⟨need, h3 | h3 | h3⟩
    · rw [h3]
    · rw [h3]; rfl
    · rw [h3] at hp
      exact absurd hp.symm hne
    · rw [h3]; rfl

/-- The phase of a block's own barrier after a BAR (07 R154). -/
theorem barCounted_own {s : State} {v : View} {mode : BarMode} {n : Nat} (hb : s.blk? v.bk = some v.b) (hg : tget s.grids v.b.grid = some v.g)
    (hm : mode ≠ .wait) (ha : v.act ≠ 0) (hf : v.barFault mode n v.act = none) (ho : OwnBar s v.b n) :
    ∃ c, (v.barCounted s mode false n).blk? v.bk = some c
      ∧ (c.bar n).phase = if v.w.live &&& ~~~ (((tget (v.b.bar n).exec v.w.wid).getD 0) ||| v.act) = 0
          ∧ popcount (v.b.memberMask v.g n) ≤ popcount ((v.b.bar n).arrived ||| laneBit v.w.wid) then ((v.b.bar n).phase + 1) % 256 else (v.b.bar n).phase := by
  have hm' : (mode == .wait) = false := by simpa using hm
  have ha' : (v.act == 0) = false := by simpa using ha
  have hb1 := modBar_blk (n := n) (f := v.counts false) hb
  have hbar := bar_put v.b n (v.counts false (v.b.bar n))
  obtain ⟨h1, h2, h3, h4, h5, h6, h7⟩ := ho
  have hfault : v.b.isMember v.g n v.w.wid = true ∧ has (v.b.bar n).arrived v.w.wid = false := by
    unfold View.barFault at hf
    simp only [ha', hm', Bool.false_eq_true, if_false] at hf
    split at hf
    · exact absurd hf (by simp)
    · split at hf
      · exact absurd hf (by simp)
      · next hmem =>
        split at hf
        · exact absurd hf (by simp)
        · next harr => exact ⟨by simpa using hmem, by simpa using harr⟩
  have hexec : (tget (v.counts false (v.b.bar n)).exec v.w.wid).getD 0 = ((tget (v.b.bar n).exec v.w.wid).getD 0) ||| v.act := by
    simp [View.counts]
  have hexne : ((tget (v.b.bar n).exec v.w.wid).getD 0) ||| v.act ≠ 0 := by
    obtain ⟨l, hl⟩ := mask_ne_zero ha
    intro h
    have := has_or ((tget (v.b.bar n).exec v.w.wid).getD 0) v.act l
    rw [h, hl, Bool.or_true] at this
    exact absurd this (by simp [has])
  have hown : OwnBar (s.modBar v.bk n (v.counts false)) { v.b with bars := tput v.b.bars n (v.counts false (v.b.bar n)) } n :=
    ⟨h1, h2, h3, by rw [hbar]; exact h4, by rw [hbar]; show ((v.b.bar n).swap || false) = false; rw [h5]; rfl, by rw [hbar]; exact h6, by rw [hbar]; exact h7⟩
  obtain ⟨c, hc1, hc2⟩ := barJudge_own (wid := v.w.wid) (live := v.w.live) hb1 (g := v.g) hg hown (by rw [hbar, hexec]; exact hexne)
    (by rw [hbar]; exact hfault.2) hfault.1
  refine ⟨c, ?_, ?_⟩
  · unfold View.barCounted
    rw [hm', if_neg Bool.false_ne_true]
    exact hc1
  · rw [hbar, hexec] at hc2
    exact hc2

theorem Passes.congrNext {s t : State} {v : View} {w : Warp} {f g : Nat → W64} (h : Passes s v w f t) (hfg : ∀ l, has v.grp l = true → f l = g l) :
    Passes s v w g t := by
  obtain ⟨w', e0, e1, e2, e3, e4, e5, e6⟩ := h
  exact ⟨w', e0, e1, e2, e3, fun l hl => by rw [e4 l hl, hfg l hl], e5, e6⟩

/-- An instruction that goes on from a machine in which only barriers have changed. -/
theorem Passes.overBars {s s' t : State} {v : View} {f : Warp → Warp} {w : Warp} {next : Nat → W64} (h : Passes (s'.modWarp v.key f) v w next t)
    (ho : OnlyBars s s') : Flows s v w next t
      ∧ t = { s with warps := t.warps, blocks := t.blocks, arrs := t.arrs, swaps := t.swaps, nextKey := t.nextKey, issueCount := t.issueCount }
      ∧ t.blocks = s'.blocks := by
  have hwarps : s'.warps = s.warps := by rw [ho]
  have hcount : s'.issueCount = s.issueCount := by rw [ho]
  obtain ⟨-, e0, -⟩ := id h
  refine ⟨h.flows (ops := w.ops) hcount fun k hk => ?_, ?_, by rw [e0]; rfl⟩
  · rw [modWarp_warps, tget_tmod_ne _ _ hk, hwarps]
  · have h1 : t.blocks = s'.blocks := by rw [e0]; rfl
    have h2 : t.arrs = s'.arrs := by rw [e0]; rfl
    have h3 : t.swaps = s'.swaps := by rw [e0]; rfl
    have h4 : t.nextKey = s'.nextKey := by rw [e0]; rfl
    have h5 : t.issueCount = s'.issueCount + 1 := by rw [e0]; rfl
    rw [h1, h2, h3, h4, h5]
    refine e0.trans ?_
    rw [ho]
    rfl

/- BARSV (07 R156). -/

/-- An instruction that writes the results it has computed from the machine. -/
theorem issue_outs {s : State} {h : Hdr} {i : Instr} {v : View} {eff : View → State → Eff} (hi : Issues s h i v) (fs : List (Nat → W32))
    (he : eff v s = .done (v.outs s (reqOf i v) (fs.map perLane))) (hn : ((reqOf i v).writes.map Prod.fst).Nodup)
    (hf : ∀ x ∈ (reqOf i v).writes.zip (fs.map perLane), (reqOf i v).sat = true ∨ x.1.2.fits v.w v.act x.2) :
    ∃ t w, issue s h (reqOf i) eff = .next t ∧ Passes s v w (fun _ => v.next) t ∧ w = { v.w with regs := w.regs }
      ∧ RegsAfter v (((reqOf i v).writes.map Prod.fst).zip fs) w := by
  have hregs := outs_regs (fs := fs) hf hn
  obtain ⟨rs, os, hk⟩ := putAll_keeps v (reqOf i v).sat ((reqOf i v).writes.zip (fs.map perLane)) v.w
  obtain ⟨t, ht, hp⟩ := issue_done_modWarp hi.view hi.goes hi.calm (rq := reqOf i)
    (f := fun w => v.putAll (reqOf i v).sat w ((reqOf i v).writes.zip (fs.map perLane))) (he.trans (congrArg Eff.done (outs_eq ..))) (by rw [hk])
  rw [hk] at hp hregs
  exact ⟨t, { v.w with regs := rs }, ht, Passes.ops v.w.ops hp, rfl, hregs⟩

/-- BARSV writes what it reads of the barrier. -/
theorem exec_barsv {s : State} {h : Hdr} {d n : W9} {v : View} (hi : Issues s h (.barsv h d n) v) :
    ∃ t w, exec (.barsv h d n) s = .next t ∧ Passes s v w (fun _ => v.next) t
      ∧ w = { v.w with regs := w.regs } ∧ RegsAfter v [(d.toNat, fun l => s.barsv v.bk v.b n.toNat l)] w := by
  show ∃ t w, execBarsv h d n s = .next t ∧ _
  unfold execBarsv
  refine issue_outs hi [fun l => s.barsv v.bk v.b n.toNat l] rfl (List.nodup_singleton _) fun x hx => .inr ?_
  obtain rfl := List.mem_singleton.mp hx
  trivial

/- BARLD (07 R156). -/

/-- A table whose entries are changed under their keys. -/
theorem tget_map {α : Type} {t : Tbl α} {F : Nat × α → Nat × α} (hF : ∀ x, (F x).1 = x.1) {k : Nat} {v : α} (h : tget t k = some v) :
    tget (t.map F) k = some (F (k, v)).2 := by
  induction t with
  | nil => simp at h
  | cons y t ih =>
    obtain ⟨j, u⟩ := y
    have hk : F (j, u) = (j, (F (j, u)).2) := Prod.ext (hF (j, u)) rfl
    rw [List.map_cons, hk]
    by_cases hj : j = k
    · subst hj
      simp only [tget, if_true, Option.some.injEq] at h ⊢
      rw [h]
    · simp only [tget, hj, if_false] at h ⊢
      exact ih h

/-- The hub's count, judged: the phase completes for every block, or its members stand as they were and no block changes. -/
theorem hubCheck_spec {s : State} {gk bk n : Nat} {g : Grid} {b : Block} (hg : tget s.grids gk = some g) (hb : s.blk? bk = some b) :
    s.hubCheck gk n = { s with blocks := (s.hubCheck gk n).blocks, swaps := (s.hubCheck gk n).swaps, nextKey := (s.hubCheck gk n).nextKey,
                               grids := (s.hubCheck gk n).grids }
    ∧ ∃ g' c, tget (s.hubCheck gk n).grids gk = some g' ∧ (s.hubCheck gk n).blk? bk = some c
      ∧ ((g'.bar n).phase = (g.bar n).phase ∧ (g'.bar n).members = (g.bar n).members ∧ c = b ∨ (g'.bar n).phase = ((g.bar n).phase + 1) % 256) := by
  have hmod : ∀ f : BarSt → BarSt, tget (s.modHubBar gk n f).grids gk = some { g with bars := tput g.bars n (f (g.bar n)) } := by
    intro f
    unfold State.modHubBar
    rw [modGrid_grids, tget_tmod_self, hg]
    rfl
  have hbar : ∀ r : BarSt, ({ g with bars := tput g.bars n r } : Grid).bar n = r := fun r => by simp [Grid.bar]
  unfold State.hubCheck
  simp only [hg]
  split
  · exact ⟨rfl, g, b, hg, hb, .inl ⟨rfl, rfl, rfl⟩⟩
  · split
    · refine ⟨rfl, _, b, hmod (fun r => { r with swapping := true }), hb, .inl ⟨?_, ?_, rfl⟩⟩
      · rw [hbar]
      · rw [hbar]
    · refine ⟨rfl, _, _, hmod BarSt.complete, tget_map (fun x => ?_) hb, .inr ?_⟩
      · split <;> rfl
      · rw [hbar]
        rfl

/-- The barrier that BARLD loads from the lanes' words (07 R156). -/
def View.loaded (v : View) (n : Nat) (a : W9) : BarSt :=
  { v.b.bar n with phase := (v.w.rd a.toNat v.low).toNat / 2 ^ 24,
                   remote := if 64 ≤ n ∧ n < 112 then (v.w.rd a.toNat v.low).toNat / 2 ^ 16 % 256 else 0, members := [],
                   arrived := maskOf (fun l => if has v.act l then (v.w.rd a.toNat l).getLsbD 0 else has (v.b.bar n).arrived l) }

/-- The members that a loaded grid barrier gives the hub. -/
def View.hubMembers (v : View) (n : Nat) (a : W9) : List (Nat × Nat) :=
  (v.g.bar n).members.filter (fun x => x.1 != v.bk) ++ (lanesOf (v.loaded n a).arrived).map (fun l => (v.bk, l))

theorem load_eq (v : View) (n : Nat) (a : W9) :
    (v.b.bar n).load (64 ≤ n && n < 112) (v.w.rd a.toNat v.low)
      (((v.b.bar n).arrived &&& ~~~ v.act) ||| (maskOf (fun l => (v.w.rd a.toNat l).getLsbD 0) &&& v.act)) = v.loaded n a := by
  have harr : ((v.b.bar n).arrived &&& ~~~ v.act) ||| (maskOf (fun l => (v.w.rd a.toNat l).getLsbD 0) &&& v.act) = (v.loaded n a).arrived := by
    refine mask_ext fun l h32 => ?_
    show _ = has (maskOf _) l
    rw [has_or, has_and, has_and, has_not, has_maskOf, has_maskOf]
    cases has v.act l <;> simp [h32]
  have hphase : field (v.w.rd a.toNat v.low).toNat 24 8 = (v.w.rd a.toNat v.low).toNat / 2 ^ 24 := by
    have := (v.w.rd a.toNat v.low).isLt
    rw [field, Nat.shiftRight_eq_div_pow]
    exact Nat.mod_eq_of_lt (by omega)
  unfold BarSt.load
  rw [harr, hphase, field, Nat.shiftRight_eq_div_pow]
  unfold View.loaded
  simp

/-- What BARLD answers. -/
def View.barLoaded (v : View) (s : State) (n : Nat) (a : W9) : Option State :=
  if n < 112 then
    if s.barExpected v.bk n v.b v.g < (v.loaded n a).count then none else some ((s.modBar v.bk n (fun _ => v.loaded n a)).barCheck v.bk n)
  else if (v.loaded n a).phase = (v.g.bar n).phase then
    if s.barExpected v.bk n v.b v.g < (v.hubMembers n a).length then none
    else some (((s.modBar v.bk n (fun _ => v.loaded n a)).modHubBar v.b.grid n (fun h => { h with members := v.hubMembers n a })).hubCheck v.b.grid n)
  else some (s.modBar v.bk n (fun _ => v.loaded n a))

theorem barLoad_eq (v : View) (s : State) (n : Nat) (a : W9) :
    s.barLoad v.bk n v.b v.g (v.w.rd a.toNat v.low)
      (((v.b.bar n).arrived &&& ~~~ v.act) ||| (maskOf (fun l => (v.w.rd a.toNat l).getLsbD 0) &&& v.act)) = v.barLoaded s n a := by
  have hm : ((v.b.bar n).arrived &&& ~~~ v.act) ||| (maskOf (fun l => (v.w.rd a.toNat l).getLsbD 0) &&& v.act) = (v.loaded n a).arrived :=
    congrArg BarSt.arrived (load_eq v n a)
  unfold State.barLoad
  simp only [load_eq]
  rw [hm]
  rfl

/-- A loaded barrier, judged, and the machine beside it. -/
structure Loaded (s : State) (v : View) (n : Nat) (a : W9) (t : State) (c : Block) : Prop where
  rest : t = { s with blocks := t.blocks, swaps := t.swaps, nextKey := t.nextKey, grids := t.grids }
  blk : t.blk? v.bk = some c
  kept : n < 112 → t.grids = s.grids
  judged : n < 112 → (v.loaded n a).judged (c.bar n)
  apart : 112 ≤ n → (v.loaded n a).phase ≠ (v.g.bar n).phase → c.bar n = v.loaded n a ∧ t.grids = s.grids
  hub : 112 ≤ n → (v.loaded n a).phase = (v.g.bar n).phase → ∃ g, tget t.grids v.gk = some g ∧
    ((g.bar n).phase = (v.g.bar n).phase ∧ (g.bar n).members = v.hubMembers n a ∧ c.bar n = v.loaded n a ∨ (g.bar n).phase = ((v.loaded n a).phase + 1) % 256)
  own : n < 64 → (v.b.bar n).swap = false → (v.b.bar n).swapping = false → v.b.state ≠ .out → (∀ m ∈ s.arrs ++ v.b.wires, m.n ≠ n) →
    c.bar n = if 0 < popcount (v.loaded n a).arrived ∧ popcount (v.b.memberMask v.g n) ≤ popcount (v.loaded n a).arrived
      then (v.loaded n a).complete else v.loaded n a

/-- Arrivals that do not exceed the members. -/
def View.barFits (v : View) (s : State) (n : Nat) (a : W9) : Prop :=
  if n < 112 then (v.loaded n a).count ≤ s.barExpected v.bk n v.b v.g
  else (v.loaded n a).phase = (v.g.bar n).phase → (v.hubMembers n a).length ≤ s.barExpected v.bk n v.b v.g

theorem barLoaded_none {s : State} {v : View} {n : Nat} {a : W9} (h : ¬ v.barFits s n a) : v.barLoaded s n a = none := by
  unfold View.barFits at h
  unfold View.barLoaded
  by_cases hn : n < 112
  · rw [if_pos hn] at h ⊢
    exact if_pos (Nat.not_le.mp h)
  · rw [if_neg hn] at h ⊢
    rw [if_pos (by tauto)]
    exact if_pos (by omega)

theorem barLoaded_some {s : State} {v : View} {n : Nat} {a : W9} (hb : s.blk? v.bk = some v.b) (hgk : v.gk = v.b.grid)
    (hg : tget s.grids v.gk = some v.g) (h : v.barFits s n a) : ∃ t c, v.barLoaded s n a = some t ∧ Loaded s v n a t c := by
  have hb1 := modBar_blk (n := n) (f := fun _ => v.loaded n a) hb
  have hbar := bar_put v.b n (v.loaded n a)
  unfold View.barFits at h
  unfold View.barLoaded
  by_cases hn : n < 112
  · rw [if_pos hn] at h
    rw [if_pos hn, if_neg (Nat.not_lt.mpr h)]
    obtain ⟨h1, h2, c, h3, h4⟩ := barCheck_spec (n := n) hb1
    have hgrids : ((s.modBar v.bk n (fun _ => v.loaded n a)).barCheck v.bk n).grids = s.grids := by rw [h1]; rfl
    rw [hbar] at h4
    refine ⟨_, c, rfl, ?_, h3, fun _ => hgrids, fun _ => h4, fun h => absurd h (by omega), fun h => absurd h (by omega), fun h64 hs hsw ho hq => ?_⟩
    · rw [hgrids]
      unfold OnlyBars at h1
      refine h1.trans ?_
      rw [h2]
      rfl
    · obtain ⟨c', h5, h6⟩ := barCheck_own (g := v.g) hb1 (hgk ▸ hg) h64 ho hq (by rw [hbar]; exact hsw) (by rw [hbar]; exact hs)
        (by rw [hbar]; exact if_neg (by omega)) (by rw [hbar]; rfl)
      obtain rfl := Option.some.inj (h3.symm.trans h5)
      rw [h6, hbar]
      rfl
  · rw [if_neg hn] at h ⊢
    by_cases hp : (v.loaded n a).phase = (v.g.bar n).phase
    · rw [if_pos hp, if_neg (Nat.not_lt.mpr (h hp))]
      have hg1 : tget ((s.modBar v.bk n (fun _ => v.loaded n a)).modHubBar v.b.grid n (fun h => { h with members := v.hubMembers n a })).grids v.b.grid
          = some { v.g with bars := tput v.g.bars n { v.g.bar n with members := v.hubMembers n a } } := by
        unfold State.modHubBar
        rw [modGrid_grids, tget_tmod_self, show tget (s.modBar v.bk n (fun _ => v.loaded n a)).grids v.b.grid = some v.g from hgk ▸ hg]
        rfl
      obtain ⟨h1, g', c, h2, h3, h4⟩ := hubCheck_spec (n := n) (bk := v.bk) hg1 hb1
      have hgbar : ({ v.g with bars := tput v.g.bars n { v.g.bar n with members := v.hubMembers n a } } : Grid).bar n
          = { v.g.bar n with members := v.hubMembers n a } := by simp [Grid.bar]
      rw [hgbar] at h4
      refine ⟨_, c, rfl, h1, h3, fun h => absurd h hn, fun h => absurd h hn, fun _ h => absurd hp h, fun _ _ => ⟨g', hgk ▸ h2, ?_⟩,
        fun h => absurd h (by omega)⟩
      rcases h4 with ⟨h5, h6, h7⟩ | h5
      · exact .inl ⟨h5, h6, by rw [h7]; exact hbar⟩
      · exact .inr (by rw [h5, hp])
    · rw [if_neg hp]
      exact ⟨_, _, rfl, rfl, hb1, fun h => absurd h hn, fun h => absurd h hn, fun _ _ => ⟨hbar, rfl⟩, fun _ h => absurd h hp, fun h => absurd h (by omega)⟩

theorem exec_barld {s : State} {h : Hdr} {n a : W9} {v : View} (hi : Issues s h (.barld h n a) v) (ha : v.act ≠ 0) :
    exec (.barld h n a) s = .next (s.finish v (reqOf (.barld h n a) v) (match v.barLoaded s n.toNat a with
      | none => .raise .barOverarrive v.grp (BitVec.ofNat 64 n.toNat)
      | some t => .done t)) := by
  have ha' : (v.act == 0) = false := by simpa using ha
  show execBarld h n a s = _
  unfold execBarld
  rw [issue_goes hi.view hi.goes]
  simp only [ha', barLoad_eq]
  cases v.barLoaded s n.toNat a <;> rfl

/-- BARLD goes on with the barrier it has loaded. -/
theorem barld_done {s t : State} {h : Hdr} {n a : W9} {v : View} {c : Block} (hi : Issues s h (.barld h n a) v) (ha : v.act ≠ 0)
    (he : v.barLoaded s n.toNat a = some t) (hl : Loaded s v n.toNat a t c) :
    ∃ x, exec (.barld h n a) s = .next x ∧ Flows s v v.w (fun _ => v.next) x
      ∧ x = { s with warps := x.warps, blocks := x.blocks, swaps := x.swaps, nextKey := x.nextKey, issueCount := x.issueCount, grids := x.grids }
      ∧ x.blocks = t.blocks ∧ x.grids = t.grids := by
  obtain ⟨-, -, -, hw, -⟩ := view_spec hi.view
  have ha' : (v.act == 0) = false := by simpa using ha
  have hwarps : t.warps = s.warps := by rw [hl.rest]
  have hcount : t.issueCount = s.issueCount := by rw [hl.rest]
  obtain ⟨x, hx, hp⟩ : ∃ x, execBarld h n a s = .next x ∧ Passes t v v.w (fun _ => v.next) x := by
    unfold execBarld
    refine issue_done hi.view hi.goes hi.calm ?_ (by rw [hwarps]; exact hw) rfl
    simp only [ha', barLoad_eq, he]
    rfl
  obtain ⟨-, e0, -⟩ := id hp
  have h1 : x.blocks = t.blocks := by rw [e0]
  have h2 : x.swaps = t.swaps := by rw [e0]
  have h3 : x.nextKey = t.nextKey := by rw [e0]
  have h4 : x.issueCount = t.issueCount + 1 := by rw [e0]
  have h5 : x.grids = t.grids := by rw [e0]
  refine ⟨x, hx, hp.flows (ops := v.w.ops) hcount fun k _ => by rw [hwarps], ?_, h1, h5⟩
  rw [h1, h2, h3, h4, h5]
  refine e0.trans ?_
  rw [hl.rest]

/-- Settles O27: BAR counts its threads and waits or goes on; BARSV reads the barrier, and BARLD loads it. -/
theorem namedBarriers : Obligations.NamedBarriers := by
  unfold Obligations.NamedBarriers
  intro h mode swap n d a s v k r ran own
  refine ⟨fun hi ha hl hf hr => ?_, exec_barsv, fun hi ha => ?_⟩
  · obtain ⟨-, -, -, hw, -, -, -, -, -, hb, hgk, hg⟩ := view_spec hi.view
    obtain ⟨hbars, c, hc, hwait, hexec⟩ := barCounted_spec hb mode swap k
    have hw' : tget (v.barCounted s mode swap k).warps v.key = some v.w := by rw [hbars]; exact hw
    obtain ⟨t, ht, hp⟩ := exec_bar hi ha hl hf hr hc hw' rfl
    obtain ⟨hfl, hrest, hblocks⟩ := hp.overBars hbars
    have hstays : ((c.bar k).phase == r.phase && (mode == .sync || (mode == .wait && has r.arrived v.w.wid))) = v.barStays mode k (c.bar k).phase := rfl
    refine ⟨t, v.barWarp mode k (c.bar k).phase (c.bar k).doneClk s.tsc v.w, c, ht, (congrArg (fun b => tget b v.bk) hblocks).trans hc, ?_, barWarp_only .., hrest,
      fun l _ => ?_, hwait, fun hm hph => ?_, fun hm h64 hs hrs hrsw hrem hmem hown => ?_⟩
    · rw [hstays]
      refine Passes.congrNext hfl fun l hl' => ?_
      cases v.barStays mode k (c.bar k).phase with
      | true => rw [if_pos rfl, if_pos rfl, if_neg (by simp [has])]
      | false => rw [if_neg Bool.false_ne_true, if_neg Bool.false_ne_true, ha, if_pos hl', nth_perLane _ _ (has_lt hl')]
    · rw [hstays]
      exact nth_barWarp v mode k _ _ _ _ l (hl l)
    · show (tget (c.bar k).exec v.w.wid).getD 0 = _
      rw [hexec hm hph]
      simp [View.counts, ran, r]
    · subst hs
      have hne : v.act ≠ 0 := by rw [ha]; exact ((goes_iff v _).mp hi.goes).1
      obtain ⟨c', hc1, hc2⟩ := barCounted_own hb (hgk ▸ hg) hm hne hf ⟨h64, hown.1, hown.2, hrsw, hrs, hrem, hmem⟩
      obtain rfl := Option.some.inj (hc.symm.trans hc1)
      exact hc2
  · intro word loaded hub fits
    obtain ⟨-, -, -, -, -, -, -, -, -, hb, hgk, hg⟩ := view_spec hi.view
    refine ⟨fun hfit hs => ?_, fun hfit => ?_⟩
    · refine ⟨_, exec_barld hi ha, ?_⟩
      rw [barLoaded_none hfit]
      exact raise_traps hs (by decide) _ _
    · obtain ⟨t, c, he, hld⟩ := barLoaded_some hb hgk hg hfit
      obtain ⟨x, hx, hfl, hrest, hblocks, hgrids⟩ := barld_done hi ha he hld
      refine ⟨x, c, hx, hfl, (congrArg (fun b => tget b v.bk) hblocks).trans hld.blk, ?_, hld.judged, fun h1 h2 => ?_, fun h1 h2 => ?_, fun h64 hs hsw hown => ?_⟩
      · by_cases hk : k < 112
        · rw [if_pos hk, ← hld.kept hk, ← hgrids]
          exact hrest
        · rw [if_neg hk]
          exact hrest
      · rw [hgrids]
        exact hld.apart h1 h2
      · rw [hgrids]
        exact hld.hub h1 h2
      · exact hld.own h64 hs hsw hown.1 hown.2

end Sys2Proof.Machine
end

