-- ==== Sys2Proof/Proofs/Commands.lean ====
section
/-! SUPPORT. A command at the head of its queue, and what its answer leaves (20 R304). -/

namespace Sys2Proof.Machine

/-- A state whose queue has given its first command. -/
def State.popped (s : State) (fn q : Nat) (p : QPair) : State := { s with queues := tput s.queues (qkey fn q) p }

theorem queue_of_tget {s : State} {fn q : Nat} {p : QPair} (h : tget s.queues (qkey fn q) = some p) : s.queue fn q = p := by
  unfold State.queue
  rw [h]
  rfl

theorem heads_take {s : State} {fn q : Nat} {c : Cmd} {p : QPair} (h : Heads s fn q c p) {want : Cmd → Bool} (hw : want c = true) :
    s.takeCmd fn q want = some (c, s.popped fn q p) := by
  obtain ⟨hq, -, ⟨hst, hfn, h16⟩, -⟩ := h
  have hqueue := queue_of_tget hq
  have hf : s.hasFn fn = true := by simpa [State.hasFn] using hfn
  have hst' : (s.stage == .off) = false := by simpa using hst
  have hpop : s.modQueue fn q QPair.pop = s.popped fn q p := by
    unfold State.modQueue State.popped
    rw [hqueue, hf, if_pos (by simpa using h16)]
    rfl
  unfold State.takeCmd
  simp only [hst', hf, hqueue, hpop, Bool.not_true, Bool.or_self, Bool.false_eq_true, if_false, List.head?_cons, Option.filter, hw, if_true]

theorem dropUnknown_known {s : State} {fn q : Nat} {l : List Cmd} (h : ∀ x, l.head? = some x → x.known = true) : s.dropUnknown fn q l = s := by
  cases l with
  | nil => rfl
  | cons c rest => exact if_pos (h c rfl)

/-- The command at the head is run, and the next one stands where the queue's others are kept. -/
theorem command_runs {s : State} {fn q : Nat} {c : Cmd} {p : QPair} (h : Heads s fn q c p) {want reserved : Cmd → Bool} (hw : want c = true)
    (hr : reserved c = false) {run : State → Cmd → State} (hk : ((run (s.popped fn q p) c).queue fn q).cmds = p.cmds) :
    s.command fn q want reserved run = .next (run (s.popped fn q p) c) := by
  unfold State.command
  rw [heads_take h hw]
  simp only [h.header, hr, Bool.or_self, Bool.false_eq_true, if_false]
  rw [hk, dropUnknown_known h.follows]

theorem any_tput_of_some {α : Type} {t : Tbl α} {k : Nat} {u v : α} (p : Nat × α → Bool) (h : tget t k = some u) (hv : p (k, v) = p (k, u)) :
    (tput t k v).any p = t.any p := by
  induction t with
  | nil => simp at h
  | cons x t ih =>
    obtain ⟨j, w⟩ := x
    by_cases hj : j = k
    · subst hj
      simp only [tget, if_true, Option.some.injEq] at h
      subst h
      simp [tput, hv]
    · simp only [tget, hj, if_false] at h
      by_cases hlt : k < j
      · have hm : ((j, w) :: t).any p = true ∨ p (k, v) = false := by
          cases hp : p (k, v) with
          | false => exact .inr rfl
          | true => exact .inl (List.any_eq_true.mpr ⟨(k, u), List.mem_cons_of_mem _ (tget_mem h), hv ▸ hp⟩)
        rcases hm with hm | hm <;> simp [tput, hlt, hm]
      · simp [tput, hlt, Ne.symm hj, ih h]

theorem closing_popped {s : State} {fn q : Nat} {c : Cmd} {p : QPair} (h : Heads s fn q c p) (cx : Nat) : (s.popped fn q p).closing cx = s.closing cx :=
  any_tput_of_some _ h.queue rfl

/-- The same, of a command of a context that is open for the function. -/
theorem ctxCommand_runs {s : State} {fn q : Nat} {c : Cmd} {p : QPair} {x : Ctx} (h : Heads s fn q c p) (hx : tget s.ctxs c.ctx = some x)
    (hfn : x.fn = fn) (hcl : s.closing c.ctx = false) {want reserved : Cmd → Bool} (hw : want c = true) (hr : reserved c = false)
    {run : State → Cmd → Ctx → State} (hk : ((run (s.popped fn q p) c x).queue fn q).cmds = p.cmds) :
    s.ctxCommand fn q want reserved run = .next (run (s.popped fn q p) c x) := by
  have hrun : (match (tget (s.popped fn q p).ctxs c.ctx).filter (fun x => x.fn == fn && !(s.popped fn q p).closing c.ctx) with
      | none => (s.popped fn q p).reply fn q c.cid 3 none
      | some x => run (s.popped fn q p) c x) = run (s.popped fn q p) c x := by
    rw [closing_popped h, hcl, show tget (s.popped fn q p).ctxs c.ctx = some x from hx]
    simp [Option.filter, hfn]
  unfold State.ctxCommand
  rw [command_runs h hw hr (by rw [← hk]; exact congrArg (fun t => (State.queue t fn q).cmds) hrun)]
  exact congrArg Host.Outcome.next hrun

/-- What a command of a context comes to. -/
theorem ctxCommand_to {s T : State} {fn q : Nat} {c : Cmd} {p p' : QPair} {x : Ctx} (h : Heads s fn q c p) (hx : tget s.ctxs c.ctx = some x)
    (hfn : x.fn = fn) (hcl : s.closing c.ctx = false) {want reserved : Cmd → Bool} (hw : want c = true) (hr : reserved c = false)
    {run : State → Cmd → Ctx → State} (hT : run (s.popped fn q p) c x = T) (hq : tget T.queues (qkey fn q) = some p') (hk : p'.cmds = p.cmds) :
    s.ctxCommand fn q want reserved run = .next T := by
  rw [ctxCommand_runs h hx hfn hcl hw hr (by rw [hT, queue_of_tget hq, hk]), hT]

theorem popped_queue (s : State) (fn q : Nat) (p : QPair) : tget (s.popped fn q p).queues (qkey fn q) = some p := tget_tput_self _ _ _

/-- The answer to a command whose queue holds p. -/
theorem reply_answers {s : State} {fn q : Nat} {p : QPair} (hq : tget s.queues (qkey fn q) = some p) (cid status : Nat) :
    Answered (s.reply fn q cid status none) fn q p cid status none := by
  obtain ⟨y, h1, h2, h3⟩ := reply_done cid status none hq
  exact ⟨y, h1, h2, h3, fun _ h => absurd h (by simp)⟩

theorem reply_cmds {s : State} {fn q : Nat} {p : QPair} (hq : tget s.queues (qkey fn q) = some p) (cid status : Nat) :
    ((s.reply fn q cid status none).queue fn q).cmds = p.cmds := by
  obtain ⟨y, h1, -, -⟩ := reply_done cid status none hq
  rw [queue_of_tget h1]

end Sys2Proof.Machine
end

