-- ==== Sys2Proof/Proofs/Launches.lean ====
section
/-! PROOFS. LAUNCH, LAUNCH_ACCEPT, PREEMPT and RESTORE (20 R304, R309; 01 R35; 13 R228, R233). -/

namespace Sys2Proof.Machine

/- LAUNCH. -/

theorem recordReads_same (s : State) (cx va : Nat) (r : Launch) (ceils : Tab (List Tag)) (segs : Tab (List Segment)) :
    SameButOut s (s.recordReads cx va r ceils segs) := by
  have h1 : SameButOut s ((s.readsOut 4 cx va 256).readsOut 4 cx (vbits r.ceilt) (4 + 4 * ceilDiv (ceils.get []).length 16)) :=
    (readsOut_same ..).trans (readsOut_same ..)
  unfold State.recordReads
  generalize (s.readsOut 4 cx va 256).readsOut 4 cx (vbits r.ceilt) (4 + 4 * ceilDiv (ceils.get []).length 16) = t at h1
  have h2 : SameButOut s (if r.bmaskt = 0 then t else t.readsOut 4 cx (vbits r.bmaskt) 256) := by
    split
    · exact h1
    · exact h1.trans (readsOut_same ..)
  simp only
  generalize (if r.bmaskt = 0 then t else t.readsOut 4 cx (vbits r.bmaskt) 256) = u at h2
  split
  · exact h2
  · refine h2.trans ((readsOut_same u 4 cx _ _).trans (foldl_sameButOut _ (fun s x => ?_) _ _))
    split
    · exact readsOut_same ..
    · exact .refl s

/-- The segments that a launch of its kind has. -/
def State.launchSegs (s : State) (cx : Nat) (r : Launch) : Tab (List Segment) := if r.travel then s.segTable cx r else .ok []

/-- The status a launch's record gives (20 R304). -/
def State.recordStatus (s : State) (cx : Nat) (x : Ctx) (bytes : List Byte) : Nat :=
  s.launchStatus cx x bytes (launchOf bytes) (s.ceilTable cx (launchOf bytes).ceilt) (s.maskTable cx (launchOf bytes).bmaskt)
    (s.launchSegs cx (launchOf bytes))

theorem popped_segments (s : State) (fn q : Nat) (p : QPair) (cx : Nat) (a : W64) (n : Nat) :
    (s.popped fn q p).readSegments cx a n = s.readSegments cx a n := by
  induction n generalizing a with
  | zero => rfl
  | succ n ih =>
    rw [State.readSegments, State.readSegments, ih]
    rfl

theorem popped_segs (s : State) (fn q : Nat) (p : QPair) (cx : Nat) (r : Launch) : (s.popped fn q p).launchSegs cx r = s.launchSegs cx r := by
  unfold State.launchSegs State.segTable
  simp only [popped_segments]
  rfl

/-- The record is judged as before its command was taken. -/
theorem popped_status (s : State) (fn q : Nat) (p : QPair) (cx : Nat) (x : Ctx) (bytes : List Byte) :
    (s.popped fn q p).recordStatus cx x bytes = s.recordStatus cx x bytes := by
  unfold State.recordStatus
  rw [popped_segs]
  rfl

/-- The context measures the record of a launch that it could read. -/
def State.measured (s : State) (cx : Nat) (bytes : List Byte) : State := s.modCtx cx (fun x => { x with m4 := digest (x.m4 ++ bytes) })

/-- The machine once the record of a launch has been read. -/
def State.recorded (s : State) (cx va : Nat) (bytes : List Byte) : State :=
  s.recordReads cx va (launchOf bytes) (s.ceilTable cx (launchOf bytes).ceilt) (s.launchSegs cx (launchOf bytes))

/-- The grid that a launch makes. -/
def State.launched (s : State) (fn q : Nat) (c : Cmd) (bytes : List Byte) (ceils : List Tag) (masks : List W32) (segs : List Segment) : State :=
  { s with nextKey := s.nextKey + 1, grids := tput s.grids s.nextKey (s.newGrid fn q c (launchOf bytes) ceils masks segs) }

/-- The machine once a launch has made its grid, accepted at once where it need wait for no other. -/
def State.launchMade (s : State) (fn q : Nat) (c : Cmd) (bytes : List Byte) (ceils : List Tag) (masks : List W32) (segs : List Segment) : State :=
  if (s.launched fn q c bytes ceils masks segs).mayAccept (s.newGrid fn q c (launchOf bytes) ceils masks segs)
  then (s.launched fn q c bytes ceils masks segs).acceptGrid s.nextKey else s.launched fn q c bytes ceils masks segs

/-- What a record that could be read comes to. -/
def State.launchEnd (s : State) (fn q : Nat) (c : Cmd) (x : Ctx) (bytes : List Byte) : State :=
  let rec_ := s.recorded c.ctx (c.word64 2 % 2 ^ 57) bytes
  if s.recordStatus c.ctx x bytes = 1 then rec_.reply fn q c.cid 1 none
  else if s.recordStatus c.ctx x bytes != 0 then (rec_.measured c.ctx bytes).reply fn q c.cid (s.recordStatus c.ctx x bytes) none
  else (rec_.measured c.ctx bytes).launchMade fn q c bytes ((s.ceilTable c.ctx (launchOf bytes).ceilt).get [])
    ((s.maskTable c.ctx (launchOf bytes).bmaskt).get []) ((s.launchSegs c.ctx (launchOf bytes)).get [])

theorem recorded_only (s : State) (cx va : Nat) (bytes : List Byte) : SameButOut s (s.recorded cx va bytes) := recordReads_same ..

theorem recorded_queues (s : State) (cx va : Nat) (bytes : List Byte) : (s.recorded cx va bytes).queues = s.queues := by
  rw [recorded_only s cx va bytes]

/- A launch is accepted, and begins (01 R35, R37). -/

theorem foldl_dies {α : Type} (f : State → α → State) (hf : ∀ s i, f s i = { s with dies := (f s i).dies }) (l : List α) (s : State) :
    l.foldl f s = { s with dies := (l.foldl f s).dies } := by
  induction l generalizing s with
  | nil => rfl
  | cons i l ih => rw [List.foldl_cons, ih, hf s i]

theorem deal_dies (s : State) (gk : Nat) (g : Grid) : s.deal gk g = { s with dies := (s.deal gk g).dies } :=
  foldl_dies _ (fun _ _ => rfl) _ s

/-- Only one grid, and the ranges of the dies, differ; of the grid, only whether it is accepted, held and runs, and its order. -/
structure Begins (s : State) (gk : Nat) (g : Grid) (t : State) (g' : Grid) : Prop where
  rest : t = { s with grids := t.grids, dies := t.dies, launchCount := t.launchCount }
  grid : tget t.grids gk = some g'
  same : g' = { g with accepted := g'.accepted, held := g'.held, order := g'.order, state := g'.state }
  others : ∀ k, k ≠ gk → tget t.grids k = tget s.grids k

theorem modGrid_begins {s : State} {gk : Nat} {g : Grid} (hg : tget s.grids gk = some g) (f : Grid → Grid)
    (hf : f g = { g with accepted := (f g).accepted, held := (f g).held, order := (f g).order, state := (f g).state }) :
    Begins s gk g (s.modGrid gk f) (f g) :=
  ⟨rfl, by rw [modGrid_grids, tget_tmod_self, hg]; rfl, hf, fun k hk => tget_tmod_ne _ _ hk⟩

theorem Begins.trans {s t u : State} {gk : Nat} {g g1 g2 : Grid} (h1 : Begins s gk g t g1) (h2 : Begins t gk g1 u g2) : Begins s gk g u g2 := by
  refine ⟨by rw [h2.rest, h1.rest], h2.grid, by rw [h2.same, h1.same], fun k hk => (h2.others k hk).trans (h1.others k hk)⟩

theorem beginGrid_begins {s : State} {gk : Nat} {g : Grid} (hg : tget s.grids gk = some g) :
    ∃ g', Begins s gk g (s.beginGrid gk) g' ∧ g'.accepted = g.accepted ∧ g'.order = g.order ∧ (s.beginGrid gk).launchCount = s.launchCount := by
  have hbegin : Begins s gk g (s.modGrid gk (fun g => { g with held := false, state := if g.rec_.coop || g.rec_.travel then .waiting else .running }))
      { g with held := false, state := if g.rec_.coop || g.rec_.travel then .waiting else .running } := modGrid_begins hg _ rfl
  unfold State.beginGrid
  simp only [hg]
  split
  · exact ⟨_, modGrid_begins hg (fun g => { g with held := true }) rfl, rfl, rfl, rfl⟩
  · split
    · exact ⟨_, hbegin, rfl, rfl, rfl⟩
    · have hd := deal_dies (s.modGrid gk (fun g => { g with held := false, state := if g.rec_.coop || g.rec_.travel then .waiting else .running })) gk g
      refine ⟨_, ⟨?_, ?_, hbegin.same, fun k hk => ?_⟩, rfl, rfl, ?_⟩
      · rw [hd]; rfl
      · rw [hd]; exact hbegin.grid
      · rw [hd]; exact hbegin.others k hk
      · rw [hd]; rfl

/-- An accepted launch takes the next place in the order; one that is held, as in the Bisque stage, has no block dealt. -/
theorem acceptGrid_begins {s : State} {gk : Nat} {g : Grid} (hg : tget s.grids gk = some g) :
    ∃ g', Begins s gk g (s.acceptGrid gk) g' ∧ g'.accepted = true ∧ g'.order = s.launchCount + 1 ∧ (s.acceptGrid gk).launchCount = s.launchCount + 1
      ∧ ((s.stage != .glaze && (s.trained || g.rec_.needsGlaze)) = true → g'.held = true ∧ (s.acceptGrid gk).dies = s.dies) := by
  have hcount : Begins s gk g { s with launchCount := s.launchCount + 1 } g := ⟨rfl, hg, rfl, fun _ _ => rfl⟩
  have hmod := hcount.trans (modGrid_begins (s := { s with launchCount := s.launchCount + 1 }) hg
    (fun x => { x with accepted := true, held := s.stage != .glaze && (s.trained || g.rec_.needsGlaze), order := s.launchCount + 1 }) rfl)
  unfold State.acceptGrid
  simp only [hg]
  split
  · next hh => exact ⟨_, hmod, rfl, rfl, rfl, fun _ => ⟨hh, rfl⟩⟩
  · next hh =>
    obtain ⟨g', h1, h2, h3, h4⟩ := beginGrid_begins hmod.grid
    exact ⟨g', hmod.trans h1, h2, h3, h4, fun h => absurd h hh⟩

/-- A launch's grid stands under the next key. -/
theorem launchMade_spec (s : State) (fn q : Nat) (c : Cmd) (bytes : List Byte) (ceils : List Tag) (masks : List W32) (segs : List Segment) :
    ∃ g, Begins (s.launched fn q c bytes ceils masks segs) s.nextKey (s.newGrid fn q c (launchOf bytes) ceils masks segs)
        (s.launchMade fn q c bytes ceils masks segs) g
      ∧ (s.earlier fn q c = [] → g.accepted = true ∧ g.order = s.launchCount + 1) ∧ (g.accepted = false → g.state = .waiting) := by
  have hg : tget (s.launched fn q c bytes ceils masks segs).grids s.nextKey = some (s.newGrid fn q c (launchOf bytes) ceils masks segs) :=
    tget_tput_self _ _ _
  unfold State.launchMade
  split
  · obtain ⟨g, h1, h2, h3, -⟩ := acceptGrid_begins hg
    exact ⟨g, h1, fun _ => ⟨h2, h3⟩, fun h => absurd (h2.symm.trans h) (by decide)⟩
  · next hm =>
    refine ⟨_, ⟨rfl, hg, rfl, fun _ _ => rfl⟩, fun he => absurd ?_ hm, fun _ => rfl⟩
    unfold State.mayAccept
    rw [show (s.newGrid fn q c (launchOf bytes) ceils masks segs).after = [] from he]
    rfl

section Launch

variable {s : State} {fn q : Nat} {c : Cmd} {p : QPair} {x : Ctx} {bytes : List Byte}

/-- A record that is not aligned completes with BAD_FORMAT. -/
theorem launch_misaligned (h : Heads s fn q c p) (hx : tget s.ctxs c.ctx = some x) (hfn : x.fn = fn) (hcl : s.closing c.ctx = false)
    (ho : c.opc = 0x20) (ha : c.word64 2 % 64 ≠ 0) :
    exec (.launch fn q) s = .next ((s.popped fn q p).reply fn q c.cid 0x13 none) := by
  obtain ⟨y, hy, -, -⟩ := reply_done c.cid 0x13 none (popped_queue s fn q p)
  show execLaunch fn q s = _
  unfold execLaunch
  refine ctxCommand_to h hx hfn hcl (by simp [isOp, ho]) rfl ?_ hy rfl
  simp only [bne_iff_ne, ne_eq, ha, not_false_eq_true, if_true]

theorem launch_read {T : State} {p' : QPair} (h : Heads s fn q c p) (hx : tget s.ctxs c.ctx = some x) (hfn : x.fn = fn)
    (hcl : s.closing c.ctx = false) (ho : c.opc = 0x20) (ha : c.word64 2 % 64 = 0) (hb : s.peekVa 4 c.ctx (c.word64 2 % 2 ^ 57) 256 = some bytes)
    (hT : (s.popped fn q p).launchEnd fn q c x bytes = T) (hq : tget T.queues (qkey fn q) = some p') (hk : p'.cmds = p.cmds) :
    exec (.launch fn q) s = .next T := by
  have hread : (s.popped fn q p).peekVa 4 c.ctx (c.word64 2 % 2 ^ 57) 256 = some bytes := hb
  show execLaunch fn q s = _
  unfold execLaunch
  refine ctxCommand_to h hx hfn hcl (by simp [isOp, ho]) rfl ?_ hq hk
  simp only [ha, hread, bne_self_eq_false, Bool.false_eq_true, if_false]
  exact hT

/-- A record that fails a check completes with its status. -/
theorem launch_refused (h : Heads s fn q c p) (hx : tget s.ctxs c.ctx = some x) (hfn : x.fn = fn) (hcl : s.closing c.ctx = false)
    (ho : c.opc = 0x20) (ha : c.word64 2 % 64 = 0) (hb : s.peekVa 4 c.ctx (c.word64 2 % 2 ^ 57) 256 = some bytes)
    (hst : s.recordStatus c.ctx x bytes ≠ 0) :
    ∃ t, exec (.launch fn q) s = .next t ∧ Answered t fn q p c.cid (s.recordStatus c.ctx x bytes) none ∧ t.grids = s.grids ∧ t.mem = s.mem := by
  have hrec := recorded_only (s.popped fn q p) c.ctx (c.word64 2 % 2 ^ 57) bytes
  have hgrids : ((s.popped fn q p).recorded c.ctx (c.word64 2 % 2 ^ 57) bytes).grids = s.grids := by rw [hrec]; rfl
  have hmem : ((s.popped fn q p).recorded c.ctx (c.word64 2 % 2 ^ 57) bytes).mem = s.mem := by rw [hrec]; rfl
  have hqueue : tget ((s.popped fn q p).recorded c.ctx (c.word64 2 % 2 ^ 57) bytes).queues (qkey fn q) = some p := by
    rw [recorded_queues]; exact popped_queue s fn q p
  have hend : ∀ s1 : State, tget s1.queues (qkey fn q) = some p → s1.grids = s.grids → s1.mem = s.mem →
      (s.popped fn q p).launchEnd fn q c x bytes = s1.reply fn q c.cid (s.recordStatus c.ctx x bytes) none →
      ∃ t, exec (.launch fn q) s = .next t ∧ Answered t fn q p c.cid (s.recordStatus c.ctx x bytes) none ∧ t.grids = s.grids ∧ t.mem = s.mem := by
    intro s1 h1 h2 h3 h4
    obtain ⟨y, hy, -, -⟩ := reply_done c.cid (s.recordStatus c.ctx x bytes) none h1
    exact ⟨_, launch_read h hx hfn hcl ho ha hb h4 hy rfl, reply_answers h1 _ _, h2, h3⟩
  by_cases h1 : s.recordStatus c.ctx x bytes = 1
  · refine hend _ hqueue hgrids hmem ?_
    unfold State.launchEnd
    rw [popped_status, h1]
    rfl
  · refine hend (((s.popped fn q p).recorded c.ctx (c.word64 2 % 2 ^ 57) bytes).measured c.ctx bytes) hqueue hgrids hmem ?_
    unfold State.launchEnd
    rw [popped_status]
    simp only [h1, if_false, bne_iff_ne, ne_eq, hst, not_false_eq_true, if_true]

/-- A record that passes every check makes a grid that holds it. -/
theorem launch_makes (h : Heads s fn q c p) (hx : tget s.ctxs c.ctx = some x) (hfn : x.fn = fn) (hcl : s.closing c.ctx = false)
    (ho : c.opc = 0x20) (ha : c.word64 2 % 64 = 0) (hb : s.peekVa 4 c.ctx (c.word64 2 % 2 ^ 57) 256 = some bytes)
    (hst : s.recordStatus c.ctx x bytes = 0) :
    ∃ t g, exec (.launch fn q) s = .next t ∧ tget t.queues (qkey fn q) = some p ∧ tget t.grids s.nextKey = some g ∧ t.mem = s.mem
      ∧ (∀ k, k ≠ s.nextKey → tget t.grids k = tget s.grids k) ∧ g.rec_ = launchOf bytes ∧ g.ctx = c.ctx ∧ g.cid = c.cid ∧ g.fn = fn ∧ g.q = q
      ∧ (s.earlier fn q c = [] → g.accepted = true ∧ g.order = s.launchCount + 1) ∧ (g.accepted = false → g.state = .waiting) := by
  have hrec := recorded_only (s.popped fn q p) c.ctx (c.word64 2 % 2 ^ 57) bytes
  have hend : (s.popped fn q p).launchEnd fn q c x bytes
      = (((s.popped fn q p).recorded c.ctx (c.word64 2 % 2 ^ 57) bytes).measured c.ctx bytes).launchMade fn q c bytes
        (((s.popped fn q p).ceilTable c.ctx (launchOf bytes).ceilt).get []) (((s.popped fn q p).maskTable c.ctx (launchOf bytes).bmaskt).get [])
        (((s.popped fn q p).launchSegs c.ctx (launchOf bytes)).get []) := by
    unfold State.launchEnd
    rw [popped_status, hst]
    rfl
  generalize ((s.popped fn q p).ceilTable c.ctx (launchOf bytes).ceilt).get [] = ceils at hend
  generalize ((s.popped fn q p).maskTable c.ctx (launchOf bytes).bmaskt).get [] = masks at hend
  generalize ((s.popped fn q p).launchSegs c.ctx (launchOf bytes)).get [] = segs at hend
  generalize hu : ((s.popped fn q p).recorded c.ctx (c.word64 2 % 2 ^ 57) bytes).measured c.ctx bytes = u at hend
  have hr : u = { s.popped fn q p with outbound := u.outbound, ctxs := u.ctxs } := by
    rw [← hu]
    unfold State.measured
    rw [hrec]
    rfl
  obtain ⟨g, hbeg, hacc, hwait⟩ := launchMade_spec u fn q c bytes ceils masks segs
  have hkey : u.nextKey = s.nextKey := by rw [hr]; rfl
  have hgrids : u.grids = s.grids := by rw [hr]; rfl
  have hq : tget (u.launchMade fn q c bytes ceils masks segs).queues (qkey fn q) = some p := by
    rw [hbeg.rest]
    show tget u.queues _ = _
    rw [hr]
    exact popped_queue s fn q p
  rw [hkey] at hbeg
  refine ⟨_, g, launch_read h hx hfn hcl ho ha hb hend hq rfl, hq, hbeg.grid, ?_, fun k hk => ?_, by rw [hbeg.same]; rfl, by rw [hbeg.same]; rfl, by rw [hbeg.same]; rfl,
    by rw [hbeg.same]; rfl, by rw [hbeg.same]; rfl, fun he => ?_, hwait⟩
  · rw [hbeg.rest]
    show u.mem = s.mem
    rw [hr]
    rfl
  · rw [hbeg.others k hk]
    show tget (tput u.grids u.nextKey _) k = _
    rw [hkey, tget_tput_ne _ _ hk, hgrids]
  · have hcount : u.launchCount = s.launchCount := by rw [hr]; rfl
    rw [← hcount]
    refine hacc ?_
    unfold State.earlier at he ⊢
    rw [hgrids]
    exact he

end Launch

/- Raising PREEMPT at a block (13 R228). -/

/-- A state with other queues and other requests to the host. -/
def State.requeue (s : State) (qs : Tbl QPair) (o : List OutReq) : State := { s with queues := qs, outbound := o }

/-- Of a machine, only what a die's writes change differs. -/
def OnlySent (s t : State) : Prop := t = { s with dies := t.dies, nextKey := t.nextKey, msgs := t.msgs, writes := t.writes }

theorem OnlySent.trans {a b c : State} (h1 : OnlySent a b) (h2 : OnlySent b c) : OnlySent a c := by
  unfold OnlySent at *
  rw [h2, h1]

/-- One line's bytes are sent. -/
def sendLine (die : Nat) (vec : VC) (at_ : WAttr) (bytes : List (Nat × Byte)) (acc : State × VC) (line : Nat) : State × VC :=
  ((acc.1.sendWrite die vec at_ (bytes.filter (fun b => lineOf b.1 == line)) (wholeWords 32 (bytes.filter (fun b => lineOf b.1 == line)))).1,
   acc.2.raise die (acc.1.sendWrite die vec at_ (bytes.filter (fun b => lineOf b.1 == line)) (wholeWords 32 (bytes.filter (fun b => lineOf b.1 == line)))).2)

theorem sendWrites_eq (s : State) (die : Nat) (vec : VC) (at_ : WAttr) (bytes : List (Nat × Byte)) :
    s.sendWrites die vec at_ bytes = (linesOf (lastBytes bytes)).foldl (sendLine die vec at_ (lastBytes bytes)) (s, .zero) := rfl

theorem sendWrites_only (s : State) (die : Nat) (vec : VC) (at_ : WAttr) (bytes : List (Nat × Byte)) :
    OnlySent s (s.sendWrites die vec at_ bytes).1 := by
  rw [sendWrites_eq]
  have h : ∀ (ls : List Nat) (acc : State × VC), OnlySent acc.1 (ls.foldl (sendLine die vec at_ (lastBytes bytes)) acc).1 := by
    intro ls
    induction ls with
    | nil => exact fun _ => rfl
    | cons l ls ih => exact fun acc => (show OnlySent acc.1 (sendLine die vec at_ (lastBytes bytes) acc l).1 from rfl).trans (ih _)
  exact h _ (s, .zero)

theorem sendWrites_requeue (s : State) (qs : Tbl QPair) (o : List OutReq) (die : Nat) (vec : VC) (at_ : WAttr) (bytes : List (Nat × Byte)) :
    (s.requeue qs o).sendWrites die vec at_ bytes = ((s.sendWrites die vec at_ bytes).1.requeue qs o, (s.sendWrites die vec at_ bytes).2) := by
  rw [sendWrites_eq, sendWrites_eq]
  have h : ∀ (ls : List Nat) (acc : State × VC), ls.foldl (sendLine die vec at_ (lastBytes bytes)) (acc.1.requeue qs o, acc.2)
      = ((ls.foldl (sendLine die vec at_ (lastBytes bytes)) acc).1.requeue qs o, (ls.foldl (sendLine die vec at_ (lastBytes bytes)) acc).2) := by
    intro ls
    induction ls with
    | nil => exact fun _ => rfl
    | cons l ls ih =>
      intro acc
      rw [List.foldl_cons, List.foldl_cons, ← ih]
      rfl
  exact h _ (s, .zero)

/-- A raised state's successor. -/
def Raised.map (f : State → State) (r : Raised) : Raised :=
  match r with
  | .noRoom => .noRoom
  | .unwritable => .unwritable
  | .ok s => .ok (f s)

/-- A block with PREEMPT raised: its frame is allotted at a, and its warps have the cause. -/
def State.raisedAt (s : State) (bk : Nat) (b : Block) (g : Grid) (a : Nat) (r : State × VC) : State :=
  ((r.1.modBlock bk (fun b => { b with state := .preempting, frame := a, warpno := s.widsOf bk, clk := b.clk.join r.2 })).modGrid b.grid
    (fun x => { x with frames := x.frames ++ [(bk, a, frameSize g.ceils (s.widsOf bk).length b.poolw)] })).notifyBlock bk .preempt (BitVec.ofNat 64 a)

theorem raisePreempt_eq (s : State) (bk : Nat) (b : Block) (g : Grid) :
    s.raisePreempt bk b g = match s.allotFrame g (frameSize g.ceils (s.widsOf bk).length b.poolw) with
      | none => .noRoom
      | some a => match s.writable 4 g.ctx a (frameHeader b g.ceils (s.widsOf bk)).length with
        | none => .unwritable
        | some pas => .ok (s.raisedAt bk b g a (s.sendWrites 4 .zero { cx := g.ctx } (pas.zip (frameHeader b g.ceils (s.widsOf bk))))) := by
  unfold State.raisePreempt State.pokeVa
  simp only
  generalize frameHeader b g.ceils (s.widsOf bk) = header
  cases s.allotFrame g (frameSize g.ceils (s.widsOf bk).length b.poolw) with
  | none => rfl
  | some a =>
    simp only
    cases s.writable 4 g.ctx a header.length <;> rfl

theorem raisePreempt_requeue (s : State) (qs : Tbl QPair) (o : List OutReq) (bk : Nat) (b : Block) (g : Grid) :
    (s.requeue qs o).raisePreempt bk b g = (s.raisePreempt bk b g).map (fun t => t.requeue qs o) := by
  have hwids : (s.requeue qs o).widsOf bk = s.widsOf bk := rfl
  have hallot : ∀ size, (s.requeue qs o).allotFrame g size = s.allotFrame g size := fun _ => rfl
  have hwritable : ∀ a n, (s.requeue qs o).writable 4 g.ctx a n = s.writable 4 g.ctx a n := fun _ _ => rfl
  have hraised : ∀ a (r : State × VC), (s.requeue qs o).raisedAt bk b g a (r.1.requeue qs o, r.2) = (s.raisedAt bk b g a r).requeue qs o := fun _ _ => rfl
  rw [raisePreempt_eq, raisePreempt_eq, hwids, hallot]
  generalize frameHeader b g.ceils (s.widsOf bk) = header
  cases s.allotFrame g (frameSize g.ceils (s.widsOf bk).length b.poolw) with
  | none => rfl
  | some a =>
    simp only [hwritable]
    cases s.writable 4 g.ctx a header.length with
    | none => rfl
    | some pas =>
      simp only [sendWrites_requeue]
      exact congrArg Raised.ok (hraised a _)

/-- Whether the headers can be written does not rest on the queues. -/
theorem headersOk_requeue (s : State) (qs : Tbl QPair) (o : List OutReq) (gk : Nat) (l : List Nat) :
    (s.requeue qs o).headersOk gk l = s.headersOk gk l := by
  induction l generalizing s with
  | nil => rfl
  | cons bk rest ih =>
    rw [State.headersOk, State.headersOk]
    rw [show (s.requeue qs o).blk? bk = s.blk? bk from rfl, show (s.requeue qs o).grids = s.grids from rfl]
    cases s.blk? bk with
    | none => exact ih s
    | some b =>
      cases tget s.grids gk with
      | none => exact ih s
      | some g =>
        simp only [raisePreempt_requeue]
        cases s.raisePreempt bk b g with
        | noRoom => exact ih s
        | unwritable => rfl
        | ok t => exact ih t

theorem filter_flatMap_tmod {α β : Type} (t : Tbl α) (k : Nat) (f : α → α) (p : Nat × α → Bool) (h : Nat × α → List β)
    (hp : ∀ x, p (k, f x) = p (k, x)) (hh : ∀ x, h (k, f x) = h (k, x)) : ((tmod t k f).filter p).flatMap h = (t.filter p).flatMap h := by
  induction t with
  | nil => rfl
  | cons y t ih =>
    obtain ⟨j, u⟩ := y
    by_cases hj : j = k
    · subst hj
      simp only [tmod, if_true, List.filter_cons, hp]
      split
      · simp only [List.flatMap_cons, hh]
      · rfl
    · simp only [tmod, hj, if_false, List.filter_cons]
      split
      · simp only [List.flatMap_cons, ih]
      · exact ih

/-- A pre-emption under way: the blocks that it names, and its command. -/
def Grid.preempts (l : List Nat) (cid : Nat) (g : Grid) : Grid := { g with pre := l, preRefused := 0, preCid := some cid }

/-- Raising at a block does not rest on the command that asks for it. -/
theorem raise_preempts {s : State} {gk bk : Nat} {b : Block} {g : Grid} (l : List Nat) (cid : Nat) (h : ∃ s1, s.raisePreempt bk b g = .ok s1) :
    ∃ a r, (s.modGrid gk (Grid.preempts l cid)).raisePreempt bk b (g.preempts l cid)
        = .ok ((s.modGrid gk (Grid.preempts l cid)).raisedAt bk b (g.preempts l cid) a r) ∧ OnlySent (s.modGrid gk (Grid.preempts l cid)) r.1 := by
  obtain ⟨s1, h⟩ := h
  have hframes : ∀ cx, (s.modGrid gk (Grid.preempts l cid)).framesOf cx = s.framesOf cx := fun cx =>
    filter_flatMap_tmod _ _ _ _ _ (fun _ => rfl) (fun _ => rfl)
  have hallot : ∀ size, (s.modGrid gk (Grid.preempts l cid)).allotFrame (g.preempts l cid) size = s.allotFrame g size := by
    intro size
    unfold State.allotFrame
    rw [hframes]
    rfl
  have hwids : (s.modGrid gk (Grid.preempts l cid)).widsOf bk = s.widsOf bk := rfl
  have hwritable : ∀ a n, (s.modGrid gk (Grid.preempts l cid)).writable 4 g.ctx a n = s.writable 4 g.ctx a n := fun _ _ => rfl
  rw [raisePreempt_eq] at h ⊢
  rw [hallot, hwids]
  rw [show (g.preempts l cid).ceils = g.ceils from rfl, show (g.preempts l cid).ctx = g.ctx from rfl]
  generalize frameHeader b g.ceils (s.widsOf bk) = header at *
  cases ha : s.allotFrame g (frameSize g.ceils (s.widsOf bk).length b.poolw) with
  | none => rw [ha] at h; exact absurd h (by simp)
  | some a =>
    rw [ha] at h
    simp only [hwritable] at h ⊢
    cases hw : s.writable 4 g.ctx a header.length with
    | none => rw [hw] at h; exact absurd h (by simp)
    | some pas => exact ⟨a, _, rfl, sendWrites_only ..⟩

theorem addAsync_has (w : Warp) (c : Cause) (a : W64) : ∃ x, (c, x) ∈ (w.addAsync c a).async := by
  unfold Warp.addAsync
  split
  · next h =>
    obtain ⟨y, hy, he⟩ := List.any_eq_true.mp h
    exact ⟨y.2, by rw [← beq_iff_eq.mp he]; exact hy⟩
  · exact ⟨a, by simp⟩

/-- What raising leaves: the block is being pre-empted, its warps have the cause, and its grid keeps all but its frames. -/
theorem raisedAt_spec {s : State} {bk : Nat} {b : Block} {g gg : Grid} (hb : s.blk? bk = some b) (hg : tget s.grids b.grid = some gg) (a : Nat)
    {r : State × VC} (hr : OnlySent s r.1) :
    (∃ b', (s.raisedAt bk b g a r).blk? bk = some b' ∧ b'.state = .preempting)
    ∧ (∃ fs, tget (s.raisedAt bk b g a r).grids b.grid = some { gg with frames := fs })
    ∧ (∀ k w, tget s.warps k = some w → w.blk = bk → ∃ w' x, tget (s.raisedAt bk b g a r).warps k = some w' ∧ (Cause.preempt, x) ∈ w'.async)
    ∧ (s.raisedAt bk b g a r).queues = s.queues ∧ (s.raisedAt bk b g a r).mem = s.mem := by
  have hblocks : r.1.blocks = s.blocks := by rw [hr]
  have hgrids : r.1.grids = s.grids := by rw [hr]
  have hwarps : r.1.warps = s.warps := by rw [hr]
  have hqueues : r.1.queues = s.queues := by rw [hr]
  have hmem : r.1.mem = s.mem := by rw [hr]
  refine ⟨⟨{ b with state := .preempting, frame := a, warpno := s.widsOf bk, clk := b.clk.join r.2 }, ?_, rfl⟩,
    ⟨gg.frames ++ [(bk, a, frameSize g.ceils (s.widsOf bk).length b.poolw)], ?_⟩, fun k w hw hbk => ?_, hqueues, hmem⟩
  · show tget (tmod r.1.blocks bk _) bk = _
    rw [hblocks, tget_tmod_self, show tget s.blocks bk = some b from hb]
    rfl
  · show tget (tmod r.1.grids b.grid _) b.grid = _
    rw [hgrids, tget_tmod_self, hg]
    rfl
  · obtain ⟨x, hx⟩ := addAsync_has w .preempt (BitVec.ofNat 64 a)
    refine ⟨w.addAsync .preempt (BitVec.ofNat 64 a), x, ?_, hx⟩
    show tget (r.1.warps.map (fun x => if x.2.blk == bk then (x.1, x.2.addAsync .preempt (BitVec.ofNat 64 a)) else x)) k = _
    rw [tget_map (fun y => by split <;> rfl) (hwarps ▸ hw)]
    simp [hbk]

/- PREEMPT. -/

/-- The state that a command of a list reads its list in. -/
theorem listReads_requeue (s : State) (fn q : Nat) (p : QPair) (c : Cmd) :
    ∃ o, (s.popped fn q p).listReads c = s.requeue (tput s.queues (qkey fn q) p) o := by
  unfold State.listReads
  split
  · exact ⟨s.outbound, rfl⟩
  · exact ⟨_, readsOut_same ..⟩

section Preempt

variable {s : State} {fn q gk : Nat} {c : Cmd} {p : QPair} {x : Ctx} {g : Grid} {names : Option (List Nat)}

/-- PREEMPT is refused where the header of a frame cannot be written. -/
theorem preempt_unwritable (h : Heads s fn q c p) (hx : tget s.ctxs c.ctx = some x) (hfn : x.fn = fn) (hcl : s.closing c.ctx = false)
    (ho : c.opc = 0x21) (hm : c.badMode = false) (hn : s.namedGrid fn q c.ctx (c.word64 2) = some (gk, g)) (hl : s.clusterList c = some names)
    (hcid : g.preCid = none) (hh : s.headersOk gk (s.namedBlocks gk g names Block.isIn) = false) :
    ∃ t, exec (.preempt fn q) s = .next t ∧ Answered t fn q p c.cid 1 none
      ∧ t.grids = s.grids ∧ t.blocks = s.blocks ∧ t.warps = s.warps ∧ t.mem = s.mem := by
  obtain ⟨o, ho'⟩ := listReads_requeue s fn q p c
  have hq : tget (s.requeue (tput s.queues (qkey fn q) p) o).queues (qkey fn q) = some p := tget_tput_self _ _ _
  obtain ⟨y, hy, -, -⟩ := reply_done c.cid 1 none hq
  refine ⟨(s.requeue (tput s.queues (qkey fn q) p) o).reply fn q c.cid 1 none, ?_, reply_answers hq _ _, rfl, rfl, rfl, rfl⟩
  show execPreempt fn q s = _
  unfold execPreempt
  refine ctxCommand_to h hx hfn hcl (by simp [isOp, ho]) hm ?_ hy rfl
  simp only [show (s.popped fn q p).namedGrid fn q c.ctx (c.word64 2) = some (gk, g) from hn,
    show (s.popped fn q p).clusterList c = some names from hl, hcid, Option.isSome_none, Bool.false_eq_true, if_false, ho', headersOk_requeue]
  rw [show (s.requeue (tput s.queues (qkey fn q) p) o).namedBlocks gk g names Block.isIn = s.namedBlocks gk g names Block.isIn from rfl, hh]
  rfl

theorem preempt_raises {bk : Nat} {rest : List Nat} {b : Block} (h : Heads s fn q c p) (hx : tget s.ctxs c.ctx = some x) (hfn : x.fn = fn)
    (hcl : s.closing c.ctx = false) (ho : c.opc = 0x21) (hm : c.badMode = false) (hn : s.namedGrid fn q c.ctx (c.word64 2) = some (gk, g))
    (hg : tget s.grids gk = some g) (hl : s.clusterList c = some names)
    (hcid : g.preCid = none) (hh : s.headersOk gk (s.namedBlocks gk g names Block.isIn) = true)
    (hpre : ∀ b ∈ s.blocks, b.2.grid = gk → b.2.state ≠ .preempting) (hnb : s.namedBlocks gk g names Block.isIn = bk :: rest)
    (hb : s.blk? bk = some b) (hrun : b.state = .running) (hbg : b.grid = gk) (hr : ∃ s1, s.raisePreempt bk b g = .ok s1) :
    ∃ t b' g', exec (.preempt fn q) s = .next t ∧ tget t.queues (qkey fn q) = some p ∧ t.blk? bk = some b' ∧ b'.state = .preempting
      ∧ tget t.grids gk = some g' ∧ g'.pre = rest ∧ g'.preCid = some c.cid ∧ g'.preRefused = 0 ∧ t.mem = s.mem
      ∧ ∀ k w, tget s.warps k = some w → w.blk = bk → ∃ w' a, tget t.warps k = some w' ∧ (Cause.preempt, a) ∈ w'.async := by
  obtain ⟨o, ho'⟩ := listReads_requeue s fn q p c
  obtain ⟨s1, hr⟩ := hr
  obtain ⟨a, r, hraise, hsent⟩ := raise_preempts (s := s.requeue (tput s.queues (qkey fn q) p) o) (gk := gk) (bk :: rest) c.cid
    ⟨_, (raisePreempt_requeue s _ o bk b g).trans (by rw [hr]; rfl)⟩
  have hgu : tget ((s.requeue (tput s.queues (qkey fn q) p) o).modGrid gk (Grid.preempts (bk :: rest) c.cid)).grids gk
      = some (g.preempts (bk :: rest) c.cid) := by
    rw [modGrid_grids, tget_tmod_self, show tget (s.requeue (tput s.queues (qkey fn q) p) o).grids gk = some g from hg]
    rfl
  have hany : s.blocks.any (fun x => x.2.grid == gk && x.2.state == .preempting) = false := by
    rw [List.any_eq_false]
    intro y hy
    simpa using hpre y hy
  obtain ⟨⟨b', hb1, hb2⟩, ⟨fs, hfs⟩, hwarps, hqs, hmem⟩ := raisedAt_spec (g := g.preempts (bk :: rest) c.cid)
    (s := (s.requeue (tput s.queues (qkey fn q) p) o).modGrid gk (Grid.preempts (bk :: rest) c.cid)) hb (by rw [hbg]; exact hgu) a hsent
  have hgo : ((s.requeue (tput s.queues (qkey fn q) p) o).modGrid gk (Grid.preempts (bk :: rest) c.cid)).preemptGo gk
      = (((s.requeue (tput s.queues (qkey fn q) p) o).modGrid gk (Grid.preempts (bk :: rest) c.cid)).raisedAt bk b (g.preempts (bk :: rest) c.cid) a r).modGrid gk
        (fun g => { g with pre := rest }) := by
    unfold State.preemptGo
    simp only [hgu]
    rw [if_neg (by rw [show ((s.requeue (tput s.queues (qkey fn q) p) o).modGrid gk (Grid.preempts (bk :: rest) c.cid)).blocks = s.blocks from rfl, hany]
                   exact Bool.false_ne_true)]
    show State.preemptNext _ gk (bk :: rest) = _
    rw [State.preemptNext]
    simp only [show ((s.requeue (tput s.queues (qkey fn q) p) o).modGrid gk (Grid.preempts (bk :: rest) c.cid)).blk? bk = some b from hb, hgu, hrun, hraise]
  generalize ((s.requeue (tput s.queues (qkey fn q) p) o).modGrid gk (Grid.preempts (bk :: rest) c.cid)).raisedAt bk b (g.preempts (bk :: rest) c.cid) a r = t at *
  have hq : tget (t.modGrid gk (fun g => { g with pre := rest })).queues (qkey fn q) = some p := by
    show tget t.queues _ = _
    rw [hqs]
    exact tget_tput_self _ _ _
  refine ⟨t.modGrid gk (fun g => { g with pre := rest }), b', { g.preempts (bk :: rest) c.cid with frames := fs, pre := rest }, ?_, hq, hb1, hb2, ?_,
    rfl, rfl, rfl, hmem, hwarps⟩
  · show execPreempt fn q s = _
    unfold execPreempt
    refine ctxCommand_to h hx hfn hcl (by simp [isOp, ho]) hm ?_ hq rfl
    simp only [show (s.popped fn q p).namedGrid fn q c.ctx (c.word64 2) = some (gk, g) from hn,
      show (s.popped fn q p).clusterList c = some names from hl, hcid, Option.isSome_none, Bool.false_eq_true, if_false, ho', headersOk_requeue]
    rw [show (s.requeue (tput s.queues (qkey fn q) p) o).namedBlocks gk g names Block.isIn = s.namedBlocks gk g names Block.isIn from rfl, hh, hnb]
    exact hgo
  · rw [modGrid_grids, tget_tmod_self, ← hbg, hfs]
    rfl

end Preempt

/- RESTORE. -/

/-- The sweep of the blocks that come back, at one grid. -/
def State.sweepGrid (s0 : State) (s : State) (x : Nat × Grid) : State :=
  let left := x.2.res.filter (fun bk => match s0.blk? bk with | some b => b.state == .out | none => false)
  let s := s.modGrid x.1 (fun g => { g with res := left })
  match x.2.resCid with
  | some cid => if left.isEmpty then (s.modGrid x.1 (fun g => { g with resCid := none })).reply x.2.fn x.2.q cid 0 none else s
  | none => s

theorem restoreSweep_eq (s : State) : s.restoreSweep = s.grids.foldl s.sweepGrid s := by
  unfold State.restoreSweep State.sweepGrid
  rfl

/-- What a sweep keeps while the blocks of a grid's RESTORE are all out and no other grid has one. -/
structure Sweeps (s : State) (gk : Nat) (l : List Nat) (cid : Nat) (t : State) : Prop where
  rest : t = { s with grids := t.grids }
  grid : ∃ g, tget t.grids gk = some g ∧ g.res = l ∧ g.resCid = some cid

theorem sweep_keeps {s : State} {gk cid : Nat} {l : List Nat} (hl : l ≠ []) (hout : ∀ bk ∈ l, ∃ b, s.blk? bk = some b ∧ b.state = .out)
    {xs : List (Nat × Grid)} (hxs : ∀ x ∈ xs, (x.1 = gk ∧ x.2.res = l ∧ x.2.resCid = some cid) ∨ (x.1 ≠ gk ∧ x.2.resCid = none)) {t : State}
    (h : Sweeps s gk l cid t) : Sweeps s gk l cid (xs.foldl s.sweepGrid t) := by
  induction xs generalizing t with
  | nil => exact h
  | cons x xs ih =>
    rw [List.foldl_cons]
    refine ih (fun y hy => hxs y (List.mem_cons_of_mem _ hy)) ?_
    obtain ⟨hrest, g, hg, hres, hcid⟩ := h
    have hrest' : ∀ f, t.modGrid x.1 f = { s with grids := (t.modGrid x.1 f).grids } := fun f => by rw [hrest]; rfl
    unfold State.sweepGrid
    rcases hxs x List.mem_cons_self with ⟨h1, h2, h3⟩ | ⟨h1, h2⟩
    · have hleft : l.filter (fun bk => match s.blk? bk with | some b => b.state == .out | none => false) = l := by
        rw [List.filter_eq_self]
        intro bk hbk
        obtain ⟨b, hb, ho⟩ := hout bk hbk
        simp [hb, ho]
      simp only [h2, h3]
      rw [hleft, if_neg (by simpa using hl)]
      refine ⟨hrest' _, { g with res := l }, ?_, rfl, hcid⟩
      rw [modGrid_grids, ← h1, tget_tmod_self, h1, hg]
      rfl
    · simp only [h2]
      refine ⟨hrest' _, g, ?_, hres, hcid⟩
      rw [modGrid_grids, tget_tmod_ne _ _ (Ne.symm h1)]
      exact hg

theorem mem_tmod_rising {α : Type} {t : Tbl α} (h : Rising t) {k : Nat} {f : α → α} {x : Nat × α} (hx : x ∈ tmod t k f) :
    (x.1 ≠ k ∧ x ∈ t) ∨ ∃ u, (k, u) ∈ t ∧ x = (k, f u) := by
  induction t with
  | nil => exact absurd hx List.not_mem_nil
  | cons y t ih =>
    obtain ⟨j, w⟩ := y
    obtain ⟨hlt, ht⟩ := List.pairwise_cons.mp h
    by_cases hj : j = k
    · subst hj
      simp only [tmod, if_true] at hx
      rcases List.mem_cons.mp hx with rfl | hx
      · exact .inr ⟨w, List.mem_cons_self, rfl⟩
      · exact .inl ⟨(hlt x hx).ne', List.mem_cons_of_mem _ hx⟩
    · simp only [tmod, hj, if_false] at hx
      rcases List.mem_cons.mp hx with rfl | hx
      · exact .inl ⟨hj, List.mem_cons_self⟩
      · rcases ih ht hx with ⟨h1, h2⟩ | ⟨u, h1, h2⟩
        · exact .inl ⟨h1, List.mem_cons_of_mem _ h2⟩
        · exact .inr ⟨u, List.mem_cons_of_mem _ h1, h2⟩

/-- A return under way: the blocks that it names, and its command. -/
def Grid.restores (l : List Nat) (cid : Nat) (g : Grid) : Grid := { g with res := l, resCid := some cid }

section Restore

variable {s : State} {fn q gk : Nat} {c : Cmd} {p : QPair} {x : Ctx} {g : Grid} {names : Option (List Nat)}

/-- RESTORE names the blocks that are out. -/
theorem restore_names {l : List Nat} (h : Heads s fn q c p) (hx : tget s.ctxs c.ctx = some x) (hfn : x.fn = fn)
    (hcl : s.closing c.ctx = false) (ho : c.opc = 0x22) (hm : c.badMode = false) (hn : s.namedGrid fn q c.ctx (c.word64 2) = some (gk, g))
    (hg : tget s.grids gk = some g) (hl : s.clusterList c = some names) (hcid : g.resCid = none) (hs : tsorted s.grids = true)
    (hnone : ∀ y ∈ s.grids, y.2.resCid = none) (hnb : s.namedBlocks gk g names Block.isOut = l) (hne : l ≠ [])
    (hout : ∀ bk ∈ l, ∃ b, s.blk? bk = some b ∧ b.state = .out) :
    ∃ t g', exec (.restore fn q) s = .next t ∧ tget t.queues (qkey fn q) = some p ∧ tget t.grids gk = some g' ∧ g'.res = l
      ∧ g'.resCid = some c.cid ∧ t.warps = s.warps ∧ t.blocks = s.blocks ∧ t.mem = s.mem := by
  obtain ⟨o, ho'⟩ := listReads_requeue s fn q p c
  have hgu : tget ((s.requeue (tput s.queues (qkey fn q) p) o).modGrid gk (Grid.restores l c.cid)).grids gk = some (g.restores l c.cid) := by
    rw [modGrid_grids, tget_tmod_self, show tget (s.requeue (tput s.queues (qkey fn q) p) o).grids gk = some g from hg]
    rfl
  have hall : ∀ y ∈ ((s.requeue (tput s.queues (qkey fn q) p) o).modGrid gk (Grid.restores l c.cid)).grids,
      (y.1 = gk ∧ y.2.res = l ∧ y.2.resCid = some c.cid) ∨ (y.1 ≠ gk ∧ y.2.resCid = none) := by
    intro y hy
    rcases mem_tmod_rising ((tsorted_iff _).mp hs) hy with ⟨h1, h2⟩ | ⟨u, -, rfl⟩
    · exact .inr ⟨h1, hnone y h2⟩
    · exact .inl ⟨rfl, rfl, rfl⟩
  obtain ⟨hrest, g', hg', hres, hrc⟩ := sweep_keeps (s := (s.requeue (tput s.queues (qkey fn q) p) o).modGrid gk (Grid.restores l c.cid)) hne hout hall
    ⟨rfl, _, hgu, rfl, rfl⟩
  rw [← restoreSweep_eq] at hrest hg'
  have hq : tget ((s.requeue (tput s.queues (qkey fn q) p) o).modGrid gk (Grid.restores l c.cid)).restoreSweep.queues (qkey fn q) = some p := by
    rw [hrest]
    exact tget_tput_self _ _ _
  refine ⟨_, g', ?_, hq, hg', hres, hrc, by rw [hrest]; rfl, by rw [hrest]; rfl, by rw [hrest]; rfl⟩
  show execRestore fn q s = _
  unfold execRestore
  refine ctxCommand_to h hx hfn hcl (by simp [isOp, ho]) hm ?_ hq rfl
  simp only [show (s.popped fn q p).namedGrid fn q c.ctx (c.word64 2) = some (gk, g) from hn,
    show (s.popped fn q p).clusterList c = some names from hl, hcid, Option.isSome_none, Bool.false_eq_true, if_false, ho']
  rw [show (s.requeue (tput s.queues (qkey fn q) p) o).namedBlocks gk g names Block.isOut = s.namedBlocks gk g names Block.isOut from rfl, hnb]
  rfl

/-- PREEMPT and RESTORE refuse a launch that is not there. -/
theorem preempt_unnamed (h : Heads s fn q c p) (hx : tget s.ctxs c.ctx = some x) (hfn : x.fn = fn) (hcl : s.closing c.ctx = false)
    (ho : c.opc = 0x21) (hm : c.badMode = false) (hn : s.namedGrid fn q c.ctx (c.word64 2) = none) :
    exec (.preempt fn q) s = .next ((s.popped fn q p).reply fn q c.cid 1 none) := by
  obtain ⟨y, hy, -, -⟩ := reply_done c.cid 1 none (popped_queue s fn q p)
  show execPreempt fn q s = _
  unfold execPreempt
  refine ctxCommand_to h hx hfn hcl (by simp [isOp, ho]) hm ?_ hy rfl
  simp only [show (s.popped fn q p).namedGrid fn q c.ctx (c.word64 2) = none from hn]

theorem restore_unnamed (h : Heads s fn q c p) (hx : tget s.ctxs c.ctx = some x) (hfn : x.fn = fn) (hcl : s.closing c.ctx = false)
    (ho : c.opc = 0x22) (hm : c.badMode = false) (hn : s.namedGrid fn q c.ctx (c.word64 2) = none) :
    exec (.restore fn q) s = .next ((s.popped fn q p).reply fn q c.cid 1 none) := by
  obtain ⟨y, hy, -, -⟩ := reply_done c.cid 1 none (popped_queue s fn q p)
  show execRestore fn q s = _
  unfold execRestore
  refine ctxCommand_to h hx hfn hcl (by simp [isOp, ho]) hm ?_ hy rfl
  simp only [show (s.popped fn q p).namedGrid fn q c.ctx (c.word64 2) = none from hn]

end Restore

/-- LAUNCH_ACCEPT accepts a launch that need wait no longer. -/
theorem exec_launchAccept {s : State} {gk : Nat} {g : Grid} (hg : tget s.grids gk = some g) (ha : g.accepted = false) (hd : g.state ≠ .done)
    (hm : s.mayAccept g = true) : exec (.launchAccept gk) s = .next (s.acceptGrid gk) := by
  show execLaunchAccept gk s = _
  unfold execLaunchAccept
  simp only [hg]
  exact if_pos (by simp [ha, hd, hm])

/-- Settles O52: the four commands of a launch, by the lemmas above. -/
theorem launchCommands : Obligations.LaunchCommands := by
  unfold Obligations.LaunchCommands
  refine ⟨fun fn q s c p x h hx hfn hcl => ⟨fun ho => ⟨fun ha => ?_, fun bytes ha hb => ?_⟩,
    fun gk g names ho hm hn hg hl hcid => ⟨fun hh => ?_, fun hh hpre bk rest b hnb hb hrun hbg hr => ?_⟩,
    fun gk g names ho hm hn hg hl hcid hs hnone l hnb hne hout => ?_, fun ho hm hn => ?_⟩, fun gk s g hg ha hd hm => ?_⟩
  · exact ⟨_, launch_misaligned h hx hfn hcl ho ha, reply_answers (popped_queue s fn q p) _ _, rfl⟩
  · exact ⟨fun hst => launch_refused h hx hfn hcl ho ha hb hst, fun hst => launch_makes h hx hfn hcl ho ha hb hst⟩
  · exact preempt_unwritable h hx hfn hcl ho hm hn hl hcid hh
  · exact preempt_raises h hx hfn hcl ho hm hn hg hl hcid hh hpre hnb hb hrun hbg hr
  · exact restore_names h hx hfn hcl ho hm hn hg hl hcid hs hnone hnb hne hout
  · intro i
    refine ⟨(s.popped fn q p).reply fn q c.cid 1 none, ?_, reply_answers (popped_queue s fn q p) _ _, rfl⟩
    by_cases h21 : c.opc = 0x21
    · rw [show i = .preempt fn q from if_pos h21]
      exact preempt_unnamed h hx hfn hcl h21 hm hn
    · rw [show i = .restore fn q from if_neg h21]
      exact restore_unnamed h hx hfn hcl (ho.resolve_left h21) hm hn
  · obtain ⟨g', hbeg, hacc, hord, hcount, hheld⟩ := acceptGrid_begins hg
    refine ⟨_, g', exec_launchAccept hg ha hd hm, hbeg.grid, hacc, hord, by rw [hbeg.same], hcount, by rw [hbeg.rest], by rw [hbeg.rest], fun hst htr => ?_⟩
    exact hheld (by rw [hst, htr]; rfl)

end Sys2Proof.Machine
end

