-- ==== Sys2Proof/Proofs/Starting.lean ====
section
/-! PROOF, of the first part of O12. The instructions of class DBL enter the window of their warp and change nothing else
at issue (01 R24). -/

namespace Sys2Proof.Machine

/-- A group that goes on after a launch goes on from a state in which one number is taken. -/
theorem Passes.launch {s t : State} {v : View} {h : Hdr} {kind : OpKind} {dst : List (Nat × Tag)} {res : List (List W32)} {fl : FFlags}
    {ops : List Op} {next : Nat → W64} (hw : tget s.warps v.key = some v.w)
    (hp : Passes (v.launchOp s h kind dst res fl) v { v.w with ops := ops } next t) :
    Passes { s with nextKey := s.nextKey + 1 } v v.w next t := by
  obtain ⟨-, -, -, hk⟩ := launchOp_spec hw h kind dst res fl
  obtain ⟨w', e0, e1, e2, e3, e4, e5, e6⟩ := Passes.ops v.w.ops hp
  refine ⟨w', e0, fun k => ?_, e2, e3, e4, e5, e6⟩
  rw [e1 k]
  split
  · rfl
  · next h => exact hk k h

/-- The result columns of a 64-bit or 32-bit value per lane. -/
def wordCols (f : Nat → Nat × FFlags) (dbl : Bool) : List (List W32) :=
  if dbl then [(perLane f).map (fun x => BitVec.ofNat 32 x.1), (perLane f).map (fun x => BitVec.ofNat 32 (x.1 >>> 32))]
  else [(perLane f).map (fun x => BitVec.ofNat 32 x.1)]

theorem perLane_map {α β : Type} (f : Nat → α) (g : α → β) : (perLane f).map g = perLane (fun l => g (f l)) := List.map_map

/-- An instruction of class DBL starts: its operation stands in the window with its results and flags. -/
theorem issueLong_starts {i : Instr} {h : Hdr} {dst : List Nat} {f : View → Nat → Nat × FFlags} (dbl : Bool)
    (he : ∀ s, exec i s = issueLong s h i f dbl) (hd : ∀ v, (reqOf i v).writes.map (fun x => x.1) = dst)
    {res : View → List (Nat → W32)} (hr : ∀ v, wordCols (f v) dbl = (res v).map perLane) : Starts i h dst res (fun v l => (f v l).2) := by
  intro s v ⟨hv, hg, hc⟩
  obtain ⟨-, -, -, hw, -⟩ := view_spec hv
  have hfl : (v.lanes.map (fun l => (nth (perLane (f v)) l (0, 0)).2)).foldl (· ||| ·) 0 = v.raised (fun l => (f v l).2) := by
    unfold View.raised
    congr 1
    refine List.map_congr_left fun l hl => ?_
    rw [nth_perLane _ _ (List.mem_range.mp (List.mem_of_mem_filter hl))]
  obtain ⟨ops, h1, -, -⟩ := launchOp_spec hw h .value ((reqOf i v).writes.map (fun x => (x.1, v.tagOf false x.2))) (wordCols (f v) dbl)
    (v.raised (fun l => (f v l).2))
  obtain ⟨t, w1, ht, hp, hw1, hops⟩ := issue_done_keeps (h := h) (rq := reqOf i)
    (eff := fun v s => .done (v.launchOp s h .value ((reqOf i v).writes.map (fun x => (x.1, v.tagOf false x.2))) (wordCols (f v) dbl)
      ((v.lanes.map (fun l => (nth (perLane (f v)) l (0, 0)).2)).foldl (· ||| ·) 0))) hv hg hc (by rw [hfl]) h1 rfl
  refine ⟨t, (he s).trans ht, hp.launch hw, w1, _, hw1, hops _ (List.mem_append_right _ (List.mem_singleton.mpr rfl)) rfl,
    rfl, rfl, rfl, rfl, rfl, rfl, rfl, rfl, ?_, hr v, rfl⟩
  show ((reqOf i v).writes.map (fun x => (x.1, v.tagOf false x.2))).map Prod.fst = dst
  rw [List.map_map]
  exact hd v

/-- The same for a 64-bit result in two registers. -/
theorem issueLong_pair {i : Instr} {h : Hdr} {dst : List Nat} {f : View → Nat → Nat × FFlags}
    (he : ∀ s, exec i s = issueLong s h i f true) (hd : ∀ v, (reqOf i v).writes.map (fun x => x.1) = dst) :
    Starts i h dst (fun v => [fun l => BitVec.ofNat 32 (f v l).1, fun l => BitVec.ofNat 32 ((f v l).1 / 2 ^ 32)]) (fun v l => (f v l).2) := by
  refine issueLong_starts true he hd fun v => ?_
  simp only [wordCols, if_true, perLane_map, List.map_cons, List.map_nil, Nat.shiftRight_eq_div_pow]

/-- And for a 32-bit result. -/
theorem issueLong_word {i : Instr} {h : Hdr} {dst : List Nat} {f : View → Nat → Nat × FFlags}
    (he : ∀ s, exec i s = issueLong s h i f false) (hd : ∀ v, (reqOf i v).writes.map (fun x => x.1) = dst) :
    Starts i h dst (fun v => [fun l => BitVec.ofNat 32 (f v l).1]) (fun v l => (f v l).2) := by
  refine issueLong_starts false he hd fun v => ?_
  simp only [wordCols, Bool.false_eq_true, if_false, perLane_map, List.map_cons, List.map_nil]

end Sys2Proof.Machine
end

