-- ==== Sys2Proof/Proofs/Rounding.lean ====
section
/-! SUPPORT. What one rounding to nearest of binary32 gives (04 R84): the format value within half a unit of the number
rounded, or infinity past the greatest value by half a unit. The number is a real x in the cell from m × 2^e to
(m + 1) × 2^e that the arguments of `Fmt.round` name, above its lower end exactly where the sticky part is set. -/

namespace Sys2Proof.Machine

/- Dyadic numbers as reals. -/

theorem two_zpow_pos (i : Int) : (0 : ℝ) < 2 ^ i := zpow_pos two_pos i

theorem two_zpow_add (i j : Int) : (2 : ℝ) ^ (i + j) = 2 ^ i * 2 ^ j := zpow_add₀ two_ne_zero i j

/-- 2^k times 2^i, for a natural exponent k. -/
theorem two_pow_mul_zpow (k : Nat) (i : Int) : ((2 ^ k : Nat) : ℝ) * 2 ^ i = 2 ^ (i + k) := by
  rw [two_zpow_add, zpow_natCast]
  push_cast
  ring

/-- Two dyadic numbers brought to the smaller of their scales. -/
theorem dyadic_common (a b : Nat) (i j : Int) : ∃ c : ℝ, 0 < c ∧ (a : ℝ) * 2 ^ i = c * (a * 2 ^ (i - j).toNat : Nat)
    ∧ (b : ℝ) * 2 ^ j = c * (b * 2 ^ (j - i).toNat : Nat) := by
  rcases le_total i j with h | h
  · refine ⟨2 ^ i, two_zpow_pos i, by simp [Int.toNat_eq_zero.mpr (by omega : i - j ≤ 0), mul_comm], ?_⟩
    have h1 : j = i + ((j - i).toNat : Int) := by omega
    have h2 := two_pow_mul_zpow (j - i).toNat i
    rw [← h1] at h2
    rw [← h2]
    push_cast
    ring
  · refine ⟨2 ^ j, two_zpow_pos j, ?_, by simp [Int.toNat_eq_zero.mpr (by omega : j - i ≤ 0), mul_comm]⟩
    have h1 : i = j + ((i - j).toNat : Int) := by omega
    have h2 := two_pow_mul_zpow (i - j).toNat j
    rw [← h1] at h2
    rw [← h2]
    push_cast
    ring

theorem dyLe_iff {a b : Nat} {i j : Int} : dyLe a i b j ↔ (a : ℝ) * 2 ^ i ≤ b * 2 ^ j := by
  obtain ⟨c, hc, h1, h2⟩ := dyadic_common a b i j
  rw [h1, h2, mul_le_mul_iff_right₀ hc, Nat.cast_le]

theorem dyEq_iff {a b : Nat} {i j : Int} : dyEq a i b j ↔ (a : ℝ) * 2 ^ i = b * 2 ^ j := by
  obtain ⟨c, hc, h1, h2⟩ := dyadic_common a b i j
  rw [h1, h2, mul_right_inj' hc.ne', Nat.cast_inj]

/- The cell that a rounding is given, and what it returns. -/

/-- x lies in the cell of m × 2^e, above its lower end exactly where sticky says so. -/
structure InCell (x : ℝ) (m : Nat) (e : Int) (sticky : Bool) : Prop where
  le : (m : ℝ) * 2 ^ e ≤ x
  lt : x < ((m + 1 : Nat) : ℝ) * 2 ^ e
  exact : sticky = false ↔ x = m * 2 ^ e

/-- x is within half a unit of d × 2^q. -/
def Within (x : ℝ) (d : Nat) (q : Int) : Prop :=
  ((2 * d - 1 : Nat) : ℝ) * 2 ^ (q - 1) ≤ x ∧ x ≤ ((2 * d + 1 : Nat) : ℝ) * 2 ^ (q - 1)

/-- A lower bound of the cell's lower end, at a greater scale. -/
theorem InCell.ge {x : ℝ} {m : Nat} {e : Int} {sticky : Bool} (hx : InCell x m e sticky) {a k : Nat} (h : a * 2 ^ k ≤ m) :
    (a : ℝ) * 2 ^ (e + k) ≤ x := by
  rw [← two_pow_mul_zpow, ← mul_assoc, ← Nat.cast_mul]
  exact le_trans (mul_le_mul_of_nonneg_right (Nat.cast_le.mpr h) (two_zpow_pos e).le) hx.le

/-- An upper bound of the cell's upper end, at a greater scale. -/
theorem InCell.le_of {x : ℝ} {m : Nat} {e : Int} {sticky : Bool} (hx : InCell x m e sticky) {a k : Nat}
    (h : m + 1 ≤ a * 2 ^ k ∨ sticky = false ∧ m ≤ a * 2 ^ k) : x ≤ (a : ℝ) * 2 ^ (e + k) := by
  rw [← two_pow_mul_zpow, ← mul_assoc, ← Nat.cast_mul]
  rcases h with h | ⟨hs, h⟩
  · exact hx.lt.le.trans (mul_le_mul_of_nonneg_right (Nat.cast_le.mpr h) (two_zpow_pos e).le)
  · rw [hx.exact.mp hs]
    exact mul_le_mul_of_nonneg_right (Nat.cast_le.mpr h) (two_zpow_pos e).le

/-- A multiple of the cell's scale in the cell is its lower end. -/
theorem InCell.eq_of {x : ℝ} {m : Nat} {e : Int} {sticky : Bool} (hx : InCell x m e sticky) {a : Nat} (h : x = (a : ℝ) * 2 ^ e) :
    m = a ∧ sticky = false := by
  have h1 : m ≤ a := Nat.cast_le.mp (le_of_mul_le_mul_right (h ▸ hx.le) (two_zpow_pos e))
  have h2 : a < m + 1 := Nat.cast_lt.mp (lt_of_mul_lt_mul_right (h ▸ hx.lt) (two_zpow_pos e).le)
  obtain rfl : m = a := by omega
  exact ⟨rfl, hx.exact.mpr h⟩

theorem roundUp_rne_iff (s : Bool) (q r k : Nat) (sticky : Bool) :
    roundUp .rne s q r (k + 1) sticky = true ↔ 2 ^ k < r ∨ r = 2 ^ k ∧ (sticky = true ∨ q % 2 = 1) := by
  simp only [roundUp, Nat.add_sub_cancel, Nat.succ_ne_zero, if_false]
  split
  · simp_all
  · split <;> simp_all

theorem roundUp_rne_down {s : Bool} {q r k : Nat} {sticky : Bool} (h : roundUp .rne s q r (k + 1) sticky = false) :
    r < 2 ^ k ∨ r = 2 ^ k ∧ sticky = false := by
  have hn := mt (roundUp_rne_iff s q r k sticky).mpr (by simp [h])
  obtain ⟨hn1, hn2⟩ := not_or.mp hn
  rcases (Nat.le_of_not_lt hn1).lt_or_eq with hlt | heq
  · exact .inl hlt
  · exact .inr ⟨heq, by simpa using fun hs => hn2 ⟨heq, .inl hs⟩⟩

/-- The quotient D of m by 2H, rounded up only past the half, is within H of every number of the cell of m. -/
theorem half_bounds {m D r H : Nat} (hm : m = D * (2 * H) + r) (hr : r < 2 * H) (sticky up : Bool)
    (h1 : up = true → H ≤ r) (h2 : up = false → r < H ∨ r = H ∧ sticky = false) :
    (2 * (if up then D + 1 else D) - 1) * H ≤ m
      ∧ (m + 1 ≤ (2 * (if up then D + 1 else D) + 1) * H ∨ sticky = false ∧ m ≤ (2 * (if up then D + 1 else D) + 1) * H) := by
  have e : D * (2 * H) = 2 * D * H := by ring
  cases up with
  | true =>
    have e1 : (2 * (D + 1) - 1) * H = 2 * D * H + H := by rw [show 2 * (D + 1) - 1 = 2 * D + 1 by omega]; ring
    have e2 : (2 * (D + 1) + 1) * H = 2 * D * H + 3 * H := by ring
    have := h1 rfl
    simp only [if_true, e1, e2]
    exact ⟨by omega, .inl (by omega)⟩
  | false =>
    have e1 : (2 * D - 1) * H ≤ 2 * D * H := Nat.mul_le_mul_right H (Nat.sub_le _ _)
    have e2 : (2 * D + 1) * H = 2 * D * H + H := by ring
    simp only [Bool.false_eq_true, if_false, e2]
    refine ⟨by omega, (h2 rfl).imp (fun h => by omega) fun ⟨h, hs⟩ => ⟨hs, by omega⟩⟩

/-- The rounded quotient of a mantissa: within half a unit of the number, and exact only for the number itself. -/
theorem roundAt_rne {s : Bool} {m : Nat} {e q : Int} {sticky : Bool} {x : ℝ} (hx : InCell x m e sticky) (hq : sticky = true → e < q) :
    Within x (roundAt .rne s m e q sticky).1 q ∧ ((roundAt .rne s m e q sticky).2 = false ↔ x = (roundAt .rne s m e q sticky).1 * 2 ^ q) := by
  unfold roundAt
  by_cases hqe : q ≤ e
  · have hs : sticky = false := by
      cases sticky with
      | false => rfl
      | true => exact absurd (hq rfl) (by omega)
    have hv : x = (m * 2 ^ (e - q).toNat : Nat) * (2 : ℝ) ^ q := by
      rw [hx.exact.mp hs, Nat.cast_mul, mul_assoc, two_pow_mul_zpow, show q + ((e - q).toNat : Int) = e by omega]
    rw [if_pos hqe]
    refine ⟨?_, iff_of_true hs hv⟩
    have h2 : (2 : ℝ) ^ q = 2 * 2 ^ (q - 1) := by
      rw [← zpow_one_add₀ two_ne_zero, add_sub_cancel]
    have h3 := two_zpow_pos (q - 1)
    simp only [Within]
    generalize m * 2 ^ (e - q).toNat = d at hv ⊢
    rw [hv, h2, ← mul_assoc]
    constructor
    · refine mul_le_mul_of_nonneg_right ?_ h3.le
      exact_mod_cast (by omega : 2 * d - 1 ≤ d * 2)
    · refine mul_le_mul_of_nonneg_right ?_ h3.le
      exact_mod_cast (by omega : d * 2 ≤ 2 * d + 1)
  · obtain ⟨k, hk⟩ : ∃ k : Nat, q = e + (k + 1 : Nat) := ⟨(q - e).toNat - 1, by omega⟩
    have hk' : (q - e).toNat = k + 1 := by omega
    have hkq : q - 1 = e + k := by omega
    have hm : m = m / 2 ^ (k + 1) * (2 * 2 ^ k) + m % 2 ^ (k + 1) := by
      rw [← pow_succ', Nat.div_add_mod']
    have hr : m % 2 ^ (k + 1) < 2 * 2 ^ k := by
      rw [← pow_succ']
      exact Nat.mod_lt _ (by positivity)
    have hpos : 0 < 2 ^ k := by positivity
    rw [if_neg hqe]
    simp only [hk', Nat.shiftRight_eq_div_pow]
    have hdn := roundUp_rne_down (s := s) (q := m / 2 ^ (k + 1)) (r := m % 2 ^ (k + 1)) (k := k) (sticky := sticky)
    have hup := roundUp_rne_iff s (m / 2 ^ (k + 1)) (m % 2 ^ (k + 1)) k sticky
    generalize roundUp .rne s (m / 2 ^ (k + 1)) (m % 2 ^ (k + 1)) (k + 1) sticky = up at hup hdn ⊢
    obtain ⟨b1, b2⟩ := half_bounds hm hr sticky up (fun h => by rcases hup.mp h with h | h <;> omega) hdn
    refine ⟨⟨hkq ▸ hx.ge b1, hkq ▸ hx.le_of b2⟩, ?_⟩
    simp only [Bool.or_eq_false_iff, bne_eq_false_iff_eq]
    constructor
    · rintro ⟨h0, hs⟩
      have hn : up = false := by
        rw [← Bool.not_eq_true, hup, h0]
        omega
      rw [hn, if_neg Bool.false_ne_true, hx.exact.mp hs, hk, ← two_pow_mul_zpow, ← mul_assoc, ← Nat.cast_mul,
        Nat.div_mul_cancel (Nat.dvd_of_mod_eq_zero h0)]
    · intro h
      rw [hk, ← two_pow_mul_zpow, ← mul_assoc, ← Nat.cast_mul] at h
      obtain ⟨h1, h2⟩ := hx.eq_of h
      exact ⟨h1 ▸ Nat.mul_mod_left _ _, h2⟩

/- Patterns of binary32. -/

/-- The pattern of sign, exponent field and mantissa field. -/
theorem unpack_pattern (s : Bool) {E M : Nat} (hE : E < 255) (hM : M < 2 ^ 23) :
    f32.unpack (f32.signBit s + (E * 2 ^ 23 + M)) = if E = 0 then .fin s M (-149) else .fin s (2 ^ 23 + M) (E - 150) := by
  have hs : (f32.signBit s + (E * 2 ^ 23 + M)).testBit (f32.eb + f32.mb) = s := by
    rw [Nat.testBit_eq_decide_div_mod_eq]
    cases s <;> simp [Fmt.signBit, f32] <;> omega
  have he : ((f32.signBit s + (E * 2 ^ 23 + M)) >>> f32.mb) % 2 ^ f32.eb = E := by
    rw [Nat.shiftRight_eq_div_pow]
    cases s <;> simp [Fmt.signBit, f32] <;> omega
  have hm : (f32.signBit s + (E * 2 ^ 23 + M)) % 2 ^ f32.mb = M := by
    cases s <;> simp [Fmt.signBit, f32] <;> omega
  unfold Fmt.unpack
  rw [hs, he, hm, if_neg (by simp [f32]; omega)]
  have hl : f32.lsb = -149 := by decide
  rw [hl]
  split
  · rfl
  · congr 1
    omega

theorem unpack_inf (s : Bool) : f32.unpack (f32.signBit s + f32.infBits) = .inf s := by
  cases s <;> decide

/-- The value d × 2^q as a pattern, where d has 24 bits or q is the least exponent. -/
theorem unpack_value (s : Bool) {d : Nat} {q : Int} (hd : d < 2 ^ 24) (hq : -149 ≤ q) (hq' : q ≤ 104) (hn : q = -149 ∨ 2 ^ 23 ≤ d) :
    f32.unpack (f32.signBit s + if d < 2 ^ 23 then d else (q + 150).toNat * 2 ^ 23 + (d - 2 ^ 23)) = .fin s d q := by
  split
  · next h =>
    obtain rfl : q = -149 := by omega
    have h0 := unpack_pattern s (E := 0) (by decide) h
    rwa [Nat.zero_mul, Nat.zero_add, if_pos rfl] at h0
  · next h =>
    rw [unpack_pattern s (by omega) (by omega), if_neg (by omega)]
    have hd' : 2 ^ 23 + (d - 2 ^ 23) = d := by omega
    have hq' : ((q + 150).toNat : Int) - 150 = q := by omega
    rw [hd', hq']

theorem bitLen_bounds {m : Nat} (hm : m ≠ 0) : ∃ k, bitLen m = k + 1 ∧ 2 ^ k ≤ m ∧ m < 2 ^ (k + 1) :=
  ⟨m.log2, if_neg hm, Nat.log2_self_le hm, Nat.lt_log2_self⟩

/- The parts of one rounding. -/

/-- The scale a value is rounded at: one more bit of it than the mantissa field has, or the least exponent. -/
def Fmt.unitOf (f : Fmt) (m : Nat) (e : Int) : Int := if e + bitLen m - (f.mb + 1) < f.lsb then f.lsb else e + bitLen m - (f.mb + 1)

/-- A mantissa that a carry has made one bit longer, brought back. -/
def Fmt.carried (f : Fmt) (d : Nat) (q : Int) : Nat × Int := if d = 2 ^ (f.mb + 1) then (2 ^ f.mb, q + 1) else (d, q)

/-- The pattern of d × 2^q without its sign. -/
def Fmt.valueBits (f : Fmt) (d : Nat) (q : Int) : Nat := if d < 2 ^ f.mb then d else (q - f.lsb + 1).toNat * 2 ^ f.mb + (d - 2 ^ f.mb)

/-- Whether a value rounded without a least exponent is below the least normal one. -/
def Fmt.tiny (f : Fmt) (s : Bool) (m : Nat) (e : Int) (sticky : Bool) : Bool :=
  let qu := e + bitLen m - (f.mb + 1)
  decide ((if (roundAt .rne s m e qu sticky).1 = 2 ^ (f.mb + 1) then qu + f.mb + 1 else qu + f.mb) < 1 - f.bias)

theorem Fmt.round_eq (f : Fmt) (s : Bool) {m : Nat} {e : Int} {sticky : Bool} (h : m ≠ 0 ∨ sticky = true) :
    f.round .rne s m e sticky =
      let r := roundAt .rne s m e (f.unitOf m e) sticky
      let c := f.carried r.1 (f.unitOf m e)
      if f.bias < c.2 + f.mb then (f.signBit s + f.infBits, fOF ||| fNX)
      else (f.signBit s + f.valueBits c.1 c.2, flagIf r.2 fNX ||| flagIf (f.tiny s m e sticky && r.2) fUF) := by
  have hz : (m = 0 && !sticky) = false := by
    cases sticky <;> simp_all
  unfold Fmt.round
  rw [hz, if_neg Bool.false_ne_true]
  rfl

/- One rounding into binary32. -/

theorem f32_unitOf (m : Nat) (e : Int) :
    -149 ≤ f32.unitOf m e ∧ e + bitLen m ≤ f32.unitOf m e + 24 ∧ (f32.unitOf m e = -149 ∨ f32.unitOf m e + 24 = e + bitLen m) := by
  have h1 : f32.lsb = -149 := by decide
  have h2 : f32.mb = 23 := by decide
  unfold Fmt.unitOf
  rw [h1, h2]
  split <;> omega

/-- A number of the cell is below the power of two above its mantissa, and not below the one under it. -/
theorem InCell.lt_top {x : ℝ} {m : Nat} {e : Int} {sticky : Bool} (hx : InCell x m e sticky) : x < 2 ^ (e + bitLen m) := by
  refine hx.lt.trans_le ?_
  rw [← two_pow_mul_zpow]
  refine mul_le_mul_of_nonneg_right (Nat.cast_le.mpr ?_) (two_zpow_pos e).le
  by_cases hm : m = 0
  · subst hm
    decide
  · obtain ⟨k, hk, -, h⟩ := bitLen_bounds hm
    rw [hk]
    exact h

theorem InCell.top_le {x : ℝ} {m : Nat} {e : Int} {sticky : Bool} (hx : InCell x m e sticky) (hm : m ≠ 0) : 2 ^ (e + bitLen m - 1) ≤ x := by
  obtain ⟨k, hk, h, -⟩ := bitLen_bounds hm
  have h1 := hx.ge (a := 1) (k := k) (by omega)
  rw [Nat.cast_one, one_mul] at h1
  rw [hk, show e + ((k + 1 : Nat) : Int) - 1 = e + k by omega]
  exact h1

/-- Comparison of two multiples of one power of two. -/
theorem zpow_mul_le_iff {a b : Nat} {q : Int} : (a : ℝ) * 2 ^ q ≤ b * 2 ^ q ↔ a ≤ b := by
  rw [mul_le_mul_iff_left₀ (two_zpow_pos q), Nat.cast_le]

theorem zpow_mul_lt_iff {a b : Nat} {q : Int} : (a : ℝ) * 2 ^ q < b * 2 ^ q ↔ a < b := by
  rw [mul_lt_mul_iff_left₀ (two_zpow_pos q), Nat.cast_lt]

/-- A value of 24 bits at a scale of at least -149, whose first bit is set but at the least scale. -/
def Value24 (d : Nat) (q : Int) : Prop := d < 2 ^ 24 ∧ -149 ≤ q ∧ (q = -149 ∨ 2 ^ 23 ≤ d)

/-- The pattern and flags of a number rounded to nearest: infinity past the greatest value by half a unit, and otherwise
the value within half a unit, exact where NX is not raised. -/
def Nearest (o : Nat × FFlags) (s : Bool) (x : ℝ) : Prop :=
  f32.unpack o.1 = .inf s ∧ o.2 = fOF ||| fNX ∧ ((2 ^ 25 - 1 : Nat) : ℝ) * 2 ^ (103 : Int) ≤ x
  ∨ ∃ d q, f32.unpack o.1 = .fin s d q ∧ Value24 d q ∧ Within x d q ∧ (o.2 &&& fNX = 0 ↔ x = d * 2 ^ q)

theorem nx_flags (nx t : Bool) : (flagIf nx fNX ||| flagIf (t && nx) fUF) &&& fNX = 0 ↔ nx = false := by
  cases nx <;> cases t <;> decide

/-- The rounded mantissa has 24 bits at the scale it is rounded at, or is the next power of two. -/
theorem mantissa_bounds {x : ℝ} {d : Nat} {q : Int} (hw : Within x d q) (hlt : x < 2 ^ (q + 24)) (hle : q = -149 ∨ 2 ^ (q + 23) ≤ x) :
    d ≤ 2 ^ 24 ∧ (q = -149 ∨ 2 ^ 23 ≤ d) := by
  obtain ⟨h1, h2⟩ := hw
  constructor
  · have h3 : ((2 * d - 1 : Nat) : ℝ) * 2 ^ (q - 1) < (2 ^ 25 : Nat) * 2 ^ (q - 1) := by
      rw [two_pow_mul_zpow, show q - 1 + (25 : Nat) = q + 24 by omega]
      exact h1.trans_lt hlt
    have := zpow_mul_lt_iff.mp h3
    omega
  · refine hle.imp_right fun hle => ?_
    have h3 : ((2 ^ 24 : Nat) : ℝ) * 2 ^ (q - 1) ≤ (2 * d + 1 : Nat) * 2 ^ (q - 1) := by
      rw [two_pow_mul_zpow, show q - 1 + (24 : Nat) = q + 23 by omega]
      exact hle.trans h2
    have := zpow_mul_le_iff.mp h3
    omega

/-- The same value at the next scale. -/
theorem Within.carry {x : ℝ} {q : Int} (hw : Within x (2 ^ 24) q) : Within x (2 ^ 23) (q + 1) := by
  obtain ⟨h1, h2⟩ := hw
  have e (a : Nat) : (a : ℝ) * 2 ^ (q + 1 - 1) = (2 * a : Nat) * 2 ^ (q - 1) := by
    rw [show q + 1 - 1 = q - 1 + 1 by omega, zpow_add_one₀ two_ne_zero]
    push_cast
    ring
  refine ⟨?_, ?_⟩
  · rw [e]
    exact (zpow_mul_le_iff.mpr (by decide)).trans h1
  · rw [e]
    exact h2.trans (zpow_mul_le_iff.mpr (by decide))

/-- A rounded value as a pattern. -/
theorem packed_nearest {s nx t : Bool} {x : ℝ} {d : Nat} {q : Int} (hn : Value24 d q) (hw : Within x d q) (hnx : nx = false ↔ x = d * 2 ^ q)
    (ho : 104 < q → ((2 ^ 25 - 1 : Nat) : ℝ) * 2 ^ (103 : Int) ≤ x) :
    Nearest (if f32.bias < q + f32.mb then (f32.signBit s + f32.infBits, fOF ||| fNX)
      else (f32.signBit s + f32.valueBits d q, flagIf nx fNX ||| flagIf (t && nx) fUF)) s x := by
  have hmb : f32.mb = 23 := rfl
  have hbias : f32.bias = 127 := by decide
  have hlsb : f32.lsb = -149 := by decide
  obtain ⟨h1, h2, h3⟩ := hn
  by_cases hq : 104 < q
  · rw [if_pos (by rw [hmb, hbias]; omega)]
    exact .inl ⟨unpack_inf s, rfl, ho hq⟩
  · rw [if_neg (by rw [hmb, hbias]; omega)]
    refine .inr ⟨d, q, ?_, ⟨h1, h2, h3⟩, hw, (nx_flags nx t).trans hnx⟩
    unfold Fmt.valueBits
    rw [hmb, hlsb, show q - -149 + 1 = q + 150 by omega]
    exact unpack_value s h1 h2 (by omega) h3

theorem round_nearest (s : Bool) {x : ℝ} {m : Nat} {e : Int} {sticky : Bool} (hx : InCell x m e sticky) (h : m ≠ 0 ∨ sticky = true)
    (hp : sticky = true → 2 ^ 24 ≤ m ∨ e < -149) : Nearest (f32.round .rne s m e sticky) s x := by
  obtain ⟨u1, u2, u3⟩ := f32_unitOf m e
  have hq : sticky = true → e < f32.unitOf m e := fun hs => by
    rcases hp hs with hm | he
    · obtain ⟨k, hk, -, h2⟩ := bitLen_bounds (m := m) (by omega)
      have : 24 < k + 1 := (Nat.pow_lt_pow_iff_right (by decide : 1 < 2)).mp (hm.trans_lt h2)
      omega
    · omega
  have hlt : x < 2 ^ (f32.unitOf m e + 24) := hx.lt_top.trans_le (zpow_le_zpow_right₀ one_le_two u2)
  have hle : f32.unitOf m e = -149 ∨ 2 ^ (f32.unitOf m e + 23) ≤ x := by
    refine u3.imp_right fun u3 => ?_
    have hm : m ≠ 0 := by
      rintro rfl
      have h0 : bitLen 0 = 0 := by decide
      rcases hp (h.resolve_left fun h => h rfl) with h | h <;> omega
    rw [show f32.unitOf m e + 23 = e + bitLen m - 1 by omega]
    exact hx.top_le hm
  obtain ⟨hw, hnx⟩ := roundAt_rne (s := s) hx hq
  obtain ⟨b1, b2⟩ := mantissa_bounds hw hlt hle
  have hmb : f32.mb = 23 := rfl
  rw [Fmt.round_eq f32 s h]
  unfold Fmt.carried
  rw [hmb]
  generalize roundAt .rne s m e (f32.unitOf m e) sticky = r at hw hnx b1 b2 ⊢
  generalize f32.unitOf m e = q at *
  by_cases hd : r.1 = 2 ^ 24
  · rw [hd] at hw hnx
    have hcarry : ((2 ^ 24 : Nat) : ℝ) * 2 ^ q = (2 ^ 23 : Nat) * 2 ^ (q + 1) := by
      rw [two_pow_mul_zpow, two_pow_mul_zpow]
      congr 1
      omega
    simp only [if_pos hd]
    refine packed_nearest ⟨by decide, by omega, .inr le_rfl⟩ hw.carry (hcarry ▸ hnx) fun hq => le_trans ?_ hw.1
    exact mul_le_mul_of_nonneg_left (zpow_le_zpow_right₀ one_le_two (by omega)) (Nat.cast_nonneg _)
  · simp only [if_neg hd]
    refine packed_nearest ⟨by omega, u1, b2⟩ hw hnx fun hq => (zpow_mul_le_iff (b := 2 ^ 25) |>.mpr (by decide)).trans ?_
    rw [two_pow_mul_zpow]
    exact (zpow_le_zpow_right₀ one_le_two (by omega)).trans (hle.resolve_left (by omega))

/- Rounding keeps the order with a number of the format. -/

/-- A dyadic number at a smaller scale, in half units. -/
theorem half_units (k : Nat) {j q : Int} (h : q ≤ j) : (k : ℝ) * 2 ^ j = (2 * (k * 2 ^ (j - q).toNat) : Nat) * 2 ^ (q - 1) := by
  have h1 := two_pow_mul_zpow ((j - q).toNat + 1) (q - 1)
  rw [show q - 1 + (((j - q).toNat + 1 : Nat) : Int) = j by omega] at h1
  rw [← h1, ← mul_assoc, ← Nat.cast_mul, pow_succ]
  congr 2
  ring

theorem unit_eq (d : Nat) (q : Int) : (d : ℝ) * 2 ^ q = (2 * d : Nat) * 2 ^ (q - 1) := by
  have h := half_units d (le_refl q)
  rwa [sub_self, Int.toNat_zero, pow_zero, mul_one] at h

/-- A format value of less than 24 bits below x is below the value that x rounds to. -/
theorem le_nearest {x : ℝ} {d k : Nat} {q j : Int} (hn : Value24 d q) (hw : Within x d q) (hk : k < 2 ^ 23) (hj : -149 ≤ j)
    (h : (k : ℝ) * 2 ^ j ≤ x) : (k : ℝ) * 2 ^ j ≤ d * 2 ^ q := by
  rcases le_or_gt q j with hq | hq
  · rw [half_units k hq] at h ⊢
    rw [unit_eq d q, zpow_mul_le_iff]
    have := zpow_mul_le_iff.mp (h.trans hw.2)
    omega
  · have hd := hn.2.2.resolve_left (by omega)
    exact (mul_le_mul (Nat.cast_le.mpr (by omega)) (zpow_le_zpow_right₀ one_le_two hq.le) (two_zpow_pos j).le (Nat.cast_nonneg _))

/-- And one above x is above the value that x rounds to. -/
theorem nearest_le {x : ℝ} {d k : Nat} {q j : Int} (hn : Value24 d q) (hw : Within x d q) (hk : k < 2 ^ 23) (hj : -149 ≤ j)
    (h : x ≤ (k : ℝ) * 2 ^ j) : d * 2 ^ q ≤ (k : ℝ) * 2 ^ j := by
  rcases le_or_gt q j with hq | hq
  · rw [half_units k hq] at h ⊢
    rw [unit_eq d q, zpow_mul_le_iff]
    have := zpow_mul_le_iff.mp (hw.1.trans h)
    omega
  · have hd := hn.2.2.resolve_left (by omega)
    have h1 : (k : ℝ) * 2 ^ j ≤ k * 2 ^ (q - 1) :=
      mul_le_mul_of_nonneg_left (zpow_le_zpow_right₀ one_le_two (by omega)) (Nat.cast_nonneg _)
    have := zpow_mul_le_iff.mp ((hw.1.trans h).trans h1)
    omega

/- What a rounding does at the ends of the format, and with a sticky part. -/

theorem round_overflow (s : Bool) {m : Nat} {e : Int} {sticky : Bool} (h : m ≠ 0 ∨ sticky = true) (ht : 128 < e + bitLen m) :
    f32.round .rne s m e sticky = (f32.signBit s + f32.infBits, fOF ||| fNX) := by
  have hmb : f32.mb = 23 := rfl
  have hbias : f32.bias = 127 := by decide
  obtain ⟨-, h2, -⟩ := f32_unitOf m e
  rw [Fmt.round_eq f32 s h, hbias]
  refine if_pos ?_
  unfold Fmt.carried
  rw [hmb]
  split <;> simp only [Nat.cast_ofNat] <;> omega

theorem roundAt_sticky (rm : RM) (s : Bool) (m : Nat) (e q : Int) : (roundAt rm s m e q true).2 = true := by
  unfold roundAt
  split
  · rfl
  · exact Bool.or_true _

theorem round_sticky_nx (s : Bool) (m : Nat) (e : Int) : (f32.round .rne s m e true).2 &&& fNX = fNX := by
  rw [Fmt.round_eq f32 s (.inr rfl)]
  simp only [roundAt_sticky]
  split
  · show (fOF ||| fNX) &&& fNX = fNX
    decide
  · show (flagIf true fNX ||| flagIf (f32.tiny s m e true && true) fUF) &&& fNX = fNX
    cases f32.tiny s m e true <;> decide

/-- A result without NX has no flag at all. -/
theorem round_flags_zero {s : Bool} {m : Nat} {e : Int} {sticky : Bool} (h : m ≠ 0 ∨ sticky = true)
    (hx : (f32.round .rne s m e sticky).2 &&& fNX = 0) : (f32.round .rne s m e sticky).2 = 0 := by
  rw [Fmt.round_eq f32 s h] at hx ⊢
  simp only at hx ⊢
  split at hx
  · exact absurd hx (by show ¬ (fOF ||| fNX) &&& fNX = 0; decide)
  · next hb =>
    rw [if_neg hb, (nx_flags _ _).mp hx, Bool.and_false]
    rfl

/-- A number below half the least positive value rounds to zero, and is tiny and inexact. -/
theorem round_underflow {x : ℝ} {m : Nat} {e : Int} {sticky : Bool} (hx : InCell x m e sticky) (hm : m ≠ 0) (h : x < 2 ^ (-150 : Int)) :
    f32.round .rne false m e sticky = (0, fUF ||| fNX) := by
  have ht : e + bitLen m - 1 < -150 := (zpow_lt_zpow_iff_right₀ one_lt_two).mp ((hx.top_le hm).trans_lt h)
  obtain ⟨-, -, h3⟩ := f32_unitOf m e
  have hq : f32.unitOf m e = -149 := by
    obtain ⟨h1, -, -⟩ := f32_unitOf m e
    omega
  obtain ⟨hw, hnx⟩ := roundAt_rne (s := false) hx (q := -149) fun _ => by
    obtain ⟨k, hk, -, -⟩ := bitLen_bounds hm
    omega
  have hmb : f32.mb = 23 := rfl
  have hbias : f32.bias = 127 := by decide
  have htiny : f32.tiny false m e sticky = true := by
    unfold Fmt.tiny
    rw [hmb, hbias]
    refine decide_eq_true ?_
    split <;> simp only [Nat.cast_ofNat] <;> omega
  rw [Fmt.round_eq f32 false (.inl hm), htiny, hq]
  generalize roundAt .rne false m e (-149) sticky = r at hw hnx ⊢
  have hr : r.1 = 0 := by
    have h1 : ((2 * r.1 - 1 : Nat) : ℝ) * 2 ^ (-149 - 1 : Int) < (1 : Nat) * 2 ^ (-149 - 1 : Int) := by
      rw [Nat.cast_one, one_mul]
      exact hw.1.trans_lt h
    have := zpow_mul_lt_iff.mp h1
    omega
  have hpos : 0 < x := (two_zpow_pos _).trans_le (hx.top_le hm)
  have hn : r.2 = true := by
    rw [← Bool.not_eq_false, hnx, hr, Nat.cast_zero, zero_mul]
    exact hpos.ne'
  obtain ⟨d, nx⟩ := r
  obtain rfl : d = 0 := hr
  obtain rfl : nx = true := hn
  rfl

/-- A number strictly inside a cell. -/
theorem inCell_mid (m : Nat) (e : Int) : InCell (((2 * m + 1 : Nat) : ℝ) * 2 ^ (e - 1)) m e true := by
  refine ⟨?_, ?_, iff_of_false Bool.noConfusion fun h => ?_⟩
  · rw [unit_eq m e]
    exact zpow_mul_le_iff.mpr (by omega)
  · rw [unit_eq (m + 1) e]
    exact zpow_mul_lt_iff.mpr (by omega)
  · rw [unit_eq m e, mul_left_inj' (two_zpow_pos _).ne', Nat.cast_inj] at h
    omega

/-- A number that is no multiple of the scale of its arguments rounds between the format values that its cell lies between. -/
theorem round_sticky_between (s : Bool) {m : Nat} {e : Int} (hp : 2 ^ 24 ≤ m ∨ e < -149)
    (ho : ((m + 1 : Nat) : ℝ) * 2 ^ e ≤ (2 ^ 25 - 1 : Nat) * 2 ^ (103 : Int)) :
    (f32.round .rne s m e true).2 &&& fNX = fNX ∧ ∃ d q, f32.unpack (f32.round .rne s m e true).1 = .fin s d q ∧ Value24 d q
      ∧ Within (((2 * m + 1 : Nat) : ℝ) * 2 ^ (e - 1)) d q := by
  refine ⟨round_sticky_nx s m e, ?_⟩
  rcases round_nearest s (inCell_mid m e) (.inr rfl) (fun _ => hp) with ⟨-, -, h⟩ | ⟨d, q, h1, h2, h3, -⟩
  · exact absurd (h.trans_lt (inCell_mid m e).lt) (not_lt.mpr ho)
  · exact ⟨d, q, h1, h2, h3⟩

/-- A format value of less than 24 bits rounds to itself, with no flag. -/
theorem round_exact (s : Bool) {m : Nat} {e : Int} (hm : m ≠ 0) (hlt : m < 2 ^ 23) (he : -149 ≤ e)
    (ho : (m : ℝ) * 2 ^ e < (2 ^ 25 - 1 : Nat) * 2 ^ (103 : Int)) :
    (f32.round .rne s m e false).2 = 0 ∧ ∃ d q, f32.unpack (f32.round .rne s m e false).1 = .fin s d q ∧ (d : ℝ) * 2 ^ q = m * 2 ^ e := by
  have hx : InCell ((m : ℝ) * 2 ^ e) m e false := ⟨le_rfl, zpow_mul_lt_iff.mpr (Nat.lt_succ_self m), by simp⟩
  rcases round_nearest s hx (.inl hm) (by simp) with ⟨-, -, h⟩ | ⟨d, q, h1, h2, h3, h4⟩
  · exact absurd (h.trans_lt ho) (lt_irrefl _)
  · have heq := le_antisymm (nearest_le h2 h3 hlt he le_rfl) (le_nearest h2 h3 hlt he le_rfl)
    exact ⟨round_flags_zero (.inl hm) (h4.mpr heq.symm), d, q, h1, heq⟩

/-- Above half the least positive value a number does not round to zero. -/
theorem least_le_nearest {x : ℝ} {d : Nat} {q : Int} (hn : Value24 d q) (hw : Within x d q) (h : 2 ^ (-150 : Int) < x) :
    (2 : ℝ) ^ (-149 : Int) ≤ d * 2 ^ q := by
  have hd : d ≠ 0 := by
    rintro rfl
    obtain rfl : q = -149 := hn.2.2.resolve_right (by decide)
    have h2 := hw.2
    norm_num at h2 h
    linarith
  have h1 : (1 : ℝ) ≤ d := by exact_mod_cast Nat.pos_of_ne_zero hd
  calc (2 : ℝ) ^ (-149 : Int) = 1 * 2 ^ (-149 : Int) := (one_mul _).symm
    _ ≤ d * 2 ^ q := mul_le_mul h1 (zpow_le_zpow_right₀ one_le_two hn.2.1) (two_zpow_pos _).le (Nat.cast_nonneg _)

end Sys2Proof.Machine
end

