-- ==== Sys2Proof/Proofs/Roots.lean ====
section
/-! PROOF, of the third part of O12. FRCP, FSQRT and FRSQ round the reciprocal, the root and the reciprocal of the root of
their operand to nearest (06 R120): the quotient and the integer root that they compute name the cell of that number. -/

namespace Sys2Proof.Machine

/- The quotient and the root of integers. -/

theorem inCell_div (n : Nat) {m : Nat} (hm : m ≠ 0) (e : Int) : InCell (n * 2 ^ e / m) (n / m) e (n % m != 0) := by
  have hm' : (0 : ℝ) < m := Nat.cast_pos.mpr (Nat.pos_of_ne_zero hm)
  have hc := two_zpow_pos e
  refine ⟨?_, ?_, ?_⟩
  · rw [le_div_iff₀ hm', mul_right_comm, ← Nat.cast_mul]
    exact zpow_mul_le_iff.mpr (Nat.div_mul_le_self n m)
  · rw [div_lt_iff₀ hm', mul_right_comm, ← Nat.cast_mul]
    exact zpow_mul_lt_iff.mpr (Nat.lt_div_mul_add (Nat.pos_of_ne_zero hm) |>.trans_eq (by ring))
  · rw [div_eq_iff hm'.ne', mul_right_comm, ← Nat.cast_mul, mul_left_inj' hc.ne', Nat.cast_inj, bne_eq_false_iff_eq]
    have := Nat.div_add_mod' n m
    omega

theorem isqrt_go_spec (n i r : Nat) (h1 : r * r ≤ n) (h2 : n < (r + 2 ^ (i + 1)) * (r + 2 ^ (i + 1))) :
    isqrt.go i n r * isqrt.go i n r ≤ n ∧ n < (isqrt.go i n r + 1) * (isqrt.go i n r + 1) := by
  induction i generalizing r with
  | zero =>
    unfold isqrt.go
    simp only [pow_zero]
    split
    · next h => exact ⟨h, h2⟩
    · next h => exact ⟨h1, not_le.mp h⟩
  | succ i ih =>
    unfold isqrt.go
    simp only
    split
    · next h => exact ih _ h (by rwa [pow_succ 2 (i + 1), mul_two, ← add_assoc] at h2)
    · next h => exact ih _ h1 (not_le.mp h)

/-- The integer square root of a number below 2^(2k). -/
theorem isqrt_spec {k n : Nat} (hk : k ≠ 0) (h : n < 2 ^ k * 2 ^ k) : isqrt k n * isqrt k n ≤ n ∧ n < (isqrt k n + 1) * (isqrt k n + 1) := by
  cases k with
  | zero => exact absurd rfl hk
  | succ k =>
    unfold isqrt
    exact isqrt_go_spec n k 0 (by simp) (by simpa using h)

/-- The integer root of a number of at least 49 bits has at least 24. -/
theorem root_bits {n r : Nat} (hn : 2 ^ 50 ≤ n) (h : n < (r + 1) * (r + 1)) : 2 ^ 24 ≤ r := by
  by_contra hc
  have : (r + 1) * (r + 1) ≤ 2 ^ 24 * 2 ^ 24 := Nat.mul_le_mul (by omega) (by omega)
  omega

theorem inCell_sqrt {y : ℝ} {r : Nat} {sticky : Bool} (h1 : ((r * r : Nat) : ℝ) ≤ y) (h2 : y < ((r + 1) * (r + 1) : Nat))
    (hs : sticky = false ↔ y = (r * r : Nat)) (e : Int) : InCell (√y * 2 ^ e) r e sticky := by
  have h0 : 0 ≤ y := (Nat.cast_nonneg _).trans h1
  have hc := two_zpow_pos e
  rw [Nat.cast_mul] at h1 h2 hs
  refine ⟨?_, ?_, ?_⟩
  · rw [mul_le_mul_iff_left₀ hc]
    exact Real.le_sqrt_of_sq_le (by rwa [sq])
  · rw [mul_lt_mul_iff_left₀ hc]
    exact (Real.sqrt_lt' (by positivity)).mpr (by rwa [sq])
  · rw [hs, mul_left_inj' hc.ne', Real.sqrt_eq_iff_mul_self_eq h0 (Nat.cast_nonneg _), eq_comm]

/- What the statement asks of a result. -/

theorem Fmt.flush_false (f : Fmt) (r : Nat × FFlags) : f.flush false r = r := if_neg (by simp)

/-- A result is within half a unit of a number that is known by what lies below and above it. -/
def NearBetween (o : Nat × FFlags) (sign : Bool) (below above : Nat → Int → Prop) : Prop :=
  match f32.unpack o.1 with
  | .nan _ => False
  | .inf t => t = sign ∧ o.2 = fOF ||| fNX ∧ below (2 ^ 25 - 1) 103
  | .fin t n q => t = sign ∧ below (2 * n - 1) (q - 1) ∧ above (2 * n + 1) (q - 1) ∧ (o.2 &&& fNX = 0 ↔ below n q ∧ above n q)

theorem Nearest.between {o : Nat × FFlags} {s : Bool} {x : ℝ} (h : Nearest o s x) {below above : Nat → Int → Prop}
    (hb : ∀ n q, below n q ↔ (n : ℝ) * 2 ^ q ≤ x) (ha : ∀ n q, above n q ↔ x ≤ (n : ℝ) * 2 ^ q) : NearBetween o s below above := by
  unfold NearBetween
  rcases h with ⟨h1, h2, h3⟩ | ⟨d, q, h1, -, h2, h3⟩
  · rw [h1]
    exact ⟨rfl, h2, (hb _ _).mpr h3⟩
  · rw [h1]
    refine ⟨rfl, (hb _ _).mpr h2.1, (ha _ _).mpr h2.2, h3.trans ?_⟩
    rw [hb, ha, ← le_antisymm_iff, eq_comm]

theorem unpack_fin {p m : Nat} {e : Int} {s : Bool} (h : f32.unpack p = .fin s m e) : Value24 m e ∧ e ≤ 104 := by
  have hl : f32.lsb = -149 := by decide
  unfold Fmt.unpack at h
  have hM : p % 2 ^ f32.mb < 2 ^ 23 := Nat.mod_lt _ (by decide)
  have hE : (p >>> f32.mb) % 2 ^ f32.eb < 256 := Nat.mod_lt _ (by decide)
  have h23 : 2 ^ f32.mb = 2 ^ 23 := rfl
  have h255 : 2 ^ f32.eb - 1 = 255 := rfl
  simp only [hl, h255, h23] at h hM
  generalize p % 2 ^ 23 = M at h hM
  generalize (p >>> f32.mb) % 2 ^ f32.eb = E at h hE
  unfold Value24
  split at h
  · split at h <;> cases h
  · split at h
    · cases h
      omega
    · injection h with _ h1 h2
      omega

/- Squares of dyadic numbers. -/

theorem dyadic_sq (n : Nat) (q : Int) : ((n : ℝ) * 2 ^ q) ^ 2 = (n * n : Nat) * 2 ^ (2 * q) := by
  rw [two_mul, two_zpow_add]
  push_cast
  ring

theorem le_sqrt_dyadic {v : ℝ} (hv : 0 ≤ v) (n : Nat) (q : Int) : (n : ℝ) * 2 ^ q ≤ √v ↔ ((n * n : Nat) : ℝ) * 2 ^ (2 * q) ≤ v := by
  have := two_zpow_pos q
  rw [← dyadic_sq, Real.le_sqrt (by positivity) hv]

theorem sqrt_le_dyadic {v : ℝ} (n : Nat) (q : Int) : √v ≤ (n : ℝ) * 2 ^ q ↔ v ≤ ((n * n : Nat) : ℝ) * 2 ^ (2 * q) := by
  have := two_zpow_pos q
  rw [← dyadic_sq, Real.sqrt_le_iff, and_iff_right (mul_nonneg (Nat.cast_nonneg n) this.le)]

/- The three functions. -/

theorem frcp_nearest {m : Nat} {e : Int} (s : Bool) (hm : m ≠ 0) (hn : Value24 m e) : Nearest (frcpOf false (.fin s m e)) s (1 / (m * 2 ^ e)) := by
  have hq : 2 ^ 24 ≤ 2 ^ 64 / m := (Nat.le_div_iff_mul_le (Nat.pos_of_ne_zero hm)).mpr (by have := hn.1; omega)
  have hx := inCell_div (2 ^ 64) hm (-64 - e)
  have he : ((2 ^ 64 : Nat) : ℝ) * 2 ^ (-64 - e) / m = 1 / (m * 2 ^ e) := by
    rw [two_pow_mul_zpow, show -64 - e + (64 : Nat) = -e by omega, zpow_neg, one_div, mul_inv_rev, div_eq_mul_inv]
  unfold frcpOf
  simp only [if_neg hm, Fmt.flush_false]
  exact round_nearest s (he ▸ hx) (.inl (by omega)) fun _ => .inl hq

/-- The same value at an even exponent. -/
theorem evenExp_spec (m : Nat) (e : Int) : ∃ j, (evenExp m e).2 = 2 * j ∧ m ≤ (evenExp m e).1 ∧ (evenExp m e).1 ≤ 2 * m
    ∧ ((evenExp m e).1 : ℝ) * 2 ^ (evenExp m e).2 = m * 2 ^ e := by
  unfold evenExp
  split
  · exact ⟨e / 2, by simp only; omega, le_rfl, by simp only; omega, rfl⟩
  · refine ⟨(e - 1) / 2, by simp only; omega, by simp only; omega, le_rfl, ?_⟩
    have h := zpow_sub_one₀ (two_ne_zero : (2 : ℝ) ≠ 0) e
    simp only [h]
    push_cast
    ring

theorem sqrt_mul_zpow {y : ℝ} (h : 0 ≤ y) (j : Int) : √y * 2 ^ j = √(y * 2 ^ (2 * j)) := by
  rw [Real.sqrt_mul h, two_mul, two_zpow_add, Real.sqrt_mul_self (two_zpow_pos j).le]

theorem fsqrt_nearest {m : Nat} {e : Int} (hm : m ≠ 0) (hn : Value24 m e) : Nearest (fsqrtOf false (.fin false m e)) false (√(m * 2 ^ e)) := by
  obtain ⟨j, hj, h1, h2, hv⟩ := evenExp_spec m e
  unfold fsqrtOf
  simp only [if_neg hm, Fmt.flush_false, Bool.false_eq_true, if_false]
  rw [← hv]
  generalize evenExp m e = p at *
  have hlt := hn.1
  obtain ⟨r1, r2⟩ := isqrt_spec (k := 48) (n := p.1 * 2 ^ 64) (by decide) (by omega)
  generalize isqrt 48 (p.1 * 2 ^ 64) = r at *
  have hr := root_bits (by omega) r2
  have hx := inCell_sqrt (y := ((p.1 * 2 ^ 64 : Nat) : ℝ)) (r := r) (sticky := r * r != p.1 * 2 ^ 64) (Nat.cast_le.mpr r1) (Nat.cast_lt.mpr r2)
    (by rw [bne_eq_false_iff_eq, Nat.cast_inj, eq_comm]) (j - 32)
  rw [sqrt_mul_zpow (Nat.cast_nonneg _), Nat.cast_mul, mul_assoc, two_pow_mul_zpow, show 2 * (j - 32) + (64 : Nat) = p.2 by omega] at hx
  rw [show p.2 / 2 = j by omega]
  exact round_nearest false hx (.inl (by omega)) fun _ => .inl hr

theorem frsq_nearest {m : Nat} {e : Int} (hm : m ≠ 0) (hn : Value24 m e) : Nearest (frsqOf false (.fin false m e)) false (√(1 / (m * 2 ^ e))) := by
  obtain ⟨j, hj, h1, h2, hv⟩ := evenExp_spec m e
  unfold frsqOf
  simp only [if_neg hm, Fmt.flush_false, Bool.false_eq_true, if_false]
  rw [← hv]
  generalize evenExp m e = p at *
  have hlt := hn.1
  have hp : p.1 ≠ 0 := by omega
  have hp' : (0 : ℝ) < p.1 := Nat.cast_pos.mpr (by omega)
  obtain ⟨r1, r2⟩ := isqrt_spec (k := 66) (n := 2 ^ 128 / p.1) (by decide) (lt_of_le_of_lt (Nat.div_le_self _ _) (by norm_num))
  have hq : 2 ^ 103 ≤ 2 ^ 128 / p.1 := (Nat.le_div_iff_mul_le (Nat.pos_of_ne_zero hp)).mpr (by omega)
  generalize isqrt 66 (2 ^ 128 / p.1) = r at *
  have hr := root_bits (by omega) r2
  rw [Nat.le_div_iff_mul_le (by omega)] at r1
  rw [Nat.div_lt_iff_lt_mul (by omega)] at r2
  have hx := inCell_sqrt (y := ((2 ^ 128 : Nat) : ℝ) / p.1) (r := r) (sticky := r * r * p.1 != 2 ^ 128)
    (by rw [le_div_iff₀ hp', ← Nat.cast_mul]; exact Nat.cast_le.mpr r1) (by rw [div_lt_iff₀ hp', ← Nat.cast_mul]; exact Nat.cast_lt.mpr r2)
    (by rw [bne_eq_false_iff_eq, div_eq_iff hp'.ne', ← Nat.cast_mul, Nat.cast_inj, eq_comm]) (-j - 64)
  have hy : ((2 ^ 128 : Nat) : ℝ) / p.1 * 2 ^ (2 * (-j - 64)) = 1 / (p.1 * 2 ^ p.2) := by
    rw [div_mul_eq_mul_div, two_pow_mul_zpow, show 2 * (-j - 64) + (128 : Nat) = -p.2 by omega, zpow_neg, one_div, mul_inv_rev, div_eq_mul_inv]
  rw [sqrt_mul_zpow (by positivity), hy] at hx
  rw [show p.2 / 2 = j by omega]
  exact round_nearest false hx (.inl (by omega)) fun _ => .inl hr

/- What each result is compared with. -/

theorem frcp_between {m : Nat} {e : Int} (s : Bool) (hm : m ≠ 0) (hn : Value24 m e) : NearBetween (frcpOf false (.fin s m e)) s
    (fun n q => dyLe (n * m) (q + e) 1 0) (fun n q => dyLe 1 0 (n * m) (q + e)) := by
  have hv : (0 : ℝ) < m * 2 ^ e := mul_pos (Nat.cast_pos.mpr (Nat.pos_of_ne_zero hm)) (two_zpow_pos e)
  have hprod (n : Nat) (q : Int) : ((n * m : Nat) : ℝ) * 2 ^ (q + e) = n * 2 ^ q * (m * 2 ^ e) := by
    rw [two_zpow_add]
    push_cast
    ring
  refine (frcp_nearest s hm hn).between (fun n q => ?_) fun n q => ?_
  · rw [dyLe_iff, hprod, le_div_iff₀ hv, Nat.cast_one, zpow_zero, mul_one]
  · rw [dyLe_iff, hprod, div_le_iff₀ hv, Nat.cast_one, zpow_zero, mul_one]

theorem fsqrt_between {m : Nat} {e : Int} (hm : m ≠ 0) (hn : Value24 m e) : NearBetween (fsqrtOf false (.fin false m e)) false
    (fun n q => dyLe (n * n) (2 * q) m e) (fun n q => dyLe m e (n * n) (2 * q)) :=
  (fsqrt_nearest hm hn).between (fun n q => dyLe_iff.trans (le_sqrt_dyadic (mul_nonneg (Nat.cast_nonneg m) (two_zpow_pos e).le) n q).symm)
    fun n q => dyLe_iff.trans (sqrt_le_dyadic n q).symm

theorem frsq_between {m : Nat} {e : Int} (hm : m ≠ 0) (hn : Value24 m e) : NearBetween (frsqOf false (.fin false m e)) false
    (fun n q => dyLe (n * n * m) (2 * q + e) 1 0) (fun n q => dyLe 1 0 (n * n * m) (2 * q + e)) := by
  have hv : (0 : ℝ) < m * 2 ^ e := mul_pos (Nat.cast_pos.mpr (Nat.pos_of_ne_zero hm)) (two_zpow_pos e)
  have hprod (n : Nat) (q : Int) : ((n * n * m : Nat) : ℝ) * 2 ^ (2 * q + e) = (n * n : Nat) * 2 ^ (2 * q) * (m * 2 ^ e) := by
    rw [two_zpow_add]
    push_cast
    ring
  refine (frsq_nearest hm hn).between (fun n q => ?_) fun n q => ?_
  · rw [dyLe_iff, hprod, le_sqrt_dyadic (one_div_pos.mpr hv).le, le_div_iff₀ hv, Nat.cast_one, zpow_zero, mul_one]
  · rw [dyLe_iff, hprod, sqrt_le_dyadic, div_le_iff₀ hv, Nat.cast_one, zpow_zero, mul_one]

end Sys2Proof.Machine
end

