-- ==== Sys2Proof/Proofs/Exponentials.lean ====
section
/-! PROOF, of the fourth part of O12. FEX2 and FLG2 (06 R120): where the argument is an integer, and a power of two, they
round the exact value; elsewhere what they round is a sum or a digit string, of which this shows only that it lies between
the exact values at both sides. -/

namespace Sys2Proof.Machine

/- The exponential series. -/

theorem expGo_ge (n k term acc y : Nat) : acc ≤ expScaled.go n k term acc y := by
  induction n generalizing k term acc with
  | zero => exact le_rfl
  | succ n ih => exact (Nat.le_add_right _ _).trans (ih ..)

theorem expGo_mono (n k : Nat) {term term' acc acc' y y' : Nat} (ht : term ≤ term') (ha : acc ≤ acc') (hy : y ≤ y') :
    expScaled.go n k term acc y ≤ expScaled.go n k term' acc' y' := by
  induction n generalizing k term term' acc acc' with
  | zero => exact ha
  | succ n ih =>
    have h : term * y / 2 ^ 256 / k ≤ term' * y' / 2 ^ 256 / k := Nat.div_le_div_right (Nat.div_le_div_right (Nat.mul_le_mul ht hy))
    exact ih _ h (Nat.add_le_add ha h)

theorem expScaled_ge (n y : Nat) : 2 ^ 256 ≤ expScaled n y := expGo_ge ..

theorem expScaled_mono (n : Nat) {y y' : Nat} (h : y ≤ y') : expScaled n y ≤ expScaled n y' := expGo_mono _ _ le_rfl le_rfl h

/-- The series at ln 2 is below 2: every term is rounded down. -/
theorem expScaled_ln2 : expScaled 80 ln2Scaled < 2 ^ 257 := by decide +kernel

/-- The greatest fraction of a binary32 value from 64 to 128 keeps the series away from the overflow of 2^127 times it. -/
theorem expScaled_greatest : expScaled 80 ((2 ^ 256 - 2 ^ 239) * ln2Scaled / 2 ^ 256) < (2 ^ 25 - 1) * 2 ^ 232 := by decide +kernel

/-- 2^f of a fraction f, scaled by 2^256. -/
def pow2Scaled (f : Nat) : Nat := expScaled 80 (f * ln2Scaled / 2 ^ 256)

theorem pow2Scaled_ge (f : Nat) : 2 ^ 256 ≤ pow2Scaled f := expScaled_ge ..

theorem pow2Scaled_lt {f : Nat} (h : f < 2 ^ 256) : pow2Scaled f < 2 ^ 257 := by
  refine (expScaled_mono 80 (y' := ln2Scaled) ?_).trans_lt expScaled_ln2
  refine Nat.div_le_of_le_mul ?_
  exact Nat.mul_le_mul_right _ h.le

theorem pow2Scaled_greatest {f : Nat} (h : f ≤ 2 ^ 256 - 2 ^ 239) : pow2Scaled f < (2 ^ 25 - 1) * 2 ^ 232 :=
  (expScaled_mono 80 (Nat.div_le_div_right (Nat.mul_le_mul_right _ h))).trans_lt expScaled_greatest

/- The argument of FEX2 as an integer and a fraction. -/

/-- A value scaled by 2^256, which makes it whole. -/
def scaledMag (m : Nat) (e : Int) : Nat := m * 2 ^ (e + 256).toNat

theorem scaledMag_eq {m : Nat} {e : Int} (he : -149 ≤ e) : (scaledMag m e : ℝ) = m * 2 ^ e * (2 ^ 256 : Nat) := by
  have h := two_pow_mul_zpow (e + 256).toNat 0
  have h2 := two_pow_mul_zpow 256 e
  rw [zpow_zero, mul_one, show (0 : Int) + ((e + 256).toNat : Nat) = e + (256 : Nat) by omega] at h
  rw [scaledMag, Nat.cast_mul, h, ← h2]
  ring

theorem dyLe_scaled {m : Nat} {e : Int} (he : -149 ≤ e) (n : Nat) : dyLe n 0 m e ↔ n * 2 ^ 256 ≤ scaledMag m e := by
  rw [dyLe_iff, zpow_zero, mul_one, ← Nat.cast_le (α := ℝ), scaledMag_eq he, Nat.cast_mul, mul_le_mul_iff_left₀ (by positivity)]

theorem scaled_dyLe {m : Nat} {e : Int} (he : -149 ≤ e) (n : Nat) : dyLe m e n 0 ↔ scaledMag m e ≤ n * 2 ^ 256 := by
  rw [dyLe_iff, zpow_zero, mul_one, ← Nat.cast_le (α := ℝ), scaledMag_eq he, Nat.cast_mul, mul_le_mul_iff_left₀ (by positivity)]

theorem dyEq_scaled {m : Nat} {e : Int} (he : -149 ≤ e) (n : Nat) : dyEq m e n 0 ↔ scaledMag m e = n * 2 ^ 256 := by
  rw [dyEq_iff, zpow_zero, mul_one, ← Nat.cast_inj (R := ℝ), scaledMag_eq he, Nat.cast_mul, mul_left_inj' (by positivity)]

/-- FEX2 of an argument below 512: 2^N times 2^f, for the argument's floor N and fraction f. -/
theorem fex2_parts {s : Bool} {m : Nat} {e : Int} (hm : m ≠ 0) (hb : e + bitLen m ≤ 9) {N : Int} {f : Nat} (hf : f < 2 ^ 256)
    (h : (if s then -(scaledMag m e : Int) else scaledMag m e) = N * 2 ^ 256 + f) :
    fex2Of false (.fin s m e) = if f = 0 then f32.round .rne false 1 N false else f32.round .rne false (pow2Scaled f) (N - 256) true := by
  have hparts : (N * 2 ^ 256 + f) / (2 ^ 256 : Int) = N ∧ ((N * 2 ^ 256 + f) % (2 ^ 256 : Int)).toNat = f := by
    omega
  unfold scaledMag at h
  unfold fex2Of
  simp only [if_neg hm, Fmt.flush_false, if_neg (not_lt.mpr hb), gt_iff_lt, h, hparts]
  rfl

/- What FEX2 rounds between two integers. -/

/-- 2^N × 2^f rounds between 2^N and 2^(N + 1), and raises NX. -/
theorem pow2_between {N : Int} {f : Nat} (h1 : -150 ≤ N) (h2 : N ≤ 127) (hf : f < 2 ^ 256) (h127 : N = 127 → f ≤ 2 ^ 256 - 2 ^ 239) :
    (f32.round .rne false (pow2Scaled f) (N - 256) true).2 &&& fNX = fNX
      ∧ ∃ k q, f32.unpack (f32.round .rne false (pow2Scaled f) (N - 256) true).1 = .fin false k q
        ∧ (2 : ℝ) ^ N ≤ k * 2 ^ q ∧ (k : ℝ) * 2 ^ q ≤ 2 ^ (N + 1) := by
  have hge := pow2Scaled_ge f
  have hlt := pow2Scaled_lt hf
  have hmid := inCell_mid (pow2Scaled f) (N - 256)
  have hlo : (2 : ℝ) ^ N < ((2 * pow2Scaled f + 1 : Nat) : ℝ) * 2 ^ (N - 256 - 1) := by
    refine lt_of_le_of_lt ?_ (hmid.le.lt_of_ne fun h => Bool.noConfusion (hmid.exact.mpr h.symm))
    have h3 := two_pow_mul_zpow 256 (N - 256)
    rw [show N - 256 + (256 : Nat) = N by omega] at h3
    rw [← h3]
    exact zpow_mul_le_iff.mpr hge
  have hhi : ((pow2Scaled f + 1 : Nat) : ℝ) * 2 ^ (N - 256) ≤ 2 ^ (N + 1) := by
    rw [show N + 1 = N - 256 + (257 : Nat) by omega, ← two_pow_mul_zpow]
    exact zpow_mul_le_iff.mpr hlt
  have hmax : ((pow2Scaled f + 1 : Nat) : ℝ) * 2 ^ (N - 256) ≤ (2 ^ 25 - 1 : Nat) * 2 ^ (103 : Int) := by
    by_cases hN : N = 127
    · have hg := pow2Scaled_greatest (h127 hN)
      have h3 := two_pow_mul_zpow 232 (N - 256)
      rw [show N - 256 + (232 : Nat) = 103 by omega] at h3
      rw [← h3, ← mul_assoc, ← Nat.cast_mul]
      exact zpow_mul_le_iff.mpr hg
    · refine hhi.trans ((zpow_le_zpow_right₀ one_le_two (by omega : N + 1 ≤ 127)).trans ?_)
      have h3 := two_pow_mul_zpow 24 103
      rw [show (103 : Int) + (24 : Nat) = 127 by omega] at h3
      rw [← h3]
      exact zpow_mul_le_iff.mpr (by decide)
  obtain ⟨hnx, d, q, hu, hn, hw⟩ := round_sticky_between false (.inl (le_trans (by norm_num) hge)) hmax
  have one (j : Int) : (2 : ℝ) ^ j = (1 : Nat) * 2 ^ j := by rw [Nat.cast_one, one_mul]
  refine ⟨hnx, d, q, hu, ?_, ?_⟩
  · by_cases hN : N = -150
    · exact (zpow_le_zpow_right₀ one_le_two (by omega)).trans (least_le_nearest hn hw (hN ▸ hlo))
    · rw [one N] at hlo ⊢
      exact le_nearest hn hw (by decide) (by omega) hlo.le
  · have hx := hmid.lt.le.trans hhi
    rw [one (N + 1)] at hx ⊢
    exact nearest_le hn hw (by decide) (by omega) hx

theorem inCell_self (m : Nat) (e : Int) : InCell ((m : ℝ) * 2 ^ e) m e false := ⟨le_rfl, zpow_mul_lt_iff.mpr (Nat.lt_succ_self m), by simp⟩

/-- A value below a power of two has its highest bit below it. -/
theorem top_le_of_lt {m : Nat} {e j : Int} (hm : m ≠ 0) (h : (m : ℝ) * 2 ^ e < 2 ^ j) : e + bitLen m ≤ j := by
  have := (zpow_lt_zpow_iff_right₀ (one_lt_two (α := ℝ))).mp (((inCell_self m e).top_le hm).trans_lt h)
  omega

theorem scaled_small {m : Nat} {e : Int} (he : -149 ≤ e) (hm : m ≠ 0) (h : scaledMag m e < 512 * 2 ^ 256) : e + bitLen m ≤ 9 := by
  refine top_le_of_lt hm ?_
  have h1 : (scaledMag m e : ℝ) < (512 * 2 ^ 256 : Nat) := Nat.cast_lt.mpr h
  rw [scaledMag_eq he, Nat.cast_mul, mul_lt_mul_iff_left₀ (by positivity)] at h1
  exact h1.trans_eq (by norm_num)

theorem scaledMag_zero (e : Int) : scaledMag 0 e = 0 := Nat.zero_mul _

/-- Between 127 and 128 a binary32 value is a multiple of 2^-17. -/
theorem scaled_multiple {m : Nat} {e : Int} (hn : Value24 m e) (h : 127 * 2 ^ 256 ≤ scaledMag m e) : 2 ^ 239 ∣ scaledMag m e := by
  have he : -17 ≤ e := by
    by_contra hc
    have h1 : scaledMag m e ≤ 2 ^ 24 * 2 ^ 238 := Nat.mul_le_mul hn.1.le (Nat.pow_le_pow_right (by decide) (by omega))
    omega
  exact (pow_dvd_pow 2 (by omega)).mul_left m

/-- FEX2 of a value strictly between the naturals n and n + 1. -/
theorem fex2_pos_between {m n : Nat} {e : Int} (hn : Value24 m e) (h1 : n * 2 ^ 256 < scaledMag m e) (h2 : scaledMag m e < (n + 1) * 2 ^ 256)
    (h128 : n < 128) :
    (fex2Of false (.fin false m e)).2 &&& fNX = fNX ∧ ∃ k q, f32.unpack (fex2Of false (.fin false m e)).1 = .fin false k q
      ∧ (2 : ℝ) ^ (n : Int) ≤ k * 2 ^ q ∧ (k : ℝ) * 2 ^ q ≤ 2 ^ ((n : Int) + 1) := by
  have hm : m ≠ 0 := by
    rintro rfl
    rw [scaledMag_zero] at h1
    omega
  have hs := scaled_small hn.2.1 hm (h2.trans_le (Nat.mul_le_mul_right _ (by omega)))
  rw [fex2_parts (N := n) (f := scaledMag m e - n * 2 ^ 256) hm hs (by omega) (by rw [if_neg Bool.false_ne_true]; omega), if_neg (by omega)]
  refine pow2_between (by omega) (by omega) (by omega) fun h => ?_
  obtain ⟨j, hj⟩ := scaled_multiple hn (by omega)
  rw [hj] at h2 ⊢
  omega

/-- FEX2 of a value strictly between the negatives of n and n + 1. -/
theorem fex2_neg_between {m n : Nat} {e : Int} (hn : Value24 m e) (h1 : n * 2 ^ 256 < scaledMag m e) (h2 : scaledMag m e < (n + 1) * 2 ^ 256)
    (h150 : n < 150) :
    (fex2Of false (.fin true m e)).2 &&& fNX = fNX ∧ ∃ k q, f32.unpack (fex2Of false (.fin true m e)).1 = .fin false k q
      ∧ (2 : ℝ) ^ (-((n : Int) + 1)) ≤ k * 2 ^ q ∧ (k : ℝ) * 2 ^ q ≤ 2 ^ (-(n : Int)) := by
  have hm : m ≠ 0 := by
    rintro rfl
    rw [scaledMag_zero] at h1
    omega
  have hs := scaled_small hn.2.1 hm (h2.trans_le (Nat.mul_le_mul_right _ (by omega)))
  rw [fex2_parts (N := -((n : Int) + 1)) (f := (n + 1) * 2 ^ 256 - scaledMag m e) hm hs (by omega) (by rw [if_pos rfl]; omega), if_neg (by omega)]
  have h := pow2_between (N := -((n : Int) + 1)) (f := (n + 1) * 2 ^ 256 - scaledMag m e) (by omega) (by omega) (by omega) (by omega)
  rwa [show -((n : Int) + 1) + 1 = -n by omega] at h

/- FEX2 of integers, and past both ends of the format. -/

theorem fex2_zero (s : Bool) (e : Int) : fex2Of false (.fin s 0 e) = f32.round .rne false 1 0 false := by
  unfold fex2Of
  exact if_pos rfl

theorem fex2_int {s : Bool} {m : Nat} {e n : Int} (hn : Value24 m e) (h1 : -149 ≤ n) (h2 : n ≤ 127) (hs : n ≠ 0 → s = decide (n < 0))
    (h : scaledMag m e = n.natAbs * 2 ^ 256) : fex2Of false (.fin s m e) = f32.round .rne false 1 n false := by
  by_cases hm : m = 0
  · subst hm
    rw [scaledMag_zero] at h
    obtain rfl : n = 0 := by omega
    exact fex2_zero s e
  · have hpos : scaledMag m e ≠ 0 := Nat.mul_ne_zero hm (by positivity)
    have hsm := scaled_small hn.2.1 hm (by rw [h]; exact Nat.mul_lt_mul_of_pos_right (by omega) (by positivity))
    refine (fex2_parts (N := n) (f := 0) hm hsm (by positivity) ?_).trans (if_pos rfl)
    have hn0 : n ≠ 0 := by
      rintro rfl
      exact hpos h
    rw [hs hn0, h]
    by_cases hneg : n < 0
    · rw [decide_eq_true hneg, if_pos rfl]
      omega
    · rw [decide_eq_false hneg, if_neg Bool.false_ne_true]
      omega

theorem pow2_exact {n : Int} (h1 : -149 ≤ n) (h2 : n ≤ 127) : (f32.round .rne false 1 n false).2 = 0
    ∧ ∃ d q, f32.unpack (f32.round .rne false 1 n false).1 = .fin false d q ∧ (d : ℝ) * 2 ^ q = (1 : Nat) * 2 ^ n := by
  refine round_exact false one_ne_zero (by decide) h1 ?_
  have h3 := two_pow_mul_zpow 24 103
  rw [show (103 : Int) + (24 : Nat) = 127 by omega] at h3
  rw [Nat.cast_one, one_mul]
  refine (zpow_le_zpow_right₀ one_le_two h2).trans_lt ?_
  rw [← h3]
  exact zpow_mul_lt_iff.mpr (by decide)

theorem fex2_overflow {m : Nat} {e : Int} (h : 128 * 2 ^ 256 ≤ scaledMag m e) : fex2Of false (.fin false m e) = (0x7F800000, fOF ||| fNX) := by
  have hm : m ≠ 0 := by
    rintro rfl
    rw [scaledMag_zero] at h
    omega
  have hone : bitLen 1 = 1 := by decide
  have hinf : f32.signBit false + f32.infBits = 0x7F800000 := by decide
  rw [← hinf]
  by_cases hb : e + bitLen m ≤ 9
  · rw [fex2_parts (N := scaledMag m e / 2 ^ 256) (f := scaledMag m e % 2 ^ 256) hm hb (Nat.mod_lt _ (by positivity))
      (by rw [if_neg Bool.false_ne_true]; omega)]
    split
    · exact round_overflow false (.inl one_ne_zero) (by rw [hone]; omega)
    · obtain ⟨k, hk, -, hlt⟩ := bitLen_bounds (m := pow2Scaled (scaledMag m e % 2 ^ 256)) (by have := pow2Scaled_ge (scaledMag m e % 2 ^ 256); omega)
      have := (Nat.pow_lt_pow_iff_right (by decide : 1 < 2)).mp ((pow2Scaled_ge _).trans_lt hlt)
      exact round_overflow false (.inr rfl) (by rw [hk]; omega)
  · unfold fex2Of
    simp only [if_neg hm, Bool.false_eq_true, if_false, if_pos (not_le.mp hb), gt_iff_lt]
    exact round_overflow false (.inl one_ne_zero) (by rw [hone]; decide)

/-- 2^N × 2^f of at most 2^-150 rounds to zero, the tie included. -/
theorem pow2_underflow {N : Int} {f : Nat} (hf : f < 2 ^ 256) (hN : N ≤ -150) (h0 : f = 0 ∨ N < -150) :
    (if f = 0 then f32.round .rne false 1 N false else f32.round .rne false (pow2Scaled f) (N - 256) true) = (0, fUF ||| fNX) := by
  split
  · by_cases hN' : N = -150
    · rw [hN']
      decide
    · refine round_underflow (inCell_self 1 N) one_ne_zero ?_
      rw [Nat.cast_one, one_mul]
      exact zpow_lt_zpow_right₀ one_lt_two (by omega)
  · next hne =>
    refine round_underflow (inCell_mid _ _) (by have := pow2Scaled_ge f; omega) ((inCell_mid _ _).lt.trans_le ?_)
    have h1 : ((pow2Scaled f + 1 : Nat) : ℝ) * 2 ^ (N - 256) ≤ (2 ^ 257 : Nat) * 2 ^ (N - 256) := zpow_mul_le_iff.mpr (pow2Scaled_lt hf)
    rw [two_pow_mul_zpow] at h1
    exact h1.trans (zpow_le_zpow_right₀ one_le_two (by omega))

theorem fex2_underflow {m : Nat} {e : Int} (h : 150 * 2 ^ 256 ≤ scaledMag m e) : fex2Of false (.fin true m e) = (0, fUF ||| fNX) := by
  have hm : m ≠ 0 := by
    rintro rfl
    rw [scaledMag_zero] at h
    omega
  by_cases hb : e + bitLen m ≤ 9
  · obtain ⟨N, f, hN, hf, h0, hA⟩ : ∃ (N : Int) (f : Nat), N ≤ -150 ∧ f < 2 ^ 256 ∧ (f = 0 ∨ N < -150) ∧ -(scaledMag m e : Int) = N * 2 ^ 256 + f :=
      ⟨-(scaledMag m e : Int) / 2 ^ 256, (-(scaledMag m e : Int) % 2 ^ 256).toNat, by omega, by omega, by omega, by omega⟩
    rw [fex2_parts hm hb hf (by rw [if_pos rfl]; exact hA)]
    exact pow2_underflow hf hN h0
  · unfold fex2Of
    simp only [if_neg hm, if_true, if_pos (not_le.mp hb), gt_iff_lt, Fmt.flush_false]
    decide

/- FLG2. -/

theorem log2Digits_bounds (k w y acc : Nat) : 2 ^ k * acc ≤ log2Digits k w y acc ∧ log2Digits k w y acc < 2 ^ k * (acc + 1) := by
  induction k generalizing y acc with
  | zero => simp [log2Digits]
  | succ k ih =>
    have e1 : 2 ^ (k + 1) * acc = 2 ^ k * (2 * acc) := by ring
    have e2 : 2 ^ (k + 1) * (acc + 1) = 2 ^ k * (2 * acc + 1 + 1) := by ring
    have h1 : 2 ^ k * (2 * acc) ≤ 2 ^ k * (2 * acc + 1) := Nat.mul_le_mul_left _ (Nat.le_succ _)
    have h2 : 2 ^ k * (2 * acc + 1) ≤ 2 ^ k * (2 * acc + 1 + 1) := Nat.mul_le_mul_left _ (Nat.le_succ _)
    unfold log2Digits
    rw [e1, e2]
    simp only
    split
    · exact ⟨h1.trans (ih _ _).1, (ih _ _).2⟩
    · exact ⟨(ih _ _).1, (ih _ _).2.trans_le h2⟩

/-- A digit string between n and n + 1 rounds between them, and raises NX. -/
theorem digits_between (t : Bool) {Z n : Nat} (h1 : n * 2 ^ 200 ≤ Z) (h2 : Z < (n + 1) * 2 ^ 200) (hn : n < 1000) :
    (f32.round .rne t Z (-200) true).2 &&& fNX = fNX
      ∧ ∃ k q, f32.unpack (f32.round .rne t Z (-200) true).1 = .fin t k q ∧ (n : ℝ) ≤ k * 2 ^ q ∧ (k : ℝ) * 2 ^ q ≤ (n + 1 : Nat) := by
  have unscale (a : Nat) : ((a * 2 ^ 200 : Nat) : ℝ) * 2 ^ (-200 : Int) = a * 2 ^ (0 : Int) := by
    rw [Nat.cast_mul, mul_assoc, two_pow_mul_zpow]
    rfl
  have hmid := inCell_mid Z (-200)
  have hlo := (zpow_mul_le_iff (q := -200) |>.mpr h1).trans hmid.le
  have hhi := zpow_mul_le_iff (q := -200) |>.mpr (Nat.succ_le_of_lt h2)
  rw [unscale] at hlo hhi
  obtain ⟨hnx, d, q, hu, hd, hw⟩ := round_sticky_between t (m := Z) (e := -200) (.inr (by decide)) (hhi.trans (by
    refine mul_le_mul ?_ (zpow_le_zpow_right₀ one_le_two (by decide)) (two_zpow_pos _).le (Nat.cast_nonneg _)
    exact Nat.cast_le.mpr (by omega)))
  have hl := le_nearest hd hw (by omega) (by decide) hlo
  have hu' := nearest_le hd hw (by omega) (by decide) (hmid.lt.le.trans hhi)
  rw [zpow_zero, mul_one] at hl hu'
  exact ⟨hnx, d, q, hu, hl, hu'⟩

/-- The exponent of the highest bit of a value. -/
def exponentOf (m : Nat) (e : Int) : Int := e + bitLen m - 1

theorem exponent_bounds {m : Nat} {e : Int} (hm : m ≠ 0) : (2 : ℝ) ^ exponentOf m e ≤ m * 2 ^ e ∧ (m : ℝ) * 2 ^ e < 2 ^ (exponentOf m e + 1) := by
  refine ⟨(inCell_self m e).top_le hm, ?_⟩
  rw [exponentOf, sub_add_cancel]
  exact (inCell_self m e).lt_top

/-- The exponent of a value between two powers of two. -/
theorem exponentOf_eq {m : Nat} {e j : Int} (hm : m ≠ 0) (h1 : (2 : ℝ) ^ j ≤ m * 2 ^ e) (h2 : (m : ℝ) * 2 ^ e < 2 ^ (j + 1)) : exponentOf m e = j := by
  obtain ⟨h3, h4⟩ := exponent_bounds (e := e) hm
  have h5 := (zpow_lt_zpow_iff_right₀ (one_lt_two (α := ℝ))).mp (h1.trans_lt h4)
  have h6 := (zpow_lt_zpow_iff_right₀ (one_lt_two (α := ℝ))).mp (h3.trans_lt h2)
  omega

/-- A value is a power of two where its mantissa has one bit only. -/
theorem power_iff {m : Nat} {e : Int} (hm : m ≠ 0) : m = 2 ^ (bitLen m - 1) ↔ (m : ℝ) * 2 ^ e = 2 ^ exponentOf m e := by
  obtain ⟨k, hk, -, -⟩ := bitLen_bounds hm
  have h := two_pow_mul_zpow k e
  rw [exponentOf, hk, Nat.add_sub_cancel, show e + ((k + 1 : Nat) : Int) - 1 = e + k by omega, ← h, mul_left_inj' (two_zpow_pos e).ne', Nat.cast_inj]

/-- The digits of log2 of a value, after the point. -/
def logDigits (m : Nat) : Nat := log2Digits 200 600 (m * 2 ^ (601 - bitLen m)) 0

theorem logDigits_lt (m : Nat) : logDigits m < 2 ^ 200 := (log2Digits_bounds 200 600 (m * 2 ^ (601 - bitLen m)) 0).2.trans_eq (Nat.mul_one _)

theorem flg2_parts {m : Nat} {e : Int} (hm : m ≠ 0) : flg2Of false (.fin false m e) =
    if m = 2 ^ (bitLen m - 1) then f32.round .rne (decide (exponentOf m e < 0)) (exponentOf m e).natAbs 0 false
    else if exponentOf m e * 2 ^ 200 + logDigits m < 0 then f32.round .rne true ((exponentOf m e * 2 ^ 200 + logDigits m).natAbs - 1) (-200) true
    else f32.round .rne false (exponentOf m e * 2 ^ 200 + logDigits m).toNat (-200) true := by
  unfold flg2Of
  simp only [if_neg hm, Fmt.flush_false, Bool.false_eq_true, if_false]
  rfl

/-- FLG2 of a power of two. -/
theorem flg2_power {m : Nat} {e n : Int} (hn : Value24 m e) (he : e ≤ 104) (h : (m : ℝ) * 2 ^ e = 2 ^ n) :
    (flg2Of false (.fin false m e)).2 = 0
      ∧ ∃ k q, f32.unpack (flg2Of false (.fin false m e)).1 = .fin (decide (n < 0)) k q ∧ (k : ℝ) * 2 ^ q = n.natAbs * 2 ^ (0 : Int) := by
  have hm : m ≠ 0 := by
    rintro rfl
    rw [Nat.cast_zero, zero_mul] at h
    exact (two_zpow_pos n).ne h
  have hex : exponentOf m e = n := exponentOf_eq hm h.ge (h.trans_lt (zpow_lt_zpow_right₀ one_lt_two (by omega)))
  have hrange : -149 ≤ n ∧ n ≤ 127 := by
    obtain ⟨k, hk, hle, -⟩ := bitLen_bounds hm
    have := (Nat.pow_lt_pow_iff_right (by decide : 1 < 2)).mp (hle.trans_lt hn.1)
    have := hn.2.1
    rw [exponentOf] at hex
    omega
  rw [flg2_parts hm, if_pos ((power_iff hm).mpr (by rw [hex, h])), hex]
  by_cases h0 : n = 0
  · subst h0
    exact ⟨by decide, 0, -149, by decide, by simp⟩
  · refine round_exact _ (by omega) (by omega) (by decide) ?_
    exact mul_lt_mul'' (Nat.cast_lt.mpr (by omega)) (zpow_lt_zpow_right₀ one_lt_two (by decide)) (Nat.cast_nonneg _) (two_zpow_pos _).le

/-- FLG2 strictly between two powers of two, from 1 on. -/
theorem flg2_pos_between {m n : Nat} {e : Int} (hn : Value24 m e) (he : e ≤ 104) (h1 : (2 : ℝ) ^ (n : Int) < m * 2 ^ e)
    (h2 : (m : ℝ) * 2 ^ e < 2 ^ ((n : Int) + 1)) :
    (flg2Of false (.fin false m e)).2 &&& fNX = fNX ∧ ∃ k q, f32.unpack (flg2Of false (.fin false m e)).1 = .fin false k q
      ∧ (n : ℝ) ≤ k * 2 ^ q ∧ (k : ℝ) * 2 ^ q ≤ (n + 1 : Nat) := by
  have hm : m ≠ 0 := by
    rintro rfl
    rw [Nat.cast_zero, zero_mul] at h1
    exact absurd h1 (two_zpow_pos _).not_gt
  have hex : exponentOf m e = n := exponentOf_eq hm h1.le h2
  have hd := logDigits_lt m
  have h128 : n < 128 := by
    obtain ⟨k, hk, hle, -⟩ := bitLen_bounds hm
    have := (Nat.pow_lt_pow_iff_right (by decide : 1 < 2)).mp (hle.trans_lt hn.1)
    rw [exponentOf] at hex
    omega
  rw [flg2_parts hm, if_neg (mt (power_iff hm).mp (by rw [hex]; exact h1.ne')), hex, if_neg (by omega)]
  exact digits_between false (by omega) (by omega) (by omega)

/-- And below 1, where the number rounded is minus the logarithm. -/
theorem flg2_neg_between {m n : Nat} {e : Int} (hn : Value24 m e) (h1 : (2 : ℝ) ^ (-((n : Int) + 1)) < m * 2 ^ e) (h2 : (m : ℝ) * 2 ^ e < 2 ^ (-(n : Int))) :
    (flg2Of false (.fin false m e)).2 &&& fNX = fNX ∧ ∃ k q, f32.unpack (flg2Of false (.fin false m e)).1 = .fin true k q
      ∧ (n : ℝ) ≤ k * 2 ^ q ∧ (k : ℝ) * 2 ^ q ≤ (n + 1 : Nat) := by
  have hm : m ≠ 0 := by
    rintro rfl
    rw [Nat.cast_zero, zero_mul] at h1
    exact absurd h1 (two_zpow_pos _).not_gt
  have hex : exponentOf m e = -((n : Int) + 1) := exponentOf_eq hm h1.le (by rwa [show -((n : Int) + 1) + 1 = -n by omega])
  have hd := logDigits_lt m
  have h150 : n < 150 := by
    obtain ⟨k, hk, -, -⟩ := bitLen_bounds hm
    have := hn.2.1
    rw [exponentOf] at hex
    omega
  rw [flg2_parts hm, if_neg (mt (power_iff hm).mp (by rw [hex]; exact h1.ne')), hex, if_pos (by omega)]
  exact digits_between true (by omega) (by omega) (by omega)

end Sys2Proof.Machine
end

