-- ==== Sys2Proof/Proofs/LongLatency.lean ====
section
/-! PROOF, of O12. The instructions of class DBL start, and their functions give what 06 R119 and R120 say. -/

namespace Sys2Proof.Machine

/- The special values of 06 R120. -/

theorem functions_nan (ftz sig : Bool) : ∀ f ∈ [frcpOf, frsqOf, fsqrtOf, fex2Of, flg2Of], f ftz (.nan sig) = (0x7FC00000, if sig then fNV else 0) := by
  cases sig <;> decide +revert

theorem functions_zero (ftz s : Bool) :
    frcpOf ftz (.fin s 0 (-149)) = (if s then 0xFF800000 else 0x7F800000, fDZ) ∧ frsqOf ftz (.fin s 0 (-149)) = (if s then 0xFF800000 else 0x7F800000, fDZ)
      ∧ fsqrtOf ftz (.fin s 0 (-149)) = (if s then 0x80000000 else 0, 0) ∧ fex2Of ftz (.fin s 0 (-149)) = (0x3F800000, 0)
      ∧ flg2Of ftz (.fin s 0 (-149)) = (0xFF800000, fDZ) := by
  cases s <;> decide +revert

theorem functions_inf (ftz s : Bool) :
    frcpOf ftz (.inf s) = (if s then 0x80000000 else 0, 0) ∧ frsqOf ftz (.inf s) = (if s then (0x7FC00000, fNV) else (0, 0))
      ∧ fsqrtOf ftz (.inf s) = (if s then (0x7FC00000, fNV) else (0x7F800000, 0))
      ∧ fex2Of ftz (.inf s) = (if s then (0, 0) else (0x7F800000, 0)) ∧ flg2Of ftz (.inf s) = (if s then (0x7FC00000, fNV) else (0x7F800000, 0)) := by
  cases s <;> decide +revert

theorem functions_negative (ftz : Bool) {m : Nat} (e : Int) (hm : m ≠ 0) :
    frsqOf ftz (.fin true m e) = (0x7FC00000, fNV) ∧ fsqrtOf ftz (.fin true m e) = (0x7FC00000, fNV) ∧ flg2Of ftz (.fin true m e) = (0x7FC00000, fNV) := by
  have hnan : f32.nanBits = 0x7FC00000 := by decide
  unfold frsqOf fsqrtOf flg2Of
  simp only [if_neg hm, if_true, hnan, and_self]

theorem functions_one (ftz : Bool) :
    frcpOf ftz (.fin false (2 ^ 23) (-23)) = (0x3F800000, 0) ∧ frsqOf ftz (.fin false (2 ^ 23) (-23)) = (0x3F800000, 0)
      ∧ fsqrtOf ftz (.fin false (2 ^ 23) (-23)) = (0x3F800000, 0) ∧ fex2Of ftz (.fin false (2 ^ 23) (-23)) = (0x40000000, 0)
      ∧ flg2Of ftz (.fin false (2 ^ 23) (-23)) = (0, 0) := by
  cases ftz <;> decide +kernel

/- FEX2 and FLG2 as the statement puts them. -/

/-- The pattern is 2^n. -/
def IsPow (r : Nat) (n : Int) : Prop := ∃ k q, f32.unpack r = .fin false k q ∧ dyEq k q 1 n

/-- The pattern is the integer n. -/
def IsInt (r : Nat) (n : Int) : Prop := ∃ k q, f32.unpack r = .fin (decide (n < 0)) k q ∧ dyEq k q n.natAbs 0

theorem dyLe_one_left {n : Int} {k : Nat} {q : Int} : dyLe 1 n k q ↔ (2 : ℝ) ^ n ≤ k * 2 ^ q := by
  rw [dyLe_iff, Nat.cast_one, one_mul]

theorem dyLe_one_right {n : Int} {k : Nat} {q : Int} : dyLe k q 1 n ↔ (k : ℝ) * 2 ^ q ≤ 2 ^ n := by
  rw [dyLe_iff, Nat.cast_one, one_mul]

theorem dyEq_one_right {n : Int} {k : Nat} {q : Int} : dyEq k q 1 n ↔ (k : ℝ) * 2 ^ q = 2 ^ n := by
  rw [dyEq_iff, Nat.cast_one, one_mul]

theorem dyLe_nat_left {n k : Nat} {q : Int} : dyLe n 0 k q ↔ (n : ℝ) ≤ k * 2 ^ q := by
  rw [dyLe_iff, zpow_zero, mul_one]

theorem dyLe_nat_right {n k : Nat} {q : Int} : dyLe k q n 0 ↔ (k : ℝ) * 2 ^ q ≤ n := by
  rw [dyLe_iff, zpow_zero, mul_one]

theorem fex2_isPow {s : Bool} {m : Nat} {e n : Int} (hn : Value24 m e) (h1 : -149 ≤ n) (h2 : n ≤ 127) (hs : n ≠ 0 → s = decide (n < 0))
    (h : dyEq m e n.natAbs 0) : IsPow (fex2Of false (.fin s m e)).1 n ∧ (fex2Of false (.fin s m e)).2 = 0 := by
  rw [fex2_int hn h1 h2 hs ((dyEq_scaled hn.2.1 _).mp h)]
  obtain ⟨hfl, k, q, hu, hv⟩ := pow2_exact h1 h2
  exact ⟨⟨k, q, hu, dyEq_iff.mpr hv⟩, hfl⟩

/-- Strictly between two naturals, at the scale of FEX2. -/
theorem scaled_between {m : Nat} {e : Int} (he : -149 ≤ e) {n : Nat} (h1 : dyLe n 0 m e) (h2 : dyLe m e (n + 1) 0) (h3 : ¬ dyEq m e n 0)
    (h4 : ¬ dyEq m e (n + 1) 0) : n * 2 ^ 256 < scaledMag m e ∧ scaledMag m e < (n + 1) * 2 ^ 256 := by
  rw [dyLe_scaled he] at h1
  rw [scaled_dyLe he] at h2
  rw [dyEq_scaled he] at h3 h4
  exact ⟨h1.lt_of_ne (Ne.symm h3), h2.lt_of_ne h4⟩

theorem flg2_isInt {m : Nat} {e n : Int} (hn : Value24 m e) (he : e ≤ 104) (h : dyEq m e 1 n) :
    IsInt (flg2Of false (.fin false m e)).1 n ∧ (flg2Of false (.fin false m e)).2 = 0 := by
  obtain ⟨hfl, k, q, hu, hv⟩ := flg2_power hn he (dyEq_one_right.mp h)
  exact ⟨⟨k, q, hu, dyEq_iff.mpr hv⟩, hfl⟩

/-- Settles O12: the launch of each instruction, the special values, the error of the roots and the two exponentials. -/
theorem longLatencyFloat : Obligations.LongLatencyFloat := by
  unfold Obligations.LongLatencyFloat
  refine ⟨fun h r ftz d a b c x => ?_, fun ftz s sig => ?_, fun p m e s _ hp hm => ?_, fun p m e s _ hp => ?_⟩
  · exact ⟨issueLong_pair (fun _ => rfl) fun _ => rfl, issueLong_pair (fun _ => rfl) fun _ => rfl, issueLong_pair (fun _ => rfl) fun _ => rfl,
      issueLong_pair (fun _ => rfl) fun _ => rfl, issueLong_pair (fun _ => rfl) fun _ => rfl, issueLong_word (fun _ => rfl) fun _ => rfl,
      issueLong_word (fun _ => rfl) fun _ => rfl, issueLong_word (fun _ => rfl) fun _ => rfl, issueLong_word (fun _ => rfl) fun _ => rfl,
      issueLong_word (fun _ => rfl) fun _ => rfl⟩
  · obtain ⟨z1, z2, z3, z4, z5⟩ := functions_zero ftz s
    obtain ⟨i1, i2, i3, i4, i5⟩ := functions_inf ftz s
    exact ⟨functions_nan ftz sig, z1, z2, z3, z4, z5, i1, i2, i3, i4, i5, fun m e hm => functions_negative ftz e hm, functions_one ftz⟩
  · obtain ⟨hn, -⟩ := unpack_fin hp
    refine ⟨frcp_between s hm hn, fun hs => ?_, fun hs => ?_⟩
    · subst hs
      exact fsqrt_between hm hn
    · subst hs
      exact frsq_between hm hn
  · obtain ⟨hn, he⟩ := unpack_fin hp
    refine ⟨fun n h1 h2 hs h => fex2_isPow hn h1 h2 hs h, fun hs h => ?_, fun hs h => ?_, fun n h128 hs h1 h2 h3 h4 => ?_,
      fun n h150 hs h1 h2 h3 h4 => ?_, fun n hs h => ?_, fun n hs h1 h2 h3 h4 => ?_, fun n hs h1 h2 h3 h4 => ?_⟩ <;> subst hs
    · exact fex2_overflow ((dyLe_scaled hn.2.1 _).mp h)
    · exact fex2_underflow ((dyLe_scaled hn.2.1 _).mp h)
    · obtain ⟨l, u⟩ := scaled_between hn.2.1 h1 h2 h3 h4
      obtain ⟨hnx, k, q, hu, hlo, hhi⟩ := fex2_pos_between hn l u h128
      exact ⟨hnx, k, q, hu, dyLe_one_left.mpr hlo, dyLe_one_right.mpr hhi⟩
    · obtain ⟨l, u⟩ := scaled_between hn.2.1 h1 h2 h3 h4
      obtain ⟨hnx, k, q, hu, hlo, hhi⟩ := fex2_neg_between hn l u h150
      exact ⟨hnx, k, q, hu, dyLe_one_left.mpr hlo, dyLe_one_right.mpr hhi⟩
    · exact flg2_isInt hn he h
    · rw [dyEq_one_right] at h3 h4
      obtain ⟨hnx, k, q, hu, hlo, hhi⟩ := flg2_pos_between hn he ((dyLe_one_left.mp h1).lt_of_ne (Ne.symm h3)) ((dyLe_one_right.mp h2).lt_of_ne h4)
      exact ⟨hnx, k, q, hu, dyLe_nat_left.mpr hlo, dyLe_nat_right.mpr hhi⟩
    · rw [dyEq_one_right] at h3 h4
      obtain ⟨hnx, k, q, hu, hlo, hhi⟩ := flg2_neg_between hn ((dyLe_one_left.mp h1).lt_of_ne (Ne.symm h4)) ((dyLe_one_right.mp h2).lt_of_ne h3)
      exact ⟨hnx, k, q, hu, dyLe_nat_left.mpr hlo, dyLe_nat_right.mpr hhi⟩

end Sys2Proof.Machine
end

