-- ==== Sys2Proof/Proofs/Decoding.lean ====
section
/-! SUPPORT. What the decoder answers, case by case: the causes a word alone decides, that a decoded word is a well-formed
instruction word, and that bits past the end of an instruction do not matter (03 R47, R48, R53, R58, R63). -/

namespace Sys2Proof

/- The length code (03 R47). -/

/-- An instruction has at least the 64 bits of the common fields. -/
theorem eight_le_wordBytes {w : BitVec 128} (h : wordBytes w ≠ 0) : 8 ≤ wordBytes w := by
  unfold wordBytes at *
  generalize w.extractLsb' 0 2 = len at *
  revert len
  decide

/- The causes, in the order of 03 R63. -/

theorem decode_badLength {w : BitVec 128} (h : w.extractLsb' 0 2 = 3) : decode w = .error .badLength := by
  have hl : ((Raw.ofBits w).len == 3) = true := by simpa [Raw.ofBits] using h
  simp only [decode, Raw.decode, hl, if_true]

theorem decode_unimplOp {w : BitVec 128} (hl : w.extractLsb' 0 2 ≠ 3) (ho : assigned (w.extractLsb' 2 10) = false) :
    decode w = .error .unimplOp := by
  have hl' : ((Raw.ofBits w).len == 3) = false := by simpa [Raw.ofBits] using hl
  have ho' : assigned (Raw.ofBits w).opc = false := ho
  simp only [decode, Raw.decode, hl', ho', Bool.false_eq_true, if_false, Bool.not_false, if_true]

theorem decodeAt_badLength {w : BitVec 128} (h : w.extractLsb' 0 2 = 3) (off : Nat) : decodeAt off w = .error .badLength := by
  unfold decodeAt
  rw [h]
  rfl

theorem decodeAt_of_lenBytes {w : BitVec 128} {n : Nat} (h : lenBytes (w.extractLsb' 0 2) = some n) (off : Nat) :
    decodeAt off w = if 32 < off + n then .error .fetchCross else decode w := by
  unfold decodeAt
  rw [h]

/- What is decoded. -/

@[simp] theorem opt_all {α : Type} (p : α → Bool) (ok : Bool) (x : α) : (opt ok x).all p = (!ok || p x) := by
  cases ok <;> rfl

/-- Every row of the opcode map gives an instruction word (03 R58 to R61). -/
theorem row_all_isWord (r : Raw) : r.row.all Instr.isWord = true := by
  unfold Raw.row
  split <;> simp [Raw.intI, Raw.intIC, Raw.intU, Raw.plainI, Raw.plainIC, Raw.plainDA, Raw.plainDAB, Raw.bare, Raw.rndXW, Raw.rndXWC,
    Raw.plainXW, Raw.rndX, Raw.plainX, Raw.ftzX, Raw.cmpX, Raw.intSat, Raw.dot, Raw.lineI, Instr.isWord, Option.all_bind, Function.comp_def,
    apply_ite (Option.all Instr.isWord)]
  -- SHFL, VOTE, CCTL and WAITA, where M selects among words of one kind
  all_goals
    refine (Option.all_eq_true ..).mpr fun x _ => ?_
    split <;> simp [Instr.isWord]

/-- A decoded word has a row of the opcode map, within the limits of its fields. -/
theorem decode_ok {w : BitVec 128} {i : Instr} (h : decode w = .ok i) : (Raw.ofBits w).row = some i ∧ i.wf = true := by
  unfold decode Raw.decode at h
  split at h
  · cases h
  · split at h
    · cases h
    · split at h
      · next j hj =>
        split at h
        · next hwf =>
          cases h
          exact ⟨hj, hwf⟩
        · cases h
      · split at h <;> cases h

theorem decode_ok_isWord {w : BitVec 128} {i : Instr} (h : decode w = .ok i) : i.isWord = true :=
  (Option.all_eq_true ..).mp (row_all_isWord (Raw.ofBits w)) i (decode_ok h).1

/- Bits past the end of an instruction (03 R53). -/

theorem extractLsb'_congr {n : Nat} {v w : BitVec n} {s l : Nat} (h : ∀ k, s ≤ k → k < s + l → v.getLsbD k = w.getLsbD k) :
    v.extractLsb' s l = w.extractLsb' s l := by
  refine BitVec.eq_of_getLsbD_eq fun i hi => ?_
  rw [BitVec.getLsbD_extractLsb', BitVec.getLsbD_extractLsb', h (s + i) (by omega) (by omega)]

/-- The bits above 63 count as far as the length goes. -/
theorem extOf_congr {len : W2} {e f : W64} (h : ∀ k, 64 + k < 8 * (lenBytes len).getD 0 → e.getLsbD k = f.getLsbD k)
    (hl : len ≠ 3) : extOf len e = extOf len f := by
  have hcases : ∀ x : W2, x ≠ 3 → x = 0 ∨ x = 1 ∨ x = 2 := by decide
  rcases hcases len hl with rfl | rfl | rfl
  · rfl
  · have he : e.extractLsb' 0 32 = f.extractLsb' 0 32 := extractLsb'_congr fun k _ hk => h k (by change 64 + k < 8 * 12; omega)
    show (e.extractLsb' 0 32).setWidth 64 = (f.extractLsb' 0 32).setWidth 64
    rw [he]
  · exact BitVec.eq_of_getLsbD_eq fun k hk => h k (by change 64 + k < 8 * 16; omega)

/-- Words that agree over the length of one of them have the same fields. -/
theorem ofBits_congr {v w : BitVec 128} (hn : wordBytes w ≠ 0) (h : ∀ k, k < 8 * wordBytes w → v.getLsbD k = w.getLsbD k) :
    Raw.ofBits v = Raw.ofBits w := by
  have h8 := eight_le_wordBytes hn
  have field {s l : Nat} (hs : s + l ≤ 64) : v.extractLsb' s l = w.extractLsb' s l :=
    extractLsb'_congr fun k _ hk => h k (by omega)
  have hl : w.extractLsb' 0 2 ≠ 3 := fun hl => hn (by unfold wordBytes; rw [hl]; rfl)
  have hext : extOf (w.extractLsb' 0 2) (v.extractLsb' 64 64) = extOf (w.extractLsb' 0 2) (w.extractLsb' 64 64) := by
    refine extOf_congr (fun k hk => ?_) hl
    rw [BitVec.getLsbD_extractLsb', BitVec.getLsbD_extractLsb', h (64 + k) hk]
  simp (disch := decide) only [Raw.ofBits, field, hext]

theorem decode_congr {v w : BitVec 128} (hn : wordBytes w ≠ 0) (h : ∀ k, k < 8 * wordBytes w → v.getLsbD k = w.getLsbD k) :
    decode v = decode w := by
  unfold decode
  rw [ofBits_congr hn h]

end Sys2Proof
end

