-- ==== Sys2Proof/Proofs/Rejecting.lean ====
section
/-! PROOFS. The traps of a fetch and of a decode cause: code that cannot be fetched, a word that does not decode, and what the
launch, its registers and its slots do not allow (03 R48, R63; 13 R219). -/

namespace Sys2Proof.Machine

/- A fetch changes what is held of code and mappings, and no warp and no byte of memory. -/

/-- Nothing but TLBs, stores of code and requests to the host differs. -/
structure SameButFetch (s t : State) : Prop where
  rest : t = { s with dies := t.dies, cores := t.cores, outbound := t.outbound }
  copies : ∀ d, (t.die d).copies = (s.die d).copies

namespace SameButFetch

theorem refl (s : State) : SameButFetch s s := ⟨rfl, fun _ => rfl⟩

theorem trans {a b c : State} (h1 : SameButFetch a b) (h2 : SameButFetch b c) : SameButFetch a c :=
  ⟨by rw [h2.rest, h1.rest], fun d => (h2.copies d).trans (h1.copies d)⟩

theorem of_tlb {s t : State} (h : SameButTlb s t) : SameButFetch s t := by
  refine ⟨?_, fun d => by rw [h.die d]⟩
  rw [h.rest]

theorem fillCode (s : State) (core cx line : Nat) (handler : Bool) : SameButFetch s (s.fillCode core cx line handler) := by
  obtain ⟨h, -⟩ := fillCode_spec s core cx line handler
  have hdies : (s.fillCode core cx line handler).dies = s.dies := by rw [h]
  refine ⟨?_, fun d => by unfold State.die; rw [hdies]⟩
  rw [h]

theorem storeByte {s t : State} (h : SameButFetch s t) (d a : Nat) : t.storeByte d a = s.storeByte d a := by
  have hmem : t.mem = s.mem := by rw [h.rest]
  have hlast : t.last = s.last := by rw [h.rest]
  unfold State.storeByte State.copyOf State.homeByte
  rw [h.copies, hmem, hlast]

theorem warps {s t : State} (h : SameButFetch s t) : t.warps = s.warps := by rw [h.rest]

theorem view {s t : State} (h : SameButFetch s t) (hd : Hdr) : t.view hd = s.view hd := by rw [h.rest]; rfl

end SameButFetch

theorem fetchBytes_same (s : State) (core slot : Nat) (g : Grid) (w : Warp) (pc : W64) :
    SameButFetch s (s.fetchBytes core slot g w pc).2 := by
  have htlb := SameButFetch.of_tlb (SameButTlb.fillTlb s (.part core (slot % 4)) g.ctx (vbits pc))
  unfold State.fetchBytes
  simp only
  split
  · exact .refl s
  · split
    · exact .refl s
    · exact .refl s
    · exact .refl s
    · next pa _ =>
      have hfill := htlb.trans (.fillCode _ core g.ctx (lineOf pa) (w.viaHandler g))
      split <;> split
      · exact htlb
      · exact hfill
      · exact htlb
      · exact hfill

/-- Code that cannot be fetched is for none of its causes the debugger's. -/
theorem fetchBytes_bad {s t : State} {core slot : Nat} {g : Grid} {w : Warp} {pc : W64} {c : Cause} {a : W64}
    (h : s.fetchBytes core slot g w pc = (.bad c a, t)) : c ≠ .debugHalt := by
  unfold State.fetchBytes at h
  simp only at h
  split at h
  · cases h
  · split at h
    · cases h
    · cases h; decide
    · cases h; decide
    · split at h
      · cases h; decide
      · cases h

/- The trap, at a group where nothing else stands. -/

/-- The word and the successor of the issuing context are seen by nothing else of the group. -/
theorem view_word {s : State} {h : Hdr} {v : View} (hv : s.view h = some v) (next : W64) (word : Nat) :
    State.view { s with cur := { s.cur with word := word, next := next } } h = some { v with next := next, word := word } := by
  obtain ⟨w, hw, hv⟩ := Option.bind_eq_some_iff.mp hv
  obtain ⟨b, hb, hv⟩ := Option.bind_eq_some_iff.mp hv
  obtain ⟨g, hg, rfl⟩ := Option.map_eq_some_iff.mp hv
  exact Option.bind_eq_some_iff.mpr ⟨w, hw, Option.bind_eq_some_iff.mpr ⟨b, hb, Option.map_eq_some_iff.mpr ⟨g, hg, rfl⟩⟩⟩

theorem Stands.fetched {s t : State} {h : Hdr} {v : View} (hs : Stands s h v) (ht : SameButFetch s t) : Stands t h v :=
  { hs with view := (ht.view h).trans hs.view }

theorem Stands.withWord {s : State} {h : Hdr} {v : View} (hs : Stands s h v) (next : W64) (word : Nat) :
    Stands { s with cur := { s.cur with word := word, next := next } } h { v with next := next, word := word } :=
  { hs with view := view_word hs.view next word }

theorem Stands.not_blocked {s : State} {h : Hdr} {v : View} (hs : Stands s h v) : v.w.blocked = false := by
  obtain ⟨hhalt, hwait, hpend, -⟩ := hs.free
  have hops : v.w.ops.any (fun o => o.fault.isSome) = false := by
    rw [List.any_eq_false]
    intro o ho
    simp [(hs.drained o ho).2]
  simp [Warp.blocked, hhalt, hwait, hpend, hops]

/-- A trap sees the warps and the memory of the state before it, and nothing else. -/
theorem TrapsTo.of_parts {s t u : State} {v : View} {pc : W64} {c : Cause} {m : Mask} {a : W64} (h : TrapsTo t v pc c m a u)
    (hwarps : t.warps = s.warps) (hbytes : ∀ d b, t.storeByte d b = s.storeByte d b) : TrapsTo s v pc c m a u := by
  obtain ⟨w, r, hw, hothers, htrap, hcause, hpc, hwin, hmask, haddr, hiter, hregs, hpreds, hat, hmem⟩ := h
  exact ⟨w, r, hw, fun j hj => hwarps ▸ hothers j hj, htrap, hcause, hpc, hwin, hmask, haddr, hiter, hregs, hpreds, hat,
    fun d b => (hmem d b).trans (hbytes d b)⟩

theorem decodeCause_ne (c : DecodeCause) : decodeCause c ≠ .debugHalt := by cases c <;> decide

/-- A word that does not decode traps with its cause (03 R63). -/
theorem fetchCur_error {s t : State} {v : View} {bs : List Byte} {c : DecodeCause} (hs : Stands s hdr0 v)
    (hf : s.fetchBytes v.core v.slot v.g v.w v.pc = (.bytes bs, t))
    (hd : decodeAt (v.pc.toNat % 32) (BitVec.ofNat 128 (bitsOfBytes bs)) = .error c) :
    ∃ u, s.fetchCur = .idle u ∧ TrapsTo s v v.pc (decodeCause c) v.grp 0 u := by
  have ht : SameButFetch s t := by simpa [hf] using fetchBytes_same s v.core v.slot v.g v.w v.pc
  have hs' := (hs.fetched ht).withWord (seqNext v.pc (wordBytes (BitVec.ofNat 128 (bitsOfBytes bs)))) (BitVec.ofNat 128 (bitsOfBytes bs)).toNat
  refine ⟨_, ?_, (raise_traps hs' (decodeCause_ne c) v.grp 0).of_parts ht.warps ht.storeByte⟩
  obtain ⟨-, hrep, -, -⟩ := hs.fresh
  unfold State.fetchCur
  simp only [hs.view, hrep, hf, hs'.view, hd, hs.not_blocked, Bool.false_eq_true, if_false]

/-- Code that cannot be fetched traps with the cause and the address of the fault. -/
theorem fetchCur_bad {s t : State} {v : View} {c : Cause} {a : W64} (hs : Stands s hdr0 v)
    (hf : s.fetchBytes v.core v.slot v.g v.w v.pc = (.bad c a, t)) :
    ∃ u, s.fetchCur = .idle u ∧ TrapsTo s v v.pc c v.grp a u := by
  have ht : SameButFetch s t := by simpa [hf] using fetchBytes_same s v.core v.slot v.g v.w v.pc
  refine ⟨_, ?_, (raise_traps (hs.fetched ht) (fetchBytes_bad hf) v.grp a).of_parts ht.warps ht.storeByte⟩
  obtain ⟨-, hrep, -, -⟩ := hs.fresh
  unfold State.fetchCur
  simp only [hs.view, hrep, hf]

/-- An instruction that the launch does not allow traps with the first cause against it (03 R63). -/
theorem check_traps {i : Instr} {h : Hdr} {eff : View → State → Eff} (he : ∀ s, exec i s = issue s h (reqOf i) eff) {s : State} {v : View}
    (hs : Stands s h v) {c : Cause} (hc : v.check (reqOf i v) = some c) (hn : c ≠ .debugHalt) : Traps i s v c 0 := by
  obtain ⟨-, -, -, ha⟩ := hs.free
  obtain ⟨-, -, hreplay, -⟩ := hs.fresh
  have hkill : v.w.killFirst = false := by simp only [Warp.killFirst, asyncCause_none ha]
  have hskip : v.skips = none := by simp [View.skips, hreplay]
  refine ⟨_, ?_, raise_traps hs hn v.grp 0⟩
  rw [he]
  simp only [issue, hs.view, beq_eq_false_iff_ne.mpr hs.group, hs.not_blocked, hkill, hskip, hc, Bool.or_self, Bool.false_eq_true, if_false]

/- The order of the causes that the launch decides (03 R63): each is found where the earlier ones do not apply. -/

/-- No field of the instruction is bad in this launch. -/
structure View.FieldsFit (v : View) (r : Req) : Prop where
  bad : r.bad = false
  maps : ∀ b ∈ r.maps, ∀ i, i < 8 → b + i < v.g.ceils.length → v.ceil (b + i) = .u

/-- Nor does the launch lack a feature of it, or run in a mode that forbids it. -/
structure View.Admits (v : View) (r : Req) : Prop extends v.FieldsFit r where
  feats : ∀ f ∈ r.feats, v.g.rec_.feature f = true
  mode : r.noTravel = true → v.g.rec_.travel = false

/-- Nor does it name a register that the launch has not declared, or give one a tag above its ceiling. -/
structure View.Declares (v : View) (r : Req) : Prop extends v.Admits r where
  reads : ∀ x ∈ r.reads, x < v.g.ceils.length
  writes : ∀ x ∈ r.writes, x.1 < v.g.ceils.length ∧ (v.tagOf r.sat x.2).le (v.ceil x.1) = true

theorem View.FieldsFit.of_plain {v : View} {r : Req} (hb : r.bad = false) (hm : r.maps = []) : v.FieldsFit r :=
  ⟨hb, by simp [hm]⟩

theorem check_badField {v : View} {r : Req} {b i : Nat} (hb : b ∈ r.maps) (hi : i < 8) (hn : b + i < v.g.ceils.length)
    (hc : v.ceil (b + i) ≠ .u) : v.check r = some .badField := by
  have h : r.maps.any (fun b => (List.range 8).any (fun i => decide (b + i < v.g.ceils.length) && v.ceil (b + i) != .u)) = true :=
    List.any_eq_true.mpr ⟨b, hb, List.any_eq_true.mpr ⟨i, List.mem_range.mpr hi, by simp [hn, hc]⟩⟩
  simp [View.check, h]

theorem View.FieldsFit.not_bad {v : View} {r : Req} (h : v.FieldsFit r) :
    (r.bad || r.maps.any (fun b => (List.range 8).any (fun i => decide (b + i < v.g.ceils.length) && v.ceil (b + i) != .u))) = false := by
  rw [h.bad, Bool.false_or, List.any_eq_false]
  intro b hb hany
  obtain ⟨i, hi, hx⟩ := List.any_eq_true.mp hany
  simp only [Bool.and_eq_true, decide_eq_true_eq, bne_iff_ne] at hx
  exact hx.2 (h.maps b hb i (List.mem_range.mp hi) hx.1)

theorem check_featureOff {v : View} {r : Req} (h : v.FieldsFit r) {f : Nat} (hf : f ∈ r.feats) (hoff : v.g.rec_.feature f = false) :
    v.check r = some .featureOff := by
  have hany : r.feats.any (fun f => !v.g.rec_.feature f) = true := List.any_eq_true.mpr ⟨f, hf, by simp [hoff]⟩
  simp only [View.check, h.not_bad, hany, Bool.false_eq_true, if_false, if_true]

theorem feats_any {v : View} {r : Req} (h : ∀ f ∈ r.feats, v.g.rec_.feature f = true) : r.feats.any (fun f => !v.g.rec_.feature f) = false := by
  rw [List.any_eq_false]
  intro f hf
  simp [h f hf]

theorem check_travelMode {v : View} {r : Req} (h : v.FieldsFit r) (hf : ∀ f ∈ r.feats, v.g.rec_.feature f = true) (hm : r.noTravel = true)
    (ht : v.g.rec_.travel = true) : v.check r = some .travelMode := by
  simp only [View.check, h.not_bad, feats_any hf, hm, ht, Bool.and_self, Bool.false_eq_true, if_false, if_true]

theorem View.Admits.not_mode {v : View} {r : Req} (h : v.Admits r) : (r.noTravel && v.g.rec_.travel) = false := by
  cases hm : r.noTravel
  · rfl
  · rw [h.mode hm, Bool.and_false]

theorem check_regRange {v : View} {r : Req} (h : v.Admits r)
    (hr : (∃ x ∈ r.reads, v.g.ceils.length ≤ x) ∨ ∃ x ∈ r.writes, v.g.ceils.length ≤ x.1) : v.check r = some .regRange := by
  have hany : (r.reads.any (fun x => v.g.ceils.length ≤ x) || r.writes.any (fun x => v.g.ceils.length ≤ x.1)) = true := by
    simpa [List.any_eq_true] using hr
  simp only [View.check, h.not_bad, feats_any h.feats, h.not_mode, hany, Bool.false_eq_true, if_false, if_true]

/-- Past the registers, what is left to check is the slot, the tile and the barrier. -/
theorem View.Declares.check {v : View} {r : Req} (h : v.Declares r) :
    v.check r = if r.badSlot then some .badSlot
      else if r.tile.any (fun t => poolAcc v.b.poolw / 8 ≤ t) then some .accRange
      else if r.bar.any (fun b => 128 ≤ b || (112 ≤ b && !v.g.rec_.coop)) then some .barNumber
      else none := by
  have hrange : (r.reads.any (fun x => v.g.ceils.length ≤ x) || r.writes.any (fun x => v.g.ceils.length ≤ x.1)) = false := by
    simp only [Bool.or_eq_false_iff, List.any_eq_false, decide_eq_true_eq, not_le]
    exact ⟨h.reads, fun x hx => (h.writes x hx).1⟩
  have htags : r.writes.any (fun x => !(v.tagOf r.sat x.2).le (v.ceil x.1)) = false := by
    rw [List.any_eq_false]
    intro x hx
    simp [(h.writes x hx).2]
  simp only [View.check, h.not_bad, feats_any h.feats, h.not_mode, hrange, htags, Bool.false_eq_true, if_false]

/-- Ceiling G admits every tag (04 R77). -/
theorem Tag.le_g (t : Tag) : t.le .g = true := by cases t <;> rfl

/-- KIND is bits 31:30 of a slot. -/
theorem slotKind_zero {w : W32} (h : w &&& 0xC0000000 = 0) : slotKind w = 0 := by
  have hones : (0xC0000000 : W32).extractLsb' 30 2 = BitVec.allOnes 2 := by decide
  have hkind : w.extractLsb' 30 2 = 0 :=
    calc w.extractLsb' 30 2 = (w &&& 0xC0000000).extractLsb' 30 2 := by rw [BitVec.extractLsb'_and, hones, BitVec.and_allOnes]
      _ = 0 := by rw [h]; rfl
  rw [slotKind, field_toNat, hkind]
  rfl

/-- An instruction whose one feature the launch lacks. -/
theorem feature_traps {i : Instr} {h : Hdr} {eff : View → State → Eff} (he : ∀ s, exec i s = issue s h (reqOf i) eff) {s : State} {v : View}
    (hs : Stands s h v) (hfit : v.FieldsFit (reqOf i v)) {f : Nat} (hf : (reqOf i v).feats = [f]) (hoff : v.g.rec_.feature f = false) :
    Traps i s v .featureOff 0 :=
  check_traps he hs (check_featureOff hfit (hf ▸ List.mem_singleton_self f) hoff) (by decide)

/-- An instruction that travel mode forbids, in a launch that has its one feature. -/
theorem travel_traps {i : Instr} {h : Hdr} {eff : View → State → Eff} (he : ∀ s, exec i s = issue s h (reqOf i) eff) {s : State} {v : View}
    (hs : Stands s h v) (hfit : v.FieldsFit (reqOf i v)) {f : Nat} (hf : (reqOf i v).feats = [f]) (hn : (reqOf i v).noTravel = true)
    (hon : v.g.rec_.feature f = true) (ht : v.g.rec_.travel = true) : Traps i s v .travelMode 0 :=
  check_traps he hs (check_travelMode hfit (by simpa [hf] using hon) hn ht) (by decide)

/-- An instruction that any mode allows, in a launch that has its one feature. -/
theorem View.FieldsFit.admits {v : View} {r : Req} (hfit : v.FieldsFit r) {f : Nat} (hf : r.feats = [f]) (hn : r.noTravel = false)
    (hon : v.g.rec_.feature f = true) : v.Admits r :=
  { hfit with feats := by simpa [hf] using hon, mode := by simp [hn] }

/- What CVTN, MMZ and BARLD leave to check where their features, mode and registers are in order. -/

theorem cvtn_declares {v : View} {h : Hdr} {r : RndS} {st : TypeCode} {f : W3} {na aa : Bool} {d a : W9} (hf : v.g.rec_.feature 2 = true)
    (ha : a.toNat < v.g.ceils.length) (hd : d.toNat < v.g.ceils.length) (hc : v.ceil d.toNat = .g) :
    v.Declares (reqOf (.cvtn h r st f na aa d a) v) :=
  { (View.FieldsFit.of_plain rfl rfl).admits rfl rfl hf with
    reads := by simpa [reqOf, reqA] using ha
    writes := by simpa [reqOf, reqA, genTo, hc, Tag.le_g] using hd }

theorem mmz_declares {v : View} {h : Hdr} {t : W3} (hf : v.g.rec_.feature 4 = true) (ht : v.g.rec_.travel = false) :
    v.Declares (reqOf (.mmz h t) v) :=
  { View.FieldsFit.of_plain rfl rfl with
    feats := by simpa [reqOf] using hf
    mode := fun _ => ht
    reads := by simp [reqOf]
    writes := by simp [reqOf] }

theorem barld_declares {v : View} {h : Hdr} {n b : W9} (hf : v.g.rec_.feature 0 = true) (hb : b.toNat < v.g.ceils.length) :
    v.Declares (reqOf (.barld h n b) v) :=
  { (View.FieldsFit.of_plain rfl rfl).admits rfl rfl hf with
    reads := by simpa [reqOf] using hb
    writes := by simp [reqOf] }

/-- An instruction that names an undeclared register, in a launch that admits it. -/
theorem register_traps {i : Instr} {h : Hdr} {eff : View → State → Eff} (he : ∀ s, exec i s = issue s h (reqOf i) eff) {s : State} {v : View}
    (hs : Stands s h v) (hadm : v.Admits (reqOf i v))
    (hr : (∃ x ∈ (reqOf i v).reads, v.g.ceils.length ≤ x) ∨ ∃ x ∈ (reqOf i v).writes, v.g.ceils.length ≤ x.1) : Traps i s v .regRange 0 :=
  check_traps he hs (check_regRange hadm hr) (by decide)

/-- Settles O57: the decoder's own causes, the fetch, and each cause of the launch. -/
theorem decodeRejects : Obligations.DecodeRejects := by
  unfold Obligations.DecodeRejects
  refine ⟨fun w h => ⟨decode_badLength h, decodeAt_badLength h⟩, fun w => decode_unimplOp, fun w off n h => decodeAt_of_lenBytes h off,
    fun w i h => ⟨decode_ok_isWord h, (decode_ok h).2⟩, fun w v => decode_congr, fun s s1 v hs => ⟨fun bs c hf hd => ?_, fun c a => fetchCur_bad hs⟩,
    fun h r rs st na aa w4 cv d a b n t f vm g p gd x y sb s v hs =>
      ⟨?_, fun s48 k col hceil hk hoff => ?_, fun ht => ⟨fun hon => ?_, fun hon => ?_, fun hon => ?_⟩, fun hon => ⟨fun hd => ?_, fun ha => ?_⟩,
        fun i hi hn hc => ?_, fun hon ha hd hc hw => ?_, fun hon ht hp => ?_, fun hon hb hn => ?_⟩⟩
  · cases c <;> exact fetchCur_error hs hf hd
  · simp only [List.forall_mem_cons, List.not_mem_nil, false_imp_iff, implies_true, and_true]
    refine ⟨?_, ?_, ?_, ?_, ?_, ?_, ?_, ?_, ?_⟩ <;> exact feature_traps (fun _ => rfl) hs (.of_plain rfl rfl) rfl
  · exact feature_traps (fun _ => rfl) hs ⟨hk, fun _ _ _ _ _ => hceil _⟩ rfl hoff
  · exact travel_traps (fun _ => rfl) hs (.of_plain rfl rfl) rfl rfl hon ht
  · exact travel_traps (fun _ => rfl) hs (.of_plain rfl rfl) rfl rfl hon ht
  · exact travel_traps (fun _ => rfl) hs (.of_plain rfl rfl) rfl rfl hon ht
  · exact register_traps (fun _ => rfl) hs ((View.FieldsFit.of_plain rfl rfl).admits rfl rfl hon) (.inr ⟨_, List.mem_singleton_self _, hd⟩)
  · exact register_traps (fun _ => rfl) hs ((View.FieldsFit.of_plain rfl rfl).admits rfl rfl hon) (.inl ⟨_, List.mem_singleton_self _, ha⟩)
  · exact check_traps (fun _ => rfl) hs (check_badField (List.mem_singleton_self a.toNat) hi hn hc) (by decide)
  · refine check_traps (fun _ => rfl) hs ?_ (c := .badSlot) (by decide)
    have hslot : (reqOf (.cvtn h rs st f na aa d a) v).badSlot = true := by simp [reqOf, View.slotUnused, slotKind_zero hw]
    rw [(cvtn_declares hon ha hd hc).check, if_pos hslot]
  · refine check_traps (fun _ => rfl) hs ?_ (c := .accRange) (by decide)
    rw [(mmz_declares hon ht).check]
    simp [reqOf, hp]
  · refine check_traps (fun _ => rfl) hs ?_ (c := .barNumber) (by decide)
    have hbar : (reqOf (.barld h n b) v).bar.any (fun b => 128 ≤ b || (112 ≤ b && !v.g.rec_.coop)) = true := by simpa [reqOf] using hn
    rw [(barld_declares hon hb).check, if_neg (by simp [reqOf]), if_neg (by simp [reqOf]), if_pos hbar]

end Sys2Proof.Machine
end

