-- ==== Sys2Proof/Proofs/RoundTrips.lean ====
section
/-! PROOFS. Every instruction word is read back from its encoding, and so are the words that the manual writes out (03 R47 to
R62). -/

namespace Sys2Proof

open Laws

/-- Each row of the opcode map reads its own words back, and a step of the machine has none (03 R58 to R61). -/
theorem decode_encode (i : Instr) : RoundTrip.Statement i := by
  cases i with
  | nop h => exact RoundTrip.nop h | bra h off => exact RoundTrip.bra h off | brx h a => exact RoundTrip.brx h a
  | call h off => exact RoundTrip.call h off | callx h a => exact RoundTrip.callx h a | ret h => exact RoundTrip.ret h
  | exit h => exact RoundTrip.exit h | rep cnt sd sa sb sc => exact RoundTrip.rep cnt sd sa sb sc | trap h k => exact RoundTrip.trap h k
  | bkpt h k => exact RoundTrip.bkpt h k | isync h => exact RoundTrip.isync h | nap h b => exact RoundTrip.nap h b
  | yield h => exact RoundTrip.yield h | resume h => exact RoundTrip.resume h | tret h => exact RoundTrip.tret h
  | srd h d s => exact RoundTrip.srd h d s | swr h s a => exact RoundTrip.swr h s a | iadd h m d a b => exact RoundTrip.iadd h m d a b
  | isub h m d a b => exact RoundTrip.isub h m d a b | iaddc h u d a b p => exact RoundTrip.iaddc h u d a b p
  | ineg h s d a => exact RoundTrip.ineg h s d a | iabs h s d a => exact RoundTrip.iabs h s d a
  | imul h m d a b => exact RoundTrip.imul h m d a b | imulh h u d a b => exact RoundTrip.imulh h u d a b
  | imad h m d a b c => exact RoundTrip.imad h m d a b c | imadw h m d a b c => exact RoundTrip.imadw h m d a b c
  | iadd64 h m d a b => exact RoundTrip.iadd64 h m d a b | isub64 h m d a b => exact RoundTrip.isub64 h m d a b
  | imul64 h m d a b => exact RoundTrip.imul64 h m d a b | imin h u d a b => exact RoundTrip.imin h u d a b
  | imax h u d a b => exact RoundTrip.imax h u d a b | isad h m d a b c => exact RoundTrip.isad h m d a b c
  | idot4 h m bn d a b c => exact RoundTrip.idot4 h m bn d a b c | idot2 h m bn d a b c => exact RoundTrip.idot2 h m bn d a b c
  | lea h sh d a b => exact RoundTrip.lea h sh d a b | lea64 h u sh d a b => exact RoundTrip.lea64 h u sh d a b
  | lgate h d a b c t => exact RoundTrip.lgate h d a b c t | shl h d a b => exact RoundTrip.shl h d a b
  | shr h d a b => exact RoundTrip.shr h d a b | sar h d a b => exact RoundTrip.sar h d a b | rotl h d a b => exact RoundTrip.rotl h d a b
  | shf h r d a b c => exact RoundTrip.shf h r d a b c | popc h d a => exact RoundTrip.popc h d a | clz h d a => exact RoundTrip.clz h d a
  | ctz h d a => exact RoundTrip.ctz h d a | brev h d a => exact RoundTrip.brev h d a | bfe h u d a b => exact RoundTrip.bfe h u d a b
  | bfi h d a b c => exact RoundTrip.bfi h d a b c | prmt h d a b c => exact RoundTrip.prmt h d a b c
  | clmul h d a b => exact RoundTrip.clmul h d a b | clmulh h d a b => exact RoundTrip.clmulh h d a b
  | clmulw h d a b => exact RoundTrip.clmulw h d a b | isetp h c p a b => exact RoundTrip.isetp h c p a b
  | fsetp h c p a b x => exact RoundTrip.fsetp h c p a b x | dsetp h c p a b x => exact RoundTrip.dsetp h c p a b x
  | pgate h pd pa pb pc t => exact RoundTrip.pgate h pd pa pb pc t | sel h d a b p => exact RoundTrip.sel h d a b p
  | p2v h d => exact RoundTrip.p2v h d | v2p h a b => exact RoundTrip.v2p h a b | mov h d a => exact RoundTrip.mov h d a
  | movi h d v => exact RoundTrip.movi h d v | mov64i h d v => exact RoundTrip.mov64i h d v
  | fadd h r d a b x => exact RoundTrip.fadd h r d a b x | fsub h r d a b x => exact RoundTrip.fsub h r d a b x
  | fmul h r d a b x => exact RoundTrip.fmul h r d a b x | ffma h r d a b c x => exact RoundTrip.ffma h r d a b c x
  | fmin h d a b x => exact RoundTrip.fmin h d a b x | fmax h d a b x => exact RoundTrip.fmax h d a b x
  | frnd h r d a x => exact RoundTrip.frnd h r d a x | fclass h d a => exact RoundTrip.fclass h d a | fexp h d a => exact RoundTrip.fexp h d a
  | fldexp h r d a b x => exact RoundTrip.fldexp h r d a b x | hadd2 h r d a b x => exact RoundTrip.hadd2 h r d a b x
  | hmul2 h r d a b x => exact RoundTrip.hmul2 h r d a b x | hfma2 h r d a b c x => exact RoundTrip.hfma2 h r d a b c x
  | bfma2 h r d a b c x => exact RoundTrip.bfma2 h r d a b c x | dadd h r d a b x => exact RoundTrip.dadd h r d a b x
  | dmul h r d a b x => exact RoundTrip.dmul h r d a b x | dfma h r d a b c x => exact RoundTrip.dfma h r d a b c x
  | dmin h d a b x => exact RoundTrip.dmin h d a b x | dmax h d a b x => exact RoundTrip.dmax h d a b x
  | frcp h f d a x => exact RoundTrip.frcp h f d a x | frsq h f d a x => exact RoundTrip.frsq h f d a x
  | fsqrt h f d a x => exact RoundTrip.fsqrt h f d a x | fex2 h f d a x => exact RoundTrip.fex2 h f d a x
  | flg2 h f d a x => exact RoundTrip.flg2 h f d a x | cvt h r dt sty na aa d a => exact RoundTrip.cvt h r dt sty na aa d a
  | cvtn h r sty f na aa d a => exact RoundTrip.cvtn h r sty f na aa d a | cvtw h r dt f d a => exact RoundTrip.cvtw h r dt f d a
  | pack4 h w d a => exact RoundTrip.pack4 h w d a | unpack4 h w d a => exact RoundTrip.unpack4 h w d a
  | shfl h m d a b => exact RoundTrip.shfl h m d a b | vote h m d p => exact RoundTrip.vote h m d p
  | redw h op d a => exact RoundTrip.redw h op d a | scanw h op ex d a => exact RoundTrip.scanw h op ex d a
  | matchv h all d a => exact RoundTrip.matchv h all d a | active h d => exact RoundTrip.active h d | wsync h b => exact RoundTrip.wsync h b
  | ld h m d a off x => exact RoundTrip.ld h m d a off x | st h w a b cm off x => exact RoundTrip.st h w a b cm off x
  | lds h m d a off => exact RoundTrip.lds h m d a off | sts h w a b off => exact RoundTrip.sts h w a b off
  | stx h w a b off x => exact RoundTrip.stx h w a b off x | pref h a off => exact RoundTrip.pref h a off
  | cctl h m a off => exact RoundTrip.cctl h m a off | icinv h a off => exact RoundTrip.icinv h a off
  | atom h op d a b off x => exact RoundTrip.atom h op d a b off x | atomc h dbl d a b c off x => exact RoundTrip.atomc h dbl d a b c off x
  | red h op a b off x => exact RoundTrip.red h op a b off x | fence h cm x => exact RoundTrip.fence h cm x
  | waita h c d a b => exact RoundTrip.waita h c d a b | bar h m sw n => exact RoundTrip.bar h m sw n
  | barsv h d n => exact RoundTrip.barsv h d n | barld h n b => exact RoundTrip.barld h n b
  | bpv h stale d a hd c => exact RoundTrip.bpv h stale d a hd c | bvm h vm a hd => exact RoundTrip.bvm h vm a hd
  | brst h hd => exact RoundTrip.brst h hd | vmpop h d vm => exact RoundTrip.vmpop h d vm | vmtst h p vm b => exact RoundTrip.vmtst h p vm b
  | vmnext h d vm b => exact RoundTrip.vmnext h d vm b | mma h t a b k fa fb g => exact RoundTrip.mma h t a b k fa fb g
  | mmas h s48 t a b c k fa fb g => exact RoundTrip.mmas h s48 t a b c k fa fb g | mmz h t => exact RoundTrip.mmz h t
  | mmrd h cv d t b => exact RoundTrip.mmrd h cv d t b | mmwr h cv t a b => exact RoundTrip.mmwr h cv t a b
  | mmld h cv t a g => exact RoundTrip.mmld h cv t a g | mmst h cv t a col g => exact RoundTrip.mmst h cv t a col g
  | mmwait h t => exact RoundTrip.mmwait h t | cmprs h s48 d a b k fa col => exact RoundTrip.cmprs h s48 d a b k fa col
  | qpush h q a => exact RoundTrip.qpush h q a | qpop h d q => exact RoundTrip.qpop h d q | job h a => exact RoundTrip.job h a
  | gset h g p => exact RoundTrip.gset h g p | draw h b => exact RoundTrip.draw h b | burn h b => exact RoundTrip.burn h b
  | shunt h p b => exact RoundTrip.shunt h p b | spawn h b => exact RoundTrip.spawn h b | sendw h a b => exact RoundTrip.sendw h a b
  | _ => exact nofun

/-- Settles O56: the rows of the opcode map, one by one. -/
theorem decodeEncode : Obligations.DecodeEncode := decode_encode

/-- A word that encodes a well-formed instruction decodes to it. -/
theorem decode_of_encode {w : BitVec 128} {i : Instr} (he : encode i = w) (hi : i.isWord = true) (hw : i.wf = true) : decode w = .ok i :=
  he ▸ decode_encode i hi hw

/-- Settles O55: each word of the list encodes its instruction, so the round trip gives the decoding. -/
theorem decodeWorkedWords : Obligations.DecodeWorkedWords := by
  unfold Obligations.DecodeWorkedWords
  refine ⟨?_, ?_, ?_, ?_, ?_, ?_, ?_, ?_, ?_, ?_, ?_, ?_, ?_, ?_, ?_⟩ <;> exact decode_of_encode (by decide) rfl (by decide)

end Sys2Proof
end

