-- ==== Sys2Proof/Proofs/Repeating.lean ====
section
/-! PROOFS. REP: its start, the words of its iterations, and what an iteration leaves of it (03 R65, R66). -/

namespace Sys2Proof.Machine

/- The word of an iteration (03 R65). -/

/-- A step that keeps the lowest field below 512 carries into nothing above it. -/
theorem add_low_field {x y d z : Nat} (hx : x = y + (d + 512 * z)) (h : y % 512 + d < 512) :
    x % 512 = y % 512 + d ∧ x / 512 = y / 512 + z := by
  omega

/-- Steps that keep each of the four fields below 512 carry into no other bit of the word. -/
theorem stepped_parts {w k sd sa sb sc : Nat} (hd : w / 2 ^ 24 % 512 + k * sd < 512) (ha : w / 2 ^ 33 % 512 + k * sa < 512)
    (hb : w / 2 ^ 42 % 512 + k * sb < 512) (hc : w / 2 ^ 51 % 512 + k * sc < 512) {x : Nat}
    (hx : x = w + k * (sd * 2 ^ 24 + sa * 2 ^ 33 + sb * 2 ^ 42 + sc * 2 ^ 51)) :
    x % 2 ^ 24 = w % 2 ^ 24 ∧ x / 2 ^ 24 % 512 = w / 2 ^ 24 % 512 + k * sd ∧ x / 2 ^ 33 % 512 = w / 2 ^ 33 % 512 + k * sa
      ∧ x / 2 ^ 42 % 512 = w / 2 ^ 42 % 512 + k * sb ∧ x / 2 ^ 51 % 512 = w / 2 ^ 51 % 512 + k * sc ∧ x / 2 ^ 60 = w / 2 ^ 60 := by
  have hsum : x = w + 2 ^ 24 * (k * sd + 512 * (k * sa + 512 * (k * sb + 512 * (k * sc + 512 * 0)))) := by rw [hx]; ring
  have hlow : x % 2 ^ 24 = w % 2 ^ 24 := by rw [hsum, Nat.add_mul_mod_self_left]
  -- each field is the lowest of what the field before it leaves
  have h33 (n : Nat) : n / 2 ^ 24 / 512 = n / 2 ^ 33 := Nat.div_div_eq_div_mul ..
  have h42 (n : Nat) : n / 2 ^ 33 / 512 = n / 2 ^ 42 := Nat.div_div_eq_div_mul ..
  have h51 (n : Nat) : n / 2 ^ 42 / 512 = n / 2 ^ 51 := Nat.div_div_eq_div_mul ..
  have h60 (n : Nat) : n / 2 ^ 51 / 512 = n / 2 ^ 60 := Nat.div_div_eq_div_mul ..
  have fromD : x / 2 ^ 24 = w / 2 ^ 24 + (k * sd + 512 * (k * sa + 512 * (k * sb + 512 * (k * sc + 512 * 0)))) := by
    rw [hsum, Nat.add_mul_div_left _ _ (by decide)]
  obtain ⟨ed, fromA⟩ := add_low_field fromD hd
  rw [h33, h33] at fromA
  obtain ⟨ea, fromB⟩ := add_low_field fromA ha
  rw [h42, h42] at fromB
  obtain ⟨eb, fromC⟩ := add_low_field fromB hb
  rw [h51, h51] at fromC
  obtain ⟨ec, above⟩ := add_low_field fromC hc
  rw [h60, h60] at above
  exact ⟨hlow, ed, ea, eb, ec, above⟩

/-- A 9-bit field of a number, as the bits of a word that holds it. -/
theorem extractLsb'_ofNat_nine {x : Nat} (hx : x < 2 ^ 128) (p : Nat) :
    (BitVec.ofNat 128 x).extractLsb' p 9 = BitVec.ofNat 9 (x / 2 ^ p % 512) := by
  refine BitVec.eq_of_toNat_eq ?_
  rw [BitVec.extractLsb'_toNat, BitVec.toNat_ofNat, BitVec.toNat_ofNat, Nat.mod_eq_of_lt hx, Nat.shiftRight_eq_div_pow, Nat.mod_mod]

/-- A number is as long as the part of it above bit 60. -/
theorem lt_of_high_eq {x w : Nat} (hhigh : x / 2 ^ 60 = w / 2 ^ 60) (hw : w < 2 ^ 128) : x < 2 ^ 128 := by omega

/-- Bits outside the stepped fields are equal where the parts that hold them are. -/
theorem testBit_of_parts {x w j : Nat} (hlow : x % 2 ^ 24 = w % 2 ^ 24) (hhigh : x / 2 ^ 60 = w / 2 ^ 60) (hj : j < 24 ∨ 60 ≤ j) :
    x.testBit j = w.testBit j := by
  rcases hj with hj | hj
  · have h := congrArg (fun n => n.testBit j) hlow
    simpa only [Nat.testBit_mod_two_pow, hj, decide_true, Bool.true_and] using h
  · have h := congrArg (fun n => n.testBit (j - 60)) hhigh
    simpa only [Nat.testBit_div_two_pow, Nat.sub_add_cancel hj] using h

/-- Fields D, A, B and C move by the steps of the iteration, and the other bits stay. -/
theorem stepWord_spec {r : RepSt} {k : Nat} (hw : r.word < 2 ^ 128)
    (hf : ∀ f ∈ [(24, r.sd), (33, r.sa), (42, r.sb), (51, r.sc)], r.word / 2 ^ f.1 % 512 + k * f.2 < 512) :
    (∀ f ∈ [(24, r.sd), (33, r.sa), (42, r.sb), (51, r.sc)],
      (stepWord r k).extractLsb' f.1 9 = BitVec.ofNat 9 (r.word / 2 ^ f.1 % 512 + k * f.2))
    ∧ ∀ j, j < 24 ∨ (60 ≤ j ∧ j < 128) → (stepWord r k).getLsbD j = r.word.testBit j := by
  simp only [List.forall_mem_cons, List.not_mem_nil, false_imp_iff, implies_true, and_true] at hf ⊢
  obtain ⟨hd, ha, hb, hc⟩ := hf
  obtain ⟨hlow, ed, ea, eb, ec, hhigh⟩ := stepped_parts hd ha hb hc rfl
  unfold stepWord
  generalize r.word + k * (r.sd * 2 ^ 24 + r.sa * 2 ^ 33 + r.sb * 2 ^ 42 + r.sc * 2 ^ 51) = x at *
  have hx : x < 2 ^ 128 := lt_of_high_eq hhigh hw
  refine ⟨?_, fun j hj => ?_⟩
  · rw [← ed, ← ea, ← eb, ← ec]
    exact ⟨extractLsb'_ofNat_nine hx _, extractLsb'_ofNat_nine hx _, extractLsb'_ofNat_nine hx _, extractLsb'_ofNat_nine hx _⟩
  · rw [BitVec.getLsbD_ofNat, testBit_of_parts hlow hhigh (hj.imp_right And.left)]
    have h128 : j < 128 := hj.elim (fun h => h.trans (by decide)) And.right
    simp only [h128, decide_true, Bool.true_and]

/- Fetching in a REP (01 R19; 03 R65). -/

/-- In a REP the group issues the stepped word of the iteration, which is fetched no more. -/
theorem fetchCur_rep {s : State} {v : View} {r : RepSt} {i : Instr} (hv : s.view hdr0 = some v) (hr : v.w.rep = some r)
    (hi : decode (stepWord r r.iter) = .ok i) :
    s.fetchCur = .instr i
      { s with cur := { s.cur with pc := r.pc, next := seqNext r.pc (wordBytes (stepWord r r.iter)), word := (stepWord r r.iter).toNat } } := by
  -- the kernel would evaluate the literals of `stepWord` one by one: it stands as a variable here
  obtain ⟨stepped, hstepped⟩ : ∃ stepped, stepped = stepWord := ⟨_, rfl⟩
  unfold State.fetchCur
  rw [← hstepped] at hi ⊢
  simp only [hv, hr, hi]

/-- In a REP the lanes are those its guard selected at the start. -/
theorem view_act_rep {s : State} {h : Hdr} {v : View} {r : RepSt} (hv : s.view h = some v) (hr : v.w.rep = some r) : v.act = r.act &&& v.grp := by
  obtain ⟨w, -, hv⟩ := Option.bind_eq_some_iff.mp hv
  obtain ⟨b, -, hv⟩ := Option.bind_eq_some_iff.mp hv
  obtain ⟨g, -, rfl⟩ := Option.map_eq_some_iff.mp hv
  simp only at hr ⊢
  rw [hr]

/- What an instruction leaves of the REPs and counts of its warp. -/

/-- The warp stands in the same iteration of the same REP, with the same executed counts. -/
structure SameRep (w w' : Warp) : Prop where
  rep : w'.rep = w.rep
  reps : w'.reps = w.reps
  count : w'.count = w.count

/-- Its threads also stand where they stood. -/
structure SamePlace (w w' : Warp) : Prop extends SameRep w w' where
  pcs : w'.pcs = w.pcs
  lanes : w'.lanes = w.lanes

theorem SameRep.trans {a b c : Warp} (h1 : SameRep a b) (h2 : SameRep b c) : SameRep a c :=
  ⟨h2.rep.trans h1.rep, h2.reps.trans h1.reps, h2.count.trans h1.count⟩

theorem SamePlace.trans {a b c : Warp} (h1 : SamePlace a b) (h2 : SamePlace b c) : SamePlace a c :=
  ⟨h1.toSameRep.trans h2.toSameRep, h2.pcs.trans h1.pcs, h2.lanes.trans h1.lanes⟩

theorem recordOn_sameRep (v : View) (r : Req) (next : List W64) (n : Nat) (w : Warp) : SameRep w (v.recordOn r next n w) := ⟨rfl, rfl, rfl⟩

theorem goto_sameRep (w : Warp) (e : Nat) (f : Nat → W64) : SameRep w (w.goto e f) := by
  obtain ⟨⟨p, ls, h⟩, -, -⟩ := goto_spec w e f
  rw [h]
  exact ⟨rfl, rfl, rfl⟩

theorem trackHang_sameRep (w : Warp) (e : Nat) (p : Bool) (n : Nat) : SameRep w (w.trackHang e p n) := by
  unfold Warp.trackHang
  split
  · exact ⟨rfl, rfl, rfl⟩
  · split <;> exact ⟨rfl, rfl, rfl⟩

theorem prune_sameRep (w : Warp) : SameRep w w.prune := ⟨rfl, rfl, rfl⟩

theorem addAsync_samePlace (w : Warp) (c : Cause) (a : W64) : SamePlace w (w.addAsync c a) := by
  unfold Warp.addAsync
  split <;> exact ⟨⟨rfl, rfl, rfl⟩, rfl, rfl⟩

theorem stepStop_sameRep (s : State) (v : View) (w : Warp) : SameRep w (s.stepStop v w) := by
  unfold State.stepStop
  split
  · exact (addAsync_samePlace w _ _).toSameRep
  · exact ⟨rfl, rfl, rfl⟩

/-- With no other REP that waits for its turn, none goes on. -/
theorem nextRep_none {w : Warp} (hr : w.rep = none) (hs : w.reps = []) : w.nextRep.rep = none := by
  simp [Warp.nextRep, hr, hs]

theorem nextRep_count (w : Warp) : w.nextRep.count = w.count := by
  unfold Warp.nextRep
  simp only
  split <;> rfl

/- The step to the successor in a REP (03 R66). -/

theorem moveOn_again {v : View} (ha : v.again = true) (moved : Mask) (next : List W64) (w : Warp) :
    v.moveOn moved next w = { w with rep := w.rep.map (fun p => { p with iter := p.iter + 1 }) } := if_pos ha

/-- The group goes on: each of its threads that moves counts the instruction, and no REP stands but one that waited. -/
theorem moveOn_last {v : View} (ha : v.again = false) (moved : Mask) (next : List W64) {w : Warp} (hl : v.grp &&& w.groupOf v.entry = v.grp)
    (hg : v.grp ≠ 0) :
    (w.reps = [] → (v.moveOn moved next w).rep = none)
    ∧ ∀ l, l < 32 → nth (v.moveOn moved next w).count l 0 = nth w.count l 0 + (if has (v.grp &&& moved) l then 1 else 0) := by
  unfold View.moveOn
  simp only [ha, hl, hg, Bool.false_eq_true, if_false]
  set counted : Warp := { w with rep := none, count := allLanes.map (fun l => nth w.count l 0 + (if has (v.grp &&& moved) l then 1 else 0)) }
  have hgoto := goto_sameRep counted v.entry (fun l => nth next l 0)
  refine ⟨fun hs => nextRep_none hgoto.rep (hgoto.reps.trans hs), fun l h32 => ?_⟩
  rw [nextRep_count, hgoto.count]
  exact nth_map_range 32 (fun l => nth w.count l 0 + (if has (v.grp &&& moved) l then 1 else 0)) l 0 h32

/-- After the move, what an advance does leaves REPs and counts as the move has left them. -/
theorem advance_moved {s : State} {v : View} (r : Req) (moved : Mask) (pcs : Nat → W64) {w : Warp} (hw : tget s.warps v.key = some w) :
    ∃ recorded w', tget (s.advance v r moved pcs).warps v.key = some w' ∧ SamePlace w recorded
      ∧ SameRep (v.moveOn moved (v.nexts w moved pcs) recorded) w' := by
  unfold State.advance
  simp only [hw, tget_tput_self]
  exact ⟨v.recordOn r (v.nexts w moved pcs) s.issueCount w, _, rfl, ⟨recordOn_sameRep .., rfl, rfl⟩,
    ((trackHang_sameRep ..).trans (prune_sameRep _)).trans (stepStop_sameRep ..)⟩

/-- An effect that completes is followed by the step to the successor. -/
theorem issue_done_advance {s : State} {h : Hdr} {v : View} {rq : View → Req} {eff : View → State → Eff} (hv : s.view h = some v)
    (hg : v.goes (rq v) = true) (hc : v.w.asyncCause = none) {s' : State} (he : eff v s = .done s') {w : Warp}
    (hw : tget s'.warps v.key = some w) (hgrp : v.grp &&& w.groupOf v.entry = v.grp) :
    issue s h rq eff = .next (s'.advance v (rq v) (BitVec.allOnes 32) (fun _ => v.next)) := by
  obtain ⟨-, w', hw', hlive⟩ := advance_spec s' v (rq v) (BitVec.allOnes 32) (fun _ => v.next) w hw hgrp ((goes_iff v (rq v)).mp hg).1
  rw [issue_goes hv hg, he]
  simp only [State.finish, hc, Option.isSome_none, Bool.false_eq_true, if_false]
  rw [retireWarp_live hw' hlive]

/-- What an iteration does (03 R66): the group stays for the next one, or with the last goes on and counts one instruction. -/
def Iterates (i : Instr) (s : State) (v : View) (r : RepSt) : Prop :=
  ∃ t w, exec i s = .next t ∧ tget t.warps v.key = some w ∧
    if r.iter + 1 < r.cnt then w.rep = some { r with iter := r.iter + 1 } ∧ w.count = v.w.count ∧ ∀ l, l < 32 → w.pcAt l = v.w.pcAt l
    else (v.w.reps = [] → w.rep = none) ∧ ∀ l, l < 32 → nth w.count l 0 = nth v.w.count l 0 + (if has v.grp l then 1 else 0)
      ∧ w.pcAt l = if has v.grp l then v.next else v.w.pcAt l

/-- In a REP that goes on every thread stays; otherwise the group goes on, and no other thread moves. -/
theorem Passes.pcAt {s t : State} {v : View} {w w' : Warp} {next : Nat → W64} (h : Passes s v w next t) (hw' : tget t.warps v.key = some w')
    {l : Nat} (h32 : l < 32) : w'.pcAt l = if has v.grp l && !v.again then next l else w.pcAt l := by
  obtain ⟨x, -, hwarps, -, -, hgo, hstay, -⟩ := h
  obtain rfl : w' = x := Option.some.inj (hw'.symm.trans ((hwarps v.key).trans (if_pos rfl)))
  cases hl : has v.grp l
  · exact hstay l h32 hl
  · rw [hgo l hl]
    cases v.again <;> rfl

/-- The issuing group stands in its entry of every warp with the same lanes. -/
theorem issuers_of_lanes {s : State} {h : Hdr} {v : View} (hv : s.view h = some v) {w : Warp} (hl : w.lanes = v.w.lanes) :
    v.grp &&& w.groupOf v.entry = v.grp := by
  obtain ⟨-, -, -, -, -, -, -, hissuers, -⟩ := view_spec hv
  have hgroup : w.groupOf v.entry = v.w.groupOf v.entry := by simp [Warp.groupOf, hl]
  rw [hgroup, hissuers]
  exact issuers_sub v.w v.entry

/-- An instruction whose effect completes, and leaves its warp in its place, is an iteration of the REP. -/
theorem iterates_of_done {s : State} {h : Hdr} {v : View} {r : RepSt} {i : Instr} {eff : View → State → Eff} (hi : Issues s h i v)
    (hr : v.w.rep = some r) (hx : exec i s = issue s h (reqOf i) eff) {s' : State} (he : eff v s = .done s')
    (hw : ∃ w, tget s'.warps v.key = some w ∧ SamePlace v.w w) : Iterates i s v r := by
  obtain ⟨w, hw, hplace⟩ := hw
  have hnext := issue_done_advance hi.view hi.goes hi.calm he hw (issuers_of_lanes hi.view hplace.lanes)
  obtain ⟨t, ht, hpass⟩ := issue_done hi.view hi.goes hi.calm he hw hplace.lanes
  obtain rfl := Host.Outcome.next.inj (hnext.symm.trans ht)
  obtain ⟨recorded, w', hw', hrecorded, hmoved⟩ := advance_moved (reqOf i v) (BitVec.allOnes 32) (fun _ => v.next) hw
  have hstart := hplace.trans hrecorded
  have hagain : v.again = decide (r.iter + 1 < r.cnt) := by simp [View.again, hr]
  have hpc (l : Nat) (h32 : l < 32) : w'.pcAt l = if has v.grp l && !v.again then v.next else v.w.pcAt l := by
    have hstood : w.pcAt l = v.w.pcAt l := by simp only [Warp.pcAt, hplace.pcs]
    rw [hpass.pcAt hw' h32, hstood]
  refine ⟨_, w', hx.trans ht, hw', ?_⟩
  split
  · next hlt =>
    rw [decide_eq_true hlt] at hagain
    rw [moveOn_again hagain] at hmoved
    refine ⟨?_, hmoved.count.trans hstart.count, fun l h32 => ?_⟩
    · rw [hmoved.rep, hstart.rep, hr]
      rfl
    · simpa [hagain] using hpc l h32
  · next hge =>
    rw [decide_eq_false hge] at hagain
    obtain ⟨hover, hcount⟩ := moveOn_last hagain (BitVec.allOnes 32) (v.nexts w (BitVec.allOnes 32) fun _ => v.next)
      (issuers_of_lanes hi.view hstart.lanes) ((goes_iff v _).mp hi.goes).1
    refine ⟨fun hs => hmoved.rep.trans (hover (hstart.reps.trans hs)), fun l h32 => ⟨?_, ?_⟩⟩
    · rw [hmoved.count, hcount l h32, hstart.count, BitVec.and_allOnes]
    · simpa [hagain] using hpc l h32

/- What writes of registers, predicates and flags leave of the warp. -/

theorem putAll_samePlace (v : View) (sat : Bool) (l : List ((Nat × TagRule) × List W32)) (w : Warp) : SamePlace w (v.putAll sat w l) := by
  obtain ⟨rs, os, h⟩ := putAll_keeps v sat l w
  rw [h]
  exact ⟨⟨rfl, rfl, rfl⟩, rfl, rfl⟩

theorem putPred_samePlace (v : View) (w : Warp) (p : Nat) (f : Nat → Bool) : SamePlace w (v.putPred w p f) := ⟨⟨rfl, rfl, rfl⟩, rfl, rfl⟩

theorem raiseFlags_samePlace (w : Warp) (fptrap : Bool) (f : FFlags) : SamePlace w (w.raiseFlags fptrap f) := by
  have hflags : SamePlace w { w with fflags := w.fflags ||| f } := ⟨⟨rfl, rfl, rfl⟩, rfl, rfl⟩
  unfold Warp.raiseFlags
  simp only
  split
  · exact hflags.trans (addAsync_samePlace ..)
  · exact hflags

theorem modWarp_samePlace {s : State} {k : Nat} {w0 : Warp} {f : Warp → Warp} (hf : ∀ w, SamePlace w (f w))
    (hw : ∃ w, tget s.warps k = some w ∧ SamePlace w0 w) : ∃ w, tget (s.modWarp k f).warps k = some w ∧ SamePlace w0 w := by
  obtain ⟨w, hw, hplace⟩ := hw
  exact ⟨f w, by rw [modWarp_warps, tget_tmod_self, hw]; rfl, hplace.trans (hf w)⟩

/-- The issuing warp stands in its place before the effect. -/
theorem view_samePlace {s : State} {h : Hdr} {v : View} (hv : s.view h = some v) : ∃ w, tget s.warps v.key = some w ∧ SamePlace v.w w := by
  obtain ⟨-, -, -, hw, -⟩ := view_spec hv
  exact ⟨v.w, hw, ⟨⟨rfl, rfl, rfl⟩, rfl, rfl⟩⟩

/-- A word for each lane. -/
theorem issueVal_iterates {s : State} {h : Hdr} {v : View} {r : RepSt} {i : Instr} {f : View → Nat → W32} (hi : Issues s h i v)
    (hr : v.w.rep = some r) (hx : exec i s = issueVal s h i f) : Iterates i s v r :=
  iterates_of_done hi hr hx rfl (modWarp_samePlace (putAll_samePlace v _ _) (view_samePlace hi.view))

/-- A word and flags for each lane. -/
theorem issueFlt_iterates {s : State} {h : Hdr} {v : View} {r : RepSt} {i : Instr} {f : View → Nat → Nat × FFlags} (hi : Issues s h i v)
    (hr : v.w.rep = some r) (hx : exec i s = issueFlt s h i f) : Iterates i s v r :=
  iterates_of_done hi hr hx rfl (modWarp_samePlace (fun w => raiseFlags_samePlace w _ _)
    (modWarp_samePlace (putAll_samePlace v _ _) (view_samePlace hi.view)))

/-- A predicate for each lane. -/
theorem issuePred_iterates {s : State} {h : Hdr} {v : View} {r : RepSt} {i : Instr} {p : W4} {f : View → Nat → Bool} (hi : Issues s h i v)
    (hr : v.w.rep = some r) (hx : exec i s = issuePred s h i p f) : Iterates i s v r :=
  iterates_of_done hi hr hx rfl (modWarp_samePlace (fun w => putPred_samePlace v w _ _) (view_samePlace hi.view))

/- The start of a REP (03 R65). -/

/-- An effect that has replaced the control state. -/
theorem issue_stay {s : State} {h : Hdr} {v : View} {rq : View → Req} {eff : View → State → Eff} (hv : s.view h = some v)
    (hg : v.goes (rq v) = true) (hc : v.w.asyncCause = none) {s' : State} (he : eff v s = .stay s') :
    issue s h rq eff = .next { s' with issueCount := s'.issueCount + 1 } := by
  rw [issue_goes hv hg, he]
  simp only [State.finish, hc, Option.isSome_none, Bool.false_eq_true, if_false]

theorem bitsOfBytes_eq (bs : List Byte) : bitsOfBytes bs = ofBytes bs := by
  induction bs with
  | nil => rfl
  | cons b bs ih => rw [bitsOfBytes, ofBytes, ih]

theorem ofNat_field (x l n : Nat) : BitVec.ofNat n (field x l n) = BitVec.ofNat n (x / 2 ^ l) := by
  refine BitVec.eq_of_toNat_eq ?_
  rw [BitVec.toNat_ofNat, BitVec.toNat_ofNat, field, Nat.shiftRight_eq_div_pow, Nat.mod_mod]

theorem field_one (x l : Nat) : (field x l 1 == 1) = x.testBit l := by
  rw [field, Nat.shiftRight_eq_div_pow, Nat.testBit_eq_decide_div_mod_eq, pow_one]
  rfl

/-- The REP that starts at the group: iteration 0 of a word, in the lanes its guard selects. -/
def View.repOf (v : View) (cnt : W4) (sd sa sb sc : W3) (word : Nat) : RepSt :=
  { base := v.pc, pc := v.next, word := word, cnt := cnt.toNat + 1, iter := 0, sd := sd.toNat, sa := sa.toNat, sb := sb.toNat,
    sc := sc.toNat, entry := v.entry, grp := v.grp, act := v.w.guarded ⟨BitVec.ofNat 4 (word / 2 ^ 12), word.testBit 16, 0, 0⟩ v.grp }

/-- A REP that meets no cause stands in its warp, and no other warp has changed. -/
theorem execRep_starts {cnt : W4} {sd sa sb sc : W3} {s s1 : State} {v : View} {bs : List Byte} (hi : Issues s hdr0 (.rep cnt sd sa sb sc) v)
    (hblock : v.next.toNat / 32 = v.pc.toNat / 32) (hf : s.fetchBytes v.core v.slot v.g v.w v.next = (.bytes bs, s1))
    (hc : v.repCause (v.repOf cnt sd sa sb sc (ofBytes bs)) (BitVec.ofNat 4 (ofBytes bs / 2 ^ 12)) ((ofBytes bs).testBit 16) = none) :
    ∃ t, exec (.rep cnt sd sa sb sc) s = .next t
      ∧ t.warps = tmod s.warps v.key (fun w => { w with rep := some (v.repOf cnt sd sa sb sc (ofBytes bs)), lastIssue := s1.issueCount }) := by
  have hwarps : s1.warps = s.warps := by simpa [hf] using (fetchBytes_same s v.core v.slot v.g v.w v.next).warps
  have hstay : execRep cnt sd sa sb sc s = .next { s1.modWarp v.key (fun w => { w with
      rep := some (v.repOf cnt sd sa sb sc (ofBytes bs)), lastIssue := s1.issueCount }) with issueCount := s1.issueCount + 1 } := by
    unfold execRep
    refine issue_stay hi.view hi.goes hi.calm ?_
    simp only [View.repOf] at hc ⊢
    simp only [hblock, hf, bitsOfBytes_eq, ofNat_field, field_one, hc, bne_self_eq_false, Bool.false_eq_true, if_false]
  refine ⟨_, hstay, ?_⟩
  rw [← hwarps]
  rfl

/-- Settles O22: the start, the stepped words, and the five instructions, each an iteration by the shape of its meaning. -/
theorem repeatStarts : Obligations.RepeatStarts := by
  unfold Obligations.RepeatStarts
  refine ⟨fun cnt sd sa sb sc s s1 v bs hi hblock hf hc => ?_, fun r k hw hf => stepWord_spec hw hf,
    fun h s v r hr => ⟨fun i hv hi => fetchCur_rep hv hr hi, fun hv => view_act_rep hv hr, fun m n k d a c b p y x => ?_⟩⟩
  · obtain ⟨t, ht, hwarps⟩ := execRep_starts hi hblock hf hc
    obtain ⟨-, -, -, hw, -⟩ := view_spec hi.view
    refine ⟨t, { v.w with rep := some (v.repOf cnt sd sa sb sc (ofBytes bs)), lastIssue := s1.issueCount }, ht, ?_, rfl, fun j hj => ?_⟩
    · rw [hwarps, tget_tmod_self, hw]
      rfl
    · rw [hwarps, tget_tmod_ne _ _ hj]
  · simp only [List.forall_mem_cons, List.not_mem_nil, false_imp_iff, implies_true, and_true]
    exact ⟨fun hi => issueVal_iterates hi hr rfl, fun hi => issueVal_iterates hi hr rfl, fun hi => issueFlt_iterates hi hr rfl,
      fun hi => issueVal_iterates hi hr rfl, fun hi => issuePred_iterates hi hr rfl⟩

end Sys2Proof.Machine
end

