-- ==== Sys2Proof/Proofs/Computing.lean ====
section
/-! SUPPORT. What the shapes of the lane arithmetic do (06 R95): a word or a pair for each lane by the rule of its row, the
same with flags, and a predicate for each lane. A meaning's proof then says only on which operands its value depends. -/

namespace Sys2Proof.Machine

/- An effect on the issuing warp alone. -/

/-- An effect that changes nothing but the issuing warp, and leaves its threads on their entries: the group goes on. -/
theorem issue_modWarp {i : Instr} {s : State} {h : Hdr} {v : View} (hi : Issues s h i v) {F : Warp → Warp} {eff : View → State → Eff}
    (he : eff v s = .done (s.modWarp v.key F)) (hl : (F v.w).lanes = v.w.lanes) :
    ∃ t, issue s h (reqOf i) eff = .next t ∧ Passes s v (F v.w) (fun _ => v.next) t := by
  obtain ⟨hv, hg, hc⟩ := hi
  obtain ⟨-, -, -, hw, -⟩ := view_spec hv
  obtain ⟨t, ht, hp⟩ := issue_done (rq := reqOf i) hv hg hc he (w := F v.w) (by rw [modWarp_warps, tget_tmod_self, hw]; rfl) hl
  exact ⟨t, ht, hp.modWarp⟩

theorem modWarp_modWarp (s : State) (k : Nat) (f g : Warp → Warp) : (s.modWarp k f).modWarp k g = s.modWarp k (fun w => g (f w)) := by
  have h (t : Tbl Warp) : tmod (tmod t k f) k g = tmod t k (fun w => g (f w)) := by
    induction t with
    | nil => rfl
    | cons x t ih =>
      obtain ⟨j, w⟩ := x
      by_cases hj : j = k <;> simp [tmod, hj, ih]
  exact congrArg (fun t => { s with warps := t }) (h s.warps)

/- Flags (04 R83). -/

/-- Flags arise beside what the registers and the window hold. -/
theorem raiseFlags_regs (w : Warp) (rs : List Reg) (os : List Op) (p : Bool) (f : FFlags) :
    ({ w with regs := rs, ops := os } : Warp).raiseFlags p f = { w.raiseFlags p f with regs := rs, ops := os } := by
  unfold Warp.raiseFlags Warp.addAsync
  simp only
  split
  · split <;> rfl
  · rfl

/-- And beside what the predicates hold. -/
theorem raiseFlags_preds (w : Warp) (ps : List Mask) (p : Bool) (f : FFlags) :
    ({ w with preds := ps } : Warp).raiseFlags p f = { w.raiseFlags p f with preds := ps } := by
  unfold Warp.raiseFlags Warp.addAsync
  simp only
  split
  · split <;> rfl
  · rfl

theorem raiseFlags_lanes (w : Warp) (p : Bool) (f : FFlags) : (w.raiseFlags p f).lanes = w.lanes := by
  unfold Warp.raiseFlags Warp.addAsync
  simp only
  split
  · split <;> rfl
  · rfl

/-- The flags of a list by lane are those that the active lanes raise. -/
theorem flags_eq (v : View) (s : State) (f : Nat → FFlags) :
    v.flags s (perLane f) = s.modWarp v.key (fun w => w.raiseFlags (v.g.rec_.flag 3) (v.raised f)) := by
  have h : v.lanes.map (fun l => nth (perLane f) l 0) = v.lanes.map f :=
    List.map_congr_left fun l hl => nth_perLane _ _ (List.mem_range.mp (List.mem_of_mem_filter hl))
  unfold View.flags View.raised
  rw [h]

theorem flagged_eq (v : View) (f : Nat → FFlags) (w : Warp) : v.flagged f w = w.raiseFlags (v.g.rec_.flag 3) (v.raised f) := rfl

/-- An instruction that writes words for every lane and raises flags, and no more. -/
theorem computesFlags_outs {i : Instr} {h : Hdr} (fs : View → List (Nat → W32)) (g : View → Nat → FFlags) (ds : View → List Nat)
    (he : ∀ s, exec i s = issue s h (reqOf i) (fun v s => .done (v.flags (v.outs s (reqOf i v) ((fs v).map perLane)) (perLane (g v)))))
    (hd : ∀ v, (reqOf i v).writes.map Prod.fst = ds v) (hn : ∀ v, (ds v).Nodup)
    (hf : ∀ v, ∀ x ∈ (reqOf i v).writes.zip ((fs v).map perLane), (reqOf i v).sat = true ∨ x.1.2.fits v.w v.act x.2) :
    ComputesFlags i h (fun v => (ds v).zip (fs v)) g := by
  intro s v hi
  set F : Warp → Warp := fun w => (v.putAll (reqOf i v).sat w ((reqOf i v).writes.zip ((fs v).map perLane))).raiseFlags (v.g.rec_.flag 3) (v.raised (g v))
  have hregs := outs_regs (fs := fs v) (hf v) (by rw [hd]; exact hn v)
  obtain ⟨rs, os, hk⟩ := putAll_keeps v (reqOf i v).sat ((reqOf i v).writes.zip ((fs v).map perLane)) v.w
  have hF : F v.w = { v.flagged (g v) v.w with regs := rs, ops := os } := by
    show (v.putAll _ _ _).raiseFlags _ _ = _
    rw [hk, flagged_eq, raiseFlags_regs]
  obtain ⟨t, ht, hp⟩ := issue_modWarp hi (F := F)
    (eff := fun v s => .done (v.flags (v.outs s (reqOf i v) ((fs v).map perLane)) (perLane (g v))))
    (by rw [flags_eq, outs_eq, modWarp_modWarp]) (by rw [hF]; exact raiseFlags_lanes v.w _ _)
  rw [hF] at hp
  rw [hd, hk] at hregs
  exact ⟨t, _, (he s).trans ht, hp.ops (v.flagged (g v) v.w).ops, rfl, hregs⟩

/- Values that depend on the operands only. -/

/-- Two lanes read the same in each of these registers. -/
def Warp.alike (w : Warp) (srcs : List Nat) (l k : Nat) : Prop := ∀ n ∈ srcs, w.rd n l = w.rd n k

theorem alike_of_allU {w : Warp} {srcs : List Nat} (h : w.allU srcs = true) (l k : Nat) : w.alike srcs l k :=
  fun _ hn => allU_rd h hn l k

/-- Operand B is alike where its registers are. -/
theorem alike_srcB {w : Warp} {b : SrcB} {l k : Nat} (h : w.alike (srcRegs b) l k) : w.srcB b l = w.srcB b k := by
  cases b with
  | reg n => exact h n.toNat (by simp [srcRegs])
  | imm x => rfl

theorem alike_rd64 {w : Warp} {n : W9} {l k : Nat} (h : w.alike (pairOf n) l k) : w.rd64 n.toNat l = w.rd64 n.toNat k := by
  unfold Warp.rd64
  rw [h n.toNat (by simp [pairOf]), h (n.toNat + 1) (by simp [pairOf])]

theorem alike_srcB64 {w : Warp} {b : SrcB} {u : Bool} {l k : Nat} (h : w.alike (srcPairs b) l k) : w.srcB64 b u l = w.srcB64 b u k := by
  cases b with
  | reg n => exact alike_rd64 h
  | imm x => rfl

theorem alike_append {w : Warp} {xs ys : List Nat} {l k : Nat} : w.alike (xs ++ ys) l k ↔ w.alike xs l k ∧ w.alike ys l k := by
  simp only [Warp.alike, List.mem_append]
  exact ⟨fun h => ⟨fun n hn => h n (.inl hn), fun n hn => h n (.inr hn)⟩, fun h n hn => hn.elim (h.1 n) (h.2 n)⟩

theorem alike_cons {w : Warp} {x : Nat} {xs : List Nat} {l k : Nat} : w.alike (x :: xs) l k ↔ w.rd x l = w.rd x k ∧ w.alike xs l k := by
  simp [Warp.alike]

/-- A column of a function of these sources fits the row that takes U where all of them do (04 R76). -/
theorem fits_alike {w : Warp} {srcs : List Nat} {act : Mask} {f : Nat → W32} (h : ∀ l k, w.alike srcs l k → f l = f k) :
    (TagRule.gen srcs).fits w act (perLane f) :=
  fits_gen fun hu l k _ _ => h l k (alike_of_allU hu l k)

/- One register. -/

/-- A word for each lane, by the rule of the row. -/
theorem issueVal_computes {i : Instr} {h : Hdr} {d : Nat} {rule : View → TagRule} {f g : View → Nat → W32}
    (he : ∀ s, exec i s = issueVal s h i f) (hw : ∀ v, (reqOf i v).writes = [(d, rule v)]) (hfg : ∀ v l, f v l = g v l)
    (hf : ∀ v, (reqOf i v).sat = true ∨ (rule v).fits v.w v.act (perLane (g v))) : Computes i h (fun v => [(d, g v)]) := by
  obtain rfl : f = g := funext fun v => funext fun l => hfg v l
  refine computes_outs (fun v => [f v]) (fun _ => [d]) he (fun v => by rw [hw]; rfl) (fun _ => List.nodup_singleton d) fun v x hx => ?_
  rw [hw] at hx
  rw [List.mem_singleton.mp hx]
  exact hf v

/-- The same in a row that takes U where all its sources do. -/
theorem issueVal_gen {i : Instr} {h : Hdr} {d : Nat} (srcs : List Nat) {f g : View → Nat → W32} (he : ∀ s, exec i s = issueVal s h i f)
    (hw : ∀ v, (reqOf i v).writes = genTo [d] srcs) (hfg : ∀ v l, f v l = g v l) (hs : ∀ v l k, v.w.alike srcs l k → g v l = g v k) :
    Computes i h (fun v => [(d, g v)]) :=
  issueVal_computes he hw hfg fun v => .inr (fits_alike (hs v))

/-- Rows of one source register. -/
theorem issueVal_a {i : Instr} {h : Hdr} {d : Nat} {a : W9} {f g : View → Nat → W32} (he : ∀ s, exec i s = issueVal s h i f)
    (hfg : ∀ v l, f v l = g v l) (hw : ∀ v, (reqOf i v).writes = genTo [d] [a.toNat] := by intros; rfl)
    (hs : ∀ v l k, v.w.rd a.toNat l = v.w.rd a.toNat k → g v l = g v k := by intro v l k ha; simp only [ha]) :
    Computes i h (fun v => [(d, g v)]) :=
  issueVal_gen _ he hw hfg fun v l k hr => hs v l k (alike_cons.mp hr).1

/-- Rows of a register and operand B. -/
theorem issueVal_ab {i : Instr} {h : Hdr} {d : Nat} {a : W9} {b : SrcB} {f g : View → Nat → W32} (he : ∀ s, exec i s = issueVal s h i f)
    (hfg : ∀ v l, f v l = g v l) (hw : ∀ v, (reqOf i v).writes = genTo [d] (a.toNat :: srcRegs b) := by intros; rfl)
    (hs : ∀ v l k, v.w.rd a.toNat l = v.w.rd a.toNat k → v.w.srcB b l = v.w.srcB b k → g v l = g v k := by
      intro v l k ha hb; simp only [ha, hb]) :
    Computes i h (fun v => [(d, g v)]) :=
  issueVal_gen _ he hw hfg fun v l k hr => hs v l k (alike_cons.mp hr).1 (alike_srcB (alike_cons.mp hr).2)

/-- Rows of two registers and operand B. -/
theorem issueVal_abc {i : Instr} {h : Hdr} {d : Nat} {a c : W9} {b : SrcB} {f g : View → Nat → W32} (he : ∀ s, exec i s = issueVal s h i f)
    (hfg : ∀ v l, f v l = g v l) (hw : ∀ v, (reqOf i v).writes = genTo [d] (a.toNat :: c.toNat :: srcRegs b) := by intros; rfl)
    (hs : ∀ v l k, v.w.rd a.toNat l = v.w.rd a.toNat k → v.w.srcB b l = v.w.srcB b k → v.w.rd c.toNat l = v.w.rd c.toNat k → g v l = g v k := by
      intro v l k ha hb hc; simp only [ha, hb, hc]) :
    Computes i h (fun v => [(d, g v)]) :=
  issueVal_gen _ he hw hfg fun v l k hr => by
    obtain ⟨ha, hr⟩ := alike_cons.mp hr
    obtain ⟨hc, hr⟩ := alike_cons.mp hr
    exact hs v l k ha (alike_srcB hr) hc

/-- Rows of two registers. -/
theorem issueVal_rr {i : Instr} {h : Hdr} {d : Nat} {a b : W9} {f g : View → Nat → W32} (he : ∀ s, exec i s = issueVal s h i f)
    (hfg : ∀ v l, f v l = g v l) (hw : ∀ v, (reqOf i v).writes = genTo [d] [a.toNat, b.toNat] := by intros; rfl)
    (hs : ∀ v l k, v.w.rd a.toNat l = v.w.rd a.toNat k → v.w.rd b.toNat l = v.w.rd b.toNat k → g v l = g v k := by
      intro v l k ha hb; simp only [ha, hb]) :
    Computes i h (fun v => [(d, g v)]) :=
  issueVal_ab (b := .reg b) he hfg hw hs

/-- Rows of three registers. -/
theorem issueVal_rrr {i : Instr} {h : Hdr} {d : Nat} {a b c : W9} {f g : View → Nat → W32} (he : ∀ s, exec i s = issueVal s h i f)
    (hfg : ∀ v l, f v l = g v l) (hw : ∀ v, (reqOf i v).writes = genTo [d] [a.toNat, c.toNat, b.toNat] := by intros; rfl)
    (hs : ∀ v l k, v.w.rd a.toNat l = v.w.rd a.toNat k → v.w.rd b.toNat l = v.w.rd b.toNat k → v.w.rd c.toNat l = v.w.rd c.toNat k → g v l = g v k := by
      intro v l k ha hb hc; simp only [ha, hb, hc]) :
    Computes i h (fun v => [(d, g v)]) :=
  issueVal_abc (b := .reg b) he hfg hw hs

/- Pairs. -/

theorem loWords_perLane (f : Nat → W64) : loWords (perLane f) = perLane (fun l => (f l).extractLsb' 0 32) := perLane_map f _
theorem hiWords_perLane (f : Nat → W64) : hiWords (perLane f) = perLane (fun l => (f l).extractLsb' 32 32) := perLane_map f _

theorem pair_nodup (n : Nat) : [n, n + 1].Nodup := by simp

/-- 64 bits for each lane, in a row that gives both registers one rule. -/
theorem issueVal64_computes {i : Instr} {h : Hdr} {d : W9} {rule : View → TagRule} {f g : View → Nat → W64}
    (he : ∀ s, exec i s = issueVal64 s h i f) (hw : ∀ v, (reqOf i v).writes = [(d.toNat, rule v), (d.toNat + 1, rule v)])
    (hfg : ∀ v l, f v l = g v l) (hf : ∀ v (p : W64 → W32), (rule v).fits v.w v.act (perLane (fun l => p (g v l)))) :
    Computes i h (fun v => pairOuts d (g v)) := by
  obtain rfl : f = g := funext fun v => funext fun l => hfg v l
  refine computes_outs (fun v => [fun l => (f v l).extractLsb' 0 32, fun l => (f v l).extractLsb' 32 32]) (fun _ => [d.toNat, d.toNat + 1])
    (fun s => ?_) (fun v => by rw [hw]; rfl) (fun _ => pair_nodup _) fun v x hx => .inr ?_
  · rw [he]
    simp only [issueVal64, loWords_perLane, hiWords_perLane, List.map_cons, List.map_nil]
  · rw [hw] at hx
    rcases List.mem_cons.mp hx with rfl | hx
    · exact hf v _
    · rw [List.mem_singleton.mp hx]
      exact hf v _

/-- The same in a row that takes U where all its sources do. -/
theorem issueVal64_gen {i : Instr} {h : Hdr} {d : W9} (srcs : List Nat) {f g : View → Nat → W64} (he : ∀ s, exec i s = issueVal64 s h i f)
    (hs : ∀ v l k, v.w.alike srcs l k → g v l = g v k) (hfg : ∀ v l, f v l = g v l := by intros; rfl)
    (hw : ∀ v, (reqOf i v).writes = genTo (pairOf d) srcs := by intros; rfl) : Computes i h (fun v => pairOuts d (g v)) :=
  issueVal64_computes (rule := fun _ => .gen srcs) he hw hfg fun v p => fits_alike fun l k hr => congrArg p (hs v l k hr)

/- Words with flags. -/

/-- A word and flags for each lane, in a row that takes U where all its sources do. -/
theorem issueFlt_gen {i : Instr} {h : Hdr} {d : Nat} (srcs : List Nat) {f : View → Nat → Nat × FFlags} {g : View → Nat → W32} {fl : View → Nat → FFlags}
    (he : ∀ s, exec i s = issueFlt s h i f) (hw : ∀ v, (reqOf i v).writes = genTo [d] srcs)
    (hfg : ∀ v l, BitVec.ofNat 32 (f v l).1 = g v l ∧ (f v l).2 = fl v l)
    (hs : ∀ v l k, v.w.alike srcs l k → g v l = g v k) : ComputesFlags i h (fun v => [(d, g v)]) fl := by
  have hg : ∀ v, (fun l => BitVec.ofNat 32 (f v l).1) = g v := fun v => funext fun l => (hfg v l).1
  have hfl : ∀ v, (fun l => (f v l).2) = fl v := fun v => funext fun l => (hfg v l).2
  refine computesFlags_outs (fun v => [g v]) fl (fun _ => [d]) (fun s => ?_) (fun v => by rw [hw]; rfl)
    (fun _ => List.nodup_singleton d) fun v x hx => .inr ?_
  · rw [he]
    simp only [issueFlt, perLane_map, List.map_cons, List.map_nil, hg, hfl]
  · rw [hw] at hx
    rw [List.mem_singleton.mp hx]
    exact fits_alike (hs v)

/-- Rows of one source register. -/
theorem issueFlt_a {i : Instr} {h : Hdr} {d : Nat} {a : W9} {f : View → Nat → Nat × FFlags} {g : View → Nat → W32} {fl : View → Nat → FFlags}
    (he : ∀ s, exec i s = issueFlt s h i f)
    (hfg : ∀ v l, BitVec.ofNat 32 (f v l).1 = g v l ∧ (f v l).2 = fl v l := by intros; exact ⟨rfl, rfl⟩)
    (hw : ∀ v, (reqOf i v).writes = genTo [d] [a.toNat] := by intros; rfl)
    (hs : ∀ v l k, v.w.rd a.toNat l = v.w.rd a.toNat k → g v l = g v k := by intro v l k ha; simp only [View.fa, ha]) :
    ComputesFlags i h (fun v => [(d, g v)]) fl :=
  issueFlt_gen _ he hw hfg fun v l k hr => hs v l k (alike_cons.mp hr).1

/-- Rows of a register and operand B. -/
theorem issueFlt_ab {i : Instr} {h : Hdr} {d : Nat} {a : W9} {b : SrcB} {f : View → Nat → Nat × FFlags} {g : View → Nat → W32}
    {fl : View → Nat → FFlags} (he : ∀ s, exec i s = issueFlt s h i f)
    (hfg : ∀ v l, BitVec.ofNat 32 (f v l).1 = g v l ∧ (f v l).2 = fl v l := by intros; exact ⟨rfl, rfl⟩)
    (hw : ∀ v, (reqOf i v).writes = genTo [d] (a.toNat :: srcRegs b) := by intros; rfl)
    (hs : ∀ v l k, v.w.rd a.toNat l = v.w.rd a.toNat k → v.w.srcB b l = v.w.srcB b k → g v l = g v k := by
      intro v l k ha hb; simp only [View.fa, View.fb, ha, hb]) :
    ComputesFlags i h (fun v => [(d, g v)]) fl :=
  issueFlt_gen _ he hw hfg fun v l k hr => hs v l k (alike_cons.mp hr).1 (alike_srcB (alike_cons.mp hr).2)

/-- Rows of two registers and operand B. -/
theorem issueFlt_abc {i : Instr} {h : Hdr} {d : Nat} {a c : W9} {b : SrcB} {f : View → Nat → Nat × FFlags} {g : View → Nat → W32}
    {fl : View → Nat → FFlags} (he : ∀ s, exec i s = issueFlt s h i f)
    (hfg : ∀ v l, BitVec.ofNat 32 (f v l).1 = g v l ∧ (f v l).2 = fl v l := by intros; exact ⟨rfl, rfl⟩)
    (hw : ∀ v, (reqOf i v).writes = genTo [d] (a.toNat :: c.toNat :: srcRegs b) := by intros; rfl)
    (hs : ∀ v l k, v.w.rd a.toNat l = v.w.rd a.toNat k → v.w.srcB b l = v.w.srcB b k → v.w.rd c.toNat l = v.w.rd c.toNat k → g v l = g v k := by
      intro v l k ha hb hc; simp only [View.fa, View.fb, View.fc, ha, hb, hc]) :
    ComputesFlags i h (fun v => [(d, g v)]) fl :=
  issueFlt_gen _ he hw hfg fun v l k hr => by
    obtain ⟨ha, hr⟩ := alike_cons.mp hr
    obtain ⟨hc, hr⟩ := alike_cons.mp hr
    exact hs v l k ha (alike_srcB hr) hc

/- Predicates (04 R80). -/

/-- The lanes of a mask m take new values, the others keep their old ones. -/
theorem has_merge (old m : Mask) (f : Nat → Bool) {l : Nat} (hl : l < 32) :
    has ((old &&& ~~~ m) ||| (m &&& maskOf f)) l = if has m l then f l else has old l := by
  have hor (a b : Mask) : has (a ||| b) l = (has a l || has b l) := by simp [has]
  rw [hor, has_and, has_and, has_not, has_maskOf]
  cases has m l <;> simp [hl]

/-- A lane of predicate p holds its new value where it is written, and keeps its old one elsewhere. -/
theorem putPred_has (v : View) (w : Warp) (p q : Nat) (f : Nat → Bool) (hr : w.replay = v.w.replay) {l : Nat} (hl : l < 32) :
    has (nth (v.putPred w p f).preds q 0) l
      = if p = q then (if has (v.lanesTo (512 + p)) l then f l else has (nth w.preds p 0) l) else has (nth w.preds q 0) l := by
  have hlw : w.laterWrites (512 + p) = v.w.laterWrites (512 + p) := by simp only [Warp.laterWrites, hr]
  simp only [View.putPred, nth_lput, View.lanesTo, hlw]
  by_cases h : q = p
  · subst h
    simp only [if_true]
    exact has_merge _ _ f hl
  · rw [if_neg h, if_neg (Ne.symm h)]

/-- One predicate is written. -/
theorem putPred_after (v : View) (p : Nat) (f : Nat → Bool) : PredsAfter v [(p, f)] (v.putPred v.w p f) := by
  intro q l hl
  rw [putPred_has v v.w p q f rfl hl, List.find?_cons]
  by_cases h : p = q
  · subst h
    simp
  · rw [if_neg h, show (p == q) = false by simpa using h]
    rfl

/-- Only the warp's own lanes of the new value count. -/
theorem PredsAfter.congr {v : View} {p : Nat} {f g : Nat → Bool} {w : Warp} (h : PredsAfter v [(p, f)] w) (hfg : ∀ l, l < 32 → f l = g l) :
    PredsAfter v [(p, g)] w := by
  intro q l hl
  have hq := h q l hl
  rw [List.find?_cons] at hq ⊢
  cases hpq : p == q <;> simp only [hpq] at hq ⊢ <;> simpa only [hfg l hl] using hq

/-- A predicate for each lane. -/
theorem issuePred_computes {i : Instr} {h : Hdr} {p : W4} {f g : View → Nat → Bool} (he : ∀ s, exec i s = issuePred s h i p f)
    (hfg : ∀ v l, f v l = g v l) : ComputesPreds i h (fun v => [(p.toNat, g v)]) := by
  obtain rfl : f = g := funext fun v => funext fun l => hfg v l
  intro s v hi
  obtain ⟨t, ht, hp⟩ := issue_modWarp hi (F := fun w => v.putPred w p.toNat (f v)) (eff := fun v s => .done (v.writePred s p (f v))) rfl rfl
  exact ⟨t, _, (he s).trans ht, hp, rfl, putPred_after v p.toNat (f v)⟩

end Sys2Proof.Machine
end

