-- ==== Sys2Proof/Proofs/Integers.lean ====
section
/-! PROOF, of O1, O2, O3 and O4. Integer arithmetic: what narrowing an exact result gives (06 R100), the rows of 04 R76 that
keep tag A, and the meanings of class INT (06 R100 to R103). -/

namespace Sys2Proof.Machine

/- Integers of a width, and narrowing. -/

theorem ofInt_ival {w : Nat} (u : Bool) (x : BitVec w) : BitVec.ofInt w (ival u x) = x := by
  cases u
  · exact BitVec.ofInt_toInt
  · show BitVec.ofInt w (x.toNat : Int) = x
    rw [BitVec.ofInt_natCast, BitVec.ofNat_toNat, BitVec.setWidth_eq]

theorem narrowInt_wrap (u : Bool) (w : Nat) (x : Int) : narrowInt false u w x = BitVec.ofInt w x := rfl

theorem intMin_le_intMax (u : Bool) (w : Nat) : intMin u w ≤ intMax u w := by
  have h1 : 1 ≤ 2 ^ w := Nat.one_le_two_pow
  have h2 : 1 ≤ 2 ^ (w - 1) := Nat.one_le_two_pow
  cases u
  · show -((2 ^ (w - 1) : Nat) : Int) ≤ ((2 ^ (w - 1) : Nat) : Int) - 1
    omega
  · show (0 : Int) ≤ ((2 ^ w : Nat) : Int) - 1
    omega

/-- An integer in the range of the type is the value of its word. -/
theorem ival_ofInt {u : Bool} {w : Nat} {x : Int} (hw : 0 < w) (h1 : intMin u w ≤ x) (h2 : x ≤ intMax u w) : ival u (BitVec.ofInt w x) = x := by
  have h2w : 2 * 2 ^ (w - 1) = 2 ^ w := by rw [← pow_succ', Nat.sub_add_cancel hw]
  cases u
  · have h1' : -((2 ^ (w - 1) : Nat) : Int) ≤ x := h1
    have h2' : x ≤ ((2 ^ (w - 1) : Nat) : Int) - 1 := h2
    show (BitVec.ofInt w x).toInt = x
    rw [BitVec.toInt_ofInt]
    exact Int.bmod_eq_of_le (by omega) (by omega)
  · have h1' : (0 : Int) ≤ x := h1
    have h2' : x ≤ ((2 ^ w : Nat) : Int) - 1 := h2
    show ((BitVec.ofInt w x).toNat : Int) = x
    rw [BitVec.toNat_ofInt, Int.emod_eq_of_lt h1' (by omega)]
    omega

theorem clampInt_eq {lo hi : Int} (h : lo ≤ hi) (x : Int) : clampInt lo hi x = max lo (min hi x) := by
  unfold clampInt
  split
  · omega
  · split <;> omega

/-- Without saturation the word is the integer modulo 2^w, and with it the nearest integer of the type (06 R100). -/
theorem narrowInt_spec (u : Bool) {w : Nat} (x : Int) (hw : 0 < w) :
    (((narrowInt false u w x).toNat : Nat) : Int) = x % 2 ^ w
      ∧ ival u (narrowInt true u w x) = clampInt (intMin u w) (intMax u w) x := by
  constructor
  · rw [narrowInt_wrap, BitVec.toNat_ofInt, Int.toNat_of_nonneg (Int.emod_nonneg _ (by positivity))]
    push_cast
    rfl
  · have h := intMin_le_intMax u w
    have hc := clampInt_eq h x
    exact ival_ofInt hw (hc ▸ le_max_left _ _) (hc ▸ max_le h (min_le_left _ _))

/- The rows of 04 R76 that keep an affine register affine. -/

theorem srcB_lane (w : Warp) (b : SrcB) (l : Nat) : w.srcB b l = (w.regB b).lane l := by cases b <;> rfl

/-- IADD, ISUB and LEA: the sum or difference of an affine column and an affine or uniform one is affine. -/
theorem addRule_fits {w : Warp} {act : Mask} {r : TagRule} {f : Nat → W32} (sub : Bool) (x y : Reg) (hr : r.fits w act (perLane f))
    (hf : ∀ l, f l = if sub then x.lane l - y.lane l else x.lane l + y.lane l) : (addRule sub x y r).fits w act (perLane f) := by
  unfold addRule
  cases x with
  | g xs => exact hr
  | u x =>
    cases y with
    | u y => exact hr
    | g ys => exact hr
    | a y t =>
      refine fits_affine fun l _ => ?_
      rw [hf l]
      cases sub <;> simp only [Reg.lane, Bool.false_eq_true, if_true, if_false] <;> ring
  | a x s =>
    cases y with
    | g ys => exact hr
    | u y =>
      refine fits_affine fun l _ => ?_
      rw [hf l]
      cases sub <;> simp only [Reg.lane, Bool.false_eq_true, if_true, if_false] <;> ring
    | a y t =>
      refine fits_affine fun l _ => ?_
      rw [hf l]
      cases sub <;> simp only [Reg.lane, Bool.false_eq_true, if_true, if_false] <;> ring

/-- IMUL: an affine column times a uniform one is affine. -/
theorem mulRule_fits {w : Warp} {act : Mask} {r : TagRule} {f : Nat → W32} (x y : Reg) (hr : r.fits w act (perLane f))
    (hf : ∀ l, f l = x.lane l * y.lane l) : (mulRule x y r).fits w act (perLane f) := by
  unfold mulRule
  split
  · refine fits_affine fun l _ => ?_
    rw [hf l]
    simp only [Reg.lane]
    ring
  · refine fits_affine fun l _ => ?_
    rw [hf l]
    simp only [Reg.lane]
    ring
  · exact hr

/-- A column of a register and operand B, in the row that takes U where both do. -/
theorem fits_ab {w : Warp} {a : W9} {b : SrcB} {act : Mask} {f : Nat → W32}
    (h : ∀ l k, w.rd a.toNat l = w.rd a.toNat k → w.srcB b l = w.srcB b k → f l = f k) :
    (TagRule.gen (a.toNat :: srcRegs b)).fits w act (perLane f) :=
  fits_alike fun l k hr => h l k (alike_cons.mp hr).1 (alike_srcB (alike_cons.mp hr).2)

theorem narrowInt_add (u : Bool) (x y : W32) : narrowInt false u 32 (ival u x + ival u y) = x + y := by
  rw [narrowInt_wrap, BitVec.ofInt_add, ofInt_ival, ofInt_ival]

theorem narrowInt_sub (u : Bool) (x y : W32) : narrowInt false u 32 (ival u x - ival u y) = x - y := by
  rw [narrowInt_wrap, Int.sub_eq_add_neg, BitVec.ofInt_add, BitVec.ofInt_neg, ofInt_ival, ofInt_ival, BitVec.sub_eq_add_neg]

theorem narrowInt_mul (u : Bool) (x y : W32) : narrowInt false u 32 (ival u x * ival u y) = x * y := by
  rw [narrowInt_wrap, BitVec.ofInt_mul, ofInt_ival, ofInt_ival]

/- 32-bit results (06 R100). -/

theorem iadd_computes (h : Hdr) (m : IntM) (d a : W9) (b : SrcB) :
    Computes (.iadd h m d a b) h (fun v => [(d.toNat, fun l => narrowInt m.sat m.u 32 (ival m.u (v.w.rd a.toNat l) + ival m.u (v.w.srcB b l)))]) := by
  refine issueVal_computes (fun _ => rfl) (fun _ => rfl) (fun _ _ => rfl) fun v => ?_
  cases hs : m.sat
  · exact .inr (addRule_fits false _ _ (fits_ab fun l k ha hb => by simp only [ha, hb]) fun l => by rw [narrowInt_add, srcB_lane]; rfl)
  · exact .inl hs

theorem isub_computes (h : Hdr) (m : IntM) (d a : W9) (b : SrcB) :
    Computes (.isub h m d a b) h (fun v => [(d.toNat, fun l => narrowInt m.sat m.u 32 (ival m.u (v.w.rd a.toNat l) - ival m.u (v.w.srcB b l)))]) := by
  refine issueVal_computes (fun _ => rfl) (fun _ => rfl) (fun _ _ => rfl) fun v => ?_
  cases hs : m.sat
  · exact .inr (addRule_fits true _ _ (fits_ab fun l k ha hb => by simp only [ha, hb]) fun l => by rw [narrowInt_sub, srcB_lane]; rfl)
  · exact .inl hs

theorem imul_computes (h : Hdr) (m : IntM) (d a : W9) (b : SrcB) :
    Computes (.imul h m d a b) h (fun v => [(d.toNat, fun l => narrowInt m.sat m.u 32 (ival m.u (v.w.rd a.toNat l) * ival m.u (v.w.srcB b l)))]) := by
  refine issueVal_computes (fun _ => rfl) (fun _ => rfl) (fun _ _ => rfl) fun v => ?_
  cases hs : m.sat
  · exact .inr (mulRule_fits _ _ (fits_ab fun l k ha hb => by simp only [ha, hb]) fun l => by rw [narrowInt_mul, srcB_lane]; rfl)
  · exact .inl hs

theorem ineg_computes (h : Hdr) (sat : Bool) (d a : W9) :
    Computes (.ineg h sat d a) h (fun v => [(d.toNat, fun l => narrowInt sat false 32 (-(v.w.rd a.toNat l).toInt))]) := by
  refine issueVal_computes (fun _ => rfl) (fun _ => rfl) (fun _ _ => rfl) fun v => ?_
  cases hs : sat
  · refine .inr ?_
    have hgen : (TagRule.gen [a.toNat]).fits v.w v.act (perLane fun l => narrowInt false false 32 (-(v.w.rd a.toNat l).toInt)) :=
      fits_alike fun l k hr => by rw [(alike_cons.mp hr).1]
    cases hx : v.w.reg a.toNat with
    | u x => exact hgen
    | g xs => exact hgen
    | a x y =>
      refine fits_affine fun l _ => ?_
      rw [narrowInt_wrap, BitVec.ofInt_neg, BitVec.ofInt_toInt, Warp.rd, hx, Reg.lane]
      ring
  · exact .inl rfl

/-- The smaller of two words by their values. -/
theorem ofInt_min (u : Bool) (x y : W32) : BitVec.ofInt 32 (min (ival u x) (ival u y)) = if ival u x ≤ ival u y then x else y := by
  rw [min_def]
  split <;> exact ofInt_ival u _

theorem ofInt_max (u : Bool) (x y : W32) : BitVec.ofInt 32 (max (ival u x) (ival u y)) = if ival u x ≤ ival u y then y else x := by
  rw [max_def]
  split <;> exact ofInt_ival u _

/-- Settles O1: each row's value and its frame, and the two ways of narrowing. -/
theorem integerWordArithmetic : Obligations.IntegerWordArithmetic := by
  unfold Obligations.IntegerWordArithmetic
  refine ⟨fun h m u sat d a c b => ⟨iadd_computes h m d a b, isub_computes h m d a b, ineg_computes h sat d a, ?_, imul_computes h m d a b, ?_⟩,
    fun u w x hw => ?_⟩
  · exact issueVal_a (fun _ => rfl) fun _ _ => by rw [Int.natCast_natAbs]; rfl
  · exact ⟨issueVal_ab (fun _ => rfl) fun _ _ => rfl, issueVal_abc (fun _ => rfl) fun _ _ => rfl,
      issueVal_ab (fun _ => rfl) fun _ _ => ofInt_min u _ _, issueVal_ab (fun _ => rfl) fun _ _ => ofInt_max u _ _,
      issueVal_abc (fun _ => rfl) fun _ _ => by rw [Int.natCast_natAbs]⟩
  · obtain ⟨hwrap, hsat⟩ := narrowInt_spec u x hw
    have hle := intMin_le_intMax u w
    rw [hsat, clampInt_eq hle]
    exact ⟨hwrap, fun _ _ => by omega, fun _ => by omega, fun _ => by omega⟩

/- 64-bit results (06 R100). -/

/-- Settles O2: the pairs hold the narrowed exact result. -/
theorem integerPairArithmetic : Obligations.IntegerPairArithmetic := by
  unfold Obligations.IntegerPairArithmetic
  intro h m d a b' c b
  refine ⟨issueVal64_gen _ (fun _ => rfl) fun v l k hr => ?_, issueVal64_gen _ (fun _ => rfl) fun v l k hr => ?_,
    issueVal64_gen _ (fun _ => rfl) fun v l k hr => ?_, issueVal64_gen _ (fun _ => rfl) fun v l k hr => ?_⟩
  · obtain ⟨ha, hr⟩ := alike_cons.mp hr
    obtain ⟨hb, hc⟩ := alike_append.mp hr
    simp only [ha, alike_srcB hb, alike_rd64 hc]
  · obtain ⟨ha, hb⟩ := alike_append.mp hr
    simp only [alike_rd64 ha, alike_srcB64 hb]
  · obtain ⟨ha, hb⟩ := alike_append.mp hr
    simp only [alike_rd64 ha, alike_srcB64 hb]
  · obtain ⟨ha, hb⟩ := alike_append.mp hr
    simp only [alike_rd64 ha, alike_rd64 hb]

/- IADDC (06 R101). -/

/-- The carry predicate is alike in the active lanes where the group has one value of it. -/
theorem uniform_pred {s : State} {h : Hdr} {v : View} (hv : s.view h = some v) {p : W4} (hu : v.uniform p = true) {l k : Nat}
    (hl : has v.act l = true) (hk : has v.act k = true) : v.w.pred p l = v.w.pred p k := by
  have hp (j : Nat) (hj : has v.act j = true) : v.w.pred p j = has (v.grp &&& v.w.predMask p) j := by
    have h32 := has_lt hj
    rw [has_and, view_act_sub hv hj, Bool.true_and]
    unfold Warp.pred Warp.predMask
    split
    · rw [has, BitVec.getLsbD_allOnes]
      simpa using h32
    · rfl
  unfold View.uniform at hu
  rw [Bool.or_eq_true, beq_iff_eq, beq_iff_eq] at hu
  rw [hp l hl, hp k hk]
  rcases hu with h0 | h1
  · rw [h0]
    exact (has_zero l).trans (has_zero k).symm
  · rw [h1, view_act_sub hv hl, view_act_sub hv hk]

/-- The exact sum that IADDC writes and judges. -/
def View.carrySum (v : View) (u : Bool) (a : W9) (b : SrcB) (p : W4) (l : Nat) : Int :=
  ival u (v.w.rd a.toNat l) + ival u (v.w.srcB b l) + (if v.w.pred p l then 1 else 0)

theorem ofInt_carrySum (v : View) (u : Bool) (a : W9) (b : SrcB) (p : W4) (l : Nat) :
    BitVec.ofInt 32 (v.carrySum u a b p l) = v.w.rd a.toNat l + v.w.srcB b l + (if v.w.pred p l then 1 else 0) := by
  unfold View.carrySum
  rw [BitVec.ofInt_add, BitVec.ofInt_add, ofInt_ival, ofInt_ival]
  split <;> rfl

/-- The tag rule of IADDC suits its sums. -/
theorem iaddc_fits {s : State} {h : Hdr} {v : View} (hv : s.view h = some v) (u : Bool) (a : W9) (b : SrcB) (p : W4) :
    (if v.uniform p then TagRule.gen (a.toNat :: srcRegs b) else .g).fits v.w v.act (perLane fun l => BitVec.ofInt 32 (v.carrySum u a b p l)) := by
  split
  · next hu =>
    intro hall l k hl hk
    obtain ⟨ha, hb⟩ := alike_cons.mp (alike_of_allU hall l k)
    rw [nth_perLane _ _ (has_lt hl), nth_perLane _ _ (has_lt hk)]
    simp only [View.carrySum, ha, alike_srcB hb, uniform_pred hv hu hl hk]
  · trivial

/-- What IADDC writes to its register. -/
def View.carryPut (v : View) (u : Bool) (d a : W9) (b : SrcB) (p : W4) (w : Warp) : Warp :=
  v.putAll false w [((d.toNat, if v.uniform p then TagRule.gen (a.toNat :: srcRegs b) else .g), perLane fun l => BitVec.ofInt 32 (v.carrySum u a b p l))]

/-- What it writes to its predicate. -/
def View.carryBit (v : View) (u : Bool) (a : W9) (b : SrcB) (p : W4) (l : Nat) : Bool := carryOut u (nth (perLane (v.carrySum u a b p)) l 0)

theorem carryBit_eq (v : View) (u : Bool) (a : W9) (b : SrcB) (p : W4) {l : Nat} (hl : l < 32) :
    v.carryBit u a b p l = carryOut u (v.carrySum u a b p l) := by
  rw [View.carryBit, nth_perLane _ _ hl]

/-- Settles O3: the sum is written, and the predicate is read before the carry or the overflow is written to it. -/
theorem addWithCarry : Obligations.AddWithCarry := by
  unfold Obligations.AddWithCarry
  intro h u d a b p s v hi
  obtain ⟨rs, os, hk⟩ : ∃ rs os, v.carryPut u d a b p v.w = { v.w with regs := rs, ops := os } := putAll_keeps v false _ v.w
  have hF : v.putPred (v.carryPut u d a b p v.w) p.toNat (v.carryBit u a b p)
      = { v.putPred v.w p.toNat (v.carryBit u a b p) with regs := rs, ops := os } := by rw [hk]; rfl
  have hregs : RegsAfter v [(d.toNat, fun l => BitVec.ofInt 32 (v.carrySum u a b p l))] (v.carryPut u d a b p v.w) :=
    outs_regs (r := reqOf (.iaddc h u d a b p) v) (fs := [fun l => BitVec.ofInt 32 (v.carrySum u a b p l)])
      (fun x hx => .inr (by rw [List.mem_singleton.mp hx]; exact iaddc_fits hi.view u a b p)) (List.nodup_singleton _)
  obtain ⟨t, ht, hp⟩ := issue_modWarp hi (F := fun w => v.putPred (v.carryPut u d a b p w) p.toNat (v.carryBit u a b p))
    (eff := fun v s => .done (v.writePred (v.outs s (reqOf (.iaddc h u d a b p) v) [(perLane (v.carrySum u a b p)).map (BitVec.ofInt 32)]) p
      (v.carryBit u a b p)))
    (by rw [perLane_map, outs_eq]; exact congrArg Eff.done (modWarp_modWarp ..)) (by rw [hF]; rfl)
  rw [hF] at hp
  refine ⟨t, { v.putPred v.w p.toNat (v.carryBit u a b p) with regs := rs }, ht, hp.ops v.w.ops, rfl, ?_,
    (putPred_after v p.toNat (v.carryBit u a b p)).congr fun l hl => carryBit_eq v u a b p hl⟩
  simp only [← ofInt_carrySum (u := u)]
  rw [hk] at hregs
  exact hregs

/- IDOT and LEA (06 R102, R103). -/

theorem shiftLeft_eq_mul {w : Nat} (x : BitVec w) (n : Nat) : x <<< n = x * BitVec.ofNat w (2 ^ n) := by
  apply BitVec.eq_of_toNat_eq
  simp only [BitVec.toNat_shiftLeft, BitVec.toNat_mul, BitVec.toNat_ofNat, Nat.shiftLeft_eq, Nat.mul_mod_mod]

/-- A register shifted left by less than its width: each lane is. -/
theorem shifted_lane (r : Reg) {n : Nat} (hn : n < 32) (l : Nat) : (r.shifted n).lane l = r.lane l <<< n := by
  have hw (x : W32) : shlWord x n = x <<< n := if_neg (by omega)
  cases r with
  | u x => exact hw x
  | a x y =>
    simp only [Reg.shifted, Reg.lane, hw, shiftLeft_eq_mul]
    ring
  | g xs =>
    simp only [Reg.shifted, Reg.lane, hw, nth, List.getElem?_map]
    cases xs[l]? <;> simp

/-- The tag rule of LEA suits its addresses. -/
theorem lea_fits (w : Warp) (act : Mask) (a : W9) (b : SrcB) (sh : W2) :
    (addRule false (w.reg a.toNat) ((w.regB b).shifted sh.toNat) (.gen (a.toNat :: srcRegs b))).fits w act
      (perLane fun l => w.rd a.toNat l + w.srcB b l * BitVec.ofNat 32 (2 ^ sh.toNat)) := by
  have hsh : sh.toNat < 32 := by omega
  refine addRule_fits false _ _ (fits_ab fun l k ha hb => by simp only [ha, hb]) fun l => ?_
  rw [shifted_lane _ hsh, shiftLeft_eq_mul, srcB_lane]
  rfl

/-- Settles O4: the sums of products, and the addresses. -/
theorem dotProductsAndAddresses : Obligations.DotProductsAndAddresses := by
  unfold Obligations.DotProductsAndAddresses
  refine ⟨fun h m bn d a b c => ⟨issueVal_rrr (fun _ => rfl) fun _ _ => rfl, issueVal_rrr (fun _ => rfl) fun _ _ => rfl⟩,
    fun h u sh d a b => ⟨?_, ?_⟩⟩
  · exact issueVal_computes (fun _ => rfl) (fun _ => rfl) (fun v l => by rw [shiftLeft_eq_mul]) fun v => .inr (lea_fits v.w v.act a b sh)
  · refine issueVal64_gen _ (fun _ => rfl) (fun v l k hr => ?_) fun v l => congrArg (v.w.rd64 a.toNat l + ·) (shiftLeft_eq_mul _ _)
    obtain ⟨ha, hb⟩ := alike_append.mp hr
    simp only [alike_rd64 ha, alike_srcB hb]

end Sys2Proof.Machine
end

