-- ==== Sys2Proof/Proofs/BitFacts.lean ====
section
/-! PROOF, of O5, O6 and O7. The meanings of class BITS, bit by bit (06 R104 to R109). -/

namespace Sys2Proof.Machine

/- Words by their bits. -/

/-- A word is the mask of its bits. -/
theorem eq_maskOf {x : W32} {f : Nat → Bool} (h : ∀ j, j < 32 → x.getLsbD j = f j) : x = maskOf f :=
  mask_ext fun j hj => by rw [has_maskOf, has, h j hj]; simp [hj]

theorem field_eq (v l n : Nat) : field v l n = v / 2 ^ l % 2 ^ n := by rw [field, Nat.shiftRight_eq_div_pow]

/- Shifts (06 R104). -/

theorem shlWord_bits (x : W32) (n : Nat) : shlWord x n = maskOf (fun j => n ≤ j && x.getLsbD (j - n)) := by
  refine eq_maskOf fun j hj => ?_
  unfold shlWord
  split
  · next h => simp [show ¬ n ≤ j by omega]
  · rw [BitVec.getLsbD_shiftLeft, decide_eq_true hj, Bool.true_and, ← decide_not]
    simp only [Nat.not_lt]

theorem shr_bits (x : W32) (n : Nat) : (if n < 32 then x >>> n else 0) = maskOf (fun j => x.getLsbD (j + n)) := by
  refine eq_maskOf fun j hj => ?_
  split
  · rw [BitVec.getLsbD_ushiftRight, Nat.add_comm]
  · rw [BitVec.getLsbD_of_ge x _ (by omega)]
    exact BitVec.getLsbD_zero

theorem sar_bits (x : W32) (n : Nat) :
    x.sshiftRight (min n 32) = maskOf (fun j => if j + n < 32 then x.getLsbD (j + n) else x.getLsbD 31) := by
  refine eq_maskOf fun j hj => ?_
  rw [BitVec.getLsbD_sshiftRight, BitVec.msb_eq_getLsbD_last]
  by_cases h : j + n < 32
  · rw [if_pos h, if_pos (by omega), Nat.min_eq_left (by omega), Nat.add_comm]
    simp [hj]
  · rw [if_neg h, if_neg (by omega)]
    simp [hj]

theorem rotl_bits (x : W32) (n : Nat) : x.rotateLeft (n % 32) = maskOf (fun j => x.getLsbD ((j + 32 - n % 32) % 32)) := by
  refine eq_maskOf fun j hj => ?_
  have hlt : n % 32 < 32 := Nat.mod_lt n (by decide)
  rw [BitVec.getLsbD_rotateLeft, Nat.mod_mod]
  generalize n % 32 = r at hlt ⊢
  by_cases h : j < r
  · rw [decide_eq_true h, cond_true, show (j + 32 - r) % 32 = 32 - r + j by omega]
  · rw [decide_eq_false h, cond_false, show (j + 32 - r) % 32 = j - r by omega, decide_eq_true hj, Bool.true_and]

theorem shlWord_affine (x y z : W32) (n : Nat) : shlWord (x + z * y) n = shlWord x n + z * shlWord y n := by
  unfold shlWord
  split
  · ring
  · simp only [shiftLeft_eq_mul]
    ring

/-- The tag rule of SHL: an affine register shifted by a uniform count stays affine (04 R76). -/
theorem shl_fits {w : Warp} {act : Mask} {a : W9} {b : SrcB} {f : Nat → W32} (hf : ∀ l, f l = shlWord (w.rd a.toNat l) (w.srcB b l).toNat) :
    (match w.reg a.toNat, w.regB b with
      | .a x y, .u n => TagRule.affine (shlWord x n.toNat) (shlWord y n.toNat)
      | _, _ => .gen (a.toNat :: srcRegs b)).fits w act (perLane f) := by
  have hgen : (TagRule.gen (a.toNat :: srcRegs b)).fits w act (perLane f) := fits_ab fun l k ha hb => by rw [hf, hf, ha, hb]
  cases hx : w.reg a.toNat with
  | u x => exact hgen
  | g xs => exact hgen
  | a x y =>
    cases hy : w.regB b with
    | a y s => exact hgen
    | g ys => exact hgen
    | u n =>
      refine fits_affine fun l _ => ?_
      rw [hf, srcB_lane, Warp.rd, hx, hy]
      exact shlWord_affine x y _ n.toNat

/-- Settles O5: where each shift moves each bit. -/
theorem shiftsAndRotates : Obligations.ShiftsAndRotates := by
  unfold Obligations.ShiftsAndRotates
  intro h d a c b
  refine ⟨?_, ?_, ?_, ?_, ?_, ?_⟩
  · exact issueVal_computes (fun _ => rfl) (fun _ => rfl) (fun v l => shlWord_bits _ _) fun v => .inr (shl_fits fun l => (shlWord_bits _ _).symm)
  · exact issueVal_ab (fun _ => rfl) fun v l => shr_bits _ _
  · exact issueVal_ab (fun _ => rfl) fun v l => sar_bits _ _
  · exact issueVal_ab (fun _ => rfl) fun v l => rotl_bits _ _
  · exact issueVal_abc (fun _ => rfl) fun v l => rfl
  · exact issueVal_abc (fun _ => rfl) fun v l => rfl

/- Counts (06 R105). -/

/-- The number of leading zero bits is the place of the first set bit from above. -/
theorem clz_find (x : W32) : 32 - bitLen x.toNat = ((List.range 32).find? (fun j => x.getLsbD (31 - j))).getD 32 := by
  by_cases hx : x.toNat = 0
  · obtain rfl : x = 0 := BitVec.eq_of_toNat_eq hx
    rfl
  · obtain ⟨k, hk, h1, h2⟩ := bitLen_bounds hx
    have hk32 : k < 32 := (Nat.pow_lt_pow_iff_right (by decide : 1 < 2)).mp (h1.trans_lt x.isLt)
    have hfind : (List.range 32).find? (fun j => x.getLsbD (31 - j)) = some (31 - k) := by
      refine List.find?_range_eq_some.mpr ⟨?_, List.mem_range.mpr (by omega), fun j hj => ?_⟩
      · rw [show 31 - (31 - k) = k by omega, ← BitVec.testBit_toNat, Nat.testBit_eq_decide_div_mod_eq, decide_eq_true_eq]
        have : x.toNat / 2 ^ k = 1 := (Nat.div_eq_iff (by positivity)).mpr (by rw [pow_succ] at h2; omega)
        rw [this]
      · have hlt : x.toNat < 2 ^ (31 - j) := h2.trans_le (Nat.pow_le_pow_right (by decide) (by omega))
        rw [← BitVec.testBit_toNat, Nat.testBit_lt_two_pow hlt]
        rfl
    rw [hfind, hk, Option.getD_some]
    omega

/-- Settles O6: the counts, and the reversal. -/
theorem bitCounts : Obligations.BitCounts := by
  unfold Obligations.BitCounts
  intro h d a
  refine ⟨?_, ?_, ?_, ?_⟩
  · exact issueVal_a (fun _ => rfl) fun v l => by rw [List.countP_eq_length_filter]; rfl
  · exact issueVal_a (fun _ => rfl) fun v l => by rw [clz_find]
  · exact issueVal_a (fun _ => rfl) fun v l => by rw [← List.head?_filter]; rfl
  · exact issueVal_a (fun _ => rfl) fun v l => rfl

/- Fields, bytes and gates (06 R106 to R108). -/

theorem bfeOf_bits (u : Bool) (a b : W32) :
    let pos := b.toNat % 256
    let len := min (b.toNat / 256 % 256) 32
    let f (i : Nat) : Bool := if pos + i < 32 then a.getLsbD (pos + i) else !u && a.getLsbD 31
    bfeOf u a b = maskOf (fun j => if j < len then f j else !u && len != 0 && f (len - 1)) := by
  intro pos len f
  have hpos : field b.toNat 0 8 = pos := by rw [field_eq, pow_zero, Nat.div_one]; rfl
  have hlen : min (field b.toNat 8 8) 32 = len := by rw [field_eq]; rfl
  unfold bfeOf
  rw [hpos, hlen]
  simp only
  split
  · next h0 => exact eq_maskOf fun j hj => by simp [h0]
  · next h0 =>
    have h0' : (len != 0) = true := by simpa using h0
    simp only [h0', Bool.and_true]
    rfl

theorem bfiOf_bits (a b c : W32) :
    let pos := b.toNat % 256
    let len := min (b.toNat / 256 % 256) 32
    bfiOf a b c = maskOf (fun j => if pos ≤ j && j < pos + len then a.getLsbD (j - pos) else c.getLsbD j) := by
  intro pos len
  have hpos : field b.toNat 0 8 = pos := by rw [field_eq, pow_zero, Nat.div_one]; rfl
  have hlen : min (field b.toNat 8 8) 32 = len := by rw [field_eq]; rfl
  unfold bfiOf
  rw [hpos, hlen]
  rfl

/-- The byte that a nibble of PRMT selects. -/
def prmtByte (x : W64) (nib : Nat) : Nat :=
  let y := x.toNat / 2 ^ (8 * (nib % 8)) % 256
  if nib < 8 then y else if y < 128 then 0 else 255

theorem prmtByte_eq (x : W64) (nib : Nat) :
    (if nib ≥ 8 then (if field x.toNat (8 * (nib % 8)) 8 ≥ 128 then 255 else 0) else field x.toNat (8 * (nib % 8)) 8) = prmtByte x nib := by
  have hy : field x.toNat (8 * (nib % 8)) 8 = x.toNat / 2 ^ (8 * (nib % 8)) % 256 := field_eq _ _ _
  rw [hy]
  unfold prmtByte
  simp only
  generalize x.toNat / 2 ^ (8 * (nib % 8)) % 256 = y
  by_cases h : nib < 8
  · rw [if_pos h, if_neg (Nat.not_le.mpr h)]
  · rw [if_neg h, if_pos (Nat.le_of_not_lt h), ← ite_not]
    simp only [Nat.not_le]

theorem sum_range_four (g : Nat → Nat) : ((List.range 4).map g).sum = g 0 + g 1 + g 2 + g 3 := by
  have hr : List.range 4 = [0, 1, 2, 3] := rfl
  simp only [hr, List.map_cons, List.map_nil, List.sum_cons, List.sum_nil, add_assoc, add_zero]

/-- Four bytes in their places. -/
theorem four_bytes (f : Nat → Nat) : f 0 + f 1 * 2 ^ 8 + f 2 * 2 ^ 16 + f 3 * 2 ^ 24 = ((List.range 4).map (fun i => f i * 256 ^ i)).sum := by
  rw [sum_range_four, pow_zero, mul_one, show 256 ^ 1 = 2 ^ 8 by norm_num, show 256 ^ 2 = 2 ^ 16 by norm_num, show 256 ^ 3 = 2 ^ 24 by norm_num]

theorem prmtOf_bytes (a b c : W32) :
    prmtOf a b c = BitVec.ofNat 32 (((List.range 4).map (fun i => prmtByte (b ++ a) (c.toNat / 16 ^ i % 16) * 256 ^ i)).sum) := by
  have hnib (i : Nat) : field c.toNat (4 * i) 4 = c.toNat / 16 ^ i % 16 := by
    rw [field_eq, pow_mul, show 2 ^ 4 = 16 by norm_num]
  unfold prmtOf
  simp only [prmtByte_eq, hnib]
  exact congrArg _ (four_bytes fun i => prmtByte (b ++ a) (c.toNat / 16 ^ i % 16))

theorem gate_eq (tab : W8) (x y z : Bool) : gate tab x y z = tab.getLsbD (z.toNat * 4 + y.toNat * 2 + x.toNat) := by
  cases x <;> cases y <;> cases z <;> rfl

/- Carry-less products (06 R109). -/

/-- A bit of a sum over GF(2): the parity of the terms that have it. -/
theorem getLsbD_foldl_xor (b : W32) (a : W64) (k : Nat) (hk : k < 64) (l : List Nat) (p : W64) :
    (l.foldl (fun p i => if b.getLsbD i then p ^^^ (a <<< i) else p) p).getLsbD k
      = (p.getLsbD k ^^ decide (l.countP (fun i => decide (i ≤ k) && b.getLsbD i && a.getLsbD (k - i)) % 2 = 1)) := by
  induction l generalizing p with
  | nil => simp
  | cons i l ih =>
    rw [List.foldl_cons, ih, List.countP_cons]
    generalize List.countP _ l = n
    have hflip : decide ((n + 1) % 2 = 1) = !decide (n % 2 = 1) := by
      rcases Nat.mod_two_eq_zero_or_one n with h | h <;> simp [h, Nat.add_mod]
    have hbit : (a <<< i).getLsbD k = (decide (i ≤ k) && a.getLsbD (k - i)) := by
      rw [BitVec.getLsbD_shiftLeft]
      by_cases h : k < i <;> simp [hk, h, Nat.not_le.mpr, Nat.not_lt.mp]
    cases hb : b.getLsbD i with
    | false => simp
    | true =>
      rw [if_pos rfl, BitVec.getLsbD_xor, hbit, Bool.and_true]
      cases decide (i ≤ k) && a.getLsbD (k - i) with
      | false => simp
      | true => simp only [if_true, hflip]; cases p.getLsbD k <;> simp

/-- Bit k of the product of A and B over GF(2). -/
def clmulBit (a b : W32) (k : Nat) : Bool :=
  ((List.range 32).countP (fun i => decide (i ≤ k) && b.getLsbD i && a.getLsbD (k - i))) % 2 == 1

theorem clmulOf_bit (a b : W32) {k : Nat} (hk : k < 64) : (clmulOf a b).getLsbD k = clmulBit a b k := by
  have ha (j : Nat) : (a.setWidth 64).getLsbD j = a.getLsbD j := by
    rw [BitVec.getLsbD_setWidth]
    by_cases hj : j < 64
    · simp [hj]
    · rw [BitVec.getLsbD_of_ge a j (by omega), Bool.and_false]
  unfold clmulOf clmulBit
  rw [getLsbD_foldl_xor b _ k hk]
  have h0 : (0 : W64).getLsbD k = false := BitVec.getLsbD_zero
  simp only [ha, h0, Bool.false_xor]
  rfl

theorem clmul_lo (a b : W32) : (clmulOf a b).extractLsb' 0 32 = maskOf (fun j => clmulBit a b j) :=
  eq_maskOf fun j hj => by rw [BitVec.getLsbD_extractLsb', Nat.zero_add, clmulOf_bit a b (by omega)]; simp [hj]

theorem clmul_hi (a b : W32) : (clmulOf a b).extractLsb' 32 32 = maskOf (fun j => clmulBit a b (32 + j)) :=
  eq_maskOf fun j hj => by rw [BitVec.getLsbD_extractLsb', clmulOf_bit a b (by omega)]; simp [hj]

theorem clmulw_computes (h : Hdr) (d a b : W9) :
    Computes (.clmulw h d a b) h (fun v => [(d.toNat, fun l => maskOf (fun j => clmulBit (v.w.rd a.toNat l) (v.w.rd b.toNat l) j)),
      (d.toNat + 1, fun l => maskOf (fun j => clmulBit (v.w.rd a.toNat l) (v.w.rd b.toNat l) (32 + j)))]) := by
  have hp : Computes (.clmulw h d a b) h (fun v => pairOuts d (fun l => clmulOf (v.w.rd a.toNat l) (v.w.rd b.toNat l))) :=
    issueVal64_gen [a.toNat, b.toNat] (fun _ => rfl) fun v l k hr => by
      obtain ⟨ha, hr⟩ := alike_cons.mp hr
      obtain ⟨hb, -⟩ := alike_cons.mp hr
      rw [ha, hb]
  simpa only [pairOuts, clmul_lo, clmul_hi] using hp

/-- Settles O7: fields, bytes, gates and products, by the bits of their words. -/
theorem bitFieldsGatesAndCarryless : Obligations.BitFieldsGatesAndCarryless := by
  unfold Obligations.BitFieldsGatesAndCarryless
  refine ⟨fun h u d a b' c b tab => ⟨?_, ?_, ?_, ?_⟩, fun h d a b => ⟨?_, ?_, ?_⟩⟩
  · exact issueVal_ab (fun _ => rfl) fun v l => bfeOf_bits u _ _
  · exact issueVal_abc (fun _ => rfl) fun v l => bfiOf_bits _ _ _
  · exact issueVal_abc (fun _ => rfl) fun v l => prmtOf_bytes _ _ _
  · exact issueVal_rrr (fun _ => rfl) fun v l => congrArg maskOf (funext fun j => gate_eq tab _ _ _)
  · exact issueVal_rr (fun _ => rfl) fun v l => clmul_lo _ _
  · exact issueVal_rr (fun _ => rfl) fun v l => clmul_hi _ _
  · exact clmulw_computes h d a b

end Sys2Proof.Machine
end

