-- ==== Sys2Proof/Proofs/Comparing.lean ====
section
/-! PROOF, of O8 and O9. Class CMP: comparisons, predicates and moves (06 R110 to R114), the shape tags of whole writes
(04 R76), and the tags above a ceiling (04 R77). -/

namespace Sys2Proof.Machine

/- Float comparisons (06 R111). -/

/-- A comparison of each lane is written to its predicate, and its flags arise. -/
theorem issueCmp_computes {i : Instr} {h : Hdr} {p : W4} {r : View → Nat → Bool × FFlags} (he : ∀ s, exec i s = issueCmp s h i p r)
    {s : State} {v : View} (hi : Issues s h i v) :
    ∃ t w, exec i s = .next t ∧ Passes s v w (fun _ => v.next) t ∧ w = { v.flagged (fun l => (r v l).2) v.w with preds := w.preds }
      ∧ PredsAfter v [(p.toNat, fun l => (r v l).1)] w := by
  set f : Nat → Bool := fun l => (nth (perLane (r v)) l (false, 0)).1
  have hF : (v.putPred v.w p.toNat f).raiseFlags (v.g.rec_.flag 3) (v.raised (fun l => (r v l).2))
      = { v.flagged (fun l => (r v l).2) v.w with preds := (v.putPred v.w p.toNat f).preds } := raiseFlags_preds v.w _ _ _
  obtain ⟨t, ht, hp⟩ := issue_modWarp hi
    (F := fun w => (v.putPred w p.toNat f).raiseFlags (v.g.rec_.flag 3) (v.raised (fun l => (r v l).2)))
    (eff := fun v s => .done (v.flags (v.writePred s p (fun l => (nth (perLane (r v)) l (false, 0)).1)) ((perLane (r v)).map Prod.snd)))
    (by rw [perLane_map, flags_eq, View.writePred, modWarp_modWarp]) (raiseFlags_lanes _ _ _)
  rw [hF] at hp
  exact ⟨t, _, (he s).trans ht, hp, rfl, (putPred_after v p.toNat f).congr fun l hl => congrArg Prod.fst (nth_perLane (r v) _ hl)⟩

/-- With a NaN operand the result is UN. -/
theorem fcmp_nan (c : FCnd) {a b : FVal} (h : a.isNan = true ∨ b.isNan = true) :
    (fcmp c a b).1 = c.un
      ∧ (fcmp c a b).2 = if a.isSig || b.isSig || (!c.un && (c.c == .lt || c.c == .le || c.c == .gt || c.c == .ge)) then fNV else 0 := by
  obtain ⟨un, c⟩ := c
  have hun : (a.isNan || b.isNan) = true := by simpa using h
  unfold fcmp flagIf
  simp only [hun]
  cases c <;> cases un <;> simp

theorem sig_of_not_nan {a : FVal} (h : a.isNan = false) : a.isSig = false := by
  cases a with
  | nan s => simp [FVal.isNan] at h
  | inf s => rfl
  | fin s m e => rfl

/-- Without one it is the order of the values. -/
theorem fcmp_num (c : FCnd) {a b : FVal} (ha : a.isNan = false) (hb : b.isNan = false) :
    (fcmp c a b).2 = 0 ∧ (fcmp c a b).1 = match c.c with
      | .eq => decide (cmpVal a b = 0)
      | .ne => decide (cmpVal a b ≠ 0)
      | .lt => decide (cmpVal a b < 0)
      | .le => decide (cmpVal a b ≤ 0)
      | .gt => decide (0 < cmpVal a b)
      | .ge => decide (0 ≤ cmpVal a b)
      | .num => !c.un := by
  obtain ⟨un, c⟩ := c
  unfold fcmp flagIf
  simp only [ha, hb, sig_of_not_nan ha, sig_of_not_nan hb, Bool.or_self, Bool.not_false]
  cases c <;> cases un <;> exact ⟨rfl, rfl⟩

/-- Settles O9: the two instructions, and when a comparison of values is true. -/
theorem floatCompare : Obligations.FloatCompare := by
  unfold Obligations.FloatCompare
  refine ⟨fun h c p a b x => ⟨fun s v hi => ?_, fun s v hi => ?_⟩, fun c a b => ⟨fcmp_nan c, fcmp_num c⟩⟩
  · exact issueCmp_computes (r := fun v l => fcmp c (f32.unpack (f32.src (modA x) (v.w.rd a.toNat l).toNat))
      (f32.unpack (f32.src (modB x) (v.w.rd b.toNat l).toNat))) (fun _ => rfl) hi
  · exact issueCmp_computes (r := fun v l => fcmp c (f64.unpack (f64.src (modA x) (v.w.rd64 a.toNat l).toNat))
      (f64.unpack (f64.src (modB x) (v.w.rd64 b.toNat l).toNat))) (fun _ => rfl) hi

/- Predicates of a register (06 R113). -/

/-- Predicates p of a list take the values f p. -/
def View.putPreds (v : View) (f : Nat → Nat → Bool) (ps : List Nat) (w : Warp) : Warp := ps.foldl (fun w i => v.putPred w i (f i)) w

theorem putPreds_keeps (v : View) (f : Nat → Nat → Bool) (ps : List Nat) (w : Warp) : ∃ qs, v.putPreds f ps w = { w with preds := qs } := by
  induction ps generalizing w with
  | nil => exact ⟨_, rfl⟩
  | cons p ps ih =>
    obtain ⟨q1, h1⟩ : ∃ q1, v.putPred w p (f p) = { w with preds := q1 } := ⟨_, rfl⟩
    obtain ⟨qs, h⟩ := ih (v.putPred w p (f p))
    exact ⟨qs, (show v.putPreds f (p :: ps) w = _ from h).trans (by rw [h1])⟩

theorem putPreds_has (v : View) (f : Nat → Nat → Bool) {ps : List Nat} (hn : ps.Nodup) {w : Warp} (hr : w.replay = v.w.replay) (q : Nat) {l : Nat} (hl : l < 32) :
    has (nth (v.putPreds f ps w).preds q 0) l
      = if q ∈ ps ∧ has (v.lanesTo (512 + q)) l then f q l else has (nth w.preds q 0) l := by
  induction ps generalizing w with
  | nil => simp [View.putPreds]
  | cons p ps ih =>
    obtain ⟨hp, hn⟩ := List.nodup_cons.mp hn
    rw [show v.putPreds f (p :: ps) w = v.putPreds f ps (v.putPred w p (f p)) from rfl,
      ih hn (w := v.putPred w p (f p)) hr, putPred_has v w p q (f p) hr hl]
    by_cases hq : p = q
    · subst hq
      simp [hp]
    · simp [hq, Ne.symm hq]

theorem find_indexed {α : Type} (f : Nat → α) (ps : List Nat) (q : Nat) :
    (ps.map (fun i => (i, f i))).find? (fun x => x.1 == q) = if q ∈ ps then some (q, f q) else none := by
  induction ps with
  | nil => rfl
  | cons p ps ih =>
    rw [List.map_cons, List.find?_cons, ih]
    by_cases hq : p = q
    · subst hq
      simp
    · simp [show (p == q) = false by simpa using hq, Ne.symm hq]

theorem putPreds_after (v : View) (f : Nat → Nat → Bool) {ps : List Nat} (hn : ps.Nodup) :
    PredsAfter v (ps.map (fun i => (i, f i))) (v.putPreds f ps v.w) := by
  intro q l hl
  rw [putPreds_has v f hn rfl q hl, find_indexed]
  by_cases hq : q ∈ ps <;> simp [hq]

/- Shape tags (04 R76). -/

/-- The tag of a register after a write that is not whole. -/
theorem write_part_tag (old : Reg) (r : TagRule) (t : Tag) {act : Mask} (vals : List W32) (ha : act ≠ 0) : (old.write false r t act vals).tag = .g := by
  simp only [Reg.write, ha, if_false, Bool.false_eq_true]
  rfl

/-- And after a whole one: the tag of the rule. -/
theorem write_whole_tag (old : Reg) (w : Warp) (r : TagRule) {act : Mask} (vals : List W32) (ha : act ≠ 0) :
    (old.write true r (w.ruleTag r) act vals).tag = w.ruleTag r := by
  simp only [Reg.write, ha, if_false, if_true]
  cases r with
  | g => rfl
  | u => rfl
  | affine b s => rfl
  | copy x => rfl
  | gen srcs => by_cases hu : w.allU srcs = true <;> simp [Warp.ruleTag, hu, Reg.tag]

/-- Registers after one write, by its tag. -/
theorem put_tag {v : View} (hr : v.w.replay = []) (sat : Bool) (d : Nat) (r : TagRule) (vals : List W32) :
    if v.act = 0 then ∀ k, (v.put sat v.w d r vals).reg k = v.w.reg k
    else ((v.put sat v.w d r vals).reg d).tag = if v.whole && !sat then v.w.ruleTag r else .g := by
  have hlater : v.w.laterWrites d = 0 := by simp [Warp.laterWrites, hr]
  have hact : v.act &&& ~~~ (0 : Mask) = v.act := by
    rw [show ~~~ (0 : Mask) = BitVec.allOnes 32 from rfl, BitVec.and_allOnes]
  simp only [View.put, Warp.reg, Warp.overtake_regs, nth_lput, hlater, hact, beq_self_eq_true, Bool.and_true, if_true]
  split
  · next h0 =>
    intro k
    split
    · next hk => simp [Reg.write, h0, hk]
    · rfl
  · next h0 =>
    cases hw : v.whole && !sat
    · exact write_part_tag _ _ _ _ h0
    · exact write_whole_tag _ v.w _ _ h0

/-- An instruction that writes one register takes the tag of its rule. -/
theorem tags_of {i : Instr} {h : Hdr} {n : Nat} {sat : Bool} {tag : View → Tag} {rule : View → TagRule} {eff : View → State → Eff}
    (he : ∀ s, exec i s = issue s h (reqOf i) eff)
    (heff : ∀ s v, Issues s h i v → ∃ vals, eff v s = .done (v.outs s (reqOf i v) [vals]))
    (hw : ∀ v, (reqOf i v).writes = [(n, rule v)]) (hs : ∀ v, (reqOf i v).sat = sat) (ht : ∀ v, v.w.ruleTag (rule v) = tag v) :
    Tags i h n sat tag := by
  intro s v hi hr
  obtain ⟨vals, hv⟩ := heff s v hi
  obtain ⟨t, hnext, w, -, hwarp, hflow, -⟩ := issue_modWarp hi (F := fun w => v.put sat w n (rule v) vals) (eff := eff)
    (by rw [hv, outs_eq, hw, hs]; rfl) rfl
  have hregs : w.regs = (v.put sat v.w n (rule v) vals).regs := by rw [hflow]; rfl
  have hreg (k : Nat) : w.reg k = (v.put sat v.w n (rule v) vals).reg k := by simp only [Warp.reg, hregs]
  refine ⟨t, w, (he s).trans hnext, by rw [hwarp, if_pos rfl], ?_⟩
  have htag := put_tag hr sat n (rule v) vals
  rw [ht] at htag
  simp only [hreg]
  exact htag

theorem issueVal_tags {i : Instr} {h : Hdr} {n : Nat} {sat : Bool} {tag : View → Tag} {rule : View → TagRule} {f : View → Nat → W32}
    (he : ∀ s, exec i s = issueVal s h i f) (hw : ∀ v, (reqOf i v).writes = [(n, rule v)]) (hs : ∀ v, (reqOf i v).sat = sat)
    (ht : ∀ v, v.w.ruleTag (rule v) = tag v) : Tags i h n sat tag :=
  tags_of he (fun _ v _ => ⟨perLane (f v), rfl⟩) hw hs ht

/-- SRD of a register that it neither draws nor latches. -/
theorem srd_tags {h : Hdr} {d : W9} {r : SReg} {tag : View → Tag} (hb : r ≠ .bconf) (hc : r ≠ .tsc)
    (ht : ∀ v : View, v.w.ruleTag (v.sregRule r) = tag v) : Tags (.srd h d r) h d.toNat false tag := by
  refine tags_of (fun _ => rfl) (fun s v hi => ⟨perLane (fun l => s.sreg v r l), ?_⟩) (fun _ => rfl) (fun _ => rfl) ht
  obtain ⟨-, -, -, -, -, -, -, -, -, hblk, -⟩ := view_spec hi.view
  have hb' : (r == .bconf) = false := by simpa using hb
  have hc' : (r == .tsc) = false := by simpa using hc
  simp only [hb', hc', Bool.false_and, Bool.false_eq_true, if_false, hblk, Option.getD_some]

/-- The tag of a register and operand B by the row of IADD, ISUB and LEA. -/
def sumTag (x y : Tag) : Tag := if x = .g ∨ y = .g then .g else if x = .u ∧ y = .u then .u else .a

theorem allU_ab (w : Warp) (a : W9) (b : SrcB) :
    w.allU (a.toNat :: srcRegs b) = ((w.reg a.toNat).tag == .u && (w.regB b).tag == .u) := by
  cases b with
  | reg n => simp [Warp.allU, srcRegs, Warp.regB]
  | imm x => simp [Warp.allU, srcRegs, Warp.regB, Reg.tag]

theorem ruleTag_gen_ab (w : Warp) (a : W9) (b : SrcB) :
    w.ruleTag (.gen (a.toNat :: srcRegs b)) = if (w.reg a.toNat).tag = .u ∧ (w.regB b).tag = .u then .u else .g := by
  simp only [Warp.ruleTag, allU_ab, Bool.and_eq_true, beq_iff_eq]

theorem addRule_tag (w : Warp) (sub : Bool) (a : W9) (b : SrcB) {y : Reg} (hy : y.tag = (w.regB b).tag) :
    w.ruleTag (addRule sub (w.reg a.toNat) y (.gen (a.toNat :: srcRegs b))) = sumTag (w.reg a.toNat).tag (w.regB b).tag := by
  have hgen := ruleTag_gen_ab w a b
  rw [← hy] at hgen ⊢
  generalize w.reg a.toNat = x at hgen ⊢
  cases x with
  | g vs => cases y <;> exact hgen
  | u n =>
    cases y with
    | a b s => rfl
    | u n => exact hgen
    | g vs => exact hgen
  | a b s =>
    cases y with
    | a b s => rfl
    | u n => rfl
    | g vs => exact hgen

theorem mulRule_tag (w : Warp) (a : W9) (b : SrcB) :
    w.ruleTag (mulRule (w.reg a.toNat) (w.regB b) (.gen (a.toNat :: srcRegs b)))
      = if (w.reg a.toNat).tag = .a ∧ (w.regB b).tag = .a then .g else sumTag (w.reg a.toNat).tag (w.regB b).tag := by
  have hgen := ruleTag_gen_ab w a b
  generalize w.reg a.toNat = x at hgen ⊢
  generalize w.regB b = y at hgen ⊢
  cases x with
  | g vs => cases y <;> exact hgen
  | u n =>
    cases y with
    | a b s => rfl
    | u n => exact hgen
    | g vs => exact hgen
  | a b s =>
    cases y with
    | a b s => exact hgen
    | u n => rfl
    | g vs => exact hgen

theorem shlRule_tag (w : Warp) (a : W9) (b : SrcB) :
    w.ruleTag (match w.reg a.toNat, w.regB b with
        | .a x y, .u n => .affine (shlWord x n.toNat) (shlWord y n.toNat)
        | _, _ => .gen (a.toNat :: srcRegs b))
      = if (w.regB b).tag = .u then (w.reg a.toNat).tag else .g := by
  have hgen := ruleTag_gen_ab w a b
  generalize w.reg a.toNat = x at hgen ⊢
  generalize w.regB b = y at hgen ⊢
  cases x with
  | g vs => cases y <;> exact hgen
  | u n =>
    cases y with
    | a b s => exact hgen
    | u n => exact hgen
    | g vs => exact hgen
  | a b s =>
    cases y with
    | a b s => exact hgen
    | u n => rfl
    | g vs => exact hgen

theorem negRule_tag (w : Warp) (a : W9) :
    w.ruleTag (match w.reg a.toNat with
        | .a x y => .affine (0 - x) (0 - y)
        | .u _ | .g _ => .gen [a.toNat]) = (w.reg a.toNat).tag := by
  have hgen : w.ruleTag (.gen [a.toNat]) = if (w.reg a.toNat).tag = .u then .u else .g := by
    simp [Warp.ruleTag, Warp.allU]
  generalize w.reg a.toNat = x at hgen ⊢
  cases x with
  | a b s => rfl
  | u n => exact hgen
  | g vs => exact hgen

theorem shifted_tag (r : Reg) (n : Nat) : (r.shifted n).tag = r.tag := by cases r <;> rfl

/- Tags above a ceiling (04 R77). -/

theorem check_shapeCeiling {v : View} {r : Req} (h : v.Admits r) (hreads : ∀ x ∈ r.reads, x < v.g.ceils.length)
    {d : Nat} {rule : TagRule} (hw : r.writes = [(d, rule)]) (hd : d < v.g.ceils.length) (hc : (v.tagOf r.sat rule).le (v.ceil d) = false) :
    v.check r = some .shapeCeiling := by
  have hrange : (r.reads.any (fun x => v.g.ceils.length ≤ x) || r.writes.any (fun x => v.g.ceils.length ≤ x.1)) = false := by
    simpa [hw, hd] using hreads
  have htags : r.writes.any (fun x => !(v.tagOf r.sat x.2).le (v.ceil x.1)) = true := by simp [hw, hc]
  simp only [View.check, h.not_bad, feats_any h.feats, h.not_mode, hrange, htags, Bool.false_eq_true, if_false, if_true]

/-- An instruction whose one register would take a tag above its ceiling, in a launch that admits it. -/
theorem ceiling_traps {i : Instr} {h : Hdr} {eff : View → State → Eff} (he : ∀ s, exec i s = issue s h (reqOf i) eff) {s : State} {v : View}
    (hs : Stands s h v) (hadm : v.Admits (reqOf i v)) (hreads : ∀ x ∈ (reqOf i v).reads, x < v.g.ceils.length) {d : Nat} {rule : TagRule}
    (hw : (reqOf i v).writes = [(d, rule)]) (hd : d < v.g.ceils.length) (hc : (v.tagOf (reqOf i v).sat rule).le (v.ceil d) = false) :
    Traps i s v .shapeCeiling 0 :=
  check_traps he hs (check_shapeCeiling hadm hreads hw hd hc) (by decide)

theorem Tag.g_le {t : Tag} (h : t ≠ .g) : Tag.g.le t = false := by
  cases t with
  | g => exact absurd rfl h
  | u => rfl
  | a => rfl

theorem admits_base {v : View} {r : Req} (hb : r.bad = false) (hm : r.maps = []) (hf : r.feats = [0]) (hn : r.noTravel = false)
    (h0 : v.g.rec_.feature 0 = true) : v.Admits r := (View.FieldsFit.of_plain hb hm).admits hf hn h0

theorem v2p_computes (h : Hdr) (a : W9) (b : SrcB) :
    ComputesPreds (.v2p h a b) h (fun v => (List.range 15).map (fun i => (i, fun l =>
      if (v.w.srcB b l).getLsbD i then (v.w.rd a.toNat l).getLsbD i else has (nth v.w.preds i 0) l))) := by
  intro s v hi
  set f : Nat → Nat → Bool := fun i l => if (v.w.srcB b l).getLsbD i then (v.w.rd a.toNat l).getLsbD i else has (nth v.w.preds i 0) l
  obtain ⟨qs, hk⟩ := putPreds_keeps v f (List.range 15) v.w
  obtain ⟨t, ht, hp⟩ := issue_modWarp hi (F := v.putPreds f (List.range 15))
    (eff := fun v s => .done (s.modWarp v.key (fun w => (List.range 15).foldl (fun w i =>
      v.putPred w i (fun l => if (v.w.srcB b l).getLsbD i then (v.w.rd a.toNat l).getLsbD i else has (nth v.w.preds i 0) l)) w)))
    rfl (by rw [hk])
  have hafter := putPreds_after v f (List.nodup_range (n := 15))
  rw [hk] at hp hafter
  exact ⟨t, _, ht, hp, rfl, hafter⟩

/-- Settles O8: the comparisons and moves, the tags of whole writes, and the tags above a ceiling. -/
theorem comparesPredicatesAndMoves : Obligations.ComparesPredicatesAndMoves := by
  unfold Obligations.ComparesPredicatesAndMoves
  refine ⟨fun h c p pa pb pc d a b tab => ⟨?_, ?_, v2p_computes h a b, ?_, ?_⟩, fun h d a x y => ⟨?_, ?_, ?_⟩,
    fun h m u sat sh d a b p x => ?_, fun h d a x s v hs h0 hd => ⟨fun hc => ?_, fun hw hc => ?_, fun hw ha hc => ?_⟩⟩
  · exact issuePred_computes (fun _ => rfl) fun v l => by obtain ⟨u, c⟩ := c; cases c <;> rfl
  · exact issuePred_computes (fun _ => rfl) fun v l => gate_eq tab _ _ _
  · exact issueVal_computes (rule := fun _ => .g) (fun _ => rfl) (fun _ => rfl) (fun _ _ => rfl) fun _ => .inr trivial
  · exact issueVal_computes (rule := fun _ => .g) (fun _ => rfl) (fun _ => rfl) (fun _ _ => rfl) fun _ => .inr trivial
  · exact issueVal_computes (fun _ => rfl) (fun _ => rfl) (fun _ _ => rfl) fun v => .inr (fits_copy fun _ _ => rfl)
  · exact issueVal_computes (fun _ => rfl) (fun _ => rfl) (fun _ _ => rfl) fun v => .inr (fits_u fun _ _ _ _ => rfl)
  · exact issueVal64_computes (fun _ => rfl) (fun _ => rfl) (fun _ _ => rfl) fun v p => fits_u fun _ _ _ _ => rfl
  · refine ⟨issueVal_tags (fun _ => rfl) (fun _ => rfl) (fun _ => rfl) fun _ => rfl, issueVal_tags (fun _ => rfl) (fun _ => rfl) (fun _ => rfl) fun _ => rfl,
      issueVal_tags (fun _ => rfl) (fun _ => rfl) (fun _ => rfl) fun v => addRule_tag v.w false a b rfl,
      issueVal_tags (fun _ => rfl) (fun _ => rfl) (fun _ => rfl) fun v => addRule_tag v.w true a b rfl,
      issueVal_tags (fun _ => rfl) (fun _ => rfl) (fun _ => rfl) fun v => addRule_tag v.w false a b (shifted_tag _ _),
      issueVal_tags (fun _ => rfl) (fun _ => rfl) (fun _ => rfl) fun v => negRule_tag v.w a,
      issueVal_tags (fun _ => rfl) (fun _ => rfl) (fun _ => rfl) fun v => mulRule_tag v.w a b,
      issueVal_tags (fun _ => rfl) (fun _ => rfl) (fun _ => rfl) fun v => shlRule_tag v.w a b,
      issueVal_tags (fun _ => rfl) (fun _ => rfl) (fun _ => rfl) fun v => ruleTag_gen_ab v.w a b,
      issueVal_tags (rule := fun _ => .g) (fun _ => rfl) (fun _ => rfl) (fun _ => rfl) fun _ => rfl,
      issueVal_tags (rule := fun _ => .g) (fun _ => rfl) (fun _ => rfl) (fun _ => rfl) fun _ => rfl,
      issueVal_tags (rule := fun _ => .u) (fun _ => rfl) (fun _ => rfl) (fun _ => rfl) fun _ => rfl,
      srd_tags (by decide) (by decide) fun _ => rfl, srd_tags (by decide) (by decide) fun v => ?_,
      srd_tags (by decide) (by decide) fun _ => rfl, srd_tags (by decide) (by decide) fun _ => rfl⟩
    show v.w.ruleTag (if v.travels then .g else _) = _
    cases v.travels <;> rfl
  · exact ceiling_traps (fun _ => rfl) hs (admits_base rfl rfl rfl rfl h0) (by simp [reqOf]) rfl hd (by rw [View.tagOf]; split <;> exact Tag.g_le hc)
  · exact ceiling_traps (fun _ => rfl) hs (admits_base rfl rfl rfl rfl h0) (by simp [reqOf]) rfl hd (by simpa [View.tagOf, hw] using Tag.g_le hc)
  · refine ceiling_traps (fun _ => rfl) hs (admits_base rfl rfl rfl rfl h0) (by simpa [reqOf, reqA] using ha) rfl hd ?_
    have htag : v.tagOf false (.copy (v.w.reg a.toNat)) = (v.w.reg a.toNat).tag := by simp [View.tagOf, hw, Warp.ruleTag]
    exact (congrArg (Tag.le · (v.ceil d.toNat)) htag).trans (decide_eq_false (Nat.not_le.mpr hc))

end Sys2Proof.Machine
end

