-- ==== Sys2Proof/Proofs/Floats.lean ====
section
/-! PROOF, of O10. Class FLT: binary32 arithmetic, and arithmetic on pairs of 16-bit elements (06 R115 to R118). -/

namespace Sys2Proof.Machine

/- Both elements of a word (06 R118). -/

/-- Two 16-bit results side by side. -/
theorem halves_word (f : Nat → Nat × FFlags) :
    BitVec.ofNat 32 (halves f).1 = (BitVec.ofNat 16 (f 1).1 ++ BitVec.ofNat 16 (f 0).1 : W32) := by
  apply BitVec.eq_of_toNat_eq
  rw [BitVec.toNat_append, BitVec.toNat_ofNat, BitVec.toNat_ofNat, BitVec.toNat_ofNat, ← Nat.shiftLeft_add_eq_or_of_lt (Nat.mod_lt _ (by decide)),
    Nat.shiftLeft_eq]
  show ((f 0).1 % 65536 + (f 1).1 % 65536 * 65536) % 2 ^ 32 = (f 1).1 % 2 ^ 16 * 2 ^ 16 + (f 0).1 % 2 ^ 16
  omega

/-- Element e of a word. -/
theorem half_eq (f : Fmt) (md : Bool × Bool) (ftz : Bool) (w : W32) (e : Nat) :
    half f md ftz w e = f.input ftz (f.src md (w.extractLsb' (16 * e) 16).toNat) := by rw [half, field_toNat]

/-- A pair instruction of a register and operand B: the elements of its word, and the union of their flags. -/
theorem issueHalves_ab {i : Instr} {h : Hdr} {d : Nat} {a : W9} {b : SrcB} {f : View → Nat → Nat → Nat × FFlags}
    (he : ∀ s, exec i s = issueFlt s h i (fun v l => halves (f v l)))
    (hw : ∀ v, (reqOf i v).writes = genTo [d] (a.toNat :: srcRegs b) := by intros; rfl)
    (hs : ∀ v l k, v.w.rd a.toNat l = v.w.rd a.toNat k → v.w.srcB b l = v.w.srcB b k → f v l = f v k := by
      intro v l k ha hb; simp only [ha, hb]) :
    ComputesFlags i h (fun v => [(d, fun l => (BitVec.ofNat 16 (f v l 1).1 ++ BitVec.ofNat 16 (f v l 0).1 : W32))])
      (fun v l => (f v l 0).2 ||| (f v l 1).2) :=
  issueFlt_ab he (fun v l => ⟨halves_word (f v l), rfl⟩) hw fun v l k ha hb => by rw [hs v l k ha hb]

/-- And one that has operand C too. -/
theorem issueHalves_abc {i : Instr} {h : Hdr} {d : Nat} {a c : W9} {b : SrcB} {f : View → Nat → Nat → Nat × FFlags}
    (he : ∀ s, exec i s = issueFlt s h i (fun v l => halves (f v l)))
    (hw : ∀ v, (reqOf i v).writes = genTo [d] (a.toNat :: c.toNat :: srcRegs b) := by intros; rfl)
    (hs : ∀ v l k, v.w.rd a.toNat l = v.w.rd a.toNat k → v.w.srcB b l = v.w.srcB b k → v.w.rd c.toNat l = v.w.rd c.toNat k → f v l = f v k := by
      intro v l k ha hb hc; simp only [ha, hb, hc]) :
    ComputesFlags i h (fun v => [(d, fun l => (BitVec.ofNat 16 (f v l 1).1 ++ BitVec.ofNat 16 (f v l 0).1 : W32))])
      (fun v l => (f v l 0).2 ||| (f v l 1).2) :=
  issueFlt_abc he (fun v l => ⟨halves_word (f v l), rfl⟩) hw fun v l k ha hb hc => by rw [hs v l k ha hb hc]

/-- Settles O10: each value by its lanes, and the two elements of a pair. -/
theorem floatArithmetic : Obligations.FloatArithmetic := by
  unfold Obligations.FloatArithmetic
  refine ⟨fun h r d a b c x => ⟨?_, ?_, ?_, ?_, ?_, ?_, ?_, ?_, ?_, ?_⟩, fun h r d a b c x => ⟨?_, ?_, ?_, ?_⟩⟩
  · exact issueFlt_ab fun _ => rfl
  · exact issueFlt_ab fun _ => rfl
  · exact issueFlt_ab fun _ => rfl
  · exact issueFlt_abc fun _ => rfl
  · exact issueFlt_ab fun _ => rfl
  · exact issueFlt_ab fun _ => rfl
  · exact issueFlt_a fun _ => rfl
  · exact issueVal_a (fun _ => rfl) fun _ _ => rfl
  · exact issueFlt_a (fun _ => rfl) fun v l => ⟨by rw [BitVec.ofNat_toNat, BitVec.setWidth_eq], rfl⟩
  · exact issueFlt_ab fun _ => rfl
  · simpa only [half_eq] using issueHalves_ab (i := .hadd2 h r d a b x) (d := d.toNat) (a := a) (b := b) fun _ => rfl
  · simpa only [half_eq] using issueHalves_ab (i := .hmul2 h r d a b x) (d := d.toNat) (a := a) (b := b) fun _ => rfl
  · simpa only [half_eq] using issueHalves_abc (i := .hfma2 h r d a b c x) (d := d.toNat) (a := a) (b := b) (c := c) fun _ => rfl
  · simpa only [half_eq] using issueHalves_abc (i := .bfma2 h r d a b c x) (d := d.toNat) (a := a) (b := b) (c := c) fun _ => rfl

end Sys2Proof.Machine
end

