-- ==== Sys2Proof/Proofs/Conversions.lean ====
section
/-! PROOF, of O13, first part. Class CVT: what the five instructions write (06 R121 to R124). -/

namespace Sys2Proof.Machine

/- Fields side by side (06 R124). -/

/-- The low n bits of k numbers, one above the other. -/
def packed (n : Nat) (f : Nat → Nat) (k : Nat) : Nat := ((List.range k).map (fun i => f i % 2 ^ n * 2 ^ (n * i))).sum

theorem packed_succ (n : Nat) (f : Nat → Nat) (k : Nat) : packed n f (k + 1) = 2 ^ (n * k) * (f k % 2 ^ n) + packed n f k := by
  unfold packed
  rw [List.range_succ, List.map_append, List.sum_append, List.map_singleton, List.sum_singleton, Nat.add_comm, Nat.mul_comm]

theorem packed_lt (n : Nat) (f : Nat → Nat) (k : Nat) : packed n f k < 2 ^ (n * k) := by
  induction k with
  | zero => simp [packed]
  | succ k ih =>
    have h := Nat.mod_lt (f k) (Nat.two_pow_pos n)
    calc packed n f (k + 1) = 2 ^ (n * k) * (f k % 2 ^ n) + packed n f k := packed_succ n f k
      _ < 2 ^ (n * k) * (f k % 2 ^ n + 1) := by rw [Nat.mul_succ]; omega
      _ ≤ 2 ^ (n * k) * 2 ^ n := Nat.mul_le_mul_left _ h
      _ = 2 ^ (n * (k + 1)) := by rw [← Nat.pow_add, Nat.mul_succ]

/-- Bit j of them is bit j % n of number j / n. -/
theorem testBit_packed {n : Nat} (hn : 0 < n) (f : Nat → Nat) (k j : Nat) :
    (packed n f k).testBit j = (decide (j < n * k) && (f (j / n)).testBit (j % n)) := by
  induction k with
  | zero => simp [packed]
  | succ k ih =>
    rw [packed_succ, Nat.testBit_two_pow_mul_add _ (packed_lt n f k)]
    by_cases hj : j < n * k
    · rw [if_pos hj, ih, decide_eq_true hj, decide_eq_true (by rw [Nat.mul_succ]; omega)]
    · rw [if_neg hj, Nat.testBit_mod_two_pow]
      by_cases hj' : j < n * (k + 1)
      · have hdiv : j / n = k := Nat.div_eq_of_lt_le (by rw [Nat.mul_comm]; omega) (by rw [Nat.mul_comm]; exact hj')
        have hmod : j % n = j - n * k := by rw [← hdiv]; exact Nat.mod_eq_sub_mul_div
        rw [decide_eq_true hj', hdiv, hmod, decide_eq_true (by rw [Nat.mul_succ] at hj'; omega)]
      · rw [decide_eq_false hj', decide_eq_false (by rw [Nat.mul_succ] at hj'; omega)]
        rfl

theorem packed_word {n : Nat} (hn : 0 < n) (f : Nat → W32) :
    BitVec.ofNat 32 (packed n (fun i => (f i).toNat) 4) = maskOf (fun j => j < 4 * n && (f (j / n)).getLsbD (j % n)) := by
  refine eq_maskOf fun j hj => ?_
  rw [BitVec.getLsbD_ofNat, testBit_packed hn, decide_eq_true hj, Bool.true_and, Nat.mul_comm]
  rfl

/- The registers of an operand (06 R121, R124). -/

theorem groupRegs_nodup (n k : Nat) : (groupRegs n k).Nodup := by
  unfold groupRegs
  exact (List.nodup_map_iff fun a b h => Nat.add_left_cancel h).mpr List.nodup_range

theorem typeRegs_nodup (t : TypeCode) (n : W9) : (typeRegs t n).Nodup := by
  unfold typeRegs opRegs
  split
  · exact pair_nodup _
  · exact List.nodup_singleton _

/-- The words of a result, for the registers that its type takes. -/
theorem typeRegs_zip (t : TypeCode) (d : W9) (f : Nat → W64) :
    (typeRegs t d).zip [fun l => (f l).extractLsb' 0 32, fun l => (f l).extractLsb' 32 32]
      = if t.isPairType then pairOuts d f else [(d.toNat, fun l => (f l).extractLsb' 0 32)] := by
  unfold typeRegs opRegs
  split <;> rfl

/-- A source of a type, read in a lane. -/
def View.typed (v : View) (t : TypeCode) (a : W9) (l : Nat) : Nat :=
  if t.isPairType then (v.w.rd64 a.toNat l).toNat else (v.w.rd a.toNat l).toNat

theorem alike_typed {v : View} {t : TypeCode} {a : W9} {l k : Nat} (h : v.w.alike (typeRegs t a) l k) : v.typed t a l = v.typed t a k := by
  unfold View.typed
  unfold typeRegs opRegs at h
  revert h
  cases t.isPairType with
  | true => exact fun h => congrArg BitVec.toNat (alike_rd64 h)
  | false => exact fun h => congrArg BitVec.toNat (h _ (List.mem_singleton_self _))

/-- Each column of a row that writes words of its sources takes U where all of them do. -/
theorem genTo_fits {w : Warp} {act : Mask} {ds srcs : List Nat} {fs : List (Nat → W32)} (h : ∀ f ∈ fs, ∀ l k, w.alike srcs l k → f l = f k) :
    ∀ x ∈ (genTo ds srcs).zip (fs.map perLane), x.1.2.fits w act x.2 := by
  intro x hx
  obtain ⟨h1, h2⟩ := List.of_mem_zip hx
  obtain ⟨d, -, hd⟩ := List.mem_map.mp h1
  obtain ⟨f, hf, hc⟩ := List.mem_map.mp h2
  rw [← hd, ← hc]
  exact fits_alike (h f hf)

theorem genTo_fst (ds srcs : List Nat) : (genTo ds srcs).map Prod.fst = ds := by
  unfold genTo
  rw [List.map_map]
  exact List.map_id ds

/- The instructions. -/

/-- CVT, for any conversion of its source. -/
theorem execCvt_computes {h : Hdr} {r : RndS} {dt st : TypeCode} {na aa : Bool} {d a : W9} (cv : View → Nat → W64 × FFlags)
    (hcv : ∀ v l, cv v l = cvtOf r dt st na aa (v.typed st a l)) :
    ComputesFlags (.cvt h r dt st na aa d a) h
      (fun v => if dt.isPairType then pairOuts d (fun l => (cv v l).1) else [(d.toNat, fun l => (cv v l).1.extractLsb' 0 32)])
      (fun v l => (cv v l).2) := by
  have halike (v : View) (l k : Nat) (hr : v.w.alike (typeRegs st a) l k) : cv v l = cv v k := by rw [hcv, hcv, alike_typed hr]
  simp only [← typeRegs_zip]
  refine computesFlags_outs (fun v => [fun l => (cv v l).1.extractLsb' 0 32, fun l => (cv v l).1.extractLsb' 32 32])
    (fun v l => (cv v l).2) (fun _ => typeRegs dt d) (fun s => ?_) (fun v => genTo_fst _ _) (fun _ => typeRegs_nodup dt d)
    fun v x hx => .inr (genTo_fits (fun f hf l k hr => ?_) x hx)
  · obtain rfl : cv = fun v l => cvtOf r dt st na aa (v.typed st a l) := funext fun v => funext fun l => hcv v l
    show execCvt h r dt st na aa d a s = _
    simp only [execCvt, perLane_map, loWords_perLane, hiWords_perLane, List.map_cons, List.map_nil, View.typed]
  · simp only [List.mem_cons, List.not_mem_nil, or_false] at hf
    rcases hf with rfl | rfl <;> simp only [halike v l k hr]

theorem execCvtn_computes (h : Hdr) (r : RndS) (st : TypeCode) (f : W3) (na aa : Bool) (d a : W9) :
    ComputesFlags (.cvtn h r st f na aa d a) h (fun v => [(d.toNat, fun l => (cvtnOf r st (v.slotWord f) na aa (v.w.rd a.toNat l).toNat).1)])
      (fun v l => (cvtnOf r st (v.slotWord f) na aa (v.w.rd a.toNat l).toNat).2) :=
  issueFlt_a (fun _ => rfl) fun v l => ⟨by rw [BitVec.ofNat_toNat, BitVec.setWidth_eq], rfl⟩

theorem execCvtw_computes (h : Hdr) (r : RndS) (dt : TypeCode) (f : W3) (d a : W9) :
    ComputesFlags (.cvtw h r dt f d a) h (fun v => [(d.toNat, fun l => (cvtwOf r dt (v.slotWord f) (v.w.rd a.toNat l).toNat).1)])
      (fun v l => (cvtwOf r dt (v.slotWord f) (v.w.rd a.toNat l).toNat).2) :=
  issueFlt_a (fun _ => rfl) fun v l => ⟨by rw [BitVec.ofNat_toNat, BitVec.setWidth_eq], rfl⟩

theorem execPack4_computes (h : Hdr) (w4 : Bool) (d a : W9) {n : Nat} (hn : n = if w4 then 4 else 8) :
    Computes (.pack4 h w4 d a) h (fun v => [(d.toNat, fun l => maskOf (fun j => j < 4 * n && (v.w.rd (a.toNat + j / n) l).getLsbD (j % n)))]) := by
  have hpos : 0 < n := by rw [hn]; split <;> decide
  have hval (v : View) (l : Nat) : BitVec.ofNat 32 (((List.range 4).map (fun i => field (v.w.rd (a.toNat + i) l).toNat 0 n * 2 ^ (n * i))).sum)
      = maskOf (fun j => j < 4 * n && (v.w.rd (a.toNat + j / n) l).getLsbD (j % n)) := by
    rw [← packed_word hpos fun i => v.w.rd (a.toNat + i) l]
    simp only [packed, field_eq, Nat.pow_zero, Nat.div_one]
  refine issueVal_gen (groupRegs a.toNat 4) (fun s => ?_) (fun _ => rfl) hval fun v l k hr => ?_
  · rw [hn]; rfl
  · have hreg (i : Nat) (hi : i ∈ List.range 4) : v.w.rd (a.toNat + i) l = v.w.rd (a.toNat + i) k := hr _ (List.mem_map_of_mem hi)
    rw [← hval, ← hval, List.map_congr_left fun i hi => by rw [hreg i hi]]

theorem execUnpack4_computes (h : Hdr) (w4 : Bool) (d a : W9) {n : Nat} (hn : n = if w4 then 4 else 8) :
    Computes (.unpack4 h w4 d a) h (fun v => (List.range 4).map (fun i => (d.toNat + i, fun l =>
      BitVec.ofNat 32 ((v.w.rd a.toNat l).toNat / 2 ^ (n * i) % 2 ^ n)))) := by
  have key := computes_outs (i := .unpack4 h w4 d a) (h := h)
    (fun v => (List.range 4).map fun i l => BitVec.ofNat 32 ((v.w.rd a.toNat l).toNat / 2 ^ (n * i) % 2 ^ n)) (fun _ => groupRegs d.toNat 4)
    (fun s => ?_) (fun v => genTo_fst _ _) (fun _ => groupRegs_nodup _ _)
    fun v x hx => .inr (genTo_fits (fun f hf l k hr => ?_) x hx)
  · simpa only [groupRegs, List.zip_map'] using key
  · show execUnpack4 h w4 d a s = _
    simp only [execUnpack4, ← hn, field_eq, List.map_map, Function.comp_def]
  · obtain ⟨i, -, rfl⟩ := List.mem_map.mp hf
    simp only [hr _ (List.mem_singleton_self _)]

end Sys2Proof.Machine
end

