-- ==== Sys2Proof/Proofs/IntegerConversions.lean ====
section
/-! PROOF, of O13, second part. Conversions into the integers, and between them (06 R121). -/

namespace Sys2Proof.Machine

/- Integers in the registers of a type. -/

/-- The integer types with their widths and signs, and the floating-point types with their formats, as the codes of CVT name
them. -/
def intTypes : List (TypeCode × Nat × Bool) :=
  [(.i8, 8, false), (.n8, 8, true), (.i16, 16, false), (.n16, 16, true), (.i32, 32, false), (.n32, 32, true), (.i64, 64, false), (.n64, 64, true)]
def floatTypes : List (TypeCode × Fmt) := [(.f16, f16), (.bf16, bf16), (.f32, f32), (.f64, f64)]

/-- A width of an integer type. -/
def IntWidth (w : Nat) : Prop := w = 64 ∨ 0 < w ∧ w ≤ 32

theorem intTypes_spec {x : TypeCode × Nat × Bool} (h : x ∈ intTypes) : x.1.isFloat = false ∧ intOf x.1 = x.2 ∧ IntWidth x.2.1 := by
  unfold IntWidth
  exact (by decide : ∀ y ∈ intTypes, y.1.isFloat = false ∧ intOf y.1 = y.2 ∧ (y.2.1 = 64 ∨ 0 < y.2.1 ∧ y.2.1 ≤ 32)) x h

theorem floatTypes_spec {x : TypeCode × Fmt} (h : x ∈ floatTypes) : x.1.isFloat = true ∧ fmtOf x.1 = x.2 :=
  (by decide : ∀ y ∈ floatTypes, y.1.isFloat = true ∧ fmtOf y.1 = y.2) x h

/-- What stands in the registers is the integer of the word, extended. -/
theorem extInt_eq {w : Nat} (hw : 0 < w) (u : Bool) (x : Int) :
    extInt w u x = if w = 64 then BitVec.ofNat 64 (BitVec.ofInt w x).toNat
      else BitVec.ofInt 64 (ival u (BitVec.ofInt w x) % ((2 ^ 32 : Nat) : Int)) := by
  have hpow : 2 ^ w = 2 * 2 ^ (w - 1) := by rw [← pow_succ', Nat.sub_add_cancel hw]
  have hival : (if u || decide ((BitVec.ofInt w x).toNat < 2 ^ (w - 1)) then ((BitVec.ofInt w x).toNat : Int)
      else ((BitVec.ofInt w x).toNat : Int) - (2 ^ w : Nat)) = ival u (BitVec.ofInt w x) := by
    cases u with
    | true => rfl
    | false =>
      show _ = (BitVec.ofInt w x).toInt
      rw [BitVec.toInt_eq_toNat_cond, Bool.false_or]
      by_cases hlt : (BitVec.ofInt w x).toNat < 2 ^ (w - 1)
      · rw [decide_eq_true hlt, if_pos rfl, if_pos (by omega)]
      · rw [decide_eq_false hlt, if_neg Bool.false_ne_true, if_neg (by omega)]
  unfold extInt
  rw [← hival, BitVec.toNat_ofInt]

/-- The low word of a narrow result is its integer modulo 2^32. -/
theorem lowWord_ofInt (i : Int) : (BitVec.ofInt 64 (i % ((2 ^ 32 : Nat) : Int))).extractLsb' 0 32 = BitVec.ofInt 32 i := by
  apply BitVec.eq_of_toNat_eq
  rw [BitVec.extractLsb'_toNat, BitVec.toNat_ofInt, BitVec.toNat_ofInt, Nat.shiftRight_zero]
  omega

/-- The word itself is found again in the registers. -/
theorem ofNat_extInt {w : Nat} (hw : IntWidth w) (u : Bool) (x : Int) : BitVec.ofNat w (extInt w u x).toNat = BitVec.ofInt w x := by
  rcases hw with rfl | ⟨hpos, hle⟩
  · rw [extInt_eq (by decide), if_pos rfl, BitVec.ofNat_toNat, BitVec.setWidth_eq, BitVec.ofNat_toNat, BitVec.setWidth_eq]
  · rw [extInt_eq hpos, if_neg (by omega)]
    refine .trans ?_ (ofInt_ival u (BitVec.ofInt w x))
    generalize ival u (BitVec.ofInt w x) = i
    have hdvd : ((2 ^ w : Nat) : Int) ∣ ((2 ^ 32 : Nat) : Int) := Int.natCast_dvd_natCast.mpr (pow_dvd_pow 2 hle)
    have hmod : i % ((2 ^ 32 : Nat) : Int) % ((2 ^ 64 : Nat) : Int) = i % ((2 ^ 32 : Nat) : Int) := by omega
    apply BitVec.eq_of_toNat_eq
    rw [BitVec.toNat_ofNat, BitVec.toNat_ofInt, BitVec.toNat_ofInt, hmod, ← Int.emod_emod_of_dvd i hdvd]
    rw [Int.toNat_emod (Int.emod_nonneg _ (by decide)) (Int.natCast_nonneg _), Int.toNat_natCast]

/-- The first register holds the word extended by its sign or with zeros. -/
theorem lowWord_extInt {w : Nat} (hw : 0 < w) (hle : w ≤ 32) (u : Bool) (x : Int) :
    (extInt w u x).extractLsb' 0 32 = if u then (BitVec.ofInt w x).setWidth 32 else (BitVec.ofInt w x).signExtend 32 := by
  rw [extInt_eq hw, if_neg (by omega), lowWord_ofInt]
  cases u with
  | true =>
    show BitVec.ofInt 32 ((BitVec.ofInt w x).toNat : Int) = (BitVec.ofInt w x).setWidth 32
    rw [BitVec.ofInt_natCast, BitVec.ofNat_toNat]
  | false => rfl

/-- An integer of a 32-bit type is read again from the first register. -/
theorem ival_extInt {u : Bool} {x : Int} (h1 : intMin u 32 ≤ x) (h2 : x ≤ intMax u 32) : ival u ((extInt 32 u x).extractLsb' 0 32) = x := by
  rw [lowWord_extInt (by decide) (by decide), BitVec.setWidth_eq, BitVec.signExtend_eq, ite_self]
  exact ival_ofInt (by decide) h1 h2

/- CVT by the classes of its types. -/

/-- A result in the range of its type, or the nearest end with NV. -/
theorem clamped_eq (g : Int → W64) (lo hi i : Int) (fl : FFlags) :
    (if i < lo then (g lo, fNV) else if hi < i then (g hi, fNV) else (g i, fl)) = (g (clampInt lo hi i), if i < lo ∨ hi < i then fNV else fl) := by
  unfold clampInt
  by_cases h1 : i < lo
  · simp only [h1, if_true, true_or]
  · by_cases h2 : hi < i
    · simp only [h1, h2, if_true, if_false, or_true]
    · simp only [h1, h2, if_false, or_self]

section
variable {r : RndS} {dt st : TypeCode} {na aa : Bool} {v : Nat}

/-- Between integer types. -/
theorem cvtOf_int_int (hst : st.isFloat = false) (hdt : dt.isFloat = false) : cvtOf r dt st na aa v =
    (extInt (intOf dt).1 (intOf dt).2 (let i := ival (intOf st).2 (BitVec.ofNat (intOf st).1 v)
      if r.sat then clampInt (intMin (intOf dt).2 (intOf dt).1) (intMax (intOf dt).2 (intOf dt).1) i else i), 0) := by
  simp only [cvtOf, hst, hdt, Bool.false_eq_true, if_false]

/-- From an integer type. -/
theorem cvtOf_int_float (hst : st.isFloat = false) (hdt : dt.isFloat = true) (hs : r.sat = false) (hz : r.ftz = false) :
    cvtOf r dt st na aa v = let i := ival (intOf st).2 (BitVec.ofNat (intOf st).1 v)
      let p := (fmtOf dt).round r.rm (decide (i < 0)) i.natAbs 0 false
      (BitVec.ofNat 64 p.1, p.2) := by
  simp only [cvtOf, hst, hdt, hs, hz, Bool.false_eq_true, if_false, if_true, Fmt.flush, Bool.false_and]

/-- The value that CVT takes from a floating-point source. -/
def cvtIn (r : RndS) (st : TypeCode) (na aa : Bool) (v : Nat) : FVal :=
  (fmtOf st).input r.ftz ((fmtOf st).modify aa na (v % 2 ^ (fmtOf st).width))

theorem cvtOf_nan_int {q : Bool} (hst : st.isFloat = true) (hdt : dt.isFloat = false) (hx : cvtIn r st na aa v = .nan q) :
    cvtOf r dt st na aa v = (0, fNV) := by
  unfold cvtIn at hx
  simp only [cvtOf, hst, hdt, hx, Bool.false_eq_true, if_false, if_true]

theorem cvtOf_inf_int {s : Bool} (hst : st.isFloat = true) (hdt : dt.isFloat = false) (hx : cvtIn r st na aa v = .inf s) :
    cvtOf r dt st na aa v = (extInt (intOf dt).1 (intOf dt).2
      (if s then intMin (intOf dt).2 (intOf dt).1 else intMax (intOf dt).2 (intOf dt).1), fNV) := by
  unfold cvtIn at hx
  simp only [cvtOf, hst, hdt, hx, Bool.false_eq_true, if_false, if_true]

/-- A finite value: its rounded integer, clamped to the range of the type. -/
theorem cvtOf_fin_int {s : Bool} {m : Nat} {e : Int} (hst : st.isFloat = true) (hdt : dt.isFloat = false) (hx : cvtIn r st na aa v = .fin s m e) :
    cvtOf r dt st na aa v =
      let k := roundAt r.rm s m e 0 false
      let i : Int := if s then -(k.1 : Int) else k.1
      let lo := intMin (intOf dt).2 (intOf dt).1
      let hi := intMax (intOf dt).2 (intOf dt).1
      (extInt (intOf dt).1 (intOf dt).2 (clampInt lo hi i), if i < lo ∨ hi < i then fNV else if k.2 then fNX else 0) := by
  unfold cvtIn at hx
  simp only [cvtOf, hst, hdt, hx, Bool.false_eq_true, if_false, if_true]
  exact clamped_eq _ _ _ _ _

end

/-- From binary32 to the integers of 32 bits (06 R121). -/
theorem cvt_f32_word (r : RndS) (u na aa : Bool) {v : Nat} (hv : v < 2 ^ 32) :
    let x := f32.input r.ftz (f32.modify aa na v)
    let o := cvtOf r (if u then .n32 else .i32) .f32 na aa v
    (x.isNan = true → o.1.extractLsb' 0 32 = 0 ∧ o.2 = fNV)
    ∧ (∀ s, x = .inf s → ival u (o.1.extractLsb' 0 32) = (if s then intMin u 32 else intMax u 32) ∧ o.2 = fNV)
    ∧ (∀ s m e, x = .fin s m e →
      let k := roundAt r.rm s m e 0 false
      let i : Int := if s then -(k.1 : Int) else k.1
      ival u (o.1.extractLsb' 0 32) = max (intMin u 32) (min (intMax u 32) i)
      ∧ o.2 = if i < intMin u 32 ∨ intMax u 32 < i then fNV else if k.2 then fNX else 0) := by
  intro x
  have hle := intMin_le_intMax u 32
  have hin : cvtIn r .f32 na aa v = x := by
    show f32.input r.ftz (f32.modify aa na (v % 2 ^ 32)) = x
    rw [Nat.mod_eq_of_lt hv]
  generalize hdt : (if u then TypeCode.n32 else .i32) = dt
  obtain ⟨hd, hw, hu⟩ : dt.isFloat = false ∧ (intOf dt).1 = 32 ∧ (intOf dt).2 = u := by
    subst hdt
    cases u <;> exact ⟨rfl, rfl, rfl⟩
  rw [← hin]
  refine ⟨fun hx => ?_, fun s hx => ?_, fun s m e hx => ?_⟩
  · cases hn : cvtIn r .f32 na aa v with
    | nan q => rw [cvtOf_nan_int rfl hd hn]; exact ⟨rfl, rfl⟩
    | inf s => rw [hn] at hx; cases hx
    | fin s m e => rw [hn] at hx; cases hx
  · rw [cvtOf_inf_int rfl hd hx, hw, hu]
    cases s with
    | true => exact ⟨ival_extInt le_rfl hle, rfl⟩
    | false => exact ⟨ival_extInt hle le_rfl, rfl⟩
  · rw [cvtOf_fin_int rfl hd hx, hw, hu]
    intro k i
    refine ⟨?_, rfl⟩
    show ival u ((extInt 32 u (clampInt (intMin u 32) (intMax u 32) i)).extractLsb' 0 32) = _
    rw [clampInt_eq hle]
    exact ival_extInt (le_max_left _ _) (max_le hle (min_le_left _ _))

/-- Between the integer types (06 R121). -/
theorem cvt_int_int (r : RndS) (na aa : Bool) (v : Nat) {x y : TypeCode × Nat × Bool} (hx : x ∈ intTypes) (hy : y ∈ intTypes) :
    let i : Int := ival x.2.2 (BitVec.ofNat x.2.1 v)
    let o := cvtOf r y.1 x.1 na aa v
    let z : BitVec y.2.1 := BitVec.ofInt y.2.1 (if r.sat then max (intMin y.2.2 y.2.1) (min (intMax y.2.2 y.2.1) i) else i)
    o.2 = 0 ∧ BitVec.ofNat y.2.1 o.1.toNat = z ∧ (y.2.1 ≤ 32 → o.1.extractLsb' 0 32 = if y.2.2 then z.setWidth 32 else z.signExtend 32) := by
  obtain ⟨hxf, hxi, -⟩ := intTypes_spec hx
  obtain ⟨hyf, hyi, hyw⟩ := intTypes_spec hy
  intro i
  rw [cvtOf_int_int hxf hyf, hxi, hyi, ← clampInt_eq (intMin_le_intMax y.2.2 y.2.1) i]
  refine ⟨rfl, ofNat_extInt hyw _ _, fun hle => lowWord_extInt ?_ hle _ _⟩
  rcases hyw with h | h <;> omega

/-- From an integer type, the value rounded once (06 R121). -/
theorem cvt_int_float {r : RndS} (na aa : Bool) (v : Nat) {x : TypeCode × Nat × Bool} {y : TypeCode × Fmt} (hx : x ∈ intTypes) (hy : y ∈ floatTypes)
    (hs : r.sat = false) (hz : r.ftz = false) :
    let i : Int := ival x.2.2 (BitVec.ofNat x.2.1 v)
    cvtOf r y.1 x.1 na aa v =
      let q := y.2.round r.rm (decide (i < 0)) i.natAbs 0 false
      (BitVec.ofNat 64 q.1, q.2) := by
  obtain ⟨hxf, hxi, -⟩ := intTypes_spec hx
  obtain ⟨hyf, hyi⟩ := floatTypes_spec hy
  rw [cvtOf_int_float hxf hyf hs hz, hxi, hyi]

end Sys2Proof.Machine
end

