-- ==== Sys2Proof/Proofs/Formats.lean ====
section
/-! SUPPORT. The patterns of an IEEE format as values, and the rounding of a value that the format holds (04 R84, 06 R115). -/

namespace Sys2Proof.Machine

/- Binary lengths and scales. -/

/-- A power of two moves the first bit. -/
theorem bitLen_mul_two_pow {m : Nat} (hm : m ≠ 0) (a : Nat) : bitLen (m * 2 ^ a) = bitLen m + a := by
  have h : m * 2 ^ a ≠ 0 := Nat.mul_ne_zero hm (Nat.two_pow_pos a).ne'
  unfold bitLen
  rw [if_neg h, if_neg hm, (Nat.log2_eq_iff h (k := m.log2 + a)).mpr ⟨?_, ?_⟩]
  · omega
  · rw [pow_add]
    exact Nat.mul_le_mul_right _ (Nat.log2_self_le hm)
  · rw [show m.log2 + a + 1 = m.log2 + 1 + a by omega, pow_add]
    exact Nat.mul_lt_mul_of_pos_right Nat.lt_log2_self (Nat.two_pow_pos a)

/-- Below a power of two, by the number of bits. -/
theorem bitLen_le_iff {m k : Nat} : bitLen m ≤ k ↔ m < 2 ^ k := by
  by_cases hm : m = 0
  · subst hm
    exact ⟨fun _ => Nat.two_pow_pos k, fun _ => Nat.zero_le k⟩
  · unfold bitLen
    rw [if_neg hm, ← Nat.log2_lt hm]
    exact Nat.succ_le_iff

/-- Two forms of one value have their first bit at one place. -/
theorem dyEq_top {m d : Nat} {e q : Int} (h : dyEq m e d q) (hm : m ≠ 0) : d ≠ 0 ∧ e + bitLen m = q + bitLen d := by
  have h0 : m * 2 ^ (e - q).toNat ≠ 0 := Nat.mul_ne_zero hm (Nat.two_pow_pos _).ne'
  have hd : d ≠ 0 := fun hd => h0 (by rw [show m * 2 ^ (e - q).toNat = d * 2 ^ (q - e).toNat from h, hd, Nat.zero_mul])
  have hb := congrArg bitLen (show m * 2 ^ (e - q).toNat = d * 2 ^ (q - e).toNat from h)
  rw [bitLen_mul_two_pow hm, bitLen_mul_two_pow hd] at hb
  exact ⟨hd, by omega⟩

/-- A value is rounded to itself at a scale that holds it, in every mode. -/
theorem roundAt_exact (rm : RM) (s : Bool) {m d : Nat} {e q : Int} (h : dyEq m e d q) : roundAt rm s m e q false = (d, false) := by
  unfold dyEq at h
  unfold roundAt
  split
  · next hle =>
    rw [Int.toNat_of_nonpos (by omega : q - e ≤ 0), Nat.pow_zero, Nat.mul_one] at h
    rw [h]
  · next hlt =>
    rw [Int.toNat_of_nonpos (by omega : e - q ≤ 0), Nat.pow_zero, Nat.mul_one] at h
    have hdiv : m >>> (q - e).toNat = d := by rw [h, Nat.shiftRight_eq_div_pow, Nat.mul_div_cancel _ (Nat.two_pow_pos _)]
    have hmod : m % 2 ^ (q - e).toNat = 0 := by rw [h, Nat.mul_mod_left]
    have hup : roundUp rm s d 0 (q - e).toNat false = false := by
      cases rm with
      | rtz => rfl
      | rup => rfl
      | rdn => rfl
      | rne => simp [roundUp, (Nat.two_pow_pos _).ne]
    simp only [hdiv, hmod, hup]
    rfl

/- Patterns. -/

/-- The formats of CVT: at least two bits of exponent and one of mantissa, in 64 bits. -/
def Fmt.Wide (f : Fmt) : Prop := 2 ≤ f.eb ∧ 1 ≤ f.mb ∧ f.width ≤ 64

theorem floatTypes_wide {x : TypeCode × Fmt} (h : x ∈ floatTypes) : x.2.Wide := by
  unfold Fmt.Wide
  exact (by decide : ∀ y ∈ floatTypes, 2 ≤ y.2.eb ∧ 1 ≤ y.2.mb ∧ y.2.width ≤ 64) x h

theorem f32_wide : f32.Wide := by unfold Fmt.Wide; decide

/-- Sign, exponent field and mantissa field. -/
def Fmt.join (f : Fmt) (s : Bool) (E M : Nat) : Nat := f.signBit s + (E * 2 ^ f.mb + M)

theorem Fmt.field_lt (f : Fmt) {E M : Nat} (hE : E < 2 ^ f.eb) (hM : M < 2 ^ f.mb) : E * 2 ^ f.mb + M < 2 ^ (f.eb + f.mb) := by
  calc E * 2 ^ f.mb + M < (E + 1) * 2 ^ f.mb := by rw [Nat.succ_mul]; omega
    _ ≤ 2 ^ f.eb * 2 ^ f.mb := Nat.mul_le_mul_right _ hE
    _ = 2 ^ (f.eb + f.mb) := (pow_add 2 _ _).symm

theorem Fmt.signBit_eq (f : Fmt) (s : Bool) : f.signBit s = 2 ^ (f.eb + f.mb) * s.toNat := by
  cases s <;> simp [Fmt.signBit]

theorem Fmt.join_lt (f : Fmt) (s : Bool) {E M : Nat} (hE : E < 2 ^ f.eb) (hM : M < 2 ^ f.mb) : f.join s E M < 2 ^ f.width := by
  have h := f.field_lt hE hM
  have hw : 2 ^ f.width = 2 * 2 ^ (f.eb + f.mb) := by
    unfold Fmt.width
    rw [Nat.add_assoc, pow_add, pow_one]
  unfold Fmt.join Fmt.signBit
  split <;> omega

/-- Every pattern has the three parts. -/
theorem Fmt.eq_join (f : Fmt) {v : Nat} (hv : v < 2 ^ f.width) :
    v = f.join (v.testBit (f.eb + f.mb)) ((v >>> f.mb) % 2 ^ f.eb) (v % 2 ^ f.mb) := by
  have hlow : v % 2 ^ (f.eb + f.mb) = (v >>> f.mb) % 2 ^ f.eb * 2 ^ f.mb + v % 2 ^ f.mb := by
    rw [Nat.shiftRight_eq_div_pow, Nat.add_comm f.eb, pow_add, Nat.mod_mul, Nat.add_comm, Nat.mul_comm]
  have hhigh : v / 2 ^ (f.eb + f.mb) < 2 := by
    rw [Nat.div_lt_iff_lt_mul (Nat.two_pow_pos _)]
    unfold Fmt.width at hv
    rwa [Nat.add_assoc, pow_add, pow_one] at hv
  have hsign : f.signBit (v.testBit (f.eb + f.mb)) = 2 ^ (f.eb + f.mb) * (v / 2 ^ (f.eb + f.mb)) := by
    rw [Fmt.signBit_eq, Nat.testBit_eq_decide_div_mod_eq, Nat.mod_eq_of_lt hhigh]
    congr 1
    generalize v / 2 ^ (f.eb + f.mb) = b at hhigh
    interval_cases b <;> rfl
  unfold Fmt.join
  rw [← hlow, hsign, Nat.div_add_mod]

/-- The value of a pattern by its parts. -/
theorem Fmt.unpack_join (f : Fmt) (s : Bool) {E M : Nat} (hE : E < 2 ^ f.eb) (hM : M < 2 ^ f.mb) :
    f.unpack (f.join s E M) = if E = 2 ^ f.eb - 1 then (if M = 0 then .inf s else .nan (!M.testBit (f.mb - 1)))
      else if E = 0 then .fin s M f.lsb else .fin s (2 ^ f.mb + M) (f.lsb + E - 1) := by
  have hlt := f.field_lt hE hM
  have hs : (f.join s E M).testBit (f.eb + f.mb) = s := by
    unfold Fmt.join
    rw [Fmt.signBit_eq, Nat.testBit_two_pow_mul_add _ hlt, if_neg (lt_irrefl _), Nat.sub_self]
    cases s <;> rfl
  have hj : f.join s E M = 2 ^ f.mb * (2 ^ f.eb * s.toNat + E) + M := by
    unfold Fmt.join
    rw [Fmt.signBit_eq, pow_add]
    ring
  have he : (f.join s E M >>> f.mb) % 2 ^ f.eb = E := by
    rw [hj, Nat.shiftRight_eq_div_pow, Nat.mul_add_div (Nat.two_pow_pos _), Nat.div_eq_of_lt hM, Nat.add_zero, Nat.mul_add_mod, Nat.mod_eq_of_lt hE]
  have hm : f.join s E M % 2 ^ f.mb = M := by rw [hj, Nat.mul_add_mod, Nat.mod_eq_of_lt hM]
  unfold Fmt.unpack
  simp only [hs, he, hm]

/- Values that a format holds. -/

/-- The mantissa and scale of a pattern of the format: of full length, but at the least scale. -/
def Fmt.Holds (f : Fmt) (d : Nat) (q : Int) : Prop := d < 2 ^ (f.mb + 1) ∧ f.lsb ≤ q ∧ (q = f.lsb ∨ 2 ^ f.mb ≤ d) ∧ q + f.mb ≤ f.bias

/-- The infinities. -/
theorem Fmt.unpack_infBits (f : Fmt) (s : Bool) : f.unpack (f.signBit s + f.infBits) = .inf s ∧ f.signBit s + f.infBits < 2 ^ f.width := by
  have hE : 2 ^ f.eb - 1 < 2 ^ f.eb := Nat.sub_lt (Nat.two_pow_pos _) (by decide)
  have hu := f.unpack_join s hE (Nat.two_pow_pos _)
  rw [if_pos rfl, if_pos rfl] at hu
  exact ⟨hu, f.join_lt s hE (Nat.two_pow_pos _)⟩

/-- A value that the format holds is rounded to itself, in every mode and with no flag. -/
theorem Fmt.round_holds {f : Fmt} (rm : RM) (s : Bool) {m d : Nat} {e q : Int} (h : f.Holds d q) (he : dyEq m e d q) :
    f.round rm s m e false = (f.signBit s + f.valueBits d q, 0) := by
  by_cases hm : m = 0
  · have hd : d = 0 := by
      have h0 : d * 2 ^ (q - e).toNat = 0 := by
        rw [← show m * 2 ^ (e - q).toNat = d * 2 ^ (q - e).toNat from he, hm, Nat.zero_mul]
      exact (Nat.mul_eq_zero.mp h0).resolve_right (Nat.two_pow_pos _).ne'
    rw [hm, hd]
    unfold Fmt.valueBits
    rw [if_pos (Nat.two_pow_pos _)]
    rfl
  · obtain ⟨hd, hq, hn, hq'⟩ := h
    obtain ⟨hd0, htop⟩ := dyEq_top he hm
    have hlen : bitLen d ≤ f.mb + 1 := bitLen_le_iff.mpr hd
    have hfull : q = f.lsb ∨ f.mb < bitLen d := hn.imp_right fun hn => not_le.mp fun hc => absurd (bitLen_le_iff.mp hc) (by omega)
    have hunit : (if e + bitLen m - (f.mb + 1) < f.lsb then f.lsb else e + bitLen m - (f.mb + 1)) = q := by
      split <;> omega
    simp only [Fmt.round, hunit, roundAt_exact rm s he]
    rw [if_neg (by simpa using hm)]
    simp only [hd.ne, if_false]
    rw [if_neg (by omega)]
    simp only [Bool.and_false]
    rfl

section
variable {f : Fmt} (hf : f.Wide)
include hf

theorem Fmt.Wide.bias_eq : (2 ^ f.eb : Nat) = 2 * f.bias + 2 ∧ 1 ≤ f.bias := by
  obtain ⟨heb, -, -⟩ := hf
  have h1 : 2 ^ f.eb = 2 * 2 ^ (f.eb - 1) := by rw [← pow_succ', Nat.sub_add_cancel (by omega)]
  have h2 : 2 ^ 1 ≤ 2 ^ (f.eb - 1) := Nat.pow_le_pow_right (by decide) (by omega)
  unfold Fmt.bias
  omega

theorem Fmt.holds_zero : f.Holds 0 f.lsb := by
  obtain ⟨-, hb⟩ := hf.bias_eq
  refine ⟨Nat.two_pow_pos _, le_rfl, .inl rfl, ?_⟩
  unfold Fmt.lsb
  omega

/-- The bits of a value that the format holds are an exponent field below the greatest and a mantissa field. -/
theorem Fmt.Holds.fields {d : Nat} {q : Int} (h : f.Holds d q) : ∃ E M, E < 2 ^ f.eb - 1 ∧ M < 2 ^ f.mb ∧ f.valueBits d q = E * 2 ^ f.mb + M
    ∧ if E = 0 then d = M ∧ q = f.lsb else d = 2 ^ f.mb + M ∧ q = f.lsb + E - 1 := by
  obtain ⟨hd, hq, hn, hq'⟩ := h
  obtain ⟨hb, hb1⟩ := hf.bias_eq
  rw [pow_succ] at hd
  unfold Fmt.valueBits
  by_cases hs : d < 2 ^ f.mb
  · refine ⟨0, d, by omega, hs, by rw [if_pos hs, Nat.zero_mul, Nat.zero_add], ?_⟩
    rw [if_pos rfl]
    exact ⟨rfl, hn.resolve_right (by omega)⟩
  · refine ⟨(q - f.lsb + 1).toNat, d - 2 ^ f.mb, ?_, by omega, if_neg hs, ?_⟩
    · unfold Fmt.lsb
      omega
    · rw [if_neg (by omega)]
      omega

theorem Fmt.unpack_value (s : Bool) {d : Nat} {q : Int} (h : f.Holds d q) :
    f.unpack (f.signBit s + f.valueBits d q) = .fin s d q ∧ f.signBit s + f.valueBits d q < 2 ^ f.width := by
  obtain ⟨E, M, hE, hM, hv, hdq⟩ := h.fields hf
  have hu := f.unpack_join s (by omega : E < 2 ^ f.eb) hM
  rw [if_neg (by omega)] at hu
  rw [hv]
  refine ⟨hu.trans ?_, f.join_lt s (by omega) hM⟩
  by_cases hE0 : E = 0
  · rw [if_pos hE0] at hdq ⊢
    rw [hdq.1, hdq.2]
  · rw [if_neg hE0] at hdq ⊢
    rw [hdq.1, hdq.2]

/-- A finite value and its pattern. -/
theorem Fmt.of_unpack_fin {v : Nat} (hv : v < 2 ^ f.width) {s : Bool} {m : Nat} {e : Int} (h : f.unpack v = .fin s m e) :
    f.Holds m e ∧ v = f.signBit s + f.valueBits m e := by
  obtain ⟨hb, hb1⟩ := hf.bias_eq
  have hvj := f.eq_join hv
  generalize v.testBit (f.eb + f.mb) = s' at hvj
  generalize hE' : (v >>> f.mb) % 2 ^ f.eb = E at hvj
  generalize hM' : v % 2 ^ f.mb = M at hvj
  have hE : E < 2 ^ f.eb := hE' ▸ Nat.mod_lt _ (Nat.two_pow_pos _)
  have hM : M < 2 ^ f.mb := hM' ▸ Nat.mod_lt _ (Nat.two_pow_pos _)
  have hval : f.valueBits M f.lsb = M := if_pos hM
  rw [hvj, f.unpack_join s' hE hM] at h
  split_ifs at h with h1 h2 h3
  · obtain ⟨rfl, rfl, rfl⟩ := FVal.fin.inj h
    refine ⟨⟨hM.trans (Nat.pow_lt_pow_right (by decide) (Nat.lt_succ_self _)), le_rfl, .inl rfl, by unfold Fmt.lsb; omega⟩, ?_⟩
    rw [hvj, hval]
    unfold Fmt.join
    rw [h3, Nat.zero_mul, Nat.zero_add]
  · obtain ⟨rfl, rfl, rfl⟩ := FVal.fin.inj h
    refine ⟨⟨by rw [pow_succ]; omega, by omega, .inr (by omega), by unfold Fmt.lsb; omega⟩, ?_⟩
    rw [hvj]
    unfold Fmt.join Fmt.valueBits
    rw [if_neg (by omega), show (f.lsb + (E : Int) - 1 - f.lsb + 1).toNat = E by omega, Nat.add_sub_cancel_left]

/-- A value of no more bits than the mantissa has, in the range of the exponents, is one that the format holds. -/
theorem Fmt.exists_holds {m : Nat} {e : Int} (hl : bitLen m ≤ f.mb + 1) (he : f.lsb ≤ e) (ht : e + bitLen m ≤ f.bias + 1) :
    ∃ d q, f.Holds d q ∧ dyEq m e d q := by
  by_cases hm : m = 0
  · subst hm
    exact ⟨0, f.lsb, f.holds_zero hf, by simp [dyEq]⟩
  · obtain ⟨-, hb1⟩ := hf.bias_eq
    set j := min (f.mb + 1 - bitLen m) (e - f.lsb).toNat with hj
    have hlen : bitLen (m * 2 ^ j) = bitLen m + j := bitLen_mul_two_pow hm j
    refine ⟨m * 2 ^ j, e - j, ⟨bitLen_le_iff.mp (by omega), by omega, ?_, ?_⟩, ?_⟩
    · by_cases hc : j = f.mb + 1 - bitLen m
      · exact .inr (not_lt.mp fun hlt => by have := bitLen_le_iff.mpr hlt; omega)
      · exact .inl (by omega)
    · unfold Fmt.lsb at *
      omega
    · unfold dyEq
      rw [show (e - (e - (j : Int))).toNat = j by omega, show (e - (j : Int) - e).toNat = 0 by omega, Nat.pow_zero, Nat.mul_one]

/-- Such a value is rounded to a pattern of the same value. -/
theorem Fmt.round_fits (rm : RM) (s : Bool) {m : Nat} {e : Int} (hl : bitLen m ≤ f.mb + 1) (he : f.lsb ≤ e) (ht : e + bitLen m ≤ f.bias + 1) :
    ∃ d q, f.unpack (f.round rm s m e false).1 = .fin s d q ∧ dyEq m e d q ∧ (f.round rm s m e false).2 = 0
      ∧ (f.round rm s m e false).1 < 2 ^ f.width ∧ f.Holds d q := by
  obtain ⟨d, q, hh, hdy⟩ := f.exists_holds hf hl he ht
  obtain ⟨hu, hlt⟩ := f.unpack_value hf s hh
  rw [Fmt.round_holds rm s hh hdy]
  exact ⟨d, q, hu, hdy, rfl, hlt, hh⟩

end

/-- The values of a format, in the terms of `Fmt.round_fits`. -/
theorem Fmt.Holds.top {f : Fmt} {d : Nat} {q : Int} (h : f.Holds d q) : bitLen d ≤ f.mb + 1 ∧ f.lsb ≤ q ∧ q + bitLen d ≤ f.bias + 1 := by
  obtain ⟨hd, hq, -, hq'⟩ := h
  have := bitLen_le_iff.mpr hd
  exact ⟨this, hq, by omega⟩

end Sys2Proof.Machine
end

