-- ==== Sys2Proof/Proofs/FloatConversions.lean ====
section
/-! PROOF, of O13, third part. Conversions between the floating-point types, and into the 16-bit slots (06 R121, R122). -/

namespace Sys2Proof.Machine

/-- A source without modifiers and flushing is its pattern's value. -/
theorem cvtIn_plain {r : RndS} {st : TypeCode} {v : Nat} (hz : r.ftz = false) (hv : v < 2 ^ (fmtOf st).width) :
    cvtIn r st false false v = (fmtOf st).unpack v := by
  unfold cvtIn Fmt.input Fmt.modify
  rw [hz, Nat.mod_eq_of_lt hv, Bool.false_and]
  rfl

/-- CVT between floating-point types, without saturation: the value packed once. -/
theorem cvtOf_float_float {r : RndS} {dt st : TypeCode} {na aa : Bool} {v : Nat} (hst : st.isFloat = true) (hdt : dt.isFloat = true)
    (hs : r.sat = false) : cvtOf r dt st na aa v =
      let p := (fmtOf dt).flush r.ftz ((fmtOf dt).pack r.rm (cvtIn r st na aa v))
      (BitVec.ofNat 64 p.1, p.2 ||| flagIf (cvtIn r st na aa v).isSig fNV) := by
  simp only [cvtOf, cvtIn, hst, hdt, hs, if_true, Bool.false_eq_true, if_false]

theorem Fmt.pack_nan (f : Fmt) (rm : RM) (sig : Bool) : f.pack rm (.nan sig) = (f.nanBits, 0) := rfl
theorem Fmt.pack_inf (f : Fmt) (rm : RM) (s : Bool) : f.pack rm (.inf s) = (f.signBit s + f.infBits, 0) := rfl
theorem Fmt.pack_fin (f : Fmt) (rm : RM) (s : Bool) (m : Nat) (e : Int) : f.pack rm (.fin s m e) = f.round rm s m e false := rfl

/-- A format that is as wide in both fields holds the values of the other. -/
theorem Fmt.Holds.widen {f g : Fmt} (he : f.eb ≤ g.eb) (hm : f.mb ≤ g.mb) {d : Nat} {q : Int} (h : f.Holds d q) :
    bitLen d ≤ g.mb + 1 ∧ g.lsb ≤ q ∧ q + bitLen d ≤ g.bias + 1 := by
  obtain ⟨h1, h2, h3⟩ := h.top
  have hb : f.bias ≤ g.bias := by
    have : 2 ^ (f.eb - 1) ≤ 2 ^ (g.eb - 1) := Nat.pow_le_pow_right (by decide) (by omega)
    unfold Fmt.bias
    omega
  refine ⟨by omega, ?_, by omega⟩
  unfold Fmt.lsb at *
  omega

/-- Between the floating-point types (06 R121). -/
theorem cvt_float_float {r : RndS} {v : Nat} {x y : TypeCode × Fmt} (hx : x ∈ floatTypes) (hy : y ∈ floatTypes) (hs : r.sat = false)
    (hz : r.ftz = false) (hv : v < 2 ^ x.2.width) :
    let o := cvtOf r y.1 x.1 false false v
    (∀ sig, x.2.unpack v = .nan sig → o = (BitVec.ofNat 64 y.2.nanBits, if sig then fNV else 0))
    ∧ (∀ s, x.2.unpack v = .inf s → y.2.unpack o.1.toNat = .inf s ∧ o.2 = 0)
    ∧ (∀ s m e, x.2.unpack v = .fin s m e →
      (x.2.eb ≤ y.2.eb → x.2.mb ≤ y.2.mb → o.2 = 0 ∧ ∃ k q, y.2.unpack o.1.toNat = .fin s k q ∧ dyEq k q m e)
      ∧ (x = y → o.1.toNat = v)
      ∧ o = let q := y.2.round r.rm s m e false
        (BitVec.ofNat 64 q.1, q.2)) := by
  obtain ⟨hxf, hxi⟩ := floatTypes_spec hx
  obtain ⟨hyf, hyi⟩ := floatTypes_spec hy
  have hxw := floatTypes_wide hx
  have hyw := floatTypes_wide hy
  have hin : cvtIn r x.1 false false v = x.2.unpack v := by rw [← hxi]; exact cvtIn_plain hz (hxi ▸ hv)
  have h64 {f : Fmt} (hf : f.Wide) {n : Nat} (hn : n < 2 ^ f.width) : (BitVec.ofNat 64 n).toNat = n := by
    rw [BitVec.toNat_ofNat]
    exact Nat.mod_eq_of_lt (hn.trans_le (Nat.pow_le_pow_right (by decide) hf.2.2))
  rw [cvtOf_float_float hxf hyf hs, hyi, hin, hz, Fmt.flush_false]
  refine ⟨fun sig h => ?_, fun s h => ?_, fun s m e h => ?_⟩
  · rw [h, Fmt.pack_nan]
    exact congrArg (Prod.mk _) BitVec.zero_or
  · rw [h, Fmt.pack_inf]
    obtain ⟨hu, hlt⟩ := y.2.unpack_infBits s
    exact ⟨(congrArg y.2.unpack (h64 hyw hlt)).trans hu, BitVec.zero_or⟩
  · obtain ⟨hh, hvb⟩ := Fmt.of_unpack_fin hxw hv h
    rw [h, Fmt.pack_fin]
    have hflags : (y.2.round r.rm s m e false).2 ||| flagIf (FVal.fin s m e).isSig fNV = (y.2.round r.rm s m e false).2 := BitVec.or_zero
    refine ⟨fun heb hmb => ?_, fun hxy => ?_, congrArg (Prod.mk _) hflags⟩
    · obtain ⟨h1, h2, h3⟩ := hh.widen heb hmb
      obtain ⟨d, q, hu, hdy, h0, hlt, -⟩ := Fmt.round_fits hyw r.rm s h1 h2 h3
      refine ⟨hflags.trans h0, d, q, ?_, hdy.symm⟩
      rw [← hu]
      exact congrArg _ (h64 hyw hlt)
    · subst hxy
      have hr := Fmt.round_holds r.rm s hh (rfl : dyEq m e m e)
      show (BitVec.ofNat 64 (x.2.round r.rm s m e false).1).toNat = v
      rw [hr, ← hvb, h64 hxw hv]

/-- CVTN into a 16-bit slot is CVT into its format (06 R122). -/
theorem cvtn_half {r : RndS} {w : W32} {dt : TypeCode} (na aa : Bool) (v : Nat) (hs : r.sat = false) (hd : dt.isFloat = true)
    (hk : slotKind w ≠ 1) (hf : (if slotKind w = 2 then f16 else bf16) = fmtOf dt) :
    cvtnOf r .f32 w na aa v = ((cvtOf r dt .f32 na aa v).1.extractLsb' 0 32, (cvtOf r dt .f32 na aa v).2) := by
  have hlow (n : Nat) : (BitVec.ofNat 64 n).extractLsb' 0 32 = BitVec.ofNat 32 n := by
    apply BitVec.eq_of_toNat_eq
    rw [BitVec.extractLsb'_toNat, BitVec.toNat_ofNat, BitVec.toNat_ofNat, Nat.shiftRight_zero]
    omega
  rw [cvtOf_float_float rfl hd hs, hlow]
  unfold cvtnOf
  split
  · next h => exact absurd h hk
  · rw [hf]
    simp only [satFinite, hs, Bool.false_and, Bool.false_eq_true, if_false]
    rfl

end Sys2Proof.Machine
end

