-- ==== Sys2Proof/Proofs/Scales.lean ====
section
/-! SUPPORT. The error of one rounding, toward zero and to nearest, on one scale for all values of binary32 (06 R115). -/

namespace Sys2Proof.Machine

/-- A value as a multiple of 2^-150. -/
def scaled (m : Nat) (e : Int) : Nat := m * 2 ^ (e + 150).toNat

theorem scaled_lower (m : Nat) {e q : Int} (he : -150 ≤ e) (h : e ≤ q) : scaled m q = m * 2 ^ (q - e).toNat * 2 ^ (e + 150).toNat := by
  unfold scaled
  rw [Nat.mul_assoc, ← pow_add]
  congr 2
  omega

theorem scaled_one_mono {e q : Int} (h : e ≤ q) : scaled 1 e ≤ scaled 1 q := by
  unfold scaled
  exact Nat.mul_le_mul_left _ (Nat.pow_le_pow_right (by decide) (by omega))

theorem scaled_eq (m : Nat) (e : Int) : scaled m e = m * scaled 1 e := by rw [scaled, scaled, Nat.one_mul]

/-- Forms of one value have one place on the scale. -/
theorem dyEq_iff_scaled {m d : Nat} {e q : Int} (he : -150 ≤ e) (hq : -150 ≤ q) : dyEq m e d q ↔ scaled m e = scaled d q := by
  unfold dyEq
  rcases le_total e q with hle | hle
  · rw [Int.toNat_of_nonpos (by omega : e - q ≤ 0), Nat.pow_zero, Nat.mul_one, scaled_lower d he hle]
    exact (Nat.mul_left_inj (Nat.two_pow_pos _).ne').symm
  · rw [Int.toNat_of_nonpos (by omega : q - e ≤ 0), Nat.pow_zero, Nat.mul_one, scaled_lower m hq hle]
    exact (Nat.mul_left_inj (Nat.two_pow_pos _).ne').symm

/-- A rounding is exact where the rounded value is the value. -/
theorem roundAt_exact_iff (rm : RM) (s : Bool) (m : Nat) (e q : Int) :
    (roundAt rm s m e q false).2 = false ↔ dyEq m e (roundAt rm s m e q false).1 q := by
  refine ⟨fun h => ?_, fun h => congrArg Prod.snd (roundAt_exact rm s h)⟩
  by_cases hle : q ≤ e
  · have hr : roundAt rm s m e q false = (m * 2 ^ (e - q).toNat, false) := if_pos hle
    rw [hr, dyEq, Int.toNat_of_nonpos (by omega : q - e ≤ 0), Nat.pow_zero, Nat.mul_one]
  · have hmod : m % 2 ^ (q - e).toNat = 0 := by
      unfold roundAt at h
      rw [if_neg hle] at h
      simpa using h
    have hdy : dyEq m e (m / 2 ^ (q - e).toNat) q := by
      rw [dyEq, Int.toNat_of_nonpos (by omega : e - q ≤ 0), Nat.pow_zero, Nat.mul_one, Nat.div_mul_cancel (Nat.dvd_of_mod_eq_zero hmod)]
    rw [roundAt_exact rm s hdy]
    exact hdy

/-- D for X in units of U: not above it and within a unit, or within half a unit. -/
def Close (rtz : Bool) (X D U : Nat) : Prop := if rtz then D ≤ X ∧ X < D + U else 2 * D ≤ 2 * X + U ∧ 2 * X ≤ 2 * D + U

theorem close_refl (rtz : Bool) {X U : Nat} (hU : 0 < U) : Close rtz X X U := by
  unfold Close
  split <;> omega

/-- In every mode less than a unit below, and at most half of one above. -/
theorem Close.weaken {rtz : Bool} {X D U : Nat} (h : Close rtz X D U) (hU : 0 < U) : X < D + U ∧ 2 * D ≤ 2 * X + U := by
  unfold Close at h
  split at h <;> omega

theorem Close.mono {rtz : Bool} {X D U V : Nat} (h : Close rtz X D U) (hUV : U ≤ V) : Close rtz X D V := by
  unfold Close at *
  split at h
  · next hr => rw [if_pos hr]; omega
  · next hr => rw [if_neg hr]; omega

theorem Close.mul {rtz : Bool} {X D U P : Nat} (h : Close rtz X D U) (hP : 0 < P) : Close rtz (X * P) (D * P) (U * P) := by
  unfold Close at *
  split at h
  · next hr =>
    rw [if_pos hr, ← Nat.add_mul]
    exact ⟨Nat.mul_le_mul_right P h.1, Nat.mul_lt_mul_of_pos_right h.2 hP⟩
  · next hr =>
    rw [if_neg hr, ← Nat.mul_assoc, ← Nat.mul_assoc, ← Nat.add_mul, ← Nat.add_mul]
    exact ⟨Nat.mul_le_mul_right P h.1, Nat.mul_le_mul_right P h.2⟩

/-- The rounding modes of a slot (04 R88). -/
def slotRm (rtz : Bool) : RM := if rtz then .rtz else .rne

/-- The quotient by 2^(k+1), rounded. -/
theorem quotient_close (rtz : Bool) (m k : Nat) :
    Close rtz m ((if roundUp (slotRm rtz) false (m / 2 ^ (k + 1)) (m % 2 ^ (k + 1)) (k + 1) false then m / 2 ^ (k + 1) + 1 else m / 2 ^ (k + 1)) * 2 ^ (k + 1))
      (2 ^ (k + 1)) := by
  have hdm := Nat.div_add_mod m (2 ^ (k + 1))
  have hlt := Nat.mod_lt m (Nat.two_pow_pos (k + 1))
  cases rtz with
  | true =>
    show _ * 2 ^ (k + 1) ≤ m ∧ m < _ * 2 ^ (k + 1) + 2 ^ (k + 1)
    rw [show roundUp (slotRm true) false (m / 2 ^ (k + 1)) (m % 2 ^ (k + 1)) (k + 1) false = false from rfl, if_neg Bool.false_ne_true, Nat.mul_comm]
    omega
  | false =>
    have h2 : 2 ^ (k + 1) = 2 * 2 ^ k := pow_succ' 2 k
    have hup := roundUp_rne_iff false (m / 2 ^ (k + 1)) (m % 2 ^ (k + 1)) k false
    have hdn := roundUp_rne_down (s := false) (q := m / 2 ^ (k + 1)) (r := m % 2 ^ (k + 1)) (k := k) (sticky := false)
    show 2 * _ ≤ 2 * m + 2 ^ (k + 1) ∧ 2 * m ≤ 2 * _ + 2 ^ (k + 1)
    rw [show slotRm false = .rne from rfl]
    generalize roundUp .rne false (m / 2 ^ (k + 1)) (m % 2 ^ (k + 1)) (k + 1) false = up at hup hdn ⊢
    obtain ⟨b1, b2⟩ := half_bounds (m := m) (D := m / 2 ^ (k + 1)) (r := m % 2 ^ (k + 1)) (H := 2 ^ k) (by rw [← h2, Nat.mul_comm]; omega) (by omega)
      false up (fun h => by rcases hup.mp h with h | h <;> omega) hdn
    generalize (if up then m / 2 ^ (k + 1) + 1 else m / 2 ^ (k + 1)) = d at b1 b2 ⊢
    have e1 : (2 * d + 1) * 2 ^ k = d * 2 ^ (k + 1) + 2 ^ k := by rw [h2]; ring
    have e2 : d * 2 ^ (k + 1) ≤ (2 * d - 1) * 2 ^ k + 2 ^ k := by
      rw [h2, ← Nat.succ_mul, ← Nat.mul_assoc, Nat.mul_comm d 2]
      exact Nat.mul_le_mul_right _ (by omega)
    omega

/-- The error of a rounding to a multiple of 2^q. -/
theorem roundAt_close (rtz : Bool) (m : Nat) {e q : Int} (he : -150 ≤ e) (hq : -150 ≤ q) :
    Close rtz (scaled m e) (scaled (roundAt (slotRm rtz) false m e q false).1 q) (scaled 1 q) := by
  by_cases hle : q ≤ e
  · have hr : roundAt (slotRm rtz) false m e q false = (m * 2 ^ (e - q).toNat, false) := if_pos hle
    rw [hr, scaled_lower m hq hle]
    exact close_refl rtz (Nat.mul_pos one_pos (Nat.two_pow_pos _))
  · obtain ⟨k, hk⟩ : ∃ k, (q - e).toNat = k + 1 := ⟨(q - e).toNat - 1, by omega⟩
    have hD (d : Nat) : scaled d q = d * 2 ^ (k + 1) * 2 ^ (e + 150).toNat := by rw [scaled_lower d he (by omega), hk]
    simp only [roundAt, if_neg hle, hk, hD, Nat.one_mul, Nat.shiftRight_eq_div_pow]
    exact (quotient_close rtz m k).mul (Nat.two_pow_pos _)

end Sys2Proof.Machine
end

