-- ==== Sys2Proof/Proofs/Slots.lean ====
section
/-! SUPPORT. The codes of a narrow format slot as values, and what a value is encoded to (04 R86 to R89). -/

namespace Sys2Proof.Machine

/-- The fields of a slot's codes. -/
def slotFmt (w : W32) : Fmt := ⟨slotE w, slotM w⟩

/-- The scale of the least subnormal of a slot. -/
def slotLsb (w : W32) : Int := 1 - slotBias w - slotM w

/- A code as a value (04 R86). -/

def slotSign (w : W32) (c : Nat) : Bool := slotS w = 1 && c.testBit (slotE w + slotM w)
def slotMant (w : W32) (c : Nat) : Nat := c % 2 ^ slotM w + if c / 2 ^ slotM w % 2 ^ slotE w = 0 then 0 else 2 ^ slotM w
def slotUnit (w : W32) (c : Nat) : Int := max ((c / 2 ^ slotM w % 2 ^ slotE w : Nat) : Int) 1 - slotBias w - slotM w

/-- The one NaN of a signed slot: the pattern of minus zero. -/
def SlotNan (w : W32) (c : Nat) : Prop := slotS w = 1 ∧ c = 2 ^ (slotE w + slotM w)

/-- The exponent and mantissa fields of d × 2^q, in multiples of the least subnormal. -/
def slotCode (w : W32) (d : Nat) (q : Int) : Nat := (q - slotLsb w).toNat * 2 ^ slotM w + d

theorem slotValid_spec {w : W32} (hk : slotKind w = 1) (hv : slotValid w = true) :
    slotWidth w ≤ 8 ∧ slotS w ≤ 1 ∧ ((2 ^ slotE w : Nat) : Int) - slotBias w ≤ 128 ∧ -149 ≤ slotLsb w := by
  have hS : slotS w < 2 := Nat.mod_lt _ (by decide)
  unfold slotValid at hv
  simp only [hk, Bool.and_eq_true, decide_eq_true_eq] at hv
  unfold slotLsb
  omega

theorem slotE_add_slotM_le {w : W32} (h : slotWidth w ≤ 8) : slotE w + slotM w ≤ 8 := by
  unfold slotWidth at h
  omega

/-- A code of a slot has at most the bits of a signed one. -/
theorem slotWidth_bound {w : W32} (hS : slotS w ≤ 1) {c : Nat} (hc : c < 2 ^ slotWidth w) : c < 2 ^ (slotFmt w).width := by
  refine hc.trans_le (Nat.pow_le_pow_right (by decide) ?_)
  show slotS w + slotE w + slotM w ≤ 1 + slotE w + slotM w
  omega

/-- The parts of a code. -/
theorem slot_parts {w : W32} (hS : slotS w ≤ 1) {c : Nat} (hc : c < 2 ^ slotWidth w) :
    c = (if slotSign w c then 2 ^ (slotE w + slotM w) else 0) + slotCode w (slotMant w c) (slotUnit w c)
      ∧ slotCode w (slotMant w c) (slotUnit w c) < 2 ^ (slotE w + slotM w) := by
  have hj := (slotFmt w).eq_join (slotWidth_bound hS hc)
  have hlt := (slotFmt w).field_lt (Nat.mod_lt (c >>> slotM w) (Nat.two_pow_pos _)) (Nat.mod_lt c (Nat.two_pow_pos _))
  have hcode : slotCode w (slotMant w c) (slotUnit w c) = (c >>> slotM w) % 2 ^ slotE w * 2 ^ slotM w + c % 2 ^ slotM w := by
    rw [Nat.shiftRight_eq_div_pow]
    unfold slotCode slotMant slotUnit slotLsb
    generalize c / 2 ^ slotM w % 2 ^ slotE w = E
    by_cases hE : E = 0
    · subst hE
      simp
    · obtain ⟨k, rfl⟩ := Nat.exists_eq_succ_of_ne_zero hE
      rw [if_neg hE, show (max ((k.succ : Nat) : Int) 1 - slotBias w - slotM w - (1 - slotBias w - slotM w)).toNat = k by omega, Nat.succ_mul]
      omega
  have hsign : c.testBit (slotE w + slotM w) = slotSign w c := by
    unfold slotSign
    by_cases h1 : slotS w = 1
    · rw [decide_eq_true h1, Bool.true_and]
    · rw [decide_eq_false h1, Bool.false_and]
      refine Nat.testBit_lt_two_pow ?_
      rwa [slotWidth, show slotS w = 0 by omega, Nat.zero_add] at hc
  rw [hcode]
  refine ⟨?_, hlt⟩
  rw [← hsign]
  exact hj

/-- What the value of a code is like: of full length but at the least scale, and in the range of binary32. -/
theorem slot_bounds {w : W32} (hb : ((2 ^ slotE w : Nat) : Int) - slotBias w ≤ 128) (c : Nat) :
    slotMant w c < 2 ^ (slotM w + 1) ∧ slotLsb w ≤ slotUnit w c
      ∧ (slotUnit w c = slotLsb w ∨ slotE w ≠ 0 ∧ 2 ^ slotM w ≤ slotMant w c) ∧ slotUnit w c + bitLen (slotMant w c) ≤ 128 := by
  have hM := Nat.mod_lt c (Nat.two_pow_pos (slotM w))
  have hE := Nat.mod_lt (c / 2 ^ slotM w) (Nat.two_pow_pos (slotE w))
  have hE0 : slotE w = 0 → c / 2 ^ slotM w % 2 ^ slotE w = 0 := fun h => by rw [h, Nat.pow_zero, Nat.mod_one]
  unfold slotMant slotUnit slotLsb
  generalize c / 2 ^ slotM w % 2 ^ slotE w = E at *
  by_cases hz : E = 0
  · rw [if_pos hz, Nat.add_zero]
    have hlen := bitLen_le_iff.mpr hM
    exact ⟨hM.trans (Nat.pow_lt_pow_right (by decide) (Nat.lt_succ_self _)), by omega, .inl (by omega), by omega⟩
  · rw [if_neg hz]
    have hlt : c % 2 ^ slotM w + 2 ^ slotM w < 2 ^ (slotM w + 1) := by rw [pow_succ]; omega
    have hlen := bitLen_le_iff.mpr hlt
    exact ⟨hlt, by omega, .inr ⟨fun h => hz (hE0 h), by omega⟩, by omega⟩

/-- Fields of d × 2^q read back, whatever stands above them. -/
theorem slot_fields {w : W32} (b : Nat) {d : Nat} {q : Int} (hd : d < 2 ^ (slotM w + 1)) (hq : slotLsb w ≤ q) (hn : q = slotLsb w ∨ 2 ^ slotM w ≤ d)
    (hk : slotCode w d q < 2 ^ (slotE w + slotM w)) :
    slotMant w (2 ^ (slotE w + slotM w) * b + slotCode w d q) = d ∧ slotUnit w (2 ^ (slotE w + slotM w) * b + slotCode w d q) = q := by
  have hP := Nat.two_pow_pos (slotM w)
  have hlow : (2 ^ (slotE w + slotM w) * b + slotCode w d q) % 2 ^ slotM w = slotCode w d q % 2 ^ slotM w := by
    rw [Nat.add_comm (slotE w), pow_add, Nat.mul_assoc, Nat.mul_add_mod]
  have hhigh : (2 ^ (slotE w + slotM w) * b + slotCode w d q) / 2 ^ slotM w % 2 ^ slotE w = slotCode w d q / 2 ^ slotM w := by
    have hlt : slotCode w d q / 2 ^ slotM w < 2 ^ slotE w := by
      rw [Nat.div_lt_iff_lt_mul hP, ← pow_add]
      exact hk
    rw [Nat.add_comm (slotE w), pow_add, Nat.mul_assoc, Nat.mul_add_div hP, Nat.mul_add_mod, Nat.mod_eq_of_lt hlt]
  unfold slotMant slotUnit
  rw [hlow, hhigh]
  rw [pow_succ] at hd
  by_cases hs : d < 2 ^ slotM w
  · obtain rfl : q = slotLsb w := hn.resolve_right (by omega)
    have hcode : slotCode w d (slotLsb w) = d := by simp [slotCode]
    rw [hcode, Nat.div_eq_of_lt hs, Nat.mod_eq_of_lt hs, if_pos rfl]
    unfold slotLsb
    omega
  · have hcode : slotCode w d q = 2 ^ slotM w * ((q - slotLsb w).toNat + 1) + (d - 2 ^ slotM w) := by
      unfold slotCode
      rw [Nat.mul_succ, Nat.mul_comm]
      omega
    rw [hcode, Nat.mul_add_div hP, Nat.mul_add_mod, Nat.div_eq_of_lt (by omega), Nat.mod_eq_of_lt (by omega), if_neg (by omega)]
    unfold slotLsb at *
    omega

/- Reading a code. -/

section
variable {w : W32} {c : Nat}

theorem slotS_of_slotSign (h : slotSign w c = true) : slotS w = 1 := of_decide_eq_true (Bool.and_elim_left h)

theorem slotNan_iff (hS : slotS w ≤ 1) (hc : c < 2 ^ slotWidth w) :
    SlotNan w c ↔ (slotSign w c = true ∧ c / 2 ^ slotM w % 2 ^ slotE w = 0 ∧ c % 2 ^ slotM w = 0) := by
  obtain ⟨hparts, -⟩ := slot_parts hS hc
  constructor
  · rintro ⟨h1, h2⟩
    have hpow : 2 ^ (slotE w + slotM w) = 2 ^ slotM w * 2 ^ slotE w := by rw [Nat.add_comm, pow_add]
    refine ⟨by simp [slotSign, h1, h2], ?_, ?_⟩
    · rw [h2, hpow, Nat.mul_div_cancel_left _ (Nat.two_pow_pos _), Nat.mod_self]
    · rw [h2, hpow, Nat.mul_mod_right]
  · rintro ⟨h1, h2, h3⟩
    have hz : slotCode w (slotMant w c) (slotUnit w c) = 0 := by simp [slotCode, slotMant, slotUnit, slotLsb, h2, h3]
    rw [h1, hz, if_pos rfl, Nat.add_zero] at hparts
    exact ⟨slotS_of_slotSign h1, hparts⟩

theorem narrowDecode_nan (hS : slotS w ≤ 1) (hc : c < 2 ^ slotWidth w) (h : SlotNan w c) : narrowDecode w c = .nan false := by
  obtain ⟨h1, h2, h3⟩ := (slotNan_iff hS hc).mp h
  have hs : (slotS w == 1 && c.testBit (slotE w + slotM w)) = true := h1
  unfold narrowDecode
  simp only [Nat.mod_eq_of_lt hc, Nat.shiftRight_eq_div_pow, hs, h2, h3]
  rfl

theorem narrowDecode_fin (hS : slotS w ≤ 1) (hc : c < 2 ^ slotWidth w) (h : ¬ SlotNan w c) :
    narrowDecode w c = .fin (slotSign w c) (slotMant w c) (slotUnit w c) := by
  rw [slotNan_iff hS hc] at h
  have hs : (slotS w == 1 && c.testBit (slotE w + slotM w)) = slotSign w c := rfl
  unfold narrowDecode
  simp only [Nat.mod_eq_of_lt hc, Nat.shiftRight_eq_div_pow, hs]
  rw [if_neg (by simpa [and_assoc] using h)]
  unfold slotMant slotUnit
  split
  · next h0 =>
    rw [h0]
    rfl
  · next h0 =>
    rw [max_eq_left (by omega), Nat.add_comm]

end

/- Encoding a value (04 R88). -/

/-- The scale a value is rounded at: one more bit of it than the mantissa field has, or the least scale, and that too in a
slot without exponents. -/
def slotScale (w : W32) (m : Nat) (e : Int) : Int :=
  if e + bitLen m - (slotM w + 1) < slotLsb w ∨ slotE w = 0 then slotLsb w else e + bitLen m - (slotM w + 1)

theorem slotLsb_le_slotScale (w : W32) (m : Nat) (e : Int) : slotLsb w ≤ slotScale w m e := by
  unfold slotScale
  split <;> omega

/-- A carry into the next exponent leaves the code as it is. -/
theorem slotCode_carry (w : W32) {q : Int} (h : slotLsb w ≤ q) : slotCode w (2 ^ slotM w) (q + 1) = slotCode w (2 ^ (slotM w + 1)) q := by
  unfold slotCode
  rw [show (q + 1 - slotLsb w).toNat = (q - slotLsb w).toNat + 1 by omega, pow_succ]
  ring

/-- The fields that `narrowEncode` forms a code of. -/
def slotCarried (w : W32) (d : Nat) (q : Int) : Nat × Int := if q > slotLsb w && d = 2 ^ (slotM w + 1) then (2 ^ slotM w, q + 1) else (d, q)

theorem slotCode_carried (w : W32) {d : Nat} {q : Int} (h : slotLsb w ≤ q) :
    (if (slotCarried w d q).2 = slotLsb w then (slotCarried w d q).1
      else ((slotCarried w d q).2 - slotLsb w).toNat * 2 ^ slotM w + (slotCarried w d q).1) = slotCode w d q := by
  have hcode (x : Nat × Int) : (if x.2 = slotLsb w then x.1 else (x.2 - slotLsb w).toNat * 2 ^ slotM w + x.1) = slotCode w x.1 x.2 := by
    unfold slotCode
    split
    · next h => rw [h, Int.sub_self, Int.toNat_zero, Nat.zero_mul, Nat.zero_add]
    · rfl
  rw [hcode]
  unfold slotCarried
  split
  · next h' =>
    simp only [Bool.and_eq_true, decide_eq_true_eq] at h'
    rw [slotCode_carry w h, h'.2]
  · rfl

theorem narrowEncode_zero (w : W32) (s : Bool) (e : Int) : narrowEncode w (.fin s 0 e) = (0, 0) := by
  simp [narrowEncode]

/-- The code of a value that the slot's sign allows: its rounded fields, or OF past the greatest. -/
theorem narrowEncode_fin {w : W32} {s : Bool} {m : Nat} {e : Int} (hm : m ≠ 0) (hs : s = true → slotS w = 1) :
    let r := roundAt (slotRm (slotRtz w)) false m e (slotScale w m e) false
    let k := slotCode w r.1 (slotScale w m e)
    ∃ big, ∃ tiny : Bool, narrowEncode w (.fin s m e) = if 2 ^ (slotE w + slotM w) - 1 < k then (big, fOF ||| fNX)
      else (if k = 0 then 0 else (if s then 2 ^ (slotE w + slotM w) else 0) + k, flagIf r.2 fNX ||| flagIf (tiny && r.2) fUF) := by
  intro r k
  have hsign : (!(slotS w == 1) && s) = false := by
    cases s with
    | false => exact Bool.and_false _
    | true => rw [hs rfl]; rfl
  have hscale : (if e + bitLen m - (slotM w + 1) < slotLsb w || slotE w = 0 then slotLsb w else e + bitLen m - (slotM w + 1)) = slotScale w m e := by
    simp only [slotScale, Bool.or_eq_true, decide_eq_true_eq]
  have hlsb : 1 - slotBias w - slotM w = slotLsb w := rfl
  have hrm : (if slotRtz w then RM.rtz else RM.rne) = slotRm (slotRtz w) := rfl
  have hcarried (d : Nat) (q : Int) : (if q > slotLsb w && d = 2 ^ (slotM w + 1) then (2 ^ slotM w, q + 1) else (d, q)) = slotCarried w d q := rfl
  have hcode := fun d => slotCode_carried w (d := d) (slotLsb_le_slotScale w m e)
  refine ⟨if slotSatNan w then 2 ^ (slotE w + slotM w) else (if s then 2 ^ (slotE w + slotM w) else 0) + (2 ^ (slotE w + slotM w) - 1),
    decide (diffFin false m e false 1 (1 - slotBias w) < 0), ?_⟩
  unfold narrowEncode
  simp only [hsign, hm, hlsb, hrm, hscale, hcarried, hcode, Bool.false_and, Bool.false_eq_true, if_false]
  refine ite_congr rfl (fun _ => rfl) fun _ => ?_
  by_cases hk : slotCode w r.1 (slotScale w m e) = 0
  · exact (if_pos hk).trans (congrArg (Prod.mk · _) (if_pos hk).symm)
  · exact (if_neg hk).trans (congrArg (Prod.mk · _) (if_neg hk).symm)

end Sys2Proof.Machine
end

