-- ==== Sys2Proof/Proofs/Narrow.lean ====
section
/-! PROOF, of O13, last part. CVTW and CVTN of the narrow formats, and the five instructions together (06 R122, R123). -/

namespace Sys2Proof.Machine

/- Sizes on the scale. -/

theorem scaled_lt_two_pow {m k j : Nat} {e q : Int} (hm : m < 2 ^ k) (he : -150 ≤ e) (h : e + k ≤ q + j) : scaled m e < scaled (2 ^ j) q := by
  unfold scaled
  calc m * 2 ^ (e + 150).toNat < 2 ^ k * 2 ^ (e + 150).toNat := Nat.mul_lt_mul_of_pos_right hm (Nat.two_pow_pos _)
    _ = 2 ^ (k + (e + 150).toNat) := (pow_add 2 _ _).symm
    _ ≤ 2 ^ (j + (q + 150).toNat) := Nat.pow_le_pow_right (by decide) (by omega)
    _ = 2 ^ j * 2 ^ (q + 150).toNat := pow_add 2 _ _

theorem two_pow_le_scaled {m k j : Nat} {e q : Int} (hm : 2 ^ k ≤ m) (hq : -150 ≤ q) (h : q + j ≤ e + k) : scaled (2 ^ j) q ≤ scaled m e := by
  unfold scaled
  calc 2 ^ j * 2 ^ (q + 150).toNat = 2 ^ (j + (q + 150).toNat) := (pow_add 2 _ _).symm
    _ ≤ 2 ^ (k + (e + 150).toNat) := Nat.pow_le_pow_right (by decide) (by omega)
    _ = 2 ^ k * 2 ^ (e + 150).toNat := pow_add 2 _ _
    _ ≤ m * 2 ^ (e + 150).toNat := Nat.mul_le_mul_right _ hm

/- A rounded value in a slot. -/

section
variable {w : W32} (hl : -149 ≤ slotLsb w)
include hl

/-- A value rounded at its own scale has the length of the mantissa, or is the next power of two. -/
theorem rounded_length (hE : slotE w ≠ 0) {m : Nat} {e : Int} (hm : m ≠ 0) (he : -150 ≤ e) :
    let d := (roundAt (slotRm (slotRtz w)) false m e (slotScale w m e) false).1
    d ≤ 2 ^ (slotM w + 1) ∧ (slotScale w m e = slotLsb w ∨ 2 ^ slotM w ≤ d) := by
  intro d
  have hq := slotLsb_le_slotScale w m e
  have hU : 0 < scaled 1 (slotScale w m e) := Nat.mul_pos one_pos (Nat.two_pow_pos _)
  obtain ⟨hlow, hhigh⟩ := (roundAt_close (slotRtz w) m he (by omega : -150 ≤ slotScale w m e)).weaken hU
  obtain ⟨k, hk, hm1, hm2⟩ := bitLen_bounds hm
  have htop : e + (k + 1 : Nat) ≤ slotScale w m e + (slotM w + 1 : Nat) := by
    unfold slotScale
    rw [hk]
    split <;> omega
  have hup := scaled_lt_two_pow hm2 he htop
  change scaled m e < scaled d _ + _ at hlow
  change 2 * scaled d _ ≤ _ at hhigh
  rw [scaled_eq d] at hlow hhigh
  rw [scaled_eq (2 ^ _)] at hup
  constructor
  · have : 2 * d < 2 * 2 ^ (slotM w + 1) + 1 := Nat.lt_of_mul_lt_mul_right (a := scaled 1 (slotScale w m e)) (by
      rw [Nat.succ_mul (2 * _), Nat.mul_assoc, Nat.mul_assoc]
      omega)
    omega
  · by_cases hs : slotScale w m e = slotLsb w
    · exact .inl hs
    · have hscale : slotScale w m e + slotM w ≤ e + k := by
        unfold slotScale at hs ⊢
        rw [hk] at hs ⊢
        split at hs
        · exact absurd rfl hs
        · next h => rw [if_neg h]; omega
      have hge := two_pow_le_scaled hm1 (by omega) hscale
      rw [scaled_eq (2 ^ _)] at hge
      have : 2 ^ slotM w < d + 1 := Nat.lt_of_mul_lt_mul_right (a := scaled 1 (slotScale w m e)) (by rw [Nat.succ_mul]; omega)
      exact .inr (by omega)

/-- The value of the code of d × 2^q, whatever its sign bit, is d × 2^q, in units of 2^q or greater ones. -/
theorem slotCode_value (b : Nat) {d : Nat} {q : Int} (hq : slotLsb w ≤ q) (hd : slotE w ≠ 0 → d ≤ 2 ^ (slotM w + 1) ∧ (q = slotLsb w ∨ 2 ^ slotM w ≤ d))
    (h0 : slotE w = 0 → q = slotLsb w) (hk : slotCode w d q < 2 ^ (slotE w + slotM w)) :
    let c := 2 ^ (slotE w + slotM w) * b + slotCode w d q
    scaled (slotMant w c) (slotUnit w c) = scaled d q ∧ q ≤ slotUnit w c := by
  have hsmall (hE : slotE w = 0) : d < 2 ^ slotM w := by
    rw [hE, Nat.zero_add] at hk
    exact (Nat.le_add_left _ _).trans_lt hk
  have hpow : 2 ^ (slotM w + 1) = 2 * 2 ^ slotM w := pow_succ' 2 _
  intro c
  by_cases hc : d = 2 ^ (slotM w + 1)
  · have hcode : slotCode w (2 ^ slotM w) (q + 1) = slotCode w d q := by rw [hc]; exact slotCode_carry w hq
    obtain ⟨h1, h2⟩ := slot_fields b (w := w) (d := 2 ^ slotM w) (q := q + 1) (Nat.pow_lt_pow_right (by decide) (Nat.lt_succ_self _)) (by omega)
      (.inr le_rfl) (hcode ▸ hk)
    rw [hcode] at h1 h2
    refine ⟨?_, by rw [h2]; omega⟩
    rw [h1, h2, hc, scaled_lower _ (by omega) (by omega : q ≤ q + 1), show (q + 1 - q).toNat = 1 by omega, pow_one, ← pow_succ]
    rfl
  · have hlt : d < 2 ^ (slotM w + 1) := by
      by_cases hE : slotE w = 0
      · have := hsmall hE
        omega
      · exact lt_of_le_of_ne (hd hE).1 hc
    have hn : q = slotLsb w ∨ 2 ^ slotM w ≤ d := by
      by_cases hE : slotE w = 0
      · exact .inl (h0 hE)
      · exact (hd hE).2
    obtain ⟨h1, h2⟩ := slot_fields b hlt hq hn hk
    exact ⟨by rw [h1, h2], h2.ge⟩

end

/-- Close values with their signs. -/
theorem Close.signed {rtz s t : Bool} {X D U : Nat} (h : Close rtz X D U) (ht : t = s ∨ D = 0) :
    let x : Int := (if s then -1 else 1) * (X : Nat)
    let y : Int := (if t then -1 else 1) * (D : Nat)
    (x = y ↔ X = D) ∧ if rtz then y.natAbs ≤ x.natAbs ∧ (x - y).natAbs < U else 2 * (x - y).natAbs ≤ U := by
  have hy : (if t then -1 else 1 : Int) * (D : Nat) = (if s then -1 else 1) * (D : Nat) := by
    rcases ht with rfl | rfl
    · rfl
    · rw [Nat.cast_zero, mul_zero, mul_zero]
  unfold Close at h
  intro x y
  have hxy : x = X ∧ y = D ∨ x = -X ∧ y = -D := by
    rw [show y = _ from hy]
    cases s with
    | false => exact .inl ⟨one_mul _, one_mul _⟩
    | true => exact .inr ⟨neg_one_mul _, neg_one_mul _⟩
  refine ⟨by omega, ?_⟩
  cases rtz with
  | true =>
    rw [if_pos rfl] at h ⊢
    omega
  | false =>
    rw [if_neg Bool.false_ne_true] at h ⊢
    omega

/- CVTN (06 R122). -/

/-- A code with its sign bit set, or not. -/
theorem slotSign_code {w : W32} {s : Bool} (hs : s = true → slotS w = 1) {k : Nat} (hk : k < 2 ^ (slotE w + slotM w)) :
    slotSign w (2 ^ (slotE w + slotM w) * s.toNat + k) = s ∧ 2 ^ (slotE w + slotM w) * s.toNat + k < 2 ^ slotWidth w
      ∧ (k ≠ 0 → ¬ SlotNan w (2 ^ (slotE w + slotM w) * s.toNat + k)) := by
  have hbit : (2 ^ (slotE w + slotM w) * s.toNat + k).testBit (slotE w + slotM w) = s := by
    rw [Nat.testBit_two_pow_mul_add _ hk, if_neg (lt_irrefl _), Nat.sub_self]
    cases s <;> rfl
  have hwidth : 2 ^ slotWidth w = 2 ^ slotS w * 2 ^ (slotE w + slotM w) := by rw [← pow_add, slotWidth, Nat.add_assoc]
  unfold slotSign SlotNan
  rw [hbit, hwidth]
  cases s with
  | false =>
    refine ⟨Bool.and_false _, ?_, fun _ h => ?_⟩
    · have : 1 * 2 ^ (slotE w + slotM w) ≤ 2 ^ slotS w * 2 ^ (slotE w + slotM w) := Nat.mul_le_mul_right _ Nat.one_le_two_pow
      rw [Bool.toNat_false]
      omega
    · rw [Bool.toNat_false] at h
      omega
  | true =>
    rw [hs rfl, Bool.toNat_true]
    refine ⟨rfl, ?_, fun hk0 h => ?_⟩ <;> omega

/-- The code of a finite value that does not overflow: its sign, its error and its flag. -/
theorem narrowEncode_close {w : W32} (hl : -149 ≤ slotLsb w) {s : Bool} {m : Nat} {e : Int} (he : -149 ≤ e) (hs : s = true → slotS w = 1)
    {o : Nat × FFlags} (ho : narrowEncode w (.fin s m e) = o) (hof : o.2 &&& fOF = 0) :
    let D := scaled (slotMant w o.1) (slotUnit w o.1)
    o.1 < 2 ^ slotWidth w ∧ ¬ SlotNan w o.1 ∧ (o.2 &&& fNX = 0 ↔ scaled m e = D) ∧ (slotSign w o.1 = s ∨ D = 0)
      ∧ Close (slotRtz w) (scaled m e) D (scaled 1 (slotUnit w o.1)) := by
  have hU (q : Int) : 0 < scaled 1 q := Nat.mul_pos one_pos (Nat.two_pow_pos _)
  by_cases hm : m = 0
  · subst hm
    rw [narrowEncode_zero] at ho
    subst ho
    have hD : scaled (slotMant w 0) (slotUnit w 0) = 0 := by simp [scaled, slotMant]
    have hX : scaled 0 e = 0 := Nat.zero_mul _
    rw [hD, hX]
    exact ⟨Nat.two_pow_pos _, fun h => (Nat.two_pow_pos _).ne h.2, iff_of_true rfl rfl, .inr rfl, close_refl _ (hU _)⟩
  · have hq := slotLsb_le_slotScale w m e
    have hclose := roundAt_close (slotRtz w) m (by omega : -150 ≤ e) (by omega : -150 ≤ slotScale w m e)
    have hexact := (roundAt_exact_iff (slotRm (slotRtz w)) false m e (slotScale w m e)).trans (dyEq_iff_scaled (by omega) (by omega))
    have hlen := fun hE => rounded_length hl hE hm (by omega : -150 ≤ e)
    obtain ⟨big, tiny, hn⟩ := narrowEncode_fin hm hs (e := e)
    generalize roundAt (slotRm (slotRtz w)) false m e (slotScale w m e) false = r at hclose hexact hlen hn
    rw [ho] at hn
    by_cases hover : 2 ^ (slotE w + slotM w) - 1 < slotCode w r.1 (slotScale w m e)
    · rw [if_pos hover] at hn
      rw [hn] at hof
      exact absurd hof (by show ¬ (fOF ||| fNX) &&& fOF = 0; decide)
    · rw [if_neg hover] at hn
      have hpos := Nat.two_pow_pos (slotE w + slotM w)
      have hk : slotCode w r.1 (slotScale w m e) < 2 ^ (slotE w + slotM w) := by omega
      have hval := fun b => slotCode_value hl b hq hlen (fun h => if_pos (.inr h)) hk
      have hnx : o.2 &&& fNX = 0 ↔ r.2 = false := by
        rw [hn]
        exact nx_flags r.2 tiny
      rw [hnx, hexact]
      by_cases hk0 : slotCode w r.1 (slotScale w m e) = 0
      · have ho1 : o.1 = 0 := by rw [hn]; exact if_pos hk0
        have hd : r.1 = 0 := Nat.eq_zero_of_add_eq_zero_left hk0
        obtain ⟨h1, h2⟩ := hval 0
        rw [hk0, Nat.mul_zero] at h1 h2
        rw [ho1, h1]
        refine ⟨Nat.two_pow_pos _, fun h => hpos.ne h.2, Iff.rfl, .inr ?_, hclose.mono (scaled_one_mono h2)⟩
        rw [hd]
        exact Nat.zero_mul _
      · obtain ⟨hsign, hlt, hnan⟩ := slotSign_code hs hk
        obtain ⟨h1, h2⟩ := hval s.toNat
        have ho1 : o.1 = 2 ^ (slotE w + slotM w) * s.toNat + slotCode w r.1 (slotScale w m e) := by
          rw [hn]
          refine (if_neg hk0).trans ?_
          cases s <;> simp
        rw [ho1, h1]
        exact ⟨hlt, hnan hk0, Iff.rfl, .inl hsign, hclose.mono (scaled_one_mono h2)⟩

/-- The value of a code is encoded to it again. -/
theorem narrowEncode_of_code {w : W32} (hS : slotS w ≤ 1) (hb : ((2 ^ slotE w : Nat) : Int) - slotBias w ≤ 128) {c : Nat} (hc : c < 2 ^ slotWidth w)
    (hn : ¬ SlotNan w c) {m : Nat} {e : Int} (hdy : dyEq m e (slotMant w c) (slotUnit w c)) :
    narrowEncode w (.fin (slotSign w c) m e) = (c, 0) := by
  obtain ⟨hparts, hk⟩ := slot_parts hS hc
  obtain ⟨hd, hq, hfull, -⟩ := slot_bounds hb c
  have hs : slotSign w c = true → slotS w = 1 := slotS_of_slotSign
  by_cases hm : m = 0
  · have hmant : slotMant w c = 0 := by
      have h0 : slotMant w c * 2 ^ (slotUnit w c - e).toNat = 0 := by
        rw [← show m * 2 ^ (e - slotUnit w c).toNat = slotMant w c * 2 ^ (slotUnit w c - e).toNat from hdy, hm, Nat.zero_mul]
      exact (Nat.mul_eq_zero.mp h0).resolve_right (Nat.two_pow_pos _).ne'
    have hunit : slotUnit w c = slotLsb w := hfull.resolve_right fun h => by
      have := Nat.two_pow_pos (slotM w)
      omega
    have hcode : slotCode w (slotMant w c) (slotUnit w c) = 0 := by rw [hmant, hunit, slotCode, Int.sub_self, Int.toNat_zero, Nat.zero_mul]
    rw [hcode, Nat.add_zero] at hparts
    rw [hm, narrowEncode_zero]
    by_cases hsign : slotSign w c = true
    · rw [if_pos hsign] at hparts
      exact absurd ⟨hs hsign, hparts⟩ hn
    · rw [if_neg hsign] at hparts
      rw [hparts]
  · obtain ⟨hd0, htop⟩ := dyEq_top hdy hm
    have hlen := bitLen_le_iff.mpr hd
    have hscale : slotScale w m e = slotUnit w c := by
      unfold slotScale
      rw [htop]
      rcases hfull with h | ⟨hE, hfull⟩
      · split <;> omega
      · have : slotM w < bitLen (slotMant w c) := not_le.mp fun h => absurd (bitLen_le_iff.mp h) (by omega)
        split <;> omega
    obtain ⟨big, tiny, h⟩ := narrowEncode_fin hm hs (e := e)
    rw [hscale, roundAt_exact _ false hdy] at h
    have hcode : slotCode w (slotMant w c) (slotUnit w c) ≠ 0 := fun h0 => hd0 (Nat.eq_zero_of_add_eq_zero_left h0)
    rw [h, if_neg (show ¬ _ < slotCode w (slotMant w c) (slotUnit w c) by omega), if_neg hcode, ← hparts, Bool.and_false]
    exact congrArg (Prod.mk c) BitVec.zero_or

/- Both instructions on a narrow slot. -/

/-- CVTW into binary32 packs the value of the code. -/
theorem cvtwOf_narrow (r : RndS) {w : W32} (hk : slotKind w = 1) (hw : slotWidth w ≤ 8) {c : Nat} (hc : c < 2 ^ slotWidth w) :
    cvtwOf r .f32 w c = (BitVec.ofNat 32 (f32.pack r.rm (narrowDecode w c)).1, flagIf (narrowDecode w c).isSig fNV) := by
  have hcont : c % 2 ^ slotContainer w = c := by
    refine Nat.mod_eq_of_lt (hc.trans_le (Nat.pow_le_pow_right (by decide) ?_))
    simp only [slotContainer, hk]
    split <;> omega
  unfold cvtwOf slotDecode
  simp only [hcont, hk, if_true]

/-- CVTN of a binary32 word encodes its value. -/
theorem cvtnOf_narrow {r : RndS} {w : W32} (hk : slotKind w = 1) (hz : r.ftz = false) {v : Nat} (hv : v < 2 ^ 32) :
    cvtnOf r .f32 w false false v = (BitVec.ofNat 32 (narrowEncode w (f32.unpack v)).1, (narrowEncode w (f32.unpack v)).2) := by
  have hin : f32.input r.ftz (f32.modify false false (v % 2 ^ f32.width)) = f32.unpack v := cvtIn_plain (st := .f32) hz hv
  unfold cvtnOf
  simp only [fmtOf, hin, hk]

/-- A code of a narrow slot in binary32, and back (06 R122, R123). -/
theorem cvtw_cvtn (r r' : RndS) {w : W32} (hk : slotKind w = 1) (hv : slotValid w = true) (hz : r.ftz = false) {c : Nat} (hc : c < 2 ^ slotWidth w) :
    let o := cvtwOf r' .f32 w c
    (SlotNan w c → o = (0x7FC00000, 0))
    ∧ (¬ SlotNan w c → o.2 = 0 ∧ cvtnOf r .f32 w false false o.1.toNat = (BitVec.ofNat 32 c, 0)
      ∧ ∃ k q, f32.unpack o.1.toNat = .fin (slotSign w c) k q ∧ dyEq k q (slotMant w c) (slotUnit w c)) := by
  obtain ⟨hw, hS, hb, hl⟩ := slotValid_spec hk hv
  rw [cvtwOf_narrow r' hk hw hc]
  refine ⟨fun hn => ?_, fun hn => ?_⟩
  · rw [narrowDecode_nan hS hc hn]
    rfl
  · obtain ⟨hd, hq, -, htop⟩ := slot_bounds hb c
    have hlen : bitLen (slotMant w c) ≤ 24 := by
      have h1 := bitLen_le_iff.mpr hd
      have h2 := slotE_add_slotM_le hw
      omega
    obtain ⟨k, q, hu, hdy, -, hlt, -⟩ := Fmt.round_fits f32_wide r'.rm (slotSign w c) hlen (hl.trans hq) htop
    rw [narrowDecode_fin hS hc hn, Fmt.pack_fin]
    generalize (f32.round r'.rm (slotSign w c) (slotMant w c) (slotUnit w c) false).1 = p at hu hlt
    have hp : (BitVec.ofNat 32 p).toNat = p := Nat.mod_eq_of_lt hlt
    show (0 : FFlags) = 0 ∧ cvtnOf r .f32 w false false (BitVec.ofNat 32 p).toNat = _ ∧ ∃ k q, f32.unpack (BitVec.ofNat 32 p).toNat = _ ∧ _
    rw [hp, cvtnOf_narrow hk hz hlt, hu, narrowEncode_of_code hS hb hc hn hdy.symm]
    exact ⟨rfl, rfl, k, q, rfl, hdy.symm⟩

/-- The error of CVTN into a narrow slot (06 R122). -/
theorem cvtn_close {r : RndS} {w : W32} (hk : slotKind w = 1) (hv : slotValid w = true) (hz : r.ftz = false) {v m : Nat} {e : Int} {s : Bool}
    (hlt : v < 2 ^ 32) (hu : f32.unpack v = .fin s m e) (hs : s = true → slotS w = 1) :
    let value (s : Bool) (m : Nat) (e : Int) : Int := (if s then -1 else 1) * (m * 2 ^ (e + 150).toNat : Nat)
    let o := cvtnOf r .f32 w false false v
    let c := o.1.toNat
    let x := value s m e
    let y := value (slotSign w c) (slotMant w c) (slotUnit w c)
    o.2 &&& fOF = 0 → c < 2 ^ slotWidth w ∧ ¬ SlotNan w c ∧ (o.2 &&& fNX = 0 ↔ x = y)
      ∧ if slotRtz w then y.natAbs ≤ x.natAbs ∧ (x - y).natAbs < 2 ^ (slotUnit w c + 150).toNat else 2 * (x - y).natAbs ≤ 2 ^ (slotUnit w c + 150).toNat := by
  obtain ⟨hw, -, -, hl⟩ := slotValid_spec hk hv
  obtain ⟨⟨-, he, -, -⟩, -⟩ := Fmt.of_unpack_fin f32_wide hlt hu
  intro value
  rw [cvtnOf_narrow hk hz hlt, hu]
  intro o c x y hof
  obtain ⟨h1, h2, h3, h4, h5⟩ := narrowEncode_close hl he hs rfl hof
  have hc : c = (narrowEncode w (.fin s m e)).1 :=
    Nat.mod_eq_of_lt (h1.trans_le (Nat.pow_le_pow_right (by decide) (by omega)))
  rw [← hc] at h1 h2 h3 h4 h5
  obtain ⟨hxy, herr⟩ := h5.signed h4
  rw [show scaled 1 (slotUnit w c) = _ from Nat.one_mul _] at herr
  exact ⟨h1, h2, h3.trans hxy.symm, herr⟩

/-- Settles O13: the instructions by their lanes, the integer and floating-point types by their classes, and the narrow slots. -/
theorem conversions : Obligations.Conversions := by
  unfold Obligations.Conversions
  refine ⟨fun h r dt st na aa w4 f d a => ⟨?_, ?_, ?_, ?_, ?_⟩, fun r u na aa v hv => cvt_f32_word r u na aa hv,
    fun r na aa v => ⟨fun x hx => ⟨fun y hy => cvt_int_int r na aa v hx hy, fun y hy => cvt_int_float na aa v hx hy⟩,
      fun x hx y hy => cvt_float_float hx hy, fun w hs => ⟨fun hk => ?_, fun hk => ?_⟩⟩,
    fun r r' w hk hv hz => ⟨fun c hc => cvtw_cvtn r r' hk hv hz hc, fun v m e s hlt hu hs => cvtn_close hk hv hz hlt hu hs⟩⟩
  · exact execCvt_computes _ fun v l => rfl
  · exact execCvtn_computes h r st f na aa d a
  · exact execCvtw_computes h r dt f d a
  · exact execPack4_computes h w4 d a rfl
  · exact execUnpack4_computes h w4 d a rfl
  · exact cvtn_half na aa v hs rfl (by rw [hk]; decide) (by rw [hk]; rfl)
  · exact cvtn_half na aa v hs rfl (by rw [hk]; decide) (by rw [hk]; rfl)

end Sys2Proof.Machine
end

