-- ==== Sys2Proof/Proofs/Exchanging.lean ====
section
/-! PROOF, of O14. SHFL, VOTE, MATCHV, ACTIVE and WSYNC (07 R133 to R137, R157). -/

namespace Sys2Proof.Machine

/- Votes over the active lanes (07 R135). -/

theorem has_predMask (w : Warp) (p : W4) {l : Nat} (hl : l < 32) : has (w.predMask p) l = w.pred p l := by
  unfold Warp.predMask Warp.pred
  split
  · exact (BitVec.getLsbD_allOnes (v := 32) (i := l)).trans (decide_eq_true hl)
  · rfl

theorem and_predMask (w : Warp) (p : W4) (m : Mask) : m &&& w.predMask p = m &&& maskOf (fun l => w.pred p l) :=
  mask_ext fun l hl => by rw [has_and, has_and, has_predMask w p hl, has_maskOf, decide_eq_true hl, Bool.true_and]

/-- All lanes of a mask satisfy a condition. -/
theorem and_maskOf_eq (m : Mask) (f : Nat → Bool) : (m &&& maskOf f == m) = (lanesOf m).all f := by
  rw [Bool.eq_iff_iff, beq_iff_eq, List.all_eq_true]
  constructor
  · intro h l hl
    have h1 := (mem_lanesOf m l).mp hl
    rw [← h, has_and, has_maskOf, Bool.and_eq_true, Bool.and_eq_true] at h1
    exact h1.2.2
  · intro h
    refine mask_ext fun l hl => ?_
    rw [has_and, has_maskOf, decide_eq_true hl, Bool.true_and]
    cases hm : has m l with
    | false => rfl
    | true => rw [h l ((mem_lanesOf m l).mpr hm)]; rfl

/-- Some lane of a mask satisfies a condition. -/
theorem and_maskOf_ne_zero (m : Mask) (f : Nat → Bool) : (m &&& maskOf f != 0) = (lanesOf m).any f := by
  rw [Bool.eq_iff_iff, bne_iff_ne, List.any_eq_true]
  constructor
  · intro h
    obtain ⟨l, hl⟩ := mask_ne_zero h
    rw [has_and, has_maskOf, Bool.and_eq_true, Bool.and_eq_true] at hl
    exact ⟨l, (mem_lanesOf m l).mpr hl.1, hl.2.2⟩
  · rintro ⟨l, hl, hf⟩ h
    have hm := (mem_lanesOf m l).mp hl
    have h0 : has (m &&& maskOf f) l = true := by rw [has_and, has_maskOf, hm, hf, decide_eq_true (has_lt hm)]; rfl
    rw [h] at h0
    exact absurd h0 (by simp [has])

theorem and_maskOf_none {m : Mask} {f : Nat → Bool} (h : ∀ l, has m l = true → f l = false) : m &&& maskOf f = 0 := by
  by_contra hne
  obtain ⟨l, hl⟩ := mask_ne_zero hne
  rw [has_and, has_maskOf, Bool.and_eq_true, Bool.and_eq_true] at hl
  obtain ⟨hm, -, hf⟩ := hl
  rw [h l hm] at hf
  exact absurd hf Bool.false_ne_true

theorem and_maskOf_eq_zero (m : Mask) (f : Nat → Bool) : (m &&& maskOf f == 0) = !(lanesOf m).any f := by
  rw [← and_maskOf_ne_zero, bne, Bool.not_not]

/-- SHFL reads the lane its mode names, and its own where that leaves the warp (07 R134). -/
theorem shfl_computes (h : Hdr) (mode : ShflMode) (d a : W9) (b : SrcB) {f : Nat → Nat → Nat}
    (hf : ∀ l n, (shflFrom mode l n).getD l = f l n) (hidx : mode = .idx → ∀ l k n, f l n = f k n) :
    Computes (.shfl h mode d a b) h (fun v => [(d.toNat, fun l => v.w.rd a.toNat (f l (v.w.srcB b l).toNat))]) := by
  refine issueVal_computes (rule := fun v => if mode == .idx && (v.w.regB b).tag == .u then .u else .gen (a.toNat :: srcRegs b))
    (f := fun v l => v.w.rd a.toNat ((shflFrom mode l (v.w.srcB b l).toNat).getD l)) (fun _ => rfl) (fun _ => rfl)
    (fun v l => by rw [hf]) fun v => .inr ?_
  split
  · next hu =>
    simp only [Bool.and_eq_true, beq_iff_eq] at hu
    obtain ⟨hm, hb⟩ := hu
    refine fits_u fun l k _ _ => ?_
    have hsame : v.w.srcB b l = v.w.srcB b k := by
      rw [srcB_lane, srcB_lane]
      cases hr : v.w.regB b with
      | u x => rfl
      | a x y => rw [hr] at hb; exact absurd hb (by simp [Reg.tag])
      | g x => rw [hr] at hb; exact absurd hb (by simp [Reg.tag])
    rw [hsame, hidx hm l k]
  · exact fits_gen fun hu l k _ _ => allU_rd hu (List.mem_cons_self) _ _

/-- The forms of VOTE that write a predicate. -/
theorem vote_computes {h : Hdr} {mode : VoteMode} {d : W9} {p : W4} (hd : d.toNat < 15) {f : View → Bool}
    (he : ∀ s, exec (.vote h mode d p) s = issuePred s h (.vote h mode d p) (d.setWidth 4) (fun v _ => f v)) :
    ComputesPreds (.vote h mode d p) h (fun v => [(d.toNat, fun _ => f v)]) := by
  have hn : (d.setWidth 4).toNat = d.toNat := by simp; omega
  have h1 := issuePred_computes (p := d.setWidth 4) he (g := fun v _ => f v) (fun _ _ => rfl)
  rwa [hn] at h1

theorem vote_ballot_computes (h : Hdr) (d : W9) (p : W4) :
    Computes (.vote h .ballot d p) h (fun v => [(d.toNat, fun _ => v.act &&& maskOf (fun l => v.w.pred p l))]) :=
  issueVal_computes (rule := fun _ => .u) (f := fun v _ => v.act &&& v.w.predMask p) (fun _ => rfl) (fun _ => rfl)
    (fun v _ => and_predMask v.w p v.act) fun _ => .inr (fits_u fun _ _ _ _ => rfl)

/- WSYNC (07 R137, R157). -/

/-- Lanes take one wait. -/
def Warp.putWaits (w : Warp) (m : Mask) (x : LWait) : Warp :=
  (lanesOf m).foldl (fun w l => { w with lwait := lput w.lwait l .none (fun _ => x) }) w

theorem putWaits_eq (w : Warp) (m : Mask) (x : LWait) :
    w.putWaits m x = { w with lwait := (lanesOf m).foldl (fun c l => lput c l .none (fun _ => x)) w.lwait } := by
  unfold Warp.putWaits
  induction lanesOf m generalizing w with
  | nil => rfl
  | cons l ls ih => rw [List.foldl_cons, ih]; rfl

theorem nth_putWaits (w : Warp) (m : Mask) (x : LWait) (l : Nat) :
    nth (w.putWaits m x).lwait l .none = if has m l then x else nth w.lwait l .none := by
  rw [putWaits_eq]
  refine (nth_lputs _ (fun _ => x) (nodup_lanesOf m) w.lwait l).trans ?_
  simp only [mem_lanesOf]

/-- Every lane of the mask has arrived, or arrives now. -/
def View.allHere (v : View) (m : Mask) : Bool := (lanesOf m).all (fun l => has v.act l || nth v.w.lwait l .none == .wsync m)

/-- The lanes of a completed mask may pass, and acquire what all of them did. -/
def Warp.meet (w : Warp) (m : Mask) (all : VC) : Warp :=
  { w.putWaits m .passed with clk := allLanes.map (fun l => if has m l then (w.clkAt l).acquire all else w.clkAt l) }

/-- The warp at a WSYNC at which the active lanes arrive with the mask. -/
def View.synced (v : View) (m : Mask) (now : Nat) (w : Warp) : Warp :=
  if v.allHere m then ((w.setWaits v.act (.wsync m) now).meet m (v.w.allClk m)).putWaits v.act .none
  else w.setWaits v.act (.wsync m) now

theorem synced_here {v : View} {m : Mask} (h : v.allHere m = true) (now : Nat) (w : Warp) :
    v.synced m now w = ((w.setWaits v.act (.wsync m) now).meet m (v.w.allClk m)).putWaits v.act .none := if_pos h

theorem synced_waits {v : View} {m : Mask} (h : ¬ v.allHere m = true) (now : Nat) (w : Warp) :
    v.synced m now w = w.setWaits v.act (.wsync m) now := if_neg h

theorem nth_meet (w : Warp) (m : Mask) (all : VC) (l : Nat) :
    nth (w.meet m all).lwait l .none = if has m l then .passed else nth w.lwait l .none := nth_putWaits w m .passed l

theorem clkAt_meet (w : Warp) (m : Mask) (all : VC) {l : Nat} (hl : l < 32) :
    (w.meet m all).clkAt l = if has m l then (w.clkAt l).acquire all else w.clkAt l :=
  nth_map_range 32 (fun l => if has m l then (w.clkAt l).acquire all else w.clkAt l) l (Clk.init .zero) hl

theorem synced_only (v : View) (m : Mask) (now : Nat) (w : Warp) : v.synced m now w =
    { w with lwait := (v.synced m now w).lwait, lwaitSince := (v.synced m now w).lwaitSince, clk := (v.synced m now w).clk } := by
  unfold View.synced
  split
  · rw [putWaits_eq, Warp.meet, putWaits_eq, setWaits_eq]
  · rw [setWaits_eq]

/-- A WSYNC that its whole group executes anew: the group goes on where it is the last to arrive, and waits where it is not. -/
theorem exec_wsync {s : State} {h : Hdr} {b : SrcB} {v : View} {m : Mask} (hi : Issues s h (.wsync h b) v) (ha : v.act = v.grp)
    (hl : ∀ l, has v.act l = true → nth v.w.lwait l .none = .none ∧ v.w.srcB b l = m) (hu : v.w.unserved v.act = false)
    (hin : v.act &&& ~~~ m = 0) (hlive : m &&& ~~~ v.w.live = 0) :
    ∃ t, exec (.wsync h b) s = .next t ∧ Passes s v (v.synced m s.tsc v.w)
      (fun _ => if v.allHere m then v.next else v.pc) t := by
  have hne : v.act ≠ 0 := by rw [ha]; exact ((goes_iff v _).mp hi.goes).1
  have hfresh : v.act &&& ~~~ (0 : Mask) &&& ~~~ (0 : Mask) = v.act := by
    rw [show (~~~ (0 : Mask)) = BitVec.allOnes 32 from rfl, BitVec.and_allOnes, BitVec.and_allOnes]
  have hout : v.grp &&& ~~~ v.act = 0 := mask_ext fun l h32 => by rw [ha, has_and, has_not]; cases has v.grp l <;> simp [has]
  have hlow := (hl _ (lowest_has hne)).2
  have hsame : (lanesOf v.act).all (fun l => v.w.srcB b l == m) = true :=
    List.all_eq_true.mpr fun l hm => beq_iff_eq.mpr (hl l ((mem_lanesOf v.act l).mp hm)).2
  have hne' : (v.act != 0) = true := by simpa using hne
  have hne'' : (v.act == 0) = false := by simpa using hne
  have hgo : v.act &&& m = v.act := mask_ext fun l h32 => by
    have h0 : has (v.act &&& ~~~ m) l = false := by rw [hin]; simp [has]
    rw [has_and, has_not, decide_eq_true h32, Bool.true_and] at h0
    rw [has_and]
    cases ha : has v.act l <;> cases hm : has m l <;> simp_all
  obtain ⟨-, -, -, hw, -⟩ := view_spec hi.view
  have hz (x : Mask) : (0 : Mask) ||| x = x := BitVec.zero_or
  have hz' (x : Mask) : x ||| (0 : Mask) = x := BitVec.or_zero
  have hstep : ∃ t, exec (.wsync h b) s = .next t ∧ Passes (s.modWarp v.key (v.synced m s.tsc)) v (v.synced m s.tsc v.w)
      (fun l => if has (if v.allHere m then v.act else 0) l then nth (perLane (fun _ => v.next)) l 0 else v.pc) t := by
    show ∃ t, execWsync h b s = .next t ∧ _
    unfold execWsync
    refine issue_jump hi.view hi.goes hi.calm ?_ (by rw [modWarp_warps, tget_tmod_self, hw]; rfl) (by rw [synced_only])
    simp only
    rw [and_maskOf_none (f := fun l => _ == _) (fun l hla => by rw [(hl l hla).1]; rfl), and_maskOf_none (fun l hla => by rw [(hl l hla).1])]
    simp only [hfresh, hout, hlow, hsame, hne', hu, hin, hlive, hgo, modWarp_modWarp, bne_self_eq_false, Bool.and_false, Bool.false_eq_true,
      if_false, Bool.not_true, Bool.or_false, Bool.true_and, hne'', Bool.false_and]
    unfold View.synced View.allHere
    split
    · simp only [hz, hz', modWarp_modWarp]
      rfl
    · simp only [hz, modWarp_modWarp]
      rfl
  obtain ⟨t, ht, hp⟩ := hstep
  refine ⟨t, ht, hp.modWarp.congrNext fun l hg => ?_⟩
  split
  · rw [if_pos (ha ▸ hg), nth_perLane _ _ (has_lt hg)]
  · rw [if_neg (by simp [has])]

/-- Settles O14: the exchanges lane by lane, and WSYNC by whether the group is the last to arrive. -/
theorem laneExchangeAndSync : Obligations.LaneExchangeAndSync := by
  unfold Obligations.LaneExchangeAndSync
  constructor
  · intro h d a b p all shfl set
    refine ⟨shfl_computes h .idx d a b (f := fun _ n => n % 32) (fun _ _ => rfl) fun _ _ _ _ => rfl,
      shfl_computes h .up d a b (f := fun l n => if n ≤ l then l - n else l) (fun l n => ?_) nofun,
      shfl_computes h .down d a b (f := fun l n => if l + n < 32 then l + n else l) (fun l n => ?_) nofun,
      shfl_computes h .bfly d a b (f := fun l n => l ^^^ (n % 32)) (fun _ _ => rfl) nofun, vote_ballot_computes h d p,
      fun hd => ⟨?_, ?_, ?_⟩, ?_, ?_⟩
    · simp only [shflFrom]
      rcases Nat.lt_or_ge l n with hl | hl
      · rw [if_pos hl, if_neg (by omega)]; rfl
      · rw [if_neg (by omega), if_pos hl]; rfl
    · simp only [shflFrom]
      rcases Nat.lt_or_ge (l + n) 32 with hl | hl
      · rw [if_neg (by omega), if_pos hl]; rfl
      · rw [if_pos (by omega), if_neg (by omega)]; rfl
    · have h1 := vote_computes (h := h) (mode := .all) (p := p) hd (fun _ => rfl)
      simp only [and_predMask, and_maskOf_eq] at h1
      exact h1
    · have h1 := vote_computes (h := h) (mode := .any) (p := p) hd (fun _ => rfl)
      simp only [and_predMask, and_maskOf_ne_zero] at h1
      exact h1
    · have h1 := vote_computes (h := h) (mode := .uni) (p := p) hd (fun _ => rfl)
      simp only [and_predMask, and_maskOf_eq, and_maskOf_eq_zero] at h1
      exact h1
    · refine issueVal_computes (rule := fun _ => .g) (fun _ => rfl) (fun _ => rfl) (fun v l => ?_) fun _ => .inr trivial
      simp only [and_maskOf_eq]
      rfl
    · exact issueVal_computes (rule := fun _ => .u) (fun _ => rfl) (fun _ => rfl) (fun _ _ => rfl) fun _ => .inr (fits_u fun _ _ _ _ => rfl)
  · intro h b s v M hi ha hl hu hin hlive
    obtain ⟨t, ht, hp⟩ := exec_wsync hi ha hl hu hin hlive
    refine ⟨t, v.synced M s.tsc v.w, ht, synced_only v M s.tsc v.w, ?_⟩
    show if v.allHere M = true then _ else _
    by_cases hd : v.allHere M = true
    · rw [if_pos hd]
      simp only [hd, if_true] at hp
      refine ⟨hp, fun l _ => ?_, fun l h32 => ?_⟩
      · rw [synced_here hd, nth_putWaits, nth_meet, nth_setWaits]
        split
        · rfl
        · rfl
      · rw [synced_here hd, putWaits_eq]
        exact (clkAt_meet _ M _ h32).trans (by rw [setWaits_eq]; rfl)
    · rw [if_neg hd]
      simp only [Bool.not_eq_true _ ▸ hd, Bool.false_eq_true, if_false] at hp
      rw [synced_waits hd] at hp ⊢
      exact ⟨hp, by rw [setWaits_eq], fun l _ => nth_setWaits ..⟩

end Sys2Proof.Machine
end

