-- ==== Sys2Proof/Proofs/Reducing.lean ====
section
/-! PROOF, of O15. REDW and SCANW (07 R136): the running combination that SCANW keeps, and the tree of REDW, which for the
associative operations is the combination in ascending lane order (04 R92). -/

namespace Sys2Proof.Machine

/- Combining. -/

theorem flags_or_zero (x : FFlags) : x ||| 0 = x := BitVec.or_zero

theorem flags_zero_or (x : FFlags) : 0 ||| x = x := BitVec.zero_or

/-- A combination is absent where both parts are. -/
theorem combine_eq_none {op : WOp} {a b : Part} : combine op a b = none ↔ a = none ∧ b = none := by
  cases a <;> cases b <;> simp [combine]

@[simp] theorem combine_none (op : WOp) (b : Part) : combine op none b = b := rfl

@[simp] theorem combine_none_right (op : WOp) (a : Part) : combine op a none = a := by cases a <;> rfl

@[simp] theorem combine_some (op : WOp) (x y : W32 × FFlags) :
    combine op (some x) (some y) = some ((wopStep op x.1 y.1).1, x.2 ||| y.2 ||| (wopStep op x.1 y.1).2) := rfl

/-- Two levels of a tree of an associative combination are one combination of three. -/
theorem combine_assoc {op : WOp} (hf : ∀ x y, (wopStep op x y).2 = 0)
    (ha : ∀ x y z, (wopStep op (wopStep op x y).1 z).1 = (wopStep op x (wopStep op y z).1).1) (a b c : Part) :
    combine op (combine op a b) c = combine op a (combine op b c) := by
  cases a with
  | none => rfl
  | some x =>
    cases b with
    | none => simp
    | some y =>
      cases c with
      | none => simp
      | some z => simp only [combine_some, hf, ha, flags_or_zero, BitVec.or_assoc]

/-- The integer operations set no flag (07 R136). -/
theorem wopStep_noFlag {op : WOp} (h1 : op ≠ .fadd) (h2 : op ≠ .fmin) (h3 : op ≠ .fmax) (x y : W32) : (wopStep op x y).2 = 0 := by
  cases op
  case fadd => exact absurd rfl h1
  case fmin => exact absurd rfl h2
  case fmax => exact absurd rfl h3
  all_goals rfl

/-- The lesser of two by a measure, and the greater, do not depend on the grouping. -/
theorem ite_le_assoc {α β : Type} [LinearOrder β] (f : α → β) (x y z : α) :
    (if f (if f x ≤ f y then x else y) ≤ f z then (if f x ≤ f y then x else y) else z) =
      if f x ≤ f (if f y ≤ f z then y else z) then x else if f y ≤ f z then y else z := by
  by_cases hxy : f x ≤ f y <;> by_cases hyz : f y ≤ f z <;> by_cases hxz : f x ≤ f z <;> simp only [hxy, hyz, hxz, if_true, if_false]
  · exact absurd (hxy.trans hyz) hxz
  · exact absurd (lt_of_lt_of_le (not_le.mp hyz) (le_of_lt (lt_of_lt_of_le (not_le.mp hxy) hxz))) (lt_irrefl _)

theorem ite_ge_assoc {α β : Type} [LinearOrder β] (f : α → β) (x y z : α) :
    (if f (if f x ≤ f y then y else x) ≤ f z then z else (if f x ≤ f y then y else x)) =
      if f x ≤ f (if f y ≤ f z then z else y) then (if f y ≤ f z then z else y) else x := by
  by_cases hxy : f x ≤ f y <;> by_cases hyz : f y ≤ f z <;> by_cases hxz : f x ≤ f z <;> simp only [hxy, hyz, hxz, if_true, if_false]
  · exact absurd (hxy.trans hyz) hxz
  · exact absurd (hxz.trans (le_of_lt (not_le.mp hyz))) hxy

/-- The integer operations are associative (04 R92). -/
theorem wopStep_assoc {op : WOp} (h1 : op ≠ .fadd) (h2 : op ≠ .fmin) (h3 : op ≠ .fmax) (x y z : W32) :
    (wopStep op (wopStep op x y).1 z).1 = (wopStep op x (wopStep op y z).1).1 := by
  cases op with
  | add => exact BitVec.add_assoc x y z
  | minI => exact ite_le_assoc BitVec.toInt x y z
  | maxI => exact ite_ge_assoc BitVec.toInt x y z
  | minN => exact ite_le_assoc BitVec.toNat x y z
  | maxN => exact ite_ge_assoc BitVec.toNat x y z
  | and => exact BitVec.and_assoc x y z
  | or => exact BitVec.or_assoc x y z
  | xor => exact BitVec.xor_assoc x y z
  | fadd => exact absurd rfl h1
  | fmin => exact absurd rfl h2
  | fmax => exact absurd rfl h3

/- The tree. -/

theorem treeLevel_length (op : WOp) (ps : List Part) : (treeLevel op ps).length = (ps.length + 1) / 2 := by
  induction ps using treeLevel.induct with
  | case1 a b rest ih => simp only [treeLevel, List.length_cons, ih]; omega
  | case2 ps h =>
    match ps, h with
    | [], _ => rfl
    | [_], _ => simp [treeLevel]
    | a :: b :: rest, h => exact absurd rfl (h a b rest)

/-- A level of the tree keeps the combination in order. -/
theorem foldl_treeLevel {op : WOp} (ha : ∀ a b c : Part, combine op (combine op a b) c = combine op a (combine op b c)) (ps : List Part) :
    ∀ p, (treeLevel op ps).foldl (combine op) p = ps.foldl (combine op) p := by
  induction ps using treeLevel.induct with
  | case1 a b rest ih => intro p; simp only [treeLevel, List.foldl_cons, ih, ha]
  | case2 ps h =>
    match ps, h with
    | [], _ => exact fun _ => rfl
    | [_], _ => exact fun _ => rfl
    | a :: b :: rest, h => exact absurd rfl (h a b rest)

/-- The tree over 32 parts is the combination in order. -/
theorem redwOf_eq_foldl {op : WOp} (ha : ∀ a b c : Part, combine op (combine op a b) c = combine op a (combine op b c)) {ps : List Part}
    (hn : ps.length = 32) : redwOf op ps = ps.foldl (combine op) none := by
  have hlen : (treeLevel op (treeLevel op (treeLevel op (treeLevel op (treeLevel op ps))))).length = 1 := by
    simp only [treeLevel_length, hn]
  have hfold : (treeLevel op (treeLevel op (treeLevel op (treeLevel op (treeLevel op ps))))).foldl (combine op) none = ps.foldl (combine op) none := by
    simp only [foldl_treeLevel ha]
  unfold redwOf
  obtain ⟨x, hx⟩ := List.length_eq_one_iff.mp hlen
  rw [hx] at hfold ⊢
  exact hfold

/-- Absent parts do not count. -/
theorem foldl_present (op : WOp) (c : Nat → Bool) (f : Nat → W32 × FFlags) (ls : List Nat) : ∀ p,
    (ls.map (fun l => if c l then some (f l) else none)).foldl (combine op) p
      = ((ls.filter c).map (fun l => some (f l))).foldl (combine op) p := by
  induction ls with
  | nil => exact fun _ => rfl
  | cons l ls ih =>
    intro p
    cases hc : c l <;> simp [hc, ih]

/-- Without flags a combination is one of the words. -/
theorem foldl_words {op : WOp} (hf : ∀ x y, (wopStep op x y).2 = 0) (xs : List W32) : ∀ y,
    (xs.map (fun x => some (x, (0 : FFlags)))).foldl (combine op) (some (y, 0)) = some (xs.foldl (fun y z => (wopStep op y z).1) y, 0) := by
  induction xs with
  | nil => exact fun _ => rfl
  | cons x xs ih =>
    intro y
    simp only [List.map_cons, List.foldl_cons, combine_some, hf, flags_or_zero, ih]

/-- The flags of no lane, or of one value in all. -/
theorem raised_const (v : View) (c : FFlags) : v.raised (fun _ => c) = if v.act = 0 then 0 else c := by
  have hrep (ls : List Nat) (hne : ls ≠ []) : (ls.map (fun _ => c)).foldl (· ||| ·) 0 = c := by
    obtain ⟨l, rest, rfl⟩ := List.exists_cons_of_ne_nil hne
    rw [List.map_cons, List.foldl_cons, flags_zero_or]
    clear hne
    induction rest with
    | nil => rfl
    | cons k rest ih => rw [List.map_cons, List.foldl_cons, BitVec.or_self]; exact ih
  unfold View.raised
  split
  · next h => rw [View.lanes, h]; rfl
  · next h =>
    obtain ⟨l, hl⟩ := mask_ne_zero h
    exact hrep _ (List.ne_nil_of_mem ((mem_lanesOf v.act l).mpr hl))

/-- An effect that writes words for every lane and raises flags. -/
theorem issue_flaggedOuts {s : State} {h : Hdr} {i : Instr} {v : View} {eff : View → State → Eff} (hi : Issues s h i v) (fs : List (Nat → W32))
    (g : Nat → FFlags) (he : eff v s = .done (v.flags (v.outs s (reqOf i v) (fs.map perLane)) (perLane g)))
    (hn : ((reqOf i v).writes.map Prod.fst).Nodup)
    (hf : ∀ x ∈ (reqOf i v).writes.zip (fs.map perLane), (reqOf i v).sat = true ∨ x.1.2.fits v.w v.act x.2) :
    ∃ t w, issue s h (reqOf i) eff = .next t ∧ Passes s v w (fun _ => v.next) t ∧ w = { v.flagged g v.w with regs := w.regs }
      ∧ RegsAfter v (((reqOf i v).writes.map Prod.fst).zip fs) w := by
  have hregs := outs_regs (fs := fs) hf hn
  obtain ⟨rs, os, hk⟩ := putAll_keeps v (reqOf i v).sat ((reqOf i v).writes.zip (fs.map perLane)) v.w
  have hF : (v.putAll (reqOf i v).sat v.w ((reqOf i v).writes.zip (fs.map perLane))).raiseFlags (v.g.rec_.flag 3) (v.raised g)
      = { v.flagged g v.w with regs := rs, ops := os } := by rw [hk, flagged_eq, raiseFlags_regs]
  obtain ⟨t, ht, hp⟩ := issue_modWarp hi (eff := eff)
    (F := fun w => (v.putAll (reqOf i v).sat w ((reqOf i v).writes.zip (fs.map perLane))).raiseFlags (v.g.rec_.flag 3) (v.raised g))
    (by rw [he, flags_eq, outs_eq, modWarp_modWarp]) (by rw [hF]; exact raiseFlags_lanes v.w _ _)
  rw [hF] at hp
  rw [hk] at hregs
  exact ⟨t, _, ht, hp.ops (v.flagged g v.w).ops, rfl, hregs⟩

theorem raised_none {v : View} (h : v.act = 0) (g : Nat → FFlags) : v.raised g = 0 := by unfold View.raised View.lanes; rw [h]; rfl

/-- No active lane raises nothing. -/
theorem flagged_none {v : View} (h : v.act = 0) (g : Nat → FFlags) : v.flagged g v.w = v.w := by
  have hand : (0 : FFlags) &&& v.w.fen = 0 := BitVec.zero_and
  unfold View.flagged
  rw [raised_none h, hand, flags_or_zero, bne_self_eq_false, Bool.and_false]
  rfl

/-- No active lane writes nothing. -/
theorem regsAfter_none {v : View} (h : v.act = 0) (outs : List (Nat × (Nat → W32))) : RegsAfter v outs v.w := by
  intro n l _
  have h0 : has (v.lanesTo n) l = false := by rw [View.lanesTo, h, has_and]; simp [has]
  cases outs.find? (fun x => x.1 == n) with
  | none => rfl
  | some x => simp [h0]

theorem parts_none {v : View} (h : v.act = 0) (op : WOp) (a : W9) : redwOf op (v.parts a) = none := by
  have hp : v.parts a = perLane (fun _ => none) := by unfold View.parts; rw [h]; simp [has]
  rw [hp]
  rfl

/-- A level of the tree is absent where all of it is. -/
theorem treeLevel_none (op : WOp) (ps : List Part) : (∀ p ∈ treeLevel op ps, p = none) ↔ ∀ p ∈ ps, p = none := by
  induction ps using treeLevel.induct with
  | case1 a b rest ih => simp only [treeLevel, List.forall_mem_cons, ih, combine_eq_none, and_assoc]
  | case2 ps h =>
    match ps, h with
    | [], _ => rfl
    | [_], _ => simp [treeLevel]
    | a :: b :: rest, h => exact absurd rfl (h a b rest)

/-- The tree over 32 parts has a result where some part is present. -/
theorem redwOf_none {op : WOp} {ps : List Part} (hn : ps.length = 32) (h : redwOf op ps = none) : ∀ p ∈ ps, p = none := by
  have hlen : (treeLevel op (treeLevel op (treeLevel op (treeLevel op (treeLevel op ps))))).length = 1 := by
    simp only [treeLevel_length, hn]
  have hnone : ∀ p ∈ treeLevel op (treeLevel op (treeLevel op (treeLevel op (treeLevel op ps)))), p = none := by
    unfold redwOf at h
    obtain ⟨x, hx⟩ := List.length_eq_one_iff.mp hlen
    rw [hx] at h ⊢
    exact List.forall_mem_singleton.mpr h
  simpa only [treeLevel_none] using hnone

theorem parts_some {v : View} (h : v.act ≠ 0) (op : WOp) (a : W9) : redwOf op (v.parts a) ≠ none := by
  intro hnone
  obtain ⟨l, hl⟩ := mask_ne_zero h
  have hmem : (if has v.act l then some (v.w.rd a.toNat l, (0 : FFlags)) else none) ∈ v.parts a :=
    List.mem_map_of_mem (List.mem_range.mpr (has_lt hl))
  rw [hl, if_pos rfl] at hmem
  exact absurd (redwOf_none (by simp [View.parts, perLane, allLanes]) hnone _ hmem) (Option.some_ne_none _)

theorem redw_computes (h : Hdr) (op : WOp) (d a : W9) :
    ComputesFlags (.redw h op d a) h (fun v => [(d.toNat, fun _ => ((redwOf op (v.parts a)).getD (0, 0)).1)])
      (fun v _ => ((redwOf op (v.parts a)).getD (0, 0)).2) := by
  intro s v hi
  show ∃ t w, execRedw h op d a s = .next t ∧ _
  unfold execRedw
  by_cases hact : v.act = 0
  · obtain ⟨-, -, -, hw, -⟩ := view_spec hi.view
    obtain ⟨t, ht, hp⟩ := issue_done (s' := s) (w := v.w) hi.view hi.goes hi.calm (eff := fun v s => match redwOf op (v.parts a) with
      | none => .done s
      | some r => .done (v.flags (v.outs s (reqOf (.redw h op d a) v) [perLane (fun _ => r.1)]) (perLane (fun _ => r.2))))
      (by rw [parts_none hact]) hw rfl
    exact ⟨t, v.w, ht, hp, by rw [flagged_none hact], regsAfter_none hact _⟩
  · obtain ⟨r, hr⟩ := Option.ne_none_iff_exists'.mp (parts_some hact op a)
    refine issue_flaggedOuts hi [fun _ => ((redwOf op (v.parts a)).getD (0, 0)).1] (fun _ => ((redwOf op (v.parts a)).getD (0, 0)).2) ?_
      (List.nodup_singleton _) fun x hx => .inr ?_
    · rw [hr]
      rfl
    · rw [List.mem_singleton.mp hx]
      exact fits_u (f := fun _ => _) fun _ _ _ _ => rfl

/- The running combination. -/

/-- The combination of the lanes of a mask below n. -/
def below (op : WOp) (m : Mask) (f : Nat → W32) (n : Nat) : Part :=
  (((List.range n).filter (has m)).map (fun k => some (f k, (0 : FFlags)))).foldl (combine op) none

theorem below_succ (op : WOp) (m : Mask) (f : Nat → W32) (n : Nat) :
    below op m f (n + 1) = if has m n then combine op (below op m f n) (some (f n, 0)) else below op m f n := by
  unfold below
  rw [List.range_succ, List.filter_append, List.map_append, List.foldl_append]
  cases hn : has m n <;> simp [hn]

/-- The active lanes below lane n. -/
theorem lanes_below (m : Mask) {n : Nat} (hn : n ≤ 32) : (lanesOf m).filter (fun k => k < n) = (List.range n).filter (has m) := by
  unfold lanesOf allLanes
  rw [List.filter_comm]
  congr 1
  obtain ⟨k, hk⟩ := Nat.exists_eq_add_of_le hn
  rw [hk, List.range_add, List.filter_append, List.filter_eq_self.mpr (fun x hx => by simpa using hx), List.filter_eq_nil_iff.mpr, List.append_nil]
  intro x hx
  obtain ⟨y, -, rfl⟩ := List.mem_map.mp hx
  simp

/-- What SCANW writes to a lane: the combination below it, and through it. -/
def scanLane (op : WOp) (m : Mask) (f : Nat → W32) (l : Nat) : W32 × W32 :=
  if has m l then (((below op m f l).getD (wopId op, 0)).1, ((combine op (below op m f l) (some (f l, 0))).getD (0, 0)).1) else (0, 0)

/-- One lane of the scan. -/
def scanStep (op : WOp) (acc : List (W32 × W32) × Part × FFlags) (p : Part) : List (W32 × W32) × Part × FFlags :=
  match p with
  | none => (acc.1 ++ [(0, 0)], acc.2.1, acc.2.2)
  | some x => (acc.1 ++ [((acc.2.1.getD (wopId op, 0)).1, ((combine op acc.2.1 (some x)).getD (0, 0)).1)],
      (combine op acc.2.1 (some x)).map (fun y => (y.1, 0)), acc.2.2 ||| ((combine op acc.2.1 (some x)).getD (0, 0)).2)

theorem scanOf_eq (op : WOp) (ps : List Part) :
    scanOf op ps = ((ps.foldl (scanStep op) ([], none, 0)).1, (ps.foldl (scanStep op) ([], none, 0)).2.2) := by
  have hstep : (fun (acc : List (W32 × W32) × Part × FFlags) (p : Part) => match p with
      | none => (acc.1 ++ [(0, 0)], acc.2.1, acc.2.2)
      | some x =>
        match combine op acc.2.1 (some x) with
        | some y => (acc.1 ++ [((match acc.2.1 with | some y => y.1 | none => wopId op), y.1)], some (y.1, 0), acc.2.2 ||| y.2)
        | none => acc) = scanStep op := by
    funext acc p
    obtain ⟨out, q, fl⟩ := acc
    cases p with
    | none => rfl
    | some x => cases q <;> rfl
  rw [← hstep]
  rfl

theorem foldl_scanStep (op : WOp) (m : Mask) (f : Nat → W32) (n : Nat) :
    ((List.range n).map (fun l => if has m l then some (f l, (0 : FFlags)) else none)).foldl (scanStep op) ([], none, 0)
      = ((List.range n).map (scanLane op m f), (below op m f n).map (fun y => (y.1, (0 : FFlags))), ((below op m f n).getD (0, 0)).2) := by
  induction n with
  | zero => rfl
  | succ n ih =>
    rw [List.range_succ, List.map_append, List.foldl_append, ih, List.map_append, below_succ]
    cases hn : has m n with
    | false => simp [hn, scanStep, scanLane]
    | true =>
      cases hb : below op m f n with
      | none => simp [hn, hb, scanStep, scanLane]
      | some y => simp [hn, hb, scanStep, scanLane]

/-- The scan over all lanes. -/
theorem scanOf_parts (op : WOp) (v : View) (a : W9) :
    scanOf op (v.parts a) = (perLane (scanLane op v.act (v.w.rd a.toNat)), ((below op v.act (v.w.rd a.toNat) 32).getD (0, 0)).2) := by
  have h := foldl_scanStep op v.act (v.w.rd a.toNat) 32
  rw [scanOf_eq]
  exact congrArg (fun x => (x.1, x.2.2)) h

/-- The flags of the combinations through each lane are those of the combination of all. -/
theorem foldl_below (op : WOp) (m : Mask) (f : Nat → W32) (n : Nat) :
    (((List.range n).filter (has m)).map (fun l => ((combine op (below op m f l) (some (f l, 0))).getD (0, 0)).2)).foldl (· ||| ·) 0
      = ((below op m f n).getD (0, 0)).2 := by
  induction n with
  | zero => rfl
  | succ n ih =>
    rw [List.range_succ, List.filter_append, List.map_append, List.foldl_append, ih, below_succ]
    cases hn : has m n with
    | false => simp [hn]
    | true =>
      cases hb : below op m f n with
      | none => simp [hn, hb]
      | some y => simp [hn, hb, ← BitVec.or_assoc]

/-- The registers of the active lanes are all that a list of outputs says. -/
theorem RegsAfter.congr {v : View} {d : Nat} {f g : Nat → W32} {w : Warp} (h : RegsAfter v [(d, f)] w)
    (hfg : ∀ l, has v.act l = true → f l = g l) : RegsAfter v [(d, g)] w := by
  intro n l hl
  refine (h n l hl).trans ?_
  by_cases hd : d = n
  · simp only [List.find?_cons_of_pos, beq_iff_eq, hd]
    split
    · next hto =>
      rw [View.lanesTo, has_and, Bool.and_eq_true] at hto
      exact hfg l hto.1
    · rfl
  · simp [hd]

theorem scanw_computes (h : Hdr) (op : WOp) (excl : Bool) (d a : W9) :
    ComputesFlags (.scanw h op excl d a) h (fun v => [(d.toNat, fun l => if excl then ((below op v.act (v.w.rd a.toNat) l).getD (wopId op, 0)).1
        else ((combine op (below op v.act (v.w.rd a.toNat) l) (some (v.w.rd a.toNat l, 0))).getD (0, 0)).1)])
      (fun v l => ((combine op (below op v.act (v.w.rd a.toNat) l) (some (v.w.rd a.toNat l, 0))).getD (0, 0)).2) := by
  intro s v hi
  have hraised : v.raised (fun _ => ((below op v.act (v.w.rd a.toNat) 32).getD (0, 0)).2)
      = v.raised (fun l => ((combine op (below op v.act (v.w.rd a.toNat) l) (some (v.w.rd a.toNat l, 0))).getD (0, 0)).2) := by
    rw [raised_const]
    refine Eq.trans ?_ (foldl_below op v.act (v.w.rd a.toNat) 32).symm
    split
    · next h => rw [h]; rfl
    · rfl
  obtain ⟨t, w, ht, hp, hw, hr⟩ := issue_flaggedOuts hi (i := .scanw h op excl d a)
    (eff := fun v s => .done (v.flags (v.outs s (reqOf (.scanw h op excl d a) v)
      [(scanOf op (v.parts a)).1.map (fun x => if excl then x.1 else x.2)]) (perLane (fun _ => (scanOf op (v.parts a)).2))))
    [fun l => if excl then (scanLane op v.act (v.w.rd a.toNat) l).1 else (scanLane op v.act (v.w.rd a.toNat) l).2]
    (fun _ => ((below op v.act (v.w.rd a.toNat) 32).getD (0, 0)).2) (by rw [scanOf_parts, perLane_map]; rfl) (List.nodup_singleton _)
    fun x hx => .inr (by rw [List.mem_singleton.mp hx]; trivial)
  refine ⟨t, w, ht, hp, hw.trans ?_, hr.congr fun l hl => ?_⟩
  · unfold View.flagged
    rw [hraised]
  · rw [scanLane, if_pos hl]

/-- Settles O15: SCANW by the lanes below each lane, REDW and its tree by the associativity of the integer operations. -/
theorem warpReductions : Obligations.WarpReductions := by
  unfold Obligations.WarpReductions
  refine ⟨fun h op excl d a => ⟨redw_computes h op d a, fun s v hi => ?_⟩, fun op m f h1 h2 h3 => ?_⟩
  · have hbelow {l : Nat} (hl : l < 32) : ((v.lanes.filter (fun k => k < l)).map (fun k => some (v.w.rd a.toNat k, (0 : FFlags)))).foldl (combine op) none
        = below op v.act (v.w.rd a.toNat) l := by rw [View.lanes, lanes_below v.act hl.le]; rfl
    obtain ⟨t, w, ht, hp, hw, hr⟩ := scanw_computes h op excl d a s v hi
    refine ⟨t, w, ht, hp, hw.trans ?_, hr.congr fun l hl => ?_⟩
    · unfold View.flagged View.raised
      rw [List.map_congr_left fun l hl => ?_]
      simp only [hbelow (has_lt ((mem_lanesOf v.act l).mp hl))]
    · simp only [hbelow (has_lt hl)]
  · rw [redwOf_eq_foldl (combine_assoc (wopStep_noFlag h1 h2 h3) (wopStep_assoc h1 h2 h3)) (by simp [perLane, allLanes])]
    refine (foldl_present op (has m) (fun l => (f l, (0 : FFlags))) allLanes none).trans ?_
    show ((lanesOf m).map _).foldl _ _ = _
    cases lanesOf m with
    | nil => rfl
    | cons x rest =>
      have hw := foldl_words (wopStep_noFlag h1 h2 h3) (rest.map f) (f x)
      rw [List.map_map] at hw
      exact hw

end Sys2Proof.Machine
end

