-- ==== Sys2Proof/Proofs/Posting.lean ====
section
/-! PROOF, of O28. BPV, BVM and BRST ask the home of a board and wait; VMPOP, VMTST and VMNEXT read a view mask (07 R158 to
R160). -/

namespace Sys2Proof.Machine

/-- An effect that changes the issuing warp and what lies outside the warps: the group goes on, and what lies outside is as the
effect left it. -/
theorem issue_flows {s s' : State} {h : Hdr} {i : Instr} {v : View} {w : Warp} {eff : View → State → Eff} (hi : Issues s h i v)
    (he : eff v s = .done s') (hw : tget s'.warps v.key = some w) (hl : w.lanes = v.w.lanes)
    (hk : ∀ k, k ≠ v.key → tget s'.warps k = tget s.warps k) (hc : s'.issueCount = s.issueCount) :
    ∃ t, issue s h (reqOf i) eff = .next t ∧ Flows s v w (fun _ => v.next) t
      ∧ t = { s' with warps := t.warps, issueCount := t.issueCount } := by
  obtain ⟨t, ht, hp⟩ := issue_done hi.view hi.goes hi.calm he hw hl
  obtain ⟨-, hrest, -⟩ := id hp
  exact ⟨t, ht, Passes.flows (w := w) (ops := w.ops) hp hc hk, by rw [hrest]⟩

/-- An effect that asks a board's home: the request joins those under way, and the warp waits for its answer. -/
theorem issue_asks {s : State} {h : Hdr} {i : Instr} {v : View} {eff : View → State → Eff} (hi : Issues s h i v) {r : BReq} {P : BReq → Prop}
    (he : eff v s = .done (s.ask v { r with key := s.nextKey })) (hr : P { r with key := s.nextKey, gen := (s.die v.die).gen }) :
    ∃ t w r, issue s h (reqOf i) eff = .next t ∧ Flows s v w (fun _ => v.next) t
      ∧ w = { v.w with wait := .board s.nextKey, waitSince := s.tsc }
      ∧ t = { s with warps := t.warps, nextKey := s.nextKey + 1, breqs := s.breqs ++ [r], issueCount := t.issueCount } ∧ P r := by
  obtain ⟨-, -, -, hw, -⟩ := view_spec hi.view
  obtain ⟨t, ht, hf, hrest⟩ := issue_flows hi he (w := { v.w with wait := .board s.nextKey, waitSince := s.tsc })
    (by show tget (tmod s.warps v.key _) v.key = _; rw [tget_tmod_self, hw]; rfl) rfl (fun k hk => tget_tmod_ne s.warps _ hk) rfl
  exact ⟨t, _, _, ht, hf, rfl, hrest, hr⟩

/-- The least of the bits of a mask that meets a condition. -/
theorem find_bits256 (m : BitVec 256) (c : Nat → Bool) :
    (bits256 m).find? c = (List.range 256).find? (fun i => m.getLsbD i && c i) := by
  rw [bits256, List.find?_filter]
  simp only [Bool.decide_and, Bool.decide_eq_true]

/-- Settles O28. -/
theorem boardsAndViewMasks : Obligations.BoardsAndViewMasks := by
  unfold Obligations.BoardsAndViewMasks
  constructor
  · intro h stale hd d a c vm s v key bd hb hact asks
    have hne : (v.act == 0) = false := by simpa using hact
    refine ⟨fun hrel hi => ?_, fun post hpost hi => ?_, fun hi => ?_⟩
    · show ∃ t w r, execBpv h stale d a hd c s = .next t ∧ _
      unfold execBpv
      refine issue_asks hi (r := { v.request s.nextKey key hd.toNat .bpv with
        lanes := v.lanes.map (fun l => ({ lane := l, value := v.w.rd64 a.toNat l, round := v.w.rd c.toNat l,
                                          slot := bd.slotOf (v.bidOf l) (v.tidOf l), clk := (v.w.clkAt l).all } : BLane)),
        dst := d.toNat, stale := stale.toNat }) ?_ ⟨rfl, rfl, rfl, rfl, rfl, rfl, rfl, rfl, rfl, rfl, List.map_map⟩
      simp only [hne, hb, hrel, Bool.false_eq_true, if_false]
      rfl
    · show ∃ t w r, execBvm h vm a hd s = .next t ∧ _
      unfold execBvm
      refine issue_asks hi (r := { v.request s.nextKey key hd.toNat .bvm with
        vm := vm.toNat, level := (v.w.rd a.toNat v.low).toNat, round := post }) ?_ ⟨rfl, rfl, rfl, rfl, rfl, rfl, rfl, rfl, rfl, rfl, rfl⟩
      simp only [hne, hb, hpost, Bool.false_eq_true, if_false]
      rfl
    · show ∃ t w r, execBrst h hd s = .next t ∧ _
      unfold execBrst
      refine issue_asks hi (r := v.request s.nextKey key hd.toNat .brst) ?_ ⟨rfl, rfl, rfl, rfl, rfl, rfl, rfl, rfl, trivial⟩
      simp only [hne, hb, Bool.false_eq_true, if_false]
      rfl
  · intro h d p vm b m
    refine ⟨?_, issuePred_computes (fun _ => rfl) fun _ _ => rfl, ?_⟩
    · exact issueVal_computes (rule := fun _ => .u) (fun _ => rfl) (fun _ => rfl)
        (fun v _ => congrArg (BitVec.ofNat 32) List.countP_eq_length_filter.symm) fun _ => .inr (fits_u fun _ _ _ _ => rfl)
    · refine issueVal_computes (rule := fun _ => .gen (srcRegs b)) (fun _ => rfl) (fun _ => rfl) (fun v l => by rw [find_bits256]; rfl)
        fun v => .inr (fits_alike fun l k hlk => ?_)
      rw [alike_srcB hlk]

end Sys2Proof.Machine
end

