-- ==== Sys2Proof/Proofs/Splitting.lean ====
section
/-! SUPPORT, for O16 and O18. The split table (01 R17): what splitting, merging and re-entry make of the entries on which the
threads stand. A thread that is on no entry and not held stays so, and the table comes into order again. -/

namespace Sys2Proof.Machine

/- Lanes, entries and their PCs. -/

theorem laneAt_idle (w : Warp) (l : Nat) : nth w.lanes l .idle = w.laneAt l ∨ (nth w.lanes l .idle = .idle ∧ w.laneAt l = .vacant) := by
  unfold Warp.laneAt nth
  cases w.lanes[l]? with
  | none => exact .inr ⟨rfl, rfl⟩
  | some x => exact .inl rfl

theorem has_group {w : Warp} {e l : Nat} (hl : l < 32) : has (w.groupOf e) l = true ↔ w.laneAt l = .on e := by
  rw [has_groupOf, decide_eq_true hl, Bool.true_and, beq_iff_eq]
  rcases laneAt_idle w l with h | ⟨h1, h2⟩
  · rw [h]
  · rw [h1, h2]
    exact ⟨nofun, nofun⟩

theorem live_laneAt {w : Warp} {l : Nat} (hl : l < 32) : has w.live l = (w.laneAt l).live := by
  rw [has_live, decide_eq_true hl, Bool.true_and]
  rcases laneAt_idle w l with h | ⟨h1, h2⟩
  · rw [h]
  · rw [h1, h2]; rfl

theorem has_held {w : Warp} {l : Nat} (hl : l < 32) : has w.heldMask l = true ↔ w.laneAt l = .held := by
  rw [Warp.heldMask, has_maskOf, decide_eq_true hl, Bool.true_and, beq_iff_eq]

theorem has_atPc {w : Warp} {m : Mask} {p : W64} {l : Nat} : has (w.atPc m p) l = true ↔ has m l = true ∧ w.pcAt l = p := by
  rw [Warp.atPc, has_and, has_maskOf, Bool.and_eq_true, Bool.and_eq_true, beq_iff_eq]
  exact ⟨fun h => ⟨h.1, h.2.2⟩, fun h => ⟨h.1, decide_eq_true (has_lt h.1), h.2⟩⟩

theorem laneAt_setLanes (w : Warp) (m : Mask) (x : LaneSt) {l : Nat} (hl : l < 32) :
    (w.setLanes m x).laneAt l = if has m l then x else w.laneAt l :=
  nth_map_range 32 (fun l => if has m l then x else w.laneAt l) l .vacant hl

@[simp] theorem pcAt_setLanes (w : Warp) (m : Mask) (x : LaneSt) (l : Nat) : (w.setLanes m x).pcAt l = w.pcAt l := rfl

/-- The PC of an entry in use is that of a thread on it. -/
theorem entryPc_some {w : Warp} {e : Nat} {p : W64} (h : w.entryPc e = some p) : ∃ l, l < 32 ∧ w.laneAt l = .on e ∧ w.pcAt l = p := by
  obtain ⟨l, hl, hp⟩ := Option.map_eq_some_iff.mp h
  have hm := (mem_lanesOf _ l).mp (List.mem_of_mem_head? hl)
  exact ⟨l, has_lt hm, (has_group (has_lt hm)).mp hm, hp⟩

theorem entryPc_ne_none {w : Warp} {e l : Nat} (hl : l < 32) (h : w.laneAt l = .on e) : w.entryPc e ≠ none := by
  intro hn
  have hm := (mem_lanesOf _ l).mpr ((has_group hl).mpr h)
  rw [Warp.entryPc, Option.map_eq_none_iff, lowest, List.head?_eq_none_iff] at hn
  rw [hn] at hm
  exact List.not_mem_nil hm

theorem mem_entries {w : Warp} {e : Nat} : e ∈ w.entries ↔ e < 8 ∧ ∃ l, l < 32 ∧ w.laneAt l = .on e := by
  rw [Warp.entries, List.mem_filter, List.mem_range, bne_iff_ne]
  refine and_congr_right fun _ => ⟨fun h => ?_, fun ⟨l, hl, h⟩ h0 => ?_⟩
  · obtain ⟨l, hl⟩ := mask_ne_zero h
    exact ⟨l, has_lt hl, (has_group (has_lt hl)).mp hl⟩
  · have := (has_group hl).mpr h
    rw [h0] at this
    exact absurd this (by simp [has])

theorem freeEntry_some {w : Warp} {e : Nat} (h : w.freeEntry = some e) : e < 8 ∧ ∀ l, l < 32 → w.laneAt l ≠ .on e := by
  refine ⟨List.mem_range.mp (List.mem_of_find?_eq_some h), fun l hl hon => ?_⟩
  have h0 : w.groupOf e = 0 := by simpa using List.find?_some h
  have := (has_group hl).mpr hon
  rw [h0] at this
  exact absurd this (by simp [has])

/- The distinct PCs of some threads. -/

theorem mem_insertPc {p q : W64} {ps : List W64} : q ∈ insertPc p ps ↔ q = p ∨ q ∈ ps := by
  induction ps with
  | nil => simp [insertPc]
  | cons x ps ih =>
    unfold insertPc
    split
    · simp
    · split
      · next h => subst h; simp
      · rw [List.mem_cons, ih, List.mem_cons]
        exact ⟨fun h => h.elim (fun h => .inr (.inl h)) (fun h => h.elim .inl (fun h => .inr (.inr h))),
          fun h => h.elim (fun h => .inr (.inl h)) (fun h => h.elim .inl (fun h => .inr (.inr h)))⟩

theorem insertPc_rising (p : W64) {ps : List W64} (h : ps.Pairwise (fun a b => a.toNat < b.toNat)) :
    (insertPc p ps).Pairwise (fun a b => a.toNat < b.toNat) := by
  induction ps with
  | nil => exact List.pairwise_singleton _ _
  | cons x ps ih =>
    obtain ⟨hx, hps⟩ := List.pairwise_cons.mp h
    unfold insertPc
    split
    · next hlt =>
      refine List.pairwise_cons.mpr ⟨fun y hy => ?_, h⟩
      rcases List.mem_cons.mp hy with rfl | hy
      · exact hlt
      · exact hlt.trans (hx y hy)
    · split
      · exact h
      · next hlt hne =>
        refine List.pairwise_cons.mpr ⟨fun y hy => ?_, ih hps⟩
        rcases mem_insertPc.mp hy with rfl | hy
        · have : x.toNat ≠ y.toNat := fun hc => hne (BitVec.eq_of_toNat_eq hc.symm)
          omega
        · exact hx y hy

theorem pcsOf_rising (w : Warp) (m : Mask) : (w.pcsOf m).Pairwise (fun a b => a.toNat < b.toNat) := by
  unfold Warp.pcsOf
  have h (ls : List Nat) : ∀ ps : List W64, ps.Pairwise (fun a b => a.toNat < b.toNat) →
      (ls.foldl (fun ps l => insertPc (w.pcAt l) ps) ps).Pairwise (fun a b => a.toNat < b.toNat) := by
    induction ls with
    | nil => exact fun _ h => h
    | cons l ls ih => exact fun ps hps => ih _ (insertPc_rising _ hps)
  exact h _ [] List.Pairwise.nil

theorem mem_pcsOf {w : Warp} {m : Mask} {p : W64} : p ∈ w.pcsOf m ↔ ∃ l, has m l = true ∧ w.pcAt l = p := by
  unfold Warp.pcsOf
  have h (ls : List Nat) : ∀ ps : List W64, p ∈ ls.foldl (fun ps l => insertPc (w.pcAt l) ps) ps ↔ p ∈ ps ∨ ∃ l ∈ ls, w.pcAt l = p := by
    induction ls with
    | nil => simp
    | cons l ls ih =>
      intro ps
      rw [List.foldl_cons, ih, mem_insertPc, List.exists_mem_cons_iff, or_comm (a := p = _), or_assoc, eq_comm (a := p)]
  simp only [h, List.not_mem_nil, false_or, mem_lanesOf]

/- The table in order. -/

/-- The table is in order, but that entry e may share its PC with another. -/
structure Warp.Apart (w : Warp) (e : Nat) : Prop where
  low : ∀ l f, l < 32 → w.laneAt l = .on f → f < 8
  one : ∀ l k f, l < 32 → k < 32 → w.laneAt l = .on f → w.laneAt k = .on f → w.pcAt l = w.pcAt k
  far : ∀ l k f g, l < 32 → k < 32 → w.laneAt l = .on f → w.laneAt k = .on g → f ≠ e → g ≠ e → w.pcAt l = w.pcAt k → f = g

/-- No entry has the number 8. -/
theorem tableOk_iff {w : Warp} : w.tableOk ↔ w.Apart 8 := by
  constructor
  · rintro ⟨h1, h2⟩
    exact ⟨h1, fun l k f hl hk ha hb => (h2 l k f f hl hk ha hb).mp rfl, fun l k f g hl hk ha hb _ _ hp => (h2 l k f g hl hk ha hb).mpr hp⟩
  · rintro ⟨h1, h2, h3⟩
    refine ⟨h1, fun l k f g hl hk ha hb => ⟨fun h => h2 l k f hl hk ha (h ▸ hb), fun hp => ?_⟩⟩
    exact h3 l k f g hl hk ha hb (h1 l f hl ha).ne (h1 k g hk hb).ne hp

/-- The PC of an entry is that of every thread on it. -/
theorem Warp.Apart.entryPc {w : Warp} {e f l : Nat} (h : w.Apart e) (hl : l < 32) (hon : w.laneAt l = .on f) : w.entryPc f = some (w.pcAt l) := by
  cases hp : w.entryPc f with
  | none => exact absurd hp (entryPc_ne_none hl hon)
  | some p =>
    obtain ⟨k, hk, hkon, rfl⟩ := entryPc_some hp
    rw [h.one k l f hk hl hkon hon]

/-- Threads at one PC come to an entry at that PC. -/
theorem Warp.Apart.setOn {w : Warp} {e e2 f : Nat} {m : Mask} {p : W64} (h : w.Apart e) (hf : f < 8) (hm : ∀ l, has m l = true → w.pcAt l = p)
    (hin : ∀ l, l < 32 → has m l = false → w.laneAt l = .on f → w.pcAt l = p)
    (hout : ∀ l g, l < 32 → has m l = false → w.laneAt l = .on g → g ≠ e2 → w.pcAt l = p → g = f)
    (he : ∀ l g, l < 32 → has m l = false → w.laneAt l = .on g → g ≠ e2 → g ≠ e) : (w.setLanes m (.on f)).Apart e2 := by
  have hpc (l : Nat) (hl : l < 32) (hon : (w.setLanes m (.on f)).laneAt l = .on f) : w.pcAt l = p := by
    rw [laneAt_setLanes w m _ hl] at hon
    cases hml : has m l with
    | true => exact hm l hml
    | false => exact hin l hl hml (by rwa [hml, if_neg Bool.false_ne_true] at hon)
  have hold {l g : Nat} (hl : l < 32) (hon : (w.setLanes m (.on f)).laneAt l = .on g) (hg : g ≠ f) : has m l = false ∧ w.laneAt l = .on g := by
    rw [laneAt_setLanes w m _ hl] at hon
    cases hml : has m l with
    | true => rw [hml, if_pos rfl, LaneSt.on.injEq] at hon; exact absurd hon.symm hg
    | false => exact ⟨rfl, by rwa [hml, if_neg Bool.false_ne_true] at hon⟩
  refine ⟨fun l g hl hon => ?_, fun l k g hl hk ha hb => ?_, fun l k g g' hl hk ha hb hg hg' hp => ?_⟩
  · by_cases hg : g = f
    · exact hg ▸ hf
    · exact h.low l g hl (hold hl hon hg).2
  · by_cases hg : g = f
    · subst hg
      exact (hpc l hl ha).trans (hpc k hk hb).symm
    · exact h.one l k g hl hk (hold hl ha hg).2 (hold hk hb hg).2
  · by_cases h1 : g = f
    · subst h1
      by_contra h2
      obtain ⟨hmk, hk2⟩ := hold hk hb (Ne.symm h2)
      exact h2 (hout k g' hk hmk hk2 hg' (hp.symm.trans (hpc l hl ha))).symm
    · obtain ⟨hml, hl2⟩ := hold hl ha h1
      by_cases h2 : g' = f
      · subst h2
        exact hout l g hl hml hl2 hg (hp.trans (hpc k hk hb))
      · obtain ⟨hmk, hk2⟩ := hold hk hb h2
        exact h.far l k g g' hl hk hl2 hk2 (he l g hl hml hl2 hg) (he k g' hk hmk hk2 hg') hp

/-- Threads leave their entries. -/
theorem Warp.Apart.setOff {w : Warp} {e : Nat} {m : Mask} {x : LaneSt} (h : w.Apart e) (hx : ∀ f, x ≠ .on f) : (w.setLanes m x).Apart e := by
  have hold {l g : Nat} (hl : l < 32) (hon : (w.setLanes m x).laneAt l = .on g) : w.laneAt l = .on g := by
    rw [laneAt_setLanes w m _ hl] at hon
    split at hon
    · exact absurd hon (hx g)
    · exact hon
  exact ⟨fun l g hl ha => h.low l g hl (hold hl ha), fun l k g hl hk ha hb => h.one l k g hl hk (hold hl ha) (hold hk hb),
    fun l k g g' hl hk ha hb hg hg' hp => h.far l k g g' hl hk (hold hl ha) (hold hk hb) hg hg' hp⟩

/- Threads move between entries only. -/

/-- Only the entries of threads change that are on one or held, and they stay so. -/
def Regroups (w w' : Warp) : Prop :=
  w' = { w with lanes := w'.lanes } ∧ ∀ l, l < 32 → (w'.laneAt l).live = (w.laneAt l).live ∧ ((w.laneAt l).live = false → w'.laneAt l = w.laneAt l)

theorem Regroups.refl (w : Warp) : Regroups w w := ⟨rfl, fun _ _ => ⟨rfl, fun _ => rfl⟩⟩

theorem Regroups.trans {a b c : Warp} (h1 : Regroups a b) (h2 : Regroups b c) : Regroups a c := by
  obtain ⟨e1, f1⟩ := h1
  obtain ⟨e2, f2⟩ := h2
  refine ⟨by rw [e1] at e2; exact e2, fun l hl => ⟨(f2 l hl).1.trans (f1 l hl).1, fun h => ?_⟩⟩
  exact ((f2 l hl).2 ((f1 l hl).1.trans h)).trans ((f1 l hl).2 h)

theorem Regroups.pcAt {w w' : Warp} (h : Regroups w w') (l : Nat) : w'.pcAt l = w.pcAt l := by rw [h.1]; rfl

theorem setLanes_regroups {w : Warp} {m : Mask} {x : LaneSt} (hx : x.live = true) (hm : ∀ l, l < 32 → has m l = true → (w.laneAt l).live = true) :
    Regroups w (w.setLanes m x) := by
  refine ⟨rfl, fun l hl => ?_⟩
  rw [laneAt_setLanes w m x hl]
  split
  · next h => exact ⟨hx.trans (hm l hl h).symm, fun h0 => absurd h0 (by rw [hm l hl h]; exact Bool.noConfusion)⟩
  · exact ⟨rfl, fun _ => rfl⟩

theorem foldl_regroups {α : Type} {w : Warp} {f : Warp → α → Warp} (hf : ∀ x a, Regroups w x → Regroups x (f x a)) (as : List α) :
    ∀ x, Regroups w x → Regroups w (as.foldl f x) := by
  induction as with
  | nil => exact fun _ h => h
  | cons a as ih => exact fun x h => ih (f x a) (h.trans (hf x a h))

theorem group_live {w : Warp} {e l : Nat} (hl : l < 32) (h : has (w.groupOf e) l = true) : (w.laneAt l).live = true := by
  rw [(has_group hl).mp h]; rfl

theorem held_live {w : Warp} {p : W64} {l : Nat} (hl : l < 32) (h : has (w.atPc w.heldMask p) l = true) : (w.laneAt l).live = true := by
  rw [(has_held hl).mp (has_atPc.mp h).1]; rfl

theorem place_regroups {w : Warp} {m : Mask} (hm : ∀ l, l < 32 → has m l = true → (w.laneAt l).live = true) (p : W64) : Regroups w (w.place m p) := by
  unfold Warp.place
  split
  · exact setLanes_regroups rfl hm
  · split
    · exact setLanes_regroups rfl hm
    · exact setLanes_regroups rfl hm

theorem splitGroup_regroups (w : Warp) (e : Nat) : Regroups w (w.splitGroup e) := by
  unfold Warp.splitGroup
  simp only
  split
  · exact .refl w
  · next p ps _ =>
    have hrest {l : Nat} (hl : l < 32) (h : has (w.groupOf e &&& ~~~ w.atPc (w.groupOf e) p) l = true) : (w.laneAt l).live = true := by
      rw [has_and, Bool.and_eq_true] at h
      exact group_live hl h.1
    refine foldl_regroups (fun x q hx => place_regroups (fun l hl h => ?_) q) _ _ (setLanes_regroups rfl fun l hl h => hrest hl h)
    rw [(hx.2 l hl).1]
    exact hrest hl (has_atPc.mp h).1

theorem mergeEntry_regroups (w : Warp) (e : Nat) : Regroups w (w.mergeEntry e) := by
  unfold Warp.mergeEntry
  split
  · exact .refl w
  · split
    · exact .refl w
    · refine setLanes_regroups rfl fun l hl h => ?_
      rw [has_or, Bool.or_eq_true] at h
      exact h.elim (group_live hl) (group_live hl)

/-- Held threads join the entries at their PC. -/
def Warp.joinHeld (w : Warp) (es : List Nat) : Warp :=
  es.foldl (fun w e =>
    match w.entryPc e with
    | some p => w.setLanes (w.atPc w.heldMask p) (.on e)
    | none => w) w

/-- The held threads of the lowest PC take a free entry. -/
def Warp.enterHeld (w : Warp) : Warp :=
  match w.freeEntry, w.pcsOf w.heldMask with
  | some e, p :: _ => w.setLanes (w.atPc w.heldMask p) (.on e)
  | _, _ => w

/-- One round of re-entry. -/
def Warp.reenterOnce (w : Warp) : Warp := if w.heldMask = 0 then w else (w.joinHeld w.entries).enterHeld

theorem reenter_eq (w : Warp) : w.reenter = (List.range 8).foldl (fun w _ => w.reenterOnce) w := by
  unfold Warp.reenter
  refine List.foldl_ext _ _ _ fun x n _ => ?_
  unfold Warp.reenterOnce
  split
  · rfl
  · rfl

theorem joinHeld_regroups (w : Warp) (es : List Nat) : Regroups w (w.joinHeld es) := by
  refine foldl_regroups (fun x e _ => ?_) es w (.refl w)
  split
  · exact setLanes_regroups rfl fun l => held_live
  · exact .refl x

theorem enterHeld_regroups (w : Warp) : Regroups w w.enterHeld := by
  unfold Warp.enterHeld
  split
  · exact setLanes_regroups rfl fun l => held_live
  · exact .refl w

theorem reenter_regroups (w : Warp) : Regroups w w.reenter := by
  rw [reenter_eq]
  refine foldl_regroups (fun x _ _ => ?_) _ w (.refl w)
  unfold Warp.reenterOnce
  split
  · exact .refl x
  · exact (joinHeld_regroups x _).trans (enterHeld_regroups _)

theorem goto_regroups (w : Warp) (e : Nat) (f : Nat → W64) : Regroups (w.setPcs (w.groupOf e) f) (w.goto e f) :=
  ((splitGroup_regroups _ e).trans (mergeEntry_regroups _ e)).trans (reenter_regroups _)

/- A split. -/

/-- Where the threads of a further PC come to stand: on an entry at that PC or a free one, or held. -/
theorem place_spec {w : Warp} {e : Nat} {m : Mask} {q : W64} (h : w.Apart e) (hm : ∀ l, has m l = true → w.pcAt l = q)
    (hkeep : ∃ l, l < 32 ∧ w.laneAt l = .on e) (he : ∀ l, l < 32 → w.laneAt l = .on e → w.pcAt l ≠ q) :
    ∃ x : LaneSt, w.place m q = w.setLanes m x ∧ x.live = true ∧ x ≠ .on e ∧ (w.setLanes m x).Apart e := by
  unfold Warp.place
  split
  · next f hfind =>
    obtain ⟨k, hk, hkon, hkq⟩ := entryPc_some (by simpa using List.find?_some hfind)
    have hfe : f ≠ e := fun hc => he k hk (hc ▸ hkon) hkq
    refine ⟨.on f, rfl, rfl, by simpa using hfe, h.setOn (h.low k f hk hkon) hm (fun l hl _ hon => ?_) (fun l g hl _ hon hg hp => ?_) fun _ _ _ _ _ hg => hg⟩
    · rw [← hkq, h.one l k f hl hk hon hkon]
    · exact h.far l k g f hl hk hon hkon hg hfe (hp.trans hkq.symm)
  · next hnone =>
    have hno (l g : Nat) (hl : l < 32) (hon : w.laneAt l = .on g) : w.pcAt l ≠ q := fun hp => by
      have := List.find?_eq_none.mp hnone g (mem_entries.mpr ⟨h.low l g hl hon, l, hl, hon⟩)
      rw [h.entryPc hl hon, hp, beq_self_eq_true] at this
      exact this rfl
    split
    · next f hfree =>
      obtain ⟨hf, hempty⟩ := freeEntry_some hfree
      obtain ⟨k, hk, hkon⟩ := hkeep
      refine ⟨.on f, rfl, rfl, fun hc => hempty k hk (hkon.trans hc.symm), h.setOn hf hm (fun l hl _ hon => absurd hon (hempty l hl))
        (fun l g hl _ hon _ hp => absurd hp (hno l g hl hon)) fun _ _ _ _ _ hg => hg⟩
    · exact ⟨.held, rfl, rfl, nofun, h.setOff nofun⟩

/-- The threads of a split that leave the entry. -/
def Warp.leaves (w : Warp) (e : Nat) (p : W64) : Mask := w.groupOf e &&& ~~~ w.atPc (w.groupOf e) p

theorem has_leaves {w : Warp} {e l : Nat} {p : W64} (hl : l < 32) : has (w.leaves e p) l = true ↔ w.laneAt l = .on e ∧ w.pcAt l ≠ p := by
  have h := has_atPc (w := w) (m := w.groupOf e) (p := p) (l := l)
  have hg := has_group (w := w) (e := e) hl
  rw [Warp.leaves, has_and, has_not, decide_eq_true hl, Bool.true_and, Bool.and_eq_true, Bool.not_eq_true', ← hg, ← Bool.not_eq_true, h]
  exact ⟨fun ⟨ha, hb⟩ => ⟨ha, fun hp => hb ⟨ha, hp⟩⟩, fun ⟨ha, hb⟩ => ⟨ha, fun hc => hb hc.2⟩⟩

theorem splitGroup_cons {w : Warp} {e : Nat} {p : W64} {ps : List W64} (h : w.pcsOf (w.groupOf e) = p :: ps) :
    w.splitGroup e = ps.foldl (fun x q => x.place (x.atPc (w.leaves e p) q) q) (w.setLanes (w.leaves e p) .held) := by
  unfold Warp.splitGroup
  simp only [h]
  rfl

/-- What a split keeps while its further PCs find their entries. -/
structure SplitInv (w : Warp) (e : Nat) (p : W64) (x : Warp) : Prop where
  apart : x.Apart e
  regroups : Regroups w x
  keep : ∀ l, l < 32 → (x.laneAt l = .on e ↔ w.laneAt l = .on e ∧ w.pcAt l = p)

/-- The group of an entry may stand at any PCs: with the group away, the table is in order. -/
theorem splitInv_start {w : Warp} {e : Nat} (p : W64) (h : (w.setLanes (w.groupOf e) .held).Apart 8) (he : e < 8) :
    SplitInv w e p (w.setLanes (w.leaves e p) .held) := by
  have hold {l f : Nat} (hl : l < 32) (hon : (w.setLanes (w.leaves e p) .held).laneAt l = .on f) :
      w.laneAt l = .on f ∧ (f = e → w.pcAt l = p) := by
    rw [laneAt_setLanes w _ _ hl] at hon
    split at hon
    · exact absurd hon nofun
    · next hno =>
      refine ⟨hon, fun hf => ?_⟩
      by_contra hp
      exact hno ((has_leaves hl).mpr ⟨hf ▸ hon, hp⟩)
  have haway {l f : Nat} (hl : l < 32) (hon : w.laneAt l = .on f) (hf : f ≠ e) : (w.setLanes (w.groupOf e) .held).laneAt l = .on f := by
    rw [laneAt_setLanes w _ _ hl, if_neg (fun hc => hf ?_)]
    · exact hon
    · rw [(has_group hl).mp hc, LaneSt.on.injEq] at hon
      exact hon.symm
  refine ⟨⟨fun l f hl ha => ?_, fun l k f hl hk ha hb => ?_, fun l k f g hl hk ha hb hf hg hp => ?_⟩, setLanes_regroups rfl fun l hl hm => ?_, fun l hl => ?_⟩
  · by_cases hf : f = e
    · exact hf ▸ he
    · exact h.low l f hl (haway hl (hold hl ha).1 hf)
  · by_cases hf : f = e
    · exact ((hold hl ha).2 hf).trans ((hold hk hb).2 hf).symm
    · exact h.one l k f hl hk (haway hl (hold hl ha).1 hf) (haway hk (hold hk hb).1 hf)
  · have h1 := haway hl (hold hl ha).1 hf
    have h2 := haway hk (hold hk hb).1 hg
    exact h.far l k f g hl hk h1 h2 (h.low l f hl h1).ne (h.low k g hk h2).ne hp
  · rw [((has_leaves hl).mp hm).1]
    rfl
  · refine ⟨fun hon => ⟨(hold hl hon).1, (hold hl hon).2 rfl⟩, fun ⟨hon, hp⟩ => ?_⟩
    rw [laneAt_setLanes w _ _ hl, if_neg (fun hc => ((has_leaves hl).mp hc).2 hp)]
    exact hon

theorem splitInv_place {w x : Warp} {e : Nat} {p q : W64} (h : SplitInv w e p x) (hq : q ≠ p) (hkeep : ∃ l, l < 32 ∧ w.laneAt l = .on e ∧ w.pcAt l = p) :
    SplitInv w e p (x.place (x.atPc (w.leaves e p) q) q) := by
  obtain ⟨ha, hr, hk⟩ := h
  obtain ⟨k, hk32, hkon, hkp⟩ := hkeep
  obtain ⟨y, hy, hlive, hne, hapart⟩ := place_spec ha (m := x.atPc (w.leaves e p) q) (q := q) (fun l hl => (has_atPc.mp hl).2)
    ⟨k, hk32, (hk k hk32).mpr ⟨hkon, hkp⟩⟩ fun l hl hon hc => hq (hc.symm.trans ((hr.pcAt l).trans ((hk l hl).mp hon).2))
  have hmask {l : Nat} (hl : l < 32) (hm : has (x.atPc (w.leaves e p) q) l = true) : w.laneAt l = .on e ∧ w.pcAt l ≠ p :=
    (has_leaves hl).mp (has_atPc.mp hm).1
  rw [hy]
  refine ⟨hapart, hr.trans (setLanes_regroups hlive fun l hl hm => ?_), fun l hl => ?_⟩
  · rw [(hr.2 l hl).1, (hmask hl hm).1]
    rfl
  · rw [laneAt_setLanes x _ _ hl]
    split
    · next hm => exact ⟨fun hc => absurd hc hne, fun hc => absurd hc.2 (hmask hl hm).2⟩
    · exact hk l hl

/-- A split: the lowest PC keeps the entry, and every other PC is apart from all. -/
theorem splitGroup_inv {w : Warp} {e : Nat} {p : W64} {ps : List W64} (hps : w.pcsOf (w.groupOf e) = p :: ps)
    (h : (w.setLanes (w.groupOf e) .held).Apart 8) (he : e < 8) : SplitInv w e p (w.splitGroup e) := by
  have hrise := pcsOf_rising w (w.groupOf e)
  rw [hps, List.pairwise_cons] at hrise
  obtain ⟨k, hk, hkp⟩ := mem_pcsOf.mp (hps ▸ List.mem_cons_self : p ∈ w.pcsOf (w.groupOf e))
  have hkeep : ∃ l, l < 32 ∧ w.laneAt l = .on e ∧ w.pcAt l = p := ⟨k, has_lt hk, (has_group (has_lt hk)).mp hk, hkp⟩
  rw [splitGroup_cons hps]
  have hfold (qs : List W64) (hqs : ∀ q ∈ qs, q ≠ p) : ∀ x, SplitInv w e p x →
      SplitInv w e p (qs.foldl (fun x q => x.place (x.atPc (w.leaves e p) q) q) x) := by
    induction qs with
    | nil => exact fun _ h => h
    | cons q qs ih =>
      exact fun x hx => ih (fun q' hq' => hqs q' (List.mem_cons_of_mem _ hq')) _ (splitInv_place hx (hqs q List.mem_cons_self) hkeep)
  exact hfold ps (fun q hq hc => absurd (hrise.1 q hq) (by rw [hc]; exact lt_irrefl _)) _ (splitInv_start p h he)

theorem splitGroup_apart {w : Warp} {e : Nat} (h : (w.setLanes (w.groupOf e) .held).Apart 8) (he : e < 8) (hne : w.groupOf e ≠ 0) :
    (w.splitGroup e).Apart e := by
  cases hps : w.pcsOf (w.groupOf e) with
  | nil =>
    obtain ⟨l, hl⟩ := mask_ne_zero hne
    exact absurd (hps ▸ mem_pcsOf.mpr ⟨l, hl, rfl⟩ : w.pcAt l ∈ []) List.not_mem_nil
  | cons p ps => exact (splitGroup_inv hps h he).apart

/- A merge. -/

/-- An entry at the PC of another joins it at the lower index; with no other at its PC nothing moves. -/
theorem mergeEntry_apart {w : Warp} {e : Nat} (h : w.Apart e) : (w.mergeEntry e).Apart 8 := by
  have halone (hno : ∀ l k f, l < 32 → k < 32 → w.laneAt l = .on e → w.laneAt k = .on f → f ≠ e → w.pcAt l ≠ w.pcAt k) : w.Apart 8 := by
    refine ⟨h.low, h.one, fun l k f g hl hk ha hb _ _ hp => ?_⟩
    by_cases hf : f = e
    · by_contra hc
      exact hno l k g hl hk (hf ▸ ha) hb (fun hg => hc (hf.trans hg.symm)) hp
    · by_cases hg : g = e
      · exact absurd hp.symm (hno k l f hk hl (hg ▸ hb) ha hf)
      · exact h.far l k f g hl hk ha hb hf hg hp
  unfold Warp.mergeEntry
  split
  · next hnone => exact halone fun l _ _ hl _ ha _ _ => absurd hnone (entryPc_ne_none hl ha)
  · next p hp =>
    obtain ⟨k0, hk0, hk0on, hk0p⟩ := entryPc_some hp
    split
    · next hnone =>
      refine halone fun l k f hl hk ha hb hf hc => ?_
      have hp' : w.entryPc f = some p := by rw [h.entryPc hk hb, ← hc, h.one l k0 e hl hk0 ha hk0on, hk0p]
      have := List.find?_eq_none.mp hnone f (mem_entries.mpr ⟨h.low k f hk hb, k, hk, hb⟩)
      rw [hp', beq_self_eq_true, Bool.and_true] at this
      exact this (by simpa using hf)
    · next f hfind =>
      have hf := List.find?_some hfind
      rw [Bool.and_eq_true, bne_iff_ne, beq_iff_eq] at hf
      obtain ⟨hfe, hfp⟩ := hf
      obtain ⟨k1, hk1, hk1on, hk1p⟩ := entryPc_some hfp
      have hmask {l : Nat} (hl : l < 32) : has (w.groupOf e ||| w.groupOf f) l = true ↔ w.laneAt l = .on e ∨ w.laneAt l = .on f := by
        rw [has_or, Bool.or_eq_true, has_group hl, has_group hl]
      have hout {l g : Nat} (hl : l < 32) (hm : has (w.groupOf e ||| w.groupOf f) l = false) (hon : w.laneAt l = .on g) : g ≠ e ∧ g ≠ f := by
        have hn := fun hc => Bool.eq_false_iff.mp hm ((hmask hl).mpr hc)
        exact ⟨fun hc => hn (.inl (hc ▸ hon)), fun hc => hn (.inr (hc ▸ hon))⟩
      refine h.setOn (f := min e f) (p := p) ?_ (fun l hm => ?_) (fun l hl hm hon => ?_) (fun l g hl hm hon _ hp => ?_)
        fun l g hl hm hon _ => (hout hl hm hon).1
      · exact lt_of_le_of_lt (Nat.min_le_left e f) (h.low k0 e hk0 hk0on)
      · rcases (hmask (has_lt hm)).mp hm with hon | hon
        · rw [h.one l k0 e (has_lt hm) hk0 hon hk0on, hk0p]
        · rw [h.one l k1 f (has_lt hm) hk1 hon hk1on, hk1p]
      · have := hout hl hm hon
        omega
      · exact absurd (h.far l k1 g f hl hk1 hon hk1on (hout hl hm hon).1 hfe (hp.trans hk1p.symm)) (hout hl hm hon).2

/- Re-entry. -/

/-- What joining has done once it has come through some entries. -/
def JoinInv (w : Warp) (es : List Nat) (x : Warp) : Prop :=
  x.Apart 8 ∧ Regroups w x
  ∧ (∀ l k g, l < 32 → k < 32 → g ∈ es → x.laneAt l = .held → x.laneAt k = .on g → x.pcAt l ≠ x.pcAt k)
  ∧ (∀ l, l < 32 → w.laneAt l ≠ .held → x.laneAt l = w.laneAt l)
  ∧ ∀ l g, l < 32 → x.laneAt l = .on g → ∃ k, k < 32 ∧ w.laneAt k = .on g ∧ w.pcAt k = w.pcAt l

theorem joinInv_step {w x : Warp} {es : List Nat} {e : Nat} (h : JoinInv w es x) :
    JoinInv w (es ++ [e]) (match x.entryPc e with | some p => x.setLanes (x.atPc x.heldMask p) (.on e) | none => x) := by
  obtain ⟨ha, hr, hf, hs, hj⟩ := h
  cases hp : x.entryPc e with
  | none =>
    refine ⟨ha, hr, fun l k g hl hk hg hheld hon => ?_, hs, hj⟩
    rcases List.mem_append.mp hg with hg | hg
    · exact hf l k g hl hk hg hheld hon
    · rw [List.mem_singleton.mp hg] at hon
      exact absurd hp (entryPc_ne_none hk hon)
  | some p =>
    obtain ⟨k0, hk0, hk0on, hk0p⟩ := entryPc_some hp
    have hmask {l : Nat} (hl : l < 32) : has (x.atPc x.heldMask p) l = true ↔ x.laneAt l = .held ∧ x.pcAt l = p := by
      rw [has_atPc, has_held hl]
    have hlane {l : Nat} (hl : l < 32) : (x.setLanes (x.atPc x.heldMask p) (.on e)).laneAt l =
        if x.laneAt l = .held ∧ x.pcAt l = p then .on e else x.laneAt l := by
      rw [laneAt_setLanes x _ _ hl, ite_congr (propext (hmask hl)) (fun _ => rfl) (fun _ => rfl)]
    refine ⟨ha.setOn (ha.low k0 e hk0 hk0on) (fun l hm => (has_atPc.mp hm).2) (fun l hl _ hon => ?_) (fun l g hl _ hon hg hpc => ?_) (fun _ _ _ _ _ hg => hg),
      hr.trans (setLanes_regroups rfl fun l hl hm => ?_), fun l k g hl hk hg hheld hon => ?_, fun l hl hne => ?_, fun l g hl hon => ?_⟩
    · rw [ha.one l k0 e hl hk0 hon hk0on, hk0p]
    · exact ha.far l k0 g e hl hk0 hon hk0on hg (ha.low k0 e hk0 hk0on).ne (hpc.trans hk0p.symm)
    · rw [((hmask hl).mp hm).1]
      rfl
    · rw [hlane hl] at hheld
      split at hheld
      · exact absurd hheld nofun
      · next hno =>
        have hlp : x.pcAt l ≠ p := fun hc => hno ⟨hheld, hc⟩
        rw [hlane hk] at hon
        split at hon
        · next hk2 => exact fun hc => hlp (hc.trans hk2.2)
        · rcases List.mem_append.mp hg with hg | hg
          · exact hf l k g hl hk hg hheld hon
          · rw [List.mem_singleton.mp hg] at hon
            exact fun hc => hlp (hc.trans ((ha.one k k0 e hk hk0 hon hk0on).trans hk0p))
    · rw [hlane hl, if_neg (fun hc => hne ?_)]
      · exact hs l hl hne
      · by_contra hw
        exact hw ((hs l hl hw).symm.trans hc.1)
    · rw [hlane hl] at hon
      split at hon
      · next hh =>
        rw [LaneSt.on.injEq] at hon
        obtain ⟨k, hk, hkon, hkp⟩ := hj k0 e hk0 hk0on
        exact ⟨k, hk, hon ▸ hkon, hkp.trans ((hr.pcAt k0).symm.trans (hk0p.trans (hh.2.symm.trans (hr.pcAt l))))⟩
      · exact hj l g hl hon

theorem joinHeld_inv {w : Warp} (h : w.Apart 8) : JoinInv w w.entries (w.joinHeld w.entries) := by
  have hfold (es : List Nat) : ∀ (ds : List Nat) (x : Warp), JoinInv w ds x → JoinInv w (ds ++ es) (x.joinHeld es) := by
    induction es with
    | nil => exact fun ds x hx => by rw [List.append_nil]; exact hx
    | cons e es ih =>
      intro ds x hx
      rw [show ds ++ e :: es = (ds ++ [e]) ++ es by simp]
      exact ih _ _ (joinInv_step hx)
  exact hfold w.entries [] w ⟨h, .refl w, fun _ _ g _ _ hg => absurd hg List.not_mem_nil, fun _ _ _ => rfl, fun l g hl hon => ⟨l, hl, hon, rfl⟩⟩

theorem reenterOnce_apart {w : Warp} (h : w.Apart 8) : w.reenterOnce.Apart 8 := by
  unfold Warp.reenterOnce
  split
  · exact h
  · obtain ⟨ha, hr, hf, hs, hj⟩ := joinHeld_inv h
    have hmem {k g : Nat} (hk : k < 32) (hon : (w.joinHeld w.entries).laneAt k = .on g) : g ∈ w.entries := by
      obtain ⟨k', hk', hkon, -⟩ := hj k g hk hon
      exact mem_entries.mpr ⟨h.low k' g hk' hkon, k', hk', hkon⟩
    generalize w.joinHeld w.entries = x at *
    unfold Warp.enterHeld
    split
    · next e p ps hfree hps =>
      obtain ⟨he, hempty⟩ := freeEntry_some hfree
      obtain ⟨l0, hl0, hl0p⟩ := mem_pcsOf.mp (hps ▸ List.mem_cons_self : p ∈ x.pcsOf x.heldMask)
      have hl0h := (has_held (has_lt hl0)).mp hl0
      refine ha.setOn he (fun l hm => (has_atPc.mp hm).2) (fun l hl _ hon => absurd hon (hempty l hl)) (fun l g hl _ hon _ hp => ?_) (fun _ _ _ _ _ hg => hg)
      exact absurd (hl0p.trans hp.symm) (hf l0 l g (has_lt hl0) hl (hmem hl hon) hl0h hon)
    · exact ha

/-- Re-entry keeps the table in order. -/
theorem reenter_apart {w : Warp} (h : w.Apart 8) : w.reenter.Apart 8 := by
  rw [reenter_eq]
  generalize List.range 8 = ns
  induction ns generalizing w with
  | nil => exact h
  | cons n ns ih => exact ih (reenterOnce_apart h)

/- Going to new PCs. -/

@[simp] theorem groupOf_setPcs (w : Warp) (m : Mask) (f : Nat → W64) (e : Nat) : (w.setPcs m f).groupOf e = w.groupOf e := rfl

@[simp] theorem laneAt_setPcs (w : Warp) (m : Mask) (f : Nat → W64) (l : Nat) : (w.setPcs m f).laneAt l = w.laneAt l := rfl

/-- A group that goes to new PCs leaves the table in order. -/
theorem goto_table {w : Warp} {e : Nat} (h : w.tableOk) (hne : w.groupOf e ≠ 0) (f : Nat → W64) :
    (w.goto e f).tableOk := by
  obtain ⟨l0, hl0⟩ := mask_ne_zero hne
  have he : e < 8 := h.1 l0 e (has_lt hl0) ((has_group (has_lt hl0)).mp hl0)
  have hoff := (tableOk_iff.mp h).setOff (m := w.groupOf e) (x := .held) nofun
  have haway : ((w.setPcs (w.groupOf e) f).setLanes ((w.setPcs (w.groupOf e) f).groupOf e) .held).Apart 8 := by
    rw [groupOf_setPcs]
    have hlane {l : Nat} (hl : l < 32) : ((w.setPcs (w.groupOf e) f).setLanes (w.groupOf e) .held).laneAt l = (w.setLanes (w.groupOf e) .held).laneAt l := by
      rw [laneAt_setLanes _ _ _ hl, laneAt_setLanes _ _ _ hl, laneAt_setPcs]
    have hpc {l g : Nat} (hl : l < 32) (hon : (w.setLanes (w.groupOf e) .held).laneAt l = .on g) : (w.setPcs (w.groupOf e) f).pcAt l = w.pcAt l := by
      rw [laneAt_setLanes w _ _ hl] at hon
      rw [setPcs_pcAt w _ f hl]
      split at hon
      · exact absurd hon nofun
      · next hm => rw [if_neg hm]
    refine ⟨fun l g hl ha => ?_, fun l k g hl hk ha hb => ?_, fun l k g g' hl hk ha hb hg hg' hp => ?_⟩
    · rw [hlane hl] at ha
      exact hoff.low l g hl ha
    · rw [hlane hl] at ha
      rw [hlane hk] at hb
      rw [pcAt_setLanes, pcAt_setLanes, hpc hl ha, hpc hk hb]
      exact hoff.one l k g hl hk ha hb
    · rw [hlane hl] at ha
      rw [hlane hk] at hb
      rw [pcAt_setLanes, pcAt_setLanes, hpc hl ha, hpc hk hb] at hp
      exact hoff.far l k g g' hl hk ha hb hg hg' hp
  have hgroup : (w.setPcs (w.groupOf e) f).groupOf e ≠ 0 := by rw [groupOf_setPcs]; exact hne
  rw [tableOk_iff]
  unfold Warp.goto
  exact reenter_apart (mergeEntry_apart (splitGroup_apart haway he hgroup))

end Sys2Proof.Machine
end

