-- ==== Sys2Proof/Proofs/Exiting.lean ====
section
/-! PROOF, of O18. NOP, ISYNC, NAP, SWR and EXIT (07 R128, R129; 01 R28, R29): what the step to the successor makes of the split
table, what judging a barrier leaves of the blocks, and what becomes of a warp whose last thread has ended. -/

namespace Sys2Proof.Machine

/- The step to the successor. -/

theorem laneAt_of_lanes {w w' : Warp} (h : w'.lanes = w.lanes) (l : Nat) : w'.laneAt l = w.laneAt l := by rw [Warp.laneAt, h]; rfl

theorem pcAt_of_pcs {w w' : Warp} (h : w'.pcs = w.pcs) (l : Nat) : w'.pcAt l = w.pcAt l := by rw [Warp.pcAt, h]; rfl

theorem tableOk_congr {w w' : Warp} (hl : w'.lanes = w.lanes) (hp : w'.pcs = w.pcs) (h : w.tableOk) : w'.tableOk := by
  obtain ⟨h1, h2⟩ := h
  refine ⟨fun l e hl32 ha => h1 l e hl32 (by rw [← laneAt_of_lanes hl]; exact ha), fun l k e f hl32 hk32 ha hb => ?_⟩
  rw [pcAt_of_pcs hp, pcAt_of_pcs hp]
  exact h2 l k e f hl32 hk32 (by rw [← laneAt_of_lanes hl]; exact ha) (by rw [← laneAt_of_lanes hl]; exact hb)

/-- A warp that has gone on: all but its flow is as it was, no thread begins or ends, and a table in order stays so. -/
structure Carries (w w' : Warp) : Prop where
  same : SameBut w w'
  live : ∀ l, l < 32 → (w'.laneAt l).live = (w.laneAt l).live
  gone : ∀ l, l < 32 → (w.laneAt l).live = false → w'.laneAt l = w.laneAt l
  table : w.tableOk → w'.tableOk

theorem Carries.trans {a b c : Warp} (h1 : Carries a b) (h2 : Carries b c) : Carries a c :=
  ⟨h1.same.trans h2.same, fun l hl => (h2.live l hl).trans (h1.live l hl),
    fun l hl h => (h2.gone l hl ((h1.live l hl).trans h)).trans (h1.gone l hl h), fun h => h2.table (h1.table h)⟩

theorem carries_of {w w' : Warp} (hs : SameBut w w') (hl : w'.lanes = w.lanes) (hp : w'.pcs = w.pcs) : Carries w w' :=
  ⟨hs, fun l _ => by rw [laneAt_of_lanes hl], fun l _ _ => laneAt_of_lanes hl l, tableOk_congr hl hp⟩

theorem Regroups.carries {w w' : Warp} (h : Regroups w w') (ht : w.tableOk → w'.tableOk) : Carries w w' :=
  ⟨by rw [h.1]; rfl, fun l hl => (h.2 l hl).1, fun l hl => (h.2 l hl).2, ht⟩

theorem reenter_carries (w : Warp) : Carries w w.reenter :=
  (reenter_regroups w).carries fun h => tableOk_iff.mpr (reenter_apart (tableOk_iff.mp h))

theorem goto_carries {w : Warp} {e : Nat} (hne : w.groupOf e ≠ 0) (f : Nat → W64) : Carries w (w.goto e f) := by
  have hr := goto_regroups w e f
  have ht := fun h => goto_table (w := w) h hne f
  generalize w.goto e f = x at *
  refine ⟨by rw [hr.1]; rfl, fun l hl => ?_, fun l hl h => ?_, ht⟩
  · rw [(hr.2 l hl).1, laneAt_setPcs]
  · rw [(hr.2 l hl).2 (by rw [laneAt_setPcs]; exact h), laneAt_setPcs]

theorem nextRep_carries (w : Warp) : Carries w w.nextRep := by
  obtain ⟨h1, -, h2, h3⟩ := nextRep_same w
  exact carries_of h1 h3 h2

theorem moveOn_carries (v : View) (moved : Mask) (next : List W64) (w : Warp) : Carries w (v.moveOn moved next w) := by
  unfold View.moveOn
  split
  · exact carries_of rfl rfl rfl
  · have h1 : Carries w { w with rep := none, count := allLanes.map (fun l => nth w.count l 0 + (if has (v.grp &&& moved) l then 1 else 0)) } :=
      carries_of rfl rfl rfl
    simp only
    split
    · exact (h1.trans (reenter_carries _)).trans (nextRep_carries _)
    · next hne =>
      refine (h1.trans (goto_carries (fun h0 => hne ?_) _)).trans (nextRep_carries _)
      rw [show w.groupOf v.entry = 0 from h0]
      exact BitVec.and_zero

/-- What the step to the successor makes of the issuing warp. -/
theorem advance_carries {s : State} {v : View} (r : Req) (moved : Mask) (pcs : Nat → W64) {w : Warp} (hw : tget s.warps v.key = some w) :
    ∃ w', s.advance v r moved pcs = { s with warps := tput s.warps v.key w', issueCount := s.issueCount + 1 } ∧ Carries w w' := by
  unfold State.advance
  simp only [hw]
  refine ⟨_, rfl, ?_⟩
  have h1 : Carries w (v.recordOn r (v.nexts w moved pcs) s.issueCount w) := carries_of rfl rfl rfl
  have h2 := moveOn_carries v moved (v.nexts w moved pcs) (v.recordOn r (v.nexts w moved pcs) s.issueCount w)
  generalize v.moveOn moved (v.nexts w moved pcs) (v.recordOn r (v.nexts w moved pcs) s.issueCount w) = w2 at *
  obtain ⟨c1, -, c2, c3⟩ := trackHang_same w2 v.entry (r.progress && v.act != 0) (s.col (coreColumn v.core)).window
  obtain ⟨p1, -, p2, p3⟩ := prune_same (w2.trackHang v.entry (r.progress && v.act != 0) (s.col (coreColumn v.core)).window)
  obtain ⟨d1, d2, d3, -⟩ := stepStop_same s v (w2.trackHang v.entry (r.progress && v.act != 0) (s.col (coreColumn v.core)).window).prune
  exact (((h1.trans h2).trans (carries_of c1 c3 c2)).trans (carries_of p1 p3 p2)).trans (carries_of d1 d3 d2)

/- Judging barriers. -/

/-- Barriers are judged: of the blocks only their barriers change, and no block comes or goes. -/
def Judges (s t : State) : Prop :=
  t = { s with blocks := t.blocks, arrs := t.arrs, swaps := t.swaps, nextKey := t.nextKey, grids := t.grids }
  ∧ ∀ j, (t.blk? j).map (fun b => { b with bars := [] }) = (s.blk? j).map (fun b => { b with bars := [] })

theorem Judges.refl (s : State) : Judges s s := ⟨rfl, fun _ => rfl⟩

theorem Judges.trans {a b c : State} (h1 : Judges a b) (h2 : Judges b c) : Judges a c := by
  obtain ⟨e1, f1⟩ := h1
  obtain ⟨e2, f2⟩ := h2
  exact ⟨by rw [e1] at e2; exact e2, fun j => (f2 j).trans (f1 j)⟩

theorem Judges.warps {s t : State} (h : Judges s t) : t.warps = s.warps := by rw [h.1]

theorem Judges.none {s t : State} (h : Judges s t) {j : Nat} (hj : s.blk? j = none) : t.blk? j = none := by
  have := h.2 j
  rw [hj, Option.map_none, Option.map_eq_none_iff] at this
  exact this

theorem Judges.some {s t : State} (h : Judges s t) {j : Nat} {b : Block} (hj : s.blk? j = some b) : ∃ x, t.blk? j = some { b with bars := x } := by
  have := h.2 j
  rw [hj, Option.map_some, Option.map_eq_some_iff] at this
  obtain ⟨c, hc, he⟩ := this
  refine ⟨c.bars, hc.trans (congrArg Option.some ?_)⟩
  calc c = { ({ c with bars := [] } : Block) with bars := c.bars } := rfl
    _ = { b with bars := c.bars } := by rw [he]

theorem foldl_judges {α : Type} {f : State → α → State} (hf : ∀ s a, Judges s (f s a)) (as : List α) : ∀ s, Judges s (as.foldl f s) := by
  induction as with
  | nil => exact .refl
  | cons a as ih => exact fun s => (hf s a).trans (ih (f s a))

theorem modBar_judges (s : State) (bk n : Nat) (f : BarSt → BarSt) : Judges s (s.modBar bk n f) := by
  refine ⟨rfl, fun j => ?_⟩
  rw [State.modBar, blk_modBlock]
  split
  · cases s.blk? j <;> rfl
  · rfl

theorem barComplete_judges (s : State) (bk n : Nat) (b : Block) : Judges s (s.barComplete bk n b) := by
  unfold State.barComplete
  split
  · exact (modBar_judges s bk n _).trans ⟨rfl, fun _ => rfl⟩
  · exact modBar_judges s bk n _

theorem barCheck_judges (s : State) (bk n : Nat) : Judges s (s.barCheck bk n) := by
  unfold State.barCheck
  split
  · exact .refl s
  · split
    · exact .refl s
    · simp only
      split
      · exact .refl s
      · split
        · exact barComplete_judges s bk n _
        · exact .refl s

theorem tget_map_option {α : Type} (t : Tbl α) {F : Nat × α → Nat × α} (hF : ∀ x, (F x).1 = x.1) (k : Nat) :
    tget (t.map F) k = (tget t k).map (fun v => (F (k, v)).2) := by
  cases h : tget t k with
  | some v => exact tget_map hF h
  | none =>
    rw [Option.map_none]
    induction t with
    | nil => rfl
    | cons x t ih =>
      obtain ⟨j, v⟩ := x
      have hj : j ≠ k := fun hc => by simp [tget, hc] at h
      rw [List.map_cons]
      cases hx : F (j, v) with
      | mk j' v' =>
        obtain rfl : j' = j := by have := hF (j, v); rw [hx] at this; exact this
        simp only [tget, hj, if_false] at h ⊢
        exact ih h

theorem hubComplete_judges (s : State) (gk n : Nat) (clk : VC) : Judges s (s.hubComplete gk n clk) := by
  refine ⟨rfl, fun j => ?_⟩
  unfold State.hubComplete State.blk?
  rw [tget_map_option _ (fun x => by split <;> rfl)]
  show Option.map _ (Option.map _ (tget s.blocks j)) = _
  cases tget s.blocks j with
  | none => rfl
  | some b =>
    simp only [Option.map_some]
    split <;> rfl

theorem hubCheck_judges (s : State) (gk n : Nat) : Judges s (s.hubCheck gk n) := by
  unfold State.hubCheck
  split
  · exact .refl s
  · simp only
    split
    · exact .refl s
    · split
      · exact ⟨rfl, fun _ => rfl⟩
      · exact hubComplete_judges s gk n _

theorem barArrive_judges (s : State) (bk wid n : Nat) (b : Block) (g : Grid) : Judges s (s.barArrive bk wid n b g) := by
  have h1 := modBar_judges s bk n (fun r => { r with arrived := r.arrived ||| laneBit wid, need := r.need ++ s.stxsOf bk wid })
  unfold State.barArrive
  simp only
  generalize s.modBar bk n (fun r => { r with arrived := r.arrived ||| laneBit wid, need := r.need ++ s.stxsOf bk wid }) = s1 at *
  split
  · exact h1.trans (barCheck_judges s1 bk n)
  · split
    · refine (h1.trans (foldl_judges (fun s d => ?_) _ s1)).trans (barCheck_judges _ bk n)
      exact ⟨rfl, fun _ => rfl⟩
    · exact h1.trans ⟨rfl, fun _ => rfl⟩

theorem barJudge_judges (s : State) (bk wid n : Nat) (live : Mask) : Judges s (s.barJudge bk wid n live) := by
  unfold State.barJudge
  split
  · exact .refl s
  · split
    · exact .refl s
    · simp only
      split
      · exact barArrive_judges ..
      · exact .refl s

theorem barJudgeAll_judges (s : State) (bk wid : Nat) (live : Mask) : Judges s (s.barJudgeAll bk wid live) := by
  unfold State.barJudgeAll
  split
  · exact .refl s
  · exact foldl_judges (fun s n => barJudge_judges s bk wid n live) _ s

theorem barRecheck_judges (s : State) (gk : Nat) : Judges s (s.barRecheck gk) := by
  have h1 := foldl_judges (f := fun s (x : Nat × Block) => (x.2.bars.map Prod.fst).foldl (fun s n => s.barCheck x.1 n) s)
    (fun s x => foldl_judges (fun s n => barCheck_judges s x.1 n) _ s) (s.blocks.filter (fun x => x.2.grid == gk)) s
  unfold State.barRecheck
  simp only
  split
  · exact h1
  · exact h1.trans (foldl_judges (fun s n => hubCheck_judges s gk n) _ _)

/-- The grids are as they were but for their barriers. -/
theorem barJudgeAll_only (s : State) (bk wid : Nat) (live : Mask) : OnlyBars s (s.barJudgeAll bk wid live) := by
  unfold State.barJudgeAll
  cases hb : s.blk? bk with
  | none => exact .refl s
  | some b =>
    simp only
    have hfold (ns : List Nat) : ∀ x, OnlyBars s x → (∃ c, x.blk? bk = some c) → OnlyBars s (ns.foldl (fun s n => s.barJudge bk wid n live) x) := by
      induction ns with
      | nil => exact fun _ h _ => h
      | cons n ns ih =>
        rintro x hx ⟨c, hc⟩
        obtain ⟨h1, c', h2, -⟩ := barJudge_spec (wid := wid) (n := n) (live := live) hc
        exact ih _ (hx.trans h1) ⟨c', h2⟩
    exact hfold _ s (.refl s) ⟨b, hb⟩

/- The end of a warp. -/

theorem mem_tdel {α : Type} {t : Tbl α} {k : Nat} {x : Nat × α} : x ∈ tdel t k ↔ x ∈ t ∧ x.1 ≠ k := by
  induction t with
  | nil => simp [tdel]
  | cons y t ih =>
    obtain ⟨j, v⟩ := y
    unfold tdel
    split
    · next h =>
      rw [ih, List.mem_cons]
      exact ⟨fun hx => ⟨.inr hx.1, hx.2⟩, fun hx => ⟨hx.1.resolve_left fun hc => hx.2 (by rw [hc]; exact h), hx.2⟩⟩
    · next h =>
      rw [List.mem_cons, ih, List.mem_cons]
      exact ⟨fun hx => hx.elim (fun hc => ⟨.inl hc, by rw [hc]; exact h⟩) fun hx => ⟨.inr hx.1, hx.2⟩, fun hx => hx.1.imp id fun h => ⟨h, hx.2⟩⟩

theorem tget_filter_none {α : Type} {t : Tbl α} {k : Nat} (p : Nat × α → Bool) (h : tget t k = none) : tget (t.filter p) k = none := by
  induction t with
  | nil => rfl
  | cons y t ih =>
    obtain ⟨j, v⟩ := y
    have hj : j ≠ k := fun hc => by simp [tget, hc] at h
    simp only [tget, hj, if_false] at h
    rw [List.filter_cons]
    split
    · simp only [tget, hj, if_false, ih h]
    · exact ih h

/-- What a warp that ends leaves: it is gone, and of the rest of the machine at most its ICINVs and the clock of its grid change. -/
theorem warpGone_spec (s : State) (k : Nat) (w : Warp) :
    ((s.leaveIcinvs k w).warpGone k w).warps = tdel s.warps k ∧ ((s.leaveIcinvs k w).warpGone k w).blocks = s.blocks
    ∧ ∀ j, (tget ((s.leaveIcinvs k w).warpGone k w).grids j).map Grid.rec_ = (tget s.grids j).map Grid.rec_ := by
  have h1 : (s.leaveIcinvs k w).warps = s.warps ∧ (s.leaveIcinvs k w).blocks = s.blocks ∧ (s.leaveIcinvs k w).grids = s.grids := by
    unfold State.leaveIcinvs
    split
    · exact ⟨rfl, rfl, rfl⟩
    · exact ⟨rfl, rfl, rfl⟩
  obtain ⟨hw, hb, hg⟩ := h1
  unfold State.warpGone
  simp only
  split
  · exact ⟨by rw [hw], hb, fun j => by rw [hg]⟩
  · next b _ =>
    refine ⟨by show tdel _ k = _; rw [hw], hb, fun j => ?_⟩
    show (tget (tmod (s.leaveIcinvs k w).grids b.grid _) j).map Grid.rec_ = _
    rw [hg, tget_tmod]
    split
    · cases tget s.grids j <;> rfl
    · rfl

/-- A block that is finished is gone. -/
theorem finishBlock_gone (s : State) (bk : Nat) (err : Bool) : (s.finishBlock bk err).blk? bk = none := by
  unfold State.finishBlock
  cases hb : s.blk? bk with
  | none => exact hb
  | some b =>
    have hdel (x : State) (hx : x.blocks = tdel s.blocks bk) (gk : Nat) : (x.barRecheck gk).blk? bk = none :=
      (barRecheck_judges x gk).none (by rw [State.blk?, hx, tget_tdel, if_pos rfl])
    simp only
    split
    · rw [State.noteMove]
      show (State.noteEmpty _ _).blk? bk = none
      unfold State.noteEmpty
      simp only
      split
      · exact hdel _ rfl b.grid
      · exact hdel _ rfl b.grid
    · exact hdel _ rfl b.grid

theorem finishBlock_warp {s : State} {bk k : Nat} {err : Bool} (h : tget s.warps k = none) : tget (s.finishBlock bk err).warps k = none := by
  unfold State.finishBlock
  cases hb : s.blk? bk with
  | none => exact h
  | some b =>
    have hdel (x : State) (hx : x.warps = s.warps.filter (fun x => x.2.blk != bk)) (gk : Nat) : tget (x.barRecheck gk).warps k = none := by
      rw [(barRecheck_judges x gk).warps, hx]
      exact tget_filter_none _ h
    simp only
    split
    · rw [State.noteMove]
      show tget (State.noteEmpty _ _).warps k = none
      unfold State.noteEmpty
      simp only
      split
      · exact hdel _ rfl b.grid
      · exact hdel _ rfl b.grid
    · exact hdel _ rfl b.grid

/-- A warp that retires is gone; outside a travel replica its slot stays with its block while another warp of it has not retired,
and with the last one the block is gone. -/
theorem retireWarp_gone {s : State} {k : Nat} {w : Warp} {b : Block} {g : Grid} (hw : tget s.warps k = some w) (h0 : w.live = 0)
    (hb : s.blk? w.blk = some b) (hg : (tget s.grids b.grid).map Grid.rec_ = some g.rec_) :
    tget (s.retireWarp k).warps k = none
    ∧ ((g.rec_.travel && !b.isChild g) = false → if (s.warpsOf w.blk).all (fun x => x.1 == k) then (s.retireWarp k).blk? w.blk = none
        else ∃ c, (s.retireWarp k).blk? w.blk = some c ∧ c.slots = b.slots ++ [k % 64]) := by
  obtain ⟨hwarps, hblocks, hgrids⟩ := warpGone_spec s k w
  unfold State.retireWarp
  simp only [hw, h0, bne_self_eq_false, Bool.false_eq_true, if_false]
  generalize (s.leaveIcinvs k w).warpGone k w = s1 at *
  have hb1 : s1.blk? w.blk = some b := by rw [State.blk?, hblocks]; exact hb
  have hnone : tget s1.warps k = none := by rw [hwarps, tget_tdel, if_pos rfl]
  obtain ⟨g1, hg1, hrec⟩ := Option.map_eq_some_iff.mp ((hgrids b.grid).trans hg)
  have htravel : (g1.rec_.travel && !b.isChild g1) = (g.rec_.travel && !b.isChild g) := by rw [Block.isChild, Block.isChild, hrec]
  simp only [hb1, hg1, htravel]
  cases htr : (g.rec_.travel && !b.isChild g) with
  | true =>
    refine ⟨?_, nofun⟩
    simp only [if_true]
    split
    · exact hnone
    · exact hnone
  | false =>
    have hempty (x : State) (hx : x.warps = s1.warps) : (x.warpsOf w.blk).isEmpty = (s.warpsOf w.blk).all (fun x => x.1 == k) := by
      rw [Bool.eq_iff_iff, List.isEmpty_iff, List.all_eq_true, State.warpsOf, hx, hwarps, List.filter_eq_nil_iff]
      simp only [State.warpsOf, List.mem_filter, mem_tdel, beq_iff_eq]
      exact ⟨fun h x hx => by_contra fun hc => h x ⟨hx.1, hc⟩ hx.2, fun h x hx hc => hx.2 (h x ⟨hx.1, hc⟩)⟩
    have hslots (x : State) (c : Block) (hx : x.blk? w.blk = some c) (hc : c.slots = b.slots) :
        (x.modBlock w.blk (fun b => { b with slots := b.slots ++ [k % 64] })).blk? w.blk = some { c with slots := b.slots ++ [k % 64] } := by
      rw [blk_modBlock, if_pos rfl, hx, Option.map_some, hc]
    simp only [Bool.false_eq_true, if_false]
    generalize hs2 : (if w.launched = true then s1.modBlock w.blk (fun b => { b with retired := b.retired ||| laneBit w.wid }) else s1) = s2
    have h2 : s2.warps = s1.warps ∧ ∃ c, s2.blk? w.blk = some c ∧ c.slots = b.slots := by
      rw [← hs2]
      split
      · exact ⟨rfl, { b with retired := b.retired ||| laneBit w.wid }, by rw [blk_modBlock, if_pos rfl, hb1]; rfl, rfl⟩
      · exact ⟨rfl, b, hb1, rfl⟩
    obtain ⟨hw2, c, hc, hcs⟩ := h2
    have hb3 := hslots s2 c hc hcs
    generalize hs3 : s2.modBlock w.blk (fun b => { b with slots := b.slots ++ [k % 64] }) = s3 at hb3 ⊢
    have hw3 : s3.warps = s1.warps := by rw [← hs3]; exact hw2
    have hnone3 : tget s3.warps k = none := by rw [hw3]; exact hnone
    rw [hempty s3 hw3]
    cases (s.warpsOf w.blk).all (fun x => x.1 == k) with
    | true => exact ⟨finishBlock_warp hnone3, fun _ => finishBlock_gone s3 w.blk b.err⟩
    | false =>
      simp only [Bool.false_eq_true, if_false]
      split
      · have hj := barRecheck_judges s3 b.grid
        obtain ⟨x, hx⟩ := hj.some hb3
        exact ⟨by rw [hj.warps]; exact hnone3, fun _ => ⟨_, hx, rfl⟩⟩
      · exact ⟨hnone3, fun _ => ⟨_, hb3, rfl⟩⟩

/- EXIT (07 R128). -/

theorem idle_table {w : Warp} (h : w.tableOk) (m : Mask) : (w.setLanes m .idle).tableOk :=
  tableOk_iff.mpr ((tableOk_iff.mp h).setOff nofun)

theorem live_idle (w : Warp) (m : Mask) {l : Nat} (hl : l < 32) :
    ((w.setLanes m .idle).laneAt l).live = ((w.laneAt l).live && !has m l) := by
  rw [laneAt_setLanes w m _ hl]
  cases has m l
  · rw [if_neg Bool.false_ne_true, Bool.not_false, Bool.and_true]
  · rw [if_pos rfl, Bool.not_true, Bool.and_false]; rfl

theorem mem_tput_ne {α : Type} {t : Tbl α} {k : Nat} {v : α} {x : Nat × α} (hx : x.1 ≠ k) : x ∈ tput t k v ↔ x ∈ t := by
  have hkv : x ≠ (k, v) := fun hc => hx (by rw [hc])
  induction t with
  | nil => simpa [tput] using hkv
  | cons y t ih =>
    obtain ⟨j, u⟩ := y
    unfold tput
    split
    · simp [hkv]
    · split
      · next hj =>
        have hju : x ≠ (j, u) := fun hc => hx (by rw [hc]; exact hj.symm)
        simp [hkv, hju]
      · simp [ih]

theorem mem_tmod_ne {α : Type} {t : Tbl α} {k : Nat} {f : α → α} {x : Nat × α} (hx : x.1 ≠ k) : x ∈ tmod t k f ↔ x ∈ t := by
  induction t with
  | nil => rfl
  | cons y t ih =>
    obtain ⟨j, u⟩ := y
    unfold tmod
    split
    · next hj =>
      have h1 : x ≠ (j, f u) := fun hc => hx (by rw [hc]; exact hj)
      have h2 : x ≠ (j, u) := fun hc => hx (by rw [hc]; exact hj)
      simp [h1, h2]
    · simp [ih]

/-- Whether warp k is the only one of a block does not depend on what the warp holds. -/
theorem only_congr {s t : State} {bk k : Nat} (h : ∀ x : Nat × Warp, x.1 ≠ k → (x ∈ t.warps ↔ x ∈ s.warps)) :
    (t.warpsOf bk).all (fun x => x.1 == k) = (s.warpsOf bk).all (fun x => x.1 == k) := by
  rw [Bool.eq_iff_iff, List.all_eq_true, List.all_eq_true]
  simp only [State.warpsOf, List.mem_filter, beq_iff_eq]
  exact ⟨fun ht x hx => by_contra fun hc => hc (ht x ⟨(h x hc).mpr hx.1, hx.2⟩), fun hs x hx => by_contra fun hc => hc (hs x ⟨(h x hc).mp hx.1, hx.2⟩)⟩

/-- An EXIT that nothing holds back: the active lanes are finished-idle, and the group goes on before the warp may retire. -/
theorem exec_exit {s : State} {h : Hdr} {v : View} (hi : Issues s h (.exit h) v) (ha : v.act ≠ 0)
    (hops : ∀ o ∈ v.w.ops, o.done = true ∨ o.group &&& v.act = 0) (hlast : s.lastExit v = none) :
    ∃ (s' : State) (w' : Warp), exec (.exit h) s = .next (s'.retireWarp v.key) ∧ tget s'.warps v.key = some w' ∧ Carries (v.w.setLanes v.act .idle) w'
      ∧ (s'.warpsOf v.bk).all (fun x => x.1 == v.key) = (s.warpsOf v.bk).all (fun x => x.1 == v.key)
      ∧ s'.grids = s.grids ∧ ∃ x, s'.blk? v.bk = some { v.b with bars := x } := by
  obtain ⟨-, -, -, hw, -, -, -, -, -, hblk, -⟩ := view_spec hi.view
  have hw1 : tget (s.modWarp v.key (fun w => w.setLanes v.act .idle)).warps v.key = some (v.w.setLanes v.act .idle) := by
    rw [modWarp_warps, tget_tmod_self, hw]; rfl
  have hbusy : v.w.ops.any (fun o => !o.done && o.group &&& v.act != 0) = false := by
    rw [List.any_eq_false]
    intro o ho
    rcases hops o ho with h1 | h1
    · simp [h1]
    · simp [h1]
  have hact : (v.act == 0) = false := by simpa using ha
  have hbars := barJudgeAll_only (s.modWarp v.key (fun w => w.setLanes v.act .idle)) v.bk v.w.wid (v.w.setLanes v.act .idle).live
  have hjudge := barJudgeAll_judges (s.modWarp v.key (fun w => w.setLanes v.act .idle)) v.bk v.w.wid (v.w.setLanes v.act .idle).live
  have hexec : exec (.exit h) s = .next ((((s.modWarp v.key (fun w => w.setLanes v.act .idle)).barJudgeAll v.bk v.w.wid
      (v.w.setLanes v.act .idle).live).advance v (reqOf (.exit h) v) (BitVec.allOnes 32) (fun _ => v.next)).retireWarp v.key) := by
    show execExit h s = _
    unfold execExit
    rw [issue_goes hi.view hi.goes]
    simp only [hact, hbusy, hlast, hw1, Bool.false_eq_true, if_false, State.finish, hi.calm, Option.isSome_none]
  generalize (s.modWarp v.key (fun w => w.setLanes v.act .idle)).barJudgeAll v.bk v.w.wid (v.w.setLanes v.act .idle).live = s2 at *
  have hwarps : s2.warps = tmod s.warps v.key (fun w => w.setLanes v.act .idle) := hjudge.warps
  obtain ⟨w', hs', hc⟩ := advance_carries (reqOf (.exit h) v) (BitVec.allOnes 32) (fun _ => v.next) (s := s2) (v := v) (hjudge.warps ▸ hw1)
  refine ⟨_, w', hexec, by rw [hs', tget_tput_self], hc, only_congr fun x hx => ?_, ?_, ?_⟩
  · rw [hs', mem_tput_ne hx, hwarps, mem_tmod_ne hx]
  · rw [hs', hbars]
    rfl
  · rw [hs']
    exact hjudge.some (show (s.modWarp v.key _).blk? v.bk = _ from hblk)

/- The plain instructions. -/

/-- What a warp holds may be told up to its flow. -/
theorem Passes.overFlow {s : State} {v : View} {w x : Warp} {next : Nat → W64} {t : State} (h : Passes s v w next t) (hs : SameBut x w)
    (ha : w.async = x.async) (hp : w.pcs = x.pcs) : Passes s v x next t := by
  obtain ⟨y, e0, e1, e2, e3, e4, e5, e6⟩ := h
  have hpc (l : Nat) : w.pcAt l = x.pcAt l := pcAt_of_pcs hp l
  refine ⟨y, e0, e1, hs.trans e2, ?_, fun l hl => by rw [e4 l hl, hpc], fun l hl hg => by rw [e5 l hl hg, hpc], e6⟩
  rw [← ha, ← addAsync_congr ha]
  exact e3

theorem moveOn_isync (v : View) (moved : Mask) (next : List W64) (w : Warp) : (v.moveOn moved next w).isync = w.isync := by
  have hnext (w : Warp) : w.nextRep.isync = w.isync := by unfold Warp.nextRep; simp only; split <;> rfl
  unfold View.moveOn
  split
  · rfl
  · simp only
    split
    · rw [hnext, (reenter_regroups _).1]
    · rw [hnext, (goto_regroups _ _ _).1]
      rfl

/-- The mark that an ISYNC came last stays as its warp goes on. -/
theorem advance_isync {s : State} {v : View} (r : Req) (moved : Mask) (pcs : Nat → W64) {w : Warp} (hw : tget s.warps v.key = some w)
    (h : w.isync = some s.issueCount) : ∃ w', tget (s.advance v r moved pcs).warps v.key = some w' ∧ w'.isync = some s.issueCount := by
  unfold State.advance
  simp only [hw, tget_tput_self]
  refine ⟨_, rfl, ?_⟩
  have hstop (x : Warp) : (s.stepStop v x).isync = x.isync := by
    unfold State.stepStop Warp.addAsync
    split
    · split <;> rfl
    · rfl
  have hhang (x : Warp) (e : Nat) (p : Bool) (n : Nat) : (x.trackHang e p n).isync = x.isync := by
    unfold Warp.trackHang
    split
    · rfl
    · split <;> rfl
  rw [hstop]
  unfold Warp.prune
  rw [hhang, moveOn_isync]
  unfold View.recordOn
  simp only [h, beq_self_eq_true, if_true]

/-- ISYNC discards the words fetched ahead, and waits while an ICINV of the warp is under way. -/
def Warp.synced (w : Warp) (issue now : Nat) : Warp :=
  { w with pre := [], inLoop := false, isync := some issue, wait := if w.icinvs.isEmpty then .none else .isync, waitSince := now }

theorem exec_isync {s : State} {h : Hdr} {v : View} (hi : Issues s h (.isync h) v) :
    ∃ t w, exec (.isync h) s = .next t ∧ Passes s v w (fun _ => v.next) t
      ∧ w = if v.act = 0 then v.w
        else { v.w with pre := [], inLoop := false, wait := if v.w.icinvs = [] then .none else .isync, waitSince := s.tsc } := by
  obtain ⟨-, -, -, hw, -⟩ := view_spec hi.view
  show ∃ t w, execIsync h s = .next t ∧ _
  unfold execIsync
  by_cases hact : v.act = 0
  · obtain ⟨t, ht, hp⟩ := issue_done hi.view hi.goes hi.calm (rq := reqOf (.isync h)) (s' := s) (w := v.w) (eff := fun v s =>
      if v.act == 0 then .done s else .done (s.modWarp v.key (fun w => w.synced s.issueCount s.tsc)))
      (by simp only [hact, beq_self_eq_true, if_true]) hw rfl
    exact ⟨t, v.w, ht, hp, by rw [if_pos hact]⟩
  · have hne : (v.act == 0) = false := by simpa using hact
    obtain ⟨t, ht, hp⟩ := issue_modWarp hi (F := fun w => w.synced s.issueCount s.tsc) (eff := fun v s =>
      if v.act == 0 then .done s else .done (s.modWarp v.key (fun w => w.synced s.issueCount s.tsc)))
      (by simp only [hne, Bool.false_eq_true, if_false]) rfl
    refine ⟨t, { v.w with pre := [], inLoop := false, wait := if v.w.icinvs = [] then .none else .isync, waitSince := s.tsc }, ht,
      hp.overFlow ?_ rfl rfl, by rw [if_neg hact]⟩
    unfold SameBut Warp.synced Warp.flowOf
    cases v.w.icinvs with
    | nil => rfl
    | cons x xs => rfl

/-- The issuing threads stand on their entry. -/
theorem Issues.grouped {s : State} {h : Hdr} {i : Instr} {v : View} (hi : Issues s h i v) : v.grp &&& v.w.groupOf v.entry = v.grp := by
  obtain ⟨-, -, -, -, -, -, -, hgrp, -⟩ := view_spec hi.view
  rw [hgrp]
  exact issuers_sub v.w v.entry

/-- The ISYNC is marked as the last instruction of its warp. -/
theorem exec_isync_last {s : State} {h : Hdr} {v : View} (hi : Issues s h (.isync h) v) (hact : v.act ≠ 0) :
    ∃ t w, exec (.isync h) s = .next t ∧ tget t.warps v.key = some w ∧ w.isync = some s.issueCount := by
  obtain ⟨-, -, -, hw, -⟩ := view_spec hi.view
  have hne : (v.act == 0) = false := by simpa using hact
  have hw1 : tget (s.modWarp v.key (fun w => w.synced s.issueCount s.tsc)).warps v.key = some (v.w.synced s.issueCount s.tsc) := by
    rw [modWarp_warps, tget_tmod_self, hw]; rfl
  obtain ⟨w', h1, h2⟩ := advance_isync (reqOf (.isync h) v) (BitVec.allOnes 32) (fun _ => v.next) hw1 rfl
  obtain ⟨-, w'', h3, hlive⟩ := advance_spec _ v (reqOf (.isync h) v) (BitVec.allOnes 32) (fun _ => v.next) _ hw1 hi.grouped ((goes_iff v _).mp hi.goes).1
  obtain rfl : w' = w'' := Option.some.inj (h1.symm.trans h3)
  refine ⟨_, w', ?_, h1, h2⟩
  show execIsync h s = _
  unfold execIsync
  rw [issue_goes hi.view hi.goes]
  simp only [hne, Bool.false_eq_true, if_false, State.finish, hi.calm, Option.isSome_none]
  exact congrArg Host.Outcome.next (retireWarp_live h1 hlive)

theorem exec_nap {s : State} {h : Hdr} {b : SrcB} {v : View} (hi : Issues s h (.nap h b) v) :
    let n := (v.lanes.map (fun l => (v.w.srcB b l).toNat)).foldl max 0
    if n = 0 then ∃ t, exec (.nap h b) s = .next t ∧ Passes s v v.w (fun _ => v.next) t
    else ∃ t w u, exec (.nap h b) s = .next t ∧ Passes { s with fresh := s.fresh + 1 } v w (fun _ => v.next) t
      ∧ w = { v.w with wait := .nap u, waitSince := s.tsc } ∧ s.tsc + n ≤ u ∧ u ≤ s.tsc + n + 64 := by
  obtain ⟨-, -, -, hw, -⟩ := view_spec hi.view
  intro n
  split
  · next h0 =>
    show ∃ t, execNap h b s = .next t ∧ _
    unfold execNap
    refine issue_done hi.view hi.goes hi.calm ?_ hw rfl
    have : (n == 0) = true := by rw [h0]; rfl
    simp only [this, n, if_true]
  · next h0 =>
    have hn : (n == 0) = false := by simpa using h0
    set u := s.tsc + n + Config.freeNat s.fresh % 65 with hu
    have hstep : ∃ t, execNap h b s = .next t ∧ Passes (({ s with fresh := s.fresh + 1 } : State).modWarp v.key (fun w =>
        { w with wait := .nap u, waitSince := s.tsc })) v { v.w with wait := .nap u, waitSince := s.tsc } (fun _ => v.next) t := by
      unfold execNap
      refine issue_done hi.view hi.goes hi.calm ?_ (by rw [modWarp_warps, tget_tmod_self]; exact congrArg (Option.map _) hw) rfl
      simp only [hn, n, Bool.false_eq_true, if_false]
      rfl
    obtain ⟨t, ht, hp⟩ := hstep
    exact ⟨t, _, u, ht, hp.modWarp, rfl, by omega, by omega⟩

/-- SWR writes the flags, or their enables (04 R83). -/
def Warp.setFp (w : Warp) (r : SReg) (x : FFlags) : Warp := if r == .fflags then { w with fflags := x } else { w with fen := x }

theorem setFp_eq (w : Warp) (r : SReg) (x : FFlags) : w.setFp r x = if r = .fflags then { w with fflags := x } else { w with fen := x } := by
  unfold Warp.setFp
  simp only [beq_iff_eq]

theorem exec_swr {s : State} {h : Hdr} (r : SReg) (a : W9) {v : View} (hi : Issues s h (.swr h r a) v) :
    ∃ t w, exec (.swr h r a) s = .next t ∧ Passes s v w (fun _ => v.next) t
      ∧ w = if v.act = 0 then v.w else v.w.setFp r ((v.w.rd a.toNat v.low).setWidth 5) := by
  obtain ⟨-, -, -, hw, -⟩ := view_spec hi.view
  show ∃ t w, execSwr h r a s = .next t ∧ _
  unfold execSwr
  by_cases hact : v.act = 0
  · obtain ⟨t, ht, hp⟩ := issue_done hi.view hi.goes hi.calm (rq := reqOf (.swr h r a)) (s' := s) (w := v.w) (eff := fun v s =>
      if v.act == 0 then .done s else .done (s.modWarp v.key (fun w => w.setFp r ((v.w.rd a.toNat v.low).setWidth 5))))
      (by simp only [hact, beq_self_eq_true, if_true]) hw rfl
    exact ⟨t, v.w, ht, hp, by rw [if_pos hact]⟩
  · have hne : (v.act == 0) = false := by simpa using hact
    obtain ⟨t, ht, hp⟩ := issue_modWarp hi (F := fun w => w.setFp r ((v.w.rd a.toNat v.low).setWidth 5)) (eff := fun v s =>
      if v.act == 0 then .done s else .done (s.modWarp v.key (fun w => w.setFp r ((v.w.rd a.toNat v.low).setWidth 5))))
      (by simp only [hne, Bool.false_eq_true, if_false]) (by simp only [Warp.setFp]; split <;> rfl)
    exact ⟨t, _, ht, hp, by rw [if_neg hact]⟩

/-- Settles O18: the plain instructions by their effect on the warp, EXIT by whether a live thread is left. -/
theorem plainControlAndExit : Obligations.PlainControlAndExit := by
  unfold Obligations.PlainControlAndExit
  refine ⟨fun h b r a s v => ⟨fun hi => ?_, fun hi => ?_, fun hi hact => ?_, fun hi => ?_, fun hr hi => ?_⟩, fun h s v hi hact hops hlast => ?_⟩
  · exact issue_done hi.view hi.goes hi.calm (rq := reqOf (.nop h)) (eff := fun _ s => .done s) rfl (view_spec hi.view).2.2.2.1 rfl
  · exact exec_isync hi
  · exact exec_isync_last hi hact
  · exact exec_nap hi
  · obtain ⟨t, w, ht, hp, hw⟩ := exec_swr r a hi
    exact ⟨t, w, ht, hp, by rw [hw, setFp_eq]⟩
  · obtain ⟨s', w', hx, hw', hc, hall, hgrids, bars, hb⟩ := exec_exit hi hact hops hlast
    obtain ⟨-, -, -, hw, -, -, -, -, hbk, hblk, hgk, hg⟩ := view_spec hi.view
    have hlive {l : Nat} (hl : l < 32) : has w'.live l = (has v.w.live l && !has v.act l) := by
      rw [live_laneAt hl, live_laneAt hl, hc.live l hl, live_idle v.w v.act hl]
    have hsame := hc.same
    have hblk' : w'.blk = v.bk := by rw [hsame, hbk]; rfl
    have hregs : w'.regs = v.w.regs ∧ w'.preds = v.w.preds := by rw [hsame]; exact ⟨rfl, rfl⟩
    refine ⟨_, hx, ?_⟩
    split
    · next hlast =>
      have h0 : w'.live = 0 := mask_ext fun l hl => by
        have := congrArg (fun m => has m l) hlast
        simp only [has_and, has_not, decide_eq_true hl, Bool.true_and] at this
        rw [hlive hl, this]
      obtain ⟨h1, h2⟩ := retireWarp_gone (g := v.g) hw' h0 (by rw [hblk']; exact hb) (by rw [hgrids]; show Option.map _ (tget s.grids v.b.grid) = _; rw [← hgk, hg]; rfl)
      rw [hblk', hall] at h2
      exact ⟨h1, h2⟩
    · next hmore =>
      have hne : w'.live ≠ 0 := by
        obtain ⟨l, hl⟩ := mask_ne_zero hmore
        intro h0
        have h32 := has_lt hl
        have := hlive h32
        rw [has_and, has_not, decide_eq_true h32, Bool.true_and] at hl
        rw [h0, hl] at this
        exact absurd this (by simp [has])
      rw [retireWarp_live hw' hne]
      refine ⟨w', hw', hregs.1, hregs.2, fun l hl => ?_, fun l hl hna => ?_⟩
      · have hlane := laneAt_setLanes v.w v.act .idle (has_lt hl)
        rw [hl, if_pos rfl] at hlane
        rw [hc.gone l (has_lt hl) (by rw [hlane]; rfl), hlane]
      · rw [hlive (has_lt hl), hl, hna]
        rfl

end Sys2Proof.Machine
end

