-- ==== Sys2Proof/Proofs/Trapping.lean ====
section
/-! PROOF, of O19. TRAP and BKPT (07 R130): a cause raised after its instruction, with the group gone on before the handler is
entered (13 R219, R220, R222). -/

namespace Sys2Proof.Machine

/-- A warp that has drained takes the cause raised at its boundary, where no asynchronous cause is due. -/
theorem takeTrap_drained {s : State} {k : Nat} {w : Warp} {b : Block} {g : Grid} {p : Pend} (hw : tget s.warps k = some w)
    (hb : s.blk? w.blk = some b) (hg : tget s.grids b.grid = some g) (ha : w.asyncCause = none) (hd : ∀ o ∈ w.ops, o.done = true)
    (hf : ∀ o ∈ w.ops, o.fault = none) (hwait : w.wait = .none) (hhalf : w.half = none) (hp : w.pend = some p) :
    s.takeTrap k = if w.trap.isSome then s.doubleFault k p.cause p.pc else s.pendTrap k w b p := by
  have hfault : w.ops.find? (fun o => o.fault.isSome) = none := by
    rw [List.find?_eq_none]
    intro o ho
    simp [hf o ho]
  have hover : ∀ o ∈ w.ops, o.over = true := fun o ho => by simp [Op.over, hd o ho]
  have hdrained : w.drained w.timedOut = true := by
    simp only [Warp.drained, hwait, hhalf, Bool.and_eq_true, List.all_eq_true]
    exact ⟨⟨fun o ho => by simp [hover o ho], rfl⟩, rfl⟩
  have htimed : w.ops.any w.timedOut = false := by
    rw [List.any_eq_false]
    intro o ho
    simp [Warp.timedOut, hover o ho]
  unfold State.takeTrap
  simp only [hw, hb, hg, Option.bind_some, Option.map_some, ha, hfault, hp, hdrained, htimed, Option.map_none,
    Option.getD_none, Bool.and_false]
  rfl

/-- Without a REP the cause that is due does not depend on what stands at the boundary. -/
theorem asyncCause_pend {w : Warp} (hr : w.rep = none) (p : Option Pend) : ({ w with pend := p } : Warp).asyncCause = w.asyncCause := by
  unfold Warp.asyncCause
  simp only [hr, Option.isSome_none, Bool.false_and, Bool.false_eq_true, if_false]

/-- A group that issues: its warp waits in nothing, is not stopped, and no instruction of it has failed. -/
theorem Issues.calmly {s : State} {h : Hdr} {i : Instr} {v : View} (hi : Issues s h i v) :
    v.w.halted = false ∧ v.w.wait = .none ∧ v.w.pend = none ∧ (v.w.half = none → ∀ o ∈ v.w.ops, o.fault = none) := by
  obtain ⟨-, hb, -⟩ := (goes_iff v _).mp hi.goes
  simp only [Warp.blocked, Bool.or_eq_false_iff, bne_eq_false_iff_eq, Option.isSome_eq_false_iff, Option.isNone_iff_eq_none] at hb
  obtain ⟨⟨⟨h1, h2⟩, h3⟩, h4⟩ := hb
  refine ⟨h1, h2, h3, fun hh o ho => ?_⟩
  rw [hh, Option.isNone_none, Bool.true_and, List.any_eq_false] at h4
  simpa using h4 o ho

/-- What stands against a group for a cause. -/
def View.pendFor (v : View) (c : Cause) (mask : Mask) (addr : W64) (next : Option W64) : Pend :=
  { cause := c, pc := v.pc, group := v.grp, mask := mask, addr := addr, iter := 0, next := next, mark := none }

/-- The issuing warp has a cause against it. -/
def State.stand (s : State) (v : View) (p : Pend) : State := s.modWarp v.key (fun w => { w with pend := some p })

theorem raise_stand {s : State} {v : View} (hr : v.w.rep = none) (c : Cause) (mask : Mask) (addr : W64) (next : Option W64) :
    s.raise v c mask addr next = (s.stand v (v.pendFor c mask addr next)).takeTrap v.key := by
  unfold State.raise State.raiseBy
  simp only [hr]
  rfl

/-- A raised cause, where the warp has drained and no asynchronous cause is due, is taken at once, or is a double fault. -/
theorem stand_drained {s s' : State} {h : Hdr} {i : Instr} {v : View} (hi : Issues s h i v) (hw' : tget s'.warps v.key = some v.w)
    (hb' : s'.blk? v.bk = some v.b) (hg' : tget s'.grids v.gk = some v.g) (hr : v.w.rep = none) (hhalf : v.w.half = none)
    (hd : ∀ o ∈ v.w.ops, o.done = true) (p : Pend) :
    (s'.stand v p).takeTrap v.key = if v.w.trap.isSome then (s'.stand v p).doubleFault v.key p.cause p.pc
      else (s'.stand v p).pendTrap v.key { v.w with pend := some p } v.b p := by
  obtain ⟨-, -, -, -, -, -, -, -, hbk, -, hgk, -⟩ := view_spec hi.view
  obtain ⟨-, hwait, -, hfault⟩ := hi.calmly
  have hw1 : tget (s'.stand v p).warps v.key = some { v.w with pend := some p } := by
    rw [State.stand, modWarp_warps, tget_tmod_self, hw']; rfl
  have hb1 : (s'.stand v p).blk? v.w.blk = some v.b := by rw [← hbk]; exact hb'
  have hg1 : tget (s'.stand v p).grids v.b.grid = some v.g := by rw [← hgk]; exact hg'
  exact takeTrap_drained hw1 hb1 hg1 (by rw [asyncCause_pend hr]; exact hi.calm) hd (hfault hhalf) hwait hhalf rfl

/-- The warp whose group has gone on to the successor. -/
def View.movedOn (v : View) (w : Warp) : Warp := w.goto v.entry (fun l => if has v.grp l then v.next else w.pcAt l)

/-- Without a REP the group is all of its entry. -/
theorem Issues.wholeEntry {s : State} {h : Hdr} {i : Instr} {v : View} (hi : Issues s h i v) (hr : v.w.rep = none) : v.grp = v.w.groupOf v.entry := by
  obtain ⟨-, -, -, -, -, -, -, hgrp, -⟩ := view_spec hi.view
  rw [hgrp, Warp.issuers, hr]

/-- A cause that comes after its instruction: the group goes on, and the handler is entered. -/
theorem pendTrap_after {s : State} {v : View} {w : Warp} {p : Pend} {n : W64} (hb : s.blk? w.blk = some v.b) (hg : tget s.grids v.b.grid = some v.g)
    (hp : p.next = some n) (hn : n = v.next) (hpg : p.group = v.grp) (hlow : w.laneAt ((lowest v.grp).getD 0) = .on v.entry) (hc : p.cause ≠ .debugHalt)
    (hh : v.g.rec_.handler ≠ 0) (k : Nat) :
    ∃ as, s.pendTrap k w v.b p = { s with warps := tput s.warps k (Warp.handlerEntry { v.movedOn w with async := as, pend := none, hang := 0 }
      { source := v.b.core, cause := p.cause, pc := n, win := 0, mask := p.mask, addr := p.addr, iter := p.iter } v.g.rec_.handler s.tsc) } := by
  have hc' : (p.cause == .debugHalt) = false := by simpa using hc
  have hblk : (v.movedOn w).blk = w.blk := by rw [View.movedOn, (goto_regroups w _ _).1]; rfl
  subst hn
  unfold State.pendTrap State.enterTrap
  simp only [hp, hpg, hlow]
  rw [show w.goto v.entry (fun l => if has v.grp l = true then v.next else w.pcAt l) = v.movedOn w from rfl, hblk]
  simp only [hb, hg, Option.bind_some, Option.map_some, hh, hc', Option.getD_some, if_false, Bool.false_eq_true]
  exact ⟨_, rfl⟩

/-- The warp is in its handler with a cause that came after the instruction, which names the successor: registers, predicates,
flags, view masks, the card and every byte of memory are as they were, and so is every other warp. -/
def EntersAfter (s : State) (v : View) (c : Cause) (mask : Mask) (addr : W64) (t : State) (w : Warp) (r : TrapRec) : Prop :=
  tget t.warps v.key = some w ∧ (∀ j, j ≠ v.key → tget t.warps j = tget s.warps j)
    ∧ w.trap = some r ∧ r.cause = c.code ∧ r.pc = v.next ∧ r.win = 0 ∧ r.mask = mask ∧ r.addr = addr ∧ r.iter = 0
    ∧ (∀ l, has v.grp l = true → nth r.ctl.pcs l 0 = v.next)
    ∧ (∀ l, has v.w.live l = true → w.pcAt l = v.g.rec_.handler ∧ w.laneAt l = .on 0)
    ∧ w.regs = v.w.regs ∧ w.preds = v.w.preds ∧ w.vms = v.w.vms ∧ w.card = v.w.card ∧ w.fflags = v.w.fflags ∧ w.fen = v.w.fen
    ∧ w.cstack = List.replicate 32 [] ∧ w.wait = .none ∧ ∀ d a, t.storeByte d a = s.storeByte d a

/-- A cause raised after an instruction, where the warp has drained and is in no handler. -/
theorem after_enters {s : State} {h : Hdr} {i : Instr} {v : View} (hi : Issues s h i v) (ht : v.w.trap = none) (hr : v.w.rep = none)
    (hhalf : v.w.half = none) (hh : v.g.rec_.handler ≠ 0) (hd : ∀ o ∈ v.w.ops, o.done = true) {c : Cause} (hc : c ≠ .debugHalt) (mask : Mask) (addr : W64) :
    ∃ w r, EntersAfter s v c mask addr (s.raise v c mask addr (some v.next)) w r := by
  obtain ⟨-, -, -, hw, -, -, -, -, hbk, hb, hgk, hg⟩ := view_spec hi.view
  have hne : v.grp ≠ 0 := ((goes_iff v _).mp hi.goes).1
  have hgroup := hi.wholeEntry hr
  have hlow : has (v.w.groupOf v.entry) ((lowest v.grp).getD 0) = true := hgroup ▸ lowest_has hne
  set p : Pend := v.pendFor c mask addr (some v.next) with hp
  set w0 : Warp := { v.w with pend := some p } with hw0
  obtain ⟨as, htrap⟩ := pendTrap_after (s := s.stand v p) (v := v) (w := w0) (p := p) (by show s.blk? v.w.blk = _; rw [← hbk]; exact hb)
    (by show tget s.grids v.b.grid = _; rw [← hgk]; exact hg) rfl rfl rfl ((has_group (has_lt hlow)).mp hlow) hc hh v.key
  rw [raise_stand hr, stand_drained hi hw hb hg hr hhalf hd, ht, Option.isSome_none, if_neg Bool.false_ne_true, htrap]
  obtain ⟨⟨ps, ls, hgo⟩, hlive, hpc⟩ := goto_spec w0 v.entry (fun l => if has v.grp l then v.next else w0.pcAt l)
  have hgo' : v.movedOn w0 = { w0 with pcs := ps, lanes := ls } := hgo
  have hlive' : ∀ l, has w0.live l = true → has (v.movedOn w0).live l = true := hlive
  have hpc' : ∀ l, l < 32 → (v.movedOn w0).pcAt l = if has (w0.groupOf v.entry) l then (if has v.grp l then v.next else w0.pcAt l) else w0.pcAt l := hpc
  generalize v.movedOn w0 = x at *
  refine ⟨_, _, tget_tput_self _ _ _, fun j hj => ?_, rfl, rfl, rfl, rfl, rfl, rfl, rfl, fun l hl => ?_, fun l hl => handlerEntry_spec _ _ _ _ l (hlive' l hl),
    ?_, ?_, ?_, ?_, ?_, ?_, rfl, rfl, fun _ _ => rfl⟩
  · show tget (tput (tmod s.warps v.key _) v.key _) j = _
    rw [tget_tput_ne _ _ hj, tget_tmod_ne _ _ hj]
  · have := hpc' l (has_lt hl)
    rw [show w0.groupOf v.entry = v.grp from hgroup.symm, hl, if_pos rfl, if_pos rfl] at this
    exact this
  all_goals rw [hgo']; rfl

theorem exec_bkpt_eq (h : Hdr) (k : W9) (s : State) : exec (.bkpt h k) s = issue s h (reqOf (.bkpt h k)) (fun v s =>
    if v.act == 0 || !(tget s.ctxs v.g.ctx).any (fun c => c.dbg) then .done s else .after s .breakpoint v.act (k.setWidth 64)) := by
  show execBkpt h k s = _
  unfold execBkpt
  congr 1
  funext v s
  cases tget s.ctxs v.g.ctx with
  | none => rfl
  | some c => rfl

/-- Settles O19: both raise their cause after they have gone on, or only go on. -/
theorem trapInstructions : Obligations.TrapInstructions := by
  unfold Obligations.TrapInstructions
  intro h k s v held enters passes
  constructor
  · intro hi
    obtain ⟨-, -, -, hw, -⟩ := view_spec hi.view
    split
    · next hact =>
      exact issue_done hi.view hi.goes hi.calm (rq := reqOf (.trap h k)) (s' := s) (eff := fun v s => if v.act == 0 then .done s else .after s .trapInstr v.act (k.setWidth 64))
        (by simp only [hact, beq_self_eq_true, if_true]) hw rfl
    · next hact =>
      intro ht hr hhalf hh hd
      obtain ⟨w, r, hx⟩ := after_enters hi ht hr hhalf hh hd (c := .trapInstr) nofun v.act (k.setWidth 64)
      refine ⟨_, w, r, ?_, hx⟩
      have hne : (v.act == 0) = false := by simpa using hact
      show execTrap h k s = _
      unfold execTrap
      rw [issue_goes hi.view hi.goes]
      simp only [hne, Bool.false_eq_true, if_false, State.finish]
  · intro hi
    obtain ⟨-, -, -, hw, -⟩ := view_spec hi.view
    split
    · next hact =>
      have hno : (v.act == 0 || !held) = true := by simpa using hact
      show ∃ t, exec (.bkpt h k) s = .next t ∧ _
      rw [exec_bkpt_eq]
      exact issue_done hi.view hi.goes hi.calm (if_pos hno) hw rfl
    · next hact =>
      intro ht hr hhalf hh hd
      obtain ⟨w, r, hx⟩ := after_enters hi ht hr hhalf hh hd (c := .breakpoint) nofun v.act (k.setWidth 64)
      refine ⟨_, w, r, ?_, hx⟩
      rw [not_or, Bool.not_eq_false] at hact
      have hno : ¬ (v.act == 0 || !held) = true := by rw [hact.2]; simpa using hact.1
      rw [exec_bkpt_eq, issue_goes hi.view hi.goes]
      exact congrArg (fun e => Host.Outcome.next (s.finish v _ e)) (if_neg hno)

end Sys2Proof.Machine
end

