-- ==== Sys2Proof/Proofs/Discarding.lean ====
section
/-! PROOF, of O25. CCTL, ICINV and FENCE (07 R144, R151; 10 R211; 11 R216). -/

namespace Sys2Proof.Machine

/- Discarding lines. -/

/-- A line that has been discarded by a core: none of its lines, and no copy in its die's store, where the line is homed elsewhere
and held no poison before. -/
def Discarded (core : Nat) (s t : State) (n : Nat) : Prop :=
  tget (t.core core).lines n = none
  ∧ (homeOf (n * 128) ≠ coreDie core → (∀ x ∈ (s.die (coreDie core)).bad, x / 16 ≠ n) → tget (t.die (coreDie core)).copies n = none)

/-- Lines discarded one by one are all discarded. -/
theorem discarded_foldl {core : Nat} {f : State → Nat → State} (hf : ∀ s l, Loses core s (f s l) ∧ Discarded core s (f s l) l) (ls : List Nat) :
    ∀ s, ∀ n ∈ ls, Discarded core s (ls.foldl f s) n := by
  induction ls with
  | nil => exact fun _ n hn => absurd hn List.not_mem_nil
  | cons l ls ih =>
    intro s n hn
    obtain ⟨hl, h1, h2⟩ := hf s l
    rw [List.foldl_cons]
    rcases List.mem_cons.mp hn with rfl | hn
    · have hrest := Loses.foldl f (fun s l => (hf s l).1) ls (f s n)
      exact ⟨hrest.lines n h1, fun hh hb => hrest.copies n (h2 hh hb)⟩
    · obtain ⟨h3, h4⟩ := ih (f s l) n hn
      exact ⟨h3, fun hh hb => h4 hh fun x hx => hb x (hl.bad x hx)⟩

theorem writeBackDrop_spec (core : Nat) (s : State) (l : Nat) :
    Loses core s ((s.writeBack core l).dropLine core l) ∧ Discarded core s ((s.writeBack core l).dropLine core l) l := by
  have hwb := writeBack_loses s core l
  obtain ⟨h1, h2, h3⟩ := dropLine_spec (s.writeBack core l) core l
  exact ⟨hwb.trans h1, h2, fun hh hb => h3 hh fun x hx => hb x (hwb.bad x hx)⟩

/- CCTL (07 R144). -/

/-- The warp waits until the home has applied the writes that its die has sent to the lines. -/
def State.waitWb (s : State) (v : View) (lines : List Nat) (inv : Bool) : State :=
  s.modWarp v.key (fun w => { w with wait := .wb lines inv, waitSince := s.tsc })

/-- What CCTL does with the lines of its active lanes. -/
def State.cctl (s : State) (v : View) (mode : CctlMode) (lines : List Nat) : State :=
  match mode with
  | .inv => s.dropLines v.core lines
  | .wb => if lines.any (s.owed v.die) then s.waitWb v lines false else lines.foldl (fun s l => s.writeBack v.core l) s
  | .wbinv => if lines.any (s.owed v.die) then s.waitWb v lines true else lines.foldl (fun s l => (s.writeBack v.core l).dropLine v.core l) s

/-- A CCTL with no fault: nothing without an active lane, and else what its mode says. -/
theorem exec_cctl {s : State} {h : Hdr} {mode : CctlMode} {a : W9} {off : Option W32} {v : View} (hi : Issues s h (.cctl h mode a off) v)
    (hf : s.firstFault v .cctl .dflt 1 needRD (v.addr a off) = none) {s' : State} (hs' : s' = if v.act = 0 then s else s.cctl v mode (s.linesAt v (v.addr a off)))
    {w : Warp} (hw : tget s'.warps v.key = some w) (hl : w.lanes = v.w.lanes) (hk : ∀ k, k ≠ v.key → tget s'.warps k = tget s.warps k)
    (hc : s'.issueCount = s.issueCount) : ∃ t, exec (.cctl h mode a off) s = .next t ∧ Flows s v w (fun _ => v.next) t
      ∧ t = { s' with warps := t.warps, issueCount := t.issueCount } := by
  show ∃ t, execCctl h mode a off s = .next t ∧ _
  unfold execCctl
  refine issue_flows hi ?_ hw hl hk hc
  simp only [hf]
  rw [hs']
  by_cases hact : v.act = 0
  · simp only [hact, beq_self_eq_true, if_true]
  · have hne : (v.act == 0) = false := by simpa using hact
    simp only [hne, Bool.false_eq_true, if_false, hact]
    cases mode with
    | inv => rfl
    | wb => rfl
    | wbinv => rfl

/-- A CCTL that waits for the home. -/
theorem exec_cctl_waits {s : State} {h : Hdr} {mode : CctlMode} {a : W9} {off : Option W32} {v : View} (hi : Issues s h (.cctl h mode a off) v)
    (hf : s.firstFault v .cctl .dflt 1 needRD (v.addr a off) = none) (hact : v.act ≠ 0) {inv : Bool}
    (hm : s.cctl v mode (s.linesAt v (v.addr a off)) = s.waitWb v (s.linesAt v (v.addr a off)) inv) :
    ∃ t w, exec (.cctl h mode a off) s = .next t ∧ Flows s v w (fun _ => v.next) t
      ∧ w = { v.w with wait := .wb (s.linesAt v (v.addr a off)) inv, waitSince := s.tsc }
      ∧ t = { s with warps := t.warps, issueCount := t.issueCount } := by
  obtain ⟨-, -, -, hw, -⟩ := view_spec hi.view
  obtain ⟨t, ht, hp, hr⟩ := exec_cctl hi hf (s' := s.waitWb v (s.linesAt v (v.addr a off)) inv) (by rw [if_neg hact, hm])
    (w := { v.w with wait := .wb (s.linesAt v (v.addr a off)) inv, waitSince := s.tsc })
    (by rw [State.waitWb, modWarp_warps, tget_tmod_self, hw]; rfl) rfl (fun k hk => tget_tmod_ne s.warps _ hk) rfl
  exact ⟨t, _, ht, hp, rfl, hr⟩

/-- A CCTL that changes caches only. -/
theorem exec_cctl_caches {s : State} {h : Hdr} {mode : CctlMode} {a : W9} {off : Option W32} {v : View} (hi : Issues s h (.cctl h mode a off) v)
    (hf : s.firstFault v .cctl .dflt 1 needRD (v.addr a off) = none) {s' : State} (hs' : s' = if v.act = 0 then s else s.cctl v mode (s.linesAt v (v.addr a off)))
    (hr : s' = { s with cores := s'.cores, dies := s'.dies }) :
    ∃ t, exec (.cctl h mode a off) s = .next t ∧ Flows s v v.w (fun _ => v.next) t ∧ t.cores = s'.cores ∧ t.dies = s'.dies
      ∧ t = { s with warps := t.warps, cores := t.cores, dies := t.dies, issueCount := t.issueCount } := by
  obtain ⟨-, -, -, hw, -⟩ := view_spec hi.view
  have hwarps : s'.warps = s.warps := by rw [hr]
  obtain ⟨t, ht, hp, he⟩ := exec_cctl hi hf hs' (by rw [hwarps]; exact hw) rfl (fun k _ => by rw [hwarps]) (by rw [hr])
  refine ⟨t, ht, hp, by rw [he], by rw [he], ?_⟩
  rw [he, hr]

/-- ICINV enters its lines behind every store that the active lanes follow (07 R144). -/
theorem exec_icinv {s : State} {h : Hdr} {a : W9} {off : Option W32} {v : View} (hi : Issues s h (.icinv h a off) v)
    (hf : s.firstFault v .icinv .dflt 1 needRD (v.addr a off) = none) (hb : ∀ c, c < 8 → v.w.colourBusy v.act (BitVec.ofNat 3 c) = false) :
    ∃ t, exec (.icinv h a off) s = .next t ∧ Passes s v { v.w with icinvs := v.w.icinvs ++ (s.linesAt v (v.addr a off)).map (fun n =>
      (n, VC.joins (v.lanes.map (fun l => VC.joins ((v.w.clkAt l).base :: (v.w.clkAt l).col))), v.act)) } (fun _ => v.next) t := by
  show ∃ t, execIcinv h a off s = .next t ∧ _
  unfold execIcinv
  refine issue_modWarp hi (F := fun w => { w with icinvs := w.icinvs ++ (s.linesAt v (v.addr a off)).map (fun n =>
      (n, VC.joins (v.lanes.map (fun l => VC.joins ((v.w.clkAt l).base :: (v.w.clkAt l).col))), v.act)) }) ?_ rfl
  have hbusy : (List.range 8).any (fun c => v.w.colourBusy v.act (BitVec.ofNat 3 c)) = false := by
    rw [List.any_eq_false]
    intro c hc
    rw [hb c (List.mem_range.mp hc)]
    exact Bool.false_ne_true
  simp only [hf, hbusy, Bool.false_eq_true, if_false]

/- Clocks (10 R205). -/

theorem VC.le_iff {a b : VC} : a.le b = true ↔ a.d0 ≤ b.d0 ∧ a.d1 ≤ b.d1 ∧ a.d2 ≤ b.d2 ∧ a.d3 ≤ b.d3 ∧ a.d4 ≤ b.d4 := by
  simp only [VC.le, Bool.and_eq_true, decide_eq_true_eq, and_assoc]

theorem VC.le_trans {a b c : VC} (h1 : a.le b = true) (h2 : b.le c = true) : a.le c = true := by
  rw [VC.le_iff] at *
  omega

theorem VC.zero_le (a : VC) : VC.zero.le a = true := by
  rw [VC.le_iff]
  exact ⟨Nat.zero_le _, Nat.zero_le _, Nat.zero_le _, Nat.zero_le _, Nat.zero_le _⟩

theorem VC.le_join (a b : VC) : a.le (a.join b) = true ∧ b.le (a.join b) = true := by
  rw [VC.le_iff, VC.le_iff]
  exact ⟨⟨le_max_left _ _, le_max_left _ _, le_max_left _ _, le_max_left _ _, le_max_left _ _⟩,
    le_max_right _ _, le_max_right _ _, le_max_right _ _, le_max_right _ _, le_max_right _ _⟩

/-- A join of clocks follows each of them. -/
theorem VC.le_joins {x : VC} {xs : List VC} (h : x ∈ xs) : x.le (VC.joins xs) = true := by
  have hfold (xs : List VC) : ∀ a : VC, a.le (xs.foldl VC.join a) = true ∧ ∀ x ∈ xs, x.le (xs.foldl VC.join a) = true := by
    induction xs with
    | nil => exact fun a => ⟨by rw [VC.le_iff]; exact ⟨le_rfl, le_rfl, le_rfl, le_rfl, le_rfl⟩, fun _ hx => absurd hx List.not_mem_nil⟩
    | cons y ys ih =>
      intro a
      obtain ⟨h1, h2⟩ := ih (a.join y)
      refine ⟨VC.le_trans (VC.le_join a y).1 h1, fun x hx => ?_⟩
      rcases List.mem_cons.mp hx with rfl | hx
      · exact VC.le_trans (VC.le_join a x).2 h1
      · exact h2 x hx
  exact (hfold xs .zero).2 x h

theorem nth_mem_or {α : Type} (l : List α) (i : Nat) (d : α) : nth l i d = d ∨ nth l i d ∈ l := by
  unfold nth
  cases h : l[i]? with
  | none => exact .inl rfl
  | some x => exact .inr (List.mem_of_getElem? h)

/-- The clock of an ICINV follows the stores of every colour of the active lanes. -/
theorem col_le_stores (v : View) {l : Nat} (hl : has v.act l = true) (c : Nat) :
    (nth (v.w.clkAt l).col c .zero).le (VC.joins (v.lanes.map (fun l => VC.joins ((v.w.clkAt l).base :: (v.w.clkAt l).col)))) = true := by
  rcases nth_mem_or (v.w.clkAt l).col c .zero with h | h
  · rw [h]
    exact VC.zero_le _
  · exact VC.le_trans (VC.le_joins (List.mem_cons_of_mem _ h)) (VC.le_joins (List.mem_map_of_mem ((mem_lanesOf v.act l).mpr hl)))

/- FENCE (11 R216). -/

theorem exec_fence {s : State} {h : Hdr} {cm : W8} {sc : Option Scope} {v : View} (hi : Issues s h (.fence h cm sc) v)
    (hr : v.w.releaseWaits v.act = false) :
    ∃ t, exec (.fence h cm sc) s = .next t ∧ Passes s v (v.w.modClks v.act (fun c => c.fence cm)) (fun _ => v.next) t := by
  show ∃ t, execFence h cm sc s = .next t ∧ _
  unfold execFence
  refine issue_modWarp hi (F := fun w => w.modClks v.act (fun c => c.fence cm)) ?_ (by rw [modClks_eq])
  simp only [hr, Bool.false_eq_true, if_false]

/-- Settles O25. -/
theorem cacheControl : Obligations.CacheControl := by
  unfold Obligations.CacheControl
  intro h mode a off cm sc s v va lines gone keeps
  refine ⟨fun hi hf => ?_, fun hi hf hb => ?_, fun hi hr => ?_⟩
  · by_cases hact : v.act = 0
    · obtain ⟨t, ht, hp, hcores, hdies, hrest⟩ := exec_cctl_caches hi hf (s' := s) (by rw [if_pos hact]) rfl
      exact ⟨t, v.w, ht, hp, hrest, by rw [if_pos hact]; exact ⟨rfl, hcores, hdies⟩⟩
    · simp only [if_neg hact]
      have hcore {s' t : State} (h1 : t.cores = s'.cores) (h2 : t.dies = s'.dies) : t.core v.core = s'.core v.core ∧ ∀ d, t.die d = s'.die d :=
        ⟨by rw [State.core, h1]; rfl, fun d => by rw [State.die, h2]; rfl⟩
      have hgone {s' t : State} (h1 : t.cores = s'.cores) (h2 : t.dies = s'.dies) (hd : ∀ n ∈ lines, Discarded v.core s s' n) : gone t := fun n hn => by
        obtain ⟨e1, e2⟩ := hcore h1 h2
        rw [e1, e2]
        exact hd n hn
      cases mode with
      | inv =>
        obtain ⟨t, ht, hp, hcores, hdies, hrest⟩ := exec_cctl_caches hi hf (s' := s.dropLines v.core lines) (by rw [if_neg hact]; rfl)
          (Loses.foldl (core := v.core) _ (fun s l => (dropLine_spec s v.core l).1) lines s).rest
        exact ⟨t, v.w, ht, hp, hrest, rfl, hgone hcores hdies fun n hn => dropLines_spec v.core lines s n hn⟩
      | wb =>
        cases ho : lines.any (s.owed v.die) with
        | true =>
          obtain ⟨t, w, ht, hp, hw, hrest⟩ := exec_cctl_waits hi hf hact (inv := false) (if_pos ho)
          exact ⟨t, w, ht, hp, by rw [hrest], hw, by rw [hrest], by rw [hrest]⟩
        | false =>
          have hwb := writeBacks_spec v.core lines s
          obtain ⟨t, ht, hp, hcores, hdies, hrest⟩ := exec_cctl_caches hi hf (s' := lines.foldl (fun s l => s.writeBack v.core l) s)
            (by rw [if_neg hact]; exact (if_neg (Bool.eq_false_iff.mp ho)).symm) (by rw [hwb.rest])
          refine ⟨t, v.w, ht, hp, hrest, rfl, nofun, fun _ => ⟨by rw [hcores, hwb.rest], fun d => ?_⟩⟩
          rw [(hcore hcores hdies).2]
          exact ⟨hwb.copies d, hwb.vec d⟩
      | wbinv =>
        cases ho : lines.any (s.owed v.die) with
        | true =>
          obtain ⟨t, w, ht, hp, hw, hrest⟩ := exec_cctl_waits hi hf hact (inv := true) (if_pos ho)
          exact ⟨t, w, ht, hp, by rw [hrest], hw, by rw [hrest], by rw [hrest]⟩
        | false =>
          have hd := discarded_foldl (core := v.core) (writeBackDrop_spec v.core) lines s
          obtain ⟨t, ht, hp, hcores, hdies, hrest⟩ := exec_cctl_caches hi hf
            (s' := lines.foldl (fun s l => (s.writeBack v.core l).dropLine v.core l) s)
            (by rw [if_neg hact]; exact (if_neg (Bool.eq_false_iff.mp ho)).symm)
            (Loses.foldl (core := v.core) _ (fun s l => (writeBackDrop_spec v.core s l).1) lines s).rest
          exact ⟨t, v.w, ht, hp, hrest, rfl, fun _ => hgone hcores hdies hd, nofun⟩
  · obtain ⟨t, ht, hp⟩ := exec_icinv hi hf hb
    exact ⟨t, _, _, ht, hp, rfl, fun l hl c _ => col_le_stores v hl c⟩
  · obtain ⟨t, ht, hp⟩ := exec_fence (cm := cm) (sc := sc) hi hr
    refine ⟨t, _, ht, hp, by rw [modClks_eq], fun l _ => ?_⟩
    rw [clkAt_modClks]
    rfl

end Sys2Proof.Machine
end

