-- ==== Sys2Proof/Proofs/Debugging.lean ====
section
/-! PROOF, of O53. The DEBUG operations (13 R223; 20 R307): what a change of every warp of a grid does, and the five commands. -/

namespace Sys2Proof.Machine

/- Every warp of a grid. -/

/-- The block is one of the grid. -/
def State.mine (s : State) (gk bk : Nat) : Bool := (s.blk? bk).any (fun b => b.grid == gk)

theorem mine_iff {s : State} {gk bk : Nat} : s.mine gk bk = true ↔ ∃ b, s.blk? bk = some b ∧ b.grid = gk := by
  rw [State.mine, Option.any_eq_true]
  simp only [beq_iff_eq]

/-- The warps that a block of the grid has set aside change too. -/
def Block.modSaved (b : Block) (gk : Nat) (f : Warp → Warp) : Block :=
  if b.grid == gk then { b with saved := b.saved.map (fun x => (x.1, f x.2)) } else b

theorem modGridWarps_eq (s : State) (gk : Nat) (f : Warp → Warp) : s.modGridWarps gk f =
    { s with warps := s.warps.map (fun x => if s.mine gk x.2.blk then (x.1, f x.2) else x), blocks := s.blocks.map (fun x => (x.1, x.2.modSaved gk f)) } := by
  have hmine : (fun x : Nat × Warp => if s.mine gk x.2.blk then (x.1, f x.2) else x)
      = fun x => if (match s.blk? x.2.blk with | some b => b.grid == gk | none => false) then (x.1, f x.2) else x := by
    funext x
    unfold State.mine
    cases s.blk? x.2.blk <;> rfl
  rw [hmine]
  rfl

/-- Only warps and blocks change, and the blocks stay blocks of their grids; a warp of the grid changes, and no other. -/
theorem modGridWarps_spec (s : State) (gk : Nat) (f : Warp → Warp) :
    s.modGridWarps gk f = { s with warps := (s.modGridWarps gk f).warps, blocks := (s.modGridWarps gk f).blocks }
    ∧ (∀ g bk, (s.modGridWarps gk f).mine g bk = s.mine g bk)
    ∧ ∀ k, tget (s.modGridWarps gk f).warps k = (tget s.warps k).map (fun w => if s.mine gk w.blk then f w else w) := by
  rw [modGridWarps_eq]
  refine ⟨rfl, fun g bk => ?_, fun k => ?_⟩
  · show (tget (s.blocks.map (fun x => (x.1, x.2.modSaved gk f))) bk).any _ = (tget s.blocks bk).any _
    rw [tget_map_option s.blocks (F := fun x => (x.1, x.2.modSaved gk f)) fun _ => rfl]
    cases tget s.blocks bk with
    | none => rfl
    | some b =>
      have hgrid : (b.modSaved gk f).grid = b.grid := by unfold Block.modSaved; split <;> rfl
      simp only [Option.map_some, Option.any_some, hgrid]
  · rw [tget_map_option s.warps (F := fun x => if s.mine gk x.2.blk then (x.1, f x.2) else x) fun x => by split <;> rfl]
    refine congrArg (fun g => Option.map g (tget s.warps k)) (funext fun w => ?_)
    cases s.mine gk w.blk <;> rfl

/-- The warps of several grids are let go on. -/
theorem unhalt_foldl (gs : List (Nat × Grid)) : ∀ s : State,
    gs.foldl (fun s y => s.modGridWarps y.1 Warp.unhalt) s
      = { s with warps := (gs.foldl (fun s y => s.modGridWarps y.1 Warp.unhalt) s).warps, blocks := (gs.foldl (fun s y => s.modGridWarps y.1 Warp.unhalt) s).blocks }
    ∧ ∀ k, tget (gs.foldl (fun s y => s.modGridWarps y.1 Warp.unhalt) s).warps k
        = (tget s.warps k).map (fun w => if gs.any (fun y => s.mine y.1 w.blk) then w.unhalt else w) := by
  induction gs with
  | nil => exact fun s => ⟨rfl, fun k => by simp⟩
  | cons y gs ih =>
    intro s
    obtain ⟨h1, h2, h3⟩ := modGridWarps_spec s y.1 Warp.unhalt
    obtain ⟨h4, h5⟩ := ih (s.modGridWarps y.1 Warp.unhalt)
    rw [List.foldl_cons]
    refine ⟨by rw [h4, h1], fun k => ?_⟩
    rw [h5 k, h3 k, Option.map_map]
    refine congrArg (fun g => Option.map g (tget s.warps k)) (funext fun w => ?_)
    by_cases hy : s.mine y.1 w.blk = true
    · simp only [Function.comp_apply, h2, List.any_cons, hy, if_true, Bool.true_or]
      exact ite_self _
    · simp only [Function.comp_apply, h2, List.any_cons, hy, if_false, Bool.false_eq_true, Bool.false_or]

/- The commands. -/

theorem word_sub {c : Cmd} {n : Nat} (ho : c.opc = 0x31) (hn : c.word 2 = n) : isSub 0x31 n c = true := by
  rw [isSub, ho, hn, beq_self_eq_true, beq_self_eq_true]
  rfl

/-- A DEBUG operation on a launch of a context that the physical function's debugger holds. -/
theorem debugGrid_to {s T : State} {q : Nat} {c : Cmd} {p : QPair} {x : Ctx} (h : Heads s 0 q c p) (hx : tget s.ctxs c.ctx = some x) (hfn : x.fn = 0)
    (hcl : s.closing c.ctx = false) (ho : c.opc = 0x31) {op : Nat} (hop : c.word 2 = op) (hdbg : x.dbg = true) {gk : Nat} {g : Grid}
    (hg : s.grids.find? (fun y => y.2.ctx == c.ctx && y.2.cid == c.word 3 && y.2.state != .done) = some (gk, g)) {run : State → Cmd → Nat → State}
    (hT : run (s.popped 0 q p) c gk = T) (hq : T.queues = (s.popped 0 q p).queues) :
    s.debugGrid 0 q op run = .next (T.reply 0 q c.cid 0 none) := by
  have hqueue : tget T.queues (qkey 0 q) = some p := by rw [hq]; exact popped_queue s 0 q p
  obtain ⟨y, hy, -, -⟩ := reply_done c.cid 0 none hqueue
  unfold State.debugGrid
  refine ctxCommand_to h hx hfn hcl (word_sub ho hop) rfl ?_ hy rfl
  have hg' : (s.popped 0 q p).grids.find? (fun y => y.2.ctx == c.ctx && y.2.cid == c.word 3 && y.2.state != .done) = some (gk, g) := hg
  simp only [hg', hdbg, beq_self_eq_true, Bool.and_self, if_true, hT]

/-- What a change that lets warps go on, or halts them, keeps of a warp. -/
theorem keeps_of_mine {s t : State} {gk : Nat} {f : Warp → Warp} {P : Warp → Warp → Prop}
    (ht : ∀ k, tget t.warps k = (tget s.warps k).map (fun w => if s.mine gk w.blk then f w else w))
    (hf : ∀ w, (f w).regs = w.regs ∧ (f w).preds = w.preds ∧ (f w).pcs = w.pcs) (hP : ∀ w, P w (f w)) {k : Nat} {w : Warp} (hw : tget s.warps k = some w) :
    ∃ w', tget t.warps k = some w' ∧ w'.regs = w.regs ∧ w'.preds = w.preds ∧ w'.pcs = w.pcs
      ∧ ((∃ b, s.blk? w.blk = some b ∧ b.grid = gk) → P w w') ∧ (¬ (∃ b, s.blk? w.blk = some b ∧ b.grid = gk) → w' = w) := by
  refine ⟨if s.mine gk w.blk then f w else w, by rw [ht, hw]; rfl, ?_⟩
  by_cases hm : s.mine gk w.blk = true
  · obtain ⟨h1, h2, h3⟩ := hf w
    rw [if_pos hm]
    exact ⟨h1, h2, h3, fun _ => hP w, fun hn => absurd (mine_iff.mp hm) hn⟩
  · rw [if_neg hm]
    exact ⟨rfl, rfl, rfl, fun hy => absurd (mine_iff.mpr hy) hm, fun _ => rfl⟩

theorem modGridWarps_answers {s : State} {fn q : Nat} {p : QPair} (hq : tget s.queues (qkey fn q) = some p) (gk : Nat) (f : Warp → Warp) (cid status : Nat) :
    Answered ((s.modGridWarps gk f).reply fn q cid status none) fn q p cid status none := reply_answers (s := s.modGridWarps gk f) hq cid status

/-- DEBUG_HALT becomes pending against a warp that is not halted. -/
def Warp.toHalt (w : Warp) : Warp := if w.halted then w else w.addAsync .debugHalt 0

/-- The launches of a context that single-step. -/
def Ctx.stepOn (gk : Nat) (x : Ctx) : Ctx := { x with stepping := gk :: x.stepping.filter (fun k => k != gk) }

def Ctx.stepOff (gk : Nat) (x : Ctx) : Ctx := { x with stepping := x.stepping.filter (fun k => k != gk) }

/-- Settles O53. -/
theorem debugCommands : Obligations.DebugCommands := by
  unfold Obligations.DebugCommands
  intro fn q s c p x h hx hfn hcl ho only ours warps
  have hpop := popped_queue s fn q p
  have hctx (f : Ctx → Ctx) : only ((s.popped fn q p).modCtx c.ctx f) (f x) := fun j => by
    show tget (tmod s.ctxs c.ctx f) j = _
    rw [tget_tmod]
    split
    · next hj => rw [hj, hx]; rfl
    · rfl
  refine ⟨fun h0 hop => ?_, fun h0 hop => ?_, fun h0 hop hdbg => ?_, fun gk g h0 hdbg hg => ⟨fun hop => ?_, fun hop => ?_, fun hop => ?_⟩⟩
  · subst h0
    obtain ⟨y, hy, -, -⟩ := reply_done c.cid 0 none (s := (s.popped 0 q p).modCtx c.ctx (fun x => { x with dbg := true })) hpop
    refine ⟨_, ctxCommand_to h hx hfn hcl (word_sub ho hop) rfl rfl hy rfl, reply_answers (s := (s.popped 0 q p).modCtx c.ctx _) hpop c.cid 0, hctx _, rfl, rfl⟩
  · obtain ⟨y, hy, -, -⟩ := reply_done c.cid 1 none hpop
    exact ⟨_, ctxCommand_to h hx hfn hcl (word_sub ho hop) rfl (if_pos (by simpa using h0)) hy rfl, reply_answers hpop c.cid 1, rfl, rfl⟩
  · subst h0
    set s1 := (s.popped 0 q p).modCtx c.ctx (fun x => { x with dbg := false, stepping := [] }) with hs1
    obtain ⟨h4, h5⟩ := unhalt_foldl (s1.gridsOf c.ctx) s1
    generalize hT : (s1.gridsOf c.ctx).foldl (fun s y => s.modGridWarps y.1 Warp.unhalt) s1 = T at h4 h5
    have hqT : tget T.queues (qkey 0 q) = some p := by rw [h4]; exact hpop
    obtain ⟨y, hy, -, -⟩ := reply_done c.cid 0 none hqT
    have hrun : (if (0 != 0 || !x.dbg) = true then (s.popped 0 q p).reply 0 q c.cid 1 none
        else ((s1.gridsOf c.ctx).foldl (fun s y => s.modGridWarps y.1 Warp.unhalt) s1).reply 0 q c.cid 0 none) = T.reply 0 q c.cid 0 none := by
      rw [hdbg, if_neg (by decide), hT]
    refine ⟨T.reply 0 q c.cid 0 none, ctxCommand_to h hx hfn hcl (word_sub ho hop) rfl hrun hy rfl, reply_answers hqT c.cid 0, ?_, ?_, ?_⟩
    · show ∀ j, tget T.ctxs j = _
      rw [h4]
      exact hctx _
    · show T.mem = _
      rw [h4]
      rfl
    · intro k w hw
      have hany : (s1.gridsOf c.ctx).any (fun y => s1.mine y.1 w.blk) = true ↔ ∃ g ∈ s.grids, g.2.ctx = c.ctx ∧ ours g.1 w := by
        rw [List.any_eq_true]
        simp only [State.gridsOf, List.mem_filter, beq_iff_eq, and_assoc]
        exact exists_congr fun g => and_congr_right fun _ => and_congr_right fun _ => mine_iff
      refine ⟨if (s1.gridsOf c.ctx).any (fun y => s1.mine y.1 w.blk) then w.unhalt else w,
        show tget T.warps k = _ by rw [h5, show tget s1.warps k = some w from hw]; rfl, ?_⟩
      by_cases hm : ∃ g ∈ s.grids, g.2.ctx = c.ctx ∧ ours g.1 w
      · rw [if_pos (hany.mpr hm)]
        exact ⟨rfl, rfl, rfl, fun _ => rfl, fun hn => absurd hm hn⟩
      · rw [if_neg (fun hc => hm (hany.mp hc))]
        exact ⟨rfl, rfl, rfl, fun hy => absurd hy hm, fun _ => rfl⟩
  · subst h0
    obtain ⟨-, -, h3⟩ := modGridWarps_spec (s.popped 0 q p) gk Warp.toHalt
    refine ⟨_, debugGrid_to (T := (s.popped 0 q p).modGridWarps gk Warp.toHalt) h hx hfn hcl ho hop hdbg hg rfl rfl,
      modGridWarps_answers (s := s.popped 0 q p) hpop gk Warp.toHalt c.cid 0, rfl, rfl,
      fun k w hw =>
      keeps_of_mine (f := Warp.toHalt) (P := fun w w' => w.halted = false → ∃ a, (Cause.debugHalt, a) ∈ w'.async) h3 (fun w => ?_) (fun w hh => ?_) hw⟩
    · unfold Warp.toHalt Warp.addAsync
      split
      · exact ⟨rfl, rfl, rfl⟩
      · split <;> exact ⟨rfl, rfl, rfl⟩
    · rw [Warp.toHalt, hh, if_neg Bool.false_ne_true]
      exact addAsync_has w .debugHalt 0
  · subst h0
    obtain ⟨-, -, h3⟩ := modGridWarps_spec ((s.popped 0 q p).modCtx c.ctx (Ctx.stepOn gk)) gk Warp.unhalt
    refine ⟨_, Ctx.stepOn gk x, debugGrid_to h hx hfn hcl ho hop hdbg hg rfl rfl,
      modGridWarps_answers (s := (s.popped 0 q p).modCtx c.ctx (Ctx.stepOn gk)) hpop gk Warp.unhalt c.cid 0, hctx (Ctx.stepOn gk), rfl, List.mem_cons_self, rfl, fun k w hw =>
      keeps_of_mine (f := Warp.unhalt) (P := fun w w' => w' = { w with halted := false }) h3 (fun w => ⟨rfl, rfl, rfl⟩) (fun w => rfl) hw⟩
  · subst h0
    obtain ⟨-, -, h3⟩ := modGridWarps_spec ((s.popped 0 q p).modCtx c.ctx (Ctx.stepOff gk)) gk Warp.unhalt
    refine ⟨_, Ctx.stepOff gk x, debugGrid_to h hx hfn hcl ho hop hdbg hg rfl rfl,
      modGridWarps_answers (s := (s.popped 0 q p).modCtx c.ctx (Ctx.stepOff gk)) hpop gk Warp.unhalt c.cid 0, hctx (Ctx.stepOff gk), rfl, fun hm => ?_, rfl, fun k w hw =>
      keeps_of_mine (f := Warp.unhalt) (P := fun w w' => w' = { w with halted := false }) h3 (fun w => ⟨rfl, rfl, rfl⟩) (fun w => rfl) hw⟩
    exact absurd (List.mem_filter.mp hm).2 (by simp)

end Sys2Proof.Machine
end

