-- ==== Sys2Proof/Proofs/Swapping.lean ====
section
/-! PROOF, of O38. Exchange stores, swaps and arrival signals (07 R143, R154, R155; 15 R260). -/

namespace Sys2Proof.Machine

/- Bytes of a bank. -/

theorem padGet_padPut (t : Tbl Byte) (a j : Nat) (v : Byte) : padGet (padPut t a v) j = if j = a then v else padGet t j := by
  unfold padGet padPut
  split
  · next hv =>
    rw [tget_tdel]
    split
    · exact hv.symm
    · rfl
  · rw [tget_tput]
    split <;> rfl

/-- A write of bytes that lie in a row. -/
theorem padGet_padWrite (bs : List Byte) (t : Tbl Byte) (a j : Nat) :
    padGet (padWrite t a bs) j = if a ≤ j ∧ j < a + bs.length then nth bs (j - a) 0 else padGet t j := by
  induction bs generalizing t a with
  | nil => rw [padWrite, if_neg (by simp)]
  | cons b bs ih =>
    rw [padWrite, ih, padGet_padPut, List.length_cons]
    by_cases hj : j = a
    · subst hj
      rw [if_neg (by omega), if_pos rfl, if_pos (by omega), Nat.sub_self]
      rfl
    · rw [if_neg hj]
      by_cases hin : a + 1 ≤ j ∧ j < a + 1 + bs.length
      · rw [if_pos hin, if_pos (by omega), show j - a = (j - (a + 1)) + 1 by omega]
        rfl
      · rw [if_neg hin, if_neg (by omega)]

theorem tget_append {α : Type} (t u : Tbl α) (k : Nat) : tget (t ++ u) k = (tget t k).or (tget u k) := by
  induction t with
  | nil => rfl
  | cons x t ih =>
    simp only [List.cons_append, tget]
    split
    · rfl
    · exact ih

theorem tget_filter_key {α : Type} (t : Tbl α) (p : Nat → Bool) (k : Nat) : tget (t.filter (fun x => p x.1)) k = if p k then tget t k else none := by
  induction t with
  | nil => simp [tget]
  | cons x t ih =>
    by_cases hx : x.1 = k
    · cases hp : p k <;> simp [tget, hx, hp, ih]
    · cases hp : p x.1 <;> simp [tget, hx, hp, ih]

/-- After an exchange the first table has the entries of the second below the bound, and its own above it. -/
theorem tget_exchange {α : Type} (lim : Nat) (a b : Tbl α) (hb : ∀ x ∈ b, x.1 < lim) (k : Nat) :
    tget (exchange lim a b).1 k = (if k < lim then tget b k else tget a k)
      ∧ tget (exchange lim a b).2 k = if k < lim then tget a k else none := by
  have hhigh : ¬ k < lim → tget b k = none := fun hk => Option.eq_none_iff_forall_ne_some.mpr fun v hv => hk (hb _ (tget_mem hv))
  constructor
  · rw [exchange, tget_append, tget_filter_key a (fun x => decide (lim ≤ x))]
    by_cases hk : k < lim
    · rw [if_pos hk, if_neg (by simpa using hk), Option.or_none]
    · rw [if_neg hk, if_pos (by simpa using hk), hhigh hk, Option.none_or]
  · rw [exchange, tget_filter_key a (fun x => decide (x < lim))]
    simp only [decide_eq_true_eq]

/- The banks of a block. -/

/-- Of a block, only what belongs to its shadow banks differs. -/
def Block.OnlyShadow (b c : Block) : Prop :=
  c = { b with shadow := c.shadow, shClk := c.shClk, shSpans := c.shSpans, shPoison := c.shPoison }

theorem shadowStore_only (b : Block) (a : Nat) (bs : List Byte) : b.OnlyShadow (b.shadowStore a bs) := rfl

theorem shadowStores_only (l : List HeldStx) (b : Block) : b.OnlyShadow (l.foldl (fun b h => b.shadowStore h.off h.bytes) b) := by
  induction l generalizing b with
  | nil => rfl
  | cons h l ih =>
    have h1 := ih (b.shadowStore h.off h.bytes)
    have h2 := shadowStore_only b h.off h.bytes
    unfold Block.OnlyShadow at *
    rw [List.foldl_cons, h1, h2]

/-- A block whose banks have changed places, before the held stores are written. -/
def Block.exchanged (b : Block) : Block :=
  { b with
    scratch := (exchange b.shadowBytes b.scratch b.shadow).1, shadow := (exchange b.shadowBytes b.scratch b.shadow).2,
    spans := (exchange (b.shadowBytes / 128) b.spans b.shSpans).1, shSpans := (exchange (b.shadowBytes / 128) b.spans b.shSpans).2,
    sclk := (exchange b.shadowBytes b.sclk b.shClk).1, shClk := (exchange b.shadowBytes b.sclk b.shClk).2,
    spoison := b.shPoison ++ b.spoison.filter (fun x => b.shadowBytes / 8 ≤ x), shPoison := b.spoison.filter (fun x => x < b.shadowBytes / 8),
    parity := !b.parity, heldStx := b.heldStx.filter (fun h => h.parity != !b.parity) }

theorem doSwap_eq (b : Block) :
    b.doSwap = (b.heldStx.filter (fun h => h.parity == !b.parity)).foldl (fun b h => b.shadowStore h.off h.bytes) b.exchanged := rfl

/-- A swap flips the parity, keeps the barriers, and leaves the scratchpad with what the exchange gave it. -/
theorem doSwap_banks (b : Block) : b.doSwap.parity = (!b.parity) ∧ b.doSwap.bars = b.bars ∧ b.doSwap.grid = b.grid ∧ b.doSwap.state = b.state
    ∧ b.doSwap.scratch = (exchange b.shadowBytes b.scratch b.shadow).1
    ∧ (b.heldStx = [] → b.doSwap.shadow = (exchange b.shadowBytes b.scratch b.shadow).2) := by
  have honly := shadowStores_only (b.heldStx.filter (fun h => h.parity == !b.parity)) b.exchanged
  rw [← doSwap_eq, Block.OnlyShadow] at honly
  refine ⟨by rw [honly]; rfl, by rw [honly]; rfl, by rw [honly]; rfl, by rw [honly]; rfl, by rw [honly]; rfl, fun hheld => ?_⟩
  rw [doSwap_eq, hheld]
  rfl

/-- The bytes of both banks after a swap. -/
theorem doSwap_bytes {b : Block} (hsh : ∀ x ∈ b.shadow, x.1 < b.shadowBytes) :
    (∀ a, padGet b.doSwap.scratch a = if a < b.shadowBytes then padGet b.shadow a else padGet b.scratch a)
      ∧ (b.heldStx = [] → ∀ a, a < b.shadowBytes → padGet b.doSwap.shadow a = padGet b.scratch a) := by
  obtain ⟨-, -, -, -, hscratch, hshadow⟩ := doSwap_banks b
  refine ⟨fun a => ?_, fun hheld a ha => ?_⟩
  · unfold padGet
    rw [hscratch, (tget_exchange _ _ _ hsh a).1]
    split <;> rfl
  · unfold padGet
    rw [hshadow hheld, (tget_exchange _ _ _ hsh a).2, if_pos ha]

/- Entries found by their key. -/

theorem forall_filter_key {α : Type} (f : α → Nat) (l : List α) (k : Nat) : ∀ x ∈ l.filter (fun y => f y != k), f x ≠ k := by
  intro x hx
  simpa using (List.mem_filter.mp hx).2

/- The steps. -/

/-- An exchange store at its block: in the shadow banks of its parity, or held. -/
def Block.receives (m : StxMsg) (b : Block) : Block :=
  if b.parity = m.parity then b.shadowStore m.off m.bytes else { b with heldStx := b.heldStx ++ [⟨m.off, m.bytes, m.parity⟩] }

/-- What a block is after a change of it, and every other block. -/
theorem blk_modBlock_of {s : State} {k : Nat} {b : Block} (hb : s.blk? k = some b) (f : Block → Block) (j : Nat) :
    (s.modBlock k f).blk? j = if j = k then some (f b) else s.blk? j := by
  rw [blk_modBlock]
  split
  · next e => rw [e, hb]; rfl
  · rfl

/-- An exchange store whose turn it is reaches its block: the shadow banks of its parity, or the held stores. -/
theorem exec_stxDelivery {s : State} {key : Nat} {m : StxMsg} {b : Block} (hm : s.stxs.find? (fun x => x.key == key) = some m)
    (hb : s.blk? m.blk = some b) (hfirst : ∀ x ∈ s.stxs, x.group = m.group → m.key ≤ x.key) (hout : b.state ≠ .out) (hback : b.state ≠ .restoring) :
    ∃ t, exec (.stxDelivery key) s = .next t ∧ t = { s with stxs := s.stxs.filter (fun x => x.key != key), blocks := t.blocks }
      ∧ ∀ j, t.blk? j = if j = m.blk then some (b.receives m) else s.blk? j := by
  have hturn : (s.stxs.any (fun x => x.group == m.group && x.key < m.key) || b.state == .out || b.state == .restoring) = false := by
    simp only [Bool.or_eq_false_iff, List.any_eq_false, Bool.and_eq_true, beq_iff_eq, decide_eq_true_eq, not_and, Nat.not_lt, beq_eq_false_iff_ne]
    exact ⟨⟨hfirst, hout⟩, hback⟩
  unfold Block.receives
  by_cases hp : b.parity = m.parity
  · refine ⟨{ s with stxs := s.stxs.filter (fun x => x.key != key) }.modBlock m.blk (fun b => b.shadowStore m.off m.bytes), ?_, rfl, fun j => ?_⟩
    · show execStxDelivery key s = _
      unfold execStxDelivery
      simp only [hm, hb, hturn, Bool.false_eq_true, if_false, beq_iff_eq, hp, if_true]
    · rw [if_pos hp]
      exact blk_modBlock_of (s := { s with stxs := s.stxs.filter (fun x => x.key != key) }) hb _ j
  · refine ⟨{ s with stxs := s.stxs.filter (fun x => x.key != key) }.modBlock m.blk (fun b => { b with heldStx := b.heldStx ++ [(⟨m.off, m.bytes, m.parity⟩ : HeldStx)] }),
      ?_, rfl, fun j => ?_⟩
    · show execStxDelivery key s = _
      unfold execStxDelivery
      simp only [hm, hb, hturn, Bool.false_eq_true, if_false, beq_iff_eq, hp]
    · rw [if_neg hp]
      exact blk_modBlock_of (s := { s with stxs := s.stxs.filter (fun x => x.key != key) }) hb _ j

/-- What becomes of a block of the grid in a swap of a grid barrier. -/
def State.swapOf (s : State) (gk : Nat) (x : Nat × Block) : Nat × Block :=
  if x.2.grid != gk then x
  else if s.saving x.1 x.2 then (x.1, { x.2 with owedSwaps := x.2.owedSwaps + 1 })
  else (x.1, x.2.doSwap)

/-- The barrier of a block, as the hub completes a phase. -/
def hubBars (gk n : Nat) (clk : VC) (x : Nat × Block) : Nat × Block :=
  if x.2.grid == gk && x.2.state != .out && x.2.state != .restoring then (x.1, { x.2 with bars := tput x.2.bars n { (x.2.bar n).complete with doneClk := clk } }) else x

theorem swapOf_key (s : State) (gk : Nat) (x : Nat × Block) : (s.swapOf gk x).1 = x.1 := by
  unfold State.swapOf
  split
  · rfl
  · split <;> rfl

theorem hubBars_key (gk n : Nat) (clk : VC) (x : Nat × Block) : (hubBars gk n clk x).1 = x.1 := by
  unfold hubBars
  split <;> rfl

/-- A swap that waits for nothing any more. -/
theorem exec_swapComplete {s : State} {key : Nat} {w : SwapSt} (hw : s.swaps.find? (fun x => x.key == key) = some w) (hneed : ∀ x ∈ s.stxs, x.key ∉ w.need)
    (hsave : ∀ x ∈ s.blocks, (if w.n < 112 then x.1 = w.owner else x.2.grid = w.owner ∧ x.2.state = .preempting) → s.saving x.1 x.2 = false) :
    let s' := { s with swaps := s.swaps.filter (fun x => x.key != key) }
    exec (.swapComplete key) s = .next (if w.n < 112 then (s'.modBlock w.owner Block.doSwap).modBar w.owner w.n BarSt.complete
      else { s' with blocks := s.blocks.map (s.swapOf w.owner) }.hubComplete w.owner w.n (match tget s.grids w.owner with | some g => (g.bar w.n).clk | none => .zero)) := by
  have hwrites : s.stxs.any (fun x => w.need.contains x.key) = false := by simpa [List.any_eq_false] using hneed
  have hbanks : s.swapWaits w = false := by
    unfold State.swapWaits
    rw [List.any_eq_false]
    intro x hx
    have h := hsave x hx
    split
    · next hn =>
      rw [if_pos hn] at h
      simpa using h
    · next hn =>
      rw [if_neg hn] at h
      simpa [and_assoc] using h
  show execSwapComplete key s = _
  unfold execSwapComplete
  simp only [hw, hwrites, hbanks, Bool.or_self, Bool.false_eq_true, if_false]
  split
  · rfl
  · rfl

/-- A block of the grid that is out owes its exchange, and learns of the phase as it comes back. -/
theorem swapOf_saving {s : State} {gk j : Nat} {b : Block} (n : Nat) (clk : VC) (hg : b.grid = gk) (hsv : s.saving j b = true)
    (hout : (b.state != .out && b.state != .restoring) = false) :
    (hubBars gk n clk (s.swapOf gk (j, b))).2 = { b with owedSwaps := b.owedSwaps + 1 } := by
  have hmine : ¬ (b.grid != gk) = true := by simp [hg]
  have hswap : s.swapOf gk (j, b) = (j, { b with owedSwaps := b.owedSwaps + 1 }) := (if_neg hmine).trans (if_pos hsv)
  have hno : ¬ (b.grid == gk && b.state != .out && b.state != .restoring) = true := by rw [Bool.and_assoc, hout, Bool.and_false]; decide
  rw [hswap]
  exact congrArg Prod.snd (if_neg hno)

theorem swapOf_here {s : State} {gk j : Nat} {b : Block} (n : Nat) (clk : VC) (hg : b.grid = gk) (hsv : s.saving j b = false)
    (hin : (b.state != .out && b.state != .restoring) = true) :
    (hubBars gk n clk (s.swapOf gk (j, b))).2 = { b.doSwap with bars := tput b.doSwap.bars n { (b.doSwap.bar n).complete with doneClk := clk } } := by
  obtain ⟨-, -, hgrid, hstate, -⟩ := doSwap_banks b
  have hmine : ¬ (b.grid != gk) = true := by simp [hg]
  have hswap : s.swapOf gk (j, b) = (j, b.doSwap) := (if_neg hmine).trans (if_neg (by rw [hsv]; decide))
  have hyes : (b.doSwap.grid == gk && b.doSwap.state != .out && b.doSwap.state != .restoring) = true := by
    rw [hgrid, hstate, hg, Bool.and_assoc, hin, beq_self_eq_true]
    rfl
  rw [hswap]
  exact congrArg Prod.snd (if_pos hyes)

/-- A block of the grid after a swap of a grid barrier: one that is out owes its exchange. -/
theorem gridSwap_blk {s s' : State} {gk n j : Nat} {b : Block} {clk : VC} (hb : s.blk? j = some b) (hg : b.grid = gk)
    (hs : b.state = .preempting → s.saving j b = false) :
    ∃ b', ({ s' with blocks := s.blocks.map (s.swapOf gk) }.hubComplete gk n clk).blk? j = some b'
      ∧ if s.saving j b = true then b' = { b with owedSwaps := b.owedSwaps + 1 }
        else b'.parity = (!b.parity) ∧ (b'.bar n).phase = ((b.bar n).phase + 1) % 256 := by
  have hmap : ({ s' with blocks := s.blocks.map (s.swapOf gk) }.hubComplete gk n clk).blk? j = some (hubBars gk n clk (j, (s.swapOf gk (j, b)).2)).2 :=
    tget_map (F := hubBars gk n clk) (hubBars_key gk n clk) (tget_map (swapOf_key s gk) hb)
  have hkey : (j, (s.swapOf gk (j, b)).2) = s.swapOf gk (j, b) := Prod.ext (swapOf_key s gk (j, b)).symm rfl
  rw [hkey] at hmap
  refine ⟨_, hmap, ?_⟩
  by_cases hsv : s.saving j b = true
  · rw [if_pos hsv, swapOf_saving n clk hg hsv]
    cases hst : b.state with
    | preempting => exact absurd (hs hst) (by rw [hsv]; decide)
    | out => rfl
    | restoring => rfl
    | _ => simp [State.saving, hst] at hsv
  · obtain ⟨hpar, hbars, -⟩ := doSwap_banks b
    rw [if_neg hsv, swapOf_here n clk hg (by simpa using hsv)]
    · refine ⟨hpar, ?_⟩
      rw [bar_put]
      show ((b.doSwap.bar n).phase + 1) % 256 = _
      rw [Block.bar, hbars]
      rfl
    · cases hst : b.state with
      | out => simp [State.saving, hst] at hsv
      | restoring => simp [State.saving, hst] at hsv
      | _ => rfl

/-- An arrival of this phase, or the phase it completed. -/
theorem counts_judged {r x : BarSt} (m : ArrMsg) (h : (r.take m).judged x) :
    (m.src, m.wid) ∈ x.members ∧ x.phase = r.phase ∨ x.phase = (r.phase + 1) % 256 := by
  have hmem : (m.src, m.wid) ∈ (r.take m).members := by
    show _ ∈ if _ then _ else _
    split
    · next h => simpa using h
    · simp
  rcases h with rfl | rfl | rfl
  · exact .inl ⟨hmem, rfl⟩
  · exact .inr rfl
  · exact .inl ⟨hmem, rfl⟩

theorem past_same {m : ArrMsg} {r : BarSt} (h : r.phase = m.phase) : m.past r = false := by simp [ArrMsg.past, h]

/-- An arrival counted at its block touches nothing but that barrier there. -/
theorem barCheck_blks {s : State} {bk n : Nat} {b : Block} (hb : s.blk? bk = some b) :
    s.barCheck bk n = { s with blocks := (s.barCheck bk n).blocks, swaps := (s.barCheck bk n).swaps, nextKey := (s.barCheck bk n).nextKey }
    ∧ ∃ r, (b.bar n).judged r ∧ ((s.barCheck bk n).blocks = s.blocks ∧ r = b.bar n
        ∨ ∀ j, (s.barCheck bk n).blk? j = if j = bk then some { b with bars := tput b.bars n r } else s.blk? j) := by
  have hmod : ∀ (f : BarSt → BarSt) (j : Nat), (s.modBar bk n f).blk? j = if j = bk then some { b with bars := tput b.bars n (f (b.bar n)) } else s.blk? j := by
    intro f j
    by_cases hj : j = bk
    · subst hj
      rw [modBar_blk hb, if_pos rfl]
    · unfold State.modBar
      rw [blk_modBlock, if_neg hj, if_neg hj]
  unfold State.barCheck
  simp only [hb]
  split
  · exact ⟨rfl, _, .inl rfl, .inl ⟨rfl, rfl⟩⟩
  · split
    · exact ⟨rfl, _, .inl rfl, .inl ⟨rfl, rfl⟩⟩
    · split
      · unfold State.barComplete
        split
        · exact ⟨rfl, _, .inr (.inr rfl), .inr (hmod fun r => { r with swapping := true })⟩
        · exact ⟨rfl, _, .inr (.inl rfl), .inr (hmod BarSt.complete)⟩
      · exact ⟨rfl, _, .inl rfl, .inl ⟨rfl, rfl⟩⟩

/-- The hub's count, judged. -/
theorem hubCheck_judged {s : State} {gk n : Nat} {g : Grid} (hg : tget s.grids gk = some g) :
    s.hubCheck gk n = { s with blocks := (s.hubCheck gk n).blocks, grids := (s.hubCheck gk n).grids, swaps := (s.hubCheck gk n).swaps,
                               nextKey := (s.hubCheck gk n).nextKey }
    ∧ ∃ g', tget (s.hubCheck gk n).grids gk = some g' ∧ (g.bar n).judged (g'.bar n) := by
  have hmod : ∀ f : BarSt → BarSt, tget (s.modHubBar gk n f).grids gk = some { g with bars := tput g.bars n (f (g.bar n)) } := by
    intro f
    unfold State.modHubBar
    rw [modGrid_grids, tget_tmod_self, hg]
    rfl
  have hbar : ∀ r : BarSt, ({ g with bars := tput g.bars n r } : Grid).bar n = r := fun r => by simp [Grid.bar]
  unfold State.hubCheck
  simp only [hg]
  split
  · exact ⟨rfl, g, hg, .inl rfl⟩
  · split
    · exact ⟨rfl, _, hmod (fun r => { r with swapping := true }), .inr (.inr (hbar _))⟩
    · exact ⟨rfl, _, hmod BarSt.complete, .inr (.inl (hbar _))⟩

/-- Settles O38. -/
theorem exchangeAndBarrierSteps : Obligations.ExchangeAndBarrierSteps := by
  unfold Obligations.ExchangeAndBarrierSteps
  intro key s
  refine ⟨fun m b hm hb hfirst hout hback => ?_, fun w hw hneed hsave => ?_, fun m hm => ⟨fun b hn hb hst => ?_, fun b hn hb hst hsw hph => ?_, fun g hn hg hsw hph => ?_⟩⟩
  · obtain ⟨t, ht, hsame, hblk⟩ := exec_stxDelivery hm hb hfirst hout hback
    refine ⟨t, b.receives m, ht, by rw [hsame], by rw [hsame], hblk, fun hp => ?_, fun hp => if_neg hp⟩
    rw [Block.receives, if_pos hp]
    exact ⟨rfl, padGet_padWrite m.bytes b.shadow m.off⟩
  · have hexec := exec_swapComplete hw hneed hsave
    simp only at hexec
    refine ⟨_, hexec, ?_, ?_, fun b hn hb hsh => ?_, fun hn j b hb hg => ?_⟩
    · split <;> rfl
    · split
      · exact forall_filter_key (fun x : SwapSt => x.key) s.swaps key
      · exact forall_filter_key (fun x : SwapSt => x.key) s.swaps key
    · rw [if_pos hn]
      obtain ⟨hpar, hbars, -⟩ := doSwap_banks b
      obtain ⟨hscratch, hshadow⟩ := doSwap_bytes hsh
      have hphase : b.doSwap.bar w.n = b.bar w.n := by rw [Block.bar, hbars]; rfl
      refine ⟨rfl, { b.doSwap with bars := tput b.doSwap.bars w.n (b.doSwap.bar w.n).complete }, fun j => ?_, hpar, ?_, ?_, hscratch, hshadow⟩
      · unfold State.modBar
        rw [blk_modBlock, blk_modBlock]
        by_cases hj : j = w.owner
        · subst hj
          rw [if_pos rfl, if_pos rfl, if_pos rfl]
          exact congrArg (fun o => Option.map _ (Option.map _ o)) hb
        · rw [if_neg hj, if_neg hj, if_neg hj]
          rfl
      · rw [bar_put, hphase]
        rfl
      · rw [bar_put]
        rfl
    · rw [if_neg (by omega)]
      refine gridSwap_blk (s' := { s with swaps := s.swaps.filter (fun x => x.key != key) }) hb hg fun hp => ?_
      have h := hsave (j, b) (tget_mem hb)
      rw [if_neg (by omega)] at h
      exact h ⟨hg, hp⟩
  · refine ⟨{ s with arrs := s.arrs.filter (fun x => x.key != key) }.modBlock m.dst (fun b => { b with wires := b.wires ++ [m] }), ?_, rfl,
      blk_modBlock_of (s := { s with arrs := s.arrs.filter (fun x => x.key != key) }) hb _⟩
    · show execBarrierArrivalSignal key s = .next ({ s with arrs := s.arrs.filter (fun x => x.key != key) }.modBlock m.dst (fun b => { b with wires := b.wires ++ [m] }))
      unfold execBarrierArrivalSignal
      simp only [hm, hn, if_true, hb, hst, beq_self_eq_true]
  · have hexec : exec (.barrierArrivalSignal key) s = .next ({ s with arrs := s.arrs.filter (fun x => x.key != key) }.barRemote m.dst m) := by
      show execBarrierArrivalSignal key s = _
      unfold execBarrierArrivalSignal
      simp only [hm, hn, if_true, hb, hst, past_same hph, hsw, hph, bne_self_eq_false, Bool.or_self, Bool.false_eq_true, if_false]
      rfl
    set s' : State := { s with arrs := s.arrs.filter (fun x => x.key != key) } with hs'
    have hb1 := modBar_blk (s := s') (n := m.n) (f := fun r => r.take m) hb
    obtain ⟨honly, r, hr, hblks⟩ := barCheck_blks (n := m.n) hb1
    rw [bar_put] at hr hblks
    have hother : ∀ (x : BarSt) (n : Nat), n ≠ m.n → ({ b with bars := tput b.bars m.n x } : Block).bar n = b.bar n := by
      intro x n hne
      rw [Block.bar, Block.bar]
      exact congrArg (fun o => Option.getD o BarSt.init) (tget_tput_ne _ _ hne)
    have hmod : ∀ j, (s'.modBar m.dst m.n (fun r => r.take m)).blk? j = if j = m.dst then some { b with bars := tput b.bars m.n ((b.bar m.n).take m) } else s.blk? j := by
      intro j
      by_cases hj : j = m.dst
      · subst hj
        rw [if_pos rfl, hb1]
      · unfold State.modBar
        rw [blk_modBlock, if_neg hj, if_neg hj]
        rfl
    rcases hblks with ⟨hsame, rfl⟩ | hput
    · refine ⟨_, { b with bars := tput b.bars m.n ((b.bar m.n).take m) }, hexec, honly, fun j => ?_, rfl, hother _, ?_⟩
      · exact (congrArg (fun t => tget t j) hsame).trans (hmod j)
      · exact counts_judged m (bar_put b m.n _ ▸ hr)
    · refine ⟨_, { b with bars := tput (tput b.bars m.n ((b.bar m.n).take m)) m.n r }, hexec, honly, fun j => ?_, rfl, fun n hne => ?_, ?_⟩
      · refine (hput j).trans ?_
        rw [hmod j]
        split <;> rfl
      · refine Eq.trans ?_ (hother ((b.bar m.n).take m) n hne)
        exact congrArg (fun o => Option.getD o BarSt.init) (tget_tput_ne _ _ hne)
      · refine counts_judged m ?_
        have hbar : ({ b with bars := tput (tput b.bars m.n ((b.bar m.n).take m)) m.n r } : Block).bar m.n = r := by
          rw [Block.bar, tget_tput_self, Option.getD_some]
        exact hbar.symm ▸ hr
  · have hexec : exec (.barrierArrivalSignal key) s
        = .next (({ s with arrs := s.arrs.filter (fun x => x.key != key) }.modHubBar m.dst m.n (fun r => r.take m)).hubCheck m.dst m.n) := by
      show execBarrierArrivalSignal key s = _
      unfold execBarrierArrivalSignal
      simp only [hm, show ¬ m.n < 112 by omega, if_false, hg, past_same hph, hsw, hph, bne_self_eq_false, Bool.or_self, Bool.false_eq_true]
    have hg1 : tget ({ s with arrs := s.arrs.filter (fun x => x.key != key) }.modHubBar m.dst m.n (fun r => r.take m)).grids m.dst
        = some { g with bars := tput g.bars m.n ((g.bar m.n).take m) } := by
      unfold State.modHubBar
      rw [modGrid_grids, tget_tmod_self]
      exact congrArg (Option.map _) hg
    obtain ⟨honly, g', hg', hj⟩ := hubCheck_judged (n := m.n) hg1
    refine ⟨_, g', hexec, ?_, ?_, hg', counts_judged m ?_⟩
    · rw [honly]
      exact forall_filter_key (fun x : ArrMsg => x.key) s.arrs key
    · rw [honly]
      rfl
    · simpa [Grid.bar] using hj

end Sys2Proof.Machine
end

