-- ==== Sys2Proof/Proofs/Overlapping.lean ====
section
/-! PROOF, of O23. 16-byte stores of two lanes through mappings whose physical addresses differ by half a store (07 R142; 10 R194,
R207). -/

namespace Sys2Proof.Machine

/-- Stores to global memory whose halves go in a given order. -/
def State.storeInOrder (s : State) (k die cx : Nat) (o : StoreOrd) (items : List LaneStore) (highFirst : Bool) : State :=
  let halves := if highFirst then (storeHalves items).reverse else storeHalves items
  let all := storeCells items
  let n := halves.length
  { ((List.range n).foldl (fun s i =>
      let part := nth halves i []
      (linesOf (storeCells part)).foldl (fun s line =>
        let whole := if i + 1 = n then wholeWords 32 (all.filter (fun b => lineOf b.1 == line)) else []
        s.storeLine k die cx line o whole part) s) s) with fresh := if n = 1 then s.fresh else s.fresh + 1 }

theorem storeGlobal_inOrder (s : State) (k die cx : Nat) (o : StoreOrd) (items : List LaneStore) :
    s.storeGlobal k die cx o items = s.storeInOrder k die cx o items (decide (Config.freeNat s.fresh % 2 = 1)) := by
  unfold State.storeGlobal State.storeInOrder
  simp only [decide_eq_true_eq]

/-- A store of 16 bytes from registers 4 to 7 at the address in registers 2 and 3. -/
def wideStore : Instr := .st ⟨15, false, 0, 0⟩ .w128 2 4 1 none none

/-- Two pages of which the second begins 8 bytes after the first in memory. -/
def shiftedPages : List Mapping :=
  [{ va := 2 ^ 34, pa := 0x20000, size := 4096, attr := 0x87 }, { va := 2 ^ 34 + 4096, pa := 0x20008, size := 4096, attr := 0x87 }]

/-- The registers of the stores: lane 0 stores at the first page, every other lane at the second, so that the high half of the one
lies where the low half of the others does. -/
def overlappingRegs : List Reg := [.u 0, .u 0, .g (0 :: List.replicate 31 4096), .u 4, .u 2, .u 0, .u 1, .u 0]

def overlapping : State :=
  { State.reset with
    ctxs := [(0, { plainCtx with maps := shiftedPages })], grids := [(1, plainGrid)],
    blocks := [(2, Block.start 1 0 0 0 1 0 plainLaunch.poolw [] .zero 0)],
    warps := [(0, { Warp.start 2 0 true 0 [] 0 .zero 0 with regs := overlappingRegs })] }

/-- The byte that the highest lane stores at a physical address. -/
def View.lastByte (s : State) (v : View) (p : Nat) : Option Byte :=
  let va (l : Nat) : W64 := v.w.rd64 2 l + ((none : Option W32).getD 0).signExtend 64
  let part : Nat → Bool := fun _ => true
  (v.lanes.filterMap (fun l => (if isGlobal (pathOf (va l)) then s.paOf v.asker v.g.ctx (va l) needW else none).bind (fun q =>
    if q ≤ p ∧ p < q + 16 ∧ part ((p - q) / 8) then (v.storeBytes .w128 4 l)[p - q]? else none))).getLast?

/-- The machine after the stores, the halves in a given order. -/
def View.overlapped (v : View) (highFirst : Bool) : State :=
  (overlapping.fillLanes v (v.addr 2 none)).storeInOrder v.key v.die v.g.ctx { colour := 0, release := none, scope := .dflt }
    (overlapping.globalStores v (v.addr 2 none) (v.storeBytes .w128 4)) highFirst

/-- A byte is on its way to die 0. -/
def State.sends (s : State) (x : Nat × Byte) : Bool := s.msgs.any (fun m => m.dst == 0 && m.bytes.contains x)

/-- In either order the home receives the byte of lane 0 as well as the one of the lanes above it. -/
def View.Overlaps (v : View) : Prop :=
  (overlapping.firstFault v .st .dflt 16 needW (v.addr 2 none)).isNone = true
    ∧ overlapping.accessWaits v (v.addr 2 none) 16 (some 0) false = false
    ∧ v.w.half = none ∧ v.padStores (v.addr 2 none) (v.storeBytes .w128 4) = [] ∧ v.lastByte overlapping 0x20008 = some 2
    ∧ ∀ highFirst : Bool, (v.overlapped highFirst).sends (0x20008, 1) = true
      ∧ (tget (v.overlapped highFirst).warps v.key).any (fun w => w.lanes == v.w.lanes) = true

theorem overlapping_shows : (overlapping.view ⟨15, false, 0, 0⟩).any (fun v =>
    v.goes (reqOf wideStore v) && v.w.asyncCause.isNone && decide ((overlapping.firstFault v .st .dflt 16 needW (v.addr 2 none)).isNone = true
      ∧ overlapping.accessWaits v (v.addr 2 none) 16 (some 0) false = false
      ∧ v.w.half = none ∧ v.padStores (v.addr 2 none) (v.storeBytes .w128 4) = [] ∧ v.lastByte overlapping 0x20008 = some 2
      ∧ ∀ highFirst : Bool, (v.overlapped highFirst).sends (0x20008, 1) = true
        ∧ (tget (v.overlapped highFirst).warps v.key).any (fun w => w.lanes == v.w.lanes) = true)) = true := by decide +kernel

theorem overlapping_issues : ∃ v, Issues overlapping ⟨15, false, 0, 0⟩ wideStore v ∧ v.Overlaps := by
  obtain ⟨v, hv, hx⟩ := (Option.any_eq_true _ _).mp overlapping_shows
  obtain ⟨hruns, hover⟩ := (Bool.and_eq_true _ _).mp hx
  obtain ⟨hgoes, hcalm⟩ := (Bool.and_eq_true _ _).mp hruns
  exact ⟨v, ⟨hv, hgoes, Option.isNone_iff_eq_none.mp hcalm⟩, (of_decide_eq_true hover :)⟩

theorem overlapping_idle : overlapping.msgs = [] := by decide +kernel

/-- Refutes O23: each half of a 16-byte store is a write of its own, so that where the high half of a lower lane meets the low half
of a higher one, the home receives the byte of both. -/
theorem not_stores : ¬ Obligations.Stores := by
  unfold Obligations.Stores
  rintro ⟨h, -⟩
  obtain ⟨v, hissues, hfault, hwaits, hhalf, hpads, hlast, horder⟩ := overlapping_issues
  have hfault' := Option.isNone_iff_eq_none.mp hfault
  obtain ⟨hst, -⟩ := h ⟨15, false, 0, 0⟩ .w128 2 4 1 none none overlapping v
  obtain ⟨t, hexec, -, -, -, -, new, hnew, -, hbyte⟩ := hst hissues hfault' hwaits hhalf
  obtain ⟨hsends, hwarp⟩ := horder (decide (Config.freeNat (overlapping.fillLanes v (v.addr 2 none)).fresh % 2 = 1))
  obtain ⟨w, hw, hlanes⟩ := (Option.any_eq_true _ _).mp hwarp
  have hdone : ∃ t, execSt ⟨15, false, 0, 0⟩ .w128 2 4 1 none none overlapping = .next t
      ∧ Passes (v.overlapped (decide (Config.freeNat (overlapping.fillLanes v (v.addr 2 none)).fresh % 2 = 1))) v w (fun _ => v.next) t := by
    unfold execSt
    refine issue_done hissues.view hissues.goes hissues.calm ?_ hw (eq_of_beq hlanes)
    simp only [hhalf, hpads, show widthBytes .w128 = 16 from rfl, show (memX none).colour = 0 from rfl, show (memX none).scope = .dflt from rfl,
      show isRel (memX none).order = false from rfl, hfault', hwaits, storeGlobal_inOrder, Option.isSome_none, Bool.false_eq_true, if_false,
      State.storePads, List.isEmpty_nil, Bool.true_or, if_true, List.foldl_nil]
    rfl
  obtain ⟨t', ht', hpass⟩ := hdone
  obtain rfl : t = t' := Host.Outcome.next.inj (hexec.symm.trans ht')
  obtain ⟨-, hsame, -⟩ := hpass
  have hmsgs : t.msgs = new := by rw [hnew, overlapping_idle, List.nil_append]
  have hsent : t.sends (0x20008, 1) = true := by rw [hsame]; exact hsends
  rw [State.sends, hmsgs, List.any_eq_true] at hsent
  obtain ⟨m, hm, hx⟩ := hsent
  rw [Bool.and_eq_true, beq_iff_eq, List.contains_iff_mem] at hx
  have hfirst : v.lastByte overlapping 0x20008 = some 1 := (hbyte 0 0x20008 1 (by decide)).mp ⟨m, hm, hx⟩
  rw [hlast] at hfirst
  exact absurd hfirst (by decide)

end Sys2Proof.Machine
end

