-- ==== Sys2Proof/Proofs/Launching.lean ====
section
/-! PROOF, of O24. LD, LDS, PREF and WAITA enter the window of their warp (07 R138 to R144, R153); the halves of a scratchpad access
of 16 bytes (10 R194). -/

namespace Sys2Proof.Machine

/- A launch after changes of the warp and of what lies outside the warps. -/

/-- A launch puts its operation at the end of the warp's window. -/
theorem launchOp_after {s : State} {v : View} {w : Warp} (hw : tget s.warps v.key = some w) (h : Hdr) (kind : OpKind) (dst : List (Nat × Tag))
    (res : List (List W32)) (fl : FFlags) :
    ∃ ops, tget (v.launchOp s h kind dst res fl).warps v.key = some { w with ops := ops ++ [v.opOf s h kind dst res fl] } := by
  refine ⟨(dst.foldl (fun w d => w.overtake d.1 v.act) w).ops, ?_⟩
  show tget (tmod s.warps v.key _) v.key = _
  rw [tget_tmod_self, hw, Option.map_some, overtakes_ops]
  rfl

/-- The group goes on, and the operation stands in the window: the effect launches it and changes nothing more of the warps. -/
theorem issue_launches {s s1 s2 : State} {h : Hdr} {i : Instr} {v : View} {w : Warp} {eff : View → State → Eff} {kind : OpKind} {dst : List (Nat × Tag)}
    {res : List (List W32)} (hi : Issues s h i v) (he : eff v s = .done s2) (hs : s2.warps = (v.launchOp s1 h kind dst res 0).warps)
    (hw : tget s1.warps v.key = some w) (hl : w.lanes = v.w.lanes) (hk : ∀ k, k ≠ v.key → tget s1.warps k = tget s.warps k)
    (hc : s2.issueCount = s.issueCount) :
    ∃ t w1, issue s h (reqOf i) eff = .next t ∧ Flows s v w (fun _ => v.next) t
      ∧ t = { s2 with warps := t.warps, issueCount := t.issueCount }
      ∧ tget t.warps v.key = some w1 ∧ v.opOf s1 h kind dst res 0 ∈ w1.ops := by
  obtain ⟨ops, hlaunch⟩ := launchOp_after hw h kind dst res 0
  rw [← hs] at hlaunch
  obtain ⟨t, w1, ht, hp, hw1, hops⟩ := issue_done_keeps (h := h) (rq := reqOf i) hi.view hi.goes hi.calm he hlaunch hl
  obtain ⟨-, hrest, -⟩ := id hp
  refine ⟨t, w1, ht, Passes.flows hp hc fun k hne => ?_, by rw [hrest], hw1, hops _ (List.mem_append_right _ (List.mem_singleton.mpr rfl)) rfl⟩
  rw [hs]
  exact (tget_tmod_ne s1.warps _ hne).trans (hk k hne)

/- The bytes of a scratchpad access. -/

/-- A part of the bytes read at an address. -/
theorem padRead_part (t : Tbl Byte) (a : Nat) {n j k : Nat} (h : j + k ≤ n) : ((padRead t a n).drop j).take k = padRead t (a + j) k := by
  refine List.ext_getElem (by simp [padRead]; omega) fun i h1 h2 => ?_
  simp only [padRead, List.getElem_take, List.getElem_drop, List.getElem_map, List.getElem_range]
  rw [Nat.add_assoc]

theorem length_loadWords (m : MW) (d : W9) (bs : List Byte) : (loadWords m bs).length = (widthRegs m.w d).length := by
  unfold loadWords
  cases hm : m.w <;> simp [widthRegs, groupRegs]

/-- The words of a scratchpad access that are read at issue: all of them, or of 16 bytes those of the half that goes first. -/
def View.PadWords (v : View) (m : MW) (how off : Nat) (ws : List W32) : Prop :=
  ∀ i, i < (loadWords m (v.b.padLoad off (widthBytes m.w))).length → how = 0 ∨ (how = 1 ↔ i < 2) →
    nth ws i 0 = nth (loadWords m (v.b.padLoad off (widthBytes m.w))) i 0

/-- How an access may be made: whole, or of 16 bytes by halves (10 R194). -/
def MayRead (m : MW) (how : Nat) : Prop := how = 0 ∨ widthBytes m.w = 16 ∧ (how = 1 ∨ how = 2)

theorem halves_mayRead (s : State) (m : MW) : MayRead m (s.halves (widthBytes m.w)) := by
  unfold MayRead State.halves
  split
  · next h =>
    have : Config.freeNat s.fresh % 3 < 3 := Nat.mod_lt _ (by omega)
    omega
  · exact .inl rfl

/-- Until its launch a load has changed only the clock of its warp and the count of free choices. -/
def Reads (s : State) (v : View) (t : State) : Prop :=
  t = { s with warps := t.warps, fresh := t.fresh } ∧ (∃ c, tget t.warps v.key = some { v.w with clk := c })
    ∧ ∀ k, k ≠ v.key → tget t.warps k = tget s.warps k

theorem Reads.blk {s t : State} {v : View} (h : Reads s v t) (k : Nat) : t.blk? k = s.blk? k := by
  rw [State.blk?, h.1]
  rfl

theorem Reads.tickFresh {s t : State} {v : View} (h : Reads s v t) : Reads s v t.tickFresh := by
  obtain ⟨hrest, hw, hk⟩ := h
  refine ⟨?_, hw, hk⟩
  rw [State.tickFresh]
  exact congrArg (fun x : State => { x with fresh := t.fresh + 1 }) hrest

theorem Reads.readPad {s t : State} {v : View} (h : Reads s v t) (hb : s.blk? v.bk = some v.b) (l off n : Nat) (acq : Option Scope) :
    (t.readPad v.key v.bk l off n acq).1 = v.b.padLoad off n ∧ Reads s v (t.readPad v.key v.bk l off n acq).2 := by
  have hb' := (h.blk v.bk).trans hb
  obtain ⟨hrest, ⟨c, hw⟩, hk⟩ := h
  unfold State.readPad
  simp only [hb']
  refine ⟨trivial, by rw [hrest]; rfl, ?_, fun k hne => (tget_tmod_ne _ _ hne).trans (hk k hne)⟩
  rw [modWarp_warps, tget_tmod_self, hw]
  exact ⟨_, rfl⟩

/-- A lane reads its scratchpad bytes, or one half of them. -/
theorem Reads.padRead1 {s t : State} {v : View} (h : Reads s v t) (hb : s.blk? v.bk = some v.b) {m : MW} {how : Nat} (hm : MayRead m how)
    (acq : Option Scope) (l off : Nat) :
    (t.padRead1 v m acq how l off).1.1 = l ∧ v.PadWords m how off (t.padRead1 v m acq how l off).1.2 ∧ Reads s v (t.padRead1 v m acq how l off).2 := by
  have hwords : ∀ i, how ≠ 0 → i < 4 → widthBytes m.w = 16 →
      nth (loadWords m (v.b.padLoad off (widthBytes m.w))) i 0 = BitVec.ofNat 32 (ofBytes (padRead v.b.scratch (off + 4 * i) 4)) := by
    intro i _ hi hw
    have hm : m.w = .w128 := by cases hx : m.w <;> simp_all [widthBytes]
    have hpart := padRead_part v.b.scratch off (n := 16) (j := 4 * i) (k := 4) (by omega)
    rw [← hpart]
    unfold loadWords
    simp only [hm, widthBytes, Block.padLoad]
    interval_cases i <;> rfl
  rcases hm with rfl | ⟨h16, rfl | rfl⟩
  · obtain ⟨hval, hr⟩ := h.readPad hb l off (widthBytes m.w) acq
    refine ⟨rfl, fun i _ _ => ?_, hr⟩
    show nth (loadWords m (t.readPad v.key v.bk l off (widthBytes m.w) acq).1) i 0 = _
    rw [hval]
  · obtain ⟨hval, hr⟩ := h.readPad hb l off 8 acq
    refine ⟨rfl, fun i hi hhow => ?_, hr⟩
    have hi2 : i < 2 := (hhow.resolve_left (by omega)).mp rfl
    rw [hwords i (by omega) (by omega) h16, ← padRead_part v.b.scratch off (n := 8) (by omega)]
    simp only [State.padRead1, hval]
    interval_cases i <;> rfl
  · obtain ⟨hval, hr⟩ := h.readPad hb l (off + 8) 8 acq
    refine ⟨rfl, fun i hi hhow => ?_, hr⟩
    have hi2 : 2 ≤ i := by
      have := hhow.resolve_left (by omega)
      omega
    have hi4 : i < 4 := by
      have hm : m.w = .w128 := by cases hx : m.w <;> simp_all [widthBytes]
      rw [length_loadWords m 0, hm] at hi
      simpa [widthRegs, groupRegs] using hi
    rw [hwords i (by omega) hi4 h16, show off + 4 * i = off + 8 + 4 * (i - 2) by omega, ← padRead_part v.b.scratch (off + 8) (n := 8) (by omega)]
    simp only [State.padRead1, hval]
    interval_cases i <;> rfl

/- What a load reads at issue. -/

/-- What one lane of a load reads at issue. -/
def View.loadLane (v : View) (m : MW) (acquire : Option Scope) (how : Nat) (one : Bool) (va : Nat → W64) (acc : List (Nat × List W32) × State) (l : Nat) :
    List (Nat × List W32) × State :=
  let a := (va l).toNat
  match pathOf (va l) with
  | 8 =>
    let r := acc.2.padRead1 v m acquire how l (field a 0 32)
    (acc.1 ++ [r.1], r.2)
  | 10 =>
    match acc.2.board? v.g (field a 40 4) with
    | none => acc
    | some (k, b) =>
      let vs := b.windowValues k (field a 39 1) (field a 3 8) (if one then v.lanes.flatMap (fun l => (v.w.clkAt l).views) else (v.w.clkAt l).views)
      let x := nth vs (Config.freeNat acc.2.fresh % vs.length) 0
      (acc.1 ++ [(l, loadWords m ((bytesOf 8 x.toNat).drop (field a 0 3)))], acc.2.tickFresh)
  | _ => acc

/-- The lanes of a list that read the scratchpad have their words. -/
structure LoadInv (s : State) (v : View) (m : MW) (how : Nat) (va : Nat → W64) (done : List Nat) (acc : List (Nat × List W32) × State) : Prop where
  reads : Reads s v acc.2
  found : ∀ l ∈ done, pathOf (va l) = 8 → ∃ y ∈ acc.1, y.1 = l
  words : ∀ y ∈ acc.1, pathOf (va y.1) = 8 → v.PadWords m how (field (va y.1).toNat 0 32) y.2

theorem loadLane_inv {s : State} {v : View} {m : MW} {how : Nat} {va : Nat → W64} {done : List Nat} {acc : List (Nat × List W32) × State}
    (hb : s.blk? v.bk = some v.b) (hm : MayRead m how) (acquire : Option Scope) (one : Bool) (h : LoadInv s v m how va done acc) (l : Nat) :
    LoadInv s v m how va (done ++ [l]) (v.loadLane m acquire how one va acc l) := by
  have hkept : pathOf (va l) ≠ 8 → ∀ k ∈ done ++ [l], pathOf (va k) = 8 → k ∈ done := by
    intro hl k hk h8
    rcases List.mem_append.mp hk with hk | hk
    · exact hk
    · exact absurd (List.mem_singleton.mp hk ▸ h8) hl
  unfold View.loadLane
  simp only
  split
  · next h8 =>
    obtain ⟨hlane, hwords, hr⟩ := h.reads.padRead1 hb hm acquire l (field (va l).toNat 0 32)
    refine ⟨hr, fun k hk hk8 => ?_, fun y hy hy8 => ?_⟩
    · rcases List.mem_append.mp hk with hk | hk
      · obtain ⟨y, hy, hyk⟩ := h.found k hk hk8
        exact ⟨y, List.mem_append_left _ hy, hyk⟩
      · exact ⟨_, List.mem_append_right _ (List.mem_singleton.mpr rfl), hlane.trans (List.mem_singleton.mp hk).symm⟩
    · rcases List.mem_append.mp hy with hy | hy
      · exact h.words y hy hy8
      · rw [List.mem_singleton.mp hy, hlane]
        exact hwords
  · next h10 =>
    have hl : pathOf (va l) ≠ 8 := by rw [h10]; decide
    split
    · exact ⟨h.reads, fun k hk hk8 => h.found k (hkept hl k hk hk8) hk8, h.words⟩
    · refine ⟨h.reads.tickFresh, fun k hk hk8 => ?_, fun y hy hy8 => ?_⟩
      · obtain ⟨y, hy, hyk⟩ := h.found k (hkept hl k hk hk8) hk8
        exact ⟨y, List.mem_append_left _ hy, hyk⟩
      · rcases List.mem_append.mp hy with hy | hy
        · exact h.words y hy hy8
        · rw [List.mem_singleton.mp hy] at hy8
          exact absurd hy8 hl
  · next h8 _ => exact ⟨h.reads, fun k hk hk8 => h.found k (hkept h8 k hk hk8) hk8, h.words⟩

theorem localLoad_inv {s t : State} {v : View} {m : MW} {how : Nat} (va : Nat → W64) (hb : s.blk? v.bk = some v.b) (hm : MayRead m how)
    (acquire : Option Scope) (one : Bool) (h : Reads s v t) : LoadInv s v m how va v.lanes (t.localLoad v m acquire how one va) := by
  have hfold : ∀ (ls done : List Nat) (acc : List (Nat × List W32) × State), LoadInv s v m how va done acc →
      LoadInv s v m how va (done ++ ls) (ls.foldl (v.loadLane m acquire how one va) acc) := by
    intro ls
    induction ls with
    | nil => exact fun done acc hacc => (List.append_nil done).symm ▸ hacc
    | cons l ls ih =>
      intro done acc hacc
      rw [List.append_cons]
      exact ih _ _ (loadLane_inv hb hm acquire one hacc l)
  exact hfold v.lanes [] ([], t) ⟨h, nofun, nofun⟩

/-- The result columns of a load. -/
def loadColumns (k : Nat) (r : List (Nat × List W32)) : List (List W32) :=
  columnsOf k (fun l => ((r.find? (fun y => y.1 == l)).map Prod.snd).getD [])

theorem LoadInv.columns {s : State} {v : View} {m : MW} {how : Nat} {va : Nat → W64} {acc : List (Nat × List W32) × State} {k l : Nat}
    (h : LoadInv s v m how va v.lanes acc) (hl : has v.act l = true) (h8 : pathOf (va l) = 8) {i : Nat} (hik : i < k)
    (hi : i < (loadWords m (v.b.padLoad (field (va l).toNat 0 32) (widthBytes m.w))).length) (hhow : how = 0 ∨ (how = 1 ↔ i < 2)) :
    nth (nth (loadColumns k acc.1) i []) l 0 = nth (loadWords m (v.b.padLoad (field (va l).toNat 0 32) (widthBytes m.w))) i 0 := by
  obtain ⟨x, hx, hxl⟩ := h.found l ((mem_lanesOf v.act l).mpr hl) h8
  obtain ⟨y, hy⟩ : ∃ y, acc.1.find? (fun y => y.1 == l) = some y := by
    cases hf : acc.1.find? (fun y => y.1 == l) with
    | some y => exact ⟨y, rfl⟩
    | none => exact absurd (beq_iff_eq.mpr hxl) (List.find?_eq_none.mp hf x hx)
  have hyl : y.1 = l := by simpa using List.find?_some hy
  rw [loadColumns, columnsOf, nth_map_range k _ i _ hik, nth_perLane _ _ (has_lt hl), hy]
  have := h.words y (List.mem_of_find?_eq_some hy) (hyl ▸ h8)
  rw [hyl] at this
  exact this i hi hhow

theorem laterHalves_eq {m : MW} {how : Nat} (hm : MayRead m how) (lds : Bool) (va : Nat → W64) (ls : List Nat) :
    laterHalves how lds va ls = if how = 0 then [] else ls.map (fun l => ⟨l, if how = 1 then va l + 8 else va l, 8, lds⟩) := by
  rcases hm with rfl | ⟨-, rfl | rfl⟩ <;> rfl

/-- The operation stands in the window with what the instruction entered, and nothing else of the machine has changed. -/
def Started (s : State) (h : Hdr) (v : View) (kind : OpKind) (dst : List Nat) (res : List (List W32)) (t : State) (w w1 : Warp) (o : Op) : Prop :=
  Flows s v w (fun _ => v.next) t ∧ w = { v.w with clk := w.clk }
    ∧ t = { s with warps := t.warps, fresh := t.fresh, nextKey := t.nextKey, issueCount := t.issueCount }
    ∧ (∀ d p, t.storeByte d p = s.storeByte d p)
    ∧ tget t.warps v.key = some w1 ∧ o ∈ w1.ops ∧ o.id = s.nextKey ∧ o.kind = kind ∧ o.done = false ∧ o.fault = none ∧ o.pc = v.pc
    ∧ o.group = v.grp ∧ o.act = v.act ∧ o.la = h.la.toNat ∧ o.dst.map Prod.fst = dst ∧ o.res = res

theorem launch_started {s r : State} {h : Hdr} {i : Instr} {v : View} {eff : View → State → Eff} {kind : OpKind} {dst : List (Nat × Tag)}
    {res : List (List W32)} (hi : Issues s h i v) (hr : Reads s v r) (he : eff v s = .done (v.launchOp r h kind dst res 0)) :
    ∃ t w w1 o, issue s h (reqOf i) eff = .next t ∧ Started s h v kind (dst.map Prod.fst) res t w w1 o := by
  obtain ⟨hrest, ⟨c, hw⟩, hk⟩ := hr
  obtain ⟨t, w1, ht, hflow, hsame, hw1, hop⟩ := issue_launches hi he rfl hw rfl hk (by rw [hrest]; rfl)
  have hs : t = { s with warps := t.warps, fresh := t.fresh, nextKey := t.nextKey, issueCount := t.issueCount } := by
    rw [hsame, hrest]
    rfl
  exact ⟨t, _, w1, _, ht, hflow, rfl, hs, fun d p => by rw [hs]; rfl, hw1, hop, by rw [hrest]; rfl, rfl, rfl, rfl, rfl, rfl, rfl, rfl, rfl, rfl⟩

theorem reads_refl {s : State} {v : View} (hw : tget s.warps v.key = some v.w) : Reads s v s := ⟨rfl, ⟨v.w.clk, hw⟩, fun _ _ => rfl⟩

/-- The state in which a load reads: a free choice is taken where one is. -/
def State.choosing (s : State) (how : Nat) : State := if how = 0 then s else s.tickFresh

theorem choosing_reads {s : State} {v : View} (hw : tget s.warps v.key = some v.w) (how : Nat) : Reads s v (s.choosing how) := by
  unfold State.choosing
  split
  · exact reads_refl hw
  · exact (reads_refl hw).tickFresh

theorem writes_genTo (rs srcs : List Nat) : (genTo rs srcs).map (fun w => w.1) = rs := by
  simp [genTo, Function.comp_def]

/-- LD, where no lane faults before its translation and nothing keeps it. -/
theorem ld_effect {s : State} {v : View} {m : MW} {mx : MemX} {va : Nat → W64}
    (hpre : ∀ l, has v.act l = true → s.preCheck v (.ld m.w) mx.scope (widthBytes m.w) (va l) = none) :
    v.lanes.any (fun l => (s.preCheck v (.ld m.w) mx.scope (widthBytes m.w) (va l)).isSome) = false := by
  rw [List.any_eq_false]
  intro l hl
  rw [hpre l ((mem_lanesOf v.act l).mp hl)]
  exact Bool.false_ne_true

theorem pathOf_padVa (o : W32) : pathOf (padVa o) = 8 := by
  have h := o.isLt
  unfold pathOf padVa
  rw [Nat.shiftRight_eq_div_pow, BitVec.toNat_add, BitVec.toNat_setWidth, show BitVec.toNat (0x8000000000000000 : W64) = 2 ^ 63 from rfl]
  omega

theorem field_padVa (o : W32) : field (padVa o).toNat 0 32 = o.toNat := by
  have h := o.isLt
  unfold field padVa
  rw [Nat.shiftRight_zero, BitVec.toNat_add, BitVec.toNat_setWidth, show BitVec.toNat (0x8000000000000000 : W64) = 2 ^ 63 from rfl]
  omega

theorem beq_nil {α : Type} [BEq α] (l : List α) : (l == []) = l.isEmpty := by cases l <;> rfl

/-- What an LD enters, as it may read the scratchpad: the halves that are read later, and the accesses of global memory. -/
def View.ldAccesses (v : View) (m : MW) (how : Nat) (va : Nat → W64) : List Access :=
  laterHalves how false va (v.lanes.filter (fun l => pathOf (va l) = 8))
    ++ accessesOf (widthBytes m.w) va (v.lanes.filter (fun l => isGlobal (pathOf (va l))))

theorem ld_starts {s : State} {h : Hdr} {m : MW} {d a : W9} {off : Option W32} {x : Option MemX} {v : View} (hi : Issues s h (.ld h m d a off x) v)
    (hpre : ∀ l, has v.act l = true → s.preCheck v (.ld m.w) (memX x).scope (widthBytes m.w) (v.addr a off l) = none)
    (hwait : s.accessWaits v (v.addr a off) (widthBytes m.w) none false = false)
    (hpoison : v.padPoison (fun l => if pathOf (v.addr a off l) = 8 then some (field (v.addr a off l).toNat 0 32) else none) (widthBytes m.w) = none) :
    ∃ how acc t w w1 o, MayRead m how ∧ LoadInv s v m how (v.addr a off) v.lanes acc ∧ execLd h m d a off x s = .next t
      ∧ Started s h v (if (v.ldAccesses m how (v.addr a off)).isEmpty then .loaded else .load (v.ldAccesses m how (v.addr a off)) m (memX x)
          (accessesOf (widthBytes m.w) (v.addr a off) (v.lanes.filter (fun l => isGlobal (pathOf (v.addr a off l))))).isEmpty)
        (widthRegs m.w d) (loadColumns (widthRegs m.w d).length acc.1) t w w1 o := by
  obtain ⟨-, -, -, hw, -, -, -, -, -, hb, -⟩ := view_spec hi.view
  set how : Nat := if (v.lanes.filter (fun l => pathOf (v.addr a off l) = 8)).isEmpty then 0 else s.halves (widthBytes m.w) with hhow
  have hmay : MayRead m how := by
    rw [hhow]
    split
    · exact .inl rfl
    · exact halves_mayRead s m
  have hinv := localLoad_inv (v.addr a off) hb hmay (if isAcq (memX x).order then some (memX x).scope else none)
    ((reqOf (.ld h m d a off x) v).writes.all (fun w => v.tagOf false w.2 == .u)) (choosing_reads hw how)
  have hlen : (reqOf (.ld h m d a off x) v).writes.length = (widthRegs m.w d).length := by
    rw [← List.length_map (f := fun w : Nat × TagRule => w.1)]
    exact congrArg List.length (writes_genTo _ _)
  have hdst : ((reqOf (.ld h m d a off x) v).writes.map (fun w => (w.1, v.tagOf false w.2))).map Prod.fst = widthRegs m.w d := by
    rw [List.map_map]
    exact writes_genTo _ _
  obtain ⟨t, w, w1, o, ht, hst⟩ : ∃ t w w1 o, execLd h m d a off x s = .next t
      ∧ Started s h v (if (v.ldAccesses m how (v.addr a off)).isEmpty then .loaded else .load (v.ldAccesses m how (v.addr a off)) m (memX x)
          (accessesOf (widthBytes m.w) (v.addr a off) (v.lanes.filter (fun l => isGlobal (pathOf (v.addr a off l))))).isEmpty)
        (((reqOf (.ld h m d a off x) v).writes.map (fun w => (w.1, v.tagOf false w.2))).map Prod.fst)
        (loadColumns (reqOf (.ld h m d a off x) v).writes.length ((s.choosing how).localLoad v m (if isAcq (memX x).order then some (memX x).scope else none) how
          ((reqOf (.ld h m d a off x) v).writes.all (fun w => v.tagOf false w.2 == .u)) (v.addr a off)).1) t w w1 o := by
    unfold execLd
    refine launch_started hi hinv.reads ?_
    simp only [ld_effect hpre, hwait, hpoison, Bool.false_eq_true, if_false]
    rfl
  rw [hlen, hdst] at hst
  exact ⟨how, _, t, w, w1, o, hmay, hinv, ht, hst⟩

theorem lds_starts {s : State} {h : Hdr} {m : MW} {d a : W9} {off : Option W32} {v : View} (hi : Issues s h (.lds h m d a off) v)
    (hfault : v.padFault (widthBytes m.w) (v.padAddr a off) = none) (hacq : v.w.acquiring v.act = false)
    (hwait : s.padWaits v (v.padAddr a off) (widthBytes m.w) = false)
    (hpoison : v.padPoison (fun l => some (v.padAddr a off l).toNat) (widthBytes m.w) = none) :
    ∃ how acc t w w1 o, MayRead m how ∧ LoadInv s v m how (fun l => padVa (v.padAddr a off l)) v.lanes acc ∧ execLds h m d a off s = .next t
      ∧ Started s h v (if (laterHalves how true (fun l => padVa (v.padAddr a off l)) v.lanes).isEmpty then .loaded
          else .load (laterHalves how true (fun l => padVa (v.padAddr a off l)) v.lanes) m (memX none) true)
        (widthRegs m.w d) (loadColumns (widthRegs m.w d).length acc.1) t w w1 o := by
  obtain ⟨-, -, -, hw, -, -, -, -, -, hb, -⟩ := view_spec hi.view
  have hmay := halves_mayRead s m
  have hinv := localLoad_inv (fun l => padVa (v.padAddr a off l)) hb hmay none false (choosing_reads hw (s.halves (widthBytes m.w)))
  have hlen : (reqOf (.lds h m d a off) v).writes.length = (widthRegs m.w d).length := by
    rw [← List.length_map (f := fun w : Nat × TagRule => w.1)]
    exact congrArg List.length (writes_genTo _ _)
  have hdst : ((reqOf (.lds h m d a off) v).writes.map (fun w => (w.1, v.tagOf false w.2))).map Prod.fst = widthRegs m.w d := by
    rw [List.map_map]
    exact writes_genTo _ _
  obtain ⟨t, w, w1, o, ht, hst⟩ : ∃ t w w1 o, execLds h m d a off s = .next t
      ∧ Started s h v (if (laterHalves (s.halves (widthBytes m.w)) true (fun l => padVa (v.padAddr a off l)) v.lanes).isEmpty then .loaded
          else .load (laterHalves (s.halves (widthBytes m.w)) true (fun l => padVa (v.padAddr a off l)) v.lanes) m (memX none) true)
        (((reqOf (.lds h m d a off) v).writes.map (fun w => (w.1, v.tagOf false w.2))).map Prod.fst)
        (loadColumns (reqOf (.lds h m d a off) v).writes.length ((s.choosing (s.halves (widthBytes m.w))).localLoad v m none (s.halves (widthBytes m.w)) false
          (fun l => padVa (v.padAddr a off l))).1) t w w1 o := by
    unfold execLds
    refine launch_started hi hinv.reads ?_
    simp only [hfault, hacq, hwait, hpoison, Bool.or_self, Bool.false_eq_true, if_false]
    rfl
  rw [hlen, hdst] at hst
  exact ⟨_, _, t, w, w1, o, hmay, hinv, ht, hst⟩

/-- Settles O24. -/
theorem loads : Obligations.Loads := by
  unfold Obligations.Loads
  intro h m d a b c off x s v
  refine ⟨fun hi hpre hwait hpoison => ?_, fun hi hfault hacq hwait hpoison => ?_, fun hi => ?_, fun hi hfault hacq hwait hpoison => ?_⟩
  · obtain ⟨how, acc, t, w, w1, o, hmay, hinv, ht, hflow, hw', hsame, hbyte, hw1, ho, hid, hkind, hdone, hof, hpc, hgrp, hact, hla, hdst, hres⟩ :=
      ld_starts hi hpre hwait hpoison
    refine ⟨how, t, w, w1, o, hmay, ht, hflow, hw', hsame, hbyte, hw1, ho, hid, ?_, hdone, hof, hpc, hgrp, hact, hla, hdst, fun l hl h8 i hlen hhow => ?_⟩
    · rw [hkind, View.ldAccesses, laterHalves_eq hmay, beq_nil]
      simp only [List.isEmpty_iff]
      rfl
    · rw [hres]
      exact hinv.columns hl h8 (by rw [length_loadWords m d] at hlen; exact hlen) hlen hhow
  · obtain ⟨how, acc, t, w, w1, o, hmay, hinv, ht, hflow, hw', hsame, hbyte, hw1, ho, hid, hkind, hdone, hof, hpc, hgrp, hact, hla, hdst, hres⟩ :=
      lds_starts hi hfault hacq hwait hpoison
    refine ⟨how, t, w, w1, o, hmay, ht, hflow, hw', hsame, hbyte, hw1, ho, hid, ?_, hdone, hof, hpc, hgrp, hact, hla, hdst, fun l hl i hlen hhow => ?_⟩
    · rw [hkind, laterHalves_eq hmay]
      simp only [List.isEmpty_iff]
      rfl
    · rw [hres]
      have hcol := hinv.columns (k := (widthRegs m.w d).length) hl (pathOf_padVa _) (i := i)
      rw [field_padVa] at hcol
      exact hcol (by rw [length_loadWords m d] at hlen; exact hlen) hlen hhow
  · obtain ⟨-, -, -, hw, -⟩ := view_spec hi.view
    have hstart : ∃ t w w1 o, execPref h a off s = .next t
        ∧ Started s h v (.pref ((v.lanes.filter (fun l => (s.laneFault v .pref .dflt 1 needRD (v.addr a off l)).isNone)).map (fun l => ⟨l, v.addr a off l, 1, false⟩)))
          (([] : List (Nat × Tag)).map Prod.fst) [] t w w1 o := by
      unfold execPref
      exact launch_started hi (reads_refl hw) rfl
    obtain ⟨t, w, w1, o, ht, hst⟩ := hstart
    exact ⟨0, t, w, w1, o, .inl rfl, ht, hst⟩
  · obtain ⟨-, -, -, hw, -⟩ := view_spec hi.view
    have hstart : ∃ t w w1 o, execWaita h c d a b s = .next t
        ∧ Started s h v (.waita c (v.lanes.map (fun l => (l, (v.w.rd a.toNat l).toNat))) (v.lanes.map (fun l => (l, v.w.srcB b l))))
          (((reqOf (.waita h c d a b) v).writes.map (fun w => (w.1, v.tagOf false w.2))).map Prod.fst) [List.replicate 32 0] t w w1 o := by
      unfold execWaita
      refine launch_started hi (reads_refl hw) ?_
      simp only [hfault, hacq, hwait, hpoison, Bool.or_self, Bool.false_eq_true, if_false]
    obtain ⟨t, w, w1, o, ht, hflow, hw', hsame, hbyte, hw1, ho, hid, hkind, hdone, hof, hpc, hgrp, hact, hla, hdst, -⟩ := hstart
    exact ⟨0, t, w, w1, o, .inl rfl, ht, hflow, hw', hsame, hbyte, hw1, ho, hid, hkind, hdone, hof, hpc, hgrp, hact, hla, hdst, trivial⟩

end Sys2Proof.Machine
end

