-- ==== Sys2Proof/Proofs/Combining.lean ====
section
/-! PROOF, of O26. ATOM, ATOMC and RED: a message for each global location, and a combined operation on one scratchpad location
(07 R146 to R150; 10 R193). -/

namespace Sys2Proof.Machine

/- Lists found by their key. -/

/-- The entry of a list without equal keys. -/
theorem find_nodup {α : Type} {l : List (Nat × α)} (hn : (l.map Prod.fst).Nodup) {x : Nat × α} (hx : x ∈ l) :
    l.find? (fun y => y.1 == x.1) = some x := by
  induction l with
  | nil => exact absurd hx List.not_mem_nil
  | cons y l ih =>
    rw [List.map_cons, List.nodup_cons] at hn
    rcases List.mem_cons.mp hx with rfl | hx
    · rw [List.find?_cons_of_pos (by simp)]
    · have hne : y.1 ≠ x.1 := fun e => hn.1 (e ▸ List.mem_map_of_mem hx)
      rw [List.find?_cons_of_neg (by simpa using hne)]
      exact ih hn.2 hx

/- The lanes of one location. -/

theorem groupLanes_same (p : Nat) {ls : List Nat} (h : ls ≠ []) : groupLanes (ls.map (fun l => (l, p))) = [(p, ls)] := by
  have hfold : ∀ (ls done : List Nat), (ls.map (fun l => (l, p))).foldl (fun gs x =>
      if gs.any (fun g => g.1 == x.2) then gs.map (fun g => if g.1 == x.2 then (g.1, g.2 ++ [x.1]) else g) else gs ++ [(x.2, [x.1])]) [(p, done)]
      = [(p, done ++ ls)] := by
    intro ls
    induction ls with
    | nil => exact fun done => by simp
    | cons l ls ih =>
      intro done
      rw [List.map_cons, List.foldl_cons]
      simp only [List.any_cons, List.any_nil, beq_self_eq_true, Bool.or_false, if_true, List.map_cons, List.map_nil]
      rw [ih, List.append_assoc]
      rfl
  cases ls with
  | nil => exact absurd rfl h
  | cons l ls => exact hfold ls [l]

theorem atomEach_lanes (f : W64 → AtomLane → W64) (old : W64) (ls : List AtomLane) : (atomEach f old ls).1.map Prod.fst = ls.map (fun x => x.lane) := by
  have hfold : ∀ (ls : List AtomLane) (acc : List (Nat × W64) × W64),
      (ls.foldl (fun acc x => (acc.1 ++ [(x.lane, acc.2)], f acc.2 x)) acc).1.map Prod.fst = acc.1.map Prod.fst ++ ls.map (fun x => x.lane) := by
    intro ls
    induction ls with
    | nil => exact fun acc => (List.append_nil _).symm
    | cons x ls ih => exact fun acc => by rw [List.foldl_cons, ih]; simp
  exact hfold ls ([], old)

theorem atomFadd_lanes (old : W64) (ls : List AtomLane) : (atomFadd old ls).1.map Prod.fst = ls.map (fun x => x.lane) := by
  have hfold : ∀ (ls : List AtomLane) (acc : List (Nat × W64) × Option W32),
      (ls.foldl (fun (acc : List (Nat × W64) × Option W32) x =>
        let b := x.b.setWidth 32
        match acc.2 with
        | none => (acc.1 ++ [(x.lane, (old.setWidth 32).setWidth 64)], some b)
        | some t => (acc.1 ++ [(x.lane, ((add32 (old.setWidth 32) t).1).setWidth 64)], some (add32 t b).1)) acc).1.map Prod.fst
        = acc.1.map Prod.fst ++ ls.map (fun x => x.lane) := by
    intro ls
    induction ls with
    | nil => exact fun acc => (List.append_nil _).symm
    | cons x ls ih =>
      intro acc
      rw [List.foldl_cons, ih]
      cases acc.2 <;> simp
  exact hfold ls ([], none)

/-- Each lane of a combined operation receives one value. -/
theorem atomApply_lanes (op : Option AOp) (old : W64) (ls : List AtomLane) : (atomApply op old ls).1.map Prod.fst = ls.map (fun x => x.lane) := by
  unfold atomApply
  split
  · exact atomEach_lanes _ old ls
  · exact atomFadd_lanes old ls
  · exact atomEach_lanes _ old ls

theorem nth_atomWords {n j : Nat} {e : W64} (h : j < if n = 8 then 2 else 1) : nth (atomWords n e) j 0 = e.extractLsb' (32 * j) 32 := by
  unfold atomWords
  split at h
  · next h8 =>
    rw [if_pos h8]
    interval_cases j
    · show e.setWidth 32 = e.extractLsb' 0 32
      exact BitVec.setWidth_eq_extractLsb' (by omega)
    · rfl
  · next h8 =>
    rw [if_neg h8]
    interval_cases j
    show e.setWidth 32 = e.extractLsb' 0 32
    exact BitVec.setWidth_eq_extractLsb' (by omega)

/-- The result columns of the lanes' words. -/
theorem nth_putWords {k n j : Nat} {rs : List (Nat × W64)} (hn : (rs.map Prod.fst).Nodup) {e : Nat × W64} (he : e ∈ rs) (hl : e.1 < 32)
    (hj : j < k) (hw : j < if n = 8 then 2 else 1) :
    nth (nth (putWords (List.replicate k (List.replicate 32 0)) (rs.map (fun y => (y.1, atomWords n y.2)))) j []) e.1 0 = e.2.extractLsb' (32 * j) 32 := by
  have hkeys : ((rs.map (fun y => (y.1, atomWords n y.2))).map Prod.fst).Nodup := by
    rw [List.map_map]
    exact hn
  have hfind := find_nodup hkeys (List.mem_map_of_mem (f := fun y : Nat × W64 => (y.1, atomWords n y.2)) he)
  rw [putWords, nth_map_range _ _ j _ (by simpa using hj), nth_perLane _ _ hl]
  simp only at hfind
  rw [hfind]
  exact nth_atomWords hw

/- Translations, and messages. -/

theorem fillLanes_same (s : State) (v : View) (va : Nat → W64) : SameButTlb s (s.fillLanes v va) := by
  unfold State.fillLanes
  induction v.lanes generalizing s with
  | nil => exact .refl s
  | cons l ls ih =>
    rw [List.foldl_cons]
    refine .trans ?_ (ih _)
    split
    · exact .fillTlb ..
    · exact .refl s

theorem fillLanes_none {s : State} {v : View} {va : Nat → W64} (h : ∀ l ∈ v.lanes, isGlobal (pathOf (va l)) = false) : s.fillLanes v va = s := by
  unfold State.fillLanes
  revert h
  induction v.lanes with
  | nil => exact fun _ => rfl
  | cons l ls ih =>
    intro h
    rw [List.foldl_cons, h l List.mem_cons_self, if_neg Bool.false_ne_true]
    exact ih fun k hk => h k (List.mem_cons_of_mem _ hk)

/-- Messages sent one after another, each with a number of its own. -/
def State.sendEach {α : Type} (s : State) (f : State → α → Msg) (gs : List α) : State :=
  gs.foldl (fun s g => { s with nextKey := s.nextKey + 1, msgs := s.msgs ++ [f s g] }) s

theorem sendEach_spec {α β : Type} {f : State → α → Msg} {p : Msg → β} {q : α → β} (hf : ∀ s g, p (f s g) = q g) (s : State) (gs : List α) :
    ∃ new, s.sendEach f gs = { s with nextKey := (s.sendEach f gs).nextKey, msgs := s.msgs ++ new } ∧ new.map p = gs.map q := by
  unfold State.sendEach
  induction gs generalizing s with
  | nil => exact ⟨[], by rw [List.append_nil]; rfl, rfl⟩
  | cons g gs ih =>
    obtain ⟨new, hs, hmap⟩ := ih { s with nextKey := s.nextKey + 1, msgs := s.msgs ++ [f s g] }
    refine ⟨f s g :: new, ?_, by rw [List.map_cons, List.map_cons, hf, hmap]⟩
    rw [List.foldl_cons, hs, List.append_assoc]
    rfl

/-- The message of one location's lanes to its home. -/
def View.atomicMsg (v : View) (op : Option AOp) (n : Nat) (mx : MemX) (b c : Nat → W64) (id : Nat) (s : State) (g : Nat × List Nat) : Msg :=
  { key := s.nextKey, origin := v.die, num := 0,
    vec := VC.joins (g.2.map (fun l => (v.w.clkAt l).writeVec mx.colour.toNat (if isRel mx.order then some 0xFF else none) g.1 n)),
    dst := homeOf g.1, addr := g.1, bytes := [], hs := 0, held := false,
    kind := .atomic op n (g.2.map (fun l => ⟨l, b l, c l⟩)) mx v.core v.slot id,
    sys := isRel mx.order && mx.scope == .s, settling := false, merge := false, whole := [], cx := v.g.ctx, maker := s.makerOf v.w g.2 }

/-- Nothing keeps an atomic from being performed. -/
structure AtomicRuns (s : State) (v : View) (n : Nat) (va : Nat → W64) (mx : MemX) : Prop where
  sound : s.firstFault v .atomic mx.scope n (needRD + needW) va = none
  ready : s.accessWaits v va n (some mx.colour) (isRel mx.order) = false
  clean : v.padPoison (fun l => if pathOf (va l) = 8 then some (field (va l).toNat 0 32) else none) n = none

/-- The locations of the lanes in global memory. -/
def State.globalGroups (s : State) (v : View) (va : Nat → W64) : List (Nat × List Nat) :=
  groupLanes (v.lanes.filterMap (fun l => (s.paOf v.asker v.g.ctx (va l) 0).map (fun pa => (l, pa))))

theorem atomic_global {s : State} {h : Hdr} {i : Instr} {v : View} {op : Option AOp} {n : Nat} {a : W9} {off : Option W32} {x : Option MemX}
    {b c : View → Nat → W64} (hi : Issues s h i v) (hr : AtomicRuns s v n (v.addr a off) (memX x))
    (hg : ∀ l ∈ v.lanes, isGlobal (pathOf (v.addr a off l)) = true) :
    ∃ t w1 o new, atomic s h i op n a off x b c = .next t ∧ Flows s v v.w (fun _ => v.next) t
      ∧ t = { s with warps := t.warps, dies := t.dies, cores := t.cores, msgs := t.msgs, nextKey := t.nextKey, issueCount := t.issueCount }
      ∧ (∀ e p, t.storeByte e p = s.storeByte e p) ∧ tget t.warps v.key = some w1 ∧ o ∈ w1.ops ∧ o.id = s.nextKey
      ∧ o.dst.map Prod.fst = (reqOf i v).writes.map (fun w => w.1)
      ∧ o.kind = .atomic (v.lanes.map (fun l => ⟨l, v.addr a off l, n, false⟩)) (memX x) (s.globalGroups v (v.addr a off)).length
      ∧ t.msgs = s.msgs ++ new ∧ new.map (fun m => (m.origin, m.dst, m.addr, m.kind)) = (s.globalGroups v (v.addr a off)).map (fun g =>
          (v.die, homeOf g.1, g.1, MsgKind.atomic op n (g.2.map (fun l => ⟨l, b v l, c v l⟩)) (memX x) v.core v.slot s.nextKey)) := by
  obtain ⟨-, -, -, hw, -⟩ := view_spec hi.view
  obtain ⟨hfault, hwait, hpoison⟩ := hr
  set va : Nat → W64 := v.addr a off with hva
  have hpads : v.lanes.filter (fun l => pathOf (va l) = 8) = [] := by
    rw [List.filter_eq_nil_iff]
    intro l hl h8
    have := hg l hl
    rw [of_decide_eq_true h8] at this
    exact absurd this (by decide)
  have hglobs : v.lanes.filterMap (fun l => if isGlobal (pathOf (va l)) then (s.paOf v.asker v.g.ctx (va l) 0).map (fun pa => (l, pa)) else none)
      = v.lanes.filterMap (fun l => (s.paOf v.asker v.g.ctx (va l) 0).map (fun pa => (l, pa))) :=
    List.filterMap_congr fun l hl => if_pos (hg l hl)
  have hacc : v.lanes.filter (fun l => isGlobal (pathOf (va l))) = v.lanes := List.filter_eq_self.mpr hg
  have htlb := fillLanes_same s v va
  have hrest := htlb.rest
  set s1 : State := s.fillLanes v va with hs1
  have hkey : s1.nextKey = s.nextKey := by rw [hrest]
  have hwarps : s1.warps = s.warps := by rw [hrest]
  set launched : State := v.launchOp s1 h (.atomic (v.lanes.map (fun l => ⟨l, va l, n, false⟩)) (memX x) (s.globalGroups v va).length)
    ((reqOf i v).writes.map (fun w => (w.1, v.tagOf false w.2))) (putWords (List.replicate (reqOf i v).writes.length (List.replicate 32 0)) []) 0 with hlaunched
  obtain ⟨new, hsent, hnew⟩ := sendEach_spec (f := v.atomicMsg op n (memX x) (b v) (c v) s1.nextKey) (p := fun m => (m.origin, m.dst, m.addr, m.kind))
    (q := fun g => (v.die, homeOf g.1, g.1, MsgKind.atomic op n (g.2.map (fun l => ⟨l, b v l, c v l⟩)) (memX x) v.core v.slot s1.nextKey))
    (fun _ _ => rfl) launched (s.globalGroups v va)
  have hexec : ∃ t w1, atomic s h i op n a off x b c = .next t ∧ Flows s v v.w (fun _ => v.next) t
      ∧ t = { launched.sendEach (v.atomicMsg op n (memX x) (b v) (c v) s1.nextKey) (s.globalGroups v va) with warps := t.warps, issueCount := t.issueCount }
      ∧ tget t.warps v.key = some w1 ∧ v.opOf s1 h (.atomic (v.lanes.map (fun l => ⟨l, va l, n, false⟩)) (memX x) (s.globalGroups v va).length)
        ((reqOf i v).writes.map (fun w => (w.1, v.tagOf false w.2))) (putWords (List.replicate (reqOf i v).writes.length (List.replicate 32 0)) []) 0 ∈ w1.ops := by
    unfold atomic
    refine issue_launches hi ?_ (by rw [hsent]) (hwarps ▸ hw) rfl (fun k _ => by rw [hwarps]) (by rw [hsent, hlaunched]; show s1.issueCount = _; rw [hrest])
    simp only [← hva, hfault, hwait, hpoison, Bool.false_eq_true, if_false, hpads, hglobs, hacc, List.map_nil]
    rfl
  obtain ⟨t, w1, ht, hflow, hsame, hw1, hop⟩ := hexec
  have hall : t = { s with warps := t.warps, dies := s1.dies, cores := s1.cores, msgs := s.msgs ++ new, nextKey := t.nextKey, issueCount := t.issueCount } := by
    rw [hsame, hsent, hlaunched, hrest]
    rfl
  refine ⟨t, w1, _, new, ht, hflow, ?_, fun e p => ?_, hw1, hop, hkey, ?_, rfl, by rw [hall], by rw [hnew, hkey]⟩
  · rw [hall]
  · have hbyte := (SameButFetch.of_tlb htlb).storeByte e p
    rw [hrest] at hbyte
    rw [hall]
    exact hbyte
  · show ((reqOf i v).writes.map (fun w => (w.1, v.tagOf false w.2))).map Prod.fst = _
    rw [List.map_map]
    rfl

/-- The block after a combined operation on its scratchpad. -/
theorem padStoreBy_bytes (b : Block) (p : Nat) (bs : List Byte) (clk : Nat → PadRec) (span : Option Span) :
    (b.padStoreBy p bs clk span).padLoad p bs.length = bs
      ∧ ∀ q, q < p ∨ p + bs.length ≤ q → (b.padStoreBy p bs clk span).padLoad q 1 = b.padLoad q 1 := by
  constructor
  · show (List.range bs.length).map (fun i => padGet (padWrite b.scratch p bs) (p + i)) = bs
    refine List.ext_getElem (by simp) fun i h1 h2 => ?_
    rw [List.getElem_map, List.getElem_range, padGet_padWrite, if_pos (by omega), Nat.add_sub_cancel_left, nth_eq_getElem bs 0 h2]
  · intro q hq
    show [padGet (padWrite b.scratch p bs) (q + 0)] = [padGet b.scratch (q + 0)]
    rw [padGet_padWrite, if_neg (by omega)]

theorem length_bytesOf (n x : Nat) : (bytesOf n x).length = n := by simp [bytesOf]

/-- What an atomic on one scratchpad location makes of the machine. -/
theorem padAtomic_spec {s : State} {v : View} (hb : s.blk? v.bk = some v.b) (hw : tget s.warps v.key = some v.w) (op : Option AOp) (n : Nat) (mx : MemX)
    (p : Nat) (ls : List Nat) (b c : Nat → W64) :
    let r := atomApply op (BitVec.ofNat 64 (ofBytes (v.b.padLoad p n))) (ls.map (fun l => ⟨l, b l, c l⟩))
    let y := s.padAtomic v op n mx (p, ls) b c
    y.1 = r.1.map (fun e => (e.1, atomWords n e.2)) ∧ y.2 = { s with blocks := y.2.blocks, warps := y.2.warps }
      ∧ (∃ clk, tget y.2.warps v.key = some { v.w with clk := clk }) ∧ (∀ k, k ≠ v.key → tget y.2.warps k = tget s.warps k)
      ∧ ∃ bl, y.2.blk? v.bk = some bl ∧ bl.padLoad p n = bytesOf n r.2.toNat ∧ ∀ q, q < p ∨ p + n ≤ q → bl.padLoad q 1 = v.b.padLoad q 1 := by
  intro r y
  have hclks : ∀ (f : Clk → Clk) (ls : List Nat) (w : Warp), ∃ clk, ls.foldl (fun w l => w.modClk l f) w = { w with clk := clk } := by
    intro f ls
    induction ls with
    | nil => exact fun w => ⟨w.clk, rfl⟩
    | cons l ls ih =>
      intro w
      obtain ⟨clk, hclk⟩ := ih (w.modClk l f)
      exact ⟨clk, hclk⟩
  have hy : y = s.padAtomic v op n mx (p, ls) b c := rfl
  unfold State.padAtomic at hy
  simp only [hb, hw] at hy
  rw [hy]
  refine ⟨rfl, rfl, ?_, fun k hk => tget_tmod_ne _ _ hk, ?_⟩
  · obtain ⟨clk, hclk⟩ := hclks _ ls v.w
    refine ⟨clk, ?_⟩
    rw [modWarp_warps, tget_tmod_self]
    show Option.map _ (tget s.warps v.key) = _
    rw [hw, Option.map_some]
    exact congrArg some hclk
  · obtain ⟨h1, h2⟩ := padStoreBy_bytes v.b p (bytesOf n r.2.toNat) _ none
    rw [length_bytesOf] at h1 h2
    refine ⟨_, ?_, h1, h2⟩
    show (s.modBlock v.bk _).blk? v.bk = _
    rw [blk_modBlock, if_pos rfl, hb]
    rfl

theorem atomic_scratch {s : State} {h : Hdr} {i : Instr} {v : View} {op : Option AOp} {n p : Nat} {a : W9} {off : Option W32} {x : Option MemX}
    {b c : View → Nat → W64} (hi : Issues s h i v) (hr : AtomicRuns s v n (v.addr a off) (memX x)) (hact : v.act ≠ 0)
    (hp : ∀ l, has v.act l = true → pathOf (v.addr a off l) = 8 ∧ (v.addr a off l).toNat % 2 ^ 32 = p) :
    let r := atomApply op (BitVec.ofNat 64 (ofBytes (v.b.padLoad p n))) (v.lanes.map (fun l => ⟨l, b v l, c v l⟩))
    ∃ t w w1 o bl, atomic s h i op n a off x b c = .next t ∧ Flows s v w (fun _ => v.next) t ∧ w = { v.w with clk := w.clk }
      ∧ t = { s with warps := t.warps, blocks := t.blocks, nextKey := t.nextKey, issueCount := t.issueCount }
      ∧ t.blk? v.bk = some bl ∧ bl.padLoad p n = bytesOf n r.2.toNat ∧ (∀ q, q < p ∨ p + n ≤ q → bl.padLoad q 1 = v.b.padLoad q 1)
      ∧ tget t.warps v.key = some w1 ∧ o ∈ w1.ops ∧ o.id = s.nextKey ∧ o.dst.map Prod.fst = (reqOf i v).writes.map (fun w => w.1)
      ∧ o.res = putWords (List.replicate (reqOf i v).writes.length (List.replicate 32 0)) (r.1.map (fun e => (e.1, atomWords n e.2))) := by
  intro r
  obtain ⟨-, -, -, hw, -, -, -, -, -, hb, -⟩ := view_spec hi.view
  obtain ⟨hfault, hwait, hpoison⟩ := hr
  set va : Nat → W64 := v.addr a off with hva
  have hlane : ∀ l ∈ v.lanes, pathOf (va l) = 8 ∧ (va l).toNat % 2 ^ 32 = p := fun l hl => hp l ((mem_lanesOf v.act l).mp hl)
  have hpads : v.lanes.filter (fun l => pathOf (va l) = 8) = v.lanes := List.filter_eq_self.mpr fun l hl => by simpa using (hlane l hl).1
  have hno : ∀ l ∈ v.lanes, isGlobal (pathOf (va l)) = false := fun l hl => by rw [(hlane l hl).1]; rfl
  have hglobs : v.lanes.filterMap (fun l => if isGlobal (pathOf (va l)) then (s.paOf v.asker v.g.ctx (va l) 0).map (fun pa => (l, pa)) else none) = [] := by
    rw [List.filterMap_eq_nil_iff]
    intro l hl
    rw [hno l hl, if_neg Bool.false_ne_true]
  have hacc : v.lanes.filter (fun l => isGlobal (pathOf (va l))) = [] := List.filter_eq_nil_iff.mpr fun l hl => by rw [hno l hl]; exact Bool.false_ne_true
  have hne : v.lanes ≠ [] := List.ne_nil_of_mem ((mem_lanesOf v.act _).mpr (lowest_has hact))
  have hgroups : groupLanes (v.lanes.map (fun l => (l, field (va l).toNat 0 32))) = [(p, v.lanes)] := by
    rw [← groupLanes_same p hne]
    exact congrArg groupLanes (List.map_congr_left fun l hl => congrArg (Prod.mk l) (hlane l hl).2)
  obtain ⟨hres, hrest, ⟨clk, hw2⟩, hk, bl, hbl, hload, hothers⟩ := padAtomic_spec hb hw op n (memX x) p v.lanes (b v) (c v)
  set y := s.padAtomic v op n (memX x) (p, v.lanes) (b v) (c v) with hy
  have hexec : ∃ t w1, atomic s h i op n a off x b c = .next t ∧ Flows s v { v.w with clk := clk } (fun _ => v.next) t
      ∧ t = { v.launchOp y.2 h (.atomic [] (memX x) 0) ((reqOf i v).writes.map (fun w => (w.1, v.tagOf false w.2)))
          (putWords (List.replicate (reqOf i v).writes.length (List.replicate 32 0)) y.1) 0 with warps := t.warps, issueCount := t.issueCount }
      ∧ tget t.warps v.key = some w1 ∧ v.opOf y.2 h (.atomic [] (memX x) 0) ((reqOf i v).writes.map (fun w => (w.1, v.tagOf false w.2)))
          (putWords (List.replicate (reqOf i v).writes.length (List.replicate 32 0)) y.1) 0 ∈ w1.ops := by
    unfold atomic
    refine issue_launches hi ?_ rfl hw2 rfl hk (by rw [hrest]; rfl)
    simp only [← hva, hfault, hwait, hpoison, Bool.false_eq_true, if_false, hpads, hglobs, hacc, hgroups, fillLanes_none hno, List.map_nil,
      List.foldl_cons, List.foldl_nil, List.nil_append, ← hy]
    rfl
  obtain ⟨t, w1, ht, hflow, hsame, hw1, hop⟩ := hexec
  have hall : t = { s with warps := t.warps, blocks := y.2.blocks, nextKey := t.nextKey, issueCount := t.issueCount } := by
    rw [hsame, hrest]
    rfl
  refine ⟨t, _, w1, _, bl, ht, hflow, rfl, by rw [hall], by rw [hall]; exact hbl, hload, hothers, hw1, hop, by rw [hrest]; rfl, ?_, ?_⟩
  · show ((reqOf i v).writes.map (fun w => (w.1, v.tagOf false w.2))).map Prod.fst = _
    rw [List.map_map]
    rfl
  · show putWords _ y.1 = _
    rw [hres]

/-- The words an atomic returns fill its registers. -/
theorem atomic_words {s : State} {h : Hdr} {i : Instr} {v : View} {op : Option AOp} {n p : Nat} {a : W9} {off : Option W32} {x : Option MemX}
    {b c : View → Nat → W64} {dst : List Nat} (hd : (reqOf i v).writes.map (fun w => w.1) = dst) (hlen : dst.length ≤ if n = 8 then 2 else 1)
    (hi : Issues s h i v) (hr : AtomicRuns s v n (v.addr a off) (memX x)) (hact : v.act ≠ 0)
    (hp : ∀ l, has v.act l = true → pathOf (v.addr a off l) = 8 ∧ (v.addr a off l).toNat % 2 ^ 32 = p) :
    let r := atomApply op (BitVec.ofNat 64 (ofBytes (v.b.padLoad p n))) (v.lanes.map (fun l => ⟨l, b v l, c v l⟩))
    ∃ t w w1 o bl, atomic s h i op n a off x b c = .next t ∧ Flows s v w (fun _ => v.next) t ∧ w = { v.w with clk := w.clk }
      ∧ t = { s with warps := t.warps, blocks := t.blocks, nextKey := t.nextKey, issueCount := t.issueCount }
      ∧ t.blk? v.bk = some bl ∧ bl.padLoad p n = bytesOf n r.2.toNat ∧ (∀ q, q < p ∨ p + n ≤ q → bl.padLoad q 1 = v.b.padLoad q 1)
      ∧ tget t.warps v.key = some w1 ∧ o ∈ w1.ops ∧ o.id = s.nextKey ∧ o.dst.map Prod.fst = dst
      ∧ ∀ j, j < dst.length → ∀ e ∈ r.1, nth (nth o.res j []) e.1 0 = e.2.extractLsb' (32 * j) 32 := by
  intro r
  obtain ⟨t, w, w1, o, bl, ht, hflow, hw', hsame, hbl, hload, hothers, hw1, ho, hid, hdst, hres⟩ := atomic_scratch (b := b) (c := c) (op := op) hi hr hact hp
  refine ⟨t, w, w1, o, bl, ht, hflow, hw', hsame, hbl, hload, hothers, hw1, ho, hid, hdst.trans hd, fun j hj e he => ?_⟩
  have hlanes : r.1.map Prod.fst = v.lanes := by
    rw [atomApply_lanes, List.map_map]
    exact List.map_id' _
  have hlt : e.1 < 32 := by
    have hmem := List.mem_map_of_mem (f := Prod.fst) he
    rw [hlanes] at hmem
    exact has_lt ((mem_lanesOf v.act e.1).mp hmem)
  have hk : j < (reqOf i v).writes.length := by
    rw [← hd, List.length_map] at hj
    exact hj
  rw [hres]
  exact nth_putWords (by rw [hlanes]; exact nodup_lanesOf v.act) he hlt hk (by omega)

/-- Settles O26. -/
theorem atomics : Obligations.Atomics := by
  unfold Obligations.Atomics
  intro h d a b c off x s v
  have hlen : ∀ (dbl : Bool) (r : W9), (opRegs dbl r).length ≤ if (if dbl then 8 else 4) = 8 then 2 else 1 := by
    intro dbl r
    cases dbl <;> exact Nat.le_refl _
  refine ⟨fun op => ⟨fun hi hf hw hq => ⟨fun hg => ?_, fun p _ hact hp => ?_⟩, fun hi hf hw hq => ⟨fun hg => ?_, fun p _ hact hp => ?_⟩⟩,
    fun dbl hi hf hw hq => ⟨fun hg => ?_, fun p _ hact hp => ?_⟩⟩
  · obtain ⟨t, w1, o, new, ht, hflow, hsame, hbyte, hw1, ho, hid, hdst, hkind, hnew, hmap⟩ := atomic_global (op := some op)
      (b := View.opnd op.is64 b) (c := fun _ _ => 0) hi ⟨hf, hw, hq⟩ (fun l hl => hg l ((mem_lanesOf v.act l).mp hl))
    exact ⟨t, w1, o, ht, hflow, hsame, hbyte, hw1, ho, hid, hdst.trans (List.map_map.trans (List.map_id' _)), hkind, new, hnew, hmap⟩
  · exact atomic_words (b := View.opnd op.is64 b) (c := fun _ _ => 0) (List.map_map.trans (List.map_id' _)) (hlen op.is64 d) hi ⟨hf, hw, hq⟩ hact hp
  · obtain ⟨t, w1, o, new, ht, hflow, hsame, hbyte, hw1, ho, hid, hdst, hkind, hnew, hmap⟩ := atomic_global (op := some op)
      (b := View.opnd op.is64 b) (c := fun _ _ => 0) hi ⟨hf, hw, hq⟩ (fun l hl => hg l ((mem_lanesOf v.act l).mp hl))
    exact ⟨t, w1, o, ht, hflow, hsame, hbyte, hw1, ho, hid, hdst, hkind, new, hnew, hmap⟩
  · exact atomic_words (b := View.opnd op.is64 b) (c := fun _ _ => 0) rfl (Nat.zero_le _) hi ⟨hf, hw, hq⟩ hact hp
  · obtain ⟨t, w1, o, new, ht, hflow, hsame, hbyte, hw1, ho, hid, hdst, hkind, hnew, hmap⟩ := atomic_global (op := none)
      (b := View.opnd dbl b) (c := View.opnd dbl c) hi ⟨hf, hw, hq⟩ (fun l hl => hg l ((mem_lanesOf v.act l).mp hl))
    exact ⟨t, w1, o, ht, hflow, hsame, hbyte, hw1, ho, hid, hdst.trans (List.map_map.trans (List.map_id' _)), hkind, new, hnew, hmap⟩
  · exact atomic_words (b := View.opnd dbl b) (c := View.opnd dbl c) (List.map_map.trans (List.map_id' _)) (hlen dbl d) hi ⟨hf, hw, hq⟩ hact hp

end Sys2Proof.Machine
end

