-- ==== Sys2Proof/Proofs/Answering.lean ====
section
/-! PROOF, of O40. Posts, views and resets at a board's home, and the delivery of answers (07 R158 to R160; 18 R285, R288). -/

namespace Sys2Proof.Machine

/- Requests. -/

theorem find_modBReq {f : BReq → BReq} (hf : ∀ r, (f r).key = r.key) (l : List BReq) (key j : Nat) :
    (l.map (fun r => if r.key == key then f r else r)).find? (fun r => r.key == j)
      = (l.find? (fun r => r.key == j)).map (fun r => if r.key == key then f r else r) := by
  rw [List.find?_map]
  congr 2
  funext r
  simp only [Function.comp_apply]
  split
  · rw [hf]
  · rfl

/-- What a request is after a change of it, and every other request. -/
theorem breq_modBReq {s : State} {key : Nat} {r : BReq} (hr : s.breq? key = some r) {f : BReq → BReq} (hf : ∀ r, (f r).key = r.key) :
    (s.modBReq key f).breq? key = some (f r) ∧ ∀ j, j ≠ key → (s.modBReq key f).breq? j = s.breq? j := by
  have hkey : (r.key == key) = true := List.find?_some (p := fun r : BReq => r.key == key) hr
  constructor
  · refine (find_modBReq hf s.breqs key key).trans ?_
    rw [show s.breqs.find? (fun r => r.key == key) = some r from hr, Option.map_some, if_pos hkey]
  · intro j hj
    refine (find_modBReq hf s.breqs key j).trans ?_
    show Option.map _ (s.breq? j) = s.breq? j
    cases hx : s.breq? j with
    | none => rfl
    | some x =>
      have hxj : (x.key == j) = true := List.find?_some (p := fun r : BReq => r.key == j) hx
      rw [Option.map_some, if_neg (by rw [eq_of_beq hxj]; simpa using hj)]

/- Rounds of a board (18 R285). -/

theorem round_next (b : Board) : b.round (b.rc + 1) = some b.next := by
  simp [Board.round, Board.kept]

theorem round_cur (b : Board) : b.round b.rc = some b.cur := by
  rw [Board.round, Board.kept, List.find?_cons_of_neg (by simp), List.find?_cons_of_pos (by simp)]
  rfl

theorem ahead_cur (b : Board) : b.ahead b.rc = 0 := by simp [Board.ahead]

theorem ahead_next (b : Board) : b.ahead (b.rc + 1) = 1 := by
  unfold Board.ahead
  rw [BitVec.add_comm, BitVec.add_sub_cancel]
  rfl

/-- The slot has a post among these. -/
def had (n : Nat) (ps : List Post) : Bool := ps.any (fun p => p.slot == n)

theorem had_iff (n : Nat) (ps : List Post) : had n ps = true ↔ ∃ p ∈ ps, p.slot = n := by simp [had]

/-- A post that no rule forbids: of a kept round, or a stale one on a board that is not strict. -/
theorem postCause_none {b : Board} {x : BLane} {n : Nat} (hs : x.slot = some n) (hround : b.ahead x.round < 2 ∨ 2 ^ 31 < b.ahead x.round)
    (hstrict : b.strict = false ∨ b.ahead x.round < 2 ∧ had n ((b.round x.round).getD []) = false) : b.postCause x = none := by
  unfold Board.postCause
  simp only [hs]
  rw [if_neg (by simp only [Bool.and_eq_true, decide_eq_true_eq]; omega)]
  rcases hstrict with h | ⟨hlt, h⟩
  · rw [if_neg (by simp [h])]
  · rw [if_neg]
    have hold : decide (2 ^ 31 < b.ahead x.round) = false := by rw [decide_eq_false_iff_not]; omega
    have h' : ((b.round x.round).getD []).any (fun p => p.slot == n) = false := h
    rw [hold, h', Bool.or_self, Bool.false_and]
    exact Bool.false_ne_true

/-- A post of the current round. -/
theorem postLane_cur {b : Board} {x : BLane} {n : Nat} (hs : x.slot = some n) (hr : x.round = b.rc) (hn : had n b.cur = false) :
    ∃ clk, b.postLane x = (({ b with cur := b.cur ++ [⟨n, x.value, x.clk⟩] } : Board).step.step, b.cur.length + 1, false, clk) := by
  have h' : b.cur.any (fun p => p.slot == n) = false := hn
  unfold Board.postLane
  simp only [hs, hr, ahead_cur, round_cur, Option.getD_some, h', Nat.not_lt_zero, if_false, if_true, Bool.false_eq_true, List.length_append,
    List.length_singleton]
  exact ⟨_, rfl⟩

/-- A post of the next round. -/
theorem postLane_next {b : Board} {x : BLane} {n : Nat} (hs : x.slot = some n) (hr : x.round = b.rc + 1) (hn : had n b.next = false) :
    ∃ clk, b.postLane x = (({ b with next := b.next ++ [⟨n, x.value, x.clk⟩] } : Board).step.step, b.next.length + 1, false, clk) := by
  have h' : b.next.any (fun p => p.slot == n) = false := hn
  unfold Board.postLane
  simp only [hs, hr, ahead_next, round_next, Option.getD_some, h', show ¬ 2 ^ 31 < 1 by decide, if_false, one_ne_zero, Bool.false_eq_true,
    List.length_append, List.length_singleton]
  exact ⟨_, rfl⟩

/-- A second post of a slot in the current round. -/
theorem postLane_again {b : Board} {x : BLane} {n : Nat} (hs : x.slot = some n) (hr : x.round = b.rc) (hn : had n b.cur = true) :
    ∃ clk, b.postLane x = (b, b.cur.length, true, clk) := by
  have h' : b.cur.any (fun p => p.slot == n) = true := hn
  unfold Board.postLane
  simp only [hs, hr, ahead_cur, round_cur, Option.getD_some, h', Nat.not_lt_zero, if_false, if_true]
  exact ⟨_, rfl⟩

/-- A post of an old round. -/
theorem postLane_old {b : Board} {x : BLane} (hold : 2 ^ 31 < b.ahead x.round) : ∃ clk, b.postLane x = (b, b.slots, true, clk) := by
  unfold Board.postLane
  simp only [if_pos hold]
  exact ⟨_, rfl⟩

theorem step_open {b : Board} (h : b.cur.length ≠ b.slots) : b.step = b := if_pos (by simpa using h)

theorem step_full {b : Board} (h : b.cur.length = b.slots) :
    b.step = { b with rc := b.rc + 1, cur := b.next, next := [], filled := some (b.rc, b.cur), past := b.filled.toList ++ b.past } :=
  if_neg (by simpa using h)

/- The home's answers. -/

/-- The home has answered a request: nothing differs but the request and its board. -/
def BoardAnswers (s : State) (key : Nat) (r : BReq) (i : Instr) (x : BReq) (t : State) : Prop :=
  exec i s = .next t ∧ t = { s with boards := t.boards, breqs := t.breqs } ∧ t.breq? key = some x ∧ (∀ j, j ≠ key → t.breq? j = s.breq? j)
    ∧ ∀ j, j ≠ r.board → tget t.boards j = tget s.boards j

theorem post_answered {s : State} {key : Nat} {r : BReq} {b b' : Board} {x : BLane} {lv : Nat} {st : Bool} {clk : VC} (hr : s.breq? key = some r)
    (hk : r.kind = .bpv) (ht : r.taken = false) (hb : tget s.boards r.board = some b) (hl : r.lanes = [x]) (hc : b.postCause x = none)
    (hp : b.postLane x = (b', lv, st, clk)) :
    ∃ clk t, BoardAnswers s key r (.boardPostRequest key) { r with taken := true, levels := [(x.lane, lv, st)], seen := clk } t
      ∧ tget t.boards r.board = some b' := by
  have hexec : exec (.boardPostRequest key) s = .next ({ s with boards := tput s.boards r.board b' }.modBReq key (fun r =>
      { r with taken := true, levels := [(x.lane, lv, st)], seen := VC.zero.join clk })) := by
    show execBoardPostRequest key s = _
    unfold execBoardPostRequest
    simp only [hr, hk, ht, hb, hl, hc, bne_self_eq_false, Bool.or_self, Bool.false_eq_true, if_false, List.filterMap_cons, List.filterMap_nil,
      List.head?_nil, Board.postAll, List.foldl_cons, List.foldl_nil, hp, List.nil_append]
  obtain ⟨hself, hothers⟩ := breq_modBReq (s := { s with boards := tput s.boards r.board b' }) hr
    (f := fun r => { r with taken := true, levels := [(x.lane, lv, st)], seen := VC.zero.join clk }) fun _ => rfl
  exact ⟨_, _, ⟨hexec, rfl, hself, hothers, fun j hj => tget_tput_ne _ _ hj⟩, tget_tput_self _ _ _⟩

theorem slotMask_bit (ps : List Post) {i : Nat} (hi : i < 256) : (slotMask ps).getLsbD i = ps.any (fun p => p.slot == i) := by
  have hfold : ∀ (ps : List Post) (m : BitVec 256),
      (ps.foldl (fun m p => m ||| BitVec.ofNat 256 (2 ^ p.slot)) m).getLsbD i = (m.getLsbD i || ps.any (fun p => p.slot == i)) := by
    intro ps
    induction ps with
    | nil => exact fun m => (Bool.or_false _).symm
    | cons p ps ih =>
      intro m
      have hbit : (BitVec.ofNat 256 (2 ^ p.slot)).getLsbD i = (p.slot == i) := by
        rw [BitVec.getLsbD_ofNat, Nat.testBit_two_pow]
        simp [hi, beq_eq_decide]
      rw [List.foldl_cons, ih, BitVec.getLsbD_or, hbit, List.any_cons, Bool.or_assoc]
  rw [slotMask, hfold]
  simp

theorem view_answered {s : State} {key : Nat} {r : BReq} {b : Board} {ps : List Post} (hr : s.breq? key = some r) (hk : r.kind = .bvm)
    (ht : r.taken = false) (hb : tget s.boards r.board = some b) (hp : b.round r.round = some ps) :
    ∃ t, BoardAnswers s key r (.boardViewRequest key) { r with taken := true, level := min r.level ps.length, mask := slotMask (ps.take r.level), seen := VC.joins ((ps.take r.level).map (fun p => p.clk)) } t
      ∧ t.boards = s.boards := by
  have hexec : exec (.boardViewRequest key) s = .next (s.modBReq key (fun x =>
      { x with taken := true, level := min x.level ps.length, mask := slotMask (ps.take r.level), seen := VC.joins ((ps.take r.level).map (fun p => p.clk)) })) := by
    show execBoardViewRequest key s = _
    unfold execBoardViewRequest
    simp only [hr, hk, ht, hb, hp, bne_self_eq_false, Bool.or_self, Bool.false_eq_true, if_false, Option.map_some]
  obtain ⟨hself, hothers⟩ := breq_modBReq hr (f := fun x => { x with taken := true, level := min x.level ps.length, mask := slotMask (ps.take r.level), seen := VC.joins ((ps.take r.level).map (fun p => p.clk)) }) fun _ => rfl
  exact ⟨_, ⟨hexec, rfl, hself, hothers, fun _ _ => rfl⟩, rfl⟩

theorem view_refused {s : State} {key : Nat} {r : BReq} {b : Board} (hr : s.breq? key = some r) (hk : r.kind = .bvm) (ht : r.taken = false)
    (hb : tget s.boards r.board = some b) (hp : b.round r.round = none) :
    ∃ t, BoardAnswers s key r (.boardViewRequest key) { r with taken := true, fault := some .boardRound } t ∧ t.boards = s.boards := by
  have hexec : exec (.boardViewRequest key) s = .next (s.modBReq key (fun r => { r with taken := true, fault := some .boardRound })) := by
    show execBoardViewRequest key s = _
    unfold execBoardViewRequest
    simp only [hr, hk, ht, hb, hp, bne_self_eq_false, Bool.or_self, Bool.false_eq_true, if_false, Option.map_some]
  obtain ⟨hself, hothers⟩ := breq_modBReq hr (f := fun r => { r with taken := true, fault := some .boardRound }) fun _ => rfl
  exact ⟨_, ⟨hexec, rfl, hself, hothers, fun _ _ => rfl⟩, rfl⟩

/- Delivery. -/

/-- Views that the threads take change their clocks only. -/
theorem seeView_only (r : BReq) {α : Type} (lane lv : α → Nat) (rd : α → W32) (l : List α) (w : Warp) :
    ∃ c, l.foldl (fun w x => w.seeView r (rd x) (lv x) (lane x)) w = { w with clk := c } := by
  induction l generalizing w with
  | nil => exact ⟨w.clk, rfl⟩
  | cons x l ih =>
    obtain ⟨c, hc⟩ := ih (w.seeView r (rd x) (lv x) (lane x))
    exact ⟨c, hc⟩

theorem takeView_bvm {w : Warp} {r : BReq} (hf : r.fault = none) (hk : r.kind = .bvm) :
    ∃ c, w.takeView r = { w with wait := .none, vms := lput w.vms r.vm 0 (fun _ => r.mask), clk := c } := by
  obtain ⟨c, hc⟩ := seeView_only r id (fun _ => r.level) (fun _ => r.round) (lanesOf r.act) { w with wait := .none, vms := lput w.vms r.vm 0 (fun _ => r.mask) }
  refine ⟨c, ?_⟩
  unfold Warp.takeView
  simp only [hf, hk]
  exact hc

/-- The level and the stale bit that a BPV answers to a lane. -/
def BReq.answer (r : BReq) (l : Nat) : Nat × Bool := ((r.levels.find? (fun x => x.1 == l)).map (fun x => x.2)).getD (0, false)

theorem takeView_bpv {w : Warp} {r : BReq} (hf : r.fault = none) (hk : r.kind = .bpv) :
    ∃ ops c, w.takeView r = { w with
      wait := .none, ops := ops, clk := c,
      regs := lput w.regs r.dst (.u 0) (fun old => old.write false .g .g r.act (allLanes.map (fun l => BitVec.ofNat 32 (r.answer l).1))),
      preds := if r.stale = 15 then w.preds else lput w.preds r.stale 0 (fun p => (p &&& ~~~ r.act) ||| (r.act &&& maskOf (fun l => (r.answer l).2))),
      lastPost := match r.lanes with | x :: _ => tput w.lastPost r.handle x.round | [] => w.lastPost } := by
  obtain ⟨c, hc⟩ := seeView_only r (fun x : BLane => x.lane) (fun x => (r.answer x.lane).1) (fun x => x.round) r.lanes
    { ({ w with wait := .none } : Warp).overtake r.dst r.act with
      regs := lput w.regs r.dst (.u 0) (fun old => old.write false .g .g r.act (allLanes.map (fun l => BitVec.ofNat 32 (r.answer l).1))),
      preds := if r.stale = 15 then w.preds else lput w.preds r.stale 0 (fun p => (p &&& ~~~ r.act) ||| (r.act &&& maskOf (fun l => (r.answer l).2))),
      lastPost := match r.lanes with | x :: _ => tput w.lastPost r.handle x.round | [] => w.lastPost }
  refine ⟨(({ w with wait := .none } : Warp).overtake r.dst r.act).ops, c, ?_⟩
  unfold Warp.takeView
  simp only [hf, hk]
  exact hc

/-- The answer reaches its warp, and the request is gone. -/
theorem delivery_spec {s : State} {key k : Nat} {r : BReq} {w : Warp} (hr : s.breq? key = some r) (ht : r.taken = true) (hf : r.fault = none)
    (hk : r.kind ≠ .brst) (hw : s.waiterOf r = some (k, w)) :
    ∃ t, exec (.boardViewDelivery key) s = .next t ∧ t = { s with breqs := t.breqs, warps := t.warps } ∧ (∀ x ∈ t.breqs, x.key ≠ key)
      ∧ ∀ j, tget t.warps j = if j = k then some (w.takeView r) else tget s.warps j := by
  have hkey : r.key = key := by simpa using List.find?_some (p := fun r : BReq => r.key == key) hr
  have hexec : exec (.boardViewDelivery key) s = .next (s.deliverView r k w) := by
    show execBoardViewDelivery key s = _
    unfold execBoardViewDelivery
    simp only [hr, ht, hf, hw, Bool.not_true, Bool.false_or, beq_iff_eq, hk, if_false, Option.isSome_none, Bool.false_eq_true]
  refine ⟨_, hexec, rfl, ?_, fun j => tget_tput s.warps k j _⟩
  rw [← hkey]
  exact forall_filter_key (fun x : BReq => x.key) s.breqs r.key

/-- A warp whose threads have no view of a board any more. -/
def Warp.forget (board : Nat) (w : Warp) : Warp := { w with clk := w.clk.map (fun c => { c with views := c.views.filter (fun x => x.1 != board) }) }

theorem forgetViews_warps (s : State) (board : Nat) : (s.forgetViews board).warps = s.warps.map (fun x => (x.1, x.2.forget board)) := rfl

/-- The reset of an idle board: it is empty, and no view of it is left. -/
theorem reset_spec {s : State} {key k : Nat} {r : BReq} {w : Warp} {b : Board} (hr : s.breq? key = some r) (hk : r.kind = .brst)
    (hw : s.waiterOf r = some (k, w)) (hb : tget s.boards r.board = some b) (hidle : s.boardIdle b r = true) (hown : s.ownPostAhead r = false) :
    ∃ t w', exec (.boardResetRequest key) s = .next t ∧ tget t.boards r.board = some (Board.make b.slots b.strict b.owners)
      ∧ (∀ x ∈ t.breqs, x.key ≠ key) ∧ tget t.warps k = some w' ∧ w' = { w with wait := .none, clk := w'.clk }
      ∧ (∀ c ∈ w'.clk, ∀ x ∈ c.views, x.1 ≠ r.board) ∧ t.mem = s.mem := by
  set s1 : State := { s with breqs := s.breqs.filter (fun x => x.key != key), boards := tput s.boards r.board (Board.make b.slots b.strict b.owners),
                             warps := tput s.warps k { w with wait := .none } } with hs1
  have hexec : exec (.boardResetRequest key) s = .next (s1.forgetViews r.board) := by
    show execBoardResetRequest key s = _
    unfold execBoardResetRequest
    simp only [hr, hk, hown, hw, hb, hidle, bne_self_eq_false, Bool.or_self, Bool.false_eq_true, if_false, if_true]
    rfl
  have hwarps : tget (s1.forgetViews r.board).warps k = some (({ w with wait := .none } : Warp).forget r.board) := by
    rw [forgetViews_warps]
    exact tget_map (F := fun x => (x.1, x.2.forget r.board)) (fun _ => rfl) (tget_tput_self s.warps k { w with wait := .none })
  refine ⟨_, _, hexec, tget_tput_self _ _ _, forall_filter_key (fun x : BReq => x.key) s.breqs key,
    hwarps, rfl, fun c hc x hx => ?_, rfl⟩
  obtain ⟨c0, -, rfl⟩ := List.mem_map.mp hc
  simpa using (List.mem_filter.mp hx).2

/-- Settles O40. -/
theorem boardSteps : Obligations.BoardSteps := by
  unfold Obligations.BoardSteps
  intro key s r hr
  refine ⟨fun b x n hk ht hb hl hs => ?_, fun b ps hk ht hb hp => ?_, fun b hk ht hb hp => ?_, fun b k w hk hw hb hidle hown => ?_,
    fun k w ht hf hw => ⟨fun hk => ?_, fun hk => ?_, fun c _ _ _ _ _ hc => absurd (hf.symm.trans hc) nofun⟩⟩
  · have htook : ∀ {b' : Board} {lv : Nat} {st : Bool} {clk : VC} (P : State → Prop), b.postCause x = none → b.postLane x = (b', lv, st, clk) →
        (∀ t : State, tget t.boards r.board = some b' → P t) →
        ∃ clk t, exec (.boardPostRequest key) s = .next t ∧ t = { s with boards := t.boards, breqs := t.breqs }
          ∧ t.breq? key = some { r with taken := true, levels := [(x.lane, lv, st)], seen := clk } ∧ (∀ j, j ≠ key → t.breq? j = s.breq? j)
          ∧ (∀ j, j ≠ r.board → tget t.boards j = tget s.boards j) ∧ P t := by
      intro b' lv st clk P hc hp hP
      obtain ⟨clk, t, ⟨h1, h2, h3, h4, h5⟩, hboard⟩ := post_answered hr hk ht hb hl hc hp
      exact ⟨clk, t, h1, h2, h3, h4, h5, hP t hboard⟩
    have hcur : x.round = b.rc → b.ahead x.round = 0 ∧ b.round x.round = some b.cur := fun e => e ▸ ⟨ahead_cur b, round_cur b⟩
    refine ⟨fun hround hno hlen => ?_, fun hround hno hlen hnext => ?_, fun hround hno hlen => ?_, fun hround hyes hstrict => ?_, fun hold hstrict => ?_⟩
    · have hno' : had n b.cur = false := Bool.eq_false_iff.mpr (mt (had_iff n b.cur).mp hno)
      obtain ⟨clk, hp⟩ := postLane_cur hs hround hno'
      have hc := postCause_none hs (.inl (by rw [(hcur hround).1]; decide)) (.inr ⟨by rw [(hcur hround).1]; decide, by rw [(hcur hround).2]; exact hno'⟩)
      refine htook _ hc hp fun t hboard => hboard.trans ?_
      have hopen : ({ b with cur := b.cur ++ [⟨n, x.value, x.clk⟩] } : Board).step = { b with cur := b.cur ++ [⟨n, x.value, x.clk⟩] } :=
        step_open (by simp only [List.length_append, List.length_singleton]; omega)
      rw [hopen, hopen]
    · have hno' : had n b.cur = false := Bool.eq_false_iff.mpr (mt (had_iff n b.cur).mp hno)
      obtain ⟨clk, hp⟩ := postLane_cur hs hround hno'
      have hc := postCause_none hs (.inl (by rw [(hcur hround).1]; decide)) (.inr ⟨by rw [(hcur hround).1]; decide, by rw [(hcur hround).2]; exact hno'⟩)
      rw [hlen] at hp
      refine htook _ hc hp fun t hboard => ⟨_, hboard, ?_⟩
      have hfull : ({ b with cur := b.cur ++ [⟨n, x.value, x.clk⟩] } : Board).cur.length = b.slots := by
        simpa using hlen
      rw [step_full hfull, step_open (Nat.ne_of_lt hnext)]
      exact ⟨rfl, rfl, rfl, rfl, rfl⟩
    · have hno' : had n b.next = false := Bool.eq_false_iff.mpr (mt (had_iff n b.next).mp hno)
      obtain ⟨clk, hp⟩ := postLane_next hs hround hno'
      have hah : b.ahead x.round = 1 := hround ▸ ahead_next b
      have hc := postCause_none hs (.inl (by rw [hah]; decide)) (.inr ⟨by rw [hah]; decide, by rw [hround, round_next]; exact hno'⟩)
      refine htook _ hc hp fun t hboard => hboard.trans ?_
      have hopen : ({ b with next := b.next ++ [⟨n, x.value, x.clk⟩] } : Board).step = { b with next := b.next ++ [⟨n, x.value, x.clk⟩] } :=
        step_open (Nat.ne_of_lt hlen)
      rw [hopen, hopen]
    · obtain ⟨clk, hp⟩ := postLane_again hs hround ((had_iff n b.cur).mpr hyes)
      have hc := postCause_none hs (.inl (by rw [(hcur hround).1]; decide)) (.inl hstrict)
      exact htook _ hc hp fun t hboard => hboard
    · obtain ⟨clk, hp⟩ := postLane_old (b := b) (x := x) hold
      exact htook _ (postCause_none hs (.inr hold) (.inl hstrict)) hp fun t hboard => hboard
  · obtain ⟨t, ⟨h1, h2, h3, h4, h5⟩, hsame⟩ := view_answered hr hk ht hb hp
    exact ⟨_, _, ⟨t, h1, h2, h3, h4, h5, hsame⟩, fun i hi => slotMask_bit _ hi⟩
  · obtain ⟨t, ⟨h1, h2, h3, h4, h5⟩, hsame⟩ := view_refused hr hk ht hb hp
    exact ⟨t, h1, h2, h3, h4, h5, hsame⟩
  · obtain ⟨t, w', h1, h2, h3, h4, h5, h6, h7⟩ := reset_spec hr hk hw hb hidle hown
    exact ⟨t, _, w', h1, h2, rfl, rfl, rfl, rfl, rfl, rfl, rfl, h3, h4, h5, h6, fun p => by rw [h7]⟩
  · obtain ⟨t, h1, h2, h3, h4⟩ := delivery_spec hr ht hf (by rw [hk]; decide) hw
    obtain ⟨c, hc⟩ := takeView_bvm (w := w) hf hk
    refine ⟨t, _, h1, h2, h3, h4, ?_⟩
    rw [hc]
    exact ⟨rfl, rfl, fun i => nth_lput w.vms r.vm i 0 _⟩
  · obtain ⟨t, h1, h2, h3, h4⟩ := delivery_spec hr ht hf (by rw [hk]; decide) hw
    obtain ⟨ops, c, hc⟩ := takeView_bpv (w := w) hf hk
    refine ⟨t, _, h1, h2, h3, h4, ?_⟩
    rw [hc]
    have hreg : ∀ m l, (nth (lput w.regs r.dst (.u 0) (fun old => old.write false .g .g r.act (allLanes.map (fun l => BitVec.ofNat 32 (r.answer l).1)))) m (.u 0)).lane l
        = if m = r.dst then ((w.reg r.dst).write false .g .g r.act (allLanes.map (fun l => BitVec.ofNat 32 (r.answer l).1))).lane l else w.rd m l := by
      intro m l
      rw [nth_lput]
      split <;> rfl
    refine ⟨rfl, fun m l hm => (hreg m l).trans (if_neg hm), fun l hl hact => ?_, fun l y hl hact hy => ⟨?_, fun hst => ?_⟩, fun p l hl hp => ?_, fun y rest hy => ?_⟩
    · refine (hreg r.dst l).trans ?_
      rw [if_pos rfl, Reg.lane_write_part _ _ _ _ _ hl, if_neg (by rw [hact]; decide)]
      rfl
    · refine (hreg r.dst l).trans ?_
      rw [if_pos rfl, Reg.lane_write_part _ _ _ _ _ hl, if_pos hact, nth_lanes _ hl, BReq.answer, hy]
      rfl
    · show has (nth (if r.stale = 15 then w.preds else _) r.stale 0) l = _
      rw [if_neg hst, nth_lput, if_pos rfl, has_or, has_and, has_and, has_not, has_maskOf, hact, BReq.answer, hy]
      simp [hl]
    · show has (nth (if r.stale = 15 then w.preds else _) p 0) l = _
      split
      · rfl
      · rw [nth_lput]
        split
        · next hps =>
          rw [has_or, has_and, has_and, has_not, hps, (hp.resolve_left (fun h => h hps))]
          simp [hl]
        · rfl
    · show tget (match r.lanes with | x :: _ => tput w.lastPost r.handle x.round | [] => w.lastPost) r.handle = _
      rw [hy]
      exact tget_tput_self _ _ _

end Sys2Proof.Machine
end

