-- ==== Sys2Proof/Proofs/Returning.lean ====
section
/-! PROOF, of O20. TRET, YIELD and RESUME (07 R131; 13 R225, R230, R234). -/

namespace Sys2Proof.Machine

/- What re-entry leaves of the split table. -/

/-- Threads that are not held stay where they are. -/
def StaysOn (w w' : Warp) : Prop := ∀ l, l < 32 → w.laneAt l ≠ .held → w'.laneAt l = w.laneAt l

theorem StaysOn.refl (w : Warp) : StaysOn w w := fun _ _ _ => rfl

theorem StaysOn.trans {a b c : Warp} (h1 : StaysOn a b) (h2 : StaysOn b c) : StaysOn a c := fun l hl h =>
  (h2 l hl (by rw [h1 l hl h]; exact h)).trans (h1 l hl h)

theorem StaysOn.foldl {α : Type} {f : Warp → α → Warp} (hf : ∀ x a, StaysOn x (f x a)) (as : List α) (w : Warp) : StaysOn w (as.foldl f w) := by
  induction as generalizing w with
  | nil => exact .refl w
  | cons a as ih => exact (hf w a).trans (ih _)

theorem setLanes_held_stays (w : Warp) (p : W64) (x : LaneSt) : StaysOn w (w.setLanes (w.atPc w.heldMask p) x) := by
  intro l hl h
  rw [laneAt_setLanes w _ x hl, if_neg fun hm => h ((has_held hl).mp (has_atPc.mp hm).1)]

theorem reenter_stays (w : Warp) : StaysOn w w.reenter := by
  rw [reenter_eq]
  refine .foldl (fun x _ => ?_) _ w
  unfold Warp.reenterOnce
  split
  · exact .refl x
  · refine StaysOn.trans (b := x.joinHeld x.entries) ?_ ?_
    · refine .foldl (fun y e => ?_) _ x
      split
      · exact setLanes_held_stays y _ _
      · exact .refl y
    · unfold Warp.enterHeld
      split
      · exact setLanes_held_stays _ _ _
      · exact .refl _

theorem nextRep_only (w : Warp) : ∃ r rs, w.nextRep = { w with rep := r, reps := rs } := by
  unfold Warp.nextRep
  simp only
  split <;> exact ⟨_, _, rfl⟩

/-- Without a REP that waits for its turn the one in progress goes on. -/
theorem nextRep_alone {w : Warp} (h : w.reps = []) : w.nextRep.rep = w.rep := by
  unfold Warp.nextRep
  rw [h]
  cases w.rep <;> rfl

/- TRET. -/

/-- Where the threads stand as the record had them, but for those that have finished since. -/
def Warp.backLanes (w : Warp) (c : Ctl) : List LaneSt :=
  allLanes.map (fun l => match w.laneAt l with
    | .idle => LaneSt.idle
    | .on _ | .held | .vacant => nth c.lanes l .vacant)

/-- The control state of the record stands again, the held threads not yet re-entered. -/
def Warp.restore (w : Warp) (c : Ctl) (now : Nat) : Warp :=
  { w with pcs := c.pcs, lanes := w.backLanes c, cstack := c.cstack, lwait := c.lwait, lwaitSince := List.replicate 32 now,
           wait := c.wait, waitSince := now, rep := c.rep, reps := c.reps, ops := c.ops, replay := c.replay, count := c.count,
           hist := c.hist, trap := none, pend := none, pre := [], inLoop := false }

theorem laneAt_restore (w : Warp) (c : Ctl) (now : Nat) {l : Nat} (hl : l < 32) :
    (w.restore c now).laneAt l = if w.laneAt l = .idle then .idle else nth c.lanes l .vacant := by
  refine (nth_map_range 32 (fun l => match w.laneAt l with
    | .idle => LaneSt.idle
    | .on _ | .held | .vacant => nth c.lanes l .vacant) l .vacant hl).trans ?_
  cases w.laneAt l <;> rfl

/-- A REP none of whose threads lives is over. -/
def Warp.dropRep (w : Warp) : Warp := { w with rep := w.rep.filter (fun r => r.grp &&& w.live != 0) }

/-- The REP in progress stays where one of its threads lives and none waits for its turn. -/
theorem dropRep_next (w : Warp) : (∃ r rs, w.dropRep.nextRep = { w with rep := r, reps := rs })
    ∧ (w.reps = [] → (∀ p, w.rep = some p → p.grp &&& w.live ≠ 0) → w.dropRep.nextRep.rep = w.rep) := by
  refine ⟨nextRep_only w.dropRep, fun hreps hlive => ?_⟩
  rw [nextRep_alone (w := w.dropRep) hreps]
  show w.rep.filter _ = w.rep
  cases hr : w.rep with
  | none => rfl
  | some p => exact Option.filter_some_pos (bne_iff_ne.mpr (hlive p hr))

/-- A return puts back the record's control state; only the lanes of held threads and the REPs may differ from it. -/
theorem tret_spec (w : Warp) (c : Ctl) (now : Nat) :
    (∃ ls r rs, w.tret c now = { w.restore c now with lanes := ls, rep := r, reps := rs })
      ∧ StaysOn (w.restore c now) (w.tret c now)
      ∧ (c.reps = [] → (∀ p, c.rep = some p → p.grp &&& (w.tret c now).live ≠ 0) → (w.tret c now).rep = c.rep) := by
  obtain ⟨honly, -⟩ := reenter_regroups (w.restore c now)
  have hstays := reenter_stays (w.restore c now)
  have heq : w.tret c now = (w.restore c now).reenter.dropRep.nextRep := rfl
  generalize (w.restore c now).reenter = x at *
  obtain ⟨⟨r, rs, hnext⟩, hrep⟩ := dropRep_next x
  have hlanes : (w.tret c now).lanes = x.lanes := by rw [heq, hnext]
  have hxrep : x.rep = c.rep := (congrArg Warp.rep honly).trans rfl
  have hxreps : x.reps = c.reps := (congrArg Warp.reps honly).trans rfl
  refine ⟨⟨x.lanes, r, rs, ?_⟩, fun l hl h => ?_, fun hc hp => ?_⟩
  · rw [heq, hnext]
    conv_lhs => rw [honly]
  · rw [Warp.laneAt, hlanes]
    exact hstays l hl h
  · rw [Warp.live, hlanes] at hp
    rw [heq, hrep (hxreps.trans hc) (fun p h => hp p (hxrep.symm.trans h)), hxrep]

/-- A warp that issues has drained where its own operations have ended. -/
theorem Issues.drained {s : State} {h : Hdr} {i : Instr} {v : View} (hi : Issues s h i v) (ho : ∀ o ∈ v.w.ops, o.done = true ∨ o.fault ≠ none)
    (hh : v.w.half = none) : v.w.drained (fun _ => false) = true := by
  obtain ⟨-, hwait, -⟩ := hi.calmly
  have hover : ∀ o ∈ v.w.ops, (o.over || false) = true := by
    intro o hmem
    rcases ho o hmem with h | h
    · simp [Op.over, h]
    · simp [Op.over, Option.isSome_iff_ne_none.mpr h]
  unfold Warp.drained
  rw [List.all_eq_true.mpr hover, hwait, hh]
  rfl

/-- An instruction that changes nothing only goes on. -/
theorem issue_nothing {s : State} {h : Hdr} {i : Instr} {v : View} {eff : View → State → Eff} (hi : Issues s h i v) (he : eff v s = .done s) :
    ∃ t, issue s h (reqOf i) eff = .next t ∧ Passes s v v.w (fun _ => v.next) t := by
  obtain ⟨-, -, -, hw, -⟩ := view_spec hi.view
  exact issue_done hi.view hi.goes hi.calm he hw rfl

theorem exec_tret_back {s : State} {h : Hdr} {v : View} {r : TrapRec} (hi : Issues s h (.tret h) v) (ht : v.w.trap = some r) (hact : v.act ≠ 0)
    (hd : v.w.drained (fun _ => false) = true) :
    ∃ t, exec (.tret h) s = .next t ∧ t = { s with warps := t.warps, issueCount := t.issueCount } ∧ tget t.warps v.key = some (v.w.tret r.ctl s.tsc)
      ∧ ∀ j, j ≠ v.key → tget t.warps j = tget s.warps j := by
  obtain ⟨-, -, -, hw, -⟩ := view_spec hi.view
  have hne : (v.act == 0) = false := by simpa using hact
  refine ⟨{ s.modWarp v.key (fun w => w.tret r.ctl s.tsc) with issueCount := s.issueCount + 1 }, ?_, rfl, ?_, fun j hj => tget_tmod_ne _ _ hj⟩
  · show execTret h s = _
    unfold execTret
    exact issue_stay hi.view hi.goes hi.calm (by simp only [ht, hne, hd, Bool.false_eq_true, if_false, Bool.not_true])
  · show tget (tmod s.warps v.key _) v.key = _
    rw [tget_tmod_self, hw]
    rfl

/- YIELD. -/

/-- Bytes written into a frame change no warp. -/
theorem frameWrite_warps (s : State) (cx : Nat) (b : Block) (off : Nat) (bs : List Byte) : (s.frameWrite cx b off bs).warps = s.warps := by
  unfold State.frameWrite State.pokeVa
  cases s.writable 4 cx (b.frame + off) bs.length with
  | none => rfl
  | some pas =>
    show (s.sendWrites 4 b.clk { cx := cx } (pas.zip bs)).1.warps = s.warps
    rw [sendWrites_only]

theorem doYield_warp {s : State} {k : Nat} {w : Warp} {b : Block} {g : Grid} (hw : tget s.warps k = some w) (hb : s.blk? w.blk = some b)
    (hg : tget s.grids b.grid = some g) : tget (s.doYield k).warps k = some { w with wait := .yielded, waitSince := s.tsc } := by
  unfold State.doYield
  simp only [hw, hb]
  split
  · next hnone => exact absurd (hnone.symm.trans hg) nofun
  · rw [frameWrite_warps]
    show tget (tmod s.warps k _) k = _
    rw [tget_tmod_self, hw]
    rfl


theorem exec_yield {s : State} {h : Hdr} {v : View} (hi : Issues s h (.yield h) v) (hact : v.act ≠ 0) (hpre : v.w.preemptEntry = some false)
    (hadm : v.b.adm = []) (hhq : v.b.hq = []) (hback : v.b.heldBack = true) (hd : v.w.drained (fun _ => false) = true)
    (hva : s.vaFault 4 v.g.ctx needW [(v.b.frame + controlAt v.b v.w, 0x4000)] = none) :
    ∃ t, exec (.yield h) s = .next t ∧ tget t.warps v.key = some { v.w with wait := .yielded, waitSince := s.tsc } := by
  obtain ⟨-, -, -, hw, -, -, -, -, hbk, hb, hgk, hg⟩ := view_spec hi.view
  have hne : (v.act == 0) = false := by simpa using hact
  refine ⟨{ s.doYield v.key with issueCount := (s.doYield v.key).issueCount + 1 }, ?_, doYield_warp hw (hbk ▸ hb) (hgk ▸ hg)⟩
  show execYield h s = _
  unfold execYield
  exact issue_stay hi.view hi.goes hi.calm (by
    simp only [hne, hpre, hadm, hhq, hback, hd, hva, List.isEmpty_nil, BEq.rfl, Bool.not_true, Bool.or_self, Bool.false_eq_true, if_false, if_true])

/- RESUME: what the end of a restore leaves of the block and of its warps. -/

/-- No warp differs, and the block stands as it did. -/
def Standing (bk : Nat) (s t : State) : Prop :=
  t.warps = s.warps ∧ ∀ b, s.blk? bk = some b → ∃ b', t.blk? bk = some b' ∧ b'.state = b.state ∧ b'.saved = b.saved

theorem Standing.of_eq {bk : Nat} {s t : State} (hw : t.warps = s.warps) (hb : t.blocks = s.blocks) : Standing bk s t :=
  ⟨hw, fun b h => ⟨b, (congrArg (tget · bk) hb).trans h, rfl, rfl⟩⟩

theorem Standing.trans {bk : Nat} {s t u : State} (h1 : Standing bk s t) (h2 : Standing bk t u) : Standing bk s u := by
  refine ⟨h2.1.trans h1.1, fun b hb => ?_⟩
  obtain ⟨c, hc, hstate, hsaved⟩ := h1.2 b hb
  obtain ⟨d, hd, hstate', hsaved'⟩ := h2.2 c hc
  exact ⟨d, hd, hstate'.trans hstate, hsaved'.trans hsaved⟩

theorem Standing.foldl {α : Type} {bk : Nat} {f : State → α → State} (as : List α) (hf : ∀ x, ∀ a ∈ as, Standing bk x (f x a)) (s : State) :
    Standing bk s (as.foldl f s) := by
  induction as generalizing s with
  | nil => exact .of_eq rfl rfl
  | cons a as ih => exact (hf s a (.head _)).trans (ih (fun x b hb => hf x b (.tail _ hb)) _)

theorem pokeVa_sent {s : State} {die cx va : Nat} {bs : List Byte} {vec : VC} {r : State × VC} (h : s.pokeVa die cx va bs vec = some r) :
    OnlySent s r.1 := by
  obtain ⟨pas, -, rfl⟩ := Option.map_eq_some_iff.mp h
  exact sendWrites_only _ _ _ _ _

theorem ringWrite_stands (s : State) (bk die gk i off : Nat) (bs : List Byte) (vec : VC) : Standing bk s (s.ringWrite die gk i off bs vec) := by
  unfold State.ringWrite
  split
  · exact .of_eq rfl rfl
  · split
    · exact .of_eq rfl rfl
    · next r hr =>
      have hsent := pokeVa_sent hr
      unfold OnlySent at hsent
      exact .of_eq (by rw [hsent]; rfl) (by rw [hsent]; rfl)

theorem ticket_stands (s : State) (bk : Nat) (t : Ticket) : Standing bk s (s.replayItem bk (.ticket t)) :=
  ⟨rfl, fun b hb => ⟨{ b with tickets := b.tickets ++ [t] }, by unfold State.replayItem; rw [blk_modBlock_of hb, if_pos rfl], rfl, rfl⟩⟩

theorem barCheck_stands (s : State) (bk n : Nat) : Standing bk s (s.barCheck bk n) := by
  cases hb : s.blk? bk with
  | none => exact .of_eq (by unfold State.barCheck; rw [hb]) (by unfold State.barCheck; rw [hb])
  | some b =>
    obtain ⟨honly, r, -, hblk⟩ := barCheck_blks (n := n) hb
    refine ⟨by rw [honly], fun c hc => ?_⟩
    obtain rfl : b = c := Option.some.inj (hb.symm.trans hc)
    rcases hblk with ⟨hsame, -⟩ | hblk
    · exact ⟨b, (congrArg (tget · bk) hsame).trans hb, rfl, rfl⟩
    · exact ⟨_, (hblk bk).trans (if_pos rfl), rfl, rfl⟩

theorem mem_insertItem {x y : Nat × Nat × LogItem} {l : List (Nat × Nat × LogItem)} (h : y ∈ insertItem x l) : y = x ∨ y ∈ l := by
  induction l with
  | nil => exact List.mem_cons.mp h
  | cons z l ih =>
    unfold insertItem at h
    split at h
    · exact List.mem_cons.mp h
    · rcases List.mem_cons.mp h with rfl | h
      · exact .inr (.head _)
      · exact (ih h).imp_right (.tail _)

theorem mem_insertItems {y : Nat × Nat × LogItem} (xs : List (Nat × Nat × LogItem)) (a : List (Nat × Nat × LogItem))
    (h : y ∈ xs.foldl (fun a x => insertItem x a) a) : y ∈ a ∨ y ∈ xs := by
  induction xs generalizing a with
  | nil => exact .inl h
  | cons x xs ih =>
    rcases ih _ h with h | h
    · rcases mem_insertItem h with rfl | h
      · exact .inr (.head _)
      · exact .inl h
    · exact .inr (.tail _ h)

/-- Without a barrier arrival and without a request of the block, its log replays tickets only. -/
theorem logItems_tickets {s : State} {bk : Nat} {b : Block} (hw : b.wires = []) (hq : ∀ x ∈ s.breqs, x.blk ≠ bk) :
    ∀ x ∈ s.logItems bk b, ∃ t, x.2.2 = .ticket t := by
  have hviews : s.breqs.filter (fun r => r.blk == bk && r.logged) = [] := List.filter_eq_nil_iff.mpr (fun r hr => by simp [hq r hr])
  intro x hx
  unfold State.logItems at hx
  simp only [hviews, hw, List.map_nil, List.append_nil] at hx
  rcases mem_insertItems _ _ hx with h | h
  · exact absurd h (by simp)
  · obtain ⟨t, -, rfl⟩ := List.mem_map.mp h
    exact ⟨t.2, rfl⟩

theorem hubSync_blk {s : State} {bk : Nat} {b : Block} (hb : s.blk? bk = some b) :
    (s.hubSync bk).warps = s.warps ∧ ∃ b', (s.hubSync bk).blk? bk = some b' := by
  have hbars : ∀ (f : Nat → BarSt → BarSt) (ns : List Nat) (u : State) (c : Block), u.blk? bk = some c →
      (ns.foldl (fun u n => u.modBar bk n (f n)) u).warps = u.warps ∧ ∃ c', (ns.foldl (fun u n => u.modBar bk n (f n)) u).blk? bk = some c' := by
    intro f ns
    induction ns with
    | nil => exact fun u c hc => ⟨rfl, c, hc⟩
    | cons n ns ih => exact fun u c hc => ih (u.modBar bk n (f n)) _ ((blk_modBlock_of hc _ bk).trans (if_pos rfl))
  unfold State.hubSync
  simp only [hb]
  cases hg : tget s.grids b.grid with
  | none => exact ⟨rfl, b, hb⟩
  | some g =>
    obtain ⟨hwarps, c, hc⟩ := hbars (fun n r => { r.complete with phase := (g.bar n).phase, doneClk := (g.bar n).doneClk })
      ((g.bars.map Prod.fst).filter (fun n => 112 ≤ n && (b.bar n).phase != (g.bar n).phase)) s b hb
    exact ⟨hwarps, _, (blk_modBlock_of hc _ bk).trans (if_pos rfl)⟩

/-- A warp of a block that has come back leaves its handler. -/
def Warp.goOn (w : Warp) (now : Nat) : Warp :=
  match (w.stopClock now).trap with
  | some t => (w.stopClock now).tret t.ctl now
  | none => w.stopClock now

theorem goOn_keeps (w : Warp) (now : Nat) : (w.goOn now).trap = none ∧ (w.goOn now).card = w.card ∧ (w.goOn now).fflags = w.fflags
    ∧ (w.goOn now).fen = w.fen ∧ (w.goOn now).vms = w.vms ∧ (w.goOn now).regs = w.regs ∧ (w.goOn now).preds = w.preds := by
  unfold Warp.goOn
  split
  · next t _ =>
    obtain ⟨⟨ls, r, rs, hrest⟩, -⟩ := tret_spec (w.stopClock now) t.ctl now
    rw [hrest]
    exact ⟨rfl, rfl, rfl, rfl, rfl, rfl, rfl⟩
  · next h => exact ⟨h, rfl, rfl, rfl, rfl, rfl, rfl⟩

/-- The warps of the block go on. -/
def goOnIn (bk now : Nat) (x : Nat × Warp) : Nat × Warp := if x.2.blk == bk then (x.1, x.2.goOn now) else x

theorem finishRestore_waits {s : State} {bk : Nat} {b : Block} (hb : s.blk? bk = some b) (hx : ∃ x ∈ b.saved, x.1 ∉ b.resumed) :
    s.finishRestore bk = s := by
  obtain ⟨x, hmem, hnot⟩ := hx
  have hany : b.saved.any (fun x => !b.resumed.contains x.1) = true := List.any_eq_true.mpr ⟨x, hmem, by simpa using hnot⟩
  unfold State.finishRestore
  rw [hb]
  simp only [hany, if_true]

/-- The block as its restore leaves it. -/
def Block.comeBack (b : Block) : Block :=
  { b with state := .running, saved := [], resumed := [], wires := [], log := [], frame := 0, warpno := [], vq := b.away ++ b.vq,
           gslots := b.awayGs, away := [], awayGs := [], awayTickets := [] }

/-- The grid's part of a restore, the marks in its ring, the replay of tickets and the judging of barriers leave the block standing. -/
theorem restore_stands (s : State) {bk gk off : Nat} {G : Grid → Grid} {bs : List Byte} {vec : VC} {ring : List Nat} {items : List (Nat × Nat × LogItem)}
    (hitems : ∀ x ∈ items, ∃ t, x.2.2 = .ticket t) :
    let u := items.foldl (fun s x => s.replayItem bk x.2.2) (ring.foldl (fun s i => s.ringWrite 4 gk i off bs vec) (s.modGrid gk G))
    Standing bk s (((u.blk? bk).map (fun b => (b.bars.map Prod.fst).foldl (fun s n => s.barCheck bk n) u)).getD u) := by
  intro u
  have hu : Standing bk s u := by
    refine (Standing.of_eq rfl rfl : Standing bk s (s.modGrid gk G)).trans (.trans (.foldl ring (fun x i _ => ringWrite_stands x bk 4 gk i off bs vec) _)
      (.foldl items (fun x a ha => ?_) _))
    obtain ⟨t, ht⟩ := hitems a ha
    rw [ht]
    exact ticket_stands x bk t
  cases hb : u.blk? bk with
  | none => exact hu
  | some b => exact hu.trans (.foldl _ (fun x n _ => barCheck_stands x bk n) u)

theorem finishRestore_runs {s : State} {bk : Nat} {b : Block} (hb : s.blk? bk = some b) (hall : ∀ x ∈ b.saved, x.1 ∈ b.resumed)
    (hwires : b.wires = []) (hq : ∀ x ∈ s.breqs, x.blk ≠ bk) :
    (s.finishRestore bk).warps = s.warps.map (goOnIn bk s.tsc)
      ∧ ∃ b', (s.finishRestore bk).blk? bk = some b' ∧ b'.state = .running ∧ b'.saved = [] := by
  have hany : ¬ b.saved.any (fun x => !b.resumed.contains x.1) = true := by
    rw [Bool.not_eq_true]
    exact List.any_eq_false.mpr (fun x hx => by simpa using hall x hx)
  have htail : Standing bk ((State.hubSync { s with warps := s.warps.map (goOnIn bk s.tsc) } bk).modBlock bk Block.comeBack) (s.finishRestore bk) := by
    unfold State.finishRestore
    simp only [hb]
    rw [if_neg hany]
    exact restore_stands _ (logItems_tickets hwires hq)
  obtain ⟨hwarps, b1, hb1⟩ := hubSync_blk (s := { s with warps := s.warps.map (goOnIn bk s.tsc) }) hb
  obtain ⟨b2, hb2, hrun, hsaved⟩ := htail.2 _ ((blk_modBlock_of hb1 _ bk).trans (if_pos rfl))
  exact ⟨htail.1.trans hwarps, b2, hb2, hrun, hsaved⟩

/-- The warp that has executed RESUME, with what its saved state gives back. -/
def Warp.resume (w old : Warp) : Warp :=
  { w with wait := .resumed, card := old.card, cardClk := old.cardClk, cardWho := old.cardWho, fflags := old.fflags, fen := old.fen, vms := old.vms }

theorem doResume_spec {s : State} {k : Nat} {w old : Warp} {b : Block} (hw : tget s.warps k = some w) (hb : s.blk? w.blk = some b)
    (hold : tget b.saved w.wid = some old) (hwires : b.wires = []) (hq : ∀ x ∈ s.breqs, x.blk ≠ w.blk) :
    ((∃ x ∈ b.saved, x.1 ≠ w.wid ∧ x.1 ∉ b.resumed) → tget (s.doResume k).warps k = some (w.resume old))
      ∧ ((∀ x ∈ b.saved, x.1 = w.wid ∨ x.1 ∈ b.resumed) → tget (s.doResume k).warps k = some ((w.resume old).goOn s.tsc)
          ∧ ∃ b', (s.doResume k).blk? w.blk = some b' ∧ b'.state = .running ∧ b'.saved = []) := by
  have hdo : s.doResume k = ((s.modWarp k (fun w => w.resume old)).modBlock w.blk (fun b => { b with resumed := w.wid :: b.resumed })).finishRestore w.blk := by
    unfold State.doResume
    rw [hw]
    simp only [hb, Option.bind_some, hold]
    rfl
  rw [hdo]
  generalize hs1 : (s.modWarp k (fun w => w.resume old)).modBlock w.blk (fun b => { b with resumed := w.wid :: b.resumed }) = s1
  have hw1 : tget s1.warps k = some (w.resume old) := by
    subst hs1
    show tget (tmod s.warps k _) k = _
    rw [tget_tmod_self, hw]
    rfl
  have hb1 : s1.blk? w.blk = some { b with resumed := w.wid :: b.resumed } := by
    subst hs1
    exact (blk_modBlock_of (s := s.modWarp k (fun w => w.resume old)) hb _ w.blk).trans (if_pos rfl)
  have hq1 : s1.breqs = s.breqs := by subst hs1; rfl
  have ht1 : s1.tsc = s.tsc := by subst hs1; rfl
  refine ⟨fun ⟨x, hx, hne, hnot⟩ => ?_, fun hall => ?_⟩
  · rw [finishRestore_waits hb1 ⟨x, hx, by simp [hne, hnot]⟩]
    exact hw1
  · obtain ⟨hwarps, hrun⟩ := finishRestore_runs hb1 (fun x hx => List.mem_cons.mpr (hall x hx)) hwires (hq1 ▸ hq)
    refine ⟨?_, hrun⟩
    have hkey : ∀ x, (goOnIn w.blk s1.tsc x).1 = x.1 := fun x => by unfold goOnIn; split <;> rfl
    have hblk : ((w.resume old).blk == w.blk) = true := beq_self_eq_true _
    rw [hwarps, tget_map hkey hw1]
    simp only [goOnIn, hblk, if_true, ht1]

theorem exec_resume {s : State} {h : Hdr} {v : View} (hi : Issues s h (.resume h) v) (hact : v.act ≠ 0) (hpre : v.w.preemptEntry = some true)
    (hd : v.w.drained (fun _ => false) = true) :
    exec (.resume h) s = .next { s.doResume v.key with issueCount := (s.doResume v.key).issueCount + 1 } := by
  have hne : (v.act != 0) = true := by simpa using hact
  show execResume h s = _
  unfold execResume
  exact issue_stay hi.view hi.goes hi.calm (by
    simp only [hne, hpre, hd, BEq.rfl, Bool.and_self, Bool.not_true, Bool.false_eq_true, if_false, if_true])

/- The obligation. -/

theorem tret_clause (h : Hdr) (s : State) (v : View) (hi : Issues s h (.tret h) v) :
    match v.w.trap with
    | none => ∃ t, exec (.tret h) s = .next t ∧ Passes s v v.w (fun _ => v.next) t
    | some r =>
      if v.act = 0 then ∃ t, exec (.tret h) s = .next t ∧ Passes s v v.w (fun _ => v.next) t
      else (∀ o ∈ v.w.ops, o.done = true ∨ o.fault ≠ none) → v.w.half = none →
        ∃ t w, exec (.tret h) s = .next t ∧ tget t.warps v.key = some w ∧ (∀ j, j ≠ v.key → tget t.warps j = tget s.warps j)
          ∧ w.trap = none ∧ w.pcs = r.ctl.pcs ∧ w.cstack = r.ctl.cstack ∧ w.lwait = r.ctl.lwait ∧ w.wait = r.ctl.wait
          ∧ (r.ctl.reps = [] → (∀ p, r.ctl.rep = some p → p.grp &&& w.live ≠ 0) → w.rep = r.ctl.rep)
          ∧ w.ops = r.ctl.ops ∧ w.hist = r.ctl.hist ∧ w.replay = r.ctl.replay ∧ w.count = r.ctl.count ∧ w.pre = [] ∧ w.inLoop = false
          ∧ (∀ l e, l < 32 → v.w.laneAt l ≠ .idle → nth r.ctl.lanes l .vacant = .on e → w.laneAt l = .on e)
          ∧ (∀ l, l < 32 → v.w.laneAt l = .idle → w.laneAt l = .idle)
          ∧ w.regs = v.w.regs ∧ w.preds = v.w.preds ∧ w.fflags = v.w.fflags ∧ w.fen = v.w.fen ∧ w.vms = v.w.vms ∧ w.card = v.w.card
          ∧ (∀ d a, t.storeByte d a = s.storeByte d a) := by
  split
  · next ht =>
    exact issue_nothing (eff := fun v s => _) hi (by simp only [ht])
  · next r ht =>
    split
    · next hact => exact issue_nothing (eff := fun v s => _) hi (by simp only [ht, hact, BEq.rfl, if_true])
    · next hact =>
      intro ho hh
      obtain ⟨t, ht', honly, hself, hothers⟩ := exec_tret_back hi ht hact (hi.drained ho hh)
      obtain ⟨⟨ls, p, ps, hrest⟩, hstays, hrep⟩ := tret_spec v.w r.ctl s.tsc
      have hlane : ∀ {l}, l < 32 → (v.w.restore r.ctl s.tsc).laneAt l ≠ .held →
          (v.w.tret r.ctl s.tsc).laneAt l = if v.w.laneAt l = .idle then .idle else nth r.ctl.lanes l .vacant :=
        fun hl hne => (hstays _ hl hne).trans (laneAt_restore v.w r.ctl s.tsc hl)
      refine ⟨t, v.w.tret r.ctl s.tsc, ht', hself, hothers, by rw [hrest]; rfl, by rw [hrest]; rfl, by rw [hrest]; rfl, by rw [hrest]; rfl,
        by rw [hrest]; rfl, hrep, by rw [hrest]; rfl, by rw [hrest]; rfl, by rw [hrest]; rfl, by rw [hrest]; rfl, by rw [hrest]; rfl,
        by rw [hrest]; rfl, fun l e hl hlive hon => ?_, fun l hl hidle => ?_, by rw [hrest]; rfl, by rw [hrest]; rfl, by rw [hrest]; rfl,
        by rw [hrest]; rfl, by rw [hrest]; rfl, by rw [hrest]; rfl, fun d a => by rw [honly]; rfl⟩
      · rw [hlane hl (by rw [laneAt_restore _ _ _ hl, if_neg hlive, hon]; nofun), if_neg hlive, hon]
      · rw [hlane hl (by rw [laneAt_restore _ _ _ hl, if_pos hidle]; nofun), if_pos hidle]

/-- Settles O20: TRET puts back the record's control state, where a held thread that re-enters is the only one whose place may
differ from the record's; a YIELD leaves its warp waiting; and the end of a restore, after the last RESUME, is followed through
the replay of a log without arrivals and views. -/
theorem returnYieldAndResume : Obligations.ReturnYieldAndResume := by
  refine ⟨tret_clause, fun h s v => ⟨fun hi => ?_, fun hi => ?_⟩⟩
  · split
    · next hno =>
      refine issue_nothing (eff := fun v s => _) hi ?_
      rcases hno with hact | hpre
      · simp only [hact, BEq.rfl, if_true]
      · have : (v.w.preemptEntry == some false) = false := by simpa using hpre
        simp only [this, Bool.false_eq_true, if_false, ite_self]
    · next hyes =>
      intro hadm hhq hback ho hh hva
      obtain ⟨hact, hpre⟩ := not_or.mp hyes
      obtain ⟨t, ht, hself⟩ := exec_yield hi hact (not_not.mp hpre) hadm hhq hback (hi.drained ho hh) hva
      exact ⟨t, _, ht, hself, rfl, rfl, rfl, rfl⟩
  · split
    · next hno =>
      refine issue_nothing (eff := fun v s => _) hi ?_
      have : (v.act != 0 && v.w.preemptEntry == some true) = false := by
        rcases hno with hact | hpre
        · simp [hact]
        · simp [hpre]
      simp only [this, Bool.false_eq_true, if_false]
    · next hyes =>
      intro old hold hwires hq ho hh
      obtain ⟨hact, hpre⟩ := not_or.mp hyes
      obtain ⟨-, -, -, hw, -, -, -, -, hbk, hb, -⟩ := view_spec hi.view
      have hrun := exec_resume hi hact (not_not.mp hpre) (hi.drained ho hh)
      obtain ⟨hwaits, hruns⟩ := doResume_spec hw (hbk ▸ hb) hold hwires (hbk ▸ hq)
      by_cases hlast : ∀ x ∈ v.b.saved, x.1 = v.w.wid ∨ x.1 ∈ v.b.resumed
      · obtain ⟨hself, b', hb', hstate, hsaved⟩ := hruns hlast
        obtain ⟨htrap, hcard, hff, hfen, hvms, hregs, hpreds⟩ := goOn_keeps (v.w.resume old) s.tsc
        refine ⟨_, _, hrun, hself, hcard, hff, hfen, hvms, hregs, hpreds, fun ⟨x, hx, hne, hnot⟩ => absurd (hlast x hx) (by simp [hne, hnot]),
          fun _ _ => ⟨htrap, b', hbk ▸ hb', hstate, hsaved⟩⟩
      · have hsome : ∃ x ∈ v.b.saved, x.1 ≠ v.w.wid ∧ x.1 ∉ v.b.resumed := by
          simpa only [not_forall, not_or, exists_prop] using hlast
        exact ⟨_, _, hrun, hwaits hsome, rfl, rfl, rfl, rfl, rfl, rfl, fun _ => ⟨rfl, rfl⟩, fun hall => absurd hall hlast⟩

end Sys2Proof.Machine
end

