-- ==== Sys2Proof/Proofs/Faulting.lean ====
section
/-! PROOF, of O17. Transfers and accesses that take no effect but their trap (07 R126, R139), an EXIT too early (01 R29), and
DOUBLE_FAULT (13 R225, R226). -/

namespace Sys2Proof.Machine

/- The lowest active lane comes first. -/

theorem lanes_low {v : View} (hact : v.act ≠ 0) : ∃ ls, v.lanes = v.low :: ls := by
  have hmem : v.low ∈ v.lanes := (mem_lanesOf v.act v.low).mpr (lowest_has hact)
  rw [View.low, lowest, show lanesOf v.act = v.lanes from rfl] at *
  cases hl : v.lanes with
  | nil => rw [hl] at hmem; exact absurd hmem List.not_mem_nil
  | cons l ls => exact ⟨ls, rfl⟩

/-- What the lowest active lane has comes before what the others have. -/
theorem low_first {α : Type} {v : View} (hact : v.act ≠ 0) {f : Nat → Option α} {y : α} (hf : f v.low = some y) :
    (v.lanes.filterMap f).head? = some y := by
  obtain ⟨ls, hls⟩ := lanes_low hact
  rw [hls, List.filterMap_cons_some hf, List.head?_cons]

/- Causes of a transfer. -/

theorem targetCause_none (v : View) (t : W64) (l : Nat) : v.targetCause .none t l =
    if t.toNat / 2 ^ 57 ≠ 0 then some (.badPath, t) else if t.toNat % 4 ≠ 0 ∨ t.toNat % 32 = 28 then some (.misaligned, t) else none := by
  have h57 : field t.toNat 57 7 = t.toNat / 2 ^ 57 := by
    have := t.isLt
    rw [field_eq]
    omega
  unfold View.targetCause
  rw [h57]
  simp only [bne_iff_ne, Bool.or_eq_true, beq_iff_eq]
  rfl

theorem targetCause_push (v : View) (t : W64) (l : Nat) : v.targetCause .push t l =
    if 32 ≤ (nth v.w.cstack l []).length then some (.trapInstr, 512) else v.targetCause .none t l := by
  unfold View.targetCause
  simp only [beq_self_eq_true, Bool.true_and, decide_eq_true_eq]
  rfl

theorem targetCause_pop (v : View) (t : W64) (l : Nat) : v.targetCause .pop t l =
    if (nth v.w.cstack l []).length = 0 then some (.trapInstr, 513) else v.targetCause .none t l := by
  unfold View.targetCause
  simp only [beq_self_eq_true, Bool.true_and, beq_iff_eq]
  rfl

/-- A transfer whose lowest active lane has a bad target takes no effect. -/
theorem transfer_raises {s : State} {h : Hdr} {i : Instr} {v : View} {c : CallOp} {target : View → Nat → W64} (hi : Issues s h i v)
    (hact : v.act ≠ 0) {k : Cause} {a : W64} (hc : v.targetCause c (target v v.low) v.low = some (k, a)) (hk : k ≠ .trapInstr) :
    transfer s h i c target = .next (s.raise v k v.grp a none) := by
  have hfirst := low_first hact (f := fun l => v.targetCause c (target v l) l) hc
  unfold transfer
  rw [issue_goes hi.view hi.goes]
  simp only [hfirst]
  rfl

/-- A call stack that is full, or empty at a return, traps after the instruction. -/
theorem transfer_after {s : State} {h : Hdr} {i : Instr} {v : View} {c : CallOp} {target : View → Nat → W64} (hi : Issues s h i v)
    (hact : v.act ≠ 0) {a : W64} (hc : v.targetCause c (target v v.low) v.low = some (.trapInstr, a)) :
    transfer s h i c target = .next (s.raise v .trapInstr v.grp a (some v.next)) := by
  have hfirst := low_first hact (f := fun l => v.targetCause c (target v l) l) hc
  unfold transfer
  rw [issue_goes hi.view hi.goes]
  simp only [hfirst]
  rfl

/-- A cause raised at a group outside a handler, once the warp has drained. -/
theorem raise_enters {s : State} {h : Hdr} {i : Instr} {v : View} (hi : Issues s h i v) (ht : v.w.trap = none) (hr : v.w.rep = none)
    (hhalf : v.w.half = none) (hh : v.g.rec_.handler ≠ 0) (hd : ∀ o ∈ v.w.ops, o.done = true) {c : Cause} (hc : c ≠ .debugHalt) (mask : Mask) (addr : W64) :
    TrapsTo s v v.pc c mask addr (s.raise v c mask addr none) := by
  obtain ⟨-, -, -, hw, -, -, -, -, hbk, hb, hgk, hg⟩ := view_spec hi.view
  have hb' : (s.stand v (v.pendFor c mask addr none)).blk? v.w.blk = some v.b := hbk ▸ hb
  have hg' : tget s.grids v.b.grid = some v.g := hgk ▸ hg
  rw [raise_stand hr, stand_drained hi hw hb hg hr hhalf hd, ht, Option.isSome_none, if_neg Bool.false_ne_true,
    pendTrap_enters (s := s.stand v (v.pendFor c mask addr none)) (w := { v.w with pend := some (v.pendFor c mask addr none) })
      (p := v.pendFor c mask addr none) hb' hg' rfl hc hh]
  refine ⟨_, _, tget_tput_self _ _ _, fun j hj => ?_, rfl, rfl, rfl, rfl, rfl, rfl, rfl, rfl, rfl, fun l hl => handlerEntry_spec _ _ _ _ l hl, fun _ _ => rfl⟩
  show tget (tput (tmod s.warps v.key _) v.key _) j = _
  rw [tget_tput_ne _ _ hj, tget_tmod_ne _ _ hj]

/-- The same for a cause that comes after its instruction. -/
theorem after_traps {s : State} {h : Hdr} {i : Instr} {v : View} (hi : Issues s h i v) (hs : Stands s h v) {c : Cause} (hc : c ≠ .debugHalt)
    (mask : Mask) (addr : W64) : TrapsTo s v v.next c mask addr (s.raise v c mask addr (some v.next)) := by
  obtain ⟨ht, hr, -, hhalf⟩ := hs.fresh
  obtain ⟨w, r, hself, hothers, htrap, hcause, hpc, hwin, hmask, haddr, hiter, -, hlanes, hregs, hpreds, -, -, -, -, -, -, hmem⟩ :=
    after_enters hi ht hr hhalf hs.handler (fun o ho => (hs.drained o ho).1) hc mask addr
  exact ⟨w, r, hself, hothers, htrap, hcause, hpc, hwin, hmask, haddr, hiter, hregs, hpreds, hlanes, hmem⟩

/- Faults of an access at issue. -/

/-- The lowest active lane's fault is the one that counts. -/
theorem firstFault_low {s : State} {v : View} (hact : v.act ≠ 0) {k : AccKind} {scope : Scope} {n need : Nat} {va : Nat → W64} {f : LaneFault}
    (h : s.laneFault v k scope n need (va v.low) = some f) : s.firstFault v k scope n need va = some f := low_first hact h

theorem laneFault_path {s : State} {v : View} {k : AccKind} {scope : Scope} {n need : Nat} {va : W64} {c : Cause}
    (h : pathCause k (v.g.rec_.feature 3) va = some c) : s.laneFault v k scope n need va = some (.cause c va) := by
  simp only [State.laneFault, State.preCheck, h]

/-- An aligned access of an allowed path and in range has the faults of its page. -/
theorem laneFault_aligned {s : State} {v : View} {k : AccKind} {scope : Scope} {n need : Nat} {va : W64}
    (h : pathCause k (v.g.rec_.feature 3) va = none) (hn : va.toNat % n = 0) (hr : s.rangeCause v scope va n = none) :
    s.laneFault v k scope n need va = s.xlatFault v need va := by
  simp only [State.laneFault, State.preCheck, h, hn, hr, bne_self_eq_false, Bool.false_eq_true, if_false]

theorem pathOf_eq (va : W64) : pathOf va = va.toNat / 2 ^ 60 := by rw [pathOf, Nat.shiftRight_eq_div_pow]

theorem globalOk_iff (va : W64) : globalOk va = true ↔ va.toNat / 2 ^ 57 % 8 = 0 := by rw [globalOk, field_eq, beq_iff_eq]; rfl

theorem scratchOk_iff (va : W64) : scratchOk va = true ↔ va.toNat / 2 ^ 32 % 2 ^ 28 = 0 := by rw [scratchOk, field_eq, beq_iff_eq]

/-- The paths a load may not take. -/
theorem pathCause_load {w : Width} {f : Bool} {va : W64} (h : pathOf va ∉ [0, 1, 2, 8, 10] ∨ (pathOf va < 3 ∧ globalOk va = false) ∨ (pathOf va = 8 ∧ scratchOk va = false)) :
    pathCause (.ld w) f va = some .badPath := by
  simp only [pathCause]
  generalize pathOf va = p at *
  rcases h with h | ⟨h, hg⟩ | ⟨rfl, hs⟩
  · simp only [List.mem_cons, List.not_mem_nil, or_false, not_or] at h
    obtain ⟨h0, h1, h2, h8, h10⟩ := h
    split <;> simp_all
  · interval_cases p <;> simp [hg]
  · simp [hs]

theorem pathCause_load_global {w : Width} {f : Bool} {va : W64} (hp : pathOf va < 3) (hg : globalOk va = true) : pathCause (.ld w) f va = none := by
  unfold pathCause
  generalize pathOf va = p at *
  interval_cases p <;> simp [hg]

theorem pathCause_load_pad {w : Width} {f : Bool} {va : W64} (hp : pathOf va = 8) (hs : scratchOk va = true) : pathCause (.ld w) f va = none := by
  simp [pathCause, hp, hs]

theorem pathCause_store_global {f : Bool} {va : W64} (hp : pathOf va < 3) (h1 : pathOf va ≠ 1) (hg : globalOk va = true) : pathCause .st f va = none := by
  unfold pathCause
  generalize pathOf va = p at *
  interval_cases p <;> simp_all

theorem pathCause_atomic {f : Bool} {va : W64} (hp : pathOf va = 1 ∨ pathOf va = 9 ∨ pathOf va = 10) : pathCause .atomic f va = some .atomicPath := by
  rcases hp with h | h | h <;> simp [pathCause, h]

theorem rangeCause_global {s : State} {v : View} {scope : Scope} {va : W64} {n : Nat} (hp : pathOf va < 3) : s.rangeCause v scope va n = none := by
  unfold State.rangeCause
  generalize pathOf va = p at *
  interval_cases p <;> rfl

theorem isGlobal_lt {p : Nat} (hp : p < 3) : isGlobal p = true := by interval_cases p <;> rfl

/-- A load whose lowest active lane may not make its access takes no effect but the trap. -/
theorem load_traps {s : State} {h : Hdr} {m : MW} {d a : W9} {off : Option W32} {x : Option MemX} {v : View} (hi : Issues s h (.ld h m d a off x) v)
    (hs : Stands s h v) (hact : v.act ≠ 0) {c : Cause} {addr : W64} (hc : c ≠ .debugHalt)
    (hpre : s.preCheck v (.ld m.w) (memX x).scope (widthBytes m.w) (v.addr a off v.low) = some (c, addr)) :
    Traps (.ld h m d a off x) s v c addr := by
  have hfault : s.laneFault v (.ld m.w) (memX x).scope (widthBytes m.w) needRD (v.addr a off v.low) = some (.cause c addr) := by
    simp only [State.laneFault, hpre]
  have hearly : v.lanes.any (fun l => (s.preCheck v (.ld m.w) (memX x).scope (widthBytes m.w) (v.addr a off l)).isSome) = true :=
    List.any_eq_true.mpr ⟨v.low, (mem_lanesOf v.act v.low).mpr (lowest_has hact), by rw [hpre]; rfl⟩
  refine ⟨_, ?_, raise_traps hs hc v.grp addr⟩
  show execLd h m d a off x s = _
  unfold execLd
  simp only
  rw [issue_goes hi.view hi.goes]
  simp only [hearly, if_true, firstFault_low hact (va := v.addr a off) hfault, State.onFault, State.finish]

theorem store_traps {s : State} {h : Hdr} {sz : Width} {a b : W9} {cm : W8} {off : Option W32} {x : Option MemX} {v : View}
    (hi : Issues s h (.st h sz a b cm off x) v) (hs : Stands s h v) (hact : v.act ≠ 0) {c : Cause} {addr : W64} (hc : c ≠ .debugHalt)
    (hf : s.laneFault v .st (memX x).scope (widthBytes sz) needW (v.addr a off v.low) = some (.cause c addr)) :
    Traps (.st h sz a b cm off x) s v c addr := by
  obtain ⟨-, -, -, hhalf⟩ := hs.fresh
  refine ⟨_, ?_, raise_traps hs hc v.grp addr⟩
  show execSt h sz a b cm off x s = _
  unfold execSt
  simp only
  rw [issue_goes hi.view hi.goes]
  simp only [hhalf, Option.isSome_none, Bool.false_eq_true, if_false, firstFault_low hact (va := v.addr a off) hf, State.onFault, State.finish]

theorem atom_traps {s : State} {h : Hdr} {op : AOp} {d a b : W9} {off : Option W32} {x : Option MemX} {v : View}
    (hi : Issues s h (.atom h op d a b off x) v) (hs : Stands s h v) (hact : v.act ≠ 0) {c : Cause} {addr : W64} (hc : c ≠ .debugHalt)
    (hf : s.laneFault v .atomic (memX x).scope (if op.is64 then 8 else 4) (needRD + needW) (v.addr a off v.low) = some (.cause c addr)) :
    Traps (.atom h op d a b off x) s v c addr := by
  refine ⟨_, ?_, raise_traps hs hc v.grp addr⟩
  show execAtom h op d a b off x s = _
  unfold execAtom atomic
  simp only
  rw [issue_goes hi.view hi.goes]
  simp only [firstFault_low hact (va := v.addr a off) hf, State.onFault, State.finish]

/- The end of a block under DOUBLE_FAULT. -/

/-- Of the dies nothing changes, and a grid that ends with an error still does. -/
def KeepsErr (s t : State) : Prop :=
  t.dies = s.dies ∧ ∀ gk g, tget s.grids gk = some g → ∃ g', tget t.grids gk = some g' ∧ (g.err = true → g'.err = true)

theorem KeepsErr.of_eq {s t : State} (hd : t.dies = s.dies) (hg : t.grids = s.grids) : KeepsErr s t :=
  ⟨hd, fun _ g h => ⟨g, by rw [hg]; exact h, id⟩⟩

theorem KeepsErr.trans {s t u : State} (h1 : KeepsErr s t) (h2 : KeepsErr t u) : KeepsErr s u := by
  refine ⟨h2.1.trans h1.1, fun gk g hg => ?_⟩
  obtain ⟨g1, hg1, he1⟩ := h1.2 gk g hg
  obtain ⟨g2, hg2, he2⟩ := h2.2 gk g1 hg1
  exact ⟨g2, hg2, he2 ∘ he1⟩

theorem KeepsErr.foldl {α : Type} {f : State → α → State} (hf : ∀ x a, KeepsErr x (f x a)) (as : List α) (s : State) : KeepsErr s (as.foldl f s) := by
  induction as generalizing s with
  | nil => exact .of_eq rfl rfl
  | cons a as ih => exact (hf s a).trans (ih _)

theorem modGrid_keepsErr (s : State) (k : Nat) {f : Grid → Grid} (hf : ∀ g, g.err = true → (f g).err = true) : KeepsErr s (s.modGrid k f) := by
  refine ⟨rfl, fun gk g hg => ?_⟩
  show ∃ g', tget (tmod s.grids k f) gk = some g' ∧ _
  rw [tget_tmod, hg]
  split
  · exact ⟨f g, rfl, hf g⟩
  · exact ⟨g, rfl, id⟩

theorem barCheck_keepsErr (s : State) (bk n : Nat) : KeepsErr s (s.barCheck bk n) := by
  cases hb : s.blk? bk with
  | none => exact .of_eq (by unfold State.barCheck; rw [hb]) (by unfold State.barCheck; rw [hb])
  | some b =>
    obtain ⟨honly, -⟩ := barCheck_blks (n := n) hb
    exact .of_eq (by rw [honly]) (by rw [honly])

theorem hubCheck_keepsErr (s : State) (gk n : Nat) : KeepsErr s (s.hubCheck gk n) := by
  have hmod : ∀ f, KeepsErr s (s.modHubBar gk n f) := fun f => modGrid_keepsErr s gk fun _ h => h
  unfold State.hubCheck
  split
  · exact .of_eq rfl rfl
  · simp only
    split
    · exact .of_eq rfl rfl
    · split
      · exact (hmod (fun r => { r with swapping := true })).trans (.of_eq rfl rfl)
      · exact (hmod BarSt.complete).trans (.of_eq rfl rfl)

theorem barRecheck_keepsErr (s : State) (gk : Nat) : KeepsErr s (s.barRecheck gk) := by
  have h1 := KeepsErr.foldl (f := fun s (x : Nat × Block) => (x.2.bars.map Prod.fst).foldl (fun s n => s.barCheck x.1 n) s)
    (fun s x => .foldl (fun s n => barCheck_keepsErr s x.1 n) _ s) (s.blocks.filter (fun x => x.2.grid == gk)) s
  unfold State.barRecheck
  simp only
  split
  · exact h1
  · exact h1.trans (.foldl (fun s n => hubCheck_keepsErr s gk n) _ _)

/-- Nothing but columns changes as a block leaves its core. -/
theorem noteLeft_cols (s : State) (core : Nat) : (s.noteEmpty core).noteMove core = { s with cols := ((s.noteEmpty core).noteMove core).cols } := by
  unfold State.noteMove State.noteEmpty
  simp only
  split <;> rfl

/-- What the end of a block does to the rest: the others of its grid are judged again, and its core may stand empty. -/
theorem finishBlock_eq {s : State} {bk : Nat} {b : Block} (hb : s.blk? bk = some b) (err : Bool) :
    ∃ cols, s.finishBlock bk err = { (({ s with blocks := tdel s.blocks bk, warps := s.warps.filter (fun x => x.2.blk != bk) } : State).modGrid b.grid
        (fun g => { g with clk := g.clk.join (s.blockClk bk b), err := g.err || err, frames := g.frames.filter (fun f => f.1 != bk) })).barRecheck b.grid
      with cols := cols } := by
  unfold State.finishBlock
  simp only [hb]
  split
  · rw [noteLeft_cols]
    exact ⟨_, rfl⟩
  · exact ⟨_, rfl⟩

theorem finishBlock_keepsErr (s : State) (bk : Nat) (err : Bool) : KeepsErr s (s.finishBlock bk err) := by
  cases hb : s.blk? bk with
  | none => exact .of_eq (by unfold State.finishBlock; rw [hb]) (by unfold State.finishBlock; rw [hb])
  | some b =>
    obtain ⟨cols, heq⟩ := finishBlock_eq hb err
    rw [heq]
    refine .trans ?_ (.trans (modGrid_keepsErr { s with blocks := tdel s.blocks bk, warps := s.warps.filter (fun x => x.2.blk != bk) } b.grid
      (f := fun g => { g with clk := g.clk.join (s.blockClk bk b), err := g.err || err, frames := g.frames.filter (fun f => f.1 != bk) })
      fun g hg => by rw [show g.err = true from hg]; rfl) (.trans (barRecheck_keepsErr _ b.grid) (.of_eq rfl rfl)))
    exact .of_eq rfl rfl

/-- The block and its one warp, k, still stand. -/
def Alone (bk k : Nat) (s : State) : Prop :=
  (∃ w, tget s.warps k = some w ∧ w.blk = bk) ∧ (∃ b, s.blk? bk = some b) ∧ ∀ x ∈ s.warps, x.2.blk = bk → x.1 = k

theorem tget_filter_some {α : Type} {t : Tbl α} {k : Nat} {v : α} {p : Nat × α → Bool} (h : tget t k = some v) (hp : p (k, v) = true) :
    tget (t.filter p) k = some v := by
  induction t with
  | nil => exact absurd h nofun
  | cons y t ih =>
    obtain ⟨j, u⟩ := y
    by_cases hj : j = k
    · subst hj
      obtain rfl : u = v := by simpa [tget] using h
      rw [List.filter_cons, if_pos hp, tget, if_pos rfl]
    · have h' : tget t k = some v := by simpa [tget, hj] using h
      rw [List.filter_cons]
      split
      · rw [tget, if_neg hj]; exact ih h'
      · exact ih h'

theorem finishBlock_alone {s : State} {bk k j : Nat} (h : Alone bk k s) (hj : j ≠ bk) (err : Bool) : Alone bk k (s.finishBlock j err) := by
  obtain ⟨⟨w, hw, hwb⟩, ⟨b, hb⟩, hall⟩ := h
  cases hbj : s.blk? j with
  | none => rw [show s.finishBlock j err = s by unfold State.finishBlock; rw [hbj]]; exact ⟨⟨w, hw, hwb⟩, ⟨b, hb⟩, hall⟩
  | some c =>
    obtain ⟨cols, heq⟩ := finishBlock_eq hbj err
    have hjudge := barRecheck_judges (({ s with blocks := tdel s.blocks j, warps := s.warps.filter (fun x => x.2.blk != j) } : State).modGrid c.grid
        (fun g => { g with clk := g.clk.join (s.blockClk j c), err := g.err || err, frames := g.frames.filter (fun f => f.1 != j) })) c.grid
    have hwarps := hjudge.warps
    obtain ⟨x, hx⟩ := hjudge.some (j := bk) (b := b) (by
      show tget (tdel s.blocks j) bk = _
      rw [tget_tdel, if_neg (Ne.symm hj)]
      exact hb)
    rw [heq]
    refine ⟨⟨w, ?_, hwb⟩, ⟨_, hx⟩, fun y hy => ?_⟩
    · refine (congrArg (tget · k) hwarps).trans (tget_filter_some hw ?_)
      simpa [hwb] using (Ne.symm hj)
    · have hy' : y ∈ s.warps.filter (fun x => x.2.blk != j) := (congrArg (y ∈ ·) hwarps).mp hy
      exact hall y (List.mem_filter.mp hy').1

theorem addAsync_blk (w : Warp) (c : Cause) (a : W64) : (w.addAsync c a).blk = w.blk := by
  unfold Warp.addAsync
  split <;> rfl

theorem notifyBlock_alone {s : State} {bk k : Nat} (h : Alone bk k s) (j : Nat) (c : Cause) (a : W64) : Alone bk k (s.notifyBlock j c a) := by
  obtain ⟨⟨w, hw, hwb⟩, hb, hall⟩ := h
  refine ⟨?_, hb, fun x hx => ?_⟩
  · show ∃ u, tget (s.warps.map _) k = some u ∧ _
    rw [tget_map (fun x => by split <;> rfl) hw]
    refine ⟨_, rfl, ?_⟩
    split
    · exact (addAsync_blk w c a).trans hwb
    · exact hwb
  · obtain ⟨y, hy, rfl⟩ := List.mem_map.mp hx
    split
    · exact fun hyb => hall y hy ((addAsync_blk y.2 c a).symm.trans hyb)
    · exact hall y hy

theorem killBlock_alone {s : State} {bk k : Nat} (h : Alone bk k s) (j : Nat) : Alone bk k (s.killBlock j) ∧ KeepsErr s (s.killBlock j) := by
  unfold State.killBlock
  split
  · exact ⟨h, .of_eq rfl rfl⟩
  · split
    · next hempty =>
      have hj : j ≠ bk := by
        rintro rfl
        obtain ⟨⟨w, hw, hwb⟩, -⟩ := h
        have hmem : (k, w) ∈ s.warpsOf j := List.mem_filter.mpr ⟨tget_mem hw, by simpa using hwb⟩
        rw [List.isEmpty_iff.mp hempty] at hmem
        exact absurd hmem List.not_mem_nil
      exact ⟨finishBlock_alone h hj true, finishBlock_keepsErr s j true⟩
    · refine ⟨notifyBlock_alone ?_ j _ _, .of_eq rfl rfl⟩
      obtain ⟨hw, ⟨b, hb⟩, hall⟩ := h
      refine ⟨hw, ?_, hall⟩
      rw [blk_modBlock, hb]
      split
      · exact ⟨_, rfl⟩
      · exact ⟨_, rfl⟩

theorem killBlocks_alone {bk k : Nat} (js : List Nat) {s : State} (h : Alone bk k s) :
    Alone bk k (js.foldl State.killBlock s) ∧ KeepsErr s (js.foldl State.killBlock s) := by
  induction js generalizing s with
  | nil => exact ⟨h, .of_eq rfl rfl⟩
  | cons j js ih =>
    obtain ⟨ha, hk⟩ := killBlock_alone h j
    obtain ⟨ha', hk'⟩ := ih ha
    exact ⟨ha', hk.trans hk'⟩

theorem warpGone_keepsErr (s : State) (k : Nat) (w : Warp) : KeepsErr s ((s.leaveIcinvs k w).warpGone k w) := by
  have h1 : KeepsErr s (s.leaveIcinvs k w) := by
    unfold State.leaveIcinvs
    split <;> exact .of_eq rfl rfl
  refine h1.trans ?_
  unfold State.warpGone
  simp only
  split
  · exact .of_eq rfl rfl
  · next b _ => exact .trans (t := { s.leaveIcinvs k w with warps := tdel (s.leaveIcinvs k w).warps k }) (.of_eq rfl rfl) (modGrid_keepsErr _ b.grid fun _ h => h)

/-- With the last warp the block ends. -/
theorem stopWarp_alone {s : State} {bk k : Nat} (h : Alone bk k s) :
    tget (s.stopWarp k).warps k = none ∧ (s.stopWarp k).blk? bk = none ∧ KeepsErr s (s.stopWarp k) := by
  obtain ⟨⟨w, hw, rfl⟩, -, hall⟩ := h
  obtain ⟨hwarps, -, -⟩ := warpGone_spec s k w
  have hkeeps := warpGone_keepsErr s k w
  unfold State.stopWarp
  simp only [hw]
  generalize (s.leaveIcinvs k w).warpGone k w = u at *
  have hempty : (u.warpsOf w.blk).isEmpty = true := by
    rw [List.isEmpty_iff, State.warpsOf, List.filter_eq_nil_iff, hwarps]
    intro x hx
    obtain ⟨hx, hne⟩ := mem_tdel.mp hx
    simpa using fun hb => hne (hall x hx hb)
  rw [if_pos hempty]
  exact ⟨finishBlock_warp (by rw [hwarps, tget_tdel, if_pos rfl]), finishBlock_gone u w.blk true, hkeeps.trans (finishBlock_keepsErr u w.blk true)⟩

/-- The end of a block outside cooperative and travel grids. -/
theorem endBlock_alone {s : State} {bk k : Nat} {w : Warp} {b : Block} {g : Grid} (h : Alone bk k s) (hw : tget s.warps k = some w) (hwb : w.blk = bk)
    (hb : s.blk? bk = some b) (hg : tget s.grids b.grid = some g) (hcoop : g.rec_.coop = false) (htravel : g.rec_.travel = false) :
    tget (s.endBlock k).warps k = none ∧ (s.endBlock k).blk? bk = none ∧ (s.endBlock k).dies = s.dies
      ∧ ∃ g', tget (s.endBlock k).grids b.grid = some g' ∧ g'.err = true := by
  subst hwb
  unfold State.endBlock
  simp only [hw, hb, hg, hcoop, htravel, Bool.or_self, Bool.false_eq_true, if_false]
  generalize (if b.isChild g = true then [w.blk] else (s.clusterOf b g.rec_).map Prod.fst) = js
  obtain ⟨halone, hkeeps⟩ := killBlocks_alone js h
  generalize js.foldl State.killBlock s = u at *
  obtain ⟨g1, hg1, -⟩ := hkeeps.2 b.grid g hg
  have hg2 : tget (u.modGrid b.grid (fun g => { g with err := true })).grids b.grid = some { g1 with err := true } := by
    show tget (tmod u.grids b.grid _) b.grid = _
    rw [tget_tmod_self, hg1]
    rfl
  obtain ⟨hgone, hblk, hkeeps'⟩ := stopWarp_alone (s := u.modGrid b.grid (fun g => { g with err := true })) halone
  obtain ⟨g3, hg3, herr⟩ := hkeeps'.2 b.grid _ hg2
  exact ⟨hgone, hblk, hkeeps'.1.trans hkeeps.1, g3, hg3, herr rfl⟩

/-- An event of a die changes only its log, and tells the host. -/
theorem logEvent_tells {s : State} {d : Nat} (hd : d < 4) (e : Event) :
    s.logEvent d e = { s with dies := (s.logEvent d e).dies, msix := (s.logEvent d e).msix }
      ∧ ((s.die d).log.length < 4096 → e ∈ ((s.logEvent d e).die d).log) := by
  constructor
  · obtain ⟨m, f, -, heq⟩ := logEvent_die s d e (by omega)
    rw [heq]
    rfl
  · intro hlen
    unfold State.logEvent
    rw [if_neg (by omega), if_pos (show (s.die d).log.length < Config.eventCap from hlen), die_modDie_self]
    exact List.mem_append_right _ (List.mem_singleton.mpr rfl)

theorem doubleFault_alone {s : State} {bk k : Nat} {w : Warp} {b : Block} {g : Grid} (h : Alone bk k s) (hw : tget s.warps k = some w) (hwb : w.blk = bk)
    (hb : s.blk? bk = some b) (hg : tget s.grids b.grid = some g) (hcoop : g.rec_.coop = false) (htravel : g.rec_.travel = false) (hcore : b.core < 256)
    (inner : Cause) (pc : W64) :
    tget (s.doubleFault k inner pc).warps k = none ∧ (s.doubleFault k inner pc).blk? bk = none
      ∧ (∃ g', tget (s.doubleFault k inner pc).grids b.grid = some g' ∧ g'.err = true)
      ∧ ((s.die (b.core / 64)).log.length < 4096 → Event.mk' s g.ctx b.core 0x84 (Cause.code .doubleFault) 0 (pc.toNat % 2 ^ 48 + inner.code * 2 ^ 48)
          ∈ ((s.doubleFault k inner pc).die (b.core / 64)).log) := by
  subst hwb
  obtain ⟨honly, hlog⟩ := logEvent_tells (s := s) (d := coreDie b.core) (by unfold coreDie; omega)
    (Event.mk' s g.ctx b.core 0x84 (Cause.code .doubleFault) 0 (pc.toNat % 2 ^ 48 + inner.code * 2 ^ 48))
  unfold State.doubleFault
  simp only [hw, hb, hg, Option.bind_some, Option.map_some]
  generalize s.logEvent (coreDie b.core) (Event.mk' s g.ctx b.core 0x84 (Cause.code .doubleFault) 0 (pc.toNat % 2 ^ 48 + inner.code * 2 ^ 48)) = u at *
  have hwarps : u.warps = s.warps := by rw [honly]
  have hblocks : u.blocks = s.blocks := by rw [honly]
  have hgrids : u.grids = s.grids := by rw [honly]
  obtain ⟨hgone, hblk, hdies, herr⟩ := endBlock_alone (s := { u with msix := s.msix ++ [(s.eventFn g.ctx, 0)] }) (bk := w.blk) (k := k) (w := w) (b := b) (g := g)
    (by unfold Alone State.blk?; rw [show State.warps { u with msix := s.msix ++ [(s.eventFn g.ctx, 0)] } = s.warps from hwarps, show State.blocks { u with msix := s.msix ++ [(s.eventFn g.ctx, 0)] } = s.blocks from hblocks]; exact h)
    (by rw [show State.warps { u with msix := s.msix ++ [(s.eventFn g.ctx, 0)] } = s.warps from hwarps]; exact hw) rfl
    (by unfold State.blk?; rw [show State.blocks { u with msix := s.msix ++ [(s.eventFn g.ctx, 0)] } = s.blocks from hblocks]; exact hb)
    (by rw [show State.grids { u with msix := s.msix ++ [(s.eventFn g.ctx, 0)] } = s.grids from hgrids]; exact hg) hcoop htravel
  refine ⟨hgone, hblk, herr, fun hlen => ?_⟩
  rw [State.die, hdies]
  exact hlog hlen

/- The obligation. -/

theorem brx_cause {v : View} {t : W64} (h : t.toNat / 2 ^ 57 ≠ 0 ∨ t.toNat % 4 ≠ 0 ∨ t.toNat % 32 = 28) (l : Nat) :
    v.targetCause .none t l = some (if t.toNat / 2 ^ 57 ≠ 0 then .badPath else .misaligned, t) := by
  rw [targetCause_none]
  split
  · rfl
  · next hlow => exact if_pos (h.resolve_left hlow)

theorem brx_badTarget {h : Hdr} {a : W9} {s : State} {v : View} (hi : Issues s h (.brx h a) v) (hact : v.act ≠ 0) (ht : v.w.trap = none)
    (hr : v.w.rep = none) (hh : v.g.rec_.handler ≠ 0) (hops : v.w.ops = []) (hhalf : v.w.half = none)
    (hbad : (v.w.rd64 a.toNat v.low).toNat / 2 ^ 57 ≠ 0 ∨ (v.w.rd64 a.toNat v.low).toNat % 4 ≠ 0 ∨ (v.w.rd64 a.toNat v.low).toNat % 32 = 28) :
    Traps (.brx h a) s v (if (v.w.rd64 a.toNat v.low).toNat / 2 ^ 57 ≠ 0 then .badPath else .misaligned) (v.w.rd64 a.toNat v.low) :=
  ⟨_, transfer_raises (target := fun v l => v.w.rd64 a.toNat l) hi hact (brx_cause hbad v.low) (by split <;> nofun),
    raise_enters hi ht hr hhalf hh (fun o ho => absurd (hops ▸ ho) List.not_mem_nil) (by split <;> nofun) v.grp _⟩

theorem exit_early {h : Hdr} {s : State} {v : View} (hi : Issues s h (.exit h) v) (hact : v.act ≠ 0) (ht : v.w.trap = none)
    (hr : v.w.rep = none) (hh : v.g.rec_.handler ≠ 0) (hops : v.w.ops = []) (hhalf : v.w.half = none)
    (hothers : (s.warpsOf v.bk).all (fun x => x.1 == v.key || x.2.live == 0) = true) (hall : v.w.live &&& ~~~ v.act = 0) (hmarks : v.b.marks = [])
    (hleft : v.b.eops ≠ [] ∨ v.b.tickets ≠ []) : ∃ t, exec (.exit h) s = .next t ∧ TrapsTo s v v.pc .exitOutstanding v.act 0 t := by
  have hnone : (s.warpsOf v.bk).any (fun x => x.1 != v.key && x.2.live != 0) = false := by
    rw [List.any_eq_false]
    intro x hx
    have := List.all_eq_true.mp hothers x hx
    simpa [or_iff_not_imp_left] using this
  have hlast : s.lastExit v = some (none, .exitOutstanding, 0) := by
    have hsome : (v.b.eops.isEmpty && v.b.tickets.isEmpty) = false := by
      rcases hleft with h | h <;> simp [h]
    simp only [State.lastExit, hnone, hall, hmarks, hsome, bne_self_eq_false, Bool.or_self, Bool.false_eq_true, if_false]
  have hne : (v.act == 0) = false := by simpa using hact
  refine ⟨_, ?_, raise_enters hi ht hr hhalf hh (fun o ho => absurd (hops ▸ ho) List.not_mem_nil) (c := .exitOutstanding) nofun v.act 0⟩
  show execExit h s = _
  unfold execExit
  rw [issue_goes hi.view hi.goes]
  simp only [hne, hops, hlast, List.any_nil, Bool.false_eq_true, if_false, State.finish]

theorem brx_doubleFault {h : Hdr} {a : W9} {s : State} {v : View} {r : TrapRec} (hi : Issues s h (.brx h a) v) (hact : v.act ≠ 0) (ht : v.w.trap = some r)
    (hr : v.w.rep = none) (hhalf : v.w.half = none) (hcore : v.b.core < 256) (hd : ∀ o ∈ v.w.ops, o.done = true)
    (hbad : (v.w.rd64 a.toNat v.low).toNat / 2 ^ 57 ≠ 0) (hcoop : v.g.rec_.coop = false) (htravel : v.g.rec_.travel = false)
    (hone : (s.warpsOf v.bk).all (fun x => x.1 == v.key) = true) :
    ∃ t g, exec (.brx h a) s = .next t ∧ tget t.warps v.key = none ∧ t.blk? v.bk = none ∧ tget t.grids v.gk = some g ∧ g.err = true
      ∧ ((s.die (v.b.core / 64)).log.length < 4096 → ∃ e ∈ (t.die (v.b.core / 64)).log, e.kind = 0x84 ∧ e.code = Cause.code .doubleFault
        ∧ e.ctx = v.g.ctx ∧ e.source = v.b.core ∧ e.detail = v.pc.toNat % 2 ^ 48 + Cause.code .badPath * 2 ^ 48) := by
  obtain ⟨-, -, -, hw, -, -, -, -, hbk, hb, hgk, hg⟩ := view_spec hi.view
  set p : Pend := v.pendFor .badPath v.grp (v.w.rd64 a.toNat v.low) none with hp
  have hw1 : tget (s.stand v p).warps v.key = some { v.w with pend := some p } := by
    rw [State.stand, modWarp_warps, tget_tmod_self, hw]; rfl
  have halone : Alone v.bk v.key (s.stand v p) := by
    refine ⟨⟨_, hw1, hbk.symm⟩, ⟨v.b, hb⟩, fun x hx hxb => ?_⟩
    by_contra hne
    have hold : x ∈ s.warpsOf v.bk := List.mem_filter.mpr ⟨(mem_tmod_ne hne).mp hx, by simpa using hxb⟩
    exact hne (by simpa using List.all_eq_true.mp hone x hold)
  have hrun : exec (.brx h a) s = .next ((s.stand v p).doubleFault v.key .badPath v.pc) := by
    have hraise := transfer_raises (target := fun v l => v.w.rd64 a.toNat l) hi hact (brx_cause (.inl hbad) v.low) (by split <;> nofun)
    rw [if_pos hbad, raise_stand hr, stand_drained hi hw hb hg hr hhalf hd, ht, Option.isSome_some, if_pos rfl] at hraise
    exact hraise
  obtain ⟨hgone, hblk, ⟨g, hg', herr⟩, hlog⟩ := doubleFault_alone halone hw1 hbk.symm hb (hgk ▸ hg) hcoop htravel hcore .badPath v.pc
  exact ⟨_, g, hrun, hgone, hblk, hgk ▸ hg', herr, fun hlen => ⟨_, hlog hlen, rfl, rfl, rfl, rfl, rfl⟩⟩

/-- Settles O17: the cause of the lowest active lane is the one raised, and it is raised before anything changes; in a handler
it ends the block. -/
theorem badTransfersAndExits : Obligations.BadTransfersAndExits := by
  refine ⟨fun h a s v hi hact ht hr hh hops hhalf _ hbad => ?_, fun h s v hi hact ht hr hh hops hhalf hothers hall hmarks hleft => ?_,
    fun h off a s v hs hact => ⟨fun hdeep => ⟨fun hi => ?_, fun hi => ?_⟩, fun hdeep hi => ?_⟩, fun h m sz op d a b cm off x s v hs hact => ?_,
    fun h a s v r hi hact ht hr hhalf _ _ hcore hd hbad hcoop htravel _ hone =>
      brx_doubleFault hi hact ht hr hhalf hcore (fun o ho => (hd o ho).1) hbad hcoop htravel hone⟩
  · obtain ⟨x, hx, w, r, hself, -, htrap, hcause, hpc, -, hmask, haddr, -, hregs, hpreds, hlanes, -⟩ := brx_badTarget hi hact ht hr hh hops hhalf hbad
    exact ⟨x, w, r, hx, hself, htrap, hregs, hpreds, hcause, hpc, hmask, haddr, fun l hl => (hlanes l hl).1⟩
  · obtain ⟨t, hx, w, r, hself, -, htrap, hcause, hpc, -, hmask, -, -, hregs, -, hlanes, -⟩ := exit_early hi hact ht hr hh hops hhalf hothers hall hmarks hleft
    exact ⟨t, w, r, hx, hself, htrap, hcause, hpc, hmask, hregs, fun l hl => by rw [live_laneAt (has_lt hl), (hlanes l hl).2]; rfl⟩
  · exact ⟨_, transfer_after (target := fun v _ => v.relative off) hi hact (by rw [targetCause_push, if_pos hdeep]), after_traps hi hs (c := .trapInstr) nofun v.grp 512⟩
  · exact ⟨_, transfer_after (target := fun v l => v.w.rd64 a.toNat l) hi hact (by rw [targetCause_push, if_pos hdeep]), after_traps hi hs (c := .trapInstr) nofun v.grp 512⟩
  · exact ⟨_, transfer_after (target := fun v l => (nth v.w.cstack l []).headD 0) hi hact (by rw [targetCause_pop, if_pos hdeep]), after_traps hi hs (c := .trapInstr) nofun v.grp 513⟩
  · intro va path n global ld st
    have hva : v.addr a off v.low = va := by cases off <;> rfl
    have hpath : pathOf va = path := pathOf_eq va
    have hglob : global → pathOf va < 3 ∧ globalOk va = true := fun hg => ⟨hpath.trans_lt hg.1, (globalOk_iff va).mpr hg.2⟩
    refine ⟨fun hi => ⟨fun hbad => load_traps hi hs hact nofun ?_, fun hg hal => load_traps hi hs hact nofun ?_,
      fun hp hpad hal hlong => load_traps hi hs hact nofun ?_⟩, fun hi hg h1 hal hx => store_traps hi hs hact nofun ?_,
      fun hi hp => atom_traps hi hs hact nofun ?_⟩
    · rw [hva, State.preCheck, pathCause_load]
      rw [hpath]
      refine hbad.imp_right (Or.imp (And.imp_right fun h => ?_) (And.imp_right fun h => ?_))
      · rwa [← Bool.not_eq_true, globalOk_iff]
      · rwa [← Bool.not_eq_true, scratchOk_iff]
    · have hne : (va.toNat % n != 0) = true := by simpa using hal
      rw [hva, State.preCheck, pathCause_load_global (hglob hg).1 (hglob hg).2]
      exact if_pos hne
    · have heq : (va.toNat % n != 0) = false := by simpa using hal
      have hf : field va.toNat 0 32 = va.toNat % 2 ^ 32 := by rw [field_eq, pow_zero, Nat.div_one]
      rw [hva, State.preCheck, pathCause_load_pad (hpath.trans hp) ((scratchOk_iff va).mpr hpad)]
      simp only [n] at heq
      simp only [heq, Bool.false_eq_true, if_false, State.rangeCause, hpath, hp, hf, if_neg (not_lt.mpr hlong)]
    · obtain ⟨hp, hok⟩ := hglob hg
      rw [hva, laneFault_aligned (pathCause_store_global hp (by rw [hpath]; exact h1) hok) hal (rangeCause_global hp)]
      simp only [State.xlatFault, isGlobal_lt hp, if_true, View.asker, vbits, hx]
    · rw [hva]
      exact laneFault_path (pathCause_atomic (by rw [hpath]; exact hp))

end Sys2Proof.Machine
end

