-- ==== Sys2Proof/Proofs/Tabling.lean ====
section
/-! SUPPORT, for O16. The split table of a warp stays in order as an instruction issues (01 R17): where it goes on, where it
traps, and where it goes back to instructions that did not complete (13 R222). -/

namespace Sys2Proof.Machine

/- The operations on a warp. -/

/-- In a handler every live thread stands on entry 0. -/
theorem handlerEntry_table (w : Warp) (t : TrapIn) (handler : W64) (now : Nat) : (w.handlerEntry t handler now).tableOk := by
  have hon {l e : Nat} (hl : l < 32) (h : (w.handlerEntry t handler now).laneAt l = .on e) : e = 0 ∧ (w.handlerEntry t handler now).pcAt l = handler := by
    cases hlive : has w.live l with
    | true =>
      obtain ⟨hpc, hlane⟩ := handlerEntry_spec w t handler now l hlive
      exact ⟨(LaneSt.on.inj (hlane.symm.trans h)).symm, hpc⟩
    | false =>
      have hlane : (w.handlerEntry t handler now).laneAt l = w.laneAt l :=
        (nth_map_range 32 (fun l => if has w.live l then LaneSt.on 0 else w.laneAt l) l .vacant hl).trans (if_neg (by rw [hlive]; exact Bool.false_ne_true))
      rw [live_laneAt hl, hlane.symm.trans h] at hlive
      exact absurd hlive nofun
  refine ⟨fun l e hl h => ?_, fun l k e f hl hk ha hb => ?_⟩
  · rw [(hon hl h).1]
    exact Nat.zero_lt_succ 7
  · rw [(hon hl ha).1, (hon hk hb).1, (hon hl ha).2, (hon hk hb).2]
    exact ⟨fun _ => rfl, fun _ => rfl⟩

/-- Threads at one PC join the entry that holds it, a free one, or none. -/
theorem place_table {w : Warp} {m : Mask} {q : W64} (h : w.tableOk) (hm : ∀ l, has m l = true → w.pcAt l = q) : (w.place m q).tableOk := by
  rw [tableOk_iff] at *
  unfold Warp.place
  split
  · next f hfind =>
    obtain ⟨k, hk, hkon, hkq⟩ := entryPc_some (by simpa using List.find?_some hfind)
    refine h.setOn (h.low k f hk hkon) hm (fun l hl _ hon => ?_) (fun l g hl _ hon hg hp => ?_) fun _ _ _ _ _ hg => hg
    · rw [h.one l k f hl hk hon hkon, hkq]
    · exact h.far l k g f hl hk hon hkon hg (h.low k f hk hkon).ne (hp.trans hkq.symm)
  · next hnone =>
    split
    · next f hfree =>
      obtain ⟨hf, hempty⟩ := freeEntry_some hfree
      refine h.setOn hf hm (fun l hl _ hon => absurd hon (hempty l hl)) (fun l g hl _ hon _ hp => ?_) fun _ _ _ _ _ hg => hg
      have hfind := List.find?_eq_none.mp hnone g (mem_entries.mpr ⟨h.low l g hl hon, l, hl, hon⟩)
      rw [h.entryPc hl hon, hp] at hfind
      exact absurd (beq_self_eq_true _) hfind
    · exact h.setOff nofun

theorem regroup_table {w : Warp} (h : w.tableOk) (m : Mask) (pc : W64) : (w.regroup m pc).tableOk := by
  have hoff := tableOk_iff.mpr ((tableOk_iff.mp h).setOff (m := m) (x := .held) nofun)
  have hpcs : ((w.setLanes m .held).setPcs m (fun _ => pc)).tableOk := by
    have hpc {l e : Nat} (hl : l < 32) (hon : (w.setLanes m .held).laneAt l = .on e) :
        ((w.setLanes m .held).setPcs m (fun _ => pc)).pcAt l = (w.setLanes m .held).pcAt l := by
      rw [laneAt_setLanes w m _ hl] at hon
      split at hon
      · exact absurd hon nofun
      · next hno => rw [setPcs_pcAt _ _ _ hl, if_neg hno]
    refine ⟨hoff.1, fun l k e f hl hk ha hb => ?_⟩
    rw [hpc hl ha, hpc hk hb]
    exact hoff.2 l k e f hl hk ha hb
  exact tableOk_iff.mpr (reenter_apart (tableOk_iff.mp (place_table hpcs fun l hl => (setPcs_pcAt _ m _ (has_lt hl)).trans (if_pos hl))))

/-- Counts, REPs and the executed order are no part of the table. -/
theorem tableOk_recounted {w : Warp} (h : w.tableOk) (c : List Nat) (r : Option RepSt) (rs : List RepSt) (hist replay : List Hist) :
    ({ w with count := c, rep := r, reps := rs, hist := hist, replay := replay } : Warp).tableOk := tableOk_congr rfl rfl h

theorem sendBack_table {w : Warp} (h : w.tableOk) (o : Op) (m : Mask) (keep : Op → Bool) : (w.sendBack o m keep).tableOk := by
  unfold Warp.sendBack
  exact tableOk_recounted (regroup_table h m _) _ _ _ _ _

/-- Threads that go back to what did not complete leave the table in order. -/
theorem rewind_table {w : Warp} (h : w.tableOk) (bad : List Op) (keep : Op → Bool) : (w.rewind bad keep).tableOk := by
  have hfold (os : List Op) : ∀ a : Warp × Mask, a.1.tableOk → (os.foldl (fun (a : Warp × Mask) o =>
      (if o.group &&& w.live &&& ~~~ a.2 = 0 then a.1 else a.1.sendBack o (o.group &&& w.live &&& ~~~ a.2) keep, a.2 ||| (o.group &&& w.live &&& ~~~ a.2))) a).1.tableOk := by
    induction os with
    | nil => exact fun _ h => h
    | cons o os ih =>
      refine fun a ha => ih _ ?_
      show (if _ then a.1 else _ : Warp).tableOk
      split
      · exact ha
      · exact sendBack_table ha o _ keep
  have h1 := hfold bad (w, 0) h
  unfold Warp.rewind
  simp only
  obtain ⟨-, -, hpcs, hlanes⟩ := nextRep_same { (bad.foldl (fun (a : Warp × Mask) o =>
      (if o.group &&& w.live &&& ~~~ a.2 = 0 then a.1 else a.1.sendBack o (o.group &&& w.live &&& ~~~ a.2) keep, a.2 ||| (o.group &&& w.live &&& ~~~ a.2))) (w, 0)).1
    with ops := w.ops.filter (fun x => !bad.any (fun o => o.id == x.id)) }
  exact tableOk_congr hlanes hpcs (tableOk_congr rfl rfl h1)

/- The state: the table of the warp at k. -/

/-- The warp at k, where there is one, has its table in order. -/
def TableAt (k : Nat) (s : State) : Prop := ∀ w, tget s.warps k = some w → w.tableOk

theorem TableAt.of_warps {k : Nat} {s t : State} (h : TableAt k s) (e : t.warps = s.warps) : TableAt k t := fun w hw => h w (e ▸ hw)

theorem TableAt.of_none {k : Nat} {t : State} (e : tget t.warps k = none) : TableAt k t := fun _ hw => absurd (e.symm.trans hw) nofun

theorem TableAt.of_tput {k : Nat} {s t : State} {w : Warp} (hw : w.tableOk) (e : t.warps = tput s.warps k w) : TableAt k t := by
  intro x hx
  rw [e, tget_tput_self] at hx
  exact Option.some.inj hx ▸ hw

theorem TableAt.modWarp {k : Nat} {s : State} (h : TableAt k s) (j : Nat) {f : Warp → Warp} (hf : ∀ w, w.tableOk → (f w).tableOk) : TableAt k (s.modWarp j f) := by
  intro x hx
  rw [modWarp_warps, tget_tmod] at hx
  split at hx
  · obtain ⟨w, hw, rfl⟩ := Option.map_eq_some_iff.mp hx
    exact hf w (h w hw)
  · exact h x hx

theorem stopWarp_gone (s : State) (k : Nat) : tget (s.stopWarp k).warps k = none := by
  cases hw : tget s.warps k with
  | none => unfold State.stopWarp; rw [hw]; exact hw
  | some w =>
    obtain ⟨hwarps, -, -⟩ := warpGone_spec s k w
    have hnone : tget ((s.leaveIcinvs k w).warpGone k w).warps k = none := by rw [hwarps, tget_tdel, if_pos rfl]
    unfold State.stopWarp
    simp only [hw]
    split
    · exact finishBlock_warp hnone
    · exact hnone

theorem endBlock_table {k : Nat} {s : State} (h : TableAt k s) : TableAt k (s.endBlock k) := by
  unfold State.endBlock
  split
  · exact h
  · split
    · exact h
    · split
      · exact h
      · exact .of_none (stopWarp_gone _ k)

theorem logEvent_warps (s : State) (d : Nat) (e : Event) : (s.logEvent d e).warps = s.warps := by
  unfold State.logEvent
  split
  · split
    · show (s.signal e.ctx).warps = s.warps
      rw [signal_msix]
    · rfl
  · split
    · show (s.signal e.ctx).warps = s.warps
      rw [signal_msix]
    · rfl

theorem doubleFault_table {k : Nat} {s : State} (h : TableAt k s) (c : Cause) (pc : W64) : TableAt k (s.doubleFault k c pc) := by
  unfold State.doubleFault
  split
  · exact h
  · split
    · exact h
    · exact endBlock_table (h.of_warps (logEvent_warps s _ _))

theorem recordFault_warps (s : State) (die : Nat) (e : FaultEnt) : (s.recordFault die e).warps = s.warps := by
  have hask : (s.asksPage die e).warps = s.warps := by rw [asksPage_same s die e]
  have hjoin : s.recordFault die e = if (s.die die).faults.any e.samePage then
      (s.asksPage die e).modDie die (fun d => { d with faults := d.faults.map (fun x =>
        if e.samePage x then { x with count := min 255 (x.count + 1), warps := x.warps ++ e.warps, eops := x.eops ++ e.eops } else x) })
    else if (s.die die).faults.length < Config.faultBufSize then
      ((s.asksPage die e).signal e.ctx).modDie die (fun d => { d with faults := d.faults ++ [e] })
    else (s.asksPage die e).modDie die (fun d => { d with faultWait := d.faultWait ++ [(0, e)] }) := rfl
  rw [hjoin]
  split
  · exact hask
  · split
    · show ((s.asksPage die e).signal e.ctx).warps = s.warps
      rw [signal_msix]
      exact hask
    · exact hask

theorem parkWarp_table {k : Nat} {s : State} (h : TableAt k s) (core slot cx kind : Nat) (pc : W64) (grp : Mask) (va : W64) (op : Nat) :
    TableAt k (s.parkWarp core slot cx kind pc grp va op) := by
  unfold State.parkWarp
  exact (h.modWarp (warpKey core slot) (f := fun w => { w with wait := .parked (coreDie core) cx (pageOf va) pc grp va op, waitSince := s.tsc })
    (fun w hw => tableOk_congr rfl rfl hw)).of_warps (recordFault_warps _ _ _)

theorem pokeAll_warps {die cx base : Nat} {vec : VC} {pieces : List (Nat × List Byte)} : ∀ {s : State} {r : State × VC},
    s.pokeAll die cx base vec pieces = some r → r.1.warps = s.warps := by
  induction pieces with
  | nil => intro s r h; exact congrArg (fun r : State × VC => r.1.warps) (Option.some.inj h).symm
  | cons p pieces ih =>
    intro s r h
    obtain ⟨u, hu, hr⟩ := Option.bind_eq_some_iff.mp h
    obtain ⟨q, hq, rfl⟩ := Option.map_eq_some_iff.mp hr
    have hsent := pokeVa_sent hu
    unfold OnlySent at hsent
    exact (ih hq).trans (by rw [hsent])

theorem doYield_table {k : Nat} {s : State} (h : TableAt k s) (j : Nat) : TableAt k (s.doYield j) := by
  unfold State.doYield
  cases hw : tget s.warps j with
  | none => exact h
  | some w =>
    cases hb : s.blk? w.blk with
    | none => simpa only [hb] using h
    | some b =>
      have h1 : TableAt k (s.modBlock w.blk (fun b => { b with clk := b.clk.join w.fullClk })) := h.of_warps rfl
      have h2 := h1.modWarp j (f := fun w => { w with wait := .yielded, waitSince := s.tsc }) fun w hw => tableOk_congr rfl rfl hw
      simp only [hb]
      split
      · exact h2
      · exact h2.of_warps (frameWrite_warps _ _ _ _ _)

theorem romSave_table {k : Nat} {s : State} (h : TableAt k s) (w : Warp) (b : Block) (g : Grid) : TableAt k (s.romSave k w b g) := by
  unfold State.romSave
  simp only
  split
  · exact parkWarp_table h _ _ _ _ _ _ _ _
  · exact doubleFault_table h _ 0
  · split
    · next r hr =>
      exact doYield_table (TableAt.of_warps (t := r.1.modBlock w.blk (fun b => { b with clk := b.clk.join r.2 })) h (pokeAll_warps hr)) k
    · exact h

theorem endWait_table {w : Warp} (h : w.tableOk) : w.endWait.tableOk := tableOk_congr rfl rfl h

theorem halted_table {w : Warp} (h : w.tableOk) : ({ w with halted := true } : Warp).tableOk := tableOk_congr rfl rfl h

theorem romHandler_table {k : Nat} {s : State} (h : TableAt k s) {w : Warp} (hw : w.tableOk) (b : Block) (g : Grid) (t : TrapIn) :
    TableAt k (s.romHandler k w b g t) := by
  have hignored : TableAt k { s with warps := tput s.warps k w.endWait } := .of_tput (endWait_table hw) rfl
  have hhalted : TableAt k { s with warps := tput s.warps k { w.endWait with halted := true } } := .of_tput (halted_table (endWait_table hw)) rfl
  have hsaved : TableAt k (({ s with warps := tput s.warps k { w.handlerEntry t 0 s.tsc with preds := w.preds } } : State).romSave k
      { w.handlerEntry t 0 s.tsc with preds := w.preds } b g) :=
    romSave_table (.of_tput (w := { w.handlerEntry t 0 s.tsc with preds := w.preds }) (tableOk_congr rfl rfl (handlerEntry_table w t 0 s.tsc)) rfl) _ b g
  have hended : TableAt k ((s.logEvent (coreDie b.core) (Event.mk' s g.ctx b.core 0x8A t.cause.code t.addr.toNat (t.pc.toNat % 2 ^ 48))).endBlock k) :=
    endBlock_table (h.of_warps (logEvent_warps s _ _))
  unfold State.romHandler
  split <;> assumption

theorem enterTrap_table {k : Nat} {s : State} (h : TableAt k s) {w : Warp} (hw : w.tableOk) (t : TrapIn) : TableAt k (s.enterTrap k w t) := by
  unfold State.enterTrap
  split
  · exact h
  · next b g _ =>
    simp only
    have hw' : ({ w with async := w.async.filter (fun x => x.1 != t.cause && !(t.cause == .preempt && x.1 == .mateSwapped)), pend := none, hang := 0 } : Warp).tableOk :=
      tableOk_congr rfl rfl hw
    split
    · exact .of_tput (halted_table (endWait_table hw')) rfl
    · split
      · exact romHandler_table h hw' b g t
      · exact .of_tput (handlerEntry_table _ t g.rec_.handler s.tsc) rfl

theorem asyncTrap_table {k : Nat} {s : State} (h : TableAt k s) {w : Warp} (hw : w.tableOk) (b : Block) : TableAt k (s.asyncTrap k w b) := by
  unfold State.asyncTrap
  split
  · exact h
  · next c addr _ =>
    dsimp only
    exact enterTrap_table (TableAt.of_warps (t := s.modBlock w.blk (fun b => b.remarkAll w (2 ^ 64))) h rfl)
      (rewind_table (w := { w with pend := none }) (tableOk_congr rfl rfl hw) _ _) _

theorem faultTrap_table {k : Nat} {s : State} (h : TableAt k s) {w : Warp} (hw : w.tableOk) (b : Block) (o : Op) (f : Cause × W64) :
    TableAt k (s.faultTrap k w b o f) := by
  unfold State.faultTrap
  exact enterTrap_table (TableAt.of_warps (t := s.modBlock w.blk (fun b => b.remarkAll w o.id)) h rfl) (rewind_table (w := { w with pend := none }) (tableOk_congr rfl rfl hw) _ _) _

theorem pendTrap_table {k : Nat} {s : State} (h : TableAt k s) {w : Warp} (hw : w.tableOk) (b : Block) (p : Pend) : TableAt k (s.pendTrap k w b p) := by
  have hgo (n : W64) : (match w.laneAt ((lowest p.group).getD 0) with
      | .on e => w.goto e (fun l => if has p.group l then n else w.pcAt l)
      | .held | .idle | .vacant => w).tableOk := by
    have hlow : (lowest p.group).getD 0 < 32 := by
      cases hl : lowest p.group with
      | none => exact Nat.zero_lt_succ 31
      | some l => exact has_lt ((mem_lanesOf _ l).mp (List.mem_of_mem_head? hl))
    cases hlane : w.laneAt ((lowest p.group).getD 0) with
    | on e =>
      refine goto_table hw (fun h0 => ?_) _
      have hin := (has_group hlow).mpr hlane
      rw [h0] at hin
      exact absurd hin (by simp [has])
    | held => exact hw
    | idle => exact hw
    | vacant => exact hw
  unfold State.pendTrap
  cases p.next with
  | none => exact enterTrap_table h hw _
  | some n => exact enterTrap_table h (hgo n) _

theorem takeTrap_table {k : Nat} {s : State} (h : TableAt k s) : TableAt k (s.takeTrap k) := by
  unfold State.takeTrap
  cases hk : tget s.warps k with
  | none => exact h
  | some w =>
    have hw := h w hk
    simp only
    split
    · exact h
    · next b g _ =>
      split
      · split
        · exact .of_none (stopWarp_gone s k)
        · exact h
      · split
        · split
          · exact enterTrap_table h hw _
          · exact h
        · split
          · split
            · exact h
            · split
              · exact doubleFault_table h _ _
              · split
                · exact asyncTrap_table h hw b
                · exact faultTrap_table h hw b _ _
          · split
            · exact h
            · split
              · exact doubleFault_table h _ _
              · split
                · exact asyncTrap_table h hw b
                · exact pendTrap_table h hw b _
          · split
            · exact romSave_table h w b g
            · split
              · exact asyncTrap_table h hw b
              · exact h

theorem raiseBy_table {s : State} {v : View} (h : TableAt v.key s) (c : Cause) (mask : Mask) (addr : W64) (next : Option W64) (mark : Option Nat) :
    TableAt v.key (s.raiseBy v c mask addr next mark) := by
  unfold State.raiseBy
  refine takeTrap_table (TableAt.modWarp ?_ v.key fun w hw => tableOk_congr rfl rfl hw)
  cases mark with
  | none => exact h
  | some t => exact h.of_warps rfl

theorem tget_ite_none {p : Prop} [Decidable p] {k : Nat} {a b : State} (ha : tget a.warps k = none) (hb : tget b.warps k = none) :
    tget (if p then a else b).warps k = none := by
  split
  · exact ha
  · exact hb

theorem retireWarp_table {k : Nat} {s : State} (h : TableAt k s) : TableAt k (s.retireWarp k) := by
  unfold State.retireWarp
  cases hw : tget s.warps k with
  | none => exact h
  | some w =>
    obtain ⟨hwarps, -, -⟩ := warpGone_spec s k w
    have hnone : tget ((s.leaveIcinvs k w).warpGone k w).warps k = none := by rw [hwarps, tget_tdel, if_pos rfl]
    dsimp only
    split
    · exact h
    · split
      · exact .of_none hnone
      · next b _ =>
        have hmarked (p : Bool) : tget (if p = true then ((s.leaveIcinvs k w).warpGone k w).modBlock w.blk (fun b => { b with retired := b.retired ||| laneBit w.wid })
            else (s.leaveIcinvs k w).warpGone k w).warps k = none := tget_ite_none hnone hnone
        have hleft := fun (q p : Bool) => tget_ite_none (p := q = true) (hmarked p) (b := State.modBlock _ w.blk (fun b => { b with slots := b.slots ++ [k % 64] })) (hmarked p)
        exact .of_none (tget_ite_none (hleft _ _) (tget_ite_none (finishBlock_warp (hleft _ _))
          (tget_ite_none ((congrArg (tget · k) (barRecheck_judges _ _).warps).trans (hleft _ _)) (hleft _ _))))

theorem advance_table {s : State} {v : View} (h : TableAt v.key s) (r : Req) (moved : Mask) (pcs : Nat → W64) : TableAt v.key (s.advance v r moved pcs) := by
  cases hw : tget s.warps v.key with
  | none => unfold State.advance; rw [hw]; exact h
  | some w =>
    obtain ⟨w', heq, hc⟩ := advance_carries (s := s) r moved pcs hw
    rw [heq]
    exact .of_tput (hc.table (h w hw)) rfl

/-- The state an effect leads to, before the group goes on. -/
def Eff.reaches (e : Eff) (s : State) : State :=
  match e with
  | .done s' | .jump s' _ _ | .after s' _ _ _ | .park s' | .stay s' => s'
  | .raise .. | .fail .. | .hold => s

theorem finish_table {s : State} {v : View} (h : TableAt v.key s) (r : Req) (e : Eff) (he : TableAt v.key (e.reaches s)) : TableAt v.key (s.finish v r e) := by
  unfold State.finish
  cases e with
  | raise c m a => exact raiseBy_table h c m a none none
  | fail t c m a => exact raiseBy_table h c m a none (some t)
  | after s' c m a => exact raiseBy_table he c m a (some v.next) none
  | hold =>
    dsimp only
    split
    · exact takeTrap_table h
    · exact h
  | park s' =>
    dsimp only
    split
    · exact takeTrap_table h
    · exact he
  | done s' =>
    dsimp only
    split
    · exact takeTrap_table h
    · exact retireWarp_table (advance_table he _ _ _)
  | jump s' m pcs =>
    dsimp only
    split
    · exact takeTrap_table h
    · exact retireWarp_table (advance_table he _ _ _)
  | stay s' =>
    dsimp only
    split
    · exact takeTrap_table h
    · exact he.of_warps rfl

/-- An instruction whose effect leaves the table of its warp in order leaves it so when it is over. -/
theorem issue_table {s : State} {h : Hdr} {i : Instr} {v : View} {eff : View → State → Eff} (hi : Issues s h i v) (hx : exec i s = issue s h (reqOf i) eff)
    (hok : v.w.tableOk) (he : TableAt v.key s → TableAt v.key ((eff v s).reaches s)) :
    ∀ t w, exec i s = .next t → tget t.warps v.key = some w → w.tableOk := by
  obtain ⟨-, -, -, hw, -⟩ := view_spec hi.view
  have hs : TableAt v.key s := fun w h => Option.some.inj (hw.symm.trans h) ▸ hok
  intro t w ht
  rw [hx, issue_goes hi.view hi.goes] at ht
  obtain rfl := Host.Outcome.next.inj ht
  exact finish_table hs _ _ (he hs) w

end Sys2Proof.Machine
end

