-- ==== Sys2Proof/Proofs/Moving.lean ====
section
/-! SUPPORT, for O16. Where the lanes of a group stand once it has split over two PCs, or has come to the PC of another entry
(01 R17). -/

namespace Sys2Proof.Machine

/- Warps whose threads stand alike. -/

/-- The PCs are the same, and every thread stands where it stood. -/
structure Alike (w w' : Warp) : Prop where
  pcs : w'.pcs = w.pcs
  lane : ∀ l, l < 32 → w'.laneAt l = w.laneAt l

theorem Alike.refl (w : Warp) : Alike w w := ⟨rfl, fun _ _ => rfl⟩

theorem Alike.trans {a b c : Warp} (h1 : Alike a b) (h2 : Alike b c) : Alike a c :=
  ⟨h2.pcs.trans h1.pcs, fun l hl => (h2.lane l hl).trans (h1.lane l hl)⟩

theorem Alike.pc {w w' : Warp} (h : Alike w w') (l : Nat) : w'.pcAt l = w.pcAt l := pcAt_of_pcs h.pcs l

theorem Alike.heldMask {w w' : Warp} (h : Alike w w') : w'.heldMask = w.heldMask :=
  mask_ext fun l hl => by rw [Bool.eq_iff_iff, has_held hl, has_held hl, h.lane l hl]

/-- Lanes are set to what they are, or none is set. -/
theorem setLanes_alike {w : Warp} {m : Mask} {x : LaneSt} (h : ∀ l, l < 32 → has m l = true → w.laneAt l = x) : Alike w (w.setLanes m x) := by
  refine ⟨rfl, fun l hl => ?_⟩
  rw [laneAt_setLanes w m x hl]
  split
  · next hm => exact (h l hl hm).symm
  · rfl

/-- The lowest free entry depends on which entries are in use. -/
theorem freeEntry_congr {w w' : Warp} (h : ∀ e, (∃ l, l < 32 ∧ w'.laneAt l = .on e) ↔ ∃ l, l < 32 ∧ w.laneAt l = .on e) : w'.freeEntry = w.freeEntry := by
  have hzero (x : Warp) (e : Nat) : x.groupOf e = 0 ↔ ¬ ∃ l, l < 32 ∧ x.laneAt l = .on e := by
    constructor
    · rintro h0 ⟨l, hl, hon⟩
      have hin := (has_group hl).mpr hon
      rw [h0] at hin
      exact absurd hin (by simp [has])
    · intro hno
      by_contra hne
      obtain ⟨l, hl⟩ := mask_ne_zero hne
      exact hno ⟨l, has_lt hl, (has_group (has_lt hl)).mp hl⟩
  unfold Warp.freeEntry
  congr 1
  funext e
  rw [Bool.eq_iff_iff, beq_iff_eq, beq_iff_eq, hzero, hzero, h e]

theorem Alike.freeEntry {w w' : Warp} (h : Alike w w') : w'.freeEntry = w.freeEntry :=
  freeEntry_congr fun _ => exists_congr fun l => and_congr_right fun hl => by rw [h.lane l hl]

/- Which PCs. -/

/-- Rising lists of the same PCs are the same. -/
theorem rising_ext {ps qs : List W64} (hp : ps.Pairwise (fun a b => a.toNat < b.toNat)) (hq : qs.Pairwise (fun a b => a.toNat < b.toNat))
    (h : ∀ x, x ∈ ps ↔ x ∈ qs) : ps = qs := by
  induction ps generalizing qs with
  | nil =>
    cases qs with
    | nil => rfl
    | cons q qs => exact absurd ((h q).mpr (.head _)) List.not_mem_nil
  | cons p ps ih =>
    cases qs with
    | nil => exact absurd ((h p).mp (.head _)) List.not_mem_nil
    | cons q qs =>
      obtain ⟨hp1, hp2⟩ := List.pairwise_cons.mp hp
      obtain ⟨hq1, hq2⟩ := List.pairwise_cons.mp hq
      have hpq : p = q := by
        rcases List.mem_cons.mp ((h p).mp (.head _)) with he | hin
        · exact he
        · rcases List.mem_cons.mp ((h q).mpr (.head _)) with he | hin'
          · exact he.symm
          · exact absurd (hp1 q hin') (not_lt.mpr (hq1 p hin).le)
      subst hpq
      refine congrArg (p :: ·) (ih hp2 hq2 fun x => ⟨fun hx => ?_, fun hx => ?_⟩)
      · exact (List.mem_cons.mp ((h x).mp (.tail _ hx))).resolve_left fun he => lt_irrefl _ (he ▸ hp1 x hx)
      · exact (List.mem_cons.mp ((h x).mpr (.tail _ hx))).resolve_left fun he => lt_irrefl _ (he ▸ hq1 x hx)

theorem pcsOf_one {w : Warp} {m : Mask} {p : W64} (hne : m ≠ 0) (h : ∀ l, has m l = true → w.pcAt l = p) : w.pcsOf m = [p] := by
  refine rising_ext (pcsOf_rising w m) (List.pairwise_singleton _ _) fun x => ?_
  rw [mem_pcsOf, List.mem_singleton]
  refine ⟨fun ⟨l, hl, hx⟩ => hx.symm.trans (h l hl), fun hx => ?_⟩
  obtain ⟨l, hl⟩ := mask_ne_zero hne
  exact ⟨l, hl, (h l hl).trans hx.symm⟩

theorem pcsOf_two {w : Warp} {m : Mask} {p q : W64} (hpq : p.toNat < q.toNat) (h : ∀ l, has m l = true → w.pcAt l = p ∨ w.pcAt l = q)
    (hp : ∃ l, has m l = true ∧ w.pcAt l = p) (hq : ∃ l, has m l = true ∧ w.pcAt l = q) : w.pcsOf m = [p, q] := by
  refine rising_ext (pcsOf_rising w m) (List.pairwise_pair.mpr hpq) fun x => ?_
  rw [mem_pcsOf, List.mem_cons, List.mem_singleton]
  refine ⟨fun ⟨l, hl, hx⟩ => (h l hl).imp (hx.symm.trans ·) (hx.symm.trans ·), ?_⟩
  rintro (rfl | rfl)
  · exact hp
  · exact hq

/- Re-entry. -/

theorem reenterOnce_none {w : Warp} (h : w.heldMask = 0) : w.reenterOnce = w := if_pos h

theorem reenterOnces_none {w : Warp} (h : w.heldMask = 0) (ns : List Nat) : ns.foldl (fun w _ => w.reenterOnce) w = w := by
  induction ns with
  | nil => rfl
  | cons n ns ih => rw [List.foldl_cons, reenterOnce_none h, ih]

theorem reenter_none {w : Warp} (h : w.heldMask = 0) : w.reenter = w := (reenter_eq w).trans (reenterOnces_none h _)

/-- No held thread is at the PC of an entry. -/
def Warp.HeldApart (w : Warp) : Prop := ∀ l k e, l < 32 → k < 32 → w.laneAt l = .held → w.laneAt k = .on e → w.pcAt l ≠ w.pcAt k

theorem Alike.heldApart {w w' : Warp} (h : Alike w w') (ha : w.HeldApart) : w'.HeldApart := fun l k e hl hk hheld hon => by
  rw [h.pc, h.pc]
  exact ha l k e hl hk ((h.lane l hl).symm.trans hheld) ((h.lane k hk).symm.trans hon)

/-- Where no held thread is at the PC of an entry none joins. -/
theorem joinHeld_alike {w : Warp} (h : w.HeldApart) (es : List Nat) : Alike w (w.joinHeld es) := by
  have hfold (es : List Nat) : ∀ x, Alike w x → Alike w (x.joinHeld es) := by
    induction es with
    | nil => exact fun _ hx => hx
    | cons e es ih =>
      refine fun x hx => ih _ (hx.trans ?_)
      dsimp only
      cases hp : x.entryPc e with
      | none => exact .refl x
      | some p =>
        refine setLanes_alike fun l hl hm => ?_
        obtain ⟨hheld, hlp⟩ := has_atPc.mp hm
        obtain ⟨k, hk, hkon, hkp⟩ := entryPc_some hp
        exact absurd (hlp.trans hkp.symm) (hx.heldApart h l k e hl hk ((has_held hl).mp hheld) hkon)
  exact hfold es w (.refl w)

/-- Held threads stay held while no entry is free. -/
theorem reenter_full {w : Warp} (h : w.HeldApart) (hfull : w.freeEntry = none) : Alike w w.reenter := by
  have hfold (ns : List Nat) : ∀ x, Alike w x → Alike w (ns.foldl (fun w _ => w.reenterOnce) x) := by
    induction ns with
    | nil => exact fun _ hx => hx
    | cons n ns ih =>
      refine fun x hx => ih _ (hx.trans ?_)
      show Alike x x.reenterOnce
      unfold Warp.reenterOnce
      split
      · exact .refl x
      · have hj := joinHeld_alike (hx.heldApart h) x.entries
        have hfree : (x.joinHeld x.entries).freeEntry = none := hj.freeEntry.trans (hx.freeEntry.trans hfull)
        unfold Warp.enterHeld
        rw [hfree]
        exact hj
  rw [reenter_eq]
  exact hfold _ w (.refl w)

/-- Held threads of one PC take the free entry. -/
theorem reenter_enters {w : Warp} {g : Nat} {p : W64} (h : w.HeldApart) (hfree : w.freeEntry = some g) (hne : w.heldMask ≠ 0)
    (hp : ∀ l, has w.heldMask l = true → w.pcAt l = p) {l : Nat} (hl : l < 32) :
    w.reenter.laneAt l = if has w.heldMask l then .on g else w.laneAt l := by
  have hj := joinHeld_alike h w.entries
  have honce : w.reenterOnce = (w.joinHeld w.entries).setLanes ((w.joinHeld w.entries).atPc (w.joinHeld w.entries).heldMask p) (.on g) := by
    unfold Warp.reenterOnce Warp.enterHeld
    rw [if_neg hne, hj.freeEntry, hfree, pcsOf_one (p := p) (by rw [hj.heldMask]; exact hne) fun l hm => by rw [hj.pc]; exact hp l (hj.heldMask ▸ hm)]
  have hlane {l : Nat} (hl : l < 32) : w.reenterOnce.laneAt l = if has w.heldMask l then .on g else w.laneAt l := by
    rw [honce, laneAt_setLanes _ _ _ hl, hj.lane l hl]
    refine ite_congr (propext ?_) (fun _ => rfl) fun _ => rfl
    rw [has_atPc, hj.heldMask, hj.pc]
    exact ⟨And.left, fun hm => ⟨hm, hp l hm⟩⟩
  have hgone : w.reenterOnce.heldMask = 0 := by
    refine mask_ext fun l hl => ?_
    rw [show has (0 : Mask) l = false by simp [has], ← Bool.not_eq_true, has_held hl, hlane hl]
    split
    · nofun
    · next hm => exact fun hc => hm ((has_held hl).mpr hc)
  rw [reenter_eq, show List.range 8 = 0 :: [1, 2, 3, 4, 5, 6, 7] from rfl, List.foldl_cons, reenterOnces_none hgone]
  exact hlane hl

/- Merging. -/

/-- An entry whose PC no other has stays alone. -/
theorem mergeEntry_alone {w : Warp} {e : Nat} (h : ∀ l k f, l < 32 → k < 32 → w.laneAt l = .on e → w.laneAt k = .on f → f ≠ e → w.pcAt l ≠ w.pcAt k) :
    w.mergeEntry e = w := by
  unfold Warp.mergeEntry
  split
  · rfl
  · next p hp =>
    split
    · rfl
    · next f hfind =>
      have hf := List.find?_some hfind
      rw [Bool.and_eq_true, bne_iff_ne, beq_iff_eq] at hf
      obtain ⟨l, hl, hlon, hlp⟩ := entryPc_some hp
      obtain ⟨k, hk, hkon, hkp⟩ := entryPc_some hf.2
      exact absurd (hlp.trans hkp.symm) (h l k f hl hk hlon hkon hf.1)

/-- An entry at the PC of one other joins it at the lower index. -/
theorem mergeEntry_with {w : Warp} {e f : Nat} {p : W64} (he : w.entryPc e = some p) (hf : w.entryPc f = some p) (h8 : f < 8) (hne : f ≠ e)
    (hone : ∀ g, g ≠ e → w.entryPc g = some p → g = f) : w.mergeEntry e = w.setLanes (w.groupOf e ||| w.groupOf f) (.on (min e f)) := by
  obtain ⟨k, hk, hkon, -⟩ := entryPc_some hf
  have hfind : w.entries.find? (fun f => f != e && w.entryPc f == some p) = some f := by
    cases hg : w.entries.find? (fun f => f != e && w.entryPc f == some p) with
    | none =>
      have := List.find?_eq_none.mp hg f (mem_entries.mpr ⟨h8, k, hk, hkon⟩)
      exact absurd (by rw [hf, beq_self_eq_true, Bool.and_true]; exact bne_iff_ne.mpr hne) this
    | some g =>
      have hx := List.find?_some hg
      rw [Bool.and_eq_true, bne_iff_ne, beq_iff_eq] at hx
      rw [hone g hx.1 hx.2]
  unfold Warp.mergeEntry
  simp only [he, hfind]

/- A group goes to two PCs. -/

/-- Where the threads of the higher PC come to stand. -/
def Warp.nextFree (w : Warp) : LaneSt := match w.freeEntry with | some e => .on e | none => .held

/-- A group splits over two PCs that no other entry has: the threads of the lower keep the entry. -/
theorem goto_split {w : Warp} {e : Nat} {f : Nat → W64} {p q : W64} (hok : w.tableOk) (hheld : w.heldMask = 0) (hpq : p.toNat < q.toNat)
    (hf : ∀ l, has (w.groupOf e) l = true → f l = p ∨ f l = q) (hp : ∃ l, has (w.groupOf e) l = true ∧ f l = p)
    (hq : ∃ l, has (w.groupOf e) l = true ∧ f l = q) (hfar : ∀ g, g ≠ e → w.entryPc g ≠ some p ∧ w.entryPc g ≠ some q) {l : Nat} (hl : l < 32) :
    (w.goto e f).laneAt l = if w.laneAt l = .on e then (if f l = p then .on e else w.nextFree) else w.laneAt l := by
  have hne : p ≠ q := fun hc => lt_irrefl _ (hc ▸ hpq)
  set w1 : Warp := w.setPcs (w.groupOf e) f with hw1
  have hpc1 {l : Nat} (hl : l < 32) : w1.pcAt l = if w.laneAt l = .on e then f l else w.pcAt l := by
    rw [hw1, setPcs_pcAt w _ f hl]
    exact ite_congr (propext (has_group hl)) (fun _ => rfl) fun _ => rfl
  have hpcIn {l : Nat} (hm : has (w.groupOf e) l = true) : w1.pcAt l = f l := by rw [hw1, setPcs_pcAt w _ f (has_lt hm), if_pos hm]
  have hotherPc {l g : Nat} (hl : l < 32) (hon : w.laneAt l = .on g) (hg : g ≠ e) : w1.pcAt l ≠ p ∧ w1.pcAt l ≠ q := by
    rw [hpc1 hl, hon, if_neg (by simpa using hg)]
    have := (tableOk_iff.mp hok).entryPc hl hon
    exact ⟨fun hc => (hfar g hg).1 (hc ▸ this), fun hc => (hfar g hg).2 (hc ▸ this)⟩
  -- the threads that leave
  have hleave {l : Nat} (hl : l < 32) : has (w1.leaves e p) l = true ↔ w.laneAt l = .on e ∧ f l ≠ p := by
    rw [has_leaves hl, hw1, laneAt_setPcs, ← hw1]
    exact and_congr_right fun hon => by rw [hpc1 hl, if_pos hon]
  set y : Warp := w1.setLanes (w1.leaves e p) .held with hy
  have hylane {l : Nat} (hl : l < 32) : y.laneAt l = if w.laneAt l = .on e ∧ f l ≠ p then .held else w.laneAt l := by
    rw [hy, laneAt_setLanes w1 _ _ hl, hw1, laneAt_setPcs, ← hw1]
    exact ite_congr (propext (hleave hl)) (fun _ => rfl) fun _ => rfl
  obtain ⟨l0, hl0, hl0p⟩ := hp
  have hl0on := (has_group (has_lt hl0)).mp hl0
  have hyfree : y.freeEntry = w.freeEntry := by
    refine freeEntry_congr fun g => ⟨fun ⟨l, hl, hon⟩ => ⟨l, hl, ?_⟩, fun ⟨l, hl, hon⟩ => ?_⟩
    · rw [hylane hl] at hon
      split at hon
      · exact absurd hon nofun
      · exact hon
    · by_cases hg : g = e
      · exact ⟨l0, has_lt hl0, by rw [hylane (has_lt hl0), if_neg (fun hc => hc.2 hl0p), hl0on, hg]⟩
      · exact ⟨l, hl, by rw [hylane hl, if_neg (fun hc => hg (LaneSt.on.inj (hon.symm.trans hc.1))), hon]⟩
  have hyon {l g : Nat} (hl : l < 32) (hon : y.laneAt l = .on g) : w.laneAt l = .on g ∧ (g = e → f l = p) := by
    rw [hylane hl] at hon
    split at hon
    · exact absurd hon nofun
    · next hno => exact ⟨hon, fun hg => by_contra fun hc => hno ⟨hg ▸ hon, hc⟩⟩
  have hynone : y.entries.find? (fun g => y.entryPc g == some q) = none := by
    refine List.find?_eq_none.mpr fun g _ hc => ?_
    obtain ⟨k, hk, hkon, hkq⟩ := entryPc_some (beq_iff_eq.mp hc)
    obtain ⟨hkw, hkp⟩ := hyon hk hkon
    have hkq' : w1.pcAt k = q := hkq
    by_cases hg : g = e
    · rw [hpc1 hk, if_pos (hg ▸ hkw), hkp hg] at hkq'
      exact hne hkq'
    · exact (hotherPc hk hkw hg).2 hkq'
  -- the split
  set z : Warp := w1.splitGroup e with hz
  have hplace : z = y.setLanes (y.atPc (w1.leaves e p) q) w.nextFree := by
    have hps : w1.pcsOf (w1.groupOf e) = [p, q] := by
      obtain ⟨lq, hlq, hlqq⟩ := hq
      exact pcsOf_two hpq (fun l hm => by rw [hpcIn hm]; exact hf l hm) ⟨l0, hl0, (hpcIn hl0).trans hl0p⟩ ⟨lq, hlq, (hpcIn hlq).trans hlqq⟩
    rw [hz, splitGroup_cons hps, List.foldl_cons, List.foldl_nil]
    unfold Warp.place
    simp only [← hy, hynone, hyfree]
    unfold Warp.nextFree
    cases w.freeEntry <;> rfl
  have hzlane {l : Nat} (hl : l < 32) : z.laneAt l = if w.laneAt l = .on e then (if f l = p then .on e else w.nextFree) else w.laneAt l := by
    have hmask : has (y.atPc (w1.leaves e p) q) l = true ↔ w.laneAt l = .on e ∧ f l ≠ p := by
      rw [has_atPc, hleave hl]
      refine ⟨And.left, fun hc => ⟨hc, ?_⟩⟩
      have hg := (has_group hl).mpr hc.1
      exact (hpcIn hg).trans ((hf l hg).resolve_left hc.2)
    rw [hplace, laneAt_setLanes y _ _ hl, hylane hl]
    by_cases hon : w.laneAt l = .on e
    · by_cases hfp : f l = p
      · rw [if_neg (fun hc => (hmask.mp hc).2 hfp), if_neg (fun hc => hc.2 hfp), if_pos hon, if_pos hfp, hon]
      · rw [if_pos (hmask.mpr ⟨hon, hfp⟩), if_pos hon, if_neg hfp]
    · rw [if_neg (fun hc => hon (hmask.mp hc).1), if_neg (fun hc => hon hc.1), if_neg hon]
  have hzpc (l : Nat) : z.pcAt l = w1.pcAt l := by rw [hplace]; rfl
  have hfree_ne {g : Nat} (hfr : w.nextFree = .on g) : g ≠ e ∧ ∀ k, k < 32 → w.laneAt k ≠ .on g := by
    cases hfe : w.freeEntry with
    | none => rw [Warp.nextFree, hfe] at hfr; exact absurd hfr nofun
    | some g' =>
      rw [Warp.nextFree, hfe] at hfr
      obtain rfl : g' = g := LaneSt.on.inj hfr
      obtain ⟨-, hempty⟩ := freeEntry_some hfe
      exact ⟨fun hc => hempty l0 (has_lt hl0) (hc ▸ hl0on), hempty⟩
  -- where each thread stands, and at which PC
  have hzon {l g : Nat} (hl : l < 32) (hon : z.laneAt l = .on g) : (g = e → z.pcAt l = p) ∧ (g ≠ e → z.pcAt l ≠ p) := by
    rw [hzlane hl] at hon
    rw [hzpc, hpc1 hl]
    by_cases hwl : w.laneAt l = .on e
    · rw [if_pos hwl] at hon
      rw [if_pos hwl]
      split at hon
      · next hfp => exact ⟨fun _ => hfp, fun hg => absurd (LaneSt.on.inj hon).symm hg⟩
      · next hfp => exact ⟨fun hg => absurd hg (hfree_ne hon).1, fun _ => hfp⟩
    · rw [if_neg hwl] at hon
      have hge : g ≠ e := fun hc => hwl (hc ▸ hon)
      refine ⟨fun hg => absurd hg hge, fun _ => ?_⟩
      have := (hotherPc hl hon hge).1
      rwa [hpc1 hl] at this
  have hmerge : z.mergeEntry e = z := mergeEntry_alone fun l k g hl hk hlon hkon hg hc =>
    (hzon hk hkon).2 hg (hc.symm.trans ((hzon hl hlon).1 rfl))
  have hwheld {l : Nat} (hl : l < 32) : w.laneAt l ≠ .held := fun hc => by
    have := (has_held hl).mpr hc
    rw [hheld] at this
    exact absurd this (by simp [has])
  show (((w1.splitGroup e).mergeEntry e).reenter).laneAt l = _
  rw [← hz, hmerge]
  cases hfe : w.freeEntry with
  | some g =>
    have hzheld : z.heldMask = 0 := by
      refine mask_ext fun l hl => ?_
      rw [show has (0 : Mask) l = false by simp [has], ← Bool.not_eq_true, has_held hl, hzlane hl, Warp.nextFree, hfe]
      split
      · split <;> nofun
      · exact hwheld hl
    rw [reenter_none hzheld]
    exact hzlane hl
  | none =>
    have hzfree : z.freeEntry = none := by
      refine (freeEntry_congr fun g => ⟨fun ⟨l, hl, hon⟩ => ⟨l, hl, ?_⟩, fun ⟨l, hl, hon⟩ => ?_⟩).trans hfe
      · rw [hzlane hl, Warp.nextFree, hfe] at hon
        split at hon
        · next hwl =>
          split at hon
          · exact hwl.trans hon
          · exact absurd hon nofun
        · exact hon
      · by_cases hg : g = e
        · exact ⟨l0, has_lt hl0, by rw [hzlane (has_lt hl0), if_pos hl0on, if_pos hl0p, hg]⟩
        · exact ⟨l, hl, by rw [hzlane hl, if_neg (fun hc => hg (LaneSt.on.inj (hon.symm.trans hc))), hon]⟩
    have hapart : z.HeldApart := by
      intro l k g hl hk hlheld hkon
      rw [hzlane hl] at hlheld
      by_cases hwl : w.laneAt l = .on e
      · rw [if_pos hwl] at hlheld
        split at hlheld
        · exact absurd hlheld nofun
        · next hfp =>
          have hlq : z.pcAt l = q := by rw [hzpc, hpc1 hl, if_pos hwl]; exact (hf l ((has_group hl).mpr hwl)).resolve_left hfp
          rw [hlq]
          by_cases hg : g = e
          · rw [(hzon hk hkon).1 hg]
            exact hne.symm
          · rw [hzlane hk, Warp.nextFree, hfe] at hkon
            split at hkon
            · split at hkon
              · exact absurd (LaneSt.on.inj hkon).symm hg
              · exact absurd hkon nofun
            · exact fun hc => (hotherPc hk hkon hg).2 ((hzpc k).symm.trans hc.symm)
      · rw [if_neg hwl] at hlheld
        exact absurd hlheld (hwheld hl)
    rw [(reenter_full hapart hzfree).lane l hl]
    exact hzlane hl

/- A group comes to the PC of another entry. -/

/-- The warp once the group has joined the other entry, before held threads re-enter. -/
theorem goto_joins {w : Warp} {e f : Nat} {g : Nat → W64} {p : W64} (hok : w.tableOk) (hne : w.groupOf e ≠ 0) (hfe : f ≠ e) (hfp : w.entryPc f = some p)
    (hg : ∀ l, has (w.groupOf e) l = true → g l = p) :
    ∃ z : Warp, w.goto e g = z.reenter ∧ (∀ l, l < 32 → z.laneAt l = if w.laneAt l = .on e ∨ w.laneAt l = .on f then .on (min e f) else w.laneAt l)
      ∧ ∀ l, l < 32 → z.pcAt l = if w.laneAt l = .on e then p else w.pcAt l := by
  obtain ⟨le, hle⟩ := mask_ne_zero hne
  have hleon := (has_group (has_lt hle)).mp hle
  obtain ⟨lf, hlf, hlfon, hlfp⟩ := entryPc_some hfp
  set w1 : Warp := w.setPcs (w.groupOf e) g with hw1
  have hpc1 {l : Nat} (hl : l < 32) : w1.pcAt l = if w.laneAt l = .on e then p else w.pcAt l := by
    rw [hw1, setPcs_pcAt w _ g hl]
    refine ite_congr (propext (has_group hl)) (fun hon => hg l ((has_group hl).mpr hon)) fun _ => rfl
  have hpcIn {l : Nat} (hm : has (w1.groupOf e) l = true) : w1.pcAt l = p := by
    rw [hpc1 (has_lt hm), if_pos ((has_group (w := w) (has_lt hm)).mp hm)]
  -- nobody leaves
  have hsplit : w1.splitGroup e = w1.setLanes (w1.leaves e p) .held := splitGroup_cons (pcsOf_one (w := w1) (m := w1.groupOf e) hne fun l hm => hpcIn hm)
  have halike : Alike w1 (w1.splitGroup e) := by
    rw [hsplit]
    refine setLanes_alike fun l hl hm => ?_
    obtain ⟨hon, hc⟩ := (has_leaves hl).mp hm
    exact absurd (hpcIn ((has_group hl).mpr hon)) hc
  set y : Warp := w1.splitGroup e with hy
  have hylane {l : Nat} (hl : l < 32) : y.laneAt l = w.laneAt l := halike.lane l hl
  have hypc {l : Nat} (hl : l < 32) : y.pcAt l = if w.laneAt l = .on e then p else w.pcAt l := (halike.pc l).trans (hpc1 hl)
  have hentry {l h : Nat} (hl : l < 32) (hon : w.laneAt l = .on h) {r : W64} (hall : ∀ k, k < 32 → w.laneAt k = .on h → y.pcAt k = r) : y.entryPc h = some r := by
    cases hp : y.entryPc h with
    | none => exact absurd hp (entryPc_ne_none hl ((hylane hl).trans hon))
    | some r' =>
      obtain ⟨k, hk, hkon, hkp⟩ := entryPc_some hp
      rw [← hkp, hall k hk ((hylane hk).symm.trans hkon)]
  have hye : y.entryPc e = some p := hentry (has_lt hle) hleon fun k hk hkon => by rw [hypc hk, if_pos hkon]
  have hyf : y.entryPc f = some p := hentry hlf hlfon fun k hk hkon => by
    rw [hypc hk, if_neg (by rw [hkon]; simpa using hfe), ((hok.2 k lf f f hk hlf hkon hlfon).mp rfl), hlfp]
  have hone : ∀ h, h ≠ e → y.entryPc h = some p → h = f := by
    intro h hh hp
    obtain ⟨k, hk, hkon, hkp⟩ := entryPc_some hp
    have hkw := (hylane hk).symm.trans hkon
    rw [hypc hk, if_neg (by rw [hkw]; simpa using hh)] at hkp
    exact (hok.2 k lf h f hk hlf hkw hlfon).mpr (hkp.trans hlfp.symm)
  refine ⟨y.mergeEntry e, rfl, fun l hl => ?_, fun l hl => ?_⟩
  · rw [mergeEntry_with hye hyf (hok.1 lf f hlf hlfon) hfe hone, laneAt_setLanes y _ _ hl, hylane hl]
    refine ite_congr (propext ?_) (fun _ => rfl) fun _ => rfl
    rw [has_or, Bool.or_eq_true, has_group hl, has_group hl, hylane hl]
  · rw [mergeEntry_with hye hyf (hok.1 lf f hlf hlfon) hfe hone, pcAt_setLanes]
    exact hypc hl

/-- With no thread held the group and the other entry are all that move. -/
theorem goto_join {w : Warp} {e f : Nat} {g : Nat → W64} {p : W64} (hok : w.tableOk) (hne : w.groupOf e ≠ 0) (hfe : f ≠ e) (hfp : w.entryPc f = some p)
    (hg : ∀ l, has (w.groupOf e) l = true → g l = p) (hheld : w.heldMask = 0) {l : Nat} (hl : l < 32) :
    (w.goto e g).laneAt l = if w.laneAt l = .on e ∨ w.laneAt l = .on f then .on (min e f) else w.laneAt l := by
  obtain ⟨z, hz, hlane, -⟩ := goto_joins hok hne hfe hfp hg
  have hzheld : z.heldMask = 0 := by
    refine mask_ext fun l hl => ?_
    rw [← hheld, Bool.eq_iff_iff, has_held hl, has_held hl, hlane l hl]
    split
    · next hon => exact ⟨nofun, fun hc => by rcases hon with h | h <;> exact absurd (h.symm.trans hc) nofun⟩
    · exact Iff.rfl
  rw [hz, reenter_none hzheld]
  exact hlane l hl

/-- Held threads of one PC take the entry that came free. -/
theorem goto_join_held {w : Warp} {e f : Nat} {g : Nat → W64} {p r : W64} (hok : w.tableOk) (hne : w.groupOf e ≠ 0) (hfe : f ≠ e)
    (hfp : w.entryPc f = some p) (hg : ∀ l, has (w.groupOf e) l = true → g l = p) (hheld : w.heldMask ≠ 0) (hfull : w.freeEntry = none)
    (hr : ∀ l, has w.heldMask l = true → w.pcAt l = r) (hno : ∀ h, w.entryPc h ≠ some r) {l : Nat} (hl : l < 32) :
    (w.goto e g).laneAt l = if w.laneAt l = .on e ∨ w.laneAt l = .on f then .on (min e f)
      else if has w.heldMask l then .on (max e f) else w.laneAt l := by
  obtain ⟨le, hle⟩ := mask_ne_zero hne
  have hleon := (has_group (has_lt hle)).mp hle
  obtain ⟨lf, hlf, hlfon, -⟩ := entryPc_some hfp
  have he8 := hok.1 le e (has_lt hle) hleon
  have hf8 := hok.1 lf f hlf hlfon
  obtain ⟨z, hz, hlane, hpc⟩ := goto_joins hok hne hfe hfp hg
  have hzheld : z.heldMask = w.heldMask := by
    refine mask_ext fun l hl => ?_
    rw [Bool.eq_iff_iff, has_held hl, has_held hl, hlane l hl]
    split
    · next hon => exact ⟨nofun, fun hc => by rcases hon with h | h <;> exact absurd (h.symm.trans hc) nofun⟩
    · exact Iff.rfl
  have hpcOut {l : Nat} (hl : l < 32) (hon : w.laneAt l ≠ .on e) : z.pcAt l = w.pcAt l := by rw [hpc l hl, if_neg hon]
  have hheldPc (l : Nat) (hm : has w.heldMask l = true) : z.pcAt l = r := by
    rw [hpcOut (has_lt hm) (by rw [(has_held (has_lt hm)).mp hm]; nofun)]
    exact hr l hm
  have happart : z.HeldApart := by
    intro l k h hl hk hlheld hkon
    have hm : has w.heldMask l = true := hzheld ▸ (has_held hl).mpr hlheld
    rw [hheldPc l hm]
    intro hc
    rw [hlane k hk] at hkon
    by_cases hke : w.laneAt k = .on e
    · rw [hpc k hk, if_pos hke] at hc
      exact hno f (hc ▸ hfp)
    · rw [hpcOut hk hke] at hc
      by_cases hkf : w.laneAt k = .on f
      · exact hno f (((tableOk_iff.mp hok).entryPc hk hkf).trans (congrArg some hc.symm))
      · rw [if_neg (not_or.mpr ⟨hke, hkf⟩)] at hkon
        exact hno h (((tableOk_iff.mp hok).entryPc hk hkon).trans (congrArg some hc.symm))
  have hused (h : Nat) (h8 : h < 8) : ∃ k, k < 32 ∧ w.laneAt k = .on h := by
    have := List.find?_eq_none.mp hfull h (List.mem_range.mpr h8)
    obtain ⟨k, hk⟩ := mask_ne_zero (m := w.groupOf h) (by simpa using this)
    exact ⟨k, has_lt hk, (has_group (has_lt hk)).mp hk⟩
  have hfree : z.freeEntry = some (max e f) := by
    cases hzf : z.freeEntry with
    | none =>
      have := List.find?_eq_none.mp hzf (max e f) (List.mem_range.mpr (max_lt he8 hf8))
      obtain ⟨k, hk⟩ := mask_ne_zero (m := z.groupOf (max e f)) (by simpa using this)
      have hkon := (has_group (has_lt hk)).mp hk
      rw [hlane k (has_lt hk)] at hkon
      split at hkon
      · have := LaneSt.on.inj hkon
        omega
      · next hno' =>
        rcases max_choice e f with h | h
        · exact absurd (.inl (h ▸ hkon)) hno'
        · exact absurd (.inr (h ▸ hkon)) hno'
    | some h =>
      obtain ⟨h8, hempty⟩ := freeEntry_some hzf
      by_cases hmin : h = min e f
      · exact absurd (hlane le (has_lt hle)) (by rw [if_pos (.inl hleon), ← hmin]; exact hempty le (has_lt hle))
      · obtain ⟨k, hk, hkon⟩ := hused h h8
        by_cases hj : w.laneAt k = .on e ∨ w.laneAt k = .on f
        · have : h = e ∨ h = f := hj.imp (fun hc => LaneSt.on.inj (hkon.symm.trans hc)) (fun hc => LaneSt.on.inj (hkon.symm.trans hc))
          exact congrArg some (by omega)
        · exact absurd ((hlane k hk).trans ((if_neg hj).trans hkon)) (hempty k hk)
  rw [hz, reenter_enters happart hfree (by rw [hzheld]; exact hheld) (fun l hm => hheldPc l (hzheld ▸ hm)) hl, hzheld, hlane l hl]
  by_cases hj : w.laneAt l = .on e ∨ w.laneAt l = .on f
  · have hnot : ¬ has w.heldMask l = true := fun hm => by
      have := (has_held hl).mp hm
      rcases hj with h | h <;> exact absurd (h.symm.trans this) nofun
    rw [if_neg hnot, if_pos hj, if_pos hj]
  · rw [if_neg hj, if_neg hj]

end Sys2Proof.Machine
end

