-- ==== Sys2Proof/Proofs/Transferring.lean ====
section
/-! PROOF, of O16. Transfers (07 R126, R127), the split table (01 R17) and the departure of a caravan (16 R265 to R267). -/

namespace Sys2Proof.Machine

/- Transfers that complete. -/

theorem has_allOnes {l : Nat} (hl : l < 32) : has (BitVec.allOnes 32) l = true := by
  unfold has
  rw [BitVec.getLsbD_allOnes]
  exact decide_eq_true hl

theorem targetCause_good {v : View} {t : W64} {l : Nat} (h57 : t.toNat < 2 ^ 57) (h4 : t.toNat % 4 = 0) (h32 : t.toNat % 32 ≠ 28) :
    v.targetCause .none t l = none := by
  rw [targetCause_none, if_neg (by rw [not_not]; exact Nat.div_eq_of_lt h57), if_neg (not_or.mpr ⟨not_not.mpr h4, h32⟩)]

/-- Where the lanes of a transfer go. -/
def View.goesTo (v : View) (t : Nat → W64) (l : Nat) : W64 := if has v.act l then t l else v.next

theorem no_cause {v : View} {c : CallOp} {t : Nat → W64} (h : ∀ l, has v.act l = true → v.targetCause c (t l) l = none) :
    (v.lanes.filterMap (fun l => v.targetCause c (t l) l)).head? = none := by
  rw [List.head?_eq_none_iff, List.filterMap_eq_nil_iff]
  exact fun l hl => h l ((mem_lanesOf v.act l).mp hl)

theorem moved_warp {s : State} {h : Hdr} {v : View} (hv : s.view h = some v) (c : CallOp) :
    tget (s.modWarp v.key (v.callStacks c)).warps v.key = some (v.callStacks c v.w) := by
  obtain ⟨-, -, -, hw, -⟩ := view_spec hv
  rw [modWarp_warps, tget_tmod_self, hw]
  rfl

theorem transfer_passes {s : State} {h : Hdr} {i : Instr} {v : View} {c : CallOp} {target : View → Nat → W64} (hi : Issues s h i v)
    (hok : ∀ l, has v.act l = true → v.targetCause c (target v l) l = none)
    (hseg : ∀ cur, s.travelSeg v = some cur → ∀ l, has v.act l = true → (nth v.g.segs cur Segment.init).holds (target v l) = true) :
    ∃ x, transfer s h i c target = .next x ∧ Passes s v (v.callStacks c v.w) (v.goesTo (target v)) x := by
  have hstep : ∃ x, transfer s h i c target = .next x ∧ Passes (s.modWarp v.key (v.callStacks c)) v (v.callStacks c v.w)
      (fun l => if has (BitVec.allOnes 32) l then nth (perLane (v.goesTo (target v))) l 0 else v.pc) x := by
    unfold transfer
    refine issue_jump hi.view hi.goes hi.calm ?_ (moved_warp hi.view c) rfl
    simp only [no_cause hok]
    cases hcur : s.travelSeg v with
    | none => rfl
    | some cur =>
      have haway : v.awayOf cur (target v) = 0 := by
        refine mask_ext fun l hl => ?_
        rw [View.awayOf, has_and, has_maskOf, show has (0 : Mask) l = false by simp [has]]
        cases ha : has v.act l with
        | false => rfl
        | true => rw [hseg cur hcur l ha, Bool.not_true, Bool.and_false, Bool.and_false]
      simp only [haway, BEq.rfl, if_true]
      rfl
  obtain ⟨x, hx, hp⟩ := hstep
  refine ⟨x, hx, hp.modWarp.congrNext fun l hl => ?_⟩
  rw [if_pos (has_allOnes (has_lt hl)), nth_perLane _ _ (has_lt hl)]

theorem cstack_callStacks (v : View) (c : CallOp) (w : Warp) {l : Nat} (hl : l < 32) : nth (v.callStacks c w).cstack l [] =
    if has v.act l then (match c with | .none => nth w.cstack l [] | .push => v.next :: nth w.cstack l [] | .pop => (nth w.cstack l []).drop 1)
    else nth w.cstack l [] := by
  refine (nth_map_range 32 (fun l => if has v.act l then (match c with
    | .none => nth w.cstack l []
    | .push => v.next :: nth w.cstack l []
    | .pop => (nth w.cstack l []).drop 1) else nth w.cstack l []) l [] hl).trans ?_
  cases c <;> rfl

/- The split table, of every instruction that moves its group. -/

theorem sendCaravan_warps (s : State) (v : View) (cur e : Nat) (t : W64) (m : Mask) : (s.sendCaravan v cur e t m).warps = s.warps := by
  have hread (u : State) (d cx a n : Nat) : (u.readsOut d cx a n).warps = u.warps := by rw [readsOut_same u d cx a n]
  unfold State.sendCaravan
  split
  · next w k _ _ =>
    simp only
    cases s.exitRec v.die v.g (nth v.g.segs cur Segment.init) (v.pc.toNat - (nth v.g.segs cur Segment.init).base.toNat) k with
    | none => exact hread s _ _ _ _
    | some r => exact (hread _ _ _ _ _).trans (hread s _ _ _ _)
  · rfl

theorem depart_table {s : State} {v : View} (h : TableAt v.key s) (cur : Nat) (m : Mask) (t : Nat → W64) : TableAt v.key (s.depart v cur m t) := by
  have hfold (xs : List ((W64 × Mask) × Nat)) : ∀ u : State, (xs.foldl (fun s x => s.sendCaravan v cur x.2 x.1.1 x.1.2) u).warps = u.warps := by
    induction xs with
    | nil => exact fun _ => rfl
    | cons x xs ih => exact fun u => (ih _).trans (sendCaravan_warps u v cur x.2 x.1.1 x.1.2)
  unfold State.depart
  refine (h.of_warps (hfold _ s)).modWarp v.key fun w hw => ?_
  exact tableOk_congr (w := w.setLanes m .vacant) rfl rfl (tableOk_iff.mpr ((tableOk_iff.mp hw).setOff nofun))

theorem transfer_table {s : State} {h : Hdr} {i : Instr} {v : View} {c : CallOp} {target : View → Nat → W64} (hi : Issues s h i v)
    (hx : exec i s = transfer s h i c target) (hok : v.w.tableOk) : ∀ t w, exec i s = .next t → tget t.warps v.key = some w → w.tableOk := by
  refine issue_table hi hx hok fun hs => ?_
  have hmoved : TableAt v.key (s.modWarp v.key (v.callStacks c)) := hs.modWarp v.key fun w hw => tableOk_congr rfl rfl hw
  dsimp only
  split
  · exact hs
  · exact hs
  · split
    · exact hmoved
    · split
      · exact hmoved
      · split
        · exact hs
        · split
          · exact hs
          · exact depart_table hmoved _ _ _

theorem nop_table {s : State} {h : Hdr} {v : View} (hi : Issues s h (.nop h) v) (hok : v.w.tableOk) :
    ∀ t w, exec (.nop h) s = .next t → tget t.warps v.key = some w → w.tableOk :=
  issue_table (eff := fun _ s => .done s) hi rfl hok id

theorem exit_table {s : State} {h : Hdr} {v : View} (hi : Issues s h (.exit h) v) (hok : v.w.tableOk) :
    ∀ t w, exec (.exit h) s = .next t → tget t.warps v.key = some w → w.tableOk := by
  refine issue_table hi (show exec (.exit h) s = execExit h s from rfl) hok fun hs => ?_
  dsimp only
  split
  · exact hs
  · split
    · exact hs
    · split
      · exact hs
      · exact hs
      · exact (hs.modWarp v.key fun w hw => idle_table hw v.act).of_warps (barJudgeAll_judges _ _ _ _).warps

theorem iadd_table {s : State} {h : Hdr} {m : IntM} {d a : W9} {b : SrcB} {v : View} (hi : Issues s h (.iadd h m d a b) v) (hok : v.w.tableOk) :
    ∀ t w, exec (.iadd h m d a b) s = .next t → tget t.warps v.key = some w → w.tableOk := by
  have hx : exec (.iadd h m d a b) s = issue s h (reqOf (.iadd h m d a b)) (fun v s => .done (v.outs s (reqOf (.iadd h m d a b) v)
      [perLane (fun l => narrowInt m.sat m.u 32 (ival m.u (v.w.rd a.toNat l) + ival m.u (v.w.srcB b l)))])) := rfl
  refine issue_table hi hx hok fun hs => TableAt.modWarp hs v.key fun w hw => ?_
  obtain ⟨rs, os, hk⟩ := putAll_keeps v (reqOf (.iadd h m d a b) v).sat ((reqOf (.iadd h m d a b) v).writes.zip
    [perLane (fun l => narrowInt m.sat m.u 32 (ival m.u (v.w.rd a.toNat l) + ival m.u (v.w.srcB b l)))]) w
  show (v.putAll _ w _).tableOk
  rw [hk]
  exact tableOk_congr rfl rfl hw

/-- What a WSYNC writes of the waits and clocks of its warp moves no thread. -/
theorem lwait_table {w : Warp} (hw : w.tableOk) (ls : List Nat) {f : Warp → Nat → Warp} (hf : ∀ x l, (f x l).lanes = x.lanes ∧ (f x l).pcs = x.pcs) :
    (ls.foldl f w).tableOk := by
  induction ls generalizing w with
  | nil => exact hw
  | cons l ls ih => exact ih (tableOk_congr (hf w l).1 (hf w l).2 hw)

theorem reaches_ite {p : Prop} [Decidable p] {k : Nat} {s : State} {a b : Eff} (ha : TableAt k (a.reaches s)) (hb : TableAt k (b.reaches s)) :
    TableAt k ((if p then a else b).reaches s) := by
  split
  · exact ha
  · exact hb

theorem wsync_table {s : State} {h : Hdr} {b : SrcB} {v : View} (hi : Issues s h (.wsync h b) v) (hok : v.w.tableOk) :
    ∀ t w, exec (.wsync h b) s = .next t → tget t.warps v.key = some w → w.tableOk := by
  refine issue_table hi (show exec (.wsync h b) s = execWsync h b s from rfl) hok fun hs => ?_
  refine reaches_ite hs (reaches_ite hs (reaches_ite hs ?_))
  show TableAt v.key (State.modWarp (if _ then State.modWarp (State.modWarp s v.key _) v.key _ else State.modWarp s v.key _) v.key _)
  refine TableAt.modWarp ?_ v.key fun w hw => ?_
  · split
    · refine TableAt.modWarp (TableAt.modWarp hs v.key fun w hw => ?_) v.key fun w hw => ?_
      · exact lwait_table hw _ fun _ _ => ⟨rfl, rfl⟩
      · exact tableOk_congr rfl rfl (lwait_table hw _ (f := fun w l => { w with lwait := lput w.lwait l .none (fun _ => .passed) }) fun _ _ => ⟨rfl, rfl⟩)
    · refine TableAt.modWarp hs v.key fun w hw => ?_
      exact lwait_table hw _ fun _ _ => ⟨rfl, rfl⟩
  · exact lwait_table hw _ fun _ _ => ⟨rfl, rfl⟩

/- The two groups of a BRA outside travel mode. -/

theorem goto_congr_next {w : Warp} {e : Nat} {f g : Nat → W64} (h : ∀ l, has (w.groupOf e) l = true → f l = g l) : w.goto e f = w.goto e g := by
  have hset : w.setPcs (w.groupOf e) f = w.setPcs (w.groupOf e) g := by
    have hmap : (List.range 32).map (fun l => if has (w.groupOf e) l then f l else w.pcAt l)
        = (List.range 32).map (fun l => if has (w.groupOf e) l then g l else w.pcAt l) :=
      List.map_congr_left fun l _ => by
        split
        · next hl => exact h l hl
        · rfl
    unfold Warp.setPcs
    rw [hmap]
  unfold Warp.goto
  rw [hset]

/-- The warp whose group counts an instruction and goes on. -/
def View.counted (v : View) (r : Req) (moved : Mask) (next : List W64) (n : Nat) (w : Warp) : Warp :=
  { v.recordOn r next n w with rep := none, count := allLanes.map (fun l => nth w.count l 0 + (if has (v.grp &&& moved) l then 1 else 0)) }

/-- Without a REP the whole entry goes where the effect sends it, and the table does the rest. -/
theorem jump_lanes {s s' : State} {h : Hdr} {i : Instr} {v : View} {eff : View → State → Eff} {pcs : List W64} {w : Warp} (hi : Issues s h i v)
    (hr : v.w.rep = none) (he : eff v s = .jump s' (BitVec.allOnes 32) pcs) (hw : tget s'.warps v.key = some w) (hl : w.lanes = v.w.lanes) :
    ∃ x w' next n, issue s h (reqOf i) eff = .next x ∧ tget x.warps v.key = some w'
      ∧ w'.lanes = ((v.counted (reqOf i v) (BitVec.allOnes 32) next n w).goto v.entry (fun l => nth pcs l 0)).lanes := by
  have hgroup := hi.wholeEntry hr
  have hgrp : v.grp &&& w.groupOf v.entry = v.grp := by
    rw [show w.groupOf v.entry = v.w.groupOf v.entry by simp [Warp.groupOf, hl], ← hgroup, BitVec.and_self]
  have hne : v.grp ≠ 0 := ((goes_iff v _).mp hi.goes).1
  have hagain : v.again = false := by rw [View.again, hr]
  obtain ⟨-, y, hy, hlive⟩ := advance_spec s' v (reqOf i v) (BitVec.allOnes 32) (fun l => nth pcs l 0) w hw hgrp hne
  set next := v.nexts w (BitVec.allOnes 32) (fun l => nth pcs l 0) with hnext
  have hrun : issue s h (reqOf i) eff = .next (s'.advance v (reqOf i v) (BitVec.allOnes 32) (fun l => nth pcs l 0)) := by
    rw [issue_goes hi.view hi.goes, he]
    simp only [State.finish, hi.calm, Option.isSome_none, Bool.false_eq_true, if_false]
    rw [retireWarp_live hy hlive]
  refine ⟨_, y, next, s'.issueCount, hrun, hy, ?_⟩
  have hy' : y = s'.stepStop v ((v.moveOn (BitVec.allOnes 32) next (v.recordOn (reqOf i v) next s'.issueCount w)).trackHang v.entry
      ((reqOf i v).progress && v.act != 0) (s'.col (coreColumn v.core)).window).prune := by
    unfold State.advance at hy
    simp only [hw, ← hnext] at hy
    rw [tget_tput_self] at hy
    exact (Option.some.inj hy).symm
  have hmove : (v.moveOn (BitVec.allOnes 32) next (v.recordOn (reqOf i v) next s'.issueCount w)).lanes
      = ((v.counted (reqOf i v) (BitVec.allOnes 32) next s'.issueCount w).goto v.entry (fun l => nth next l 0)).lanes := by
    have hin : v.grp &&& (v.recordOn (reqOf i v) next s'.issueCount w).groupOf v.entry = v.grp := hgrp
    unfold View.moveOn
    simp only [hagain, Bool.false_eq_true, if_false, hin, hne]
    exact (nextRep_same _).2.2.2
  rw [hy', (stepStop_same ..).2.2.1, (prune_same _).2.2.2, (trackHang_same ..).2.2.2, hmove]
  refine congrArg Warp.lanes (goto_congr_next fun l hm => ?_)
  have hm' : has v.grp l = true := by
    rw [hgroup]
    exact (has_group (has_lt hm)).mpr ((laneAt_of_lanes hl l).symm.trans ((has_group (w := w) (has_lt hm)).mp hm))
  rw [hnext, View.nexts]
  refine (nth_map_range 32 (fun l => if v.again || !has v.grp l then w.pcAt l else if has (BitVec.allOnes 32) l then nth pcs l 0 else v.pc) l 0 (has_lt hm)).trans ?_
  rw [hagain, hm', has_allOnes (has_lt hm)]
  rfl

theorem bra_lanes {s : State} {h : Hdr} {off : W32} {v : View} (hi : Issues s h (.bra h off) v) (hr : v.w.rep = none) (hseg : s.travelSeg v = none)
    (hgood : ∀ l, v.targetCause .none (v.relative off) l = none) :
    ∃ x w' next n, exec (.bra h off) s = .next x ∧ tget x.warps v.key = some w'
      ∧ w'.lanes = ((v.counted (reqOf (.bra h off) v) (BitVec.allOnes 32) next n (v.callStacks .none v.w)).goto v.entry (v.goesTo (fun _ => v.relative off))).lanes := by
  have hstep : ∃ x w' next n, transfer s h (.bra h off) .none (fun v _ => v.relative off) = .next x ∧ tget x.warps v.key = some w'
      ∧ w'.lanes = ((v.counted (reqOf (.bra h off) v) (BitVec.allOnes 32) next n (v.callStacks .none v.w)).goto v.entry
        (fun l => nth (perLane (v.goesTo (fun _ => v.relative off))) l 0)).lanes := by
    unfold transfer
    refine jump_lanes hi hr ?_ (moved_warp hi.view .none) rfl
    simp only [no_cause (t := fun _ => v.relative off) fun l _ => hgood l, hseg]
    rfl
  obtain ⟨x, w', next, n, hx, hw', hlanes⟩ := hstep
  refine ⟨x, w', next, n, hx, hw', hlanes.trans (congrArg Warp.lanes (goto_congr_next fun l hm => ?_))⟩
  exact nth_perLane _ _ (has_lt hm)

/-- The group splits: the lower PC keeps the entry. -/
theorem bra_split {s : State} {h : Hdr} {off : W32} {v : View} (hi : Issues s h (.bra h off) v) (hok : v.w.tableOk) (hr : v.w.rep = none)
    (hseg : s.travelSeg v = none) (hgood : ∀ l, v.targetCause .none (v.relative off) l = none) (hact : v.act ≠ 0) (haway : v.grp &&& ~~~ v.act ≠ 0)
    (hheld : v.w.heldMask = 0) (hne : v.relative off ≠ v.next)
    (hfar : ∀ e, e ≠ v.entry → v.w.entryPc e ≠ some (v.relative off) ∧ v.w.entryPc e ≠ some v.next) :
    ∃ x w, exec (.bra h off) s = .next x ∧ tget x.warps v.key = some w ∧ ∀ l, l < 32 → w.laneAt l =
      if has (if (v.relative off).toNat < v.next.toNat then v.act else v.grp &&& ~~~ v.act) l then .on v.entry
      else if has v.grp l then v.w.nextFree else v.w.laneAt l := by
  obtain ⟨x, w', next, n, hx, hw', hlanes⟩ := bra_lanes hi hr hseg hgood
  have hgroup := hi.wholeEntry hr
  have hsub {l : Nat} (hl : has v.act l = true) : has v.grp l = true := view_act_sub hi.view hl
  obtain ⟨la, hla⟩ := mask_ne_zero hact
  obtain ⟨lb, hlb⟩ := mask_ne_zero haway
  have hlb32 := has_lt hlb
  rw [has_and, has_not, decide_eq_true hlb32, Bool.true_and, Bool.and_eq_true, Bool.not_eq_true'] at hlb
  have hgoA : v.goesTo (fun _ => v.relative off) la = v.relative off := if_pos hla
  have hgoB : v.goesTo (fun _ => v.relative off) lb = v.next := if_neg (by rw [hlb.2]; exact Bool.false_ne_true)
  have hboth (l : Nat) : v.goesTo (fun _ => v.relative off) l = v.relative off ∨ v.goesTo (fun _ => v.relative off) l = v.next := by
    unfold View.goesTo
    split
    · exact .inl rfl
    · exact .inr rfl
  have hiff (l : Nat) : v.goesTo (fun _ => v.relative off) l = v.relative off ↔ has v.act l = true := by
    unfold View.goesTo
    split
    · next ha => exact ⟨fun _ => ha, fun _ => rfl⟩
    · next ha => exact ⟨fun hc => absurd hc.symm hne, fun hc => absurd hc ha⟩
  have hinA : has (v.w.groupOf v.entry) la = true := hgroup ▸ hsub hla
  have hinB : has (v.w.groupOf v.entry) lb = true := hgroup ▸ hlb.1
  refine ⟨x, w', hx, hw', fun l hl => ?_⟩
  have hon : v.w.laneAt l = .on v.entry ↔ has v.grp l = true := by rw [hgroup, has_group hl]
  have hlaneAt := laneAt_of_lanes hlanes l
  by_cases hlt : (v.relative off).toNat < v.next.toNat
  · have hgo := goto_split (w := v.counted (reqOf (.bra h off) v) (BitVec.allOnes 32) next n (v.callStacks .none v.w)) (e := v.entry)
      (f := v.goesTo (fun _ => v.relative off)) hok hheld hlt (fun l _ => hboth l) ⟨la, hinA, hgoA⟩ ⟨lb, hinB, hgoB⟩ hfar hl
    rw [hlaneAt, hgo, if_pos hlt]
    show (if v.w.laneAt l = .on v.entry then (if _ then LaneSt.on v.entry else v.w.nextFree) else v.w.laneAt l) = _
    rw [ite_congr (propext hon) (fun _ => rfl) fun _ => rfl, ite_congr (propext (hiff l)) (fun _ => rfl) fun _ => rfl]
    by_cases ha : has v.act l = true
    · rw [if_pos (hsub ha), if_pos ha, if_pos ha]
    · rw [if_neg ha, if_neg ha]
  · have hgt : v.next.toNat < (v.relative off).toNat := by
      have : (v.relative off).toNat ≠ v.next.toNat := fun hc => hne (BitVec.eq_of_toNat_eq hc)
      omega
    have hgo := goto_split (w := v.counted (reqOf (.bra h off) v) (BitVec.allOnes 32) next n (v.callStacks .none v.w)) (e := v.entry)
      (f := v.goesTo (fun _ => v.relative off)) hok hheld hgt (fun l _ => (hboth l).symm) ⟨lb, hinB, hgoB⟩ ⟨la, hinA, hgoA⟩ (fun e he => (hfar e he).symm) hl
    have hnext : v.goesTo (fun _ => v.relative off) l = v.next ↔ ¬ has v.act l = true := by
      rw [← hiff l]
      exact ⟨fun h1 h2 => hne (h2.symm.trans h1), fun hc => (hboth l).resolve_left hc⟩
    have hawayl : has (v.grp &&& ~~~ v.act) l = true ↔ has v.grp l = true ∧ ¬ has v.act l = true := by
      rw [has_and, has_not, decide_eq_true hl, Bool.true_and, Bool.and_eq_true, Bool.not_eq_true', Bool.not_eq_true]
    rw [hlaneAt, hgo, if_neg hlt]
    show (if v.w.laneAt l = .on v.entry then (if _ then LaneSt.on v.entry else v.w.nextFree) else v.w.laneAt l) = _
    rw [ite_congr (propext hon) (fun _ => rfl) fun _ => rfl, ite_congr (propext hnext) (fun _ => rfl) fun _ => rfl,
      ite_congr (b := has (v.grp &&& ~~~ v.act) l = true) (propext hawayl) (fun _ => rfl) fun _ => rfl]
    by_cases hg : has v.grp l = true
    · by_cases ha : has v.act l = true
      · rw [if_pos hg, if_neg (not_not.mpr ha), if_neg (fun hc => hc.2 ha), if_pos hg]
      · rw [if_pos hg, if_pos ha, if_pos ⟨hg, ha⟩]
    · rw [if_neg hg, if_neg (fun hc => hg hc.1), if_neg hg]

/-- The group joins the entry at the PC to which it comes, and held threads of one PC take the entry that came free. -/
theorem bra_join {s : State} {h : Hdr} {off : W32} {v : View} {f : Nat} (hi : Issues s h (.bra h off) v) (hok : v.w.tableOk) (hr : v.w.rep = none)
    (hseg : s.travelSeg v = none) (hgood : ∀ l, v.targetCause .none (v.relative off) l = none) (hfe : f ≠ v.entry)
    (hfp : v.w.entryPc f = some (v.relative off)) (haway : v.grp &&& ~~~ v.act = 0) :
    ∃ x w, exec (.bra h off) s = .next x ∧ tget x.warps v.key = some w
      ∧ (v.w.heldMask = 0 → ∀ l, l < 32 → w.laneAt l = if (has v.grp l || has (v.w.groupOf f) l) = true then .on (min v.entry f) else v.w.laneAt l)
      ∧ ∀ p, v.w.heldMask ≠ 0 → v.w.freeEntry = none → (∀ l, has v.w.heldMask l = true → v.w.pcAt l = p) → (∀ e, v.w.entryPc e ≠ some p) →
          ∀ l, l < 32 → w.laneAt l = if (has v.grp l || has (v.w.groupOf f) l) = true then .on (min v.entry f)
            else if has v.w.heldMask l then .on (max v.entry f) else v.w.laneAt l := by
  obtain ⟨x, w', next, n, hx, hw', hlanes⟩ := bra_lanes hi hr hseg hgood
  have hgroup := hi.wholeEntry hr
  have hne : v.w.groupOf v.entry ≠ 0 := hgroup ▸ ((goes_iff v _).mp hi.goes).1
  have hall (l : Nat) (hm : has (v.w.groupOf v.entry) l = true) : v.goesTo (fun _ => v.relative off) l = v.relative off := by
    refine if_pos ?_
    by_contra hna
    have : has (v.grp &&& ~~~ v.act) l = true := by
      rw [has_and, has_not, hgroup, hm, decide_eq_true (has_lt hm), Bool.true_and, Bool.true_and, Bool.not_eq_true']
      exact Bool.eq_false_iff.mpr hna
    rw [haway] at this
    exact absurd this (by simp [has])
  have hjoined {l : Nat} (hl : l < 32) : (v.w.laneAt l = .on v.entry ∨ v.w.laneAt l = .on f) ↔ (has v.grp l || has (v.w.groupOf f) l) = true := by
    rw [Bool.or_eq_true, hgroup, has_group hl, has_group hl]
  refine ⟨x, w', hx, hw', fun hheld l hl => ?_, fun p hheld hfull hp hno l hl => ?_⟩
  · have hgo := goto_join (w := v.counted (reqOf (.bra h off) v) (BitVec.allOnes 32) next n (v.callStacks .none v.w)) (e := v.entry)
      (g := v.goesTo (fun _ => v.relative off)) hok hne hfe hfp hall hheld hl
    rw [laneAt_of_lanes hlanes l, hgo]
    exact ite_congr (propext (hjoined hl)) (fun _ => rfl) fun _ => rfl
  · have hgo := goto_join_held (w := v.counted (reqOf (.bra h off) v) (BitVec.allOnes 32) next n (v.callStacks .none v.w)) (e := v.entry)
      (g := v.goesTo (fun _ => v.relative off)) hok hne hfe hfp hall hheld hfull hp hno hl
    rw [laneAt_of_lanes hlanes l, hgo]
    exact ite_congr (propext (hjoined hl)) (fun _ => rfl) fun _ => rfl

/- The departure of one caravan. -/

theorem has_laneBit_eq {l : Nat} (hl : l < 32) (j : Nat) : has (laneBit l) j = decide (j = l) := by
  unfold has laneBit
  rw [BitVec.getLsbD_ofNat, Nat.testBit_two_pow]
  by_cases hj : j = l
  · simp [hj, hl]
  · simp [hj, Ne.symm hj]

theorem has_laneBits (ls : List Nat) (hls : ∀ l ∈ ls, l < 32) (a : Mask) (j : Nat) :
    has (ls.foldl (fun a l => a ||| laneBit l) a) j = (has a j || decide (j ∈ ls)) := by
  induction ls generalizing a with
  | nil => simp
  | cons l ls ih =>
    rw [List.foldl_cons, ih fun k hk => hls k (.tail _ hk), has_or, has_laneBit_eq (hls l (.head _)), Bool.or_assoc]
    simp only [List.mem_cons, Bool.decide_or]

/-- A lane joins the departing lanes of its target. -/
def joinDeparture (p : W64) (gs : List (W64 × Mask)) (l : Nat) : List (W64 × Mask) :=
  if gs.any (fun x => x.1 == p) then gs.map (fun x => if x.1 == p then (x.1, x.2 ||| laneBit l) else x) else gs ++ [(p, laneBit l)]

theorem joinDeparture_one (p : W64) (a : Mask) (l : Nat) : joinDeparture p [(p, a)] l = [(p, a ||| laneBit l)] := by simp [joinDeparture]

theorem joinDepartures_one (p : W64) (ls : List Nat) (a : Mask) : ls.foldl (joinDeparture p) [(p, a)] = [(p, ls.foldl (fun a l => a ||| laneBit l) a)] := by
  induction ls generalizing a with
  | nil => rfl
  | cons l ls ih => rw [List.foldl_cons, joinDeparture_one, ih, List.foldl_cons]

/-- Lanes of one target leave together. -/
theorem departGroups_one {m : Mask} (hm : m ≠ 0) (p : W64) : departGroups m (fun _ => p) = [(p, m)] := by
  rw [show departGroups m (fun _ => p) = (lanesOf m).foldl (joinDeparture p) [] from rfl]
  cases hls : lanesOf m with
  | nil =>
    obtain ⟨l, hl⟩ := mask_ne_zero hm
    have := (mem_lanesOf m l).mpr hl
    rw [hls] at this
    exact absurd this List.not_mem_nil
  | cons l ls =>
    have hlt (k : Nat) (hk : k ∈ l :: ls) : k < 32 := has_lt ((mem_lanesOf m k).mp (hls ▸ hk))
    rw [List.foldl_cons]
    refine (joinDepartures_one p ls (laneBit l)).trans ?_
    refine congrArg (fun a => [(p, a)]) (mask_ext fun j hj => ?_)
    rw [has_laneBits ls (fun k hk => hlt k (.tail _ hk)), Bool.eq_iff_iff, Bool.or_eq_true, decide_eq_true_iff, ← mem_lanesOf m j, hls, List.mem_cons]
    rw [has_laneBit_eq (hlt l (.head _)), decide_eq_true_iff]

/-- The caravan of lanes m of a warp to a target in segment k. -/
def State.caravanOf (s : State) (v : View) (w : Warp) (entry k : Nat) (target : W64) (m : Mask) (r : ExitRec) : Caravan :=
  let id := v.core * 2 ^ 24 + (s.core v.core).departures % 2 ^ 24
  { key := s.nextKey, dst := s.chooseReplica (nth v.g.segs k Segment.init) id, stamp := s.tsc, source := v.core,
    mask := m, target := target, id := id, seg := k, clk := w.clk, regs := r.regs.map (fun i => (i, carryReg (w.reg i) m)),
    preds := (List.range 15).map (fun p => if field r.pmask p 1 == 1 then nth w.preds p 0 &&& m else 0),
    tid := allLanes.map (fun l => if has m l then (nth w.ids l (0, 0)).1 else 0),
    bid := allLanes.map (fun l => if has m l then (nth w.ids l (0, 0)).2 else 0),
    cstack := allLanes.map (fun l => if has m l then nth w.cstack l [] else []),
    icinvs := (w.icinvs.map (fun i => (i.1, i.2.1, i.2.2 &&& m))).filter (fun i => i.2.2 != 0), entry := entry, grid := v.gk, note := none }

/-- A caravan joins those under way, and its ring entry is reserved. -/
theorem sendCaravan_sends {s : State} {v : View} {w : Warp} {cur e k : Nat} {target : W64} {m : Mask} {r : ExitRec} (hw : tget s.warps v.key = some w)
    (hk : v.g.segAt target = some k)
    (hr : s.exitRec v.die v.g (nth v.g.segs cur Segment.init) (v.pc.toNat - (nth v.g.segs cur Segment.init).base.toNat) k = some r) :
    (s.sendCaravan v cur e target m).caravans = s.caravans ++ [s.caravanOf v w e k target m r]
      ∧ (s.sendCaravan v cur e target m).grids = tmod s.grids v.gk (fun g => { g with ring := tput g.ring e { state := 0, car := none, since := 0 } })
      ∧ (s.sendCaravan v cur e target m).blocks = s.blocks := by
  unfold State.sendCaravan
  simp only [hw, hk, hr, Option.map_some, Option.getD_some]
  have hread := readsOut_same s v.die v.g.ctx (nth v.g.segs cur Segment.init).exitt.toNat (16 * (nth v.g.segs cur Segment.init).nexit)
  generalize s.readsOut v.die v.g.ctx (nth v.g.segs cur Segment.init).exitt.toNat (16 * (nth v.g.segs cur Segment.init).nexit) = u at *
  have hread' := hread.trans (readsOut_same u v.die v.g.ctx r.list (2 * r.nregc))
  generalize u.readsOut v.die v.g.ctx r.list (2 * r.nregc) = y at *
  unfold SameButOut at hread'
  refine ⟨?_, ?_, ?_⟩
  · show y.caravans ++ _ = _
    rw [show y.caravans = s.caravans by rw [hread']]
    rfl
  · show tmod y.grids v.gk _ = _
    rw [show y.grids = s.grids by rw [hread']]
  · show y.blocks = _
    rw [hread']

/-- What a warp that has ended in a travel replica leaves: the caravans and the rings stand. -/
theorem retireWarp_travels {s : State} {k : Nat} {w : Warp} {b : Block} {g : Grid} (hw : tget s.warps k = some w) (hb : s.blk? w.blk = some b)
    (hg : tget s.grids b.grid = some g) (htravel : (g.rec_.travel && !b.isChild g) = true) :
    (s.retireWarp k).caravans = s.caravans
      ∧ (∀ gk g, tget s.grids gk = some g → ∃ g', tget (s.retireWarp k).grids gk = some g' ∧ g'.ring = g.ring)
      ∧ ∀ x, tget (s.retireWarp k).warps k = some x → x = w := by
  by_cases hlive : w.live = 0
  · obtain ⟨hwarps, hblocks, hgrids⟩ := warpGone_spec s k w
    have hkeep : ((s.leaveIcinvs k w).warpGone k w).caravans = s.caravans
        ∧ ∀ gk g, tget s.grids gk = some g → ∃ g', tget ((s.leaveIcinvs k w).warpGone k w).grids gk = some g' ∧ g'.ring = g.ring := by
      have hleave : (s.leaveIcinvs k w).caravans = s.caravans ∧ (s.leaveIcinvs k w).grids = s.grids := by
        unfold State.leaveIcinvs
        split <;> exact ⟨rfl, rfl⟩
      unfold State.warpGone
      simp only
      split
      · exact ⟨hleave.1, fun gk g hg => ⟨g, hleave.2 ▸ hg, rfl⟩⟩
      · next c _ =>
        refine ⟨hleave.1, fun gk g hg => ?_⟩
        show ∃ g', tget (tmod (s.leaveIcinvs k w).grids c.grid _) gk = some g' ∧ _
        rw [hleave.2, tget_tmod, hg]
        split
        · exact ⟨_, rfl, rfl⟩
        · exact ⟨g, rfl, rfl⟩
    unfold State.retireWarp
    simp only [hw, hlive, bne_self_eq_false, Bool.false_eq_true, if_false]
    generalize (s.leaveIcinvs k w).warpGone k w = u at *
    have hub : u.blk? w.blk = some b := by rw [State.blk?, hblocks]; exact hb
    obtain ⟨g1, hg1, hrec⟩ := Option.map_eq_some_iff.mp ((hgrids b.grid).trans (congrArg (Option.map Grid.rec_) hg))
    have htravel1 : (g1.rec_.travel && !b.isChild g1) = true := by rw [Block.isChild, hrec, ← Block.isChild]; exact htravel
    have hnone : tget u.warps k = none := by rw [hwarps, tget_tdel, if_pos rfl]
    simp only [hub, hg1, htravel1, if_true]
    split
    · exact ⟨hkeep.1, hkeep.2, fun x hx => absurd (hnone.symm.trans hx) nofun⟩
    · exact ⟨hkeep.1, hkeep.2, fun x hx => absurd (hnone.symm.trans hx) nofun⟩
  · rw [retireWarp_live hw hlive]
    exact ⟨rfl, fun gk g hg => ⟨g, hg, rfl⟩, fun x hx => Option.some.inj (hx.symm.trans hw)⟩

/-- The warp whose lanes have left. -/
def Warp.vacate (w : Warp) (m : Mask) : Warp :=
  { w.setLanes m .vacant with icinvs := (w.icinvs.map (fun i => (i.1, i.2.1, i.2.2 &&& ~~~ m))).filter (fun i => i.2.2 != 0) }

theorem depart_one {s : State} {v : View} {cur e : Nat} {rest : List Nat} {m : Mask} (hm : m ≠ 0) (hcredits : v.g.freeCredits = e :: rest) (p : W64) :
    s.depart v cur m (fun _ => p) = (s.sendCaravan v cur e p m).modWarp v.key (fun w => w.vacate m) := by
  unfold State.depart
  rw [departGroups_one hm, hcredits]
  rfl

/-- A BRA that sends all its active lanes out of their segment as one caravan. -/
theorem bra_departs {s : State} {h : Hdr} {off : W32} {v : View} {cur e : Nat} {rest : List Nat} (hi : Issues s h (.bra h off) v)
    (hact : v.act ≠ 0) (hgood : ∀ l, v.targetCause .none (v.relative off) l = none) (hcur : s.travelSeg v = some cur)
    (hout : (nth v.g.segs cur Segment.init).holds (v.relative off) = false) (hops : ∀ o ∈ v.w.ops, o.done = false → o.group &&& v.act = 0)
    (hcredits : v.g.freeCredits = e :: rest) (hcheck : s.departCheck v cur false (v.relative off) = none) :
    exec (.bra h off) s = .next (((((s.modWarp v.key (v.callStacks .none)).sendCaravan v cur e (v.relative off) v.act).modWarp v.key
      (fun w => w.vacate v.act)).advance v (reqOf (.bra h off) v) (BitVec.allOnes 32) (fun l => nth (perLane (v.goesTo (fun _ => v.relative off))) l 0)).retireWarp v.key) := by
  have haway : v.awayOf cur (fun _ => v.relative off) = v.act := by
    refine mask_ext fun l hl => ?_
    rw [View.awayOf, has_and, has_maskOf, hout, decide_eq_true hl, Bool.not_false, Bool.and_true, Bool.and_true]
  have hne : (v.act == 0) = false := by simpa using hact
  have hbusy : v.w.ops.any (fun o => !o.done && o.group &&& v.act != 0) = false := by
    rw [List.any_eq_false]
    intro o ho
    cases hd : o.done with
    | true => simp
    | false => simp [hops o ho hd]
  have hshort : decide (v.g.freeCredits.length < (departGroups v.act (fun _ => v.relative off)).length) = false := by
    rw [departGroups_one hact, hcredits]
    simp
  have hclear : ((lanesOf v.act).filterMap (fun _ => s.departCheck v cur false (v.relative off))).head? = none := by
    rw [List.head?_eq_none_iff, List.filterMap_eq_nil_iff]
    exact fun _ _ => hcheck
  show transfer s h (.bra h off) .none (fun v _ => v.relative off) = _
  unfold transfer
  rw [issue_goes hi.view hi.goes]
  simp only [no_cause (t := fun _ => v.relative off) fun l _ => hgood l, hcur, haway, hne, hbusy, hshort, hclear, depart_one hact hcredits,
    Bool.false_eq_true, if_false, State.finish, hi.calm, Option.isSome_none]
  rfl

theorem bra_caravan {s : State} {h : Hdr} {off : W32} {v : View} {cur k e : Nat} {rest : List Nat} {r : ExitRec} (hi : Issues s h (.bra h off) v)
    (hact : v.act ≠ 0) (hgood : ∀ l, v.targetCause .none (v.relative off) l = none) (hcur : s.travelSeg v = some cur)
    (hout : (nth v.g.segs cur Segment.init).holds (v.relative off) = false) (hops : ∀ o ∈ v.w.ops, o.done = false → o.group &&& v.act = 0)
    (hcredits : v.g.freeCredits = e :: rest) (hk : v.g.segAt (v.relative off) = some k)
    (hr : s.exitRec v.die v.g (nth v.g.segs cur Segment.init) (v.pc.toNat - (nth v.g.segs cur Segment.init).base.toNat) k = some r)
    (hcheck : s.departCheck v cur false (v.relative off) = none) :
    ∃ x g, exec (.bra h off) s = .next x ∧ x.caravans = s.caravans ++ [s.caravanOf v (v.callStacks .none v.w) e k (v.relative off) v.act r]
      ∧ tget x.grids v.gk = some g ∧ tget g.ring e = some ⟨0, none, 0⟩
      ∧ ∀ w, tget x.warps v.key = some w → w.regs = v.w.regs ∧ ∀ l, l < 32 → has v.act l = true → w.laneAt l = .vacant := by
  obtain ⟨-, -, -, -, -, -, -, -, hbk, hb, hgk, hg⟩ := view_spec hi.view
  have hmoved := moved_warp hi.view .none
  obtain ⟨hcar, hgrids, hblocks⟩ := sendCaravan_sends (s := s.modWarp v.key (v.callStacks .none)) (e := e) (m := v.act) hmoved hk hr
  have hsent := sendCaravan_warps (s.modWarp v.key (v.callStacks .none)) v cur e (v.relative off) v.act
  have hrun := bra_departs hi hact hgood hcur hout hops hcredits hcheck
  generalize (s.modWarp v.key (v.callStacks .none)).sendCaravan v cur e (v.relative off) v.act = u at *
  have hleft : tget (u.modWarp v.key (fun w => w.vacate v.act)).warps v.key = some ((v.callStacks .none v.w).vacate v.act) := by
    rw [modWarp_warps, tget_tmod_self, hsent, hmoved]
    rfl
  obtain ⟨w', hadv, hcarries⟩ := advance_carries (reqOf (.bra h off) v) (BitVec.allOnes 32) (fun l => nth (perLane (v.goesTo (fun _ => v.relative off))) l 0) hleft
  rw [hadv] at hrun
  have hblk : w'.blk = v.bk := by
    rw [hcarries.same, hbk]
    rfl
  have hub : u.blk? v.bk = some v.b := (congrArg (tget · v.bk) hblocks).trans hb
  have hug : tget u.grids v.gk = some { v.g with ring := tput v.g.ring e { state := 0, car := none, since := 0 } } := by
    rw [hgrids, tget_tmod_self]
    show Option.map _ (tget s.grids v.gk) = _
    rw [hg]
    rfl
  have htravels : (v.g.rec_.travel && !v.b.isChild v.g) = true := by
    by_contra hno
    have hnot : v.travels = false := by rw [View.travels]; exact Bool.eq_false_iff.mpr hno
    rw [State.travelSeg, hnot] at hcur
    exact absurd hcur nofun
  obtain ⟨hcar', hring, hwarp⟩ := retireWarp_travels (s := { u.modWarp v.key (fun w => w.vacate v.act) with
      warps := tput (u.modWarp v.key (fun w => w.vacate v.act)).warps v.key w', issueCount := (u.modWarp v.key (fun w => w.vacate v.act)).issueCount + 1 })
    (w := w') (b := v.b) (g := { v.g with ring := tput v.g.ring e { state := 0, car := none, since := 0 } }) (tget_tput_self _ v.key w') (by rw [hblk]; exact hub) (hgk ▸ hug) htravels
  obtain ⟨g, hg', hgring⟩ := hring v.gk _ hug
  refine ⟨_, g, hrun, hcar'.trans hcar, hg', by rw [hgring, tget_tput_self], fun w hw => ?_⟩
  obtain rfl := hwarp w hw
  refine ⟨by rw [hcarries.same]; rfl, fun l hl ha => ?_⟩
  have hvacant : ((v.callStacks .none v.w).vacate v.act).laneAt l = .vacant := (laneAt_setLanes (v.callStacks .none v.w) v.act .vacant hl).trans (if_pos ha)
  exact (hcarries.gone l hl (by rw [hvacant]; rfl)).trans hvacant

/- The obligation. -/

/-- Settles O16: a transfer that completes moves its lanes alone; every operation on the split table keeps it in order, a trap
and the way back from one too; and a group of one target leaves as one caravan. -/
theorem transfers : Obligations.Transfers := by
  intro h off a s v depth runs disp old
  have hgood {t : W64} (h57 : t.toNat < 2 ^ 57) (h4 : t.toNat % 4 = 0) (h32 : t.toNat % 32 ≠ 28) (l : Nat) : v.targetCause .none t l = none :=
    targetCause_good h57 h4 h32
  have hruns (i : Instr) (c : CallOp) (target : View → Nat → W64) (room : Nat → Prop) (stack : Nat → List W64)
      (hx : Issues s h i v → exec i s = transfer s h i c target) (hroom : ∀ l, room l → v.targetCause c (target v l) l = v.targetCause .none (target v l) l)
      (hstack : ∀ l, l < 32 → has v.act l = true → nth (v.callStacks c v.w).cstack l [] = stack l) :
      runs i room (target v) stack := by
    intro hi hall
    obtain ⟨x, hrun, hp⟩ := transfer_passes (c := c) (target := target) hi (fun l hl => by
      obtain ⟨hr, h57, h4, h32, -⟩ := hall l hl
      exact (hroom l hr).trans (hgood h57 h4 h32 l)) fun cur hcur l hl => by
      obtain ⟨-, -, -, -, hin⟩ := hall l hl
      exact hin cur hcur
    refine ⟨x, v.callStacks c v.w, (hx hi).trans hrun, hp, rfl, fun l hl => ?_⟩
    by_cases ha : has v.act l = true
    · rw [if_pos ha, hstack l hl ha]
    · rw [if_neg ha, cstack_callStacks v c v.w hl, if_neg ha]
  refine ⟨hruns _ .none (fun v _ => v.relative off) _ _ (fun _ => rfl) (fun _ _ => rfl) (fun l hl ha => (cstack_callStacks v _ v.w hl).trans (if_pos ha)),
    hruns _ .none (fun v l => v.w.rd64 a.toNat l) _ _ (fun _ => rfl) (fun _ _ => rfl) (fun l hl ha => (cstack_callStacks v _ v.w hl).trans (if_pos ha)),
    hruns _ .push (fun v _ => v.relative off) _ _ (fun _ => rfl) (fun l hl => by rw [targetCause_push, if_neg (not_le.mpr hl)]) (fun l hl ha => (cstack_callStacks v _ v.w hl).trans (if_pos ha)),
    hruns _ .push (fun v l => v.w.rd64 a.toNat l) _ _ (fun _ => rfl) (fun l hl => by rw [targetCause_push, if_neg (not_le.mpr hl)]) (fun l hl ha => (cstack_callStacks v _ v.w hl).trans (if_pos ha)),
    hruns _ .pop (fun v l => (nth v.w.cstack l []).headD 0) _ _ (fun _ => rfl) (fun l hl => by rw [targetCause_pop, if_neg (Nat.pos_iff_ne_zero.mp hl)]) (fun l hl ha => (cstack_callStacks v _ v.w hl).trans (if_pos ha)),
    fun hok m d b i hmem hi => ?_, fun hok hi hseg hr h57 h4 h32 => ?_, fun cur k e rest r => ?_⟩
  · simp only [List.mem_cons, List.not_mem_nil, or_false] at hmem
    rcases hmem with rfl | rfl | rfl | rfl | rfl | rfl | rfl | rfl | rfl
    · exact transfer_table (c := .none) (target := fun v _ => v.relative off) hi rfl hok
    · exact transfer_table (c := .none) (target := fun v l => v.w.rd64 a.toNat l) hi rfl hok
    · exact transfer_table (c := .push) (target := fun v _ => v.relative off) hi rfl hok
    · exact transfer_table (c := .push) (target := fun v l => v.w.rd64 a.toNat l) hi rfl hok
    · exact transfer_table (c := .pop) (target := fun v l => (nth v.w.cstack l []).headD 0) hi rfl hok
    · exact nop_table hi hok
    · exact exit_table hi hok
    · exact wsync_table hi hok
    · exact iadd_table hi hok
  · intro away lanesAre
    refine ⟨fun hact haway hheld hne hfar => bra_split hi hok hr hseg (hgood h57 h4 h32) hact haway hheld hne hfar, fun f hfe hfp haway => ?_⟩
    obtain ⟨x, w, hx, hw, hfree, hheld⟩ := bra_join hi hok hr hseg (hgood h57 h4 h32) hfe hfp haway
    exact ⟨fun h0 => ⟨x, w, hx, hw, hfree h0⟩, fun p hne hfull hp hno => ⟨x, w, hx, hw, hheld p hne hfull hp hno⟩⟩
  · intro here id hi hact h57 h4 h32 hcur hout hops hcredits hk hrec hcheck
    obtain ⟨x, g, hx, hcar, hg, hring, hw⟩ := bra_caravan hi hact (hgood h57 h4 h32) hcur hout hops hcredits hk hrec hcheck
    exact ⟨x, _, g, hx, hcar, rfl, rfl, rfl, rfl, rfl, rfl, rfl, rfl, rfl, hg, hring, hw⟩

end Sys2Proof.Machine
end
